-- ==== Sys2Proof/Word.lean ====
section
/-! DEFINITION. Words of the CX2 and the plainest facts about their widths (00_scope R2). -/

namespace Sys2Proof

/-- A byte, the unit of memory. -/
abbrev Byte := BitVec 8

/-- A 32-bit register value or instruction word. -/
abbrev W32 := BitVec 32

/-- A 64-bit conductor register or address before resolution. -/
abbrev W64 := BitVec 64

/-- Number of lanes in a group (00_scope R1). -/
abbrev laneCount : Nat := 32

end Sys2Proof
end

