-- ==== Sys2Proof/Config.lean ====
section
/-! DEFINITION. What one CX2 fixes: the shared figures of 00_scope R1, the table sizes the chapters state,
and the free values the spec leaves open (opaque: nothing can evaluate them). -/

namespace Sys2Proof.Config

/-- Presented cores (R1). -/
def cores : Nat := 192
/-- Clusters of eight cores (R1). -/
def clusters : Nat := 24
/-- Cores in a cluster (R1). -/
def coresPerCluster : Nat := 8
/-- The highest core clock in MHz (R1). -/
def maxMhz : Nat := 2100
/-- Stack pairs of two clusters (R1). -/
def pairs : Nat := 12
/-- Contexts (R1). -/
def contexts : Nat := 64
/-- Hardware queues (R1, R321). -/
def queues : Nat := 256
/-- Wagon queues (R1, R244). -/
def wagonQueues : Nat := 64
/-- Depot pools (R1, R216). -/
def depotPools : Nat := 256
/-- Group slots of a core (R1, R412). -/
def groupsPerCore : Nat := 32
/-- Register-file units of a core: the bound on groups times registers per thread (R42). -/
def coreRegisters : Nat := 8192
/-- Scratchpad bytes of a core (R84). -/
def scratchBytes : Nat := 1048576
/-- Array bytes of a unified core (R94). -/
def unifiedBytes : Nat := 1179648
/-- Named barriers of a core (R334). -/
def coreBarriers : Nat := 64
/-- Accumulators of a core (R1). -/
def coreAccs : Nat := 8
/-- Teams of a core (R334). -/
def coreTeams : Nat := 32
/-- Conductor contexts of a core (R17). -/
def coreConductors : Nat := 4
/-- Entries of a feed queue (R18). -/
def feedEntries : Nat := 16
/-- Future slots of a group (R48). -/
def futureSlots : Nat := 16
/-- Hardware entries of a return stack (R49). -/
def returnEntries : Nat := 16
/-- Entries of a matrix queue (R230). -/
def matrixEntries : Nat := 4
/-- Entries of a copy engine (R240). -/
def copyEntries : Nat := 8
/-- Entries of a cluster engine queue (R248). -/
def engineEntries : Nat := 32
/-- Rows a wagon queue holds (R244). -/
def wagonRows : Nat := 256
/-- Entries of the ready pool (R330). -/
def readyEntries : Nat := 4096
/-- Entries of a core's operand log (R374). -/
def operandLogEntries : Nat := 64
/-- Records of the fault buffer (R372). -/
def faultRecords : Nat := 4096
/-- Records of the supervisor's report ring (R383). -/
def reportRecords : Nat := 1024
/-- Deepest spawned grid (R23). -/
def maxDepth : Nat := 10
/-- Walkers of a cluster (17 R365). -/
def walkers : Nat := 8
/-- Loads the residency engine runs at once (R314). -/
def layerLoads : Nat := 4
/-- Entries of the migration table (R371). -/
def migrationEntries : Nat := 64
/-- First physical address of the peer aperture (R400). -/
def peerAperture : Nat := 0xF00000000000
/-- Upper limit of device virtual addresses that are global (R80). -/
def globalLimit : Nat := 0xFF0000000000
/-- Core groups slots before the conductor slots of the trap-record region (R308, R304). -/
def groupTrapSlots : Nat := 6144
/-- Bytes of a trap-record region (R304). -/
def trapRegionBytes : Nat := 442368
/-- Teams of a gang (R12). -/
def maxGang : Nat := 12
/-- Queue pairs of a port (R398). -/
def queuePairs : Nat := 128
/-- One-time signature indices (R404). -/
def signatureIndices : Nat := 1048576
/-- Bytes of an XMSS signature in an attestation report (R404). -/
def signatureBytes : Nat := 2820
/-- Records of a team count (R8). -/
def maxTeams : Nat := 4194304

/-- Free value: a result the spec leaves without a value, a new one for each number (log 9). -/
opaque freeWord : Nat → W32
/-- Free value: the set of an L2 slice in which a line lies; R315 uses sets and no rule gives the index (log 9). -/
opaque l2Set : Nat → Nat
/-- Free value: the XMSS-SHAKE256 signature over the first bytes of a report with a one-time index (R404, log 9). -/
opaque signature : Nat → List Byte → Nat → Byte
/-- Free value: the SHAKE256 measurement of an image and the identity-key hash (R404, log 9). -/
opaque measurement : List Byte → Nat → Byte
/-- Free value: the SHAKE256 hash of the device identity public key (R404, log 9). -/
opaque identityKeyHash : Nat → Byte
/-- Free value: the version an image carries; no rule gives its place (R403, log 9). -/
opaque imageVersion : List Byte → W32
/-- Free value: the 802.1AS time of the port in nanoseconds at a front-end cycle (R401, R402, log 9). -/
opaque portTime : Nat → Nat
/-- Free value: whether an image verifies under XMSS with the root key, or for the supervisor software with the machine builder's key, which
the first argument names (R403, log 9). -/
opaque imageVerifies : Bool → List Byte → Bool
/-- Free value: the queue pair to which core 6 binds a gigabyte of the peer aperture (R400, log 9). -/
opaque peerPair : Nat → Nat
/-- Free value: the object a Smisal module translates to, or none when it fails translation; the first argument is ORIGIN1 of the
module's header (R293, R300, R303, log 9). -/
opaque smisalTranslate : Bool → List Byte → Option (List Byte)

end Sys2Proof.Config
end

