-- ==== Sys2Proof/Syntax.lean ====
section
/-! DEFINITION. The ONE instruction type: a constructor for every row of spec/opcode_table.json. Word rows carry
the fields of their 32-bit word (06 R132); command and message rows carry the fields of their 64-byte record
(15 R327, 19 R396); event rows carry the names of what they act on. -/

set_option linter.unusedVariables false

namespace Sys2Proof

/-- A 4-bit operand field (06 R129). -/
abbrev OField := BitVec 4
/-- A main-register index (06 R132). -/
abbrev VIdx := BitVec 8
/-- A uniform or conductor register index (06 R131, R132). -/
abbrev SIdx := BitVec 6
/-- A predicate index (02 R43). -/
abbrev PIdx := BitVec 3

/-- A guard: a predicate index and a negate bit (06 R130). Form M has no negate bit. -/
structure Guard where
  pred : PIdx
  neg : Bool
deriving DecidableEq, Repr

/-- Integer conditions (07 R155). -/
inductive Cond where
  | eq | ne | ltI | leI | gtI | geI | ltN | leN | gtN | geN
deriving DecidableEq, Repr

/-- Floating conditions (07 R162). -/
inductive FCond where
  | eq | ne | lt | le | gt | ge | un | ord
deriving DecidableEq, Repr

/-- Scales of lea (07 R158). -/
inductive LeaScale where
  | x1 | x2 | x4 | x8 | x16
deriving DecidableEq, Repr

/-- Packed 16-bit element types (07 R163). -/
inductive HalfKind where
  | f16 | bf16
deriving DecidableEq, Repr

/-- Kinds of cvt operands (07 R166). -/
inductive CvtKind where
  | f32 | f16 | bf16 | b8 | i32 | n32
deriving DecidableEq, Repr

/-- Integer functions with a uniform b operand: the tables of R155, R156, R158 without those that use c (07 R159). -/
inductive IntUFn where
  | add | sub | mul | mulhiI | mulhiN | minI | minN | maxI | maxN
  | cmp (k : Cond)
  | and | or | xor | andn | shl | shrN | shrI | rot | bfeN | bfeI | popc | clz | brev
  | lea (f : LeaScale)
  | add64
  | cmp64 (k : Cond)
deriving DecidableEq, Repr

/-- Floating functions with a uniform b operand (07 R164). -/
inductive FloatUFn where
  | fadd | fsub | fmul | fmin | fmax | fclass
  | fcmp (k : FCond)
  | hadd2 (t : HalfKind)
  | hmul2 (t : HalfKind)
deriving DecidableEq, Repr

/-- Modes of shfl (07 R171). -/
inductive ShflMode where
  | idx | up | down | xor
deriving DecidableEq, Repr

/-- Table look-up widths (07 R173). -/
inductive TluKind where
  | b32 | n8
deriving DecidableEq, Repr

/-- Predicate votes (07 R174). -/
inductive VoteKind where
  | all | any | uni
deriving DecidableEq, Repr

/-- Forms of match (07 R174). -/
inductive MatchKind where
  | any | all
deriving DecidableEq, Repr

/-- Section widths (07 R174, 01 R11). -/
inductive SectWidth where
  | w2 | w4 | w8 | w16 | w32
deriving DecidableEq, Repr

/-- Reduction and scan operations (07 R176). -/
inductive RedOp where
  | add | minI | maxI | minN | maxN | and | or | xor | fadd | fmin | fmax
deriving DecidableEq, Repr

/-- Barrier reduction operations (08 R204). -/
inductive BarOp where
  | add | minI | maxI | minN | maxN | and | or
deriving DecidableEq, Repr

/-- Two-predicate operations (07 R180). -/
inductive PlopOp where
  | and | or | xor | andn
deriving DecidableEq, Repr

/-- Spaces of an M-form address (04 R79). -/
inductive Space where
  | glb | spad | priv | gen
deriving DecidableEq, Repr

/-- Memory types of ld and ldx (08 R194). -/
inductive LoadType where
  | n8 | i8 | n16 | i16 | b32 | b64 | b96 | b128
deriving DecidableEq, Repr

/-- Memory types of st and stx (08 R194). -/
inductive StoreType where
  | b8 | b16 | b32 | b64 | b96 | b128
deriving DecidableEq, Repr

/-- Operations of atom and red (08 R199). -/
inductive AtomOp where
  | add | minI | maxI | minN | maxN | and | or | xor | exch | cas | add64 | exch64 | cas64
deriving DecidableEq, Repr

/-- Ordering of an atomic (08 R199). -/
inductive AtomOrd where
  | none | acq | rel | ar
deriving DecidableEq, Repr

/-- Fence scopes (05 R110). -/
inductive Scope where
  | grp | team | gang | dev | sys
deriving DecidableEq, Repr

/-- Phase steps (08 R203). -/
inductive PhaseKind where
  | rel | acq | ar
deriving DecidableEq, Repr

/-- How major 0x39 names its slot: by the immediate, or by a uniform register; with a register imm[3:0] has no use and no rule
asks for zero there (09 R252). -/
inductive SlotRef where
  | imm (slot : BitVec 4)
  | reg (s : SIdx) (spare : BitVec 4)
deriving DecidableEq, Repr

/-- Tile extents of MX, codes 0 to 3 for 8, 16, 32, 64 rows and for 32, 64, 96, 128 bytes of K (06 R132). -/
structure TileShape where
  m : BitVec 2
  n : BitVec 2
  k : BitVec 2
deriving DecidableEq, Repr

/-- The fields of an MX word (06 R132). -/
structure MxFields where
  fmtA : BitVec 5
  fmtB : BitVec 5
  acc : BitVec 3
  shape : TileShape
  s : SIdx
  flagB : Bool
deriving DecidableEq, Repr

/-- The fields of an M-form access beside its type (06 R132). -/
structure MemFields where
  v : VIdx
  off : OField
  pair : BitVec 5
  guard : PIdx
  space : Space
  flagB : Bool
deriving DecidableEq, Repr

/-- A group or a conductor of a team: index 0 to 31 a group, 32 the conductor. -/
structure UnitId where
  team : Nat
  idx : Nat
deriving DecidableEq, Repr

/-- Header of a queue command (15 R327). -/
structure CmdHeader where
  tag : BitVec 16
  cpl : Bool
  ord : Bool
deriving DecidableEq, Repr

/-- A spawn record, which is also the body of LAUNCH (08 R214). -/
structure SpawnRec where
  kdesc : W64
  teams : W32
  groups : Byte
  gang : Byte
  priv : BitVec 16
  args : List W32
deriving DecidableEq, Repr

/-- What a denied issue waits for (01 R33). -/
inductive DenyKind where
  | issue | fares
deriving DecidableEq, Repr

/-- A firmware or supervisor register field without behaviour of its own (16 R348, 15 R336, 05 R106). -/
inductive FwReg where
  | mode (cl : Nat) | stepLimit (cl : Nat) | bdb (cl : Nat) | burstMax (cl : Nat)
  | clim (cl : Nat) | ebud (cl : Nat) | govCnt (cl : Nat) | balCnt (cl : Nat)
  | shunt
  | scoreT (core : Nat) | scoreV (core : Nat)
  | phaseAge | poolStarve | placeDepth | copyMargin | preemptBound
  | sgroup | score
deriving DecidableEq, Repr

/-- Classes of spare (19 R405, R406). -/
inductive SpareKind where
  | core | l2Row | ringSegment | dramRow
deriving DecidableEq, Repr

/-- Rights of a RoCEv2 window (19 R396). -/
structure WindowRights where
  read : Bool
  write : Bool
deriving DecidableEq, Repr

/-- A REPLAY's translation scope: context, virtual address, and page-size code 0, 1, 2 (17 R373, 19 R396). -/
structure ReplayScope where
  ctx : Nat
  va : Nat
  size : Nat
deriving DecidableEq, Repr

/-- Every row of the opcode table. -/
inductive Instr where
  -- structure words and hints (06)
  | clauseHeader (wait : BitVec 12) (setA setB : BitVec 4) (len : BitVec 5)
  | clauseTrailer (va : VIdx) (oa : OField) (vb : VIdx) (ob : OField) (count : BitVec 2)
  | hintImmediate (p : BitVec 24)
  | hintCache (p : BitVec 24)
  | hintModifier (p : BitVec 24)
  -- major 0x01
  | add (d a b : OField) (g : Guard)
  | sub (d a b : OField) (g : Guard)
  | mul (d a b : OField) (g : Guard)
  | mulhiI32 (d a b : OField) (g : Guard)
  | mulhiN32 (d a b : OField) (g : Guard)
  | mad (d a b c : OField) (g : Guard)
  | min (d a b : OField) (g : Guard) (uns : Bool)
  | max (d a b : OField) (g : Guard) (uns : Bool)
  | addc (d a b c : OField) (g : Guard)
  | addcCo (d a b c : OField) (g : Guard)
  | subb (d a b c : OField) (g : Guard)
  | subbBo (d a b c : OField) (g : Guard)
  | cmp (p : PIdx) (a b : OField) (g : Guard) (k : Cond)
  | sel (d a b c : OField) (g : Guard)
  -- major 0x02
  | and (d a b : OField) (g : Guard)
  | or (d a b : OField) (g : Guard)
  | xor (d a b : OField) (g : Guard)
  | andn (d a b : OField) (g : Guard)
  | shl (d a b : OField) (g : Guard)
  | shrN32 (d a b : OField) (g : Guard)
  | shrI32 (d a b : OField) (g : Guard)
  | rot (d a b : OField) (g : Guard)
  | fsh (d a b c : OField) (g : Guard)
  | bfeN32 (d a b : OField) (g : Guard)
  | bfeI32 (d a b : OField) (g : Guard)
  | bfi (d a b c : OField) (g : Guard)
  | popc (d a : OField) (g : Guard)
  | clz (d a : OField) (g : Guard)
  | brev (d a : OField) (g : Guard)
  -- majors 0x03 and 0x04
  | lea (d a b : OField) (g : Guard) (f : LeaScale)
  | add64 (d a b : OField) (g : Guard)
  | cmp64 (p : PIdx) (a b : OField) (g : Guard) (k : Cond)
  | intUniformOp (d a : OField) (s : SIdx) (g : Guard) (f : IntUFn)
  -- immediates
  | addi (d a : OField) (imm : BitVec 18)
  | andi (d a : OField) (imm : BitVec 18)
  | ori (d a : OField) (imm : BitVec 18)
  | xori (d a : OField) (imm : BitVec 18)
  | shli (d a : OField) (k : BitVec 5)
  | movhi (d : OField) (imm : BitVec 18)
  | cmpi (p : PIdx) (a : OField) (k : Cond) (imm : BitVec 14)
  -- floating point
  | fadd (d a b : OField) (g : Guard)
  | fsub (d a b : OField) (g : Guard)
  | fmul (d a b : OField) (g : Guard)
  | ffma (d a b c : OField) (g : Guard)
  | fmin (d a b : OField) (g : Guard)
  | fmax (d a b : OField) (g : Guard)
  | fclass (d a : OField) (g : Guard)
  | fsel (d a b c : OField) (g : Guard)
  | fcmp (p : PIdx) (a b : OField) (g : Guard) (k : FCond)
  | hadd2 (d a b : OField) (g : Guard) (t : HalfKind)
  | hmul2 (d a b : OField) (g : Guard) (t : HalfKind)
  | hfma2 (d a b c : OField) (g : Guard) (t : HalfKind)
  | cvt (d a : OField) (fmt : BitVec 5) (sel : BitVec 2) (g : Guard) (src dst : CvtKind)
  | pack8 (d a : OField) (fmt : BitVec 5) (sel : BitVec 2) (g : Guard)
  | unpack8 (d a : OField) (fmt : BitVec 5) (half : Bool) (g : Guard)
  | rcp (d a : OField) (g : Guard)
  | rsq (d a : OField) (g : Guard)
  | sqrt (d a : OField) (g : Guard)
  | exp2 (d a : OField) (g : Guard)
  | log2 (d a : OField) (g : Guard)
  | sin (d a : OField) (g : Guard)
  | cos (d a : OField) (g : Guard)
  | tanh (d a : OField) (g : Guard)
  | floatUniformOp (d a : OField) (s : SIdx) (g : Guard) (f : FloatUFn)
  -- lanes and sections
  | shfl (d a b : OField) (g : Guard) (m : ShflMode)
  | prmt (d a b c : OField) (g : Guard)
  | tlu (d a b : OField) (g : Guard) (w : TluKind)
  | vote (p : PIdx) (a : OField) (g : Guard) (k : VoteKind)
  | voteBallot (d a : OField) (g : Guard)
  | laneMatch (d a : OField) (g : Guard) (m : MatchKind)
  | elect (p : PIdx) (g : Guard)
  | sect (g : Guard) (w : SectWidth)
  | sred (d a : OField) (g : Guard) (o : RedOp)
  | sscan (d a : OField) (g : Guard) (o : RedOp)
  | sscanEx (d a : OField) (g : Guard) (o : RedOp)
  -- register moves
  | movin (v : VIdx) (o : OField) (g : Guard) (count : BitVec 2)
  | movout (v : VIdx) (o : OField) (g : Guard) (count : BitVec 2)
  | movs (d : OField) (s : SIdx) (g : Guard)
  | movg (a : OField) (s : SIdx) (g : Guard)
  | mfs (d : OField) (s : SIdx) (g : Guard)
  | mts (a : OField) (s : SIdx) (g : Guard)
  | plop (d a b : PIdx) (g : Guard) (k : PlopOp)
  | plopNot (d a : PIdx) (g : Guard)
  | plopSet (d : PIdx) (a : OField) (g : Guard)
  | plopGet (d : OField) (a : PIdx) (g : Guard)
  -- control
  | bra (g : Guard) (off : BitVec 22)
  | call (g : Guard) (off : BitVec 22)
  | brx (a b : OField) (g : Guard)
  | callx (a b : OField) (g : Guard)
  | ret (g : Guard)
  | exit (g : Guard)
  | trap (a : OField) (g : Guard)
  | sleepCyc (d a : OField)
  | sleepFut (d a : OField)
  | brk (g : Guard)
  | lpad (label : BitVec 16)
  -- memory
  | ld (m : MemFields) (t : LoadType)
  | st (m : MemFields) (t : StoreType)
  | ldx (m : MemFields) (t : LoadType)
  | stx (m : MemFields) (t : StoreType)
  | pref (off : OField) (pair : BitVec 5) (guard : PIdx) (space : Space) (l2 : Bool)
  | atom (d a : OField) (s : SIdx) (g : Guard) (r : AtomOrd) (k : AtomOp)
  | red (d a : OField) (s : SIdx) (g : Guard) (r : AtomOrd) (k : AtomOp)
  | best (d a : OField) (s : SIdx) (g : Guard) (r : AtomOrd) (w : BitVec 4)
  | ldq (a : OField) (s : SIdx) (g : Guard) (count : BitVec 2) (base : BitVec 5)
  | fence (s : Scope)
  | phase (k : PhaseKind)
  -- synchronisation
  | bar (d a b : OField) (g : Guard)
  | barRed (d a b c : OField) (g : Guard) (k : BarOp)
  | barg (d b : OField) (g : Guard)
  | bargRed (d b c : OField) (g : Guard) (k : BarOp)
  | waitf (d a b c : OField) (g : Guard) (k : Cond)
  | cancel (d a : OField) (g : Guard)
  | chkc (d : OField) (g : Guard)
  | feed (d : OField) (g : Guard)
  | fpushU (a b : OField) (g : Guard)
  | fpushV (a b c : OField) (g : Guard)
  | agen (d a b c : OField) (g : Guard)
  | spawn (v : VIdx) (s : SIdx) (one : Bool)
  | task (v : VIdx) (s : SIdx) (one : Bool)
  | dalloc (v : VIdx) (s : SIdx) (p : PIdx)
  | dfree (v : VIdx) (s : SIdx)
  | regy (d a : OField) (g : Guard)
  | regc (d a : OField) (g : Guard)
  -- matrix and engines
  | mma (m : MxFields)
  | mmas (m : MxFields)
  | gmma (m : MxFields)
  | acz (acc : BitVec 3)
  | acld (v : VIdx) (s : SIdx) (acc : BitVec 3)
  | acst (v : VIdx) (s : SIdx) (acc : BitVec 3)
  | acrd (v : VIdx) (s : SIdx) (acc : BitVec 3)
  | acepi (s : SIdx) (acc : BitVec 3)
  | copy (v : VIdx) (s : SIdx)
  | gcopy (v : VIdx) (s : SIdx)
  | wpush (v : VIdx) (s : SIdx) (h : VIdx)
  | wflush (s : SIdx)
  | geo (v : VIdx) (s : SIdx) (h : VIdx)
  | art (s : SIdx) (h : VIdx)
  | fwait (v : VIdx) (noerr : Bool) (slot : SlotRef)
  | ftest (v : VIdx) (slot : SlotRef)
  | fdrop (slot : SlotRef)
  | lacq (v : VIdx) (s : SIdx) (noerr : Bool)
  | lacqFut (v : VIdx) (s : SIdx)
  | lrel (s : SIdx)
  | ltest (v : VIdx) (s : SIdx)
  | burst (s : SIdx)
  -- handler level
  | eret (g : Guard)
  | hmfs (d : OField) (g : Guard) (r : BitVec 4)
  | hmts (a : OField) (g : Guard) (r : BitVec 4)
  -- events of the core
  | selectRun (u : UnitId)
  | loadDataArrival (u : UnitId) (op : Nat)
  | storeDrain (u : UnitId)
  | feedDelivery (u : UnitId)
  | fpushResume (team : Nat)
  | deferredTrap (u : UnitId)
  | teamStart (team : Nat)
  | poolDispatchStarvation (entry : Nat)
  | teamRetirement (team : Nat)
  | gridRetirement (grid : Nat)
  | starvationReservation (u : UnitId) (k : DenyKind)
  | waitTimeout (u : UnitId) (run : Nat)
  | graceExpiry (grid : Nat)
  | deadlineExpiry (ctx : Nat)
  | waitfSatisfied (u : UnitId) (run : Nat)
  | regcGrant (team : Nat)
  | sleepWake (u : UnitId) (run : Nat)
  | operandPin (core : Nat) (op : Nat)
  | matrixOpStart (core : Nat)
  | matrixOpEnd (core : Nat)
  | gmmaPartArrival (core : Nat)
  | copyStart (core : Nat)
  | copyComplete (core : Nat)
  | wagonAgeLimit (queue : Nat)
  | wagonTaskCreate (queue : Nat)
  | geoJobStart (cluster : Nat)
  | geoJobComplete (cluster : Nat)
  | artJobStart (cluster : Nat)
  | artBudgetExpiry (cluster : Nat)
  | artJobComplete (cluster : Nat)
  | layerPlacement (ctx slot layer : Nat)
  | layerLoadComplete (ctx slot layer : Nat)
  | layerLoadError (ctx slot layer : Nat)
  | phaseAgeStep (core : Nat)
  | homePressureStep (core : Nat)
  | unifiedIntervalEnd (core : Nat)
  -- front end and commands
  | queueAgeing (queue : Nat)
  | launch (h : CmdHeader) (r : SpawnRec) (tx0 ty0 : W32) (tw : BitVec 16)
  | taskgraph (h : CmdHeader) (nodes : W64) (nnode : W32) (cls : BitVec 2)
  | modelBind (h : CmdHeader) (addr : W64) (slot : BitVec 4)
  | prefetch (h : CmdHeader) (slot : BitVec 4) (first : BitVec 10) (count : BitVec 11)
  | modelUnbind (h : CmdHeader) (slot : BitVec 4)
  | signal (h : CmdHeader) (addr : W64) (value : W32) (isAdd : Bool)
  | wait (h : CmdHeader) (addr : W64) (value : W32) (k : Cond)
  | waitCommandSatisfied (queue : Nat)
  | copyCommand (h : CmdHeader) (addr : W64)
  | cancelCommand (h : CmdHeader) (gridid : W32) (all : Bool)
  | ctxSetup (h : CmdHeader) (addr : W64) (ctx : BitVec 6)
  | ctxRewrite (h : CmdHeader) (addr : W64) (ctx : BitVec 6)
  | ctxSuspend (h : CmdHeader) (ctx : BitVec 6)
  | ctxResume (h : CmdHeader) (ctx : BitVec 6)
  | ctxTeardown (h : CmdHeader) (ctx : BitVec 6)
  | codeReg (h : CmdHeader) (addr : W64) (ctx : BitVec 6)
  | codeUnreg (h : CmdHeader) (addr : W64) (ctx : BitVec 6)
  | wagonBind (h : CmdHeader) (addr : W64)
  | wagonUnbind (h : CmdHeader) (queue : BitVec 6)
  | poolAssign (h : CmdHeader) (base : W64) (pool : Byte) (ctx : BitVec 6) (log2 : BitVec 4) (count : BitVec 16)
  -- pre-emption and migration
  | teamMigration (team core : Nat)
  | preemptTeam (team : Nat)
  | preemptionAbandon (team : Nat)
  | teamResume (team core : Nat)
  -- fares
  | fareGrant (cluster : Nat)
  | windowBoundary (cluster : Nat)
  | balanceSkim (cluster : Nat)
  | rampStep (core : Nat)
  | rampDown (core : Nat)
  | burstLapse (core : Nat)
  | ringClaim (cluster : Nat)
  | operatingPointChange (pair mhz : Nat)
  | quiescePoint (pair : Nat)
  | clusterGate (cluster : Nat)
  | ringtotWrite (value : W32)
  | govstallClear (cluster : Nat) (value : W32)
  | firmwareRegisterWrite (r : FwReg) (value : W32)
  -- translation
  | tlbFill (fill : Nat)
  | invalidation (ctx va len : Nat)
  | serviceBatch (count : Nat)
  | replayRetry (r : ReplayScope)
  | replayViolation (r : ReplayScope)
  | replayUnserviceable (r : ReplayScope)
  | migrationLineCopy (entry : Nat)
  | pinnedWayChange (ways : Nat)
  -- supervision
  | pairModeSet (lo hi : W32)
  -- mailbox, link and bring-up
  | queueSet (queue : Byte) (addr : W64)
  | deadlineAt (ctx : BitVec 6) (seconds : BitVec 48) (nanoseconds : W32)
  | attest (nonce : BitVec 256) (addr : W64)
  | health (addr : W64)
  | fwStage (slot : BitVec 4) (addr : W64) (len : W32)
  | windowSet (window : BitVec 6) (ctx : BitVec 6) (rights : WindowRights) (rkey : W32) (base : BitVec 48) (len : W32)
  | eventRing (qp : BitVec 16) (rkey : W32) (addr : W64) (loge : BitVec 4)
  -- inputs from outside the device, in no encoding
  | evackWrite (value : W32)
  | rdmaWrite (qp : Nat) (rkey : W32) (addr : Nat) (bytes : List Byte)
  | rdmaRead (qp : Nat) (rkey : W32) (addr len : Nat)
  | spareReplacement (k : SpareKind) (item : Nat)
  | coreRetirement (core : Nat)
  | peerAcknowledgement (qp : Nat)
  | compactLpddrBacking (frame newFrame : Nat)
  -- rows without operands of their own
  | yield
  | dispatchCycle
  | arbiterSelect
  | freeze
  | frozenReached
  | unfreeze
  | step
  | pairerrClear
  | boot
  | unallocatedEncoding
  | badCommand
  | badMessage
deriving DecidableEq, Repr

end Sys2Proof
end

