-- ==== Sys2Proof/WellFormed.lean ====
section
/-! DEFINITION. Context-free legality of an instruction: the causes of 06 R125 (structure words) and of 06 R143
steps 2 to 4 that a word shows by itself. What depends on the kind of clause is Machine/Operands.lean's legalIn. -/

set_option linter.unusedVariables false

namespace Sys2Proof

/-- A destination o-field: codes 13 and 14 trap ILLEGAL (06 R129). -/
def dstOk (d : OField) : Bool := d != 13 && d != 14

/-- Element bytes of a format code (03 R60). -/
def fmtBytes (f : BitVec 5) : Nat :=
  if f = 0x1C ∨ f = 0x1D then 2 else if f = 0x1E then 4 else 1

/-- Format codes of an 8-bit conversion side (07 R166). -/
def fmt8Ok (f : BitVec 5) : Bool := decide (f.toNat ≤ 0x1B) || f == 0x1F

/-- Formats of one matrix operation (03 R68). -/
def fmtPairOk (a b : BitVec 5) : Bool :=
  fmtBytes a == fmtBytes b && ((a == 0x1F) == (b == 0x1F))

/-- Functions of form S that write a predicate (07 R154). -/
def IntUFn.isCmp : IntUFn → Bool
  | .cmp _ => true
  | .cmp64 _ => true
  | _ => false

/-- Functions of form S on 64-bit operands (07 R159). -/
def IntUFn.is64 : IntUFn → Bool
  | .add64 => true
  | .cmp64 _ => true
  | _ => false

/-- A predicate destination in a d field keeps bit 25 zero (07 R154). -/
def predDstOk (d : OField) : Bool := decide (d.toNat < 8)

/-- The kinds of cvt that name an 8-bit format (07 R166). -/
def CvtKind.narrow : CvtKind → Bool
  | .b8 => true
  | _ => false

/-- Conversion pairs marked ILLEGAL in 07 R166. -/
def cvtPairOk : CvtKind → CvtKind → Bool
  | .f32, .f32 => false
  | .f16, .f16 => false
  | .bf16, .bf16 => false
  | .b8, .f16 => false
  | .b8, .b8 => false
  | .b8, .i32 => false
  | .b8, .n32 => false
  | .i32, .i32 => false
  | .n32, .n32 => false
  | _, _ => true

/-- The descriptor of cvt: FMT zero without an 8-bit side, an 8-bit format with one, unused SEL bits zero (07 R166). -/
def cvtDescOk (fmt : BitVec 5) (sel : BitVec 2) (src dst : CvtKind) : Bool :=
  (if src.narrow || dst.narrow then fmt8Ok fmt else fmt == 0) &&
  (match src with
   | .f16 => decide (sel.toNat < 2)
   | .bf16 => decide (sel.toNat < 2)
   | .b8 => true
   | _ => sel == 0)

/-- A V-form move: the operand-file range and the main-register range (07 R177, 06 R132). -/
def moveOk (v : VIdx) (o : OField) (count : BitVec 2) : Bool :=
  decide (v.toNat + count.toNat ≤ 255) &&
  (if o.toNat ≤ 11 then decide (o.toNat + count.toNat ≤ 11) else count == 0)

/-- Registers of a load type (08 R194). -/
def LoadType.regs : LoadType → Nat
  | .b64 => 2
  | .b96 => 3
  | .b128 => 4
  | _ => 1

/-- Registers of a store type (08 R194). -/
def StoreType.regs : StoreType → Nat
  | .b64 => 2
  | .b96 => 3
  | .b128 => 4
  | _ => 1

/-- Width in bits of an atomic operation's location (08 R199). -/
def AtomOp.wide : AtomOp → Bool
  | .add64 => true
  | .exch64 => true
  | .cas64 => true
  | _ => false

/-- The d field of an atomic (08 R199). -/
def atomDstOk (d : OField) : AtomOp → Bool
  | .cas => decide (d.toNat ≤ 10) && d.toNat % 2 == 0
  | .cas64 => d == 0 || d == 4 || d == 8
  | .add64 => decide (d.toNat ≤ 10) && d.toNat % 2 == 0
  | .exch64 => decide (d.toNat ≤ 10) && d.toNat % 2 == 0
  | _ => dstOk d

/-- Operations that red lacks (08 R199). -/
def redOk : AtomOp → Bool
  | .exch => false
  | .cas => false
  | .exch64 => false
  | .cas64 => false
  | _ => true

/-- Acceptance of the payload of a kind-01 hint: a field of its word's hint check, not of the encoding (06 R136 step 3, R138). -/
def cacheHintOk (p : BitVec 24) : Bool :=
  p.extractLsb' 22 2 != 3 && p.extractLsb' 20 2 != 3 && p.extractLsb' 0 19 == 0

/-- A trailer: COUNT 3 is malformed, unused fields are zero and no commit reads `hi` (06 R124, R125). -/
def trailerOk (va : VIdx) (oa : OField) (vb : VIdx) (ob : OField) (count : BitVec 2) : Bool :=
  match count.toNat with
  | 0 => va == 0 && oa == 0 && vb == 0 && ob == 0
  | 1 => oa != 13 && vb == 0 && ob == 0
  | 2 => oa != 13 && ob != 13
  | _ => false

/-- A flag-select code: 12 to 14 are invalid (06 R123). -/
def flagCodeOk (f : BitVec 4) : Bool := decide (f.toNat < 12) || f == 15

/-- Well-formedness of an instruction by itself. Events, commands and messages carry nothing a word could get wrong:
their own entries refuse what is out of range. -/
def wellFormed : Instr → Bool
  | .clauseHeader _ a b len => flagCodeOk a && flagCodeOk b && decide (len.toNat < 24)
  | .clauseTrailer va oa vb ob count => trailerOk va oa vb ob count
  | .add d _ _ _ => dstOk d
  | .sub d _ _ _ => dstOk d
  | .mul d _ _ _ => dstOk d
  | .mulhiI32 d _ _ _ => dstOk d
  | .mulhiN32 d _ _ _ => dstOk d
  | .mad d _ _ _ _ => dstOk d
  | .min d _ _ _ _ => dstOk d
  | .max d _ _ _ _ => dstOk d
  | .addc d _ _ _ _ => dstOk d
  | .addcCo d _ _ _ _ => dstOk d
  | .subb d _ _ _ _ => dstOk d
  | .subbBo d _ _ _ _ => dstOk d
  | .sel d _ _ _ _ => dstOk d
  | .and d _ _ _ => dstOk d
  | .or d _ _ _ => dstOk d
  | .xor d _ _ _ => dstOk d
  | .andn d _ _ _ => dstOk d
  | .shl d _ _ _ => dstOk d
  | .shrN32 d _ _ _ => dstOk d
  | .shrI32 d _ _ _ => dstOk d
  | .rot d _ _ _ => dstOk d
  | .fsh d _ _ _ _ => dstOk d
  | .bfeN32 d _ _ _ => dstOk d
  | .bfeI32 d _ _ _ => dstOk d
  | .bfi d _ _ _ _ => dstOk d
  | .popc d _ _ => dstOk d
  | .clz d _ _ => dstOk d
  | .brev d _ _ => dstOk d
  | .lea d _ _ _ _ => dstOk d
  | .add64 d _ _ _ => dstOk d
  | .intUniformOp d _ _ _ f => if f.isCmp then predDstOk d else dstOk d
  | .addi d _ _ => dstOk d
  | .andi d _ _ => dstOk d
  | .ori d _ _ => dstOk d
  | .xori d _ _ => dstOk d
  | .shli d _ _ => dstOk d
  | .movhi d _ => dstOk d
  | .fadd d _ _ _ => dstOk d
  | .fsub d _ _ _ => dstOk d
  | .fmul d _ _ _ => dstOk d
  | .ffma d _ _ _ _ => dstOk d
  | .fmin d _ _ _ => dstOk d
  | .fmax d _ _ _ => dstOk d
  | .fclass d _ _ => dstOk d
  | .fsel d _ _ _ _ => dstOk d
  | .hadd2 d _ _ _ _ => dstOk d
  | .hmul2 d _ _ _ _ => dstOk d
  | .hfma2 d _ _ _ _ _ => dstOk d
  | .cvt d _ fmt sel _ src dst => dstOk d && cvtPairOk src dst && cvtDescOk fmt sel src dst
  | .pack8 d _ fmt _ _ => dstOk d && fmt8Ok fmt
  | .unpack8 d _ fmt _ _ => dstOk d && fmt8Ok fmt
  | .rcp d _ _ => dstOk d
  | .rsq d _ _ => dstOk d
  | .sqrt d _ _ => dstOk d
  | .exp2 d _ _ => dstOk d
  | .log2 d _ _ => dstOk d
  | .sin d _ _ => dstOk d
  | .cos d _ _ => dstOk d
  | .tanh d _ _ => dstOk d
  | .floatUniformOp d _ _ _ f =>
    (match f with
     | .fcmp _ => predDstOk d
     | _ => dstOk d)
  | .shfl d _ _ _ _ => dstOk d
  | .prmt d _ _ _ _ => dstOk d
  | .tlu d _ _ _ _ => dstOk d
  | .voteBallot d _ _ => dstOk d
  | .laneMatch d _ _ _ => dstOk d
  | .sred d _ _ _ => dstOk d
  | .sscan d _ _ _ => dstOk d
  | .sscanEx d _ _ _ => dstOk d
  | .movin v o _ count => moveOk v o count && dstOk o
  | .movout v o _ count => moveOk v o count
  | .movs d _ _ => dstOk d
  | .mfs d s _ => dstOk d && decide (s.toNat ≤ 0x15)
  | .mts _ s _ => decide (s.toNat ≤ 0x15)
  | .plopGet d _ _ => dstOk d
  | .sleepCyc d _ => dstOk d
  | .sleepFut d _ => dstOk d
  | .ld m t => decide (m.v.toNat + t.regs ≤ 256)
  | .ldx m t => decide (m.v.toNat + t.regs ≤ 256)
  | .st m t => decide (m.v.toNat + t.regs ≤ 256)
  | .stx m t => decide (m.v.toNat + t.regs ≤ 256)
  | .atom d _ _ _ _ k => atomDstOk d k
  | .red d _ _ _ _ k => atomDstOk d k && redOk k
  | .best d _ _ _ _ w => decide (w.toNat ≤ 8) && decide (d.toNat + w.toNat ≤ 11)
  | .ldq _ s _ count _ => decide (s.toNat + count.toNat ≤ 63)
  | .bar d _ _ _ => dstOk d
  | .barRed d _ _ _ _ _ => dstOk d
  | .barg d _ _ => dstOk d
  | .bargRed d _ _ _ _ => dstOk d
  | .waitf d _ _ _ _ _ => dstOk d
  | .cancel d _ _ => dstOk d
  | .chkc d _ => dstOk d
  | .feed d _ => dstOk d
  | .agen d a b c _ => decide (d.toNat ≤ 11) && decide (a.toNat ≤ 11) && decide (b.toNat ≤ 11) && decide (c.toNat ≤ 11)
  | .spawn _ s _ => s.toNat % 2 == 0
  | .task _ s _ => s.toNat % 2 == 0
  | .regy d _ _ => dstOk d
  | .regc d _ _ => dstOk d
  | .mma m => fmtPairOk m.fmtA m.fmtB
  | .mmas m => fmtPairOk m.fmtA m.fmtB
  | .gmma m => fmtPairOk m.fmtA m.fmtB
  | .acld _ s _ => s.toNat % 2 == 0
  | .acst _ s _ => s.toNat % 2 == 0
  | .hmfs d _ r => dstOk d && decide (r.toNat ≤ 6)
  | .hmts _ _ r => decide (r.toNat ≤ 6)
  | .unallocatedEncoding => false
  | _ => true

end Sys2Proof
end

