-- ==== Sys2Proof/Decode.lean ====
section
/-! DEFINITION. Decoding: 32-bit words (06 R132, R141), 64-byte queue commands (15 R327) and 64-byte mailbox messages
(19 R396). Every function is total. A word that no row of the major map allocates is named by its Reject; a word that a
row allocates decodes to that row's instruction, and what its fields get wrong is WellFormed's. The encoder of words
stands after the decoder and is written from the same tables. -/

set_option linter.unusedVariables false

namespace Sys2Proof

/-- Why a word is no instruction (06 R142). -/
inductive Reject where
  | major
  | reserved
  | function
  | operand
deriving DecidableEq, Repr

/-! ## Forms (06 R132) -/

/-- Form A. -/
structure FormA where
  major : BitVec 6
  d : OField
  a : OField
  b : OField
  c : OField
  g : PIdx
  neg : BitVec 1
  fn : BitVec 6
deriving DecidableEq, Repr

/-- Form S. -/
structure FormS where
  major : BitVec 6
  d : OField
  a : OField
  s : SIdx
  g : PIdx
  neg : BitVec 1
  fn : BitVec 8
deriving DecidableEq, Repr

/-- Form I. -/
structure FormI where
  major : BitVec 6
  d : OField
  a : OField
  imm : BitVec 18
deriving DecidableEq, Repr

/-- Form V. -/
structure FormV where
  major : BitVec 6
  v : VIdx
  o : OField
  g : PIdx
  neg : BitVec 1
  count : BitVec 2
  fn : BitVec 8
deriving DecidableEq, Repr

/-- Form M. -/
structure FormM where
  major : BitVec 6
  v : VIdx
  off : OField
  pair : BitVec 5
  g : PIdx
  space : BitVec 2
  type : BitVec 3
  flag : BitVec 1
deriving DecidableEq, Repr

/-- Form MX. -/
structure FormMX where
  major : BitVec 6
  fa : BitVec 5
  fb : BitVec 5
  acc : BitVec 3
  m : BitVec 2
  n : BitVec 2
  k : BitVec 2
  s : SIdx
  flag : BitVec 1
deriving DecidableEq, Repr

/-- Form B. -/
structure FormB where
  major : BitVec 6
  g : PIdx
  neg : BitVec 1
  off : BitVec 22
deriving DecidableEq, Repr

/-- Form L. -/
structure FormL where
  major : BitVec 6
  label : BitVec 16
  zero : BitVec 10
deriving DecidableEq, Repr

/-- Form E. -/
structure FormE where
  major : BitVec 6
  v : VIdx
  s : SIdx
  fn : BitVec 4
  imm : BitVec 8
deriving DecidableEq, Repr

/-- Form H (06 R123). -/
structure FormH where
  major : BitVec 6
  wait : BitVec 12
  setA : BitVec 4
  setB : BitVec 4
  len : BitVec 5
  zero : BitVec 1
deriving DecidableEq, Repr

/-- Form T (06 R124). -/
structure FormT where
  major : BitVec 6
  va : VIdx
  oa : OField
  vb : VIdx
  ob : OField
  count : BitVec 2
deriving DecidableEq, Repr

/-- Form X. -/
structure FormX where
  major : BitVec 6
  kind : BitVec 2
  p : BitVec 24
deriving DecidableEq, Repr

/-- The major opcode of a word, bits [31:26] (06 R121). -/
def majorOf (w : W32) : BitVec 6 := w.extractLsb' 26 6

/-- A word read in form A. -/
def formA (w : W32) : FormA :=
  { major := w.extractLsb' 26 6, d := w.extractLsb' 22 4, a := w.extractLsb' 18 4, b := w.extractLsb' 14 4, c := w.extractLsb' 10 4, g := w.extractLsb' 7 3, neg := w.extractLsb' 6 1, fn := w.extractLsb' 0 6 }

/-- A word read in form S. -/
def formS (w : W32) : FormS :=
  { major := w.extractLsb' 26 6, d := w.extractLsb' 22 4, a := w.extractLsb' 18 4, s := w.extractLsb' 12 6, g := w.extractLsb' 9 3, neg := w.extractLsb' 8 1, fn := w.extractLsb' 0 8 }

/-- A word read in form I. -/
def formI (w : W32) : FormI :=
  { major := w.extractLsb' 26 6, d := w.extractLsb' 22 4, a := w.extractLsb' 18 4, imm := w.extractLsb' 0 18 }

/-- A word read in form V. -/
def formV (w : W32) : FormV :=
  { major := w.extractLsb' 26 6, v := w.extractLsb' 18 8, o := w.extractLsb' 14 4, g := w.extractLsb' 11 3, neg := w.extractLsb' 10 1, count := w.extractLsb' 8 2, fn := w.extractLsb' 0 8 }

/-- A word read in form M. -/
def formM (w : W32) : FormM :=
  { major := w.extractLsb' 26 6, v := w.extractLsb' 18 8, off := w.extractLsb' 14 4, pair := w.extractLsb' 9 5, g := w.extractLsb' 6 3, space := w.extractLsb' 4 2, type := w.extractLsb' 1 3, flag := w.extractLsb' 0 1 }

/-- A word read in form MX. -/
def formMX (w : W32) : FormMX :=
  { major := w.extractLsb' 26 6, fa := w.extractLsb' 21 5, fb := w.extractLsb' 16 5, acc := w.extractLsb' 13 3, m := w.extractLsb' 11 2, n := w.extractLsb' 9 2, k := w.extractLsb' 7 2, s := w.extractLsb' 1 6, flag := w.extractLsb' 0 1 }

/-- A word read in form B. -/
def formB (w : W32) : FormB :=
  { major := w.extractLsb' 26 6, g := w.extractLsb' 23 3, neg := w.extractLsb' 22 1, off := w.extractLsb' 0 22 }

/-- A word read in form L. -/
def formL (w : W32) : FormL :=
  { major := w.extractLsb' 26 6, label := w.extractLsb' 10 16, zero := w.extractLsb' 0 10 }

/-- A word read in form E. -/
def formE (w : W32) : FormE :=
  { major := w.extractLsb' 26 6, v := w.extractLsb' 18 8, s := w.extractLsb' 12 6, fn := w.extractLsb' 8 4, imm := w.extractLsb' 0 8 }

/-- A word read in form H. -/
def formH (w : W32) : FormH :=
  { major := w.extractLsb' 26 6, wait := w.extractLsb' 14 12, setA := w.extractLsb' 10 4, setB := w.extractLsb' 6 4, len := w.extractLsb' 1 5, zero := w.extractLsb' 0 1 }

/-- A word read in form T. -/
def formT (w : W32) : FormT :=
  { major := w.extractLsb' 26 6, va := w.extractLsb' 18 8, oa := w.extractLsb' 14 4, vb := w.extractLsb' 6 8, ob := w.extractLsb' 2 4, count := w.extractLsb' 0 2 }

/-- A word read in form X. -/
def formX (w : W32) : FormX :=
  { major := w.extractLsb' 26 6, kind := w.extractLsb' 24 2, p := w.extractLsb' 0 24 }

/-- The word of a form A. -/
def FormA.word (x : FormA) : W32 :=
  x.major ++ x.d ++ x.a ++ x.b ++ x.c ++ x.g ++ x.neg ++ x.fn

/-- The word of a form S. -/
def FormS.word (x : FormS) : W32 :=
  x.major ++ x.d ++ x.a ++ x.s ++ x.g ++ x.neg ++ x.fn

/-- The word of a form I. -/
def FormI.word (x : FormI) : W32 :=
  x.major ++ x.d ++ x.a ++ x.imm

/-- The word of a form V. -/
def FormV.word (x : FormV) : W32 :=
  x.major ++ x.v ++ x.o ++ x.g ++ x.neg ++ x.count ++ x.fn

/-- The word of a form M. -/
def FormM.word (x : FormM) : W32 :=
  x.major ++ x.v ++ x.off ++ x.pair ++ x.g ++ x.space ++ x.type ++ x.flag

/-- The word of a form MX. -/
def FormMX.word (x : FormMX) : W32 :=
  x.major ++ x.fa ++ x.fb ++ x.acc ++ x.m ++ x.n ++ x.k ++ x.s ++ x.flag

/-- The word of a form B. -/
def FormB.word (x : FormB) : W32 :=
  x.major ++ x.g ++ x.neg ++ x.off

/-- The word of a form L. -/
def FormL.word (x : FormL) : W32 :=
  x.major ++ x.label ++ x.zero

/-- The word of a form E. -/
def FormE.word (x : FormE) : W32 :=
  x.major ++ x.v ++ x.s ++ x.fn ++ x.imm

/-- The word of a form H. -/
def FormH.word (x : FormH) : W32 :=
  x.major ++ x.wait ++ x.setA ++ x.setB ++ x.len ++ x.zero

/-- The word of a form T. -/
def FormT.word (x : FormT) : W32 :=
  x.major ++ x.va ++ x.oa ++ x.vb ++ x.ob ++ x.count

/-- The word of a form X. -/
def FormX.word (x : FormX) : W32 :=
  x.major ++ x.kind ++ x.p

/-! ## Codes -/

/-- A guard's two fields (06 R130). -/
def guardOf (g : PIdx) (neg : BitVec 1) : Guard := ⟨g, neg == 1⟩

/-- The negate bit of a guard. -/
def Guard.negBit (g : Guard) : BitVec 1 := if g.neg then 1 else 0


/-- Integer condition codes (07 R155). -/
def Cond.code : Cond → BitVec 4
  | .eq => 0
  | .ne => 1
  | .ltI => 2
  | .leI => 3
  | .gtI => 4
  | .geI => 5
  | .ltN => 6
  | .leN => 7
  | .gtN => 8
  | .geN => 9

/-- The inverse of Cond.code; the codes it lacks are unallocated. -/
def Cond.ofCode (n : BitVec 4) : Option Cond :=
  match n.toNat with
  | 0 => some .eq
  | 1 => some .ne
  | 2 => some .ltI
  | 3 => some .leI
  | 4 => some .gtI
  | 5 => some .geI
  | 6 => some .ltN
  | 7 => some .leN
  | 8 => some .gtN
  | 9 => some .geN
  | _ => none

/-- Floating condition codes, above 0x10 (07 R162). -/
def FCond.code : FCond → BitVec 3
  | .eq => 0
  | .ne => 1
  | .lt => 2
  | .le => 3
  | .gt => 4
  | .ge => 5
  | .un => 6
  | .ord => 7

/-- The inverse of FCond.code; the codes it lacks are unallocated. -/
def FCond.ofCode (n : BitVec 3) : Option FCond :=
  match n.toNat with
  | 0 => some .eq
  | 1 => some .ne
  | 2 => some .lt
  | 3 => some .le
  | 4 => some .gt
  | 5 => some .ge
  | 6 => some .un
  | _ => some .ord

/-- Function codes of lea (07 R158). -/
def LeaScale.code : LeaScale → BitVec 3
  | .x1 => 0
  | .x2 => 1
  | .x4 => 2
  | .x8 => 3
  | .x16 => 4

/-- The inverse of LeaScale.code; the codes it lacks are unallocated. -/
def LeaScale.ofCode (n : BitVec 3) : Option LeaScale :=
  match n.toNat with
  | 0 => some .x1
  | 1 => some .x2
  | 2 => some .x4
  | 3 => some .x8
  | 4 => some .x16
  | _ => none

/-- Conversion kinds (07 R166). -/
def CvtKind.code : CvtKind → BitVec 3
  | .f32 => 0
  | .f16 => 1
  | .bf16 => 2
  | .b8 => 3
  | .i32 => 4
  | .n32 => 5

/-- The inverse of CvtKind.code; the codes it lacks are unallocated. -/
def CvtKind.ofCode (n : BitVec 3) : Option CvtKind :=
  match n.toNat with
  | 0 => some .f32
  | 1 => some .f16
  | 2 => some .bf16
  | 3 => some .b8
  | 4 => some .i32
  | 5 => some .n32
  | _ => none

/-- Function codes of shfl (07 R171). -/
def ShflMode.code : ShflMode → BitVec 2
  | .idx => 0
  | .up => 1
  | .down => 2
  | .xor => 3

/-- The inverse of ShflMode.code; the codes it lacks are unallocated. -/
def ShflMode.ofCode (n : BitVec 2) : Option ShflMode :=
  match n.toNat with
  | 0 => some .idx
  | 1 => some .up
  | 2 => some .down
  | _ => some .xor

/-- Function codes of the predicate votes (07 R174). -/
def VoteKind.code : VoteKind → BitVec 2
  | .all => 0
  | .any => 1
  | .uni => 2

/-- The inverse of VoteKind.code; the codes it lacks are unallocated. -/
def VoteKind.ofCode (n : BitVec 2) : Option VoteKind :=
  match n.toNat with
  | 0 => some .all
  | 1 => some .any
  | 2 => some .uni
  | _ => none

/-- Section width codes, above 0x20 (07 R174). -/
def SectWidth.code : SectWidth → BitVec 3
  | .w2 => 1
  | .w4 => 2
  | .w8 => 3
  | .w16 => 4
  | .w32 => 5

/-- The inverse of SectWidth.code; the codes it lacks are unallocated. -/
def SectWidth.ofCode (n : BitVec 3) : Option SectWidth :=
  match n.toNat with
  | 1 => some .w2
  | 2 => some .w4
  | 3 => some .w8
  | 4 => some .w16
  | 5 => some .w32
  | _ => none

/-- Reduction operation codes (07 R176). -/
def RedOp.code : RedOp → BitVec 4
  | .add => 0
  | .minI => 1
  | .maxI => 2
  | .minN => 3
  | .maxN => 4
  | .and => 5
  | .or => 6
  | .xor => 7
  | .fadd => 8
  | .fmin => 9
  | .fmax => 10

/-- The inverse of RedOp.code; the codes it lacks are unallocated. -/
def RedOp.ofCode (n : BitVec 4) : Option RedOp :=
  match n.toNat with
  | 0 => some .add
  | 1 => some .minI
  | 2 => some .maxI
  | 3 => some .minN
  | 4 => some .maxN
  | 5 => some .and
  | 6 => some .or
  | 7 => some .xor
  | 8 => some .fadd
  | 9 => some .fmin
  | 10 => some .fmax
  | _ => none

/-- Barrier reduction codes, above the plain barrier (08 R204). -/
def BarOp.code : BarOp → BitVec 3
  | .add => 1
  | .minI => 2
  | .maxI => 3
  | .minN => 4
  | .maxN => 5
  | .and => 6
  | .or => 7

/-- The inverse of BarOp.code; the codes it lacks are unallocated. -/
def BarOp.ofCode (n : BitVec 3) : Option BarOp :=
  match n.toNat with
  | 1 => some .add
  | 2 => some .minI
  | 3 => some .maxI
  | 4 => some .minN
  | 5 => some .maxN
  | 6 => some .and
  | 7 => some .or
  | _ => none

/-- Two-predicate operation codes (07 R180). -/
def PlopOp.code : PlopOp → BitVec 2
  | .and => 0
  | .or => 1
  | .xor => 2
  | .andn => 3

/-- The inverse of PlopOp.code; the codes it lacks are unallocated. -/
def PlopOp.ofCode (n : BitVec 2) : Option PlopOp :=
  match n.toNat with
  | 0 => some .and
  | 1 => some .or
  | 2 => some .xor
  | _ => some .andn

/-- Space codes (04 R79). -/
def Space.code : Space → BitVec 2
  | .glb => 0
  | .spad => 1
  | .priv => 2
  | .gen => 3

/-- The inverse of Space.code; the codes it lacks are unallocated. -/
def Space.ofCode (n : BitVec 2) : Option Space :=
  match n.toNat with
  | 0 => some .glb
  | 1 => some .spad
  | 2 => some .priv
  | _ => some .gen

/-- Load type codes (08 R194). -/
def LoadType.code : LoadType → BitVec 3
  | .n8 => 0
  | .i8 => 1
  | .n16 => 2
  | .i16 => 3
  | .b32 => 4
  | .b64 => 5
  | .b96 => 6
  | .b128 => 7

/-- The inverse of LoadType.code; the codes it lacks are unallocated. -/
def LoadType.ofCode (n : BitVec 3) : Option LoadType :=
  match n.toNat with
  | 0 => some .n8
  | 1 => some .i8
  | 2 => some .n16
  | 3 => some .i16
  | 4 => some .b32
  | 5 => some .b64
  | 6 => some .b96
  | _ => some .b128

/-- Store type codes (08 R194). -/
def StoreType.code : StoreType → BitVec 3
  | .b8 => 0
  | .b16 => 2
  | .b32 => 4
  | .b64 => 5
  | .b96 => 6
  | .b128 => 7

/-- The inverse of StoreType.code; the codes it lacks are unallocated. -/
def StoreType.ofCode (n : BitVec 3) : Option StoreType :=
  match n.toNat with
  | 0 => some .b8
  | 2 => some .b16
  | 4 => some .b32
  | 5 => some .b64
  | 6 => some .b96
  | 7 => some .b128
  | _ => none

/-- Atomic operation codes (08 R199). -/
def AtomOp.code : AtomOp → BitVec 4
  | .add => 0
  | .minI => 1
  | .maxI => 2
  | .minN => 3
  | .maxN => 4
  | .and => 5
  | .or => 6
  | .xor => 7
  | .exch => 8
  | .cas => 9
  | .add64 => 10
  | .exch64 => 11
  | .cas64 => 12

/-- The inverse of AtomOp.code; the codes it lacks are unallocated. -/
def AtomOp.ofCode (n : BitVec 4) : Option AtomOp :=
  match n.toNat with
  | 0 => some .add
  | 1 => some .minI
  | 2 => some .maxI
  | 3 => some .minN
  | 4 => some .maxN
  | 5 => some .and
  | 6 => some .or
  | 7 => some .xor
  | 8 => some .exch
  | 9 => some .cas
  | 10 => some .add64
  | 11 => some .exch64
  | 12 => some .cas64
  | _ => none

/-- Atomic ordering codes (08 R199). -/
def AtomOrd.code : AtomOrd → BitVec 2
  | .none => 0
  | .acq => 1
  | .rel => 2
  | .ar => 3

/-- The inverse of AtomOrd.code; the codes it lacks are unallocated. -/
def AtomOrd.ofCode (n : BitVec 2) : Option AtomOrd :=
  match n.toNat with
  | 0 => some .none
  | 1 => some .acq
  | 2 => some .rel
  | _ => some .ar

/-- Fence scope codes (08 R203, 06 R139). -/
def Scope.code : Scope → BitVec 3
  | .grp => 0
  | .team => 1
  | .gang => 2
  | .dev => 3
  | .sys => 4

/-- The inverse of Scope.code; the codes it lacks are unallocated. -/
def Scope.ofCode (n : BitVec 3) : Option Scope :=
  match n.toNat with
  | 0 => some .grp
  | 1 => some .team
  | 2 => some .gang
  | 3 => some .dev
  | 4 => some .sys
  | _ => none

/-- Phase step codes, above 0x08 (08 R203). -/
def PhaseKind.code : PhaseKind → BitVec 2
  | .rel => 0
  | .acq => 1
  | .ar => 2

/-- The inverse of PhaseKind.code; the codes it lacks are unallocated. -/
def PhaseKind.ofCode (n : BitVec 2) : Option PhaseKind :=
  match n.toNat with
  | 0 => some .rel
  | 1 => some .acq
  | 2 => some .ar
  | _ => none

/-- The ten-bit code of a form-S integer function: table in [7:6], function in [5:0] (07 R159). -/
def IntUFn.code : IntUFn → BitVec 8
  | .add => 0x00
  | .sub => 0x01
  | .mul => 0x02
  | .mulhiI => 0x03
  | .mulhiN => 0x04
  | .minI => 0x06
  | .minN => 0x07
  | .maxI => 0x08
  | .maxN => 0x09
  | .cmp k => (0x1 : BitVec 4) ++ k.code
  | .and => 0x40
  | .or => 0x41
  | .xor => 0x42
  | .andn => 0x43
  | .shl => 0x44
  | .shrN => 0x45
  | .shrI => 0x46
  | .rot => 0x47
  | .bfeN => 0x49
  | .bfeI => 0x4A
  | .popc => 0x4C
  | .clz => 0x4D
  | .brev => 0x4E
  | .lea f => (0x10 : BitVec 5) ++ f.code
  | .add64 => 0x88
  | .cmp64 k => (0x9 : BitVec 4) ++ k.code

/-- The inverse of IntUFn.code; functions that use c are left out, as 07 R159 says. -/
def IntUFn.ofCode (n : BitVec 8) : Option IntUFn :=
  match n.toNat with
  | 0x00 => some .add
  | 0x01 => some .sub
  | 0x02 => some .mul
  | 0x03 => some .mulhiI
  | 0x04 => some .mulhiN
  | 0x06 => some .minI
  | 0x07 => some .minN
  | 0x08 => some .maxI
  | 0x09 => some .maxN
  | 0x40 => some .and
  | 0x41 => some .or
  | 0x42 => some .xor
  | 0x43 => some .andn
  | 0x44 => some .shl
  | 0x45 => some .shrN
  | 0x46 => some .shrI
  | 0x47 => some .rot
  | 0x49 => some .bfeN
  | 0x4A => some .bfeI
  | 0x4C => some .popc
  | 0x4D => some .clz
  | 0x4E => some .brev
  | 0x88 => some .add64
  | _ =>
    if n.extractLsb' 4 4 = 0x1 then (Cond.ofCode (n.extractLsb' 0 4)).map .cmp
    else if n.extractLsb' 4 4 = 0x9 then (Cond.ofCode (n.extractLsb' 0 4)).map .cmp64
    else if n.extractLsb' 3 5 = 0x10 then (LeaScale.ofCode (n.extractLsb' 0 3)).map .lea
    else none

/-- The code of a form-S floating function (07 R164). -/
def FloatUFn.code : FloatUFn → BitVec 8
  | .fadd => 0x00
  | .fsub => 0x01
  | .fmul => 0x02
  | .fmin => 0x04
  | .fmax => 0x05
  | .fclass => 0x06
  | .fcmp k => (0x02 : BitVec 5) ++ k.code
  | .hadd2 .f16 => 0x40
  | .hmul2 .f16 => 0x41
  | .hadd2 .bf16 => 0x44
  | .hmul2 .bf16 => 0x45

/-- The inverse of FloatUFn.code. -/
def FloatUFn.ofCode (n : BitVec 8) : Option FloatUFn :=
  match n.toNat with
  | 0x00 => some .fadd
  | 0x01 => some .fsub
  | 0x02 => some .fmul
  | 0x04 => some .fmin
  | 0x05 => some .fmax
  | 0x06 => some .fclass
  | 0x40 => some (.hadd2 .f16)
  | 0x41 => some (.hmul2 .f16)
  | 0x44 => some (.hadd2 .bf16)
  | 0x45 => some (.hmul2 .bf16)
  | _ => if n.extractLsb' 3 5 = 0x02 then (FCond.ofCode (n.extractLsb' 0 3)).map .fcmp else none

/-- An optional decode as a decode rejected for its function code. -/
def fnOr (r : Reject) : Option Instr → Except Reject Instr
  | some i => .ok i
  | none => .error r

/-- An unused o-field holds 15, else the word traps ILLEGAL (06 R133). -/
def unused (o : OField) (i : Except Reject Instr) : Except Reject Instr :=
  if o = 15 then i else .error .operand

/-- A field that must be zero. -/
def mustZero {n : Nat} (z : BitVec n) (r : Reject) (i : Except Reject Instr) : Except Reject Instr :=
  if z = 0 then i else .error r

/-- A d field that names a predicate: bit 25 is zero (07 R154). -/
def predDst (d : OField) (f : PIdx → Instr) : Except Reject Instr :=
  if d.extractLsb' 3 1 = 0 then .ok (f (d.extractLsb' 0 3)) else .error .operand

/-- A four-bit field that names a predicate (07 R180). -/
def predField (d : OField) (f : PIdx → Except Reject Instr) : Except Reject Instr :=
  if d.extractLsb' 3 1 = 0 then f (d.extractLsb' 0 3) else .error .operand

/-- The o-field of a predicate index. -/
def predO (p : PIdx) : OField := (0 : BitVec 1) ++ p

/-! ## Majors -/

/-- Major 0x01 (07 R155). -/
def decode01 (x : FormA) : Except Reject Instr :=
  let g := guardOf x.g x.neg
  match x.fn.toNat with
  | 0x00 => unused x.c (.ok (.add x.d x.a x.b g))
  | 0x01 => unused x.c (.ok (.sub x.d x.a x.b g))
  | 0x02 => unused x.c (.ok (.mul x.d x.a x.b g))
  | 0x03 => unused x.c (.ok (.mulhiI32 x.d x.a x.b g))
  | 0x04 => unused x.c (.ok (.mulhiN32 x.d x.a x.b g))
  | 0x05 => .ok (.mad x.d x.a x.b x.c g)
  | 0x06 => unused x.c (.ok (.min x.d x.a x.b g false))
  | 0x07 => unused x.c (.ok (.min x.d x.a x.b g true))
  | 0x08 => unused x.c (.ok (.max x.d x.a x.b g false))
  | 0x09 => unused x.c (.ok (.max x.d x.a x.b g true))
  | 0x0A => .ok (.addc x.d x.a x.b x.c g)
  | 0x0B => .ok (.addcCo x.d x.a x.b x.c g)
  | 0x0C => .ok (.subb x.d x.a x.b x.c g)
  | 0x0D => .ok (.subbBo x.d x.a x.b x.c g)
  | 0x1A => .ok (.sel x.d x.a x.b x.c g)
  | _ =>
    if x.fn.extractLsb' 4 2 = 1 then
      match Cond.ofCode (x.fn.extractLsb' 0 4) with
      | some k => unused x.c (predDst x.d (fun p => .cmp p x.a x.b g k))
      | none => .error .function
    else .error .function

/-- Major 0x02 (07 R156). -/
def decode02 (x : FormA) : Except Reject Instr :=
  let g := guardOf x.g x.neg
  match x.fn.toNat with
  | 0x00 => unused x.c (.ok (.and x.d x.a x.b g))
  | 0x01 => unused x.c (.ok (.or x.d x.a x.b g))
  | 0x02 => unused x.c (.ok (.xor x.d x.a x.b g))
  | 0x03 => unused x.c (.ok (.andn x.d x.a x.b g))
  | 0x04 => unused x.c (.ok (.shl x.d x.a x.b g))
  | 0x05 => unused x.c (.ok (.shrN32 x.d x.a x.b g))
  | 0x06 => unused x.c (.ok (.shrI32 x.d x.a x.b g))
  | 0x07 => unused x.c (.ok (.rot x.d x.a x.b g))
  | 0x08 => .ok (.fsh x.d x.a x.b x.c g)
  | 0x09 => unused x.c (.ok (.bfeN32 x.d x.a x.b g))
  | 0x0A => unused x.c (.ok (.bfeI32 x.d x.a x.b g))
  | 0x0B => .ok (.bfi x.d x.a x.b x.c g)
  | 0x0C => unused x.b (unused x.c (.ok (.popc x.d x.a g)))
  | 0x0D => unused x.b (unused x.c (.ok (.clz x.d x.a g)))
  | 0x0E => unused x.b (unused x.c (.ok (.brev x.d x.a g)))
  | _ => .error .function

/-- Major 0x03 (07 R158). -/
def decode03 (x : FormA) : Except Reject Instr :=
  let g := guardOf x.g x.neg
  if x.fn.extractLsb' 3 3 = 0 then
    match LeaScale.ofCode (x.fn.extractLsb' 0 3) with
    | some f => unused x.c (.ok (.lea x.d x.a x.b g f))
    | none => .error .function
  else if x.fn = 0x08 then unused x.c (.ok (.add64 x.d x.a x.b g))
  else if x.fn.extractLsb' 4 2 = 1 then
    match Cond.ofCode (x.fn.extractLsb' 0 4) with
    | some k => unused x.c (predDst x.d (fun p => .cmp64 p x.a x.b g k))
    | none => .error .function
  else .error .function

/-- Major 0x04 (07 R159). -/
def decode04 (x : FormS) : Except Reject Instr :=
  fnOr .function ((IntUFn.ofCode x.fn).map (.intUniformOp x.d x.a x.s (guardOf x.g x.neg)))

/-- Majors 0x05 to 0x0B (07 R160). -/
def decodeImm (x : FormI) : Except Reject Instr :=
  match x.major.toNat with
  | 0x05 => .ok (.addi x.d x.a x.imm)
  | 0x06 => .ok (.andi x.d x.a x.imm)
  | 0x07 => .ok (.ori x.d x.a x.imm)
  | 0x08 => .ok (.xori x.d x.a x.imm)
  | 0x09 => mustZero (x.imm.extractLsb' 5 13) .operand (.ok (.shli x.d x.a (x.imm.extractLsb' 0 5)))
  | 0x0A => unused x.a (.ok (.movhi x.d x.imm))
  | _ =>
    match Cond.ofCode (x.imm.extractLsb' 14 4) with
    | some k => predDst x.d (fun p => .cmpi p x.a k (x.imm.extractLsb' 0 14))
    | none => .error .function

/-- Major 0x0C (07 R161, R162). -/
def decode0C (x : FormA) : Except Reject Instr :=
  let g := guardOf x.g x.neg
  match x.fn.toNat with
  | 0x00 => unused x.c (.ok (.fadd x.d x.a x.b g))
  | 0x01 => unused x.c (.ok (.fsub x.d x.a x.b g))
  | 0x02 => unused x.c (.ok (.fmul x.d x.a x.b g))
  | 0x03 => .ok (.ffma x.d x.a x.b x.c g)
  | 0x04 => unused x.c (.ok (.fmin x.d x.a x.b g))
  | 0x05 => unused x.c (.ok (.fmax x.d x.a x.b g))
  | 0x06 => unused x.b (unused x.c (.ok (.fclass x.d x.a g)))
  | 0x07 => .ok (.fsel x.d x.a x.b x.c g)
  | _ =>
    if x.fn.extractLsb' 3 3 = 2 then
      match FCond.ofCode (x.fn.extractLsb' 0 3) with
      | some k => unused x.c (predDst x.d (fun p => .fcmp p x.a x.b g k))
      | none => .error .function
    else .error .function

/-- Major 0x0D (07 R163). -/
def decode0D (x : FormA) : Except Reject Instr :=
  let g := guardOf x.g x.neg
  match x.fn.toNat with
  | 0x00 => unused x.c (.ok (.hadd2 x.d x.a x.b g .f16))
  | 0x01 => unused x.c (.ok (.hmul2 x.d x.a x.b g .f16))
  | 0x02 => .ok (.hfma2 x.d x.a x.b x.c g .f16)
  | 0x04 => unused x.c (.ok (.hadd2 x.d x.a x.b g .bf16))
  | 0x05 => unused x.c (.ok (.hmul2 x.d x.a x.b g .bf16))
  | 0x06 => .ok (.hfma2 x.d x.a x.b x.c g .bf16)
  | _ => .error .function

/-- Major 0x0E: bits [17:10] are the descriptor FMT, a reserved bit and SEL (07 R166, R168). -/
def decode0E (x : FormA) : Except Reject Instr :=
  let g := guardOf x.g x.neg
  let desc : BitVec 8 := x.b ++ x.c
  let fmt := desc.extractLsb' 3 5
  let sel := desc.extractLsb' 0 2
  mustZero (desc.extractLsb' 2 1) .reserved
    (if x.fn = 0x38 then .ok (.pack8 x.d x.a fmt sel g)
     else if x.fn = 0x39 then
       mustZero (sel.extractLsb' 1 1) .operand (.ok (.unpack8 x.d x.a fmt (sel.extractLsb' 0 1 == 1) g))
     else
       match CvtKind.ofCode (x.fn.extractLsb' 3 3), CvtKind.ofCode (x.fn.extractLsb' 0 3) with
       | some src, some dst => .ok (.cvt x.d x.a fmt sel g src dst)
       | _, _ => .error .function)

/-- Major 0x0F (07 R169). -/
def decode0F (x : FormA) : Except Reject Instr :=
  let g := guardOf x.g x.neg
  unused x.b (unused x.c
    (match x.fn.toNat with
     | 0x00 => .ok (.rcp x.d x.a g)
     | 0x01 => .ok (.rsq x.d x.a g)
     | 0x02 => .ok (.sqrt x.d x.a g)
     | 0x03 => .ok (.exp2 x.d x.a g)
     | 0x04 => .ok (.log2 x.d x.a g)
     | 0x05 => .ok (.sin x.d x.a g)
     | 0x06 => .ok (.cos x.d x.a g)
     | 0x07 => .ok (.tanh x.d x.a g)
     | _ => .error .function))

/-- Major 0x10 (07 R164). -/
def decode10 (x : FormS) : Except Reject Instr :=
  fnOr .function ((FloatUFn.ofCode x.fn).map (.floatUniformOp x.d x.a x.s (guardOf x.g x.neg)))

/-- Major 0x14 (07 R171 to R173). -/
def decode14 (x : FormA) : Except Reject Instr :=
  let g := guardOf x.g x.neg
  match x.fn.toNat with
  | 0x00 => unused x.c (.ok (.shfl x.d x.a x.b g .idx))
  | 0x01 => unused x.c (.ok (.shfl x.d x.a x.b g .up))
  | 0x02 => unused x.c (.ok (.shfl x.d x.a x.b g .down))
  | 0x03 => unused x.c (.ok (.shfl x.d x.a x.b g .xor))
  | 0x08 => .ok (.prmt x.d x.a x.b x.c g)
  | 0x10 => unused x.c (.ok (.tlu x.d x.a x.b g .b32))
  | 0x11 => unused x.c (.ok (.tlu x.d x.a x.b g .n8))
  | _ => .error .function

/-- Major 0x15 (07 R174). -/
def decode15 (x : FormA) : Except Reject Instr :=
  let g := guardOf x.g x.neg
  unused x.b (unused x.c
    (match x.fn.toNat with
     | 0x00 => predDst x.d (fun p => .vote p x.a g .all)
     | 0x01 => predDst x.d (fun p => .vote p x.a g .any)
     | 0x02 => predDst x.d (fun p => .vote p x.a g .uni)
     | 0x03 => .ok (.voteBallot x.d x.a g)
     | 0x08 => .ok (.laneMatch x.d x.a g .any)
     | 0x09 => .ok (.laneMatch x.d x.a g .all)
     | 0x10 => unused x.a (predDst x.d (fun p => .elect p g))
     | _ =>
       if x.fn.extractLsb' 3 3 = 4 then
         match SectWidth.ofCode (x.fn.extractLsb' 0 3) with
         | some k => unused x.d (unused x.a (.ok (.sect g k)))
         | none => .error .function
       else .error .function))

/-- Major 0x16 (07 R176). -/
def decode16 (x : FormA) : Except Reject Instr :=
  let g := guardOf x.g x.neg
  unused x.b (unused x.c
    (match RedOp.ofCode (x.fn.extractLsb' 0 4) with
     | some o =>
       if x.fn.extractLsb' 4 2 = 0 then .ok (.sred x.d x.a g o)
       else if x.fn.extractLsb' 4 2 = 1 then .ok (.sscan x.d x.a g o)
       else if x.fn.extractLsb' 4 2 = 2 then .ok (.sscanEx x.d x.a g o)
       else .error .function
     | none => .error .function))

/-- Major 0x18 (07 R177). -/
def decode18 (x : FormV) : Except Reject Instr :=
  let g := guardOf x.g x.neg
  match x.fn.toNat with
  | 0x00 => .ok (.movin x.v x.o g x.count)
  | 0x01 => .ok (.movout x.v x.o g x.count)
  | _ => .error .function

/-- Major 0x19 (07 R178). -/
def decode19 (x : FormS) : Except Reject Instr :=
  let g := guardOf x.g x.neg
  match x.fn.toNat with
  | 0x00 => unused x.a (.ok (.movs x.d x.s g))
  | 0x01 => unused x.d (.ok (.movg x.a x.s g))
  | 0x02 => unused x.a (.ok (.mfs x.d x.s g))
  | 0x03 => unused x.d (.ok (.mts x.a x.s g))
  | _ => .error .function

/-- Major 0x1A (07 R180). -/
def decode1A (x : FormA) : Except Reject Instr :=
  let g := guardOf x.g x.neg
  unused x.c
    (if x.fn.extractLsb' 2 4 = 0 then
       match PlopOp.ofCode (x.fn.extractLsb' 0 2) with
       | some k => predField x.d (fun d => predField x.a (fun a => predField x.b (fun b => .ok (.plop d a b g k))))
       | none => .error .function
     else
       match x.fn.toNat with
       | 0x04 => unused x.b (predField x.d (fun d => predField x.a (fun a => .ok (.plopNot d a g))))
       | 0x08 => unused x.b (predField x.d (fun d => .ok (.plopSet d x.a g)))
       | 0x09 => unused x.b (predField x.a (fun a => .ok (.plopGet x.d a g)))
       | _ => .error .function)

/-- Major 0x1E (08 R186). -/
def decode1E (x : FormA) : Except Reject Instr :=
  let g := guardOf x.g x.neg
  let plain := x.g = 0 ∧ x.neg = 0
  match x.fn.toNat with
  | 0x00 => unused x.d (unused x.c (.ok (.brx x.a x.b g)))
  | 0x01 => unused x.d (unused x.c (.ok (.callx x.a x.b g)))
  | 0x02 => unused x.d (unused x.a (unused x.b (unused x.c (.ok (.ret g)))))
  | 0x03 => unused x.d (unused x.a (unused x.b (unused x.c (.ok (.exit g)))))
  | 0x04 => unused x.d (unused x.b (unused x.c (.ok (.trap x.a g))))
  | 0x05 => unused x.d (unused x.a (unused x.b (unused x.c (if plain then .ok .yield else .error .operand))))
  | 0x06 => unused x.b (unused x.c (if plain then .ok (.sleepCyc x.d x.a) else .error .operand))
  | 0x07 => unused x.b (unused x.c (if plain then .ok (.sleepFut x.d x.a) else .error .operand))
  | 0x08 => unused x.d (unused x.a (unused x.b (unused x.c (.ok (.brk g)))))
  | _ => .error .function

/-- The fields of an M-form access beside its type. -/
def FormM.fields (x : FormM) (sp : Space) : MemFields :=
  { v := x.v, off := x.off, pair := x.pair, guard := x.g, space := sp, flagB := x.flag == 1 }

/-- Majors 0x22 to 0x26 (08 R194, R197). -/
def decodeMem (x : FormM) : Except Reject Instr :=
  match Space.ofCode x.space with
  | none => .error .function
  | some sp =>
    match x.major.toNat with
    | 0x22 => fnOr .function ((LoadType.ofCode x.type).map (.ld (x.fields sp)))
    | 0x23 => fnOr .function ((StoreType.ofCode x.type).map (.st (x.fields sp)))
    | 0x24 => fnOr .function ((LoadType.ofCode x.type).map (.ldx (x.fields sp)))
    | 0x25 => fnOr .function ((StoreType.ofCode x.type).map (.stx (x.fields sp)))
    | _ =>
      mustZero x.v .operand (mustZero x.flag .operand
        (mustZero (x.type.extractLsb' 1 2) .function
          (.ok (.pref x.off x.pair x.g sp (x.type.extractLsb' 0 1 == 1)))))

/-- Major 0x27 (08 R199, R202). -/
def decode27 (x : FormS) : Except Reject Instr :=
  let g := guardOf x.g x.neg
  match AtomOrd.ofCode (x.fn.extractLsb' 4 2) with
  | none => .error .function
  | some r =>
    match (x.fn.extractLsb' 6 2).toNat with
    | 0 => fnOr .function ((AtomOp.ofCode (x.fn.extractLsb' 0 4)).map (.atom x.d x.a x.s g r))
    | 1 => fnOr .function ((AtomOp.ofCode (x.fn.extractLsb' 0 4)).map (.red x.d x.a x.s g r))
    | 2 => .ok (.best x.d x.a x.s g r (x.fn.extractLsb' 0 4))
    | _ => .error .function

/-- Major 0x28 (08 R198). -/
def decode28 (x : FormS) : Except Reject Instr :=
  mustZero (x.fn.extractLsb' 5 1) .reserved
    (unused x.d (.ok (.ldq x.a x.s (guardOf x.g x.neg) (x.fn.extractLsb' 6 2) (x.fn.extractLsb' 0 5))))

/-- Major 0x29 (08 R203). -/
def decode29 (x : FormA) : Except Reject Instr :=
  let body : Except Reject Instr :=
    if x.fn.extractLsb' 3 3 = 0 then fnOr .function ((Scope.ofCode (x.fn.extractLsb' 0 3)).map .fence)
    else if x.fn.extractLsb' 2 4 = 2 then fnOr .function ((PhaseKind.ofCode (x.fn.extractLsb' 0 2)).map .phase)
    else .error .function
  unused x.d (unused x.a (unused x.b (unused x.c
    (if x.g = 0 ∧ x.neg = 0 then body else .error .operand))))

/-- Major 0x2A (08 R204). -/
def decode2A (x : FormA) : Except Reject Instr :=
  let g := guardOf x.g x.neg
  if x.fn = 0x00 then unused x.c (.ok (.bar x.d x.a x.b g))
  else if x.fn = 0x08 then unused x.a (unused x.c (.ok (.barg x.d x.b g)))
  else if x.fn = 0x20 then unused x.b (unused x.c (.ok (.cancel x.d x.a g)))
  else if x.fn = 0x21 then unused x.a (unused x.b (unused x.c (.ok (.chkc x.d g))))
  else if x.fn.extractLsb' 3 3 = 0 then
    fnOr .function ((BarOp.ofCode (x.fn.extractLsb' 0 3)).map (.barRed x.d x.a x.b x.c g))
  else if x.fn.extractLsb' 3 3 = 1 then
    unused x.a (fnOr .function ((BarOp.ofCode (x.fn.extractLsb' 0 3)).map (.bargRed x.d x.b x.c g)))
  else if x.fn.extractLsb' 4 2 = 1 then
    fnOr .function ((Cond.ofCode (x.fn.extractLsb' 0 4)).map (.waitf x.d x.a x.b x.c g))
  else .error .function

/-- Major 0x2B (08 R209). -/
def decode2B (x : FormA) : Except Reject Instr :=
  let g := guardOf x.g x.neg
  match x.fn.toNat with
  | 0x00 => unused x.a (unused x.b (unused x.c (.ok (.feed x.d g))))
  | 0x01 => unused x.d (unused x.c (.ok (.fpushU x.a x.b g)))
  | 0x02 => unused x.d (.ok (.fpushV x.a x.b x.c g))
  | 0x08 => .ok (.agen x.d x.a x.b x.c g)
  | _ => .error .function

/-- Major 0x2C (08 R213). -/
def decode2C (x : FormE) : Except Reject Instr :=
  match x.fn.toNat with
  | 0x0 => mustZero x.imm .operand (.ok (.spawn x.v x.s false))
  | 0x1 => mustZero x.imm .operand (.ok (.spawn x.v x.s true))
  | 0x2 => mustZero x.imm .operand (.ok (.task x.v x.s false))
  | 0x3 => mustZero x.imm .operand (.ok (.task x.v x.s true))
  | 0x4 => mustZero (x.imm.extractLsb' 3 5) .operand (.ok (.dalloc x.v x.s (x.imm.extractLsb' 0 3)))
  | 0x5 => mustZero x.imm .operand (.ok (.dfree x.v x.s))
  | _ => .error .function

/-- Major 0x2D (08 R211). -/
def decode2D (x : FormA) : Except Reject Instr :=
  let g := guardOf x.g x.neg
  match x.fn.toNat with
  | 0x00 => unused x.b (unused x.c (.ok (.regy x.d x.a g)))
  | 0x01 => unused x.b (unused x.c (.ok (.regc x.d x.a g)))
  | _ => .error .function

/-- The fields of a form-MX word as an instruction names them. -/
def FormMX.fields (x : FormMX) : MxFields :=
  { fmtA := x.fa, fmtB := x.fb, acc := x.acc, shape := ⟨x.m, x.n, x.k⟩, s := x.s, flagB := x.flag == 1 }

/-- Major 0x31 (09 R235). -/
def decode31 (x : FormE) : Except Reject Instr :=
  let acc : BitVec 3 := x.imm.extractLsb' 0 3
  mustZero (x.imm.extractLsb' 3 5) .operand
    (match x.fn.toNat with
     | 0x0 => mustZero x.v .operand (mustZero x.s .operand (.ok (.acz acc)))
     | 0x1 => .ok (.acld x.v x.s acc)
     | 0x2 => .ok (.acst x.v x.s acc)
     | 0x3 => .ok (.acrd x.v x.s acc)
     | 0x4 => mustZero x.v .operand (.ok (.acepi x.s acc))
     | _ => .error .function)

/-- Majors 0x36 to 0x38 (09 R239, R245, R246, R248). -/
def decodeEngine (x : FormE) : Except Reject Instr :=
  match x.major.toNat, x.fn.toNat with
  | 0x36, 0x0 => mustZero x.imm .operand (.ok (.copy x.v x.s))
  | 0x36, 0x1 => mustZero x.imm .operand (.ok (.gcopy x.v x.s))
  | 0x37, 0x0 => .ok (.wpush x.v x.s x.imm)
  | 0x37, 0x1 => mustZero x.v .operand (mustZero x.imm .operand (.ok (.wflush x.s)))
  | 0x38, 0x0 => .ok (.geo x.v x.s x.imm)
  | 0x38, 0x1 => mustZero x.v .operand (.ok (.art x.s x.imm))
  | _, _ => .error .function

/-- The slot a word of major 0x39 names: imm[4] chooses (09 R252). -/
def slotOf (x : FormE) (k : SlotRef → Except Reject Instr) : Except Reject Instr :=
  if x.imm.extractLsb' 4 1 = 0 then mustZero x.s .operand (k (.imm (x.imm.extractLsb' 0 4)))
  else k (.reg x.s (x.imm.extractLsb' 0 4))

/-- Major 0x39 (09 R252). -/
def decode39 (x : FormE) : Except Reject Instr :=
  mustZero (x.imm.extractLsb' 6 2) .operand
    (match x.fn.toNat with
     | 0x0 => slotOf x (fun r => .ok (.fwait x.v (x.imm.extractLsb' 5 1 == 1) r))
     | 0x1 => mustZero (x.imm.extractLsb' 5 1) .operand (slotOf x (fun r => .ok (.ftest x.v r)))
     | 0x2 => mustZero x.v .operand (mustZero (x.imm.extractLsb' 5 1) .operand (slotOf x (fun r => .ok (.fdrop r))))
     | _ => .error .function)

/-- Major 0x3A (09 R255). -/
def decode3A (x : FormE) : Except Reject Instr :=
  match x.fn.toNat with
  | 0x0 =>
    if x.imm.extractLsb' 0 1 = 1 then
      mustZero (x.imm.extractLsb' 1 7) .operand (.ok (.lacqFut x.v x.s))
    else mustZero (x.imm.extractLsb' 2 6) .operand (.ok (.lacq x.v x.s (x.imm.extractLsb' 1 1 == 1)))
  | 0x1 => mustZero x.v .operand (mustZero x.imm .operand (.ok (.lrel x.s)))
  | 0x2 => mustZero x.imm .operand (.ok (.ltest x.v x.s))
  | 0x3 => mustZero x.v .operand (mustZero x.imm .operand (.ok (.burst x.s)))
  | _ => .error .function

/-- Major 0x3B (08 R218). -/
def decode3B (x : FormA) : Except Reject Instr :=
  let g := guardOf x.g x.neg
  let r : BitVec 4 := x.fn.extractLsb' 0 4
  match (x.fn.extractLsb' 4 2).toNat with
  | 0 => mustZero r .function (unused x.d (unused x.a (unused x.b (unused x.c (.ok (.eret g))))))
  | 1 => unused x.a (unused x.b (unused x.c (.ok (.hmfs x.d g r))))
  | 2 => unused x.d (unused x.b (unused x.c (.ok (.hmts x.a g r))))
  | _ => .error .function

/-- Major 0x3C (06 R136). -/
def decodeHint (x : FormX) : Except Reject Instr :=
  match x.kind.toNat with
  | 0 => .ok (.hintImmediate x.p)
  | 1 => .ok (.hintCache x.p)
  | 2 => .ok (.hintModifier x.p)
  | _ => .error .function

/-- Decoding of one word, by the major map (06 R141). Total; a word that is no instruction is rejected by name. -/
def decodeWord (w : W32) : Except Reject Instr :=
  match (majorOf w).toNat with
  | 0x01 => decode01 (formA w)
  | 0x02 => decode02 (formA w)
  | 0x03 => decode03 (formA w)
  | 0x04 => decode04 (formS w)
  | 0x05 => decodeImm (formI w)
  | 0x06 => decodeImm (formI w)
  | 0x07 => decodeImm (formI w)
  | 0x08 => decodeImm (formI w)
  | 0x09 => decodeImm (formI w)
  | 0x0A => decodeImm (formI w)
  | 0x0B => decodeImm (formI w)
  | 0x0C => decode0C (formA w)
  | 0x0D => decode0D (formA w)
  | 0x0E => decode0E (formA w)
  | 0x0F => decode0F (formA w)
  | 0x10 => decode10 (formS w)
  | 0x14 => decode14 (formA w)
  | 0x15 => decode15 (formA w)
  | 0x16 => decode16 (formA w)
  | 0x18 => decode18 (formV w)
  | 0x19 => decode19 (formS w)
  | 0x1A => decode1A (formA w)
  | 0x1C => .ok (.bra (guardOf (formB w).g (formB w).neg) (formB w).off)
  | 0x1D => .ok (.call (guardOf (formB w).g (formB w).neg) (formB w).off)
  | 0x1E => decode1E (formA w)
  | 0x1F => mustZero (formL w).zero .reserved (.ok (.lpad (formL w).label))
  | 0x22 => decodeMem (formM w)
  | 0x23 => decodeMem (formM w)
  | 0x24 => decodeMem (formM w)
  | 0x25 => decodeMem (formM w)
  | 0x26 => decodeMem (formM w)
  | 0x27 => decode27 (formS w)
  | 0x28 => decode28 (formS w)
  | 0x29 => decode29 (formA w)
  | 0x2A => decode2A (formA w)
  | 0x2B => decode2B (formA w)
  | 0x2C => decode2C (formE w)
  | 0x2D => decode2D (formA w)
  | 0x2E => .ok (.mma (formMX w).fields)
  | 0x2F => .ok (.mmas (formMX w).fields)
  | 0x30 => .ok (.gmma (formMX w).fields)
  | 0x31 => decode31 (formE w)
  | 0x36 => decodeEngine (formE w)
  | 0x37 => decodeEngine (formE w)
  | 0x38 => decodeEngine (formE w)
  | 0x39 => decode39 (formE w)
  | 0x3A => decode3A (formE w)
  | 0x3B => decode3B (formA w)
  | 0x3C => decodeHint (formX w)
  | 0x3D => .ok (.clauseTrailer (formT w).va (formT w).oa (formT w).vb (formT w).ob (formT w).count)
  | 0x3F => mustZero (formH w).zero .reserved
      (.ok (.clauseHeader (formH w).wait (formH w).setA (formH w).setB (formH w).len))
  | _ => .error .major

/-- The instruction a word is: its decoding, or the row of words that are none (06 R142). -/
def instrOf (w : W32) : Instr :=
  match decodeWord w with
  | .ok i => i
  | .error _ => .unallocatedEncoding

/-! ## Queue commands (15 R327) -/

/-- Bits of a little-endian byte list (00 R2). -/
def bytesToNat : List Byte → Nat
  | [] => 0
  | b :: bs => b.toNat + 256 * bytesToNat bs

/-- Bits [hi:lo] of a record held as a number. -/
def bitsAt (x hi lo : Nat) : Nat := x / 2 ^ lo % 2 ^ (hi + 1 - lo)

/-- The eight argument words of a launch or spawn record (08 R214). -/
def recordArgs (x : Nat) : List W32 :=
  [BitVec.ofNat 32 (bitsAt x 287 256), BitVec.ofNat 32 (bitsAt x 319 288), BitVec.ofNat 32 (bitsAt x 351 320),
   BitVec.ofNat 32 (bitsAt x 383 352), BitVec.ofNat 32 (bitsAt x 415 384), BitVec.ofNat 32 (bitsAt x 447 416),
   BitVec.ofNat 32 (bitsAt x 479 448), BitVec.ofNat 32 (bitsAt x 511 480)]

/-- The spawn record's fields (08 R214). -/
def spawnFields (x : Nat) : SpawnRec :=
  { kdesc := BitVec.ofNat 64 (bitsAt x 63 0), teams := BitVec.ofNat 32 (bitsAt x 95 64),
    groups := BitVec.ofNat 8 (bitsAt x 103 96), gang := BitVec.ofNat 8 (bitsAt x 111 104),
    priv := BitVec.ofNat 16 (bitsAt x 127 112), args := recordArgs x }

/-- The header of a command (15 R327). -/
def cmdHeader (x : Nat) : CmdHeader :=
  { tag := BitVec.ofNat 16 (bitsAt x 159 144), cpl := bitsAt x 137 137 == 1, ord := bitsAt x 136 136 == 1 }

/-- Every listed bit range of a record is zero. -/
def zeros (x : Nat) : List (Nat × Nat) → Bool
  | [] => true
  | (hi, lo) :: r => bitsAt x hi lo == 0 && zeros x r

/-- The command's instruction when its reserved bits are zero and its fields are in range. -/
def decodeCommandBody (x : Nat) : Option Instr :=
  let h := cmdHeader x
  let addr : W64 := BitVec.ofNat 64 (bitsAt x 63 0)
  let ctx : BitVec 6 := BitVec.ofNat 6 (bitsAt x 69 64)
  let slot : BitVec 4 := BitVec.ofNat 4 (bitsAt x 67 64)
  let opxZero := zeros x [(143, 138), (255, 160)]
  let upZero := zeros x [(511, 256)]
  let ifOk (b : Bool) (i : Instr) : Option Instr := if b then some i else none
  match bitsAt x 135 128 with
  | 0x01 =>
    ifOk (zeros x [(143, 138), (255, 240)])
      (.launch h (spawnFields x) (BitVec.ofNat 32 (bitsAt x 191 160)) (BitVec.ofNat 32 (bitsAt x 223 192))
        (BitVec.ofNat 16 (bitsAt x 239 224)))
  | 0x02 =>
    ifOk (opxZero && upZero && zeros x [(127, 98)] && addr.toNat % 64 == 0 && decide (1 ≤ bitsAt x 95 64) &&
        decide (bitsAt x 95 64 ≤ 65536) && decide (bitsAt x 97 96 ≤ 2))
      (.taskgraph h addr (BitVec.ofNat 32 (bitsAt x 95 64)) (BitVec.ofNat 2 (bitsAt x 97 96)))
  | 0x03 => ifOk (opxZero && upZero && zeros x [(127, 68)]) (.modelBind h addr slot)
  | 0x04 =>
    ifOk (opxZero && upZero && zeros x [(63, 0), (127, 89)] && decide (1 ≤ bitsAt x 88 78) && decide (bitsAt x 88 78 ≤ 1024))
      (.prefetch h slot (BitVec.ofNat 10 (bitsAt x 77 68)) (BitVec.ofNat 11 (bitsAt x 88 78)))
  | 0x05 => ifOk (opxZero && upZero && zeros x [(63, 0), (127, 68)]) (.modelUnbind h slot)
  | 0x06 =>
    ifOk (opxZero && upZero && zeros x [(127, 97)] && addr.toNat % 4 == 0)
      (.signal h addr (BitVec.ofNat 32 (bitsAt x 95 64)) (bitsAt x 96 96 == 1))
  | 0x07 =>
    if opxZero && upZero && zeros x [(127, 100)] && addr.toNat % 4 == 0 then
      (Cond.ofCode (BitVec.ofNat 4 (bitsAt x 99 96))).map (.wait h addr (BitVec.ofNat 32 (bitsAt x 95 64)))
    else none
  | 0x08 => ifOk (opxZero && upZero && zeros x [(127, 64)] && addr.toNat % 64 == 0) (.copyCommand h addr)
  | 0x09 =>
    ifOk (opxZero && upZero && zeros x [(127, 33)])
      (.cancelCommand h (BitVec.ofNat 32 (bitsAt x 31 0)) (bitsAt x 32 32 == 1))
  | 0x10 => ifOk (opxZero && upZero && zeros x [(127, 70)]) (.ctxSetup h addr ctx)
  | 0x11 => ifOk (opxZero && upZero && zeros x [(127, 70)]) (.ctxRewrite h addr ctx)
  | 0x12 => ifOk (opxZero && upZero && zeros x [(63, 0), (127, 70)]) (.ctxSuspend h ctx)
  | 0x13 => ifOk (opxZero && upZero && zeros x [(63, 0), (127, 70)]) (.ctxResume h ctx)
  | 0x14 => ifOk (opxZero && upZero && zeros x [(63, 0), (127, 70)]) (.ctxTeardown h ctx)
  | 0x15 => ifOk (opxZero && upZero && zeros x [(127, 70)]) (.codeReg h addr ctx)
  | 0x16 => ifOk (opxZero && upZero && zeros x [(127, 70)]) (.codeUnreg h addr ctx)
  | 0x17 => ifOk (opxZero && upZero && zeros x [(127, 64)]) (.wagonBind h addr)
  | 0x18 => ifOk (opxZero && upZero && zeros x [(127, 6)]) (.wagonUnbind h (BitVec.ofNat 6 (bitsAt x 5 0)))
  | 0x19 =>
    ifOk (opxZero && upZero && zeros x [(127, 98)] && decide (6 ≤ bitsAt x 81 78) && decide (bitsAt x 81 78 ≤ 12) &&
        decide (1 ≤ bitsAt x 97 82))
      (.poolAssign h addr (BitVec.ofNat 8 (bitsAt x 71 64)) (BitVec.ofNat 6 (bitsAt x 77 72))
        (BitVec.ofNat 4 (bitsAt x 81 78)) (BitVec.ofNat 16 (bitsAt x 97 82)))
  | _ => none

/-- Decoding of a 64-byte queue command. Total: what no row allocates, or has a field out of range, is a BAD_COMMAND. -/
def decodeCommand (bs : List Byte) : Instr :=
  let x := bytesToNat bs
  match decodeCommandBody x with
  | some i => i
  | none => .badCommand

/-! ## Mailbox messages (19 R396) -/

/-- The message's instruction when its unused bits are zero and its fields are in range. -/
def decodeMessageBody (x : Nat) : Option Instr :=
  let ifOk (b : Bool) (i : Instr) : Option Instr := if b then some i else none
  let addrHi : W64 := BitVec.ofNat 64 (bitsAt x 191 128)
  match bitsAt x 7 0 with
  | 0x01 => ifOk (zeros x [(15, 8), (127, 72), (511, 192)]) (.queueSet (BitVec.ofNat 8 (bitsAt x 71 64)) addrHi)
  | 0x02 =>
    let r : ReplayScope := ⟨bitsAt x 69 64, bitsAt x 175 128, bitsAt x 81 80⟩
    if zeros x [(15, 8), (79, 70), (87, 82), (127, 90), (511, 176)] && decide (bitsAt x 81 80 ≤ 2) then
      match bitsAt x 89 88 with
      | 0 => some (.replayRetry r)
      | 1 => some (.replayViolation r)
      | 2 => some (.replayUnserviceable r)
      | _ => none
    else none
  | 0x03 =>
    ifOk (zeros x [(15, 8), (127, 70), (191, 176), (511, 224)] && decide (bitsAt x 223 192 < 1000000000))
      (.deadlineAt (BitVec.ofNat 6 (bitsAt x 69 64)) (BitVec.ofNat 48 (bitsAt x 175 128)) (BitVec.ofNat 32 (bitsAt x 223 192)))
  | 0x04 =>
    ifOk (zeros x [(15, 8), (511, 384)] && bitsAt x 383 320 % 64 == 0)
      (.attest (BitVec.ofNat 256 (bitsAt x 319 64)) (BitVec.ofNat 64 (bitsAt x 383 320)))
  | 0x05 => ifOk (zeros x [(15, 8), (127, 64), (511, 192)]) (.health addrHi)
  | 0x06 =>
    ifOk (zeros x [(15, 8), (127, 68), (511, 224)] && decide (bitsAt x 67 64 ≤ 8))
      (.fwStage (BitVec.ofNat 4 (bitsAt x 67 64)) addrHi (BitVec.ofNat 32 (bitsAt x 223 192)))
  | 0x07 =>
    ifOk (zeros x [(15, 8), (71, 70), (95, 80), (191, 176), (511, 224)] && decide (1 ≤ bitsAt x 69 64))
      (.windowSet (BitVec.ofNat 6 (bitsAt x 69 64)) (BitVec.ofNat 6 (bitsAt x 77 72))
        ⟨bitsAt x 78 78 == 1, bitsAt x 79 79 == 1⟩ (BitVec.ofNat 32 (bitsAt x 127 96))
        (BitVec.ofNat 48 (bitsAt x 175 128)) (BitVec.ofNat 32 (bitsAt x 223 192)))
  | 0x08 =>
    ifOk (zeros x [(15, 8), (95, 80), (511, 196)] && bitsAt x 191 128 % 64 == 0 && decide (bitsAt x 195 192 ≤ 9))
      (.eventRing (BitVec.ofNat 16 (bitsAt x 79 64)) (BitVec.ofNat 32 (bitsAt x 127 96)) addrHi
        (BitVec.ofNat 4 (bitsAt x 195 192)))
  | _ => none

/-- Decoding of a 64-byte mailbox message. Total: an unknown type, an unused bit or a field out of range is a BAD_MESSAGE. -/
def decodeMessage (bs : List Byte) : Instr :=
  let x := bytesToNat bs
  match decodeMessageBody x with
  | some i => i
  | none => .badMessage

/-- The host's question: what the decoder reads from a word whose bits are w (instructions are one 32-bit word). -/
def decodeTableWord (nbits w : Nat) : Option Instr :=
  match decodeWord (BitVec.ofNat 32 (w % 2 ^ nbits)) with
  | .ok i => some i
  | .error _ => none

/-! ## Encoding -/

/-- A form-A word with a guard. -/
def encA (major fn : BitVec 6) (d a b c : OField) (g : Guard) : W32 :=
  FormA.word { major := major, d := d, a := a, b := b, c := c, g := g.pred, neg := g.negBit, fn := fn }

/-- A form-S word with a guard. -/
def encS (major : BitVec 6) (fn : BitVec 8) (d a : OField) (s : SIdx) (g : Guard) : W32 :=
  FormS.word { major := major, d := d, a := a, s := s, g := g.pred, neg := g.negBit, fn := fn }

/-- A form-I word. -/
def encI (major : BitVec 6) (d a : OField) (imm : BitVec 18) : W32 :=
  FormI.word { major := major, d := d, a := a, imm := imm }

/-- A form-V word with a guard. -/
def encV (major : BitVec 6) (fn : BitVec 8) (v : VIdx) (o : OField) (g : Guard) (count : BitVec 2) : W32 :=
  FormV.word { major := major, v := v, o := o, g := g.pred, neg := g.negBit, count := count, fn := fn }

/-- A form-M word. -/
def encM (major : BitVec 6) (m : MemFields) (type : BitVec 3) : W32 :=
  FormM.word { major := major, v := m.v, off := m.off, pair := m.pair, g := m.guard, space := m.space.code, type := type,
               flag := if m.flagB then 1 else 0 }

/-- A form-MX word. -/
def encMX (major : BitVec 6) (m : MxFields) : W32 :=
  FormMX.word { major := major, fa := m.fmtA, fb := m.fmtB, acc := m.acc, m := m.shape.m, n := m.shape.n, k := m.shape.k,
                s := m.s, flag := if m.flagB then 1 else 0 }

/-- A form-E word. -/
def encE (major : BitVec 6) (fn : BitVec 4) (v : VIdx) (s : SIdx) (imm : BitVec 8) : W32 :=
  FormE.word { major := major, v := v, s := s, fn := fn, imm := imm }

/-- A bit of a Bool. -/
def bit1 (b : Bool) : BitVec 1 := if b then 1 else 0

/-- The s-index and imm[4:0] of a slot reference (09 R252). -/
def SlotRef.sIdx : SlotRef → SIdx
  | .imm _ => 0
  | .reg s _ => s

/-- imm[4:0] of a slot reference (09 R252). -/
def SlotRef.low : SlotRef → BitVec 5
  | .imm n => (0 : BitVec 1) ++ n
  | .reg _ n => (1 : BitVec 1) ++ n

/-- The two 16-bit halves of a conversion's descriptor as the b and c fields (07 R166). -/
def descB (fmt : BitVec 5) (sel : BitVec 2) : OField := (fmt ++ (0 : BitVec 1) ++ sel).extractLsb' 4 4

/-- The low half of a conversion's descriptor (07 R166). -/
def descC (fmt : BitVec 5) (sel : BitVec 2) : OField := (fmt ++ (0 : BitVec 1) ++ sel).extractLsb' 0 4

/-- The packed-pair function codes (07 R163). -/
def HalfKind.bit : HalfKind → BitVec 1
  | .f16 => 0
  | .bf16 => 1

/-- The word of an instruction that has one; none for events, commands and messages. -/
def encode : Instr → Option W32
  | .clauseHeader wait a b len => some (FormH.word { major := 0x3F, wait := wait, setA := a, setB := b, len := len, zero := 0 })
  | .clauseTrailer va oa vb ob count => some (FormT.word { major := 0x3D, va := va, oa := oa, vb := vb, ob := ob, count := count })
  | .hintImmediate p => some (FormX.word { major := 0x3C, kind := 0, p := p })
  | .hintCache p => some (FormX.word { major := 0x3C, kind := 1, p := p })
  | .hintModifier p => some (FormX.word { major := 0x3C, kind := 2, p := p })
  | .add d a b g => some (encA 0x01 0x00 d a b 15 g)
  | .sub d a b g => some (encA 0x01 0x01 d a b 15 g)
  | .mul d a b g => some (encA 0x01 0x02 d a b 15 g)
  | .mulhiI32 d a b g => some (encA 0x01 0x03 d a b 15 g)
  | .mulhiN32 d a b g => some (encA 0x01 0x04 d a b 15 g)
  | .mad d a b c g => some (encA 0x01 0x05 d a b c g)
  | .min d a b g uns => some (encA 0x01 (if uns then 0x07 else 0x06) d a b 15 g)
  | .max d a b g uns => some (encA 0x01 (if uns then 0x09 else 0x08) d a b 15 g)
  | .addc d a b c g => some (encA 0x01 0x0A d a b c g)
  | .addcCo d a b c g => some (encA 0x01 0x0B d a b c g)
  | .subb d a b c g => some (encA 0x01 0x0C d a b c g)
  | .subbBo d a b c g => some (encA 0x01 0x0D d a b c g)
  | .cmp p a b g k => some (encA 0x01 ((1 : BitVec 2) ++ k.code) (predO p) a b 15 g)
  | .sel d a b c g => some (encA 0x01 0x1A d a b c g)
  | .and d a b g => some (encA 0x02 0x00 d a b 15 g)
  | .or d a b g => some (encA 0x02 0x01 d a b 15 g)
  | .xor d a b g => some (encA 0x02 0x02 d a b 15 g)
  | .andn d a b g => some (encA 0x02 0x03 d a b 15 g)
  | .shl d a b g => some (encA 0x02 0x04 d a b 15 g)
  | .shrN32 d a b g => some (encA 0x02 0x05 d a b 15 g)
  | .shrI32 d a b g => some (encA 0x02 0x06 d a b 15 g)
  | .rot d a b g => some (encA 0x02 0x07 d a b 15 g)
  | .fsh d a b c g => some (encA 0x02 0x08 d a b c g)
  | .bfeN32 d a b g => some (encA 0x02 0x09 d a b 15 g)
  | .bfeI32 d a b g => some (encA 0x02 0x0A d a b 15 g)
  | .bfi d a b c g => some (encA 0x02 0x0B d a b c g)
  | .popc d a g => some (encA 0x02 0x0C d a 15 15 g)
  | .clz d a g => some (encA 0x02 0x0D d a 15 15 g)
  | .brev d a g => some (encA 0x02 0x0E d a 15 15 g)
  | .lea d a b g f => some (encA 0x03 ((0 : BitVec 3) ++ f.code) d a b 15 g)
  | .add64 d a b g => some (encA 0x03 0x08 d a b 15 g)
  | .cmp64 p a b g k => some (encA 0x03 ((1 : BitVec 2) ++ k.code) (predO p) a b 15 g)
  | .intUniformOp d a s g f => some (encS 0x04 f.code d a s g)
  | .addi d a imm => some (encI 0x05 d a imm)
  | .andi d a imm => some (encI 0x06 d a imm)
  | .ori d a imm => some (encI 0x07 d a imm)
  | .xori d a imm => some (encI 0x08 d a imm)
  | .shli d a k => some (encI 0x09 d a ((0 : BitVec 13) ++ k))
  | .movhi d imm => some (encI 0x0A d 15 imm)
  | .cmpi p a k imm => some (encI 0x0B (predO p) a (k.code ++ imm))
  | .fadd d a b g => some (encA 0x0C 0x00 d a b 15 g)
  | .fsub d a b g => some (encA 0x0C 0x01 d a b 15 g)
  | .fmul d a b g => some (encA 0x0C 0x02 d a b 15 g)
  | .ffma d a b c g => some (encA 0x0C 0x03 d a b c g)
  | .fmin d a b g => some (encA 0x0C 0x04 d a b 15 g)
  | .fmax d a b g => some (encA 0x0C 0x05 d a b 15 g)
  | .fclass d a g => some (encA 0x0C 0x06 d a 15 15 g)
  | .fsel d a b c g => some (encA 0x0C 0x07 d a b c g)
  | .fcmp p a b g k => some (encA 0x0C ((2 : BitVec 3) ++ k.code) (predO p) a b 15 g)
  | .hadd2 d a b g t => some (encA 0x0D ((0 : BitVec 3) ++ t.bit ++ (0 : BitVec 2)) d a b 15 g)
  | .hmul2 d a b g t => some (encA 0x0D ((0 : BitVec 3) ++ t.bit ++ (1 : BitVec 2)) d a b 15 g)
  | .hfma2 d a b c g t => some (encA 0x0D ((0 : BitVec 3) ++ t.bit ++ (2 : BitVec 2)) d a b c g)
  | .cvt d a fmt sel g src dst => some (encA 0x0E (src.code ++ dst.code) d a (descB fmt sel) (descC fmt sel) g)
  | .pack8 d a fmt sel g => some (encA 0x0E 0x38 d a (descB fmt sel) (descC fmt sel) g)
  | .unpack8 d a fmt half g => some (encA 0x0E 0x39 d a (descB fmt ((0 : BitVec 1) ++ bit1 half)) (descC fmt ((0 : BitVec 1) ++ bit1 half)) g)
  | .rcp d a g => some (encA 0x0F 0x00 d a 15 15 g)
  | .rsq d a g => some (encA 0x0F 0x01 d a 15 15 g)
  | .sqrt d a g => some (encA 0x0F 0x02 d a 15 15 g)
  | .exp2 d a g => some (encA 0x0F 0x03 d a 15 15 g)
  | .log2 d a g => some (encA 0x0F 0x04 d a 15 15 g)
  | .sin d a g => some (encA 0x0F 0x05 d a 15 15 g)
  | .cos d a g => some (encA 0x0F 0x06 d a 15 15 g)
  | .tanh d a g => some (encA 0x0F 0x07 d a 15 15 g)
  | .floatUniformOp d a s g f => some (encS 0x10 f.code d a s g)
  | .shfl d a b g m => some (encA 0x14 ((0 : BitVec 4) ++ m.code) d a b 15 g)
  | .prmt d a b c g => some (encA 0x14 0x08 d a b c g)
  | .tlu d a b g t => some (encA 0x14 (match t with | .b32 => 0x10 | .n8 => 0x11) d a b 15 g)
  | .vote p a g k => some (encA 0x15 ((0 : BitVec 4) ++ k.code) (predO p) a 15 15 g)
  | .voteBallot d a g => some (encA 0x15 0x03 d a 15 15 g)
  | .laneMatch d a g m => some (encA 0x15 (match m with | .any => 0x08 | .all => 0x09) d a 15 15 g)
  | .elect p g => some (encA 0x15 0x10 (predO p) 15 15 15 g)
  | .sect g k => some (encA 0x15 ((4 : BitVec 3) ++ k.code) 15 15 15 15 g)
  | .sred d a g o => some (encA 0x16 ((0 : BitVec 2) ++ o.code) d a 15 15 g)
  | .sscan d a g o => some (encA 0x16 ((1 : BitVec 2) ++ o.code) d a 15 15 g)
  | .sscanEx d a g o => some (encA 0x16 ((2 : BitVec 2) ++ o.code) d a 15 15 g)
  | .movin v o g count => some (encV 0x18 0x00 v o g count)
  | .movout v o g count => some (encV 0x18 0x01 v o g count)
  | .movs d s g => some (encS 0x19 0x00 d 15 s g)
  | .movg a s g => some (encS 0x19 0x01 15 a s g)
  | .mfs d s g => some (encS 0x19 0x02 d 15 s g)
  | .mts a s g => some (encS 0x19 0x03 15 a s g)
  | .plop d a b g k => some (encA 0x1A ((0 : BitVec 4) ++ k.code) (predO d) (predO a) (predO b) 15 g)
  | .plopNot d a g => some (encA 0x1A 0x04 (predO d) (predO a) 15 15 g)
  | .plopSet d a g => some (encA 0x1A 0x08 (predO d) a 15 15 g)
  | .plopGet d a g => some (encA 0x1A 0x09 d (predO a) 15 15 g)
  | .bra g off => some (FormB.word { major := 0x1C, g := g.pred, neg := g.negBit, off := off })
  | .call g off => some (FormB.word { major := 0x1D, g := g.pred, neg := g.negBit, off := off })
  | .brx a b g => some (encA 0x1E 0x00 15 a b 15 g)
  | .callx a b g => some (encA 0x1E 0x01 15 a b 15 g)
  | .ret g => some (encA 0x1E 0x02 15 15 15 15 g)
  | .exit g => some (encA 0x1E 0x03 15 15 15 15 g)
  | .trap a g => some (encA 0x1E 0x04 15 a 15 15 g)
  | .yield  => some (encA 0x1E 0x05 15 15 15 15 ⟨0, false⟩)
  | .sleepCyc d a => some (encA 0x1E 0x06 d a 15 15 ⟨0, false⟩)
  | .sleepFut d a => some (encA 0x1E 0x07 d a 15 15 ⟨0, false⟩)
  | .brk g => some (encA 0x1E 0x08 15 15 15 15 g)
  | .lpad l => some (FormL.word { major := 0x1F, label := l, zero := 0 })
  | .ld m t => some (encM 0x22 m t.code)
  | .st m t => some (encM 0x23 m t.code)
  | .ldx m t => some (encM 0x24 m t.code)
  | .stx m t => some (encM 0x25 m t.code)
  | .pref off pair guard sp l2 => some (encM 0x26 ⟨0, off, pair, guard, sp, false⟩ ((0 : BitVec 2) ++ bit1 l2))
  | .atom d a s g r k => some (encS 0x27 ((0 : BitVec 2) ++ r.code ++ k.code) d a s g)
  | .red d a s g r k => some (encS 0x27 ((1 : BitVec 2) ++ r.code ++ k.code) d a s g)
  | .best d a s g r k => some (encS 0x27 ((2 : BitVec 2) ++ r.code ++ k) d a s g)
  | .ldq a s g count base => some (encS 0x28 (count ++ (0 : BitVec 1) ++ base) 15 a s g)
  | .fence k => some (encA 0x29 ((0 : BitVec 3) ++ k.code) 15 15 15 15 ⟨0, false⟩)
  | .phase k => some (encA 0x29 ((2 : BitVec 4) ++ k.code) 15 15 15 15 ⟨0, false⟩)
  | .bar d a b g => some (encA 0x2A 0x00 d a b 15 g)
  | .barRed d a b c g k => some (encA 0x2A ((0 : BitVec 3) ++ k.code) d a b c g)
  | .barg d b g => some (encA 0x2A 0x08 d 15 b 15 g)
  | .bargRed d b c g k => some (encA 0x2A ((1 : BitVec 3) ++ k.code) d 15 b c g)
  | .waitf d a b c g k => some (encA 0x2A ((1 : BitVec 2) ++ k.code) d a b c g)
  | .cancel d a g => some (encA 0x2A 0x20 d a 15 15 g)
  | .chkc d g => some (encA 0x2A 0x21 d 15 15 15 g)
  | .feed d g => some (encA 0x2B 0x00 d 15 15 15 g)
  | .fpushU a b g => some (encA 0x2B 0x01 15 a b 15 g)
  | .fpushV a b c g => some (encA 0x2B 0x02 15 a b c g)
  | .agen d a b c g => some (encA 0x2B 0x08 d a b c g)
  | .spawn v s one => some (encE 0x2C (if one then 1 else 0) v s 0)
  | .task v s one => some (encE 0x2C (if one then 3 else 2) v s 0)
  | .dalloc v s p => some (encE 0x2C 4 v s ((0 : BitVec 5) ++ p))
  | .dfree v s => some (encE 0x2C 5 v s 0)
  | .regy d a g => some (encA 0x2D 0x00 d a 15 15 g)
  | .regc d a g => some (encA 0x2D 0x01 d a 15 15 g)
  | .mma m => some (encMX 0x2E m)
  | .mmas m => some (encMX 0x2F m)
  | .gmma m => some (encMX 0x30 m)
  | .acz acc => some (encE 0x31 0 0 0 ((0 : BitVec 5) ++ acc))
  | .acld v s acc => some (encE 0x31 1 v s ((0 : BitVec 5) ++ acc))
  | .acst v s acc => some (encE 0x31 2 v s ((0 : BitVec 5) ++ acc))
  | .acrd v s acc => some (encE 0x31 3 v s ((0 : BitVec 5) ++ acc))
  | .acepi s acc => some (encE 0x31 4 0 s ((0 : BitVec 5) ++ acc))
  | .copy v s => some (encE 0x36 0 v s 0)
  | .gcopy v s => some (encE 0x36 1 v s 0)
  | .wpush v s h => some (encE 0x37 0 v s h)
  | .wflush s => some (encE 0x37 1 0 s 0)
  | .geo v s h => some (encE 0x38 0 v s h)
  | .art s h => some (encE 0x38 1 0 s h)
  | .fwait v noerr r => some (encE 0x39 0 v r.sIdx ((0 : BitVec 2) ++ bit1 noerr ++ r.low))
  | .ftest v r => some (encE 0x39 1 v r.sIdx ((0 : BitVec 3) ++ r.low))
  | .fdrop r => some (encE 0x39 2 0 r.sIdx ((0 : BitVec 3) ++ r.low))
  | .lacq v s noerr => some (encE 0x3A 0 v s ((0 : BitVec 6) ++ bit1 noerr ++ (0 : BitVec 1)))
  | .lacqFut v s => some (encE 0x3A 0 v s 1)
  | .lrel s => some (encE 0x3A 1 0 s 0)
  | .ltest v s => some (encE 0x3A 2 v s 0)
  | .burst s => some (encE 0x3A 3 0 s 0)
  | .eret g => some (encA 0x3B 0x00 15 15 15 15 g)
  | .hmfs d g r => some (encA 0x3B ((1 : BitVec 2) ++ r) d 15 15 15 g)
  | .hmts a g r => some (encA 0x3B ((2 : BitVec 2) ++ r) 15 a 15 15 g)
  | .selectRun _ => none
  | .loadDataArrival _ _ => none
  | .storeDrain _ => none
  | .feedDelivery _ => none
  | .fpushResume _ => none
  | .deferredTrap _ => none
  | .teamStart _ => none
  | .poolDispatchStarvation _ => none
  | .teamRetirement _ => none
  | .gridRetirement _ => none
  | .starvationReservation _ _ => none
  | .waitTimeout _ _ => none
  | .graceExpiry _ => none
  | .deadlineExpiry _ => none
  | .waitfSatisfied _ _ => none
  | .regcGrant _ => none
  | .sleepWake _ _ => none
  | .operandPin _ _ => none
  | .matrixOpStart _ => none
  | .matrixOpEnd _ => none
  | .gmmaPartArrival _ => none
  | .copyStart _ => none
  | .copyComplete _ => none
  | .wagonAgeLimit _ => none
  | .wagonTaskCreate _ => none
  | .geoJobStart _ => none
  | .geoJobComplete _ => none
  | .artJobStart _ => none
  | .artBudgetExpiry _ => none
  | .artJobComplete _ => none
  | .layerPlacement _ _ _ => none
  | .layerLoadComplete _ _ _ => none
  | .layerLoadError _ _ _ => none
  | .phaseAgeStep _ => none
  | .homePressureStep _ => none
  | .unifiedIntervalEnd _ => none
  | .queueAgeing _ => none
  | .launch _ _ _ _ _ => none
  | .taskgraph _ _ _ _ => none
  | .modelBind _ _ _ => none
  | .prefetch _ _ _ _ => none
  | .modelUnbind _ _ => none
  | .signal _ _ _ _ => none
  | .wait _ _ _ _ => none
  | .waitCommandSatisfied _ => none
  | .copyCommand _ _ => none
  | .cancelCommand _ _ _ => none
  | .ctxSetup _ _ _ => none
  | .ctxRewrite _ _ _ => none
  | .ctxSuspend _ _ => none
  | .ctxResume _ _ => none
  | .ctxTeardown _ _ => none
  | .codeReg _ _ _ => none
  | .codeUnreg _ _ _ => none
  | .wagonBind _ _ => none
  | .wagonUnbind _ _ => none
  | .poolAssign _ _ _ _ _ _ => none
  | .teamMigration _ _ => none
  | .preemptTeam _ => none
  | .preemptionAbandon _ => none
  | .teamResume _ _ => none
  | .fareGrant _ => none
  | .windowBoundary _ => none
  | .balanceSkim _ => none
  | .rampStep _ => none
  | .rampDown _ => none
  | .burstLapse _ => none
  | .ringClaim _ => none
  | .operatingPointChange _ _ => none
  | .quiescePoint _ => none
  | .clusterGate _ => none
  | .ringtotWrite _ => none
  | .govstallClear _ _ => none
  | .firmwareRegisterWrite _ _ => none
  | .tlbFill _ => none
  | .invalidation _ _ _ => none
  | .serviceBatch _ => none
  | .replayRetry _ => none
  | .replayViolation _ => none
  | .replayUnserviceable _ => none
  | .migrationLineCopy _ => none
  | .pinnedWayChange _ => none
  | .pairModeSet _ _ => none
  | .queueSet _ _ => none
  | .deadlineAt _ _ _ => none
  | .attest _ _ => none
  | .health _ => none
  | .fwStage _ _ _ => none
  | .windowSet _ _ _ _ _ _ => none
  | .eventRing _ _ _ _ => none
  | .evackWrite _ => none
  | .rdmaWrite _ _ _ _ => none
  | .rdmaRead _ _ _ _ => none
  | .spareReplacement _ _ => none
  | .coreRetirement _ => none
  | .peerAcknowledgement _ => none
  | .compactLpddrBacking _ _ => none
  | .dispatchCycle => none
  | .arbiterSelect => none
  | .freeze => none
  | .frozenReached => none
  | .unfreeze => none
  | .step => none
  | .pairerrClear => none
  | .boot => none
  | .unallocatedEncoding => none
  | .badCommand => none
  | .badMessage => none

end Sys2Proof
end

