-- ==== Sys2Proof/Machine/State.lean ====
section
/-! DEFINITION. The whole state of a CX2 as plain data, its faults and refusals, and the state after reset.
INVENTORY.md lists every piece with its rule and its reset value. Sparse maps list only what differs from a default. -/

set_option linter.unusedVariables false

namespace Sys2Proof.Machine

/-- A sparse map by natural-number key, keys strictly rising; what an unlisted key reads as is named by the reader. -/
abbrev TMap (α : Type) := List (Nat × α)

/-- Bytes by address or offset; an unlisted byte reads zero (log 1). -/
abbrev Mem := List Host.Cell

/-! ## Code and kernels -/

/-- One role of a role-split kernel (13 R295). -/
structure RoleDesc where
  entry : Nat := 0
  regBlocks : Nat := 0
  groups : Nat := 0
deriving DecidableEq, Repr

/-- A kernel descriptor as registered (13 R295), with the object's section lengths. -/
structure KernelDesc where
  addr : Nat := 0
  entry : Nat := 0
  regBlocks : Nat := 4
  barriers : Nat := 0
  acc : Nat := 0
  cls : Nat := 2
  scratch : Nat := 0
  spill : Nat := 128
  width : Nat := 0
  unified : Bool := false
  conductor : Option Nat := none
  cancel : Option Nat := none
  waitBudget : Nat := 0
  l1Floor : Nat := 0
  energy : Nat := 0
  peak : Nat := 0
  roles : List RoleDesc := []
  codeBase : Nat := 0
  dataBase : Nat := 0
  dataLen : Nat := 0
deriving DecidableEq, Repr

/-- A registered code object (13 R293-R298); parts lists the ranges its header and sections fill. -/
structure CodeObject where
  addr : Nat := 0
  codeBase : Nat := 0
  codeLen : Nat := 0
  dataBase : Nat := 0
  dataLen : Nat := 0
  kernels : List KernelDesc := []
  parts : List (Nat × Nat) := []
  unregBy : Option (Nat × Nat × CmdHeader) := none
deriving DecidableEq, Repr

/-! ## Traps -/

/-- Trap causes with their codes in 17 R378. -/
inductive Cause where
  | illegal | clauseForm | operandLimit | spadBounds | accessViolation | misaligned | cfiViolation
  | returnUnderflow | illegalWait | waitTimeout | copyLate | layerFault | deadlineMiss | engineError
  | remoteGone | pairMismatch | eccUncorrectable | software | breakpoint | faultUnserviceable
deriving DecidableEq, Repr

/-- A trap record (17 R379). -/
structure TrapRec where
  cause : Cause := .illegal
  sub : Nat := 0
  ctx : Nat := 0
  deferred : Bool := false
  lane : Nat := 0
  core : Nat := 0
  group : Nat := 0
  gridid : W32 := 0
  team : Nat := 0
  mask : W32 := 0
  pc : Nat := 0
  cstart : Nat := 0
  addr : W64 := 0
  trow : BitVec 16 := 0xFFFF
  tcol : BitVec 16 := 0xFFFF
  tk : W32 := 0xFFFFFFFF
  sten : Nat := 0
  detail : W32 := 0
deriving DecidableEq, Repr

/-! ## Threads, groups and conductors -/

/-- One thread (02 R40); the default thread is exited (01 R10). -/
structure Thread where
  pc : BitVec 48 := 0
  live : Bool := false
  lt : W32 := 0
  t : TMap W32 := []
  v : TMap W32 := []
  p : BitVec 8 := 1
  links : List (BitVec 48) := []
  spilled : Nat := 0
  priv : Mem := []
  fpstat : BitVec 5 := 0
  fpctl : BitVec 3 := 0
  cych : Option W32 := none
  cancelSeen : Bool := false
  redirected : Bool := false
deriving DecidableEq, Repr

/-- Hints that stand before the next body word (06 R136). -/
structure Hints where
  imm : Option (BitVec 24) := none
  cache : Option (BitVec 24) := none
  modifier : Option (BitVec 24) := none
deriving DecidableEq, Repr

/-- What a transfer does with the return stack (02 R49). -/
inductive LinkOp where
  | none
  | push (link : BitVec 48)
  | pop
deriving DecidableEq, Repr

/-- One thread's control transfer, taken after the commits (08 R187). -/
structure Xfer where
  target : W64 := 0
  expect : Option (BitVec 16) := none
  link : LinkOp := .none
deriving DecidableEq, Repr

/-- The control outcome of a clause's last body word, applied after the trailer's commits (06 R127, 08 R187). -/
inductive Ctl where
  | fall
  | xfers (lanes : TMap Xfer)
  | exits (mask : W32)
  | yielding
  | eret
deriving DecidableEq, Repr

/-- The clause a run is in (01 R20, 06 R122-R128). outs numbers what its words have sent out, kept for a lockstep team (17 R386). -/
structure Clause where
  mask : W32 := 0
  head : Nat := 0
  decoded : Bool := false
  len : Nat := 1
  next : Nat := 0
  wait : BitVec 12 := 0
  setA : Option Nat := none
  setB : Option Nat := none
  sect : Nat := 5
  hints : Hints := {}
  ctl : Ctl := .fall
  waited : Bool := false
  cand : W32 := 0
  candP : W32 := 0
  maskP : W32 := 0
  outs : List Nat := []
deriving DecidableEq, Repr

/-- Threads held after the commits at a transferring clause whose target page is not present, with the REPLAY's answer once it has
come: RETRY or VIOLATION (08 R189). -/
structure HeldXfer where
  page : Nat
  pc : Nat
  cstart : Nat
  lanes : TMap Xfer
  answer : Option Bool := none
deriving DecidableEq, Repr

/-- A yielded run (01 R21); owed holds the threads of the runs it must let go first, owedP those of a pair's other group
(13 R301). -/
structure TailRun where
  mask : W32
  owed : W32
  owedP : W32 := 0
deriving DecidableEq, Repr

/-- A resolved place of an access: physical memory, a team's scratchpad, a thread's private memory (04 R81). -/
inductive Loc where
  | phys (a : Nat)
  | spad (team off : Nat)
  | priv (unit lane off : Nat)
deriving DecidableEq, Repr

/-- What a blocked run waits for (01 R29, 08 R183). -/
inductive WaitKind where
  | bar (n : Nat) (d : OField) (red : Bool)
  | barg (d : OField) (red : Bool)
  | waitf (loc : Loc) (va : Nat) (value : W32) (k : Cond) (d : OField) (producer : Option Nat)
  | fwait (v : Nat) (slot : Nat) (noerr : Bool)
  | regc (d : OField) (blocks : Nat)
  | sleepCyc (d : OField) (cluster due : Nat)
  | sleepFut (d : OField) (slot cluster due : Nat)
deriving DecidableEq, Repr

/-- A run in a blocking wait, or one whose wait ended and whose clause has yet to finish (01 R19, R29); unread says that its word has
not been read yet, lost that the word's page has gone, and whether the fault of that has been recorded (17 R368, R377). -/
structure BlockedRun where
  id : Nat
  clause : Clause
  wait : WaitKind
  parts : W32
  elapsed : Nat := 0
  ended : Bool := false
  last : W32 := 0
  unread : Bool := false
  lost : Option Bool := none
  hit : Option W32 := none
deriving DecidableEq, Repr

/-- Where a long-latency load writes (08 R195, R198). -/
inductive LoadDest where
  | lanes (v : Nat)
  | uniform (s : Nat)
deriving DecidableEq, Repr

/-- One lane's part of an access: the place and, for global memory, the virtual address. -/
structure LaneAcc where
  lane : Nat
  loc : Loc
  va : Nat := 0
  data : List Byte := []
deriving DecidableEq, Repr

/-- An outstanding load (06 R128, 08 R195). -/
structure PendingLoad where
  id : Nat
  pc : Nat
  cstart : Nat
  flag : Option Nat
  dest : LoadDest
  type : LoadType
  bytes : Nat
  lanes : List LaneAcc
deriving DecidableEq, Repr

/-- An undrained store, oldest first in its group (05 R99); logged names the operand-log entry that stands in its place, op the matrix
operation whose stores are still to come (09 R236), red the operation of a red, whose lanes hold its operands, with its ordering and the
scope of that (08 R200, R201). -/
structure PendingStore where
  id : Nat
  pc : Nat
  cstart : Nat
  flag : Option Nat
  lanes : List LaneAcc
  logged : Option Nat := none
  op : Option Nat := none
  red : Option AtomOp := none
  ord : AtomOrd := .none
  scope : Scope := .dev
deriving DecidableEq, Repr

/-- States of a future slot (02 R48). -/
inductive FutState where
  | free | pending | complete
deriving DecidableEq, Repr

/-- Kinds of future (09 R251). -/
inductive FutKind where
  | grid | graph | copy | wagon | geometry | articulation | layer
deriving DecidableEq, Repr

/-- The status of one lane's wagon row (09 R251). -/
structure RowStatus where
  done : Bool := false
  err : Nat := 0
deriving DecidableEq, Repr

/-- A future slot (02 R48, 09 R251). -/
structure FutSlot where
  state : FutState := .free
  kind : FutKind := .grid
  err : Nat := 0
  detail : BitVec 16 := 0
  dropped : Bool := false
  link : Nat := 0
  rows : TMap RowStatus := []
  failAddr : W64 := 0
  promise : Nat := 0
  cluster : Nat := 0
deriving DecidableEq, Repr

/-- An entry of a feed queue (01 R18). -/
inductive FeedEntry where
  | uniform (w : W32)
  | vector (base stride : W32)
deriving DecidableEq, Repr

/-- Trap-handler level of a group (08 R218, 14 R308, R309). -/
structure Handler where
  recAddr : W64 := 0
  record : TrapRec := {}
  hres : BitVec 48 := 0
  hmode : BitVec 2 := 0
  hmask : W32 := 0
  stopped : W32 := 0
deriving DecidableEq, Repr

/-- Why a unit's next word is held (17 R366, R376, 01 R18). -/
inductive Hold where
  | replay (waits : List (Nat × W32 × Nat))
  | feed (d : OField) (g : Guard)
  | fpush (group : Nat) (e : FeedEntry)
  | fetch (page va : Nat)
deriving DecidableEq, Repr

/-- A run that a wait set apart from the others at its counter, kept apart when its team resumes (01 R19); maskP is its part in a pair's
other group (13 R301). -/
structure ApartRun where
  mask : W32
  pc : Nat
  maskP : W32 := 0
deriving DecidableEq, Repr

/-- A group, or the conductor of a team (01 R8, R17). pushing is a wpush that a full queue holds: its slot, and the lanes whose rows
the queue has yet to take (09 R244, R245); stallSet says that FARESTALL was written in this cycle (07 R179). -/
structure Grp where
  live : Bool := false
  idx : Nat := 0
  role : Nat := 0
  slot : Nat := 0
  share : Nat := 0
  s : TMap W32 := []
  k : TMap W64 := []
  flags : TMap Nat := []
  futures : TMap FutSlot := []
  feed : List FeedEntry := []
  threads : TMap Thread := []
  tail : List TailRun := []
  blocked : List BlockedRun := []
  clause : Option Clause := none
  loads : List PendingLoad := []
  stores : List PendingStore := []
  deferred : List (TrapRec × Nat) := []
  farestall : W32 := 0
  stallSet : Bool := false
  apart : List ApartRun := []
  handler : Option Handler := none
  held : Option Hold := none
  xheld : List HeldXfer := []
  denied : Nat := 0
  deniedFares : Bool := false
  issued : Bool := false
  retired : Bool := false
  windDown : Bool := false
  pushing : Option (Nat × List Nat) := none
  drain : Bool := false
deriving DecidableEq, Repr

/-- An operand-log entry (17 R374); again marks lanes that a full fault buffer left without a record, atomic the lanes of a red, and load
keeps a load that walks again (17 R368, R369). -/
structure LogEntry where
  id : Nat
  slot : Nat := 0
  unit : UnitId
  pc : Nat
  cstart : Nat
  isStore : Bool
  ltype : LoadType
  flag : Option Nat
  v : Nat
  lanes : List LaneAcc
  ctx : Nat
  again : Bool := false
  atomic : Bool := false
  load : Option PendingLoad := none
deriving DecidableEq, Repr

/-! ## Teams, gangs, grids -/

/-- The arrival of one run: its participants and the values of a reduction (08 R205). -/
structure BarArrival where
  unit : UnitId
  run : Nat
  count : Nat
  op : Option BarOp := none
  vals : List W32 := []
deriving DecidableEq, Repr

/-- A barrier's current generation (08 R205, R206): engines counts registered engine arrivals that have not come. -/
structure Barrier where
  gen : Nat := 0
  count : Option Nat := none
  arrivals : List BarArrival := []
  engines : Nat := 0
  engineErr : Bool := false
deriving DecidableEq, Repr

/-- Where a team stands (01 R26, 15 R339, R344, 17 R381). -/
inductive TeamPhase where
  | placed | running | stopping | saving | saved | retired
deriving DecidableEq, Repr

/-- A claim on the team's free store, with the cycle its wait began; in the order the waits began (08 R212). -/
structure RegClaim where
  unit : Nat
  run : Nat
  blocks : Nat
  cyc : Nat := 0
deriving DecidableEq, Repr

/-- One divergence of a lockstep team's second core: the unit and thread whose outcome differs, and the first differing outbound address,
or 0 (17 R387, log 44). -/
structure Upset where
  unit : Nat
  lane : Nat
  addr : W64 := 0
deriving DecidableEq, Repr

/-- A team (01 R8). layersRead lists the layers it has acquired (05 R119); sectBy is the cycle and the group of the last write to SECT
(07 R175); startFe the front-end cycle of its start (15 R339); stencils the records bound to a task's team (01 R16); moving says that it
was chosen for migration, and whether its domain has been set since (15 R343). -/
structure Team where
  uid : Nat := 0
  grid : Nat := 0
  index : Nat := 0
  ctx : Nat := 0
  core : Nat := 0
  phase : TeamPhase := .placed
  kernel : KernelDesc := {}
  groups : Nat := 1
  privBytes : Nat := 0
  pairMode : Bool := false
  shadowCore : Option Nat := none
  gang : Option Nat := none
  member : Nat := 0
  units : TMap Grp := []
  conductorSlot : Nat := 0
  sect : Nat := 5
  sectBy : Option (Nat × Nat) := none
  scratch : Mem := []
  barriers : TMap Barrier := []
  ownGang : Barrier := {}
  acc : TMap (TMap W32) := []
  freeStore : Nat := 0
  claims : List RegClaim := []
  layerCounts : TMap Nat := []
  layersRead : List Nat := []
  engineOps : Nat := 0
  stopped : Bool := false
  preemptFor : Nat := 0
  preemptElapsed : Nat := 0
  savedLog : List LogEntry := []
  startFe : Option Nat := none
  stencils : List Nat := []
  moving : Option Bool := none
  upsets : List Upset := []
deriving DecidableEq, Repr

/-- A gang (01 R12, R13); begun is the front-end cycle of its first start (15 R337). -/
structure Gang where
  uid : Nat := 0
  members : List Nat := []
  barrier : Barrier := {}
  begun : Option Nat := none
deriving DecidableEq, Repr

/-- Where a piece of work came from (01 R23, 15 R326, R332). -/
inductive Origin where
  | command (queue index : Nat) (h : CmdHeader)
  | parent (u : UnitId) (slot : Nat)
  | wagon (queue : Nat) (wagon : Nat)
  | node (graph index : Nat)
deriving DecidableEq, Repr

/-- The state of a task node (15 R331). -/
inductive NodePhase where
  | waiting | ready | started | endedOk | failed
deriving DecidableEq, Repr

/-- A task node (15 R331): sten and nst name its stencil records; startFe is the front-end cycle in which an engine took it. -/
structure Node where
  args : List W32 := []
  succ : List Nat := []
  kind : Nat := 0
  target : Nat := 0
  groups : Nat := 1
  priv : Nat := 0
  tile : Option (W32 × W32) := none
  kernel : KernelDesc := {}
  preds : Nat := 0
  sten : Nat := 0
  nst : Nat := 0
  phase : NodePhase := .waiting
  startFe : Option Nat := none
  page : Option Nat := none
deriving DecidableEq, Repr

/-- What kind of work a ready-pool entry is (15 R330). -/
inductive WorkKind where
  | grid | graph | wagonTask
deriving DecidableEq, Repr

/-- A grid, a task graph or a wagon's task (01 R8, 15 R330-R332). -/
structure Grid where
  uid : Nat := 0
  ctx : Nat := 0
  gridid : W32 := 0
  kind : WorkKind := .grid
  depth : Nat := 0
  cls : Nat := 2
  kernel : KernelDesc := {}
  teams : Nat := 1
  groups : Nat := 1
  gangSize : Nat := 1
  priv : Nat := 0
  args : List W32 := []
  tile : Option (W32 × W32 × Nat) := none
  origin : Origin := .node 0 0
  parentCluster : Option Nat := none
  parentGrid : Option Nat := none
  nodes : TMap Node := []
  nextTeam : Nat := 0
  children : Nat := 0
  prio : Nat := 0
  seq : Nat := 0
  passed : Nat := 0
  homeSet : Option Nat := none
  reservedSlots : List (Nat × Nat) := []
  domain : Bool := false
  sinceDomain : Nat := 0
  graced : Bool := false
  faulted : Bool := false
  cancelledWork : Bool := false
  nodeFailed : Bool := false
  faultIndex : Option Nat := none
  endErr : Option Nat := none
  gathered : Bool := false
  neverFit : Bool := false
  live : Bool := true
deriving DecidableEq, Repr

/-! ## Engine work -/

/-- A stencil record (09 R224). -/
structure Stencil where
  addr : Nat := 0
  base : W64 := 0
  ext : List Nat := []
  str : List Int := []
  fmt : Nat := 0
  pk : Bool := false
  rank : Nat := 1
  lb : Bool := false
  model : Nat := 0
  layer : Nat := 0
  tx : W32 := 0
  ty : W32 := 0
  reservedZero : Bool := true
deriving DecidableEq, Repr

/-- A matrix parameter block (09 R227). -/
structure ParamBlock where
  addr : Nat := 0
  aSten : W64 := 0
  bSten : W64 := 0
  ac : List Nat := []
  bc : List Nat := []
  gmask : Nat := 0
  gbar : Nat := 0
  zs : Bool := false
  reservedZero : Bool := true
deriving DecidableEq, Repr

/-- An epilogue block (09 R237). -/
structure EpiBlock where
  addr : Nat := 0
  dSten : W64 := 0
  dc : List Nat := []
  scale : W32 := 0
  bias : W64 := 0
  m : Nat := 1
  n : Nat := 1
  act : Nat := 0
  sat : Bool := false
  clr : Bool := false
  intAcc : Bool := false
  reservedZero : Bool := true
deriving DecidableEq, Repr

/-- Block scales of one operand, read at issue from all 32 lanes: the bytes of the two scale registers (03 R69). -/
structure Scales where
  byteSel : Nat := 0
  lo : List W32 := []
  hi : List W32 := []
deriving DecidableEq, Repr

/-- What a matrix-queue operation does (09 R228-R238). -/
inductive MatKind where
  | mul (mx : MxFields) (zero : Bool) (block : ParamBlock) (a b : Stencil) (sa sb : Option Scales)
  | acz
  | acld (base : W64)
  | acst (base : W64)
  | acrd (v : Nat) (row : Nat)
  | acepi (e : EpiBlock) (d : Stencil)
deriving DecidableEq, Repr

/-- State of the hod's pinning of an operation (09 R230, R231). -/
inductive PinState where
  | open
  | pinned
  | failed (rec : TrapRec)
deriving DecidableEq, Repr

/-- An operation of a core's matrix queue (09 R230). pins holds the elements pinned so far, of A or not, by their number (09 R231); dest
the pinned places of its stores, and of the bias of an epilogue from 4096 on; walked says that the walk-ahead has passed its pages
(17 R367); index is the TEAM index of a part's member (18 R389), entered the cycle and the core group number with which an operation
entered its queue (09 R230). -/
structure MatOp where
  id : Nat := 0
  unit : UnitId := ⟨0, 0⟩
  team : Nat := 0
  lane : Nat := 0
  runMask : W32 := 0
  pc : Nat := 0
  cstart : Nat := 0
  acc : Nat := 0
  kind : MatKind := .acz
  flag : Option Nat := none
  pin : PinState := .open
  pages : List Nat := []
  layer : List Nat := []
  gangOp : Option Nat := none
  rank : Nat := 0
  running : Bool := false
  granted : Nat := 0
  left : Nat := 0
  aData : List Nat := []
  bData : List Nat := []
  layerErrs : List Nat := []
  walked : Bool := false
  pins : List (Bool × Nat × Nat) := []
  dest : TMap Loc := []
  snap : TMap Mem := []
  index : Nat := 0
  entered : Option (Nat × Nat) := none
deriving DecidableEq, Repr

/-- The common record of a gmma's parts (09 R234); with no part left it holds the arrival at the barrier of the issuer's own team, which
comes once the issuer's deferred trap has been taken (18 R389). -/
structure GangOp where
  id : Nat := 0
  unit : UnitId := ⟨0, 0⟩
  left : Nat := 0
  flag : Option Nat := none
  failed : Option (Nat × TrapRec) := none
  members : List (Nat × Nat) := []
  gbar : Nat := 0
deriving DecidableEq, Repr

/-- Who is told when an engine operation ends: a future slot, a queue command or a task node (09 R251, 15 R328, R331). -/
inductive JobOwner where
  | future (u : UnitId) (slot : Nat)
  | command (queue index : Nat) (h : CmdHeader)
  | node (graph index : Nat)
deriving DecidableEq, Repr

/-- One line an engine operation owns: a physical line, a line whose page is not present yet, or a line of a team's scratchpad or a thread's private memory (05 R115). -/
inductive LineKey where
  | phys (line : Nat)
  | spad (team line : Nat)
  | priv (team unit lane line : Nat)
  | virt (ctx line : Nat)
deriving DecidableEq, Repr

/-- A copy job (09 R239-R243); moved counts the bytes its engine has had time to move (09 R241). -/
structure CopyJob where
  id : Nat := 0
  core : Nat := 0
  owner : JobOwner := .node 0 0
  ctx : Nat := 0
  grid : Option Nat := none
  user : UnitId := ⟨0, 0⟩
  lane : Nat := 0
  src : Stencil := {}
  coords : List Nat := []
  cnt0 : Nat := 1
  cnt1 : Nat := 1
  pitch : Nat := 0
  dst : W64 := 0
  members : List Nat := []
  gang : Bool := false
  started : Bool := false
  promise : Nat := 0
  moved : Nat := 0
  pages : List Nat := []
deriving DecidableEq, Repr

/-- A geometry query lane (09 R249). -/
structure GeoQuery where
  lane : Nat
  p0 : List W32
  p1 : List W32
  r : W32
  tag : W32
deriving DecidableEq, Repr

/-- A geometry job (10 R260-R267). -/
structure GeoJob where
  id : Nat := 0
  owner : JobOwner := .node 0 0
  ctx : Nat := 0
  grid : Option Nat := none
  octRoot : W64 := 0
  res : W64 := 0
  qtype : Nat := 0
  queries : List GeoQuery := []
  started : Bool := false
  root : List Byte := []
  pages : List Nat := []
deriving DecidableEq, Repr

/-- An articulation job (09 R250, 10 R268-R278); judged says that its start has passed the tests of its domain and its budget. -/
structure ArtJob where
  id : Nat := 0
  owner : JobOwner := .node 0 0
  ctx : Nat := 0
  grid : Option Nat := none
  model : W64 := 0
  input : W64 := 0
  out : W64 := 0
  job : Nat := 0
  budget : Nat := 1
  pivth : W32 := 0
  reg : W32 := 0
  damp : W32 := 0
  elapsed : Nat := 0
  ownedNv : Option Nat := none
  acceptErr : Option (Nat × W64 × Nat) := none
  judged : Bool := false
  started : Bool := false
  began : Nat := 0
  data : List Byte × List Byte := ([], [])
  pages : List Nat := []
deriving DecidableEq, Repr

/-! ## Wagons, depots, layers -/

/-- A wagon binding (14 R317). -/
structure WagonBinding where
  pctx : Nat := 0
  mctx : Nat := 0
  mslot : Nat := 0
  kb : Nat := 32
  rfmt : Nat := 0
  nrow : Nat := 8
  rb : Nat := 16
  age : Nat := 1
  entry : KernelDesc := {}
  tiles : Nat := 0
  tslots : Nat := 1
  tgroups : Nat := 1
  tpriv : Nat := 0
deriving DecidableEq, Repr

/-- A pushed row (09 R245). -/
structure WagonRow where
  op : Nat
  unit : UnitId
  lane : Nat
  slot : Nat
  grid : Nat
  bytes : List Byte
  res : Nat
  age : Nat := 0
deriving DecidableEq, Repr

/-- A wagon that departs: held until it takes a tile slot, its task's grid once created, the rows copied, the page it waits for
(09 R246, 14 R318). -/
structure Wagon where
  id : Nat
  rows : List WagonRow
  tile : Option Nat := none
  grid : Option Nat := none
  copied : Nat := 0
  page : Option Nat := none
deriving DecidableEq, Repr

/-- A wagon queue (09 R244). -/
structure WagonQueue where
  binding : Option WagonBinding := none
  rows : List WagonRow := []
  departed : List Wagon := []
  unbindBy : Option (Nat × Nat × CmdHeader) := none
deriving DecidableEq, Repr

/-- A depot pool (08 R216). -/
structure Pool where
  ctx : Option Nat := none
  base : Nat := 0
  log2 : Nat := 6
  count : Nat := 0
  fresh : Nat := 0
  freed : List Nat := []
deriving DecidableEq, Repr

/-- States of a model layer (14 R313). -/
inductive LayerPhase where
  | absent | loading | resident | failed
deriving DecidableEq, Repr

/-- Who waits for a layer (14 R314, R316). -/
inductive LayerWaiter where
  | flag (u : UnitId) (run : W32) (v : Nat) (f : Option Nat) (noerr : Bool) (pc cstart : Nat)
  | future (u : UnitId) (slot : Nat)
  | op (core op : Nat)
  | prefetch
  | ahead
deriving DecidableEq, Repr

/-- One layer of a bound model (14 R312, R313); leads says that its request has yet to start the next PREF layers (14 R314), due that
victims for it have been chosen in this front-end cycle (14 R315). -/
structure Layer where
  addr : Nat := 0
  bytes : Nat := 0
  fmt : Nat := 0
  pk : Bool := false
  pinnable : Bool := true
  phase : LayerPhase := .absent
  waiting : Bool := false
  leads : Bool := false
  due : Bool := false
  reqSeq : Nat := 0
  lastRelease : Nat := 0
  ops : Nat := 0
  waiters : List LayerWaiter := []
  sets : List Nat := []
  page : Option Nat := none
deriving DecidableEq, Repr

/-- A model slot of a context (14 R311, R319). -/
structure ModelSlot where
  eprio : Nat := 0
  pref : Nat := 0
  closing : Bool := false
  unbindBy : Option (Nat × Nat × CmdHeader) := none
  layers : TMap Layer := []
  count : Nat := 0
deriving DecidableEq, Repr

/-! ## Contexts -/

/-- States of a context (14 R305). -/
inductive CtxPhase where
  | free | active | suspended | stopped
deriving DecidableEq, Repr

/-- A context record (14 R304). -/
structure CtxRecord where
  ptroot : Nat := 0
  prio : Nat := 0
  fareshare : Nat := 0
  deadline : Nat := 0
  grace : Nat := 0
  starv : Nat := 0
  waitdef : Nat := 0
  clmask : BitVec 24 := 0
  hcmask : W32 := 0
  hentry : Nat := 0
  trapbase : Nat := 0
  privbase : Nat := 0
  privlen : Nat := 0
deriving DecidableEq, Repr

/-- One of the 64 contexts (14 R304-R306); nextRecord is a rewrite made while SUSPENDED, which applies at the resume; timed says that
DEADLINE_AT converted the deadline (19 R402). -/
structure Context where
  phase : CtxPhase := .free
  record : CtxRecord := {}
  nextRecord : Option CtxRecord := none
  dlrem : Nat := 0
  timed : Bool := false
  counting : Bool := false
  rootCluster : Nat := 0
  expired : Bool := false
  gridCount : W32 := 1
  faultLog : List TrapRec := []
  models : TMap ModelSlot := []
  objects : List CodeObject := []
  lastUntiled : Nat := 23
  teardownBy : Option (Nat × Nat × CmdHeader) := none
  suspendBy : Option (Nat × Nat × CmdHeader) := none
deriving DecidableEq, Repr

/-! ## Translation -/

/-- A leaf translation (17 R363). -/
structure Leaf where
  pa : Nat := 0
  size : Nat := 0x10000
  w : Bool := false
  x : Bool := false
  d : Bool := false
deriving DecidableEq, Repr

/-- A cached translation (17 R365). -/
structure TlbEntry where
  ctx : Nat
  va : Nat
  leaf : Leaf
deriving DecidableEq, Repr

/-- An entry of a walk cache: the table below an entry of a level of a recent walk (17 R365). -/
structure WalkEntry where
  ctx : Nat
  level : Nat
  va : Nat
  table : Nat
deriving DecidableEq, Repr

/-- A walker's pending fill, with the cores and engines whose misses share the walk (17 R365, R369). -/
structure PendingFill where
  id : Nat
  agents : List Nat
  entry : TlbEntry
  voided : Bool := false
deriving DecidableEq, Repr

/-- An invalidation in progress (17 R368). -/
structure Invalidation where
  ctx : Nat
  va : Nat
  len : Nat
deriving DecidableEq, Repr

/-- Kinds of faulting access (17 R372). -/
inductive AccKind where
  | read | write | atomic | execute
deriving DecidableEq, Repr

/-- A fault record (17 R372). -/
structure FaultRec where
  ctx : Nat := 0
  kind : AccKind := .read
  agent : Nat := 0
  level : Nat := 0
  h : Bool := false
  core : Nat := 0
  group : Nat := 0
  va : Nat := 0
  log : Nat := 0xFF
deriving DecidableEq, Repr

/-- An entry of the migration table (17 R371). -/
structure Migration where
  frame : Nat
  oldRow : Nat
  newRow : Nat
  progress : Nat := 0
deriving DecidableEq, Repr

/-! ## Cores, clusters, pairs -/

/-- A fare request of a core or a cluster purse (16 R346, R349); price is that of the word a vector request is made for. -/
structure FareReq where
  unit : Option UnitId := none
  op : Option Nat := none
  core : Nat := 0
  fares : Nat := 0
  ctx : Nat := 0
  since : Nat := 0
  price : Nat := 0
  matrix : Bool := false
  vector : Bool := false
  burstReq : Bool := false
  cluster : Bool := false
  balance : Nat := 0
deriving DecidableEq, Repr

/-- A starvation reservation in a cluster: the group, and the cycle of its cluster in which it was taken (01 R33, 16 R357). -/
structure Resv where
  unit : UnitId
  taken : Nat
deriving DecidableEq, Repr

/-- A ring claim: the cluster, the group it serves, and the front-end cycle in which it was made (16 R357). -/
structure RingClaim where
  cluster : Nat
  unit : UnitId
  made : Nat
deriving DecidableEq, Repr

/-- A holding of fares by an operation (16 R345, 09 R259). -/
structure Holding where
  op : Nat
  fares : Nat
  ctx : Nat
deriving DecidableEq, Repr

/-- Why a matrix unit skims (16 R351-R355). -/
inductive SkimMode where
  | idle | ramping | operating | rampingDown | bursting
deriving DecidableEq, Repr

/-- A core's purse (16 R345, R346, R351-R355); past lists the holdings of operations that ended in this window, which it still counts. -/
structure Purse where
  unitLevel : Nat := 0
  windowLevel : Nat := 0
  balSkim : Nat := 0
  mode : SkimMode := .idle
  target : Nat := 0
  rampPhase : Nat := 0
  fell : Bool := false
  holdings : List Holding := []
  past : List Holding := []
  vector : Nat := 0
  charged : Nat := 0
  burst : Nat := 0
  burstTeam : Nat := 0
  burstWindows : Nat := 0
deriving DecidableEq, Repr

/-- A core (04 R84, 05 R102, 09 R230, R240, 15 R340). slotsUsed lists the quadrants that have issued in this cycle, 4 for the conductor
slot; tried the units whose word met a stall of its own in this cycle, refused those to which the purse did not grant theirs
(15 R341). -/
structure Core where
  cut : Mem := []
  unpub : TMap Byte := []
  own : TMap Byte := []
  eng : List Nat := []
  sinceAcquire : Nat := 0
  tlb : List TlbEntry := []
  log : List LogEntry := []
  matrix : List MatOp := []
  parts : List MatOp := []
  flying : List MatOp := []
  copies : List CopyJob := []
  lastQuad : TMap Nat := []
  lastCond : Nat := 3
  slotsUsed : List Nat := []
  tried : List UnitId := []
  refused : List UnitId := []
  l1 : Option Nat := none
  interval : Nat := 0
  purse : Purse := {}
  scoreT : Nat := 0
  scoreV : Nat := 0
  retired : Bool := false
  spare : Option Nat := none
deriving DecidableEq, Repr

/-- A cluster (16 R348-R356, 17 R365, 15 R333-R336). -/
structure Cluster where
  cyc : W64 := 0
  boundaryDue : Bool := false
  judged : Bool := false
  ramp : Bool := true
  stepLimit : Nat := 128
  bdb : Nat := 32
  burstMax : Nat := 8
  clim : Nat := 64
  ebud : Nat := 4096
  prev : Nat := 0
  cur : Nat := 0
  gated : Bool := false
  balSkimming : Bool := false
  skimPhase : Nat := 0
  fell : Bool := false
  govStall : Bool := false
  govCnt : W32 := 0
  balCnt : W32 := 0
  spentWindows : Nat := 0
  energyAdmitted : Nat := 0
  peakAdmitted : Nat := 0
  holdings : List Holding := []
  past : List Holding := []
  requests : List FareReq := []
  fareResv : List Resv := []
  issueResv : List Resv := []
  geo : List GeoJob := []
  art : List ArtJob := []
  tlb : List TlbEntry := []
  ahead : List TlbEntry := []
  walks : List WalkEntry := []
  fills : List PendingFill := []
  rho : Nat := 0
  claims : List Nat := []
deriving DecidableEq, Repr

/-- A stack pair's operating point, and the one it is to change to (16 R358). -/
structure Pair where
  mhz : Nat := 2100
  pending : Option Nat := none
deriving DecidableEq, Repr

/-- Who may be held at a pair's boundary (16 R358): a unit with its word, an operation of an engine, a wagon queue, a layer to be loaded,
the front end. -/
inductive Asker where
  | unit (u : UnitId)
  | job (op : Nat)
  | wagons (queue : Nat)
  | layer (key : Nat)
  | frontEnd
deriving DecidableEq, Repr

/-- A request held at the boundaries of pairs; opened says that they were open to it when a front-end cycle ended. -/
structure HeldAsk where
  who : Asker
  pairs : List Nat
  opened : Bool := false
deriving DecidableEq, Repr

/-! ## Front end -/

/-- States of a queue (15 R324). -/
inductive QueuePhase where
  | idle | ready | held | error
deriving DecidableEq, Repr

/-- A command taken and not yet completed (15 R326, R329). -/
structure OpenCmd where
  index : Nat
  op : Nat
deriving DecidableEq, Repr

/-- What a HELD queue's head waits for, or that its reason has ended (15 R324, R326, R410): earlier commands, the ready pool, an engine, a
page, an engine's hold on a line (05 R114), a record slot of the fault buffer (17 R372), or the invalidations of a context. -/
inductive HeldWhy where
  | order
  | pool
  | engine
  | waiting
  | page (p : Nat)
  | line (l : Nat)
  | room
  | invalidation (ctx : Nat)
  | ended
deriving DecidableEq, Repr

/-- A command taken from its ring that could not begin or be accepted (15 R326). -/
structure HeadCmd where
  index : Nat
  bytes : List Byte
  why : HeldWhy
deriving DecidableEq, Repr

/-- A completion record not yet written (15 R329); the ring's page may have to be waited for (15 R410). -/
structure CplRec where
  op : Nat
  status : Nat
  gridid : W32
  detail : Nat
  index : Nat
  tag : BitVec 16
deriving DecidableEq, Repr

/-- A WAIT command that holds its queue (15 R328); lost as for a blocked run. -/
structure WaitCmd where
  index : Nat
  h : CmdHeader
  pa : Nat
  va : Nat := 0
  value : W32
  k : Cond
  lost : Option Bool := none
  hit : Bool := false
deriving DecidableEq, Repr

/-- A hardware queue (15 R321-R329). roomHeld: an access to its rings met a page fault while the fault buffer was full (17 R372). -/
structure Queue where
  en : Bool := false
  admin : Bool := false
  ctx : Nat := 0
  logn : Nat := 0
  age : Nat := 0
  cring : Nat := 0
  ridx : Nat := 0
  widx : Nat := 0
  ring : Nat := 0
  phase : QueuePhase := .idle
  rd : W32 := 0
  w : W32 := 0
  done : Nat := 0
  level : Nat := 0
  aged : Nat := 0
  outstanding : List OpenCmd := []
  waiting : Option WaitCmd := none
  watchLine : Option Nat := none
  head : Option HeadCmd := none
  cplWait : List CplRec := []
  cplHeld : Option Nat := none
  roomHeld : Bool := false
deriving DecidableEq, Repr

/-- A command in service at firmware core 0 (15 R325, R327). -/
structure Service where
  queue : Nat
  index : Nat
  bytes : List Byte
deriving DecidableEq, Repr

/-! ## Mailbox, link, bring-up -/

/-- An event for the host event ring (19 R396). -/
structure HostEvent where
  type : Nat
  status : Nat := 0
  tag : BitVec 16 := 0
  payload : List Byte := []
deriving DecidableEq, Repr

/-- A RoCEv2 window (19 R399): frames are those of its 64 KiB pages in ascending order, pinned until it is closed; ctx is its context, 64 once
that has been torn down. -/
structure Window where
  rkey : W32 := 0
  ctx : Nat := 0
  rights : WindowRights := ⟨false, false⟩
  base : Nat := 0
  len : Nat := 0
  frames : List Nat := []
deriving DecidableEq, Repr

/-- Boot stages (19 R403). -/
inductive BootPhase where
  | inReset | booted | recovery
deriving DecidableEq, Repr

/-- A firmware image slot (19 R403, R404). -/
structure Image where
  bytes : List Byte := []
  staged : Option (List Byte) := none
  rollback : W32 := 0
deriving DecidableEq, Repr

/-- The mailbox and the host event ring (19 R396, R397): pending slots hold messages not yet answered, busy ones were rewritten before
their reply, kept lists unanswered messages (port, whether itself written over one, bytes) whose slots have been rewritten; ringDown says that the ring's queue pair is in
error; ports says which of the two link ports carried each slot's message, servicePort which the message in service; sent lists the
records written to the host, with their addresses. -/
structure Mailbox where
  slots : TMap (List Byte) := []
  ports : TMap Nat := []
  nextSeq : W32 := 0
  evack : W32 := 0
  ringPlaced : Bool := false
  ringDown : Bool := false
  ringQp : Nat := 0
  ringRkey : W32 := 0
  ringAddr : Nat := 0
  loge : Nat := 6
  deviceSeq : W32 := 0
  queue : List HostEvent := []
  sent : List (Nat × List Byte) := []
  pending : List Nat := []
  busy : List Nat := []
  kept : List (Nat × Bool × List Byte) := []
  inService : Option (List Byte) := none
  servicePort : Nat := 0
deriving DecidableEq, Repr

/-- The health report's counts (19 R405). -/
structure Health where
  retired : List Nat := []
  cores : Nat := 192
  replace : BitVec 4 := 0
  dramSpares : Nat := 0
  ringSpares : Nat := 0
  rowSpares : Nat := 0
  coreSpares : Nat := 8
  standIn : TMap Nat := []
deriving DecidableEq, Repr

/-- The safety supervisor's registers and report ring (17 R383). -/
structure Supervisor where
  sgroup : Nat := 0
  score : Nat := 0
  freeze : Bool := false
  frozen : Bool := false
  pairErr : Bool := false
  pairLo : W32 := 0
  pairHi : W32 := 0
  repCnt : W32 := 0
  reports : List TrapRec := []
  stepping : Option UnitId := none
deriving DecidableEq, Repr

/-- Device fare registers and the ring (16 R347-R349, R357). -/
structure Ring where
  ringTot : Nat := 0
  fcap : Nat := 0xFFFF
  shunt : Nat := 128
  pairPtr : Nat := 0
  claims : List RingClaim := []
deriving DecidableEq, Repr

/-- Values firmware sets for the device (05 R106, 15 R333, R336, 09 R241, 17 R381). -/
structure Policy where
  phaseAge : Nat := 65536
  poolStarve : Nat := 65536
  placeDepth : Nat := 2
  copyMargin : Nat := 512
  preemptBound : Nat := 262144
deriving DecidableEq, Repr

/-! ## The machine -/

/-- Who moves next (log 2): a unit, an event, a command or a message in service, a cycle, or a fault of a lockstep team's second core
in a thread of a unit, with the first differing outbound address (17 R387, log 44). -/
inductive Turn where
  | issue (u : UnitId)
  | divergence (u : UnitId) (lane : Nat) (addr : W64)
  | event (i : Instr)
  | command
  | mailbox
  | cycle (pair : Nat)
  | frontCycle
deriving DecidableEq, Repr

/-- The state of the device. serviceWait lists pages (context, page) whose records have been read and whose service waits, evicting pages
(context, page, frame) whose invalidation is in progress (17 R373, R377); linkHeld writes of queue pairs that wait for a line's owner
(05 R120); boundary what changes of operating points hold, in the order it was held (16 R358); layerHeld the requests of layers that a
change of the pinned-way count holds, in the order of their arrival (14 R320); denials REPLAYs with VIOLATION, or with UNSERVICEABLE,
that came while the device was frozen (17 R384); dispatched says that
the dispatcher has visited the pool in this front-end cycle, startedIn in which clusters a unit has started in it (15 R333). -/
structure State where
  agenda : List Turn := []
  focus : Option UnitId := none
  nextUid : Nat := 1
  freeCtr : Nat := 0
  mem : Mem := []
  owned : List (Nat × LineKey) := []
  badLines : List Nat := []
  cores : TMap Core := []
  clusters : TMap Cluster := []
  stackPairs : TMap Pair := []
  boundary : List HeldAsk := []
  teams : TMap Team := []
  gangs : TMap Gang := []
  grids : TMap Grid := []
  gangOps : TMap GangOp := []
  contexts : TMap Context := []
  queues : TMap Queue := []
  lastServed : TMap Nat := []
  service : Option Service := none
  readyPool : List Nat := []
  dispatched : Bool := false
  startedIn : List Nat := []
  gathering : Option Nat := none
  wagons : TMap WagonQueue := []
  pools : TMap Pool := []
  pinnedWays : Nat := 0
  waysHeld : Option Nat := none
  layerHeld : List (Nat × LayerWaiter) := []
  layerSeq : Nat := 0
  migrations : List Migration := []
  backing : TMap Nat := []
  faultBuf : List FaultRec := []
  freeFrames : List Nat := []
  freshFrame : Nat := 0
  serviceWait : List (Nat × Nat) := []
  evicting : List (Nat × Nat × Nat) := []
  denials : List (ReplayScope × Bool) := []
  evicted : TMap Mem := []
  invalidations : List Invalidation := []
  fe : Nat := 0
  ring : Ring := {}
  policy : Policy := {}
  supervisor : Supervisor := {}
  mailbox : Mailbox := {}
  windows : TMap Window := []
  qps : List Nat := []
  qpErrors : List Nat := []
  peerBinding : TMap Nat := []
  peerPending : List (Nat × Nat) := []
  peerWrites : List (Nat × Nat × Byte) := []
  linkReads : List (Nat × List Byte) := []
  linkHeld : List (Nat × List (Nat × Byte)) := []
  boot : BootPhase := .inReset
  images : TMap Image := []
  attestIndex : Nat := 0
  health : Health := {}
  portTime : Nat := 0
  memBytes : Nat := 137438953472
  idleTurn : Nat := 0
deriving DecidableEq, Repr

/-- The machine right after reset: nothing is resident, no context is set up, and every register holds the value
the spec gives, or the value log 6 names. -/
def State.reset : State := {}

/-- Reasons to stop with a fault. No rule of the spec ends a run: traps are next states (14 R308). -/
inductive Fault where
  /-- Raised by nothing in this model; safe. It stands so that the type is inhabited by a named reason. -/
  | none
deriving DecidableEq, Repr

/-- Reasons for a refusal. -/
inductive Refusal where
  /-- An arm of exec without a meaning; safe. -/
  | notModelled (mnemonic : String)
deriving DecidableEq, Repr

end Sys2Proof.Machine
end

