-- ==== Sys2Proof/Machine/Bits.lean ====
section
/-! DEFINITION. Sparse maps, memories, byte order and lane masks: the plain data operations every rule uses. -/

set_option linter.unusedVariables false

namespace Sys2Proof.Machine

/-! ## Sparse maps -/

/-- The map without an entry for a key. -/
def terase {α : Type} (m : TMap α) (k : Nat) : TMap α := m.filter (fun e => e.1 != k)

/-- Insertion in key order of a key the map lacks. -/
def tinsert {α : Type} : TMap α → Nat → α → TMap α
  | [], k, v => [(k, v)]
  | e :: r, k, v => if k < e.1 then (k, v) :: e :: r else e :: tinsert r k v

/-- The map with one key's value replaced. -/
def tset {α : Type} (m : TMap α) (k : Nat) (v : α) : TMap α := tinsert (terase m k) k v

/-- The value listed for a key, if any. -/
def tget? {α : Type} : TMap α → Nat → Option α
  | [], _ => none
  | e :: r, k => if e.1 = k then some e.2 else tget? r k

/-- The value of a key; d is what an unlisted key reads as. -/
def tget {α : Type} (d : α) (m : TMap α) (k : Nat) : α := (tget? m k).getD d

/-- Whether a key is listed. -/
def thas {α : Type} (m : TMap α) (k : Nat) : Bool := (tget? m k).isSome

/-- The keys of a map. -/
def tkeys {α : Type} (m : TMap α) : List Nat := m.map (·.1)

/-- Every value of a map changed. -/
def tmap {α : Type} (f : Nat → α → α) (m : TMap α) : TMap α := m.map (fun e => (e.1, f e.1 e.2))

/-! ## Memories -/

/-- What a byte reads as; an unlisted byte reads 0 (log 1). -/
def memRead (m : Mem) (a : Nat) : Byte := tget 0 m a

/-- A memory with one byte written; a zero is not listed, so that equal memories are equal data. -/
def memWrite (m : Mem) (a : Nat) (v : Byte) : Mem := if v = 0 then terase m a else tset m a v

/-- Consecutive bytes. -/
def memReadN (m : Mem) (a : Nat) : Nat → List Byte
  | 0 => []
  | n + 1 => memRead m a :: memReadN m (a + 1) n

/-- Consecutive bytes written, lowest address first. -/
def memWriteN (m : Mem) (a : Nat) : List Byte → Mem
  | [] => m
  | b :: bs => memWriteN (memWrite m a b) (a + 1) bs

/-- Whether keys rise strictly from a lower bound. -/
def keysRise {α : Type} : Nat → TMap α → Bool
  | _, [] => true
  | lo, e :: r => decide (lo ≤ e.1) && keysRise (e.1 + 1) r

/-- The canonical form of a memory: addresses strictly rising and no byte listed that reads as an unlisted one. -/
def Memory.wf (m : Mem) : Bool := keysRise 0 m && m.all (fun e => e.2 != 0)

/-! ## Byte order (00 R2): little-endian -/

/-- The n low bytes of a number, lowest first. -/
def natToBytes : Nat → Nat → List Byte
  | 0, _ => []
  | n + 1, x => BitVec.ofNat 8 (x % 256) :: natToBytes n (x / 256)

/-- A memory's little-endian number of n bytes. -/
def memNat (m : Mem) (a n : Nat) : Nat := bytesToNat (memReadN m a n)

/-- A 32-bit word of little-endian bytes. -/
def bytesToW32 (bs : List Byte) : W32 := BitVec.ofNat 32 (bytesToNat bs)

/-- Bits [hi:lo] read as a two's-complement number. -/
def sbitsAt (x hi lo : Nat) : Int :=
  let v := bitsAt x hi lo
  if v < 2 ^ (hi - lo) then (v : Int) else (v : Int) - 2 ^ (hi + 1 - lo)

/-- The ceiling of a quotient. -/
def ceilDiv (a b : Nat) : Nat := (a + b - 1) / b

/-- A number rounded up to a multiple. -/
def roundUp (a b : Nat) : Nat := ceilDiv a b * b

/-! ## Lanes -/

/-- The lanes of a mask, ascending. -/
def maskLanes (m : W32) : List Nat := (List.range 32).filter (fun l => m.getLsbD l)

/-- The mask of a list of lanes. -/
def laneMask : List Nat → W32
  | [] => 0
  | l :: r => laneMask r ||| ((1 : W32) <<< l)

/-- The lowest lane of a mask, 0 when it is empty. -/
def lowestLane (m : W32) : Nat := (maskLanes m).headD 0

/-- One lane's bit. -/
def laneBit (l : Nat) : W32 := (1 : W32) <<< l

/-- A signed 32-bit register value as an address offset (04 R79). -/
def sext64 (w : W32) : W64 := w.signExtend 64

/-- The least number of a list by a key, the earliest on ties. -/
def argMin {α : Type} (f : α → Nat) : List α → Option α
  | [] => none
  | x :: r =>
    match argMin f r with
    | none => some x
    | some y => if f y < f x then some y else some x

/-- Whether a list holds a number. -/
def hasNat (l : List Nat) (x : Nat) : Bool := l.any (· == x)

/-- The list without repeats, keeping first places. -/
def dedupNat : List Nat → List Nat
  | [] => []
  | x :: r => x :: (dedupNat r).filter (· != x)

/-- Insertion into an ascending list by a key. -/
def insertBy {α : Type} (le : α → α → Bool) (x : α) : List α → List α
  | [] => [x]
  | y :: r => if le x y then x :: y :: r else y :: insertBy le x r

/-- A list sorted by a total order, stable. -/
def sortBy {α : Type} (le : α → α → Bool) : List α → List α
  | [] => []
  | x :: r => insertBy le x (sortBy le r)

end Sys2Proof.Machine
end

