-- ==== Sys2Proof/Machine/Flags.lean ====
section
/-! DEFINITION. Number formats, rounding and the FPSTAT flags (03 R59-R77, 07 R161-R169): every value is an exact
dyadic number, an infinity or a NaN, and every rounding is one function. Flags are FPSTAT's bits NV, DZ, OF, UF, NX. -/

set_option linter.unusedVariables false

namespace Sys2Proof.Machine

/-! ## Values -/

/-- A decoded value: a NaN, an infinity, or (-1)^neg * m * 2^e exactly. -/
inductive FVal where
  | nan (signalling : Bool)
  | inf (neg : Bool)
  | fin (neg : Bool) (m : Nat) (e : Int)
deriving DecidableEq, Repr

/-- FPSTAT.NV (02 R52). -/
def flagNV : BitVec 5 := 0x10
/-- FPSTAT.DZ. -/
def flagDZ : BitVec 5 := 0x08
/-- FPSTAT.OF. -/
def flagOF : BitVec 5 := 0x04
/-- FPSTAT.UF. -/
def flagUF : BitVec 5 := 0x02
/-- FPSTAT.NX. -/
def flagNX : BitVec 5 := 0x01

/-- Rounding modes as FPCTL.RM codes them (02 R52). -/
inductive RMode where
  | rne | rtz | rdn | rup
deriving DecidableEq, Repr

/-- The mode of a two-bit code (02 R52). -/
def rmodeOf (c : BitVec 2) : RMode :=
  if c = 0 then .rne else if c = 1 then .rtz else if c = 2 then .rdn else .rup

/-- An IEEE format: exponent bits and trailing bits (03 R62). -/
structure IFmt where
  eb : Nat
  tb : Nat
deriving DecidableEq, Repr

/-- binary32. -/
def f32 : IFmt := ⟨8, 23⟩
/-- binary16. -/
def f16 : IFmt := ⟨5, 10⟩
/-- bfloat16. -/
def bf16 : IFmt := ⟨8, 7⟩

/-- The format of a packed 16-bit kind (07 R163). -/
def halfFmt : HalfKind → IFmt
  | .f16 => Machine.f16
  | .bf16 => Machine.bf16

/-- The exponent bias. -/
def IFmt.bias (f : IFmt) : Nat := 2 ^ (f.eb - 1) - 1

/-- The exponent of the last place of a subnormal. -/
def IFmt.minE (f : IFmt) : Int := 1 - (f.bias : Int) - f.tb

/-- The code of an infinity. -/
def IFmt.infCode (f : IFmt) (neg : Bool) : Nat :=
  (if neg then 2 ^ (f.eb + f.tb) else 0) + (2 ^ f.eb - 1) * 2 ^ f.tb

/-- The code of the largest finite value. -/
def IFmt.maxCode (f : IFmt) (neg : Bool) : Nat := f.infCode neg - 1

/-- The canonical quiet NaN (03 R63). -/
def IFmt.nanCode (f : IFmt) : Nat := (2 ^ f.eb - 1) * 2 ^ f.tb + 2 ^ (f.tb - 1)

/-- The value of a code of an IEEE format (03 R62). -/
def ieeeVal (f : IFmt) (x : Nat) : FVal :=
  let neg := x / 2 ^ (f.eb + f.tb) % 2 == 1
  let ex := x / 2 ^ f.tb % 2 ^ f.eb
  let tr := x % 2 ^ f.tb
  if ex = 2 ^ f.eb - 1 then
    if tr = 0 then .inf neg else .nan (tr / 2 ^ (f.tb - 1) == 0)
  else if ex = 0 then .fin neg tr f.minE
  else .fin neg (2 ^ f.tb + tr) (f.minE + (ex : Int) - 1)

/-- The value of a binary8 code (03 R59). -/
def decodeBinary8 (x P : Nat) (uns fin : Bool) : FVal :=
  let T := P - 1
  let E := if uns then 9 - P else 8 - P
  let B : Int := 2 ^ (E - 1)
  if !uns && x == 0x80 then .nan false
  else if uns && x == 0xFF then .nan false
  else if !fin && !uns && x % 0x80 == 0x7F then .inf (x / 0x80 == 1)
  else if !fin && uns && x == 0xFE then .inf false
  else
    let e := x / 2 ^ T % 2 ^ E
    let m := x % 2 ^ T
    let neg := !uns && x / 0x80 == 1
    if e = 0 then .fin neg m (1 - B - T) else .fin neg (2 ^ T + m) (e - B - T)

/-- Precision of a binary8 format code (03 R60). -/
def b8P (f : BitVec 5) : Nat := f.toNat / 4 + 1
/-- Whether a binary8 format code is unsigned (03 R60). -/
def b8Uns (f : BitVec 5) : Bool := f.toNat / 2 % 2 == 1
/-- Whether a binary8 format code is finite (03 R60). -/
def b8Fin (f : BitVec 5) : Bool := f.toNat % 2 == 1

/-- The value of an element of a format code (03 R60, R63). -/
def elemVal (f : BitVec 5) (x : Nat) : FVal :=
  if f = 0x1C then ieeeVal f16 x
  else if f = 0x1D then ieeeVal bf16 x
  else if f = 0x1E then ieeeVal f32 x
  else if f = 0x1F then .fin (decide (128 ≤ x)) (if 128 ≤ x then 256 - x else x) 0
  else decodeBinary8 x (b8P f) (b8Uns f) (b8Fin f)

/-! ## Rounding a magnitude -/

/-- Whether a discarded part raises the magnitude: rem of den, the kept part odd, the sign. -/
def roundsUp (rm : RMode) (neg odd : Bool) (rem den : Nat) : Bool :=
  match rm with
  | .rne => decide (den < 2 * rem) || (den == 2 * rem && odd)
  | .rtz => false
  | .rdn => neg && rem != 0
  | .rup => !neg && rem != 0

/-- The magnitude m * 2^e as a multiple of 2^q, with whether it is inexact. -/
def roundAt (rm : RMode) (neg : Bool) (m : Nat) (e q : Int) : Nat × Bool :=
  if q ≤ e then (m * 2 ^ (e - q).toNat, false)
  else
    let den := 2 ^ (q - e).toNat
    let n := m / den
    let rem := m % den
    (if roundsUp rm neg (n % 2 == 1) rem den then n + 1 else n, rem != 0)

/-- Bits of a nonzero magnitude. -/
def bitLen (m : Nat) : Nat := if m = 0 then 0 else Nat.log2 m + 1

/-- IEEE 754-2019 rounding of an exact value, tininess after rounding: the code and the flags (03 R64, R66). -/
def ieeeRound (f : IFmt) (rm : RMode) : FVal → Nat × BitVec 5
  | .nan sig => (f.nanCode, if sig then flagNV else 0)
  | .inf neg => (f.infCode neg, 0)
  | .fin neg m e =>
    let sgn := if neg then 2 ^ (f.eb + f.tb) else 0
    if m = 0 then (sgn, 0)
    else
      let qn : Int := e + bitLen m - (f.tb + 1)
      let q := max qn f.minE
      let (n, inexact) := roundAt rm neg m e q
      let (nu, _) := roundAt rm neg m e qn
      let tiny := decide (qn + bitLen nu < f.minE + (f.tb + 1))
      let code := ((q - f.minE).toNat) * 2 ^ f.tb + n
      if (2 ^ f.eb - 1) * 2 ^ f.tb ≤ code then
        let toMax := match rm with
          | .rne => false
          | .rtz => true
          | .rdn => !neg
          | .rup => neg
        (if toMax then f.maxCode neg else f.infCode neg, flagOF ||| flagNX)
      else
        (sgn + code, (if inexact then flagNX else 0) ||| (if tiny && inexact then flagUF else 0))

/-- RoundIEEE (07 R161): rounding, then saturation, then flushing of a subnormal result (03 R67). -/
def roundIEEE (f : IFmt) (rm : RMode) (sat ftz : Bool) (v : FVal) : Nat × BitVec 5 :=
  let (c, fl) := ieeeRound f rm v
  let mag := c % 2 ^ (f.eb + f.tb)
  let neg := c / 2 ^ (f.eb + f.tb) == 1
  let nan := match v with
    | .nan _ => true
    | _ => false
  if nan then (c, fl)
  else if sat && mag == f.infCode false then (f.maxCode neg, fl)
  else if ftz && mag != 0 && decide (mag < 2 ^ f.tb) then (c - mag, fl ||| flagUF ||| flagNX)
  else (c, fl)

/-! ## Exact arithmetic -/

/-- The sign of an exact zero sum (IEEE 754-2019 6.3). -/
def zeroSumNeg (rm : RMode) (n1 n2 : Bool) : Bool :=
  if n1 == n2 then n1 else rm == .rdn

/-- A signed integer times a power of two as a value with a sign given for zero. -/
def ofSigned (z : Int) (e : Int) (zneg : Bool) : FVal :=
  if z = 0 then .fin zneg 0 e else .fin (decide (z < 0)) z.natAbs e

/-- The signed significand of a finite value. -/
def signedM (neg : Bool) (m : Nat) : Int := if neg then -(m : Int) else m

/-- Whether a value is a NaN that signals. -/
def isSig : FVal → Bool
  | .nan s => s
  | _ => false

/-- Whether a value is a NaN. -/
def isNan : FVal → Bool
  | .nan _ => true
  | _ => false

/-- The exact negation of a value. -/
def fneg : FVal → FVal
  | .nan s => .nan s
  | .inf n => .inf (!n)
  | .fin n m e => .fin (!n) m e

/-- The exact sum before rounding, and whether the operation is invalid: a signalling NaN or infinities that cancel. -/
def addExact (rm : RMode) : FVal → FVal → FVal × Bool
  | .nan s, y => (.nan false, s || isSig y)
  | x, .nan s => (.nan false, s || isSig x)
  | .inf a, .inf b => if a == b then (.inf a, false) else (.nan false, true)
  | .inf a, .fin _ _ _ => (.inf a, false)
  | .fin _ _ _, .inf b => (.inf b, false)
  | .fin n1 m1 e1, .fin n2 m2 e2 =>
    let e := min e1 e2
    let z := signedM n1 (m1 * 2 ^ (e1 - e).toNat) + signedM n2 (m2 * 2 ^ (e2 - e).toNat)
    (ofSigned z e (zeroSumNeg rm n1 n2), false)

/-- The exact product before rounding, and whether the operation is invalid. -/
def mulExact : FVal → FVal → FVal × Bool
  | .nan s, y => (.nan false, s || isSig y)
  | x, .nan s => (.nan false, s || isSig x)
  | .inf a, .inf b => (.inf (a != b), false)
  | .inf a, .fin n m _ => if m = 0 then (.nan false, true) else (.inf (a != n), false)
  | .fin n m _, .inf b => if m = 0 then (.nan false, true) else (.inf (b != n), false)
  | .fin n1 m1 e1, .fin n2 m2 e2 => (.fin (n1 != n2) (m1 * m2) (e1 + e2), false)

/-- The exact product plus a third value, one rounding to follow; infinity times zero is invalid even with a NaN
addend (07 R161). -/
def fmaExact (rm : RMode) (x y z : FVal) : FVal × Bool :=
  let (p, inv) := mulExact x y
  let (s, inv2) := addExact rm p z
  (s, inv || inv2)

/-- The order of two values that are no NaN; -0 equals +0. -/
def fcompare : FVal → FVal → Ordering
  | .inf a, .inf b => if a == b then .eq else if a then .lt else .gt
  | .inf a, _ => if a then .lt else .gt
  | _, .inf b => if b then .gt else .lt
  | .fin n1 m1 e1, .fin n2 m2 e2 =>
    let e := min e1 e2
    compare (signedM n1 (m1 * 2 ^ (e1 - e).toNat)) (signedM n2 (m2 * 2 ^ (e2 - e).toNat))
  | _, _ => .eq

/-- Whether a value is minus zero. -/
def isNegZero : FVal → Bool
  | .fin n m _ => n && m == 0
  | _ => false

/-- NV when an operation is invalid. -/
def nvIf (b : Bool) : BitVec 5 := if b then flagNV else 0

/-! ## binary8 rounding (03 R65) -/

/-- The code of the NaN of a binary8 format (03 R63). -/
def b8Nan (f : BitVec 5) : Nat := if b8Uns f then 0xFF else 0x80

/-- The code of the largest finite value of a binary8 format (03 R61). -/
def b8MaxCode (f : BitVec 5) : Nat :=
  match b8Uns f, b8Fin f with
  | false, true => 0x7F
  | false, false => 0x7E
  | true, true => 0xFE
  | true, false => 0xFD

/-- The exponent of the last place of a binary8 format's subnormals: 1 - B - T (03 R59). -/
def b8MinE (f : BitVec 5) : Int :=
  let E := if b8Uns f then 9 - b8P f else 8 - b8P f
  1 - (2 ^ (E - 1) : Int) - ((b8P f : Int) - 1)

/-- NearestMagnitude of 03 R65 as a multiple n of 2^q, q the quantum of the value's binade, the range unbounded above. -/
def nearestMagnitude (f : BitVec 5) (m : Nat) (e : Int) : Nat × Int :=
  let P := b8P f
  let qn : Int := e + bitLen m - P
  let q := max qn (b8MinE f)
  if P = 1 then
    -- every magnitude of the grid is a power of two or zero
    let B : Int := 1 - b8MinE f
    if q ≤ e then (m * 2 ^ (e - q).toNat, q)
    else
      let den := 2 ^ (q - e).toNat
      let n := m / den
      let rem := m % den
      -- n is 0 or 1; the candidates are n and n + 1 times 2^q
      let upper := if n = 0 then decide (den < 2 * rem) else decide (den < 2 * rem) || (den == 2 * rem && (q + B) % 2 == 1)
      (if upper then n + 1 else n, q)
  else ((roundAt .rne false m e q).1, q)

/-- The binary8 code of a magnitude of the grid that is no larger than the largest finite value. -/
def b8Encode (f : BitVec 5) (neg : Bool) (n : Nat) (q : Int) : Nat :=
  let T := b8P f - 1
  let n' := n * 2 ^ (q - b8MinE f).toNat
  let len := bitLen n'
  let code := if len ≤ T then n' else (len - T) * 2 ^ T + n' / 2 ^ (len - 1 - T) % 2 ^ T
  (if neg && !b8Uns f then 0x80 else 0) + code

/-- RoundToBinary8 (03 R65): the code and the flags. -/
def roundToBinary8 (f : BitVec 5) (sat : Bool) (v : FVal) : Nat × BitVec 5 :=
  let maxFin := decodeBinary8 (b8MaxCode f) (b8P f) (b8Uns f) (b8Fin f)
  let infCode (neg : Bool) : Nat := if b8Uns f then 0xFE else if neg then 0xFF else 0x7F
  let signMax (neg : Bool) : Nat := (if neg && !b8Uns f then 0x80 else 0) + b8MaxCode f
  let ovf (neg fin : Bool) : Nat × BitVec 5 :=
    let fl := if fin then flagOF ||| flagNX else 0
    if sat then (signMax neg, fl)
    else if b8Fin f then (b8Nan f, fl ||| flagNV)
    else (infCode neg, fl)
  match v with
  | .nan sig => (b8Nan f, nvIf sig)
  | .inf neg =>
    if b8Uns f && neg then (if sat then (0, flagNX) else (b8Nan f, flagNV)) else ovf neg false
  | .fin neg m e =>
    if m = 0 then (0, 0)
    else
      let (n, q) := nearestMagnitude f m e
      if n = 0 then (0, flagUF ||| flagNX)
      else if b8Uns f && neg then (if sat then (0, flagNX) else (b8Nan f, flagNV))
      else if fcompare (.fin false n q) maxFin == .gt then ovf neg true
      else
        let exact := fcompare (.fin false n q) (.fin false m e) == .eq
        let tiny := decide (q + bitLen n < b8MinE f + b8P f)
        (b8Encode f neg n q, if exact then 0 else flagNX ||| (if tiny then flagUF else 0))

/-! ## Conversions to integers (07 R167) -/

/-- RoundToInteger of a finite value. -/
def roundToInt (rm : RMode) (neg : Bool) (m : Nat) (e : Int) : Int × Bool :=
  let (n, inexact) := roundAt rm neg m e 0
  (signedM neg n, inexact)

/-- ToInt of 07 R167 for a source that is no 32-bit integer. -/
def toIntVal (lo hi : Int) (rm : RMode) : FVal → Int × BitVec 5
  | .nan _ => (0, flagNV)
  | .inf neg => (if neg then lo else hi, flagNV)
  | .fin neg m e =>
    let (n, inexact) := roundToInt rm neg m e
    if n < lo then (lo, flagNV) else if hi < n then (hi, flagNV) else (n, if inexact then flagNX else 0)

/-- Clamp of 07 R167. -/
def clampInt (lo hi v : Int) : Int := if v < lo then lo else if hi < v then hi else v

/-! ## Comparisons and selections on binary32 (07 R162) -/

/-- The value of a binary32 register. -/
def fv (x : W32) : FVal := ieeeVal f32 x.toNat

/-- fmin and fmax: a NaN counts as missing, -0 lies below +0, and a returned operand is unchanged (07 R162). -/
def fminmax (wantMax : Bool) (a b : W32) : W32 × BitVec 5 :=
  let x := fv a
  let y := fv b
  let fl := nvIf (isSig x || isSig y)
  if isNan x && isNan y then (0x7FC00000, fl)
  else if isNan x then (b, fl)
  else if isNan y then (a, fl)
  else
    let aLess :=
      match fcompare x y with
      | .lt => true
      | .gt => false
      | .eq => isNegZero x && !isNegZero y
    let bLess :=
      match fcompare x y with
      | .gt => true
      | .lt => false
      | .eq => isNegZero y && !isNegZero x
    (if wantMax then (if bLess then a else if aLess then b else a) else (if aLess then a else if bLess then b else a), fl)

/-- fclass (07 R162). -/
def fclassMask (a : W32) : W32 :=
  let sub (m : Nat) : Bool := decide (m < 2 ^ 23)
  match fv a with
  | .inf true => 1
  | .inf false => 0x80
  | .nan true => 0x100
  | .nan false => 0x200
  | .fin true m _ => if m = 0 then 8 else if sub m then 4 else 2
  | .fin false m _ => if m = 0 then 0x10 else if sub m then 0x20 else 0x40

/-- fcmp (07 R162): the predicate and its flags. -/
def fcmpEval (k : FCond) (a b : W32) : Bool × BitVec 5 :=
  let x := fv a
  let y := fv b
  let sig := nvIf (isSig x || isSig y)
  let anyNan := isNan x || isNan y
  let o := fcompare x y
  match k with
  | .eq => (!anyNan && o == .eq, sig)
  | .ne => (anyNan || o != .eq, sig)
  | .lt => (!anyNan && o == .lt, nvIf anyNan)
  | .le => (!anyNan && o != .gt, nvIf anyNan)
  | .gt => (!anyNan && o == .gt, nvIf anyNan)
  | .ge => (!anyNan && o != .lt, nvIf anyNan)
  | .un => (anyNan, sig)
  | .ord => (!anyNan, sig)

/-- fsel's test of C (07 R162). -/
def fselTest (c : W32) : Bool :=
  match fv c with
  | .nan _ => false
  | .inf n => !n
  | .fin n m _ => !n || m == 0

/-! ## binary32 arithmetic (07 R161, R163) -/

/-- The floating environment of one word and thread: the mode in effect, SAT of the hint, FTZ. -/
structure FEnv where
  rm : RMode := .rne
  sat : Bool := false
  ftz : Bool := false
deriving DecidableEq, Repr

/-- A value rounded with RoundIEEE, the invalid flag added. -/
def finish (f : IFmt) (env : FEnv) (r : FVal × Bool) : Nat × BitVec 5 :=
  let (c, fl) := roundIEEE f env.rm env.sat env.ftz r.1
  (c, fl ||| nvIf r.2)

/-- Sum in a format. -/
def addIn (f : IFmt) (env : FEnv) (a b : Nat) : Nat × BitVec 5 := finish f env (addExact env.rm (ieeeVal f a) (ieeeVal f b))

/-- Difference in a format; a NaN operand keeps its sign of signalling. -/
def subIn (f : IFmt) (env : FEnv) (a b : Nat) : Nat × BitVec 5 :=
  finish f env (addExact env.rm (ieeeVal f a) (fneg (ieeeVal f b)))

/-- Product in a format. -/
def mulIn (f : IFmt) (env : FEnv) (a b : Nat) : Nat × BitVec 5 := finish f env (mulExact (ieeeVal f a) (ieeeVal f b))

/-- Product and sum with one rounding. -/
def fmaIn (f : IFmt) (env : FEnv) (a b c : Nat) : Nat × BitVec 5 :=
  finish f env (fmaExact env.rm (ieeeVal f a) (ieeeVal f b) (ieeeVal f c))

/-- A packed pair computed element by element, the flags of both set together (07 R163). -/
def packed2 (op : Nat → Nat → Nat → Nat × BitVec 5) (a b c : W32) : W32 × BitVec 5 :=
  let lo (x : W32) := x.toNat % 65536
  let hi (x : W32) := x.toNat / 65536
  let (r0, f0) := op (lo a) (lo b) (lo c)
  let (r1, f1) := op (hi a) (hi b) (hi c)
  (BitVec.ofNat 32 (r1 * 65536 + r0), f0 ||| f1)

/-! ## Special functions (03 R73)

Each is computed exactly or to far more bits than any rounding of binary32 can need, with the last bit standing for a
nonzero remainder, and rounded once (log 7). -/

/-- The integer square root by bits, from 2^i down. -/
def isqrtBits : Nat → Nat → Nat → Nat
  | 0, _, r => r
  | i + 1, n, r => isqrtBits i n (if (r + 2 ^ i) * (r + 2 ^ i) ≤ n then r + 2 ^ i else r)

/-- Fraction bits of the fixed-point evaluations. -/
def fxBits : Nat := 480

/-- Pi times 2^512, rounded down. -/
def piScaled : Nat :=
  0x3243f6a8885a308d313198a2e03707344a4093822299f31d0082efa98ec4e6c89452821e638d01377be5466cf34e90c6cc0ac29b7c97c50dd3f84d5b5b5470917

/-- The natural logarithm of 2 times 2^512, rounded down. -/
def ln2Scaled : Nat :=
  0xb17217f7d1cf79abc9e3b39803f2f6af40f343267298b62d8a0d175b8baafa2be7b876206debac98559552fb4afa1b10ed2eae35c138214427573b291169b825

/-- Terms of the exponential series of x / 2^fxBits: the sum from term k on. -/
def expSeries : Nat → Nat → Nat → Nat → Nat
  | 0, _, _, acc => acc
  | n + 1, x, k, term =>
    -- term is x^(k-1)/(k-1)!, added to what follows
    term + (if term = 0 then 0 else expSeries n x (k + 1) (term * x / 2 ^ fxBits / k))

/-- e^(x / 2^fxBits) for x below 2^fxBits, scaled by 2^fxBits. -/
def expFx (x : Nat) : Nat := expSeries 120 x 1 (2 ^ fxBits)

/-- Alternating series of sine and cosine: signed sum from a term on, steps of two. -/
def trigSeries : Nat → Nat → Nat → Nat → Bool → Int
  | 0, _, _, _, _ => 0
  | n + 1, x2, k, term, neg =>
    if term = 0 then 0
    else signedM neg term + trigSeries n x2 (k + 2) (term * x2 / 2 ^ fxBits / (k * (k + 1))) (!neg)

/-- sin(x / 2^fxBits) scaled by 2^fxBits, for 0 ≤ x. -/
def sinFx (x : Nat) : Int := trigSeries 80 (x * x / 2 ^ fxBits) 2 x false

/-- cos(x / 2^fxBits) scaled by 2^fxBits. -/
def cosFx (x : Nat) : Int := trigSeries 80 (x * x / 2 ^ fxBits) 1 (2 ^ fxBits) false

/-- Squaring steps of the binary logarithm: y is in [1, 2) scaled by 2^fxBits; one result bit for each step. -/
def log2Bits : Nat → Nat → Nat → Nat
  | 0, _, acc => acc
  | n + 1, y, acc =>
    let y2 := y * y / 2 ^ fxBits
    if 2 ^ (fxBits + 1) ≤ y2 then log2Bits n (y2 / 2) (2 * acc + 1) else log2Bits n y2 (2 * acc)

/-- A value known to lie strictly between neighbours n and n + 1 of 2^e, as an exact value with a sticky last bit. -/
def sticky (neg : Bool) (n : Nat) (e : Int) : FVal := .fin neg (2 * n + 1) (e - 1)

/-- The quotient of magnitudes with 80 bits and a sticky bit. -/
def divExact (neg : Bool) (m1 : Nat) (e1 : Int) (m2 : Nat) (e2 : Int) : FVal :=
  let sh := 80 + bitLen m2
  let n := m1 * 2 ^ sh / m2
  let rem := m1 * 2 ^ sh % m2
  if rem = 0 then .fin neg n (e1 - e2 - sh) else sticky neg n (e1 - e2 - sh)

/-- The square root of m * 2^e with a sticky bit. -/
def sqrtExact (m : Nat) (e : Int) : FVal :=
  let sh : Nat := if e % 2 = 0 then 160 else 161
  let n := m * 2 ^ sh
  let r := isqrtBits (bitLen n / 2 + 1) n 0
  let e' := (e - sh) / 2
  if r * r = n then .fin false r e' else sticky false r e'

/-- A rounding to binary32 to nearest-even, flushed under FTZ (03 R67, R73). -/
def spRound (ftz : Bool) (v : FVal) : Nat × BitVec 5 := roundIEEE f32 .rne false ftz v

/-- The canonical NaN with a flag set. -/
def spNan (fl : BitVec 5) : Nat × BitVec 5 := (f32.nanCode, fl)

/-- rcp (03 R73). -/
def spRcp (ftz : Bool) : FVal → Nat × BitVec 5
  | .nan s => spNan (nvIf s)
  | .inf n => spRound ftz (.fin n 0 0)
  | .fin n m e => if m = 0 then (f32.infCode n, flagDZ) else spRound ftz (divExact n 1 0 m e)

/-- sqrt in a mode (03 R73). -/
def spSqrt (rm : RMode) (ftz : Bool) : FVal → Nat × BitVec 5
  | .nan s => spNan (nvIf s)
  | .inf n => if n then spNan flagNV else (f32.infCode false, 0)
  | .fin n m e =>
    if m = 0 then roundIEEE f32 rm false ftz (.fin n 0 0)
    else if n then spNan flagNV else roundIEEE f32 rm false ftz (sqrtExact m e)

/-- rsq (03 R73). -/
def spRsq (ftz : Bool) : FVal → Nat × BitVec 5
  | .nan s => spNan (nvIf s)
  | .inf n => if n then spNan flagNV else (0, 0)
  | .fin n m e =>
    if m = 0 then (f32.infCode n, flagDZ)
    else if n then spNan flagNV
    else
      -- 1 / sqrt(m 2^e) = sqrt(2^(2k) / m) 2^(-k - e/2), the quotient kept with a sticky bit
      let sh : Nat := (if e % 2 = 0 then 200 else 201) + bitLen m
      let sh := if (sh + e) % 2 = 0 then sh else sh + 1
      let q := 2 ^ sh / m
      let r := isqrtBits (bitLen q / 2 + 1) q 0
      let e' : Int := -((sh : Int) + e) / 2
      if r * r = q ∧ 2 ^ sh % m = 0 then spRound ftz (.fin false r e') else spRound ftz (sticky false r e')

/-- exp2 (03 R73). -/
def spExp2 (ftz : Bool) : FVal → Nat × BitVec 5
  | .nan s => spNan (nvIf s)
  | .inf n => if n then (0, 0) else (f32.infCode false, 0)
  | .fin n m e =>
    if m = 0 then (0x3F800000, 0)
    else if 9 ≤ e + bitLen m then
      -- |x| is 256 or more: beyond every finite or nonzero result
      if n then spRound ftz (sticky false 0 (-200)) else spRound ftz (.fin false 1 300)
    else
      -- x as a fixed-point number of 200 fraction bits, exact for every binary32 value (its last place is 2^-149 or above)
      let X := signedM n (m * 2 ^ (e + 200).toNat)
      let k := X / 2 ^ 200
      let f := (X - k * 2 ^ 200).toNat
      if f = 0 then spRound ftz (.fin false 1 k)
      else
        let y := expFx (f * 2 ^ (fxBits - 200) * ln2Scaled / 2 ^ 512)
        spRound ftz (sticky false y (k - fxBits))

/-- log2 (03 R73). -/
def spLog2 (ftz : Bool) : FVal → Nat × BitVec 5
  | .nan s => spNan (nvIf s)
  | .inf n => if n then spNan flagNV else (f32.infCode false, 0)
  | .fin n m e =>
    if m = 0 then (f32.infCode true, flagDZ)
    else if n then spNan flagNV
    else
      let len := bitLen m
      let k : Int := e + len - 1
      if m = 2 ^ (len - 1) then spRound ftz (ofSigned k 0 false)
      else
        let y := m * 2 ^ (fxBits + 1 - len)
        let frac := log2Bits 160 y 0
        -- k + frac / 2^160, frac short of the true value by less than one place
        let z := k * 2 ^ 160 + frac
        if 0 ≤ z then spRound ftz (sticky false z.natAbs (-160))
        else spRound ftz (sticky true (z.natAbs - 1) (-160))

/-- The quadrant and the remainder of |x| modulo pi/2, the remainder scaled by 2^fxBits. -/
def reduceHalfPi (m : Nat) (e : Int) : Nat × Nat :=
  -- |x| and pi/2, both scaled by 2^511
  let X := if 0 ≤ e + 511 then m * 2 ^ (e + 511).toNat else m / 2 ^ (-(e + 511)).toNat
  let H := piScaled / 4
  let k := X / H
  (k % 4, (X % H) / 2 ^ (511 - fxBits))

/-- The value of sine (or cosine) of a nonzero finite x (03 R73). -/
def trigVal (wantCos neg : Bool) (m : Nat) (e : Int) : FVal :=
  let (q0, r) := reduceHalfPi m e
  let q := if wantCos then (q0 + 1) % 4 else q0
  let v := if q % 2 = 0 then sinFx r else cosFx r
  let flip := decide (2 ≤ q)
  let neg' := (if wantCos then flip else (neg != flip)) != decide (v < 0)
  sticky neg' v.natAbs (-(fxBits : Int))

/-- A result that is the input itself, inexact: for |x| below 2^-12 (03 R73). -/
def spSame (ftz n : Bool) (m : Nat) (e : Int) : Nat × BitVec 5 :=
  let (c, fl) := roundIEEE f32 .rne false ftz (.fin n m e)
  let sub := decide (e + bitLen m < f32.minE + 24)
  (c, fl ||| flagNX ||| (if sub then flagUF else 0))

/-- sin (03 R73). -/
def spSin (ftz : Bool) : FVal → Nat × BitVec 5
  | .nan s => spNan (nvIf s)
  | .inf _ => spNan flagNV
  | .fin n m e =>
    if m = 0 then (ieeeRound f32 .rne (.fin n 0 0))
    else if e + bitLen m ≤ -12 then spSame ftz n m e
    else spRound ftz (trigVal false n m e)

/-- cos (03 R73). -/
def spCos (ftz : Bool) : FVal → Nat × BitVec 5
  | .nan s => spNan (nvIf s)
  | .inf _ => spNan flagNV
  | .fin n m e =>
    if m = 0 then (0x3F800000, 0)
    else if e + bitLen m ≤ -20 then (0x3F800000, flagNX)
    else spRound ftz (trigVal true n m e)

/-- Repeated squaring of a fixed-point number. -/
def squareFx : Nat → Nat → Nat
  | 0, y => y
  | n + 1, y => squareFx n (y * y / 2 ^ fxBits)

/-- tanh (03 R73). -/
def spTanh (ftz : Bool) : FVal → Nat × BitVec 5
  | .nan s => spNan (nvIf s)
  | .inf n => (if n then 0xBF800000 else 0x3F800000, 0)
  | .fin n m e =>
    if m = 0 then (ieeeRound f32 .rne (.fin n 0 0))
    else if e + bitLen m ≤ -12 then spSame ftz n m e
    else if fcompare (.fin false m e) (.fin false 10 0) != .lt then (if n then 0xBF800000 else 0x3F800000, flagNX)
    else
      -- E = e^(2|x|) by the series of 2|x| / 32 and five squarings; tanh = (E - 1) / (E + 1)
      let x2 := if 0 ≤ e + 1 + fxBits then m * 2 ^ (e + 1 + fxBits).toNat else 0
      let E := squareFx 5 (expFx (x2 / 32))
      let one := 2 ^ fxBits
      spRound ftz (sticky n ((E - one) * one / (E + one)) (-(fxBits : Int)))

/-! ## Dot products (03 R69-R71) -/

/-- An element times its block scale, exactly (03 R70). -/
def scaled (x s : FVal) : FVal :=
  match x, s with
  | .nan _, _ => .nan false
  | _, .nan _ => .nan false
  | .inf n, .fin _ m _ => if m = 0 then .nan false else .inf n
  | .fin n m e, .fin _ m2 e2 => .fin n (m * m2) (e + e2)
  | _, .inf _ => .nan false

/-- The exact sum of a block's products; an exact zero sum is -0 only when every product is -0 (03 R70). -/
def exactBlockSum : List FVal → FVal
  | [] => .fin false 0 0
  | [p] => p
  | p :: ps =>
    match addExact .rne p (exactBlockSum ps) with
    | (v, _) => v

/-- AddRoundBinary32 (03 R70). -/
def addRound32 (c : W32) (s : FVal) : W32 :=
  BitVec.ofNat 32 (ieeeRound f32 .rne (addExact .rne (fv c) s).1).1

end Sys2Proof.Machine
end

