-- ==== Sys2Proof/Machine/Ops.lean ====
section
/-! DEFINITION. The named operations over the state: access to its parts, memory views and phase steps (05), resolution
and translation of addresses (04, 17), barriers and futures (08, 09), and taking a trap and returning from one (14 R308,
R309), each written once. -/

set_option linter.unusedVariables false

namespace Sys2Proof.Machine

/-- What a step answers: always a next state, for every trap of the CX2 is one. -/
abbrev Out := Host.Outcome State Fault Refusal

/-! ## Parts of the state -/

/-- A core. -/
def coreAt (s : State) (c : Nat) : Core := tget {} s.cores c
/-- A core changed. -/
def modCore (s : State) (c : Nat) (f : Core → Core) : State := { s with cores := tset s.cores c (f (coreAt s c)) }
/-- A cluster. -/
def clusterAt (s : State) (c : Nat) : Cluster := tget {} s.clusters c
/-- A cluster changed. -/
def modCluster (s : State) (c : Nat) (f : Cluster → Cluster) : State :=
  { s with clusters := tset s.clusters c (f (clusterAt s c)) }
/-- The cycle count of a cluster. -/
def clusterCyc (s : State) (cluster : Nat) : Nat := (clusterAt s cluster).cyc.toNat

/-- A stack pair. -/
def pairAt (s : State) (p : Nat) : Pair := tget {} s.stackPairs p
/-- A stack pair changed. -/
def modPair (s : State) (p : Nat) (f : Pair → Pair) : State := { s with stackPairs := tset s.stackPairs p (f (pairAt s p)) }
/-- Whether the operating point of some pair is to change (16 R358). -/
def pointChanges (s : State) : Bool := s.stackPairs.any (fun p => p.2.pending.isSome)
/-- A team by its internal number. -/
def teamAt (s : State) (t : Nat) : Team := tget {} s.teams t
/-- A team changed. -/
def modTeam (s : State) (t : Nat) (f : Team → Team) : State := { s with teams := tset s.teams t (f (teamAt s t)) }
/-- A gang. -/
def gangAt (s : State) (g : Nat) : Gang := tget {} s.gangs g
/-- A gang changed. -/
def modGang (s : State) (g : Nat) (f : Gang → Gang) : State := { s with gangs := tset s.gangs g (f (gangAt s g)) }
/-- A grid, graph or wagon task. -/
def gridAt (s : State) (g : Nat) : Grid := tget {} s.grids g
/-- A grid changed. -/
def modGrid (s : State) (g : Nat) (f : Grid → Grid) : State := { s with grids := tset s.grids g (f (gridAt s g)) }
/-- A context. -/
def ctxAt (s : State) (c : Nat) : Context := tget {} s.contexts c
/-- A context changed. -/
def modCtx (s : State) (c : Nat) (f : Context → Context) : State := { s with contexts := tset s.contexts c (f (ctxAt s c)) }
/-- A queue. -/
def queueAt (s : State) (q : Nat) : Queue := tget {} s.queues q
/-- A queue changed. -/
def modQueue (s : State) (q : Nat) (f : Queue → Queue) : State := { s with queues := tset s.queues q (f (queueAt s q)) }
/-- A wagon queue. -/
def wagonAt (s : State) (q : Nat) : WagonQueue := tget {} s.wagons q
/-- A wagon queue changed. -/
def modWagon (s : State) (q : Nat) (f : WagonQueue → WagonQueue) : State :=
  { s with wagons := tset s.wagons q (f (wagonAt s q)) }
/-- A depot pool. -/
def poolAt (s : State) (p : Nat) : Pool := tget {} s.pools p
/-- A depot pool changed. -/
def modPool (s : State) (p : Nat) (f : Pool → Pool) : State := { s with pools := tset s.pools p (f (poolAt s p)) }

/-- Whether a unit is its team's conductor. -/
def isCond (u : UnitId) : Bool := u.idx == 32

/-- A group or conductor. -/
def unitAt (s : State) (u : UnitId) : Grp := tget {} (teamAt s u.team).units u.idx
/-- A group or conductor replaced. -/
def setUnit (s : State) (u : UnitId) (g : Grp) : State :=
  modTeam s u.team (fun t => { t with units := tset t.units u.idx g })
/-- A group or conductor changed. -/
def modUnit (s : State) (u : UnitId) (f : Grp → Grp) : State := setUnit s u (f (unitAt s u))

/-- A thread of a unit; a lane nothing lists is exited (01 R10). -/
def thrAt (g : Grp) (l : Nat) : Thread := tget {} g.threads l
/-- A unit with one thread changed. -/
def modThr (g : Grp) (l : Nat) (f : Thread → Thread) : Grp := { g with threads := tset g.threads l (f (thrAt g l)) }
/-- Several threads changed alike. -/
def modThrs (g : Grp) (ls : List Nat) (f : Nat → Thread → Thread) : Grp := ls.foldl (fun g l => modThr g l (f l)) g

/-- The live lanes of a unit, ascending. -/
def liveLanes (g : Grp) : List Nat := (g.threads.filter (fun e => e.2.live)).map (·.1)

/-- The groups of a team in order. -/
def groupIds (t : Team) : List UnitId := (t.units.filter (fun e => decide (e.1 < 32))).map (fun e => ⟨t.uid, e.1⟩)
/-- The groups and the conductor of a team. -/
def unitIds (t : Team) : List UnitId := t.units.map (fun e => ⟨t.uid, e.1⟩)
/-- Every unit of the device. -/
def allUnits (s : State) : List UnitId := s.teams.flatMap (fun e => unitIds e.2)

/-- The cluster of a core (00 R1). -/
def clusterOf (core : Nat) : Nat := core / Config.coresPerCluster
/-- The stack pair of a cluster (00 R1). -/
def pairOf (cluster : Nat) : Nat := cluster / 2

/-- The core of a unit. -/
def coreOf (s : State) (u : UnitId) : Nat := (teamAt s u.team).core

/-- A group's core group number, its slot (15 R412); conductors come after the groups. -/
def coreNumber (s : State) (u : UnitId) : Nat := if isCond u then 32 + (teamAt s u.team).conductorSlot else (unitAt s u).slot

/-- SECT of a team written by a group: of the writes of one cycle the highest group's stands (07 R175). -/
def writeSect (s : State) (u : UnitId) (code : Nat) : State :=
  let now := clusterCyc s (clusterOf (coreOf s u))
  modTeam s u.team (fun t =>
    match t.sectBy with
    | some (c, g) => if c = now ∧ u.idx < g then t else { t with sect := code, sectBy := some (now, u.idx) }
    | none => { t with sect := code, sectBy := some (now, u.idx) })

/-- Whether a team stands on a core. -/
def standsOn (t : Team) (c : Nat) : Bool := t.phase != .saved && (t.core == c || t.shadowCore == some c)

/-- Whether a core still holds a team. -/
def coreInUse (s : State) (c : Nat) : Bool := s.teams.any (fun t => standsOn t.2 c)

/-- A core without teams leaves unified mode (04 R94). -/
def clearMode (s : State) (c : Nat) : State :=
  if coreInUse s c || (coreAt s c).l1.isNone then s else modCore s c (fun k => { k with l1 := none, interval := 0 })

/-- The cores of a team without teams left leave unified mode. -/
def clearModes (s : State) (t : Team) : State :=
  match t.shadowCore with
  | some d => clearMode (clearMode s t.core) d
  | none => clearMode s t.core

/-- Whether an operation of an engine task node was taken in this front-end cycle: it starts in a later one (15 R339, R343). -/
def nodeFresh (s : State) : JobOwner → Bool
  | .node g i => (tget {} (tget {} s.grids g).nodes i).startFe == some s.fe
  | _ => false

/-- A fresh internal number. -/
def fresh (s : State) : Nat × State := (s.nextUid, { s with nextUid := s.nextUid + 1 })

/-- The grid of a unit. -/
def gridOf (s : State) (u : UnitId) : Grid := gridAt s (teamAt s u.team).grid
/-- Whether a unit's cancellation domain is set (01 R35). -/
def domainSet (s : State) (u : UnitId) : Bool := (gridOf s u).domain
/-- Members of a unit's gang; a team in no gang is its own (04 R81). -/
def gangMembers (s : State) (t : Team) : List Nat :=
  match t.gang with
  | some g => (gangAt s g).members
  | none => [t.uid]

/-- The grace budget of a context (14 R304). -/
def graceOf (c : Context) : Nat := if c.record.grace = 0 then 16384 else c.record.grace
/-- The starvation bound of a context (14 R304, 01 R33). -/
def starvOf (c : Context) : Nat := if c.record.starv = 0 then 4096 else c.record.starv
/-- The wait budget of a team (01 R34). -/
def waitBudgetOf (s : State) (t : Team) : Nat :=
  if t.kernel.waitBudget ≠ 0 then t.kernel.waitBudget
  else
    let d := (ctxAt s t.ctx).record.waitdef
    if d = 0 then 2 ^ 24 else d

/-! ## Conditions (07 R155) -/

/-- Compare(a, b, cond) on words of any width. -/
def condEval {n : Nat} (k : Cond) (a b : BitVec n) : Bool :=
  match k with
  | .eq => a == b
  | .ne => a != b
  | .ltI => decide (a.toInt < b.toInt)
  | .leI => decide (a.toInt ≤ b.toInt)
  | .gtI => decide (b.toInt < a.toInt)
  | .geI => decide (b.toInt ≤ a.toInt)
  | .ltN => decide (a.toNat < b.toNat)
  | .leN => decide (a.toNat ≤ b.toNat)
  | .gtN => decide (b.toNat < a.toNat)
  | .geN => decide (b.toNat ≤ a.toNat)

/-! ## Home values, views and phase steps (05 R102-R107) -/

/-- The line of a physical address (04 R84). -/
def lineOf (a : Nat) : Nat := a / 64

/-- The home slice of a physical address (04 R89). -/
def homeSlice (a : Nat) : Nat :=
  (((a / 2 ^ 6 % 65536) ^^^ (a / 2 ^ 22 % 65536)) ^^^ (a / 2 ^ 38 % 1024)) % 192

/-- Writes of single bytes, the later standing. -/
abbrev Writes := List (Nat × Byte)

/-- The writes of consecutive bytes. -/
def writesOf (a : Nat) : List Byte → Writes
  | [] => []
  | b :: bs => (a, b) :: writesOf (a + 1) bs

/-- A memory with writes made in order. -/
def memApply (m : Mem) (ws : Writes) : Mem := ws.foldl (fun m w => memWrite m w.1 w.2) m

/-- A location's latest bytes: the home values, the scratchpad's, the thread's own (08 R200). -/
def locBytes (s : State) (loc : Loc) (n : Nat) : List Byte :=
  match loc with
  | .phys a => memReadN s.mem a n
  | .spad t o => memReadN (teamAt s t).scratch o n
  | .priv u l o => memReadN (thrAt (tget {} (teamAt s (u / 64)).units (u % 64)) l).priv o n

/-- The number that names a unit inside a private location. -/
def unitKey (u : UnitId) : Nat := u.team * 64 + u.idx

/-- The line key of a location. -/
def keyOf : Loc → LineKey
  | .phys a => .phys (lineOf a)
  | .spad t o => .spad t (o / 64)
  | .priv u l o => .priv (u / 64) (u % 64) l (o / 64)

/-- Whether some engine operation owns a line. -/
def ownedLine (s : State) (k : LineKey) : Bool := s.owned.any (fun e => decide (e.2 = k))

/-- Whether some engine operation owns the line of a place, which a context reached by a virtual address; a line whose page was not
present when it was taken is known by that address (05 R115). -/
def ownedAt (s : State) (ctx : Nat) (loc : Loc) (va : Nat) : Bool :=
  ownedLine s (keyOf loc) ||
  (match loc with
   | .phys _ => ownedLine s (.virt ctx (va / 64))
   | _ => false)

/-- Whether a place lies in the scratchpad of a team that has gone: nothing reads it any more (15 R361). -/
def placeGone (s : State) : Loc → Bool
  | .spad t _ => !thas s.teams t
  | _ => false

/-- Every blocked waitf and every waiting WAIT command tests its word (08 R207, 15 R328): the first satisfying value
is kept for the run's release. -/
def testRun (s : State) (ctx : Nat) (b : BlockedRun) : BlockedRun :=
  match b.wait with
  | .waitf loc va value k _ _ =>
    if b.ended || b.hit.isSome || b.lost.isSome || ownedAt s ctx loc va || placeGone s loc then b
    else
      let v := bytesToW32 (locBytes s loc 4)
      { b with last := v, unread := false, hit := if condEval k v value then some v else none }
  | _ => b

/-- The tests of every waiting run. -/
def testWaits (s : State) : State :=
  { s with
    teams := tmap (fun _ t => { t with units := tmap (fun _ g => { g with blocked := g.blocked.map (testRun s t.ctx) }) t.units }) s.teams
    queues := tmap (fun _ q =>
      match q.waiting with
      | none => q
      | some w =>
        let v := bytesToW32 (memReadN s.mem w.pa 4)
        let owned := ownedAt s q.ctx (.phys w.pa) w.va
        { q with waiting := some { w with hit := w.hit || (w.lost.isNone && !owned && condEval w.k v w.value) } }) s.queues }

/-- The state of a queue after the front end reads its write index; a head taken before and not yet accepted is still pending (15 R322,
R324). -/
def queueSees (prio : Nat) (q : Queue) (w : W32) : Queue :=
  let n := (w - q.rd).toNat
  if q.phase = .error then q
  else if 2 ^ q.logn < n then { q with w := w, phase := .error }
  else if q.phase = .held then { q with w := w }
  else if n = 0 ∧ q.head.isNone then { q with w := w, phase := .idle }
  else if q.phase = .idle then { q with w := w, phase := .ready, level := prio, aged := 0 }
  else { q with w := w }

/-- A fault-log entry of a queue that entered ERROR (15 R322; the entry's contents are log 11). -/
def queueErrorLog (s : State) (before after : Queue) : State :=
  if before.phase ≠ .error ∧ after.phase = .error then
    modCtx s after.ctx (fun c => { c with faultLog := c.faultLog ++ [{ cause := .engineError, ctx := after.ctx }] })
  else s

/-- Queues whose watched line was written read their write index (15 R324); an uncorrectable line puts them into ERROR (15 R410). -/
def wakeQueues (s : State) (lines : List Nat) : State :=
  s.queues.foldl (fun s e =>
    match e.2.watchLine with
    | none => s
    | some l =>
      if e.2.en && hasNat lines l then
        let q := e.2
        let w := bytesToW32 (memReadN s.mem (l * 64 + q.widx % 64) 4)
        let q' := if hasNat s.badLines l then { q with phase := .error, head := none }
          else queueSees (ctxAt s q.ctx).record.prio q w
        queueErrorLog { s with queues := tset s.queues e.1 q' } q q'
      else s) s

/-- Writes that reach their home slices: the home values change, a full-line write clears its poison mark (17 R371), and
watched words are tested (05 R109, 08 R207). -/
def homeWrite (s : State) (ws : Writes) : State :=
  if ws = [] then s
  else
    let lines := dedupNat (ws.map (fun w => lineOf w.1))
    let s1 := { s with
      mem := memApply s.mem ws
      badLines := s.badLines.filter (fun l => !(hasNat lines l && decide (64 ≤ ((ws.filter (fun w => lineOf w.1 == l)).map (·.1)).length))) }
    testWaits (wakeQueues s1 lines)

/-- View(C, b) of 05 R102. -/
def viewByte (s : State) (c : Nat) (a : Nat) : Byte :=
  let k := coreAt s c
  match tget? k.unpub a with
  | some v => v
  | none =>
    match tget? k.own a with
    | some v => v
    | none => if hasNat k.eng a then memRead s.mem a else memRead k.cut a

/-- Consecutive bytes of a core's view. -/
def viewBytes (s : State) (c : Nat) (a : Nat) : Nat → List Byte
  | 0 => []
  | n + 1 => viewByte s c a :: viewBytes s c (a + 1) n

/-- A store of the core drains: its bytes are unpublished writes of the core (05 R99, R102). -/
def drainGlobal (s : State) (c : Nat) (ws : Writes) : State :=
  modCore s c (fun k =>
    { k with
      unpub := ws.foldl (fun m w => tset m w.1 w.2) k.unpub
      eng := k.eng.filter (fun a => !(ws.any (fun w => w.1 == a))) })

/-- A publish of chosen unpublished bytes of a core: they reach their homes and stay the core's own latest writes. -/
def publish (s : State) (c : Nat) (sel : Nat → Bool) : State :=
  let k := coreAt s c
  let ws := k.unpub.filter (fun e => sel e.1)
  let s1 := modCore s c (fun k =>
    { k with
      unpub := k.unpub.filter (fun e => !sel e.1)
      own := ws.foldl (fun m w => tset m w.1 w.2) k.own })
  homeWrite s1 ws

/-- A release step of a core: every drained unpublished byte is published (05 R103). -/
def releaseStep (s : State) (c : Nat) : State := publish s c (fun _ => true)

/-- An acquire step of a core: a new cut, every unpublished byte kept (05 R104). -/
def acquireStep (s : State) (c : Nat) : State :=
  modCore s c (fun k => { k with cut := s.mem, own := [], eng := [], sinceAcquire := 0 })

/-- A release step, then an acquire step (05 R105). -/
def arStep (s : State) (c : Nat) : State := acquireStep (releaseStep s c) c

/-- A core's unpublished bytes of a location are published: an atomic, and a waitf, reads the latest value (05 R108, 08 R207). -/
def publishLoc (s : State) (c : Nat) (loc : Loc) (n : Nat) : State :=
  match loc with
  | .phys a => publish s c (fun x => decide (a ≤ x) && decide (x < a + n))
  | _ => s

/-- Writes of an engine operation at their homes; each core sees an engine's write through e of 05 R102. -/
def engineWrite (s : State) (ws : Writes) : State :=
  let as := ws.map (·.1)
  let s1 := { s with
    cores := tmap (fun _ k =>
      { k with
        own := k.own.filter (fun e => !hasNat as e.1)
        eng := dedupNat (as ++ k.eng) }) s.cores }
  homeWrite s1 ws

/-- The atomic write of a core at a location's home: its unpublished bytes there are published first (05 R108). -/
def atomicWrite (s : State) (c : Nat) (a : Nat) (bs : List Byte) : State :=
  let s1 := publish s c (fun x => decide (a ≤ x) && decide (x < a + bs.length))
  let ws := writesOf a bs
  let s2 := modCore s1 c (fun k =>
    { k with
      own := ws.foldl (fun m w => tset m w.1 w.2) k.own
      eng := k.eng.filter (fun x => !(ws.any (fun w => w.1 == x))) })
  homeWrite s2 ws

/-! ## Ownership of lines (05 R115-R117) -/

/-- Whether an owned line is that of a place, which a context reaches by a virtual address. -/
def keyMeets (ctx : Nat) (loc : Loc) (va : Nat) (k : LineKey) : Bool :=
  decide (k = keyOf loc) ||
  (match loc with
   | .phys _ => decide (k = .virt ctx (va / 64))
   | _ => false)

/-- Whether an operation may write a place: nothing owns its line, or the operation is its first owner; those behind it take the line
once it has left (05 R117). -/
def mayWrite (s : State) (op ctx : Nat) (loc : Loc) (va : Nat) : Bool :=
  match s.owned.find? (fun e => keyMeets ctx loc va e.2) with
  | some e => e.1 == op
  | none => true

/-- Whether another operation than one of a number owns the line of a place: its source waits for that one's write (05 R114). -/
def ownedByOther (s : State) (op ctx : Nat) (loc : Loc) (va : Nat) : Bool := !mayWrite s op ctx loc va

/-- The recall of a physical line: each core's unpublished bytes of it are published, and it leaves every core's cut (05 R115). A byte
of it that neither an engine nor the core itself writes then reads as its home value, where 05 R102 and R115 leave that open (log 46). -/
def recallLine (s : State) (l : Nat) : State :=
  let s1 := s.cores.foldl (fun s e => publish s e.1 (fun a => lineOf a == l)) s
  { s1 with cores := tmap (fun _ c => { c with eng := dedupNat ((List.range 64).map (fun i => l * 64 + i) ++ c.eng) }) s1.cores }

/-- Ownership of a line is taken at issue, with its recall (05 R115). -/
def takeLine (op : Nat) (s : State) (k : LineKey) : State :=
  let s1 := { s with owned := s.owned ++ [(op, k)] }
  match k with
  | .phys l => recallLine s1 l
  | _ => s1

/-- Ownership of several lines, each once. -/
def takeLines (op : Nat) (s : State) : List LineKey → State
  | [] => s
  | k :: ks => takeLines op (if s.owned.any (fun e => e.1 == op && decide (e.2 = k)) then s else takeLine op s k) ks

/-- Every line of an operation leaves ownership (05 R116). -/
def releaseLines (op : Nat) (s : State) : State := { s with owned := s.owned.filter (fun e => e.1 != op) }

/-- The line keys of a range of locations. -/
def keysOfRange (loc : Nat → Loc) (n : Nat) : List LineKey :=
  (List.range n).foldl (fun ks i => let k := keyOf (loc i); if ks.any (fun x => decide (x = k)) then ks else ks ++ [k]) []

/-! ## Resolution of addresses (04 R79-R81) -/

/-- A resolved place before translation. -/
inductive Place where
  | glob (va : Nat)
  | spad (team off : Nat)
  | priv (unit lane off : Nat)
deriving DecidableEq, Repr

/-- Causes a resolution can find, each with its subcode. -/
inductive Bad where
  | spadBounds
  | violation (sub : Nat)
  | gone
deriving DecidableEq, Repr

/-- Whether a team's scratchpad answers no more: its team has retired, or its core's cluster is gated (16 R361). -/
def spadGone (s : State) (t : Nat) : Bool :=
  !thas s.teams t || (teamAt s t).phase == .retired || (clusterAt s (clusterOf (teamAt s t).core)).gated

/-- A scratchpad offset of a team checked against its declaration. -/
def spadPlace (t : Team) (off size : Nat) : Except Bad Place :=
  if t.kernel.scratch < off + size then .error .spadBounds else .ok (.spad t.uid off)

/-- Resolve of 04 R81 for one thread, up to translation. -/
def resolve (s : State) (u : UnitId) (lane : Nat) (space : Space) (ea : W64) (size : Nat) : Except Bad Place :=
  let t := teamAt s u.team
  let a := ea.toNat
  let glob : Except Bad Place :=
    if 2 ^ 48 ≤ a ∨ 0xFF0000000000 ≤ a then .error (.violation 1) else .ok (.glob a)
  let priv (o : Nat) : Except Bad Place :=
    if t.privBytes + t.kernel.spill < o + size then .error (.violation 1) else .ok (.priv (unitKey u) lane o)
  let gang (o : Nat) : Except Bad Place :=
    let ms := gangMembers s t
    let m := o / 2 ^ 20 % 16
    if o / 2 ^ 24 ≠ 0 ∨ ms.length ≤ m then .error .spadBounds
    else if t.kernel.scratch < o % 2 ^ 20 + size then .error .spadBounds
    else
      let tid := ms.getD m 0
      if tid ≠ u.team ∧ spadGone s tid then .error .gone else .ok (.spad tid (o % 2 ^ 20))
  match space with
  | .glb => glob
  | .spad => spadPlace t a size
  | .priv => priv a
  | .gen =>
    if 2 ^ 48 ≤ a then .error (.violation 1)
    else if a < 0xFF0000000000 then glob
    else if a < 0xFF4000000000 then spadPlace t (a - 0xFF0000000000) size
    else if a < 0xFF8000000000 then gang (a - 0xFF4000000000)
    else priv (a - 0xFF8000000000)

/-! ## Translation (17 R362-R369) -/

/-- The result of a walk. -/
inductive Walk where
  | leaf (l : Leaf) (base : Nat) (pte : Nat)
  | fault (level : Nat) (h : Bool)
  | violation (sub : Nat)
deriving DecidableEq, Repr

/-- The index of a level in a virtual address (17 R362). -/
def levelIndex (va level : Nat) : Nat :=
  if level = 3 then va / 2 ^ 39 % 512
  else if level = 2 then va / 2 ^ 30 % 512
  else if level = 1 then va / 2 ^ 21 % 512
  else va / 2 ^ 16 % 32

/-- Bytes mapped by a leaf of a level (17 R362). -/
def levelSize (level : Nat) : Nat := if level = 2 then 2 ^ 30 else if level = 1 then 2 ^ 21 else 2 ^ 16

/-- Bytes that an entry of a level covers (17 R362). -/
def levelSpan (level : Nat) : Nat := if level = 3 then 2 ^ 39 else levelSize level

/-- Alignment of the table an entry of a level points to (17 R362). -/
def tableAlign (level : Nat) : Nat := if level = 1 then 256 else 4096

/-- Whether a physical range is installed, or lies in the peer aperture as a leaf (17 R363, 19 R400). -/
def installed (s : State) (a n : Nat) (leaf : Bool) : Bool :=
  decide (a + n ≤ s.memBytes) || (leaf && decide (Config.peerAperture ≤ a) && decide (a + n ≤ 2 ^ 48))

/-- Malformed(e, level) of 17 R363. -/
def malformed (s : State) (e level : Nat) : Bool :=
  let addr := bitsAt e 47 8 * 256
  let t := bitsAt e 1 1 == 1
  bitsAt e 63 48 != 0 || bitsAt e 7 7 != 0 || (!t && level == 3) || (t && level == 0) ||
  (t && (addr % tableAlign level != 0 || !installed s addr (tableAlign level) false)) ||
  (!t && (addr % levelSize level != 0 || !installed s addr (levelSize level) true))

/-- One entry of a walk (17 R364): a result, or the table of the next level. -/
def walkEntry (s : State) (va table level : Nat) : Walk ⊕ Nat :=
  let pte := table + 8 * levelIndex va level
  let e := memNat s.mem pte 8
  if bitsAt e 0 0 = 0 then .inl (.fault level (bitsAt e 6 6 == 1))
  else if malformed s e level then .inl (.violation 4)
  else if bitsAt e 1 1 = 1 then .inr (bitsAt e 47 8 * 256)
  else
    let size := levelSize level
    .inl (.leaf { pa := bitsAt e 47 8 * 256, size := size, w := bitsAt e 2 2 == 1, x := bitsAt e 3 3 == 1, d := bitsAt e 5 5 == 1 }
      (va / size * size) pte)

/-- The walk's descent from a level's table (17 R364). -/
def walkFrom (s : State) (va : Nat) : Nat → Nat → Walk
  | table, 0 =>
    match walkEntry s va table 0 with
    | .inl r => r
    | .inr _ => .violation 4
  | table, l + 1 =>
    match walkEntry s va table (l + 1) with
    | .inl r => r
    | .inr next => walkFrom s va next l

/-- Whether an access of a kind needs W. -/
def AccKind.writes : AccKind → Bool
  | .write => true
  | .atomic => true
  | _ => false

/-- Rights of a leaf for a kind of access: the violated subcode, if any (17 R364). -/
def rightsOf (l : Leaf) (kind : AccKind) : Option Nat :=
  if kind.writes && !l.w then some 2
  else if kind = .execute ∧ !l.x then some 3
  else none

/-! ### Agents and the walk cache (17 R365) -/

/-- The number under which a cluster's stencil engine translates. -/
def stencilAgent (cluster : Nat) : Nat := Config.cores + cluster

/-- The number under which a cluster's geometry, articulation and copy engines translate. -/
def engineAgent (cluster : Nat) : Nat := Config.cores + Config.clusters + cluster

/-- The cluster whose walkers serve a core, or a cluster's engine. -/
def walkerOf (agent : Nat) : Nat :=
  if agent < Config.cores then clusterOf agent else (agent - Config.cores) % Config.clusters

/-- The cached table below a context's entry of a level that covers an address. -/
def walkHit (ws : List WalkEntry) (ctx va level : Nat) : Option WalkEntry :=
  ws.find? (fun e => e.ctx == ctx && e.level == level && e.va == va / levelSpan level * levelSpan level)

/-- The table and the level a walk begins at: below the lowest cached entry, else at PTROOT. An agent without a cluster has no cache. -/
def walkStart (s : State) (agent : Option Nat) (ctx va : Nat) : Nat × Nat :=
  let root := ((ctxAt s ctx).record.ptroot, 3)
  match agent with
  | none => root
  | some c =>
    let ws := (clusterAt s (walkerOf c)).walks
    match walkHit ws ctx va 1, walkHit ws ctx va 2, walkHit ws ctx va 3 with
    | some e, _, _ => (e.table, 0)
    | none, some e, _ => (e.table, 1)
    | none, none, some e => (e.table, 2)
    | none, none, none => root

/-- The walk of an agent. -/
def walkAt (s : State) (agent : Option Nat) (ctx va : Nat) : Walk :=
  walkFrom s va (walkStart s agent ctx va).1 (walkStart s agent ctx va).2

/-- The table entries a walk passes from a level's table on. -/
def walkPath (s : State) (ctx va : Nat) : Nat → Nat → List WalkEntry
  | _, 0 => []
  | table, l + 1 =>
    match walkEntry s va table (l + 1) with
    | .inl _ => []
    | .inr next => ⟨ctx, l + 1, va / levelSpan (l + 1) * levelSpan (l + 1), next⟩ :: walkPath s ctx va next l

/-- The end of a walk under 17 R364: the rights, and A (and D) set at the leaf's home. -/
def markLeaf (s : State) (kind : AccKind) (w : Walk) : Walk × State :=
  match w with
  | .leaf l base pte =>
    match rightsOf l kind with
    | some n => (.violation n, s)
    | none =>
      let e := memNat s.mem pte 8
      let e' := (e ||| 0x10) ||| (if kind.writes then 0x20 else 0)
      let l' := { l with d := l.d || kind.writes }
      if e' = e then (.leaf l' base pte, s) else (.leaf l' base pte, homeWrite s (writesOf pte (natToBytes 8 e')))
  | r => (r, s)

/-- The result of a translation. -/
inductive Xlate where
  | ok (pa : Nat)
  | fault (level : Nat) (h : Bool)
  | violation (sub : Nat)
deriving DecidableEq, Repr

/-- A cached translation that covers an address (17 R365). -/
def tlbFind (tlb : List TlbEntry) (ctx va : Nat) : Option TlbEntry :=
  tlb.find? (fun e => e.ctx == ctx && decide (e.va ≤ va) && decide (va < e.va + e.leaf.size))

/-- The cached translation of a core: its own TLB's, then its cluster's; of a stencil engine: the walk-ahead TLB's; of
the other engines: their cluster's. -/
def tlbOf (s : State) (core : Option Nat) (ctx va : Nat) : Option TlbEntry :=
  match core with
  | none => none
  | some c =>
    if c < Config.cores then
      match tlbFind (coreAt s c).tlb ctx va with
      | some e => some e
      | none => tlbFind (clusterAt s (clusterOf c)).tlb ctx va
    else if c < Config.cores + Config.clusters then tlbFind (clusterAt s (walkerOf c)).ahead ctx va
    else tlbFind (clusterAt s (walkerOf c)).tlb ctx va

/-- One number for a layer of a context's slot. -/
def layerKey (ctx slot layer : Nat) : Nat := ctx * 16384 + slot * 1024 + layer

/-- Whether an address lies in a layer of a model bound in the context (04 R96). -/
def inLayer (s : State) (ctx va : Nat) : Bool :=
  (ctxAt s ctx).models.any (fun m => m.2.layers.any (fun l => decide (l.2.addr ≤ va) && decide (va < l.2.addr + l.2.bytes)))

/-- Whether an invalidation in progress covers an address of a context (17 R368). -/
def invalidating (s : State) (ctx va len : Nat) : Bool :=
  s.invalidations.any (fun i => i.ctx == ctx && decide (i.va < va + len) && decide (va < i.va + i.len))

/-- A cache of n translations with one more entry: older entries of its range give way, then the oldest. -/
def cacheEntry (n : Nat) (e : TlbEntry) (l : List TlbEntry) : List TlbEntry :=
  let l1 := l.filter (fun x => !(x.ctx == e.ctx && decide (x.va < e.va + e.leaf.size) && decide (e.va < x.va + x.leaf.size))) ++ [e]
  l1.drop (l1.length - n)

/-- A translation enters the caches of a core or an engine of a cluster (17 R365). -/
def fillAgent (cluster : Nat) (e : TlbEntry) (s : State) (agent : Nat) : State :=
  if agent < Config.cores then
    modCluster (modCore s agent (fun k => { k with tlb := cacheEntry 128 e k.tlb })) cluster (fun k => { k with tlb := cacheEntry 2048 e k.tlb })
  else if agent < Config.cores + Config.clusters then modCluster s cluster (fun k => { k with ahead := cacheEntry 256 e k.ahead })
  else modCluster s cluster (fun k => { k with tlb := cacheEntry 2048 e k.tlb })

/-- A walker's result enters the caches of the cores and engines it walked for, unless it was voided (17 R365, R369). -/
def endFill (s : State) (cluster : Nat) (f : PendingFill) : State :=
  let s1 := modCluster s cluster (fun k => { k with fills := k.fills.filter (fun x => x.id != f.id) })
  if f.voided then s1 else f.agents.foldl (fillAgent cluster f.entry) s1

/-- Whether a pending fill is of a context's page, and not voided: a miss on the page shares its walk (17 R365). -/
def sharesWalk (e : TlbEntry) (f : PendingFill) : Bool :=
  !f.voided && f.entry.ctx == e.ctx && f.entry.va == e.va && f.entry.leaf.size == e.leaf.size

/-- A walker's result waits in a pending-fill register, one for a page of a context in a cluster, which takes in every agent that misses on
the page meanwhile; with all eight walkers of the cluster waiting so, the oldest writes its result first (17 R365, R369). -/
def addFill (s : State) (c : Nat) (e : TlbEntry) : State :=
  let cl := walkerOf c
  if (clusterAt s cl).fills.any (sharesWalk e) then
    modCluster s cl (fun k =>
      { k with fills := k.fills.map (fun f => if sharesWalk e f then { f with entry := e, agents := dedupNat (f.agents ++ [c]) } else f) })
  else
    let s0 := if (clusterAt s cl).fills.length < Config.walkers then s else
      match (clusterAt s cl).fills with
      | f :: _ => endFill s cl f
      | [] => s
    let (id, s1) := fresh s0
    modCluster s1 cl (fun k =>
      { k with fills := k.fills ++ [{ id := id, agents := [c], entry := e, voided := invalidating s e.ctx e.va e.leaf.size }] })

/-- Table entries of a walk enter its cluster's walk cache, the newest 64 kept; none while an invalidation of them is in progress. -/
def addWalks (s : State) (c : Nat) (es : List WalkEntry) : State :=
  let new := es.filter (fun e => !s.invalidations.any (fun i =>
    i.ctx == e.ctx && decide (i.va < e.va + levelSpan e.level) && decide (e.va < i.va + i.len)))
  if new = [] then s
  else
    modCluster s (walkerOf c) (fun k =>
      let l := k.walks.filter (fun e => !new.any (· == e)) ++ new
      { k with walks := l.drop (l.length - 64) })

/-- The walk of a context from its root. -/
def rootWalk (s : State) (ctx va : Nat) : Walk := walkFrom s va (ctxAt s ctx).record.ptroot 3

/-- Whether a write meets a cached leaf whose D is clear: it walks again, which sets D, or finds that the leaf has changed (17 R364). -/
def dirtyWalk (e : TlbEntry) (kind : AccKind) : Bool := kind.writes && !e.leaf.d

/-- What a walk answers for an access. -/
def walked (w : Walk) (va : Nat) (kind : AccKind) : Xlate :=
  match w with
  | .leaf l base _ =>
    match rightsOf l kind with
    | some n => .violation n
    | none => .ok (l.pa + (va - base))
  | .fault lv h => .fault lv h
  | .violation n => .violation n

/-- What a translation of one address would answer, with nothing changed: a cached leaf where it serves the access, else
a walk; a write into a model layer is a violation (17 R364, 04 R96). -/
def peek (s : State) (core : Option Nat) (ctx va : Nat) (kind : AccKind) : Xlate :=
  if kind.writes && inLayer s ctx va then .violation 2
  else
    match tlbOf s core ctx va with
    | some e =>
      match rightsOf e.leaf kind with
      | some n => .violation n
      | none => if dirtyWalk e kind then walked (rootWalk s ctx va) va kind else .ok (e.leaf.pa + (va - e.va))
    | none => walked (walkAt s core ctx va) va kind

/-- Where a translation's walk begins; nowhere when a cached leaf serves it. -/
def walkFor (s : State) (core : Option Nat) (ctx va : Nat) (kind : AccKind) : Option (Nat × Nat) :=
  match tlbOf s core ctx va with
  | some e => if dirtyWalk e kind then some ((ctxAt s ctx).record.ptroot, 3) else none
  | none => some (walkStart s core ctx va)

/-- Translation of one address for an agent. A walk sets A (and D) and, for an agent with a TLB, leaves a pending fill
and its table entries in the walk cache (17 R364, R365). -/
def translate (s : State) (core : Option Nat) (ctx va : Nat) (kind : AccKind) : Xlate × State :=
  match peek s core ctx va kind with
  | .ok pa =>
    match walkFor s core ctx va kind with
    | none => (.ok pa, s)
    | some (table, level) =>
      match markLeaf s kind (walkFrom s va table level) with
      | (.leaf l base _, s') =>
        match core with
        | some c => (.ok pa, addFill (addWalks s' c (walkPath s ctx va table level)) c { ctx := ctx, va := base, leaf := l })
        | none => (.ok pa, s')
      | (_, s') => (.ok pa, s')
  | r => (r, s)

/-- The lines that engine operations own by a virtual address become physical lines once their pages are present: the order of the
owners stands, and each is recalled (05 R115, R117). -/
def settleOwned (s : State) : State :=
  let line (k : LineKey) : Option Nat :=
    match k with
    | .virt c l =>
      match rootWalk s c (l * 64) with
      | .leaf f base _ => if f.w then some (lineOf (f.pa + (l * 64 - base))) else none
      | _ => none
    | _ => none
  let now := s.owned.filterMap (fun e => line e.2)
  if now = [] then s
  else
    now.foldl recallLine { s with owned := s.owned.map (fun e =>
      match line e.2 with
      | some l => (e.1, .phys l)
      | none => e) }

/-- Whether a physical address lies in the peer aperture (19 R400). -/
def inPeer (pa : Nat) : Bool := decide (Config.peerAperture ≤ pa)

/-- The 64 KiB page of a virtual address (17 R373). -/
def pageOf (va : Nat) : Nat := va / 65536

/-! ## Fault records (17 R372) -/

/-- Agents of a fault record (17 R372). -/
def agentGroup : Nat := 0
/-- The conductor. -/
def agentConductor : Nat := 1
/-- The hod or the walk-ahead. -/
def agentHod : Nat := 2
/-- The copy engine. -/
def agentCopy : Nat := 3
/-- The geometry engine. -/
def agentGeo : Nat := 4
/-- The articulation engine. -/
def agentArt : Nat := 5
/-- The residency engine or the front end. -/
def agentResidency : Nat := 6
/-- Instruction fetch. -/
def agentFetch : Nat := 7

/-- Whether the fault buffer has room; an agent that faults while it is full holds (17 R372). -/
def faultRoom (s : State) : Bool := decide (s.faultBuf.length < Config.faultRecords)

/-- A fault record written. -/
def writeFault (s : State) (r : FaultRec) : State := { s with faultBuf := s.faultBuf ++ [r] }

/-- The fault record of a unit's access. -/
def unitFault (s : State) (u : UnitId) (agent : Nat) (kind : AccKind) (va level : Nat) (h : Bool) (log : Nat) : FaultRec :=
  let t := teamAt s u.team
  { ctx := t.ctx, kind := kind, agent := agent, level := level, h := h, core := t.core, group := u.idx, va := va, log := log }

/-! ## Trap records (17 R378, R379) -/

/-- Codes of trap causes (17 R378). -/
def Cause.code : Cause → Nat
  | .illegal => 1
  | .clauseForm => 2
  | .operandLimit => 3
  | .spadBounds => 4
  | .accessViolation => 5
  | .misaligned => 6
  | .cfiViolation => 7
  | .returnUnderflow => 8
  | .illegalWait => 9
  | .waitTimeout => 10
  | .copyLate => 11
  | .layerFault => 12
  | .deadlineMiss => 13
  | .engineError => 14
  | .remoteGone => 15
  | .pairMismatch => 16
  | .eccUncorrectable => 17
  | .software => 18
  | .breakpoint => 19
  | .faultUnserviceable => 20

/-- The 64 bytes of a trap record (17 R379). -/
def TrapRec.bytes (r : TrapRec) : List Byte :=
  let w0 := r.cause.code + r.sub % 256 * 2 ^ 8 + r.ctx % 64 * 2 ^ 16 + (if r.deferred then 2 ^ 22 else 0) + r.lane % 32 * 2 ^ 23
  let w1 := r.core % 256 + r.group % 64 * 2 ^ 8
  natToBytes 4 w0 ++ natToBytes 4 w1 ++ natToBytes 4 r.gridid.toNat ++ natToBytes 4 (r.team % 2 ^ 22) ++
  natToBytes 4 r.mask.toNat ++ natToBytes 8 (r.pc % 2 ^ 48) ++ natToBytes 8 (r.cstart % 2 ^ 48) ++
  natToBytes 8 r.addr.toNat ++ natToBytes 2 r.trow.toNat ++ natToBytes 2 r.tcol.toNat ++ natToBytes 4 r.tk.toNat ++
  natToBytes 8 (r.sten % 2 ^ 48) ++ natToBytes 4 r.detail.toNat

/-- A record of a unit: the cause, its subcode, the word, the lanes that meet the cause and the address (17 R379). -/
def mkRec (s : State) (u : UnitId) (pc cstart : Nat) (cause : Cause) (sub : Nat) (lanes : W32) (addr : W64) : TrapRec :=
  let t := teamAt s u.team
  { cause := cause, sub := sub, ctx := t.ctx, lane := lowestLane lanes, core := t.core, group := u.idx,
    gridid := (gridAt s t.grid).gridid, team := t.index, mask := lanes, pc := pc, cstart := cstart, addr := addr }

/-- The slot index of a unit's trap record (14 R308). -/
def trapSlot (s : State) (u : UnitId) : Nat :=
  let t := teamAt s u.team
  if isCond u then Config.groupTrapSlots + t.core * 4 + t.conductorSlot else t.core * 32 + u.idx

/-- The virtual address of a unit's trap record. -/
def trapAddr (s : State) (u : UnitId) : Nat :=
  (ctxAt s (teamAt s u.team).ctx).record.trapbase + 64 * trapSlot s u

/-- A trap record written at its slot by the device: never a fault, published at its home (14 R308, R411). -/
def writeTrapRec (s : State) (u : UnitId) (r : TrapRec) : State :=
  let va := trapAddr s u
  match walkFrom s va (ctxAt s (teamAt s u.team).ctx).record.ptroot 3 with
  | .leaf l base _ => homeWrite s (writesOf (l.pa + (va - base)) r.bytes)
  | _ => s

/-- Every record written under 14 R308 is copied into the supervisor's report ring (17 R383). -/
def report (s : State) (r : TrapRec) : State :=
  { s with supervisor :=
      { s.supervisor with
        reports := (s.supervisor.reports ++ [r]).drop (s.supervisor.reports.length + 1 - Config.reportRecords)
        repCnt := s.supervisor.repCnt + 1 } }

/-! ## Host events (19 R396, R397) -/

/-- An event waiting for the host event ring. -/
def hostEvent (s : State) (e : HostEvent) : State :=
  { s with mailbox := { s.mailbox with queue := s.mailbox.queue ++ [e] } }

/-- An entry of a context's fault log, which firmware reports to the host (14 R308, 19 R396). -/
def faultLogAdd (s : State) (u : UnitId) (r : TrapRec) : State :=
  let c := ctxAt s r.ctx
  let s1 := modCtx s r.ctx (fun c => { c with faultLog := c.faultLog ++ [r] })
  hostEvent s1 ⟨0x83, 0, 0, natToBytes 4 r.ctx ++ natToBytes 4 c.faultLog.length ++ natToBytes 8 (trapAddr s u)⟩

/-! ## Futures (02 R48, 09 R251) -/

/-- A future slot of a unit. -/
def slotAt (g : Grp) (i : Nat) : FutSlot := tget {} g.futures i

/-- The free slots of a unit, ascending. -/
def freeSlots (g : Grp) : List Nat := (List.range Config.futureSlots).filter (fun i => (slotAt g i).state == .free)

/-- A slot taken by an operation. -/
def takeSlot (g : Grp) (i : Nat) (kind : FutKind) (link : Nat) : Grp :=
  { g with futures := tset g.futures i { state := .pending, kind := kind, link := link } }

/-- Codes of the kinds of future (09 R251). -/
def FutKind.code : FutKind → Nat
  | .grid => 0
  | .graph => 1
  | .copy => 2
  | .wagon => 3
  | .geometry => 4
  | .articulation => 5
  | .layer => 6

/-- Codes of the states of a slot (09 R251). -/
def FutState.code : FutState → Nat
  | .free => 0
  | .pending => 1
  | .complete => 2

/-- Whether an ERR code is an error (09 R251). -/
def errIsError (e : Nat) : Bool := decide (2 ≤ e) && e != 6

/-- The trap at fwait of an ERR code (09 R251). -/
def errTrap (e : Nat) : Cause :=
  if e = 2 then .deadlineMiss else if e = 4 then .eccUncorrectable else if e = 5 then .layerFault
  else if e = 8 then .remoteGone else .engineError

/-- The ERR and DETAIL that a lane reads: a wagon slot keeps one status for each lane (09 R251). -/
def slotStatus (f : FutSlot) (lane : Nat) : Nat × BitVec 16 :=
  if f.kind = .wagon then
    match tget? f.rows lane with
    | some r => (r.err, 0)
    | none => (0, 0xFFFF)
  else (f.err, f.detail)

/-- The status word of a slot as one lane reads it (09 R251). -/
def statusWord (f : FutSlot) (lane : Nat) : W32 :=
  let (e, d) := slotStatus f lane
  BitVec.ofNat 32 (f.state.code * 2 ^ 30 + f.kind.code * 2 ^ 26 + e % 256 * 2 ^ 16 + d.toNat)

/-! ## Ends of waits (08 R183) -/

/-- Writes to a destination o-field and to lt of one thread, as a word does (06 R129, 02 R41): codes 12 and 15 write lt
only; in a conductor clause codes 0 to 11 name k registers, zero-extended (02 R45). -/
def writeO (cond : Bool) (g : Grp) (l : Nat) (d : OField) (v lt : W32) : Grp :=
  let g1 := modThr g l (fun t => { t with lt := lt, t := if d.toNat ≤ 11 && !cond then tset t.t d.toNat v else t.t })
  if d.toNat ≤ 11 && cond then { g1 with k := tset g1.k d.toNat (v.setWidth 64) } else g1

/-- The ends of a blocking wait for a unit's run: data to d, status to lt, for each participant; the run completes its
clause when it is selected again. -/
def endWait (u : UnitId) (g : Grp) (b : BlockedRun) (d : OField) (data status : W32) : Grp :=
  let g1 := (maskLanes b.parts).foldl (fun g l => writeO (isCond u) g l d data status) g
  { g1 with blocked := g1.blocked.map (fun x => if x.id = b.id then { b with ended := true } else x) }

/-- The destination of a wait. -/
def WaitKind.dst : WaitKind → OField
  | .bar _ d _ => d
  | .barg d _ => d
  | .waitf _ _ _ _ d _ => d
  | .fwait _ _ _ => 15
  | .regc d _ => d
  | .sleepCyc d _ _ => d
  | .sleepFut d _ _ _ => d

/-- Writes to a main register of one lane, or to the k register of a conductor. -/
def writeV (cond : Bool) (g : Grp) (l : Nat) (v : Nat) (x : W32) : Grp :=
  if cond then { g with k := tset g.k v (x.setWidth 64) } else modThr g l (fun t => { t with v := tset t.v v x })

/-- A blocked run removed, its threads back in the table at their clause's header. -/
def dropBlocked (g : Grp) (id : Nat) : Grp := { g with blocked := g.blocked.filter (fun b => b.id != id) }

/-! ## Barriers (08 R205, R206) -/

/-- Live threads of a team's groups (08 R205). -/
def liveThreads (t : Team) : Nat :=
  (t.units.filter (fun e => decide (e.1 < 32))).foldl (fun n e => n + (liveLanes e.2).length) 0

/-- The payload identity of a barrier operation (08 R204, 07 R176). -/
def barIdentity : BarOp → W32
  | .add => 0
  | .minI => 0x7FFFFFFF
  | .maxI => 0x80000000
  | .minN => 0xFFFFFFFF
  | .maxN => 0
  | .and => 0xFFFFFFFF
  | .or => 0

/-- One combination of a barrier reduction. -/
def barCombine (o : BarOp) (x y : W32) : W32 :=
  match o with
  | .add => x + y
  | .minI => if x.toInt ≤ y.toInt then x else y
  | .maxI => if x.toInt ≤ y.toInt then y else x
  | .minN => if x.toNat ≤ y.toNat then x else y
  | .maxN => if x.toNat ≤ y.toNat then y else x
  | .and => x &&& y
  | .or => x ||| y

/-- Participants that have arrived. -/
def Barrier.arrived (b : Barrier) : Nat := b.arrivals.foldl (fun n a => n + a.count) 0

/-- The next generation: its count unset. -/
def Barrier.nextGen (b : Barrier) : Barrier := { gen := b.gen + 1 }

/-- The reduction over the arrivals made (08 R205); arrivals that name different operations leave it open (log 9). -/
def barPayload (s : State) (b : Barrier) (o : BarOp) : W32 :=
  if b.arrivals.all (fun a => a.op == none || a.op == some o) then
    b.arrivals.foldl (fun p a => a.vals.foldl (barCombine o) p) (barIdentity o)
  else Config.freeWord s.freeCtr

/-- Whether a generation releases: every arrival it counts and every registered engine arrival has come. -/
def barReady (b : Barrier) (live : Nat) : Bool :=
  decide (b.arrivals ≠ []) && b.engines == 0 &&
  (match b.count with
   | none => false
   | some c => if c = 0 then b.arrived == live else b.arrived == c)

/-- The arrived runs of a barrier are released with a status; the barrier's payload is the data of a reduction, and a
plain barrier's data is its status. -/
def barRelease (s : State) (b : Barrier) (status : W32) : State :=
  let s1 := b.arrivals.foldl (fun s1 a =>
    let g := unitAt s1 a.unit
    match g.blocked.find? (fun r => r.id == a.run) with
    | none => s1
    | some r =>
      setUnit s1 a.unit (endWait a.unit g r r.wait.dst (match a.op with
        | some o => barPayload s b o
        | none => status) status)) s
  { s1 with freeCtr := s1.freeCtr + 1 }

/-- A team barrier. -/
def barAt (t : Team) (n : Nat) : Barrier := tget {} t.barriers n

/-- A team barrier replaced. -/
def setBar (s : State) (t n : Nat) (b : Barrier) : State := modTeam s t (fun tm => { tm with barriers := tset tm.barriers n b })

/-- A team barrier released with a status. -/
def releaseBar (s : State) (t n : Nat) (status : W32) : State :=
  let b := barAt (teamAt s t) n
  setBar (barRelease s b status) t n b.nextGen

/-- A team barrier released if it is ready. -/
def checkBar (s : State) (t n : Nat) : State :=
  let b := barAt (teamAt s t) n
  if barReady b (liveThreads (teamAt s t)) then releaseBar s t n (if b.engineErr then 2 else 0) else s

/-- The gang barrier of a team; a team in no gang has its own (08 R205). -/
def gangBar (s : State) (t : Team) : Barrier :=
  match t.gang with
  | some g => (gangAt s g).barrier
  | none => t.ownGang

/-- The gang barrier of a team replaced. -/
def setGangBar (s : State) (t : Nat) (b : Barrier) : State :=
  match (teamAt s t).gang with
  | some g => modGang s g (fun g => { g with barrier := b })
  | none => modTeam s t (fun t => { t with ownGang := b })

/-- A gang barrier released with a status; each member's core takes an acquire step (05 R111). -/
def releaseGangBar (s : State) (t : Nat) (status : W32) : State :=
  let b := gangBar s (teamAt s t)
  let cores := dedupNat ((gangMembers s (teamAt s t)).map (fun m => (teamAt s m).core))
  setGangBar (cores.foldl acquireStep (barRelease s b status)) t b.nextGen

/-- A gang barrier released if it is ready. -/
def checkGangBar (s : State) (t : Nat) : State :=
  let b := gangBar s (teamAt s t)
  let live := (gangMembers s (teamAt s t)).foldl (fun n m => n + liveThreads (teamAt s m)) 0
  if barReady b live then releaseGangBar s t (if b.engineErr then 2 else 0) else s

/-- A run's arrivals withdrawn from a barrier; a generation left without arrivals has its count unset. -/
def Barrier.withdraw (b : Barrier) (u : UnitId) (run : Nat) : Barrier :=
  let as := b.arrivals.filter (fun a => !(decide (a.unit = u) && a.run == run))
  { b with arrivals := as, count := if as = [] then none else b.count }

/-- A blocking wait withdrawn: a bar or barg takes back the run's arrivals, a regc its claim (08 R183). -/
def withdrawWait (s : State) (u : UnitId) (b : BlockedRun) : State :=
  match b.wait with
  | .bar n _ _ => setBar s u.team n ((barAt (teamAt s u.team) n).withdraw u b.id)
  | .barg _ _ => setGangBar s u.team ((gangBar s (teamAt s u.team)).withdraw u b.id)
  | .regc _ _ => modTeam s u.team (fun t => { t with claims := t.claims.filter (fun c => !(c.unit == u.idx && c.run == b.id)) })
  | _ => s

/-- Every barrier of a team and its gang tested again, after its live threads change. -/
def checkBars (s : State) (t : Nat) : State :=
  checkGangBar ((tkeys (teamAt s t).barriers).foldl (fun s n => checkBar s t n) s) t

/-! ## Exit and retirement of threads and groups (01 R17, R19, R26) -/

/-- A thread that has exited keeps its main registers alone, which a matrix word still reads as scales (03 R69, 04 R82). -/
def exitedThread (t : Thread) : Thread := { v := t.v }

/-- The conductor winds down when the last group of its team has retired (01 R17): one in a blocking wait exits at once; one whose wait
has ended finishes its clause first. -/
def windDown (s : State) (t : Nat) : State :=
  let tm := teamAt s t
  let groupsDone := (tm.units.filter (fun e => decide (e.1 < 32))).all (fun e => e.2.retired)
  let c := tget {} tm.units 32
  if groupsDone && thas tm.units 32 && !c.retired then
    if c.blocked.any (fun b => !b.ended) then
      setUnit s ⟨t, 32⟩ { c with threads := [], blocked := [], clause := none, tail := [], retired := true, live := false, windDown := true }
    else setUnit s ⟨t, 32⟩ { c with windDown := true }
  else s

/-- Threads leave the table; a group without live threads retires, its blocks go to the team's free store, its future
slots become free, and barriers count live threads again (01 R26, 08 R205, R212). -/
def exitLanes (s : State) (u : UnitId) (lanes : List Nat) : State :=
  let g := unitAt s u
  let m := laneMask lanes
  let g1 := { g with
    threads := lanes.foldl (fun ts l => tset ts l (exitedThread (tget {} ts l))) g.threads
    apart := (g.apart.map (fun r => { r with mask := r.mask &&& ~~~m })).filter (fun r => r.mask != 0)
    tail := (g.tail.map (fun r => { r with mask := r.mask &&& ~~~m, owed := r.owed &&& ~~~m })).filter (fun r => r.mask != 0)
    blocked := g.blocked.filter (fun b => b.clause.mask &&& ~~~m != 0)
    xheld := (g.xheld.map (fun h => { h with lanes := h.lanes.filter (fun e => !hasNat lanes e.1) })).filter (fun h => decide (h.lanes ≠ [])) }
  if liveLanes g1 = [] then
    let g2 := { g1 with retired := true, live := false, futures := [], feed := [], tail := [], blocked := [], apart := [], handler := none, share := 0 }
    let s1 := setUnit s u g2
    let s2 := modTeam s1 u.team (fun t => if isCond u then t else { t with freeStore := t.freeStore + g.share })
    checkBars (windDown s2 u.team) u.team
  else checkBars (setUnit s u g1) u.team

/-! ## FatalStop (14 R308) -/

/-- Every thread of a team exits and no further clause issues; the record is kept in the fault log, and the grid's future
will complete FAULTED. -/
def stopTeam (s : State) (t : Nat) (rec? : Option (UnitId × TrapRec)) : State :=
  let tm := teamAt s t
  let s1 := modTeam s t (fun tm =>
    { tm with
      stopped := true
      phase := (if tm.phase = .saved then .saved else .stopping)
      units := tmap (fun _ g =>
        { g with threads := [], live := false, retired := true, tail := [], blocked := [], apart := [], clause := none, handler := none,
                 feed := [], futures := [], loads := [], held := none, xheld := [] }) tm.units })
  let idx := (ctxAt s tm.ctx).faultLog.length
  let s2 := modGrid s1 tm.grid (fun g =>
    { g with
      faulted := true
      faultIndex := match g.faultIndex, rec? with
        | some i, _ => some i
        | none, some _ => some idx
        | none, none => none })
  let s3 := match rec? with
    | some (u, r) => faultLogAdd s2 u r
    | none => s2
  checkBars s3 t

/-! ## Taking a trap and returning from one (14 R308, R309) -/

/-- Whether a trap of a unit stops its team rather than entering the handler (14 R308). -/
def trapIsFatal (s : State) (u : UnitId) (r : TrapRec) : Bool :=
  let c := (ctxAt s r.ctx).record
  let g := unitAt s u
  isCond u || g.retired || g.handler.isSome || c.hentry == 0 || c.hcmask.getLsbD r.cause.code == false ||
  r.cause == .faultUnserviceable || r.cause == .pairMismatch

/-- Threads sent to the handler's entry as one run, lt and t0 to t11 zeroed (02 R41). -/
def toHandler (g : Grp) (lanes : List Nat) (hentry : Nat) : Grp :=
  modThrs g lanes (fun _ t => { t with pc := BitVec.ofNat 48 hentry, lt := 0, t := [], cych := none })

/-- TrapDelivery of 14 R308: the record is written and reported; then the team stops, or the group enters handler level. -/
def trapDeliver (s : State) (u : UnitId) (r : TrapRec) : State :=
  let s1 := report (writeTrapRec s u r) r
  if trapIsFatal s u r then stopTeam s1 u.team (some (u, r))
  else
    let g := unitAt s1 u
    let lanes := maskLanes r.mask
    let g1 := { g with
      clause := none
      held := none
      blocked := g.blocked.filter (fun b => b.clause.mask &&& r.mask == 0)
      tail := (g.tail.map (fun y => { y with mask := y.mask &&& ~~~r.mask })).filter (fun y => y.mask != 0)
      handler := some { recAddr := BitVec.ofNat 64 (trapAddr s u), record := r, hres := BitVec.ofNat 48 r.cstart, hmode := 0,
                        hmask := r.mask, stopped := r.mask } }
    setUnit s1 u (toHandler g1 lanes (ctxAt s r.ctx).record.hentry)

/-- Return from the handler (08 R219, 14 R309): the threads of HMASK continue as HMODE says, and the record's other
stopped threads enter the handler again, or the group leaves handler level. -/
def handlerReturn (s : State) (u : UnitId) : State :=
  let g := unitAt s u
  match g.handler with
  | none => s
  | some h =>
    let go := h.hmask &&& h.stopped
    let rest := h.stopped &&& ~~~h.hmask
    let hentry := (ctxAt s (teamAt s u.team).ctx).record.hentry
    let lanes := maskLanes go
    let target : BitVec 48 := if h.hmode = 1 then h.hres else BitVec.ofNat 48 h.record.cstart
    let g1 := { g with clause := none }
    let g2 := if h.hmode = 2 then g1 else modThrs g1 lanes (fun _ t => { t with pc := target, lt := 0, t := [], cych := none })
    let g3 :=
      if rest = 0 then { g2 with handler := none }
      else
        toHandler { g2 with handler := some { h with hmask := rest, stopped := rest, hmode := 0, hres := BitVec.ofNat 48 h.record.cstart } }
          (maskLanes rest) hentry
    let s1 := setUnit s u g3
    if h.hmode = 2 then exitLanes s1 u lanes else s1

/-! ## Completion of futures (09 R251, R253) -/

/-- Whether a unit's clause has started: its header's wait is over (01 R20). -/
def clauseStarted (g : Grp) : Bool :=
  match g.clause with
  | some cl => cl.decoded && cl.waited
  | none => false

/-- A completion that a unit observes: that of a grid or graph, of any status, takes an acquire step of the waiter's core (05 R105,
R112). -/
def seenGrid (s : State) (u : UnitId) (f : FutSlot) : State :=
  if f.kind = .grid ∨ f.kind = .graph then acquireStep s (coreOf s u) else s

/-- Whether a unit may go on or trap: not while the device is frozen, but for the unit of a STEP (17 R384, R385). -/
def mayMove (s : State) (u : UnitId) : Bool := !s.supervisor.freeze || s.supervisor.stepping == some u

/-- Of some lanes those that read an error: each its own row's of a wagon slot (09 R251). -/
def badLanes (f : FutSlot) (lanes : List Nat) : List Nat := lanes.filter (fun l => errIsError (slotStatus f l).1)

/-- A blocking fwait on a slot ends when the slot completes: the status words and ERR, or the trap the table "Future
errors" states, which waits for a clause of its group in progress, and while the device is frozen. -/
def endFwait (s : State) (u : UnitId) (b : BlockedRun) (v slot : Nat) (noerr : Bool) : State :=
  let g := unitAt s u
  let f := slotAt g slot
  let lanes := maskLanes b.parts
  match badLanes f lanes, noerr with
  | lane :: more, false =>
    if clauseStarted g || !mayMove s u then s else
    let s := seenGrid s u f
    let r := { mkRec s u (b.clause.head + 4 * (b.clause.next - 1)) b.clause.head (errTrap (slotStatus f lane).1) 0
                 (laneMask (lane :: more)) f.failAddr with
               lane := lane, detail := statusWord f lane }
    trapDeliver (setUnit s u (dropBlocked g b.id)) u r
  | _, _ =>
    let g1 := lanes.foldl (fun g l =>
      let g := writeV (isCond u) g l v (statusWord f l)
      modThr g l (fun t => { t with lt := BitVec.ofNat 32 (slotStatus f l).1 })) g
    let g2 := { g1 with blocked := g1.blocked.map (fun x => if x.id = b.id then { b with ended := true } else x) }
    seenGrid (setUnit s u g2) u f

/-- Runs blocked on a slot of a unit are released. -/
def wakeFwaits (s : State) (u : UnitId) (slot : Nat) : State :=
  (unitAt s u).blocked.foldl (fun s b =>
    match b.wait with
    | .fwait v sl noerr => if sl = slot ∧ b.ended = false then endFwait s u b v sl noerr else s
    | _ => s) s

/-- Runs blocked on slots that are complete are released: those whose trap waited for a clause boundary. -/
def wakeReady (s : State) (u : UnitId) : State :=
  (List.range Config.futureSlots).foldl (fun s i => if (slotAt (unitAt s u) i).state = .complete then wakeFwaits s u i else s) s

/-- A future slot completes, or becomes free where it was dropped (09 R251, R254). -/
def completeSlot (s : State) (u : UnitId) (slot : Nat) (err : Nat) (detail : BitVec 16) (failAddr : W64) : State :=
  let g := unitAt s u
  let f := slotAt g slot
  if f.state ≠ .pending then s
  else if f.dropped then setUnit s u { g with futures := tset g.futures slot {} }
  else
    let s1 := setUnit s u { g with futures := tset g.futures slot { f with state := .complete, err := err, detail := detail, failAddr := failAddr } }
    wakeFwaits s1 u slot

/-! ## What a lockstep team holds back (17 R386) -/

/-- Whether something that a word of a lockstep team sent out waits for its clause to compare equal at its trailer. -/
def unreleased (s : State) (u : UnitId) (id : Nat) : Bool :=
  (teamAt s u.team).shadowCore.isSome &&
  (let g := unitAt s u
   g.clause.any (fun cl => hasNat cl.outs id) || g.blocked.any (fun b => hasNat b.clause.outs id))

/-! ## Completion flags (02 R47) -/

/-- A flag gains one operation. -/
def flagInc (g : Grp) (f : Option Nat) : Grp :=
  match f with
  | none => g
  | some i => { g with flags := tset g.flags i (tget 0 g.flags i + 1) }

/-- A flag loses one operation. -/
def flagDec (g : Grp) (f : Option Nat) : Grp :=
  match f with
  | none => g
  | some i => { g with flags := tset g.flags i (tget 0 g.flags i - 1) }

/-- The pending flags as FLAGS shows them (02 R47). -/
def flagsWord (g : Grp) : W32 :=
  BitVec.ofNat 32 ((List.range 12).foldl (fun n i => n + if tget 0 g.flags i = 0 then 0 else 2 ^ i) 0)

/-! ## Deferred traps (09 R223) -/

/-- The live threads that take a deferred trap: those its record names, else the lowest of the lowest live run. -/
def deferredLanes (g : Grp) (r : TrapRec) : List Nat :=
  match (maskLanes r.mask).filter (fun l => (thrAt g l).live) with
  | [] => (argMin (fun l => (thrAt g l).pc.toNat) (liveLanes g)).toList
  | ls => ls

/-- The wait of a thread's run, if it is in one, withdrawn (08 R183). -/
def withdrawLane (s : State) (u : UnitId) (l : Nat) : State :=
  match (unitAt s u).blocked.find? (fun b => !b.ended && b.clause.mask.getLsbD l) with
  | some b => modUnit (withdrawWait s u b) u (fun g => dropBlocked g b.id)
  | none => s

/-- An error found after issue: the record waits for the issuing run's next clause header, and a blocking wait that the run is in is
withdrawn now; for a retired group the record is written at once with MASK zero and the team stops, but no trap is taken while the device
is frozen (17 R384). -/
def deferTrap (s : State) (u : UnitId) (r : TrapRec) (lane : Nat) : State :=
  let r1 := { r with deferred := true }
  let g := unitAt s u
  if g.retired || !thas (teamAt s u.team).units u.idx then
    let r2 := { r1 with lane := lane, mask := 0 }
    if (teamAt s u.team).stopped then s
    else if !mayMove s u && thas (teamAt s u.team).units u.idx then modUnit s u (fun g => { g with deferred := g.deferred ++ [(r1, lane)] })
    else stopTeam (report (writeTrapRec s u r2) r2) u.team (some (u, r2))
  else modUnit ((deferredLanes g r1).foldl (fun s l => withdrawLane s u l) s) u (fun g => { g with deferred := g.deferred ++ [(r1, lane)] })

/-- Engine operations a team has outstanding (01 R26). -/
def engineAdd (s : State) (t : Nat) : State := modTeam s t (fun t => { t with engineOps := t.engineOps + 1 })
/-- One engine operation of a team has ended. -/
def engineEnd (s : State) (t : Nat) : State := if thas s.teams t then modTeam s t (fun t => { t with engineOps := t.engineOps - 1 }) else s

end Sys2Proof.Machine
end

