-- ==== Sys2Proof/Machine/Operands.lean ====
section
/-! DEFINITION. What an issuing word sees: its operands in group and conductor clauses (06 R129-R131, 07 R157), its
participants (06 R130, 07 R152), the table of what each word names, costs and accepts, and the checks of 06 R143 and
02 R57 that come before any effect. -/

set_option linter.unusedVariables false

namespace Sys2Proof.Machine

/-! ## The issuing word -/

/-- The unit, clause and team of the word that issues. -/
structure Ctx where
  u : UnitId
  g : Grp
  cl : Clause
  t : Team
deriving DecidableEq, Repr

/-- The issuing unit, when one is in a clause (log 4). -/
def issuing (s : State) : Option Ctx :=
  match s.focus with
  | none => none
  | some u =>
    match (unitAt s u).clause with
    | none => none
    | some cl => some { u := u, g := unitAt s u, cl := cl, t := teamAt s u.team }

/-- Whether the clause is a conductor clause (06 R131). -/
def Ctx.cond (x : Ctx) : Bool := isCond x.u
/-- The address of the word. -/
def Ctx.pc (x : Ctx) : Nat := x.cl.head + 4 * x.cl.next
/-- The fall-through address of the clause (06 R122). -/
def Ctx.fall (x : Ctx) : Nat := x.cl.head + 4 * (x.cl.len + 2)
/-- The lanes of the run. -/
def Ctx.lanes (x : Ctx) : List Nat := maskLanes x.cl.mask
/-- The thread of a lane. -/
def Ctx.thr (x : Ctx) (l : Nat) : Thread := thrAt x.g l
/-- The lowest lane of the run: ElectLane (01 R24). -/
def Ctx.lead (x : Ctx) : Nat := lowestLane x.cl.mask

/-- A predicate of a thread; p0 reads true (02 R43). -/
def predBit (t : Thread) (p : PIdx) : Bool := p == 0 || t.p.getLsbD p.toNat

/-- Whether a thread's guard holds (06 R130). -/
def guardHolds (t : Thread) (g : Guard) : Bool := predBit t g.pred != g.neg

/-- The participants of a word: the run's threads whose guard is true (07 R152). -/
def Ctx.parts (x : Ctx) (g : Guard) : List Nat := x.lanes.filter (fun l => guardHolds (x.thr l) g)

/-- The guard of a form without one. -/
def always : Guard := ⟨0, false⟩

/-- A conductor register (02 R45). -/
def kAt (g : Grp) (i : Nat) : W64 := tget 0 g.k i
/-- A uniform register. -/
def sAt (g : Grp) (i : Nat) : W32 := tget 0 g.s i
/-- A main register of a thread. -/
def vAt (t : Thread) (i : Nat) : W32 := tget 0 t.v i
/-- An operand-file register of a thread. -/
def tAt (t : Thread) (i : Nat) : W32 := tget 0 t.t i

/-- The hi immediate of the clause's kind-00 hint, sign-extended (06 R129). -/
def Ctx.hi (x : Ctx) : W32 :=
  match x.cl.hints.imm with
  | some p => p.signExtend 32
  | none => 0

/-- A 32-bit o-field source (06 R129): t or k, lt, hi, ln, z. -/
def Ctx.src (x : Ctx) (l : Nat) (o : OField) : W32 :=
  if o.toNat ≤ 11 then (if x.cond then (kAt x.g o.toNat).setWidth 32 else tAt (x.thr l) o.toNat)
  else if o = 12 then (x.thr l).lt
  else if o = 13 then x.hi
  else if o = 14 then (if x.cond then 0 else BitVec.ofNat 32 l)
  else 0

/-- A 64-bit o-field source (07 R157): a pair, a whole k register, or a narrow operand extended; the rule states the extension of
codes 12 and 13 for group clauses, and the model extends alike in conductor clauses (log 46). -/
def Ctx.src64 (x : Ctx) (l : Nat) (o : OField) : W64 :=
  if o.toNat ≤ 11 then
    (if x.cond then kAt x.g o.toNat else tAt (x.thr l) (o.toNat + 1) ++ tAt (x.thr l) o.toNat)
  else if o = 13 then (x.hi).signExtend 64
  else (x.src l o).setWidth 64

/-- A uniform register as a 32-bit operand: s, or the low half of k (07 R159, 06 R131). -/
def Ctx.uni (x : Ctx) (s : SIdx) : W32 := if x.cond then (kAt x.g s.toNat).setWidth 32 else sAt x.g s.toNat

/-- A 64-bit uniform operand: the pair s(i):s(i+1), or one k register (02 R44, 07 R159). -/
def Ctx.uni64 (x : Ctx) (i : Nat) : W64 := if x.cond then kAt x.g i else sAt x.g (i + 1) ++ sAt x.g i

/-- A main register of a lane, or the k register a v-index names in a conductor clause (06 R131). -/
def Ctx.main (x : Ctx) (l v : Nat) : W32 := if x.cond then (kAt x.g v).setWidth 32 else vAt (x.thr l) v

/-- A 64-bit result: a pair, a whole k register, or lt only; lt receives bits [31:0] (07 R157). -/
def write64 (cond : Bool) (g : Grp) (l : Nat) (d : OField) (r : W64) : Grp :=
  let lo : W32 := r.setWidth 32
  let hi : W32 := r.extractLsb' 32 32
  if d.toNat ≤ 11 then
    if cond then { modThr g l (fun t => { t with lt := lo }) with k := tset g.k d.toNat r }
    else modThr g l (fun t => { t with lt := lo, t := tset (tset t.t d.toNat lo) (d.toNat + 1) hi })
  else modThr g l (fun t => { t with lt := lo })

/-- A predicate result: the predicate and, in step, lt; p0 discards (02 R43, 07 R154). -/
def writeP (g : Grp) (l : Nat) (p : PIdx) (b : Bool) : Grp :=
  modThr g l (fun t =>
    { t with
      lt := if b then 1 else 0
      p := if p = 0 then t.p else if b then t.p ||| ((1 : BitVec 8) <<< p.toNat) else t.p &&& ~~~((1 : BitVec 8) <<< p.toNat) })

/-- FPSTAT flags set in a thread; a flag is cleared only by mts (03 R66). -/
def orFlags (g : Grp) (l : Nat) (f : BitVec 5) : Grp := modThr g l (fun t => { t with fpstat := t.fpstat ||| f })

/-- The clause goes on with its next word; hints last for one word (06 R136). -/
def advance (g : Grp) : Grp :=
  match g.clause with
  | none => g
  | some cl => { g with clause := some { cl with next := cl.next + 1, hints := {} } }

/-- The floating environment of a thread: the mode of a kind-10 hint with RO = 1, else FPCTL.RM (07 R161). -/
def Ctx.fenv (x : Ctx) (l : Nat) : FEnv :=
  let t := x.thr l
  let base : FEnv := { rm := rmodeOf (t.fpctl.extractLsb' 0 2), sat := false, ftz := t.fpctl.extractLsb' 2 1 == 1 }
  match x.cl.hints.modifier with
  | none => base
  | some p =>
    { base with
      rm := if p.extractLsb' 23 1 = 1 then rmodeOf (p.extractLsb' 21 2) else base.rm
      sat := p.extractLsb' 20 1 == 1 }

/-- The header flag a long-latency word selects (06 R128). -/
def Ctx.flag (x : Ctx) (b : Bool) : Option Nat := if b then x.cl.setB else x.cl.setA

/-! ## What each word names, costs and accepts -/

/-- Where a word may stand in its clause (06 R127, 01 R29). -/
inductive Place3 where
  | any
  | last
  | first
  | waits
  | sleeps
deriving DecidableEq, Repr

/-- Which kind-10 hint a word takes (06 R139, 07 R165, 08 R201). -/
inductive ModHint where
  | none
  | arith (ro sat : Bool)
  | matrix
  | atomic (ordered : Bool)
deriving DecidableEq, Repr

/-- One word's static facts. -/
structure Info where
  o : List OField := []
  o64 : List OField := []
  d64 : Option OField := none
  v : List Nat := []
  s : List Nat := []
  sEven : Bool := true
  acc : Option Nat := none
  place : Place3 := .any
  group : Bool := true
  conductor : Bool := true
  handler : Bool := false
  price : Nat := 0
  cache : Bool := false
  modifier : ModHint := .none
  long : Option Bool := none
  writesReg : Bool := false
deriving DecidableEq, Repr

/-- Consecutive register numbers. -/
def regRange (v n : Nat) : List Nat := (List.range n).map (fun i => v + i)

/-- Prices of ld, ldx, st and stx by bytes for a lane (08 R220). -/
def memPrice (bytes : Nat) : Nat := if bytes ≤ 4 then 2 else bytes / 2

/-- Bytes of a load type (08 R194). -/
def loadBytes : LoadType → Nat
  | .n8 => 1
  | .i8 => 1
  | .n16 => 2
  | .i16 => 2
  | .b32 => 4
  | .b64 => 8
  | .b96 => 12
  | .b128 => 16

/-- Bytes of a store type (08 R194). -/
def storeBytes : StoreType → Nat
  | .b8 => 1
  | .b16 => 2
  | .b32 => 4
  | .b64 => 8
  | .b96 => 12
  | .b128 => 16

/-- Whether an atomic ordering orders anything (08 R199). -/
def ordered : AtomOrd → Bool
  | .none => false
  | _ => true

/-- Price of a form-S integer function: that of its form-A function (07 R181). -/
def intUPrice : IntUFn → Nat
  | .mul => 2
  | .mulhiI => 2
  | .mulhiN => 2
  | _ => 0

/-- Price of a form-S floating function (07 R181). -/
def floatUPrice : FloatUFn → Nat
  | .fclass => 0
  | .fcmp _ => 0
  | _ => 4

/-- Kind-10 acceptance of a form-S floating function (07 R165). -/
def floatUMod : FloatUFn → ModHint
  | .fadd => .arith true true
  | .fsub => .arith true true
  | .fmul => .arith true true
  | .hadd2 _ => .arith true true
  | .hmul2 _ => .arith true true
  | _ => .arith false false

/-- Kind-10 acceptance of cvt (07 R165). -/
def cvtMod (fmt : BitVec 5) : CvtKind → ModHint
  | .f32 => .arith true true
  | .f16 => .arith true true
  | .bf16 => .arith true true
  | .b8 => if fmt = 0x1F then .arith false false else .arith false true
  | .i32 => .arith true false
  | .n32 => .arith true false

/-- Price of a reduction or scan (07 R181). -/
def redPrice : RedOp → Nat
  | .fadd => 6
  | .fmin => 6
  | .fmax => 6
  | _ => 2

/-- The s registers of a 64-bit base at an index (02 R44). -/
def pairRegs (i : Nat) : List Nat := [i, i + 1]

/-- Facts of a word of form A with operands, no hint but hi. -/
def infoA (o : List OField) (price : Nat) : Info := { o := o, price := price }

/-- Facts of an arithmetic word that takes RO and SAT. -/
def infoF (o : List OField) (price : Nat) (ro sat : Bool) : Info := { o := o, price := price, modifier := .arith ro sat }

/-- Facts of a lane word (07 R170): no conductor clause. -/
def infoL (o : List OField) (price : Nat) : Info := { o := o, price := price, conductor := false }

/-- The s registers a slot reference reads (09 R252). -/
def slotRegs : SlotRef → List Nat
  | .imm _ => []
  | .reg s _ => [s.toNat]

/-- Facts of a load (08 R194, R195). -/
def infoLd (m : MemFields) (t : LoadType) : Info :=
  { o := [m.off], v := regRange m.v.toNat t.regs, s := pairRegs (2 * m.pair.toNat), price := memPrice (loadBytes t),
    cache := true, long := some m.flagB, writesReg := true }

/-- Facts of a store (08 R194, R196). -/
def infoSt (m : MemFields) (t : StoreType) : Info :=
  { o := [m.off], v := regRange m.v.toNat t.regs, s := pairRegs (2 * m.pair.toNat), price := memPrice (storeBytes t),
    cache := true, long := some m.flagB }

/-- Facts of a matrix word (09 R228). -/
def infoMX (m : MxFields) : Info :=
  { s := [m.s.toNat], acc := some m.acc.toNat, conductor := false, cache := true, modifier := .matrix,
    long := some m.flagB, writesReg := true }

/-- The registers an atomic's d field names beside d (08 R199). -/
def atomRegs (d : OField) (k : AtomOp) : List OField :=
  match k with
  | .cas => [d, d + 1]
  | .add64 => [d, d + 1]
  | .exch64 => [d, d + 1]
  | .cas64 => [d, d + 1, d + 2, d + 3]
  | _ => [d]

/-- Facts of an atomic (08 R199). -/
def infoAtom (d a : OField) (s : SIdx) (r : AtomOrd) (k : AtomOp) : Info :=
  { o := a :: atomRegs d k, s := pairRegs s.toNat, sEven := s.toNat % 2 == 0, price := 2, cache := true, modifier := .atomic (ordered r) }

/-- The static facts of every word (07 R181, 08 R220, 09 R259 for the prices). -/
def infoOf : Instr → Info
  | .add d a b _ => infoA [d, a, b] 0
  | .sub d a b _ => infoA [d, a, b] 0
  | .mul d a b _ => infoA [d, a, b] 2
  | .mulhiI32 d a b _ => infoA [d, a, b] 2
  | .mulhiN32 d a b _ => infoA [d, a, b] 2
  | .mad d a b c _ => infoA [d, a, b, c] 2
  | .min d a b _ _ => infoA [d, a, b] 0
  | .max d a b _ _ => infoA [d, a, b] 0
  | .addc d a b c _ => infoA [d, a, b, c] 0
  | .addcCo d a b c _ => infoA [d, a, b, c] 0
  | .subb d a b c _ => infoA [d, a, b, c] 0
  | .subbBo d a b c _ => infoA [d, a, b, c] 0
  | .cmp _ a b _ _ => infoA [a, b] 0
  | .sel d a b c _ => infoA [d, a, b, c] 0
  | .and d a b _ => infoA [d, a, b] 0
  | .or d a b _ => infoA [d, a, b] 0
  | .xor d a b _ => infoA [d, a, b] 0
  | .andn d a b _ => infoA [d, a, b] 0
  | .shl d a b _ => infoA [d, a, b] 0
  | .shrN32 d a b _ => infoA [d, a, b] 0
  | .shrI32 d a b _ => infoA [d, a, b] 0
  | .rot d a b _ => infoA [d, a, b] 0
  | .fsh d a b c _ => infoA [d, a, b, c] 0
  | .bfeN32 d a b _ => infoA [d, a, b] 0
  | .bfeI32 d a b _ => infoA [d, a, b] 0
  | .bfi d a b c _ => infoA [d, a, b, c] 0
  | .popc d a _ => infoA [d, a] 0
  | .clz d a _ => infoA [d, a] 0
  | .brev d a _ => infoA [d, a] 0
  | .lea d a b _ _ => infoA [d, a, b] 0
  | .add64 d a b _ => { o := [a, b, d], o64 := [a, b], d64 := some d }
  | .cmp64 _ a b _ _ => { o := [a, b], o64 := [a, b] }
  | .intUniformOp d a s _ f =>
    { o := if f.isCmp then [a] else [d, a]
      o64 := if f.is64 then [a] else []
      d64 := if f = .add64 then some d else none
      s := if f.is64 then pairRegs s.toNat else [s.toNat]
      sEven := !f.is64 || s.toNat % 2 == 0
      price := intUPrice f }
  | .addi d a _ => infoA [d, a] 0
  | .andi d a _ => infoA [d, a] 0
  | .ori d a _ => infoA [d, a] 0
  | .xori d a _ => infoA [d, a] 0
  | .shli d a _ => infoA [d, a] 0
  | .movhi d _ => infoA [d] 0
  | .cmpi _ a _ _ => infoA [a] 0
  | .fadd d a b _ => infoF [d, a, b] 4 true true
  | .fsub d a b _ => infoF [d, a, b] 4 true true
  | .fmul d a b _ => infoF [d, a, b] 4 true true
  | .ffma d a b c _ => infoF [d, a, b, c] 8 true true
  | .fmin d a b _ => infoF [d, a, b] 4 false false
  | .fmax d a b _ => infoF [d, a, b] 4 false false
  | .fclass d a _ => infoF [d, a] 0 false false
  | .fsel d a b c _ => infoF [d, a, b, c] 0 false false
  | .fcmp _ a b _ _ => infoF [a, b] 0 false false
  | .hadd2 d a b _ _ => infoF [d, a, b] 4 true true
  | .hmul2 d a b _ _ => infoF [d, a, b] 4 true true
  | .hfma2 d a b c _ _ => infoF [d, a, b, c] 8 true true
  | .cvt d a fmt _ _ _ dst => { o := [d, a], price := 2, modifier := cvtMod fmt dst }
  | .pack8 d a fmt _ _ => { o := [d, a], price := 2, modifier := cvtMod fmt .b8 }
  | .unpack8 d a _ _ _ => infoF [d, a] 2 false false
  | .rcp d a _ => infoF [d, a] 8 false false
  | .rsq d a _ => infoF [d, a] 8 false false
  | .sqrt d a _ => infoF [d, a] 12 true false
  | .exp2 d a _ => infoF [d, a] 8 false false
  | .log2 d a _ => infoF [d, a] 8 false false
  | .sin d a _ => infoF [d, a] 8 false false
  | .cos d a _ => infoF [d, a] 8 false false
  | .tanh d a _ => infoF [d, a] 8 false false
  | .floatUniformOp d a s _ f =>
    { o := match f with
           | .fcmp _ => [a]
           | _ => [d, a]
      s := [s.toNat]
      price := floatUPrice f
      modifier := floatUMod f }
  | .shfl d a b _ _ => infoL [d, a, b] 2
  | .prmt d a b c _ => infoL [d, a, b, c] 2
  | .tlu d a b _ _ => infoL [d, a, b] 2
  | .vote _ a _ _ => infoL [a] 0
  | .voteBallot d a _ => infoL [d, a] 0
  | .laneMatch d a _ _ => infoL [d, a] 0
  | .elect _ _ => infoL [] 0
  | .sect _ _ => infoL [] 0
  | .sred d a _ o => infoL [d, a] (redPrice o)
  | .sscan d a _ o => infoL [d, a] (redPrice o)
  | .sscanEx d a _ o => infoL [d, a] (redPrice o)
  | .movin v o _ n => { o := (regRange o.toNat (n.toNat + 1)).map (BitVec.ofNat 4), v := regRange v.toNat (n.toNat + 1) }
  | .movout v o _ n => { o := (regRange o.toNat (n.toNat + 1)).map (BitVec.ofNat 4), v := regRange v.toNat (n.toNat + 1) }
  | .movs d s _ => { o := [d], s := [s.toNat] }
  | .movg a s _ => { o := [a], s := [s.toNat] }
  | .mfs d _ _ => { o := [d] }
  | .mts a _ _ => { o := [a] }
  | .plop _ _ _ _ _ => {}
  | .plopNot _ _ _ => {}
  | .plopSet _ a _ => { o := [a] }
  | .plopGet d _ _ => { o := [d] }
  | .bra _ _ => { place := .last }
  | .call _ _ => { place := .last }
  | .brx a b _ => { o := [a, b], place := .last }
  | .callx a b _ => { o := [a, b], o64 := [a], place := .last }
  | .ret _ => { place := .last }
  | .exit _ => { place := .last }
  | .trap a _ => { o := [a], place := .last }
  | .yield => { place := .last, conductor := false }
  | .sleepCyc d a => { o := [d, a], place := .sleeps }
  | .sleepFut d a => { o := [d, a], place := .sleeps }
  | .brk _ => { place := .last }
  | .lpad _ => { place := .first }
  | .ld m t => infoLd m t
  | .st m t => infoSt m t
  | .ldx m t => infoLd m t
  | .stx m t => infoSt m t
  | .pref off pair _ _ _ => { o := [off], s := pairRegs (2 * pair.toNat), price := 1, cache := true }
  | .atom d a s _ r k => infoAtom d a s r k
  | .red d a s _ r k => infoAtom d a s r k
  | .best d a s _ r w =>
    { o := a :: (regRange d.toNat (w.toNat + 1)).map (BitVec.ofNat 4), s := pairRegs s.toNat, sEven := s.toNat % 2 == 0, price := 2,
      cache := true, modifier := .atomic (ordered r) }
  | .ldq a s _ n base =>
    { o := [a], s := regRange s.toNat (n.toNat + 1) ++ pairRegs (2 * base.toNat), cache := true, long := some false, writesReg := true }
  | .fence _ => {}
  | .phase _ => {}
  | .bar d a b _ => { o := [d, a, b], place := .waits, conductor := false }
  | .barRed d a b c _ _ => { o := [d, a, b, c], place := .waits, conductor := false }
  | .barg d b _ => { o := [d, b], place := .waits, conductor := false }
  | .bargRed d b c _ _ => { o := [d, b, c], place := .waits, conductor := false }
  | .waitf d a b c _ _ => { o := [d, a, b, c], o64 := [a], place := .waits }
  | .cancel d a _ => { o := [d, a] }
  | .chkc d _ => { o := [d] }
  | .feed d _ => { o := [d], conductor := false }
  | .fpushU a b _ => { o := [a, b], group := false }
  | .fpushV a b c _ => { o := [a, b, c], group := false }
  | .agen d a b c _ => { o := [d, a, b, c], group := false }
  | .spawn v s _ =>
    { v := [v.toNat], s := pairRegs s.toNat, conductor := false, long := some false, writesReg := true }
  | .task v s _ =>
    { v := [v.toNat], s := pairRegs s.toNat, conductor := false, long := some false, writesReg := true }
  | .dalloc v s _ => { v := [v.toNat, v.toNat + 1], s := [s.toNat] }
  | .dfree v s => { v := [v.toNat, v.toNat + 1], s := [s.toNat] }
  | .regy d a _ => { o := [d, a], conductor := false }
  | .regc d a _ => { o := [d, a], place := .waits, conductor := false }
  | .mma m => infoMX m
  | .mmas m => infoMX m
  | .gmma m => infoMX m
  | .acz a => { acc := some a.toNat, conductor := false, long := some false, writesReg := true }
  | .acld v s a => { v := [v.toNat], s := pairRegs s.toNat, acc := some a.toNat, conductor := false, long := some false, writesReg := true }
  | .acst v s a => { v := [v.toNat], s := pairRegs s.toNat, acc := some a.toNat, conductor := false, long := some false }
  | .acrd v s a => { v := [v.toNat, v.toNat + 1], s := [s.toNat], acc := some a.toNat, conductor := false, long := some false, writesReg := true }
  | .acepi s a => { s := [s.toNat], acc := some a.toNat, conductor := false, long := some false }
  | .copy v s => { v := [v.toNat, v.toNat + 1], s := [s.toNat], price := 2, cache := true }
  | .gcopy v s => { v := [v.toNat, v.toNat + 1], s := [s.toNat], price := 2, cache := true }
  | .wpush _ s h => { v := [], s := [s.toNat], conductor := false, price := 2 }
  | .wflush s => { s := [s.toNat] }
  | .geo v s h => { v := h.toNat :: regRange v.toNat 8, s := [s.toNat], conductor := false, price := 2 }
  | .art s h => { v := [h.toNat], s := [s.toNat], price := 2 }
  | .fwait v _ r => { v := [v.toNat], s := slotRegs r, place := .waits }
  | .ftest v r => { v := [v.toNat], s := slotRegs r }
  | .fdrop r => { s := slotRegs r }
  | .lacq v s _ => { v := [v.toNat], s := [s.toNat], long := some false, writesReg := true }
  | .lacqFut v s => { v := [v.toNat], s := [s.toNat] }
  | .lrel s => { s := [s.toNat] }
  | .ltest v s => { v := [v.toNat], s := [s.toNat] }
  | .burst s => { s := [s.toNat] }
  | .eret _ => { place := .last, conductor := false, handler := true }
  | .hmfs d _ _ => { o := [d], conductor := false, handler := true }
  | .hmts a _ _ => { o := [a], conductor := false, handler := true }
  | _ => {}

/-! ## Checks before any effect (06 R143, 02 R57, R58) -/

/-- Whether only hint words stand before a word of the clause, at most one (01 R29). -/
def waitPlaced (cl : Clause) : Bool :=
  cl.next == 1 || (cl.next == 2 && (cl.hints.imm.isSome || cl.hints.cache.isSome || cl.hints.modifier.isSome))

/-- Where the word stands (06 R127, 01 R29). -/
def placedOk (cl : Clause) (p : Place3) : Bool :=
  match p with
  | .any => true
  | .last => cl.next == cl.len
  | .first => cl.next == 1
  | .waits => waitPlaced cl
  | .sleeps => waitPlaced cl && cl.next == cl.len

/-- Whether the clause stands at a body word (06 R122). -/
def inBody (cl : Clause) : Bool := cl.decoded && decide (1 ≤ cl.next) && decide (cl.next ≤ cl.len)

/-- A long-latency word that writes a register needs a flag (06 R128). -/
def flagChosen (cl : Clause) (i : Info) : Bool :=
  match i.long with
  | none => true
  | some b => !i.writesReg || (if b then cl.setB else cl.setA).isSome

/-- An o-field that names a 64-bit operand in a group clause: even, or 12 to 15 (07 R157). -/
def even64 (o : OField) : Bool := decide (12 ≤ o.toNat) || o.toNat % 2 == 0

/-- Words of form I, which take no hi (06 R137). -/
def immForm : Instr → Bool
  | .addi _ _ _ => true
  | .andi _ _ _ => true
  | .ori _ _ _ => true
  | .xori _ _ _ => true
  | .shli _ _ _ => true
  | .movhi _ _ => true
  | .cmpi _ _ _ _ => true
  | _ => false

/-- Privilege: major 0x3B runs only at trap-handler level (08 R218). -/
def privOk (x : Ctx) (f : Info) : Bool := !f.handler || x.g.handler.isSome

/-- Rows, columns or the like of a tile code (06 R132). -/
def tileDim (c : BitVec 2) : Nat := 8 * 2 ^ c.toNat

/-- Ke of a matrix word: its bytes of K by the element bytes of its formats (03 R68). -/
def keOf (m : MxFields) : Nat := (32 * (m.shape.k.toNat + 1)) / fmtBytes m.fmtA

/-- A scale field of a matrix hint: present, register and byte select (06 R139). -/
def scaleField (h : Hints) (isA : Bool) : Option (Nat × Nat) :=
  match h.modifier with
  | none => none
  | some p =>
    if isA then (if p.extractLsb' 23 1 = 1 then some ((p.extractLsb' 13 8).toNat, (p.extractLsb' 21 2).toNat) else none)
    else if p.extractLsb' 12 1 = 1 then some ((p.extractLsb' 2 8).toNat, (p.extractLsb' 10 2).toNat) else none

/-- The registers of one operand's scales: the second only beyond 32 rows or columns (03 R69). -/
def scaleRegs (h : Hints) (isA : Bool) (dim : Nat) : List Nat :=
  match scaleField h isA with
  | none => []
  | some (v, _) => if 32 < dim then [v, v + 1] else [v]

/-- A named scale belongs to an 8-bit floating operand and its bytes lie in the register (03 R69). -/
def scaleOk (h : Hints) (isA : Bool) (fmt : BitVec 5) (ke : Nat) : Bool :=
  match scaleField h isA with
  | none => true
  | some (_, b) => decide (fmt.toNat ≤ 0x1B) && decide (b + (ke + 31) / 32 ≤ 4)

/-- The fields of a matrix word. -/
def mxOf : Instr → Option MxFields
  | .mma m => some m
  | .mmas m => some m
  | .gmma m => some m
  | _ => none

/-- The scale registers a matrix word reads. -/
def mxRegs (h : Hints) (i : Instr) : List Nat :=
  match mxOf i with
  | none => []
  | some m => scaleRegs h true (tileDim m.shape.m) ++ scaleRegs h false (tileDim m.shape.n)

/-- Whether a matrix word takes the scale fields of its hint (06 R139, 03 R69). -/
def mxOk (h : Hints) (i : Instr) : Bool :=
  match mxOf i with
  | none => true
  | some m => scaleOk h true m.fmtA (keOf m) && scaleOk h false m.fmtB (keOf m)

/-- The ILLEGAL causes of a word in its clause but for a hint's acceptance and privilege: form, kind of clause, 64-bit codes, a hi
without its hint, k indices beyond 63, pair-mode widths (06 R129-R131, R142, 07 R157, 13 R301). -/
def legalIn (x : Ctx) (i : Instr) (f : Info) : Bool :=
  wellFormed i && !(immForm i && f.o.any (· == 13)) &&
  (if x.cond then f.conductor && f.v.all (fun v => decide (v < 64)) else f.group && f.o64.all even64 && f.sEven &&
    (match f.d64 with
     | none => true
     | some d => even64 d)) &&
  (!(f.o.any (· == 13)) || x.cl.hints.imm.isSome) &&
  !(x.t.pairMode && (match i with
    | .sect _ _ => true
    | .mts _ n _ => n == 0x08
    | _ => false))

/-- Accumulators declared, and whether one is within them (02 R57). -/
def accOk (x : Ctx) (f : Info) : Bool :=
  match f.acc with
  | none => true
  | some a => decide (a < x.t.kernel.acc)

/-- Main registers within the group's share (02 R57). -/
def shareOk (x : Ctx) (vs : List Nat) : Bool := x.cond || vs.all (fun v => decide (v < 8 * x.g.share))

/-! ### ILLEGAL operand values (02 R58) -/

/-- The slot number and the layer a uniform register names (09 R255), or nothing when a bit outside the two fields is not zero. -/
def layerName (w : W32) : Option (Nat × Nat) :=
  let n := w.toNat
  if bitsAt n 15 10 = 0 ∧ bitsAt n 31 20 = 0 then some (bitsAt n 19 16, bitsAt n 9 0) else none

/-- The slot a word names, or nothing when bits above [3:0] of its register are not zero (09 R252). -/
def slotOf (x : Ctx) (r : SlotRef) : Option Nat :=
  match r with
  | .imm i => some i.toNat
  | .reg s _ => if (x.uni s).toNat < 16 then some (x.uni s).toNat else none

/-- Whether a slot is free or dropped: the word that names it traps ILLEGAL. -/
def slotGone (f : FutSlot) : Bool := f.state == .free || f.dropped

/-- Whether a slot reference names no slot in use. -/
def slotBad (x : Ctx) (r : SlotRef) : Bool :=
  match slotOf x r with
  | none => true
  | some i => slotGone (slotAt x.g i)

/-- Whether a word that also names registers finds an operand value that its entry calls ILLEGAL: that comes before OPERAND_LIMIT
(02 R58, 09 R221). A wpush checks its own; a blocking wait's values come later (01 R30). -/
def valueIllegal (x : Ctx) : Instr → Bool
  | .acrd _ q _ => decide (64 ≤ (x.uni q).toNat)
  | .ftest _ r => slotBad x r
  | .lacq _ q _ => (layerName (x.uni q)).isNone
  | .lacqFut _ q => (layerName (x.uni q)).isNone
  | .ltest _ q => (layerName (x.uni q)).isNone
  | _ => false

/-- The first cause a word meets before its own entry's checks, with its subcode. Of the two limits the lower subcode comes first, as
02 R58 orders them; the listing of 09 R228 names the accumulator first (log 46). -/
def wordCheck (x : Ctx) (i : Instr) : Option (Cause × Nat) :=
  let f := infoOf i
  if !inBody x.cl || !placedOk x.cl f.place || !flagChosen x.cl f then some (.clauseForm, 0)
  else if !legalIn x i f || !privOk x f || valueIllegal x i then some (.illegal, 0)
  else if !shareOk x (f.v ++ mxRegs x.cl.hints i) then some (.operandLimit, 1)
  else if !accOk x f then some (.operandLimit, 2)
  else none

/-- A precise trap at the issuing word (06 R126). -/
def trapWord (s : State) (x : Ctx) (c : Cause) (sub : Nat) (lanes : W32) (addr : W64) : State :=
  trapDeliver s x.u (mkRec s x.u x.pc x.cl.head c sub lanes addr)

/-- ADDR of a word's own cause: for CLAUSE_FORM the word found (17 R378), else 0. -/
def causeAddr (i : Instr) (c : Cause) : W64 :=
  if c = .clauseForm then ((encode i).getD 0).setWidth 64 else 0

/-- A word: nothing without an issuing unit, the trap of its first cause, or its effect. -/
def word (i : Instr) (s : State) (effect : Ctx → State) : Out :=
  match issuing s with
  | none => .next s
  | some x =>
    match wordCheck x i with
    | some (c, sub) => .next (trapWord s x c sub x.cl.mask (causeAddr i c))
    | none => .next (effect x)

/-! ## Shapes of short-latency words -/

/-- Each participant writes a 32-bit result to d and to lt, and sets its flags (07 R152, 03 R66). -/
def aluF (i : Instr) (g : Guard) (d : OField) (f : Ctx → Nat → W32 × BitVec 5) (s : State) : Out :=
  word i s (fun x =>
    setUnit s x.u (advance ((x.parts g).foldl (fun gr l =>
      orFlags (writeO x.cond gr l d (f x l).1 (f x l).1) l (f x l).2) x.g)))

/-- Each participant writes a 32-bit result to d and to lt. -/
def alu (i : Instr) (g : Guard) (d : OField) (f : Ctx → Nat → W32) (s : State) : Out :=
  word i s (fun x =>
    setUnit s x.u (advance ((x.parts g).foldl (fun gr l => writeO x.cond gr l d (f x l) (f x l)) x.g)))

/-- Each participant writes a 64-bit result. -/
def alu64 (i : Instr) (g : Guard) (d : OField) (f : Ctx → Nat → W64) (s : State) : Out :=
  word i s (fun x =>
    setUnit s x.u (advance ((x.parts g).foldl (fun gr l => write64 x.cond gr l d (f x l)) x.g)))

/-- Each participant writes a predicate, and sets its flags. -/
def aluP (i : Instr) (g : Guard) (p : PIdx) (f : Ctx → Nat → Bool × BitVec 5) (s : State) : Out :=
  word i s (fun x =>
    setUnit s x.u (advance ((x.parts g).foldl (fun gr l => orFlags (writeP gr l p (f x l).1) l (f x l).2) x.g)))

end Sys2Proof.Machine
end

