-- ==== Sys2Proof/Machine/Access.lean ====
section
/-! DEFINITION. The accesses of one word: the checks of every lane in the order of 17 R380, page faults (17 R366,
R372-R375), the operand log, and the waits that order accesses of one group (05 R99, R100, R110). -/

set_option linter.unusedVariables false

namespace Sys2Proof.Machine

/-! ## Checks of one lane -/

/-- What one lane's access meets: a cause with its rank in 17 R380 and subcode, a page fault, or its place. -/
inductive LaneRes where
  | bad (rank : Nat) (c : Cause) (sub : Nat) (addr : W64)
  | fault (va level : Nat) (h : Bool)
  | ok (loc : Loc) (va : Nat)
deriving DecidableEq, Repr

/-- Rank and cause of a violation of the walk: malformed before permission (17 R380). -/
def walkBad (sub : Nat) (addr : W64) : LaneRes := .bad (if sub = 4 then 4 else 5) .accessViolation sub addr

/-- A translated global place: the peer aperture takes no access but a copy's (19 R400), and a poisoned line cannot be
read (04 R92, 17 R371). -/
def globalLane (s : State) (c ctx : Nat) (kind : AccKind) (va : Nat) (ea : W64) : LaneRes :=
  match peek s (some c) ctx va kind with
  | .violation n => walkBad n ea
  | .fault lv h => .fault va lv h
  | .ok pa =>
    if inPeer pa then .bad 5 .accessViolation 1 ea
    else if kind != .write && hasNat s.badLines (lineOf pa) then
      .bad 6 .eccUncorrectable 0 (BitVec.ofNat 64 (va / 64 * 64))
    else .ok (.phys pa) va

/-- The checks of one lane: SPAD_BOUNDS (02 R58), then the order of 17 R380. -/
def laneRes (s : State) (u : UnitId) (kind : AccKind) (space : Space) (size align lane : Nat) (ea : W64) : LaneRes :=
  let t := teamAt s u.team
  let mis := ea.toNat % align != 0
  match resolve s u lane space ea size with
  | .error .spadBounds => .bad 0 .spadBounds 0 ea
  | .error (.violation n) => if mis then .bad 1 .misaligned 0 ea else .bad 2 .accessViolation n ea
  | .error .gone => if mis then .bad 1 .misaligned 0 ea else .bad 3 .remoteGone 0 ea
  | .ok p =>
    if mis then .bad 1 .misaligned 0 ea
    else
      match p with
      | .spad tm off => .ok (.spad tm off) 0
      | .priv k l off => .ok (.priv k l off) 0
      | .glob va => globalLane s t.core t.ctx kind va ea

/-! ## All participants -/

/-- A lane that met a page fault. -/
structure Faulted where
  lane : Nat
  va : Nat
  level : Nat
  h : Bool
deriving DecidableEq, Repr

/-- What the participants of a word meet: one trap, or the lanes that translated and those that met page faults. -/
inductive Access where
  | trap (s : State) (c : Cause) (sub : Nat) (mask : W32) (addr : W64)
  | go (s : State) (ok : List LaneAcc) (faults : List Faulted)

/-- The lowest rank of the causes met. -/
def worstRank (rs : List (Nat × LaneRes)) : Option Nat :=
  rs.foldl (fun b r =>
    match r.2 with
    | .bad k _ _ _ =>
      match b with
      | none => some k
      | some m => some (Nat.min k m)
    | _ => b) none

/-- The lanes that meet a rank. -/
def atRank (rs : List (Nat × LaneRes)) (k : Nat) : List (Nat × LaneRes) :=
  rs.filter (fun r =>
    match r.2 with
    | .bad j _ _ _ => j == k
    | _ => false)

/-- The trap of the first rank: the lowest lane's subcode and address, every lane that meets it (02 R58). -/
def rankTrap (s : State) (rs : List (Nat × LaneRes)) : Access :=
  match rs.head? with
  | some (_, .bad _ c sub a) => .trap s c sub (laneMask (rs.map (·.1))) a
  | _ => .trap s .illegal 0 0 0

/-- The lanes whose walk reaches its leaf; each sets A (and D) there, whatever becomes of the word (17 R364). -/
def passLanes (core ctx : Nat) (kind : AccKind) (s : State) (rs : List (Nat × LaneRes)) : State :=
  rs.foldl (fun s r =>
    match r.2 with
    | .ok (.phys _) va => (translate s (some core) ctx va kind).2
    | .bad 6 _ _ a => (translate s (some core) ctx a.toNat kind).2
    | _ => s) s

/-- The accesses of a word: no lane is performed when any meets a cause, and none is translated when that is found at its resolution
(17 R380). -/
def access (s : State) (u : UnitId) (kind : AccKind) (space : Space) (size align : Nat) (lanes : List (Nat × W64)) : Access :=
  let rs := lanes.map (fun l => (l.1, laneRes s u kind space size align l.1 l.2))
  match worstRank rs with
  | some k => rankTrap (if k < 4 then s else passLanes (coreOf s u) (teamAt s u.team).ctx kind s rs) (atRank rs k)
  | none =>
    .go (passLanes (coreOf s u) (teamAt s u.team).ctx kind s rs)
      (rs.filterMap (fun r =>
        match r.2 with
        | .ok loc va => some { lane := r.1, loc := loc, va := va }
        | _ => none))
      (rs.filterMap (fun r =>
        match r.2 with
        | .fault va lv h => some { lane := r.1, va := va, level := lv, h := h }
        | _ => none))

/-! ## Page faults -/

/-- The distinct pages of faulted lanes, each with its lanes. -/
def faultPages (fs : List Faulted) : List (List Faulted) :=
  (dedupNat (fs.map (fun f => pageOf f.va))).map (fun p => fs.filter (fun f => pageOf f.va == p))

/-- The agent of a unit's fault record (17 R372). -/
def agentOf (u : UnitId) : Nat := if isCond u then agentConductor else agentGroup

/-- One record for each page a word faults on, naming its lowest faulting lane (17 R372). -/
def writeFaults (s : State) (u : UnitId) (kind : AccKind) (log : Nat) (fs : List Faulted) : State :=
  (faultPages fs).foldl (fun s l =>
    match l.head? with
    | some f => writeFault s (unitFault s u (agentOf u) kind f.va f.level f.h log)
    | none => s) s

/-- Whether the fault buffer takes the records of a word. -/
def faultsFit (s : State) (fs : List Faulted) : Bool :=
  decide (s.faultBuf.length + (faultPages fs).length ≤ Config.faultRecords)

/-- A word held until the REPLAY of its page; while the buffer is full it is held without a record (17 R366, R372). -/
def holdReplay (s : State) (u : UnitId) (kind : AccKind) (fs : List Faulted) : State :=
  if faultsFit s fs then
    modUnit (writeFaults s u kind 0xFF fs) u (fun g =>
      { g with held := some (.replay ((faultPages fs).filterMap (fun l =>
          l.head?.map (fun f => (pageOf f.va, laneMask (l.map (·.lane)), f.va))))) })
  else s

/-! ## Order of a group's accesses -/

/-- Entries of the operand log that belong to a unit (17 R374). -/
def loggedOf (s : State) (u : UnitId) : List LogEntry :=
  (coreAt s (coreOf s u)).log.filter (fun e => decide (e.unit = u))

/-- Whether every earlier access of a unit has been performed and every logged word replayed (05 R103, 17 R375). -/
def quiet (s : State) (u : UnitId) : Bool :=
  let g := unitAt s u
  decide (g.loads = []) && decide (g.stores = []) && decide (loggedOf s u = [])

/-- Pages a unit has in the operand log. -/
def loggedPages (s : State) (u : UnitId) : List Nat :=
  (loggedOf s u).flatMap (fun e => e.lanes.map (fun a => pageOf a.va))

/-- Whether a memory word touches a page its group has in the log; it then waits for the replay (17 R375). -/
def touchesLogged (s : State) (u : UnitId) (space : Space) (size : Nat) (lanes : List (Nat × W64)) : Bool :=
  let ps := loggedPages s u
  decide (ps ≠ []) && lanes.any (fun l =>
    match resolve s u l.1 space l.2 size with
    | .ok (.glob va) => hasNat ps (pageOf va)
    | _ => false)

/-- Whether two ranges of places overlap. -/
def overlaps (a : Loc) (n : Nat) (b : Loc) (m : Nat) : Bool :=
  match a, b with
  | .phys x, .phys y => decide (x < y + m) && decide (y < x + n)
  | .spad t x, .spad t' y => t == t' && decide (x < y + m) && decide (y < x + n)
  | .priv k l x, .priv k' l' y => k == k' && l == l' && decide (x < y + m) && decide (y < x + n)
  | _, _ => false

/-- Whether two accesses of a group keep their order: they meet in a byte, or are one thread's accesses to one member's scratchpad
(05 R100, R101). -/
def orderKept (a : LaneAcc) (n : Nat) (b : LaneAcc) (m : Nat) : Bool :=
  overlaps a.loc n b.loc m ||
  (a.lane == b.lane &&
   (match a.loc, b.loc with
    | .spad t _, .spad t' _ => t == t'
    | _, _ => false))

/-- Bytes of an atomic's location (08 R199). -/
def atomBytes (k : AtomOp) : Nat := if k.wide then 8 else 4

/-- Bytes that one lane of an undrained store writes. -/
def PendingStore.size (p : PendingStore) (a : LaneAcc) : Nat :=
  match p.red with
  | some k => atomBytes k
  | none => a.data.length

/-- Whether a lane's access comes after one of a load in order. -/
def afterLoad (p : PendingLoad) (a : LaneAcc) (n : Nat) : Bool := p.lanes.any (fun b => orderKept b p.bytes a n)

/-- Whether a lane's access comes after one of an undrained store in order; every access comes after an ordered red (05 R100), and the
places of a matrix operation's stores to come are not known yet (09 R236). -/
def afterStore (p : PendingStore) (a : LaneAcc) (n : Nat) : Bool := p.op.isSome || ordered p.ord || p.lanes.any (fun b => orderKept b (p.size b) a n)

/-- Whether a unit has an earlier load or undrained store that one lane's access must follow (05 R100, R101). -/
def earlierAt (g : Grp) (lane : Nat) (loc : Loc) (n : Nat) : Bool :=
  let a : LaneAcc := { lane := lane, loc := loc }
  g.loads.any (fun p => afterLoad p a n) || g.stores.any (fun p => afterStore p a n)

/-- The value of a range of places as a core reads it: its view of global memory, or the one copy of a scratchpad or
private memory (05 R101, R102). -/
def readLoc (s : State) (core : Nat) (loc : Loc) (n : Nat) : List Byte :=
  match loc with
  | .phys a => viewBytes s core a n
  | _ => locBytes s loc n

/-- Whether an address lies in a layer that a team has acquired. -/
def acquiredAt (s : State) (t : Team) (va : Nat) : Bool :=
  decide (t.layersRead ≠ []) &&
  (ctxAt s t.ctx).models.any (fun m => m.2.layers.any (fun l =>
    hasNat t.layersRead (layerKey t.ctx m.1 l.1) && decide (l.2.addr ≤ va) && decide (va < l.2.addr + l.2.bytes)))

/-- The value of a place as a unit's load reads it: the weights of a layer its team has acquired are read as the residency engine last
loaded them (05 R119). -/
def readUnit (s : State) (u : UnitId) (a : LaneAcc) (n : Nat) : List Byte :=
  if acquiredAt s (teamAt s u.team) a.va then locBytes s a.loc n else readLoc s (coreOf s u) a.loc n

/-- The global words of a range for which runs of a core wait. -/
def waitedWords (s : State) (core a n : Nat) : List Nat :=
  s.teams.flatMap (fun t =>
    if t.2.core = core then
      t.2.units.flatMap (fun g => g.2.blocked.filterMap (fun b =>
        match b.wait with
        | .waitf (.phys w) _ _ _ _ _ => if !b.ended && decide (w < a + n) && decide (a < w + 4) then some w else none
        | _ => none))
    else [])

/-- A global store drains; a word for which a run of the core waits is published, since the wait reads it as an atomic does, and tests it
again (05 R108, 08 R207). -/
def drainHome (s : State) (core a : Nat) (bs : List Byte) : State :=
  (waitedWords s core a bs.length).foldl (fun s w => publishLoc s core (.phys w) 4) (drainGlobal s core (writesOf a bs))

/-- A write to a scratchpad or private memory, or a drain of a global store (05 R99, R101); a scratchpad whose team has left takes
nothing. -/
def drainTo (s : State) (core : Nat) (loc : Loc) (bs : List Byte) : State :=
  match loc with
  | .phys a => drainHome s core a bs
  | .spad t o => if thas s.teams t then testWaits (modTeam s t (fun tm => { tm with scratch := memWriteN tm.scratch o bs })) else s
  | .priv k l o =>
    testWaits (modUnit s ⟨k / 64, k % 64⟩ (fun g => modThr g l (fun th => { th with priv := memWriteN th.priv o bs })))

/-- Whether some lane's line is owned by an engine operation: the access waits through a recall (05 R115). -/
def recalled (s : State) (u : UnitId) (ls : List LaneAcc) : Bool := ls.any (fun a => ownedAt s (teamAt s u.team).ctx a.loc a.va)

/-! ## Reads that hold the group: tlu, brx, ldq (17 R366) -/

/-- Reads of a word that holds its group until every participant's translation is decided: the trap, the wait for a
REPLAY, for a recall or for the unit's earlier accesses of the same bytes, or the bytes of each lane. -/
inductive HeldRead where
  | stop (s : State)
  | vals (s : State) (vs : TMap (List Byte))

/-- The reads of such a word. -/
def heldRead (s : State) (x : Ctx) (space : Space) (size align : Nat) (lanes : List (Nat × W64)) : HeldRead :=
  if touchesLogged s x.u space size lanes then .stop s
  else
    match access s x.u .read space size align lanes with
    | .trap s1 c sub m a => .stop (trapWord s1 x c sub m a)
    | .go s1 ok [] =>
      if recalled s1 x.u ok || ok.any (fun a => earlierAt x.g a.lane a.loc size) then .stop s1
      else .vals s1 (ok.map (fun a => (a.lane, readUnit s1 x.u a size)))
    | .go s1 ok fs => .stop (holdReplay s1 x.u .read fs)

end Sys2Proof.Machine
end

