-- ==== Sys2Proof/Machine/Fetch.lean ====
section
/-! DEFINITION. Instruction fetch (06 R121, 17 R365, R376) and the checks of a clause as a whole (06 R125) and of the
hints before a word (06 R136-R139). -/

set_option linter.unusedVariables false

namespace Sys2Proof.Machine

/-- One fetched word, or why there is none. -/
inductive Fetch where
  | word (w : W32) (s : State)
  | fault (va level : Nat) (h : Bool)
  | bad (c : Cause) (sub : Nat) (addr : W64)

/-- A word fetched through the core's translation from a page mapped executable; a 48-bit address above the global range
is no address of code (04 R80, 06 R121). -/
def fetchAt (s : State) (u : UnitId) (va : Nat) : Fetch :=
  let t := teamAt s u.team
  let a : W64 := BitVec.ofNat 64 va
  if Config.globalLimit ≤ va then .bad .accessViolation 1 a
  else
    match peek s (some t.core) t.ctx va .execute with
    | .violation n => .bad .accessViolation n a
    | .fault lv h => .fault va lv h
    | .ok pa =>
      if inPeer pa then .bad .accessViolation 1 a
      else if hasNat s.badLines (lineOf pa) then .bad .eccUncorrectable 0 (BitVec.ofNat 64 (va / 64 * 64))
      else .word (bytesToW32 (memReadN s.mem pa 4)) (translate s (some t.core) t.ctx va .execute).2

/-- The word that stands at an address, 0 where none can be fetched. -/
def wordAt (s : State) (u : UnitId) (va : Nat) : W32 :=
  match fetchAt s u va with
  | .word w _ => w
  | _ => 0

/-- A fetch that faults writes a record (AGENT 7) and holds the unit at the word; a full buffer holds it without one. -/
def fetchFault (s : State) (u : UnitId) (va level : Nat) (h : Bool) : State :=
  if faultRoom s then
    modUnit (writeFault s (unitFault s u agentFetch .execute va level h 0xFF)) u (fun g =>
      { g with held := some (.fetch (pageOf va) va) })
  else s

/-- Consecutive words of a clause fetched in address order, or the state a fault or a violation leaves. -/
def fetchMany (u : UnitId) (head : Nat) (mask : W32) : Nat → Nat → State → List W32 → Except State (List W32 × State)
  | 0, _, s, ws => .ok (ws, s)
  | n + 1, va, s, ws =>
    match fetchAt s u va with
    | .word w s' => fetchMany u head mask n (va + 4) s' (ws ++ [w])
    | .fault v lv h => .error (fetchFault s u v lv h)
    | .bad c sub a => .error (trapDeliver s u (mkRec s u va head c sub mask a))

/-! ## Clause checks (06 R125) -/

/-- The major of a word as a number. -/
def majorNat (w : W32) : Nat := (majorOf w).toNat

/-- Whether a word is a header or a trailer. -/
def isStructure (w : W32) : Bool := majorNat w == 0x3F || majorNat w == 0x3D

/-- The trailer of a raw word is legal but for COUNT 3 (06 R124, R125). -/
def trailerLegal (w : W32) : Bool :=
  let n := w.toNat
  trailerOk (BitVec.ofNat 8 (bitsAt n 25 18)) (BitVec.ofNat 4 (bitsAt n 17 14)) (BitVec.ofNat 8 (bitsAt n 13 6))
    (BitVec.ofNat 4 (bitsAt n 5 2)) (BitVec.ofNat 2 (bitsAt n 1 0))

/-- The first cause of a clause with its cause, the index of the word named and the word found: index 0 is the header. -/
def clauseCause (header : W32) (body : List W32) (trailer : W32) : Option (Cause × Nat × W32) :=
  let n := header.toNat
  let len := bitsAt n 5 1 + 1
  let sa := bitsAt n 13 10
  let sb := bitsAt n 9 6
  let badFlag (f : Nat) : Bool := decide (12 ≤ f) && decide (f ≤ 14)
  if 24 < len ∨ badFlag sa ∨ badFlag sb then some (.clauseForm, 0, header)
  else if majorNat trailer ≠ 0x3D then some (.clauseForm, len + 1, trailer)
  else
    match body.findIdx? isStructure with
    | some i => some (.clauseForm, i + 1, body.getD i 0)
    | none =>
      if bitsAt trailer.toNat 1 0 = 3 then some (.clauseForm, len + 1, trailer)
      else if bitsAt n 0 0 ≠ 0 then some (.illegal, 0, header)
      else if !trailerLegal trailer then some (.illegal, len + 1, trailer)
      else none

/-! ## Hints (06 R136-R139, 07 R165, 08 R201) -/

/-- Acceptance of an arithmetic kind-10 payload. -/
def arithOk (ro sat : Bool) (p : BitVec 24) : Bool :=
  p.extractLsb' 0 20 == 0 &&
  (if p.extractLsb' 23 1 == 1 then ro else p.extractLsb' 21 2 == 0) &&
  (sat || p.extractLsb' 20 1 == 0)

/-- Acceptance of a matrix kind-10 payload. -/
def matrixOk (p : BitVec 24) : Bool :=
  p.extractLsb' 0 2 == 0 && (p.extractLsb' 23 1 == 1 || p.extractLsb' 13 10 == 0) &&
  (p.extractLsb' 12 1 == 1 || p.extractLsb' 2 10 == 0)

/-- Acceptance of a memory kind-10 payload: a scope needs an ordering (08 R201). -/
def scopeOk (ordered : Bool) (p : BitVec 24) : Bool :=
  ordered && p.extractLsb' 0 21 == 0 && decide ((p.extractLsb' 21 3).toNat ≤ 4)

/-- Whether a word accepts a hint of a kind with a payload; a scale field that a matrix word refuses under 03 R69 traps at the hint, as
06 R139 says of every field a word does not accept. -/
def hintOk (i : Instr) (kind : Nat) (p : BitVec 24) : Bool :=
  let f := infoOf i
  match kind with
  | 0 => f.o.any (· == 13) && !immForm i
  | 1 => f.cache && cacheHintOk p
  | 2 =>
    match f.modifier with
    | .none => false
    | .arith ro sat => arithOk ro sat p
    | .matrix => matrixOk p && mxOk { modifier := some p } i
    | .atomic o => scopeOk o p
  | _ => false

/-! ## Words that no row allocates (06 R127, R128, R142, R143) -/

/-- Where a word of a major and function may stand, whatever its operand fields hold (06 R127, 01 R29, 08 R219). -/
def rawPlace (w : W32) : Place3 :=
  let fnA : BitVec 6 := w.extractLsb' 0 6
  match majorNat w with
  | 0x1C => .last
  | 0x1D => .last
  | 0x1E => if fnA = 0x06 ∨ fnA = 0x07 then .sleeps else .last
  | 0x1F => .first
  | 0x2A =>
    let low : BitVec 3 := fnA.extractLsb' 0 3
    if fnA = 0x00 ∨ fnA = 0x08 ∨ (fnA.extractLsb' 4 2 = 0 ∧ (BarOp.ofCode low).isSome) ∨
       (fnA.extractLsb' 4 2 = 1 ∧ (Cond.ofCode (fnA.extractLsb' 0 4)).isSome) then .waits else .any
  | 0x2D => if fnA = 0x01 then .waits else .any
  | 0x39 => if w.extractLsb' 8 4 = 0 then .waits else .any
  | 0x3B => if fnA.extractLsb' 4 2 = 0 then .last else .any
  | _ => .any

/-- The flag select of a word whose major and function are those of a long-latency word that writes a register (06 R128). -/
def rawLong (w : W32) : Option Bool :=
  let fnE := bitsAt w.toNat 11 8
  let sel := w.getLsbD 0
  match majorNat w with
  | 0x22 => some sel
  | 0x24 => some sel
  | 0x28 => some false
  | 0x2C => if fnE < 4 then some false else none
  | 0x2E => some sel
  | 0x2F => some sel
  | 0x30 => some sel
  | 0x31 => if fnE = 0 ∨ fnE = 1 ∨ fnE = 3 then some false else none
  | 0x3A => if fnE = 0 ∧ sel = false then some false else none
  | _ => none

/-- Whether a word that decodes to no row meets a CLAUSE_FORM of its major and function, which comes before its ILLEGAL. -/
def formBad (cl : Clause) (w : W32) : Bool :=
  isStructure w || !inBody cl || !placedOk cl (rawPlace w) ||
  !flagChosen cl { long := rawLong w, writesReg := true }

/-- The kind and payload of a hint word. -/
def hintParts (w : W32) : Nat × BitVec 24 := (bitsAt w.toNat 25 24, BitVec.ofNat 24 w.toNat)

/-- The hints a clause holds with one more. -/
def addHint (h : Hints) (kind : Nat) (p : BitVec 24) : Hints :=
  match kind with
  | 0 => { h with imm := some p }
  | 1 => { h with cache := some p }
  | _ => { h with modifier := some p }

/-- The structural cause of a run of hints: the index of the hint that traps. -/
def hintShape (hs : List (Nat × BitVec 24)) (ends : Bool) : Option Nat :=
  match hs.findIdx? (fun h => h.1 == 3) with
  | some i => some i
  | none =>
    if ends then some (hs.length - 1)
    else if 2 < hs.length then some 2
    else
      match hs with
      | [a, b] => if a.1 = b.1 then some 1 else if a.1 = 0 then some 0 else none
      | _ => none

/-- The index, from the first hint on, of the word that traps ILLEGAL before the unit issues, if any (06 R136): hs the
hints, next the word after them. -/
def hintCause (x : Ctx) (hs : List (Nat × BitVec 24)) (next : Option W32) : Option Nat :=
  let ends := match next with
    | none => true
    | some w => majorNat w == 0x1F
  match hintShape hs ends with
  | some i => some i
  | none =>
    match next with
    | none => none
    | some w =>
      let hints := hs.foldl (fun h p => addHint h p.1 p.2) {}
      let x' : Ctx := { x with cl := { x.cl with next := x.cl.next + hs.length, hints := hints } }
      match decodeWord w with
      | .error _ => if formBad x'.cl w then none else some hs.length
      | .ok i =>
        let f := infoOf i
        if !placedOk x'.cl f.place || !flagChosen x'.cl f then none
        else if !legalIn x' i f then some hs.length
        else hs.findIdx? (fun h => !hintOk i h.1 h.2)

/-- The words from a clause's next one to its last body word. -/
def bodyRest (s : State) (x : Ctx) : List W32 :=
  (List.range (x.cl.len + 1 - x.cl.next)).map (fun i => wordAt s x.u (x.pc + 4 * i))

end Sys2Proof.Machine
end

