-- ==== Sys2Proof/Machine/Clause.lean ====
section
/-! DEFINITION. Structure words, hints and landing pads (06 R122-R128, R136-R140), the trailer's commits and the transfers
that follow them (06 R124, 08 R187-R189). -/

set_option linter.unusedVariables false

namespace Sys2Proof.Machine

/-! ## Header -/

/-- A flag code of a header: 15 is none (06 R123). -/
def flagOfCode (c : BitVec 4) : Option Nat := if c = 15 then none else some c.toNat

/-- The cancel entry of a kernel as an address. -/
def cancelEntry (k : KernelDesc) : Option Nat := k.cancel.map (k.codeBase + ·)

/-- A header evaluated: the clause as a whole is checked, then the run's operand files and latches read zero, SECT is taken
(01 R11, R20, 02 R41), and a clause at the cancel entry counts for 01 R37. -/
def beginClause (s : State) (x : Ctx) (header : W32) : State :=
  let len := bitsAt header.toNat 5 1 + 1
  match fetchMany x.u x.cl.head x.cl.mask (Nat.min len 24 + 1) (x.cl.head + 4) s [] with
  | .error s' =>
    match clauseCause header [] 0xF4000000 with
    | some (.clauseForm, 0, w) => trapDeliver s x.u (mkRec s x.u x.cl.head x.cl.head .clauseForm 0 x.cl.mask (w.setWidth 64))
    | _ => s'
  | .ok (ws, s1) =>
    match clauseCause header (ws.take len) (ws.getD len 0) with
    | some (c, i, w) =>
      trapDeliver s x.u (mkRec s x.u (x.cl.head + 4 * i) x.cl.head c 0 x.cl.mask (if c = .clauseForm then w.setWidth 64 else 0))
    | none =>
      let n := header.toNat
      let atCancel := cancelEntry x.t.kernel == some x.cl.head && domainSet s x.u
      let s2 := if x.t.upsets = [] then s1 else modTeam s1 x.u.team (fun t =>
        { t with upsets := t.upsets.filter (fun a => a.unit != x.u.idx || !x.cl.mask.getLsbD a.lane) })
      let g1 := modThrs x.g x.lanes (fun _ t =>
        { t with lt := 0, t := [], cych := none, cancelSeen := t.cancelSeen || atCancel })
      setUnit s2 x.u { g1 with
        clause := some { x.cl with
          decoded := true, len := len, next := 1, wait := BitVec.ofNat 12 (bitsAt n 25 14),
          setA := flagOfCode (BitVec.ofNat 4 (bitsAt n 13 10)), setB := flagOfCode (BitVec.ofNat 4 (bitsAt n 9 6)),
          sect := x.t.sect, hints := {}, ctl := .fall, waited := false } }

/-- CLAUSE_FORM at a word that stands where it may not (06 R125). -/
def misplaced (s : State) (x : Ctx) (w : W32) : State := trapWord s x .clauseForm 0 x.cl.mask (w.setWidth 64)

/-- .clause: at a clause's head it is evaluated; elsewhere it traps CLAUSE_FORM (06 R125). -/
def execClauseHeader (wait : BitVec 12) (setA setB : BitVec 4) (len : BitVec 5) (s : State) : Out :=
  match issuing s with
  | none => .next s
  | some x =>
    let w := (encode (.clauseHeader wait setA setB len)).getD 0
    if x.cl.decoded then .next (misplaced s x w) else .next (beginClause s x w)

/-! ## Hints and landing pads -/

/-- A hint word: the unit of hints and word is checked before its first hint issues (06 R136). -/
def hintWord (i : Instr) (kind : Nat) (p : BitVec 24) (s : State) : Out :=
  word i s (fun x =>
    let first := x.cl.hints.imm.isNone && x.cl.hints.cache.isNone && x.cl.hints.modifier.isNone
    let rest := (bodyRest s x).drop 1
    let more := (rest.takeWhile (fun w => majorNat w == 0x3C)).map hintParts
    let hs := (kind, p) :: more
    let bad := if first then hintCause x hs (rest.drop more.length).head? else none
    match bad with
    | some j => trapDeliver s x.u (mkRec s x.u (x.pc + 4 * j) x.cl.head .illegal 0 x.cl.mask 0)
    | none => setUnit s x.u { x.g with clause := some { x.cl with next := x.cl.next + 1, hints := addHint x.cl.hints kind p } })

/-- A kind-00 hint: the hi immediate (06 R137). -/
def execHintImmediate (p : BitVec 24) (s : State) : Out := hintWord (.hintImmediate p) 0 p s

/-- A kind-01 hint: timing and cache occupancy only (06 R138). -/
def execHintCache (p : BitVec 24) (s : State) : Out := hintWord (.hintCache p) 1 p s

/-- A kind-10 hint: modifiers (06 R139). -/
def execHintModifier (p : BitVec 24) (s : State) : Out := hintWord (.hintModifier p) 2 p s

/-- lpad: no effect (06 R140). -/
def execLpad (label : BitVec 16) (s : State) : Out :=
  word (.lpad label) s (fun x => setUnit s x.u (advance x.g))

/-- A word no row of the table allocates: ILLEGAL at the word, but CLAUSE_FORM where a header is expected, and where its major and
function stand in the wrong place or lack their flag; a header with a reserved bit set is checked as a clause first (06 R125, R127,
R128, R142, R143). -/
def execUnallocatedEncoding (s : State) : Out :=
  match issuing s with
  | none => .next s
  | some x =>
    let w := wordAt s x.u x.pc
    if !x.cl.decoded then .next (if majorNat w = 0x3F then beginClause s x w else misplaced s x w)
    else if formBad x.cl w then .next (misplaced s x w)
    else .next (trapWord s x .illegal 0 x.cl.mask 0)

/-! ## The return stack (02 R49) -/

/-- A thread's stack after a push: the oldest of 16 entries goes to the spill area. -/
def pushLink (base : Nat) (t : Thread) (link : BitVec 48) : Thread :=
  if t.links.length < Config.returnEntries then { t with links := link :: t.links }
  else
    let old := t.links.getLastD 0
    { t with
      links := link :: t.links.dropLast
      priv := memWriteN t.priv (base + 8 * t.spilled) (natToBytes 8 old.toNat)
      spilled := t.spilled + 1 }

/-- A thread's stack after a pop. -/
def popLink (t : Thread) : Thread :=
  match t.links with
  | _ :: r => { t with links := r }
  | [] => { t with spilled := t.spilled - 1 }

/-- The link a return takes: the newest hardware entry, else the newest spilled one. -/
def topLink (base : Nat) (t : Thread) : Option W64 :=
  match t.links with
  | l :: _ => some (l.setWidth 64)
  | [] => if t.spilled = 0 then none else some (BitVec.ofNat 64 (memNat t.priv (base + 8 * (t.spilled - 1)) 8))

/-- A thread after its transfer. -/
def takeXfer (base : Nat) (x : Xfer) (t : Thread) : Thread :=
  let t1 := match x.link with
    | .none => t
    | .push l => pushLink base t l
    | .pop => popLink t
  { t1 with pc := x.target.setWidth 48 }

/-! ## Target checks (08 R189) -/

/-- What a transfer's target meets. -/
inductive Target where
  | ok
  | fault (va level : Nat) (h : Bool)
  | bad (rank : Nat) (c : Cause) (sub : Nat) (addr : W64)

/-- The addresses at which the words of a target clause are read: its first two words and, where it begins with a header, one in
each further line up to its trailer. -/
def targetWords (s : State) (u : UnitId) (a : Nat) : List Nat :=
  let w := wordAt s u a
  let last := if majorNat w = 0x3F then a + 4 * (Nat.min (bitsAt w.toNat 5 1 + 1) 24 + 1) else a
  a :: (a + 4) :: ((List.range 3).map (fun i => (a / 64 + i + 1) * 64)).filter (fun b => decide (b ≤ last) && decide (a + 4 < b))

/-- The first word of a target clause that is not fetched: the page to wait for, or the cause at the target. -/
def fetchWords (s : State) (u : UnitId) (target : W64) : List Nat → Option Target
  | [] => none
  | a :: r =>
    match fetchAt s u a with
    | .fault v lv h => some (.fault v lv h)
    | .bad c sub _ => some (.bad 3 c sub target)
    | .word _ _ => fetchWords s u target r

/-- CheckTarget for one thread (06 R140, 08 R189); bra and call carry no label and are not checked. -/
def checkTarget (s : State) (u : UnitId) (x : Xfer) : Target :=
  match x.expect with
  | none => .ok
  | some label =>
    let a := x.target.toNat
    if 2 ^ 48 ≤ a then .bad 1 .accessViolation 1 x.target
    else if a % 4 ≠ 0 then .bad 2 .misaligned 0 x.target
    else
      match fetchWords s u x.target (targetWords s u a) with
      | some r => r
      | none =>
        let w := wordAt s u a
        let b := wordAt s u (a + 4)
        if majorNat b ≠ 0x1F ∨ bitsAt b.toNat 25 10 ≠ label.toNat then .bad 4 .cfiViolation 0 x.target
        else if majorNat w ≠ 0x3F then .bad 5 .clauseForm 0 (w.setWidth 64)
        else .ok

/-- Transfers performed: threads that pass go on, threads whose target page is not present are held, and of the causes met
the first is trapped once; a thread that fails keeps its counter and its stack (08 R189). -/
def doXfers (s : State) (u : UnitId) (pc cstart : Nat) (xs : TMap Xfer) : State :=
  let base := (teamAt s u.team).privBytes
  let rs := xs.map (fun e => (e.1, e.2, checkTarget s u e.2))
  let go := rs.filter (fun r => match r.2.2 with
    | .ok => true
    | _ => false)
  let held := rs.filterMap (fun r => match r.2.2 with
    | .fault va lv h => some (r.1, r.2.1, va, lv, h)
    | _ => none)
  let bads := rs.filterMap (fun r => match r.2.2 with
    | .bad k c sub a => some (r.1, k, c, sub, a)
    | _ => none)
  let s1 := modUnit s u (fun g => go.foldl (fun g r => modThr g r.1 (takeXfer base r.2.1)) g)
  let pages := dedupNat (held.map (fun h => pageOf h.2.2.1))
  let s2 := pages.foldl (fun s p =>
    let ls := held.filter (fun h => pageOf h.2.2.1 == p)
    match ls.head? with
    | none => s
    | some (_, _, va, lv, h) =>
      modUnit (writeFault s (unitFault s u agentFetch .execute va lv h 0xFF)) u (fun g =>
        { g with xheld := g.xheld ++ [{ page := p, pc := pc, cstart := cstart, lanes := ls.map (fun l => (l.1, l.2.1)) }] })) s1
  match argMin (fun b : Nat × Nat × Cause × Nat × W64 => b.2.1) bads with
  | none => s2
  | some (_, k, c, sub, a) =>
    let m := laneMask ((bads.filter (fun b => b.2.1 == k)).map (·.1))
    trapDeliver s2 u (mkRec s2 u pc cstart c sub m a)

/-- Whether the fault buffer takes the records of a clause's transfers; while it does not, the clause holds (17 R372). -/
def xfersFit (s : State) (u : UnitId) (c : Ctl) : Bool :=
  match c with
  | .xfers xs =>
    let pages := xs.filterMap (fun e => match checkTarget s u e.2 with
      | .fault va _ _ => some (pageOf va)
      | _ => none)
    decide (s.faultBuf.length + (dedupNat pages).length ≤ Config.faultRecords)
  | _ => true

/-! ## Trailer -/

/-- The main registers a trailer's commits write, A then B. -/
def commitsOf (va : VIdx) (oa : OField) (vb : VIdx) (ob : OField) (count : BitVec 2) : List (Nat × OField) :=
  [(va.toNat, oa), (vb.toNat, ob)].take count.toNat

/-- The commits made for every thread of the run (06 R124); both sources are read before either write (log 47). -/
def commitAll (x : Ctx) (cs : List (Nat × OField)) : Grp :=
  x.lanes.foldl (fun g l => cs.foldl (fun g c => writeV x.cond g l c.1 (x.src l c.2)) g) x.g

/-- Counters of lanes set to one address. -/
def setPcs (g : Grp) (lanes : List Nat) (pc : Nat) : Grp := modThrs g lanes (fun _ t => { t with pc := BitVec.ofNat 48 pc })

/-- The end of a clause: threads without a transfer of their own continue at the fall-through address, then the outcome of
the last body word takes effect (06 R127, 08 R187, R190, R192, R219). -/
def endClause (s : State) (x : Ctx) (g0 : Grp) : State :=
  let word := x.cl.head + 4 * x.cl.len
  let gDone : Grp := { g0 with clause := none }
  let fallAll := setPcs gDone x.lanes x.fall
  match x.cl.ctl with
  | .fall => setUnit s x.u fallAll
  | .yielding =>
    setUnit s x.u { fallAll with tail := fallAll.tail ++
      [{ mask := x.cl.mask, owed := x.cl.cand &&& ~~~x.cl.mask, owedP := x.cl.candP &&& ~~~x.cl.maskP }] }
  | .exits m => exitLanes (setUnit s x.u fallAll) x.u (maskLanes m)
  | .xfers xs =>
    let others := x.lanes.filter (fun l => !thas xs l)
    doXfers (setUnit s x.u (setPcs gDone others x.fall)) x.u word x.cl.head xs
  | .eret => handlerReturn (setUnit s x.u gDone) x.u

/-! ## The comparison of a lockstep team (17 R386, R387) -/

/-- What the words of a clause sent out, taken back: its stores, operations, jobs, wagon rows and children, none of which has left. -/
def discard (s : State) (u : UnitId) (ids : List Nat) : State :=
  let keep (id : Nat) : Bool := !hasNat ids id
  let made := s.grids.filter (fun g => !keep g.1)
  let s1 := modUnit s u (fun g => { g with stores := g.stores.filter (fun p => keep p.id) })
  let s2 := made.foldl (fun s g =>
    match g.2.parentGrid with
    | some p => modGrid s p (fun p => { p with children := p.children - 1 })
    | none => s) s1
  { s2 with
    owned := s2.owned.filter (fun e => keep e.1)
    readyPool := s2.readyPool.filter keep
    grids := s2.grids.filter (fun g => keep g.1)
    cores := tmap (fun _ c => { c with
      matrix := c.matrix.filter (fun o => keep o.id), parts := c.parts.filter (fun o => keep o.id)
      flying := c.flying.filter (fun o => keep o.id), copies := c.copies.filter (fun j => keep j.id) }) s2.cores
    clusters := tmap (fun _ k => { k with geo := k.geo.filter (fun j => keep j.id), art := k.art.filter (fun j => keep j.id) }) s2.clusters
    wagons := tmap (fun _ w => { w with rows := w.rows.filter (fun r => keep r.op) }) s2.wagons }

/-- The lowest thread of a clause in which the two cores of a lockstep team differ, with the first outbound address that differs. -/
def firstUpset (s : State) (u : UnitId) (cl : Clause) : Option Upset :=
  let ups := (teamAt s u.team).upsets.filter (fun a => a.unit == u.idx && cl.mask.getLsbD a.lane)
  (argMin (fun a : Upset => a.lane) ups).map (fun a => { a with addr := ((ups.find? (fun b => b.addr != 0)).map (·.addr)).getD 0 })

/-- A comparison that differs: nothing of the clause leaves, PAIR_MISMATCH stops the team, and PAIRERR is set (17 R387). -/
def pairMismatch (s : State) (u : UnitId) (pc : Nat) (cl : Clause) (a : Upset) : State :=
  let s1 := discard s u cl.outs
  let s2 := trapDeliver s1 u (mkRec s1 u pc cl.head .pairMismatch 0 (laneMask [a.lane]) a.addr)
  { s2 with supervisor := { s2.supervisor with pairErr := true } }

/-- The clause of a unit whose requests are held back: the one it is in, or one in which a run of it blocks. -/
def holdingClause (g : Grp) : Option Clause :=
  match g.clause with
  | some cl => some cl
  | none => ((g.blocked.map (·.clause)).find? (fun cl => decide (cl.outs ≠ [])))

/-- The comparison of what a clause has sent out so far: a word that waits, and may wait for what its own clause has sent out, has it made
before the trailer (log 44). -/
def compareEarly (s : State) (u : UnitId) : State :=
  let g := unitAt s u
  match holdingClause g with
  | none => s
  | some cl =>
    if cl.outs = [] then s
    else
      match firstUpset s u cl with
      | some a => pairMismatch s u (cl.head + 4 * cl.next) cl a
      | none =>
        let done (c : Clause) : Clause := if c = cl then { c with outs := [] } else c
        setUnit s u { g with clause := g.clause.map done, blocked := g.blocked.map (fun b => { b with clause := done b.clause }) }

/-- The comparison made before a word of a lockstep team's clause lets something leave (log 44): one that differs stops the team. -/
def compareNow (s : State) (x : Ctx) : State :=
  match firstUpset s x.u x.cl with
  | some a => pairMismatch s x.u x.pc x.cl a
  | none => s

/-- What a unit's word has sent out is held back with its clause while the team runs in lockstep. -/
def holdBack (before : State) (u : UnitId) (moved : Bool) (after : State) : State :=
  if (teamAt after u.team).shadowCore.isNone then after
  else
    let ids := (List.range (after.nextUid - before.nextUid)).map (· + before.nextUid)
    match moved, (unitAt after u).clause with
    | true, some cl => modUnit after u (fun g => { g with clause := some { cl with outs := cl.outs ++ ids } })
    | _, _ => compareEarly after u

/-- A fault of the second core in a thread of the clause a unit of a lockstep team is in: its comparison will differ (17 R387, log 44). -/
def diverge (s : State) (u : UnitId) (lane : Nat) (addr : W64) : State :=
  if (teamAt s u.team).shadowCore.isSome && (unitAt s u).clause.any (fun cl => cl.decoded && cl.mask.getLsbD lane) then
    modTeam s u.team (fun t => { t with upsets := t.upsets ++ [{ unit := u.idx, lane := lane, addr := addr }] })
  else s

/-- .commit: the trailer's checks, in a lockstep team the comparison, then its commits and the transfers (06 R124, R131, 02 R57,
17 R386). -/
def execClauseTrailer (va : VIdx) (oa : OField) (vb : VIdx) (ob : OField) (count : BitVec 2) (s : State) : Out :=
  match issuing s with
  | none => .next s
  | some x =>
    let i := Instr.clauseTrailer va oa vb ob count
    let cs := commitsOf va oa vb ob count
    if !x.cl.decoded || x.cl.next ≠ x.cl.len + 1 || count = 3 then .next (misplaced s x ((encode i).getD 0))
    else if !wellFormed i || (x.cond && cs.any (fun c => decide (64 ≤ c.1))) then .next (trapWord s x .illegal 0 x.cl.mask 0)
    else if !shareOk x (cs.map (·.1)) then .next (trapWord s x .operandLimit 1 x.cl.mask 0)
    else
      match firstUpset s x.u x.cl with
      | some a => .next (pairMismatch s x.u x.pc x.cl a)
      | none => if !xfersFit s x.u x.cl.ctl then .next s else .next (endClause s x (commitAll x cs))

end Sys2Proof.Machine
end

