-- ==== Sys2Proof/Machine/IntAlu.lean ====
section
/-! DEFINITION. Integer, logic, address and immediate words: majors 0x01 to 0x0B (07 R155-R160). -/

set_option linter.unusedVariables false

namespace Sys2Proof.Machine

/-! ## Results (07 R155, R156, R158) -/

/-- floor(S(a) * S(b) / 2^32). -/
def mulhiS (a b : W32) : W32 := BitVec.ofInt 32 (a.toInt * b.toInt / 2 ^ 32)
/-- floor(U(a) * U(b) / 2^32). -/
def mulhiU (a b : W32) : W32 := BitVec.ofNat 32 (a.toNat * b.toNat / 2 ^ 32)
/-- The lesser under S. -/
def minS (a b : W32) : W32 := if b.toInt < a.toInt then b else a
/-- The lesser under U. -/
def minU (a b : W32) : W32 := if b.toNat < a.toNat then b else a
/-- The greater under S. -/
def maxS (a b : W32) : W32 := if a.toInt < b.toInt then b else a
/-- The greater under U. -/
def maxU (a b : W32) : W32 := if a.toNat < b.toNat then b else a
/-- Bit 0 of the carry operand. -/
def carryIn (c : W32) : Nat := c.toNat % 2
/-- addc. -/
def addcR (a b c : W32) : W32 := BitVec.ofNat 32 (a.toNat + b.toNat + carryIn c)
/-- addc.co. -/
def addcCoR (a b c : W32) : W32 := BitVec.ofNat 32 ((a.toNat + b.toNat + carryIn c) / 2 ^ 32)
/-- subb. -/
def subbR (a b c : W32) : W32 := a - b - BitVec.ofNat 32 (carryIn c)
/-- subb.bo: the borrow out. -/
def subbBoR (a b c : W32) : W32 := if a.toNat < b.toNat + carryIn c then 1 else 0
/-- shl: the count is not reduced. -/
def shlR (a b : W32) : W32 := if 32 ≤ b.toNat then 0 else BitVec.ofNat 32 (a.toNat * 2 ^ b.toNat)
/-- shr.n32. -/
def shrU (a b : W32) : W32 := if 32 ≤ b.toNat then 0 else BitVec.ofNat 32 (a.toNat / 2 ^ b.toNat)
/-- shr.i32: floor(S(a) / 2^min(n, 31)). -/
def shrS (a b : W32) : W32 := BitVec.ofInt 32 (a.toInt / 2 ^ (Nat.min b.toNat 31))
/-- rot: left by n mod 32. -/
def rotR (a b : W32) : W32 := a.rotateLeft (b.toNat % 32)
/-- fsh: the low word of b:a shifted right by c mod 32. -/
def fshR (a b c : W32) : W32 := BitVec.ofNat 32 ((b.toNat * 2 ^ 32 + a.toNat) / 2 ^ (c.toNat % 32))
/-- pos of a field control word. -/
def fieldPos (c : W32) : Nat := c.toNat % 256
/-- len of a field control word. -/
def fieldLen (c : W32) : Nat := Nat.min (c.toNat / 256 % 256) 32
/-- bfe.n32. -/
def bfeU (a b : W32) : W32 :=
  if fieldLen b = 0 then 0 else BitVec.ofNat 32 (a.toNat / 2 ^ fieldPos b % 2 ^ fieldLen b)
/-- bfe.i32: the field, sign-extended from its top bit. -/
def bfeS (a b : W32) : W32 :=
  let n := fieldLen b
  if n = 0 then 0
  else
    let f := (a.toInt / 2 ^ fieldPos b) % 2 ^ n
    BitVec.ofInt 32 (if f < 2 ^ (n - 1) then f else f - 2 ^ n)
/-- bfi: len bits of b inserted in a at pos; the mask is cut at bit 31. -/
def bfiR (a b c : W32) : W32 :=
  let m := BitVec.ofNat 32 ((2 ^ fieldLen c - 1) * 2 ^ fieldPos c)
  (a &&& ~~~m) ||| (BitVec.ofNat 32 (b.toNat * 2 ^ fieldPos c) &&& m)
/-- popc. -/
def popcR (a : W32) : W32 := BitVec.ofNat 32 (maskLanes a).length
/-- clz: 32 when a = 0. -/
def clzR (a : W32) : W32 := BitVec.ofNat 32 (if a = 0 then 32 else 31 - a.toNat.log2)
/-- brev. -/
def brevR (a : W32) : W32 := a.reverse
/-- The shift of lea's second operand. -/
def leaShift : LeaScale → Nat
  | .x1 => 0
  | .x2 => 1
  | .x4 => 2
  | .x8 => 3
  | .x16 => 4
/-- lea. -/
def leaR (f : LeaScale) (a b : W32) : W32 := BitVec.ofNat 32 (a.toNat + b.toNat * 2 ^ leaShift f)

/-! ## Shapes with one, two and three 32-bit sources -/

/-- d <- f(a). -/
def alu1 (i : Instr) (g : Guard) (d a : OField) (f : W32 → W32) (s : State) : Out :=
  alu i g d (fun x l => f (x.src l a)) s
/-- d <- f(a, b). -/
def alu2 (i : Instr) (g : Guard) (d a b : OField) (f : W32 → W32 → W32) (s : State) : Out :=
  alu i g d (fun x l => f (x.src l a) (x.src l b)) s
/-- d <- f(a, b, c). -/
def alu3 (i : Instr) (g : Guard) (d a b c : OField) (f : W32 → W32 → W32 → W32) (s : State) : Out :=
  alu i g d (fun x l => f (x.src l a) (x.src l b) (x.src l c)) s
/-- An I-form word: unguarded (06 R135). -/
def aluImm (i : Instr) (d a : OField) (f : W32 → W32) (s : State) : Out := alu1 i always d a f s

/-! ## Major 0x01 -/

/-- add (07 R155). -/
def execAdd (d a b : OField) (g : Guard) (s : State) : Out :=
  alu2 (.add d a b g) g d a b (· + ·) s

/-- sub (07 R155). -/
def execSub (d a b : OField) (g : Guard) (s : State) : Out :=
  alu2 (.sub d a b g) g d a b (· - ·) s

/-- mul (07 R155). -/
def execMul (d a b : OField) (g : Guard) (s : State) : Out :=
  alu2 (.mul d a b g) g d a b (· * ·) s

/-- mulhiI32 (07 R155). -/
def execMulhiI32 (d a b : OField) (g : Guard) (s : State) : Out :=
  alu2 (.mulhiI32 d a b g) g d a b mulhiS s

/-- mulhiN32 (07 R155). -/
def execMulhiN32 (d a b : OField) (g : Guard) (s : State) : Out :=
  alu2 (.mulhiN32 d a b g) g d a b mulhiU s

/-- mad (07 R155). -/
def execMad (d a b c : OField) (g : Guard) (s : State) : Out :=
  alu3 (.mad d a b c g) g d a b c (fun a b c => a * b + c) s

/-- min.i32 and min.n32 (07 R155). -/
def execMin (d a b : OField) (g : Guard) (uns : Bool) (s : State) : Out :=
  alu2 (.min d a b g uns) g d a b (if uns then minU else minS) s

/-- max.i32 and max.n32 (07 R155). -/
def execMax (d a b : OField) (g : Guard) (uns : Bool) (s : State) : Out :=
  alu2 (.max d a b g uns) g d a b (if uns then maxU else maxS) s

/-- addc (07 R155). -/
def execAddc (d a b c : OField) (g : Guard) (s : State) : Out :=
  alu3 (.addc d a b c g) g d a b c addcR s

/-- addcCo (07 R155). -/
def execAddcCo (d a b c : OField) (g : Guard) (s : State) : Out :=
  alu3 (.addcCo d a b c g) g d a b c addcCoR s

/-- subb (07 R155). -/
def execSubb (d a b c : OField) (g : Guard) (s : State) : Out :=
  alu3 (.subb d a b c g) g d a b c subbR s

/-- subbBo (07 R155). -/
def execSubbBo (d a b c : OField) (g : Guard) (s : State) : Out :=
  alu3 (.subbBo d a b c g) g d a b c subbBoR s

/-- cmp: the predicate and lt (07 R154, R155). -/
def execCmp (p : PIdx) (a b : OField) (g : Guard) (k : Cond) (s : State) : Out :=
  aluP (.cmp p a b g k) g p (fun x l => (condEval k (x.src l a) (x.src l b), 0)) s

/-- sel: a where c is nonzero, else b (07 R155). -/
def execSel (d a b c : OField) (g : Guard) (s : State) : Out :=
  alu3 (.sel d a b c g) g d a b c (fun a b c => if c ≠ 0 then a else b) s

/-! ## Major 0x02 -/

/-- and (07 R156). -/
def execAnd (d a b : OField) (g : Guard) (s : State) : Out :=
  alu2 (.and d a b g) g d a b (· &&& ·) s

/-- or (07 R156). -/
def execOr (d a b : OField) (g : Guard) (s : State) : Out :=
  alu2 (.or d a b g) g d a b (· ||| ·) s

/-- xor (07 R156). -/
def execXor (d a b : OField) (g : Guard) (s : State) : Out :=
  alu2 (.xor d a b g) g d a b (· ^^^ ·) s

/-- andn (07 R156). -/
def execAndn (d a b : OField) (g : Guard) (s : State) : Out :=
  alu2 (.andn d a b g) g d a b (fun a b => a &&& ~~~b) s

/-- shl (07 R156). -/
def execShl (d a b : OField) (g : Guard) (s : State) : Out :=
  alu2 (.shl d a b g) g d a b shlR s

/-- shrN32 (07 R156). -/
def execShrN32 (d a b : OField) (g : Guard) (s : State) : Out :=
  alu2 (.shrN32 d a b g) g d a b shrU s

/-- shrI32 (07 R156). -/
def execShrI32 (d a b : OField) (g : Guard) (s : State) : Out :=
  alu2 (.shrI32 d a b g) g d a b shrS s

/-- rot (07 R156). -/
def execRot (d a b : OField) (g : Guard) (s : State) : Out :=
  alu2 (.rot d a b g) g d a b rotR s

/-- fsh (07 R156). -/
def execFsh (d a b c : OField) (g : Guard) (s : State) : Out :=
  alu3 (.fsh d a b c g) g d a b c fshR s

/-- bfeN32 (07 R156). -/
def execBfeN32 (d a b : OField) (g : Guard) (s : State) : Out :=
  alu2 (.bfeN32 d a b g) g d a b bfeU s

/-- bfeI32 (07 R156). -/
def execBfeI32 (d a b : OField) (g : Guard) (s : State) : Out :=
  alu2 (.bfeI32 d a b g) g d a b bfeS s

/-- bfi (07 R156). -/
def execBfi (d a b c : OField) (g : Guard) (s : State) : Out :=
  alu3 (.bfi d a b c g) g d a b c bfiR s

/-- popc (07 R156). -/
def execPopc (d a : OField) (g : Guard) (s : State) : Out :=
  alu1 (.popc d a g) g d a popcR s

/-- clz (07 R156). -/
def execClz (d a : OField) (g : Guard) (s : State) : Out :=
  alu1 (.clz d a g) g d a clzR s

/-- brev (07 R156). -/
def execBrev (d a : OField) (g : Guard) (s : State) : Out :=
  alu1 (.brev d a g) g d a brevR s

/-! ## Majors 0x03 and 0x04 -/

/-- lea (07 R158). -/
def execLea (d a b : OField) (g : Guard) (f : LeaScale) (s : State) : Out :=
  alu2 (.lea d a b g f) g d a b (leaR f) s

/-- add64 (07 R157, R158). -/
def execAdd64 (d a b : OField) (g : Guard) (s : State) : Out :=
  alu64 (.add64 d a b g) g d (fun x l => x.src64 l a + x.src64 l b) s

/-- cmp64 (07 R157, R158). -/
def execCmp64 (p : PIdx) (a b : OField) (g : Guard) (k : Cond) (s : State) : Out :=
  aluP (.cmp64 p a b g k) g p (fun x l => (condEval k (x.src64 l a) (x.src64 l b), 0)) s

/-- A 32-bit function of form S on a and its uniform b (07 R159); popc, clz and brev do not use b (log 18). -/
def intUR (f : IntUFn) (a b : W32) : W32 :=
  match f with
  | .add => a + b
  | .sub => a - b
  | .mul => a * b
  | .mulhiI => mulhiS a b
  | .mulhiN => mulhiU a b
  | .minI => minS a b
  | .minN => minU a b
  | .maxI => maxS a b
  | .maxN => maxU a b
  | .and => a &&& b
  | .or => a ||| b
  | .xor => a ^^^ b
  | .andn => a &&& ~~~b
  | .shl => shlR a b
  | .shrN => shrU a b
  | .shrI => shrS a b
  | .rot => rotR a b
  | .bfeN => bfeU a b
  | .bfeI => bfeS a b
  | .popc => popcR a
  | .clz => clzR a
  | .brev => brevR a
  | .lea f => leaR f a b
  | .cmp _ => 0
  | .add64 => 0
  | .cmp64 _ => 0

/-- Major 0x04 (07 R159): a predicate form, a 64-bit form or a 32-bit form. -/
def execIntUniformOp (d a : OField) (u : SIdx) (g : Guard) (f : IntUFn) (s : State) : Out :=
  let i := Instr.intUniformOp d a u g f
  match f with
  | .cmp k => aluP i g (d.setWidth 3) (fun x l => (condEval k (x.src l a) (x.uni u), 0)) s
  | .cmp64 k => aluP i g (d.setWidth 3) (fun x l => (condEval k (x.src64 l a) (x.uni64 u.toNat), 0)) s
  | .add64 => alu64 i g d (fun x l => x.src64 l a + x.uni64 u.toNat) s
  | _ => alu i g d (fun x l => intUR f (x.src l a) (x.uni u)) s

/-! ## Majors 0x05 to 0x0B (07 R160) -/

/-- addi: the immediate is signed. -/
def execAddi (d a : OField) (imm : BitVec 18) (s : State) : Out :=
  aluImm (.addi d a imm) d a (· + imm.signExtend 32) s

/-- andi. -/
def execAndi (d a : OField) (imm : BitVec 18) (s : State) : Out :=
  aluImm (.andi d a imm) d a (· &&& imm.setWidth 32) s

/-- ori. -/
def execOri (d a : OField) (imm : BitVec 18) (s : State) : Out :=
  aluImm (.ori d a imm) d a (· ||| imm.setWidth 32) s

/-- xori. -/
def execXori (d a : OField) (imm : BitVec 18) (s : State) : Out :=
  aluImm (.xori d a imm) d a (· ^^^ imm.setWidth 32) s

/-- shli. -/
def execShli (d a : OField) (k : BitVec 5) (s : State) : Out :=
  aluImm (.shli d a k) d a (fun a => BitVec.ofNat 32 (a.toNat * 2 ^ k.toNat)) s

/-- movhi: imm * 2^14. -/
def execMovhi (d : OField) (imm : BitVec 18) (s : State) : Out :=
  aluImm (.movhi d imm) d 15 (fun _ => BitVec.ofNat 32 (imm.toNat * 2 ^ 14)) s

/-- The immediate of cmpi: sign-extended for conditions 0 to 5, zero-extended for 6 to 9. -/
def cmpiImm (k : Cond) (imm : BitVec 14) : W32 :=
  match k with
  | .ltN => imm.setWidth 32
  | .leN => imm.setWidth 32
  | .gtN => imm.setWidth 32
  | .geN => imm.setWidth 32
  | _ => imm.signExtend 32

/-- cmpi. -/
def execCmpi (p : PIdx) (a : OField) (k : Cond) (imm : BitVec 14) (s : State) : Out :=
  aluP (.cmpi p a k imm) always p (fun x l => (condEval k (x.src l a) (cmpiImm k imm), 0)) s

end Sys2Proof.Machine
end

