-- ==== Sys2Proof/Machine/Memory.lean ====
section
/-! DEFINITION. Loads, stores, prefetches, uniform loads, fences and phase steps: majors 0x22 to 0x26, 0x28 and 0x29
(08 R194-R198, R203), and the event that binds a load (05 R99-R102). -/

set_option linter.unusedVariables false

namespace Sys2Proof.Machine

/-! ## Addresses and data -/

/-- A form M guard: it has no negate bit (06 R130). -/
def memGuard (m : MemFields) : Guard := ⟨m.guard, false⟩

/-- The effective address of a lane: base plus the signed offset, scaled by the access size for ldx and stx (04 R79,
08 R195). -/
def effAddr (x : Ctx) (pair : BitVec 5) (off : OField) (scale l : Nat) : W64 :=
  x.uni64 (2 * pair.toNat) + sext64 (x.src l off) * BitVec.ofNat 64 scale

/-- The participants' effective addresses. -/
def effAddrs (x : Ctx) (m : MemFields) (scale : Nat) : List (Nat × W64) :=
  (x.parts (memGuard m)).map (fun l => (l, effAddr x m.pair m.off scale l))

/-- Required alignment of an access (04 R93). -/
def alignOf (bytes : Nat) : Nat := if bytes ≤ 2 then bytes else if bytes = 4 then 4 else if bytes = 8 then 8 else 16

/-- The bytes a lane stores (08 R194). -/
def storeData (x : Ctx) (v : VIdx) (t : StoreType) (l : Nat) : List Byte :=
  ((List.range t.regs).flatMap (fun i => natToBytes 4 (x.main l (v.toNat + i)).toNat)).take (storeBytes t)

/-- Room in the core's operand log (17 R374). -/
def logRoom (s : State) (c : Nat) : Bool := decide ((coreAt s c).log.length < Config.operandLogEntries)

/-- An operand-log entry with its fault records, one for each page (17 R372, R374). -/
def logFaults (s : State) (u : UnitId) (kind : AccKind) (e : LogEntry) (fs : List Faulted) : State :=
  let c := coreOf s u
  let used := (coreAt s c).log.map (·.slot)
  let slot := ((List.range Config.operandLogEntries).filter (fun i => !hasNat used i)).headD 0
  writeFaults (modCore s c (fun k => { k with log := k.log ++ [{ e with slot := slot }] })) u kind slot fs

/-- The lanes of a log entry. -/
def faultLanes (fs : List Faulted) (data : Nat → List Byte) : List LaneAcc :=
  fs.map (fun f => { lane := f.lane, loc := .phys 0, va := f.va, data := data f.lane })

/-! ## Loads -/

/-- A load issued: lanes that translated go on as one pending load, faulted lanes to the operand log (17 R374). -/
def issueLoad (s : State) (x : Ctx) (v : Nat) (t : LoadType) (flag : Option Nat) (ok : List LaneAcc) (fs : List Faulted) : State :=
  let (id, s1) := fresh s
  let g1 := if ok = [] then x.g else
    flagInc { x.g with loads := x.g.loads ++
      [{ id := id, pc := x.pc, cstart := x.cl.head, flag := flag, dest := .lanes v, type := t, bytes := loadBytes t, lanes := ok }] } flag
  let g2 := if fs = [] then g1 else flagInc g1 flag
  let s2 := setUnit s1 x.u (advance g2)
  if fs = [] then s2
  else
    logFaults s2 x.u .read { id := id, unit := x.u, pc := x.pc, cstart := x.cl.head, isStore := false, ltype := t, flag := flag,
                             v := v, lanes := faultLanes fs (fun _ => []), ctx := x.t.ctx } fs

/-- ld and ldx. -/
def loadWord (i : Instr) (m : MemFields) (t : LoadType) (scale : Nat) (s : State) : Out :=
  word i s (fun x =>
    let n := loadBytes t
    let ls := effAddrs x m scale
    if touchesLogged s x.u m.space n ls then s
    else
      match access s x.u .read m.space n (alignOf n) ls with
      | .trap s1 c sub mask a => trapWord s1 x c sub mask a
      | .go s1 ok fs =>
        if fs ≠ [] ∧ (logRoom s x.t.core = false ∨ faultsFit s fs = false) then s1
        else issueLoad s1 x m.v.toNat t (x.flag m.flagB) ok fs)

/-- ld (08 R195). -/
def execLd (m : MemFields) (t : LoadType) (s : State) : Out := loadWord (.ld m t) m t 1 s

/-- ldx: the offset counts accesses (08 R195). -/
def execLdx (m : MemFields) (t : LoadType) (s : State) : Out := loadWord (.ldx m t) m t (loadBytes t) s

/-! ## Stores -/

/-- A store issued: its data are taken now; it drains later in program order (05 R99, 08 R196). -/
def issueStore (s : State) (x : Ctx) (v : VIdx) (t : StoreType) (flag : Option Nat) (ok : List LaneAcc) (fs : List Faulted) : State :=
  let (id, s1) := fresh s
  let data := storeData x v t
  let entry (ls : List LaneAcc) (logged : Option Nat) : PendingStore :=
    { id := id, pc := x.pc, cstart := x.cl.head, flag := flag, lanes := ls, logged := logged }
  let g1 := if ok = [] then x.g else
    flagInc { x.g with stores := x.g.stores ++ [entry (ok.map (fun a => { a with data := data a.lane })) none] } flag
  let g2 := if fs = [] then g1 else flagInc { g1 with stores := g1.stores ++ [entry [] (some id)] } flag
  let s2 := setUnit s1 x.u (advance g2)
  if fs = [] then s2
  else
    logFaults s2 x.u .write { id := id, unit := x.u, pc := x.pc, cstart := x.cl.head, isStore := true, ltype := .b32, flag := flag,
                              v := v.toNat, lanes := faultLanes fs data, ctx := x.t.ctx } fs

/-- st and stx. -/
def storeWord (i : Instr) (m : MemFields) (t : StoreType) (scale : Nat) (s : State) : Out :=
  word i s (fun x =>
    let n := storeBytes t
    let ls := effAddrs x m scale
    if touchesLogged s x.u m.space n ls then s
    else
      match access s x.u .write m.space n (alignOf n) ls with
      | .trap s1 c sub mask a => trapWord s1 x c sub mask a
      | .go s1 ok fs =>
        if fs ≠ [] ∧ (logRoom s x.t.core = false ∨ faultsFit s fs = false) then s1
        else issueStore s1 x m.v t (x.flag m.flagB) ok fs)

/-- st (08 R196). -/
def execSt (m : MemFields) (t : StoreType) (s : State) : Out := storeWord (.st m t) m t 1 s

/-- stx. -/
def execStx (m : MemFields) (t : StoreType) (s : State) : Out := storeWord (.stx m t) m t (storeBytes t) s

/-- pref: changes no value and no ordering, and takes no trap of its address (08 R197). -/
def execPref (off : OField) (pair : BitVec 5) (guard : PIdx) (space : Space) (l2 : Bool) (s : State) : Out :=
  word (.pref off pair guard space l2) s (fun x => setUnit s x.u (advance x.g))

/-! ## ldq (08 R198) -/

/-- Bytes of one destination of ldq: 4, or 8 in a conductor clause. -/
def ldqUnit (x : Ctx) : Nat := if x.cond then 8 else 4

/-- ldq: one load for the run at the lowest participant's address; it holds its group until the translation is decided. -/
def execLdq (a : OField) (d : SIdx) (g : Guard) (count : BitVec 2) (base : BitVec 5) (s : State) : Out :=
  word (.ldq a d g count base) s (fun x =>
    match x.parts g with
    | [] => setUnit s x.u (advance x.g)
    | l :: _ =>
      let n := (count.toNat + 1) * ldqUnit x
      let align := if count = 0 then ldqUnit x else if x.cond then 16 else alignOf n
      let ls := [(l, x.uni64 (2 * base.toNat) + sext64 (x.src l a))]
      if touchesLogged s x.u .gen n ls then s
      else
        match access s x.u .read .gen n align ls with
        | .trap s1 c sub mask ad => trapWord s1 x c sub mask ad
        | .go s1 ok [] =>
          let (id, s2) := fresh s1
          setUnit s2 x.u (advance (flagInc { x.g with loads := x.g.loads ++
            [{ id := id, pc := x.pc, cstart := x.cl.head, flag := x.cl.setA, dest := .uniform d.toNat, type := .b32, bytes := n,
               lanes := ok }] } x.cl.setA))
        | .go s1 ok fs => holdReplay s1 x.u .read fs)

/-! ## Arrival of load data -/

/-- The bytes a lane of a load is bound to: those it took from a scratchpad that has since gone, else what its unit reads now. -/
def boundBytes (s : State) (u : UnitId) (p : PendingLoad) (a : LaneAcc) : List Byte :=
  if a.data ≠ [] then a.data else readUnit s u a p.bytes

/-- The registers a load's bytes give (08 R194). -/
def loadWords (t : LoadType) (bs : List Byte) : List W32 :=
  let n := bytesToNat bs
  match t with
  | .n8 => [BitVec.ofNat 32 n]
  | .i8 => [(BitVec.ofNat 8 n).signExtend 32]
  | .n16 => [BitVec.ofNat 32 n]
  | .i16 => [(BitVec.ofNat 16 n).signExtend 32]
  | _ => (List.range t.regs).map (fun i => BitVec.ofNat 32 (n / 2 ^ (32 * i)))

/-- Consecutive main registers of a lane written, or k registers zero-extended; an exited thread takes none. -/
def writeRegs (cond : Bool) (g : Grp) (l v : Nat) (ws : List W32) : Grp :=
  if cond || (thrAt g l).live then
    (List.zip (List.range ws.length) ws).foldl (fun g e => writeV cond g l (v + e.1) e.2) g
  else g

/-- The destination of a load written for one lane. -/
def writeLoad (u : UnitId) (g : Grp) (p : PendingLoad) (l : Nat) (bs : List Byte) : Grp :=
  match p.dest with
  | .lanes v => writeRegs (isCond u) g l v (loadWords p.type bs)
  | .uniform d =>
    let n := bytesToNat bs
    if isCond u then
      (List.range (p.bytes / 8)).foldl (fun g i => { g with k := tset g.k (d + i) (BitVec.ofNat 64 (n / 2 ^ (64 * i))) }) g
    else
      (List.range (p.bytes / 4)).foldl (fun g i => { g with s := tset g.s (d + i) (BitVec.ofNat 32 (n / 2 ^ (32 * i))) }) g

/-- Whether a load's value can be bound: no line of it is owned, and no earlier load or undrained store of its unit must be performed
first (05 R99-R101). -/
def loadReady (s : State) (u : UnitId) (p : PendingLoad) : Bool :=
  !recalled s u p.lanes &&
  !((unitAt s u).loads.any (fun q => decide (q.id < p.id) && p.lanes.any (fun a => afterLoad q a p.bytes))) &&
  !((unitAt s u).stores.any (fun q => decide (q.id < p.id) && p.lanes.any (fun a => afterStore q a p.bytes)))

/-- LOAD_DATA_ARRIVAL: a load's values are bound and its registers written; the flag clears with its last operation (08 R195,
02 R47). A line found uncorrectable now takes the deferred trap of its word (04 R92). -/
def execLoadDataArrival (u : UnitId) (op : Nat) (s : State) : Out :=
  let g := unitAt s u
  match g.loads.find? (fun p => p.id == op) with
  | none => .next s
  | some p =>
    if !loadReady s u p then .next s
    else
      let poisoned := p.lanes.filter (fun a =>
        match a.loc with
        | .phys x => hasNat s.badLines (lineOf x)
        | _ => false)
      let g1 := { flagDec g p.flag with loads := g.loads.filter (fun q => q.id != op) }
      match poisoned with
      | a :: _ =>
        let r := mkRec s u p.pc p.cstart .eccUncorrectable 0 (laneMask (poisoned.map (·.lane))) (BitVec.ofNat 64 (a.va / 64 * 64))
        .next (deferTrap (setUnit s u g1) u r a.lane)
      | [] => .next (setUnit s u (p.lanes.foldl (fun g a => writeLoad u g p a.lane (boundBytes s u p a)) g1))

/-! ## Fences and phase steps (05 R103-R105, R110, 08 R203) -/

/-- Whether a copy of the unit that an engine has yet to end may write a peer's window: its destination lies there, or cannot be
translated yet. -/
def peerCopy (s : State) (u : UnitId) (j : CopyJob) : Bool :=
  j.user == u && !j.gang &&
  (match j.owner with
   | .future _ _ => decide (j.dst.toNat < Config.globalLimit) && (List.range ((j.cnt1 * j.pitch + 65535) / 65536 + 1)).any (fun i =>
       let va := j.dst.toNat + 65536 * i
       decide (va < j.dst.toNat + Nat.max 1 (j.cnt1 * j.pitch) + 65536) &&
       (match rootWalk s j.ctx va with
        | .leaf l _ _ => inPeer l.pa
        | .fault _ _ => true
        | .violation _ => false))
   | _ => false)

/-- Whether an earlier copy of the unit to a peer's window has not been acknowledged by the peer: its writes wait for that, or it has
not been performed yet (05 R110). -/
def peerWaits (s : State) (u : UnitId) : Bool :=
  s.peerPending.any (fun e => e.2 == unitKey u) || s.cores.any (fun c => c.2.copies.any (peerCopy s u))

/-- A fence of a scope holds its group until it completes: none while some earlier access is unperformed. -/
def fenceStep (s : State) (u : UnitId) (k : Scope) : Option State :=
  if !quiet s u then none
  else
    match k with
    | .grp => some s
    | .team => some s
    | .gang => some s
    | .dev => some (arStep s (coreOf s u))
    | .sys => if peerWaits s u then none else some (arStep s (coreOf s u))

/-- fence (05 R110). -/
def execFence (k : Scope) (s : State) : Out :=
  word (.fence k) s (fun x =>
    match fenceStep s x.u k with
    | none => s
    | some s1 => modUnit s1 x.u advance)

/-- phase.rel, phase.acq, phase.ar (05 R105). -/
def execPhase (k : PhaseKind) (s : State) : Out :=
  word (.phase k) s (fun x =>
    if !quiet s x.u then s
    else
      let c := x.t.core
      let s1 := match k with
        | .rel => releaseStep s c
        | .acq => acquireStep s c
        | .ar => arStep s c
      modUnit s1 x.u advance)

end Sys2Proof.Machine
end

