-- ==== Sys2Proof/Machine/Atomics.lean ====
section
/-! DEFINITION. atom, red and best: major 0x27 (08 R199-R202, 05 R108), and the event that drains a store (05 R98-R100). -/

set_option linter.unusedVariables false

namespace Sys2Proof.Machine

/-- The new value of an operation: x its operand, or compare and new for the cas forms; a failed comparison writes the old
value again (08 R199, R200). -/
def atomNew (k : AtomOp) (old x y : W64) : W64 :=
  let o : W32 := old.setWidth 32
  let v : W32 := x.setWidth 32
  match k with
  | .add => (o + v).setWidth 64
  | .minI => (minS o v).setWidth 64
  | .maxI => (maxS o v).setWidth 64
  | .minN => (minU o v).setWidth 64
  | .maxN => (maxU o v).setWidth 64
  | .and => (o &&& v).setWidth 64
  | .or => (o ||| v).setWidth 64
  | .xor => (o ^^^ v).setWidth 64
  | .exch => v.setWidth 64
  | .cas => if o = v then (y.setWidth 32).setWidth 64 else o.setWidth 64
  | .add64 => old + x
  | .exch64 => x
  | .cas64 => if old = x then y else old

/-- The operands a lane gives (08 R199): t registers and pairs, or whole k registers (log 19). -/
def atomOperands (x : Ctx) (k : AtomOp) (d : OField) (l : Nat) : W64 × W64 :=
  match k with
  | .cas => ((x.src l d).setWidth 64, (x.src l (d + 1)).setWidth 64)
  | .cas64 => (x.src64 l d, x.src64 l (d + 2))
  | .add64 => (x.src64 l d, 0)
  | .exch64 => (x.src64 l d, 0)
  | _ => ((x.src l d).setWidth 64, 0)

/-- A write of an atomic at its place: the home of a global location, the port of a scratchpad, or private memory. -/
def atomPut (s : State) (core : Nat) (loc : Loc) (bs : List Byte) : State :=
  match loc with
  | .phys a => atomicWrite s core a bs
  | _ => drainTo s core loc bs

/-- The scope of an atomic's ordering: that of its kind-10 hint, else .dev (08 R201). -/
def atomScope (x : Ctx) : Scope :=
  match x.cl.hints.modifier with
  | none => .dev
  | some p =>
    match (p.extractLsb' 21 3).toNat with
    | 0 => .grp
    | 1 => .team
    | 2 => .gang
    | 3 => .dev
    | _ => .sys

/-- OrderBefore and OrderAfter of 08 R201; both wait for the group's earlier accesses. -/
def orderBefore (s : State) (u : UnitId) (k : Scope) : Option State :=
  match k with
  | .dev => if quiet s u then some (releaseStep s (coreOf s u)) else none
  | _ => fenceStep s u k

/-- OrderAfter: an acquire step of the core for .dev and .sys. -/
def orderAfter (s : State) (u : UnitId) (k : Scope) : State :=
  match k with
  | .dev => acquireStep s (coreOf s u)
  | .sys => acquireStep s (coreOf s u)
  | _ => s

/-- Whether an ordering has a step before the atomic. -/
def hasBefore : AtomOrd → Bool
  | .rel => true
  | .ar => true
  | _ => false

/-- Whether an ordering has a step after the atomic. -/
def hasAfter : AtomOrd → Bool
  | .acq => true
  | .ar => true
  | _ => false

/-- The issue of atom or best: its lanes resolved, the word held where it must wait, then the lanes performed in ascending order by a
step that answers each lane's old value (08 R200). It returns values while its clause runs on, so that a lockstep team compares what the
clause has done so far, the atomic's operands among it, before the atomic leaves (17 R386, log 44). -/
def atomIssue (i : Instr) (a : OField) (u : SIdx) (g : Guard) (r : AtomOrd) (size : Nat)
    (perform : Ctx → Nat → Loc → State → W64 × State) (finish : Ctx → Grp → Nat → W64 → Grp) (s : State) : Out :=
  word i s (fun x =>
    let ls := (x.parts g).map (fun l => (l, x.uni64 u.toNat + sext64 (x.src l a)))
    if touchesLogged s x.u .gen size ls then s
    else
      match access s x.u .atomic .gen size size ls with
      | .trap s1 c sub mask ad => trapWord s1 x c sub mask ad
      | .go s1 ok [] =>
        if recalled s1 x.u ok || ok.any (fun e => earlierAt x.g e.lane e.loc size) || (ordered r && !quiet s x.u) then s1
        else if (firstUpset s1 x.u x.cl).isSome then compareNow s1 x
        else
          match (if hasBefore r then orderBefore s1 x.u (atomScope x) else some s1) with
          | none => s1
          | some s2 =>
            let res := ok.foldl (fun (acc : List (Nat × W64) × State) e =>
              let p := perform x e.lane e.loc acc.2
              (acc.1 ++ [(e.lane, p.1)], p.2)) ([], s2)
            let s3 := modUnit res.2 x.u (fun gr => advance (res.1.foldl (fun gr e => finish x gr e.1 e.2) gr))
            if hasAfter r then orderAfter s3 x.u (atomScope x) else s3
      | .go s1 ok fs => holdReplay s1 x.u .atomic fs)

/-- One access of an atomic with its operands: the core's unpublished bytes of the location are published, the latest value is read and
the new one written (05 R108, 08 R200). -/
def atomPerform (k : AtomOp) (core : Nat) (loc : Loc) (o : W64 × W64) (s : State) : W64 × State :=
  let n := atomBytes k
  let s1 := publishLoc s core loc n
  let old : W64 := BitVec.ofNat 64 (bytesToNat (locBytes s1 loc n))
  (old, atomPut s1 core loc (natToBytes n (atomNew k old o.1 o.2).toNat))

/-- One lane of atom. -/
def atomLane (k : AtomOp) (d : OField) (x : Ctx) (l : Nat) (loc : Loc) (s : State) : W64 × State :=
  atomPerform k x.t.core loc (atomOperands x k d l) s

/-- atom: d and lt receive the old value (08 R200). -/
def execAtom (d a : OField) (u : SIdx) (g : Guard) (r : AtomOrd) (k : AtomOp) (s : State) : Out :=
  atomIssue (.atom d a u g r k) a u g r (atomBytes k) (atomLane k d) (fun x gr l old =>
    if k.wide then write64 x.cond gr l d old else writeO x.cond gr l d (old.setWidth 32) (old.setWidth 32)) s

/-- The operands of a red as a pending access keeps them. -/
def redData (o : W64 × W64) : List Byte := natToBytes 8 o.1.toNat ++ natToBytes 8 o.2.toNat

/-- A red issued without waiting: its lanes are performed when their turn comes, in the order of accesses to the same bytes and of its
ordering (05 R100, 08 R200, R201). -/
def issueRed (s : State) (x : Ctx) (k : AtomOp) (d : OField) (r : AtomOrd) (ok : List LaneAcc) : State :=
  if ok = [] then setUnit s x.u (advance x.g)
  else
    let (id, s1) := fresh s
    setUnit s1 x.u (advance { x.g with stores := x.g.stores ++
      [{ id := id, pc := x.pc, cstart := x.cl.head, flag := none, red := some k, ord := r, scope := atomScope x,
         lanes := ok.map (fun a => { a with data := redData (atomOperands x k d a.lane) }) }] })

/-- red: writes no register, not lt, and issues without waiting (08 R200). -/
def execRed (d a : OField) (u : SIdx) (g : Guard) (r : AtomOrd) (k : AtomOp) (s : State) : Out :=
  word (.red d a u g r k) s (fun x =>
    let ls := (x.parts g).map (fun l => (l, x.uni64 u.toNat + sext64 (x.src l a)))
    if touchesLogged s x.u .gen (atomBytes k) ls then s
    else
      match access s x.u .atomic .gen (atomBytes k) (atomBytes k) ls with
      | .trap s1 c sub mask ad => trapWord s1 x c sub mask ad
      | .go s1 ok [] => issueRed s1 x k d r ok
      | .go s1 ok fs => holdReplay s1 x.u .atomic fs)

/-- The key and the payload words of best, zeros to word 7 (08 R202). -/
def bestRecord (x : Ctx) (d : OField) (w l : Nat) : List Byte :=
  (List.range (w + 1)).flatMap (fun j => natToBytes 4 (x.src l (BitVec.ofNat 4 (d.toNat + j))).toNat) ++ List.replicate (4 * (8 - w)) 0

/-- One lane of best: a greater key replaces the record in one update (08 R202). -/
def bestLane (d : OField) (w : BitVec 4) (x : Ctx) (l : Nat) (loc : Loc) (s : State) : W64 × State :=
  let s1 := publishLoc s x.t.core loc 64
  let old := bytesToNat (locBytes s1 loc 4)
  (BitVec.ofNat 64 old,
    if old < (x.src l d).toNat then atomPut s1 x.t.core loc (bestRecord x d w.toNat l) else s1)

/-- best: d and lt receive the old key (08 R202). -/
def execBest (d a : OField) (u : SIdx) (g : Guard) (r : AtomOrd) (w : BitVec 4) (s : State) : Out :=
  atomIssue (.best d a u g r w) a u g r 64 (bestLane d w) (fun x gr l old =>
    writeO x.cond gr l d (old.setWidth 32) (old.setWidth 32)) s

/-! ## Draining of stores (05 R98-R100) -/

/-- Whether an ordered red still waits for an earlier access of its group, or for a peer's acknowledgement (08 R201). -/
def redWaits (s : State) (u : UnitId) (p : PendingStore) : Bool :=
  ordered p.ord &&
  (let g := unitAt s u
   g.loads.any (fun q => decide (q.id < p.id)) || g.stores.any (fun q => decide (q.id < p.id)) ||
   (loggedOf s u).any (fun e => decide (e.id < p.id)) || (hasBefore p.ord && p.scope == .sys && peerWaits s u))

/-- Whether a store of a group may drain: it does not wait for a REPLAY, for its matrix operation, for a recall or for its clause's
comparison; the stores before it have drained, and every earlier access that it must follow. A red without an ordering waits for the last
alone (17 R375). -/
def storeReady (s : State) (u : UnitId) (p : PendingStore) : Bool :=
  let g := unitAt s u
  p.logged.isNone && p.op.isNone && !recalled s u p.lanes && !unreleased s u p.id && !redWaits s u p &&
  !g.loads.any (fun q => decide (q.id < p.id) && p.lanes.any (fun a => afterLoad q a (p.size a))) &&
  !(g.stores.takeWhile (fun q => decide (q ≠ p))).any (fun q =>
    (p.red.isNone && q.red.isNone) || p.lanes.any (fun a => afterStore q a (p.size a)))

/-- One lane of a store drains; a red is performed (08 R200). -/
def drainLane (p : PendingStore) (core : Nat) (s : State) (a : LaneAcc) : State :=
  match p.red with
  | some k => (atomPerform k core a.loc (BitVec.ofNat 64 (bytesToNat (a.data.take 8)), BitVec.ofNat 64 (bytesToNat (a.data.drop 8))) s).2
  | none => drainTo s core a.loc a.data

/-- The step of an ordered red before its lanes, where its scope has one (08 R201). -/
def redBefore (s : State) (c : Nat) (p : PendingStore) : State :=
  if p.red.isSome && hasBefore p.ord then
    (match p.scope with
     | .dev => releaseStep s c
     | .sys => arStep s c
     | _ => s)
  else s

/-- The step of an ordered red after its lanes (08 R201). -/
def redAfter (s : State) (u : UnitId) (p : PendingStore) : State :=
  if p.red.isSome && hasAfter p.ord then orderAfter s u p.scope else s

/-- STORE_DRAIN: the oldest store of a group that may drain does, its lanes in ascending order (05 R98, R99). -/
def execStoreDrain (u : UnitId) (s : State) : Out :=
  let g := unitAt s u
  match g.stores.find? (storeReady s u) with
  | none => .next s
  | some p =>
    let s1 := setUnit s u { flagDec g p.flag with stores := g.stores.erase p }
    .next (redAfter (p.lanes.foldl (drainLane p (coreOf s u)) (redBefore s1 (coreOf s u) p)) u p)

end Sys2Proof.Machine
end

