-- ==== Sys2Proof/Machine/Lanes.lean ====
section
/-! DEFINITION. Lane words: majors 0x14 to 0x16 (07 R170-R176), over one group's sections or the 64 lanes of a pair
(13 R301). -/

set_option linter.unusedVariables false

namespace Sys2Proof.Machine

/-! ## Sections and source participants -/

/-- Section width: the one SECT gave the run at its header, or 64 in pair mode (07 R170, 13 R301). -/
def Ctx.width (x : Ctx) : Nat := if x.t.pairMode then 64 else 2 ^ x.cl.sect

/-- The lane a section counts with: the pair lane in pair mode, else LANE (13 R301). -/
def Ctx.laneNo (x : Ctx) (l : Nat) : Nat := if x.t.pairMode then 32 * (x.u.idx % 2) + l else l

/-- The other group of a pair. -/
def partner (u : UnitId) : UnitId := ⟨u.team, if u.idx % 2 = 0 then u.idx + 1 else u.idx - 1⟩

/-- The groups in which a lane word issues together: the group alone, or both groups of a pair whose run stands at the
word; none while the other group has yet to reach it (log 21). -/
def laneGroup (s : State) (x : Ctx) : Option (List Ctx) :=
  if !x.t.pairMode then some [x]
  else
    let v := partner x.u
    let g := unitAt s v
    match g.clause with
    | none => some [x]
    | some cl =>
      if cl.head ≠ x.cl.head then some [x]
      else if cl.next < x.cl.next then none
      else if cl.next = x.cl.next then
        let y : Ctx := { u := v, g := g, cl := cl, t := x.t }
        some (if x.u.idx % 2 = 0 then [x, y] else [y, x])
      else some [x]

/-- Source participants with their values, in ascending lane. -/
def sources (xs : List Ctx) (g : Guard) (a : OField) : List (Nat × W32) :=
  xs.flatMap (fun y => (y.parts g).map (fun l => (y.laneNo l, y.src l a)))

/-- The source participants of one lane's section. -/
def sectionOf (w lane : Nat) (ps : List (Nat × W32)) : List (Nat × W32) := ps.filter (fun p => p.1 / w == lane / w)

/-- A lane word: each participant's group is changed from the word's source participants, in one or both groups. -/
def laneWord (i : Instr) (g : Guard) (a : OField) (f : List (Nat × W32) → Ctx → Nat → Grp → Grp) (s : State) : Out :=
  word i s (fun x =>
    match laneGroup s x with
    | none => s
    | some xs =>
      let ps := sources xs g a
      xs.foldl (fun s y => setUnit s y.u (advance ((y.parts g).foldl (fun gr l => f ps y l gr) y.g))) s)

/-- A lane word with a 32-bit result and flags. -/
def laneAlu (i : Instr) (g : Guard) (d a : OField) (f : List (Nat × W32) → Ctx → Nat → W32 × BitVec 5) (s : State) : Out :=
  laneWord i g a (fun ps y l gr => orFlags (writeO false gr l d (f ps y l).1 (f ps y l).1) l (f ps y l).2) s

/-- A lane word with a predicate result. -/
def laneP (i : Instr) (g : Guard) (p : PIdx) (a : OField) (f : List (Nat × W32) → Ctx → Nat → Bool) (s : State) : Out :=
  laneWord i g a (fun ps y l gr => writeP gr l p (f ps y l)) s

/-! ## Major 0x14 -/

/-- The lane a shuffle reads, if any (07 R171). -/
def shflFrom (m : ShflMode) (w lane k : Nat) : Option Nat :=
  let i := lane % w
  let base := lane - i
  match m with
  | .idx => some (base + k % w)
  | .up => if k ≤ i then some (base + (i - k)) else none
  | .down => if i + k < w then some (base + (i + k)) else none
  | .xor => some (base + (i ^^^ (k % w)))

/-- shfl (07 R171): a lane that names no source participant keeps its own a. -/
def execShfl (d a b : OField) (g : Guard) (m : ShflMode) (s : State) : Out :=
  laneAlu (.shfl d a b g m) g d a (fun ps y l =>
    let lane := y.laneNo l
    let own := y.src l a
    match shflFrom m y.width lane (y.src l b).toNat with
    | none => (own, 0)
    | some j => (tget own ps j, 0)) s

/-- One byte of prmt (07 R172). -/
def prmtByte (a b c : W32) (i : Nat) : Nat :=
  let n := c.toNat / 2 ^ (4 * i) % 16
  let v := (b.toNat * 2 ^ 32 + a.toNat) / 2 ^ (8 * (n % 8)) % 256
  if n < 8 then v else if 128 ≤ v then 255 else 0

/-- prmt (07 R172). -/
def execPrmt (d a b c : OField) (g : Guard) (s : State) : Out :=
  alu3 (.prmt d a b c g) g d a b c (fun a b c =>
    BitVec.ofNat 32 (prmtByte a b c 0 + prmtByte a b c 1 * 2 ^ 8 + prmtByte a b c 2 * 2 ^ 16 + prmtByte a b c 3 * 2 ^ 24)) s

/-- Bytes a look-up reads and the scale of its index (07 R173). -/
def tluBytes : TluKind → Nat
  | .b32 => 4
  | .n8 => 1

/-- A read of the code object's read-only data beyond its end: lanes and offsets out of range (07 R173). -/
def dataBad (x : Ctx) (size : Nat) (offs : List (Nat × Nat)) : List (Nat × Nat) :=
  offs.filter (fun o => decide (x.t.kernel.dataLen < o.2 + size))

/-- Reads of read-only data at offsets, under the outcomes of 07 R173: MISALIGNED, then the bound, then the access. -/
def dataRead (s : State) (x : Ctx) (size : Nat) (offs : List (Nat × Nat)) : HeldRead :=
  let va (o : Nat) : W64 := BitVec.ofNat 64 (x.t.kernel.dataBase + o)
  let mis := offs.filter (fun o => (va o.2).toNat % size != 0)
  let bad := dataBad x size offs
  match mis, bad with
  | m :: _, _ => .stop (trapWord s x .misaligned 0 (laneMask (mis.map (·.1))) (va m.2))
  | [], b :: _ => .stop (trapWord s x .accessViolation 1 (laneMask (bad.map (·.1))) (va b.2))
  | [], [] => heldRead s x .glb size size (offs.map (fun o => (o.1, va o.2)))

/-- tlu (07 R173). -/
def execTlu (d a b : OField) (g : Guard) (w : TluKind) (s : State) : Out :=
  word (.tlu d a b g w) s (fun x =>
    let n := tluBytes w
    match dataRead s x n ((x.parts g).map (fun l => (l, (x.src l b).toNat + n * ((x.src l a).toNat % 256)))) with
    | .stop s' => s'
    | .vals s' vs =>
      setUnit s' x.u (advance (vs.foldl (fun gr e =>
        let r := bytesToW32 e.2
        writeO false gr e.1 d r r) (unitAt s' x.u))))

/-! ## Major 0x15 (07 R174) -/

/-- vote.all, vote.any and vote.uni. -/
def execVote (p : PIdx) (a : OField) (g : Guard) (k : VoteKind) (s : State) : Out :=
  laneP (.vote p a g k) g p a (fun ps y l =>
    let vs := (sectionOf y.width (y.laneNo l) ps).map (·.2)
    match k with
    | .all => vs.all (· != 0)
    | .any => vs.any (· != 0)
    | .uni => vs.all (fun v => v == vs.headD 0)) s

/-- The mask a group reads of a set of section lanes: bits of its own half in pair mode (13 R301). -/
def maskFor (y : Ctx) (lanes : List Nat) : W32 :=
  if y.t.pairMode then laneMask ((lanes.filter (fun l => l / 32 == y.u.idx % 2)).map (· % 32)) else laneMask lanes

/-- vote.ballot. -/
def execVoteBallot (d a : OField) (g : Guard) (s : State) : Out :=
  laneAlu (.voteBallot d a g) g d a (fun ps y l =>
    (maskFor y (((sectionOf y.width (y.laneNo l) ps).filter (fun p => p.2 != 0)).map (·.1)), 0)) s

/-- match.any and match.all. -/
def execLaneMatch (d a : OField) (g : Guard) (m : MatchKind) (s : State) : Out :=
  laneAlu (.laneMatch d a g m) g d a (fun ps y l =>
    let sec := sectionOf y.width (y.laneNo l) ps
    match m with
    | .any => (maskFor y ((sec.filter (fun p => p.2 == y.src l a)).map (·.1)), 0)
    | .all => (if sec.all (fun p => p.2 == y.src l a) then maskFor y (sec.map (·.1)) else 0, 0)) s

/-- elect: the lowest source participant of the section. -/
def execElect (p : PIdx) (g : Guard) (s : State) : Out :=
  laneP (.elect p g) g p 15 (fun ps y l =>
    ((sectionOf y.width (y.laneNo l) ps).head?.map (·.1)) == some (y.laneNo l)) s

/-- The code of a section width (02 R51). -/
def sectCode : SectWidth → Nat
  | .w2 => 1
  | .w4 => 2
  | .w8 => 3
  | .w16 => 4
  | .w32 => 5

/-- sect: SECT of the team from each run's next header on, and lt (07 R174, R175). -/
def execSect (g : Guard) (w : SectWidth) (s : State) : Out :=
  word (.sect g w) s (fun x =>
    let ps := x.parts g
    let c := BitVec.ofNat 32 (sectCode w)
    let s1 := setUnit s x.u (advance (ps.foldl (fun gr l => writeO false gr l 15 c c) x.g))
    if ps = [] then s1 else writeSect s1 x.u (sectCode w))

/-! ## Major 0x16 (07 R176) -/

/-- The identity of a reduction. -/
def redIdentity : RedOp → W32
  | .add => 0
  | .minI => 0x7FFFFFFF
  | .maxI => 0x80000000
  | .minN => 0xFFFFFFFF
  | .maxN => 0
  | .and => 0xFFFFFFFF
  | .or => 0
  | .xor => 0
  | .fadd => 0x80000000
  | .fmin => 0x7F800000
  | .fmax => 0xFF800000

/-- One step of a reduction in FPCTL's mode, without saturation. -/
def redStep (o : RedOp) (env : FEnv) (x y : W32) : W32 × BitVec 5 :=
  match o with
  | .add => (x + y, 0)
  | .minI => (minS x y, 0)
  | .maxI => (maxS x y, 0)
  | .minN => (minU x y, 0)
  | .maxN => (maxU x y, 0)
  | .and => (x &&& y, 0)
  | .or => (x ||| y, 0)
  | .xor => (x ^^^ y, 0)
  | .fadd => let r := addIn f32 { env with sat := false } x.toNat y.toNat; (BitVec.ofNat 32 r.1, r.2)
  | .fmin => fminmax false x y
  | .fmax => fminmax true x y

/-- A reduction over values in ascending lane order, one at a time; over one value it is that value. -/
def redFold (o : RedOp) (env : FEnv) (vs : List W32) : W32 × BitVec 5 :=
  match vs with
  | [] => (redIdentity o, 0)
  | v :: r => r.foldl (fun acc x => let st := redStep o env acc.1 x; (st.1, acc.2 ||| st.2)) (v, 0)

/-- sred: over all source participants of the section. -/
def execSred (d a : OField) (g : Guard) (o : RedOp) (s : State) : Out :=
  laneAlu (.sred d a g o) g d a (fun ps y l =>
    redFold o (y.fenv l) ((sectionOf y.width (y.laneNo l) ps).map (·.2))) s

/-- sscan: over those at or below the lane. -/
def execSscan (d a : OField) (g : Guard) (o : RedOp) (s : State) : Out :=
  laneAlu (.sscan d a g o) g d a (fun ps y l =>
    redFold o (y.fenv l) (((sectionOf y.width (y.laneNo l) ps).filter (fun p => decide (p.1 ≤ y.laneNo l))).map (·.2))) s

/-- sscan.ex: over those strictly below the lane, the identity when there are none. -/
def execSscanEx (d a : OField) (g : Guard) (o : RedOp) (s : State) : Out :=
  laneAlu (.sscanEx d a g o) g d a (fun ps y l =>
    redFold o (y.fenv l) (((sectionOf y.width (y.laneNo l) ps).filter (fun p => decide (p.1 < y.laneNo l))).map (·.2))) s

end Sys2Proof.Machine
end

