-- ==== Sys2Proof/Machine/Control.lean ====
section
/-! DEFINITION. Control words: majors 0x1C to 0x1E but for the sleeps (08 R185-R192). A control word leaves its outcome in
the clause; the trailer applies it after its commits (08 R187). -/

set_option linter.unusedVariables false

namespace Sys2Proof.Machine

/-- The clause goes on to its trailer with an outcome. -/
def setCtl (s : State) (x : Ctx) (c : Ctl) : State :=
  setUnit s x.u { x.g with clause := some { x.cl with next := x.cl.next + 1, hints := {}, ctl := c } }

/-- The address a B-form offset names (06 R134). -/
def branchTarget (x : Ctx) (off : BitVec 22) : W64 := BitVec.ofNat 64 x.fall + off.signExtend 64 * 4

/-- bra (08 R185). -/
def execBra (g : Guard) (off : BitVec 22) (s : State) : Out :=
  word (.bra g off) s (fun x =>
    setCtl s x (.xfers ((x.parts g).map (fun l => (l, { target := branchTarget x off })))))

/-- The private bytes a spilled entry takes. -/
def spillLoc (x : Ctx) (l n : Nat) : Loc := .priv (unitKey x.u) l (x.t.privBytes + 8 * n)

/-- Lanes whose push would spill beyond the declared bytes (02 R49). -/
def overSpill (x : Ctx) (ps : List Nat) : List Nat :=
  ps.filter (fun l =>
    decide (Config.returnEntries ≤ (x.thr l).links.length) && decide (x.t.kernel.spill < 8 * ((x.thr l).spilled + 1)))

/-- Whether some push writes spill bytes that an earlier access of the group has yet to reach (05 R100). -/
def spillBusy (x : Ctx) (ps : List Nat) : Bool :=
  ps.any (fun l => decide (Config.returnEntries ≤ (x.thr l).links.length) && earlierAt x.g l (spillLoc x l (x.thr l).spilled) 8)

/-- A word that pushes links: OPERAND_LIMIT 5 at the word where a spill would pass its bound (08 R189), else its transfers. -/
def pushing (s : State) (x : Ctx) (ps : List Nat) (xs : TMap Xfer) : State :=
  if overSpill x ps ≠ [] then trapWord s x .operandLimit 5 (laneMask (overSpill x ps)) 0
  else if spillBusy x ps then s
  else setCtl s x (.xfers xs)

/-- call: pushes the fall-through address (08 R185). -/
def execCall (g : Guard) (off : BitVec 22) (s : State) : Out :=
  word (.call g off) s (fun x =>
    let ps := x.parts g
    pushing s x ps (ps.map (fun l => (l, { target := branchTarget x off, link := .push (BitVec.ofNat 48 x.fall) }))))

/-- The transfer of one entry of a jump table: an entry that is not a multiple of 4 gives a target that 08 R189 traps MISALIGNED after
the commits (08 R188). -/
def brxXfer (x : Ctx) (label : Nat) (entry : W32) : Xfer :=
  { target := BitVec.ofNat 64 (x.t.kernel.codeBase + entry.toNat), expect := some (BitVec.ofNat 16 label) }

/-- brx: each participant reads the head of its own table, then its entry, the last where its index is out of range
(08 R188, R189). -/
def execBrx (a b : OField) (g : Guard) (s : State) : Out :=
  word (.brx a b g) s (fun x =>
    let ps := x.parts g
    match dataRead s x 4 (ps.map (fun l => (l, (x.src l b).toNat))) with
    | .stop s' => s'
    | .vals s1 heads =>
      let head (l : Nat) : Nat := bytesToNat (tget [] heads l)
      let off (l : Nat) : Nat := (x.src l b).toNat + 4 * (1 + Nat.min (x.src l a).toNat (head l % 65536))
      match dataRead s1 x 4 (ps.map (fun l => (l, off l))) with
      | .stop s' => s'
      | .vals s2 entries =>
        setCtl s2 x (.xfers (ps.map (fun l => (l, brxXfer x (head l / 65536) (bytesToW32 (tget [] entries l)))))))

/-- callx: a 64-bit target and an expected label (08 R186, R187). -/
def execCallx (a b : OField) (g : Guard) (s : State) : Out :=
  word (.callx a b g) s (fun x =>
    let ps := x.parts g
    pushing s x ps (ps.map (fun l =>
      (l, { target := x.src64 l a, expect := some ((x.src l b).setWidth 16), link := .push (BitVec.ofNat 48 x.fall) }))))

/-- ret: RETURN_UNDERFLOW at the word where stack and spill area are empty (02 R49, 08 R189); a reload waits for the
group's earlier accesses of its bytes (05 R100). -/
def execRet (g : Guard) (s : State) : Out :=
  word (.ret g) s (fun x =>
    let ps := x.parts g
    let base := x.t.privBytes
    let empty := ps.filter (fun l => (topLink base (x.thr l)).isNone)
    let busy := ps.any (fun l =>
      decide ((x.thr l).links = []) && earlierAt x.g l (spillLoc x l ((x.thr l).spilled - 1)) 8)
    if empty ≠ [] then trapWord s x .returnUnderflow 0 (laneMask empty) 0
    else if busy then s
    else
      setCtl s x (.xfers (ps.map (fun l =>
        (l, { target := (topLink base (x.thr l)).getD 0, expect := some 0xFFFF, link := .pop })))))

/-- exit: each participant leaves the table after the trailer (08 R190). -/
def execExit (g : Guard) (s : State) : Out :=
  word (.exit g) s (fun x => setCtl s x (.exits (laneMask (x.parts g))))

/-- trap: SOFTWARE with the lowest participant's code in DETAIL; nothing without a participant (08 R191). -/
def execTrap (a : OField) (g : Guard) (s : State) : Out :=
  word (.trap a g) s (fun x =>
    match x.parts g with
    | [] => setCtl s x .fall
    | l :: r =>
      let rec0 := mkRec s x.u x.pc x.cl.head .software 0 (laneMask (l :: r)) 0
      trapDeliver s x.u { rec0 with detail := BitVec.ofNat 32 ((x.src l a).toNat % 65536) })

/-- brk: BREAKPOINT; nothing without a participant (08 R191). -/
def execBrk (g : Guard) (s : State) : Out :=
  word (.brk g) s (fun x =>
    match x.parts g with
    | [] => setCtl s x .fall
    | ps => trapWord s x .breakpoint 0 (laneMask ps) 0)

/-- yield: the run continues at the fall-through address in the group's tail (08 R192, 01 R21). -/
def execYield (s : State) : Out := word .yield s (fun x => setCtl s x .yielding)

end Sys2Proof.Machine
end

