-- ==== Sys2Proof/Machine/Levels.lean ====
section
/-! DEFINITION. Fare levels: what matrix units, operations and purses hold (16 R345, R346), and the ends of holdings (16 R355). -/

set_option linter.unusedVariables false

namespace Sys2Proof.Machine

/-! ## Levels (16 R345, R346) -/

/-- A core's purse changed. -/
def modPurse (s : State) (core : Nat) (f : Purse → Purse) : State := modCore s core (fun c => { c with purse := f c.purse })

/-- The level a matrix unit holds now: its operation or ramp step, and the balance skims on it. -/
def unitNow (p : Purse) : Nat := p.unitLevel + p.balSkim

/-- Whether a unit climbs the ramp table. -/
def climbing (p : Purse) : Bool := (p.mode == .ramping || p.mode == .bursting) && decide (p.unitLevel < p.target)

/-- The fares a matrix unit holds now: F in every window from the first step of a climb on, else its level; and its skims (16 R351). -/
def unitHeld (p : Purse) : Nat := (if climbing p then Nat.max p.target p.unitLevel else p.unitLevel) + p.balSkim

/-- A purse whose window level covers what its unit holds. -/
def noteUnit (p : Purse) : Purse := { p with windowLevel := Nat.max p.windowLevel (unitHeld p) }

/-- The sum of holdings. -/
def sumHoldings (hs : List Holding) : Nat := hs.foldl (fun n h => n + h.fares) 0

/-- Fares a core holds in the window so far: every operation that touches the window counts (16 R345, R346). -/
def coreWindow (p : Purse) : Nat := Nat.max (unitHeld p) p.windowLevel + sumHoldings p.holdings + sumHoldings p.past + p.vector

/-- Fares a core holds at this moment. -/
def coreNow (p : Purse) : Nat := unitHeld p + sumHoldings p.holdings + p.vector

/-- The cores of a cluster. -/
def clusterCores (c : Nat) : List Nat := (List.range Config.coresPerCluster).map (fun i => c * Config.coresPerCluster + i)

/-- The sum of a figure over a cluster's cores. -/
def sumCores (s : State) (c : Nat) (f : Purse → Nat) : Nat := (clusterCores c).foldl (fun n k => n + f (coreAt s k).purse) 0

/-- CUR: the cluster level of the window so far, which never falls within it. -/
def curOf (s : State) (c : Nat) : Nat :=
  Nat.max (clusterAt s c).cur
    (sumCores s c coreWindow + sumHoldings (clusterAt s c).holdings + sumHoldings (clusterAt s c).past)

/-- The level a cluster holds at this moment. -/
def levelNow (s : State) (c : Nat) : Nat := sumCores s c coreNow + sumHoldings (clusterAt s c).holdings

/-- CUR kept. -/
def noteCur (s : State) (c : Nat) : State := modCluster s c (fun k => { k with cur := curOf s c })

/-- The other cluster of a stack pair. -/
def partnerOf (c : Nat) : Nat := if c % 2 = 0 then c + 1 else c - 1

/-- The cluster limit: the lesser of the pair's (16 R347). -/
def climOf (s : State) (c : Nat) : Nat := Nat.min (clusterAt s c).clim (clusterAt s (partnerOf c)).clim

/-- Whether two levels of a stack pair are in balance (16 R354). -/
def balanced (a b : Nat) : Bool :=
  let hi := Nat.max a b
  let lo := Nat.min a b
  decide (hi - lo ≤ Nat.max 16 (hi / 10))

/-- The levels of every cluster summed, against RINGTOT. -/
def ringSum (s : State) : Nat := (tkeys s.clusters).foldl (fun n c => n + curOf s c) 0

/-! ## Falls and ends of holdings (16 R345, R355) -/

/-- A fall in a cluster, and of a matrix unit where one fell, to be judged with the other changes of the cycle (16 R355). -/
def noteFall (s : State) (c : Nat) (core : Option Nat) : State :=
  let s1 := match core with
    | some k => modPurse s k (fun p => { p with fell := true })
    | none => s
  modCluster s1 c (fun k => { k with fell := true })

/-- Whether an operation's holding stands in a core's purse or a cluster's. -/
def holdsFares (s : State) (core op : Nat) : Bool :=
  (coreAt s core).purse.holdings.any (fun h => h.op == op) || (clusterAt s (clusterOf core)).holdings.any (fun h => h.op == op)

/-- An operation's holding in a core's purse, or in its cluster's, and its request gone: the window it ended in still counts it, and its
end is a fall (16 R345, R355). -/
def dropHolding (s : State) (core op : Nat) : State :=
  let c := clusterOf core
  let s1 := noteCur s c
  let ended (hs : List Holding) : List Holding := hs.filter (fun h => h.op == op)
  let s2 := modPurse s1 core (fun p => { p with holdings := p.holdings.filter (fun h => h.op != op), past := p.past ++ ended p.holdings })
  modCluster s2 c (fun k =>
    { k with
      fell := true
      holdings := k.holdings.filter (fun h => h.op != op)
      past := k.past ++ ended k.holdings
      requests := k.requests.filter (fun r => r.op != some op) })

/-- What an operation holds and asks for, ended wherever it stands: in the purses of its cores and of their clusters. -/
def dropOp (s : State) (op : Nat) : State :=
  let cores := (s.cores.filter (fun c => c.2.purse.holdings.any (fun h => h.op == op))).map (·.1)
  let clusters := s.clusters.filter (fun k => k.2.holdings.any (fun h => h.op == op) || k.2.requests.any (fun r => r.op == some op))
  (cores ++ clusters.map (fun k => k.1 * Config.coresPerCluster)).foldl (fun s c => dropHolding s c op) s

end Sys2Proof.Machine
end

