-- ==== Sys2Proof/Machine/Link.lean ====
section
/-! DEFINITION. The host event ring, the mailbox's order of messages and the writes of the link (19 R396, R397, 05 R120). -/

set_option linter.unusedVariables false

namespace Sys2Proof.Machine

/-- A change of the mailbox's part of the state. -/
def modMail (s : State) (f : Mailbox → Mailbox) : State := { s with mailbox := f s.mailbox }

/-- The 64 bytes of an event with its device count. -/
def eventBytes (seq : W32) (e : HostEvent) : List Byte :=
  ([BitVec.ofNat 8 e.type, BitVec.ofNat 8 e.status] ++ natToBytes 2 e.tag.toNat ++ natToBytes 4 seq.toNat ++ e.payload ++ List.replicate 56 0).take 64

/-- Whether the ring is placed and takes one more event: (e − EVACK) mod 2^32 below 2^LOGE. A ring whose queue pair has entered its error
state takes none until it is moved (19 R397, R399, log 41). -/
def ringRoom (m : Mailbox) : Bool := m.ringPlaced && !m.ringDown && decide ((m.deviceSeq - m.evack).toNat < 2 ^ m.loge)

/-- One event written into the ring at its slot. -/
def writeEvent (m : Mailbox) (e : HostEvent) : Mailbox :=
  { m with
    sent := m.sent ++ [(m.ringAddr + 64 * (m.deviceSeq.toNat % 2 ^ m.loge), eventBytes m.deviceSeq e)]
    deviceSeq := m.deviceSeq + 1 }

/-- Waiting events written in order while the ring has room. -/
def sendEvents : List HostEvent → Mailbox → Mailbox
  | [], m => { m with queue := [] }
  | e :: r, m => if ringRoom m then sendEvents r (writeEvent m e) else { m with queue := e :: r }

/-- The SEQ of a message. -/
def seqOf (bs : List Byte) : Nat := bytesToNat ((bs.drop 4).take 4)
/-- The TYPE of a message. -/
def typeOf (bs : List Byte) : Nat := bytesToNat (bs.take 1)
/-- The TAG of a message. -/
def tagOf (bs : List Byte) : BitVec 16 := BitVec.ofNat 16 (bytesToNat ((bs.drop 2).take 2))

/-- Whether core 6 may take a message now: before a ring is placed, and while its queue pair is in error, only EVENT_RING, and none while
the ring is full. -/
def mayTake (m : Mailbox) (bs : List Byte) : Bool := if m.ringPlaced && !m.ringDown then decide (m.queue = []) && ringRoom m else typeOf bs == 8

/-- The next unanswered message in SEQ order, with its port and whether it was written over an unanswered one: one whose slot has since been
rewritten, or the one in its slot. -/
def nextMessage (m : Mailbox) : Option (Nat × Bool × List Byte) :=
  let i := m.nextSeq.toNat % 64
  match m.kept.find? (fun k => seqOf k.2.2 == m.nextSeq.toNat) with
  | some k => some k
  | none =>
    match tget? m.slots i with
    | some bs => if seqOf bs = m.nextSeq.toNat ∧ hasNat m.pending i then some (tget 0 m.ports i, hasNat m.busy i, bs) else none
    | none => none

/-- The message core 6 takes next, in SEQ order; one that was written over an unanswered message is answered BUSY. -/
def takeMessage (m : Mailbox) : Mailbox :=
  match m.inService, nextMessage m with
  | none, some (port, busy, bs) =>
    if !mayTake m bs then m
    else
      let i := m.nextSeq.toNat % 64
      let m1 := { m with kept := m.kept.filter (fun k => seqOf k.2.2 != m.nextSeq.toNat) }
      if busy then
        let m2 := if m1.kept = m.kept then { m1 with pending := m.pending.filter (· != i), busy := m.busy.filter (· != i) } else m1
        { m2 with nextSeq := m.nextSeq + 1, queue := m.queue ++ [⟨0x81, 4, tagOf bs, []⟩] }
      else { m1 with inService := some bs, servicePort := port }
  | _, _ => m

/-- Core 6's work: events sent, then the next message taken. -/
def serveMail (s : State) : State := modMail s (fun m => takeMessage (sendEvents m.queue m))

/-- The reply to the message in service: its slot is answered, and SEQ order goes on. -/
def replyMail (s : State) (status : Nat) : State :=
  match s.mailbox.inService with
  | none => s
  | some bs =>
    serveMail (modMail s (fun m =>
      { m with
        inService := none
        nextSeq := m.nextSeq + 1
        pending := if hasNat m.busy (seqOf bs % 64) then m.pending else m.pending.filter (· != seqOf bs % 64)
        queue := m.queue ++ [⟨0x81, status, tagOf bs, []⟩] }))

/-- Whether an instruction is the message in service. -/
def isMessage (s : State) (i : Instr) : Bool :=
  match s.mailbox.inService with
  | some bs => decide (decodeMessage bs = i)
  | none => false

/-- A message with its reply: STATUS and the state its effect leaves; without a message in service the effect alone. -/
def mailReply (s : State) (i : Instr) (r : State × Nat) : State := if isMessage s i then replyMail r.1 r.2 else r.1

/-- A message of a kind that recovery does not accept: REFUSED there, else its reply (19 R403). -/
def mailServed (s : State) (i : Instr) (r : State × Nat) : State := mailReply s i (if s.boot = .recovery ∧ isMessage s i then (s, 2) else r)

/-- Whether a HOST_FAULT can be written into the ring now (17 R372, 19 R397). -/
def hostReady (s : State) : Bool := decide (s.mailbox.queue = []) && ringRoom s.mailbox

/-! ## Writes of the link (05 R120, 19 R396, R399) -/

/-- Bytes of the mailbox window from an offset on. -/
def mailboxRead (m : Mailbox) (off : Nat) : Byte :=
  if off < 4096 then ((tget? m.slots (off / 64)).getD []).getD (off % 64) 0
  else (natToBytes 4 m.evack.toNat).getD (off - 4096) 0

/-- Bytes written into a slot. -/
def slotWith (old : List Byte) (off : Nat) (addr : Nat) (bytes : List Byte) : List Byte :=
  (List.range 64).map (fun i => if addr ≤ off + i ∧ off + i < addr + bytes.length then bytes.getD (off + i - addr) 0 else old.getD i 0)

/-- The port of a link queue pair: a pair is named by 65,536 times its port plus its 16-bit number (00 R1, 19 R398). -/
def portOf (qp : Nat) : Nat := qp / 65536 % 2

/-- Whether the message that stands in a slot is the one in service. -/
def slotServed (m : Mailbox) (i : Nat) : Bool := m.inService.any (fun bs => seqOf bs % 64 == i) && !hasNat m.busy i

/-- A message's arrival in one slot by a port: one that finds its slot unanswered holds BUSY, and the message it is written over, unless that
is in service, is kept until its turn (19 R396). -/
def slotArrives (port addr : Nat) (bytes : List Byte) (m : Mailbox) (i : Nat) : Mailbox :=
  { m with
    kept := if hasNat m.pending i && !slotServed m i then m.kept ++ [(tget 0 m.ports i, hasNat m.busy i, (tget? m.slots i).getD [])] else m.kept
    slots := tset m.slots i (slotWith ((tget? m.slots i).getD []) (64 * i) addr bytes)
    ports := tset m.ports i port
    pending := dedupNat (m.pending ++ [i])
    busy := if hasNat m.pending i then dedupNat (m.busy ++ [i]) else m.busy }

/-- A write into the mailbox window that a port carries. -/
def mailboxWrite (port : Nat) (m : Mailbox) (addr : Nat) (bytes : List Byte) : Mailbox :=
  let touched := (List.range 64).filter (fun i => decide (64 * i < addr + bytes.length) && decide (addr < 64 * i + 64))
  let m1 := if bytes = [] then m else touched.foldl (slotArrives port addr bytes) m
  let ack := (List.range 4).map (fun i =>
    if addr ≤ 4096 + i ∧ 4096 + i < addr + bytes.length then bytes.getD (4096 + i - addr) 0 else mailboxRead m (4096 + i))
  { m1 with evack := bytesToW32 ack }

/-- The number that stands for offset 0 of the mailbox window among the places of link writes. -/
def mailboxPlace : Nat := 2 ^ 64

/-- One link write of a queue pair performed: at its home slices, or in the mailbox window. -/
def linkPut (qp : Nat) (s : State) (ws : Writes) : State :=
  match ws with
  | (a, _) :: _ =>
    if a < mailboxPlace then homeWrite s ws
    else serveMail (modMail s (fun m => mailboxWrite (portOf qp) m (a - mailboxPlace) (ws.map (·.2))))
  | [] => s

/-- Link writes that waited for a line's owner are performed, those of one queue pair in the order received (05 R120). -/
def deliverHeld (s : State) : State :=
  if s.linkHeld = [] then s
  else
    let r := s.linkHeld.foldl (fun (acc : State × List (Nat × Writes)) e =>
      if acc.2.any (fun h => h.1 == e.1) || e.2.any (fun w => ownedLine acc.1 (.phys (lineOf w.1))) then (acc.1, acc.2 ++ [e])
      else (linkPut e.1 acc.1 e.2, acc.2)) ({ s with linkHeld := [] }, [])
    { r.1 with linkHeld := r.2 }

end Sys2Proof.Machine
end

