-- ==== Sys2Proof/Machine/Pages.lean ====
section
/-! DEFINITION. What firmware does to page tables (17 R362, R363, R368, R373): frames taken and cleared, tables built and leaves
written, cached translations dropped. -/

set_option linter.unusedVariables false

namespace Sys2Proof.Machine

/-- Bytes of a 64 KiB frame or page. -/
def pageBytes : Nat := 65536

/-- Addresses of a frame that some memory or core lists. -/
def frameAddrs (s : State) (pa : Nat) : List Nat :=
  let inF (a : Nat) : Bool := decide (pa ≤ a) && decide (a < pa + pageBytes)
  dedupNat ((tkeys s.mem ++ s.cores.flatMap (fun c => tkeys c.2.cut ++ tkeys c.2.own ++ tkeys c.2.unpub)).filter inF)

/-- A frame's bytes zero for every agent. -/
def clearFrame (s : State) (pa : Nat) : State := engineWrite s ((frameAddrs s pa).map (fun a => (a, (0 : Byte))))

/-- The next free frame: one freed before, else the lowest never handed out (log 12). -/
def takeFrame (s : State) : Option (Nat × State) :=
  match s.freeFrames with
  | f :: r => some (f * pageBytes, clearFrame { s with freeFrames := r } (f * pageBytes))
  | [] =>
    if (s.freshFrame + 1) * pageBytes ≤ s.memBytes then
      some (s.freshFrame * pageBytes, clearFrame { s with freshFrame := s.freshFrame + 1 } (s.freshFrame * pageBytes))
    else none

/-- An entry written to a table and published. -/
def writeEntry (s : State) (pte e : Nat) : State := engineWrite s (writesOf pte (natToBytes 8 e))

/-- The words of a table that stands for one entry of a level: parts of its leaf, or its non-present copies. -/
def splitEntry (e level : Nat) : List Nat :=
  (List.range (if level = 1 then 32 else 512)).map (fun i => if bitsAt e 0 0 = 1 then e + i * levelSize (level - 1) else e)

/-- The table below an entry of level 3, 2 or 1, built or split where it is none; no frame, none. -/
def tableBelow (s : State) (pte level : Nat) : Option (Nat × State) :=
  let e := memNat s.mem pte 8
  if bitsAt e 1 0 = 3 then some (bitsAt e 47 8 * 256, s)
  else
    match takeFrame s with
    | none => none
    | some (f, s1) =>
      let ws := ((splitEntry e level).map (natToBytes 8)).flatten
      some (f, writeEntry (engineWrite s1 (writesOf f ws)) pte (f + 3))

/-- The address of the level-0 entry of a page from a table of a level on. -/
def entryBelow (va : Nat) : Nat → Nat → State → Option (Nat × State)
  | 0, table, s => some (table + 8 * levelIndex va 0, s)
  | l + 1, table, s =>
    match tableBelow s (table + 8 * levelIndex va (l + 1)) (l + 1) with
    | none => none
    | some (t, s1) => entryBelow va l t s1

/-- The address of the level-0 entry of a page of a context. -/
def pageEntry (s : State) (ctx va : Nat) : Option (Nat × State) := entryBelow va 3 (ctxAt s ctx).record.ptroot s

/-- Whether a cached translation of a context overlaps a range. -/
def overlapsRange (ctx va len : Nat) (e : TlbEntry) : Bool := e.ctx == ctx && decide (e.va < va + len) && decide (va < e.va + e.leaf.size)

/-- Cached translations and table entries of a range dropped everywhere, and pending fills of it voided (17 R368, R369). -/
def dropTlb (s : State) (ctx va len : Nat) : State :=
  let keep (l : List TlbEntry) : List TlbEntry := l.filter (fun e => !overlapsRange ctx va len e)
  { s with
    cores := tmap (fun _ c => { c with tlb := keep c.tlb }) s.cores
    clusters := tmap (fun _ k =>
      { k with
        tlb := keep k.tlb
        ahead := keep k.ahead
        walks := k.walks.filter (fun e => !(e.ctx == ctx && decide (e.va < va + len) && decide (va < e.va + levelSpan e.level)))
        fills := k.fills.map (fun f => { f with voided := f.voided || overlapsRange ctx va len f.entry }) }) s.clusters }

/-- Whether a byte range of virtual addresses meets an invalidated range. -/
def meets (i : Invalidation) (va n : Nat) : Bool := decide (va < i.va + i.len) && decide (i.va < va + n)

/-- The physical address of a virtual one under a context's tables as they stand; none in the peer aperture, where no core reads (19
R400). -/
def placeNow (s : State) (ctx va : Nat) : Option Nat :=
  match rootWalk s ctx va with
  | .leaf l base _ => if inPeer (l.pa + (va - base)) then none else some (l.pa + (va - base))
  | _ => none

/-- Whether one lane of a store or a red holds a physical address of an invalidated range; n is the bytes it writes. -/
def oldLane (i : Invalidation) (n : Nat) (a : LaneAcc) : Bool :=
  (match a.loc with
   | .phys _ => true
   | _ => false) && meets i a.va n

/-- The place of a logged lane: none yet. -/
def noPlace : Loc := .phys (2 ^ 48)

/-- The lowest free slot of an operand log. -/
def freeSlot (log : List LogEntry) : Nat :=
  ((List.range Config.operandLogEntries).filter (fun i => !hasNat (log.map (·.slot)) i)).headD 0

/-- Chosen lanes of an undrained store or red go to an operand-log entry, which stands in its place in the drain (17 R374, R375). -/
def relogStore (sel : PendingStore → LaneAcc → Bool) (ctx : Nat) (u : UnitId) (acc : List LogEntry × List PendingStore) (p : PendingStore) :
    List LogEntry × List PendingStore :=
  let out := (p.lanes.filter (sel p)).map (fun a => { a with loc := noPlace })
  if out = [] then (acc.1, acc.2 ++ [p])
  else
    let id := p.logged.getD p.id
    let log := if acc.1.any (fun e => e.id == id) then acc.1.map (fun (e : LogEntry) => if e.id = id then { e with lanes := e.lanes ++ out } else e)
      else acc.1 ++ [{ id := id, slot := freeSlot acc.1, unit := u, pc := p.pc, cstart := p.cstart, isStore := true, ltype := .b32, flag := p.flag, v := 0, lanes := out,
                       ctx := ctx, atomic := p.red.isSome }]
    (log, acc.2 ++ [{ p with logged := some id, lanes := p.lanes.filter (fun a => !sel p a) }])

/-- Chosen lanes of the undrained stores and reds of a team's units, with the entries they go to. -/
def relogStores (sel : UnitId → PendingStore → LaneAcc → Bool) (log : List LogEntry) (t : Team) : List LogEntry × TMap Grp :=
  t.units.foldl (fun (acc : List LogEntry × TMap Grp) e =>
    let q := e.2.stores.foldl (relogStore (sel ⟨t.uid, e.1⟩) t.ctx ⟨t.uid, e.1⟩) (acc.1, [])
    (q.1, acc.2 ++ [(e.1, { e.2 with stores := q.2 })])) (log, [])

/-! ### Accesses that walk again (17 R369) -/

/-- Whether an access waits for a walk of its core that was voided before its fill, and that a walk now answers otherwise. -/
def walkVoided (s : State) (core ctx id : Nat) (a : LaneAcc) : Bool :=
  (match a.loc with
   | .phys pa => decide (placeNow s ctx a.va ≠ some pa)
   | _ => false) &&
  (clusterAt s (clusterOf core)).fills.any (fun f =>
    f.voided && hasNat f.agents core && decide (f.id < id) && f.entry.ctx == ctx && decide (f.entry.va ≤ a.va) &&
    decide (a.va < f.entry.va + f.entry.leaf.size))

/-- Such a lane's new place; none when its walk now ends otherwise. -/
def walkedAgain (s : State) (core ctx : Nat) (kind : AccKind) (a : LaneAcc) : Option LaneAcc :=
  match globalLane s core ctx kind a.va (BitVec.ofNat 64 a.va) with
  | .ok loc _ => some { a with loc := loc }
  | _ => none

/-- The lanes of an access with those that walk again at their new places. -/
def lanesAgain (s : State) (core ctx id : Nat) (kind : AccKind) (ls : List LaneAcc) : List LaneAcc :=
  ls.map (fun a => if walkVoided s core ctx id a then (walkedAgain s core ctx kind a).getD a else a)

/-- Whether a lane's walk again ends in a fault or a cause: its word goes on from the operand log. -/
def lanesLost (s : State) (core ctx id : Nat) (kind : AccKind) (a : LaneAcc) : Bool :=
  walkVoided s core ctx id a && (walkedAgain s core ctx kind a).isNone

/-- A load whose lanes walk again: what stays of it, and the entry its lost lanes go to. -/
def loadAgain (s : State) (u : UnitId) (s1 : State) (p : PendingLoad) : State :=
  let c := coreOf s u
  let ctx := (teamAt s u.team).ctx
  let out := p.lanes.filter (lanesLost s c ctx p.id .read)
  let stay := lanesAgain s c ctx p.id .read (p.lanes.filter (fun a => !lanesLost s c ctx p.id .read a))
  let keep (g : Grp) : Grp :=
    { g with loads := if stay = [] then g.loads.filter (fun q => q.id != p.id) else g.loads.map (fun q => if q.id = p.id then { q with lanes := stay } else q) }
  if out = [] then modUnit s1 u keep
  else
    let lanes := out.map (fun a => { a with loc := noPlace })
    if (coreAt s1 c).log.any (fun e => e.id == p.id) then
      modUnit (modCore s1 c (fun k => { k with log := k.log.map (fun (e : LogEntry) => if e.id = p.id then { e with lanes := e.lanes ++ lanes } else e) })) u
        (fun g => if stay = [] then flagDec (keep g) p.flag else keep g)
    else
      let e (k : Core) : LogEntry :=
        { id := p.id, slot := freeSlot k.log, unit := u, pc := p.pc, cstart := p.cstart, isStore := false, ltype := p.type, flag := p.flag, v := 0,
          lanes := lanes, ctx := ctx, load := some p }
      modUnit (modCore s1 c (fun k => { k with log := k.log ++ [e k] })) u (fun g => if stay = [] then keep g else flagInc (keep g) p.flag)

/-- The access kind of a pending store: a red is an atomic. -/
def PendingStore.kind (p : PendingStore) : AccKind := if p.red.isSome then .atomic else .write

/-- Every outstanding access of a unit on its core whose walk was voided walks again. -/
def unitAgain (s : State) (u : UnitId) : State :=
  let c := coreOf s u
  let t := teamAt s u.team
  let g := unitAt s u
  if !g.loads.any (fun p => p.lanes.any (walkVoided s c t.ctx p.id)) && !g.stores.any (fun p => p.lanes.any (walkVoided s c t.ctx p.id)) then s
  else
    let s1 := g.loads.foldl (loadAgain s u) s
    let r := g.stores.foldl (relogStore (fun p a => lanesLost s c t.ctx p.id p.kind a) t.ctx u) ((coreAt s1 c).log, [])
    let s2 := modUnit s1 u (fun g => { g with stores := r.2.map (fun p => { p with lanes := lanesAgain s c t.ctx p.id p.kind p.lanes }) })
    let marked := (g.loads.flatMap (fun p => (p.lanes.filter (walkVoided s c t.ctx p.id)).map (fun a => (AccKind.read, a.va)))) ++
      (g.stores.flatMap (fun p => (p.lanes.filter (walkVoided s c t.ctx p.id)).map (fun a => (p.kind, a.va))))
    marked.foldl (fun s e => (translate s (some c) t.ctx e.2 e.1).2) (modCore s2 c (fun k => { k with log := r.1 }))

/-- The accesses of a context's teams whose walks an invalidation has voided walk again (17 R369). -/
def voidWalks (s : State) (ctx : Nat) : State :=
  ((allUnits s).filter (fun u => (teamAt s u.team).ctx == ctx && (teamAt s u.team).phase != .saved)).foldl unitAgain s

/-- An invalidation issued: every cached translation of its range goes at once, and accesses whose walks had not been filled walk again; it
is in progress until nothing uses an old translation any more (17 R368, R369). -/
def beginInvalidation (s : State) (ctx va len : Nat) : State :=
  let i : Invalidation := ⟨ctx, va, len⟩
  let s1 := dropTlb s ctx va len
  voidWalks (if s1.invalidations.any (fun j => decide (j = i)) then s1 else { s1 with invalidations := s1.invalidations ++ [i] }) ctx

/-- Pages that hold a range. -/
def pagesOf (va len : Nat) : List Nat :=
  if len = 0 then [] else (List.range ((va + len - 1) / pageBytes - va / pageBytes + 1)).map (fun i => va / pageBytes + i)

/-- Bytes of a wagon's tile slot (14 R317). -/
def tileBytes (b : WagonBinding) : Nat := roundUp (b.nrow * 128 + b.nrow * b.rb) 64

/-- The ranges a context's firmware pins: the trap-record regions of its record and of one that waits for its resume, tile regions and
windows (14 R411, R317, 19 R399). -/
def pinnedRanges (s : State) (ctx : Nat) : List (Nat × Nat) :=
  let c := ctxAt s ctx
  (c.record.trapbase :: (c.nextRecord.map (·.trapbase)).toList).map (fun b => (b, Config.trapRegionBytes)) ++
  (s.wagons.filterMap (fun w => w.2.binding.bind (fun b => if b.mctx = ctx then some (b.tiles, b.tslots * tileBytes b) else none)) ++
   s.windows.filterMap (fun w => if w.2.ctx = ctx then some (w.2.base, w.2.len) else none))

/-- Whether a page of a context is pinned: its entry is neither changed nor removed. -/
def pagePinned (s : State) (ctx page : Nat) : Bool :=
  (pinnedRanges s ctx).any (fun r => decide (r.1 < (page + 1) * pageBytes) && decide (page * pageBytes < r.1 + r.2))

/-- A page mapped with rights: its own frame kept where it has one, whose entry, if it changes, is invalidated; a pinned page keeps its
entry, and none is answered when that has other rights. -/
def mapPage (s : State) (ctx va : Nat) (w x : Bool) : Option (Nat × State) :=
  let page := va / pageBytes * pageBytes
  match pageEntry s ctx page with
  | none => none
  | some (pte, s1) =>
    let e := memNat s1.mem pte 8
    let rights := (if w then 4 else 0) + (if x then 8 else 0)
    let pa := bitsAt e 47 8 * 256
    if bitsAt e 0 0 = 1 then
      if bitsAt e 3 2 * 4 = rights then some (pa, s1)
      else if pagePinned s ctx (va / pageBytes) then none
      else some (pa, beginInvalidation (writeEntry s1 pte (pa + rights + 1)) ctx page pageBytes)
    else
      match takeFrame s1 with
      | none => none
      | some (f, s2) => some (f, writeEntry s2 pte (f + rights + 1))

/-- Whether a page is mapped present, and writable where that is asked; the walk changes nothing. -/
def pageMapped (s : State) (ctx : Nat) (w : Bool) (page : Nat) : Bool :=
  match walkFrom s (page * pageBytes) (ctxAt s ctx).record.ptroot 3 with
  | .leaf l _ _ => !w || l.w
  | _ => false

/-- Pages unmapped: their entries become non-present, and are invalidated; pinned pages stay. -/
def unmapPages (s : State) (ctx : Nat) (pages : List Nat) : State :=
  pages.foldl (fun s p =>
    if pageMapped s ctx false p && !pagePinned s ctx p then
      match pageEntry s ctx (p * pageBytes) with
      | some (pte, s1) => beginInvalidation (writeEntry s1 pte 0) ctx (p * pageBytes) pageBytes
      | none => s
    else s) s

end Sys2Proof.Machine
end

