-- ==== Sys2Proof/Machine/Completion.lean ====
section
/-! DEFINITION. How work ends: completion records of queues (15 R326, R329, R410), the owners of engine jobs (09 R251,
15 R331), counts of model layers (14 R313, R319) and ends of matrix operations (09 R229, R232, R234). -/

set_option linter.unusedVariables false

namespace Sys2Proof.Machine

/-! ## Accesses of the front end (15 R410) -/

/-- What an access of the front end through a context's tables meets. -/
inductive FeRead where
  | ok (bytes : List Byte) (s : State)
  | fault (va level : Nat) (h : Bool)
  | bad (detail : Nat)

/-- One byte of a front-end read; an uncorrectable line is code 0xFF (15 R410). -/
def feByte (s : State) (ctx va : Nat) : FeRead :=
  if Config.globalLimit ≤ va then .bad 1
  else
    match translate s none ctx va .read with
    | (.ok pa, s1) => if inPeer pa then .bad 1 else if hasNat s.badLines (lineOf pa) then .bad 0xFF else .ok [memRead s1.mem pa] s1
    | (.fault lv h, _) => .fault va lv h
    | (.violation n, _) => .bad n

/-- Home values of consecutive bytes read for the front end. -/
def feRead (s : State) (ctx va : Nat) : Nat → FeRead
  | 0 => .ok [] s
  | n + 1 =>
    match feByte s ctx va with
    | .ok b s1 =>
      match feRead s1 ctx (va + 1) n with
      | .ok bs s2 => .ok (b ++ bs) s2
      | r => r
    | r => r

/-- The physical address of a front-end write. -/
inductive FePlace where
  | ok (pa : Nat) (s : State)
  | fault (va level : Nat) (h : Bool)
  | bad (detail : Nat)

/-- A translation of a front-end access of a kind. -/
def fePlace (s : State) (ctx va : Nat) (kind : AccKind) : FePlace :=
  if Config.globalLimit ≤ va then .bad 1
  else
    match translate s none ctx va kind with
    | (.ok pa, s1) => if inPeer pa then .bad 1 else .ok pa s1
    | (.fault lv h, _) => .fault va lv h
    | (.violation n, _) => .bad n

/-- The fault record of the front end: AGENT 6, GROUP 62, CORE 0xFF (15 R410). -/
def feFault (s : State) (ctx : Nat) (kind : AccKind) (va level : Nat) (h : Bool) : State :=
  writeFault s { ctx := ctx, kind := kind, agent := agentResidency, level := level, h := h, core := 0xFF, group := 62, va := va, log := 0xFF }

/-! ## Queues -/

/-- The state a queue takes from what it holds (15 R324). -/
def queuePhase (q : Queue) : QueuePhase :=
  if q.phase = .error then .error
  else if q.cplHeld.isSome || q.roomHeld || q.waiting.isSome then .held
  else
    match q.head with
    | some h => if h.why = .ended then .ready else .held
    | none => if q.w = q.rd then .idle else .ready

/-- A queue whose state follows what it holds; it enters READY at its base level (15 R325). -/
def settleQueue (s : State) (n : Nat) : State :=
  let q := queueAt s n
  let p := queuePhase q
  modQueue s n (fun q =>
    if p = .ready ∧ q.phase ≠ .ready then { q with phase := p, level := (ctxAt s q.ctx).record.prio, aged := 0 } else { q with phase := p })

/-- A queue put into ERROR, with its fault-log entry: it takes no further commands, and those it accepted go on (15 R322, R410). -/
def queueError (s : State) (n : Nat) : State :=
  let q := queueAt s n
  queueErrorLog (modQueue s n (fun q => { q with phase := .error, head := none })) q { q with phase := .error }

/-- The bytes of completion record c of a queue (15 R329). -/
def cplBytes (q : Queue) (r : CplRec) : List Byte :=
  let ph := 1 - q.done / 2 ^ q.logn % 2
  natToBytes 4 (r.op % 256 + ph * 2 ^ 8 + r.tag.toNat * 2 ^ 16) ++ natToBytes 4 r.status ++ natToBytes 4 r.gridid.toNat ++
  natToBytes 4 r.detail ++ natToBytes 4 r.index ++ natToBytes 12 0

/-- The waiting completion records of a queue written in order; a page fault holds the queue, also while no record slot is free (17
R372), and a failure puts it into ERROR (15 R410). -/
def flushRecs (n : Nat) : List CplRec → State → State
  | [], s => settleQueue (modQueue s n (fun q => { q with cplWait := [] })) n
  | r :: rs, s =>
    let q := queueAt s n
    if q.phase = .error then modQueue s n (fun q => { q with cplWait := [] })
    else
      let va := q.cring + 32 * (q.done % 2 ^ q.logn)
      match fePlace s q.ctx va .write with
      | .ok pa s1 =>
        flushRecs n rs (homeWrite (modQueue s1 n (fun q => { q with done := q.done + 1, cplWait := rs })) (writesOf pa (cplBytes q r)))
      | .fault v lv h =>
        if faultRoom s then
          settleQueue (modQueue (feFault s q.ctx .write v lv h) n (fun q => { q with cplHeld := some (pageOf v) })) n
        else settleQueue (modQueue s n (fun q => { q with roomHeld := true })) n
      | .bad _ => modQueue (queueError s n) n (fun q => { q with cplWait := [] })

/-- The records of a queue written unless its ring waits for a page or for a record slot, or an operating point changes, which holds the
front end's writes (16 R358). -/
def flushCpl (s : State) (n : Nat) : State :=
  if (queueAt s n).cplHeld.isSome || (queueAt s n).roomHeld || pointChanges s then s else flushRecs n (queueAt s n).cplWait s

/-- The held head of a queue may go on when every earlier command has completed (15 R326). -/
def orderEnds (q : Queue) : Queue :=
  match q.head with
  | some h => if h.why = .order ∧ q.outstanding = [] then { q with head := some { h with why := .ended } } else q
  | none => q

/-- A command of a queue completes; a failure is reported whatever CPL (15 R329). -/
def completeCommand (s : State) (n index op : Nat) (h : CmdHeader) (status : Nat) (gridid : W32) (detail : Nat) : State :=
  let report := h.cpl || !(status == 0 || status == 1)
  let s1 := modQueue s n (fun q =>
    orderEnds { q with
      outstanding := q.outstanding.filter (fun c => c.index != index)
      cplWait := if report then
        q.cplWait ++ [{ op := op, status := status, gridid := gridid, detail := detail, index := index, tag := h.tag }] else q.cplWait })
  settleQueue (flushCpl s1 n) n

/-- Queues whose head waits for the ready pool go on (15 R324, R326). -/
def poolEnds (s : State) : State :=
  s.queues.foldl (fun s e =>
    match e.2.head with
    | some h =>
      if h.why = .pool then settleQueue (modQueue s e.1 (fun q => { q with head := some { h with why := .ended } })) e.1 else s
    | none => s) s

/-- A ready-pool entry freed (15 R330). -/
def poolFree (s : State) (grid : Nat) : State :=
  poolEnds { s with readyPool := s.readyPool.filter (· != grid), gathering := if s.gathering = some grid then none else s.gathering }

/-! ## Owners of engine jobs -/

/-- Command status of an engine job's ERR (15 R329, R410). -/
def errStatus (err : Nat) : Nat :=
  if err = 0 then 0 else if err = 1 then 1 else if err = 3 ∨ err = 4 then 19 else 6

/-- The successors of a node that ended well lose one predecessor and become ready at none (15 R331). -/
def releaseSucc (nodes : TMap Node) : List Nat → TMap Node
  | [] => nodes
  | i :: r =>
    let n := tget {} nodes i
    let p := n.preds - 1
    releaseSucc (tset nodes i { n with preds := p, phase := if p = 0 ∧ n.phase = .waiting then .ready else n.phase }) r

/-- A node of a graph ends (15 R331): OK or SINGULAR lets its successors go on. -/
def nodeEnd (s : State) (graph index err : Nat) : State :=
  modGrid s graph (fun g =>
    let n := tget {} g.nodes index
    if err = 0 ∨ err = 6 then
      { g with nodes := releaseSucc (tset g.nodes index { n with phase := .endedOk }) n.succ }
    else
      { g with
        nodes := tset g.nodes index { n with phase := .failed }
        cancelledWork := g.cancelledWork || err == 1
        nodeFailed := g.nodeFailed || err != 1 })

/-- The owner of an engine job learns of its end; sub is the ACCESS_VIOLATION subcode behind ERR ACCESS. -/
def ownerDone (s : State) (o : JobOwner) (err : Nat) (detail : BitVec 16) (failAddr : W64) (sub : Nat) : State :=
  match o with
  | .future u slot => completeSlot s u slot err detail failAddr
  | .command q index h => completeCommand s q index 0x08 h (errStatus err) 0 (if err = 3 then sub else if err = 4 then 0xFF else 0)
  | .node g i => nodeEnd s g i err

/-- The engine operation of a job's owner has ended (01 R26): a future's team counts it. -/
def ownerEnd (s : State) (o : JobOwner) : State :=
  match o with
  | .future u _ => engineEnd s u.team
  | _ => s

/-- Lines of an operation leave ownership, and the accesses and link writes that waited for them go on (05 R115, R116, R120). -/
def dropLines (op : Nat) (s : State) : State := testWaits (deliverHeld (releaseLines op s))

/-! ## Rows of a wagon slot (09 R247, R251) -/

/-- The status of one row of a push: the slot completes with its last row (09 R247). -/
def rowStatus (s : State) (u : UnitId) (slot lane err : Nat) : State :=
  let g := unitAt s u
  let f := slotAt g slot
  if f.state ≠ .pending ∨ f.kind ≠ .wagon then s
  else
    let rows := tset f.rows lane { done := true, err := err }
    let s1 := setUnit s u { g with futures := tset g.futures slot { f with rows := rows } }
    if rows.all (fun e => e.2.done) then completeSlot s1 u slot 0 0 0 else s1

/-- One row's status completes: its lines leave ownership and its team counts one engine operation less. -/
def rowDone (s : State) (r : WagonRow) (err : Nat) : State :=
  rowStatus (engineEnd (dropLines r.op s) r.unit.team) r.unit r.slot r.lane err

/-- Whether a wagon's departure is held: it has no tile slot, and its rows still count in the queue (14 R318). -/
def Wagon.held (w : Wagon) : Bool := w.tile.isNone

/-- Whether a kernel is one of an object's (13 R298). -/
def inObject (o : CodeObject) (k : KernelDesc) : Bool := o.kernels.any (fun x => x.addr == k.addr)

/-- Whether live work or a wagon binding names a kernel of an object (13 R298, 14 R317). -/
def objectBusy (s : State) (ctx : Nat) (o : CodeObject) : Bool :=
  s.grids.any (fun g => g.2.live && g.2.ctx == ctx && (inObject o g.2.kernel || g.2.nodes.any (fun n => inObject o n.2.kernel))) ||
  s.wagons.any (fun w =>
    match w.2.binding with
    | some b => b.mctx == ctx && inObject o b.entry
    | none => false)

/-- The pages of an object's code that hold no section of another object of its context (13 R298). -/
def ownPages (s : State) (ctx : Nat) (o : CodeObject) : List Nat :=
  let others := ((ctxAt s ctx).objects.filter (fun x => x.addr != o.addr)).flatMap (fun x => x.parts.flatMap (fun p => pagesOf p.1 p.2))
  (pagesOf o.codeBase o.codeLen).filter (fun p => !hasNat others p)

/-- Objects being unregistered that nothing names leave their context, their code pages unmapped, and their commands complete. -/
def checkUnreg (s : State) (ctx : Nat) : State :=
  let gone := (ctxAt s ctx).objects.filter (fun o => o.unregBy.isSome && !objectBusy s ctx o)
  if gone = [] then s
  else
    gone.foldl (fun s o =>
      match o.unregBy with
      | some (q, i, h) => completeCommand (unmapPages s ctx (ownPages s ctx o)) q i 0x16 h 0 0 0
      | none => s)
      (modCtx s ctx (fun c => { c with objects := c.objects.filter (fun o => !gone.any (fun x => x.addr == o.addr)) }))

/-- A wagon queue empty of rows ends its unbinding (15 R327): the binding goes, and what waited for it goes on. -/
def checkWagonUnbind (s : State) (q : Nat) : State :=
  let w := wagonAt s q
  match w.unbindBy with
  | some (n, i, h) =>
    if w.rows = [] ∧ w.departed = [] then
      let s1 := completeCommand (modWagon s q (fun w => { w with binding := none, unbindBy := none })) n i 0x18 h 0 0 0
      (match w.binding with
       | some b => checkUnreg s1 b.mctx
       | none => s1)
    else s
  | none => s

/-- Rows of a queue that have not departed leave it with an ERR: chosen ones, in the order of acceptance. -/
def dropRows (s : State) (q : Nat) (sel : WagonRow → Bool) (err : Nat) : State :=
  let w := wagonAt s q
  let gone := (((w.departed.filter Wagon.held).flatMap (fun d => d.rows)) ++ w.rows).filter sel
  if gone = [] then s
  else
    let keep (rs : List WagonRow) : List WagonRow := rs.filter (fun r => !sel r)
    let s1 := modWagon s q (fun w =>
      { w with
        rows := keep w.rows
        departed := (w.departed.map (fun (d : Wagon) => if d.held then { d with rows := keep d.rows } else d)).filter (fun d => decide (d.rows ≠ [])) })
    checkWagonUnbind (gone.foldl (fun s r => rowDone s r err) s1) q

/-! ## Model layers (14 R313, R319) -/

/-- The context of a layer. -/
def keyCtx (k : Nat) : Nat := k / 16384
/-- The model slot of a layer. -/
def keySlot (k : Nat) : Nat := k / 1024 % 16
/-- The index of a layer. -/
def keyLayer (k : Nat) : Nat := k % 1024

/-- A model slot of a context. -/
def modelAt (s : State) (ctx slot : Nat) : Option ModelSlot := tget? (ctxAt s ctx).models slot
/-- A model slot changed. -/
def modModel (s : State) (ctx slot : Nat) (f : ModelSlot → ModelSlot) : State :=
  modCtx s ctx (fun c =>
    match tget? c.models slot with
    | some m => { c with models := tset c.models slot (f m) }
    | none => c)
/-- A layer. -/
def layerAt (s : State) (k : Nat) : Layer :=
  match modelAt s (keyCtx k) (keySlot k) with
  | some m => tget {} m.layers (keyLayer k)
  | none => {}
/-- A layer changed. -/
def modLayer (s : State) (k : Nat) (f : Layer → Layer) : State :=
  modModel s (keyCtx k) (keySlot k) (fun m => { m with layers := tset m.layers (keyLayer k) (f (tget {} m.layers (keyLayer k))) })

/-- A layer's total count: the acquisitions of teams and of matrix operations (14 R313, 09 R231). -/
def layerTotal (s : State) (k : Nat) : Nat :=
  s.teams.foldl (fun n t => n + tget 0 t.2.layerCounts k) (layerAt s k).ops

/-- Whether a layer is ever loaded: TGT 0, while the pinned-way count is not 0 (14 R313). -/
def pinnable (s : State) (l : Layer) : Bool := l.pinnable && s.pinnedWays != 0

/-- Whether some wagon of a queue bound to a model slot has departed and not ended (14 R319). -/
def slotTasks (s : State) (ctx slot : Nat) : Bool :=
  s.wagons.any (fun w =>
    match w.2.binding with
    | some b => b.mctx == ctx && b.mslot == slot && decide (w.2.departed ≠ [])
    | none => false)

/-- A model slot freed; a model bound to it later is another one, whose layers no team has acquired. -/
def freeModel (s : State) (ctx slot : Nat) : State :=
  let s1 := modCtx s ctx (fun c => { c with models := terase c.models slot })
  { s1 with teams := tmap (fun _ t =>
      if t.ctx = ctx ∧ t.layersRead ≠ [] then { t with layersRead := t.layersRead.filter (fun k => keySlot k != slot) } else t) s1.teams }

/-- The last step of MODEL_UNBIND (14 R319): no count and no task left, the slot is free and the command completes. -/
def checkUnbind (s : State) (ctx slot : Nat) : State :=
  match modelAt s ctx slot with
  | none => s
  | some m =>
    if m.closing && !slotTasks s ctx slot && m.layers.all (fun l => layerTotal s (layerKey ctx slot l.1) == 0) then
      let s1 := freeModel s ctx slot
      match m.unbindBy with
      | some (q, i, h) => completeCommand s1 q i 0x05 h 0 0 0
      | none => s1
    else s

/-- After a count of a layer falls: at zero the time of release is kept, and a closing slot's layer is unpinned (14 R315,
R319). -/
def layerReleased (s : State) (k : Nat) : State :=
  if layerTotal s k ≠ 0 then s
  else
    let closing := match modelAt s (keyCtx k) (keySlot k) with
      | some m => m.closing
      | none => false
    let s1 := modLayer s k (fun l =>
      let gone := closing && l.pinnable && l.phase == .resident
      { l with lastRelease := s.fe, phase := (if gone then .absent else l.phase), sets := (if gone then [] else l.sets) })
    if closing then checkUnbind s1 (keyCtx k) (keySlot k) else s1

/-- An implicit acquisition of a matrix operation ends (09 R229, R231). -/
def opReleases (s : State) (ks : List Nat) : State :=
  ks.foldl (fun s k => layerReleased (modLayer s k (fun l => { l with ops := l.ops - 1 })) k) s

/-! ## Ends of matrix operations (09 R229, R232, R234) -/

/-- Operations of a core's matrix unit: its queue, the parts waiting beside it, the parts on their way. -/
def coreOps (c : Core) : List MatOp := c.matrix ++ c.parts ++ c.flying

/-- An operation removed from its core, with what it holds and asks for. -/
def removeOp (s : State) (core op : Nat) : State :=
  modCore (dropOp s op) core (fun c =>
    { c with
      matrix := c.matrix.filter (fun o => o.id != op)
      parts := c.parts.filter (fun o => o.id != op)
      flying := c.flying.filter (fun o => o.id != op) })

/-- The registered engine arrival of a gang operation comes at a member's barrier, unless that generation has already been
released (08 R206). -/
def engineArrive (s : State) (team gen bar : Nat) (err : Bool) : State :=
  let b := barAt (teamAt s team) bar
  if thas s.teams team ∧ b.gen = gen ∧ b.engines ≠ 0 then
    checkBar (setBar s team bar { b with engines := b.engines - 1, engineErr := b.engineErr || err }) team bar
  else s

/-- A part of a gang operation ends; with the last, the flag completes, the issuing thread takes one deferred trap for the lowest-ranked
failed member, and the registered arrivals come: an issuer that waits at one of those barriers has left it for its trap, and the arrival
at the barrier of its own team comes after that trap (09 R223, R234, 18 R389). -/
def partEnds (s : State) (o : MatOp) (id : Nat) (failed : Option TrapRec) : State :=
  let g := tget {} s.gangOps id
  let g1 := { g with
    left := g.left - 1
    failed := match failed, g.failed with
      | some r, none => some (o.rank, r)
      | some r, some (k, r') => if o.rank < k then some (o.rank, r) else some (k, r')
      | none, f => f }
  if g1.left ≠ 0 then { s with gangOps := tset s.gangOps id g1 }
  else
    let s1 := modUnit { s with gangOps := terase s.gangOps id } g1.unit (fun u => flagDec u g1.flag)
    match g1.failed with
    | none => engineEnd (g1.members.foldl (fun s m => engineArrive s m.1 m.2 g1.gbar false) s1) g1.unit.team
    | some (_, r) =>
      let s2 := deferTrap s1 g1.unit r o.lane
      let own := g1.members.filter (fun m => m.1 == g1.unit.team)
      let s3 := (g1.members.filter (fun m => m.1 != g1.unit.team)).foldl (fun s m => engineArrive s m.1 m.2 g1.gbar true) s2
      let s4 := if own = [] ∨ (unitAt s2 g1.unit).deferred = [] then own.foldl (fun s m => engineArrive s m.1 m.2 g1.gbar true) s3
        else { s3 with gangOps := tset s3.gangOps id { g1 with members := own } }
      engineEnd s4 g1.unit.team

/-- Whether an operation's effect is stores of its core, with which its flag completes (09 R236, R238). -/
def storesMem : MatKind → Bool
  | .acst _ => true
  | .acepi _ _ => true
  | _ => false

/-- The flag of an operation that leaves: it completes, but where the operation's stores are still to drain; those that never came
leave their group's drain. -/
def opFlag (o : MatOp) (g : Grp) : Grp :=
  if storesMem o.kind then
    (g.stores.filter (fun p => p.op == some o.id)).foldl (fun g p => flagDec g p.flag)
      { g with stores := g.stores.filter (fun p => p.op != some o.id) }
  else flagDec g o.flag

/-- An operation leaves its matrix unit: its implicit acquisitions end, its flag completes, and an error is deferred. -/
def matOpEnds (s : State) (core : Nat) (o : MatOp) (failed : Option TrapRec) : State :=
  let s1 := opReleases (removeOp s core o.id) o.layer
  match o.gangOp with
  | some id => partEnds s1 o id failed
  | none =>
    let s2 := engineEnd (modUnit s1 o.unit (opFlag o)) o.unit.team
    match failed with
    | some r => deferTrap s2 o.unit r o.lane
    | none => s2

end Sys2Proof.Machine
end

