-- ==== Sys2Proof/Machine/Domain.lean ====
section
/-! DEFINITION. Setting a cancellation domain (01 R35, R36, R38, 15 R343). -/

set_option linter.unusedVariables false

namespace Sys2Proof.Machine

/-- Whether a grid lies in the tree of another: itself or a descendant (01 R35). -/
def descends (s : State) (root : Nat) : Nat → Nat → Bool
  | 0, g => g == root
  | n + 1, g =>
    g == root ||
    (match (gridAt s g).parentGrid with
     | some p => descends s root n p
     | none => false)

/-- The grids of a cancellation domain: the grid named and its descendants (at most ten levels below, 01 R23). -/
def domainGrids (s : State) (root : Nat) : List Nat := (tkeys s.grids).filter (descends s root (Config.maxDepth + 1))

/-! ## Blocking waits in progress (01 R36 item 3) -/

/-- One blocked wait ended with CANCELLED: a barrier releases all its participants, an fwait reads its status word, a regc
gives up its claim (08 R205, R207, R211, R193, 09 R253). -/
def cancelWait (s : State) (u : UnitId) (b : BlockedRun) : State :=
  match b.wait with
  | .bar n _ _ => releaseBar s u.team n 1
  | .barg _ _ => releaseGangBar s u.team 1
  | .waitf _ _ _ _ d _ =>
    let v := if b.unread then Config.freeWord s.freeCtr else b.last
    setUnit { s with freeCtr := s.freeCtr + 1 } u (endWait u (unitAt s u) b d v 1)
  | .fwait v slot _ =>
    let g := unitAt s u
    let g1 := (maskLanes b.parts).foldl (fun g l =>
      modThr (writeV (isCond u) g l v (statusWord (slotAt g slot) l)) l (fun t => { t with lt := 1 })) g
    let s1 := setUnit s u { g1 with blocked := g1.blocked.map (fun x => if x.id = b.id then { b with ended := true } else x) }
    if (slotAt g slot).state = .complete then seenGrid s1 u (slotAt g slot) else s1
  | .regc d _ =>
    let s1 := withdrawWait s u b
    setUnit s1 u (endWait u (unitAt s1 u) b d (BitVec.ofNat 32 (unitAt s u).share) 1)
  | .sleepCyc d _ _ => setUnit s u (endWait u (unitAt s u) b d 1 1)
  | .sleepFut d _ _ _ => setUnit s u (endWait u (unitAt s u) b d 1 1)

/-- Every wait of a unit that is in progress ended; a release may end several at once. -/
def cancelWaits (s : State) (u : UnitId) : State :=
  ((unitAt s u).blocked.map (·.id)).foldl (fun s id =>
    match (unitAt s u).blocked.find? (fun b => b.id == id && !b.ended) with
    | some b => cancelWait s u b
    | none => s) s

/-! ## Teams (01 R36 item 1, R38) -/

/-- A context whose suspension waits becomes SUSPENDED when none of its teams stands on a core (14 R305). -/
def checkSuspended (s : State) (ctx : Nat) : State :=
  match (ctxAt s ctx).suspendBy with
  | none => s
  | some (q, i, h) =>
    if s.teams.all (fun t => t.2.ctx != ctx || t.2.phase == .saved) then
      completeCommand (modCtx s ctx (fun c => { c with phase := .suspended, suspendBy := none })) q i 0x12 h 0 0 0
    else s

/-- A team that never starts, or retires without being resumed: it leaves the device, its slots free. -/
def dropTeam (s : State) (t : Nat) : State :=
  let tm := teamAt s t
  let keys := tkeys tm.layerCounts
  let s1 := clearModes (keys.foldl layerReleased { s with teams := terase s.teams t }) tm
  checkSuspended (if thas (gridAt s tm.grid).nodes tm.index then nodeEnd s1 tm.grid tm.index 1 else s1) tm.ctx

/-- A saved team of the domain: resumed at its cancel entry where it declares one, else retired (01 R38). -/
def cancelSaved (s0 : State) (t : Nat) : State :=
  let s := (unitIds (teamAt s0 t)).foldl cancelWaits s0
  let tm := teamAt s t
  match tm.kernel.cancel with
  | none =>
    modTeam s t (fun tm =>
      { tm with stopped := true, units := tmap (fun _ g =>
          { g with threads := [], live := false, retired := true, tail := [], blocked := [], clause := none, handler := none, futures := [] }) tm.units })
  | some e =>
    modTeam s t (fun tm =>
      { tm with units := tmap (fun _ g =>
          { g with
            tail := []
            blocked := []
            xheld := []
            handler := none
            threads := tmap (fun _ th =>
              if th.live then { th with pc := BitVec.ofNat 48 (tm.kernel.codeBase + e), redirected := true } else th) g.threads }) tm.units })

/-- One team of the domain. A start of the same front-end cycle does not happen; a team chosen for migration counts as pre-empted
(15 R339, R343). -/
def cancelTeam (s : State) (t : Nat) : State :=
  let tm := teamAt s t
  if tm.phase = .placed ∨ (tm.phase = .running ∧ tm.startFe = some s.fe) then dropTeam s t
  else if tm.phase = .saved then cancelSaved s t
  else
    (unitIds tm).foldl cancelWaits (modTeam s t (fun tm => { tm with moving := tm.moving.map (fun _ => true) }))

/-! ## Engine work (01 R36 items 5 and 6, 09 R232) -/

/-- Rows of a queue that have not departed and were pushed by the domain are removed (09 R246). -/
def cancelRows (gs : List Nat) (s : State) (q : Nat) : State :=
  dropRows s q (fun r => hasNat gs r.grid) 1

/-- Whether a job belongs to the domain. -/
def jobIn (gs : List Nat) : Option Nat → Bool
  | some g => hasNat gs g
  | none => false

/-- Whether the domain of a job's grid is set (01 R36 item 6). -/
def jobCancelled (s : State) : Option Nat → Bool
  | some g => (gridAt s g).domain
  | none => false

/-- A job that has not started ends CANCELLED, its lines released unchanged and its fares given back. -/
def cancelJob (s : State) (id : Nat) (o : JobOwner) : State := ownerEnd (ownerDone (dropLines id (dropOp s id)) o 1 0 0 0) o

/-- Copies of a core that have not started. -/
def cancelCopies (gs : List Nat) (s : State) (c : Nat) : State :=
  let js := (coreAt s c).copies.filter (fun j => jobIn gs j.grid && !j.started)
  let s1 := modCore s c (fun k => { k with copies := k.copies.filter (fun j => !(jobIn gs j.grid && !j.started)) })
  js.foldl (fun s j => cancelJob s j.id j.owner) s1

/-- Geometry and articulation jobs of a cluster that have not started. -/
def cancelEngines (gs : List Nat) (s : State) (c : Nat) : State :=
  let k := clusterAt s c
  let geo := k.geo.filter (fun j => jobIn gs j.grid && !j.started)
  let art := k.art.filter (fun j => jobIn gs j.grid && !j.started && !j.judged)
  let s1 := modCluster s c (fun k =>
    { k with
      geo := k.geo.filter (fun j => !(jobIn gs j.grid && !j.started))
      art := k.art.filter (fun j => !(jobIn gs j.grid && !j.started && !j.judged)) })
  art.foldl (fun s j => cancelJob s j.id j.owner) (geo.foldl (fun s j => cancelJob s j.id j.owner) s1)

/-- Matrix operations of a core that have not started end without effect, their flags complete (09 R232). -/
def cancelMatrix (gs : List Nat) (s : State) (c : Nat) : State :=
  ((coreOps (coreAt s c)).filter (fun o => hasNat gs (teamAt s o.team).grid && !o.running)).foldl (fun s o => matOpEnds s c o none) s

/-- A cancellation domain set: every grid of the tree that is not set already (01 R35, R36). -/
def setDomain (s : State) (root : Nat) : State :=
  let gs := (domainGrids s root).filter (fun g => (gridAt s g).live && !(gridAt s g).domain)
  let s1 := gs.foldl (fun s g => modGrid s g (fun g => { g with domain := true, sinceDomain := 0, cancelledWork := true, reservedSlots := [] })) s
  let s2 := { s1 with gathering := match s1.gathering with
    | some g => if hasNat gs g then none else some g
    | none => none }
  let s3 := ((tkeys s2.teams).filter (fun t => hasNat gs (teamAt s2 t).grid)).foldl cancelTeam s2
  let s4 := (tkeys s3.wagons).foldl (cancelRows gs) s3
  let s5 := (tkeys s4.cores).foldl (fun s c => cancelMatrix gs (cancelCopies gs s c) c) s4
  (tkeys s5.clusters).foldl (cancelEngines gs) s5

/-- The domains of every grid and graph of a context set (15 R342). -/
def setDomains (s : State) (ctx : Nat) : State :=
  ((tkeys s.grids).filter (fun g => (gridAt s g).ctx == ctx && (gridAt s g).live)).foldl setDomain s

end Sys2Proof.Machine
end

