-- ==== Sys2Proof/Machine/Sync.lean ====
section
/-! DEFINITION. Barriers, flag waits, cancellation, feed queues, the affine iterator, register shares and sleeps: majors 0x2A,
0x2B, 0x2D and the sleeps of 0x1E (08 R183, R193, R204-R212), with the events that end their waits. -/

set_option linter.unusedVariables false

namespace Sys2Proof.Machine

/-! ## Beginning and ending a wait (01 R29, 08 R183) -/

/-- The run blocks at its word; when the wait ends it goes on with the next word. -/
def beginWait (s : State) (x : Ctx) (w : WaitKind) (parts : List Nat) (last : W32) : Nat × State :=
  let (id, s1) := fresh s
  (id, setUnit s1 x.u { x.g with
    clause := none
    blocked := x.g.blocked ++
      [{ id := id, clause := { x.cl with next := x.cl.next + 1, hints := {} }, wait := w, parts := laneMask parts, last := last }] })

/-- A wait that ends at once: data to d and the status to lt of each participant. -/
def endNow (s : State) (x : Ctx) (d : OField) (parts : List Nat) (data status : W32) : State :=
  setUnit s x.u (advance (parts.foldl (fun g l => writeO x.cond g l d data status) x.g))

/-- A conductor that winds down leaves in place of a wait (01 R17). -/
def leaveCond (s : State) (x : Ctx) : State := exitLanes (modUnit s x.u (fun g => { g with clause := none })) x.u [0]

/-- Whether a unit issues one part of a run that both groups of a pair share (13 R301). -/
def Ctx.joint (x : Ctx) : Bool := x.t.pairMode && !x.cond && x.cl.maskP != 0

/-- One part of a pair's run whose wait ended at once stands by as a run whose wait has ended: the other part's wait may go on, and the
run issues its next word as a whole (13 R301). -/
def standBy (x : Ctx) (s : State) : State :=
  if !x.joint then s
  else
    match (unitAt s x.u).clause with
    | some cl =>
      if cl.head = x.cl.head ∧ cl.next = x.cl.next + 1 then
        let (id, s1) := fresh s
        modUnit s1 x.u (fun g => { g with
          clause := none, blocked := g.blocked ++ [{ id := id, clause := cl, wait := .sleepCyc 15 0 0, parts := 0, ended := true }] })
      else s
    | none => s

/-- A blocking wait's effect: the wind-down of a conductor, a run without participants, a set domain, then the wait itself. -/
def waitWord (s : State) (x : Ctx) (parts : List Nat) (cancelled : Nat → State) (begins : Nat → State) : State :=
  if x.g.windDown then leaveCond s x
  else
    standBy x (match parts with
    | [] => setUnit s x.u (advance x.g)
    | l :: _ => if domainSet s x.u then cancelled l else begins l)

/-- The word at which a blocked run waits. -/
def waitPc (b : BlockedRun) : Nat := b.clause.head + 4 * (b.clause.next - 1)

/-- A blocked run's wait withdrawn and the trap of its word taken (08 R183). -/
def trapWait (s : State) (u : UnitId) (b : BlockedRun) (c : Cause) : State :=
  let s1 := withdrawWait s u b
  let s2 := modUnit s1 u (fun g => dropBlocked g b.id)
  trapDeliver s2 u (mkRec s2 u (waitPc b) b.clause.head c 0 b.parts 0)

/-- The blocked run of a number whose wait goes on. -/
def blockedRun (s : State) (u : UnitId) (run : Nat) : Option BlockedRun :=
  (unitAt s u).blocked.find? (fun b => b.id == run && !b.ended)

/-- Whether a wait counts against the wait budget (01 R34). -/
def WaitKind.timed : WaitKind → Bool
  | .sleepCyc _ _ _ => false
  | .sleepFut _ _ _ _ => false
  | _ => true

/-- WAIT_TIMEOUT: a wait blocked beyond its budget traps at its word (01 R34, 08 R183), between two clauses of its group. -/
def execWaitTimeout (u : UnitId) (run : Nat) (s : State) : Out :=
  match blockedRun s u run with
  | none => .next s
  | some b =>
    if b.wait.timed && decide (waitBudgetOf s (teamAt s u.team) < b.elapsed) && !clauseStarted (unitAt s u) && mayMove s u then .next (trapWait s u b .waitTimeout) else .next s

/-! ## Barriers (08 R205) -/

/-- The status a cancelled barrier wait gives a run that never arrived: for a reduction, over the arrivals made. -/
def cancelData (s : State) (b : Barrier) (op : Option BarOp) : W32 :=
  match op with
  | some o => barPayload s b o
  | none => 1

/-- The ILLEGAL causes of an arrival: another count, or too many participants. -/
def arrivalBad (b : Barrier) (count parts : Nat) : Bool :=
  (match b.count with
   | none => false
   | some c => c != count) ||
  (count != 0 && decide (count < b.arrived + parts))

/-- A barrier with one more run arrived. -/
def arrive (b : Barrier) (a : BarArrival) (count : Nat) : Barrier :=
  { b with count := some count, arrivals := b.arrivals ++ [a] }

/-- bar and bar.red: the arrival of one run, then its wait (08 R205); the arrival fences its team (05 R111). -/
def barWord (i : Instr) (d a b : OField) (c : Option (OField × BarOp)) (g : Guard) (s : State) : Out :=
  word i s (fun x =>
    let ps := x.parts g
    let n := (x.src (ps.headD 0) a).toNat
    let op := c.map (·.2)
    if ps ≠ [] ∧ x.t.kernel.barriers ≤ n then trapWord s x .operandLimit 3 (laneMask ps) 0
    else
      waitWord s x ps
        (fun _ => endNow s x d ps (cancelData s (barAt x.t n) op) 1)
        (fun l =>
          let count := (x.src l b).toNat
          let br := barAt x.t n
          if arrivalBad br count ps.length then trapWord s x .illegal 0 (laneMask ps) 0
          else if !quiet s x.u then s
          else
            let (id, s1) := beginWait s x (.bar n d op.isSome) ps 0
            let vals := match c with
              | some (o, _) => ps.map (fun l => x.src l o)
              | none => []
            checkBar (setBar s1 x.u.team n (arrive br { unit := x.u, run := id, count := ps.length, op := op, vals := vals } count)) x.u.team n))

/-- bar. -/
def execBar (d a b : OField) (g : Guard) (s : State) : Out := barWord (.bar d a b g) d a b none g s

/-- bar.red. -/
def execBarRed (d a b c : OField) (g : Guard) (k : BarOp) (s : State) : Out :=
  barWord (.barRed d a b c g k) d a b (some (c, k)) g s

/-- barg and barg.red: on the gang barrier; the arrival takes the core's release step (05 R111). -/
def bargWord (i : Instr) (d b : OField) (c : Option (OField × BarOp)) (g : Guard) (s : State) : Out :=
  word i s (fun x =>
    let ps := x.parts g
    let op := c.map (·.2)
    waitWord s x ps
      (fun _ => endNow s x d ps (cancelData s (gangBar s x.t) op) 1)
      (fun l =>
        let count := (x.src l b).toNat
        let br := gangBar s x.t
        if arrivalBad br count ps.length then trapWord s x .illegal 0 (laneMask ps) 0
        else if !quiet s x.u then s
        else
          let (id, s1) := beginWait s x (.barg d op.isSome) ps 0
          let vals := match c with
            | some (o, _) => ps.map (fun l => x.src l o)
            | none => []
          let s2 := releaseStep s1 x.t.core
          checkGangBar (setGangBar s2 x.u.team (arrive br { unit := x.u, run := id, count := ps.length, op := op, vals := vals } count)) x.u.team))

/-- barg. -/
def execBarg (d b : OField) (g : Guard) (s : State) : Out := bargWord (.barg d b g) d b none g s

/-- barg.red. -/
def execBargRed (d b c : OField) (g : Guard) (k : BarOp) (s : State) : Out := bargWord (.bargRed d b c g k) d b (some (c, k)) g s

/-! ## waitf (08 R207) -/

/-- The verdict on a declared producer (01 R30, 08 R207). -/
inductive Verdict where
  | legal
  | illegal
  | illegalWait
deriving DecidableEq, Repr

/-- Whether a team of a grid is resident. -/
def residentTeam (s : State) (grid index : Nat) : Bool :=
  s.teams.any (fun t => t.2.grid == grid && t.2.index == index && !(t.2.phase == .placed || t.2.phase == .saved || t.2.phase == .retired))

/-- The number of producers a grid or graph names: its teams or its nodes. -/
def producers (g : Grid) : Nat := if g.kind = .graph then g.nodes.length else g.teams

/-- Whether a node of a graph runs on an engine (15 R331). -/
def engineNode (g : Grid) (i : Nat) : Bool := g.kind == .graph && (tget {} g.nodes i).kind != 0

/-- The table "Blocking-wait compatibility" for a grid of a class: own is the waiter's TEAM when the grid is its own. -/
def judge (s : State) (uid index : Nat) (own : Option Nat) : Verdict :=
  let g := gridAt s uid
  if producers g ≤ index then .illegal
  else if engineNode g index then .legal
  else if g.cls = 0 then .legal
  else if g.cls = 1 then
    if residentTeam s uid index then .legal
    else
      match own with
      | some t => if index < t then .legal else .illegalWait
      | none => .illegalWait
  else .illegalWait

/-- The producer operand of a waitf (08 R207). -/
def producer (s : State) (x : Ctx) (c : W32) : Verdict :=
  let n := c.toNat
  let kind := bitsAt n 31 30
  let f := slotAt x.g (bitsAt n 29 26)
  if bitsAt n 25 22 ≠ 0 then .illegal
  else if kind = 1 then judge s x.t.grid (bitsAt n 21 0) (some x.t.index)
  else if kind = 2 then
    if f.state = .free ∨ f.dropped ∨ !(f.kind == .grid || f.kind == .graph) then .illegal
    else judge s f.link (bitsAt n 21 0) none
  else .legal

/-- The parallel producer team whose residence alone makes a waitf legal (01 R30, R32). -/
def heldProducer (s : State) (x : Ctx) (c : W32) : Option Nat :=
  let n := c.toNat
  let grid := if bitsAt n 31 30 = 1 then x.t.grid else (slotAt x.g (bitsAt n 29 26)).link
  let i := bitsAt n 21 0
  let g := gridAt s grid
  if bitsAt n 31 30 = 0 ∨ bitsAt n 31 30 = 3 ∨ g.cls ≠ 1 ∨ engineNode g i ∨ (bitsAt n 31 30 = 1 ∧ i < x.t.index) then none
  else (s.teams.find? (fun t => t.2.grid == grid && t.2.index == i)).map (·.1)

/-- The last value read by a waitf that ends before it read: the word where it can be read, else a free value (log 9). -/
def waitfUnread (s : State) (x : Ctx) (l : Nat) (a : OField) : W32 :=
  match laneRes s x.u .read .gen 4 4 l (x.src64 l a) with
  | .ok loc _ => bytesToW32 (locBytes s loc 4)
  | _ => Config.freeWord s.freeCtr

/-- A wait just begun whose word waits through a directory recall: nothing has been read yet (05 R115). -/
def markUnread (r : Nat × State) (u : UnitId) : State :=
  modUnit r.2 u (fun g => { g with blocked := g.blocked.map (fun b => if b.id = r.1 then { b with unread := true } else b) })

/-- waitf: the checks of 01 R30 in order, then the first test of the word, read as an atomic reads it: the core's own unpublished bytes
of it are published first (05 R108). -/
def execWaitf (d a b c : OField) (g : Guard) (k : Cond) (s : State) : Out :=
  word (.waitf d a b c g k) s (fun x =>
    let ps := x.parts g
    waitWord s x ps
      (fun l => endNow { s with freeCtr := s.freeCtr + 1 } x d ps (waitfUnread s x l a) 1)
      (fun l =>
        let v := producer s x (x.src l c)
        let ls := [(l, x.src64 l a)]
        if v = .illegal then trapWord s x .illegal 0 (laneMask ps) 0
        else if touchesLogged s x.u .gen 4 ls then s
        else
          match access s x.u .read .gen 4 4 ls with
          | .trap s1 cause sub m ad => trapWord s1 x cause sub m ad
          | .go s1 ok fs =>
            if v = .illegalWait then trapWord s1 x .illegalWait 0 (laneMask ps) 0
            else
              match fs, ok with
              | [], e :: _ =>
                let wait : WaitKind := .waitf e.loc e.va (x.src l b) k d (heldProducer s x (x.src l c))
                if earlierAt x.g e.lane e.loc 4 then s1
                else
                  let s2 := publishLoc s1 x.t.core e.loc 4
                  let y := { x with g := unitAt s2 x.u }
                  if ownedAt s2 x.t.ctx e.loc e.va then markUnread (beginWait s2 y wait ps 0) x.u
                  else
                    let w := bytesToW32 (locBytes s2 e.loc 4)
                    if condEval k w (x.src l b) then acquireStep (endNow s2 y d ps w 0) x.t.core
                    else (beginWait s2 y wait ps w).2
              | _, _ => holdReplay s1 x.u .read fs))

/-- WAITF_SATISFIED: a write made the condition hold; the run is released and the core takes an acquire step (08 R207). -/
def execWaitfSatisfied (u : UnitId) (run : Nat) (s : State) : Out :=
  match blockedRun s u run with
  | none => .next s
  | some b =>
    match b.wait, b.hit with
    | .waitf _ _ _ _ d _, some v => .next (acquireStep (setUnit s u (endWait u (unitAt s u) b d v 0)) (coreOf s u))
    | _, _ => .next s

/-! ## cancel and chkc (08 R208) -/

/-- The grid a cancel names: its own, or the grid or graph of a slot. -/
def cancelTarget (x : Ctx) (v : W32) : Option Nat :=
  if v = 0xFFFFFFFF then some x.t.grid
  else if v.toNat < 16 then
    let f := slotAt x.g v.toNat
    if f.state = .free ∨ f.dropped ∨ !(f.kind == .grid || f.kind == .graph) then none else some f.link
  else none

/-- cancel: sets a domain, or answers NOT_DESCENDANT. -/
def execCancel (d a : OField) (g : Guard) (s : State) : Out :=
  word (.cancel d a g) s (fun x =>
    match x.parts g with
    | [] => setUnit s x.u (advance x.g)
    | l :: r =>
      match cancelTarget x (x.src l a) with
      | some t => setDomain (endNow s x d (l :: r) 0 0) t
      | none => endNow s x d (l :: r) 5 5)

/-- chkc: 1 when the grid's domain is set. -/
def execChkc (d : OField) (g : Guard) (s : State) : Out :=
  word (.chkc d g) s (fun x =>
    let v : W32 := if domainSet s x.u then 1 else 0
    endNow s x d (x.parts g) v v)

/-! ## Feed queues (01 R18, 08 R209) -/

/-- Whether the team's conductor has gone, or was never declared. -/
def conductorGone (t : Team) : Bool :=
  match tget? t.units 32 with
  | some c => c.retired
  | none => true

/-- The value a lane takes from an entry. -/
def feedValue (e : FeedEntry) (l : Nat) : W32 :=
  match e with
  | .uniform w => w
  | .vector b st => b + BitVec.ofNat 32 l * st

/-- The head entry delivered to a run's participants. -/
def popFeed (s : State) (x : Ctx) (d : OField) (g : Guard) : State :=
  match x.g.feed with
  | [] => s
  | e :: r =>
    let g1 := (x.parts g).foldl (fun gr l => writeO x.cond gr l d (feedValue e l) (feedValue e l)) { x.g with feed := r, held := none }
    setUnit s x.u (advance g1)

/-- feed: pops one entry, stalls on an empty queue, traps ILLEGAL_WAIT when no conductor can supply one. -/
def execFeed (d : OField) (g : Guard) (s : State) : Out :=
  word (.feed d g) s (fun x =>
    if x.g.feed ≠ [] then popFeed s x d g
    else if conductorGone x.t then trapWord s x .illegalWait 0 x.cl.mask 0
    else setUnit s x.u { x.g with held := some (.feed d g) })

/-- FEED_DELIVERY: a run stalled on an empty queue receives the entry supplied. -/
def execFeedDelivery (u : UnitId) (s : State) : Out :=
  match issuing { s with focus := some u } with
  | none => .next s
  | some x =>
    match x.g.held with
    | some (.feed d g) => .next (popFeed s x d g)
    | _ => .next s

/-- An entry appended to a group's queue; one for a retired group, or of a conductor that winds down, is discarded. -/
def appendFeed (s : State) (x : Ctx) (n : Nat) (e : FeedEntry) : State :=
  let tg : UnitId := ⟨x.u.team, n⟩
  let g := unitAt s tg
  let s1 := if g.retired || x.g.windDown then s else setUnit s tg { g with feed := g.feed ++ [e] }
  setUnit s1 x.u (advance { x.g with held := none })

/-- Whether an fpush discards its entry without stalling: its group has retired, or the conductor winds down (01 R17, 08 R209). -/
def feedGone (s : State) (x : Ctx) (n : Nat) : Bool := (unitAt s ⟨x.u.team, n⟩).retired || x.g.windDown

/-- Whether the feed queue of a team's group is full, where an entry is not discarded (01 R18, 08 R209). -/
def queueFull (s : State) (team n : Nat) : Bool :=
  let g := unitAt s ⟨team, n⟩
  !g.retired && decide (Config.feedEntries ≤ g.feed.length)

/-- Whether an fpush must stall: its group's queue is full (01 R18). -/
def feedFull (s : State) (x : Ctx) (n : Nat) : Bool := !x.g.windDown && queueFull s x.u.team n

/-- fpush: an entry becomes visible after the conductor's earlier accesses (05 R111); one that is discarded waits for nothing
(08 R209). -/
def fpushWord (i : Instr) (b : OField) (g : Guard) (f : Ctx → Nat → FeedEntry) (s : State) : Out :=
  word i s (fun x =>
    match x.parts g with
    | [] => setUnit s x.u (advance x.g)
    | l :: _ =>
      let n := (x.src l b).toNat
      if x.t.groups ≤ n then trapWord s x .illegal 0 x.cl.mask 0
      else if feedGone s x n then appendFeed s x n (f x l)
      else if !quiet s x.u then s
      else if feedFull s x n then setUnit s x.u { x.g with held := some (.fpush n (f x l)) }
      else appendFeed s x n (f x l))

/-- fpush.u. -/
def execFpushU (a b : OField) (g : Guard) (s : State) : Out :=
  fpushWord (.fpushU a b g) b g (fun x l => .uniform (x.src l a)) s

/-- fpush.v. -/
def execFpushV (a b c : OField) (g : Guard) (s : State) : Out :=
  fpushWord (.fpushV a b c g) b g (fun x l => .vector (x.src l a) (x.src l c)) s

/-- FPUSH_RESUME: a stalled conductor appends its entry once the queue has room. -/
def execFpushResume (team : Nat) (s : State) : Out :=
  match issuing { s with focus := some ⟨team, 32⟩ } with
  | none => .next s
  | some x =>
    match x.g.held with
    | some (.fpush n e) => if feedFull s x n then .next s else .next (appendFeed s x n e)
    | _ => .next s

/-! ## agen (08 R210) -/

/-- One step of the affine iterator: the new address and the new inner index. -/
def agenStep (x k c : W64) : W64 × W64 :=
  let nin := bitsAt k.toNat 63 48
  let i := bitsAt k.toNat 47 32 + 1
  let inner : W32 := k.setWidth 32
  let outer : W32 := c.setWidth 32
  let i' := if i < nin then i else 0
  (x + (if i < nin then sext64 inner else sext64 outer), BitVec.ofNat 64 i')

/-- A register with its bits [47:32] written. -/
def setIndex (k i : W64) : W64 := k.extractLsb' 48 16 ++ (i.setWidth 16 : BitVec 16) ++ k.extractLsb' 0 32

/-- agen: all sources are read before any register is written; the writes follow in the order of the rule, and k(b) takes bits [47:32]
alone, so where d or a names b the rest of it is the address written there. -/
def execAgen (d a b c : OField) (g : Guard) (s : State) : Out :=
  word (.agen d a b c g) s (fun x =>
    match x.parts g with
    | [] => setUnit s x.u (advance x.g)
    | l :: _ =>
      let xa := kAt x.g a.toNat
      let kb := kAt x.g b.toNat
      if bitsAt kb.toNat 63 48 = 0 then trapWord s x .illegal 0 x.cl.mask 0
      else
        let r := agenStep xa kb (kAt x.g c.toNat)
        let g1 := write64 true x.g l d xa
        let ks := tset g1.k a.toNat r.1
        setUnit s x.u (advance { g1 with k := tset ks b.toNat (setIndex (tget 0 ks b.toNat) r.2) }))

/-! ## Register shares (08 R211, R212) -/

/-- Main registers that a long-latency operation of a unit has yet to write (06 R128). -/
def pendingV (s : State) (u : UnitId) : List Nat :=
  let g := unitAt s u
  let loads := g.loads.flatMap (fun p =>
    match p.dest with
    | .lanes v => regRange v p.type.regs
    | .uniform _ => [])
  let logs := (loggedOf s u).flatMap (fun e => if e.isStore then [] else regRange e.v e.ltype.regs)
  let reads := (coreOps (coreAt s (coreOf s u))).flatMap (fun o =>
    match o.kind with
    | .acrd v _ => if o.unit = u then [v, v + 1] else []
    | _ => [])
  let layers := (ctxAt s (teamAt s u.team).ctx).models.flatMap (fun m => m.2.layers.flatMap (fun l => l.2.waiters.filterMap (fun w =>
    match w with
    | .flag u' _ v _ _ _ _ => if u' = u then some v else none
    | _ => none)))
  let heldBack := s.layerHeld.filterMap (fun e =>
    match e.2 with
    | .flag u' _ v _ _ _ _ => if u' = u then some v else none
    | _ => none)
  loads ++ logs ++ reads ++ layers ++ heldBack

/-- Uniform registers, or k registers of a conductor, that a load has yet to write. -/
def pendingS (s : State) (u : UnitId) : List Nat :=
  (unitAt s u).loads.flatMap (fun p =>
    match p.dest with
    | .uniform d => regRange d (p.bytes / (if isCond u then 8 else 4))
    | .lanes _ => [])

/-- regy: surrenders the top blocks to the team's free store, after long-latency writes to them. -/
def execRegy (d a : OField) (g : Guard) (s : State) : Out :=
  word (.regy d a g) s (fun x =>
    match x.parts g with
    | [] => setUnit s x.u (advance x.g)
    | l :: r =>
      let n := (x.src l a).toNat
      if x.g.share < n + 1 then trapWord s x .illegal 0 (laneMask (l :: r)) 0
      else
        let share := x.g.share - n
        if (pendingV s x.u).any (fun v => decide (8 * share ≤ v)) then s
        else
          let s1 := modTeam s x.u.team (fun t => { t with freeStore := t.freeStore + n })
          let v := BitVec.ofNat 32 share
          endNow s1 { x with g := { x.g with share := share } } d (l :: r) v v)

/-- Blocks appended zeroed to the top of a group's window. -/
def growShare (g : Grp) (n : Nat) : Grp :=
  { g with
    share := g.share + n
    threads := tmap (fun _ t => { t with v := t.v.filter (fun e => decide (e.1 < 8 * g.share)) }) g.threads }

/-- A claim added in the order the waits began, ties to the lower group number (08 R212). -/
def addClaim (c : RegClaim) : List RegClaim → List RegClaim
  | [] => [c]
  | d :: r => if d.cyc = c.cyc ∧ c.unit < d.unit then c :: d :: r else d :: addClaim c r

/-- Whether no live group of a team has a lower number. -/
def firstGroup (t : Team) (u : UnitId) : Bool := t.units.all (fun e => decide (u.idx ≤ e.1) || e.2.retired)

/-- regc: claims blocks from the free store, in the order of the claims; claims are served once the cycle in which they began is over,
so that those of one cycle are served by group number, but for one that no other can precede, which is served at once (08 R212). -/
def execRegc (d a : OField) (g : Guard) (s : State) : Out :=
  word (.regc d a g) s (fun x =>
    let ps := x.parts g
    waitWord s x ps
      (fun _ => endNow s x d ps (BitVec.ofNat 32 x.g.share) 1)
      (fun l =>
        let n := (x.src l a).toNat
        if 32 < x.g.share + n then trapWord s x .illegal 0 (laneMask ps) 0
        else if x.t.claims = [] ∧ n ≤ x.t.freeStore ∧ firstGroup x.t x.u then
          let g1 := growShare x.g n
          let s1 := modTeam s x.u.team (fun t => { t with freeStore := t.freeStore - n })
          endNow s1 { x with g := g1 } d ps (BitVec.ofNat 32 g1.share) 0
        else
          let (id, s1) := beginWait s x (.regc d n) ps 0
          let c : RegClaim := { unit := x.u.idx, run := id, blocks := n, cyc := clusterCyc s (clusterOf x.t.core) }
          modTeam s1 x.u.team (fun t => { t with claims := addClaim c t.claims })))

/-- REGC_GRANT: the claim at the head of the order is served whole once enough blocks are free and its first cycle is over (08 R212); a
share it would carry beyond 32 blocks traps ILLEGAL (R211). -/
def execRegcGrant (team : Nat) (s : State) : Out :=
  let t := teamAt s team
  match t.claims with
  | [] => .next s
  | c :: r =>
    let u : UnitId := ⟨team, c.unit⟩
    match blockedRun s u c.run with
    | none => .next (modTeam s team (fun t => { t with claims := r }))
    | some b =>
      let g := unitAt s u
      if t.freeStore < c.blocks ∨ c.cyc = clusterCyc s (clusterOf t.core) ∨ s.supervisor.freeze then .next s
      else if 32 < g.share + c.blocks then .next (if clauseStarted g then s else trapWait s u b .illegal)
      else
        let s1 := modTeam s team (fun t => { t with claims := r, freeStore := t.freeStore - c.blocks })
        let g1 := growShare (unitAt s1 u) c.blocks
        .next (setUnit s1 u (endWait u g1 b b.wait.dst (BitVec.ofNat 32 g1.share) 0))

/-! ## Sleeps (08 R193) -/

/-- sleep.cyc: until the cluster's CYC has advanced by the count; a count of 0 ends at once. -/
def execSleepCyc (d a : OField) (s : State) : Out :=
  word (.sleepCyc d a) s (fun x =>
    let ps := x.lanes
    waitWord s x ps
      (fun _ => endNow s x d ps 1 1)
      (fun l =>
        let n := (x.src l a).toNat
        let c := clusterOf x.t.core
        if n = 0 then endNow s x d ps 0 0
        else (beginWait s x (.sleepCyc d c (clusterCyc s c + n)) ps 0).2))

/-- sleep.fut: until the count the copy promised; a complete copy ends it at once. -/
def execSleepFut (d a : OField) (s : State) : Out :=
  word (.sleepFut d a) s (fun x =>
    let ps := x.lanes
    waitWord s x ps
      (fun _ => endNow s x d ps 1 1)
      (fun l =>
        let v := x.src l a
        let f := slotAt x.g (v.toNat % 16)
        if 16 ≤ v.toNat ∨ f.state = .free ∨ f.dropped ∨ f.kind ≠ .copy then trapWord s x .illegal 0 (laneMask ps) 0
        else if f.state = .complete then endNow s x d ps 0 0
        else (beginWait s x (.sleepFut d v.toNat f.cluster f.promise) ps 0).2))

/-- Bytes of one row of a copy (09 R239). -/
def rowBytes (src : Stencil) (cnt0 : Nat) : Nat := if src.pk then 48 * (cnt0 / 64) else cnt0 * fmtBytes (BitVec.ofNat 5 src.fmt)

/-- Destination bytes of a copy. -/
def copyBytes (j : CopyJob) : Nat := j.cnt1 * rowBytes j.src j.cnt0 * Nat.max 1 j.members.length

/-- Bytes that a copy has yet to move. -/
def bytesLeft (j : CopyJob) : Nat := copyBytes j - j.moved

/-- The revised promise of a copy that is late: its remaining bytes and the margin from now (09 R241). -/
def revisePromise (s : State) (u : UnitId) (slot : Nat) : State :=
  let f := slotAt (unitAt s u) slot
  match (s.cores.filterMap (fun c => (c.2.copies.find? (fun j => j.id == f.link)).map (fun j => (c.1, j)))).head? with
  | none => s
  | some (core, j) =>
    let p := clusterCyc s (clusterOf core) + ceilDiv (bytesLeft j) 32 + s.policy.copyMargin
    let s1 := modCore s core (fun c => { c with copies := c.copies.map (fun y => if y.id = j.id then { y with promise := p } else y) })
    modUnit s1 u (fun g => { g with futures := tset g.futures slot { f with promise := p } })

/-- SLEEP_WAKE: the count is reached; a sleep on an incomplete copy traps COPY_LATE, its promise revised first. A team that
has changed cluster sleeps until the copy completes (08 R193, 09 R241). -/
def execSleepWake (u : UnitId) (run : Nat) (s : State) : Out :=
  match blockedRun s u run with
  | none => .next s
  | some b =>
    let g := unitAt s u
    if !mayMove s u then .next s else
    match b.wait with
    | .sleepCyc d c due => if clusterCyc s c < due then .next s else .next (setUnit s u (endWait u g b d 0 0))
    | .sleepFut d slot c due =>
      let f := slotAt g slot
      if f.cluster ≠ clusterOf (coreOf s u) then
        if f.state = .pending then .next s else .next (setUnit s u (endWait u g b d 0 0))
      else if clusterCyc s c < due then .next s
      else if f.state ≠ .pending then .next (setUnit s u (endWait u g b d 0 0))
      else .next (if clauseStarted g then s else trapWait (revisePromise s u slot) u b .copyLate)
    | _ => .next s

/-! ## Deferred traps (09 R223) -/

/-- Whether a thread stands at its next header now: a thread outside a handler's stopped threads waits for the handler to
leave, and one whose wait has ended first completes its clause. -/
def atHeader (g : Grp) (l : Nat) : Bool :=
  !clauseStarted g && !g.blocked.any (fun b => b.ended && b.clause.mask.getLsbD l) &&
  (match g.handler with
   | some h => h.stopped.getLsbD l
   | none => true)

/-- The arrivals at the barrier of a unit's own team that waited for its deferred traps come, with an error (18 R389). -/
def lateArrivals (s : State) (u : UnitId) : State :=
  if (unitAt s u).deferred ≠ [] then s
  else
    let late := s.gangOps.filter (fun g => g.2.unit == u && g.2.left == 0)
    late.foldl (fun s g => g.2.members.foldl (fun s m => engineArrive s m.1 m.2 g.2.gbar true) s)
      { s with gangOps := s.gangOps.filter (fun g => !(g.2.unit == u && g.2.left == 0)) }

/-- DEFERRED_TRAP: the oldest deferred trap of a unit is taken at the issuing run's next clause header, whatever the header
waits for; a blocking wait in progress is withdrawn first (09 R223). -/
def execDeferredTrap (u : UnitId) (s : State) : Out :=
  let g := unitAt s u
  match g.deferred with
  | [] => .next s
  | (r, lane) :: rest =>
    match deferredLanes g r with
    | [] =>
      if g.retired && mayMove s u then .next (deferTrap (modUnit s u (fun g => { g with deferred := rest })) u r lane) else .next s
    | l :: ls =>
      if !(l :: ls).all (atHeader g) || !mayMove s u then .next s
      else
        let s1 := modUnit ((l :: ls).foldl (fun s l => withdrawLane s u l) s) u (fun g => { g with deferred := rest, clause := none })
        .next (lateArrivals (trapDeliver s1 u { r with lane := lane, mask := laneMask (l :: ls) }) u)

end Sys2Proof.Machine
end

