-- ==== Sys2Proof/Machine/Records.lean ====
section
/-! DEFINITION. Stencils, parameter blocks and the checks of records that an engine instruction reads at issue
(09 R224-R227, R237, R239). -/

set_option linter.unusedVariables false

namespace Sys2Proof.Machine

/-! ## Parsing -/

/-- The 512 bits of a record's 64 bytes. -/
def recBits (bs : List Byte) : Nat := bytesToNat bs

/-- Whether a bit range of a record is zero. -/
def zeroAt (x hi lo : Nat) : Bool := bitsAt x hi lo == 0

/-- A stencil record (09 R224). -/
def parseStencil (addr : Nat) (bs : List Byte) : Stencil :=
  let x := recBits bs
  { addr := addr, base := BitVec.ofNat 64 (bitsAt x 47 0),
    ext := [bitsAt x 95 64, bitsAt x 127 96, bitsAt x 159 128, bitsAt x 191 160, bitsAt x 223 192],
    str := [0, sbitsAt x 255 224, sbitsAt x 287 256, sbitsAt x 319 288, sbitsAt x 351 320],
    fmt := bitsAt x 356 352, pk := bitsAt x 357 357 == 1, rank := bitsAt x 360 358, lb := bitsAt x 361 361 == 1,
    model := bitsAt x 371 368, layer := bitsAt x 381 372, tx := BitVec.ofNat 32 (bitsAt x 415 384),
    ty := BitVec.ofNat 32 (bitsAt x 447 416),
    reservedZero := zeroAt x 63 48 && zeroAt x 367 362 && zeroAt x 383 382 && zeroAt x 511 448 }

/-- Five coordinates from a bit position, the dimension-0 one first. -/
def coordsAt (x lo : Nat) : List Nat := (List.range 5).map (fun i => bitsAt x (lo + 32 * i + 31) (lo + 32 * i))

/-- A matrix parameter block (09 R227). -/
def parseParam (addr : Nat) (bs : List Byte) : ParamBlock :=
  let x := recBits bs
  { addr := addr, aSten := BitVec.ofNat 64 (bitsAt x 63 0), bSten := BitVec.ofNat 64 (bitsAt x 127 64), ac := coordsAt x 128,
    bc := coordsAt x 288, gmask := bitsAt x 459 448, gbar := bitsAt x 463 460, zs := bitsAt x 464 464 == 1,
    reservedZero := zeroAt x 511 465 }

/-- An epilogue block (09 R237). -/
def parseEpi (addr : Nat) (bs : List Byte) : EpiBlock :=
  let x := recBits bs
  { addr := addr, dSten := BitVec.ofNat 64 (bitsAt x 63 0), dc := coordsAt x 64, scale := BitVec.ofNat 32 (bitsAt x 255 224),
    bias := BitVec.ofNat 64 (bitsAt x 319 256), m := bitsAt x 329 324 + 1, n := bitsAt x 335 330 + 1, act := bitsAt x 337 336,
    sat := bitsAt x 338 338 == 1, clr := bitsAt x 339 339 == 1, intAcc := bitsAt x 340 340 == 1,
    reservedZero := zeroAt x 323 320 && zeroAt x 511 341 }

/-! ## Elements (09 R225) -/

/-- A coordinate plus an index. -/
def coordAdd (c : List Nat) (d i : Nat) : List Nat := c.set d (c.getD d 0 + i)

/-- Whether an index lies within the extents; a dimension at or above RANK has extent 1 (09 R224, R225). -/
def inExtent (st : Stencil) (ix : List Nat) : Bool :=
  (List.range 5).all (fun d => decide (ix.getD d 0 < (if d < st.rank then st.ext.getD d 1 else 1)))

/-- The address of the row of an index, modulo 2^64 (09 R225). -/
def rowAddr (st : Stencil) (ix : List Nat) : W64 :=
  BitVec.ofInt 64 ((st.base.toNat : Int) +
    (List.range 5).foldl (fun (n : Int) d => n + (if 1 ≤ d ∧ d < st.rank then (ix.getD d 0 : Int) * st.str.getD d 0 else 0)) 0)

/-- Where an element lies: its bytes, or the 6-bit value of a packed block. -/
structure ElemAt where
  addr : W64
  bytes : Nat
  sub : Option Nat
deriving DecidableEq, Repr

/-- StencilElement: none stands for ZERO. -/
def stencilElem (st : Stencil) (ix : List Nat) : Option ElemAt :=
  if !inExtent st ix then none
  else
    let i0 := ix.getD 0 0
    let row := rowAddr st ix
    if st.pk then some { addr := row + BitVec.ofNat 64 (48 * (i0 / 64)), bytes := 48, sub := some (i0 % 64) }
    else
      let eb := fmtBytes (BitVec.ofNat 5 st.fmt)
      some { addr := row + BitVec.ofNat 64 (i0 * eb), bytes := eb, sub := none }

/-- The code an element's bytes hold: a packed value is decoded to its byte (03 R74, R75). -/
def elemCode (e : ElemAt) (bs : List Byte) : Nat :=
  match e.sub with
  | none => bytesToNat bs
  | some j => bitsAt (bytesToNat bs) (6 * j + 5) (6 * j) * 4

/-! ## Checks of fields (09 R226) -/

/-- Subcode 1 of a stencil. -/
def stencilShape (st : Stencil) : Bool :=
  st.reservedZero && decide (1 ≤ st.rank) && decide (st.rank ≤ 5) &&
  (List.range 5).all (fun d =>
    if d < st.rank then decide (st.ext.getD d 0 ≠ 0) && (d == 0 || decide (st.str.getD d 0 % 64 = 0))
    else decide (st.ext.getD d 0 = 0) && decide (st.str.getD d 0 = 0))

/-- Subcode 4 of a stencil: a layer binding that names nothing, or a BASE outside the layer's range; a closing slot answers
no one (14 R319). -/
def layerNamed (s : State) (ctx : Nat) (st : Stencil) : Bool :=
  !st.lb ||
  (match modelAt s ctx st.model with
   | none => false
   | some m =>
     !m.closing && decide (st.layer < m.count) &&
     (let l := tget {} m.layers st.layer
      decide (l.addr ≤ st.base.toNat) && decide (st.base.toNat < l.addr + l.bytes)))

/-- What an instruction asks of a stencil: the format it names, and the packed form's whole blocks. -/
structure StencilUse where
  fmt : Option Nat := none
  elems : Nat := 64
  coord0 : Nat := 0
  plain : Bool := false
deriving DecidableEq, Repr

/-- The first failed check of a stencil's fields: its subcode. -/
def stencilSub (s : State) (ctx : Nat) (st : Stencil) (u : StencilUse) : Option Nat :=
  if !stencilShape st || (u.plain && (st.pk || st.lb)) then some 1
  else if (match u.fmt with
    | some f => f != st.fmt
    | none => false) then some 2
  else if st.pk && (st.fmt != 0x0C || u.elems % 64 != 0 || u.coord0 % 64 != 0) then some 3
  else if !layerNamed s ctx st then some 4
  else none

/-- The first record whose fields fail: its subcode and address. -/
def firstSub : List (Option Nat × Nat) → Option (Nat × Nat)
  | [] => none
  | (some n, a) :: _ => some (n, a)
  | (none, _) :: r => firstSub r

/-! ## Checks of addresses (09 R226) -/

/-- What an address field asks for: an alignment, or a global address of an alignment. -/
inductive AddrUse where
  | aligned (n : Nat)
  | global (n : Nat)
deriving DecidableEq, Repr

/-- The cause of an address field, if any. -/
def addrCause (a : W64) : AddrUse → Option (Cause × Nat)
  | .aligned n => if a.toNat % n = 0 then none else some (.misaligned, 0)
  | .global n =>
    if Config.globalLimit ≤ a.toNat then some (.accessViolation, 1)
    else if a.toNat % n = 0 then none else some (.misaligned, 0)

/-- The first address field that fails: its cause and the address. -/
def firstAddr : List (W64 × AddrUse) → Option (Cause × Nat × W64)
  | [] => none
  | (a, u) :: r =>
    match addrCause a u with
    | some (c, n) => some (c, n, a)
    | none => firstAddr r

/-! ## Reading records at issue (09 R226) -/

/-- One record of 64 bytes read for the issuing thread, as a load reads it; what follows gets its bytes. -/
def readRec (s : State) (x : Ctx) (space : Space) (addr : W64) (k : List Byte → State → State) : State :=
  match heldRead s x space 64 64 [(x.lead, addr)] with
  | .stop s1 => s1
  | .vals s1 vs => k (tget [] vs x.lead) s1

/-- A trap of the whole word at issue: every thread of the run takes part (09 R221). -/
def trapAll (s : State) (x : Ctx) (c : Cause) (sub : Nat) (addr : W64) : State := trapWord s x c sub x.cl.mask addr

/-- The field checks of all records, then their address fields; what passes goes on. -/
def checkRecs (s : State) (x : Ctx) (subs : List (Option Nat × Nat)) (addrs : List (W64 × AddrUse)) (k : State) : State :=
  match firstSub subs with
  | some (n, a) => trapAll s x .engineError n (BitVec.ofNat 64 a)
  | none =>
    match firstAddr addrs with
    | some (c, n, a) => trapAll s x c n a
    | none => k

/-- A handle of a slot (09 R222). -/
def handleWord (slot : Nat) : W32 := BitVec.ofNat 32 slot

/-- The lowest free slot of the issuing unit, or OPERAND_LIMIT 4 (09 R222). -/
def withSlot (s : State) (x : Ctx) (k : Nat → State) : State :=
  match freeSlots x.g with
  | [] => trapAll s x .operandLimit 4 0
  | i :: _ => k i

/-- A handle written to vN and lt of every thread of the run. -/
def writeHandle (x : Ctx) (g : Grp) (v slot : Nat) : Grp :=
  x.lanes.foldl (fun g l => modThr (writeV x.cond g l v (handleWord slot)) l (fun t => { t with lt := handleWord slot })) g

/-! ## Engine reads and the pinning of lines -/

/-- What one read or pin of an engine meets. -/
inductive EngRes where
  | ok (s : State) (loc : Loc)
  | wait
  | fault (va level : Nat) (h : Bool)
  | bad (c : Cause) (sub : Nat) (addr : W64)

/-- One place of a generic address for an engine: bounds and windows (04 R81), translation, an uncorrectable line on a read,
and a line another operation owns, which it waits for (05 R114). ag is the engine that translates (17 R365). The line address stands
in ADDR. -/
def engPlace (s : State) (ag : Option Nat) (u : UnitId) (lane : Nat) (ctx op : Nat) (kind : AccKind) (addr : W64) (n : Nat) : EngRes :=
  let line : W64 := BitVec.ofNat 64 (addr.toNat / 64 * 64)
  let free (loc : Loc) (s : State) : EngRes := if ownedByOther s op ctx loc addr.toNat then .wait else .ok s loc
  match resolve s u lane .gen addr n with
  | .error .spadBounds => .bad .spadBounds 0 line
  | .error (.violation k) => .bad .accessViolation k line
  | .error .gone => .bad .remoteGone 0 line
  | .ok (.spad t o) => if spadGone s t then .bad .remoteGone 0 line else free (.spad t o) s
  | .ok (.priv k l o) => free (.priv k l o) s
  | .ok (.glob va) =>
    match translate s ag ctx va kind with
    | (.violation k, _) => .bad .accessViolation k line
    | (.fault lv h, _) => .fault va lv h
    | (.ok pa, s1) =>
      if inPeer pa then .bad .accessViolation 1 line
      else if kind != .write && hasNat s.badLines (lineOf pa) then .bad .eccUncorrectable 0 line
      else free (.phys pa) s1

/-- The fault record of an engine of a core: GROUP 63 (17 R372). -/
def engFault (s : State) (ctx core agent : Nat) (kind : AccKind) (va level : Nat) (h : Bool) : State :=
  writeFault s { ctx := ctx, kind := kind, agent := agent, level := level, h := h, core := core, group := 63, va := va, log := 0xFF }

end Sys2Proof.Machine
end

