-- ==== Sys2Proof/Machine/Fares.lean ====
section
/-! DEFINITION. Fares: levels, requests and grants (16 R345-R350), ramps, skims and bursts (16 R351-R355), starvation claims
(16 R357), gating (16 R359), and the fare registers (16 R348). -/

set_option linter.unusedVariables false

namespace Sys2Proof.Machine

/-! ## What a context holds (16 R347) -/

/-- The matrix holding of an operation: F while granted. -/
def matrixHeld (s : State) (ctx : Nat) (c : Core) : Nat :=
  c.matrix.foldl (fun n o => if (teamAt s o.team).ctx = ctx then n + o.granted else n) 0

/-- The holdings of a context across the device: operations and declared bursts. -/
def ctxHeld (s : State) (ctx : Nat) : Nat :=
  let of (hs : List Holding) : Nat := sumHoldings (hs.filter (fun h => h.ctx == ctx))
  s.cores.foldl (fun n c =>
    n + of c.2.purse.holdings + of c.2.purse.past + matrixHeld s ctx c.2 +
    (if c.2.purse.burst ≠ 0 ∧ (teamAt s c.2.purse.burstTeam).ctx = ctx then c.2.purse.burst else 0)) 0 +
  s.clusters.foldl (fun n c => n + of c.2.holdings + of c.2.past) 0

/-- The cores that pay for a team: its own, and its pair's other core in lockstep (17 R386). -/
def payers (t : Team) : List Nat :=
  match t.shadowCore with
  | some c => [t.core, c]
  | none => [t.core]

/-! ## Requests -/

/-- A request joins those of a cluster, once for an operation. -/
def requestFares (s : State) (r : FareReq) : State :=
  let c := clusterOf r.core
  if (clusterAt s c).requests.any (fun q => q.op == r.op && r.op.isSome && q.core == r.core) then s
  else
    modCluster s c (fun k => { k with requests := k.requests ++ [{ r with since := k.cyc.toNat }] })

/-- Whether every core that pays holds an operation's fares. -/
def paid (s : State) (cores : List Nat) (op : Nat) : Bool := cores.all (fun c => holdsFares s c op)

/-- The requests of an operation's fares where they are not held. -/
def askPaid (s : State) (cores : List Nat) (op fares ctx : Nat) (cluster : Bool) : State :=
  cores.foldl (fun s c =>
    if holdsFares s c op then s else requestFares s { op := some op, core := c, fares := fares, ctx := ctx, cluster := cluster }) s

/-! ## The checks of a request (16 R349, R350, R354, R360) -/

/-- What a request adds to its cluster's level: a matrix unit's operations are not added together. -/
def addOf (s : State) (r : FareReq) : Nat :=
  if r.matrix then r.fares - Nat.max (coreAt s r.core).purse.windowLevel (unitHeld (coreAt s r.core).purse) else r.fares

/-- Whether some other cluster's ring claim keeps a cluster from new fares of RINGTOT (16 R357). -/
def ringClosed (s : State) (c : Nat) : Bool :=
  match s.ring.claims with
  | [] => false
  | k :: _ => k.cluster != c

/-- The declared burst a matrix request takes the place of: that of its own context on its core (16 R353). -/
def burstOf (s : State) (r : FareReq) : Nat :=
  let p := (coreAt s r.core).purse
  if r.matrix && (teamAt s p.burstTeam).ctx == r.ctx then p.burst else 0

/-- The check a request of a cluster fails first, if any: 1 CLIM, 2 FARESHARE, 3 RINGTOT, 4 the governor, 5 balance, 6 the shunt of a
cluster whose partner is gated (16 R349, R360). -/
def failedCheck (s : State) (c : Nat) (r : FareReq) : Option Nat :=
  let k := clusterAt s c
  let cur := curOf s c
  let n := addOf s r
  let d := partnerOf c
  let share := if r.vector then 0 else r.fares - burstOf s r
  if climOf s c < cur + n then some 1
  else if !r.vector && decide ((ctxAt s r.ctx).record.fareshare < ctxHeld s r.ctx + share) then some 2
  else if decide (s.ring.ringTot < ringSum s + n) || ringClosed s c then some 3
  else if !(k.ramp && r.matrix) && decide (Nat.min (climOf s c) (k.prev + k.stepLimit) < cur + n) then some 4
  else if (clusterAt s d).gated then (if s.ring.shunt < cur + n then some 6 else none)
  else if balanced (cur + n) (curOf s d) then none else some 5

/-! ## Grants -/

/-- A matrix holding granted: at once in governor mode, along the ramp table in ramp mode, and in either mode from a ramp-down, or for an
operation above the burst target in force. The climb starts from the level the unit runs at, its skims included; skims beyond the new level
stand (16 R351-R353, R355). -/
def grantUnit (ramp : Bool) (r : FareReq) (p : Purse) : Purse :=
  let u := unitNow p
  let climbs := (ramp || p.mode == .rampingDown || (p.mode == .bursting && !r.burstReq)) && decide (u < r.fares)
  let level := if climbs then Nat.min r.fares (u + 4) else r.fares
  { p with
    mode := if r.burstReq then .bursting else if climbs then .ramping else .operating
    target := r.fares
    rampPhase := 0
    unitLevel := level
    balSkim := Nat.min p.balSkim (u - level)
    windowLevel := Nat.max p.windowLevel r.fares }

/-- Whether a granted matrix request lowers its unit: an operation or a burst below the level held. -/
def lowersUnit (s : State) (r : FareReq) : Bool := r.matrix && decide (r.fares < unitHeld (coreAt s r.core).purse)

/-- A granted request takes effect. -/
def grantReq (s : State) (c : Nat) (r : FareReq) : State :=
  let ramp := (clusterAt s c).ramp
  let s1 :=
    if r.vector then modPurse s r.core (fun p => { p with vector := p.vector + r.fares })
    else if r.burstReq then modPurse s r.core (grantUnit ramp r)
    else
      match r.op with
      | none => s
      | some op =>
        if r.matrix then
          let s2 := modPurse s r.core (grantUnit ramp r)
          modCore s2 r.core (fun k => { k with matrix := k.matrix.map (fun o => if o.id = op then { o with granted := r.fares } else o) })
        else if r.cluster then modCluster s c (fun k => { k with holdings := k.holdings ++ [{ op := op, fares := r.fares, ctx := r.ctx }] })
        else modPurse s r.core (fun p => { p with holdings := p.holdings ++ [{ op := op, fares := r.fares, ctx := r.ctx }] })
  noteCur s1 c

/-- The group that issued an operation, if one did. -/
def opIssuer (s : State) (op : Nat) : Option UnitId :=
  let owner (o : JobOwner) : Option UnitId :=
    match o with
    | .future u _ => some u
    | _ => none
  match s.cores.findSome? (fun c => (coreOps c.2).find? (fun o => o.id == op)) with
  | some o => some o.unit
  | none =>
    match s.cores.findSome? (fun c => c.2.copies.find? (fun j => j.id == op)) with
    | some j => owner j.owner
    | none =>
      match s.clusters.findSome? (fun k => k.2.geo.find? (fun j => j.id == op)) with
      | some j => owner j.owner
      | none => (s.clusters.findSome? (fun k => k.2.art.find? (fun j => j.id == op))).bind (fun j => owner j.owner)

/-- The group a request is made for: that of its word, or of its operation. -/
def reqUnit (s : State) (r : FareReq) : Option UnitId :=
  match r.unit, r.op with
  | some u, _ => some u
  | none, some op => opIssuer s op
  | none, none => none

/-- Whether a request is one of the group that holds a cluster's active reservation. -/
def reqReserved (s : State) (k : Cluster) (r : FareReq) : Bool :=
  match k.fareResv, reqUnit s r with
  | v :: _, some u => u == v.unit
  | _, _ => false

/-- The place of a request in the order of judgment: the reserved group, the earlier cycle, the lower core, the cluster purse. -/
def reqBefore (s : State) (k : Cluster) (a b : FareReq) : Bool :=
  let first (r : FareReq) : Nat := if reqReserved s k r then 0 else 1
  let key (r : FareReq) : Nat := (first r * 2 ^ 64 + r.since) * 1024 + (if r.cluster then 1000 else r.core)
  decide (key a ≤ key b)

/-! ## Balance skims (16 R354, R355) -/

/-- Skim fares added to matrix units in an order, each unit raised to at most 64; none where they do not fit. -/
def addSkims : List Nat → Nat → State → Option State
  | _, 0, s => some s
  | [], _, _ => none
  | c :: cs, n, s =>
    let k := Nat.min (64 - unitHeld (coreAt s c).purse) n
    addSkims cs (n - k) (modPurse s c (fun p => noteUnit { p with balSkim := p.balSkim + k }))

/-- The fewest skims, in steps of 4 fares, with which a condition holds; none where the units have no room for them. -/
def skimUntil (holds : State → Bool) (cores : List Nat) : Nat → State → Option State
  | 0, _ => none
  | n + 1, s =>
    if holds s then some s
    else
      match addSkims cores 4 s with
      | some s1 => skimUntil holds cores n s1
      | none => none

/-- The skims of a cluster's units: at most 64 fares on each of eight. -/
def skimSteps : Nat := 129

/-- Whether a pair is in balance at this moment. -/
def pairBalanced (s : State) (c : Nat) : Bool := balanced (levelNow s c) (levelNow s (partnerOf c))

/-- The falls of a pair judged together, once every change before the requests of the cycle has been made: skims in the cluster that is
lighter now, first on the units that fell there (16 R349 step 1, R355). -/
def holdFalls (s : State) (p : Nat) : State :=
  let c := 2 * p
  let d := 2 * p + 1
  if !(clusterAt s c).fell && !(clusterAt s d).fell then s
  else
    let fallen (k : Nat) : Bool := (coreAt s k).purse.fell
    let light := if levelNow s c ≤ levelNow s d then c else d
    let cores := (clusterCores light).filter fallen ++ (clusterCores light).filter (fun k => !fallen k)
    let s1 := ((clusterCores c ++ clusterCores d).filter fallen).foldl (fun s k => modPurse s k (fun p => { p with fell := false })) s
    let s2 := modCluster (modCluster s1 c (fun k => { k with fell := false })) d (fun k => { k with fell := false })
    if (clusterAt s c).gated || (clusterAt s d).gated || pairBalanced s c then s2
    else
      match skimUntil (fun s => pairBalanced s c) cores skimSteps s2 with
      | some s3 => noteCur (modCluster s3 light (fun k => { k with balSkimming := true })) light
      | none => s2

/-! ## Judging -/

/-- Whether a core purse can pay a price in this window (15 R341). -/
def canPay (s : State) (core p : Nat) : Bool :=
  let q := (coreAt s core).purse
  decide (q.charged + p ≤ 16 * q.vector)

/-- The fares a price lacks in a core purse, rounded up to a multiple of 4 (16 R346). -/
def shortfall (s : State) (core p : Nat) : Nat :=
  let q := (coreAt s core).purse
  roundUp (ceilDiv (q.charged + p - 16 * q.vector) 16) 4

/-- Whether what asked still stands: a word's request ends once its purse can pay, and a burst waits while an operation runs. -/
def reqStands (s : State) (r : FareReq) : Bool :=
  (match r.unit with
   | some u => thas s.teams u.team && !(unitAt s u).retired && !canPay s r.core r.price
   | none => true) &&
  (!r.burstReq || (coreAt s r.core).purse.burst != 0)

/-- A request as it stands now: a word asks for what its purse lacks in this window. -/
def reqNow (s : State) (r : FareReq) : FareReq := if r.vector then { r with fares := shortfall s r.core r.price } else r

/-- A saturating count of 32 bits. -/
def satInc (w : W32) : W32 := if w = 0xFFFFFFFF then w else w + 1

/-- What judging the requests of a cluster has come to: the state, and whether some request was denied by the governor or delayed by
balance. -/
structure Judged where
  s : State
  gov : Bool := false
  bal : Bool := false

/-- One request judged: granted, or kept with its denial noted. A request that a reservation keeps back is not judged (16 R349). -/
def judgeReq (c : Nat) (j : Judged) (r0 : FareReq) : Judged :=
  let s := j.s
  let r := reqNow s r0
  let keep (r : FareReq) : State := modCluster s c (fun k => { k with requests := k.requests ++ [r] })
  let k := clusterAt s c
  if !reqStands s r then j
  else if (k.fareResv ≠ [] && !reqReserved s k r) || (r.burstReq && (coreAt s r.core).matrix.any (fun o => o.granted != 0)) then
    { j with s := keep { r with balance := 0 } }
  else
    match failedCheck s c r with
    | none =>
      let s1 := grantReq s c r
      { j with s := if lowersUnit s r then noteFall s1 c (some r.core) else s1 }
    | some 4 => { s := modCluster (keep { r with balance := 0 }) c (fun k => { k with govStall := true }), gov := true, bal := j.bal }
    | some 5 => { s := keep { r with balance := r.balance + 1 }, gov := j.gov, bal := true }
    | some _ => { j with s := keep { r with balance := 0 } }

/-- The requests of one cluster judged in their order, once in a core cycle (16 R349 steps 3 and 4). -/
def judgeCluster (s : State) (c : Nat) : State :=
  let k := clusterAt s c
  let s1 := modCluster s c (fun k => { k with requests := [] })
  let j := (sortBy (reqBefore s k) k.requests).foldl (judgeReq c) { s := s1 }
  modCluster j.s c (fun k =>
    { k with govCnt := if j.gov then satInc k.govCnt else k.govCnt, balCnt := if j.bal then satInc k.balCnt else k.balCnt })

/-! ## Skims of a delayed request (16 R354) -/

/-- The skims a delayed request causes in the cluster that would be the lighter: the fewest with which the request then meets the rule,
under every check except balance. -/
def requestSkims (s : State) (c : Nat) (r : FareReq) : State :=
  let d := if curOf s c + addOf s r < curOf s (partnerOf c) then c else partnerOf c
  let k := clusterAt s d
  let met (s : State) : Bool := balanced (curOf s c + addOf s r) (curOf s (partnerOf c))
  match skimUntil met (clusterCores d) skimSteps s with
  | none => s
  | some s1 =>
    let cur := curOf s1 d
    if decide (climOf s d < cur) || decide (s.ring.ringTot < ringSum s1) || ringClosed s d ||
       (!k.ramp && decide (Nat.min (climOf s d) (k.prev + k.stepLimit) < cur)) then s
    else noteCur (modCluster s1 d (fun k => { k with balSkimming := true })) d

/-- Whether a pair is in balance without the skims of a cluster. -/
def skimsIdle (s : State) (c : Nat) : Bool :=
  let skims := sumCores s c (fun p => p.balSkim)
  (clusterAt s (partnerOf c)).gated || balanced (levelNow s c - skims) (levelNow s (partnerOf c))

/-- A number of skim fares withdrawn from matrix units in an order. -/
def dropSkims : List Nat → Nat → State → State
  | _, 0, s => s
  | [], _, s => s
  | c :: cs, n, s =>
    let k := Nat.min (coreAt s c).purse.balSkim n
    dropSkims cs (n - k) (if k = 0 then s else modPurse s c (fun p => { p with balSkim := p.balSkim - k }))

/-- Four fares of a cluster's balance skims withdrawn from the last units that run them, once in 4 cycles (16 R354). -/
def withdrawSkims (s : State) (c : Nat) : State :=
  if sumCores s c (fun p => p.balSkim) = 0 then modCluster s c (fun k => { k with balSkimming := false })
  else if (clusterAt s c).skimPhase < 4 ∨ !skimsIdle s c then s
  else
    let s1 := modCluster (dropSkims (clusterCores c).reverse 4 (noteCur s c)) c (fun k => { k with skimPhase := 0 })
    if sumCores s1 c (fun p => p.balSkim) = 0 then modCluster s1 c (fun k => { k with balSkimming := false }) else s1

/-- The skims of a cluster in a core cycle: those that a request delayed by balance alone for BDB cycles causes, else a withdrawal of
skims that are needed no more (16 R349 step 2, R354). -/
def skimStep (s : State) (c : Nat) : State :=
  let k := clusterAt s c
  if k.gated || s.supervisor.freeze then s
  else
    match k.requests.find? (fun r => decide (k.bdb ≤ r.balance) && reqStands s r && failedCheck s c (reqNow s r) == some 5) with
    | some r => requestSkims s c (reqNow s r)
    | none => if k.balSkimming then withdrawSkims s c else s

/-- BALANCE_SKIM: a request delayed by balance alone for BDB cycles causes skims in the lighter cluster; skims that are needed no
more are withdrawn. -/
def execBalanceSkim (cluster : Nat) (s : State) : Out := .next (skimStep s cluster)

/-! ## The order of the purses (16 R349) -/

/-- Whether a cluster judges its requests in a core cycle. While the device is frozen only the word of a STEP asks (17 R384, R385). -/
def judges (s : State) (c : Nat) : Bool :=
  let k := clusterAt s c
  !k.gated && decide (k.requests ≠ []) &&
  (!s.supervisor.freeze || (match s.supervisor.stepping with
    | some u => k.requests.any (fun r => r.unit == some u)
    | none => false))

/-- A cluster's steps in a core cycle, made once: the pair's falls, its own skims, its requests, and the falls these have made. -/
def purseStep (s : State) (c : Nat) : State :=
  if (clusterAt s c).judged then s
  else
    let s1 := modCluster (holdFalls s (pairOf c)) c (fun k => { k with judged := true })
    let s2 := if (clusterAt s1 c).requests = [] ∧ !(clusterAt s1 c).balSkimming then s1 else skimStep s1 c
    if judges s2 c then holdFalls (judgeCluster s2 c) (pairOf c) else s2

/-- The clusters that draw before a cluster, and itself: the pairs before its own in ring order from the pair pointer, the even cluster
of each first. -/
def drawOrder (s : State) (c : Nat) : List Nat :=
  let n := (pairOf c + Config.pairs - s.ring.pairPtr) % Config.pairs
  let before := (List.range n).flatMap (fun i =>
    let p := (s.ring.pairPtr + i) % Config.pairs
    [2 * p, 2 * p + 1])
  before ++ (if c % 2 = 0 then [c] else [c - 1, c])

/-- FARE_GRANT: the purse of a cluster judges its requests once in a core cycle, after those that draw before it have acted. -/
def execFareGrant (cluster : Nat) (s : State) : Out :=
  if !(clusterAt s cluster).judged && judges s cluster then .next ((drawOrder s cluster).foldl purseStep s) else .next s

/-! ## Windows (16 R345, R346) -/

/-- A core's purse at the first cycle of a window. -/
def rollPurse (p : Purse) : Purse :=
  { p with vector := ceilDiv p.charged 16, charged := 0, windowLevel := unitHeld p, past := [],
           burstWindows := if p.burst = 0 then 0 else p.burstWindows + 1 }

/-- The levels of a cluster roll, allowances are set anew, and the sums of the control interval go on or start again. -/
def rollWindow (s : State) (cluster : Nat) : State :=
  let k := clusterAt s cluster
  if !k.boundaryDue then s
  else
    let last := curOf s cluster
    let fresh := k.cyc.toNat / 16 % 64 = 0
    let lower := (clusterCores cluster).any (fun c => decide (coreNow (rollPurse (coreAt s c).purse) < coreNow (coreAt s c).purse))
    let s1 := (clusterCores cluster).foldl (fun s c => modPurse s c rollPurse) s
    let s2 := modCluster s1 cluster (fun k =>
      { k with boundaryDue := false, fell := k.fell || lower, prev := last, cur := 0, peakAdmitted := 0, past := [],
               spentWindows := if fresh then 0 else k.spentWindows + last, energyAdmitted := if fresh then 0 else k.energyAdmitted })
    noteCur s2 cluster

/-- WINDOW_BOUNDARY: the window of a cluster begins, and with it that of its partner, whose clock it shares; an allowance that drops is a
fall (16 R345, R346, R355). -/
def windowBoundary (s : State) (cluster : Nat) : State :=
  if !(clusterAt s cluster).boundaryDue then s
  else rollWindow (rollWindow s cluster) (partnerOf cluster)

/-- WINDOW_BOUNDARY. -/
def execWindowBoundary (cluster : Nat) (s : State) : Out := .next (windowBoundary s cluster)

/-! ## Ramps and bursts (16 R351-R353) -/

/-- A climbing unit rises by 4 every 4 cycles until it reaches its target. -/
def rampStep (s : State) (core : Nat) : State :=
  let p := (coreAt s core).purse
  if s.supervisor.freeze || !climbing p || decide (p.rampPhase < 4) then s
  else noteCur (modPurse s core (fun p => noteUnit { p with unitLevel := Nat.min p.target (p.unitLevel + 4), rampPhase := 0 })) (clusterOf core)

/-- RAMP_STEP. -/
def execRampStep (core : Nat) (s : State) : Out := .next (rampStep s core)

/-- A unit that begins to ramp down from the level it holds. -/
def startRampDown (s : State) (core : Nat) : State :=
  let p := (coreAt s core).purse
  let lv := p.unitLevel - 4
  let s1 := modPurse (noteCur s (clusterOf core)) core (fun p =>
    { p with mode := if lv = 0 then .idle else .rampingDown, target := 0, unitLevel := lv, rampPhase := 0 })
  noteFall s1 (clusterOf core) (some core)

/-- Whether the first operation of a core's queue may start as soon as its fares allow (16 R352). -/
def headPinned (c : Core) : Bool :=
  match c.matrix with
  | o :: _ => o.pin == .pinned
  | [] => false

/-- A unit whose operation has ended: with no operation ready it ramps down in ramp mode, and drops to 0 in governor mode. -/
def unitIdle (s : State) (core : Nat) : State :=
  let k := coreAt s core
  let ramp := (clusterAt s (clusterOf core)).ramp
  if !(k.purse.mode == .ramping || k.purse.mode == .operating) || k.matrix.any (fun o => o.granted != 0) then s
  else if ramp then (if headPinned k then s else startRampDown s core)
  else
    let s1 := modPurse (noteCur s (clusterOf core)) core (fun p => { p with mode := .idle, target := 0, unitLevel := 0 })
    noteFall s1 (clusterOf core) (some core)

/-- An idle unit begins to ramp down, and falls by 4 every 4 cycles to level 0. -/
def rampDown (s : State) (core : Nat) : State :=
  let p := (coreAt s core).purse
  if s.supervisor.freeze then s
  else if p.mode = .rampingDown then (if p.rampPhase < 4 then s else startRampDown s core)
  else unitIdle s core

/-- RAMP_DOWN. -/
def execRampDown (core : Nat) (s : State) : Out := .next (rampDown s core)

/-- A burst target ended other than by an operation: the unit ramps down in either mode. -/
def endBurst (s : State) (core : Nat) : State :=
  let p := (coreAt s core).purse
  if p.burst = 0 then s
  else
    let s1 := modPurse s core (fun p => { p with burst := 0, burstWindows := 0 })
    if p.mode = .bursting then startRampDown s1 core else s1

/-- A burst target ends when BURSTMAX windows have passed without an operation. -/
def burstLapse (s : State) (core : Nat) : State :=
  let p := (coreAt s core).purse
  if p.burst = 0 ∨ p.burstWindows < (clusterAt s (clusterOf core)).burstMax then s else endBurst s core

/-- BURST_LAPSE. -/
def execBurstLapse (core : Nat) (s : State) : Out := .next (burstLapse s core)

/-- The burst targets of a team ended, on every core it issued one on: it retires (16 R353). -/
def endBursts (s : State) (t : Nat) : State :=
  ((s.cores.filter (fun c => c.2.purse.burst != 0 && c.2.purse.burstTeam == t)).map (·.1)).foldl endBurst s

/-- burst: the issuing core's burst target (09 R258, 16 R353). -/
def execBurst (q : SIdx) (s : State) : Out :=
  word (.burst q) s (fun x =>
    let n := Nat.min (bitsAt (x.uni q).toNat 15 0) 4096
    let core := x.t.core
    let s1 := setUnit s x.u (advance x.g)
    if n = 0 then endBurst s1 core
    else
      let b := Nat.min n 64
      let s2 := modCluster s1 (clusterOf core) (fun k => { k with requests := k.requests.filter (fun r => !(r.burstReq && r.core == core)) })
      let s3 := modPurse s2 core (fun p => { p with burst := b, burstTeam := x.u.team, burstWindows := 0 })
      requestFares s3 { core := core, fares := b, ctx := x.t.ctx, matrix := true, burstReq := true })

/-! ## Ring claims (16 R357) -/

/-- A ring claim in the order the claims are made, ties to the lower cluster. -/
def addRingClaim (c : RingClaim) : List RingClaim → List RingClaim
  | [] => [c]
  | d :: r => if d.made = c.made ∧ c.cluster < d.cluster then c :: d :: r else d :: addRingClaim c r

/-- Whether a reservation of a cluster has waited a further starvation bound and has made no claim. -/
def claimDue (s : State) (c : Nat) (r : Resv) : Bool :=
  decide (starvOf (ctxAt s (teamAt s r.unit.team).ctx) < clusterCyc s c - r.taken) &&
  !s.ring.claims.any (fun k => k.cluster == c && k.unit == r.unit)

/-- The claims that the reservations of a cluster make. -/
def ringClaim (s : State) (c : Nat) : State :=
  ((clusterAt s c).fareResv.filter (claimDue s c)).foldl (fun s r =>
    { s with ring := { s.ring with claims := addRingClaim { cluster := c, unit := r.unit, made := s.fe } s.ring.claims } }) s

/-- RING_CLAIM: a reservation for fares that has waited a further starvation bound. -/
def execRingClaim (cluster : Nat) (s : State) : Out := .next (ringClaim s cluster)

/-! ## Gating (16 R359) -/

/-- Whether firmware may gate a cluster. -/
def gateable (s : State) (c : Nat) : Bool :=
  let k := clusterAt s c
  !s.teams.any (fun t => t.2.phase != .saved && (clusterOf t.2.core == c || (match t.2.shadowCore with
    | some d => clusterOf d == c
    | none => false))) &&
  k.geo.isEmpty && k.art.isEmpty &&
  (clusterCores c).all (fun i => (coreAt s i).copies.isEmpty && (coreAt s i).purse.burst == 0) &&
  !s.grids.any (fun g => g.2.reservedSlots.any (fun i => clusterOf i.2 == c)) && curOf s c == 0

/-- Whether a location lies in a scratchpad of a cluster. -/
def locIn (s : State) (c : Nat) : Loc → Bool
  | .spad t _ => thas s.teams t && clusterOf (teamAt s t).core == c
  | _ => false

/-- Whether some request still travels towards a cluster's cores, scratchpads or engines (16 R359 step 1): a load or store, a copy, or a
part of a product. -/
def travelling (s : State) (c : Nat) : Bool :=
  s.teams.any (fun t => t.2.units.any (fun g =>
    g.2.loads.any (fun p => p.lanes.any (fun l => locIn s c l.loc)) || g.2.stores.any (fun p => p.lanes.any (fun l => locIn s c l.loc)))) ||
  s.cores.any (fun k => k.2.copies.any (fun j => j.members.any (fun t => locIn s c (.spad t 0)))) ||
  (clusterCores c).any (fun k => (coreAt s k).flying != [] || (coreAt s k).parts != [] || (coreAt s k).matrix != [])

/-- CLUSTER_GATE: firmware gates an idle cluster, once what already travels to it has completed. -/
def execClusterGate (cluster : Nat) (s : State) : Out :=
  if (clusterAt s cluster).gated || decide (Config.clusters ≤ cluster) || !gateable s cluster || travelling s cluster then .next s
  else .next (modCluster s cluster (fun k => { k with gated := true }))

/-- A cluster ungated: it starts again with CYC, PREV and CUR at 0 (16 R359, 02 R53). -/
def ungate (s : State) (c : Nat) : State :=
  if (clusterAt s c).gated then
    modCluster s c (fun k => { k with gated := false, prev := 0, cur := 0, cyc := 0, boundaryDue := false, spentWindows := 0, energyAdmitted := 0,
                                      peakAdmitted := 0 })
  else s

/-! ## Registers (16 R348) -/

/-- The nearest value of a range. -/
def nearest (lo hi n : Nat) : Nat := Nat.max lo (Nat.min hi n)

/-- RINGTOT_WRITE: FCAP is stored for a larger value. -/
def execRingtotWrite (value : W32) (s : State) : Out :=
  .next { s with ring := { s.ring with ringTot := Nat.min value.toNat s.ring.fcap } }

/-- GOVSTALL_CLEAR: a 1 clears the bit. -/
def execGovstallClear (cluster : Nat) (value : W32) (s : State) : Out :=
  .next (if value.getLsbD 0 then modCluster s cluster (fun k => { k with govStall := false }) else s)

/-- A field of the fare block of one of the 24 clusters changed. -/
def fareBlock (s : State) (c : Nat) (f : Cluster → Cluster) : State := if c < Config.clusters then modCluster s c f else s

/-- Whether the safety supervisor has been released: it is held in reset until boot has verified its software (19 R403). -/
def supervisorOn (s : State) : Bool := s.boot == .booted

/-- FIRMWARE_REGISTER_WRITE: a write outside a field's range stores the nearest value in range. -/
def execFirmwareRegisterWrite (r : FwReg) (value : W32) (s : State) : Out :=
  let n := value.toNat
  .next (match r with
    | .mode c => fareBlock s c (fun k => { k with ramp := decide (n ≠ 0) })
    | .stepLimit c => fareBlock s c (fun k => { k with stepLimit := nearest 64 1024 n })
    | .bdb c => fareBlock s c (fun k => { k with bdb := nearest 1 255 n })
    | .burstMax c => fareBlock s c (fun k => { k with burstMax := nearest 1 255 n })
    | .clim c => fareBlock s c (fun k => { k with clim := nearest 64 4096 n })
    | .ebud c => fareBlock s c (fun k => { k with ebud := n })
    | .govCnt c => fareBlock s c (fun k => { k with govCnt := value })
    | .balCnt c => fareBlock s c (fun k => { k with balCnt := value })
    | .shunt => { s with ring := { s.ring with shunt := nearest 0 256 n } }
    | .scoreT c => if c < Config.cores then modCore s c (fun k => { k with scoreT := nearest 0 255 n }) else s
    | .scoreV c => if c < Config.cores then modCore s c (fun k => { k with scoreV := nearest 0 255 n }) else s
    | .phaseAge => { s with policy := { s.policy with phaseAge := nearest 4096 1048576 n } }
    | .poolStarve => { s with policy := { s.policy with poolStarve := nearest 1024 1048576 n } }
    | .placeDepth => { s with policy := { s.policy with placeDepth := nearest 0 7 n } }
    | .copyMargin => { s with policy := { s.policy with copyMargin := n } }
    | .preemptBound => { s with policy := { s.policy with preemptBound := nearest 4096 16777216 n } }
    | .sgroup => if !supervisorOn s then s else { s with supervisor := { s.supervisor with sgroup := bitsAt n 5 0 } }
    | .score => if !supervisorOn s then s else { s with supervisor := { s.supervisor with score := bitsAt n 7 0 } })

end Sys2Proof.Machine
end

