-- ==== Sys2Proof/Machine/Boundary.lean ====
section
/-! DEFINITION. The boundaries of stack pairs while an operating point changes: what is held there, and in which order it goes on
(16 R358). -/

set_option linter.unusedVariables false

namespace Sys2Proof.Machine

/-- Every stack pair: engine work and the front end may cross any boundary (log 46). -/
def allPairs : List Nat := List.range Config.pairs

/-- Whether some operation that may start has a number. -/
def opStands (s : State) (op : Nat) : Bool :=
  s.cores.any (fun c =>
    c.2.copies.any (fun j => j.id == op && !j.started) || (c.2.matrix ++ c.2.parts ++ c.2.flying).any (fun o => o.id == op && o.pin == .open)) ||
  s.clusters.any (fun k => k.2.geo.any (fun j => j.id == op && !j.started) || k.2.art.any (fun j => j.id == op && !j.started))

/-- Whether what was held at a boundary still asks to cross. -/
def asks (s : State) : Asker → Bool
  | .unit u => (teamAt s u.team).phase == .running && !(teamAt s u.team).stopped && !(unitAt s u).retired && (unitAt s u).clause.isSome
  | .job op => opStands s op
  | .wagons q => (tget {} s.wagons q).departed.any (fun d => d.tile.isSome && d.grid.isNone)
  | .layer k => s.contexts.any (fun c => c.2.models.any (fun m => m.2.layers.any (fun l => layerKey c.1 m.1 l.1 == k && l.2.waiting)))
  | .frontEnd => s.queues.any (fun q => q.2.en && q.2.phase == .ready)

/-- The pairs of a list that hold a request at their boundary: the operating point is to change, or a request held there earlier has yet to
go on. -/
def heldPairs (s : State) (a : Asker) (ps : List Nat) : List Nat :=
  if s.boundary.isEmpty && !pointChanges s then []
  else
    let earlier := (s.boundary.takeWhile (fun h => h.who != a)).filter (fun h => asks s h.who)
    ps.filter (fun p => (pairAt s p).pending.isSome || earlier.any (fun h => hasNat h.pairs p))

/-- A request held at boundaries takes its place in their order. -/
def holdAsk (s : State) (a : Asker) (ps : List Nat) : State :=
  if s.boundary.any (fun h => h.who == a) then
    { s with boundary := s.boundary.map (fun h => if h.who == a then { h with pairs := dedupNat (h.pairs ++ ps) } else h) }
  else { s with boundary := s.boundary ++ [{ who := a, pairs := ps }] }

/-- What crosses its boundaries is held no longer. -/
def askPassed (s : State) (a : Asker) : State := { s with boundary := s.boundary.filter (fun h => h.who != a) }

/-- A held request after a front-end cycle: one whose boundaries have been open for a whole cycle has lost its place. -/
def askAfter (s : State) (h : HeldAsk) : Option HeldAsk :=
  if !asks s h.who then none
  else if heldPairs s h.who h.pairs ≠ [] then some { h with opened := false }
  else if h.opened then none
  else some { h with opened := true }

/-- The held requests after a front-end cycle. -/
def askTick (s : State) : State := if s.boundary.isEmpty then s else { s with boundary := s.boundary.filterMap (askAfter s) }

/-- Engine work and the front end act where no boundary holds them, and else wait in their place. -/
def crossOr (s : State) (a : Asker) (go : State) : State :=
  match heldPairs s a allPairs with
  | [] => go
  | ps => holdAsk s a ps

end Sys2Proof.Machine
end

