-- ==== Sys2Proof/Machine/FrontEnd.lean ====
section
/-! DEFINITION. The front end: arbitration among queues (15 R325, R326), what a command in service comes to (15 R326, R327, R329,
R410), and SIGNAL, WAIT and CANCEL (15 R328, R342). -/

set_option linter.unusedVariables false

namespace Sys2Proof.Machine

/-! ## Commands in service -/

/-- How a command leaves service: with a completion, with its work accepted, held with what firmware has done for it so far, or stopped
by a page fault or a failed access. -/
inductive CmdEnd where
  | done (s : State) (status : Nat) (gridid : W32) (detail : Nat)
  | accepted (s : State)
  | hold (s : State) (why : HeldWhy)
  | fault (kind : AccKind) (va level : Nat) (h : Bool)
  | bad (detail : Nat)

/-- A command that completes without detail. -/
def CmdEnd.status (s : State) (n : Nat) : CmdEnd := .done s n 0 0

/-- A command held at the head of its queue. -/
def holdHead (s : State) (c : Service) (why : HeldWhy) : State :=
  settleQueue (modQueue { s with service := none } c.queue (fun q => { q with head := some { index := c.index, bytes := c.bytes, why := why } }))
    c.queue

/-- What a command comes to. A page fault writes a record and holds the queue; while the fault buffer is full the queue is held for a
record slot (15 R410, 17 R372). -/
def leaveService (s : State) (c : Service) (op : Nat) (h : CmdHeader) : CmdEnd → State
  | .done s1 st g d => completeCommand { s1 with service := none } c.queue c.index op h st g d
  | .accepted s1 =>
    settleQueue (modQueue { s1 with service := none } c.queue (fun q => { q with outstanding := q.outstanding ++ [{ index := c.index, op := op }] }))
      c.queue
  | .hold s1 why => holdHead s1 c why
  | .fault kind va lv hh =>
    if faultRoom s then holdHead (feFault s (queueAt s c.queue).ctx kind va lv hh) c (.page (pageOf va)) else holdHead s c .room
  | .bad d => completeCommand { s with service := none } c.queue c.index op h 19 0 d

/-- A command in service: ORD first (15 R326), then what the command does. -/
def inOrder (op : Nat) (ord : Bool) (h : CmdHeader) (s : State) (run : Service → Queue → CmdEnd) : Out :=
  match s.service with
  | none => .next s
  | some c =>
    let q := queueAt s c.queue
    if ord ∧ q.outstanding ≠ [] then .next (holdHead s c .order)
    else .next (leaveService s c op h (run c q))

/-- A command on the queue's own context, which must accept it (15 R327, 14 R305). -/
def ownCommand (op : Nat) (h : CmdHeader) (s : State) (run : Service → Queue → CmdEnd) : Out :=
  inOrder op h.ord h s (fun c q => if (ctxAt s q.ctx).phase ≠ .active then .status s 18 else run c q)

/-- An administrative command, on an ADMIN queue only (15 R327). -/
def adminCommand (op : Nat) (h : CmdHeader) (s : State) (run : Service → Queue → CmdEnd) : Out :=
  inOrder op h.ord h s (fun c q => if !q.admin then .status s 17 else run c q)

/-- A record of a command read through its queue's context (15 R410). -/
def cmdRead (s : State) (q : Queue) (addr : W64) (n : Nat) (k : List Byte → State → CmdEnd) : CmdEnd :=
  match feRead s q.ctx addr.toNat n with
  | .ok bs s1 => k bs s1
  | .fault va lv h => .fault .read va lv h
  | .bad d => .bad d

/-- BAD_COMMAND: an unknown OP, a field out of its range or a nonzero reserved bit has no other effect (15 R327). -/
def execBadCommand (s : State) : Out :=
  match s.service with
  | none => .next s
  | some c =>
    let x := bytesToNat c.bytes
    .next (leaveService s c (bitsAt x 135 128) (cmdHeader x) (.status s 16))

/-! ## Arbitration (15 R323, R325) -/

/-- The READY queues. -/
def readyQueues (s : State) : List (Nat × Queue) := s.queues.filter (fun e => e.2.en && e.2.phase == .ready)

/-- The queue the arbiter serves: the highest level that holds a READY queue, and within it the lowest queue above the one it
served last, wrapping round. -/
def arbiterChoice (s : State) : Option Nat :=
  let rs := readyQueues s
  match (rs.map (fun e => e.2.level)).max? with
  | none => none
  | some l =>
    let ns := (rs.filter (fun e => e.2.level == l)).map (·.1)
    match tget? s.lastServed l with
    | none => ns.head?
    | some last =>
      match ns.filter (fun n => decide (last < n)) with
      | n :: _ => some n
      | [] => ns.head?

/-- A queue held for a page of its ring, its RIDX or its completion ring, or first for a record slot (15 R410, 17 R372). -/
def queuePageHold (s : State) (n : Nat) (kind : AccKind) (va lv : Nat) (h : Bool) : State :=
  if faultRoom s then
    settleQueue (modQueue (feFault s (queueAt s n).ctx kind va lv h) n (fun q => { q with cplHeld := some (pageOf va) })) n
  else settleQueue (modQueue s n (fun q => { q with roomHeld := true })) n

/-- A queue's entry of the monitor table is armed with the line that holds WIDX, and the front end reads W there (15 R324). -/
def armQueue (s : State) (n : Nat) : State :=
  let q := queueAt s n
  if !q.en || q.watchLine.isSome || q.phase == .error then s
  else
    match fePlace s q.ctx q.widx .read with
    | .fault va lv h => queuePageHold s n .read va lv h
    | .bad _ => queueError s n
    | .ok pa s1 =>
      if hasNat s1.badLines (lineOf pa) then queueError s1 n
      else
        let before := { q with watchLine := some (lineOf pa) }
        let after := queueSees (ctxAt s q.ctx).record.prio before (bytesToW32 (memReadN s1.mem pa 4))
        queueErrorLog (modQueue s1 n (fun _ => after)) before after

/-- Whether the invalidations of a context are going on (17 R368). -/
def ctxInvalidating (s : State) (ctx : Nat) : Bool := s.invalidations.any (fun i => i.ctx == ctx)

/-- Whether a head's reason has ended without a word of its own: an engine's hold on its line, a full fault buffer, or invalidations. -/
def holdOver (s : State) : HeldWhy → Bool
  | .line l => !ownedLine s (.phys l)
  | .room => faultRoom s
  | .invalidation ctx => !ctxInvalidating s ctx
  | _ => false

/-- A queue held for such a reason goes on; other queues have gone on meanwhile (15 R326). -/
def retryHold (s : State) (n : Nat) : State :=
  let q := queueAt s n
  let s1 := match q.head with
    | some h => if holdOver s h.why then settleQueue (modQueue s n (fun q => { q with head := some { h with why := .ended } })) n else s
    | none => s
  if q.cplWait ≠ [] ∧ !q.roomHeld then settleQueue (flushCpl s1 n) n
  else if q.roomHeld && faultRoom s then armQueue (flushCpl (settleQueue (modQueue s1 n (fun q => { q with roomHeld := false })) n) n) n else s1

/-- Every queue so held looks again at the end of a front-end cycle. -/
def retryHolds (s : State) : State := (tkeys s.queues).foldl retryHold s

/-- A command read once from its ring, and the read index written after it (15 R323). -/
def takeCommand (s : State) (n : Nat) : State :=
  let q := queueAt s n
  let index := q.rd.toNat
  match feRead s q.ctx (q.ring + 64 * (index % 2 ^ q.logn)) 64 with
  | .fault va lv h => queuePageHold s n .read va lv h
  | .bad _ => queueError s n
  | .ok bs s1 =>
    match fePlace s1 q.ctx q.ridx .write with
    | .fault va lv h => queuePageHold s n .write va lv h
    | .bad _ => queueError s n
    | .ok pa s2 =>
      let s3 := settleQueue (modQueue s2 n (fun q => { q with rd := q.rd + 1 })) n
      homeWrite { s3 with service := some { queue := n, index := index, bytes := bs } } (writesOf pa (natToBytes 4 (index + 1)))

/-- A queue served: it returns to its base level, its ageing count starts again, and its level remembers it. -/
def served (s : State) (n : Nat) : State :=
  let q := queueAt s n
  modQueue { s with lastServed := tset s.lastServed q.level n } n (fun q => { q with level := (ctxAt s q.ctx).record.prio, aged := 0 })

/-- ARBITER_SELECT: firmware core 0, free to take a command, takes the head of the queue the arbiter selects; a head it took
before and had to hold is taken as it was read. While an operating point changes the front end's reads are held (16 R358). -/
def execArbiterSelect (s : State) : Out :=
  if s.service.isSome then .next s
  else if (arbiterChoice s).isSome ∧ heldPairs s .frontEnd allPairs ≠ [] then .next (holdAsk s .frontEnd (heldPairs s .frontEnd allPairs))
  else
    match arbiterChoice s with
    | none => .next s
    | some n =>
      match (queueAt s n).head with
      | some h =>
        .next (settleQueue (modQueue { served s n with service := some { queue := n, index := h.index, bytes := h.bytes } } n
          (fun q => { q with head := none })) n)
      | none => .next (takeCommand (served s n) n)

/-- A queue after its ageing interval: AGE front-end cycles READY and unserved raise its level by one, up to 7 (15 R325). -/
def risen (q : Queue) : Queue :=
  if !q.en || q.phase ≠ .ready || q.age = 0 || decide (q.aged < q.age) then q else { q with aged := 0, level := Nat.min 7 (q.level + 1) }

/-- QUEUE_AGEING. -/
def execQueueAgeing (queue : Nat) (s : State) : Out :=
  .next (if risen (queueAt s queue) = queueAt s queue then s else modQueue s queue risen)

/-! ## SIGNAL and WAIT (15 R328) -/

/-- The physical place of a command's word; an uncorrectable line is code 0xFF. -/
def cmdWord (s : State) (q : Queue) (addr : W64) (kind : AccKind) (k : Nat → State → CmdEnd) : CmdEnd :=
  match fePlace s q.ctx addr.toNat kind with
  | .fault va lv h => .fault kind va lv h
  | .bad d => .bad d
  | .ok pa s1 => if hasNat s.badLines (lineOf pa) then .bad 0xFF else if ownedLine s (.phys (lineOf pa)) then .hold s (.line (lineOf pa)) else k pa s1

/-- SIGNAL: after every earlier command of its queue, whatever its ORD, one release atomic at the word's home. -/
def execSignal (h : CmdHeader) (addr : W64) (value : W32) (isAdd : Bool) (s : State) : Out :=
  inOrder 0x06 true h s (fun c q =>
    if (ctxAt s q.ctx).phase ≠ .active then .status s 18
    else
      cmdWord s q addr .atomic (fun pa s1 =>
        let old := bytesToW32 (memReadN s1.mem pa 4)
        .status (homeWrite s1 (writesOf pa (natToBytes 4 (if isAdd then old + value else value).toNat))) 0))

/-- WAIT: the queue is HELD until the word satisfies the condition. -/
def execWait (h : CmdHeader) (addr : W64) (value : W32) (k : Cond) (s : State) : Out :=
  ownCommand 0x07 h s (fun c q =>
    cmdWord s q addr .read (fun pa s1 =>
      if condEval k (bytesToW32 (memReadN s1.mem pa 4)) value then .status s1 0
      else .accepted (modQueue s1 c.queue (fun q => { q with waiting := some { index := c.index, h := h, pa := pa, va := addr.toNat, value := value, k := k } }))))

/-- A WAIT ended with a status. -/
def endWaitCommand (s : State) (n status : Nat) : State :=
  match (queueAt s n).waiting with
  | none => s
  | some w => completeCommand (modQueue s n (fun q => { q with waiting := none })) n w.index 0x07 w.h status 0 0

/-- WAIT_COMMAND_SATISFIED: a write made the condition of a queue's WAIT hold. -/
def execWaitCommandSatisfied (queue : Nat) (s : State) : Out :=
  match (queueAt s queue).waiting with
  | none => .next s
  | some w => if w.hit then .next (endWaitCommand s queue 0) else .next s

/-! ## CANCEL (15 R342) -/

/-- Every WAIT of a context's queues ended CANCELLED (15 R328). -/
def cancelQueueWaits (s : State) (ctx : Nat) : State :=
  ((s.queues.filter (fun e => e.2.ctx == ctx)).map (·.1)).foldl (fun s n => endWaitCommand s n 1) s

/-- The live grid of a context with a GRIDID. -/
def liveGrid (s : State) (ctx : Nat) (gridid : W32) : Option Nat :=
  (s.grids.find? (fun e => e.2.live && e.2.ctx == ctx && e.2.gridid == gridid)).map (·.1)

/-- CANCEL: every domain of the context, or that of the live grid it names; OK where none is live. -/
def execCancelCommand (h : CmdHeader) (gridid : W32) (all : Bool) (s : State) : Out :=
  ownCommand 0x09 h s (fun c q =>
    if all then .status (cancelQueueWaits (setDomains s q.ctx) q.ctx) 0
    else
      match liveGrid s q.ctx gridid with
      | some g => .status (setDomain s g) 0
      | none => .status s 0)

end Sys2Proof.Machine
end

