-- ==== Sys2Proof/Machine/Layers.lean ====
section
/-! DEFINITION. Model residency: requests, placement, eviction and loads of layers (14 R313-R316, R319, R320), the words of major
0x3A that name a layer (09 R255-R257) and the commands that bind, prefetch and unbind a model (14 R311, R312). -/

set_option linter.unusedVariables false

namespace Sys2Proof.Machine

/-! ## Outcomes of requests (09 R256, 14 R316) -/

/-- Whether a team still has a thread: an acquisition of a team that has left is dropped (09 R256). -/
def teamLives (s : State) (t : Nat) : Bool :=
  thas s.teams t && !(teamAt s t).stopped && (teamAt s t).units.any (fun e => !e.2.retired)

/-- A team's count of a layer risen by one; its later reads of the layer's weights come after this (05 R119). -/
def teamAcquires (s : State) (t k : Nat) : State :=
  modTeam s t (fun t => { t with layerCounts := tset t.layerCounts k (tget 0 t.layerCounts k + 1), layersRead := dedupNat (k :: t.layersRead) })

/-- An operation of a core's matrix unit changed. -/
def modOp (s : State) (core op : Nat) (f : MatOp → MatOp) : State :=
  let g (o : MatOp) : MatOp := if o.id = op then f o else o
  modCore s core (fun c => { c with matrix := c.matrix.map g, parts := c.parts.map g, flying := c.flying.map g })

/-- The implicit acquisition of an operation orders its team's later reads of the weights (05 R119). -/
def opAcquires (s : State) (core op k : Nat) : State :=
  match (coreOps (coreAt s core)).find? (fun o => o.id == op) with
  | some o => if thas s.teams o.team then modTeam s o.team (fun t => { t with layersRead := dedupNat (k :: t.layersRead) }) else s
  | none => s

/-- The flag form of lacq ends: 0 or 5 to vN, the flag complete, LAYER_FAULT deferred with the issuing lane alone (09 R223). -/
def lacqEnds (s : State) (k : Nat) (u : UnitId) (run : W32) (v : Nat) (f : Option Nat) (noerr : Bool) (pc cstart : Nat) (ok : Bool) :
    State :=
  let g := unitAt s u
  let lanes := (maskLanes run).filter (fun l => (thrAt g l).live)
  let g1 := lanes.foldl (fun g l => writeV (isCond u) g l v (if ok then 0 else 5)) g
  let s1 := setUnit s u (flagDec g1 f)
  if ok then (if teamLives s u.team then teamAcquires s1 u.team k else s1)
  else if noerr then s1
  else deferTrap s1 u (mkRec s1 u pc cstart .layerFault 0 (laneBit (lowestLane run)) (BitVec.ofNat 64 (layerAt s k).addr)) (lowestLane run)

/-- One waiter of a layer learns whether it is resident. An acquisition of a team is one of its operations until then, and holds its
retirement; of a team that has left it is dropped (01 R26, 09 R223, R256). -/
def layerAnswer (s : State) (k : Nat) (ok : Bool) (w : LayerWaiter) : State :=
  match w with
  | .flag u run v f noerr pc cstart =>
    if thas s.teams u.team then engineEnd (lacqEnds s k u run v f noerr pc cstart ok) u.team else s
  | .future u slot =>
    if !teamLives s u.team then engineEnd s u.team
    else
      let s1 := engineEnd (if ok then teamAcquires s u.team k else s) u.team
      completeSlot s1 u slot (if ok then 0 else 5) 0 (BitVec.ofNat 64 (layerAt s k).addr)
  | .op core op =>
    if !(coreOps (coreAt s core)).any (fun o => o.id == op) then s
    else if ok then
      opAcquires (modOp (modLayer s k (fun l => { l with ops := l.ops + 1 })) core op (fun o => { o with layer := o.layer ++ [k] })) core op k
    else modOp s core op (fun o => { o with layerErrs := o.layerErrs ++ [k] })
  | .prefetch => s
  | .ahead => s

/-- Every waiter of a layer answered. -/
def answerAll (s : State) (k : Nat) (ok : Bool) : State :=
  let ws := (layerAt s k).waiters
  ws.foldl (fun s w => layerAnswer s k ok w) (modLayer s k (fun l => { l with waiters := [], waiting := false, leads := false, due := false }))

/-- A layer whose load or placement failed (14 R315, R316). -/
def layerFails (s : State) (k : Nat) : State :=
  answerAll (modLayer s k (fun l => { l with phase := .failed, sets := [], page := none })) k false

/-! ## Placement (14 R315) -/

/-- Every layer of every bound model with its key. -/
def allLayers (s : State) : List (Nat × Layer) :=
  s.contexts.flatMap (fun c => c.2.models.flatMap (fun m => m.2.layers.map (fun l => (layerKey c.1 m.1 l.1, l.2))))

/-- How often a number stands in a list. -/
def countNat (l : List Nat) (x : Nat) : Nat := (l.filter (· == x)).length

/-- What the lines of a layer meet when they are translated. -/
inductive LayerLines where
  | ok (s : State) (lines : List Nat)
  | fault (va level : Nat) (h : Bool)
  | bad

/-- The engine whose cluster's TLB serves the load of a layer (17 R365): that of the first of its requests made by a team; a prefetch is
made for no cluster (log 46). -/
def layerAgent (s : State) (k : Nat) : Option Nat :=
  (layerAt s k).waiters.findSome? (fun w =>
    match w with
    | .flag u _ _ _ _ _ _ => some (engineAgent (clusterOf (coreOf s u)))
    | .future u _ => some (engineAgent (clusterOf (coreOf s u)))
    | .op core _ => some (engineAgent (clusterOf core))
    | _ => none)

/-- The physical lines of a range in ascending order. -/
def linesFrom (s : State) (ag : Option Nat) (ctx va : Nat) : Nat → LayerLines
  | 0 => .ok s []
  | n + 1 =>
    match translate s ag ctx va .read with
    | (.fault lv h, _) => .fault va lv h
    | (.violation _, _) => .bad
    | (.ok pa, s1) =>
      match linesFrom s1 ag ctx (va + 64) n with
      | .ok s2 ls => .ok s2 (lineOf pa :: ls)
      | r => r

/-- The physical lines of a layer in ascending order. -/
def layerLines (s : State) (k : Nat) : LayerLines :=
  linesFrom s (layerAgent s k) (keyCtx k) (layerAt s k).addr ((layerAt s k).bytes / 64)

/-- The L2 sets of lines, one number for each of the 3,072 sets of a slice; which set a line takes is open (log 9). -/
def setsOf (lines : List Nat) : List Nat := lines.map (fun l => homeSlice (l * 64) * 2 ^ 40 + Config.l2Set l % 3072)

/-- Whether a layer may be evicted for another. -/
def evictable (s : State) (self : Nat) (e : Nat × Layer) : Bool :=
  e.1 != self && e.2.pinnable && e.2.phase == .resident && layerTotal s e.1 == 0

/-- Order of victims: EPRIO, last release, context, layer; two slots of one context stand in the order of the layer list (log 47). -/
def victimBefore (s : State) (a b : Nat × Layer) : Bool :=
  let ep (k : Nat) : Nat := ((modelAt s (keyCtx k) (keySlot k)).map (·.eprio)).getD 0
  let key (e : Nat × Layer) : Nat := ((ep e.1 * 2 ^ 80 + e.2.lastRelease) * 64 + keyCtx e.1) * 1024 + keyLayer e.1
  decide (key a ≤ key b)

/-- Lines of a set that layers hold. -/
def heldIn (ls : List (Nat × Layer)) (x : Nat) : Nat := ls.foldl (fun n e => n + countNat e.2.sets x) 0

/-- Outcomes of Place. -/
inductive PlaceEnd where
  | start (victims : List Nat)
  | fail
  | wait

/-- Victims of one set until it is short no more. -/
def victimsOf (need pinned x : Nat) (gone : List Nat) (ls : List (Nat × Layer)) : List (Nat × Layer) → List Nat
  | [] => gone
  | v :: r =>
    if need + heldIn (ls.filter (fun e => !hasNat gone e.1)) x ≤ pinned then gone
    else if countNat v.2.sets x = 0 ∨ hasNat gone v.1 then victimsOf need pinned x gone ls r
    else victimsOf need pinned x (gone ++ [v.1]) ls r

/-- Place(L) evaluated for all sets at once; the short sets are relieved in the order of the layer's lines, victims of earlier ones counted
as gone (log 47). -/
def placeEnd (s : State) (k : Nat) (sets : List Nat) : PlaceEnd :=
  let ls := allLayers s
  let xs := dedupNat sets
  let vs := sortBy (victimBefore s) (ls.filter (evictable s k))
  let left := ls.filter (fun e => !evictable s k e)
  let fits (held : List (Nat × Layer)) (x : Nat) : Bool := decide (countNat sets x + heldIn held x ≤ s.pinnedWays)
  if xs.all (fits ls) then .start []
  else if xs.all (fits left) then .start (xs.foldl (fun gone x => victimsOf (countNat sets x) s.pinnedWays x gone ls vs) [])
  else if xs.any (fun x => !fits left x && left.all (fun e =>
      countNat e.2.sets x == 0 || (keyCtx e.1 == keyCtx k && (layerTotal s e.1 != 0 || e.2.phase == .loading)))) then .fail
  else .wait

/-- Whether a layer could be placed now without waiting. -/
def placeableNow (s : State) (k : Nat) : Bool :=
  match layerLines s k with
  | .ok _ ls =>
    match placeEnd s k (setsOf ls) with
    | .start _ => true
    | _ => false
  | _ => false

/-! ## Requests (14 R314) -/

/-- A layer joins the requests that wait for placement. -/
def waitLayer (s : State) (k seq : Nat) (w : LayerWaiter) : State :=
  modLayer s k (fun l => { l with
    waiters := l.waiters ++ [w], waiting := true, reqSeq := if l.waiting then l.reqSeq else seq })

/-- The next PREF layers requested with a layer, each only if it is ABSENT and can be placed now, with the ways of the layer itself
reserved. -/
def requestAhead (s : State) (k seq : Nat) : State :=
  match modelAt s (keyCtx k) (keySlot k) with
  | none => s
  | some m =>
    ((List.range m.pref).map (fun i => keyLayer k + 1 + i)).foldl (fun s i =>
      let k' := layerKey (keyCtx k) (keySlot k) i
      let l := layerAt s k'
      if decide (i < m.count) && pinnable s l && l.phase == .absent && !l.waiting && placeableNow s k' then waitLayer s k' seq .ahead else s) s

/-- A request of a layer: held while the pinned-way count changes; of a resident layer answered as the front-end cycle ends, in which a
closing mark comes before it and an eviction after it (14 R315, R319); else waiting for its load, with which the next PREF layers
start. -/
def requestLayer (s : State) (k : Nat) (w : LayerWaiter) : State :=
  let l := layerAt s k
  let seq := s.layerSeq
  let s1 := { s with layerSeq := s.layerSeq + 1 }
  let lead (s : State) : State := modLayer s k (fun l => { l with leads := true })
  if s.waysHeld.isSome then { s with layerHeld := s.layerHeld ++ [(k, w)] }
  else if !pinnable s l || l.phase == .resident || l.phase == .loading then modLayer s1 k (fun l => { l with waiters := l.waiters ++ [w] })
  else if l.waiting && l.waiters.any (fun w => w != .ahead) then waitLayer s1 k seq w
  else lead (waitLayer (modLayer s1 k (fun l => { l with waiting := false })) k seq w)

/-- Order of waiting loads: priority, arrival, context, layer. -/
def loadBefore (s : State) (a b : Nat) : Bool :=
  let key (k : Nat) : Nat :=
    (((7 - (ctxAt s (keyCtx k)).record.prio) * 2 ^ 80 + (layerAt s k).reqSeq) * 64 + keyCtx k) * 1024 + keyLayer k
  decide (key a ≤ key b)

/-- Loads in progress. -/
def loading (s : State) : Nat := ((allLayers s).filter (fun e => e.2.phase == .loading)).length

/-- What placing a waiting layer comes to now; a page fault or a failed translation holds or fails it. -/
def placement (s : State) (k : Nat) : LayerLines × PlaceEnd :=
  match layerLines s k with
  | .ok s1 ls => (.ok s1 ls, placeEnd s1 k (setsOf ls))
  | r => (r, .wait)

/-- Whether a waiting layer has nothing to do now: its page has not come, or Place waits. -/
def placeWaits (s : State) (k : Nat) : Bool :=
  (layerAt s k).page.isSome ||
  (match placement s k with
   | (.ok _ _, .wait) => true
   | _ => false)

/-- Victims evicted and the layer's ways reserved. -/
def startLoad (s : State) (k : Nat) (lines : List Nat) (victims : List Nat) : State :=
  modLayer (victims.foldl (fun s v => modLayer s v (fun l => { l with phase := .absent, sets := [] })) s) k (fun l =>
    { l with phase := .loading, waiting := false, due := false, sets := setsOf lines })

/-- Whether a layer waits only as one that another's request would start: it stays ABSENT where it cannot be placed (14 R314). -/
def onlyAhead (s : State) (k : Nat) : Bool := (layerAt s k).waiters.all (fun w => w == .ahead)

/-- A layer that is not loaded ahead after all. -/
def dropAhead (s : State) (k : Nat) : State := modLayer s k (fun l => { l with waiting := false, waiters := [] })

/-- The layers that a request starts with its own, once its own layer has its ways, waits for them, or has failed. -/
def leadOn (before s : State) (k : Nat) : State :=
  if (layerAt before k).leads then
    requestAhead (modLayer s k (fun l => { l with leads := false })) k (layerAt before k).reqSeq
  else s

/-- A waiting layer placed, failed, or held for a page (14 R315, 17 R376). Victims are chosen first, and evicted as the front-end cycle
ends: an acquisition of one of them in that cycle is served first. -/
def placeLayer (evicts : Bool) (s : State) (k : Nat) : State :=
  match placement s k with
  | (.fault va lv h, _) =>
    if faultRoom s then
      leadOn s (modLayer (writeFault s { ctx := keyCtx k, kind := .read, agent := agentResidency, level := lv, h := h, core := 0xFF,
                                         group := 63, va := va, log := 0xFF }) k (fun l => { l with page := some (pageOf va) })) k
    else s
  | (.bad, _) => if onlyAhead s k then dropAhead s k else leadOn s (layerFails s k) k
  | (.ok s1 ls, .start vs) =>
    if vs ≠ [] && !evicts then modLayer s k (fun l => { l with due := true }) else leadOn s (startLoad s1 k ls vs) k
  | (.ok s1 _, .fail) => if onlyAhead s k then dropAhead s1 k else leadOn s (layerFails s1 k) k
  | (.ok s1 _, .wait) => if onlyAhead s k then dropAhead s1 k else leadOn s s k

/-- LAYER_PLACEMENT: the residency engine places a waiting layer when none before it in order can start, and fewer than four loads
are in progress. -/
def execLayerPlacement (ctx slot layer : Nat) (s : State) : Out :=
  let k := layerKey ctx slot layer
  let before := ((allLayers s).filter (fun e => e.2.waiting && e.1 != k && loadBefore s e.1 k)).map (·.1)
  if s.supervisor.freeze || s.waysHeld.isSome || !(layerAt s k).waiting || (layerAt s k).page.isSome ||
      decide (Config.layerLoads ≤ loading s) || !before.all (placeWaits s) then .next s
  else .next (crossOr s (.layer k) (placeLayer false s k))

/-- The requests of layers that need no load answered, as a front-end cycle ends (14 R313, R319). -/
def answerResident (s : State) : State :=
  ((allLayers s).filter (fun e => decide (e.2.waiters ≠ []) && !e.2.waiting && (!pinnable s e.2 || e.2.phase == .resident))).foldl
    (fun s e => answerAll s e.1 true) s

/-- The evictions chosen in a front-end cycle made as it ends, each judged again after the acquisitions of the cycle (14 R315). -/
def evictDue (s : State) : State :=
  (sortBy (loadBefore s) (((allLayers s).filter (fun e => e.2.due)).map (·.1))).foldl (fun s k =>
    let s1 := modLayer s k (fun l => { l with due := false })
    if s.waysHeld.isSome || !(layerAt s k).waiting || (layerAt s k).page.isSome || decide (Config.layerLoads ≤ loading s) then s1
    else placeLayer true s1 k) s

/-- What the residency engine does as a front-end cycle ends; nothing while the device is frozen (17 R384). -/
def layerTick (s : State) : State := if s.supervisor.freeze then s else evictDue (answerResident s)

/-- Whether a line of a layer cannot be corrected. -/
def layerPoisoned (s : State) (k : Nat) : Bool :=
  match layerLines s k with
  | .ok _ ls => ls.any (hasNat s.badLines)
  | _ => false

/-- LAYER_LOAD_COMPLETE: every line pinned, the layer is RESIDENT and its requests complete; a line that cannot be corrected fails
the load. -/
def execLayerLoadComplete (ctx slot layer : Nat) (s : State) : Out :=
  let k := layerKey ctx slot layer
  if s.supervisor.freeze || (layerAt s k).phase ≠ .loading then .next s
  else if layerPoisoned s k then .next (layerFails s k)
  else .next (answerAll (modLayer s k (fun l => { l with phase := .resident })) k true)

/-- LAYER_LOAD_ERROR: an uncorrectable error during a load makes the layer FAILED (14 R316). -/
def execLayerLoadError (ctx slot layer : Nat) (s : State) : Out :=
  let k := layerKey ctx slot layer
  if s.supervisor.freeze || (layerAt s k).phase ≠ .loading then .next s else .next (layerFails s k)

/-! ## Words that name a layer (09 R255-R257) -/

/-- Whether a context's slot answers for a layer. -/
def layerBound (s : State) (ctx : Nat) (p : Nat × Nat) : Bool :=
  match modelAt s ctx p.1 with
  | some m => !m.closing && decide (p.2 < m.count)
  | none => false

/-- A word on a layer: the ILLEGAL of its bits, a check of the word's own, then the binding. -/
def withLayer (s : State) (x : Ctx) (q : SIdx) (own : (Nat → State) → State) (k : Nat → Nat → State) : State :=
  match layerName (x.uni q) with
  | none => trapAll s x .illegal 0 0
  | some p =>
    own (fun i => if layerBound s x.t.ctx p then k i (layerKey x.t.ctx p.1 p.2) else trapAll s x .accessViolation 6 0)

/-- lacq in flag form. -/
def execLacq (v : VIdx) (q : SIdx) (noerr : Bool) (s : State) : Out :=
  word (.lacq v q noerr) s (fun x =>
    withLayer s x q (fun k => k 0) (fun _ key =>
      requestLayer (engineAdd (setUnit s x.u (advance (flagInc x.g (x.flag false)))) x.u.team) key
        (.flag x.u x.cl.mask v.toNat (x.flag false) noerr x.pc x.cl.head)))

/-- lacq in future form. -/
def execLacqFut (v : VIdx) (q : SIdx) (s : State) : Out :=
  word (.lacqFut v q) s (fun x =>
    withLayer s x q (withSlot s x) (fun slot key =>
      let g := takeSlot (advance (writeHandle x x.g v.toNat slot)) slot .layer key
      requestLayer (engineAdd (setUnit s x.u g) x.u.team) key (.future x.u slot)))

/-- lrel: the team's count falls by one, and nothing happens at zero. -/
def execLrel (q : SIdx) (s : State) : Out :=
  word (.lrel q) s (fun x =>
    withLayer s x q (fun k => k 0) (fun _ key =>
      let s1 := setUnit s x.u (advance x.g)
      let n := tget 0 x.t.layerCounts key
      if n = 0 then s1
      else
        layerReleased (modTeam s1 x.u.team (fun t =>
          { t with layerCounts := if n = 1 then terase t.layerCounts key else tset t.layerCounts key (n - 1) })) key))

/-- The answer of ltest. -/
def ltestWord (s : State) (t : Team) (key : Nat) : W32 :=
  let l := layerAt s key
  let n := tget 0 t.layerCounts key
  let bit (b : Bool) (i : Nat) : Nat := if b then 2 ^ i else 0
  BitVec.ofNat 32 (bit (!pinnable s l || l.phase == .resident) 0 + bit (n != 0) 1 + bit (pinnable s l && l.phase == .loading) 2 +
    bit (pinnable s l && l.phase == .failed) 3 + Nat.min n 255 * 256)

/-- ltest. -/
def execLtest (v : VIdx) (q : SIdx) (s : State) : Out :=
  word (.ltest v q) s (fun x =>
    withLayer s x q (fun k => k 0) (fun _ key =>
      let w := ltestWord s x.t key
      setUnit s x.u (advance (x.lanes.foldl (fun g l => modThr (writeV x.cond g l v.toNat w) l (fun t => { t with lt := w })) x.g))))

/-! ## Binding (14 R311, R312) -/

/-- A layer table entry, or nothing where it breaks its ranges; the range lies in global memory. -/
def parseLayer (bs : List Byte) : Option Layer :=
  let x := bytesToNat bs
  let bytes := bitsAt x 95 64
  let addr := bitsAt x 47 0
  let tgt := bitsAt x 105 104
  let fmt := bitsAt x 100 96
  let pk := bitsAt x 101 101 == 1
  if bitsAt x 255 106 = 0 ∧ bitsAt x 103 102 = 0 ∧ bitsAt x 63 48 = 0 ∧ tgt < 2 ∧ bytes ≠ 0 ∧ bytes % 64 = 0 ∧ addr % 64 = 0 ∧
      addr + bytes ≤ Config.globalLimit ∧ (!pk || (fmt == 0x0C && bytes % 192 == 0)) then
    some { addr := addr, bytes := bytes, fmt := fmt, pk := pk, pinnable := tgt == 0 }
  else none

/-- The layers of a table read one by one; none where an entry breaks its ranges. -/
def parseLayers (bs : List Byte) : Nat → Option (List Layer)
  | 0 => some []
  | n + 1 =>
    match parseLayer (bs.take 32), parseLayers (bs.drop 32) n with
    | some l, some ls => some (l :: ls)
    | _, _ => none

/-- A list as a map by position. -/
def byIndex {α : Type} (l : List α) : TMap α := (List.range l.length).zip l

/-- MODEL_BIND: the descriptor and its table are read and checked, and the slot is bound. -/
def execModelBind (h : CmdHeader) (addr : W64) (slot : BitVec 4) (s : State) : Out :=
  ownCommand 0x03 h s (fun c q =>
    if addr.toNat % 64 ≠ 0 then .status s 16
    else
      cmdRead s q addr 64 (fun bs s1 =>
        let x := bytesToNat bs
        let n := bitsAt x 74 64
        let ltab := bitsAt x 63 0
        if !zeros x [(511, 96), (91, 83), (79, 75)] || n = 0 || decide (1024 < n) || ltab % 64 ≠ 0 || decide (Config.globalLimit ≤ ltab) ||
            (modelAt s1 q.ctx slot.toNat).isSome then .status s1 6
        else
          match feRead s1 q.ctx ltab (32 * n) with
          | .fault va lv h => .fault .read va lv h
          | .bad _ => .status s1 6
          | .ok bs s2 =>
            match parseLayers bs n with
            | none => .status s2 6
            | some ls =>
              let m : ModelSlot := { eprio := bitsAt x 82 80, pref := bitsAt x 95 92, layers := byIndex ls, count := n }
              .status (modCtx s2 q.ctx (fun cx => { cx with models := tset cx.models slot.toNat m })) 0))

/-- PREFETCH: a request for each of a range of layers. -/
def execPrefetch (h : CmdHeader) (slot : BitVec 4) (first : BitVec 10) (count : BitVec 11) (s : State) : Out :=
  ownCommand 0x04 h s (fun c q =>
    match modelAt s q.ctx slot.toNat with
    | none => .status s 6
    | some m =>
      if m.closing || decide (m.count < first.toNat + count.toNat) then .status s 6
      else
        .status ((List.range count.toNat).foldl (fun s i => requestLayer s (layerKey q.ctx slot.toNat (first.toNat + i)) .prefetch) s) 0)

/-! ## Unbinding (14 R319) -/

/-- Step 2: every request of a slot completes with LAYER, and loads in progress stop. -/
def closeRequests (s : State) (ctx slot : Nat) : State :=
  match modelAt s ctx slot with
  | none => s
  | some m =>
    let mine (e : Nat × LayerWaiter) : Bool := keyCtx e.1 == ctx && keySlot e.1 == slot
    let s1 := (tkeys m.layers).foldl (fun s i =>
      let k := layerKey ctx slot i
      let l := layerAt s k
      if l.phase = .loading then layerFails s k else if l.waiters ≠ [] ∨ l.waiting then answerAll s k false else s) s
    (s.layerHeld.filter mine).foldl (fun s e => layerAnswer s e.1 false e.2) { s1 with layerHeld := s1.layerHeld.filter (fun e => !mine e) }

/-- Step 3: rows that have not departed on queues bound to the slot complete with ERR 5. -/
def closeRows (s : State) (ctx slot : Nat) : State :=
  s.wagons.foldl (fun s w =>
    match w.2.binding with
    | some b =>
      if b.mctx = ctx ∧ b.mslot = slot then
        dropRows s w.1 (fun _ => true) 5
      else s
    | none => s) s

/-- Step 4: layers without a count are unpinned. -/
def unpinFree (s : State) (ctx slot : Nat) : State :=
  let f (i : Nat) (l : Layer) : Layer :=
    if l.pinnable && l.phase == .resident && layerTotal s (layerKey ctx slot i) == 0 then { l with phase := .absent, sets := [] } else l
  modModel s ctx slot (fun m => { m with layers := tmap f m.layers })

/-- Whether nothing of a closing slot is left. -/
def slotClear (s : State) (ctx slot : Nat) : Bool :=
  match modelAt s ctx slot with
  | none => true
  | some m => !slotTasks s ctx slot && m.layers.all (fun l => layerTotal s (layerKey ctx slot l.1) == 0)

/-- Steps 1 to 4 of the closing of a slot. -/
def closeSlot (s : State) (ctx slot : Nat) : State :=
  unpinFree (closeRows (closeRequests (modModel s ctx slot (fun m => { m with closing := true })) ctx slot) ctx slot) ctx slot

/-- MODEL_UNBIND: the slot closes, and the command completes when no count and no task of it is left. -/
def execModelUnbind (h : CmdHeader) (slot : BitVec 4) (s : State) : Out :=
  ownCommand 0x05 h s (fun c q =>
    let n := slot.toNat
    match modelAt s q.ctx n with
    | none => .status s 6
    | some m =>
      if m.closing then .status s 6
      else
        let s1 := closeSlot s q.ctx n
        if slotClear s1 q.ctx n then .status (freeModel s1 q.ctx n) 0
        else .accepted (modModel s1 q.ctx n (fun m => { m with unbindBy := some (c.queue, c.index, h) })))

/-! ## The pinned-way count (14 R320) -/

/-- Requests that were waiting for placement are answered where their layers need no load any more, and the held ones are made in the
order of 14 R314: the higher priority first, then as they arrived. -/
def resumeRequests (s : State) : State :=
  let s1 := (sortBy (loadBefore s) (((allLayers s).filter (fun e => e.2.waiting)).map (·.1))).foldl (fun s k =>
    if pinnable s (layerAt s k) then s else answerAll s k true) s
  let before (a b : (Nat × LayerWaiter) × Nat) : Bool :=
    let prio (e : (Nat × LayerWaiter) × Nat) : Nat := (ctxAt s (keyCtx e.1.1)).record.prio
    decide (prio b < prio a) || (prio a == prio b && decide (a.2 ≤ b.2))
  (sortBy before s.layerHeld.zipIdx).foldl (fun s e => requestLayer s e.1.1 e.1.2) { s1 with layerHeld := [] }

/-- Steps 3 to 5, once no layer has a count. -/
def changeWays (s : State) (ways : Nat) : State :=
  let unpinned (l : Layer) : Layer := if l.pinnable then { l with phase := .absent, sets := [] } else l
  let s1 := { s with
    contexts := tmap (fun _ c => { c with models := tmap (fun _ m => { m with layers := tmap (fun _ l => unpinned l) m.layers }) c.models }) s.contexts
    pinnedWays := ways
    waysHeld := none }
  resumeRequests s1

/-- PINNED_WAY_CHANGE: requests are held until every count is zero and no load is in progress; then the count changes. -/
def execPinnedWayChange (ways : Nat) (s : State) : Out :=
  if 12 < ways then .next s
  else
    let s1 := { s with waysHeld := some ways }
    if (allLayers s1).all (fun e => layerTotal s1 e.1 == 0 && e.2.phase != .loading && (e.2.waiters.isEmpty || e.2.waiting)) then .next (changeWays s1 ways) else .next s1

end Sys2Proof.Machine
end

