-- ==== Sys2Proof/Machine/Matrix.lean ====
section
/-! DEFINITION. The matrix unit: majors 0x2E to 0x31 (09 R227-R238), the hod's pinning (09 R231), the start and end of an operation
(09 R229, R230) and the parts of gmma (09 R233, R234). -/

set_option linter.unusedVariables false

namespace Sys2Proof.Machine

/-! ## Shapes and prices (09 R230, R235, R259) -/

/-- Cycles of a product: max(8, M N Ke / rate). -/
def mulCycles (m : MxFields) : Nat :=
  let rate := 1024 / fmtBytes m.fmtA
  Nat.max 8 (tileDim m.shape.m * tileDim m.shape.n * keOf m / rate)

/-- F of a product. -/
def mulFares (m : MxFields) : Nat :=
  let rate := 1024 / fmtBytes m.fmtA
  ceilDiv (64 * (tileDim m.shape.m * tileDim m.shape.n * keOf m / rate)) (mulCycles m)

/-- Cycles an operation of the matrix queue runs. -/
def opCycles : MatKind → Nat
  | .mul mx _ _ _ _ _ _ => mulCycles mx
  | .acz => 8
  | .acld _ => 256
  | .acst _ => 256
  | .acrd _ _ => 8
  | .acepi e _ => Nat.max 8 (ceilDiv (e.m * e.n) 16)

/-- Fares an operation holds. -/
def opFares : MatKind → Nat
  | .mul mx _ _ _ _ _ _ => mulFares mx
  | .acz => 0
  | .acld _ => 4
  | .acst _ => 4
  | .acrd _ _ => 0
  | .acepi _ _ => 8

/-- Whether an operation is a product, whose fares its unit holds. -/
def isMul : MatKind → Bool
  | .mul _ _ _ _ _ _ _ => true
  | _ => false

/-! ## Issue (09 R228) -/

/-- A stencil's layer as a key, where it is bound to one. -/
def stencilLayer (ctx : Nat) (st : Stencil) : Option Nat := if st.lb then some (layerKey ctx st.model st.layer) else none

/-- The layers an operation acquires. -/
def opLayers (ctx : Nat) : MatKind → List Nat
  | .mul _ _ _ a b _ _ => (stencilLayer ctx a).toList ++ (stencilLayer ctx b).toList
  | _ => []

/-- Whether an operation of a group may enter its core's queue: waiting parts come first (09 R230). -/
def queueRoom (s : State) (core : Nat) : Bool :=
  decide ((coreAt s core).matrix.length < Config.matrixEntries) && (coreAt s core).parts.isEmpty

/-- The implicit acquisitions of an operation are requested (09 R231). -/
def requestLayers (s : State) (core op : Nat) (ks : List Nat) : State := ks.foldl (fun s k => requestLayer s k (.op core op)) s

/-- An operation that takes no operand from memory is pinned at issue. -/
def pinAtIssue : MatKind → PinState
  | .acz => .pinned
  | .acrd _ _ => .pinned
  | _ => .open

/-- The stores that an operation will make stand in its group's drain from its issue on: later accesses keep their order with them
(09 R236, 05 R99, R103). -/
def expectStores (id : Nat) (x : Ctx) (kind : MatKind) (flag : Option Nat) (g : Grp) : Grp :=
  if storesMem kind then
    { g with stores := g.stores ++ [{ id := id, pc := x.pc, cstart := x.cl.head, flag := flag, lanes := [], op := some id }] }
  else g

/-- An operation enters a queue: of those that enter in one cycle a lower group number stands first (09 R230). -/
def enterQueue (o : MatOp) : List MatOp → List MatOp
  | [] => [o]
  | p :: r =>
    match p.entered, o.entered with
    | some (c, n), some (d, m) => if c = d ∧ m < n then o :: p :: r else p :: enterQueue o r
    | _, _ => p :: enterQueue o r

/-- An operation of one core enters its queue after the core's release step, its flag pending. -/
def enqueueOp (s : State) (x : Ctx) (kind : MatKind) (acc : Nat) (flag : Option Nat) : State :=
  let core := x.t.core
  if !quiet s x.u || !queueRoom s core then s
  else
    let s1 := releaseStep s core
    let (id, s2) := fresh s1
    let op : MatOp := { id := id, unit := x.u, team := x.u.team, lane := x.lead, runMask := x.cl.mask, pc := x.pc, cstart := x.cl.head,
                        acc := acc, kind := kind, flag := flag, pin := pinAtIssue kind,
                        entered := some (clusterCyc s (clusterOf core), coreNumber s x.u) }
    let s3 := modCore s2 core (fun c => { c with matrix := enterQueue op c.matrix })
    let s4 := engineAdd (setUnit s3 x.u (advance (expectStores id x kind flag (flagInc (unitAt s3 x.u) flag)))) x.u.team
    requestLayers s4 core id (opLayers x.t.ctx kind)

/-- The words of two scale registers of all 32 lanes (03 R69). -/
def readScales (x : Ctx) (isA : Bool) (dim : Nat) : Option Scales :=
  (scaleField x.cl.hints isA).map (fun f =>
    { byteSel := f.2, lo := (List.range 32).map (fun l => vAt (x.thr l) f.1),
      hi := if 32 < dim then (List.range 32).map (fun l => vAt (x.thr l) (f.1 + 1)) else [] })

/-- What a matrix word asks of an operand's stencil. -/
def operandUse (fmt : BitVec 5) (ke c0 : Nat) : StencilUse := { fmt := some fmt.toNat, elems := ke, coord0 := c0 }

/-- The field checks of a parameter block: the gmma fields are zero in mma and mmas; GMASK names members of the gang. -/
def paramSub (gang : Option Nat) (b : ParamBlock) : Option Nat :=
  if !b.reservedZero then some 1
  else
    match gang with
    | none => if b.gmask = 0 ∧ b.gbar = 0 ∧ b.zs = false then none else some 1
    | some n => if b.gmask = 0 ∨ 2 ^ n ≤ b.gmask then some 1 else none

/-- Issue of a matrix word: its records read and checked, then what enqueues it (09 R226-R228, R233). -/
def matIssue (i : Instr) (m : MxFields) (gang : Bool) (zero : ParamBlock → Bool) (s : State) (enqueue : Ctx → State → MatKind → ParamBlock → State) :
    Out :=
  word i s (fun x =>
    let off : W64 := (x.uni m.s).setWidth 64
    let size := if gang then some (gangMembers s x.t).length else none
    readRec s x .spad off (fun pb s1 =>
      let blk := parseParam off.toNat pb
      if gang && decide (x.t.kernel.barriers ≤ blk.gbar) then trapAll s1 x .operandLimit 3 0
      else
        readRec s1 x .gen blk.aSten (fun ab s2 =>
          readRec s2 x .gen blk.bSten (fun bb s3 =>
            let a := parseStencil blk.aSten.toNat ab
            let b := parseStencil blk.bSten.toNat bb
            checkRecs s3 x
              [(paramSub size blk, off.toNat), (stencilSub s3 x.t.ctx a (operandUse m.fmtA (keOf m) (blk.ac.getD 0 0)), a.addr),
               (stencilSub s3 x.t.ctx b (operandUse m.fmtB (keOf m) (blk.bc.getD 0 0)), b.addr)]
              [(a.base, .aligned 64), (b.base, .aligned 64)]
              (enqueue x s3 (.mul m (zero blk) blk a b (readScales x true (tileDim m.shape.m)) (readScales x false (tileDim m.shape.n))) blk)))))

/-- mma: A times B added into an accumulator. -/
def execMma (m : MxFields) (s : State) : Out :=
  matIssue (.mma m) m false (fun _ => false) s (fun x s kind _ => enqueueOp s x kind m.acc.toNat (x.flag m.flagB))

/-- mmas: A times B from zero. -/
def execMmas (m : MxFields) (s : State) : Out :=
  matIssue (.mmas m) m false (fun _ => true) s (fun x s kind _ => enqueueOp s x kind m.acc.toNat (x.flag m.flagB))

/-! ## gmma (09 R233, R234) -/

/-- The members a mask names, each with its index. -/
def maskedMembers (s : State) (t : Team) (mask : Nat) : List (Nat × Nat) :=
  let ms := gangMembers s t
  ((List.range ms.length).zip ms).filter (fun e => mask.testBit e.1)

/-- Whether some scratchpad line of a team belongs to an engine operation. -/
def spadOwned (s : State) (t : Nat) : Bool :=
  s.owned.any (fun e => match e.2 with
    | .spad u _ => u == t
    | _ => false)

/-- The core of a gang's member, whether it has retired or not: the members stand on consecutive cores, or core pairs (15 R337). -/
def memberCore (t : Team) (m : Nat) : Nat := t.core + (if t.shadowCore.isSome then 2 else 1) * m - (if t.shadowCore.isSome then 2 else 1) * t.member

/-- The parts of a gmma sent to its members' cores, the arrivals registered first. -/
def sendParts (s : State) (x : Ctx) (kind : MatKind) (blk : ParamBlock) (acc : Nat) (flag : Option Nat) : State :=
  let members := maskedMembers s x.t blk.gmask
  if !quiet s x.u || members.any (fun m => spadOwned s m.2) then s
  else
    let s1 := releaseStep s x.t.core
    let (gid, s2) := fresh s1
    let gens := members.map (fun m => (m.2, (barAt (teamAt s2 m.2) blk.gbar).gen))
    let s3 := members.foldl (fun s m =>
      if thas s.teams m.2 then
        let b := barAt (teamAt s m.2) blk.gbar
        setBar s m.2 blk.gbar { b with engines := b.engines + 1 }
      else s) s2
    let snap : TMap Mem := members.foldl (fun t m => tset t m.2 (teamAt s3 m.2).scratch) []
    let g : GangOp := { id := gid, unit := x.u, left := members.length, flag := flag, members := gens, gbar := blk.gbar }
    let s4 := { s3 with gangOps := tset s3.gangOps gid g }
    let s5 := engineAdd (setUnit s4 x.u (advance (flagInc (unitAt s4 x.u) flag))) x.u.team
    ((List.range members.length).zip members).foldl (fun s e =>
      let core := if thas s.teams e.2.2 then (teamAt s e.2.2).core else memberCore x.t e.2.1
      let (id, s1) := fresh s
      let op : MatOp := { id := id, unit := x.u, team := e.2.2, lane := x.lead, runMask := x.cl.mask, pc := x.pc, cstart := x.cl.head,
                          acc := acc, kind := kind, gangOp := some gid, rank := e.1, snap := snap, index := x.t.index + e.2.1 - x.t.member }
      requestLayers (modCore s1 core (fun c => { c with flying := c.flying ++ [op] })) core id (opLayers x.t.ctx kind)) s5

/-- gmma: one product for members of the gang; ZS starts from zero. -/
def execGmma (m : MxFields) (s : State) : Out :=
  matIssue (.gmma m) m true (fun b => b.zs) s (fun x s kind blk => sendParts s x kind blk m.acc.toNat (x.flag m.flagB))

/-- The record of an operation, deferred to its issuing thread; a part's record names its member in TEAM alone (09 R223, R234,
18 R389). -/
def opRec (s : State) (o : MatOp) (c : Cause) (sub : Nat) (addr : W64) : TrapRec :=
  let r := mkRec s o.unit o.pc o.cstart c sub (laneBit o.lane) addr
  match o.gangOp with
  | none => r
  | some _ => { r with team := o.index }

/-- Waiting parts enter a core's queue in the order they reached the core. -/
def admitParts (s : State) (core : Nat) : State :=
  let c := coreAt s core
  let n := Config.matrixEntries - c.matrix.length
  modCore s core (fun c => { c with matrix := c.matrix ++ c.parts.take n, parts := c.parts.drop n })

/-- GMMA_PART_ARRIVAL: a part reaches its member's core, which may be gone (16 R361); parts enter the queue as it has room. -/
def execGmmaPartArrival (core : Nat) (s : State) : Out :=
  if s.supervisor.freeze then .next s
  else
    match (coreAt s core).flying with
    | [] => .next (if (coreAt s core).parts.isEmpty then s else admitParts s core)
    | o :: r =>
      if unreleased s o.unit o.id then .next s
      else if spadGone s o.team then .next (matOpEnds s core o (some (opRec s o .remoteGone 0 0)))
      else .next (admitParts (modCore s core (fun c => { c with flying := r, parts := c.parts ++ [o] })) core)

/-! ## Accumulator words (09 R235-R237) -/

/-- acz: every element to zero. -/
def execAcz (acc : BitVec 3) (s : State) : Out :=
  word (.acz acc) s (fun x => enqueueOp s x .acz acc.toNat (x.flag false))

/-- The address of acld and acst: its alignment and window are precise; the rest of the range's checks come with its lines. -/
def accAddr (s : State) (x : Ctx) (v : VIdx) (q : SIdx) (k : W64 → State) : State :=
  let a := x.uni64 q.toNat + sext64 (x.main x.lead v.toNat)
  match resolve s x.u x.lead .gen a 16384 with
  | .error .spadBounds => trapAll s x .spadBounds 0 a
  | .error (.violation n) => if a.toNat % 64 ≠ 0 then trapAll s x .misaligned 0 a else trapAll s x .accessViolation n a
  | .error .gone => if a.toNat % 64 ≠ 0 then trapAll s x .misaligned 0 a else trapAll s x .remoteGone 0 a
  | .ok _ => if a.toNat % 64 ≠ 0 then trapAll s x .misaligned 0 a else k a

/-- acld: 16 KiB from memory into an accumulator. -/
def execAcld (v : VIdx) (q : SIdx) (acc : BitVec 3) (s : State) : Out :=
  word (.acld v q acc) s (fun x => accAddr s x v q (fun a => enqueueOp s x (.acld a) acc.toNat (x.flag false)))

/-- acst: an accumulator to memory. -/
def execAcst (v : VIdx) (q : SIdx) (acc : BitVec 3) (s : State) : Out :=
  word (.acst v q acc) s (fun x => accAddr s x v q (fun a => enqueueOp s x (.acst a) acc.toNat (x.flag false)))

/-- acrd: one row of an accumulator into vN and vN+1 of every lane. -/
def execAcrd (v : VIdx) (q : SIdx) (acc : BitVec 3) (s : State) : Out :=
  word (.acrd v q acc) s (fun x =>
    let row := (x.uni q).toNat
    if 64 ≤ row then trapAll s x .illegal 0 0 else enqueueOp s x (.acrd v.toNat row) acc.toNat (x.flag false))

/-- The field checks of an epilogue block. -/
def epiSub (e : EpiBlock) : Option Nat := if !e.reservedZero || decide (2 ≤ e.act) then some 1 else none

/-- acepi: an M by N corner converted and stored through a stencil. -/
def execAcepi (q : SIdx) (acc : BitVec 3) (s : State) : Out :=
  word (.acepi q acc) s (fun x =>
    let off : W64 := (x.uni q).setWidth 64
    readRec s x .spad off (fun eb s1 =>
      let e := parseEpi off.toNat eb
      readRec s1 x .gen e.dSten (fun db s2 =>
        let d := parseStencil e.dSten.toNat db
        checkRecs s2 x [(epiSub e, off.toNat), (stencilSub s2 x.t.ctx d { plain := true }, d.addr)]
          [(e.bias, .aligned 4), (d.base, .aligned 64)]
          (enqueueOp s2 x (.acepi e d) acc.toNat (x.flag false)))))

/-! ## Pinning (09 R231) -/

/-- A byte range cut at line boundaries: the address and length of each piece. -/
def lineChunks (a n : Nat) : Nat → List (Nat × Nat)
  | 0 => []
  | k + 1 =>
    let r := 64 - a % 64
    if n = 0 then [] else if n ≤ r then [(a, n)] else (a, r) :: lineChunks (a + r) (n - r) k

/-- Bytes of a place as the hod reads them: home values, or a scratchpad; a gmma reads A's slices as they stood at issue (05 R118). -/
def hodBytes (s : State) (snap : TMap Mem) (loc : Loc) (n : Nat) : List Byte :=
  match loc with
  | .spad t o =>
    match tget? snap t with
    | some m => memReadN m o n
    | none => locBytes s loc n
  | _ => locBytes s loc n

/-- Why a run of reads or pins of an engine stops. -/
inductive PinStop where
  | wait
  | fault (va level : Nat) (h : Bool)
  | bad (c : Cause) (sub : Nat) (addr : W64)
deriving DecidableEq, Repr

/-- What a run of reads meets. -/
inductive PinRes where
  | ok (s : State) (data : List Byte)
  | stop (p : PinStop)

/-- The pieces of a range pinned, and read. -/
def pinChunks (s : State) (ag : Option Nat) (u : UnitId) (lane ctx op : Nat) (kind : AccKind) (snap : TMap Mem) : List (Nat × Nat) → PinRes
  | [] => .ok s []
  | (a, n) :: r =>
    match engPlace s ag u lane ctx op kind (BitVec.ofNat 64 a) n with
    | .wait => .stop .wait
    | .fault va lv h => .stop (.fault va lv h)
    | .bad c sub ad => .stop (.bad c sub ad)
    | .ok s1 loc =>
      match pinChunks s1 ag u lane ctx op kind snap r with
      | .ok s2 d => .ok s2 (hodBytes s snap loc n ++ d)
      | x => x

/-- One element's bytes pinned. -/
def pinElem (s : State) (ag : Option Nat) (u : UnitId) (lane ctx op : Nat) (kind : AccKind) (snap : TMap Mem) (e : ElemAt) : PinRes :=
  pinChunks s ag u lane ctx op kind snap (lineChunks e.addr.toNat e.bytes (e.bytes + 1))

/-- The unit in whose windows an operation's addresses resolve: a part's scratchpad is its member's. -/
def opUnit (o : MatOp) : UnitId := ⟨o.team, o.unit.idx⟩

/-- The unit in whose windows one address resolves: the private window is the issuing thread's (04 R83). -/
def windowUnit (o : MatOp) (a : W64) : UnitId := if 0xFF8000000000 ≤ a.toNat then o.unit else opUnit o

/-- The stencil engine that translates for an operation (09 R231, 17 R365). -/
def opAgent (s : State) (o : MatOp) : Option Nat := some (stencilAgent (clusterOf (teamAt s o.team).core))

/-- The code pinned for an element before, if it was. -/
def pinnedCode (o : MatOp) (isA : Bool) (i : Nat) : Option Nat :=
  match o.pins with
  | [] => none
  | ps => (ps.find? (fun p => p.1 == isA && p.2.1 == i)).map (·.2.2)

/-- Elements of an operation pinned from number i on, each read as its code; ZERO is code 0 (09 R225). The codes read before a stop
stand. -/
def pinElems (ag : Option Nat) (o : MatOp) (ctx : Nat) (isA : Bool) : List (Option ElemAt) → Nat → State → List Nat × State × Option PinStop
  | [], _, s => ([], s, none)
  | e :: r, i, s =>
    let next (c : Nat) (s : State) : List Nat × State × Option PinStop :=
      match pinElems ag o ctx isA r (i + 1) s with
      | (cs, s1, p) => (c :: cs, s1, p)
    match e with
    | none => next 0 s
    | some e =>
      match pinnedCode o isA i with
      | some c => next c s
      | none =>
        match pinElem s ag (windowUnit o e.addr) o.lane ctx o.id .read (if isA then o.snap else []) e with
        | .ok s1 bs => next (elemCode e bs) s1
        | .stop p => ([], s, some p)

/-- Rows and k of a tile, row by row. -/
def tileIndex (rows ke : Nat) : List (Nat × Nat) := (List.range rows).flatMap (fun r => (List.range ke).map (fun k => (r, k)))

/-- The elements of a tile of a stencil. -/
def tileElems (st : Stencil) (c : List Nat) (rows ke : Nat) : List (Option ElemAt) :=
  (tileIndex rows ke).map (fun p => stencilElem st (coordAdd (coordAdd c 0 p.2) 1 p.1))

/-- The number of the first element of an operand that is not ZERO. -/
def firstElem (es : List (Option ElemAt)) : Nat := (es.findIdx? Option.isSome).getD 0

/-- A record with the tile coordinates of an element: an A line names its row, a B line its column. -/
def tileRec (o : MatOp) (r : TrapRec) (isA : Bool) (st : Stencil) (rows ke i : Nat) : TrapRec :=
  let row := if o.gangOp.isSome && isA then o.rank * rows + i / ke else i / ke
  { r with sten := st.addr, tk := BitVec.ofNat 32 (i % ke), trow := if isA then BitVec.ofNat 16 row else 0xFFFF,
           tcol := if isA then 0xFFFF else BitVec.ofNat 16 (i / ke) }

/-- An operation's pinning failed: the record waits for its turn in the queue. -/
def pinFails (s : State) (core : Nat) (o : MatOp) (r : TrapRec) : State := modOp s core o.id (fun o => { o with pin := .failed r })

/-- A page fault of an operation's pinning: recorded on its behalf, and the pinning waits (17 R367, R376). -/
def pinFault (s : State) (core : Nat) (o : MatOp) (kind : AccKind) (va lv : Nat) (h : Bool) : State :=
  if faultRoom s then
    modOp (engFault s (teamAt s o.team).ctx core agentHod kind va lv h) core o.id (fun o => { o with pages := o.pages ++ [va] })
  else s

/-- What a stop of an operation's pinning comes to; a page whose faults a REPLAY denied is a violation. -/
def pinStops (deny : Nat → Bool) (s : State) (core : Nat) (o : MatOp) (kind : AccKind) (rec : TrapRec → TrapRec) : PinStop → State
  | .wait => s
  | .fault va lv h =>
    if deny va then pinFails s core o (rec (opRec s o .accessViolation 5 (BitVec.ofNat 64 (va / 64 * 64)))) else pinFault s core o kind va lv h
  | .bad c sub ad => pinFails s core o (rec (opRec s o c sub ad))

/-- The pins an operation keeps when the pinning of an operand stops after some of its elements (17 R376). -/
def keepPins (isA : Bool) (cs : List Nat) (old : List (Bool × Nat × Nat)) : List (Bool × Nat × Nat) :=
  ((List.range cs.length).zip cs).map (fun c => (isA, c.1, c.2)) ++ old.filter (fun p => p.1 != isA || decide (cs.length ≤ p.2.1))

/-- One operand of a product pinned, once its layer is resident; a layer that could not be made so fails it at its first line, and what
is pinned stays so where it has to wait (09 R231). -/
def pinOperand (deny : Nat → Bool) (s : State) (core : Nat) (o : MatOp) (isA : Bool) (st : Stencil) (c : List Nat) (rows rowsA ke : Nat)
    (k : State → List Nat → State) : State :=
  let ctx := (teamAt s o.team).ctx
  let es := tileElems st c rows ke
  match stencilLayer ctx st with
  | some l =>
    if hasNat o.layerErrs l then
      pinFails s core o (tileRec o (opRec s o .layerFault 0 (BitVec.ofNat 64 (layerAt s l).addr)) isA st rowsA ke (firstElem es))
    else if !hasNat o.layer l then modOp s core o.id (fun q => { q with pins := o.pins })
    else go es ctx
  | none => go es ctx
where
  go (es : List (Option ElemAt)) (ctx : Nat) : State :=
    match pinElems (opAgent s o) o ctx isA es 0 s with
    | (cs, s1, none) => k s1 cs
    | (cs, s1, some p) =>
      pinStops deny (modOp s1 core o.id (fun q => { q with pins := keepPins isA cs o.pins })) core o .read
        (fun r => tileRec o r isA st rowsA ke cs.length) p

/-- The operands of a product pinned: A, then B. -/
def pinMul (deny : Nat → Bool) (s : State) (core : Nat) (o : MatOp) (mx : MxFields) (blk : ParamBlock) (a b : Stencil) : State :=
  let ma := tileDim mx.shape.m
  let ke := keOf mx
  pinOperand deny s core o true a blk.ac ma ma ke (fun s1 as =>
    pinOperand deny s1 core { o with pins := keepPins true as o.pins } false b blk.bc (tileDim mx.shape.n) ma ke (fun s2 bs =>
      modOp s2 core o.id (fun o => { o with pin := .pinned, aData := as, bData := bs, pins := [] })))

/-- The destination elements of an epilogue that are written: row, column and place. -/
def epiElems (e : EpiBlock) (d : Stencil) : List (Nat × Nat × ElemAt) :=
  (tileIndex e.m e.n).filterMap (fun p => (stencilElem d (coordAdd (coordAdd e.dc 0 p.2) 1 p.1)).map (fun x => (p.1, p.2, x)))

/-- Whether an uncorrectable line that an operation stores to fails it as one that it reads does (09 R236). -/
def needsSound : MatKind → Bool
  | .acst _ => true
  | _ => false

/-- The line of a place that an operation may not store to, where it is uncorrectable (09 R236). -/
def unsoundLine (s : State) (o : MatOp) (l : Loc) : Bool :=
  needsSound o.kind &&
  (match l with
   | .phys p => hasNat s.badLines (lineOf p)
   | _ => false)

/-- Ranges pinned, each with its number; those pinned before are kept. The places found before a stop stand. -/
def pinPlaces (ag : Option Nat) (o : MatOp) (ctx : Nat) (kind : AccKind) : List (Nat × Nat × Nat) → State → TMap Loc × State × Option PinStop
  | [], s => ([], s, none)
  | (i, a, n) :: r, s =>
    let next (l : Loc) (s : State) : TMap Loc × State × Option PinStop :=
      match pinPlaces ag o ctx kind r s with
      | (ls, s1, p) => ((i, l) :: ls, s1, p)
    match (if o.dest = [] then none else tget? o.dest i) with
    | some l => next l s
    | none =>
      match engPlace s ag o.unit o.lane ctx o.id kind (BitVec.ofNat 64 a) n with
      | .ok s1 l => if unsoundLine s1 o l then ([], s1, some (.bad .eccUncorrectable 0 (BitVec.ofNat 64 (a / 64 * 64)))) else next l s1
      | .wait => ([], s, some .wait)
      | .fault va lv h => ([], s, some (.fault va lv h))
      | .bad c sub ad => ([], s, some (.bad c sub ad))

/-- Ranges with their numbers from one on. -/
def numberedFrom (i : Nat) (l : List (Nat × Nat)) : List (Nat × Nat × Nat) := ((List.range l.length).map (i + ·)).zip l

/-- The ranges an operation stores to. -/
def storeRanges : MatKind → List (Nat × Nat)
  | .acst a => lineChunks a.toNat 16384 257
  | .acepi e d => (epiElems e d).map (fun p => (p.2.2.addr.toNat, p.2.2.bytes))
  | _ => []

/-- The ranges an epilogue's bias is read from. -/
def biasRanges : MatKind → List (Nat × Nat)
  | .acepi e _ => if e.bias = 0 then [] else lineChunks e.bias.toNat (4 * e.n) (4 * e.n + 1)
  | _ => []

/-- Places kept with an operation. -/
def keepPlaces (s : State) (core : Nat) (o : MatOp) (ls : TMap Loc) : State :=
  modOp s core o.id (fun q => { q with dest := ls.foldl (fun d l => tset d l.1 l.2) q.dest })

/-- Ranges of an operation pinned under their numbers, or its pinning failed, held or waiting; what is pinned stays so. -/
def pinRanges (deny : Nat → Bool) (s : State) (core : Nat) (o : MatOp) (kind : AccKind) (rs : List (Nat × Nat × Nat)) (k : State → TMap Loc → State) :
    State :=
  match pinPlaces (opAgent s o) o (teamAt s o.team).ctx kind rs s with
  | (ls, s1, none) => k s1 ls
  | (ls, s1, some p) =>
    pinStops deny (keepPlaces s1 core o ls) core o kind id p

/-- The elements of an acld: the lines of its range. -/
def loadElems (a : W64) : List (Option ElemAt) := (lineChunks a.toNat 16384 257).map (fun c => some ⟨BitVec.ofNat 64 c.1, c.2, none⟩)

/-- The lines of an operation pinned, or its pinning failed or held. -/
def pinOp (deny : Nat → Bool) (s : State) (core : Nat) (o : MatOp) : State :=
  match o.kind with
  | .mul mx _ blk a b _ _ => pinMul deny s core o mx blk a b
  | .acld a =>
    (match pinElems (opAgent s o) o (teamAt s o.team).ctx true (loadElems a) 0 s with
     | (cs, s1, none) => modOp s1 core o.id (fun o => { o with pin := .pinned, bData := cs, pins := [] })
     | (cs, s1, some p) => pinStops deny (modOp s1 core o.id (fun o => { o with pins := keepPins true cs o.pins })) core o .read id p)
  | k =>
    pinRanges deny s core o .read (numberedFrom 4096 (biasRanges k)) (fun s1 bs =>
      pinRanges deny (keepPlaces s1 core o bs) core o .write (numberedFrom 0 (storeRanges k)) (fun s2 ws =>
        modOp s2 core o.id (fun o => { o with pin := .pinned, dest := ws ++ bs })))

/-! ## The walk-ahead (17 R367) -/

/-- An address in each page of a global range, the first its own. -/
def pageStarts (a n : Nat) : List Nat :=
  if n = 0 ∨ Config.globalLimit ≤ a then [] else a :: ((pagesOf a n).drop 1).map (· * pageBytes)

/-- An address in each page of each row of a tile. -/
def rowPages (st : Stencil) (c : List Nat) (rows ke : Nat) : List Nat :=
  let n := Nat.min ke (st.ext.getD 0 0 - c.getD 0 0)
  if n = 0 then []
  else
    (List.range rows).flatMap (fun r =>
      let ix (k : Nat) : List Nat := coordAdd (coordAdd c 0 k) 1 r
      match stencilElem st (ix 0), stencilElem st (ix (n - 1)) with
      | some a, some b => pageStarts a.addr.toNat (b.addr.toNat + b.bytes - a.addr.toNat)
      | _, _ => [])

/-- The pages of an operation in the order of the walk-ahead, each by an address with its kind of access: A, B, then the destination. -/
def opPages : MatKind → List (AccKind × Nat)
  | .mul mx _ blk a b _ _ =>
    (rowPages a blk.ac (tileDim mx.shape.m) (keOf mx) ++ rowPages b blk.bc (tileDim mx.shape.n) (keOf mx)).map (fun v => (.read, v))
  | .acld a => (pageStarts a.toNat 16384).map (fun v => (.read, v))
  | .acst a => (pageStarts a.toNat 16384).map (fun v => (.write, v))
  | .acepi e d =>
    ((if e.bias = 0 then [] else pageStarts e.bias.toNat (4 * e.n)).map (fun v => (.read, v))) ++ (rowPages d e.dc e.m e.n).map (fun v => (.write, v))
  | _ => []

/-- Pages walked ahead of use by a stencil engine: each that is not present is recorded at once, and answered by its address. -/
def walkPages (ag : Option Nat) (ctx core : Nat) (s : State) (ps : List (AccKind × Nat)) : State × List Nat :=
  ps.foldl (fun (acc : State × List Nat) p =>
    match translate acc.1 ag ctx p.2 p.1 with
    | (.fault lv h, _) =>
      if acc.2.any (fun v => pageOf v == pageOf p.2) ∨ !faultRoom acc.1 then acc
      else (engFault acc.1 ctx core agentHod p.1 p.2 lv h, acc.2 ++ [p.2])
    | (_, s1) => (s1, acc.2)) (s, [])

/-- The pages of an operation walked, once it has entered its queue. -/
def walkAhead (s : State) (core : Nat) (o : MatOp) : State :=
  if o.walked then s
  else
    let r := walkPages (opAgent s o) (teamAt s o.team).ctx core s (opPages o.kind)
    modOp r.1 core o.id (fun o => { o with walked := true, pages := o.pages ++ r.2 })

/-- OPERAND_PIN: the walk-ahead passes an operation's pages, and the hod pins its lines, or the pinning fails; while an operating-point
change holds the boundary of some pair it waits (16 R358, log 46). -/
def execOperandPin (core : Nat) (op : Nat) (s : State) : Out :=
  match (coreAt s core).matrix.find? (fun o => o.id == op) with
  | none => .next s
  | some o =>
    if s.supervisor.freeze || o.pin ≠ .open || o.pages ≠ [] || unreleased s o.unit o.id then .next s
    else if heldPairs s (.job o.id) allPairs ≠ [] then .next (holdAsk s (.job o.id) (heldPairs s (.job o.id) allPairs))
    else
      let s1 := walkAhead s core o
      match (coreAt s1 core).matrix.find? (fun o => o.id == op) with
      | some o1 => if o1.pages ≠ [] then .next s1 else .next (pinOp (fun _ => false) s1 core o1)
      | none => .next s1

/-! ## Start (09 R230, 16 R351) -/

/-- Whether the fares of an operation stand on every core that pays, or their requests made. -/
def opPaid (s : State) (core : Nat) (o : MatOp) : Bool :=
  let f := opFares o.kind
  f == 0 ||
  (((payers (teamAt s o.team)).filter (· != core)).all (fun c => holdsFares s c o.id) &&
   (if isMul o.kind then o.granted != 0 && (o.granted ≤ (coreAt s core).purse.unitLevel) else holdsFares s core o.id))

/-- The requests of an operation's fares. -/
def askOp (s : State) (core : Nat) (o : MatOp) : State :=
  let ctx := (teamAt s o.team).ctx
  let f := opFares o.kind
  let s1 := ((payers (teamAt s o.team)).filter (· != core)).foldl (fun s c =>
    if holdsFares s c o.id then s else requestFares s { op := some o.id, core := c, fares := f, ctx := ctx }) s
  if (if isMul o.kind then o.granted != 0 else holdsFares s core o.id) then s1
  else requestFares s1 { op := some o.id, core := core, fares := f, ctx := ctx, matrix := isMul o.kind }

/-- An operation begins: it runs its cycles; a product ends its core's burst target. -/
def beginOp (s : State) (core : Nat) (o : MatOp) : State :=
  let s1 := modOp s core o.id (fun o => { o with running := true, left := opCycles o.kind })
  if isMul o.kind then modPurse s1 core (fun p => { p with burst := 0, burstWindows := 0, mode := .operating }) else s1

/-- An operation leaves its unit, its holding ends, and waiting parts enter. -/
def finishOp (s : State) (core : Nat) (o : MatOp) (failed : Option TrapRec) : State :=
  unitIdle (admitParts (matOpEnds (noteCur s (clusterOf core)) core o failed) core) core

/-- What reading an epilogue's bias at its start comes to (09 R238): its bytes, a wait for another operation's write, or an error. -/
inductive BiasRead where
  | ok (bs : List Nat)
  | wait
  | bad (addr : W64)

/-- The bias read from its pinned places. -/
def readBias (s : State) (o : MatOp) : List (Nat × Nat × Nat) → BiasRead
  | [] => .ok []
  | (i, a, n) :: r =>
    let loc := tget (.phys 0) o.dest i
    if ownedByOther s o.id (teamAt s o.team).ctx loc a then .wait
    else if (match loc with
      | .phys p => hasNat s.badLines (lineOf p)
      | _ => false) then .bad (BitVec.ofNat 64 (a / 64 * 64))
    else
      match readBias s o r with
      | .ok bs => .ok ((locBytes s loc n).map (·.toNat) ++ bs)
      | x => x

/-- The first operation of a queue, pinned and paid for, starts; an epilogue reads its bias then. -/
def startOp (s : State) (core : Nat) (o : MatOp) : State :=
  if storesMem o.kind then
    match readBias s o (numberedFrom 4096 (biasRanges o.kind)) with
    | .ok bs => beginOp (modOp s core o.id (fun o => { o with bData := bs })) core o
    | .wait => s
    | .bad a => finishOp s core o (some (opRec s o .eccUncorrectable 0 a))
  else beginOp s core o

/-- Whether an operation has entered its queue in this cycle: others of the cycle may still come before it (09 R230). -/
def justEntered (s : State) (core : Nat) (o : MatOp) : Bool := (o.entered.map (·.1)) == some (clusterCyc s (clusterOf core))

/-- MATRIX_OP_START: the first operation of a queue starts when none runs, it is pinned and its fares are granted; one whose pinning
failed ends with its accumulator unchanged. -/
def execMatrixOpStart (core : Nat) (s : State) : Out :=
  match (coreAt s core).matrix with
  | [] => .next s
  | o :: _ =>
    if s.supervisor.freeze || o.running || unreleased s o.unit o.id || justEntered s core o then .next s
    else if o.gangOp.isSome && spadGone s o.team then .next (finishOp s core o (some (opRec s o .remoteGone 0 0)))
    else
      match o.pin with
      | .open => .next s
      | .failed r => .next (finishOp s core o (some r))
      | .pinned => if opPaid s core o then .next (startOp s core o) else .next (askOp s core o)

/-! ## End (09 R229, R236, R238) -/

/-- An accumulator element. -/
def accAt (t : Team) (acc i : Nat) : W32 := tget 0 (tget [] t.acc acc) i

/-- A scale of a row or column for a block of 32 elements (03 R69). -/
def scaleOf (sc : Option Scales) (row j : Nat) : FVal :=
  match sc with
  | none => .fin false 1 0
  | some c =>
    let w := (if row < 32 then c.lo else c.hi).getD (row % 32) 0
    elemVal 0x03 (bitsAt w.toNat (8 * (c.byteSel + j) + 7) (8 * (c.byteSel + j)))

/-- The products of one block of K. -/
def blockProducts (mx : MxFields) (as bs : List Nat) (sa sb : Option Scales) (m n j : Nat) : List FVal :=
  let ke := keOf mx
  (List.range (Nat.min 32 (ke - 32 * j))).map (fun i =>
    let k := 32 * j + i
    (mulExact (scaled (elemVal mx.fmtA (as.getD (m * ke + k) 0)) (scaleOf sa m j))
      (scaled (elemVal mx.fmtB (bs.getD (n * ke + k) 0)) (scaleOf sb n j))).1)

/-- One accumulator element of a floating product: K-blocks in ascending order, one rounding each (03 R70). -/
def dotFloat (mx : MxFields) (as bs : List Nat) (sa sb : Option Scales) (c : W32) (m n : Nat) : W32 :=
  (List.range (ceilDiv (keOf mx) 32)).foldl (fun c j => addRound32 c (exactBlockSum (blockProducts mx as bs sa sb m n j))) c

/-- One accumulator element of an INT8 product (03 R71). -/
def dotInt (mx : MxFields) (as bs : List Nat) (c : W32) (m n : Nat) : W32 :=
  let ke := keOf mx
  let i8 (x : Nat) : Int := (BitVec.ofNat 8 x).toInt
  c + BitVec.ofInt 32 ((List.range ke).foldl (fun z k => z + i8 (as.getD (m * ke + k) 0) * i8 (bs.getD (n * ke + k) 0)) 0)

/-- The accumulator after a product: all its elements together. -/
def accAfterMul (t : Team) (o : MatOp) (mx : MxFields) (zero : Bool) (sa sb : Option Scales) : TMap W32 :=
  (tileIndex (tileDim mx.shape.m) (tileDim mx.shape.n)).foldl (fun a p =>
    let c : W32 := if zero then 0 else accAt t o.acc (64 * p.1 + p.2)
    tset a (64 * p.1 + p.2) (if mx.fmtA = 0x1F then dotInt mx o.aData o.bData c p.1 p.2 else dotFloat mx o.aData o.bData sa sb c p.1 p.2))
    (tget [] t.acc o.acc)

/-- A team's accumulator replaced. -/
def setAcc (s : State) (t acc : Nat) (a : TMap W32) : State := modTeam s t (fun t => { t with acc := tset t.acc acc a })

/-- The value an epilogue writes, in the bits of the destination's format (09 R238). -/
def epiValue (e : EpiBlock) (fmt : Nat) (bias : Option W32) (a : W32) : Nat :=
  let r (v : FVal × Bool) : W32 := BitVec.ofNat 32 (ieeeRound f32 .rne v.1).1
  let x : W32 := if e.intAcc then r (ofSigned a.toInt 0 false, false) else a
  let y : W32 := match bias with
    | none => r (mulExact (fv x) (fv e.scale))
    | some b => r (fmaExact .rne (fv x) (fv e.scale) (fv b))
  let y : W32 := if e.act = 1 ∧ !isNan (fv y) ∧ y.getLsbD 31 then 0 else y
  if fmt = 0x1E then y.toNat
  else if fmt = 0x1C then (roundIEEE f16 .rne e.sat false (fv y)).1
  else if fmt = 0x1D then (roundIEEE bf16 .rne e.sat false (fv y)).1
  else if fmt = 0x1F then (BitVec.ofInt 8 (toIntVal (-128) 127 .rne (fv y)).1).toNat
  else (roundToBinary8 (BitVec.ofNat 5 fmt) e.sat (fv y)).1

/-- The stores of an operation: the bytes of each address, in order. -/
def opStores (s : State) (o : MatOp) : List (W64 × List Byte) :=
  let t := teamAt s o.team
  match o.kind with
  | .acst a => (List.range 256).map (fun i =>
      (a + BitVec.ofNat 64 (64 * i), (List.range 16).flatMap (fun j => natToBytes 4 (accAt t o.acc (16 * i + j)).toNat)))
  | .acepi e d =>
    (epiElems e d).map (fun p =>
      let bias := if e.bias = 0 then none else some (bytesToW32 (((o.bData.drop (4 * p.2.1)).take 4).map (BitVec.ofNat 8)))
      (p.2.2.addr, natToBytes p.2.2.bytes (epiValue e d.fmt bias (accAt t o.acc (64 * p.1 + p.2.1)))))
  | _ => []

/-- An operation's stores take their place in its group's drain as stores of the core, at the places it pinned (09 R236). -/
def sendStores (s : State) (o : MatOp) : State :=
  if storesMem o.kind then
    let lanes := ((opStores s o).zip o.dest).map (fun e : (W64 × List Byte) × Nat × Loc =>
      ({ lane := o.lane, loc := e.2.2, va := e.1.1.toNat, data := e.1.2 } : LaneAcc))
    modUnit s o.unit (fun g => { g with stores := g.stores.map (fun p => if p.op = some o.id then { p with op := none, lanes := lanes } else p) })
  else s

/-- The accumulator after an operation. -/
def accAfter (s : State) (o : MatOp) : State :=
  let t := teamAt s o.team
  if !thas s.teams o.team then s else
  match o.kind with
  | .mul mx zero _ _ _ sa sb => setAcc s o.team o.acc (accAfterMul t o mx zero sa sb)
  | .acz => modTeam s o.team (fun t => { t with acc := terase t.acc o.acc })
  | .acld _ =>
    setAcc s o.team o.acc ((List.range 4096).foldl (fun a i =>
      tset a i (BitVec.ofNat 32 (o.bData.getD (i / 16) 0 / 2 ^ (32 * (i % 16))))) [])
  | .acepi e _ =>
    if e.clr then setAcc s o.team o.acc ((tileIndex e.m e.n).foldl (fun a p => tset a (64 * p.1 + p.2) 0) (tget [] t.acc o.acc)) else s
  | _ => s

/-- The registers an operation writes: those of acrd, for every thread of the run. -/
def regsAfter (s : State) (o : MatOp) : State :=
  match o.kind with
  | .acrd v row =>
    let t := teamAt s o.team
    modUnit s o.unit (fun g => ((maskLanes o.runMask).filter (fun l => (thrAt g l).live)).foldl (fun g l =>
      writeV false (writeV false g l v (accAt t o.acc (64 * row + l))) l (v + 1) (accAt t o.acc (64 * row + l + 32))) g)
  | _ => s

/-- MATRIX_OP_END: an operation that has run its cycles takes its whole effect, and leaves. -/
def execMatrixOpEnd (core : Nat) (s : State) : Out :=
  match (coreAt s core).matrix with
  | [] => .next s
  | o :: _ =>
    if s.supervisor.freeze || !o.running || o.left ≠ 0 then .next s
    else
      .next (finishOp (regsAfter (accAfter (sendStores s o) o) o) core o none)

end Sys2Proof.Machine
end

