-- ==== Sys2Proof/Machine/Copy.lean ====
section
/-! DEFINITION. Copies: copy, gcopy and the COPY command (09 R239-R243, 15 R328), their start and completion, and the RDMA writes of a
destination in the peer aperture (19 R400). -/

set_option linter.unusedVariables false

namespace Sys2Proof.Machine

/-! ## The copy block (09 R239) -/

/-- A copy block. -/
structure CopyBlock where
  addr : Nat
  src : W64
  dst : W64
  coords : List Nat
  cnt0 : Nat
  cnt1 : Nat
  pitch : Nat
  gmask : Nat
  reservedZero : Bool
deriving DecidableEq, Repr

/-- The fields of a copy block. -/
def parseCopy (addr : Nat) (bs : List Byte) : CopyBlock :=
  let x := recBits bs
  { addr := addr, src := BitVec.ofNat 64 (bitsAt x 63 0), dst := BitVec.ofNat 64 (bitsAt x 127 64), coords := coordsAt x 128,
    cnt0 := bitsAt x 319 288, cnt1 := bitsAt x 351 320, pitch := bitsAt x 383 352, gmask := bitsAt x 395 384, reservedZero := zeroAt x 511 396 }

/-- The field checks of a copy block beside its source stencil; gang is the gang size for gcopy. -/
def copySub (gang : Option Nat) (b : CopyBlock) (st : Stencil) : Option Nat :=
  let range (n : Nat) : Bool := decide (1 ≤ n) && decide (n ≤ 65536)
  let mask := match gang with
    | none => b.gmask == 0
    | some n => b.gmask != 0 && decide (b.gmask < 2 ^ n)
  if b.reservedZero && mask && range b.cnt0 && range b.cnt1 && decide (rowBytes st b.cnt0 ≤ b.pitch) &&
      (!st.pk || (b.cnt0 % 64 == 0 && b.pitch % 64 == 0)) then none
  else some 1

/-- What a copy asks of its source stencil. -/
def copyUse (b : CopyBlock) : StencilUse := { elems := b.cnt0, coord0 := b.coords.getD 0 0 }

/-- The job of a block. -/
def copyJob (id : Nat) (b : CopyBlock) (st : Stencil) : CopyJob :=
  { id := id, src := st, coords := b.coords, cnt0 := b.cnt0, cnt1 := b.cnt1, pitch := b.pitch, dst := b.dst }

/-- Bytes from a copy's first destination byte to its last. -/
def copySpan (b : CopyBlock) (st : Stencil) : Nat := (b.cnt1 - 1) * b.pitch + rowBytes st b.cnt0

/-! ## Destination lines (05 R115) -/

/-- What one place of a destination meets. -/
inductive DestRes where
  | ok (s : State) (loc : Loc)
  | fault (va level : Nat) (h : Bool)
  | bad (c : Cause) (sub : Nat) (addr : W64)

/-- One place of a copy's destination: a member's scratchpad for gcopy, else a generic address; global places may lie in the peer
aperture (19 R400). ag is the engine that translates. -/
def destPlace (s : State) (ag : Option Nat) (j : CopyJob) (member : Option Nat) (a n : Nat) : DestRes :=
  let line : W64 := BitVec.ofNat 64 (a / 64 * 64)
  match member with
  | some t => if spadGone s t then .bad .remoteGone 0 line else .ok s (.spad t a)
  | none =>
    match resolve s j.user j.lane .gen (BitVec.ofNat 64 a) n with
    | .error .spadBounds => .bad .spadBounds 0 line
    | .error (.violation k) => .bad .accessViolation k line
    | .error .gone => .bad .remoteGone 0 line
    | .ok (.spad t o) => if spadGone s t then .bad .remoteGone 0 line else .ok s (.spad t o)
    | .ok (.priv k l o) => .ok s (.priv k l o)
    | .ok (.glob va) =>
      match translate s ag j.ctx va .write with
      | (.ok pa, s1) => .ok s1 (.phys pa)
      | (.fault lv h, _) => .fault va lv h
      | (.violation k, _) => .bad .accessViolation k line

/-- The destinations of a copy: one, or each member's scratchpad. -/
def destMembers (j : CopyJob) : List (Option Nat) := if j.gang then j.members.map some else [none]

/-- The pieces of a copy's destination in ascending order: member, address, length, and offset in the copied bytes. -/
def destPieces (j : CopyJob) : List (Option Nat × Nat × Nat × Nat) :=
  let rb := rowBytes j.src j.cnt0
  (destMembers j).flatMap (fun m => (List.range j.cnt1).flatMap (fun r =>
    let a := j.dst.toNat + r * j.pitch
    (lineChunks a rb (rb + 1)).map (fun c => (m, c.1, c.2, r * rb + (c.1 - a)))))

/-- The engine under which a core's copy engine translates (17 R365). -/
def copyAgent (core : Nat) : Option Nat := some (engineAgent (clusterOf core))

/-- Ownership of every destination line (05 R115), one whose page is not present by its virtual address; a page fault of the agent is
recorded once for a page and holds the job (17 R367, R376). ag is the engine that translates. -/
def ownDest (ag : Option Nat) (agent core : Nat) (s : State) (j : CopyJob) : State × List Nat :=
  (destPieces j).foldl (fun (acc : State × List Nat) p =>
    match destPlace acc.1 ag j p.1 p.2.1 p.2.2.1 with
    | .ok s1 loc => (takeLines j.id s1 [keyOf loc], acc.2)
    | .fault va lv h =>
      let s1 := takeLines j.id acc.1 [.virt j.ctx (va / 64)]
      if acc.2.any (fun v => pageOf v == pageOf va) ∨ !faultRoom s1 then (s1, acc.2)
      else (engFault s1 j.ctx core agent .write va lv h, acc.2 ++ [va])
    | .bad _ _ _ => acc) (settleOwned s, [])

/-! ## Acceptance (09 R240, R241) -/

/-- Whether a core's copy engine has room. -/
def copyRoom (s : State) (core : Nat) : Bool := decide ((coreAt s core).copies.length < Config.copyEntries)

/-- The promised count of a copy accepted now. -/
def copyPromise (s : State) (core : Nat) (j : CopyJob) : Nat :=
  let now := clusterCyc s (clusterOf core)
  let ahead := (coreAt s core).copies.foldl (fun n k => n + (k.promise - now)) 0
  now + ahead + ceilDiv (copyBytes j) 32 + s.policy.copyMargin

/-- The source pages of a copy, in the order of the walk-ahead: ascending row, then ascending element (17 R367). -/
def copyPages (j : CopyJob) : List (AccKind × Nat) := (rowPages j.src j.coords j.cnt1 j.cnt0).map (fun v => (.read, v))

/-- A job accepted by a core's copy engine: the stencil engine walks its pages ahead, the destination last, its destination lines are
owned and its count is promised (17 R367, 05 R115). -/
def acceptCopy (s : State) (core : Nat) (j : CopyJob) : State × CopyJob :=
  let j0 := { j with core := core }
  let ag : Option Nat := some (stencilAgent (clusterOf core))
  let src := walkPages ag j.ctx core s (copyPages j0)
  let dst := ownDest ag agentHod core src.1 j0
  let j1 := { j0 with promise := copyPromise s core j, pages := src.2 ++ dst.2 }
  (modCore dst.1 core (fun c => { c with copies := c.copies ++ [j1] }), j1)

/-- The precise resolution of a copy's whole destination range. -/
def copyDst (s : State) (x : Ctx) (gang : Bool) (b : CopyBlock) (st : Stencil) (k : State) : State :=
  let n := copySpan b st
  if gang then
    (if (maskedMembers s x.t b.gmask).all (fun m => decide (b.dst.toNat + n ≤ (if thas s.teams m.2 then teamAt s m.2 else x.t).kernel.scratch))
      then k else trapAll s x .spadBounds 0 b.dst)
  else
    match resolve s x.u x.lead .gen b.dst n with
    | .error .spadBounds => trapAll s x .spadBounds 0 b.dst
    | .error (.violation v) => trapAll s x .accessViolation v b.dst
    | .error .gone => trapAll s x .remoteGone 0 b.dst
    | .ok (.glob va) => if Config.globalLimit < va + n then trapAll s x .accessViolation 1 b.dst else k
    | .ok _ => k

/-- copy and gcopy: the slot, the block and its stencil, the checks, then acceptance by the core's engine. -/
def copyWord (i : Instr) (v : VIdx) (q : SIdx) (gang : Bool) (s : State) : Out :=
  word i s (fun x =>
    withSlot s x (fun slot =>
      let off : W64 := (x.uni q).setWidth 64
      readRec s x .spad off (fun bb s1 =>
        let b := parseCopy off.toNat bb
        readRec s1 x .gen b.src (fun sb s2 =>
          let st := parseStencil b.src.toNat sb
          let size := if gang then some (gangMembers s2 x.t).length else none
          checkRecs s2 x [(copySub size b st, off.toNat), (stencilSub s2 x.t.ctx st (copyUse b), st.addr)]
            [(b.dst, .aligned (if st.pk then 64 else 1)), (st.base, .aligned 64)]
            (copyDst s2 x gang b st
              (if !quiet s2 x.u || !copyRoom s2 x.t.core then s2
               else
                 let s3 := releaseStep s2 x.t.core
                 let (id, s4) := fresh s3
                 let j : CopyJob := { copyJob id b st with
                   owner := .future x.u slot, ctx := x.t.ctx, grid := some x.t.grid, user := x.u, lane := x.lead, gang := gang,
                   members := if gang then (maskedMembers s4 x.t b.gmask).map (·.2) else [] }
                 let (s5, j1) := acceptCopy s4 x.t.core j
                 let g1 := writeHandle { x with g := unitAt s5 x.u } (unitAt s5 x.u) v.toNat slot
                 let g2 := x.lanes.foldl (fun g l => writeV x.cond g l (v.toNat + 1) (BitVec.ofNat 32 j1.promise)) g1
                 let g3 := advance (takeSlot g2 slot .copy id)
                 let f := slotAt g3 slot
                 engineAdd (setUnit s5 x.u { g3 with
                   futures := tset g3.futures slot { f with promise := j1.promise, cluster := clusterOf x.t.core } }) x.u.team))))))

/-- copy. -/
def execCopy (v : VIdx) (q : SIdx) (s : State) : Out := copyWord (.copy v q) v q false s

/-- gcopy: the same rows to every named member's scratchpad. -/
def execGcopy (v : VIdx) (q : SIdx) (s : State) : Out := copyWord (.gcopy v q) v q true s

/-! ## Start and completion (09 R240, R242) -/

/-- Whether an operation is an engine task node: its holding is the cluster purse's (16 R345). -/
def isNode : JobOwner → Bool
  | .node _ _ => true
  | _ => false

/-- The cores that pay for a copy. -/
def copyPayers (s : State) (core : Nat) (j : CopyJob) : List Nat :=
  match j.owner with
  | .future u _ => payers (teamAt s u.team)
  | _ => [core]

/-- Whether what a command of a lockstep team sent out is still held back by its clause (17 R386). -/
def unreleasedJob (s : State) (o : JobOwner) (id : Nat) : Bool :=
  match o with
  | .future u _ => unreleased s u id
  | _ => false

/-- COPY_START: the first copy of an engine starts when its pages have translated and its fares are granted; while an operating-point
change holds some boundary none starts (16 R358, log 46). -/
def execCopyStart (core : Nat) (s : State) : Out :=
  match (coreAt s core).copies with
  | [] => .next s
  | j :: _ =>
    if !j.started && jobCancelled s j.grid then
      .next (cancelJob (modCore s core (fun c => { c with copies := c.copies.filter (fun y => y.id != j.id) })) j.id j.owner)
    else if s.supervisor.freeze || j.started || j.pages ≠ [] || nodeFresh s j.owner || unreleasedJob s j.owner j.id then .next s
    else
      let ps := copyPayers s core j
      if !paid s ps j.id then .next (askPaid s ps j.id 2 j.ctx (isNode j.owner))
      else
        let (s1, pages) := ownDest (copyAgent core) agentCopy core s j
        .next (crossOr s (.job j.id) (modCore s1 core (fun c => { c with
          copies := c.copies.map (fun y => if y.id = j.id then { y with started := pages.isEmpty, pages := pages } else y) })))

/-- What reading a copy's source comes to: the bytes read before a failure, if any. -/
inductive CopyRead where
  | ok (s : State) (data : List Byte) (err : Option (Cause × Nat × W64))
  | wait
  | fault (va level : Nat) (h : Bool)

/-- The indices of a copy's elements, or of the first element of each packed block. -/
def copyIndex (j : CopyJob) : List (List Nat) :=
  (List.range j.cnt1).flatMap (fun r =>
    (List.range (if j.src.pk then j.cnt0 / 64 else j.cnt0)).map (fun i =>
      coordAdd (coordAdd j.coords 0 (if j.src.pk then 64 * i else i)) 1 r))

/-- The source bytes of a list of elements; a ZERO element is zero bytes. A page whose faults a REPLAY denied is a violation. -/
def readCopy (deny : Nat → Bool) (s : State) (j : CopyJob) : List (List Nat) → CopyRead
  | [] => .ok s [] none
  | ix :: r =>
    match stencilElem j.src ix with
    | none =>
      match readCopy deny s j r with
      | .ok s1 d e => .ok s1 (List.replicate (if j.src.pk then 48 else fmtBytes (BitVec.ofNat 5 j.src.fmt)) 0 ++ d) e
      | x => x
    | some e =>
      match pinElem s (copyAgent j.core) j.user j.lane j.ctx j.id .read [] e with
      | .stop .wait => .wait
      | .stop (.fault va lv h) => if deny va then .ok s [] (some (.accessViolation, 5, BitVec.ofNat 64 (va / 64 * 64))) else .fault va lv h
      | .stop (.bad c sub a) => .ok s [] (some (c, sub, a))
      | .ok s1 bs =>
        match readCopy deny s1 j r with
        | .ok s2 d e => .ok s2 (bs ++ d) e
        | x => x

/-- A line in the peer aperture becomes an RDMA WRITE on the queue pair its gigabyte is bound to (19 R400). -/
def peerWrite (s : State) (u : UnitId) (pa : Nat) (bs : List Byte) : State :=
  let gib := (pa - Config.peerAperture) / 2 ^ 30
  let qp := tget gib s.peerBinding gib
  { s with
    peerPending := s.peerPending ++ [(qp, unitKey u)]
    peerWrites := s.peerWrites ++ ((List.range bs.length).zip bs).map (fun e => (qp, pa + e.1, e.2)) }

/-- Bytes written by a copy at a place. -/
def copyWrite (s : State) (j : CopyJob) (loc : Loc) (bs : List Byte) : State :=
  match loc with
  | .phys pa => if inPeer pa then peerWrite s j.user pa bs else engineWrite s (writesOf pa bs)
  | _ => drainTo s 0 loc bs

/-- What writing comes to. -/
inductive CopyEnd where
  | done (s : State) (err : Option (Cause × Nat × W64))
  | wait
  | fault (va level : Nat) (h : Bool)

/-- The copied bytes written piece by piece; lines written before a failure stand, and so do the leading bytes of a line whose source fails
part-way through it (log 47). -/
def writeCopy (deny : Nat → Bool) (j : CopyJob) (data : List Byte) (s : State) : List (Option Nat × Nat × Nat × Nat) → CopyEnd
  | [] => .done s none
  | (m, a, n, off) :: r =>
    let bs := (data.drop off).take n
    if bs = [] then writeCopy deny j data s r
    else
      match destPlace s (copyAgent j.core) j m a n with
      | .bad c sub ad => .done s (some (c, sub, ad))
      | .fault va lv h => if deny va then .done s (some (.accessViolation, 5, BitVec.ofNat 64 (va / 64 * 64))) else .fault va lv h
      | .ok s1 loc =>
        if !mayWrite s1 j.id j.ctx loc a then .wait
        else writeCopy deny j data (copyWrite s1 j loc bs) r

/-- The ERR code of an engine's failure (09 R251). -/
def causeErr (c : Cause) : Nat :=
  match c with
  | .eccUncorrectable => 4
  | .remoteGone => 8
  | .layerFault => 5
  | _ => 3

/-- COPY commands held for room in an engine go on. -/
def engineEnds (s : State) : State :=
  s.queues.foldl (fun s e =>
    match e.2.head with
    | some h => if h.why = .engine then settleQueue (modQueue s e.1 (fun q => { q with head := some { h with why := .ended } })) e.1 else s
    | none => s) s

/-- A copy leaves its engine: its holding ends, its lines leave ownership, then its owner learns. -/
def copyEnds (s : State) (core : Nat) (j : CopyJob) (err : Option (Cause × Nat × W64)) : State :=
  let s1 := dropOp s j.id
  let s2 := modCore s1 core (fun c => { c with copies := c.copies.filter (fun y => y.id != j.id) })
  let s3 := dropLines j.id s2
  let s4 := match err with
    | none => ownerDone s3 j.owner 0 0 0 0
    | some (c, sub, a) => ownerDone s3 j.owner (causeErr c) 0 a sub
  engineEnds (ownerEnd s4 j.owner)

/-- A page fault of a running copy: recorded, and the copy waits for its REPLAY. -/
def copyFault (s : State) (core : Nat) (j : CopyJob) (kind : AccKind) (va lv : Nat) (h : Bool) : State :=
  if faultRoom s then
    modCore (engFault s j.ctx core agentCopy kind va lv h) core (fun c => { c with
      copies := c.copies.map (fun y => if y.id = j.id then { y with pages := y.pages ++ [va] } else y) })
  else s

/-- A copy reads its source, writes its destination and ends, in error from the first place that fails. -/
def copyRuns (deny : Nat → Bool) (s : State) (core : Nat) (j : CopyJob) : State :=
  match readCopy deny (settleOwned s) j (copyIndex j) with
  | .wait => s
  | .fault va lv h => copyFault s core j .read va lv h
  | .ok s1 data err =>
    match writeCopy deny j data s1 (destPieces j) with
    | .wait => s
    | .fault va lv h => copyFault s core j .write va lv h
    | .done s2 err2 => copyEnds s2 core j (err2.or err)

/-- COPY_COMPLETE: a started copy that waits for no page runs to its end. -/
def execCopyComplete (core : Nat) (s : State) : Out :=
  match (coreAt s core).copies with
  | [] => .next s
  | j :: _ =>
    if s.supervisor.freeze || !j.started || j.pages ≠ [] then .next s else .next (copyRuns (fun _ => false) s core j)

/-- PEER_ACKNOWLEDGEMENT: the peer acknowledges the oldest RDMA WRITE of a queue pair (19 R400, 05 R110). -/
def execPeerAcknowledgement (qp : Nat) (s : State) : Out :=
  match s.peerPending.findIdx? (fun e => e.1 == qp) with
  | none => .next s
  | some i => .next { s with peerPending := s.peerPending.eraseIdx i }

/-! ## Copies of commands and nodes (15 R328, R331) -/

/-- What reading a copy block for work without a team comes to. -/
inductive CopySpec where
  | ok (s : State) (b : CopyBlock) (st : Stencil)
  | fault (va level : Nat) (h : Bool)
  | bad (detail : Nat)
  | refused

/-- A copy block in global memory with its source stencil, read through a context and checked. -/
def copySpec (s : State) (ctx addr : Nat) : CopySpec :=
  if addr % 64 ≠ 0 then .refused
  else
    match feRead s ctx addr 64 with
    | .fault va lv h => .fault va lv h
    | .bad d => .bad d
    | .ok bb s1 =>
      let b := parseCopy addr bb
      if b.src.toNat % 64 ≠ 0 then .refused
      else
        match feRead s1 ctx b.src.toNat 64 with
        | .fault va lv h => .fault va lv h
        | .bad d => .bad d
        | .ok sb s2 =>
          let st := parseStencil b.src.toNat sb
          if (copySub none b st).isSome || (stencilSub s2 ctx st (copyUse b)).isSome || (st.pk && b.dst.toNat % 64 != 0) || st.base.toNat % 64 != 0 then .refused
          else if Config.globalLimit < b.dst.toNat + copySpan b st then .bad 1
          else .ok s2 b st

end Sys2Proof.Machine
end

