-- ==== Sys2Proof/Machine/Work.lean ====
section
/-! DEFINITION. How work comes into being: kernels and the room they need (13 R295, R302, 15 R334), LAUNCH and spawn (15 R330,
08 R214, R215), task graphs (15 R331), the depot (08 R216, R217), the COPY command (15 R328) and the home of a unit (15 R335). -/

set_option linter.unusedVariables false

namespace Sys2Proof.Machine

/-! ## Kernels -/

/-- The kernel a KDESC names in an object registered for a context and not being unregistered (13 R298). -/
def kernelAt (s : State) (ctx addr : Nat) : Option KernelDesc :=
  ((ctxAt s ctx).objects.filter (fun o => o.unregBy.isNone)).findSome? (fun o => o.kernels.find? (fun k => k.addr == addr))

/-- Groups of a team: those of the roles, or the launch's (01 R14). -/
def teamGroups (k : KernelDesc) (n : Nat) : Nat := if k.roles = [] then n else k.roles.foldl (fun n r => n + r.groups) 0

/-- Registers of a team: groups times registers per thread (02 R42). -/
def teamRegs (k : KernelDesc) (n : Nat) : Nat :=
  if k.roles = [] then n * k.regBlocks * 8 else k.roles.foldl (fun n r => n + r.groups * r.regBlocks * 8) 0

/-- Whether a width-64 kernel without roles is given an odd group count (13 R302). -/
def oddPair (k : KernelDesc) (n : Nat) : Bool := k.width == 64 && k.roles.isEmpty && n % 2 == 1

/-! ## Room on a core (15 R334, 04 R94) -/

/-- What one team takes of a core. -/
structure Need where
  groups : Nat
  regs : Nat
  scratch : Nat
  accs : Nat
  bars : Nat
  conds : Nat
  unified : Bool
  floor : Nat
deriving DecidableEq, Repr

/-- The needs of a kernel's team; floor is in bytes. -/
def needOf (k : KernelDesc) (n : Nat) : Need :=
  { groups := teamGroups k n, regs := teamRegs k n, scratch := k.scratch, accs := k.acc, bars := k.barriers,
    conds := if k.conductor.isSome then 1 else 0, unified := k.unified, floor := Nat.max 32768 (k.l1Floor * 1024) }

/-- The sum of one need over teams. -/
def needSum (f : Need → Nat) (ns : List Need) : Nat := ns.foldl (fun n k => n + f k) 0

/-- The L1 part of a core when it takes a team beside what the core holds: 128 KiB or the floor on a core without unified teams, less
where the carves need it; at least the team's floor on a unified core (04 R94). -/
def l1After (l1 : Option Nat) (ns : List Need) (n : Need) : Nat :=
  match l1 with
  | some l => Nat.max l n.floor
  | none =>
    Nat.max n.floor (Nat.min (Nat.max 131072 n.floor) ((Config.unifiedBytes - (needSum (·.scratch) ns + n.scratch)) / 32768 * 32768))

/-- The L1 part that a core needs once every team it holds, and every slot reserved on it, has raised the part to its floor (04 R94). -/
def l1Needed (l1 : Option Nat) (ns : List Need) (n : Need) : Nat := ns.foldl (fun f m => Nat.max f m.floor) (l1After l1 ns n)

/-- Whether a team fits beside the teams and reservations of a core. The carves are compared by their sums alone: the spec gives a carve no
place in the scratchpad, so none fails to fit for want of one contiguous room (04 R85, log 46). -/
def needFits (l1 : Option Nat) (ns : List Need) (n : Need) : Bool :=
  decide (needSum (·.groups) ns + n.groups ≤ Config.groupsPerCore) && decide (needSum (·.regs) ns + n.regs ≤ Config.coreRegisters) &&
  decide (needSum (·.accs) ns + n.accs ≤ Config.coreAccs) && decide (needSum (·.bars) ns + n.bars ≤ Config.coreBarriers) &&
  decide (needSum (·.conds) ns + n.conds ≤ Config.coreConductors) && decide (ns.length < Config.coreTeams) &&
  ns.all (fun m => m.unified == n.unified) &&
  decide (needSum (·.scratch) ns + n.scratch ≤ (if n.unified then Config.unifiedBytes - l1Needed l1 ns n else Config.scratchBytes)) &&
  (!n.unified || decide (l1Needed l1 ns n ≤ Config.unifiedBytes))

/-- Whether a context runs its teams on core pairs in lockstep (17 R386). -/
def lockstep (s : State) (ctx : Nat) : Bool :=
  if ctx < 32 then s.supervisor.pairLo.getLsbD ctx else s.supervisor.pairHi.getLsbD (ctx - 32)

/-- The kernel and groups of unit i of a grid, of a graph's core node, or of a wagon's task. -/
def unitKernel (g : Grid) (i : Nat) : KernelDesc × Nat :=
  if g.kind = .graph then ((tget {} g.nodes i).kernel, (tget {} g.nodes i).groups) else (g.kernel, g.groups)

/-- The needs of a unit. -/
def unitNeed (g : Grid) (i : Nat) : Need := needOf (unitKernel g i).1 (unitKernel g i).2

/-- What a core holds: its teams, but for some, and the slots reserved on it. -/
def coreNeeds (s : State) (skip : List Nat) (c : Nat) : List Need :=
  ((s.teams.filter (fun t => standsOn t.2 c && !hasNat skip t.1)).map (fun t => needOf t.2.kernel t.2.groups)) ++
  s.grids.flatMap (fun g => (g.2.reservedSlots.filter (fun r => r.2 == c || (lockstep s g.2.ctx && r.2 + 1 == c))).map (fun r => unitNeed g.2 r.1))

/-- Whether a gang's window holds a core: no other unit starts there before the member does (15 R337). -/
def windowHeld (s : State) (skip : List Nat) (c : Nat) : Bool :=
  s.teams.any (fun t => t.2.gang.isSome && t.2.phase == .placed && t.2.units.isEmpty && standsOn t.2 c && !hasNat skip t.1)

/-- Whether a cluster lies in a context's CLMASK. -/
def inMask (s : State) (ctx c : Nat) : Bool := (ctxAt s ctx).record.clmask.getLsbD c

/-- Whether a team fits one core: a gated or retired core, and one outside CLMASK, fits nothing. -/
def coreFits (s : State) (ctx : Nat) (n : Need) (skip : List Nat) (c : Nat) : Bool :=
  inMask s ctx (clusterOf c) && !(clusterAt s (clusterOf c)).gated && !(coreAt s c).retired && !windowHeld s skip c &&
  needFits (coreAt s c).l1 (coreNeeds s skip c) n

/-- Whether a team fits a core, or in lockstep the pair of which it is the even core (17 R386). -/
def teamFits (s : State) (ctx : Nat) (n : Need) (skip : List Nat) (c : Nat) : Bool :=
  if lockstep s ctx then c % 2 == 0 && coreFits s ctx n skip c && coreFits s ctx n skip (c + 1) else coreFits s ctx n skip c

/-! ## Whether a concurrent grid could be resident (01 R28, 15 R330) -/

/-- Teams of one kind that an empty core takes. -/
def coreCapacity (n : Need) : Nat :=
  let part (need room : Nat) : Nat := if need = 0 then Config.coreTeams else room / need
  [Config.coreTeams, part n.groups Config.groupsPerCore, part n.regs Config.coreRegisters, part n.accs Config.coreAccs,
   part n.bars Config.coreBarriers, part n.conds Config.coreConductors,
   part n.scratch (if n.unified then Config.unifiedBytes - n.floor else Config.scratchBytes)].foldl Nat.min Config.coreTeams

/-- Windows of n places in a row of places that may be used, run after run of them. -/
def windowsIn (n : Nat) : Nat → List Bool → Nat
  | run, [] => run / n
  | run, b :: r => if b then windowsIn n (run + 1) r else run / n + windowsIn n 0 r

/-- The places of a stack pair in core order: its presented, unretired cores in CLMASK, or pairs of them in lockstep. -/
def pairPlaces (s : State) (ctx p : Nat) : List Bool :=
  let ok (c : Nat) : Bool := inMask s ctx (clusterOf c) && !(coreAt s c).retired
  if lockstep s ctx then (List.range 8).map (fun i => ok (16 * p + 2 * i) && ok (16 * p + 2 * i + 1))
  else (List.range 16).map (fun i => ok (16 * p + i))

/-- Teams of a grid that empty cores could hold at once; a gang of G stands on G consecutive places of one stack pair. -/
def gridCapacity (s : State) (ctx gang : Nat) (n : Need) : Nat :=
  let g := Nat.max 1 gang
  (List.range Config.pairs).foldl (fun k p => k + windowsIn g 0 (pairPlaces s ctx p)) 0 * coreCapacity n * g

/-- Whether a list of needs packs into empty places: each goes to a place in use or to a new one. -/
def packs : List Need → List (List Need) → Nat → Bool
  | [], _, _ => true
  | n :: r, used, free =>
    ((List.range used.length).any (fun i =>
      let ns := used.getD i []
      needFits none ns n && packs r (used.set i (n :: ns)) free)) ||
    (decide (0 < free) && packs r ([n] :: used) (free - 1))

/-- Places of a context, all stack pairs together. -/
def allPlaces (s : State) (ctx : Nat) : Nat :=
  (List.range Config.pairs).foldl (fun k p => k + windowsIn 1 0 (pairPlaces s ctx p)) 0

/-! ## Homes (15 R335) -/

/-- The home cluster of a tile. -/
def tileHome (tx ty : W32) : Nat := (tx * 0x9E3779B1 + ty * 0x85EBCA77).toNat % 192 / 8

/-- A home outside CLMASK becomes the first cluster after it that lies inside. -/
def maskedHome (s : State) (ctx h : Nat) : Nat :=
  (((List.range Config.clusters).map (fun i => (h + i) % 24)).find? (inMask s ctx)).getD h

/-- The tile of unit i of a grid or graph, if it has one. -/
def unitTile (g : Grid) (i : Nat) : Option (W32 × W32) :=
  if g.kind = .graph then (tget {} g.nodes i).tile
  else g.tile.map (fun t => (t.1 + BitVec.ofNat 32 (i % t.2.2), t.2.1 + BitVec.ofNat 32 (i / t.2.2)))

/-- The cluster an untiled placement of the host takes next in a context. -/
def nextUntiled (s : State) (ctx : Nat) : Nat := ((ctxAt s ctx).lastUntiled + 1) % 24

/-- Whether a unit is placed as the host's untiled work. -/
def untiledHost (g : Grid) (i : Nat) : Bool := (unitTile g i).isNone && g.parentCluster.isNone

/-- The home of a unit before CLMASK: its tile's, its parent's cluster, the one fixed when it was accepted or first tried, or the
next untiled one. -/
def rawHome (s : State) (g : Grid) (i : Nat) : Nat :=
  match unitTile g i, g.parentCluster, g.homeSet with
  | some (x, y), _, _ => tileHome x y
  | none, some c, _ => c
  | none, none, some h => h
  | none, none, none => nextUntiled s g.ctx

/-- The home cluster of a unit. -/
def unitHome (s : State) (g : Grid) (i : Nat) : Nat := maskedHome s g.ctx (rawHome s g i)

/-! ## New work -/

/-- The next number of a context's count that no live grid holds; 0 is never one (02 R409). -/
def freeGridId (live : List W32) : Nat → W32 → W32
  | 0, c => c
  | n + 1, c => if c = 0 then freeGridId live n 1 else if live.any (· == c) then freeGridId live n (c + 1) else c

/-- The GRIDIDs of a context's live work. -/
def liveIds (s : State) (ctx : Nat) : List W32 := (s.grids.filter (fun g => g.2.live && g.2.ctx == ctx)).map (fun g => g.2.gridid)

/-- Whether the ready pool is full (15 R330). -/
def poolFull (s : State) : Bool := decide (Config.readyEntries ≤ s.readyPool.length)

/-- Work accepted: it takes its number, its GRIDID and an entry of the ready pool, and its parent counts a child. -/
def addWork (s : State) (g : Grid) : Nat × State :=
  let (uid, s1) := fresh s
  let live := liveIds s g.ctx
  let id := freeGridId live (live.length + 3) (ctxAt s g.ctx).gridCount
  let s2 := modCtx s1 g.ctx (fun c => { c with gridCount := id + 1 })
  let s3 := { s2 with
    grids := tset s2.grids uid { g with uid := uid, gridid := id, prio := (ctxAt s g.ctx).record.prio, seq := s.fe }
    readyPool := s2.readyPool ++ [uid] }
  (uid, match g.parentGrid with
    | some p => modGrid s3 p (fun p => { p with children := p.children + 1 })
    | none => s3)

/-- The first unit of accepted work: team 0, or the lowest node without predecessors. -/
def firstUnit (g : Grid) : Nat :=
  if g.kind = .graph then ((g.nodes.find? (fun n => n.2.preds == 0)).map (·.1)).getD 0 else 0

/-- The home of the first unit of accepted work, which is fixed now, names its context's root team's cluster (15 R342). -/
def nameRoot (s : State) (uid : Nat) : State :=
  let g := gridAt s uid
  let raw := rawHome s g (firstUnit g)
  let s1 := modCtx s g.ctx (fun c => { c with rootCluster := maskedHome s g.ctx raw })
  if untiledHost g (firstUnit g) then modGrid s1 uid (fun g => { g with homeSet := some raw }) else s1

/-- The deadline of a context begins to count with the first work accepted from outside, in the cycles of the root team's cluster
(15 R342); without a deadline the first work of the context still names that cluster, in whose cycles its grace budget counts
(01 R37). -/
def startDeadline (s : State) (uid : Nat) : State :=
  let g := gridAt s uid
  let c := ctxAt s g.ctx
  if c.counting ∨ c.expired then s
  else if c.record.deadline = 0 then
    if s.grids.any (fun h => h.2.live && h.2.ctx == g.ctx && h.1 != uid) then s
    else nameRoot s uid
  else modCtx (nameRoot s uid) g.ctx (fun c => { c with counting := true })

/-! ## Launch checks (15 R330) -/

/-- The gang size of a launch: a role-split launch of several teams is one gang (15 R330 step 2). -/
def gangOf (k : KernelDesc) (r : SpawnRec) : Nat :=
  if 2 ≤ r.gang.toNat then r.gang.toNat else if k.roles ≠ [] then r.teams.toNat else 1

/-- Whether a launch's fields follow 08 R214; GROUPS is not looked at for a role-split kernel. -/
def recordOk (k : KernelDesc) (r : SpawnRec) : Bool :=
  decide (1 ≤ r.teams.toNat) && decide (r.teams.toNat ≤ Config.maxTeams) && decide (r.gang.toNat ≤ 12) &&
  (decide (r.gang.toNat < 2) || r.teams.toNat % r.gang.toNat == 0) && decide (r.priv.toNat ≤ 4096) &&
  (k.roles ≠ [] || (decide (1 ≤ r.groups.toNat) && decide (r.groups.toNat ≤ 32)))

/-- The checks of a launch but for the pool: a command status, or the grid it makes. -/
def launchCheck (s : State) (ctx : Nat) (r : SpawnRec) : Except Nat Grid :=
  match kernelAt s ctx r.kdesc.toNat with
  | none => .error 6
  | some k =>
    let gang := gangOf k r
    let groups := teamGroups k r.groups.toNat
    if !recordOk k r then .error 6
    else if k.roles ≠ [] ∧ 12 < gang then .error 6
    else if lockstep s ctx ∧ 8 < gang then .error 6
    else if oddPair k groups then .error 6
    else if k.cls = 0 ∧ gridCapacity s ctx gang (needOf k groups) < r.teams.toNat then .error 4
    else if (ctxAt s ctx).expired then .error 1
    else .ok { ctx := ctx, cls := k.cls, kernel := k, teams := r.teams.toNat, groups := groups, gangSize := Nat.max 1 gang,
               priv := r.priv.toNat * 16, args := r.args }

/-- LAUNCH: the checks in order, then a place in the ready pool; a full pool holds the queue. -/
def execLaunch (h : CmdHeader) (r : SpawnRec) (tx0 ty0 : W32) (tw : BitVec 16) (s : State) : Out :=
  ownCommand 0x01 h s (fun c q =>
    match launchCheck s q.ctx r with
    | .error n => .status s n
    | .ok g =>
      if poolFull s then .hold s .pool
      else
        let (uid, s1) := addWork s { g with
          origin := .command c.queue c.index h, tile := if tw = 0 then none else some (tx0, ty0, tw.toNat) }
        .accepted (startDeadline s1 uid))

/-! ## spawn (08 R213-R215) -/

/-- The failure form of a handle. -/
def failHandle (status : Nat) : W32 := BitVec.ofNat 32 (0x80000000 + status)

/-- A handle written to vN of some lanes. -/
def giveHandle (s : State) (x : Ctx) (v : Nat) (lanes : List Nat) (h : W32) : State :=
  modUnit s x.u (fun g => lanes.foldl (fun g l => writeV x.cond g l v h) g)

/-- The lanes that receive a requester's handle: every thread of the run for the form with one requester. -/
def handleLanes (x : Ctx) (one : Bool) (l : Nat) : List Nat := if one then x.lanes else [l]

/-- A child of the issuing thread: it takes the lowest free slot, or the status of its refusal is written. -/
def child (s : State) (x : Ctx) (v : Nat) (lanes : List Nat) (kind : FutKind) (g : Except Nat Grid) : State :=
  match g, freeSlots (unitAt s x.u) with
  | .ok g, slot :: _ =>
    let (uid, s1) := addWork s { g with
      origin := .parent x.u slot, depth := (gridAt s x.t.grid).depth + 1, parentGrid := some x.t.grid,
      parentCluster := some (clusterOf x.t.core) }
    modUnit (giveHandle s1 x v lanes (handleWord slot)) x.u (fun g => takeSlot g slot kind uid)
  | .error n, _ => giveHandle s x v lanes (failHandle n)
  | _, [] => giveHandle s x v lanes (failHandle 6)

/-- What spawn and task share: the requesters, the domain, the depth, the slots, the release step and the records read. -/
def spawnWord (i : Instr) (v : VIdx) (q : SIdx) (one : Bool) (s : State) (make : Ctx → List (Nat × List Byte) → State → State) : Out :=
  word i s (fun x =>
    let req := if one then [x.lead] else x.lanes
    let fails (n : Nat) : State := modUnit (giveHandle s x v.toNat x.lanes (failHandle n)) x.u advance
    if domainSet s x.u then fails 1
    else if Config.maxDepth ≤ (gridAt s x.t.grid).depth then fails 3
    else if (freeSlots x.g).length < req.length then trapAll s x .operandLimit 4 0
    else if !quiet s x.u then s
    else
      let s1 := releaseStep s x.t.core
      let base := x.uni64 q.toNat
      match heldRead s1 { x with g := unitAt s1 x.u } .gen 64 64 (req.map (fun l => (l, base + sext64 (x.main l v.toNat)))) with
      | .stop s2 => s2
      | .vals s2 vs => make x (req.map (fun l => (l, tget [] vs l))) s2)

/-- The grid a spawn record makes, or the status of its refusal. -/
def spawnGrid (s : State) (ctx : Nat) (bs : List Byte) : Except Nat Grid :=
  let x := bytesToNat bs
  if bitsAt x 255 128 ≠ 0 ∨ poolFull s then .error 6 else launchCheck s ctx (spawnFields x)

/-- spawn and spawn.one: one child grid for each requester in ascending lane order. -/
def execSpawn (v : VIdx) (q : SIdx) (one : Bool) (s : State) : Out :=
  spawnWord (.spawn v q one) v q one s (fun x recs s1 =>
    modUnit (recs.foldl (fun s r => child s x v.toNat (handleLanes x one r.1) .grid (spawnGrid s x.t.ctx r.2)) s1) x.u advance)

/-! ## Task graphs (15 R331) -/

/-- What reading a graph comes to. -/
inductive GraphRead where
  | ok (s : State) (nodes : List Node)
  | fault (va level : Nat) (h : Bool)
  | bad (detail : Nat)
  | refused

/-- Whether a node's fields are in range; a core node names a kernel registered for the context. -/
def nodeOk (s : State) (ctx x : Nat) : Bool :=
  let kind := bitsAt x 33 32
  zeroAt x 63 56 && zeroAt x 36 34 && zeroAt x 31 24 && decide (kind ≤ 2) && decide (bitsAt x 39 37 ≤ 4) &&
  (if bitsAt x 39 37 = 0 then zeroAt x 191 128 else bitsAt x 191 128 % 64 == 0) && bitsAt x 255 192 % 4 == 0 &&
  (if kind = 0 then
    decide (1 ≤ bitsAt x 23 16) && decide (bitsAt x 23 16 ≤ 32) && decide (bitsAt x 15 0 ≤ 4096) &&
    (match kernelAt s ctx (bitsAt x 127 64) with
     | none => false
     | some k => !oddPair k (bitsAt x 23 16))
   else zeroAt x 23 16 && zeroAt x 15 0)

/-- The node of a record that is in range, before its lists are read. -/
def nodeOf (s : State) (ctx x : Nat) : Node :=
  let k := (kernelAt s ctx (bitsAt x 127 64)).getD {}
  { args := recordArgs x, kind := bitsAt x 33 32, target := bitsAt x 127 64, priv := bitsAt x 15 0 * 16, preds := bitsAt x 55 48, sten := bitsAt x 191 128, nst := bitsAt x 39 37,
    kernel := if bitsAt x 33 32 = 0 then k else {}, groups := if bitsAt x 33 32 = 0 then teamGroups k (bitsAt x 23 16) else 0 }

/-- A node with its successor list and the tile of its first stencil (09 R224). -/
def readNode (s : State) (ctx addr : Nat) : GraphRead :=
  match feRead s ctx addr 64 with
  | .fault va lv h => .fault va lv h
  | .bad d => .bad d
  | .ok bs s1 =>
    let x := bytesToNat bs
    if !nodeOk s1 ctx x then .refused
    else
      match feRead s1 ctx (bitsAt x 255 192) (4 * bitsAt x 47 40) with
      | .fault va lv h => .fault va lv h
      | .bad d => .bad d
      | .ok ss s2 =>
        let n := { nodeOf s2 ctx x with succ := dedupNat ((List.range (bitsAt x 47 40)).map (fun i => bytesToNat ((ss.drop (4 * i)).take 4))) }
        if bitsAt x 39 37 = 0 then .ok s2 [n]
        else
          match feRead s2 ctx (bitsAt x 191 128) 64 with
          | .fault va lv h => .fault va lv h
          | .bad d => .bad d
          | .ok st s3 =>
            let z := parseStencil (bitsAt x 191 128) st
            .ok s3 [{ n with tile := some (z.tx, z.ty) }]

/-- Every node of a graph in ascending index. -/
def readNodes (s : State) (ctx addr : Nat) : Nat → GraphRead
  | 0 => .ok s []
  | n + 1 =>
    match readNode s ctx addr with
    | .ok s1 ns =>
      match readNodes s1 ctx (addr + 64) n with
      | .ok s2 ms => .ok s2 (ns ++ ms)
      | r => r
    | r => r

/-- The nodes left when those no other names have been taken away, again and again: none unless the graph has a cycle. -/
def peel : Nat → List (Nat × List Nat) → List (Nat × List Nat)
  | 0, ns => ns
  | n + 1, ns => peel n (ns.filter (fun e => ns.any (fun m => hasNat m.2 e.1)))

/-- The checks of a graph as a whole: successors, predecessor counts, no cycle. -/
def graphOk (nodes : List Node) : Bool :=
  let named (i : Nat) : Nat := nodes.foldl (fun n m => if hasNat m.succ i then n + 1 else n) 0
  nodes.all (fun n => n.succ.all (fun i => decide (i < nodes.length))) &&
  ((List.range nodes.length).zip nodes).all (fun e => e.2.preds == named e.1) &&
  (peel nodes.length ((List.range nodes.length).zip (nodes.map (·.succ)))).isEmpty

/-- A graph read and checked. -/
def readGraph (s : State) (ctx addr n : Nat) : GraphRead :=
  match readNodes s ctx addr n with
  | .ok s1 ns => if graphOk ns then .ok s1 (ns.map (fun m => if m.preds = 0 then { m with phase := .ready } else m)) else .refused
  | r => r

/-- The graph that nodes make, or the status of its refusal: a concurrent one whose core nodes could not all be resident, an
expired deadline. -/
def graphGrid (s : State) (ctx cls : Nat) (nodes : List Node) : Except Nat Grid :=
  let needs := (nodes.filter (fun n => n.kind == 0)).map (fun n => needOf n.kernel n.groups)
  if cls = 0 ∧ packs needs [] (allPlaces s ctx) = false then .error 4
  else if (ctxAt s ctx).expired then .error 1
  else .ok { ctx := ctx, kind := .graph, cls := cls, teams := nodes.length, nodes := byIndex nodes }

/-- TASKGRAPH: every node is read and checked, then the graph takes a place in the ready pool. -/
def execTaskgraph (h : CmdHeader) (nodes : W64) (nnode : W32) (cls : BitVec 2) (s : State) : Out :=
  ownCommand 0x02 h s (fun c q =>
    match readGraph s q.ctx nodes.toNat nnode.toNat with
    | .fault va lv hh => .fault .read va lv hh
    | .bad d => .bad d
    | .refused => .status s 6
    | .ok s1 ns =>
      match graphGrid s1 q.ctx cls.toNat ns with
      | .error n => .status s1 n
      | .ok g =>
        if poolFull s1 then .hold s1 .pool
        else
          let (uid, s2) := addWork s1 { g with origin := .command c.queue c.index h }
          .accepted (startDeadline s2 uid))

/-- What the records of a task word come to: for each requester a graph or a status, or a page the front end waits for. -/
inductive TaskRead where
  | ok (s : State) (gs : List (Nat × Except Nat Grid))
  | fault (va level : Nat) (h : Bool)

/-- The graphs of a task word's records: a TASKGRAPH command whose header is zero (15 R327). -/
def readTasks (s : State) (ctx : Nat) : List (Nat × List Byte) → TaskRead
  | [] => .ok s []
  | (l, bs) :: r =>
    let x := bytesToNat bs
    let rest (s : State) (g : Except Nat Grid) : TaskRead :=
      match readTasks s ctx r with
      | .ok s1 gs => .ok s1 ((l, g) :: gs)
      | f => f
    if !(zeroAt x 511 98) || bitsAt x 63 0 % 64 ≠ 0 || bitsAt x 95 64 = 0 || 65536 < bitsAt x 95 64 || bitsAt x 97 96 = 3 then rest s (.error 6)
    else
      match readGraph s ctx (bitsAt x 63 0) (bitsAt x 95 64) with
      | .fault va lv h => .fault va lv h
      | .bad _ => rest s (.error 6)
      | .refused => rest s (.error 6)
      | .ok s1 ns => rest s1 (graphGrid s1 ctx (bitsAt x 97 96) ns)

/-- task and task.one: one graph for each requester in ascending lane order; a page the front end cannot read holds the word. -/
def execTask (v : VIdx) (q : SIdx) (one : Bool) (s : State) : Out :=
  spawnWord (.task v q one) v q one s (fun x recs s1 =>
    match readTasks s1 x.t.ctx recs with
    | .fault va lv h =>
      if faultRoom s1 then
        modUnit (feFault s1 x.t.ctx .read va lv h) x.u (fun g => { g with held := some (.replay [(pageOf va, x.cl.mask, va)]) })
      else s1
    | .ok s2 gs =>
      modUnit (gs.foldl (fun s r =>
        child s x v.toNat (handleLanes x one r.1) .graph (if poolFull s then .error 6 else r.2)) s2) x.u advance)

/-! ## The depot (08 R216, R217) -/

/-- Bytes of a pool's node. -/
def nodeBytes (p : Pool) : Nat := 2 ^ p.log2

/-- The node a pool hands out next: the last freed, else the lowest never used. -/
def poolTake (p : Pool) : Option (Nat × Pool) :=
  match p.freed with
  | a :: r => some (a, { p with freed := r })
  | [] => if p.fresh < p.count then some (p.base + p.fresh * nodeBytes p, { p with fresh := p.fresh + 1 }) else none

/-- A pool assigned to the issuing context, or ACCESS_VIOLATION 6. -/
def withPool (s : State) (x : Ctx) (q : SIdx) (k : Nat → State) : State :=
  let n := (x.uni q).toNat % 256
  if (poolAt s n).ctx = some x.t.ctx then k n else trapAll s x .accessViolation 6 0

/-- What one lane receives of the depot. -/
def allocLane (x : Ctx) (v : Nat) (p : PIdx) (n : Nat) (s : State) (l : Nat) : State :=
  let give (a : Nat) (empty : Bool) (s : State) : State :=
    modUnit s x.u (fun g =>
      let g1 := writeV x.cond (writeV x.cond g l v (BitVec.ofNat 32 a)) l (v + 1) (BitVec.ofNat 32 (a / 2 ^ 32))
      modThr (writeP g1 l p empty) l (fun t => { t with lt := if empty then 1 else 0 }))
  match poolTake (poolAt s n) with
  | some (a, p1) => give a false (modPool s n (fun _ => p1))
  | none => give 0 true s

/-- dalloc: a node for each thread of the run in ascending lane order. -/
def execDalloc (v : VIdx) (q : SIdx) (p : PIdx) (s : State) : Out :=
  word (.dalloc v q p) s (fun x =>
    withPool s x q (fun n => modUnit (x.lanes.foldl (allocLane x v.toNat p n) s) x.u advance))

/-- Whether an address names an allocated node of a pool. -/
def allocated (p : Pool) (a : Nat) : Bool :=
  decide (p.base ≤ a) && (a - p.base) % nodeBytes p == 0 && decide ((a - p.base) / nodeBytes p < p.fresh) && !hasNat p.freed a

/-- The lanes whose address fails the depot's check, with the nodes lower lanes name counted as free. -/
def badFrees (p : Pool) : List (Nat × Nat) → List Nat
  | [] => []
  | (l, a) :: r =>
    if a = 0 then badFrees p r
    else if allocated p a then badFrees { p with freed := a :: p.freed } r
    else l :: badFrees p r

/-- dfree: every address is checked first; then a release step, and the nodes return in ascending lane order. -/
def execDfree (v : VIdx) (q : SIdx) (s : State) : Out :=
  word (.dfree v q) s (fun x =>
    withPool s x q (fun n =>
      let addr (l : Nat) : Nat := (x.main l (v.toNat + 1)).toNat * 2 ^ 32 + (x.main l v.toNat).toNat
      let as := x.lanes.map (fun l => (l, addr l))
      match badFrees (poolAt s n) as with
      | l :: r => trapWord s x .accessViolation 7 (laneMask (l :: r)) (BitVec.ofNat 64 (addr l))
      | [] =>
        if !quiet s x.u then s
        else
          let s1 := releaseStep s x.t.core
          modUnit (modPool s1 n (fun p => { p with freed := (as.map (·.2)).foldl (fun f a => if a = 0 then f else a :: f) p.freed })) x.u advance))

/-- POOL_ASSIGN: an unassigned pool is given to an ACTIVE context (08 R216, 15 R327). -/
def execPoolAssign (h : CmdHeader) (base : W64) (pool : Byte) (ctx : BitVec 6) (log2 : BitVec 4) (count : BitVec 16) (s : State) : Out :=
  adminCommand 0x19 h s (fun c q =>
    if base.toNat % 2 ^ log2.toNat ≠ 0 then .status s 16
    else if (ctxAt s ctx.toNat).phase ≠ .active then .status s 18
    else if (poolAt s pool.toNat).ctx.isSome then .status s 6
    else .status (modPool s pool.toNat (fun _ => { ctx := some ctx.toNat, base := base.toNat, log2 := log2.toNat, count := count.toNat })) 0)

/-! ## Choice of a core (15 R336) -/

/-- A core's score. -/
def scoreOf (s : State) (c : Nat) : Nat := (coreAt s c).scoreT + (coreAt s c).scoreV

/-- The candidates of a cluster from its round-robin position on; in lockstep the even core of each pair. -/
def candidates (s : State) (ctx cluster : Nat) : List Nat :=
  let cs := (List.range (s.policy.placeDepth + 1)).map (fun i => cluster * 8 + ((clusterAt s cluster).rho + i) % 8)
  if lockstep s ctx then cs.map (fun c => c / 2 * 2) else cs

/-- The fitting candidate of the lowest score, the nearest on a tie. -/
def chooseCore (s : State) (ctx cluster : Nat) (fits : Nat → Bool) : Option Nat :=
  argMin (scoreOf s) ((candidates s ctx cluster).filter fits)

/-- A placement in a cluster advances its position. -/
def advanceRho (s : State) (cluster : Nat) : State := modCluster s cluster (fun k => { k with rho := (k.rho + 1) % 8 })

/-- Whether a core's copy engine takes one more job of a context. -/
def copyFits (s : State) (ctx c : Nat) : Bool :=
  inMask s ctx (clusterOf c) && !(clusterAt s (clusterOf c)).gated && !(coreAt s c).retired && copyRoom s c

/-- COPY: the copy engine of the core that an untiled placement names (15 R328, R335). -/
def execCopyCommand (h : CmdHeader) (addr : W64) (s : State) : Out :=
  ownCommand 0x08 h s (fun c q =>
    match copySpec s q.ctx addr.toNat with
    | .fault va lv hh => .fault .read va lv hh
    | .bad d => .bad d
    | .refused => .status s 6
    | .ok s1 b st =>
      let home := maskedHome s1 q.ctx (nextUntiled s1 q.ctx)
      if (clusterAt s1 home).gated then .hold (ungate s1 home) .ended
      else
        match argMin (scoreOf s1) (((List.range (s1.policy.placeDepth + 1)).map (fun i => home * 8 + ((clusterAt s1 home).rho + i) % 8)).filter (copyFits s1 q.ctx)) with
        | none => .hold s1 .engine
        | some core =>
          let (id, s2) := fresh s1
          let (s3, _) := acceptCopy s2 core { copyJob id b st with owner := .command c.queue c.index h, ctx := q.ctx }
          .accepted (advanceRho (modCtx s3 q.ctx (fun c => { c with lastUntiled := home })) home))

end Sys2Proof.Machine
end

