-- ==== Sys2Proof/Machine/Geometry.lean ====
section
/-! DEFINITION. The geometry engine: geo, octrees and exact queries (09 R248, R249, 10 R260-R267), and the accesses that the
geometry and articulation engines share. -/

set_option linter.unusedVariables false

namespace Sys2Proof.Machine

/-! ## Accesses of cluster engines (05 R114, R115, 17 R376) -/

/-- What an engine's access to global memory meets. -/
inductive EngRead where
  | ok (s : State) (bytes : List Byte)
  | wait
  | fault (va level : Nat) (h : Bool)
  | bad (c : Cause) (sub : Nat) (addr : W64)

/-- Home values of consecutive bytes, line by line; a line another operation owns is waited for. -/
def engRead (s : State) (ag : Option Nat) (ctx op : Nat) : List (Nat × Nat) → EngRead
  | [] => .ok s []
  | (va, n) :: r =>
    let line : W64 := BitVec.ofNat 64 (va / 64 * 64)
    if Config.globalLimit < va + n then .bad .accessViolation 1 line
    else
      match translate s ag ctx va .read with
      | (.violation k, _) => .bad .accessViolation k line
      | (.fault lv h, _) => .fault va lv h
      | (.ok pa, s1) =>
        if inPeer pa then .bad .accessViolation 1 line
        else if hasNat s1.badLines (lineOf pa) then .bad .eccUncorrectable 0 line
        else if ownedByOther s1 op ctx (.phys pa) va then .wait
        else
          match engRead s1 ag ctx op r with
          | .ok s2 bs => .ok s2 (memReadN s1.mem pa n ++ bs)
          | x => x

/-- The pieces of a range within lines. -/
def pieces (va n : Nat) : List (Nat × Nat) := lineChunks va n (n + 1)

/-- Ownership of destination pieces (05 R115), one whose page is not present by its virtual address; each page that faults is recorded
once and waited for, by its first address. -/
def ownRange (s : State) (core ctx op agent : Nat) (ps : List (Nat × Nat)) : State × List Nat :=
  ps.foldl (fun (acc : State × List Nat) p =>
    match translate acc.1 (some (engineAgent (clusterOf core))) ctx p.1 .write with
    | (.ok pa, s1) => (takeLines op s1 [.phys (lineOf pa)], acc.2)
    | (.fault lv h, _) =>
      let s1 := takeLines op acc.1 [.virt ctx (p.1 / 64)]
      if acc.2.any (fun v => pageOf v == pageOf p.1) ∨ !faultRoom s1 then (s1, acc.2)
      else (engFault s1 ctx core agent .write p.1 lv h, acc.2 ++ [p.1])
    | _ => acc) (settleOwned s, [])

/-- What an engine's writes come to: every place is found before any is written. -/
inductive EngWrite where
  | ok (s : State) (ws : Writes)
  | wait
  | fault (va level : Nat) (h : Bool)
  | bad (c : Cause) (sub : Nat) (addr : W64)

/-- The physical places of an engine's writes, each on a line of which the operation is the first owner. -/
def engPlaces (s : State) (ag : Option Nat) (ctx op : Nat) : List (Nat × List Byte) → EngWrite
  | [] => .ok s []
  | (va, bs) :: r =>
    let line : W64 := BitVec.ofNat 64 (va / 64 * 64)
    if Config.globalLimit < va + bs.length then .bad .accessViolation 1 line
    else
      match translate s ag ctx va .write with
      | (.violation k, _) => .bad .accessViolation k line
      | (.fault lv h, _) => .fault va lv h
      | (.ok pa, s1) =>
        if inPeer pa then .bad .accessViolation 1 line
        else if !mayWrite s1 op ctx (.phys pa) va then .wait
        else
          match engPlaces s1 ag ctx op r with
          | .ok s2 ws => .ok s2 (writesOf pa bs ++ ws)
          | x => x

/-- The pieces of a range with their bytes. -/
def dataPieces (va : Nat) (bs : List Byte) : List (Nat × List Byte) :=
  (pieces va bs.length).map (fun p => (p.1, (bs.drop (p.1 - va)).take p.2))

/-! ## Exact numbers -/

/-- A binary32 value times 2^170, exactly. -/
def fixed170 (x : W32) : Int :=
  match fv x with
  | .fin neg m e => signedM neg (m * 2 ^ (e + 170).toNat)
  | _ => 0

/-- Whether a binary32 value is finite. -/
def finite32 (x : W32) : Bool := (x >>> 23) &&& 0xFF != 0xFF

/-- The number (p - sqrt d) / q with q above 0. -/
structure Surd where
  p : Int
  d : Nat
  q : Nat
deriving DecidableEq, Repr

/-- The rational n / m. -/
def ratSurd (n : Int) (m : Nat) : Surd := { p := n, d := 0, q := m }

/-- The sign of an integer. -/
def sgn (a : Int) : Int := if a < 0 then -1 else if a = 0 then 0 else 1

/-- The sign of a + b * sqrt w. -/
def signLin (a b : Int) (w : Nat) : Int :=
  let sa := sgn a
  let sb := if w = 0 then 0 else sgn b
  if sa = 0 then sb
  else if sb = 0 ∨ sa = sb then sa
  else if a * a = b * b * w then 0
  else if b * b * w < a * a then sa else sb

/-- The sign of x - y. -/
def cmpSurd (x y : Surd) : Int :=
  let u : Int := y.q * x.p - x.q * y.p
  let v : Nat := y.q * y.q * x.d
  let w : Nat := x.q * x.q * y.d
  let s := signLin u 1 w
  if s < 0 then -1
  else if s = 0 then (if v = 0 then 0 else -1)
  else signLin (u * u + w - v) (2 * u) w

/-- The largest binary32 number of a range of codes that is at most t: T of 10 R263, rounded toward minus infinity. -/
def floorT (t : Surd) : Nat → Nat → Nat → Nat
  | 0, lo, _ => lo
  | n + 1, lo, hi =>
    if hi ≤ lo + 1 then lo
    else
      let mid := (lo + hi) / 2
      let x : Surd := match ieeeVal f32 mid with
        | .fin _ m e => if 0 ≤ e then ratSurd (m * 2 ^ e.toNat) 1 else ratSurd m (2 ^ (-e).toNat)
        | _ => ratSurd 0 1
      if cmpSurd x t ≤ 0 then floorT t n mid hi else floorT t n lo mid

/-! ## Where a moving ball first meets a box -/

/-- One axis: start, direction, the box's bounds. -/
structure Axis where
  p : Int
  d : Int
  lo : Int
  hi : Int
deriving DecidableEq, Repr

/-- The parameters in (0, 1) at which an axis crosses its bounds, as fractions. -/
def crossings (a : Axis) : List (Int × Nat) :=
  let at_ (x : Int) : List (Int × Nat) :=
    let n := if a.d < 0 then a.p - x else x - a.p
    let m := a.d.natAbs
    if 0 < n ∧ n < m then [(n, m)] else []
  if a.d = 0 then [] else at_ a.lo ++ at_ a.hi

/-- Coefficients A, B, C of A t^2 + 2 B t + C. -/
structure Quad where
  a : Int
  b : Int
  c : Int
deriving DecidableEq, Repr

/-- The squared distance of an axis to its bounds around a parameter n / m. -/
def axisQuad (x : Axis) (n : Int) (m : Nat) : Quad :=
  let at_ := x.p * m + x.d * n
  if at_ < x.lo * m then ⟨x.d * x.d, -(x.lo - x.p) * x.d, (x.lo - x.p) * (x.lo - x.p)⟩
  else if x.hi * m < at_ then ⟨x.d * x.d, (x.p - x.hi) * x.d, (x.p - x.hi) * (x.p - x.hi)⟩
  else ⟨0, 0, 0⟩

/-- The sign of a quadratic at n / m. -/
def quadSign (f : Quad) (n : Int) (m : Nat) : Int := sgn (f.a * n * n + 2 * f.b * n * m + f.c * m * m)

/-- The least parameter of [n1/m1, n2/m2] at which a convex quadratic is at most 0. -/
def leastRoot (f : Quad) (n1 : Int) (m1 : Nat) (n2 : Int) (m2 : Nat) : Option Surd :=
  let disc := f.b * f.b - f.a * f.c
  if quadSign f n1 m1 ≤ 0 then some (ratSurd n1 m1)
  else if f.a ≤ 0 ∨ disc < 0 then none
  else if quadSign f n2 m2 ≤ 0 ∨ (n1 * f.a < -f.b * m1 ∧ -f.b * m2 < n2 * f.a) then
    some { p := -f.b, d := disc.toNat, q := f.a.toNat }
  else none

/-- The first of consecutive intervals in which the distance is at most the radius. -/
def firstMeet (as : List Axis) (r2 : Int) : List (Int × Nat) → Option Surd
  | (n1, m1) :: (n2, m2) :: r =>
    let qs := as.map (fun a => axisQuad a (n1 * m2 + n2 * m1) (2 * m1 * m2))
    let f : Quad := qs.foldl (fun f q => ⟨f.a + q.a, f.b + q.b, f.c + q.c⟩) ⟨0, 0, -r2⟩
    match leastRoot f n1 m1 n2 m2 with
    | some t => some t
    | none => firstMeet as r2 ((n2, m2) :: r)
  | _ => none

/-- The least t in [0, 1] at which the ball of radius r about p + t d meets a closed box. -/
def meetBox (as : List Axis) (r : Int) : Option Surd :=
  let cuts := sortBy (fun (x y : Int × Nat) => decide (x.1 * y.2 ≤ y.1 * x.2)) (as.flatMap crossings)
  firstMeet as (r * r) ((0, 1) :: cuts ++ [(1, 1)])

/-- The least t in [0, 1] at which p + t d is at most a bound. -/
def meetBelow (p d bound : Int) : Option Surd :=
  if p ≤ bound then some (ratSurd 0 1)
  else if d < 0 ∧ p - bound ≤ -d then some (ratSurd (p - bound) d.natAbs)
  else none

/-- The lesser of two hit parameters. -/
def minSurd (a b : Option Surd) : Option Surd :=
  match a, b with
  | some x, some y => if cmpSurd y x < 0 then some y else some x
  | some x, none => some x
  | none, y => y

/-- The least t at which the ball meets the closed outside region of the root cube (10 R263). -/
def meetOutside (as : List Axis) (r : Int) : Option Surd :=
  as.foldl (fun t a => minSurd t (minSurd (meetBelow a.p a.d (a.lo + r)) (meetBelow (-a.p) (-a.d) (r - a.hi)))) none

/-! ## Octrees (10 R260-R265) -/

/-- An octree root record. -/
structure OctRoot where
  ncount : Nat
  edge : Int
  origin : List Int
  depth : Nat
  nodes : Nat
deriving DecidableEq, Repr

/-- A root record, none where it is refused (10 R260, R267). -/
def parseRoot (bs : List Byte) : Option OctRoot :=
  let x := recBits bs
  let w (hi lo : Nat) : W32 := BitVec.ofNat 32 (bitsAt x hi lo)
  let edge := w 191 160
  let normal := edge.toNat / 2 ^ 31 == 0 && (edge >>> 23) &&& 0xFF != 0 && finite32 edge
  if zeroAt x 511 224 && zeroAt x 63 53 && decide (1 ≤ bitsAt x 223 192) && decide (bitsAt x 223 192 ≤ 0x10000000) && normal &&
      finite32 (w 159 128) && finite32 (w 127 96) && finite32 (w 95 64) && decide (1 ≤ bitsAt x 52 48) && decide (bitsAt x 52 48 ≤ 16) &&
      bitsAt x 47 0 % 64 == 0 then
    some { ncount := bitsAt x 223 192, edge := fixed170 edge, origin := [fixed170 (w 95 64), fixed170 (w 127 96), fixed170 (w 159 128)],
           depth := bitsAt x 52 48, nodes := bitsAt x 47 0 }
  else none

/-- The state of a child of a node: 0 free, 1 occupied, 2 unknown, 3 subdivided. -/
def childState (node c : Nat) : Nat := bitsAt node (2 * c + 1) (2 * c)

/-- The node index of a subdivided child: FIRST plus the subdivided children before it (10 R261). -/
def childNode (node c : Nat) : Nat :=
  bitsAt node 63 32 + ((List.range c).filter (fun k => childState node k == 3)).length

/-- Whether a visited node is malformed (10 R267). -/
def nodeBad (t : OctRoot) (level node : Nat) : Bool :=
  let subs := (List.range 8).filter (fun c => childState node c == 3)
  !(zeroAt node 127 64 && zeroAt node 31 16) || subs.any (fun c => decide (t.ncount ≤ childNode node c)) ||
  (decide (t.depth ≤ level + 1) && decide (subs ≠ []))

/-- The lowest corner of a child cube (10 R262). -/
def childCorner (lo : List Int) (half : Int) (c : Nat) : List Int :=
  (List.range 3).map (fun i => lo.getD i 0 + (if c.testBit i then half else 0))

/-- A reported cell: its parameter, result code, node, level and child. -/
structure Hit where
  t : Surd
  code : Nat
  node : Nat
  level : Nat
  oct : Nat
deriving DecidableEq, Repr

/-- What a traversal has come to. -/
inductive Visit where
  | ok (s : State) (best : Option Hit)
  | stop (r : EngRead)
  | refused

/-- The better of two hits, the earlier in depth-first order first: the lesser parameter, then an occupied cell (10 R264). -/
def betterHit (best : Option Hit) (h : Hit) : Option Hit :=
  match best with
  | none => some h
  | some b =>
    let c := cmpSurd h.t b.t
    if c < 0 ∨ (c = 0 ∧ h.code = 1 ∧ b.code ≠ 1) then some h else some b

/-- A query in exact numbers. -/
structure Query where
  p : List Int
  d : List Int
  r : Int
deriving DecidableEq, Repr

/-- The axes of a query against a cube. -/
def cubeAxes (q : Query) (lo : List Int) (edge : Int) : List Axis :=
  (List.range 3).map (fun i => ⟨q.p.getD i 0, q.d.getD i 0, lo.getD i 0, lo.getD i 0 + edge⟩)

/-- One node read as a 16-byte access. -/
def readOctNode (s : State) (ag : Option Nat) (ctx op : Nat) (t : OctRoot) (i : Nat) : EngRead := engRead s ag ctx op [(t.nodes + 16 * i, 16)]

/-- The leaf cells below a node that a query of type 1 to 3 meets, the best kept; every node whose closed cube is met is visited. -/
def visitNode (ag : Option Nat) (ctx op : Nat) (t : OctRoot) (q : Query) : Nat → Nat → Nat → List Int → Int → Visit → Visit
  | 0, _, _, _, _, v => v
  | fuel + 1, i, level, lo, edge, .ok s best =>
    match readOctNode s ag ctx op t i with
    | .ok s1 bs =>
      let node := recBits bs
      if nodeBad t level node then .refused
      else
        (List.range 8).foldl (fun v c =>
          let corner := childCorner lo (edge / 2) c
          match v, meetBox (cubeAxes q corner (edge / 2)) q.r with
          | .ok s best, some h =>
            if childState node c = 3 then visitNode ag ctx op t q fuel (childNode node c) (level + 1) corner (edge / 2) (.ok s best)
            else if childState node c = 0 then .ok s best
            else .ok s (betterHit best { t := h, code := childState node c, node := i, level := level + 1, oct := c })
          | v, _ => v) (.ok s1 best)
    | r => .stop r
  | _, _, _, _, _, v => v

/-- The leaf cell of a point within the half-open root cube (10 R263 type 0). -/
def visitPoint (ag : Option Nat) (ctx op : Nat) (t : OctRoot) (q : Query) : Nat → Nat → Nat → List Int → Int → State → Visit
  | 0, _, _, _, _, s => .ok s none
  | fuel + 1, i, level, lo, edge, s =>
    match readOctNode s ag ctx op t i with
    | .ok s1 bs =>
      let node := recBits bs
      let half := edge / 2
      let c := (List.range 3).foldl (fun n k => if lo.getD k 0 + half ≤ q.p.getD k 0 then n + 2 ^ k else n) 0
      if nodeBad t level node then .refused
      else if childState node c = 3 then visitPoint ag ctx op t q fuel (childNode node c) (level + 1) (childCorner lo half c) half s1
      else .ok s1 (some { t := ratSurd 0 1, code := childState node c, node := i, level := level + 1, oct := c })
    | r => .stop r

/-- The outside region as a hit. -/
def outsideHit (t : Surd) : Hit := { t := t, code := 2, node := 0xFFFFFFFF, level := 0, oct := 0 }

/-- The 16 bytes of a result (10 R265). -/
def resultBytes (code oct level : Nat) (t : Nat) (node : Nat) (tag : W32) : List Byte :=
  natToBytes 4 (code + oct * 2 ^ 8 + level * 2 ^ 16) ++ natToBytes 4 t ++ natToBytes 4 node ++ natToBytes 4 tag.toNat

/-- Whether a query is INVALID (10 R266). -/
def queryBad (qtype : Nat) (g : GeoQuery) : Bool :=
  (g.p0 ++ g.p1).any (fun x => !finite32 x) ||
  (decide (2 ≤ qtype) && (!finite32 g.r || (g.r.getLsbD 31 && decide (g.r &&& 0x7FFFFFFF ≠ 0))))

/-- A query's result: the traversal's cell, or what the job comes to instead. -/
def runQuery (s : State) (ag : Option Nat) (ctx op : Nat) (t : OctRoot) (qtype : Nat) (g : GeoQuery) : EngRead ⊕ Option (State × List Byte) :=
  if queryBad qtype g then .inr (some (s, resultBytes 3 0 0 0 0xFFFFFFFF g.tag))
  else
    let p := g.p0.map fixed170
    let d := if qtype = 1 ∨ qtype = 3 then (List.range 3).map (fun i => fixed170 (g.p1.getD i 0) - p.getD i 0) else [0, 0, 0]
    let q : Query := { p := p, d := d, r := if 2 ≤ qtype then fixed170 g.r else 0 }
    let root := cubeAxes q t.origin t.edge
    let v : Visit :=
      if qtype = 0 then
        (if root.all (fun a => decide (a.lo ≤ a.p) && decide (a.p < a.hi)) then visitPoint ag ctx op t q t.depth 0 0 t.origin t.edge s
         else .ok s (some (outsideHit (ratSurd 0 1))))
      else
        (let v := match meetBox root q.r with
          | some _ => visitNode ag ctx op t q t.depth 0 0 t.origin t.edge (.ok s none)
          | none => .ok s none
         match v, meetOutside root q.r with
         | .ok s1 best, some o => .ok s1 (betterHit best (outsideHit o))
         | v, _ => v)
    match v with
    | .stop r => .inl r
    | .refused => .inr none
    | .ok s1 none =>
      .inr (some (s1, resultBytes 0 0 0 (if qtype = 1 ∨ qtype = 3 then 0x3F800000 else 0) 0xFFFFFFFF g.tag))
    | .ok s1 (some h) =>
      let tb := if qtype = 1 ∨ qtype = 3 then floorT h.t 40 0 0x3F800001 else 0
      .inr (some (s1, resultBytes h.code h.oct h.level tb h.node g.tag))

/-- The results of every query of a job, or the first error in ascending lane (log 47). -/
def runQueries (s : State) (cluster : Nat) (j : GeoJob) (t : OctRoot) : List GeoQuery → EngRead ⊕ Option (State × List (Nat × List Byte))
  | [] => .inr (some (s, []))
  | g :: r =>
    match runQuery s (some (engineAgent cluster)) j.ctx j.id t j.qtype g with
    | .inl e => .inl e
    | .inr none => .inr none
    | .inr (some (s1, bs)) =>
      match runQueries s1 cluster j t r with
      | .inr (some (s2, ws)) => .inr (some (s2, (j.res.toNat + 16 * g.lane, bs) :: ws))
      | x => x

/-! ## geo (09 R248, R249) -/

/-- The first core of a cluster, which its fault records name (17 R372). -/
def firstCore (cluster : Nat) : Nat := cluster * Config.coresPerCluster

/-- The result pieces of a geometry job: only participants' lines. -/
def geoPieces (j : GeoJob) : List (Nat × Nat) := j.queries.map (fun g => (j.res.toNat + 16 * g.lane, 16))

/-- geo: one job of a query for each thread of the run, accepted by its cluster's engine; of its block's address fields the octree's is
judged before the results' (log 47). -/
def execGeo (v : VIdx) (q : SIdx) (h : VIdx) (s : State) : Out :=
  word (.geo v q h) s (fun x =>
    withSlot s x (fun slot =>
      let off : W64 := (x.uni q).setWidth 64
      readRec s x .spad off (fun bs s1 =>
        let b := recBits bs
        let oct : W64 := BitVec.ofNat 64 (bitsAt b 63 0)
        let res : W64 := BitVec.ofNat 64 (bitsAt b 127 64)
        let cluster := clusterOf x.t.core
        checkRecs s1 x [(if zeroAt b 511 131 && decide (bitsAt b 130 128 ≤ 3) then none else some 1, off.toNat)]
          [(oct, .global 64), (res, .global 64)]
          (if !quiet s1 x.u || decide (Config.engineEntries ≤ (clusterAt s1 cluster).geo.length) then s1
           else
             let (id, s2) := fresh (releaseStep s1 x.t.core)
             let reg (l i : Nat) : W32 := x.main l (v.toNat + i)
             let job : GeoJob := {
               id := id, owner := .future x.u slot, ctx := x.t.ctx, grid := some x.t.grid, octRoot := oct, res := res, qtype := bitsAt b 130 128,
               queries := x.lanes.map (fun l => ⟨l, [reg l 0, reg l 1, reg l 2], [reg l 3, reg l 4, reg l 5], reg l 6, reg l 7⟩) }
             let (s3, pages) := ownRange s2 (firstCore cluster) x.t.ctx id agentGeo (geoPieces job)
             let s4 := modCluster s3 cluster (fun k => { k with geo := k.geo ++ [{ job with pages := pages }] })
             let g1 := writeHandle { x with g := unitAt s4 x.u } (unitAt s4 x.u) h.toNat slot
             engineAdd (setUnit s4 x.u (advance (takeSlot g1 slot .geometry id))) x.u.team))))

/-! ## The job (10 R267) -/

/-- A job leaves the geometry engine with an ERR. -/
def geoEnds (s : State) (cluster : Nat) (j : GeoJob) (err : Nat) (addr : W64) (sub : Nat) : State :=
  let s1 := dropOp s j.id
  let s2 := modCluster s1 cluster (fun k => { k with geo := k.geo.filter (fun y => y.id != j.id) })
  ownerEnd (ownerDone (dropLines j.id s2) j.owner err 0 addr sub) j.owner

/-- A geometry job changed. -/
def modGeo (s : State) (cluster id : Nat) (f : GeoJob → GeoJob) : State :=
  modCluster s cluster (fun k => { k with geo := k.geo.map (fun y => if y.id = id then f y else y) })

/-- What an access of a geometry job that was not performed comes to. -/
def geoStops (s : State) (cluster : Nat) (j : GeoJob) (kind : AccKind) : EngRead → State
  | .fault va lv h =>
    if faultRoom s then
      modGeo (engFault s j.ctx (firstCore cluster) agentGeo kind va lv h) cluster j.id (fun y => { y with pages := y.pages ++ [va] })
    else s
  | .bad c sub a => geoEnds s cluster j (causeErr c) a sub
  | _ => s

/-- Whether an engine's first job may act: it waits for no page, the device is not frozen, and the clause of a lockstep team that issued it
has compared equal (17 R384, R386). -/
def engineFree (s : State) (owner : JobOwner) (id : Nat) (pages : List Nat) : Bool :=
  !s.supervisor.freeze && pages.isEmpty && !unreleasedJob s owner id

/-- A started job reads its root record (10 R267). -/
def geoReads (s : State) (cluster : Nat) (j : GeoJob) : State :=
  match engRead s (some (engineAgent cluster)) j.ctx j.id (pieces j.octRoot.toNat 64) with
  | .ok s1 bs =>
    match parseRoot bs with
    | none => geoEnds s1 cluster j 10 0 0
    | some _ => modGeo s1 cluster j.id (fun y => { y with root := bs })
  | r => geoStops s cluster j .read r

/-- The start of a job: its result lines are owned, or it waits for their pages, and its root record is read. -/
def geoBegins (s : State) (cluster : Nat) (j : GeoJob) : State :=
  let (s1, pages) := ownRange s (firstCore cluster) j.ctx j.id agentGeo (geoPieces j)
  if pages ≠ [] then modGeo s1 cluster j.id (fun y => { y with pages := pages })
  else geoReads (modGeo s1 cluster j.id (fun y => { y with started := true })) cluster { j with started := true }

/-- GEO_JOB_START: the first job starts once its fares are granted, and reads its root record; a page fault of that read delays it. -/
def execGeoJobStart (cluster : Nat) (s : State) : Out :=
  match (clusterAt s cluster).geo with
  | [] => .next s
  | j :: _ =>
    if j.root ≠ [] then .next s
    else if !j.started && jobCancelled s j.grid then .next (geoEnds s cluster j 1 0 0)
    else if !engineFree s j.owner j.id j.pages then .next s
    else if j.started then .next (geoReads s cluster j)
    else if !paid s [firstCore cluster] j.id then .next (askPaid s [firstCore cluster] j.id 6 j.ctx true)
    else .next (crossOr s (.job j.id) (geoBegins s cluster j))

/-- GEO_JOB_COMPLETE: the traversal, then every participant's result at once. -/
def execGeoJobComplete (cluster : Nat) (s : State) : Out :=
  match (clusterAt s cluster).geo with
  | [] => .next s
  | j :: _ =>
    if !j.started || j.root = [] || s.supervisor.freeze || j.pages ≠ [] then .next s
    else
      match parseRoot j.root with
      | none => .next (geoEnds s cluster j 10 0 0)
      | some t =>
        match runQueries s cluster j t j.queries with
        | .inl r => .next (geoStops s cluster j .read r)
        | .inr none => .next (geoEnds s cluster j 10 0 0)
        | .inr (some (s1, ws)) =>
          match engPlaces s1 (some (engineAgent cluster)) j.ctx j.id ws with
          | .ok s2 bs => .next (geoEnds (engineWrite s2 bs) cluster j 0 0 0)
          | .wait => .next s
          | .fault va lv h => .next (geoStops s1 cluster j .write (.fault va lv h))
          | .bad c sub a => .next (geoEnds s1 cluster j (causeErr c) a sub)

end Sys2Proof.Machine
end

