-- ==== Sys2Proof/Machine/Articulation.lean ====
section
/-! DEFINITION. The articulation engine: art, articulated-body models and solvers in rounded binary32 (09 R248, R250,
10 R268-R278). -/

set_option linter.unusedVariables false

namespace Sys2Proof.Machine

/-! ## Rounded arithmetic (10 R272, R276) -/

/-- What a solver records beside its values: an overflow, and the index of the first zero pivot. -/
structure CalcLog where
  overflow : Bool := false
  singular : Option Nat := none
deriving DecidableEq, Repr

/-- A value computed with rounded operations, each in its turn. -/
abbrev Calc (α : Type) := StateM CalcLog α

/-- A rounded result; a finite pair that gives an infinity is an overflow. -/
def rounded (a b : W32) (r : Nat) : Calc W32 := do
  modify (fun l => if finite32 a && finite32 b && r % 2 ^ 31 == f32.infCode false then { l with overflow := true } else l)
  pure (BitVec.ofNat 32 r)

/-- A sum. -/
def cadd (a b : W32) : Calc W32 := rounded a b (addIn f32 {} a.toNat b.toNat).1
/-- A difference. -/
def csub (a b : W32) : Calc W32 := rounded a b (subIn f32 {} a.toNat b.toNat).1
/-- A product. -/
def cmul (a b : W32) : Calc W32 := rounded a b (mulIn f32 {} a.toNat b.toNat).1

/-- The exact quotient of two values, sticky below 80 bits. -/
def quotient : FVal → FVal → FVal
  | .nan _, _ => .nan false
  | _, .nan _ => .nan false
  | .inf a, .inf b => .nan false
  | .inf a, .fin n _ _ => .inf (a != n)
  | .fin n _ _, .inf b => .fin (n != b) 0 0
  | .fin n1 m1 e1, .fin n2 m2 e2 =>
    if m2 = 0 then (if m1 = 0 then .nan false else .inf (n1 != n2))
    else if m1 = 0 then .fin (n1 != n2) 0 0
    else divExact (n1 != n2) m1 e1 m2 e2

/-- A quotient. -/
def cdiv (a b : W32) : Calc W32 := rounded a b (ieeeRound f32 .rne (quotient (fv a) (fv b))).1

/-- The number 1. -/
def oneW : W32 := 0x3F800000
/-- A value negated. -/
def negW (a : W32) : W32 := a ^^^ 0x80000000

/-! ## Vectors and matrices -/

/-- A vector. -/
abbrev Vec := List W32
/-- A matrix by rows, with its number of columns. -/
structure Mat where
  cols : Nat
  rows : List Vec
deriving DecidableEq, Repr

/-- Elements of two vectors combined. -/
def czip (f : W32 → W32 → Calc W32) (a b : Vec) : Calc Vec := (a.zip b).mapM (fun p => f p.1 p.2)

/-- The sum of products in ascending order from the first; +0 when there is none. -/
def cdot (a b : Vec) : Calc W32 := do
  match ← czip cmul a b with
  | [] => pure 0
  | p :: r => r.foldlM cadd p

/-- A sum of vectors. -/
def vadd (a b : Vec) : Calc Vec := czip cadd a b
/-- A difference of vectors. -/
def vsub (a b : Vec) : Calc Vec := czip csub a b
/-- A vector times a number on its left. -/
def vscale (k : W32) (a : Vec) : Calc Vec := a.mapM (cmul k)

/-- A transpose. -/
def Mat.t (m : Mat) : Mat := { cols := m.rows.length, rows := (List.range m.cols).map (fun j => m.rows.map (fun r => r.getD j 0)) }

/-- A product of matrices. -/
def mmul (a b : Mat) : Calc Mat := do pure ⟨b.cols, ← a.rows.mapM (fun r => b.t.rows.mapM (cdot r))⟩

/-- A matrix applied to a vector. -/
def mvec (a : Mat) (v : Vec) : Calc Vec := a.rows.mapM (fun r => cdot r v)

/-- A sum of matrices. -/
def madd (a b : Mat) : Calc Mat := do pure ⟨a.cols, ← (a.rows.zip b.rows).mapM (fun p => vadd p.1 p.2)⟩
/-- A difference of matrices. -/
def msub (a b : Mat) : Calc Mat := do pure ⟨a.cols, ← (a.rows.zip b.rows).mapM (fun p => vsub p.1 p.2)⟩
/-- A matrix times a number on its left. -/
def mscale (k : W32) (a : Mat) : Calc Mat := do pure ⟨a.cols, ← a.rows.mapM (vscale k)⟩
/-- A matrix negated. -/
def Mat.neg (a : Mat) : Mat := { a with rows := a.rows.map (fun r => r.map negW) }

/-- A unit matrix. -/
def unitMat (n : Nat) : Mat := ⟨n, (List.range n).map (fun i => (List.range n).map (fun j => if i = j then oneW else 0))⟩
/-- A matrix of zeros. -/
def zeroMat (r c : Nat) : Mat := ⟨c, List.replicate r (List.replicate c 0)⟩

/-- The cross-product matrix of a vector (10 R273). -/
def crossMat (a : Vec) : Mat :=
  let x := a.getD 0 0
  let y := a.getD 1 0
  let z := a.getD 2 0
  ⟨3, [[0, negW z, y], [z, 0, negW x], [negW y, x, 0]]⟩

/-- Four 3 by 3 blocks as one 6 by 6 matrix. -/
def blocks (a b c d : Mat) : Mat := ⟨6, (a.rows.zip b.rows).map (fun p => p.1 ++ p.2) ++ (c.rows.zip d.rows).map (fun p => p.1 ++ p.2)⟩

/-- The spatial motion cross product of a vector (w, v). -/
def motionCross (v : Vec) : Mat := blocks (crossMat (v.take 3)) (zeroMat 3 3) (crossMat (v.drop 3)) (crossMat (v.take 3))
/-- The spatial force cross product of a vector (w, v). -/
def forceCross (v : Vec) : Mat := blocks (crossMat (v.take 3)) (crossMat (v.drop 3)) (zeroMat 3 3) (crossMat (v.take 3))

/-- A cross product of two vectors. -/
def ccross (a b : Vec) : Calc Vec :=
  [0, 1, 2].mapM (fun i => do
    let g (v : Vec) (k : Nat) : W32 := v.getD ((i + k) % 3) 0
    csub (← cmul (g a 1) (g b 2)) (← cmul (g a 2) (g b 1)))

/-! ## Models (10 R268-R271) -/

/-- A joint entry; the parent of the base's joint is 0xFF. -/
structure Joint where
  parent : Nat
  type : Nat
  axis : Vec
  rot : Mat
  pos : Vec
  mass : W32
  com : Vec
  iner : Vec
deriving DecidableEq, Repr

/-- A model. -/
structure Model where
  tipj : Nat
  tip : Vec
  grav : Vec
  joints : List Joint
deriving DecidableEq, Repr

/-- Velocity entries of a joint type. -/
def velCount (t : Nat) : Nat := if t = 3 then 6 else if t = 2 then 0 else 1
/-- Position entries of a joint type. -/
def posCount (t : Nat) : Nat := if t = 3 then 7 else if t = 2 then 0 else 1

/-- Words lo to lo + n - 1 of a record. -/
def wordsAt (x lo n : Nat) : Vec := (List.range n).map (fun i => BitVec.ofNat 32 (bitsAt x (32 * (lo + i) + 31) (32 * (lo + i))))

/-- The joint count of a header that is in range. -/
def headerOk (x : Nat) : Option Nat :=
  let nj := bitsAt x 6 0
  if zeroAt x 511 256 && zeroAt x 63 22 && zeroAt x 15 7 && decide (1 ≤ nj) && decide (nj ≤ 64) && decide (bitsAt x 21 16 < nj) &&
      (wordsAt x 2 6).all finite32 then some nj
  else none

/-- Whether word 0 of joint j is in range. -/
def word0Ok (j w : Nat) : Bool :=
  bitsAt w 31 10 == 0 && (if j = 0 then bitsAt w 7 0 == 255 else decide (bitsAt w 7 0 < j) && bitsAt w 9 8 != 3)

/-- A joint entry, none where it is refused. -/
def parseJoint (j : Nat) (bs : List Byte) : Option Joint :=
  let x := recBits bs
  let mass := (wordsAt x 16 1).getD 0 0
  if word0Ok j (bitsAt x 31 0) && zeroAt x 1023 832 && (wordsAt x 1 25).all finite32 && !(mass.getLsbD 31 && mass &&& 0x7FFFFFFF != 0) then
    some { parent := bitsAt x 7 0, type := bitsAt x 9 8, axis := wordsAt x 1 3, rot := ⟨3, [wordsAt x 4 3, wordsAt x 7 3, wordsAt x 10 3]⟩,
           pos := wordsAt x 13 3, mass := mass, com := wordsAt x 17 3, iner := wordsAt x 20 6 }
  else none

/-- The joints of a model from joint j on. -/
def parseJoints (j : Nat) (bs : List Byte) : Nat → Option (List Joint)
  | 0 => some []
  | n + 1 =>
    match parseJoint j (bs.take 128), parseJoints (j + 1) (bs.drop 128) n with
    | some x, some r => some (x :: r)
    | _, _ => none

/-- A model, none where it is refused. -/
def parseModel (bs : List Byte) : Option Model :=
  let x := recBits (bs.take 64)
  match headerOk x with
  | none => none
  | some nj =>
    match parseJoints 0 (bs.drop 64) nj with
    | none => none
    | some js => some { tipj := bitsAt x 21 16, tip := wordsAt x 5 3, grav := wordsAt x 2 3, joints := js }

/-- The velocity count of joints. -/
def nvOf (js : List Joint) : Nat := js.foldl (fun n j => n + velCount j.type) 0
/-- The position count of joints. -/
def nqOf (js : List Joint) : Nat := js.foldl (fun n j => n + posCount j.type) 0

/-- Values of IN for a job. -/
def inCount (job nq nv : Nat) : Nat := if job = 3 then nq + nv else if job = 4 then nq + nv + 6 else nq + 2 * nv
/-- Values of OUT for a job. -/
def outCount (job nv : Nat) : Nat := if job = 3 then 6 * nv else nv

/-- Rows of a job (10 R277). -/
def rowCount (job : Nat) (m : Model) : Nat :=
  let nj := m.joints.length
  let nv := nvOf m.joints
  if job = 0 then 2 * nj
  else if job = 1 then 3 * nj + (if m.joints.any (fun j => j.type == 3) then 114 else 0)
  else if job = 2 then 2 * nj + 4 * nv
  else if job = 3 then 2 * nj
  else 2 * nj + 30 + nv

/-! ## Kinematics (10 R273) -/

/-- Rot(a, q). -/
def rotAxis (a : Vec) (q : W32) : Calc Mat := do
  let c : W32 := BitVec.ofNat 32 (spCos false (fv q)).1
  let s : W32 := BitVec.ofNat 32 (spSin false (fv q)).1
  let u ← madd (← mscale c (unitMat 3)) (← mscale s (crossMat a))
  let ka ← vscale (← csub oneW c) a
  madd u (← mmul ⟨1, ka.map (fun x => [x])⟩ ⟨3, [a]⟩)

/-- The matrix of a quaternion. -/
def quatMat (q : Vec) : Calc Mat := do
  let w := q.getD 0 0
  let x := q.getD 1 0
  let y := q.getD 2 0
  let z := q.getD 3 0
  let pair (f : W32 → W32 → Calc W32) (a b c d : W32) : Calc W32 := do cmul 0x40000000 (← f (← cmul a b) (← cmul c d))
  let diag (a b : W32) : Calc W32 := do csub oneW (← pair cadd a a b b)
  pure ⟨3, [[← diag y z, ← pair csub x y w z, ← pair cadd x z w y], [← pair cadd x y w z, ← diag x z, ← pair csub y z w x],
    [← pair csub x z w y, ← pair cadd y z w x, ← diag x y]]⟩

/-- The rotation and the offset of a joint at its position entries. -/
def jointPlace (j : Joint) (q : Vec) : Calc (Mat × Vec) := do
  if j.type = 0 then pure (← mmul j.rot (← rotAxis j.axis (q.getD 0 0)), j.pos)
  else if j.type = 1 then pure (j.rot, ← vadd j.pos (← mvec j.rot (← vscale (q.getD 0 0) j.axis)))
  else if j.type = 2 then pure (j.rot, j.pos)
  else pure (← quatMat (q.drop 3), q.take 3)

/-- A joint with its place, its transform, its subspace, its inertia and its entries of the state vectors. -/
structure Link where
  joint : Joint
  first : Nat
  dof : Nat
  q : Mat
  t : Vec
  x : Mat
  sub : Mat
  inertia : Mat
deriving DecidableEq, Repr

/-- The motion subspace of a joint. -/
def subspace (j : Joint) : Mat :=
  if j.type = 0 then ⟨1, (j.axis ++ [0, 0, 0]).map (fun x => [x])⟩
  else if j.type = 1 then ⟨1, ([0, 0, 0] ++ j.axis).map (fun x => [x])⟩
  else if j.type = 2 then ⟨0, List.replicate 6 []⟩
  else unitMat 6

/-- The inertia about the centre of mass. -/
def inertia3 (j : Joint) : Mat :=
  let g (i : Nat) : W32 := j.iner.getD i 0
  ⟨3, [[g 0, g 3, g 4], [g 3, g 1, g 5], [g 4, g 5, g 2]]⟩

/-- The spatial inertia of a joint. -/
def spatialInertia (j : Joint) : Calc Mat := do
  let cx := crossMat j.com
  let mc ← mscale j.mass cx
  let i ← madd (inertia3 j) (← mmul mc cx.t)
  pure (blocks i mc (← mscale j.mass cx.t) (← mscale j.mass (unitMat 3)))

/-- The Plücker transform from parent to joint. -/
def plucker (q : Mat) (t : Vec) : Calc Mat := do
  let e := q.t
  pure (blocks e (zeroMat 3 3) (← mmul e.neg (crossMat t)) e)

/-- The links of joints from their entries on; dyn says whether transforms and inertias are needed: quantities that a job does not use are
not computed, and cannot overflow (log 47). -/
def makeLinks (dyn : Bool) (q : Vec) : Nat → Nat → List Joint → Calc (List Link)
  | _, _, [] => pure []
  | v, p, j :: r => do
    let m ← jointPlace j ((q.drop p).take (posCount j.type))
    let x ← if dyn then plucker m.1 m.2 else pure (unitMat 6)
    let i ← if dyn then spatialInertia j else pure (unitMat 6)
    let ls ← makeLinks dyn q (v + velCount j.type) (p + posCount j.type) r
    pure ({ joint := j, first := v, dof := velCount j.type, q := m.1, t := m.2, x := x, sub := subspace j, inertia := i } :: ls)

/-- The entries of a link in a velocity vector. -/
def Link.part (l : Link) (v : Vec) : Vec := (v.drop l.first).take l.dof

/-- The parent of a link, none for the base. -/
def Link.up (l : Link) : Option Nat := if l.joint.parent = 255 then none else some l.joint.parent

/-- A value of a link's parent; the base holds one of its own. -/
def atParent {α : Type} (base : α) (vs : List α) (l : Link) : α :=
  match l.up with
  | none => base
  | some p => vs.getD p base

/-- Links with their numbers. -/
def numbered (ls : List Link) : List (Nat × Link) := (List.range ls.length).zip ls

/-- The zero vector of six. -/
def zero6 : Vec := List.replicate 6 0
/-- The base's acceleration: minus gravity. -/
def baseAcc (m : Model) : Vec := [0, 0, 0] ++ m.grav.map negW

/-! ## Factor and Solve (10 R275) -/

/-- Entry i, j of a matrix. -/
def Mat.at (m : Mat) (i j : Nat) : W32 := (m.rows.getD i []).getD j 0

/-- A value less products of pairs, in order. -/
def lessProducts (s : W32) (ps : List (W32 × W32)) : Calc W32 := ps.foldlM (fun s p => do csub s (← cmul p.1 p.2)) s

/-- A factored matrix: the columns of L and the pivots. -/
structure Factored where
  l : List Vec := []
  d : Vec := []
deriving DecidableEq, Repr

/-- What a job fixes for its factorisations. -/
structure Pivots where
  pivth : W32
  reg : W32
deriving DecidableEq, Repr

/-- Whether |s| is at most a bound. -/
def atMost (s bound : W32) : Bool :=
  match fv (s &&& 0x7FFFFFFF), fv bound with
  | .nan _, _ => false
  | _, .nan _ => false
  | a, b => fcompare a b != .gt

/-- A pivot at most PIVTH in magnitude becomes REG, and the first records its index. -/
def pivot (p : Pivots) (index : Nat) (s : W32) : Calc W32 := do
  if atMost s p.pivth then
    modify (fun l => { l with singular := l.singular.or (some index) })
    pure p.reg
  else pure s

/-- Factor: column by column, with the columns of W and L so far. -/
def factorCols (p : Pivots) (index : Nat → Nat) (a : Mat) (n : Nat) : Nat → Nat → List Vec → Factored → Calc Factored
  | 0, _, _, f => pure f
  | k + 1, j, ws, f => do
    let row (cs : List Vec) (i : Nat) : Vec := cs.map (fun c => c.getD i 0)
    let d ← pivot p (index j) (← lessProducts (a.at j j) ((row f.l j).zip (row ws j)))
    let es : List (W32 × W32) ← (List.range n).mapM (fun i => do
      if i ≤ j then pure (0, if i = j then oneW else 0)
      else
        let t ← lessProducts (a.at i j) ((row f.l i).zip (row ws j))
        pure (t, ← cdiv t d))
    factorCols p index a n k (j + 1) (ws ++ [es.map (·.1)]) { l := f.l ++ [es.map (·.2)], d := f.d ++ [d] }

/-- Factor of a symmetric matrix. -/
def factor (p : Pivots) (index : Nat → Nat) (a : Mat) : Calc Factored := factorCols p index a a.rows.length a.rows.length 0 [] {}

/-- The backward sweep of Solve for rows i - 1 down to 0, the entries above them found. -/
def backward (f : Factored) (y : Vec) : Nat → Vec → Calc Vec
  | 0, xs => pure xs
  | i + 1, xs => do
    let x ← lessProducts (y.getD i 0) (((f.l.getD i []).drop (i + 1)).zip xs)
    backward f y i (x :: xs)

/-- Solve: three sweeps. -/
def solve (f : Factored) (b : Vec) : Calc Vec := do
  let z ← ((List.range b.length).zip b).foldlM (fun (z : Vec) e => do
    pure (z ++ [← lessProducts e.2 ((f.l.map (fun c => c.getD e.1 0)).zip z)])) []
  backward f (← czip cdiv z f.d) b.length []

/-! ## Jobs 0, 1 and 2 (10 R274) -/

/-- Job 0: recursive Newton-Euler. -/
def inverseDynamics (m : Model) (ls : List Link) (qd qdd : Vec) : Calc Vec := do
  let up : List Vec × List Vec × List Vec ← ls.foldlM (fun (vs, as, fs) l => do
    let sq ← mvec l.sub (l.part qd)
    let v ← vadd (← mvec l.x (atParent zero6 vs l)) sq
    let a ← vadd (← vadd (← mvec l.x (atParent (baseAcc m) as l)) (← mvec l.sub (l.part qdd))) (← mvec (motionCross v) sq)
    let f ← vadd (← mvec l.inertia a) (← mvec (forceCross v) (← mvec l.inertia v))
    pure (vs ++ [v], as ++ [a], fs ++ [f])) ([], [], [])
  let down : List Vec × Vec ← (numbered ls).reverse.foldlM (fun (fs, taus) e => do
    let f := fs.getD e.1 zero6
    let tau ← mvec e.2.sub.t f
    match e.2.up with
    | none => pure (fs, tau ++ taus)
    | some p => pure (fs.set p (← vadd (fs.getD p zero6) (← mvec e.2.x.t f)), tau ++ taus)) (up.2.2, [])
  pure down.2

/-- What job 1 keeps of each link on its way. -/
structure Artic where
  link : Link
  c : Vec
  ia : Mat
  pa : Vec
  u : Mat := zeroMat 6 0
  uu : Vec := []
  dinv : Mat := zeroMat 0 0
deriving DecidableEq, Repr

/-- The inverse of a joint's D: a Solve for each column of the unit matrix; a zero pivot has the joint's first velocity index. -/
def inverse (p : Pivots) (first : Nat) (d : Mat) : Calc Mat := do
  let f ← factor p (fun _ => first) d
  pure (Mat.t ⟨d.rows.length, ← (unitMat d.rows.length).rows.mapM (solve f)⟩)

/-- Job 1, up: velocities, bias terms. -/
def articUp (ls : List Link) (qd : Vec) : Calc (List Artic) := do
  let r : List Vec × List Artic ← ls.foldlM (fun (vs, as) l => do
    let sq ← mvec l.sub (l.part qd)
    let v ← vadd (← mvec l.x (atParent zero6 vs l)) sq
    let c ← mvec (motionCross v) sq
    let p ← mvec (forceCross v) (← mvec l.inertia v)
    pure (vs ++ [v], as ++ [{ link := l, c := c, ia := l.inertia, pa := p }])) ([], [])
  pure r.2

/-- Job 1, one joint on the way down: its factors, then its parent's inertia and bias. -/
def articDown (p : Pivots) (tau : Vec) (as : List Artic) (j : Nat) : Calc (List Artic) := do
  match as[j]? with
  | none => pure as
  | some a =>
    let l := a.link
    let u ← mmul a.ia l.sub
    let d ← mmul l.sub.t u
    let uu ← vsub (l.part tau) (← mvec l.sub.t a.pa)
    let dinv ← inverse p l.first d
    let as1 := as.set j { a with u := u, uu := uu, dinv := dinv }
    match l.up.bind (fun k => (as1[k]?).map (fun b => (k, b))) with
    | none => pure as1
    | some (k, b) =>
      let ud ← mmul u dinv
      let ia ← msub a.ia (← mmul ud u.t)
      let pa ← vadd (← vadd a.pa (← mvec ia a.c)) (← mvec ud uu)
      let ib ← madd b.ia (← mmul (← mmul l.x.t ia) l.x)
      let pb ← vadd b.pa (← mvec l.x.t pa)
      pure (as1.set k { b with ia := ib, pa := pb })

/-- Job 1: the articulated-body algorithm. -/
def forwardDynamics (p : Pivots) (m : Model) (ls : List Link) (qd tau : Vec) : Calc Vec := do
  let as ← (List.range ls.length).reverse.foldlM (articDown p tau) (← articUp ls qd)
  let r : List Vec × Vec ← as.foldlM (fun (acs, out) a => do
    let a0 ← vadd (← mvec a.link.x (atParent (baseAcc m) acs a.link)) a.c
    let qdd ← mvec a.dinv (← vsub a.uu (← mvec a.u.t a0))
    pure (acs ++ [← vadd a0 (← mvec a.link.sub qdd)], out ++ qdd)) ([], [])
  pure r.2

/-- Entries of a matrix by row and column. -/
abbrev Entries := TMap W32

/-- A block written into entries, and its transpose. -/
def putBlock (e : Entries) (r c : Nat) (b : Mat) : Entries :=
  let one (e : Entries) (i j : Nat) : Entries := tset (tset e ((r + i) * 128 + c + j) (b.at i j)) ((c + j) * 128 + r + i) (b.at i j)
  (List.range b.rows.length).foldl (fun e i => (List.range b.cols).foldl (fun e j => one e i j) e) e

/-- A column of mass-matrix blocks, up the chain of a joint. -/
def massColumn (ls : List Link) (first : Nat) : Nat → Mat → Nat → Entries → Calc Entries
  | 0, _, _, e => pure e
  | n + 1, f, k, e => do
    match ls[k]? with
    | none => pure e
    | some l =>
      let e1 := putBlock e l.first first (← mmul l.sub.t f)
      match l.up with
      | none => pure e1
      | some p => massColumn ls first n (← mmul l.x.t f) p e1

/-- The mass matrix: composite inertias down, then the blocks. -/
def massMatrix (ls : List Link) : Calc Mat := do
  let ic : List Mat ← (numbered ls).reverse.foldlM (fun (ic : List Mat) e => do
    match e.2.up with
    | none => pure ic
    | some p =>
      let a ← mmul (← mmul e.2.x.t (ic.getD e.1 (zeroMat 6 6))) e.2.x
      pure (ic.set p (← madd (ic.getD p (zeroMat 6 6)) a))) (ls.map (·.inertia))
  let en : Entries ← (numbered ls).reverse.foldlM (fun (en : Entries) e => do
    massColumn ls e.2.first 64 (← mmul (ic.getD e.1 (zeroMat 6 6)) e.2.sub) e.1 en) []
  let n := ls.foldl (fun n l => n + l.dof) 0
  pure ⟨n, (List.range n).map (fun i => (List.range n).map (fun j => tget 0 en (i * 128 + j)))⟩

/-! ## Jobs 3 and 4 (10 R275) -/

/-- World frames of the links in ascending order. -/
def worldFrames (ls : List Link) : Calc (List (Mat × Vec)) :=
  ls.foldlM (fun (fs : List (Mat × Vec)) l => do
    let p := atParent (unitMat 3, [0, 0, 0]) fs l
    pure (fs ++ [(← mmul p.1 l.q, ← vadd p.2 (← mvec p.1 l.t))])) []

/-- Whether a joint lies on the chain from the base to another. -/
def onChain (ls : List Link) (j : Nat) : Nat → Nat → Bool
  | 0, _ => false
  | n + 1, k => k == j || (match (ls[k]?).bind Link.up with
    | none => false
    | some p => onChain ls j n p)

/-- A revolute column about z at o. -/
def revColumn (pt o z : Vec) : Calc Vec := do pure ((← ccross z (← vsub pt o)) ++ z)

/-- The columns of one link. -/
def linkColumns (pt : Vec) (l : Link) (w : Mat) (o : Vec) : Calc (List Vec) := do
  if l.joint.type = 0 then pure [← revColumn pt o (← mvec w l.joint.axis)]
  else if l.joint.type = 1 then pure [(← mvec w l.joint.axis) ++ [0, 0, 0]]
  else if l.joint.type = 2 then pure []
  else
    let zs ← (unitMat 3).rows.mapM (mvec w)
    pure ((← zs.mapM (revColumn pt o)) ++ zs.map (fun z => z ++ [0, 0, 0]))

/-- The Jacobian's columns. -/
def jacobian (m : Model) (ls : List Link) : Calc (List Vec) := do
  let fs ← worldFrames ls
  let frame (i : Nat) : Mat × Vec := fs.getD i (unitMat 3, [0, 0, 0])
  let pt ← vadd (frame m.tipj).2 (← mvec (frame m.tipj).1 m.tip)
  (numbered ls).foldlM (fun (cs : List Vec) e => do
    if onChain ls e.1 64 m.tipj then pure (cs ++ (← linkColumns pt e.2 (frame e.1).1 (frame e.1).2))
    else pure (cs ++ List.replicate e.2.dof zero6)) []

/-- Job 4: the damped-least-squares step. -/
def dlsStep (p : Pivots) (damp : W32) (cols : List Vec) (e : Vec) : Calc Vec := do
  let jt : Mat := ⟨6, cols⟩
  let a ← mmul jt.t jt
  let d2 ← cmul damp damp
  let rows ← ((List.range 6).zip a.rows).mapM (fun (r : Nat × Vec) => do pure (r.2.set r.1 (← cadd (r.2.getD r.1 0) d2)))
  mvec jt (← solve (← factor p id ⟨6, rows⟩) e)

/-- The outputs of a job. -/
def runJob (job : Nat) (p : Pivots) (damp : W32) (m : Model) (inp : Vec) : Calc Vec := do
  let nv := nvOf m.joints
  let nq := nqOf m.joints
  let qd := (inp.drop nq).take nv
  let z := inp.drop (nq + nv)
  let ls ← makeLinks (decide (job < 3)) (inp.take nq) 0 0 m.joints
  match job with
  | 0 => inverseDynamics m ls qd z
  | 1 => forwardDynamics p m ls qd z
  | 2 => solve (← factor p id (← massMatrix ls)) z
  | 3 => pure (← jacobian m ls).flatten
  | _ => dlsStep p damp (← jacobian m ls) z

/-- Consecutive binary32 values. -/
def valuesOf (bs : List Byte) (n : Nat) : Vec := (List.range n).map (fun i => bytesToW32 ((bs.drop (4 * i)).take 4))

/-- The block's pivot fields with their defaults (10 R275); NaN, infinite and negative values are computed with as they stand (log 47). -/
def pivotsOf (j : ArtJob) : Pivots :=
  { pivth := if j.pivth &&& 0x7FFFFFFF = 0 then 0x2B800000 else j.pivth, reg := if j.reg &&& 0x7FFFFFFF = 0 then 0x35800000 else j.reg }

/-- What a job writes and how it ends: ERR and DETAIL (10 R276, R278). -/
def jobOutcome (j : ArtJob) (m : Model) : Vec × Nat × BitVec 16 :=
  let n := inCount j.job (nqOf m.joints) (nvOf m.joints)
  let (out, l) := (runJob j.job (pivotsOf j) j.damp m (valuesOf j.data.2 n)).run {}
  if l.overflow then (out.map (fun _ => (0x7FC00000 : W32)), 7, 0)
  else
    match l.singular with
    | some i => (out, 6, BitVec.ofNat 16 i)
    | none => (out, 0, 0)

/-! ## art (09 R248, R250) -/

/-- What reading a model for NV at acceptance comes to. -/
inductive ArtNv where
  | ok (s : State) (nv : Nat)
  | wait
  | fault (va level : Nat) (h : Bool)
  | err (e : Nat) (addr : W64) (sub : Nat)

/-- Word 0 of each joint from j on. -/
def artWords (s : State) (ag : Option Nat) (ctx model : Nat) (j nv : Nat) : Nat → ArtNv
  | 0 => .ok s nv
  | n + 1 =>
    match engRead s ag ctx 0 [(model + 64 + 128 * j, 4)] with
    | .wait => .wait
    | .fault va lv h => .fault va lv h
    | .bad c sub a => .err (causeErr c) a sub
    | .ok s1 bs =>
      let w := bytesToNat bs
      if word0Ok j w then artWords s1 ag ctx model (j + 1) (nv + velCount (bitsAt w 9 8)) n else .err 10 0 0

/-- NV of a model: its header, then word 0 of each joint. -/
def artNv (s : State) (ag : Option Nat) (ctx model : Nat) : ArtNv :=
  match engRead s ag ctx 0 (pieces model 64) with
  | .wait => .wait
  | .fault va lv h => .fault va lv h
  | .bad c sub a => .err (causeErr c) a sub
  | .ok s1 bs =>
    match headerOk (recBits bs) with
    | none => .err 10 0 0
    | some nj => artWords s1 ag ctx model 0 0 nj

/-- Whether the fields of an articulation block are in range. -/
def artBlockOk (b : Nat) : Bool := zeroAt b 511 352 && zeroAt b 223 196 && bitsAt b 255 224 != 0 && decide (bitsAt b 195 192 < 5)

/-- The job of an articulation block. -/
def artJobOf (b : Nat) : ArtJob :=
  let f (lo : Nat) : W32 := BitVec.ofNat 32 (bitsAt b (lo + 31) lo)
  { model := BitVec.ofNat 64 (bitsAt b 63 0), input := BitVec.ofNat 64 (bitsAt b 127 64), out := BitVec.ofNat 64 (bitsAt b 191 128),
    job := bitsAt b 195 192, budget := bitsAt b 255 224, pivth := f 256, reg := f 288, damp := f 320 }

/-- Whether a cluster's articulation engine has room. -/
def artRoom (s : State) (cluster : Nat) : Bool := decide ((clusterAt s cluster).art.length < Config.engineEntries)

/-- The pieces of a job's OUT range. -/
def artOut (j : ArtJob) : List (Nat × Nat) :=
  match j.ownedNv with
  | some nv => pieces j.out.toNat (4 * outCount j.job nv)
  | none => []

/-- A job accepted by a cluster's engine: its OUT lines are owned. -/
def acceptArt (s : State) (cluster : Nat) (j : ArtJob) : State :=
  let (s1, pages) := ownRange s (firstCore cluster) j.ctx j.id agentArt (artOut j)
  modCluster s1 cluster (fun k => { k with art := k.art ++ [{ j with pages := pages }] })

/-- The slot, the handle and the acceptance of an art word's job. -/
def artAccepted (s : State) (x : Ctx) (slot : Nat) (h : VIdx) (j : ArtJob) : State :=
  let (id, s1) := fresh s
  let s2 := acceptArt s1 (clusterOf x.t.core) { j with id := id, owner := .future x.u slot, ctx := x.t.ctx, grid := some x.t.grid }
  let g1 := writeHandle { x with g := unitAt s2 x.u } (unitAt s2 x.u) h.toNat slot
  engineAdd (setUnit s2 x.u (advance (takeSlot g1 slot .articulation id))) x.u.team

/-- art: the block's checks, then the model's NV, then acceptance; a page of the model holds the word, and a REPLAY with VIOLATION
lets the job be accepted with the error it will end in (09 R248). The address fields are judged in the order MODEL, IN, OUT (log 47). -/
def artWord (forced : Option (Nat × W64 × Nat)) (q : SIdx) (h : VIdx) (s : State) : Out :=
  word (.art q h) s (fun x =>
    withSlot s x (fun slot =>
      let off : W64 := (x.uni q).setWidth 64
      readRec s x .spad off (fun bs s1 =>
        let b := recBits bs
        let j := artJobOf b
        checkRecs s1 x [(if artBlockOk b then none else some 1, off.toNat)]
          [(j.model, .global 64), (j.input, .global 64), (j.out, .global 64)]
          (if !quiet s1 x.u || !artRoom s1 (clusterOf x.t.core) then s1
           else
             let s2 := releaseStep s1 x.t.core
             match forced with
             | some e => artAccepted s2 x slot h { j with acceptErr := some e }
             | none =>
               match artNv s2 (some (engineAgent (clusterOf x.t.core))) x.t.ctx j.model.toNat with
               | .wait => s1
               | .fault va lv hh =>
                 if faultRoom s2 then
                   modUnit (engFault s2 x.t.ctx (firstCore (clusterOf x.t.core)) agentArt .read va lv hh) x.u
                     (fun g => { g with held := some (.replay [(pageOf va, 0, va)]) })
                 else s1
               | .err e a sub => artAccepted s2 x slot h { j with acceptErr := some (e, a, sub) }
               | .ok s3 nv => artAccepted s3 x slot h { j with ownedNv := some nv }))))

/-- art (09 R248). -/
def execArt (q : SIdx) (h : VIdx) (s : State) : Out := artWord none q h s

/-! ## The job (10 R277, R278) -/

/-- A job leaves the articulation engine with an ERR and DETAIL. -/
def artEnds (s : State) (cluster : Nat) (j : ArtJob) (err : Nat) (detail : BitVec 16) (addr : W64) (sub : Nat) : State :=
  let s1 := dropOp s j.id
  let s2 := modCluster s1 cluster (fun k => { k with art := k.art.filter (fun y => y.id != j.id) })
  ownerEnd (ownerDone (dropLines j.id s2) j.owner err detail addr sub) j.owner

/-- An articulation job changed. -/
def modArt (s : State) (cluster id : Nat) (f : ArtJob → ArtJob) : State :=
  modCluster s cluster (fun k => { k with art := k.art.map (fun y => if y.id = id then f y else y) })

/-- A page an articulation job waits for. -/
def artPage (s : State) (cluster : Nat) (j : ArtJob) (kind : AccKind) (va level : Nat) (h : Bool) : State :=
  if faultRoom s then
    modArt (engFault s j.ctx (firstCore cluster) agentArt kind va level h) cluster j.id (fun y => { y with pages := y.pages ++ [va] })
  else s

/-- What an access of a job that was not performed comes to. -/
def artStops (s : State) (cluster : Nat) (j : ArtJob) (kind : AccKind) : EngRead → State
  | .fault va lv h => artPage s cluster j kind va lv h
  | .bad c sub a => artEnds s cluster j (causeErr c) 0 a sub
  | _ => s

/-- A job reads its model and its inputs and begins, or is refused (10 R278 item 3); a model that is refused ends the job before IN is
read (log 47). -/
def artReads (s : State) (cluster : Nat) (j : ArtJob) : State :=
  let refuse (s : State) : State := artEnds s cluster j 10 0 0 0
  match engRead s (some (engineAgent cluster)) j.ctx j.id (pieces j.model.toNat 64) with
  | .ok s1 hd =>
    (match headerOk (recBits hd) with
     | none => refuse s1
     | some nj =>
       match engRead s1 (some (engineAgent cluster)) j.ctx j.id (pieces (j.model.toNat + 64) (128 * nj)) with
       | .ok s2 body =>
         (match parseModel (hd ++ body) with
          | none => refuse s2
          | some m =>
            if some (nvOf m.joints) ≠ j.ownedNv then refuse s2
            else
              let n := inCount j.job (nqOf m.joints) (nvOf m.joints)
              match engRead s2 (some (engineAgent cluster)) j.ctx j.id (pieces j.input.toNat (4 * n)) with
              | .ok s3 inp =>
                if (valuesOf inp n).all finite32 then
                  modArt s3 cluster j.id (fun y => { y with started := true, judged := false, began := y.elapsed, data := (hd ++ body, inp) })
                else refuse s3
              | r => artStops s2 cluster j .read r)
       | r => artStops s1 cluster j .read r)
  | r => artStops s cluster j .read r

/-- The start of a job that has been judged: the error of its acceptance, or its reads; a page that they miss delays it. -/
def artBegins (s : State) (cluster : Nat) (j : ArtJob) : State :=
  match j.acceptErr with
  | some (e, a, sub) => artEnds s cluster j e 0 a sub
  | none =>
    let (s1, pages) := ownRange (modArt s cluster j.id (fun y => { y with judged := true })) (firstCore cluster) j.ctx j.id agentArt (artOut j)
    if pages ≠ [] then modArt s1 cluster j.id (fun y => { y with pages := pages }) else artReads s1 cluster j

/-- ART_JOB_START: the first job of a cluster's engine, in the order of 10 R278: its domain and its budget are judged at its start, once. -/
def execArtJobStart (cluster : Nat) (s : State) : Out :=
  match (clusterAt s cluster).art with
  | [] => .next s
  | j :: _ =>
    if j.started || s.supervisor.freeze || nodeFresh s j.owner then .next s
    else if !j.judged && jobCancelled s j.grid then .next (artEnds s cluster j 1 0 0 0)
    else if !j.judged && decide (j.budget ≤ j.elapsed) then .next (artEnds s cluster j 2 0 0 0)
    else if !engineFree s j.owner j.id j.pages then .next s
    else if !paid s [firstCore cluster] j.id then .next (askPaid s [firstCore cluster] j.id 8 j.ctx true)
    else .next (crossOr s (.job j.id) (artBegins s cluster j))

/-- Whether a running job is before a row, or before its write: a row takes 16 cycles, the least that 10 R277 allows (log 46). -/
def artBoundary (j : ArtJob) (m : Model) : Bool :=
  (j.elapsed - j.began) % 16 == 0 || decide (j.began + 16 * rowCount j.job m ≤ j.elapsed)

/-- ART_BUDGET_EXPIRY: a job whose elapsed count has reached its BUDGET stops before its next row, or before its write. -/
def execArtBudgetExpiry (cluster : Nat) (s : State) : Out :=
  match (clusterAt s cluster).art with
  | [] => .next s
  | j :: _ =>
    match parseModel j.data.1 with
    | none => .next s
    | some m =>
      if j.started && !j.judged && artBoundary j m && decide (j.budget ≤ j.elapsed) && !s.supervisor.freeze then
        .next (artEnds s cluster j 2 0 0 0)
      else .next s

/-- ART_JOB_COMPLETE: after its rows, all of OUT is written at once. -/
def execArtJobComplete (cluster : Nat) (s : State) : Out :=
  match (clusterAt s cluster).art with
  | [] => .next s
  | j :: _ =>
    match parseModel j.data.1 with
    | none => .next s
    | some m =>
      if !j.started || s.supervisor.freeze || j.pages ≠ [] || decide (j.elapsed < j.began + 16 * rowCount j.job m) ||
          (!j.judged && decide (j.budget ≤ j.elapsed)) then
        .next s
      else
        let (out, err, detail) := jobOutcome j m
        match engPlaces s (some (engineAgent cluster)) j.ctx j.id (dataPieces j.out.toNat (out.flatMap (fun w => natToBytes 4 w.toNat))) with
        | .ok s1 ws => .next (artEnds (engineWrite s1 ws) cluster j err detail 0 0)
        | .wait => .next s
        | .fault va lv h => .next (artPage (modArt s cluster j.id (fun y => { y with judged := true })) cluster j .write va lv h)
        | .bad c sub a => .next (artEnds s cluster j (causeErr c) 0 a sub)

end Sys2Proof.Machine
end

