-- ==== Sys2Proof/Machine/Futures.lean ====
section
/-! DEFINITION. fwait, ftest and fdrop: major 0x39 (09 R251-R254). -/

set_option linter.unusedVariables false

namespace Sys2Proof.Machine

/-- The status word and a second value written for every participant: vN and lt. -/
def writeStatus (x : Ctx) (v : VIdx) (f : FutSlot) (lt : Nat → W32) : Grp :=
  x.lanes.foldl (fun g l =>
    modThr (writeV x.cond g l v.toNat (statusWord f l)) l (fun t => { t with lt := lt l })) x.g

/-- An observed grid or task-graph completion of any status takes an acquire step (05 R105, R112). -/
def observed (s : State) (x : Ctx) (f : FutSlot) : State :=
  if f.state = .complete ∧ (f.kind = .grid ∨ f.kind = .graph) then acquireStep s x.t.core else s

/-- An fwait on a complete slot: its trap, or its values (09 R253). -/
def fwaitDone (s : State) (x : Ctx) (v : VIdx) (f : FutSlot) (noerr : Bool) : State :=
  match badLanes f x.lanes, noerr with
  | l :: r, false =>
    let rec0 := mkRec s x.u x.pc x.cl.head (errTrap (slotStatus f l).1) 0 (laneMask (l :: r)) f.failAddr
    trapDeliver (observed s x f) x.u { rec0 with lane := l, detail := statusWord f l }
  | _, _ => observed (setUnit s x.u (advance (writeStatus x v f (fun l => BitVec.ofNat 32 (slotStatus f l).1)))) x f

/-- Whether the class check of 01 R30 lets a run wait on a slot. -/
def fwaitLegal (s : State) (f : FutSlot) : Bool :=
  !(f.kind == .grid || f.kind == .graph) || decide ((gridAt s f.link).cls ≤ 1)

/-- The slot number in bits [3:0] of what names it: a wait that a set domain ends reads its status whatever the bits above (01 R30,
log 46). -/
def slotBits (x : Ctx) (r : SlotRef) : Nat :=
  match r with
  | .imm i => i.toNat
  | .reg s _ => (x.uni s).toNat % 16

/-- fwait: a blocking wait until the slot is complete; its slot is checked after the domain (01 R30). -/
def execFwait (v : VIdx) (noerr : Bool) (slot : SlotRef) (s : State) : Out :=
  word (.fwait v noerr slot) s (fun x =>
    waitWord s x x.lanes
      (fun _ =>
        let f := slotAt x.g (slotBits x slot)
        observed (setUnit s x.u (advance (writeStatus x v f (fun _ => 1)))) x f)
      (fun _ =>
        let i := slotBits x slot
        let f := slotAt x.g i
        if slotBad x slot then trapWord s x .illegal 0 x.cl.mask 0
        else if !fwaitLegal s f then trapWord s x .illegalWait 0 x.cl.mask 0
        else if f.state = .complete then fwaitDone s x v f noerr
        else (beginWait s x (.fwait v.toNat i noerr) x.lanes 0).2))

/-- ftest: the status word and STATE, at once (09 R254). -/
def execFtest (v : VIdx) (slot : SlotRef) (s : State) : Out :=
  word (.ftest v slot) s (fun x =>
    match slotOf x slot with
    | none => trapWord s x .illegal 0 x.cl.mask 0
    | some i =>
      let f := slotAt x.g i
      if slotGone f then trapWord s x .illegal 0 x.cl.mask 0
      else observed (setUnit s x.u (advance (writeStatus x v f (fun _ => BitVec.ofNat 32 f.state.code)))) x f)

/-- fdrop: a complete slot becomes free, a pending one is dropped (09 R254). -/
def execFdrop (slot : SlotRef) (s : State) : Out :=
  word (.fdrop slot) s (fun x =>
    match slotOf x slot with
    | none => trapWord s x .illegal 0 x.cl.mask 0
    | some i =>
      let f := slotAt x.g i
      if slotGone f then trapWord s x .illegal 0 x.cl.mask 0
      else
        let f' : FutSlot := if f.state = .complete then {} else { f with dropped := true }
        setUnit s x.u (advance { x.g with futures := tset x.g.futures i f' }))

end Sys2Proof.Machine
end

