-- ==== Sys2Proof/Machine/HandlerLevel.lean ====
section
/-! DEFINITION. Trap-handler level: major 0x3B (08 R218, R219, 14 R309). -/

set_option linter.unusedVariables false

namespace Sys2Proof.Machine

/-- What hmfs reads of a handler register (08 R218). -/
def handlerReg (h : Handler) (r : Nat) : W32 :=
  match r with
  | 0 => h.recAddr.setWidth 32
  | 1 => h.recAddr.extractLsb' 32 32
  | 2 => BitVec.ofNat 32 h.record.cause.code
  | 3 => h.hres.setWidth 32
  | 4 => (h.hres.extractLsb' 32 16).setWidth 32
  | 5 => h.hmode.setWidth 32
  | _ => h.hmask

/-- What hmts writes: HRESL, HRESH, HMODE and HMASK; a write to a register that is RO is ignored (08 R218, 07 R179). -/
def setHandlerReg (h : Handler) (r : Nat) (v : W32) : Handler :=
  match r with
  | 3 => { h with hres := h.hres.extractLsb' 32 16 ++ v }
  | 4 => { h with hres := (v.setWidth 16 : BitVec 16) ++ (h.hres.setWidth 32 : W32) }
  | 5 => { h with hmode := v.setWidth 2 }
  | 6 => { h with hmask := v }
  | _ => h

/-- eret: handler level is left after the trailer's commits; nothing without a participant (08 R219). -/
def execEret (g : Guard) (s : State) : Out :=
  word (.eret g) s (fun x => setCtl s x (if x.parts g = [] then .fall else .eret))

/-- hmfs. -/
def execHmfs (d : OField) (g : Guard) (r : BitVec 4) (s : State) : Out :=
  word (.hmfs d g r) s (fun x =>
    match x.g.handler with
    | none => s
    | some h =>
      let v := handlerReg h r.toNat
      setUnit s x.u (advance ((x.parts g).foldl (fun gr l => writeO x.cond gr l d v v) x.g)))

/-- hmts: the register takes the lowest participant's a, and lt of each participant its own; HMODE code 3 is invalid and traps
ILLEGAL (07 R179, 02 R51). -/
def execHmts (a : OField) (g : Guard) (r : BitVec 4) (s : State) : Out :=
  word (.hmts a g r) s (fun x =>
    match x.parts g, x.g.handler with
    | l :: ls, some h =>
      let v := x.src l a
      if r = 5 ∧ v.toNat % 4 = 3 then trapWord s x .illegal 0 (laneMask (l :: ls)) 0
      else
        let g1 := (l :: ls).foldl (fun gr l => writeO x.cond gr l 15 (x.src l a) (x.src l a)) x.g
        setUnit s x.u (advance { g1 with handler := some (setHandlerReg h r.toNat v) })
    | _, _ => setUnit s x.u (advance x.g))

end Sys2Proof.Machine
end

