-- ==== Sys2Proof/Machine/Schedule.lean ====
section
/-! DEFINITION. How a group or conductor chooses its next run (01 R19-R22, R29, R37, 13 R301), and the timers of forward
progress and cancellation (01 R33, R37, 15 R342). -/

set_option linter.unusedVariables false

namespace Sys2Proof.Machine

/-! ## Eligible threads (01 R19, R21) -/

/-- Threads of a unit's blocked runs. -/
def blockedMask (g : Grp) : W32 := g.blocked.foldl (fun m b => m ||| b.clause.mask) 0
/-- Threads of a unit's yielded runs. -/
def tailMask (g : Grp) : W32 := g.tail.foldl (fun m y => m ||| y.mask) 0
/-- Threads held at a transfer whose target page is not present (08 R189). -/
def heldMask (g : Grp) : W32 := g.xheld.foldl (fun m h => m ||| laneMask (tkeys h.lanes)) 0
/-- Live threads. -/
def liveMask (g : Grp) : W32 := laneMask (liveLanes g)
/-- Threads of blocked runs whose wait has ended. -/
def endedMask (g : Grp) : W32 := g.blocked.foldl (fun m b => if b.ended then m ||| b.clause.mask else m) 0

/-- Threads that may be selected at all: at handler level only the stopped ones (14 R308). -/
def levelMask (g : Grp) : W32 :=
  match g.handler with
  | some h => h.stopped
  | none => 0xFFFFFFFF

/-- Threads of eligible runs, those of the tail included. -/
def eligibleMask (g : Grp) : W32 := (liveMask g &&& ~~~blockedMask g &&& ~~~heldMask g) ||| endedMask g

/-- Threads of the sorted table that may be selected; a group being pre-empted selects no new clause (17 R381). -/
def tableMask (g : Grp) : W32 := if g.drain then 0 else liveMask g &&& ~~~blockedMask g &&& ~~~heldMask g &&& ~~~tailMask g &&& levelMask g

/-- Candidates: the table and the runs whose wait has ended. -/
def candMask (g : Grp) : W32 := tableMask g ||| (endedMask g &&& levelMask g)

/-! ## Redirection of a cancelled domain (01 R37) -/

/-- Whether a thread is redirected in place of its next clause. -/
def mustRedirect (g : Grp) (l : Nat) : Bool :=
  let t := thrAt g l
  t.live && !t.cancelSeen && !t.redirected && !(blockedMask g).getLsbD l && !(heldMask g).getLsbD l

/-- The threads of a unit whose grace budget has expired continue at the cancel entry, or exit; a group at handler level
finishes its handler first. -/
def redirect (s : State) (u : UnitId) : State :=
  let g := unitAt s u
  let gr := gridOf s u
  if !(gr.domain && gr.graced) || g.handler.isSome || g.clause.isSome then s
  else
    let ls := (liveLanes g).filter (mustRedirect g)
    if ls = [] then s
    else
      match cancelEntry (teamAt s u.team).kernel with
      | some a => setUnit s u (modThrs g ls (fun _ t => { t with pc := BitVec.ofNat 48 a, redirected := true }))
      | none => exitLanes s u ls

/-! ## Transfers whose target page was waited for (08 R189) -/

/-- Threads held at a transfer whose REPLAY has come go on with their checks, or trap; while a clause of their group is in progress, its
handler runs, or the fault buffer has no room for what they may meet again (17 R372), they wait. -/
def settleXfer (s : State) (u : UnitId) : State :=
  let g := unitAt s u
  match g.xheld.findIdx? (fun h => h.answer.isSome) with
  | none => s
  | some i =>
    if clauseStarted g || g.handler.isSome then s
    else
      match g.xheld[i]? with
      | none => s
      | some h =>
        let s1 := setUnit s u { g with xheld := g.xheld.eraseIdx i }
        if h.answer = some true then (if xfersFit s1 u (.xfers h.lanes) then doXfers s1 u h.pc h.cstart h.lanes else s)
        else
          trapDeliver s1 u (mkRec s1 u h.pc h.cstart .accessViolation 5 (laneMask (tkeys h.lanes))
            ((h.lanes.head?.map (fun e => e.2.target)).getD 0))

/-- Every transfer of a unit whose REPLAY has come. -/
def settleXfers (s : State) (u : UnitId) : State := (unitAt s u).xheld.foldl (fun s _ => settleXfer s u) s

/-! ## SelectRun (01 R21) -/

/-- The units that select together: both groups of a pair, else one (13 R301). -/
def selUnits (s : State) (u : UnitId) : List UnitId :=
  if (teamAt s u.team).pairMode && !isCond u then
    [⟨u.team, u.idx / 2 * 2⟩, ⟨u.team, u.idx / 2 * 2 + 1⟩]
  else [u]

/-- The threads of a pair's other group that a mask function gives. -/
def otherMask (s : State) (us : List UnitId) (u : UnitId) (f : Grp → W32) : W32 :=
  (us.filter (fun v => v != u)).foldl (fun m v => m ||| f (unitAt s v)) 0

/-- A tail whose runs lose what is no longer eligible; a run that owes nothing returns to the table. -/
def pruneTail (tail : List TailRun) (elig eligP : W32) : List TailRun :=
  (tail.map (fun y => { y with owed := y.owed &&& elig, owedP := y.owedP &&& eligP })).filter (fun y => y.owed != 0 || y.owedP != 0)

/-- The tails of the selecting units after the first loop of SelectRun. -/
def moveOwed (s : State) (us : List UnitId) : State :=
  let gs := us.map (fun u => (u, { unitAt s u with
    tail := pruneTail (unitAt s u).tail (eligibleMask (unitAt s u)) (otherMask s us u eligibleMask) }))
  gs.foldl (fun s e => setUnit s e.1 e.2) s

/-- Every tail run that may be selected returns to the table when there is no candidate. -/
def moveAll (s : State) (us : List UnitId) : State :=
  us.foldl (fun s u => modUnit s u (fun g => { g with tail := g.tail.filter (fun y => y.mask &&& levelMask g == 0) })) s

/-- The lowest counter of a unit's candidates. -/
def lowestPc (g : Grp) : Option Nat := ((maskLanes (candMask g)).map (fun l => (thrAt g l).pc.toNat)).min?

/-- The table's threads of a run that stands apart, where it still stands at its counter (01 R19). -/
def apartMask (g : Grp) (r : ApartRun) : W32 :=
  r.mask &&& laneMask ((maskLanes (tableMask g)).filter (fun l => (thrAt g l).pc.toNat == r.pc))

/-- The run of the table at a counter that stands apart, if any (01 R19). -/
def apartAt (g : Grp) (pc : Nat) : Option ApartRun := g.apart.find? (fun r => r.pc == pc && apartMask g r != 0)

/-- The threads of the table at a counter. -/
def tableAt (g : Grp) (pc : Nat) : W32 := laneMask ((maskLanes (tableMask g)).filter (fun l => (thrAt g l).pc.toNat == pc))

/-- Whether the parts m and n that two groups of a pair hold are parts of one run: each names threads of the other (13 R301). -/
def oneRun (m mP n nP : W32) : Bool := n &&& mP != 0 && m &&& nP != 0

/-- The run whose wait has ended at a counter, if any. -/
def endedAt (g : Grp) (pc : Nat) : Option BlockedRun :=
  g.blocked.find? (fun b => b.ended && b.clause.head == pc && (b.clause.mask &&& levelMask g != 0))

/-- The first run of the selecting units whose wait has ended at a counter, with its unit. -/
def endedHead (s : State) (us : List UnitId) (pc : Nat) : Option (UnitId × BlockedRun) :=
  us.findSome? (fun u => (endedAt (unitAt s u) pc).map (fun b => (u, b)))

/-- A unit's part in the first run whose wait has ended at a counter (13 R301). -/
def endedPart (s : State) (us : List UnitId) (pc : Nat) (u : UnitId) : Option BlockedRun :=
  match endedHead s us pc with
  | none => none
  | some (v, b) =>
    if u = v then some b
    else (unitAt s u).blocked.find? (fun y => y.ended && y.clause.head == pc && y.clause.mask &&& levelMask (unitAt s u) != 0 &&
      oneRun b.clause.mask b.clause.maskP y.clause.mask y.clause.maskP)

/-- The first run of the selecting units that stands apart at a counter, with its unit. -/
def apartHead (s : State) (us : List UnitId) (pc : Nat) : Option (UnitId × ApartRun) :=
  us.findSome? (fun u => (apartAt (unitAt s u) pc).map (fun r => (u, r)))

/-- A unit's part in the run of the table at a counter: one that stands apart, else the threads there that stand in none (01 R19,
13 R301). -/
def tablePart (s : State) (us : List UnitId) (pc : Nat) (u : UnitId) : W32 :=
  match apartHead s us pc with
  | none => tableAt (unitAt s u) pc
  | some (v, r) =>
    if u = v then apartMask (unitAt s u) r
    else
      match (unitAt s u).apart.find? (fun q => q.pc == pc && oneRun r.mask r.maskP q.mask q.maskP) with
      | some q => apartMask (unitAt s u) q
      | none => 0

/-- The part of one unit in the selected run: a run whose wait has ended, or the table's threads. -/
def pick (s : State) (us : List UnitId) (pc : Nat) (u : UnitId) : W32 :=
  match endedHead s us pc with
  | some _ => (match endedPart s us pc u with
    | some b => b.clause.mask
    | none => 0)
  | none => tablePart s us pc u

/-- The parts of the other selecting units in the selected run. -/
def pickOther (s : State) (us : List UnitId) (pc : Nat) (u : UnitId) : W32 :=
  (us.filter (fun v => v != u)).foldl (fun m v => m ||| pick s us pc v) 0

/-- A unit enters the clause of the selected run, which is given where its wait has ended. -/
def enterClause (s : State) (u : UnitId) (pc : Nat) (b? : Option BlockedRun) (cand candP mask maskP : W32) : State :=
  let g := unitAt s u
  let tail := g.tail.map (fun y => { y with owed := y.owed &&& ~~~mask, owedP := y.owedP &&& ~~~maskP })
  let apart := (g.apart.map (fun r => { r with mask := r.mask &&& ~~~mask })).filter (fun r => r.mask != 0)
  if mask = 0 then setUnit s u { g with tail := tail }
  else
    match b? with
    | some b =>
      setUnit s u { g with tail := tail, apart := apart, blocked := g.blocked.filter (fun y => y.id != b.id),
                           clause := some { b.clause with cand := cand, candP := candP, maskP := maskP } }
    | none => setUnit s u { g with tail := tail, apart := apart, clause := some { mask := mask, head := pc, cand := cand, candP := candP, maskP := maskP } }

/-- The lowest run of the candidates is entered, in each of the units it has threads of. -/
def enterLowest (s : State) (us : List UnitId) : State :=
  match (us.filterMap (fun u => lowestPc (unitAt s u))).min? with
  | none => s
  | some pc =>
    us.foldl (fun s' u =>
      enterClause s' u pc (endedPart s us pc u) (candMask (unitAt s u)) (otherMask s us u candMask) (pick s us pc u)
        (pickOther s us pc u)) s

/-- Whether a unit is at a clause boundary: between clauses, or at a header that has not begun its clause, with no wait that has
ended in the clause it must finish (17 R381). -/
def atBoundary (g : Grp) : Bool :=
  g.blocked.all (fun b => !b.ended) &&
  (match g.clause with
   | none => g.held.isNone
   | some cl => !cl.decoded || !cl.waited)

/-- Whether every group of a team is at a boundary (17 R381). -/
def groupsIdle (t : Team) : Bool :=
  (t.units.filter (fun e => decide (e.1 < 32))).all (fun e => atBoundary e.2)

/-- Whether a unit may select: its team runs, and a team that is being saved lets only its conductor go on until its groups
are at a boundary (17 R381); a team issues from the front-end cycle after its start on (15 R339, log 46); no unit selects while the
device is frozen, but for a step (17 R384, R385). -/
def maySelect (s : State) (u : UnitId) : Bool :=
  let t := teamAt s u.team
  let g := unitAt s u
  g.live && !g.retired && g.clause.isNone && g.held.isNone && !t.stopped && t.startFe != some s.fe &&
  (t.phase == .running || (t.phase == .saving && (if isCond u then !groupsIdle t else g.drain && g.blocked.any (·.ended)))) &&
  (!s.supervisor.freeze || s.supervisor.stepping == some u)

/-- Whether a run whose wait has ended in one group of a pair waits for its part in the other group, whose wait goes on: the run is one
(13 R301). -/
def jointWaits (s : State) (us : List UnitId) (u : UnitId) (b : BlockedRun) : Bool :=
  b.ended && b.clause.maskP != 0 &&
  us.any (fun v => v != u && (unitAt s v).blocked.any (fun y =>
    !y.ended && y.clause.head == b.clause.head && oneRun b.clause.mask b.clause.maskP y.clause.mask y.clause.maskP))

/-- A unit's blocked runs of some numbers marked as ended or not. -/
def markEnded (ids : List Nat) (v : Bool) (g : Grp) : Grp :=
  { g with blocked := g.blocked.map (fun b => if hasNat ids b.id then { b with ended := v } else b) }

/-- Selection among units, runs that wait for their part in the other group of a pair left out. -/
def selectJoint (s : State) (us : List UnitId) : State :=
  let ids := us.map (fun u => (u, ((unitAt s u).blocked.filter (jointWaits s us u)).map (·.id)))
  let s1 := ids.foldl (fun s e => modUnit s e.1 (markEnded e.2 false)) s
  let s2 := moveOwed s1 us
  let s3 := if us.all (fun v => candMask (unitAt s2 v) == 0) then moveAll s2 us else s2
  ids.foldl (fun s e => modUnit s e.1 (markEnded e.2 true)) (enterLowest s3 us)

/-- SELECT_RUN: owed runs return from the tail, and the eligible run of the lowest counter issues its next clause. A conductor
that winds down exits in place of its next clause, but first finishes one whose wait has ended (01 R17); a grace budget that has
expired redirects its threads first (01 R37). -/
def execSelectRun (u : UnitId) (s : State) : Out :=
  let us := selUnits s u
  if !(us.filter (fun v => !(unitAt s v).retired)).all (fun v => (unitAt s v).clause.isNone) || !maySelect s u then .next s
  else if (unitAt s u).windDown && !(unitAt s u).blocked.any (·.ended) then .next (exitLanes s u [0])
  else
    let s1 := us.foldl settleXfers (us.foldl wakeReady s)
    let s2 := us.foldl redirect s1
    if !maySelect s2 u then .next s2 else .next (selectJoint s2 us)

/-! ## Starvation (01 R33, 16 R357) -/

/-- A reservation in the order of the cycles they were taken in, ties to the lower core, then to the lower core group number (01 R33,
15 R412). -/
def addResv (s : State) (r : Resv) : List Resv → List Resv
  | [] => [r]
  | d :: l =>
    if d.taken = r.taken ∧ coreOf s r.unit * 64 + coreNumber s r.unit < coreOf s d.unit * 64 + coreNumber s d.unit then r :: d :: l else d :: addResv s r l

/-- A group denied issue, or its fares, for longer than its context's bound takes a reservation in its cluster. -/
def takeResv (s : State) (u : UnitId) (fares : Bool) : State :=
  let g := unitAt s u
  let c := clusterOf (coreOf s u)
  let cl := clusterAt s c
  let listed := if fares then cl.fareResv else cl.issueResv
  if g.denied ≤ starvOf (ctxAt s (teamAt s u.team).ctx) ∨ g.deniedFares ≠ fares ∨ listed.any (fun r => r.unit == u) then s
  else
    let r : Resv := { unit := u, taken := cl.cyc.toNat }
    modCluster s c (fun k =>
      if fares then { k with fareResv := addResv s r k.fareResv } else { k with issueResv := addResv s r k.issueResv })

/-- STARVATION_RESERVATION. -/
def execStarvationReservation (u : UnitId) (k : DenyKind) (s : State) : Out :=
  .next (takeResv s u (match k with
    | .fares => true
    | .issue => false))

/-! ## Grace and deadlines (01 R37, 15 R342) -/

/-- GRACE_EXPIRY: when a domain's grace budget has run out, each live thread of it is redirected to its cancel entry, or
exits, in place of its next clause. -/
def execGraceExpiry (grid : Nat) (s : State) : Out :=
  let g := gridAt s grid
  if !g.domain || g.graced || decide (g.sinceDomain < graceOf (ctxAt s g.ctx)) then .next s
  else
    let s1 := modGrid s grid (fun g => { g with graced := true })
    let us := ((tkeys s1.teams).filter (fun t => (teamAt s1 t).grid == grid && (teamAt s1 t).phase == .running)).flatMap
      (fun t => unitIds (teamAt s1 t))
    .next (us.foldl redirect s1)

/-- The domains of every grid and graph of the context are set when DLREM reaches zero. -/
def expireDeadline (s : State) (ctx : Nat) : State :=
  let c := ctxAt s ctx
  if c.record.deadline = 0 ∨ c.counting = false ∨ c.dlrem ≠ 0 ∨ c.expired then s
  else setDomains (modCtx s ctx (fun c => { c with expired := true })) ctx

/-- DEADLINE_EXPIRY. -/
def execDeadlineExpiry (ctx : Nat) (s : State) : Out := .next (expireDeadline s ctx)

end Sys2Proof.Machine
end

