-- ==== Sys2Proof/Machine/Wagon.lean ====
section
/-! DEFINITION. Wagon queues: wpush, wflush, departures, world-model tasks and their bindings (09 R244-R247, 14 R317, R318,
15 R327). -/

set_option linter.unusedVariables false

namespace Sys2Proof.Machine

/-! ## Departures (09 R246, 14 R318) -/

/-- Rows of a queue that have not departed. -/
def undeparted (w : WagonQueue) : Nat := w.rows.length + (w.departed.filter Wagon.held).foldl (fun n d => n + d.rows.length) 0

/-- The lowest free tile slot of a queue. -/
def freeTile (b : WagonBinding) (w : WagonQueue) : Option Nat :=
  (List.range b.tslots).find? (fun i => !w.departed.any (fun d => d.tile == some i))

/-- Held wagons take tile slots in order while one is free. -/
def takeTiles (b : WagonBinding) : Nat → WagonQueue → WagonQueue
  | 0, w => w
  | n + 1, w =>
    match freeTile b w, w.departed.find? Wagon.held with
    | some i, some d =>
      takeTiles b n { w with departed := w.departed.map (fun (x : Wagon) => if x.id = d.id then { x with tile := some i } else x) }
    | _, _ => w

/-- The tile slots of a queue given out. -/
def giveTiles (s : State) (q : Nat) : State :=
  match (wagonAt s q).binding with
  | none => s
  | some b => modWagon s q (takeTiles b b.tslots)

/-- The current wagon of a queue departs if it holds a row. -/
def depart (s : State) (q : Nat) : State :=
  if (wagonAt s q).rows = [] then s
  else
    let (id, s1) := fresh s
    giveTiles (modWagon s1 q (fun w => { w with rows := [], departed := w.departed ++ [{ id := id, rows := w.rows }] })) q

/-- The queue a push names, bound to the issuing context, or the trap of its number or binding. -/
def withQueue (s : State) (x : Ctx) (q : SIdx) (k : Nat → WagonBinding → State) : State :=
  let n := (x.uni q).toNat
  if 64 ≤ n then trapAll s x .illegal 0 0
  else
    match (wagonAt s n).binding with
    | some b => if b.pctx = x.t.ctx then k n b else trapAll s x .accessViolation 6 0
    | none => trapAll s x .accessViolation 6 0

/-- wflush: the current wagon departs; an empty one does nothing. -/
def execWflush (q : SIdx) (s : State) : Out :=
  word (.wflush q) s (fun x => withQueue s x q (fun n _ => modUnit (depart s n) x.u advance))

/-! ## wpush (09 R245) -/

/-- The registers of a push that lie above the thread's: row, result address and handle for the queue's KB. -/
def pushFits (x : Ctx) (kb : Nat) (v h : VIdx) : Bool := shareOk x (h.toNat :: regRange v.toNat (kb / 4 + 2))

/-- A participant's row. -/
def rowBytesOf (x : Ctx) (kb v l : Nat) : List Byte := (regRange v (kb / 4)).flatMap (fun i => natToBytes 4 (x.main l i).toNat)

/-- A participant's result address. -/
def resultAddr (x : Ctx) (kb v l : Nat) : W64 := x.main l (v + kb / 4 + 1) ++ x.main l (v + kb / 4)

/-- The lines of a range owned (05 R115), one whose page is not present by its virtual address. -/
def ownLines (s : State) (ctx op : Nat) (ps : List (Nat × Nat)) : State :=
  ps.foldl (fun s p =>
    match translate s none ctx p.1 .write with
    | (.ok pa, s1) => takeLines op s1 [.phys (lineOf pa)]
    | (.fault _ _, _) => takeLines op s [.virt ctx (p.1 / 64)]
    | _ => s) (settleOwned s)

/-- One row accepted by a queue: its result lines are owned, and a full wagon departs. -/
def pushRow (x : Ctx) (b : WagonBinding) (q v slot : Nat) (s : State) (l : Nat) : State :=
  let (op, s1) := fresh s
  let res := (resultAddr x b.kb v l).toNat
  let row : WagonRow := { op := op, unit := x.u, lane := l, slot := slot, grid := x.t.grid, bytes := rowBytesOf x b.kb v l, res := res }
  let s2 := engineAdd (ownLines s1 x.t.ctx op (pieces res b.rb)) x.u.team
  let s3 := modWagon s2 q (fun w => { w with rows := w.rows ++ [row] })
  if b.nrow ≤ (wagonAt s3 q).rows.length then depart s3 q else s3

/-- The slot of a push, pending with a status for each participant. -/
def pushSlot (s : State) (x : Ctx) (slot : Nat) (done : Bool) : State :=
  let rows : TMap RowStatus := x.lanes.map (fun l => (l, { done := done, err := (if done then 1 else 0) }))
  let f : FutSlot := { state := (if done then .complete else .pending), kind := .wagon, rows := rows }
  modUnit s x.u (fun g => { g with futures := tset g.futures slot f })

/-- Rows appended to a queue in ascending lane order, and the lanes whose rows a full queue has yet to take (09 R244). -/
def pushRows (x : Ctx) (b : WagonBinding) (q v slot : Nat) : List Nat → State → State × List Nat
  | [], s => (s, [])
  | l :: r, s => if Config.wagonRows ≤ undeparted (wagonAt s q) then (s, l :: r) else pushRows x b q v slot r (pushRow x b q v slot s l)

/-- A push goes on with lanes whose rows the queue has yet to take: it holds the group while the queue is full. A domain set meanwhile
cancels those rows (01 R36), and a queue unbound meanwhile refuses them (log 33). -/
def pushOn (s : State) (x : Ctx) (n v h slot : Nat) (lanes : List Nat) : State :=
  let hand (s : State) : State :=
    modUnit s x.u (fun g =>
      let g1 := { g with pushing := none }
      advance (writeHandle { x with g := g1 } g1 h slot))
  match (wagonAt s n).binding with
  | some b =>
    if b.pctx ≠ x.t.ctx then hand (lanes.foldl (fun s l => rowStatus s x.u slot l 10) s)
    else if domainSet s x.u then hand (lanes.foldl (fun s l => rowStatus s x.u slot l 1) s)
    else
      match pushRows x b n v slot lanes s with
      | (s1, []) => hand s1
      | (s1, r) => modUnit s1 x.u (fun g => { g with pushing := some (slot, r) })
  | none => hand (lanes.foldl (fun s l => rowStatus s x.u slot l 10) s)

/-- wpush: every check in the order of the rule, then the rows in ascending lane order. -/
def execWpush (v : VIdx) (q : SIdx) (h : VIdx) (s : State) : Out :=
  word (.wpush v q h) s (fun x =>
    match x.g.pushing with
    | some (slot, r) => pushOn s x (x.uni q).toNat v.toNat h.toNat slot r
    | none =>
      if 64 ≤ (x.uni q).toNat then trapAll s x .illegal 0 0
      else
        let bound := match (wagonAt s (x.uni q).toNat).binding with
          | some b => if b.pctx = x.t.ctx then some b else none
          | none => none
        let kb := match bound with
          | some b => b.kb
          | none => 32
        if !pushFits x kb v h then trapAll s x .operandLimit 1 0
        else
          withSlot s x (fun slot =>
            withQueue s x q (fun n b =>
              let bad (p : Nat → Bool) : List Nat := x.lanes.filter (fun l => p (resultAddr x b.kb v.toNat l).toNat)
              let mis := bad (fun a => a % 16 != 0)
              let out := bad (fun a => decide (Config.globalLimit ≤ a))
              if mis ≠ [] then trapWord s x .misaligned 0 (laneMask mis) (resultAddr x b.kb v.toNat (mis.headD 0))
              else if out ≠ [] then trapWord s x .accessViolation 1 (laneMask out) (resultAddr x b.kb v.toNat (out.headD 0))
              else if domainSet s x.u then
                modUnit (pushSlot s x slot true) x.u (fun g => advance (writeHandle { x with g := g } g h.toNat slot))
              else if !quiet s x.u then s
              else pushOn (pushSlot (releaseStep s x.t.core) x slot false) x n v.toNat h.toNat slot x.lanes)))

/-- Whether a row was pushed by a clause of a lockstep team that has yet to compare equal (17 R386). -/
def rowHeld (s : State) (r : WagonRow) : Bool := unreleased s r.unit r.op

/-- WAGON_AGE_LIMIT: the oldest row of a queue's current wagon has waited the age limit. -/
def execWagonAgeLimit (queue : Nat) (s : State) : Out :=
  let w := wagonAt s queue
  match w.binding, w.rows with
  | some b, r :: _ => if b.age ≤ r.age && !s.supervisor.freeze && !rowHeld s r then .next (depart s queue) else .next s
  | _, _ => .next s

/-! ## Tasks (14 R318) -/

/-- The address of a tile slot's row tile. -/
def tileAt (b : WagonBinding) (i : Nat) : Nat := b.tiles + tileBytes b * i

/-- The address of a tile slot's result tile. -/
def resultTile (b : WagonBinding) (i : Nat) : Nat := tileAt b i + b.nrow * 128

/-- A departed wagon changed. -/
def modDeparted (s : State) (q id : Nat) (f : Wagon → Wagon) : State :=
  modWagon s q (fun w => { w with departed := w.departed.map (fun d => if d.id = id then f d else d) })

/-- A wagon ends: its tile slot is freed, held wagons go on, and what waited for the queue's rows or tasks completes. -/
def wagonEnds (s : State) (q id : Nat) : State :=
  let b := (wagonAt s q).binding
  let s1 := giveTiles (modWagon s q (fun w => { w with departed := w.departed.filter (fun d => d.id != id) })) q
  let s2 := checkWagonUnbind s1 q
  match b with
  | some b => checkUnbind s2 b.mctx b.mslot
  | none => s2

/-- Every row of a wagon completes with an ERR, its lines released unchanged, and the wagon ends. -/
def wagonFails (s : State) (q : Nat) (d : Wagon) (err : Nat) : State :=
  wagonEnds (d.rows.foldl (fun s r => rowDone s r err) s) q d.id

/-- The bytes of a wagon's tiles: its rows at a pitch of 128 bytes, then zeros. -/
def tileData (b : WagonBinding) (d : Wagon) : List Byte :=
  let rows := d.rows.flatMap (fun r => r.bytes ++ List.replicate (128 - b.kb) 0)
  rows ++ List.replicate (b.nrow * 128 + b.nrow * b.rb - rows.length) 0

/-- The arguments of a wagon's task. -/
def taskArgs (b : WagonBinding) (q i : Nat) (d : Wagon) : List W32 :=
  let w (a : Nat) : W32 := BitVec.ofNat 32 a
  [w (tileAt b i), w (tileAt b i / 2 ^ 32), w (resultTile b i), w (resultTile b i / 2 ^ 32), w b.nrow, w d.rows.length, w q, 0]

/-- The task of a wagon: one team of the binding's kernel in its model context. -/
def taskGrid (b : WagonBinding) (q i : Nat) (d : Wagon) : Grid :=
  { ctx := b.mctx, kind := .wagonTask, cls := b.entry.cls, kernel := b.entry, groups := teamGroups b.entry b.tgroups, priv := b.tpriv * 16,
    args := taskArgs b q i d, origin := .wagon q d.id, parentCluster := some (q % 24) }

/-- WAGON_TASK_CREATE: the first wagon of a queue with a tile slot and no task: its tiles are written, and its task joins the ready
pool, waits for it, or cannot be created. -/
def execWagonTaskCreate (queue : Nat) (s : State) : Out :=
  match (wagonAt s queue).binding, (wagonAt s queue).departed.find? (fun d => d.tile.isSome && d.grid.isNone) with
  | some b, some d =>
    let c := ctxAt s b.mctx
    let i := d.tile.getD 0
    if s.supervisor.freeze || d.rows.any (rowHeld s) then .next s
    else if heldPairs s (.wagons queue) allPairs ≠ [] then .next (holdAsk s (.wagons queue) (heldPairs s (.wagons queue) allPairs))
    else if c.phase = .stopped ∨ c.phase = .free then .next (wagonFails s queue d 10)
    else if c.expired then .next (wagonFails s queue d 1)
    else if poolFull s then .next s
    else
      match engPlaces s none b.mctx 0 (dataPieces (tileAt b i) (tileData b d)) with
      | .ok s1 ws =>
        let (uid, s2) := addWork (engineWrite s1 ws) (taskGrid b queue i d)
        .next (startDeadline (modDeparted s2 queue d.id (fun d => { d with grid := some uid })) uid)
      | .bad _ _ _ => .next (wagonFails s queue d 3)
      | _ => .next s
  | _, _ => .next s

/-! ## Results (09 R247, 14 R318) -/

/-- What copying results comes to. -/
inductive RowsCopied where
  | all (s : State)
  | waits (s : State)

/-- The results of the rows from row r on, each copied to its address under the push's ownership; a page that faults is waited
for. -/
def copyResults (q : Nat) (b : WagonBinding) (id i : Nat) : Nat → List WagonRow → State → RowsCopied
  | _, [], s => .all s
  | r, row :: rest, s =>
    let next (s : State) (err : Nat) : RowsCopied :=
      copyResults q b id i (r + 1) rest (modDeparted (rowDone s row err) q id (fun d => { d with copied := r + 1 }))
    match engRead s none b.mctx row.op (pieces (resultTile b i + r * b.rb) b.rb) with
    | .bad c _ _ => next s (causeErr c)
    | .ok s1 bs =>
      (match engPlaces s1 none b.pctx row.op (dataPieces row.res bs) with
       | .ok s2 ws => next (engineWrite s2 ws) 0
       | .bad c _ _ => next s1 (causeErr c)
       | .wait => .waits s
       | .fault va lv h =>
         if faultRoom s1 then .waits (modDeparted (feFault s1 b.pctx .write va lv h) q id (fun d => { d with page := some (pageOf va) }))
         else .waits s)
    | _ => .waits s

/-- How the task of a wagon ended. -/
inductive TaskEnd where
  | retired
  | stopped (layerFault : Bool)
  | cancelled
deriving DecidableEq, Repr

/-- What the end of a wagon's task comes to: all its rows have completed, or the copying of results waits. -/
def taskEnds (s : State) (q id : Nat) (e : TaskEnd) : RowsCopied :=
  match (wagonAt s q).binding, (wagonAt s q).departed.find? (fun d => d.id == id) with
  | some b, some d =>
    match e with
    | .stopped l => .all (wagonFails s q { d with rows := d.rows.drop d.copied } (if l then 5 else 3))
    | .cancelled => .all (wagonFails s q { d with rows := d.rows.drop d.copied } 1)
    | .retired =>
      if d.page.isSome then .waits s
      else
        match copyResults q b id (d.tile.getD 0) d.copied (d.rows.drop d.copied) s with
        | .all s1 => .all (wagonEnds s1 q id)
        | r => r
  | _, _ => .all s

/-! ## Bindings (14 R317) -/

/-- The binding a record describes, none where a field breaks its range. -/
def parseBinding (x : Nat) (k : KernelDesc) : Option WagonBinding :=
  let groups := bitsAt x 271 264
  let zeros := [(511, 288), (263, 260), (127, 96), (63, 60), (55, 50), (47, 45), (39, 34), (31, 28), (23, 22), (15, 14), (7, 6)]
  if zeros.all (fun z => zeroAt x z.1 z.2) && decide (bitsAt x 287 272 ≤ 4096) && bitsAt x 255 192 % 64 == 0 && bitsAt x 95 64 != 0 &&
      (!k.roles.isEmpty || (decide (1 ≤ groups) && decide (groups ≤ 32))) && !oddPair k groups then
    some { pctx := bitsAt x 13 8, mctx := bitsAt x 21 16, mslot := bitsAt x 27 24, kb := 32 * (bitsAt x 33 32 + 1), rfmt := bitsAt x 44 40,
           nrow := 8 * 2 ^ bitsAt x 49 48, rb := 16 * (bitsAt x 59 56 + 1), age := bitsAt x 95 64, entry := k, tiles := bitsAt x 255 192,
           tslots := bitsAt x 259 256 + 1, tgroups := groups, tpriv := bitsAt x 287 272 }
  else none

/-- Whether every page of a binding's tile region is mapped present and writable in the model context. -/
def tilesMapped (s : State) (b : WagonBinding) : Bool :=
  decide (b.tiles + b.tslots * tileBytes b ≤ Config.globalLimit) &&
  (pagesOf b.tiles (b.tslots * tileBytes b)).all (pageMapped s b.mctx true)

/-- Whether a context may take part in a binding. -/
def bindable (s : State) (c : Nat) : Bool := (ctxAt s c).phase == .active || (ctxAt s c).phase == .suspended

/-- WAGON_BIND: the record is checked, and its queue bound. -/
def execWagonBind (h : CmdHeader) (addr : W64) (s : State) : Out :=
  adminCommand 0x17 h s (fun c q =>
    cmdRead s q addr 64 (fun bs s1 =>
      let x := recBits bs
      let n := bitsAt x 5 0
      if !bindable s1 (bitsAt x 13 8) || !bindable s1 (bitsAt x 21 16) then .status s1 18
      else
        match kernelAt s1 (bitsAt x 21 16) (bitsAt x 191 128) with
        | none => .status s1 6
        | some k =>
          match parseBinding x k with
          | none => .status s1 6
          | some b =>
            if (wagonAt s1 n).binding.isSome || (modelAt s1 b.mctx b.mslot).isNone || !tilesMapped s1 b then .status s1 6
            else .status { s1 with wagons := tset s1.wagons n { binding := some b } } 0))

/-- WAGON_UNBIND: the binding goes when the queue is empty of rows. -/
def execWagonUnbind (h : CmdHeader) (queue : BitVec 6) (s : State) : Out :=
  adminCommand 0x18 h s (fun c q =>
    let w := wagonAt s queue.toNat
    match w.binding with
    | none => .status s 6
    | some b =>
      if w.unbindBy.isSome then .status s 6
      else if w.rows = [] ∧ w.departed = [] then
        .status (checkUnreg { s with wagons := tset s.wagons queue.toNat {} } b.mctx) 0
      else .accepted (modWagon s queue.toNat (fun w => { w with unbindBy := some (c.queue, c.index, h) })))

end Sys2Proof.Machine
end

