-- ==== Sys2Proof/Machine/Preempt.lean ====
section
/-! DEFINITION. Pre-emption of teams, gangs and concurrent grids (17 R381, R382, 01 R32, 05 R113): how it begins, how a team is saved,
and how an attempt is abandoned. -/

set_option linter.unusedVariables false

namespace Sys2Proof.Machine

/-! ## Leaving a core -/

/-- What a team that leaves its core takes back: the fare requests of its words, its reservations and ring claims (16 R346, R357). -/
def leaveCore (s : State) (t : Nat) : State :=
  let c := (teamAt s t).core
  let k := clusterOf c
  let s1 := modCluster s k (fun k =>
    { k with
      requests := k.requests.filter (fun r => match r.unit with
        | some u => u.team != t
        | none => true)
      fareResv := k.fareResv.filter (fun r => r.unit.team != t)
      issueResv := k.issueResv.filter (fun r => r.unit.team != t) })
  { s1 with ring := { s1.ring with claims := s1.ring.claims.filter (fun r => r.unit.team != t) } }

/-! ## What is pre-empted together (17 R381) -/

/-- The teams that are pre-empted with a team: its gang, all of a concurrent grid, or itself. -/
def preemptSet (s : State) (t : Nat) : List Nat :=
  let tm := teamAt s t
  if (gridAt s tm.grid).cls = 0 then tkeys (s.teams.filter (fun x => x.2.grid == tm.grid)) else (gangMembers s tm).filter (thas s.teams)

/-- Whether a higher team of the same parallel grid runs on: it is pre-empted first (01 R27). -/
def higherRuns (s : State) (t : Nat) : Bool :=
  let tm := teamAt s t
  (gridAt s tm.grid).cls == 1 &&
  s.teams.any (fun x => x.2.grid == tm.grid && decide (tm.index < x.2.index) && x.2.phase != .saved && !hasNat (preemptSet s t) x.1)

/-- Whether some run waits in a waitf that was legal because of a team's residence, while its own team is not pre-empted first
(01 R32). -/
def awaitedProducer (s : State) (set : List Nat) (t : Nat) : Bool :=
  s.teams.any (fun x =>
    x.2.phase == .running && !hasNat set x.1 &&
    x.2.units.any (fun g => g.2.blocked.any (fun b =>
      match b.wait with
      | .waitf _ _ _ _ _ p => p == some t && !b.ended
      | _ => false)))

/-- Whether pre-emption of a team's set may begin now. -/
def preemptable (s : State) (t : Nat) : Bool :=
  let set := preemptSet s t
  set.all (fun m => (teamAt s m).phase == .running) && !higherRuns s t && !set.any (awaitedProducer s set)

/-- A team's groups select no new clause from now on. -/
def drainTeam (forGrid : Nat) (s : State) (m : Nat) : State :=
  modTeam s m (fun tm =>
    { tm with
      phase := .saving
      moving := none
      preemptFor := forGrid
      preemptElapsed := 0
      units := tmap (fun i g => if i < 32 then { g with drain := true } else g) tm.units })

/-- Pre-emption of a team's set begins: its groups select no new clause. For is the grid it makes room for, or 0. -/
def beginPreempt (s : State) (t forGrid : Nat) : State :=
  (preemptSet s t).foldl (drainTeam forGrid) s

/-! ## Saving (17 R381, R382) -/

/-- Whether a unit has reached a boundary, or has retired, with its loads done and its stores drained, but for those behind a logged
store. -/
def unitSaves (g : Grp) : Bool :=
  (g.retired || atBoundary g) && decide (g.loads = []) &&
  (match g.stores with
   | [] => true
   | p :: _ => p.logged.isSome)

/-- Whether some matrix operation of a team stands in a matrix unit. -/
def matrixBusy (s : State) (t : Nat) : Bool :=
  s.cores.any (fun c => (coreOps c.2).any (fun o => o.team == t || o.unit.team == t))

/-- Whether a team can be saved now. -/
def teamSaves (s : State) (t : Nat) : Bool :=
  (teamAt s t).units.all (fun g => unitSaves g.2) && !matrixBusy s t

/-- Whether a blocked run keeps its arrival in the saved state (01 R29, 08 R206). -/
def keepsArrival (b : BlockedRun) : Bool :=
  match b.wait with
  | .bar _ _ _ => true
  | .barg _ _ => true
  | _ => false

/-- A unit saved: at a clause boundary, so that a run selected but held at its header stays selected (01 R21); runs at a barrier keep
their arrival, the other waits are withdrawn and restart from their header, apart from the other runs there (01 R19, R29). -/
def saveUnit (s : State) (u : UnitId) : State :=
  let g := unitAt s u
  let s1 := (g.blocked.filter (fun b => !keepsArrival b)).foldl (fun s b => withdrawWait s u b) s
  modUnit s1 u (fun g =>
    { g with
      held := none
      drain := false
      denied := 0
      deniedFares := false
      apart := g.apart ++ (g.blocked.filter (fun b => !keepsArrival b)).map (fun b => { mask := b.clause.mask, pc := b.clause.head, maskP := b.clause.maskP })
      blocked := (g.blocked.filter keepsArrival).map (fun b => { b with elapsed := 0 }) })

/-- A team saved: a release step, its units and its operand-log entries kept, and its core left (05 R113). -/
def saveTeam (s : State) (t : Nat) : State :=
  let c := (teamAt s t).core
  let s1 := (unitIds (teamAt s t)).foldl saveUnit (leaveCore (releaseStep s c) t)
  let s2 := modTeam s1 t (fun tm => { tm with phase := .saved, savedLog := (coreAt s1 c).log.filter (fun e => e.unit.team == t) })
  let s3 := modCore s2 c (fun k => { k with log := k.log.filter (fun e => e.unit.team != t) })
  clearModes s3 (teamAt s t)

/-- PREEMPT_TEAM: firmware core 1 begins to pre-empt a running team with its set, or saves a set whose every member has reached a
boundary within the pre-emption bound (17 R381). -/
def execPreemptTeam (team : Nat) (s : State) : Out :=
  let set := preemptSet s team
  if !thas s.teams team || s.supervisor.freeze then .next s
  else if (teamAt s team).phase = .running then .next (if preemptable s team then beginPreempt s team 0 else s)
  else if (teamAt s team).phase = .saving ∧ set.all (fun m => decide ((teamAt s m).preemptElapsed ≤ s.policy.preemptBound)) ∧ set.all (fun m => (teamAt s m).phase == .saving && teamSaves s m) then
    .next (checkSuspended (set.foldl saveTeam s) (teamAt s team).ctx)
  else .next s

/-- PREEMPTION_ABANDON: past the pre-emption bound the whole set runs on unchanged, and firmware tells the host (17 R381). -/
def execPreemptionAbandon (team : Nat) (s : State) : Out :=
  let tm := teamAt s team
  if tm.phase ≠ .saving ∨ tm.preemptElapsed ≤ s.policy.preemptBound then .next s
  else
    let s1 := (preemptSet s team).foldl (fun s m => modTeam s m (fun tm =>
      if tm.phase = .saving then
        { tm with phase := .running, moving := none, preemptFor := 0, preemptElapsed := 0, units := tmap (fun _ g => { g with drain := false }) tm.units }
      else tm)) s
    .next (hostEvent s1 ⟨0x84, 0, 0, natToBytes 4 tm.ctx ++ natToBytes 4 (gridAt s tm.grid).gridid.toNat⟩)

end Sys2Proof.Machine
end

