-- ==== Sys2Proof/Machine/Translation.lean ====
section
/-! DEFINITION. Fills, invalidations, the fault buffer's service and REPLAY (17 R368-R377), and the migration table (17 R371). -/

set_option linter.unusedVariables false

namespace Sys2Proof.Machine

/-! ## TLB fills (17 R365, R369) -/

/-- The cluster that holds a pending fill. -/
def fillCluster (s : State) (id : Nat) : Option (Nat × PendingFill) :=
  (s.clusters.filterMap (fun k => (k.2.fills.find? (fun f => f.id == id)).map (fun f => (k.1, f)))).head?

/-- TLB_FILL: a walker's result enters the caches of the core or engine it walked for, unless it was voided. -/
def execTlbFill (fill : Nat) (s : State) : Out :=
  match fillCluster s fill with
  | none => .next s
  | some (c, f) => .next (endFill s c f)

/-! ## Invalidation (17 R368, R370) -/

/-- Whether an invalidation covers a global range. -/
def covers (i : Invalidation) (va n : Nat) : Bool := decide (va < Config.globalLimit) && meets i va n

/-- The elements of an operation's operand A, or B. -/
def opElems (o : MatOp) (isA : Bool) : List (Option ElemAt) :=
  match o.kind with
  | .mul mx _ blk a b _ _ =>
    if isA then tileElems a blk.ac (tileDim mx.shape.m) (keOf mx) else tileElems b blk.bc (tileDim mx.shape.n) (keOf mx)
  | .acld a => if isA then loadElems a else []
  | _ => []

/-- The pins an operation holds on elements, by operand and number. -/
def heldPins (o : MatOp) : List (Bool × Nat × Nat) :=
  if o.pin ≠ .pinned then o.pins
  else
    match o.kind with
    | .mul _ _ _ _ _ _ _ => keepPins true o.aData (keepPins false o.bData [])
    | .acld _ => keepPins true o.bData []
    | _ => []

/-- The numbers of an operand's elements that an invalidation covers. -/
def coveredElems (i : Invalidation) (es : List (Option ElemAt)) : List Nat :=
  ((List.range es.length).zip es).filterMap (fun p =>
    match p.2 with
    | some e => if covers i e.addr.toNat e.bytes then some p.1 else none
    | none => none)

/-- The numbers of an operation's stored ranges and bias that an invalidation covers. -/
def coveredDest (i : Invalidation) (o : MatOp) : List Nat :=
  ((numberedFrom 0 (storeRanges o.kind) ++ numberedFrom 4096 (biasRanges o.kind)).filter (fun r => covers i r.2.1 r.2.2)).map (·.1)

/-- The pins of an operation that an invalidation leaves: those on elements, and those on its stored ranges and bias. -/
def pinsKept (i : Invalidation) (o : MatOp) : List (Bool × Nat × Nat) × TMap Loc :=
  let ca := coveredElems i (opElems o true)
  let cb := coveredElems i (opElems o false)
  let cd := coveredDest i o
  ((heldPins o).filter (fun p => !hasNat (if p.1 then ca else cb) p.2.1), o.dest.filter (fun d => !hasNat cd d.1))

/-- Whether a matrix operation holds pins that an invalidation covers. -/
def opCovered (s : State) (i : Invalidation) (o : MatOp) : Bool :=
  (teamAt s o.team).ctx == i.ctx && (decide ((pinsKept i o).1 ≠ heldPins o) || decide ((pinsKept i o).2 ≠ o.dest))

/-- An operation that has not started drops the pins an invalidation covers, and those alone; it pins them again before it starts
(17 R370). -/
def unpin (s : State) (i : Invalidation) (o : MatOp) : MatOp :=
  if !o.running && opCovered s i o then
    { o with pin := .open, aData := [], bData := [], pins := (pinsKept i o).1, dest := (pinsKept i o).2 }
  else o

/-- A waiting word translated again: the walk sets A, and the peer aperture takes no read (17 R364, 19 R400). -/
def placeAgain (s : State) (agent : Option Nat) (ctx va : Nat) : Xlate × State :=
  match translate s agent ctx va .read with
  | (.ok pa, s1) => (if inPeer pa then .violation 1 else .ok pa, s1)
  | r => r

/-- One blocked run of a unit changed. -/
def modRun (s : State) (u : UnitId) (id : Nat) (f : BlockedRun → BlockedRun) : State :=
  modUnit s u (fun g => { g with blocked := g.blocked.map (fun b => if b.id = id then f b else b) })

/-- The trap record of a run's wait at an address. -/
def runRec (s : State) (u : UnitId) (c : Cause) (sub : Nat) (b : BlockedRun) (va : Nat) : TrapRec :=
  mkRec s u (b.clause.head + 4 * (b.clause.next - 1)) b.clause.head c sub b.parts (BitVec.ofNat 64 va)

/-- A chosen blocked waitf translates its word again and reads it there; or it has lost its page, or meets a violation, which it takes at
its unit's next clause header (17 R364, R368, R377, log 46). -/
def rebindRun (sel : BlockedRun → Nat → Bool) (u : UnitId) (s : State) (b : BlockedRun) : State :=
  match b.wait with
  | .waitf (.phys _) va v k d p =>
    if b.ended || !sel b va then s
    else
      match placeAgain s (some (coreOf s u)) (teamAt s u.team).ctx va with
      | (.ok pa, s1) => modRun s1 u b.id (fun b => { b with wait := .waitf (.phys pa) va v k d p, lost := none })
      | (.fault _ _, s1) => modRun s1 u b.id (fun b => { b with lost := some false })
      | (.violation n, s1) =>
        let r := runRec s1 u .accessViolation n b va
        deferTrap (modRun s1 u b.id (fun b => { b with lost := some true })) u r r.lane
  | _ => s

/-- Chosen runs of a unit likewise. -/
def rebindRuns (sel : BlockedRun → Nat → Bool) (s : State) (u : UnitId) : State := (unitAt s u).blocked.foldl (rebindRun sel u) s

/-- A queue's WAIT, if it is chosen, likewise; a violation completes it ACCESS_ERROR (15 R328, R410). -/
def rebindCmd (sel : WaitCmd → Bool) (s : State) (n : Nat) : State :=
  let q := queueAt s n
  let set (s : State) (w : WaitCmd) : State := modQueue s n (fun q => { q with waiting := some w })
  match q.waiting with
  | some w =>
    if w.hit || !sel w then s
    else
      match placeAgain s none q.ctx w.va with
      | (.ok pa, s1) => set s1 { w with pa := pa, lost := none }
      | (.fault _ _, s1) => set s1 { w with lost := some false }
      | (.violation k, s1) => completeCommand (modQueue s1 n (fun q => { q with waiting := none })) n w.index 0x07 w.h 19 0 k
  | none => s

/-- Whether a queue's watched line lies in an invalidated range. -/
def watchGone (i : Invalidation) (q : Queue) : Bool := q.ctx == i.ctx && q.watchLine.isSome && covers i q.widx 4

/-- The level and the H of the fault that a walk of an address meets. -/
def faultOf (s : State) (ctx va : Nat) : Nat × Bool :=
  match rootWalk s ctx va with
  | .fault lv h => (lv, h)
  | _ => (0, false)

/-- The faults of a unit's runs that have lost their word's page recorded, while the buffer has room (17 R372, R377). -/
def recordLostRuns (s : State) (u : UnitId) : State :=
  (unitAt s u).blocked.foldl (fun s b =>
    match b.wait, b.lost with
    | .waitf _ va _ _ _ _, some false =>
      if faultRoom s then
        let f := faultOf s (teamAt s u.team).ctx va
        modUnit (writeFault s (unitFault s u (if isCond u then agentConductor else agentGroup) .read va f.1 f.2 0xFF)) u (fun g =>
          { g with blocked := g.blocked.map (fun x => if x.id = b.id then { x with lost := some true } else x) })
      else s
    | _, _ => s) s

/-- The fault of a queue's WAIT that has lost its word's page recorded. -/
def recordLostCmd (s : State) (n : Nat) : State :=
  let q := queueAt s n
  match q.waiting with
  | some w =>
    if w.lost = some false ∧ faultRoom s then
      let f := faultOf s q.ctx w.va
      modQueue (feFault s q.ctx .read w.va f.1 f.2) n (fun q => { q with waiting := some { w with lost := some true } })
    else s
  | none => s

/-- The faults of every wait that has lost its page recorded. -/
def recordLost (s : State) : State := (tkeys s.queues).foldl recordLostCmd ((allUnits s).foldl recordLostRuns s)

/-! ## What a REPLAY reaches (17 R373) -/

/-- Bytes of a REPLAY's page size (19 R396). -/
def replayBytes (r : ReplayScope) : Nat := if r.size = 0 then 2 ^ 16 else if r.size = 1 then 2 ^ 21 else 2 ^ 30

/-- Whether a 64 KiB page lies in a REPLAY's scope. -/
def hits (r : ReplayScope) (page : Nat) : Bool := decide (pageOf r.va ≤ page) && decide (page ≤ pageOf (r.va + replayBytes r - 1))

/-- Whether an address does. -/
def hitsVa (r : ReplayScope) (va : Nat) : Bool := hits r (pageOf va)

/-- Units of the teams of a context, those of saved teams with the transfers and waits that they keep. -/
def ctxUnits (s : State) (ctx : Nat) : List UnitId := (s.teams.filter (fun t => t.2.ctx == ctx)).flatMap (fun t => unitIds t.2)

/-- Whether a unit's team stands on a core. -/
def onCore (s : State) (u : UnitId) : Bool := (teamAt s u.team).phase != .saved

/-! ## Operand-log entries (17 R374, R375) -/

/-- The access kind of a logged word. -/
def LogEntry.kind (e : LogEntry) : AccKind := if e.atomic then .atomic else if e.isStore then .write else .read

/-- An operand-log entry replaced, or removed. -/
def setEntry (s : State) (core : Nat) (id : Nat) (e : Option LogEntry) : State :=
  modCore s core (fun c => { c with log := c.log.filterMap (fun x => if x.id = id then e else some x) })

/-- The store that stands for a logged word in its group's drain, with lanes added; the last entry's end lets it drain, or removes
one without lanes. -/
def feedStore (e : LogEntry) (lanes : List LaneAcc) (last : Bool) (g : Grp) : Grp :=
  let st := g.stores.map (fun (p : PendingStore) =>
    if p.logged = some e.id then { p with lanes := p.lanes ++ lanes, logged := (if last then none else p.logged) } else p)
  let gone := st.filter (fun p => p.id == e.id && p.logged.isNone && p.lanes.isEmpty)
  gone.foldl (fun g p => flagDec g p.flag) { g with stores := st.filter (fun p => !(p.id == e.id && p.logged.isNone && p.lanes.isEmpty)) }

/-- Lanes of a logged load performed; the flag keeps one count for the load and one while the entry stays. -/
def feedLoad (s : State) (e : LogEntry) (lanes : List LaneAcc) (last : Bool) : State :=
  if lanes = [] then (if last then modUnit s e.unit (fun g => flagDec g e.flag) else s)
  else
    let (id, s1) := fresh s
    let p : PendingLoad := e.load.getD
      { id := id, pc := e.pc, cstart := e.cstart, flag := e.flag, dest := .lanes e.v, type := e.ltype, bytes := loadBytes e.ltype, lanes := lanes }
    modUnit s1 e.unit (fun g =>
      let g1 := { g with loads := g.loads ++ [{ p with id := id, lanes := lanes }] }
      if last then g1 else flagInc g1 e.flag)

/-- An entry after some of its lanes have been performed, dropped or left. -/
def settleEntry (s : State) (core : Nat) (e : LogEntry) (done left : List LaneAcc) (again : Bool) : State :=
  let s1 := setEntry s core e.id (if left = [] then none else some { e with lanes := left, again := again })
  if e.isStore then modUnit s1 e.unit (feedStore e done left.isEmpty) else feedLoad s1 e done left.isEmpty

/-- The lanes of an entry that meet a cause end in a deferred trap of the logged word. -/
def denyLanes (s : State) (e : LogEntry) (c : Cause) (sub : Nat) (lanes : List LaneAcc) (addr : W64) : State :=
  if lanes = [] then s
  else
    let m := laneMask (lanes.map (·.lane))
    deferTrap s e.unit (mkRec s e.unit e.pc e.cstart c sub m addr) (lowestLane m)

/-- Some lanes of an entry translated again: performed, trapped, or faulted anew with a new record. -/
def retryLanes (s : State) (core : Nat) (e : LogEntry) (sel : LaneAcc → Bool) : State :=
  let now := e.lanes.filter sel
  let rs := now.map (fun a => (a, globalLane s core e.ctx e.kind a.va (BitVec.ofNat 64 a.va)))
  let ok := rs.filterMap (fun r =>
    match r.2 with
    | .ok loc va => some { r.1 with loc := loc }
    | _ => none)
  let flt := rs.filterMap (fun r =>
    match r.2 with
    | .fault va lv h => some (r.1, ({ lane := r.1.lane, va := va, level := lv, h := h } : Faulted))
    | _ => none)
  let s1 := passLanes core e.ctx e.kind s (rs.map (fun r => (r.1.lane, r.2)))
  let bads := rs.map (fun r => (r.1.lane, r.2))
  let s2 := match worstRank bads with
    | none => s1
    | some k =>
      match rankTrap s1 (atRank bads k) with
      | .trap s1 c sub m a => deferTrap s1 e.unit (mkRec s1 e.unit e.pc e.cstart c sub m a) (lowestLane m)
      | _ => s1
  let room := faultsFit s2 (flt.map (·.2))
  let s3 := if flt ≠ [] ∧ room then writeFaults s2 e.unit e.kind e.slot (flt.map (·.2)) else s2
  settleEntry s3 core e ok (e.lanes.filter (fun a => !sel a) ++ flt.map (fun f => { f.1 with loc := .phys 0 }))
    ((!room && !flt.isEmpty) || (e.again && e.lanes.any (fun a => !sel a)))

/-- An entry of a team that has stopped or gone is dropped. -/
def deadEntry (s : State) (e : LogEntry) : Bool := !thas s.teams e.unit.team || (teamAt s e.unit.team).stopped

/-- Chosen entries of every core retried, in program order. -/
def retryLogs (s : State) (sel : LogEntry → LaneAcc → Bool) : State :=
  (tkeys s.cores).foldl (fun s c => ((coreAt s c).log.filter (fun e => e.lanes.any (sel e))).foldl (fun s e =>
    if deadEntry s e then setEntry s c e.id none else retryLanes s c e (sel e)) s) s

/-- Logged lanes whose walks an invalidation voided translate again: they are performed, trapped, or recorded as faults (17 R369, R374). -/
def walkAgain (s : State) (ctx : Nat) : State := retryLogs s (fun e a => e.ctx == ctx && decide (a.loc = noPlace) && onCore s e.unit)

/-! ## The end of an invalidation (17 R368) -/

/-- The undrained stores and reds of a saved team that took an old translation: they translate again when the team resumes, in program
order. -/
def relogTeam (i : Invalidation) (t : Team) : Team :=
  let r := relogStores (fun _ p => fun a => oldLane i (p.size a) a) t.savedLog t
  { t with savedLog := sortBy (fun a b => decide (a.id ≤ b.id)) r.1, units := r.2 }

/-- Whether a run's word or a WAIT's lies in an invalidated range and its place is not the one the tables now give. -/
def placeOld (s : State) (i : Invalidation) (pa : Option Nat) (va : Nat) : Bool := covers i va 4 && decide (placeNow s i.ctx va ≠ pa)

/-- The place a blocked run reads. -/
def runPlace (b : BlockedRun) : Option Nat :=
  match b.wait with
  | .waitf (.phys pa) _ _ _ _ _ => if b.lost.isSome then none else some pa
  | _ => none

/-- Cached translations, unstarted pins, waiting words, saved stores and watched lines drop the old translation (17 R368, R370, 15
R324). -/
def dropOld (s : State) (i : Invalidation) : State :=
  let s1 := dropTlb s i.ctx i.va i.len
  let again := (s1.queues.filter (fun e => watchGone i e.2)).map (·.1)
  let s2 := { s1 with
    cores := tmap (fun _ c => { c with matrix := c.matrix.map (unpin s i) }) s1.cores
    teams := tmap (fun _ t => if t.ctx = i.ctx ∧ t.phase = .saved then relogTeam i t else t) s1.teams
    queues := tmap (fun _ q => if watchGone i q then { q with watchLine := none } else q) s1.queues }
  let runs := ((allUnits s2).filter (fun u => (teamAt s2 u.team).ctx == i.ctx)).foldl
    (rebindRuns (fun b va => placeOld s2 i (runPlace b) va)) s2
  let cmds := (tkeys (s2.queues.filter (fun q => q.2.ctx == i.ctx))).foldl
    (rebindCmd (fun w => placeOld s2 i (if w.lost.isSome then none else some w.pa) w.va)) runs
  recordLost (testWaits (again.foldl armQueue cmds))

/-- Whether some access took a physical address in an invalidated range and has not been performed. -/
def accessLeft (s : State) (i : Invalidation) : Bool :=
  s.teams.any (fun t => t.2.ctx == i.ctx && t.2.units.any (fun g =>
    g.2.loads.any (fun p => p.lanes.any (oldLane i p.bytes)) || g.2.stores.any (fun p => p.lanes.any (fun a => oldLane i (p.size a) a))))

/-- Whether some running operation holds pins in an invalidated range (17 R370). -/
def pinLeft (s : State) (i : Invalidation) : Bool := s.cores.any (fun c => c.2.matrix.any (fun o => o.running && opCovered s i o))

/-- The number under which an evicted page's bytes are kept. -/
def evictKey (ctx page : Nat) : Nat := ctx * 2 ^ 32 + page

/-- The frames of evicted pages whose invalidations have completed are free, their home values kept (17 R377, log 12). -/
def freeEvicted (s : State) : State :=
  let waits (e : Nat × Nat × Nat) : Bool := invalidating s e.1 (e.2.1 * pageBytes) pageBytes
  (s.evicting.filter (fun e => !waits e)).foldl (fun s e =>
    let pa := e.2.2
    let kept : Mem := (s.mem.filter (fun c => decide (pa ≤ c.1) && decide (c.1 < pa + pageBytes))).map (fun c => (c.1 - pa, c.2))
    { s with evicted := tset s.evicted (evictKey e.1 e.2.1) kept, freeFrames := pa / pageBytes :: s.freeFrames })
    { s with evicting := s.evicting.filter waits }

/-- An invalidation in progress: what it covers drops the old translation, and it completes when no access and no running operation
still uses one. -/
def endInvalidation (s : State) (i : Invalidation) : State :=
  let s1 := walkAgain (dropOld s i) i.ctx
  if accessLeft s1 i || pinLeft s1 i then s1
  else freeEvicted { s1 with invalidations := s1.invalidations.filter (fun j => decide (j ≠ i)) }

/-- Every invalidation in progress that can complete. -/
def endInvalidations (s : State) : State := s.invalidations.foldl endInvalidation s

/-- INVALIDATION: it begins by dropping every cached translation of its range, and completes when nothing still uses one. -/
def execInvalidation (ctx va len : Nat) (s : State) : Out := .next (endInvalidation (beginInvalidation s ctx va len) ⟨ctx, va, len⟩)

/-- The lanes of a context's entries in a REPLAY's scope end in ACCESS_VIOLATION 5. -/
def denyLogs (s : State) (r : ReplayScope) : State :=
  (tkeys s.cores).foldl (fun s c => ((coreAt s c).log.filter (fun e => e.ctx == r.ctx && e.lanes.any (fun a => hitsVa r a.va))).foldl (fun s e =>
    let out := e.lanes.filter (fun a => hitsVa r a.va)
    let s1 := denyLanes s e .accessViolation 5 out (BitVec.ofNat 64 ((out.head?.map (·.va)).getD 0))
    settleEntry s1 c e [] (e.lanes.filter (fun a => !hitsVa r a.va)) e.again) s) s

/-! ## RETRY -/

/-- A unit whose held word, fetch or wait is in the scope goes on; a saved team's transfers do when it has resumed. -/
def retryUnit (r : ReplayScope) (s : State) (u : UnitId) : State :=
  let s1 := modUnit s u (fun g =>
    { g with
      held := match g.held with
        | some (.replay ws) => if ws.any (fun w => hits r w.1) then none else some (.replay ws)
        | some (.fetch p va) => if hits r p then none else some (.fetch p va)
        | h => h
      xheld := g.xheld.map (fun h => if hits r h.page then { h with answer := some true } else h) })
  let s2 := rebindRuns (fun b va => b.lost.isSome && hitsVa r va) s1 u
  if onCore s u && !s.supervisor.freeze then settleXfers s2 u else s2

/-- The pages a request still waits for. -/
def leftPages (r : ReplayScope) (vas : List Nat) : List Nat := vas.filter (fun v => !hitsVa r v)

/-- A page waited for, unless the scope holds it. -/
def leftPage (r : ReplayScope) (p : Option Nat) : Option Nat :=
  match p with
  | some v => if hits r v then none else some v
  | none => none

/-- Requests of the engines, nodes, layers and wagons of a context. -/
def retryEngines (s : State) (r : ReplayScope) : State :=
  { s with
    cores := tmap (fun _ c =>
      { c with
        matrix := c.matrix.map (fun o => if (teamAt s o.team).ctx = r.ctx then { o with pages := leftPages r o.pages } else o)
        copies := c.copies.map (fun j => if j.ctx = r.ctx then { j with pages := leftPages r j.pages } else j) }) s.cores
    clusters := tmap (fun _ k =>
      { k with
        geo := k.geo.map (fun j => if j.ctx = r.ctx then { j with pages := leftPages r j.pages } else j)
        art := k.art.map (fun j => if j.ctx = r.ctx then { j with pages := leftPages r j.pages } else j) }) s.clusters
    grids := tmap (fun _ g => if g.ctx = r.ctx then { g with nodes := tmap (fun _ n => { n with page := leftPage r n.page }) g.nodes } else g) s.grids
    contexts := tmap (fun c x =>
      if c = r.ctx then
        { x with models := tmap (fun _ m => { m with layers := tmap (fun _ l => { l with page := leftPage r l.page }) m.layers }) x.models }
      else x) s.contexts
    wagons := tmap (fun _ w =>
      match w.binding with
      | some b => if b.pctx = r.ctx then { w with departed := w.departed.map (fun d => { d with page := leftPage r d.page }) } else w
      | none => w) s.wagons }

/-- Whether a queue's head waits for a page of the scope. -/
def headWaits (r : ReplayScope) (q : Queue) : Bool :=
  match q.head with
  | some h =>
    (match h.why with
     | .page p => hits r p
     | _ => false)
  | none => false

/-- Whether a queue's own rings do. -/
def ringWaits (r : ReplayScope) (q : Queue) : Bool :=
  match q.cplHeld with
  | some p => hits r p
  | none => false

/-- A queue held for a page makes its access again (15 R410). -/
def retryQueue (r : ReplayScope) (s : State) (n : Nat) : State :=
  let q := queueAt s n
  if q.ctx ≠ r.ctx then s
  else
    let s := rebindCmd (fun w => w.lost.isSome && hitsVa r w.va) s n
    let s1 := if headWaits r q then
        settleQueue (modQueue s n (fun q => { q with head := q.head.map (fun h => { h with why := .ended }) })) n
      else s
    if ringWaits r q then armQueue (flushCpl (settleQueue (modQueue s1 n (fun q => { q with cplHeld := none })) n) n) n else s1

/-- Whether some wait has lost its word's page. -/
def anyLost (s : State) : Bool :=
  s.teams.any (fun t => t.2.units.any (fun g => g.2.blocked.any (fun b => b.lost.isSome))) || s.queues.any (fun q => q.2.waiting.any (fun w => w.lost.isSome))

/-- A REPLAY with RETRY: every waiter of the scope translates again (17 R373, R376), and the destination lines of engine operations whose
pages have come are owned there (05 R115). -/
def retryAll (s : State) (r : ReplayScope) : State :=
  let lost := anyLost s
  let s1 := (ctxUnits s r.ctx).foldl (retryUnit r) (settleOwned s)
  let s2 := retryLogs s1 (fun e a => e.ctx == r.ctx && hitsVa r a.va)
  let s3 := (tkeys s2.queues).foldl (retryQueue r) (retryEngines s2 r)
  if lost then recordLost (testWaits s3) else s3

/-! ## VIOLATION -/

/-- The held word of a unit ends in ACCESS_VIOLATION 5; an art word is accepted with the error instead (09 R248). -/
def denyHeld (s : State) (u : UnitId) (mask : W32) (va : Nat) : State :=
  let s1 := modUnit s u (fun g => { g with held := none })
  match issuing { s1 with focus := some u } with
  | none => s1
  | some x =>
    if mask = 0 then
      match decodeWord (wordAt s1 u x.pc) with
      | .ok (.art q h) =>
        (match artWord (some (3, BitVec.ofNat 64 (va / 64 * 64), 5)) q h { s1 with focus := some u } with
         | .next s2 => { s2 with focus := none }
         | _ => s1)
      | _ => s1
    else trapWord s1 x .accessViolation 5 (mask &&& x.cl.mask) (BitVec.ofNat 64 va)

/-- The lanes of a held word that wait in the scope, and the address of the lowest; lanes of none for a word that waits as a whole. -/
def replayMask (r : ReplayScope) (ws : List (Nat × W32 × Nat)) : Option (W32 × Nat) :=
  match ws.filter (fun w => hits r w.1) with
  | [] => none
  | w :: rest =>
    some (rest.foldl (fun m x => m ||| x.2.1) w.2.1,
      (((w :: rest).find? (fun x => x.2.1.getLsbD (lowestLane (rest.foldl (fun m x => m ||| x.2.1) w.2.1)))).getD w).2.2)

/-- The record of a run that has lost its word's page in the scope. -/
def lostRec (s : State) (r : ReplayScope) (u : UnitId) (c : Cause) (sub : Nat) (b : BlockedRun) : Option TrapRec :=
  match b.wait with
  | .waitf _ va _ _ _ _ =>
    if b.lost.isSome ∧ hitsVa r va then some (runRec s u c sub b va) else none
  | _ => none

/-- Runs of a unit that have lost their word's page trap as a REPLAY denies it, at their unit's next clause header (log 46). -/
def denyRuns (r : ReplayScope) (s : State) (u : UnitId) : State :=
  ((unitAt s u).blocked.filterMap (lostRec s r u .accessViolation 5)).foldl (fun s t => deferTrap s u t t.lane) s

/-- A unit that waits in the scope traps: at its word, at the word it fetches, or at its transfer. -/
def denyUnit (r : ReplayScope) (s : State) (u : UnitId) : State :=
  let g := unitAt s u
  let s1 := match g.held with
    | some (.replay ws) =>
      (match replayMask r ws with
       | some (m, va) => denyHeld s u m va
       | none => s)
    | some (.fetch p va) =>
      (if hits r p then
        match g.clause with
        | some cl => trapDeliver s u (mkRec s u va cl.head .accessViolation 5 cl.mask (BitVec.ofNat 64 va))
        | none => s
       else s)
    | _ => s
  let s2 := modUnit (denyRuns r s1 u) u (fun g => { g with xheld := g.xheld.map (fun h => if hits r h.page then { h with answer := some false } else h) })
  if onCore s u then settleXfers s2 u else s2

/-- The first address a request waits for in the scope. -/
def firstHit (r : ReplayScope) (vas : List Nat) : Option Nat := vas.find? (hitsVa r)

/-- The matrix operations and copies of one core. -/
def denyCore (r : ReplayScope) (s : State) (c : Nat) : State :=
  let s1 := ((coreAt s c).matrix.filter (fun o => (teamAt s o.team).ctx == r.ctx && (firstHit r o.pages).isSome)).foldl (fun s o =>
    let o1 := { o with pages := leftPages r o.pages }
    pinOp (hitsVa r) (modOp s c o.id (fun _ => o1)) c o1) s
  ((coreAt s c).copies.filter (fun j => j.ctx == r.ctx)).foldl (fun s j =>
    match firstHit r j.pages with
    | none => s
    | some va =>
      if j.started then
        let j1 := { j with pages := leftPages r j.pages }
        copyRuns (hitsVa r) (modCore s c (fun k => { k with copies := k.copies.map (fun y => if y.id = j.id then j1 else y) })) c j1
      else copyEnds s c j (some (.accessViolation, 5, BitVec.ofNat 64 (va / 64 * 64)))) s1

/-- The geometry and articulation jobs of one cluster. -/
def denyCluster (r : ReplayScope) (s : State) (c : Nat) : State :=
  let s1 := ((clusterAt s c).geo.filter (fun j => j.ctx == r.ctx)).foldl (fun s j =>
    match firstHit r j.pages with
    | some va => geoEnds s c j 3 (BitVec.ofNat 64 (va / 64 * 64)) 5
    | none => s) s
  ((clusterAt s1 c).art.filter (fun j => j.ctx == r.ctx)).foldl (fun s j =>
    match firstHit r j.pages with
    | some va => artEnds s c j 3 0 (BitVec.ofNat 64 (va / 64 * 64)) 5
    | none => s) s1

/-- Whether a page is waited for in the scope. -/
def pageHit (r : ReplayScope) (p : Option Nat) : Bool :=
  match p with
  | some v => hits r v
  | none => false

/-- The nodes of one graph whose blocks cannot be read end in error. -/
def denyNodes (r : ReplayScope) (s : State) (g : Nat) : State :=
  if (gridAt s g).ctx ≠ r.ctx then s
  else
    ((gridAt s g).nodes.filter (fun n => pageHit r n.2.page)).foldl (fun s n =>
      nodeEnd (modGrid s g (fun g => { g with nodes := tset g.nodes n.1 { n.2 with page := none } })) g n.1 3) s

/-- The layers of a context that wait for a page fail. -/
def denyLayers (r : ReplayScope) (s : State) : State :=
  ((allLayers s).filter (fun e => keyCtx e.1 == r.ctx && pageHit r e.2.page)).foldl (fun s e => layerFails s e.1) s

/-- A row whose results cannot be copied ends in error, and the next is copied. -/
def denyWagons (r : ReplayScope) (s : State) (q : Nat) : State :=
  let w := wagonAt s q
  match w.binding with
  | none => s
  | some b =>
    if b.pctx ≠ r.ctx then s
    else
      (w.departed.filter (fun d => pageHit r d.page)).foldl (fun s d =>
        let s1 := modDeparted s q d.id (fun d => { d with page := none, copied := d.copied + 1 })
        match d.rows[d.copied]? with
        | some row => rowDone s1 row 3
        | none => s1) s

/-- A queue whose page is denied: its command completes ACCESS_ERROR, or REFUSED for CODE_REG; a ring puts it into ERROR
(15 R410, 13 R296). -/
def denyQueue (r : ReplayScope) (s : State) (n : Nat) : State :=
  let q := queueAt s n
  if q.ctx ≠ r.ctx then s
  else if q.waiting.any (fun w => w.lost.isSome && hitsVa r w.va) then
    (match q.waiting with
     | some w => completeCommand (modQueue s n (fun q => { q with waiting := none })) n w.index 0x07 w.h 19 0 5
     | none => s)
  else if ringWaits r q then queueError (modQueue s n (fun q => { q with cplHeld := none, cplWait := [] })) n
  else if headWaits r q then
    match q.head with
    | none => s
    | some h =>
      let x := bytesToNat h.bytes
      let op := bitsAt x 135 128
      completeCommand (modQueue s n (fun q => { q with head := none })) n h.index op (cmdHeader x)
        (if op = 0x15 then 6 else 19) 0 (if op = 0x15 then 8 else 5)
  else s

/-- Waiters other than units and logged words. -/
def denyRest (s : State) (r : ReplayScope) : State :=
  let s1 := (tkeys s.cores).foldl (denyCore r) s
  let s2 := (tkeys s1.clusters).foldl (denyCluster r) s1
  let s3 := (tkeys s2.grids).foldl (denyNodes r) s2
  let s4 := (tkeys s3.wagons).foldl (denyWagons r) (denyLayers r s3)
  (tkeys s4.queues).foldl (denyQueue r) s4

/-- A REPLAY with VIOLATION: every waiter of the scope ends in ACCESS_VIOLATION 5. -/
def denyAll (s : State) (r : ReplayScope) : State := denyRest (denyLogs ((ctxUnits s r.ctx).foldl (denyUnit r) (settleOwned s)) r) r

/-! ## UNSERVICEABLE (17 R377) -/

/-- The record of a unit that waits in the scope: its word, or the word it fetches. -/
def unitWaiter (s : State) (r : ReplayScope) (u : UnitId) : Option TrapRec :=
  let g := unitAt s u
  match g.held, g.clause, g.xheld.find? (fun h => hits r h.page) with
  | some (.replay ws), some cl, _ =>
    (replayMask r ws).map (fun w =>
      mkRec s u (cl.head + 4 * cl.next) cl.head .faultUnserviceable 0 (if w.1 = 0 then cl.mask else w.1 &&& cl.mask) (BitVec.ofNat 64 w.2))
  | some (.fetch p va), some cl, _ =>
    if hits r p then some (mkRec s u va cl.head .faultUnserviceable 0 cl.mask (BitVec.ofNat 64 va)) else none
  | _, _, some h =>
    some (mkRec s u h.pc h.cstart .faultUnserviceable 0 (laneMask (tkeys h.lanes)) ((h.lanes.head?.map (fun e => e.2.target)).getD 0))
  | _, _, none => (g.blocked.filterMap (lostRec s r u .faultUnserviceable 0)).head?

/-- The record of an engine request of a future: the page's address; the request keeps no word (log 23). -/
def futureWaiter (s : State) (r : ReplayScope) (o : JobOwner) (vas : List Nat) : Option (UnitId × TrapRec) :=
  match o, firstHit r vas with
  | .future u _, some va => some (u, mkRec s u 0 0 .faultUnserviceable 0 0 (BitVec.ofNat 64 va))
  | _, _ => none

/-- Every waiter of the scope that belongs to a team, with its record: units, logged words, matrix operations, engine requests. -/
def teamWaiters (s : State) (r : ReplayScope) : List (UnitId × TrapRec) :=
  (ctxUnits s r.ctx).filterMap (fun u => (unitWaiter s r u).map (fun t => (u, t))) ++
  s.cores.flatMap (fun c =>
    c.2.log.filterMap (fun e =>
      match e.lanes.filter (fun a => e.ctx == r.ctx && hitsVa r a.va) with
      | [] => none
      | a :: as =>
        some (e.unit, mkRec s e.unit e.pc e.cstart .faultUnserviceable 0 (laneMask ((a :: as).map (·.lane))) (BitVec.ofNat 64 a.va))) ++
    c.2.matrix.filterMap (fun o =>
      if (teamAt s o.team).ctx = r.ctx then (firstHit r o.pages).map (fun va => (o.unit, opRec s o .faultUnserviceable 0 (BitVec.ofNat 64 va))) else none) ++
    c.2.copies.filterMap (fun j => if j.ctx = r.ctx then futureWaiter s r j.owner j.pages else none)) ++
  s.clusters.flatMap (fun k =>
    k.2.geo.filterMap (fun j => if j.ctx = r.ctx then futureWaiter s r j.owner j.pages else none) ++
    k.2.art.filterMap (fun j => if j.ctx = r.ctx then futureWaiter s r j.owner j.pages else none))

/-- Every team of a context that has not stopped stops without a record (17 R377, 14 R305). -/
def stopTeams (s : State) (ctx : Nat) : State :=
  (tkeys (s.teams.filter (fun t => t.2.ctx == ctx && !t.2.stopped))).foldl (fun s t => stopTeam s t none) s

/-- A context enters STOPPED: it starts no further teams, and its teams stop; a suspension in progress ends with CTX_STATE. -/
def stopContext (s : State) (ctx : Nat) : State :=
  let c := ctxAt s ctx
  let s1 := stopTeams (modCtx s ctx (fun c => { c with phase := .stopped, suspendBy := none })) ctx
  let s2 := { s1 with
    grids := tmap (fun _ g => if g.ctx = ctx ∧ g.live then { g with faulted := true, reservedSlots := [] } else g) s1.grids
    gathering := match s1.gathering with
      | some g => if (gridAt s1 g).ctx = ctx then none else some g
      | none => none }
  match c.suspendBy with
  | some (q, i, h) => completeCommand s2 q i 0x12 h 18 0 0
  | none => s2

/-- A REPLAY with UNSERVICEABLE: the teams with a waiter take FAULT_UNSERVICEABLE, the context stops, and what else waits is denied. -/
def unserviceable (s : State) (r : ReplayScope) : State :=
  let s1 := (teamWaiters s r).foldl (fun s w => if (teamAt s w.1.team).stopped then s else trapDeliver s w.1 w.2) s
  denyRest (stopContext s1 r.ctx) r

/-- Whether a REPLAY has any waiter: UNSERVICEABLE without one has no effect (17 R373). -/
def waited (s : State) (r : ReplayScope) : Bool := decide (denyAll s r ≠ s)

/-- A REPLAY with VIOLATION, or with UNSERVICEABLE, answered: no trap is taken while the device is frozen, so it waits till then
(17 R384). -/
def replayDenies (s : State) (r : ReplayScope) (stop : Bool) : State :=
  if s.supervisor.freeze then { s with denials := s.denials ++ [(r, stop)] }
  else if stop then (if waited s r then unserviceable s r else s)
  else denyAll s r

/-- The REPLAYs that waited for the freeze to end. -/
def heldDenials (s : State) : State := s.denials.foldl (fun s d => replayDenies s d.1 d.2) { s with denials := [] }

/-- REPLAY_RETRY: from the service agent, or from the host as a REPLAY message. -/
def execReplayRetry (r : ReplayScope) (s : State) : Out := .next (mailServed s (.replayRetry r) (retryAll s r, 0))

/-- REPLAY_VIOLATION. -/
def execReplayViolation (r : ReplayScope) (s : State) : Out := .next (mailServed s (.replayViolation r) (replayDenies s r false, 0))

/-- REPLAY_UNSERVICEABLE. -/
def execReplayUnserviceable (r : ReplayScope) (s : State) : Out :=
  .next (mailServed s (.replayUnserviceable r) (replayDenies s r true, 0))

/-! ## Evicting pages (17 R377) -/

/-- A page a context maps: its first 64 KiB, its frame, its size in bytes, and the address of its leaf. -/
structure MappedPage where
  ctx : Nat
  page : Nat
  pa : Nat
  size : Nat
  pte : Nat
deriving DecidableEq, Repr

/-- The leaf an entry of a level is, if it is one; n counts the entries of its level from address 0 on. -/
def leafOf (s : State) (ctx level n pte : Nat) : Option MappedPage :=
  let e := memNat s.mem pte 8
  if bitsAt e 1 0 = 1 ∧ !malformed s e level then
    some ⟨ctx, n * (levelSize level / pageBytes), bitsAt e 47 8 * 256, levelSize level, pte⟩
  else none

/-- The leaves below a table of a level: pages of 64 KiB, 2 MiB and 1 GiB (17 R362). -/
def leavesBelow (s : State) (ctx base : Nat) : Nat → Nat → List MappedPage
  | 0, table => (List.range 32).filterMap (fun i => leafOf s ctx 0 (base * 32 + i) (table + 8 * i))
  | l + 1, table => (List.range 512).flatMap (fun i =>
      let e := memNat s.mem (table + 8 * i) 8
      if bitsAt e 1 0 = 3 ∧ !malformed s e (l + 1) then leavesBelow s ctx (base * 512 + i) l (bitsAt e 47 8 * 256)
      else (leafOf s ctx (l + 1) (base * 512 + i) (table + 8 * i)).toList)

/-- The pages a context maps. -/
def ctxPages (s : State) (ctx : Nat) : List MappedPage := leavesBelow s ctx 0 3 (ctxAt s ctx).record.ptroot

/-- Teams of a context that hold log entries or pins on a page. -/
def pageHolders (s : State) (m : MappedPage) : List Nat :=
  let i : Invalidation := ⟨m.ctx, m.page * pageBytes, m.size⟩
  tkeys (s.teams.filter (fun t => t.2.ctx == m.ctx && t.2.phase != .saved &&
    (s.cores.any (fun c => c.2.log.any (fun e => e.unit.team == t.1 && e.lanes.any (fun a => meets i a.va 1)) ||
      c.2.matrix.any (fun o => o.team == t.1 && opCovered s i o)))))

/-- Whether an engine operation owns a line of a page's frames: the page is evicted when it has written or released it (log 46). -/
def frameOwned (s : State) (m : MappedPage) : Bool :=
  s.owned.any (fun e => match e.2 with
    | .phys l => decide (m.pa ≤ l * 64) && decide (l * 64 < m.pa + m.size)
    | _ => false)

/-- Whether two ranges of physical memory meet. -/
def framesMeet (a n b k : Nat) : Bool := decide (a < b + k) && decide (b < a + n)

/-- Whether a page may not be evicted: some of it is pinned, a window holds a frame of it, another page maps one, or it lies in the peer
aperture. -/
def pageStays (s : State) (pages : List MappedPage) (m : MappedPage) : Bool :=
  (pinnedRanges s m.ctx).any (fun r => decide (r.1 < m.page * pageBytes + m.size) && decide (m.page * pageBytes < r.1 + r.2)) ||
  s.windows.any (fun w => w.2.frames.any (fun f => framesMeet m.pa m.size f pageBytes)) ||
  pages.any (fun x => decide (x ≠ m) && framesMeet m.pa m.size x.pa x.size) || inPeer m.pa

/-- Pages of contexts of lower priority that may be evicted, the lowest priority first (17 R377); a frame mapped twice stays. -/
def evictablePages (s : State) (ctx : Nat) : List MappedPage :=
  let pages := (s.contexts.filter (fun c => c.2.phase != .free)).flatMap (fun c => ctxPages s c.1)
  let prio (m : MappedPage) : Nat := (ctxAt s m.ctx).record.prio
  ((List.range (ctxAt s ctx).record.prio).flatMap (fun p => pages.filter (fun m => prio m == p))).filter (fun m => !pageStays s pages m)

/-- A page evicted: its entry non-present with its rights, its invalidation begun; its frames are free when that completes. -/
def evict (s : State) (m : MappedPage) : State :=
  let e := memNat s.mem m.pte 8
  let i : Invalidation := ⟨m.ctx, m.page * pageBytes, m.size⟩
  let s1 := beginInvalidation (writeEntry s m.pte (bitsAt e 3 2 * 4)) i.ctx i.va i.len
  endInvalidation { s1 with
    evicting := s1.evicting ++ (List.range (m.size / pageBytes)).map (fun k => (m.ctx, m.page + k, m.pa + k * pageBytes)) } i

/-! ## The service agent (17 R373) -/

/-- The rights of the non-present entry a walk meets: W and X. -/
def faultRights (s : State) (va : Nat) : Nat → Nat → Bool × Bool
  | 0, table =>
    let e := memNat s.mem (table + 8 * levelIndex va 0) 8
    (bitsAt e 2 2 == 1, bitsAt e 3 3 == 1)
  | l + 1, table =>
    let e := memNat s.mem (table + 8 * levelIndex va (l + 1)) 8
    if bitsAt e 1 0 = 3 then faultRights s va l (bitsAt e 47 8 * 256) else (bitsAt e 2 2 == 1, bitsAt e 3 3 == 1)

/-- What populating a page comes to. -/
inductive Populated where
  | done (s : State)
  | wait (s : State)
  | none (s : State)

/-- A page mapped at a free frame with the rights its non-present entry gave, its bytes those it was evicted with, else zero. -/
def mapFault (s : State) (ctx page : Nat) : Option State :=
  let va := page * pageBytes
  let (w, x) := faultRights s va 3 (ctxAt s ctx).record.ptroot
  match mapPage s ctx va w x with
  | none => Option.none
  | some (pa, s1) =>
    let old : Mem := tget [] s1.evicted (evictKey ctx page)
    some { engineWrite s1 (old.map (fun c => (pa + c.1, c.2))) with evicted := terase s1.evicted (evictKey ctx page) }

/-- Free frames made by eviction until a page can be mapped; fuel bounds the pages taken. While the device is frozen no pre-emption begins
(17 R384). -/
def populate (ctx page : Nat) : Nat → State → Populated
  | 0, s => .none s
  | n + 1, s =>
    match mapFault s ctx page with
    | some s1 => .done s1
    | Option.none =>
      if s.evicting ≠ [] then .wait s
      else
        match evictablePages s ctx with
        | [] => .none s
        | m :: _ =>
          if frameOwned s m then .wait s
          else
            match (pageHolders s m).filter (fun t => (teamAt s t).phase != .saving) with
            | [] => if pageHolders s m = [] then populate ctx page n (evict s m) else .wait s
            | t :: _ => if preemptable s t && !s.supervisor.freeze then .wait (beginPreempt s t 0) else .wait s

/-- One page of a context serviced: populated where it is not present, then replayed; a page that must wait for a frame is kept. -/
def servicePage (s : State) (k : Nat × Nat) : State :=
  let r : ReplayScope := ⟨k.1, k.2 * pageBytes, 0⟩
  if (ctxAt s k.1).phase = .free then s
  else
    match rootWalk s k.1 (k.2 * pageBytes) with
    | .fault _ false =>
      (match populate k.1 k.2 8 s with
       | .done s1 => retryAll s1 r
       | .none s1 => replayDenies s1 r true
       | .wait s1 => { s1 with serviceWait := s1.serviceWait ++ [k] })
    | _ => retryAll s r

/-- The 32 bytes of a fault record (17 R372). -/
def FaultRec.bytes (r : FaultRec) : List Byte :=
  let kind := match r.kind with
    | .read => 0
    | .write => 1
    | .atomic => 2
    | .execute => 3
  let w0 := r.ctx % 64 + kind * 2 ^ 6 + r.agent % 8 * 2 ^ 8 + r.level % 4 * 2 ^ 11 + (if r.h then 2 ^ 13 else 0)
  natToBytes 4 w0 ++ natToBytes 4 (r.core % 256 + r.group % 64 * 2 ^ 8) ++ natToBytes 8 (r.va % 2 ^ 48) ++
  natToBytes 16 (r.log % 256)

/-- Pages sorted by context and page, duplicates dropped. -/
def sortPages (ps : List (Nat × Nat)) : List (Nat × Nat) :=
  (sortBy (fun a b => decide (a ≤ b)) (dedupNat (ps.map (fun p => p.1 * 2 ^ 32 + p.2)))).map (fun k => (k / 2 ^ 32, k % 2 ^ 32))

/-- Records for the host forwarded in order while its ring takes them; the others stay. -/
def forwardHost : List FaultRec → State → State × List FaultRec
  | [], s => (s, [])
  | r :: rs, s =>
    if r.h then
      if hostReady s then
        let (s1, left) := forwardHost rs (serveMail (hostEvent s ⟨0x82, 0, 0, r.bytes⟩))
        (s1, left)
      else
        let (s1, left) := forwardHost rs s
        (s1, r :: left)
    else forwardHost rs s

/-- SERVICE_BATCH: the service agent takes records, which frees their slots, forwards those with H = 1 while the host's ring takes them,
and services the pages of the others and the pages that waited for a frame. -/
def execServiceBatch (count : Nat) (s : State) : Out :=
  let batch := s.faultBuf.take count
  let f := forwardHost batch s
  let pages := sortPages (s.serviceWait ++ (batch.filter (fun r => !r.h)).map (fun r => (r.ctx, pageOf r.va)))
  let s1 := pages.foldl servicePage { f.1 with faultBuf := f.2 ++ s.faultBuf.drop count, serviceWait := [] }
  .next (recordLost (retryLogs s1 (fun e _ => e.again)))

/-! ## The migration table (17 R371) -/

/-- The LPDDR frame that backs a physical frame. -/
def backingOf (s : State) (frame : Nat) : Nat := tget frame s.backing frame

/-- A move entered in the table: one for a frame, while an entry is free. -/
def startMove (s : State) (frame new : Nat) : State :=
  if Config.migrationEntries ≤ s.migrations.length ∨ s.migrations.any (fun m => m.frame == frame) then s
  else { s with migrations := s.migrations ++ [{ frame := frame, oldRow := backingOf s frame, newRow := new }] }

/-- COMPACT_LPDDR_BACKING: firmware core 2 starts a move. -/
def execCompactLpddrBacking (frame newFrame : Nat) (s : State) : Out := .next (startMove s frame newFrame)

/-- MIGRATION_LINE_COPY: one line copied and the pointer advanced; at 1,024 the new frame backs the physical frame. A line's value
and its poison mark move with it. -/
def execMigrationLineCopy (entry : Nat) (s : State) : Out :=
  match s.migrations[entry]? with
  | none => .next s
  | some m =>
    if m.progress + 1 < 1024 then
      .next { s with migrations := s.migrations.set entry { m with progress := m.progress + 1 } }
    else .next { s with migrations := s.migrations.eraseIdx entry, backing := tset s.backing m.frame m.newRow }

end Sys2Proof.Machine
end

