-- ==== Sys2Proof/Machine/Dispatching.lean ====
section
/-! DEFINITION. The dispatcher: ready work placed on cores and engines, teams started, teams and grids retired, teams moved and
resumed (15 R330-R339, R344, R412, 16 R356, 01 R12-R17, R26, R32, 17 R381, R382). -/

set_option linter.unusedVariables false

namespace Sys2Proof.Machine

/-! ## The order of the pool (15 R330, R333) -/

/-- The queue an entry came through; work made on the device stands after every queue. -/
def originQueue (g : Grid) : Nat :=
  match g.origin with
  | .command q _ _ => q
  | _ => Config.queues

/-- Whether an entry is visited before another: descending priority, ascending sequence, then queue and number. -/
def visitedBefore (a b : Grid) : Bool :=
  if a.prio ≠ b.prio then decide (b.prio < a.prio)
  else if a.seq ≠ b.seq then decide (a.seq < b.seq)
  else if originQueue a ≠ originQueue b then decide (originQueue a < originQueue b)
  else decide (a.uid ≤ b.uid)

/-- The pool's entries in the order of a visit. -/
def poolOrder (s : State) : List Nat := (sortBy visitedBefore (s.readyPool.map (gridAt s))).map (·.uid)

/-- Whether work of an entry may start now: its context is ACTIVE and not being suspended, its domain is clear, and the clause of a
lockstep team that made it has compared equal (17 R386). -/
def mayStart (s : State) (g : Grid) : Bool :=
  g.live && !g.domain && (ctxAt s g.ctx).phase == .active && (ctxAt s g.ctx).suspendBy.isNone &&
  (match g.origin with
   | .parent u _ => !unreleased s u g.uid
   | _ => true)

/-- The lowest ready node of a graph that waits for no page. -/
def readyNode (g : Grid) : Option Nat := (g.nodes.find? (fun n => n.2.phase == .ready && n.2.page.isNone)).map (·.1)

/-- The next unit of an entry: a grid's next team once the one before it has started, a graph's lowest ready node. -/
def nextUnit (s : State) (g : Grid) : Option Nat :=
  if g.kind = .graph then readyNode g
  else if g.teams ≤ g.nextTeam ∨ s.teams.any (fun t => t.2.grid == g.uid && t.2.phase == .placed) then none
  else some g.nextTeam

/-! ## Room (15 R333, R334) -/

/-- Teams placed whose start is still to come. -/
def starting (s : State) : List Team := (s.teams.filter (fun t => t.2.phase == .placed)).map (·.2)

/-- Whether a team is one of a gang whose starts have begun and are not all made. -/
def gangHalf (s : State) (t : Team) : Bool :=
  match t.gang with
  | some g => (gangAt s g).begun.isSome && t.phase == .placed
  | none => false

/-- Whether a placed team may make its start: of the gangs placed in a stack pair one makes its starts at a time, so that they are made
within 64 front-end cycles (01 R12, 15 R337). -/
def startOpen (s : State) (t : Team) : Bool :=
  t.gang.isNone || gangHalf s t ||
  !s.teams.any (fun x => gangHalf s x.2 && pairOf (clusterOf x.2.core) == pairOf (clusterOf t.core))

/-- The clusters in which a unit has started in this front-end cycle, or has a start that it makes in this cycle, one each (15 R333). -/
def startClusters (s : State) : List Nat :=
  dedupNat (s.startedIn ++ ((starting s).filter (startOpen s)).map (fun t => clusterOf t.core))

/-- Whether four units start in this cycle already (15 R333). -/
def startsFull (s : State) : Bool := decide (4 ≤ (startClusters s).length)

/-- A unit starts in a cluster in this front-end cycle. -/
def noteStart (s : State) (c : Nat) : State := { s with startedIn := c :: s.startedIn }

/-- Whether a cluster takes a unit of an entry in this cycle: none has started there, and no other entry's claim stands first. -/
def clusterFree (s : State) (used : List Nat) (uid c : Nat) : Bool :=
  !hasNat used c && (pairAt s (pairOf c)).pending.isNone &&
  (match (clusterAt s c).claims.head? with
   | some k => k == uid
   | none => true)

/-- The places of a gang's members from a start on: consecutive cores, or core pairs in lockstep. -/
def gangCores (s : State) (ctx start n : Nat) : List Nat := (List.range n).map (fun i => start + (if lockstep s ctx then 2 * i else i))

/-- The windows of a stack pair that a gang fits, some teams not counted. -/
def gangStarts (s : State) (ctx : Nat) (need : Need) (skip : List Nat) (p n : Nat) : List Nat :=
  ((List.range 16).map (16 * p + ·)).filter (fun c =>
    (!lockstep s ctx || c % 2 == 0) &&
    (gangCores s ctx c n).all (fun k => decide (k + (if lockstep s ctx then 1 else 0) < 16 * p + 16) && teamFits s ctx need skip k))

/-- The window of the lowest score, the lowest start on a tie (15 R337). -/
def gangWindow (s : State) (ctx : Nat) (need : Need) (p n : Nat) (ok : Nat → Bool) : Option (List Nat) :=
  ((argMin (fun c => (gangCores s ctx c n).foldl (fun k i => k + scoreOf s i) 0)
    ((gangStarts s ctx need [] p n).filter (fun c => (gangCores s ctx c n).all (fun k => ok (clusterOf k)))))).map
    (fun c => gangCores s ctx c n)

/-! ## Admission (16 R356) -/

/-- Whether the fares of a graph's core node or a wagon's task pass admission in a cluster. -/
def admits (s : State) (k : KernelDesc) (c : Nat) : Bool :=
  let cl := clusterAt s c
  decide (Nat.min k.peak (climOf s c) + cl.prev + cl.peakAdmitted ≤ climOf s c) &&
  decide (Nat.min k.energy cl.ebud + cl.spentWindows + cl.energyAdmitted ≤ cl.ebud)

/-- An admitted task's fares counted. -/
def admitTask (s : State) (k : KernelDesc) (c : Nat) : State :=
  modCluster s c (fun cl =>
    { cl with peakAdmitted := cl.peakAdmitted + Nat.min k.peak (climOf s c), energyAdmitted := cl.energyAdmitted + Nat.min k.energy cl.ebud })

/-- Whether a unit is a task: a graph's node or a wagon's team. -/
def isTask (g : Grid) : Bool := g.kind != .grid

/-! ## Placing (15 R335-R338) -/

/-- A team placed on a core: its slots are taken, its start is still to come. -/
def putTeam (s : State) (g : Grid) (index core : Nat) (gang : Option Nat) (member : Nat) : Nat × State :=
  let (uid, s1) := fresh s
  let k := unitKernel g index
  let need := needOf k.1 k.2
  let shadow := if lockstep s g.ctx then some (core + 1) else none
  let t : Team :=
    { uid := uid, grid := g.uid, index := index, ctx := g.ctx, core := core, kernel := k.1, groups := k.2,
      privBytes := (if g.kind = .graph then (tget {} g.nodes index).priv else g.priv), pairMode := k.1.width == 64, shadowCore := shadow,
      gang := gang, member := member,
      stencils := (if g.kind = .graph then (List.range (tget {} g.nodes index).nst).map (fun i => (tget {} g.nodes index).sten + 64 * i) else []) }
  let setMode (s : State) (c : Nat) : State :=
    if k.1.unified then modCore s c (fun r => { r with l1 := some (l1After r.l1 (coreNeeds s [] c) need) }) else s
  let s2 := setMode s1 core
  let s3 := match shadow with
    | some d => setMode s2 d
    | none => s2
  (uid, { s3 with teams := tset s3.teams uid t })

/-- An entry's claim and count end with a start. -/
def endClaim (s : State) (uid : Nat) : State :=
  modGrid { s with clusters := tmap (fun _ k => { k with claims := k.claims.filter (· != uid) }) s.clusters } uid (fun g => { g with passed := 0 })

/-- What follows a placement of unit i in a home cluster: the entry's claim and count end, and the context's untiled place moves. -/
def afterPlace (s : State) (uid i home : Nat) : State :=
  let g := gridAt s uid
  let s1 := endClaim s uid
  let s2 := if untiledHost g i then modCtx s1 g.ctx (fun c => { c with lastUntiled := home }) else s1
  modGrid s2 uid (fun g => { g with homeSet := none })

/-- A unit's count or phase after it was placed. -/
def markPlaced (s : State) (uid i n : Nat) : State :=
  modGrid s uid (fun g =>
    if g.kind = .graph then { g with nodes := tset g.nodes i { tget {} g.nodes i with phase := .started, startFe := some s.fe } }
    else { g with nextTeam := i + n })

/-- One team placed in its home cluster, on its reserved core or the best candidate. -/
def placeTeamAt (s : State) (used : List Nat) (g : Grid) (i : Nat) : Option State :=
  let home := unitHome s g i
  let k := unitKernel g i
  let reserved := (g.reservedSlots.find? (fun r => r.1 == i)).map (·.2)
  let h := match reserved with
    | some c => clusterOf c
    | none => home
  if !clusterFree s used g.uid h || (isTask g && !admits s k.1 h) then none
  else
    let s0 := modGrid s g.uid (fun g => { g with reservedSlots := g.reservedSlots.filter (fun r => r.1 != i) })
    let core := match reserved with
      | some c => some c
      | none => chooseCore s g.ctx h (teamFits s g.ctx (unitNeed g i) [])
    match core with
    | none => none
    | some c =>
      let (_, s1) := putTeam s0 g i c none 0
      let s2 := if isTask g then admitTask s1 k.1 h else s1
      let s3 := if reserved.isSome then endClaim s2 g.uid else afterPlace (advanceRho s2 h) g.uid i h
      some (markPlaced s3 g.uid i 1)

/-- A gang's members placed in their window. -/
def putGang (s : State) (g : Grid) (i : Nat) (cores : List Nat) : State :=
  let (gid, s1) := fresh s
  let r := (List.range cores.length).foldl (fun (acc : List Nat × State) m =>
    let (uid, s2) := putTeam acc.2 g (i + m) (cores.getD m 0) (some gid) m
    (acc.1 ++ [uid], s2)) ([], s1)
  { r.2 with gangs := tset r.2.gangs gid { uid := gid, members := r.1 } }

/-- Each core of a window advances the position of its cluster. -/
def advanceAll (s : State) (cores : List Nat) : State := cores.foldl (fun s c => advanceRho s (clusterOf c)) s

/-- A gang placed in a window of the stack pair of its first member's home. -/
def placeGangAt (s : State) (used : List Nat) (g : Grid) (i : Nat) : Option State :=
  let home := unitHome s g i
  match gangWindow s g.ctx (unitNeed g i) (pairOf home) g.gangSize (clusterFree s used g.uid) with
  | none => none
  | some cores =>
    let s1 := advanceAll (putGang s g i cores) cores
    some (markPlaced (afterPlace s1 g.uid i home) g.uid i g.gangSize)

/-! ## Engine nodes (15 R331, R334) -/

/-- A node that waits for a page of its block. -/
def nodeFault (s : State) (g : Grid) (i va level : Nat) (h : Bool) : State :=
  if faultRoom s then
    modGrid (feFault s g.ctx .read va level h) g.uid (fun g => { g with nodes := tset g.nodes i { tget {} g.nodes i with page := some (pageOf va) } })
  else s

/-- A node that ends when it is dispatched. -/
def nodeFails (s : State) (g : Grid) (i err : Nat) : State := nodeEnd (markPlaced s g.uid i 1) g.uid i err

/-- A node accepted by its engine. -/
def nodeAccepted (s : State) (g : Grid) (i home : Nat) : State :=
  noteStart (markPlaced (afterPlace (advanceRho s home) g.uid i home) g.uid i 1) home

/-- An articulation node given to its home cluster's engine; a block out of range ends it REFUSED. -/
def placeArt (s : State) (used : List Nat) (g : Grid) (i home : Nat) : Option State :=
  let n := tget {} g.nodes i
  if !clusterFree s used g.uid home || !artRoom s home then none
  else
    match feRead s g.ctx n.target 64 with
    | .fault va lv h => some (nodeFault s g i va lv h)
    | .bad d => some (nodeFails s g i (if d = 0xFF then 4 else 3))
    | .ok bs s1 =>
      let b := recBits bs
      let j := artJobOf b
      let bad (a : W64) : Bool := decide (Config.globalLimit ≤ a.toNat) || a.toNat % 64 != 0
      if n.target % 64 ≠ 0 ∨ !artBlockOk b ∨ bad j.model ∨ bad j.input ∨ bad j.out then some (nodeFails s1 g i 10)
      else
        let (id, s2) := fresh s1
        let job : ArtJob := { j with id := id, owner := .node g.uid i, ctx := g.ctx, grid := some g.uid }
        match artNv s2 (some (engineAgent home)) g.ctx j.model.toNat with
        | .wait => none
        | .fault va lv h => some (nodeFault s g i va lv h)
        | .err e a sub => some (nodeAccepted (acceptArt s2 home { job with acceptErr := some (e, a, sub) }) g i home)
        | .ok s3 nv => some (nodeAccepted (acceptArt s3 home { job with ownedNv := some nv }) g i home)

/-- A copy node given to the copy engine of the best candidate. -/
def placeCopy (s : State) (used : List Nat) (g : Grid) (i home : Nat) : Option State :=
  let n := tget {} g.nodes i
  if !clusterFree s used g.uid home then none
  else
    let cs := ((List.range (s.policy.placeDepth + 1)).map (fun k => home * 8 + ((clusterAt s home).rho + k) % 8)).filter (copyFits s g.ctx)
    match argMin (scoreOf s) cs with
    | none => none
    | some core =>
      match copySpec s g.ctx n.target with
      | .fault va lv h => some (nodeFault s g i va lv h)
      | .bad d => some (nodeFails s g i (if d = 0xFF then 4 else 3))
      | .refused => some (nodeFails s g i 10)
      | .ok s1 b st =>
        let (id, s2) := fresh s1
        let (s3, _) := acceptCopy s2 core { copyJob id b st with owner := .node g.uid i, ctx := g.ctx, grid := some g.uid }
        some (nodeAccepted s3 g i home)

/-! ## Concurrent grids (15 R338) -/

/-- The units of a concurrent entry that need slots: every team, or every core node. -/
def gatherUnits (g : Grid) : List Nat :=
  if g.kind = .graph then tkeys (g.nodes.filter (fun n => n.2.kind == 0)) else List.range g.teams

/-- The lowest unit without a slot. -/
def unreserved (g : Grid) : Option Nat := (gatherUnits g).find? (fun i => !g.reservedSlots.any (fun r => r.1 == i))

/-- Slots kept for units on cores, in a home cluster. -/
def keepSlots (s : State) (uid i home : Nat) (cores : List Nat) : State :=
  let s1 := advanceAll s cores
  modGrid (afterPlace s1 uid i home) uid (fun g =>
    { g with reservedSlots := g.reservedSlots ++ ((List.range cores.length).zip cores).map (fun e => (i + e.1, e.2)) })

/-- Slots reserved in ascending order as they fit; fuel bounds the units. -/
def gather (uid : Nat) : Nat → State → State
  | 0, s => s
  | n + 1, s =>
    let g := gridAt s uid
    match unreserved g with
    | none => s
    | some i =>
      let home := unitHome s g i
      let s1 := ungate s home
      if 2 ≤ g.gangSize ∧ g.kind ≠ .graph then
        match gangWindow s1 g.ctx (unitNeed g i) (pairOf home) g.gangSize (clusterFree s1 [] uid) with
        | some cores => gather uid n (keepSlots s1 uid i home cores)
        | none => s1
      else
        match (if clusterFree s1 [] uid home then chooseCore s1 g.ctx home (teamFits s1 g.ctx (unitNeed g i) []) else none) with
        | some c => gather uid n (keepSlots s1 uid i home [c])
        | none => s1

/-- Every team of a gathered grid placed in its slots, each of which is held until its team takes it. -/
def startAll (s : State) (uid : Nat) : State :=
  let g := gridAt s uid
  let slots := g.reservedSlots
  let core (i : Nat) : Nat := ((slots.find? (fun r => r.1 == i)).map (·.2)).getD 0
  let s0 := modGrid s uid (fun g => { g with nextTeam := g.teams })
  let taken (s : State) (i n : Nat) : State :=
    modGrid s uid (fun g => { g with reservedSlots := g.reservedSlots.filter (fun r => decide (r.1 < i) || decide (i + n ≤ r.1)) })
  if 2 ≤ g.gangSize then
    (List.range (g.teams / g.gangSize)).foldl (fun s j =>
      putGang (taken s (j * g.gangSize) g.gangSize) g (j * g.gangSize) ((List.range g.gangSize).map (fun m => core (j * g.gangSize + m)))) s0
  else (List.range g.teams).foldl (fun s i => (putTeam (taken s i 1) g i (core i) none 0).2) s0

/-- A concurrent entry in its turn gathers slots, and starts its teams once it has one for each. -/
def gatherTurn (s : State) (uid : Nat) : State :=
  match s.gathering with
  | some k => if k ≠ uid then s else go s
  | none => go { s with gathering := some uid }
where
  /-- The entry whose turn it is. -/
  go (s : State) : State :=
    let s1 := gather uid (gridAt s uid).teams s
    if (unreserved (gridAt s1 uid)).isSome then s1
    else
      let s2 := modGrid { s1 with gathering := none } uid (fun g => { g with gathered := true })
      if (gridAt s2 uid).kind = .graph then s2 else startAll s2 uid

/-! ## Blocked ancestors (01 R32) -/

/-- A grid and its ancestors, nearest first. -/
def lineage (s : State) : Nat → Nat → List Nat
  | 0, g => [g]
  | n + 1, g =>
    g :: (match (gridAt s g).parentGrid with
      | some p => lineage s n p
      | none => [])

/-- The number of a team's most recent wait in an fwait on the future of one of the grids: waits are numbered in the order they
began. -/
def blockedFor (t : Team) (gs : List Nat) : Option Nat :=
  argMin (2 ^ 64 - ·) (t.units.flatMap (fun u => u.2.blocked.filterMap (fun b =>
    match b.wait with
    | .fwait _ slot _ =>
      let f := slotAt u.2 slot
      if !b.ended && (f.kind == .grid || f.kind == .graph) && hasNat gs f.link then some b.id else none
    | _ => none)))

/-- The ancestor teams of a grid's context that wait for it, the most recently blocked first. -/
def blockedAncestors (s : State) (g : Grid) : List Nat :=
  let gs := lineage s (Config.maxDepth + 1) g.uid
  let ts := s.teams.filterMap (fun t =>
    if t.2.ctx = g.ctx ∧ t.2.phase = .running then (blockedFor t.2 gs).map (fun e => (e, t.1)) else none)
  (sortBy (fun a b => decide (b.1 ≤ a.1)) ts).map (·.2)

/-- The cores on which a unit would stand if some teams left. -/
def wouldFit (s : State) (g : Grid) (i : Nat) (skip : List Nat) : List Nat :=
  let home := unitHome s g i
  if 2 ≤ g.gangSize ∧ g.kind ≠ .graph then
    (gangStarts s g.ctx (unitNeed g i) skip (pairOf home) g.gangSize).flatMap (fun c => gangCores s g.ctx c g.gangSize)
  else (candidates s g.ctx home).filter (teamFits s g.ctx (unitNeed g i) skip)

/-- The most recently blocked ancestor that holds what a unit needs is pre-empted, one at a time. -/
def relieve (s : State) (g : Grid) (i : Nat) : State :=
  if 1 < g.cls ∨ g.parentGrid.isNone ∨ s.teams.any (fun t => t.2.phase == .saving && t.2.preemptFor == g.uid) then s
  else
    let bs := blockedAncestors s g
    let cores := wouldFit s g i bs
    match bs.find? (fun b => cores.any (standsOn (teamAt s b)) && preemptable s b) with
    | some b => if wouldFit s g i [] = [] then beginPreempt s b g.uid else s
    | none => s

/-! ## A dispatch cycle (15 R333) -/

/-- An entry passed over for longer than the pool dispatch starvation bound claims its home cluster (15 R333). -/
def claimHome (s : State) (uid i : Nat) : State :=
  let g := gridAt s uid
  let h := unitHome s g i
  if g.passed ≤ s.policy.poolStarve || hasNat (clusterAt s h).claims uid then s
  else modCluster s h (fun k => { k with claims := k.claims ++ [uid] })

/-- An entry whose next unit could not be placed: its count rises, and with it its claim. -/
def countPass (s : State) (uid i : Nat) : State := claimHome (modGrid s uid (fun g => { g with passed := g.passed + 1 })) uid i

/-- An entry passed over: its count rises, and the home of untiled work is fixed. -/
def passOver (s : State) (g : Grid) (i : Nat) : State :=
  let s1 := modGrid s g.uid (fun h => { h with homeSet := if untiledHost g i ∧ h.homeSet.isNone then some (rawHome s g i) else h.homeSet })
  relieve (countPass s1 g.uid i) g i

/-- A gated home is ungated, and its unit waits there (15 R335). -/
def ungateHome (s : State) (g : Grid) (i : Nat) : State :=
  let home := unitHome s g i
  if 2 ≤ g.gangSize ∧ g.kind ≠ .graph then ungate (ungate s (2 * pairOf home)) (2 * pairOf home + 1) else ungate s home

/-- One unit of an entry that may be placed now. -/
def placeUnitAt (s : State) (used : List Nat) (g : Grid) (i : Nat) : Option State :=
  let n := tget {} g.nodes i
  if g.kind = .graph ∧ n.kind = 1 then placeArt s used g i (unitHome s g i)
  else if g.kind = .graph ∧ n.kind = 2 then placeCopy s used g i (unitHome s g i)
  else if 2 ≤ g.gangSize ∧ g.kind ≠ .graph then placeGangAt s used g i
  else placeTeamAt s used g i

/-- One entry visited: nothing to place, a start, or an entry passed over; a concurrent entry is passed over from its turn to gather
on. -/
def visitEntry (s : State) (uid : Nat) : State :=
  let g := gridAt s uid
  if !mayStart s g then s
  else
    let s1 := if g.cls = 0 ∧ !g.gathered then gatherTurn s uid else s
    let g1 := gridAt s1 uid
    match nextUnit s1 g1 with
    | none => s1
    | some i =>
      if g1.cls = 0 ∧ !g1.gathered then
        (if s1.gathering = some uid then passOver s1 g1 ((unreserved g1).getD i) else relieve s1 g1 ((unreserved g1).getD i))
      else if startsFull s1 then countPass s1 uid i
      else
        let held := g1.reservedSlots.any (fun r => r.1 == i)
        let s2 := if held then s1 else ungateHome s1 g1 i
        match (if (clusterAt s1 (unitHome s1 g1 i)).gated && !held then none
               else placeUnitAt s2 (startClusters s2) g1 i) with
        | some s3 => s3
        | none => passOver s2 g1 i

/-- The dispatcher visits the pool's entries in order, once in a front-end cycle; at most four units start, at most one in a cluster. -/
def dispatch (s : State) : State :=
  if s.supervisor.freeze || s.dispatched then s else (poolOrder s).foldl visitEntry { s with dispatched := true }

/-- DISPATCH_CYCLE. -/
def execDispatchCycle (s : State) : Out := .next (dispatch s)

/-- POOL_DISPATCH_STARVATION: an entry passed over for longer than the bound claims its home cluster. -/
def execPoolDispatchStarvation (grid : Nat) (s : State) : Out :=
  let g := gridAt s grid
  match nextUnit s g with
  | none => .next s
  | some i =>
    if !hasNat s.readyPool grid then .next s
    else .next (claimHome s grid (if g.cls = 0 ∧ !g.gathered then (unreserved g).getD i else i))

/-! ## Start of a team (15 R339, R412, 01 R14, R16, R17) -/

/-- The group slots taken on a core. -/
def slotsTaken (s : State) (core : Nat) : List Nat :=
  s.teams.flatMap (fun t => if standsOn t.2 core && t.2.phase != .placed then (t.2.units.filter (fun u => decide (u.1 < 32))).map (fun u => u.2.slot) else [])

/-- The lowest free slot of a quadrant. -/
def slotIn (taken : List Nat) (q : Nat) : Option Nat := ((List.range 8).map (8 * q + ·)).find? (fun i => !hasNat taken i)

/-- The next free slot from a quadrant on, with the quadrant after it. -/
def nextSlot (taken : List Nat) (q : Nat) : Option (Nat × Nat) :=
  ((List.range 4).filterMap (fun i => (slotIn taken ((q + i) % 4)).map (fun x => (x, (q + i + 1) % 4)))).head?

/-- The slots of n groups in ascending GROUP. -/
def slotsFrom : Nat → List Nat → Nat → List Nat
  | 0, _, _ => []
  | n + 1, taken, q =>
    match nextSlot taken q with
    | some (i, q') => i :: slotsFrom n (i :: taken) q'
    | none => 0 :: slotsFrom n taken q

/-- The quadrant with the most free slots, the lowest on a tie. -/
def firstQuad (taken : List Nat) : Nat := (argMin (fun q => (taken.filter (fun i => i / 8 == q)).length) [0, 1, 2, 3]).getD 0

/-- The slots a team of n groups takes on a core. -/
def teamSlots (s : State) (core n : Nat) : List Nat := slotsFrom n (slotsTaken s core) (firstQuad (slotsTaken s core))

/-- The lowest conductor context of a core that no team holds. -/
def freeConductor (s : State) (core : Nat) : Nat :=
  let taken := s.teams.filterMap (fun t => if standsOn t.2 core ∧ t.2.phase ≠ .placed ∧ thas t.2.units 32 then some t.2.conductorSlot else none)
  ((List.range Config.coreConductors).find? (fun i => !hasNat taken i)).getD 0

/-- Entry, register share in blocks and role of each group of a team. -/
def groupRoles (k : KernelDesc) (n : Nat) : List (Nat × Nat × Nat) :=
  if k.roles = [] then List.replicate n (k.entry, k.regBlocks, 0)
  else ((List.range k.roles.length).zip k.roles).flatMap (fun r => List.replicate r.2.groups (r.2.entry, r.2.regBlocks, r.1))

/-- The argument words of unit i of a grid. -/
def unitArgs (g : Grid) (i : Nat) : List W32 := if g.kind = .graph then (tget {} g.nodes i).args else g.args

/-- The threads of a group at an entry. -/
def startThreads (lanes pc : Nat) : TMap Thread := (List.range lanes).map (fun l => (l, { live := true, pc := BitVec.ofNat 48 pc }))

/-- The groups of a team at its start. -/
def startGroups (k : KernelDesc) (n : Nat) (slots : List Nat) (args : List W32) : TMap Grp :=
  byIndex ((groupRoles k n).zip slots |>.zipIdx |>.map (fun e =>
    let ((entry, blocks, role), slot) := e.1
    { live := true, idx := e.2, role := role, slot := slot, share := blocks, s := byIndex args, threads := startThreads 32 (k.codeBase + entry) }))

/-- The conductor at its start. -/
def startConductor (k : KernelDesc) (entry : Nat) (args : List W32) : Grp :=
  { live := true, idx := 32, k := byIndex (args.map (fun w => w.setWidth 64)), threads := startThreads 1 (k.codeBase + entry) }

/-- The front-end cycle in which a gang's starts begin is kept. -/
def noteBegun (s : State) (t : Team) : State :=
  match t.gang with
  | some g => modGang s g (fun k => { k with begun := some (k.begun.getD s.fe) })
  | none => s

/-- A placed team takes its group slots and conductor context, its storage zero, and begins after an acquire step; at most four units
start in a front-end cycle, at most one in a cluster (15 R333). -/
def startTeam (s : State) (team : Nat) : State :=
  let t := teamAt s team
  if !thas s.teams team || t.phase ≠ .placed || s.supervisor.freeze || (gridAt s t.grid).domain || (ctxAt s t.ctx).phase ≠ .active ||
      hasNat s.startedIn (clusterOf t.core) || decide (4 ≤ s.startedIn.length) || !startOpen s t then s
  else
    let g := gridAt s t.grid
    let args := unitArgs g t.index
    let n := (groupRoles t.kernel t.groups).length
    let groups := startGroups t.kernel t.groups (teamSlots s t.core n) args
    let cond : TMap Grp := match t.kernel.conductor with
      | some e => [(32, startConductor t.kernel e args)]
      | none => []
    let slot := freeConductor s t.core
    noteStart (acquireStep (modTeam (noteBegun s t) team (fun t =>
      { t with phase := .running, units := groups ++ cond, conductorSlot := slot, sect := 5, startFe := some s.fe })) t.core) (clusterOf t.core)

/-- TEAM_START. -/
def execTeamStart (team : Nat) (s : State) : Out := .next (startTeam s team)

/-- The front-end cycle in which a placed team's gang began its starts; none has begun counts as later than any. -/
def begunAt (s : State) (t : Team) : Nat := (t.gang.bind (fun g => (gangAt s g).begun)).getD (s.fe + 1)

/-- The starts that the dispatcher has sent, made as far as a front-end cycle allows: gangs that have begun first, the earliest before
the others, then in the order they were placed. -/
def makeStarts (s : State) : State :=
  let before (a b : Team) : Bool := decide (begunAt s a < begunAt s b) || (begunAt s a == begunAt s b && decide (a.uid ≤ b.uid))
  ((sortBy before (starting s)).map (·.uid)).foldl startTeam s

/-! ## Retirement of teams (01 R26, 05 R105) -/

/-- Whether every group and the conductor have retired, and every operation and access has ended. -/
def teamDone (s : State) (t : Team) : Bool :=
  t.phase != .placed || t.stopped

/-- The accesses and engine operations that hold a team's retirement. -/
def teamQuiet (s : State) (t : Team) : Bool :=
  t.engineOps == 0 && !matrixBusy s t.uid &&
  t.units.all (fun u => u.2.retired && u.2.loads.isEmpty && u.2.stores.isEmpty) &&
  (t.stopped || (t.savedLog.isEmpty && !(coreAt s t.core).log.any (fun e => e.unit.team == t.uid)))

/-- How a team ended, as its node's ERR: stopped, of a set domain, or well. -/
def teamErr (s : State) (t : Team) : Nat :=
  if t.stopped ∧ (t.phase ≠ .saved ∨ (ctxAt s t.ctx).phase = .stopped) then 9 else if (gridAt s t.grid).domain then 1 else 0

/-- Entries and stores of a stopped team dropped. -/
def dropAccesses (s : State) (t : Nat) : State :=
  let s1 := { s with cores := tmap (fun _ c => { c with log := c.log.filter (fun e => e.unit.team != t) }) s.cores }
  modTeam s1 t (fun tm => { tm with savedLog := [], units := tmap (fun _ g => { g with stores := g.stores.filter (fun p => p.logged.isNone) }) tm.units })

/-- Loads of other members from a team's scratchpad that are still on their way are answered as it leaves (16 R361). -/
def bindLoads (s : State) (team : Nat) : State :=
  let bind (p : PendingLoad) : PendingLoad :=
    { p with lanes := p.lanes.map (fun a =>
        match a.loc with
        | .spad t o => if t = team ∧ a.data = [] then { a with data := locBytes s (.spad t o) p.bytes } else a
        | _ => a) }
  if (gangMembers s (teamAt s team)).length < 2 then s
  else { s with teams := tmap (fun _ t => { t with units := tmap (fun _ g => { g with loads := g.loads.map bind }) t.units }) s.teams }

/-- How a grid ends: TOO_LARGE when it can never be resident again (19 R407), a fault before a cancellation. -/
def gridErr (s : State) (g : Grid) : Nat :=
  if g.neverFit then 4
  else if g.faulted || g.nodeFailed || (ctxAt s g.ctx).phase == .stopped then 9
  else if g.domain || g.cancelledWork then 1 else 0

/-- How the task of a wagon ends is decided when its team retires (14 R318). -/
def taskEnd (s : State) (uid : Nat) : State :=
  let g := gridAt s uid
  if g.kind = .wagonTask ∧ g.endErr.isNone then modGrid s uid (fun g => { g with endErr := some (gridErr s g) }) else s

/-- A retired team leaves the device: its burst targets end, its layers are released, its barriers and slots go, and its node ends. -/
def removeTeam (s : State) (team err : Nat) : State :=
  let t := teamAt s team
  let keys := tkeys t.layerCounts
  let saved := t.phase == .saved
  let s1 := endBursts (if saved then s else leaveCore (releaseStep (bindLoads s team) t.core) team) team
  let s2 := keys.foldl layerReleased { s1 with teams := terase s1.teams team, gangOps := s1.gangOps.filter (fun g => g.2.unit.team != team) }
  let s4 := if saved then s2 else clearModes s2 t
  let s5 := if (gridAt s4 t.grid).kind = .graph then nodeEnd s4 t.grid t.index err else s4
  checkSuspended (taskEnd s5 t.grid) t.ctx

/-- TEAM_RETIREMENT: a team whose groups and conductor have retired and whose operations have completed takes its release step and
leaves its core. -/
def execTeamRetirement (team : Nat) (s : State) : Out :=
  if !thas s.teams team then .next s
  else
    let t0 := teamAt s team
    let s1 := if t0.stopped then dropAccesses s team else s
    let t := teamAt s1 team
    if teamDone s1 t && teamQuiet s1 t && !(t.phase == .saved && !t.stopped) then .next (removeTeam s1 team (teamErr s1 t)) else .next s

/-! ## Retirement of grids (01 R26, R38, 15 R329, R331) -/

/-- Whether no further team of a grid starts: all have been placed, or its domain is set, or its context has stopped. -/
def noMoreTeams (s : State) (g : Grid) : Bool :=
  let closed := g.domain || (ctxAt s g.ctx).phase == .stopped
  if g.kind = .graph then
    !g.nodes.any (fun n => n.2.phase == .started) && (closed || !g.nodes.any (fun n => n.2.phase == .ready))
  else closed || decide (g.teams ≤ g.nextTeam)

/-- Whether a grid can retire: its teams and child grids have retired. -/
def gridDone (s : State) (g : Grid) : Bool :=
  g.live && noMoreTeams s g && g.children == 0 && !s.teams.any (fun t => t.2.grid == g.uid)

/-- DETAIL of a faulted grid's completion record (15 R329). -/
def gridDetail (g : Grid) (err : Nat) : Nat := if err ≠ 9 then 0 else g.faultIndex.getD 0xFFFFFFFF

/-- Whether the first fatal trap of a grid was a LAYER_FAULT (14 R318). -/
def stoppedByLayer (s : State) (g : Grid) : Bool :=
  match g.faultIndex with
  | none => false
  | some i => (((ctxAt s g.ctx).faultLog[i]?).map (fun r => r.cause == .layerFault)).getD false

/-- Whether some future slot or live grid still names a retired grid. -/
def gridNamed (s : State) (uid : Nat) : Bool :=
  s.teams.any (fun t => t.2.grid == uid || t.2.units.any (fun u => u.2.futures.any (fun f =>
    f.2.state != .free && (f.2.kind == .grid || f.2.kind == .graph) && f.2.link == uid))) ||
  s.grids.any (fun g => g.2.live && g.2.parentGrid == some uid) ||
  s.wagons.any (fun w => w.2.rows.any (fun r => r.grid == uid) || w.2.departed.any (fun d => d.rows.any (fun r => r.grid == uid)))

/-- Retired grids that nothing names any more leave the state. -/
def dropGrids (s : State) : State := { s with grids := s.grids.filter (fun g => g.2.live || gridNamed s g.1) }

/-- A grid leaves the ready pool and its context; its parent has one child less. -/
def endGrid (s : State) (uid : Nat) : State :=
  let g := gridAt s uid
  let s1 := poolFree (modGrid s uid (fun g => { g with live := false, reservedSlots := [] })) uid
  let s2 := { s1 with clusters := tmap (fun _ k => { k with claims := k.claims.filter (· != uid) }) s1.clusters
                      gangs := s1.gangs.filter (fun x => x.2.members.any (thas s1.teams)) }
  let s3 := match g.parentGrid with
    | some p => if thas s2.grids p then modGrid s2 p (fun p => { p with children := p.children - 1 }) else s2
    | none => s2
  dropGrids (checkUnreg s3 g.ctx)

/-- What a grid's origin learns. -/
def tellOrigin (s : State) (g : Grid) (err : Nat) : State :=
  match g.origin with
  | .command q i h =>
    if g.kind = .graph then completeCommand s q i 0x02 h err 0 (gridDetail g err)
    else completeCommand s q i 0x01 h err g.gridid (gridDetail g err)
  | .parent u slot =>
    if thas s.teams u.team then completeSlot s u slot (if err = 4 then 10 else err) 0 0 else s
  | _ => s

/-- Whether no work of a context is left: no team, no grid, no engine operation. -/
def teardownDone (s : State) (ctx : Nat) : Bool :=
  !s.teams.any (fun t => t.2.ctx == ctx) && !s.grids.any (fun g => g.2.live && g.2.ctx == ctx) &&
  !s.cores.any (fun c => c.2.copies.any (fun j => j.ctx == ctx)) &&
  !s.clusters.any (fun k => k.2.geo.any (fun j => j.ctx == ctx) || k.2.art.any (fun j => j.ctx == ctx))

/-- A teardown completes when the last work has gone: the context is FREE, its pools are unassigned, and its windows keep their frames until
they are closed (14 R305, 08 R216, 19 R399). -/
def checkTeardown (s : State) (ctx : Nat) : State :=
  match (ctxAt s ctx).teardownBy with
  | none => s
  | some (q, i, h) =>
    if !teardownDone s ctx then s
    else
      let s1 := dropTlb s ctx 0 (2 ^ 48)
      let s2 := { s1 with
        contexts := tset s1.contexts ctx {}
        pools := s1.pools.filter (fun p => p.2.ctx != some ctx)
        windows := tmap (fun _ w => if w.ctx = ctx then { w with ctx := Config.contexts } else w) s1.windows
        evicted := s1.evicted.filter (fun e => e.1 / 2 ^ 32 != ctx) }
      completeCommand s2 q i 0x14 h 0 0 0

/-- GRID_RETIREMENT: a grid, graph or wagon task whose teams and children have retired completes its future or command; a wagon's
task first has its results copied. -/
def execGridRetirement (grid : Nat) (s : State) : Out :=
  let g := gridAt s grid
  if !thas s.grids grid || !gridDone s g then .next s
  else
    let err := g.endErr.getD (gridErr s g)
    match g.origin with
    | .wagon q id =>
      let e : TaskEnd := if err = 9 then .stopped (stoppedByLayer s g) else if err = 1 then .cancelled else .retired
      (match taskEnds s q id e with
       | .waits s1 => .next s1
       | .all s1 => .next (checkTeardown (endGrid s1 grid) g.ctx))
    | _ => .next (checkTeardown (endGrid (tellOrigin s g err) grid) g.ctx)

/-! ## Moving and resuming teams (15 R344, 17 R381, R382, 14 R310) -/

/-- A team on a core: its slots and conductor context are taken there, and a group at handler level finds its record at the new
slot. -/
def settleTeam (s : State) (team core : Nat) : State :=
  let t := teamAt s team
  let n := (t.units.filter (fun u => decide (u.1 < 32))).length
  let slots := teamSlots s core n
  let cond := freeConductor s core
  let shadow := t.shadowCore.map (fun _ => core + 1)
  let need := needOf t.kernel t.groups
  let setMode (s : State) (c : Nat) : State :=
    if t.kernel.unified then modCore s c (fun r => { r with l1 := some (l1After r.l1 (coreNeeds s [team] c) need) }) else s
  let s1 := setMode s core
  let s2 := match shadow with
    | some d => setMode s1 d
    | none => s1
  let s3 := modTeam s2 team (fun t =>
    { t with
      core := core
      shadowCore := shadow
      conductorSlot := cond
      phase := .running
      units := tmap (fun i g => if i < 32 then { g with slot := slots.getD (((tkeys t.units).filter (fun j => decide (j < i))).length) 0 } else g) t.units })
  let s4 := (unitIds (teamAt s3 team)).foldl (fun s u =>
    match (unitAt s u).handler with
    | none => s
    | some h =>
      modUnit (writeTrapRec s u h.record) u (fun g => { g with handler := some { h with recAddr := BitVec.ofNat 64 (trapAddr s u) } })) s3
  acquireStep s4 core

/-- A resumed team's logged words translate again, in program order (17 R382). -/
def resumeLog (s : State) (team core : Nat) : State :=
  let log := (teamAt s team).savedLog
  let used := (coreAt s core).log.map (·.slot)
  let free := (List.range Config.operandLogEntries).filter (fun i => !hasNat used i)
  let ids := log.map (·.id)
  let s1 := modTeam (modCore s core (fun c => { c with log := c.log ++ (log.zip free).map (fun e => { e.1 with slot := e.2 }) })) team
    (fun t => { t with savedLog := [] })
  retryLogs s1 (fun e _ => e.unit.team == team && hasNat ids e.id)

/-- The cores a set of teams would take, the first on a core. -/
def setCores (s : State) (set : List Nat) (core : Nat) : List (Nat × Nat) :=
  match set with
  | [] => []
  | t :: _ => set.zip ((List.range set.length).map (fun i => core + (if (teamAt s t).shadowCore.isSome then 2 * i else i)))

/-- The teams that stand together: a team's gang, in member order, or itself. -/
def resumeSet (s : State) (team : Nat) : List Nat :=
  let t := teamAt s team
  if t.gang.isSome then (gangMembers s t).filter (thas s.teams) else [team]

/-- The home of the first member of a team's gang, whether that member has retired or not; of a team in none its own (15 R335, R337). -/
def gangHome (s : State) (t : Team) : Nat := unitHome s (gridAt s t.grid) (if t.gang.isSome then t.index - t.member else t.index)

/-- Whether a tiled unit of a team is in its home cluster on a core; a gang is in the stack pair of its first member's home (15 R335,
R337, R344). -/
def homeOk (s : State) (team core : Nat) : Bool :=
  let t := teamAt s team
  (unitTile (gridAt s t.grid) t.index).isNone ||
  (if t.gang.isSome then pairOf (clusterOf core) == pairOf (gangHome s t) else clusterOf core == gangHome s t)

/-- Whether a core pair takes work now: its boundary is open, and no entry claims the cluster. -/
def coreOpen (s : State) (core : Nat) : Bool := (pairAt s (pairOf (clusterOf core))).pending.isNone && (clusterAt s (clusterOf core)).claims.isEmpty

/-- Whether a set of teams fits the cores it would take, its own places not counted. -/
def setFits (s : State) (ps : List (Nat × Nat)) : Bool :=
  let skip := ps.map (·.1)
  let p := (ps.head?.map (fun e => e.2 / 16)).getD 0
  ps.all (fun e =>
    let t := teamAt s e.1
    decide (e.2 < Config.cores) && decide (e.2 / 16 = p) && coreOpen s e.2 && homeOk s e.1 e.2 &&
    coreFits s t.ctx (needOf t.kernel t.groups) skip e.2 &&
    (t.shadowCore.isNone || (e.2 % 2 == 0 && coreFits s t.ctx (needOf t.kernel t.groups) skip (e.2 + 1)))) &&
  (match ps with
   | [] => false
   | e :: _ => decide ((ps.map (·.2)).length = (dedupNat (ps.map (·.2))).length))

/-- Whether the child that a team made room for has all its units placed (01 R32). -/
def childPlaced (s : State) (t : Team) : Bool :=
  t.preemptFor == 0 || !(gridAt s t.preemptFor).live || !thas s.grids t.preemptFor ||
  (let g := gridAt s t.preemptFor
   g.domain || (if g.kind = .graph then !g.nodes.any (fun n => n.2.phase == .ready || n.2.phase == .waiting) else decide (g.teams ≤ g.nextTeam)))

/-- Whether a lower saved team of the same parallel grid resumes first (01 R27). -/
def lowerSaved (s : State) (t : Team) : Bool :=
  (gridAt s t.grid).cls == 1 &&
  s.teams.any (fun x => x.2.grid == t.grid && x.2.phase == .saved && decide (x.2.index < t.index) && !x.2.stopped && (t.gang.isNone || x.2.gang != t.gang))

/-- Whether a context and a team's history let it resume. -/
def mayResume (s : State) (team : Nat) : Bool :=
  let t := teamAt s team
  t.phase == .saved && !t.stopped && (ctxAt s t.ctx).phase == .active && (ctxAt s t.ctx).suspendBy.isNone && childPlaced s t && !lowerSaved s t

/-- Teams of a set given their cores, in which they take no slots yet. -/
def takePlaces (s : State) (ps : List (Nat × Nat)) : State :=
  ps.foldl (fun s e => modTeam s e.1 (fun t => { t with phase := .placed, core := e.2, shadowCore := t.shadowCore.map (fun _ => e.2 + 1) })) s

/-- Each team of a set put on its core, then its logged words. -/
def settleSet (s : State) (ps : List (Nat × Nat)) : State :=
  let s1 := ps.foldl (fun s e => settleTeam s e.1 e.2) (takePlaces s ps)
  ps.foldl (fun s e => resumeLog (modTeam s e.1 (fun t => { t with preemptFor := 0, preemptElapsed := 0, moving := none })) e.1 e.2) s1

/-- Places for further sets of teams, each at its lowest fitting start, the places given so far taken. -/
def placeSets : List (List Nat) → State → Option (List (Nat × Nat))
  | [], _ => some []
  | set :: r, s =>
    match (List.range Config.cores).find? (fun c => setFits s (setCores s set c)) with
    | none => none
    | some c =>
      let ps := setCores s set c
      (placeSets r (takePlaces s ps)).map (ps ++ ·)

/-- The other sets of teams that resume with a team: the rest of a concurrent grid (01 R27). -/
def otherSets (s : State) (team : Nat) : List (List Nat) :=
  let t := teamAt s team
  if (gridAt s t.grid).cls ≠ 0 then []
  else
    let first := resumeSet s team
    (tkeys (s.teams.filter (fun x => x.2.grid == t.grid && !hasNat first x.1 && x.2.member == 0))).map (resumeSet s)

/-- Whether the cores of a list of places have log entries for their teams. -/
def logsFit (s : State) (ps : List (Nat × Nat)) : Bool :=
  ps.all (fun e =>
    decide ((coreAt s e.2).log.length + (ps.filter (fun d => d.2 == e.2)).foldl (fun n d => n + (teamAt s d.1).savedLog.length) 0 ≤ Config.operandLogEntries))

/-- The teams of a grid that have not retired. -/
def teamsLeft (s : State) (g : Grid) : List Team := (s.teams.filter (fun t => t.2.grid == g.uid)).map (·.2)

/-- Whether what is left of a pre-empted concurrent grid or graph can never be resident again, since cores have been retired (19 R407): its
teams, its gangs each as a whole, or the nodes of a graph. -/
def neverFits (s : State) (g : Grid) : Bool :=
  g.cls == 0 &&
  (if g.kind = .grid then
     decide (gridCapacity s g.ctx g.gangSize (unitNeed g 0) <
       (if 2 ≤ g.gangSize then g.gangSize * (dedupNat ((teamsLeft s g).map (fun t => t.index / g.gangSize))).length else (teamsLeft s g).length))
   else g.kind == .graph && !packs ((teamsLeft s g).map (fun t => needOf t.kernel t.groups)) [] (allPlaces s g.ctx))

/-- The teams of such a grid retire unresumed, and its launch ends TOO_LARGE. -/
def tooLarge (s : State) (uid : Nat) : State :=
  let s1 := modGrid s uid (fun g => { g with neverFit := true })
  (tkeys (s.teams.filter (fun t => t.2.grid == uid))).foldl (fun s t => modTeam s t (fun tm =>
    { tm with stopped := true, units := tmap (fun _ g =>
        { g with threads := [], live := false, retired := true, tail := [], blocked := [], clause := none, handler := none, futures := [] }) tm.units })) s1

/-- TEAM_RESUME: a saved team, with its gang and all of a concurrent grid, begins again on cores it fits, after an acquire step. -/
def execTeamResume (team core : Nat) (s : State) : Out :=
  let set := resumeSet s team
  let others := otherSets s team
  let ps := setCores s set core
  if !thas s.teams team || s.supervisor.freeze || !(set ++ others.flatten).all (mayResume s) then .next s
  else if neverFits s (gridAt s (teamAt s team).grid) then .next (tooLarge s (teamAt s team).grid)
  else if !setFits s ps then .next s
  else
    match placeSets others (takePlaces s ps) with
    | none => .next s
    | some qs => if logsFit s (ps ++ qs) then .next (settleSet s (ps ++ qs)) else .next s

/-- Whether a team may be moved: it runs, or is being stopped at its boundaries, and no copy of it is outstanding (15 R344). -/
def movable (s : State) (team : Nat) : Bool :=
  let t := teamAt s team
  (t.phase == .running || t.phase == .saving) &&
  !s.cores.any (fun c => c.2.copies.any (fun j => match j.owner with
    | .future u _ => u.team == team
    | _ => false))

/-- The window that a gang moves into: chosen as at its placement among those other than its own, in the pair of its first member's home;
an untiled gang keeps its pair (15 R337, R344, log 46). -/
def moveWindow (s : State) (set : List Nat) : Option Nat :=
  match set with
  | [] => none
  | m :: _ =>
    let t := teamAt s m
    let p := if (unitTile (gridAt s t.grid) t.index).isSome then pairOf (gangHome s t) else pairOf (clusterOf t.core)
    let places (c : Nat) : List Nat := gangCores s t.ctx c set.length
    argMin (fun c => (places c).foldl (fun k i => k + scoreOf s i) 0)
      ((gangStarts s t.ctx (needOf t.kernel t.groups) set p set.length).filter (fun c => c != t.core && (places c).all (coreOpen s)))

/-- Whether a set may move to a core: a single team to any that it fits, a gang into its window (15 R344). -/
def moveOk (s : State) (set : List Nat) (core : Nat) : Bool :=
  (set.all (fun m => (teamAt s m).gang.isNone)) || moveWindow s set == some core

/-- The members of a set whose domain was set while they were being moved: they count as pre-empted (15 R343, 01 R38). -/
def cancelMoved (s : State) (set : List Nat) : State :=
  (set.filter (fun m => (teamAt s m).moving == some true)).foldl cancelSaved s

/-- TEAM_MIGRATION: a team, with its gang, stops at its boundaries; once its matrix operations and loads have ended it leaves its
core after a release step and goes on on another that it fits. -/
def execTeamMigration (team core : Nat) (s : State) : Out :=
  let set := resumeSet s team
  let ps := setCores s set core
  let modes := set.all (fun t => !(teamAt s t).kernel.unified || ps.all (fun e => (coreAt s e.2).l1.isSome))
  if !thas s.teams team || s.supervisor.freeze || !set.all (movable s) || !setFits s ps || !modes || !moveOk s set core ||
      (ctxAt s (teamAt s team).ctx).phase ≠ .active || ps.any (fun e => (teamAt s e.1).core == e.2) then .next s
  else if set.all (teamSaves s) then
    let s1 := cancelMoved (set.foldl saveTeam s) set
    .next (settleSet s1 (ps.filter (fun e => !(teamAt s1 e.1).stopped)))
  else
    .next ((set.filter (fun t => (teamAt s t).phase == .running)).foldl (fun s m =>
      modTeam (drainTeam 0 s m) m (fun t => { t with moving := some false })) s)

end Sys2Proof.Machine
end

