-- ==== Sys2Proof/Machine/Contexts.lean ====
section
/-! DEFINITION. Contexts set up, rewritten, suspended, resumed and torn down (14 R304-R306, R411), and code objects registered and
unregistered (13 R293-R298, R302). -/

set_option linter.unusedVariables false

namespace Sys2Proof.Machine

/-! ## Context records (14 R304) -/

/-- A context record, none where a reserved bit is set or a field is out of range. -/
def parseCtx (s : State) (bs : List Byte) : Option CtxRecord :=
  let x := recBits bs
  let w (i : Nat) : Nat := bitsAt x (32 * i + 31) (32 * i)
  let d (i : Nat) : Nat := bitsAt x (32 * i + 63) (32 * i)
  let r : CtxRecord :=
    { ptroot := d 0, prio := w 2 % 8, fareshare := w 3 % 65536, deadline := w 4, grace := w 5, starv := w 6, waitdef := w 7,
      clmask := BitVec.ofNat 24 (w 8), hcmask := BitVec.ofNat 32 (w 9), hentry := d 10, trapbase := d 12, privbase := d 14, privlen := d 16 }
  if w 2 < 8 ∧ w 3 < 65536 ∧ w 8 < 2 ^ 24 ∧ w 8 ≠ 0 ∧ zeroAt x 1023 576 ∧ (r.starv = 0 ∨ (256 ≤ r.starv ∧ r.starv ≤ 65536)) ∧
      r.ptroot % 4096 = 0 ∧ r.ptroot + 4096 ≤ s.memBytes ∧ r.hentry < 2 ^ 48 ∧ r.trapbase % 64 = 0 ∧
      r.trapbase + Config.trapRegionBytes ≤ Config.globalLimit ∧ r.privbase + r.privlen ≤ Config.globalLimit then some r
  else none

/-- Whether every page of a record's trap-record region is mapped present and writable through the record's own tables (14 R411). -/
def trapRegionOk (s : State) (ctx : Nat) (r : CtxRecord) : Bool :=
  let s1 := modCtx s ctx (fun c => { c with record := r })
  (pagesOf r.trapbase Config.trapRegionBytes).all (pageMapped s1 ctx true)

/-- Whether some grid or graph of a context is live. -/
def liveWork (s : State) (ctx : Nat) : Bool := s.grids.any (fun g => g.2.live && g.2.ctx == ctx)

/-- A new DEADLINE: the budget starts again, at once where work is live, else with the next work accepted (15 R342). -/
def newDeadline (s : State) (ctx d : Nat) : State :=
  let live := liveWork s ctx
  modCtx s ctx (fun c => { c with record := { c.record with deadline := d }, dlrem := d, timed := false, expired := false, counting := live && d != 0 })

/-- A record takes the place of a context's. -/
def applyRecord (s : State) (ctx : Nat) (r : CtxRecord) : State :=
  let old := (ctxAt s ctx).record
  let s1 := modCtx s ctx (fun c => { c with record := { r with deadline := old.deadline } })
  if r.deadline = old.deadline then s1 else newDeadline s1 ctx r.deadline

/-- A new PTROOT takes effect with an invalidation of all the context's translations (14 R304, 17 R368). -/
def applyRoot (s : State) (ctx : Nat) (r : Option CtxRecord) : State :=
  match r with
  | none => s
  | some r =>
    if r.ptroot = (ctxAt s ctx).record.ptroot then s
    else beginInvalidation (modCtx s ctx (fun c => { c with record := { c.record with ptroot := r.ptroot } })) ctx 0 (2 ^ 48)

/-- The words of a record that may not change while a context is ACTIVE: 0, 1 and 10 to 17. -/
def fixedWords (r : CtxRecord) : List Nat := [r.ptroot, r.hentry, r.trapbase, r.privbase, r.privlen]

/-- CTX_SETUP: a FREE context becomes ACTIVE with its record. -/
def execCtxSetup (h : CmdHeader) (addr : W64) (ctx : BitVec 6) (s : State) : Out :=
  adminCommand 0x10 h s (fun _ q =>
    if addr.toNat % 64 ≠ 0 then .status s 16
    else if (ctxAt s ctx.toNat).phase ≠ .free then .status s 18
    else
      cmdRead s q addr 128 (fun bs s1 =>
        match parseCtx s1 bs with
        | none => .status s1 6
        | some r =>
          if !trapRegionOk s1 ctx.toNat r then .status s1 6
          else .status { s1 with contexts := tset s1.contexts ctx.toNat { phase := .active, record := r, dlrem := r.deadline } } 0))

/-- CTX_REWRITE: words 2 to 9 of an ACTIVE context, every word of a SUSPENDED one, from its resume on. -/
def execCtxRewrite (h : CmdHeader) (addr : W64) (ctx : BitVec 6) (s : State) : Out :=
  adminCommand 0x11 h s (fun _ q =>
    let c := ctxAt s ctx.toNat
    if addr.toNat % 64 ≠ 0 then .status s 16
    else if c.phase ≠ .active ∧ c.phase ≠ .suspended then .status s 18
    else
      cmdRead s q addr 128 (fun bs s1 =>
        match parseCtx s1 bs with
        | none => .status s1 6
        | some r =>
          if c.phase = .active then
            if fixedWords r ≠ fixedWords c.record then .status s1 6 else .status (applyRecord s1 ctx.toNat r) 0
          else if r.trapbase ≠ c.record.trapbase ∧ !trapRegionOk s1 ctx.toNat r then .status s1 6
          else .status (modCtx s1 ctx.toNat (fun c => { c with nextRecord := some r })) 0))

/-- CTX_SUSPEND: every team of an ACTIVE context is pre-empted whole; the command completes when none stands on a core. -/
def execCtxSuspend (h : CmdHeader) (ctx : BitVec 6) (s : State) : Out :=
  let n := ctx.toNat
  adminCommand 0x12 h s (fun cmd _ =>
    let c := ctxAt s n
    if c.phase ≠ .active ∨ c.suspendBy.isSome then .status s 18
    else if s.teams.all (fun t => t.2.ctx != n || t.2.phase == .saved) then .status (modCtx s n (fun c => { c with phase := .suspended })) 0
    else
      let s1 := modCtx s n (fun c => { c with suspendBy := some (cmd.queue, cmd.index, h) })
      .accepted ((tkeys s1.teams).foldl (fun s t =>
        if (teamAt s t).ctx = n ∧ (teamAt s t).phase = .running ∧ preemptable s t then beginPreempt s t 0 else s) s1))

/-- CTX_RESUME: a SUSPENDED context is ACTIVE again with the record last given, once the invalidation of its old translations has
completed. -/
def execCtxResume (h : CmdHeader) (ctx : BitVec 6) (s : State) : Out :=
  adminCommand 0x13 h s (fun _ _ =>
    let c := ctxAt s ctx.toNat
    if c.phase ≠ .suspended then .status s 18
    else
      let s0 := endInvalidations (applyRoot s ctx.toNat c.nextRecord)
      if ctxInvalidating s0 ctx.toNat then .hold s0 (.invalidation ctx.toNat)
      else
        let s1 := modCtx s0 ctx.toNat (fun c => { c with phase := .active, nextRecord := none })
        .status (match c.nextRecord with
          | some r => applyRecord s1 ctx.toNat r
          | none => s1) 0)

/-- Copies of a context's commands that have not started end CANCELLED. -/
def dropCommandCopies (s : State) (ctx core : Nat) : State :=
  let mine (j : CopyJob) : Bool := j.ctx == ctx && !j.started && (match j.owner with
    | .command _ _ _ => true
    | _ => false)
  let js := (coreAt s core).copies.filter mine
  js.foldl (fun s j => cancelJob s j.id j.owner) (modCore s core (fun c => { c with copies := c.copies.filter (fun j => !mine j) }))

/-- The layers of a context that are loading or wait to be loaded become FAILED (14 R313). -/
def failLoads (s : State) (ctx : Nat) : State :=
  ((allLayers s).filter (fun e => keyCtx e.1 == ctx && (e.2.phase == .loading || e.2.waiting))).foldl (fun s e => layerFails s e.1) s

/-- CTX_TEARDOWN: the context enters STOPPED and is FREE once its work has gone; its queues' WAITs complete CANCELLED. -/
def execCtxTeardown (h : CmdHeader) (ctx : BitVec 6) (s : State) : Out :=
  let n := ctx.toNat
  adminCommand 0x14 h s (fun cmd _ =>
    let c := ctxAt s n
    if c.phase = .free ∨ c.teardownBy.isSome then .status s 18
    else
      let s1 := failLoads (cancelQueueWaits (stopContext s n) n) n
      let s2 := (tkeys s1.cores).foldl (fun s c => dropCommandCopies s n c) s1
      .accepted (modCtx s2 n (fun c => { c with teardownBy := some (cmd.queue, cmd.index, h) })))

/-! ## Code objects (13 R293-R297, R302) -/

/-- A section of an object: offset and length. -/
abbrev Section := Nat × Nat

/-- A code-object header's sections, NATIVE, and ORIGIN1. -/
structure ObjHead where
  native : Bool
  origin1 : Bool
  descs : Section
  code : Section
  data : Section
  module : Section
deriving DecidableEq, Repr

/-- Whether two sections overlap. -/
def sectionsMeet (a b : Section) : Bool := decide (a.1 < b.1 + b.2) && decide (b.1 < a.1 + a.2)

/-- Whether no two sections of a list overlap. -/
def disjointSections : List Section → Bool
  | [] => true
  | a :: r => r.all (fun b => !sectionsMeet a b) && disjointSections r

/-- A header's checks: MAGIC, VERSION, reserved bits, ranges, and sections that are aligned, within reach and apart; without NATIVE the
module alone is present. A section is within reach when it ends within the global range, and one of length zero is not looked at (log 47). -/
def parseHead (addr : Nat) (bs : List Byte) : Option ObjHead :=
  let x := recBits bs
  let f (lo : Nat) : Nat := bitsAt x (lo + 31) lo
  let o : ObjHead := { native := bitsAt x 64 64 == 1, origin1 := bitsAt x 65 65 == 1, descs := (f 128, 128 * f 96), code := (f 160, f 192), data := (f 224, f 256), module := (f 288, f 320) }
  let secs := ((if o.native then [o.descs, o.code, o.data] else []) ++ [o.module]).filter (fun c => c.2 != 0)
  if f 0 = 0x4F435843 ∧ bitsAt x 47 32 = 1 ∧ zeroAt x 63 48 ∧ zeroAt x 95 66 ∧ zeroAt x 511 352 ∧ 1 ≤ f 96 ∧ f 96 ≤ 4096 ∧ f 192 % 4 = 0 ∧
      (o.native ∨ f 320 ≠ 0) ∧ secs.all (fun c => c.1 % 64 == 0 && decide (addr + c.1 + c.2 ≤ Config.globalLimit)) ∧ addr % 64 = 0 ∧
      disjointSections ((0, 64) :: secs) then some o
  else none

/-- A role of a descriptor. -/
def roleAt (x r : Nat) : RoleDesc :=
  let w := bitsAt x (32 * (11 + 2 * r) + 31) (32 * (11 + 2 * r))
  { entry := bitsAt x (32 * (10 + 2 * r) + 31) (32 * (10 + 2 * r)), regBlocks := w % 256, groups := w / 256 % 256 }

/-- A kernel descriptor, none where a field is out of range (13 R295, 02 R56). -/
def parseDesc (addr codeBase dataBase dataLen : Nat) (bs : List Byte) : Option KernelDesc :=
  let x := recBits bs
  let w (i : Nat) : Nat := bitsAt x (32 * i + 31) (32 * i)
  let nroles := bitsAt x (32 * 9 + 23) (32 * 9 + 16)
  let bit (i : Nat) : Bool := bitsAt x (96 + i) (96 + i) == 1
  let roles := (List.range nroles).map (roleAt x)
  let k : KernelDesc :=
    { addr := addr, entry := w 0, regBlocks := w 1 % 256, barriers := w 1 / 256 % 256, acc := w 1 / 65536 % 256, cls := w 1 / 16777216,
      scratch := w 2, spill := w 3 % 65536 * 16, width := w 3 / 65536 % 256, unified := bit 24,
      conductor := if bit 25 then some (w 5) else none, cancel := if bit 26 then some (w 6) else none, waitBudget := w 4, l1Floor := w 7,
      energy := w 8, peak := w 9 % 65536, roles := roles, codeBase := codeBase, dataBase := dataBase, dataLen := dataLen }
  let rolesOk : Bool := roles.all (fun r => decide (1 ≤ r.regBlocks) && decide (r.regBlocks ≤ 32) && decide (1 ≤ r.groups) && decide (r.groups ≤ 32)) &&
    (List.range nroles).all (fun r => zeroAt x (32 * (11 + 2 * r) + 31) (32 * (11 + 2 * r) + 16)) &&
    (List.range 8).all (fun i => decide (i < 2 * nroles) || w (10 + i) == 0) && decide (roles.foldl (fun n r => n + r.groups) 0 ≤ 32)
  let floorOk : Bool := if k.unified then decide (32 ≤ k.l1Floor) && decide (k.l1Floor ≤ 1152) && k.l1Floor % 32 == 0 else k.l1Floor == 0
  if nroles ≤ 4 ∧ 1 ≤ k.regBlocks ∧ k.regBlocks ≤ 32 ∧ k.barriers ≤ 16 ∧ k.acc ≤ 8 ∧ k.cls ≤ 2 ∧ k.scratch ≤ 1048576 ∧ k.scratch % 64 = 0 ∧
      w 3 % 65536 ≤ 4096 ∧ zeroAt x 127 123 ∧ (bit 25 ∨ w 5 = 0) ∧ (bit 26 ∨ w 6 = 0) ∧ floorOk ∧ k.peak ≤ 4096 ∧
      zeroAt x (32 * 9 + 31) (32 * 9 + 24) ∧ rolesOk ∧ zeroAt x 1023 704 then some k
  else none

/-- The clause walk: the offsets of the headers of consecutive clauses that fill the section, or none (13 R297). -/
def clauseWalk : Nat → Nat → List W32 → Option (List Nat)
  | 0, _, ws => if ws = [] then some [] else none
  | n + 1, off, ws =>
    match ws with
    | [] => some []
    | h :: r =>
      let x := h.toNat
      let len := bitsAt x 5 1 + 1
      let bad (f : Nat) : Bool := decide (12 ≤ f) && decide (f ≤ 14)
      match r[len]? with
      | none => none
      | some t =>
        if majorNat h ≠ 0x3F ∨ 24 < len ∨ bad (bitsAt x 13 10) ∨ bad (bitsAt x 9 6) ∨ majorNat t ≠ 0x3D ∨ bitsAt t.toNat 1 0 = 3 ∨
            (r.take len).any isStructure then none
        else (clauseWalk n (off + 4 * (len + 2)) (r.drop (len + 1))).map (off :: ·)

/-- The clause walk of a code section: an empty one does not end after a trailer (13 R297). -/
def codeWalk (ws : List W32) : Option (List Nat) := if ws = [] then none else clauseWalk (ws.length + 1) 0 ws

/-- The 32-bit words of bytes. -/
def wordsOf (bs : List Byte) : List W32 := (List.range (bs.length / 4)).map (fun i => bytesToW32 ((bs.drop (4 * i)).take 4))

/-- The entries a descriptor names. -/
def entriesOf (k : KernelDesc) : List Nat := [k.entry] ++ k.conductor.toList ++ k.cancel.toList ++ k.roles.map (·.entry)

/-- Whether a descriptor's width may stand (13 R302). -/
def widthOk (k : KernelDesc) : Bool := hasNat [0, 4, 8, 16, 32, 64] k.width && (k.width != 64 || k.roles.all (fun r => r.groups % 2 == 0))

/-- What registration of an object comes to: its code, a page to wait for, or the bytes and kernels to register. -/
inductive RegEnd where
  | code (s : State) (n : Nat)
  | fault (va level : Nat) (h : Bool)
  | ok (s : State) (head : ObjHead) (parts : List (Nat × List Byte)) (kernels : List KernelDesc)

/-- Bytes of an object read, or why they are not: from the registering context's memory. -/
abbrev ObjReader := State → Section → (State → List Byte → RegEnd) → RegEnd

/-- The reader of an object in memory (15 R410, 13 R296). -/
def memReader (qctx addr : Nat) : ObjReader := fun s sec k =>
  match feRead s qctx (addr + sec.1) sec.2 with
  | .ok bs s1 => k s1 bs
  | .fault va lv h => .fault va lv h
  | .bad _ => .code s 8

/-- The reader of an object the loader has translated. -/
def bytesReader (bs : List Byte) : ObjReader := fun s sec k => k s ((bs.drop sec.1).take sec.2)

/-- A descriptor with CODEBASE and DATABASE written in. -/
def basedDesc (codeBase dataBase : Nat) (d : List Byte) : List Byte := d.take 72 ++ natToBytes 8 codeBase ++ natToBytes 8 dataBase ++ d.drop 88

/-- The checks of native sections in the order of the table "Registration status". -/
def checkNative (addr : Nat) (o : ObjHead) (headBytes : List Byte) (rd : ObjReader) (s : State) : RegEnd :=
  let cb := addr + o.code.1
  let db := addr + o.data.1
  rd s o.descs (fun s1 ds =>
    let descs := (List.range (o.descs.2 / 128)).map (fun i => (ds.drop (128 * i)).take 128)
    match ((List.range descs.length).zip descs).mapM (fun e => parseDesc (addr + o.descs.1 + 128 * e.1) cb db o.data.2 e.2) with
    | none => .code s1 3
    | some ks =>
      rd s1 o.code (fun s2 cs =>
        match codeWalk (wordsOf cs) with
        | none => .code s2 4
        | some heads =>
          if !ks.all (fun k => (entriesOf k).all (hasNat heads)) then .code s2 5
          else if !ks.all widthOk then .code s2 6
          else
            rd s2 o.data (fun s3 dd =>
              .ok s3 o ([(addr, headBytes), (addr + o.descs.1, (descs.map (basedDesc cb db)).flatten), (cb, cs), (db, dd)].filter (fun p => p.2 != [])) ks)))

/-- Registration of an object up to its placing: the header, then its native sections, or the translation of its module. -/
def register (s : State) (qctx addr : Nat) : RegEnd :=
  memReader qctx addr s (0, 64) (fun s1 hb =>
    match parseHead addr hb with
    | none => .code s1 1
    | some o =>
      if o.native then checkNative addr o hb (memReader qctx addr) s1
      else
        memReader qctx addr s1 o.module (fun s2 mb =>
          match Config.smisalTranslate o.origin1 mb with
          | none => .code s2 2
          | some bs =>
            match parseHead addr (bs.take 64) with
            | none => .code s2 2
            | some n => if n.native then checkNative addr n (bs.take 64) (bytesReader bs) s2 else .code s2 2))

/-- Pages mapped for an object in a context, all or none: code pages executable, code and data pages read-only, others kept where
they are mapped. -/
def mapPages (ctx : Nat) (codePages dataPages : List Nat) : List Nat → State → Option State
  | [], s => some s
  | p :: r, s =>
    let code := hasNat codePages p
    if !code && !hasNat dataPages p && pageMapped s ctx false p then mapPages ctx codePages dataPages r s
    else
      match mapPage s ctx (p * pageBytes) false code with
      | none => none
      | some (_, s1) => mapPages ctx codePages dataPages r s1

/-- Bytes written to the frames of a context's mapped pages. -/
def fillPages (s : State) (ctx va : Nat) (bs : List Byte) : State :=
  engineWrite s (((List.range bs.length).zip bs).filterMap (fun e =>
    match walkFrom s (va + e.1) (ctxAt s ctx).record.ptroot 3 with
    | .leaf l base _ => some (l.pa + (va + e.1 - base), e.2)
    | _ => none))

/-- Whether a checked object overlaps one that is registered in its context, which never changes (13 R298). -/
def overlapsObject (s : State) (ctx : Nat) (parts : List (Nat × List Byte)) : Bool :=
  (ctxAt s ctx).objects.any (fun x => x.parts.any (fun a => parts.any (fun b => sectionsMeet a (b.1, b.2.length))))

/-- The pages of a checked object mapped in its context, none when there is no room; a page that it shares with a registered object keeps
the rights that one's sections need (13 R294, R298). -/
def mapObject (s : State) (ctx addr : Nat) (o : ObjHead) (parts : List (Nat × List Byte)) : Option State :=
  let os := (ctxAt s ctx).objects
  let cp := pagesOf (addr + o.code.1) o.code.2 ++ os.flatMap (fun x => pagesOf x.codeBase x.codeLen)
  let dp := pagesOf (addr + o.data.1) o.data.2 ++ os.flatMap (fun x => pagesOf x.dataBase x.dataLen)
  if overlapsObject s ctx parts then none
  else mapPages ctx cp dp (dedupNat (parts.flatMap (fun p => pagesOf p.1 p.2.length))) s

/-- A checked object placed in the pages mapped for it. -/
def placeObject (s : State) (ctx addr : Nat) (o : ObjHead) (parts : List (Nat × List Byte)) (ks : List KernelDesc) : State :=
  modCtx (parts.foldl (fun s p => fillPages s ctx p.1 p.2) s) ctx (fun c =>
    { c with objects := c.objects ++ [{ addr := addr, codeBase := addr + o.code.1, codeLen := o.code.2, dataBase := addr + o.data.1,
                                        dataLen := o.data.2, kernels := ks, parts := parts.map (fun p => (p.1, p.2.length)) }] })

/-- Whether some page of a checked object lies in the peer aperture, where firmware may not write it (19 R400). -/
def partsInPeer (s : State) (ctx : Nat) (parts : List (Nat × List Byte)) : Bool :=
  parts.any (fun p => (pagesOf p.1 p.2.length).any (fun g =>
    match rootWalk s ctx (g * pageBytes) with
    | .leaf l base _ => inPeer (l.pa + (g * pageBytes - base))
    | _ => false))

/-- CODE_REG: the checks of the table "Registration status", then the object's sections placed in the context, once the invalidations of
the pages whose rights change have completed. -/
def execCodeReg (h : CmdHeader) (addr : W64) (ctx : BitVec 6) (s : State) : Out :=
  adminCommand 0x15 h s (fun _ q =>
    if (ctxAt s ctx.toNat).phase ≠ .active then .status s 18
    else
      match register s q.ctx addr.toNat with
      | .fault va lv hh => .fault .read va lv hh
      | .code s1 n => .done s1 6 0 n
      | .ok s1 o parts ks =>
        match mapObject s1 ctx.toNat addr.toNat o parts with
        | none => .done s 6 0 7
        | some s2 =>
          if partsInPeer s2 ctx.toNat parts then .done s 6 0 8 else
          let s3 := endInvalidations s2
          if ctxInvalidating s3 ctx.toNat then .hold s3 (.invalidation ctx.toNat) else .status (placeObject s3 ctx.toNat addr.toNat o parts ks) 0)

/-- CODE_UNREG: the object answers no further launch, and leaves when no grid names it. -/
def execCodeUnreg (h : CmdHeader) (addr : W64) (ctx : BitVec 6) (s : State) : Out :=
  let n := ctx.toNat
  match adminCommand 0x16 h s (fun cmd _ =>
    if (ctxAt s n).phase ≠ .active then .status s 18
    else if !(ctxAt s n).objects.any (fun o => o.addr == addr.toNat && o.unregBy.isNone) then .status s 6
    else
      .accepted (modCtx s n (fun c =>
        { c with objects := c.objects.map (fun o => if o.addr = addr.toNat then { o with unregBy := some (cmd.queue, cmd.index, h) } else o) }))) with
  | .next s1 => .next (checkUnreg s1 n)
  | o => o

end Sys2Proof.Machine
end

