-- ==== Sys2Proof/Machine/Mailbox.lean ====
section
/-! DEFINITION. The mailbox's messages (15 R321, 19 R396-R399, R402-R405), RoCEv2 accesses (05 R120, 19 R399) and the host's
acknowledgement of events (19 R397). Addresses that a message names are physical: a message belongs to no context. -/

set_option linter.unusedVariables false

namespace Sys2Proof.Machine

/-- Whether a range lies in the device's memory. -/
def inMemory (s : State) (a n : Nat) : Bool := decide (a + n ≤ s.memBytes)

/-- Whether a range holds an uncorrectable line. -/
def badRange (s : State) (a n : Nat) : Bool := s.badLines.any (fun l => decide (lineOf a ≤ l) && decide (l ≤ lineOf (a + n - 1)))

/-! ## QUEUE_SET (15 R321) -/

/-- A queue descriptor, none where a reserved bit is set or a field is out of range. -/
def parseQueue (bs : List Byte) : Option Queue :=
  let x := recBits bs
  let f (lo : Nat) : Nat := bitsAt x (lo + 63) lo
  let q : Queue :=
    { en := bitsAt x 287 287 == 1, admin := bitsAt x 286 286 == 1, ctx := bitsAt x 285 280, logn := bitsAt x 276 272, age := bitsAt x 271 256,
      cring := f 192, ridx := f 128, widx := f 64, ring := f 0 }
  if zeroAt x 511 288 ∧ zeroAt x 279 277 ∧ 4 ≤ q.logn ∧ q.logn ≤ 16 ∧ q.cring % 64 = 0 ∧ q.ring % 64 = 0 ∧ q.ridx % 4 = 0 ∧ q.widx % 4 = 0 ∧
      q.cring + 32 * 2 ^ q.logn ≤ Config.globalLimit ∧ q.ring + 64 * 2 ^ q.logn ≤ Config.globalLimit ∧
      q.ridx + 4 ≤ Config.globalLimit ∧ q.widx + 4 ≤ Config.globalLimit then some q
  else none

/-- What a queue's descriptor written to memory does: the queue starts at index 0, its completion count at 0 (15 R329); commands
taken before run on, but for a WAIT, which is dropped (log 40). -/
def setQueue (s : State) (n : Nat) (q : Queue) : State :=
  let old := queueAt s n
  let kept := old.outstanding.filter (fun c => !old.waiting.any (fun w => w.index == c.index))
  armQueue { s with queues := tset s.queues n { q with outstanding := kept } } n

/-- QUEUE_SET: firmware core 0 configures a queue. -/
def execQueueSet (queue : Byte) (addr : W64) (s : State) : Out :=
  let a := addr.toNat
  .next (mailServed s (.queueSet queue addr)
    (if !inMemory s a 64 then (s, 1)
     else if badRange s a 64 then (s, 2)
     else
       match parseQueue (memReadN s.mem a 64) with
       | none => (s, 2)
       | some q => (setQueue s queue.toNat q, 0)))

/-! ## DEADLINE_AT (19 R402) -/

/-- A deadline in cycles: the time left, in nanoseconds, at a clock in MHz, rounded up; a time that has come gives 1. -/
def deadlineCycles (td tn mhz : Nat) : Nat := if td ≤ tn then 1 else ceilDiv ((td - tn) * mhz) 1000

/-- The cluster whose clock a context's deadline counts: its root team's, or cluster 0 before a root has started (19 R402). -/
def deadlineCluster (s : State) (n : Nat) : Nat :=
  let c := ctxAt s n
  if c.counting || c.expired || liveWork s n then c.rootCluster else 0

/-- DEADLINE_AT: an absolute time becomes a DEADLINE, applied as a rewrite; it waits out an operating-point change in progress. -/
def execDeadlineAt (ctx : BitVec 6) (seconds : BitVec 48) (nanoseconds : W32) (s : State) : Out :=
  let n := ctx.toNat
  let c := ctxAt s n
  let p := pairAt s (pairOf (deadlineCluster s n))
  let d := deadlineCycles (seconds.toNat * 1000000000 + nanoseconds.toNat) s.portTime p.mhz
  if p.pending.isSome then .next s
  else
    .next (mailServed s (.deadlineAt ctx seconds nanoseconds)
      (if 0xFFFFFFFF < d then (s, 2)
       else if c.phase = .active then (modCtx (newDeadline s n d) n (fun c => { c with timed := true }), 0)
       else if c.phase = .suspended then
         (modCtx s n (fun c => { c with nextRecord := some { c.nextRecord.getD c.record with deadline := d } }), 0)
       else (s, 2)))

/-! ## HEALTH and ATTEST (19 R404, R405) -/

/-- The health report as a number of 512 bits. -/
def healthBits (h : Health) : Nat :=
  h.coreSpares % 2 ^ 8 + h.rowSpares % 2 ^ 24 * 2 ^ 8 + h.ringSpares % 2 ^ 8 * 2 ^ 32 + h.dramSpares % 2 ^ 12 * 2 ^ 40 + h.replace.toNat * 2 ^ 52 +
  h.cores % 2 ^ 8 * 2 ^ 64 + (dedupNat h.retired).foldl (fun n c => n + (if c < Config.cores then 2 ^ (128 + c) else 0)) 0

/-- The 64 bytes of the health report. -/
def healthBytes (h : Health) : List Byte := natToBytes 64 (healthBits h)

/-- HEALTH: the report is written at the address named. -/
def execHealth (addr : W64) (s : State) : Out :=
  .next (mailReply s (.health addr)
    (if !inMemory s addr.toNat 64 then (s, 1) else (engineWrite s (writesOf addr.toNat (healthBytes s.health)), 0)))

/-- Bytes of an attestation report before its signature. -/
def attestBody (s : State) (nonce : BitVec 256) : List Byte :=
  natToBytes 32 nonce.toNat ++
  (List.range 9).flatMap (fun i => (List.range 32).map (Config.measurement (tget {} s.images i).bytes)) ++
  (List.range 9).flatMap (fun i => natToBytes 4 (tget {} s.images i).rollback.toNat) ++
  natToBytes 4 s.attestIndex ++ List.replicate 24 0 ++ healthBytes s.health ++ (List.range 32).map Config.identityKeyHash ++ List.replicate 32 0

/-- An attestation report: the body, the signature that begins with its 4-byte index, and zeros. -/
def attestReport (s : State) (nonce : BitVec 256) : List Byte :=
  let body := attestBody s nonce
  body ++ (natToBytes 4 s.attestIndex).reverse ++
  (List.range (Config.signatureBytes - 4)).map (Config.signature s.attestIndex body) ++ List.replicate 60 0

/-- ATTEST: a report signed with the next one-time index, which no other report takes. -/
def execAttest (nonce : BitVec 256) (addr : W64) (s : State) : Out :=
  .next (mailReply s (.attest nonce addr)
    (if !inMemory s addr.toNat 3392 then (s, 1)
     else if Config.signatureIndices ≤ s.attestIndex then (s, 3)
     else (engineWrite { s with attestIndex := s.attestIndex + 1 } (writesOf addr.toNat (attestReport s nonce)), 0)))

/-! ## FW_STAGE (19 R403) -/

/-- FW_STAGE: an image is kept for its slot's verification at the next reset. -/
def execFwStage (slot : BitVec 4) (addr : W64) (len : W32) (s : State) : Out :=
  .next (mailReply s (.fwStage slot addr len)
    (if !inMemory s addr.toNat len.toNat then (s, 1)
     else if badRange s addr.toNat len.toNat then (s, 2)
     else
       let i := tget {} s.images slot.toNat
       ({ s with images := tset s.images slot.toNat { i with staged := some (memReadN s.mem addr.toNat len.toNat) } }, 0)))

/-! ## WINDOW_SET (19 R399) -/

/-- Whether every page of a range is present, and writable where that is asked. -/
def rangeMapped (s : State) (ctx base len : Nat) (w : Bool) : Bool := (pagesOf base len).all (pageMapped s ctx w)

/-- The physical addresses of some virtual ones of a context, none where one may not be accessed so. -/
def linkPlaces (s : State) (ctx : Nat) (kind : AccKind) : List Nat → Option (List Nat × State)
  | [] => some ([], s)
  | va :: r =>
    match fePlace s ctx va kind with
    | .ok pa s1 => (linkPlaces s1 ctx kind r).map (fun x => (pa :: x.1, x.2))
    | _ => none

/-- WINDOW_SET: a window is opened over a range of a context, whose frames are pinned from then on, or closed. -/
def execWindowSet (window ctx : BitVec 6) (rights : WindowRights) (rkey : W32) (base : BitVec 48) (len : W32) (s : State) : Out :=
  let bytes := len.toNat * 65536
  .next (mailServed s (.windowSet window ctx rights rkey base len)
    (if !rights.read && !rights.write then ({ s with windows := terase s.windows window.toNat }, 0)
     else if (ctxAt s ctx.toNat).phase = .free ∨ Config.globalLimit < base.toNat + bytes then (s, 2)
     else if !rangeMapped s ctx.toNat base.toNat bytes rights.write then (s, 2)
     else
       match linkPlaces s ctx.toNat (if rights.write then .write else .read) ((pagesOf base.toNat bytes).map (· * pageBytes)) with
       | none => (s, 2)
       | some (frames, s1) =>
         let w : Window := { rkey := rkey, ctx := ctx.toNat, rights := rights, base := base.toNat, len := bytes, frames := frames }
         ({ s1 with windows := tset s1.windows window.toNat w }, 0)))

/-! ## EVENT_RING and EVACK (19 R397) -/

/-- The queue pair an EVENT_RING message names: one of the port that carried the message (19 R396). -/
def messageQp (s : State) (qp : BitVec 16) : Nat := 65536 * s.mailbox.servicePort + qp.toNat

/-- The ring placed where the message says. -/
def placeRing (qp : Nat) (rkey : W32) (addr : W64) (loge : BitVec 4) (m : Mailbox) : Mailbox :=
  { m with
    ringPlaced := true
    ringDown := false
    ringQp := qp
    ringRkey := rkey
    ringAddr := addr.toNat
    loge := loge.toNat + 6
    deviceSeq := if m.ringPlaced then m.deviceSeq else 0 }

/-- The REPLY to EVENT_RING: event 1 after the boot report for the first ring, else the first event of the new ring. -/
def ringReply (s : State) (tag : BitVec 16) (m : Mailbox) : Mailbox :=
  let n := if !s.mailbox.ringPlaced ∧ s.boot = .booted then 1 else 0
  { m with
    inService := none
    nextSeq := m.nextSeq + 1
    queue := m.queue.take n ++ [⟨0x81, 0, tag, []⟩] ++ m.queue.drop n }

/-- The queue pairs after one is used: it counts as connected from then on; none where its port has 128 others (19 R398, log 41). -/
def joinQp (s : State) (qp : Nat) : Option State :=
  if hasNat s.qps qp then some s
  else if (s.qps.filter (fun q => portOf q == portOf qp)).length < Config.queuePairs then some { s with qps := s.qps ++ [qp] }
  else none

/-- EVENT_RING: the host event ring is placed or moved; the queue pair must be connected and not in its error state. -/
def execEventRing (qp : BitVec 16) (rkey : W32) (addr : W64) (loge : BitVec 4) (s : State) : Out :=
  let i := Instr.eventRing qp rkey addr loge
  match (if hasNat s.qpErrors (messageQp s qp) then none else joinQp s (messageQp s qp)) with
  | none => .next (mailReply s i (s, 2))
  | some s0 =>
    let s1 := modMail s0 (placeRing (messageQp s qp) rkey addr loge)
    match s.mailbox.inService with
    | some bs =>
      if isMessage s i then
        .next (serveMail (modMail s1 (fun m =>
          { ringReply s (tagOf bs) m with
            pending := if hasNat m.busy (seqOf bs % 64) then m.pending else m.pending.filter (· != seqOf bs % 64) })))
      else .next (serveMail s1)
    | none => .next (serveMail s1)

/-- EVACK_WRITE: the host acknowledges events, and those that waited for room are written. -/
def execEvackWrite (value : W32) (s : State) : Out := .next (serveMail (modMail s (fun m => { m with evack := value })))

/-! ## Messages without a meaning (19 R396) -/

/-- BAD_MESSAGE: an unknown TYPE, a nonzero unused bit or a field out of range; a TYPE of 0x80 or above is REFUSED. -/
def execBadMessage (s : State) : Out :=
  match s.mailbox.inService with
  | none => .next s
  | some bs => .next (mailServed s .badMessage (s, if 0x80 ≤ typeOf bs then 2 else 1))

/-! ## RoCEv2 accesses (05 R120, 19 R399) -/

/-- The window an RKEY names. -/
def windowOf (s : State) (rkey : W32) : Option Window := (s.windows.find? (fun w => w.2.rkey == rkey)).map (·.2)

/-- The RKEY of window 0, the mailbox window; no rule gives it (log 24). -/
def mailboxRkey : W32 := 0

/-- Bytes of the mailbox window: 64 slots, then EVACK. -/
def mailboxBytes : Nat := 0x1004

/-- An access that is answered with a NAK: it performs nothing, and its queue pair enters the error state, with the ring that it carries. -/
def linkError (s : State) (qp : Nat) : State :=
  let s1 := { s with qpErrors := dedupNat (s.qpErrors ++ [qp]) }
  if s.mailbox.ringQp = qp then modMail s1 (fun m => { m with ringDown := m.ringPlaced }) else s1

/-- The place of an address of a window: in the frame that was pinned for its page. -/
def windowPlace (w : Window) (va : Nat) : Nat := w.frames.getD (va / pageBytes - w.base / pageBytes) 0 + va % pageBytes

/-- The places of an access through a window: within its range, with its rights, and for a write in no layer of its context (04 R96). -/
def windowPlaces (s : State) (rkey : W32) (addr n : Nat) (kind : AccKind) : Option (List Nat) :=
  match windowOf s rkey with
  | none => none
  | some w =>
    let vas := (List.range n).map (addr + ·)
    if w.base ≤ addr ∧ addr + n ≤ w.base + w.len ∧ (if kind.writes then w.rights.write && !vas.any (inLayer s w.ctx) else w.rights.read) = true then
      some (vas.map (windowPlace w))
    else none

/-- A write of a queue pair that must wait: a line of it is owned, or an earlier write of the pair waits (05 R115, R120). -/
def linkWaits (s : State) (qp : Nat) (as : List Nat) : Bool :=
  s.linkHeld.any (fun h => h.1 == qp) || as.any (fun a => ownedLine s (.phys (lineOf a)))

/-- RDMA_WRITE: checked against its window and published at its home slice before it is acknowledged; a line that an engine
operation owns is written after that operation's write, and later writes of the queue pair after it (05 R115, R120). In recovery only
the mailbox window answers. -/
def execRdmaWrite (qp : Nat) (rkey : W32) (addr : Nat) (bytes : List Byte) (s : State) : Out :=
  match (if s.boot = .inReset ∨ hasNat s.qpErrors qp then none else joinQp s qp) with
  | none => .next s
  | some s =>
  if rkey = mailboxRkey then
    if mailboxBytes < addr + bytes.length then .next (linkError s qp)
    else if linkWaits s qp [] then .next { s with linkHeld := s.linkHeld ++ [(qp, writesOf (mailboxPlace + addr) bytes)] }
    else .next (serveMail (modMail s (fun m => mailboxWrite (portOf qp) m addr bytes)))
  else if s.boot = .recovery then .next s
  else
    match windowPlaces s rkey addr bytes.length .write with
    | none => .next (linkError s qp)
    | some as =>
      if linkWaits s qp as then .next { s with linkHeld := s.linkHeld ++ [(qp, as.zip bytes)] } else .next (homeWrite s (as.zip bytes))

/-- RDMA_READ: home values of a window go to the host. -/
def execRdmaRead (qp : Nat) (rkey : W32) (addr len : Nat) (s : State) : Out :=
  let answer (s : State) (bs : List Byte) : State := { s with linkReads := s.linkReads ++ [(qp, bs)] }
  match (if s.boot = .inReset ∨ hasNat s.qpErrors qp then none else joinQp s qp) with
  | none => .next s
  | some s =>
  if rkey = mailboxRkey then
    if addr + len ≤ mailboxBytes then .next (answer s ((List.range len).map (fun i => mailboxRead s.mailbox (addr + i)))) else .next (linkError s qp)
  else if s.boot = .recovery then .next s
  else
    match windowPlaces s rkey addr len .read with
    | none => .next (linkError s qp)
    | some as =>
      if as.any (fun a => hasNat s.badLines (lineOf a)) then .next (linkError s qp) else .next (answer s (as.map (memRead s.mem)))

end Sys2Proof.Machine
end

