-- ==== Sys2Proof/Machine/Bringup.lean ====
section
/-! DEFINITION. Boot (19 R403), spares and degraded operation (19 R406, R407). -/

set_option linter.unusedVariables false

namespace Sys2Proof.Machine

/-! ## Boot -/

/-- An image slot's image at a reset: one that was staged takes the place of the old. -/
def bootImage (i : Image) : Image :=
  match i.staged with
  | some b => { i with bytes := b, staged := none }
  | none => i

/-- Whether slot i's image passes boot: it verifies, slot 8's with the machine builder's key and the others with the root key, and an image
of cores 0 to 6 carries a version its counter allows. -/
def imagePasses (s : State) (i : Nat) : Bool :=
  let m := tget {} s.images i
  Config.imageVerifies (i == 8) m.bytes && (decide (7 ≤ i) || decide (m.rollback.toNat ≤ (Config.imageVersion m.bytes).toNat))

/-- The image slots in the order of their verification: core 7's, those of cores 0 to 6, the supervisor's. -/
def bootOrder : List Nat := [7, 0, 1, 2, 3, 4, 5, 6, 8]

/-- A HEALTH_CHANGE event. -/
def healthChange (s : State) : HostEvent := ⟨0x85, 0, 0, (healthBytes s.health).take 40⟩

/-- A change of the health counts. -/
def modHealth (s : State) (f : Health → Health) : State := { s with health := f s.health }

/-- Whether a frame's row backs no other frame: one whose row another frame has taken is no longer part of the device (19 R407). -/
def frameUsable (s : State) (f : Nat) : Bool := !s.backing.any (fun e => e.1 != f && e.2 == backingOf s f)

/-- The device reset again: the image slots with what was staged for them, the one-time index, the health log and the DRAM rows in use
outlast it, moves of rows under way count as made, and everything else is as after any reset (19 R403, R404, R406, log 42). -/
def deviceReset (s : State) : State :=
  let s1 := { s with backing := s.migrations.foldl (fun b m => tset b m.frame m.newRow) s.backing }
  { State.reset with
    agenda := s.agenda
    idleTurn := s.idleTurn
    nextUid := s.nextUid
    freeCtr := s.freeCtr
    images := s.images
    attestIndex := s.attestIndex
    health := s.health
    backing := s1.backing
    memBytes := s.memBytes
    freshFrame := s.freshFrame
    freeFrames := (List.range s.freshFrame).filter (frameUsable s1) }

/-- The spares and retired cores that the health log names (19 R403 step 5). -/
def applySpares (s : State) : State :=
  let s1 := s.health.standIn.foldl (fun s e => modCore s e.2 (fun k => { k with spare := some e.1 })) s
  s.health.retired.foldl (fun s c => modCore s c (fun k => { k with retired := true })) s1

/-- The gigabytes of the peer aperture bound to their queue pairs (19 R400). -/
def bindPeers : TMap Nat := (List.range ((2 ^ 48 - Config.peerAperture) / 2 ^ 30)).map (fun g => (g, Config.peerPair g))

/-- BOOT: a device that runs is reset first. The images are verified in order; with all of them good the spares are applied, the mailbox
opens and the boot report waits for the ring, else the device is in recovery. -/
def execBoot (s : State) : Out :=
  let s0 := if s.boot = .inReset then s else deviceReset s
  let s1 := { s0 with images := bootOrder.foldl (fun m i => tset m i (bootImage (tget {} m i))) s0.images }
  if bootOrder.all (imagePasses s1) then
    .next (hostEvent { applySpares s1 with boot := .booted, peerBinding := bindPeers } (healthChange s1))
  else .next { s1 with boot := .recovery }

/-! ## Spares -/

/-- A class whose last spare is gone has its REPLACE bit set and is told to the host (19 R407). -/
def classGone (s : State) (bit left : Nat) : State :=
  if left ≠ 0 ∨ s.health.replace.getLsbD bit then s
  else
    let s1 := modHealth s (fun h => { h with replace := h.replace ||| (1#4 <<< bit) })
    hostEvent s1 ⟨0x86, 0, 0, natToBytes 1 s1.health.replace.toNat⟩

/-- The teams of a failing core are pre-empted. -/
def emptyCore (s : State) (core : Nat) : State :=
  (tkeys (s.teams.filter (fun t => standsOn t.2 core))).foldl (fun s t =>
    if (teamAt s t).phase = .running ∧ preemptable s t then beginPreempt s t 0 else s) s

/-- The spare that stands in for cores of a core's clusters. -/
def spareOf (core : Nat) : Nat := clusterOf core / 3

/-- Whether a core can be replaced: its spare stands in for no other, and the core is presented. -/
def spareFree (s : State) (core : Nat) : Bool :=
  decide (core < Config.cores) && !(coreAt s core).retired && !thas s.health.standIn (spareOf core)

/-- A spare takes a failing core's number; what the number holds stays, and no program sees the exchange. -/
def replaceCore (s : State) (core : Nat) : State :=
  let s2 := modHealth (modCore s core (fun k => { k with spare := some (spareOf core) })) (fun h => { h with standIn := tset h.standIn (spareOf core) core, coreSpares := h.coreSpares - 1 })
  classGone s2 0 s2.health.coreSpares

/-- A failing DRAM row's frame moved: onto a spare row, or with none left, which the host is told, onto the backing of a free frame, which
the device then no longer has. -/
def replaceRow (s : State) (frame : Nat) : State :=
  if Config.migrationEntries ≤ s.migrations.length ∨ s.migrations.any (fun m => m.frame == frame) then s
  else if s.health.dramSpares ≠ 0 then
    let s1 := modHealth (startMove s frame (s.memBytes / pageBytes + s.health.dramSpares)) (fun h => { h with dramSpares := h.dramSpares - 1 })
    classGone s1 3 s1.health.dramSpares
  else
    let s0 := classGone s 3 0
    match takeFrame s0 with
    | some (pa, s1) => startMove s1 frame (backingOf s1 (pa / pageBytes))
    | none => s0

/-- SPARE_REPLACEMENT: a failing core, once its teams have been pre-empted, an L2 row, a ring segment or a DRAM row is replaced; a class
with no spare left has its REPLACE bit set. -/
def execSpareReplacement (k : SpareKind) (item : Nat) (s : State) : Out :=
  match k with
  | .core => if s.supervisor.freeze || !spareFree s item then .next s else if coreInUse s item then .next (emptyCore s item) else .next (replaceCore s item)
  | .l2Row =>
    if s.health.rowSpares = 0 then .next (classGone s 1 0)
    else
      let s1 := modHealth s (fun h => { h with rowSpares := h.rowSpares - 1 })
      .next (classGone s1 1 s1.health.rowSpares)
  | .ringSegment =>
    if s.health.ringSpares = 0 then .next (classGone s 2 0)
    else
      let s1 := modHealth s (fun h => { h with ringSpares := h.ringSpares - 1 })
      .next (classGone s1 2 s1.health.ringSpares)
  | .dramRow => .next (replaceRow s item)

/-- The slots that concurrent work has reserved on a core, or on the pair of which it is one, given up: what is not placed yet is gathered, or
placed, elsewhere (19 R407). -/
def releaseSlots (s : State) (core : Nat) : State :=
  { s with grids := tmap (fun _ g => { g with reservedSlots := g.reservedSlots.filter (fun r =>
      !(r.2 == core || (lockstep s g.ctx && r.2 + 1 == core))) }) s.grids }

/-- CORE_RETIREMENT: a failing core without a spare, once its teams have been pre-empted, is retired and fits nothing from then on. -/
def execCoreRetirement (core : Nat) (s : State) : Out :=
  if s.supervisor.freeze || decide (Config.cores ≤ core) || (coreAt s core).retired || spareFree s core then .next s
  else if coreInUse s core then .next (emptyCore s core)
  else
    let s1 := modHealth (modCore (releaseSlots s core) core (fun k => { k with retired := true })) (fun h =>
      { h with retired := h.retired ++ [core], cores := h.cores - 1 })
    .next (classGone s1 0 s1.health.coreSpares)

end Sys2Proof.Machine
end

