-- ==== Sys2Proof/Machine/FloatAlu.lean ====
section
/-! DEFINITION. Floating-point words: majors 0x0C to 0x10 (07 R161-R169, 03 R62-R73). -/

set_option linter.unusedVariables false

namespace Sys2Proof.Machine

/-- A result code with its flags as a register value. -/
def asReg (r : Nat × BitVec 5) : W32 × BitVec 5 := (BitVec.ofNat 32 r.1, r.2)

/-! ## binary32 results -/

/-- fadd (07 R161). -/
def faddR (env : FEnv) (a b : W32) : W32 × BitVec 5 := asReg (addIn f32 env a.toNat b.toNat)
/-- fsub. -/
def fsubR (env : FEnv) (a b : W32) : W32 × BitVec 5 := asReg (subIn f32 env a.toNat b.toNat)
/-- fmul. -/
def fmulR (env : FEnv) (a b : W32) : W32 × BitVec 5 := asReg (mulIn f32 env a.toNat b.toNat)
/-- ffma. -/
def ffmaR (env : FEnv) (a b c : W32) : W32 × BitVec 5 := asReg (fmaIn f32 env a.toNat b.toNat c.toNat)
/-- hadd2 (07 R163). -/
def hadd2R (t : HalfKind) (env : FEnv) (a b : W32) : W32 × BitVec 5 := packed2 (fun x y _ => addIn (halfFmt t) env x y) a b 0
/-- hmul2. -/
def hmul2R (t : HalfKind) (env : FEnv) (a b : W32) : W32 × BitVec 5 := packed2 (fun x y _ => mulIn (halfFmt t) env x y) a b 0
/-- hfma2. -/
def hfma2R (t : HalfKind) (env : FEnv) (a b c : W32) : W32 × BitVec 5 := packed2 (fmaIn (halfFmt t) env) a b c

/-! ## Conversions (07 R166-R168) -/

/-- The exact value of a cvt source: a half, a byte, or the whole register. -/
def cvtSource (src : CvtKind) (fmt : BitVec 5) (sel : BitVec 2) (a : W32) : FVal :=
  let half := a.toNat / 2 ^ (16 * (sel.toNat % 2)) % 65536
  match src with
  | .f32 => ieeeVal f32 a.toNat
  | .f16 => ieeeVal f16 half
  | .bf16 => ieeeVal bf16 half
  | .b8 => elemVal fmt (a.toNat / 2 ^ (8 * sel.toNat) % 256)
  | .i32 => ofSigned a.toInt 0 false
  | .n32 => .fin false a.toNat 0

/-- The integer a cvt source holds, when it is an integer kind (03 R62). -/
def cvtInt (src : CvtKind) (a : W32) : Option Int :=
  match src with
  | .i32 => some a.toInt
  | .n32 => some a.toNat
  | _ => none

/-- ToInt with the clamp of an integer source (07 R167). -/
def toIntR (src : CvtKind) (a : W32) (v : FVal) (lo hi : Int) (rm : RMode) : Int × BitVec 5 :=
  match cvtInt src a with
  | some z => (clampInt lo hi z, 0)
  | none => toIntVal lo hi rm v

/-- Cvt of 07 R167; a conversion from binary8 never flushes (03 R67). -/
def cvtR (src dst : CvtKind) (fmt : BitVec 5) (sel : BitVec 2) (env : FEnv) (a : W32) : W32 × BitVec 5 :=
  let v := cvtSource src fmt sel a
  let ftz := env.ftz && src != .b8
  let ieee (f : IFmt) : W32 × BitVec 5 :=
    let (c, fl) := roundIEEE f env.rm env.sat ftz v
    (BitVec.ofNat 32 c, fl ||| nvIf (isSig v))
  let int (lo hi : Int) (rm : RMode) (w : Nat) : W32 × BitVec 5 :=
    let (z, fl) := toIntR src a v lo hi rm
    (BitVec.ofNat 32 ((BitVec.ofInt 32 z).toNat % 2 ^ w), fl)
  match dst with
  | .f32 => ieee f32
  | .f16 => ieee f16
  | .bf16 => ieee bf16
  | .b8 => if fmt = 0x1F then int (-128) 127 .rne 8 else asReg (roundToBinary8 fmt env.sat v)
  | .i32 => int (-(2 ^ 31)) (2 ^ 31 - 1) env.rm 32
  | .n32 => int 0 (2 ^ 32 - 1) env.rm 32

/-- A register with one byte replaced (07 R168). -/
def setByte (old : W32) (j : Nat) (b : W32) : W32 :=
  let m : W32 := (0xFF : W32) <<< (8 * j)
  (old &&& ~~~m) ||| (((b &&& 0xFF) <<< (8 * j)) &&& m)

/-- unpack8: the exact bfloat16 values of two bytes, no flag (07 R168). -/
def unpackR (fmt : BitVec 5) (half : Bool) (a : W32) : W32 :=
  let h := a.toNat / 2 ^ (if half then 16 else 0) % 65536
  let one (x : Nat) : Nat := (roundIEEE bf16 .rne false false (elemVal fmt x)).1
  BitVec.ofNat 32 (one (h % 256) + one (h / 256) * 65536)

/-! ## Majors 0x0C and 0x0D -/

/-- fadd (07 R161). -/
def execFadd (d a b : OField) (g : Guard) (s : State) : Out :=
  aluF (.fadd d a b g) g d (fun x l => faddR (x.fenv l) (x.src l a) (x.src l b)) s

/-- fsub (07 R161). -/
def execFsub (d a b : OField) (g : Guard) (s : State) : Out :=
  aluF (.fsub d a b g) g d (fun x l => fsubR (x.fenv l) (x.src l a) (x.src l b)) s

/-- fmul (07 R161). -/
def execFmul (d a b : OField) (g : Guard) (s : State) : Out :=
  aluF (.fmul d a b g) g d (fun x l => fmulR (x.fenv l) (x.src l a) (x.src l b)) s

/-- ffma: one rounding (07 R161). -/
def execFfma (d a b c : OField) (g : Guard) (s : State) : Out :=
  aluF (.ffma d a b c g) g d (fun x l => ffmaR (x.fenv l) (x.src l a) (x.src l b) (x.src l c)) s

/-- fmin (07 R162). -/
def execFmin (d a b : OField) (g : Guard) (s : State) : Out :=
  aluF (.fmin d a b g) g d (fun x l => fminmax false (x.src l a) (x.src l b)) s

/-- fmax (07 R162). -/
def execFmax (d a b : OField) (g : Guard) (s : State) : Out :=
  aluF (.fmax d a b g) g d (fun x l => fminmax true (x.src l a) (x.src l b)) s

/-- fclass (07 R162). -/
def execFclass (d a : OField) (g : Guard) (s : State) : Out :=
  aluF (.fclass d a g) g d (fun x l => (fclassMask (x.src l a), 0)) s

/-- fsel (07 R162). -/
def execFsel (d a b c : OField) (g : Guard) (s : State) : Out :=
  aluF (.fsel d a b c g) g d (fun x l => (if fselTest (x.src l c) then x.src l a else x.src l b, 0)) s

/-- fcmp (07 R162). -/
def execFcmp (p : PIdx) (a b : OField) (g : Guard) (k : FCond) (s : State) : Out :=
  aluP (.fcmp p a b g k) g p (fun x l => fcmpEval k (x.src l a) (x.src l b)) s

/-- hadd2 (07 R163). -/
def execHadd2 (d a b : OField) (g : Guard) (t : HalfKind) (s : State) : Out :=
  aluF (.hadd2 d a b g t) g d (fun x l => hadd2R t (x.fenv l) (x.src l a) (x.src l b)) s

/-- hmul2 (07 R163). -/
def execHmul2 (d a b : OField) (g : Guard) (t : HalfKind) (s : State) : Out :=
  aluF (.hmul2 d a b g t) g d (fun x l => hmul2R t (x.fenv l) (x.src l a) (x.src l b)) s

/-- hfma2 (07 R163). -/
def execHfma2 (d a b c : OField) (g : Guard) (t : HalfKind) (s : State) : Out :=
  aluF (.hfma2 d a b c g t) g d (fun x l => hfma2R t (x.fenv l) (x.src l a) (x.src l b) (x.src l c)) s

/-! ## Major 0x0E -/

/-- cvt (07 R166, R167). -/
def execCvt (d a : OField) (fmt : BitVec 5) (sel : BitVec 2) (g : Guard) (src dst : CvtKind) (s : State) : Out :=
  aluF (.cvt d a fmt sel g src dst) g d (fun x l => cvtR src dst fmt sel (x.fenv l) (x.src l a)) s

/-- pack8: byte SEL of the prior d replaced (07 R168). -/
def execPack8 (d a : OField) (fmt : BitVec 5) (sel : BitVec 2) (g : Guard) (s : State) : Out :=
  aluF (.pack8 d a fmt sel g) g d (fun x l =>
    let r := cvtR .f32 .b8 fmt 0 (x.fenv l) (x.src l a)
    (setByte (x.src l d) sel.toNat r.1, r.2)) s

/-- unpack8 (07 R168). -/
def execUnpack8 (d a : OField) (fmt : BitVec 5) (half : Bool) (g : Guard) (s : State) : Out :=
  alu (.unpack8 d a fmt half g) g d (fun x l => unpackR fmt half (x.src l a)) s

/-! ## Major 0x0F (07 R169, 03 R73) -/

/-- A special function of a. -/
def special (i : Instr) (g : Guard) (d a : OField) (f : Bool → FVal → Nat × BitVec 5) (s : State) : Out :=
  aluF i g d (fun x l => asReg (f (x.fenv l).ftz (fv (x.src l a)))) s

/-- rcp (03 R73). -/
def execRcp (d a : OField) (g : Guard) (s : State) : Out := special (.rcp d a g) g d a spRcp s

/-- rsq (03 R73). -/
def execRsq (d a : OField) (g : Guard) (s : State) : Out := special (.rsq d a g) g d a spRsq s

/-- exp2 (03 R73). -/
def execExp2 (d a : OField) (g : Guard) (s : State) : Out := special (.exp2 d a g) g d a spExp2 s

/-- log2 (03 R73). -/
def execLog2 (d a : OField) (g : Guard) (s : State) : Out := special (.log2 d a g) g d a spLog2 s

/-- sin (03 R73). -/
def execSin (d a : OField) (g : Guard) (s : State) : Out := special (.sin d a g) g d a spSin s

/-- cos (03 R73). -/
def execCos (d a : OField) (g : Guard) (s : State) : Out := special (.cos d a g) g d a spCos s

/-- tanh (03 R73). -/
def execTanh (d a : OField) (g : Guard) (s : State) : Out := special (.tanh d a g) g d a spTanh s

/-- sqrt: correctly rounded in the active mode (03 R73). -/
def execSqrt (d a : OField) (g : Guard) (s : State) : Out :=
  aluF (.sqrt d a g) g d (fun x l => asReg (spSqrt (x.fenv l).rm (x.fenv l).ftz (fv (x.src l a)))) s

/-! ## Major 0x10 (07 R164) -/

/-- A floating function of form S that writes a register; fclass does not use b (log 18). -/
def floatUR (f : FloatUFn) (env : FEnv) (a b : W32) : W32 × BitVec 5 :=
  match f with
  | .fadd => faddR env a b
  | .fsub => fsubR env a b
  | .fmul => fmulR env a b
  | .fmin => fminmax false a b
  | .fmax => fminmax true a b
  | .fclass => (fclassMask a, 0)
  | .fcmp _ => (0, 0)
  | .hadd2 t => hadd2R t env a b
  | .hmul2 t => hmul2R t env a b

/-- Major 0x10: a predicate form or a register form. -/
def execFloatUniformOp (d a : OField) (u : SIdx) (g : Guard) (f : FloatUFn) (s : State) : Out :=
  let i := Instr.floatUniformOp d a u g f
  match f with
  | .fcmp k => aluP i g (d.setWidth 3) (fun x l => fcmpEval k (x.src l a) (x.uni u)) s
  | _ => aluF i g d (fun x l => floatUR f (x.fenv l) (x.src l a) (x.uni u)) s

end Sys2Proof.Machine
end

