-- ==== Sys2Proof/Machine/Moves.lean ====
section
/-! DEFINITION. Register moves, special registers and predicate words: majors 0x18 to 0x1A (07 R177-R180, 02 R51-R55). -/

set_option linter.unusedVariables false

namespace Sys2Proof.Machine

/-- A short word of a group or conductor: its unit changed for the participants, then the clause goes on. -/
def moveWord (i : Instr) (g : Guard) (f : Ctx → List Nat → Grp → Grp) (s : State) : Out :=
  word i s (fun x => setUnit s x.u (advance (f x (x.parts g) x.g)))

/-- The o-field of the i-th register of a V-form word. -/
def oNext (o : OField) (i : Nat) : OField := if o.toNat ≤ 11 then BitVec.ofNat 4 (o.toNat + i) else o

/-- movin: t(o + i) <- v(N + i); lt receives the last value moved (07 R177). -/
def execMovin (v : VIdx) (o : OField) (g : Guard) (count : BitVec 2) (s : State) : Out :=
  moveWord (.movin v o g count) g (fun x ps gr =>
    ps.foldl (fun gr l =>
      (List.range (count.toNat + 1)).foldl (fun gr i =>
        let w := x.main l (v.toNat + i)
        writeO x.cond gr l (oNext o i) w w) gr) gr) s

/-- movout: v(N + i) <- t(o + i) at once (07 R177). -/
def execMovout (v : VIdx) (o : OField) (g : Guard) (count : BitVec 2) (s : State) : Out :=
  moveWord (.movout v o g count) g (fun x ps gr =>
    ps.foldl (fun gr l =>
      (List.range (count.toNat + 1)).foldl (fun gr i =>
        let w := x.src l (oNext o i)
        writeO x.cond (writeV x.cond gr l (v.toNat + i) w) l 15 w w) gr) gr) s

/-- movs: d <- s; a conductor moves all 64 bits (07 R178). -/
def execMovs (d : OField) (u : SIdx) (g : Guard) (s : State) : Out :=
  moveWord (.movs d u g) g (fun x ps gr =>
    ps.foldl (fun gr l =>
      if x.cond then write64 true gr l d (kAt x.g u.toNat) else writeO false gr l d (x.uni u) (x.uni u)) gr) s

/-- movg: s <- a of the lowest participant; each participant's own a to its lt (07 R178). -/
def execMovg (a : OField) (u : SIdx) (g : Guard) (s : State) : Out :=
  moveWord (.movg a u g) g (fun x ps gr =>
    match ps with
    | [] => gr
    | l0 :: _ =>
      let g1 := ps.foldl (fun gr l => writeO x.cond gr l 15 (x.src l a) (x.src l a)) gr
      if x.cond then { g1 with k := tset g1.k u.toNat (x.src64 l0 a) } else { g1 with s := tset g1.s u.toNat (x.src l0 a) }) s

/-! ## Special registers (02 R51-R55) -/

/-- DLREM of a context (02 R54). -/
def dlremWord (c : Context) : W32 :=
  if c.record.deadline = 0 then 0xFFFFFFFF else BitVec.ofNat 32 (Nat.min c.dlrem 0xFFFFFFFF)

/-- Fares held by a core: unit level, operation holdings, vector allowance (16 R346). -/
def purseHeld (p : Purse) : Nat := coreWindow p

/-- The cycle count of a unit's cluster. -/
def cycOf (s : State) (u : UnitId) : W64 := (clusterAt s (clusterOf (coreOf s u))).cyc

/-- A special register as one lane reads it; a conductor reads as 02 R55 says. -/
def specialReg (s : State) (x : Ctx) (l : Nat) (n : Nat) : W64 :=
  let t := x.t
  let gr := gridAt s t.grid
  let c := x.cond
  let w (v : Nat) : W64 := BitVec.ofNat 64 v
  match n with
  | 0x00 => if c then w (2 ^ 32 + t.index * 1024) else w ((t.index * 1024 + x.u.idx * 32 + l) % 2 ^ 32)
  | 0x01 => if c then 0 else w l
  | 0x02 => w x.u.idx
  | 0x03 => w t.index
  | 0x04 => gr.gridid.setWidth 64
  | 0x05 => w gr.depth
  | 0x06 => w t.core
  | 0x07 => w (clusterOf t.core)
  | 0x08 => if c then 0 else w t.sect
  | 0x09 => (cycOf s x.u).extractLsb' 0 32 |>.setWidth 64
  | 0x0A =>
    match (x.thr l).cych with
    | some h => h.setWidth 64
    | none => (cycOf s x.u).extractLsb' 32 32 |>.setWidth 64
  | 0x0B => (dlremWord (ctxAt s t.ctx)).setWidth 64
  | 0x0C => (flagsWord x.g).setWidth 64
  | 0x0D => if c then 0 else x.g.farestall.setWidth 64
  | 0x0E => w (purseHeld (coreAt s t.core).purse % 65536)
  | 0x0F => (x.thr l).fpstat.setWidth 64
  | 0x10 => (x.thr l).fpctl.setWidth 64
  | 0x11 => if c then 0 else w x.g.role
  | 0x12 => if c then 0 else w x.g.share
  | 0x13 => if gr.domain then 1 else 0
  | 0x14 => w gr.cls
  | 0x15 => w t.privBytes
  | _ => 0

/-- mfs (07 R178): a read of CYC captures the high half of the same cycle (02 R53). -/
def execMfs (d : OField) (n : SIdx) (g : Guard) (s : State) : Out :=
  moveWord (.mfs d n g) g (fun x ps gr =>
    ps.foldl (fun gr l =>
      let v := specialReg s x l n.toNat
      let g1 := if x.cond then write64 true gr l d v else writeO false gr l d (v.setWidth 32) (v.setWidth 32)
      if n = 0x09 then modThr g1 l (fun t => { t with cych := some ((cycOf s x.u).extractLsb' 32 32) }) else g1) gr) s

/-- mts (07 R179): registers of the thread take each participant's a, the others the lowest participant's; a write to an
RO register is ignored; an undefined SECT code traps (02 R51). -/
def execMts (a : OField) (n : SIdx) (g : Guard) (s : State) : Out :=
  word (.mts a n g) s (fun x =>
    let ps := x.parts g
    match ps with
    | [] => setUnit s x.u (advance x.g)
    | l0 :: _ =>
      let low := x.src l0 a
      let code := low.toNat % 8
      if n = 0x08 ∧ x.cond = false ∧ (code = 0 ∨ 6 ≤ code) then trapWord s x .illegal 0 (laneMask ps) 0
      else
        let g1 := ps.foldl (fun gr l =>
          let v := x.src l a
          let gr := writeO x.cond gr l 15 v v
          if n = 0x0F then modThr gr l (fun t => { t with fpstat := v.setWidth 5 })
          else if n = 0x10 then modThr gr l (fun t => { t with fpctl := v.setWidth 3 })
          else gr) x.g
        let g2 := if n = 0x0D ∧ x.cond = false then { g1 with farestall := low, stallSet := true } else g1
        let s1 := setUnit s x.u (advance g2)
        if n = 0x08 ∧ x.cond = false then writeSect s1 x.u code else s1)

/-! ## Predicates (07 R180) -/

/-- The result of a two-predicate operation. -/
def plopR (k : PlopOp) (a b : Bool) : Bool :=
  match k with
  | .and => a && b
  | .or => a || b
  | .xor => a != b
  | .andn => a && !b

/-- plop.and, plop.or, plop.xor, plop.andn. -/
def execPlop (d a b : PIdx) (g : Guard) (k : PlopOp) (s : State) : Out :=
  aluP (.plop d a b g k) g d (fun x l => (plopR k (predBit (x.thr l) a) (predBit (x.thr l) b), 0)) s

/-- plop.not. -/
def execPlopNot (d a : PIdx) (g : Guard) (s : State) : Out :=
  aluP (.plopNot d a g) g d (fun x l => (!predBit (x.thr l) a, 0)) s

/-- plop.set: 1 when the o-field is nonzero. -/
def execPlopSet (d : PIdx) (a : OField) (g : Guard) (s : State) : Out :=
  aluP (.plopSet d a g) g d (fun x l => (x.src l a != 0, 0)) s

/-- plop.get: d <- 1 or 0. -/
def execPlopGet (d : OField) (a : PIdx) (g : Guard) (s : State) : Out :=
  alu (.plopGet d a g) g d (fun x l => if predBit (x.thr l) a then 1 else 0) s

end Sys2Proof.Machine
end

