-- ==== Sys2Proof/Machine/Points.lean ====
section
/-! DEFINITION. Changes of a stack pair's operating point (16 R358). -/

set_option linter.unusedVariables false

namespace Sys2Proof.Machine

/-- OPERATING_POINT_CHANGE: requests that would cross the pair's boundary are held from now on; a core runs at up to 2.1 GHz
(00 R1). -/
def execOperatingPointChange (pair mhz : Nat) (s : State) : Out :=
  if mhz = 0 ∨ Config.maxMhz < mhz ∨ Config.pairs ≤ pair then .next s else .next (modPair s pair (fun p => { p with pending := some mhz }))

/-- Whether a place of memory lies on the other side of a pair's boundary from a core. -/
def farSide (s : State) (pair core : Nat) : Loc → Bool
  | .phys a => (pairOf (clusterOf core) == pair) != (homeSlice a / 16 == pair)
  | .spad t _ => (pairOf (clusterOf core) == pair) != (pairOf (clusterOf (teamAt s t).core) == pair)
  | .priv _ _ _ => false

/-- Whether an event would change the state. -/
def moves (s : State) : Out → Bool
  | .next t => decide (t ≠ s)
  | _ => false

/-- Whether an engine operation that has started has requests under way: one that waits for a page, or for the owner of a line, has none.
Its lines may have their homes in every pair (04 R89, log 46). -/
def enginesCross (s : State) : Bool :=
  (tkeys s.cores).any (fun c => (coreAt s c).copies.any (fun j => j.started) && moves s (execCopyComplete c s)) ||
  (tkeys s.clusters).any (fun c =>
    ((clusterAt s c).geo.any (fun j => j.started) && (moves s (execGeoJobStart c s) || moves s (execGeoJobComplete c s))) ||
    ((clusterAt s c).art.any (fun j => j.started) && moves s (execArtJobComplete c s)))

/-- Whether a request crosses a pair's boundary: an access of a unit that waits neither for an owner nor for its clause's comparison, or
the work of an engine. -/
def crossing (s : State) (pair : Nat) : Bool :=
  s.teams.any (fun t => t.2.units.any (fun g =>
    g.2.loads.any (fun p => p.lanes.any (fun a => farSide s pair t.2.core a.loc) && loadReady s ⟨t.1, g.1⟩ p) ||
    g.2.stores.any (fun p => p.lanes.any (fun a => farSide s pair t.2.core a.loc) && storeReady s ⟨t.1, g.1⟩ p))) ||
  enginesCross s

/-- A context's remaining budget at another frequency (02 R54), rounded up (log 47): one that counts, in the pair of its root team's cluster,
and one that DEADLINE_AT converted by the clock of cluster 0 and that does not count yet (19 R402). -/
def rescale (pair old new : Nat) (c : Context) : Context :=
  if (if c.counting then pairOf c.rootCluster == pair else c.timed && pair == 0) then { c with dlrem := ceilDiv (c.dlrem * new) old } else c

/-- QUIESCE_POINT: the new point is applied when nothing crosses the boundary. -/
def execQuiescePoint (pair : Nat) (s : State) : Out :=
  match (pairAt s pair).pending with
  | none => .next s
  | some mhz =>
    if crossing s pair then .next s
    else
      let old := (pairAt s pair).mhz
      let s1 := modPair s pair (fun p => { p with mhz := mhz, pending := none })
      let s2 := modCluster (modCluster s1 (2 * pair) (fun k => { k with prev := 0 })) (2 * pair + 1) (fun k => { k with prev := 0 })
      .next { s2 with contexts := tmap (fun _ c => rescale pair old mhz c) s2.contexts }

end Sys2Proof.Machine
end

