-- ==== Sys2Proof/Machine/Supervision.lean ====
section
/-! DEFINITION. The safety supervisor: freeze, step and the pair-mode registers (17 R383-R387). Held in reset it does nothing
(19 R403). -/

set_option linter.unusedVariables false

namespace Sys2Proof.Machine

/-- A change of the supervisor's registers. -/
def modSup (s : State) (f : Supervisor → Supervisor) : State := { s with supervisor := f s.supervisor }

/-- FREEZE: issue, engines and dispatch stop at their next boundaries. -/
def execFreeze (s : State) : Out := .next (if supervisorOn s then modSup s (fun v => { v with freeze := true }) else s)

/-- FROZEN_REACHED: FROZEN is set once all have stopped. A word or an engine's step is one step of the model, so all have stopped
where a step ends. -/
def execFrozenReached (s : State) : Out :=
  if s.supervisor.freeze then .next (modSup s (fun v => { v with frozen := true })) else .next s

/-- UNFREEZE: every unit goes on where it stopped, and traps that REPLAYs brought meanwhile are taken. -/
def execUnfreeze (s : State) : Out :=
  .next (if supervisorOn s then heldDenials (modSup s (fun v => { v with freeze := false, frozen := false, stepping := none })) else s)

/-- The unit SCORE and SGROUP name: the group in a slot of the core, or the core's lowest conductor. -/
def steppedUnit (s : State) : Option UnitId :=
  let here := s.teams.filter (fun t => standsOn t.2 s.supervisor.score && t.2.phase != .placed)
  if s.supervisor.sgroup = 32 then
    (argMin (fun t => t.2.conductorSlot) (here.filter (fun t => thas t.2.units 32))).map (fun t => ⟨t.1, 32⟩)
  else (here.flatMap (fun t => (t.2.units.filter (fun g => decide (g.1 < 32) && g.2.slot == s.supervisor.sgroup && !g.2.retired)).map
    (fun g => (⟨t.1, g.1⟩ : UnitId)))).head?

/-- STEP: while the device is frozen, one word of the selected run issues with the unit's next turns. -/
def execStep (s : State) : Out :=
  if supervisorOn s && s.supervisor.freeze && s.supervisor.frozen then .next (modSup s (fun v => { v with stepping := steppedUnit s })) else .next s

/-- PAIRERR_CLEAR. -/
def execPairerrClear (s : State) : Out := .next (if supervisorOn s then modSup s (fun v => { v with pairErr := false }) else s)

/-- PAIR_MODE_SET: teams that start later follow the new bits. -/
def execPairModeSet (lo hi : W32) (s : State) : Out :=
  .next (if supervisorOn s then modSup s (fun v => { v with pairLo := lo, pairHi := hi }) else s)

/-! ## Reads of registers (00 R5) -/

/-- Bits of a register word from a position on. -/
def fieldWord (n lo : Nat) : Nat := n * 2 ^ lo

/-- One bit of a register word. -/
def flagWord (b : Bool) (i : Nat) : Nat := if b then 2 ^ i else 0

/-- A read of the supervisor register at an offset (17 R383): STEP is write-only and reads zero, as reserved bits do. -/
def readSupervisor (s : State) (off : Nat) : W32 :=
  let v := s.supervisor
  if off = 0x00 then BitVec.ofNat 32 (fieldWord (v.sgroup % 64) 16 + fieldWord (v.score % 256) 8 + flagWord v.freeze 0)
  else if off = 0x04 then BitVec.ofNat 32 (flagWord v.pairErr 1 + flagWord v.frozen 0)
  else if off = 0x08 then v.pairLo
  else if off = 0x0C then v.pairHi
  else if off = 0x10 then v.repCnt
  else 0

/-- A read of the register of a cluster's fare block at an offset (16 R348). -/
def readFareBlock (s : State) (c off : Nat) : W32 :=
  let k := clusterAt s c
  if off = 0x00 then BitVec.ofNat 32 (flagWord k.ramp 31 + fieldWord (k.stepLimit % 2048) 16 + fieldWord (k.bdb % 256) 8 + k.burstMax % 256)
  else if off = 0x04 then BitVec.ofNat 32 (k.clim % 8192)
  else if off = 0x08 then BitVec.ofNat 32 k.ebud
  else if off = 0x0C then BitVec.ofNat 32 (fieldWord (k.prev % 8192) 16 + curOf s c % 8192)
  else if off = 0x10 then BitVec.ofNat 32 (flagWord k.gated 2 + flagWord k.balSkimming 1 + flagWord k.govStall 0)
  else if off = 0x14 then k.govCnt
  else if off = 0x18 then k.balCnt
  else 0

/-- A read of the device fare register at an offset (16 R348). -/
def readDeviceFare (s : State) (off : Nat) : W32 :=
  if off = 0x00 then BitVec.ofNat 32 (s.ring.ringTot % 65536)
  else if off = 0x04 then BitVec.ofNat 32 (s.ring.fcap % 65536)
  else if off = 0x08 then BitVec.ofNat 32 (s.ring.shunt % 512)
  else 0

end Sys2Proof.Machine
end

