-- ==== Sys2Proof/Machine/Upkeep.lean ====
section
/-! DEFINITION. What a core does by itself as time passes: implicit ar steps (05 R106) and the boundary of unified mode (04 R95). -/

set_option linter.unusedVariables false

namespace Sys2Proof.Machine

/-- PHASE_AGE_STEP: an ar step once the phase age limit has passed since the core's last acquire step. -/
def execPhaseAgeStep (core : Nat) (s : State) : Out :=
  if s.supervisor.freeze ∨ (coreAt s core).sinceAcquire < s.policy.phaseAge then .next s else .next (arStep s core)

/-- HOME_PRESSURE_STEP: an ar step when a home slice can no longer keep a value the core's cut depends on. -/
def execHomePressureStep (core : Nat) (s : State) : Out := if s.supervisor.freeze then .next s else .next (arStep s core)

/-- Cycles of an interval of 04 R95. -/
def unifiedInterval : Nat := 65536

/-- The teams that stand on a core. -/
def residents (s : State) (c : Nat) : List Team := (s.teams.filter (fun t => standsOn t.2 c)).map (·.2)

/-- The L1 floor of a unified core: the largest floor of its teams, and at least 32 KiB (04 R94). -/
def l1Floor (s : State) (c : Nat) : Nat := (residents s c).foldl (fun f t => Nat.max f (t.kernel.l1Floor * 1024)) 32768

/-- The scratchpad carves of the resident teams, and of the slots reserved on the core, which are held for their units (15 R334, R338,
log 46). -/
def residentCarves (s : State) (c : Nat) : Nat := needSum (·.scratch) (coreNeeds s [] c)

/-- The L1 part after an interval of N sampled accesses with G extra hits of the larger shadow and S lost ones of the smaller. -/
def shiftL1 (l carves floor n g k : Nat) : Nat :=
  if n ≤ 16 * g ∧ l + 32768 + carves ≤ Config.unifiedBytes then l + 32768
  else if 64 * k < n ∧ floor + 32768 ≤ l then l - 32768
  else l

/-- UNIFIED_INTERVAL_END: the boundary moves by at most one step; what the sampled sets counted is free (log 9). -/
def execUnifiedIntervalEnd (core : Nat) (s : State) : Out :=
  match (coreAt s core).l1 with
  | none => .next s
  | some l =>
    if s.supervisor.freeze ∨ (coreAt s core).interval < unifiedInterval then .next s
    else
      let f (i : Nat) : Nat := (Config.freeWord (s.freeCtr + i)).toNat
      .next (modCore { s with freeCtr := s.freeCtr + 3 } core (fun k =>
        { k with l1 := some (shiftL1 l (residentCarves s core) (l1Floor s core) (f 0) (f 1) (f 2)), interval := 0 }))

end Sys2Proof.Machine
end

