-- ==== Sys2Proof/Machine/Dispatch.lean ====
section
/-! DEFINITION. One arm for every instruction: its meaning, or its rejection by name. -/

namespace Sys2Proof.Machine

/-- What an instruction does (spec/opcode_table.json). -/
def exec (i : Instr) (s : State) : Host.Outcome State Fault Refusal :=
  match i with
  | .clauseHeader wait setA setB len => Sys2Proof.Machine.execClauseHeader wait setA setB len s
  | .clauseTrailer va oa vb ob count => Sys2Proof.Machine.execClauseTrailer va oa vb ob count s
  | .hintImmediate p => Sys2Proof.Machine.execHintImmediate p s
  | .hintCache p => Sys2Proof.Machine.execHintCache p s
  | .hintModifier p => Sys2Proof.Machine.execHintModifier p s
  | .add d a b g => Sys2Proof.Machine.execAdd d a b g s
  | .sub d a b g => Sys2Proof.Machine.execSub d a b g s
  | .mul d a b g => Sys2Proof.Machine.execMul d a b g s
  | .mulhiI32 d a b g => Sys2Proof.Machine.execMulhiI32 d a b g s
  | .mulhiN32 d a b g => Sys2Proof.Machine.execMulhiN32 d a b g s
  | .mad d a b c g => Sys2Proof.Machine.execMad d a b c g s
  | .min d a b g uns => Sys2Proof.Machine.execMin d a b g uns s
  | .max d a b g uns => Sys2Proof.Machine.execMax d a b g uns s
  | .addc d a b c g => Sys2Proof.Machine.execAddc d a b c g s
  | .addcCo d a b c g => Sys2Proof.Machine.execAddcCo d a b c g s
  | .subb d a b c g => Sys2Proof.Machine.execSubb d a b c g s
  | .subbBo d a b c g => Sys2Proof.Machine.execSubbBo d a b c g s
  | .cmp p a b g k => Sys2Proof.Machine.execCmp p a b g k s
  | .sel d a b c g => Sys2Proof.Machine.execSel d a b c g s
  | .and d a b g => Sys2Proof.Machine.execAnd d a b g s
  | .or d a b g => Sys2Proof.Machine.execOr d a b g s
  | .xor d a b g => Sys2Proof.Machine.execXor d a b g s
  | .andn d a b g => Sys2Proof.Machine.execAndn d a b g s
  | .shl d a b g => Sys2Proof.Machine.execShl d a b g s
  | .shrN32 d a b g => Sys2Proof.Machine.execShrN32 d a b g s
  | .shrI32 d a b g => Sys2Proof.Machine.execShrI32 d a b g s
  | .rot d a b g => Sys2Proof.Machine.execRot d a b g s
  | .fsh d a b c g => Sys2Proof.Machine.execFsh d a b c g s
  | .bfeN32 d a b g => Sys2Proof.Machine.execBfeN32 d a b g s
  | .bfeI32 d a b g => Sys2Proof.Machine.execBfeI32 d a b g s
  | .bfi d a b c g => Sys2Proof.Machine.execBfi d a b c g s
  | .popc d a g => Sys2Proof.Machine.execPopc d a g s
  | .clz d a g => Sys2Proof.Machine.execClz d a g s
  | .brev d a g => Sys2Proof.Machine.execBrev d a g s
  | .lea d a b g f => Sys2Proof.Machine.execLea d a b g f s
  | .add64 d a b g => Sys2Proof.Machine.execAdd64 d a b g s
  | .cmp64 p a b g k => Sys2Proof.Machine.execCmp64 p a b g k s
  | .intUniformOp d a sr g f => Sys2Proof.Machine.execIntUniformOp d a sr g f s
  | .addi d a imm => Sys2Proof.Machine.execAddi d a imm s
  | .andi d a imm => Sys2Proof.Machine.execAndi d a imm s
  | .ori d a imm => Sys2Proof.Machine.execOri d a imm s
  | .xori d a imm => Sys2Proof.Machine.execXori d a imm s
  | .shli d a k => Sys2Proof.Machine.execShli d a k s
  | .movhi d imm => Sys2Proof.Machine.execMovhi d imm s
  | .cmpi p a k imm => Sys2Proof.Machine.execCmpi p a k imm s
  | .fadd d a b g => Sys2Proof.Machine.execFadd d a b g s
  | .fsub d a b g => Sys2Proof.Machine.execFsub d a b g s
  | .fmul d a b g => Sys2Proof.Machine.execFmul d a b g s
  | .ffma d a b c g => Sys2Proof.Machine.execFfma d a b c g s
  | .fmin d a b g => Sys2Proof.Machine.execFmin d a b g s
  | .fmax d a b g => Sys2Proof.Machine.execFmax d a b g s
  | .fclass d a g => Sys2Proof.Machine.execFclass d a g s
  | .fsel d a b c g => Sys2Proof.Machine.execFsel d a b c g s
  | .fcmp p a b g k => Sys2Proof.Machine.execFcmp p a b g k s
  | .hadd2 d a b g t => Sys2Proof.Machine.execHadd2 d a b g t s
  | .hmul2 d a b g t => Sys2Proof.Machine.execHmul2 d a b g t s
  | .hfma2 d a b c g t => Sys2Proof.Machine.execHfma2 d a b c g t s
  | .cvt d a fmt sel g src dst => Sys2Proof.Machine.execCvt d a fmt sel g src dst s
  | .pack8 d a fmt sel g => Sys2Proof.Machine.execPack8 d a fmt sel g s
  | .unpack8 d a fmt half g => Sys2Proof.Machine.execUnpack8 d a fmt half g s
  | .rcp d a g => Sys2Proof.Machine.execRcp d a g s
  | .rsq d a g => Sys2Proof.Machine.execRsq d a g s
  | .sqrt d a g => Sys2Proof.Machine.execSqrt d a g s
  | .exp2 d a g => Sys2Proof.Machine.execExp2 d a g s
  | .log2 d a g => Sys2Proof.Machine.execLog2 d a g s
  | .sin d a g => Sys2Proof.Machine.execSin d a g s
  | .cos d a g => Sys2Proof.Machine.execCos d a g s
  | .tanh d a g => Sys2Proof.Machine.execTanh d a g s
  | .floatUniformOp d a sr g f => Sys2Proof.Machine.execFloatUniformOp d a sr g f s
  | .shfl d a b g m => Sys2Proof.Machine.execShfl d a b g m s
  | .prmt d a b c g => Sys2Proof.Machine.execPrmt d a b c g s
  | .tlu d a b g w => Sys2Proof.Machine.execTlu d a b g w s
  | .vote p a g k => Sys2Proof.Machine.execVote p a g k s
  | .voteBallot d a g => Sys2Proof.Machine.execVoteBallot d a g s
  | .laneMatch d a g m => Sys2Proof.Machine.execLaneMatch d a g m s
  | .elect p g => Sys2Proof.Machine.execElect p g s
  | .sect g w => Sys2Proof.Machine.execSect g w s
  | .sred d a g o => Sys2Proof.Machine.execSred d a g o s
  | .sscan d a g o => Sys2Proof.Machine.execSscan d a g o s
  | .sscanEx d a g o => Sys2Proof.Machine.execSscanEx d a g o s
  | .movin v o g count => Sys2Proof.Machine.execMovin v o g count s
  | .movout v o g count => Sys2Proof.Machine.execMovout v o g count s
  | .movs d sr g => Sys2Proof.Machine.execMovs d sr g s
  | .movg a sr g => Sys2Proof.Machine.execMovg a sr g s
  | .mfs d sr g => Sys2Proof.Machine.execMfs d sr g s
  | .mts a sr g => Sys2Proof.Machine.execMts a sr g s
  | .plop d a b g k => Sys2Proof.Machine.execPlop d a b g k s
  | .plopNot d a g => Sys2Proof.Machine.execPlopNot d a g s
  | .plopSet d a g => Sys2Proof.Machine.execPlopSet d a g s
  | .plopGet d a g => Sys2Proof.Machine.execPlopGet d a g s
  | .bra g off => Sys2Proof.Machine.execBra g off s
  | .call g off => Sys2Proof.Machine.execCall g off s
  | .brx a b g => Sys2Proof.Machine.execBrx a b g s
  | .callx a b g => Sys2Proof.Machine.execCallx a b g s
  | .ret g => Sys2Proof.Machine.execRet g s
  | .exit g => Sys2Proof.Machine.execExit g s
  | .trap a g => Sys2Proof.Machine.execTrap a g s
  | .sleepCyc d a => Sys2Proof.Machine.execSleepCyc d a s
  | .sleepFut d a => Sys2Proof.Machine.execSleepFut d a s
  | .brk g => Sys2Proof.Machine.execBrk g s
  | .lpad label => Sys2Proof.Machine.execLpad label s
  | .ld m t => Sys2Proof.Machine.execLd m t s
  | .st m t => Sys2Proof.Machine.execSt m t s
  | .ldx m t => Sys2Proof.Machine.execLdx m t s
  | .stx m t => Sys2Proof.Machine.execStx m t s
  | .pref off pair guard space l2 => Sys2Proof.Machine.execPref off pair guard space l2 s
  | .atom d a sr g r k => Sys2Proof.Machine.execAtom d a sr g r k s
  | .red d a sr g r k => Sys2Proof.Machine.execRed d a sr g r k s
  | .best d a sr g r w => Sys2Proof.Machine.execBest d a sr g r w s
  | .ldq a sr g count base => Sys2Proof.Machine.execLdq a sr g count base s
  | .fence sr => Sys2Proof.Machine.execFence sr s
  | .phase k => Sys2Proof.Machine.execPhase k s
  | .bar d a b g => Sys2Proof.Machine.execBar d a b g s
  | .barRed d a b c g k => Sys2Proof.Machine.execBarRed d a b c g k s
  | .barg d b g => Sys2Proof.Machine.execBarg d b g s
  | .bargRed d b c g k => Sys2Proof.Machine.execBargRed d b c g k s
  | .waitf d a b c g k => Sys2Proof.Machine.execWaitf d a b c g k s
  | .cancel d a g => Sys2Proof.Machine.execCancel d a g s
  | .chkc d g => Sys2Proof.Machine.execChkc d g s
  | .feed d g => Sys2Proof.Machine.execFeed d g s
  | .fpushU a b g => Sys2Proof.Machine.execFpushU a b g s
  | .fpushV a b c g => Sys2Proof.Machine.execFpushV a b c g s
  | .agen d a b c g => Sys2Proof.Machine.execAgen d a b c g s
  | .spawn v sr one => Sys2Proof.Machine.execSpawn v sr one s
  | .task v sr one => Sys2Proof.Machine.execTask v sr one s
  | .dalloc v sr p => Sys2Proof.Machine.execDalloc v sr p s
  | .dfree v sr => Sys2Proof.Machine.execDfree v sr s
  | .regy d a g => Sys2Proof.Machine.execRegy d a g s
  | .regc d a g => Sys2Proof.Machine.execRegc d a g s
  | .mma m => Sys2Proof.Machine.execMma m s
  | .mmas m => Sys2Proof.Machine.execMmas m s
  | .gmma m => Sys2Proof.Machine.execGmma m s
  | .acz acc => Sys2Proof.Machine.execAcz acc s
  | .acld v sr acc => Sys2Proof.Machine.execAcld v sr acc s
  | .acst v sr acc => Sys2Proof.Machine.execAcst v sr acc s
  | .acrd v sr acc => Sys2Proof.Machine.execAcrd v sr acc s
  | .acepi sr acc => Sys2Proof.Machine.execAcepi sr acc s
  | .copy v sr => Sys2Proof.Machine.execCopy v sr s
  | .gcopy v sr => Sys2Proof.Machine.execGcopy v sr s
  | .wpush v sr h => Sys2Proof.Machine.execWpush v sr h s
  | .wflush sr => Sys2Proof.Machine.execWflush sr s
  | .geo v sr h => Sys2Proof.Machine.execGeo v sr h s
  | .art sr h => Sys2Proof.Machine.execArt sr h s
  | .fwait v noerr slot => Sys2Proof.Machine.execFwait v noerr slot s
  | .ftest v slot => Sys2Proof.Machine.execFtest v slot s
  | .fdrop slot => Sys2Proof.Machine.execFdrop slot s
  | .lacq v sr noerr => Sys2Proof.Machine.execLacq v sr noerr s
  | .lacqFut v sr => Sys2Proof.Machine.execLacqFut v sr s
  | .lrel sr => Sys2Proof.Machine.execLrel sr s
  | .ltest v sr => Sys2Proof.Machine.execLtest v sr s
  | .burst sr => Sys2Proof.Machine.execBurst sr s
  | .eret g => Sys2Proof.Machine.execEret g s
  | .hmfs d g r => Sys2Proof.Machine.execHmfs d g r s
  | .hmts a g r => Sys2Proof.Machine.execHmts a g r s
  | .selectRun u => Sys2Proof.Machine.execSelectRun u s
  | .loadDataArrival u op => Sys2Proof.Machine.execLoadDataArrival u op s
  | .storeDrain u => Sys2Proof.Machine.execStoreDrain u s
  | .feedDelivery u => Sys2Proof.Machine.execFeedDelivery u s
  | .fpushResume team => Sys2Proof.Machine.execFpushResume team s
  | .deferredTrap u => Sys2Proof.Machine.execDeferredTrap u s
  | .teamStart team => Sys2Proof.Machine.execTeamStart team s
  | .poolDispatchStarvation entry => Sys2Proof.Machine.execPoolDispatchStarvation entry s
  | .teamRetirement team => Sys2Proof.Machine.execTeamRetirement team s
  | .gridRetirement grid => Sys2Proof.Machine.execGridRetirement grid s
  | .starvationReservation u k => Sys2Proof.Machine.execStarvationReservation u k s
  | .waitTimeout u run => Sys2Proof.Machine.execWaitTimeout u run s
  | .graceExpiry grid => Sys2Proof.Machine.execGraceExpiry grid s
  | .deadlineExpiry ctx => Sys2Proof.Machine.execDeadlineExpiry ctx s
  | .waitfSatisfied u run => Sys2Proof.Machine.execWaitfSatisfied u run s
  | .regcGrant team => Sys2Proof.Machine.execRegcGrant team s
  | .sleepWake u run => Sys2Proof.Machine.execSleepWake u run s
  | .operandPin core op => Sys2Proof.Machine.execOperandPin core op s
  | .matrixOpStart core => Sys2Proof.Machine.execMatrixOpStart core s
  | .matrixOpEnd core => Sys2Proof.Machine.execMatrixOpEnd core s
  | .gmmaPartArrival core => Sys2Proof.Machine.execGmmaPartArrival core s
  | .copyStart core => Sys2Proof.Machine.execCopyStart core s
  | .copyComplete core => Sys2Proof.Machine.execCopyComplete core s
  | .wagonAgeLimit queue => Sys2Proof.Machine.execWagonAgeLimit queue s
  | .wagonTaskCreate queue => Sys2Proof.Machine.execWagonTaskCreate queue s
  | .geoJobStart cluster => Sys2Proof.Machine.execGeoJobStart cluster s
  | .geoJobComplete cluster => Sys2Proof.Machine.execGeoJobComplete cluster s
  | .artJobStart cluster => Sys2Proof.Machine.execArtJobStart cluster s
  | .artBudgetExpiry cluster => Sys2Proof.Machine.execArtBudgetExpiry cluster s
  | .artJobComplete cluster => Sys2Proof.Machine.execArtJobComplete cluster s
  | .layerPlacement ctx slot layer => Sys2Proof.Machine.execLayerPlacement ctx slot layer s
  | .layerLoadComplete ctx slot layer => Sys2Proof.Machine.execLayerLoadComplete ctx slot layer s
  | .layerLoadError ctx slot layer => Sys2Proof.Machine.execLayerLoadError ctx slot layer s
  | .phaseAgeStep core => Sys2Proof.Machine.execPhaseAgeStep core s
  | .homePressureStep core => Sys2Proof.Machine.execHomePressureStep core s
  | .unifiedIntervalEnd core => Sys2Proof.Machine.execUnifiedIntervalEnd core s
  | .queueAgeing queue => Sys2Proof.Machine.execQueueAgeing queue s
  | .launch h r tx0 ty0 tw => Sys2Proof.Machine.execLaunch h r tx0 ty0 tw s
  | .taskgraph h nodes nnode cls => Sys2Proof.Machine.execTaskgraph h nodes nnode cls s
  | .modelBind h addr slot => Sys2Proof.Machine.execModelBind h addr slot s
  | .prefetch h slot first count => Sys2Proof.Machine.execPrefetch h slot first count s
  | .modelUnbind h slot => Sys2Proof.Machine.execModelUnbind h slot s
  | .signal h addr value isAdd => Sys2Proof.Machine.execSignal h addr value isAdd s
  | .wait h addr value k => Sys2Proof.Machine.execWait h addr value k s
  | .waitCommandSatisfied queue => Sys2Proof.Machine.execWaitCommandSatisfied queue s
  | .copyCommand h addr => Sys2Proof.Machine.execCopyCommand h addr s
  | .cancelCommand h gridid all => Sys2Proof.Machine.execCancelCommand h gridid all s
  | .ctxSetup h addr ctx => Sys2Proof.Machine.execCtxSetup h addr ctx s
  | .ctxRewrite h addr ctx => Sys2Proof.Machine.execCtxRewrite h addr ctx s
  | .ctxSuspend h ctx => Sys2Proof.Machine.execCtxSuspend h ctx s
  | .ctxResume h ctx => Sys2Proof.Machine.execCtxResume h ctx s
  | .ctxTeardown h ctx => Sys2Proof.Machine.execCtxTeardown h ctx s
  | .codeReg h addr ctx => Sys2Proof.Machine.execCodeReg h addr ctx s
  | .codeUnreg h addr ctx => Sys2Proof.Machine.execCodeUnreg h addr ctx s
  | .wagonBind h addr => Sys2Proof.Machine.execWagonBind h addr s
  | .wagonUnbind h queue => Sys2Proof.Machine.execWagonUnbind h queue s
  | .poolAssign h base pool ctx log2 count => Sys2Proof.Machine.execPoolAssign h base pool ctx log2 count s
  | .teamMigration team core => Sys2Proof.Machine.execTeamMigration team core s
  | .preemptTeam team => Sys2Proof.Machine.execPreemptTeam team s
  | .preemptionAbandon team => Sys2Proof.Machine.execPreemptionAbandon team s
  | .teamResume team core => Sys2Proof.Machine.execTeamResume team core s
  | .fareGrant cluster => Sys2Proof.Machine.execFareGrant cluster s
  | .windowBoundary cluster => Sys2Proof.Machine.execWindowBoundary cluster s
  | .balanceSkim cluster => Sys2Proof.Machine.execBalanceSkim cluster s
  | .rampStep core => Sys2Proof.Machine.execRampStep core s
  | .rampDown core => Sys2Proof.Machine.execRampDown core s
  | .burstLapse core => Sys2Proof.Machine.execBurstLapse core s
  | .ringClaim cluster => Sys2Proof.Machine.execRingClaim cluster s
  | .operatingPointChange pair mhz => Sys2Proof.Machine.execOperatingPointChange pair mhz s
  | .quiescePoint pair => Sys2Proof.Machine.execQuiescePoint pair s
  | .clusterGate cluster => Sys2Proof.Machine.execClusterGate cluster s
  | .ringtotWrite value => Sys2Proof.Machine.execRingtotWrite value s
  | .govstallClear cluster value => Sys2Proof.Machine.execGovstallClear cluster value s
  | .firmwareRegisterWrite r value => Sys2Proof.Machine.execFirmwareRegisterWrite r value s
  | .tlbFill fill => Sys2Proof.Machine.execTlbFill fill s
  | .invalidation ctx va len => Sys2Proof.Machine.execInvalidation ctx va len s
  | .serviceBatch count => Sys2Proof.Machine.execServiceBatch count s
  | .replayRetry r => Sys2Proof.Machine.execReplayRetry r s
  | .replayViolation r => Sys2Proof.Machine.execReplayViolation r s
  | .replayUnserviceable r => Sys2Proof.Machine.execReplayUnserviceable r s
  | .migrationLineCopy entry => Sys2Proof.Machine.execMigrationLineCopy entry s
  | .pinnedWayChange ways => Sys2Proof.Machine.execPinnedWayChange ways s
  | .pairModeSet lo hi => Sys2Proof.Machine.execPairModeSet lo hi s
  | .queueSet queue addr => Sys2Proof.Machine.execQueueSet queue addr s
  | .deadlineAt ctx seconds nanoseconds => Sys2Proof.Machine.execDeadlineAt ctx seconds nanoseconds s
  | .attest nonce addr => Sys2Proof.Machine.execAttest nonce addr s
  | .health addr => Sys2Proof.Machine.execHealth addr s
  | .fwStage slot addr len => Sys2Proof.Machine.execFwStage slot addr len s
  | .windowSet window ctx rights rkey base len => Sys2Proof.Machine.execWindowSet window ctx rights rkey base len s
  | .eventRing qp rkey addr loge => Sys2Proof.Machine.execEventRing qp rkey addr loge s
  | .evackWrite value => Sys2Proof.Machine.execEvackWrite value s
  | .rdmaWrite qp rkey addr bytes => Sys2Proof.Machine.execRdmaWrite qp rkey addr bytes s
  | .rdmaRead qp rkey addr len => Sys2Proof.Machine.execRdmaRead qp rkey addr len s
  | .spareReplacement k item => Sys2Proof.Machine.execSpareReplacement k item s
  | .coreRetirement core => Sys2Proof.Machine.execCoreRetirement core s
  | .peerAcknowledgement qp => Sys2Proof.Machine.execPeerAcknowledgement qp s
  | .compactLpddrBacking frame newFrame => Sys2Proof.Machine.execCompactLpddrBacking frame newFrame s
  | .yield => Sys2Proof.Machine.execYield s
  | .dispatchCycle => Sys2Proof.Machine.execDispatchCycle s
  | .arbiterSelect => Sys2Proof.Machine.execArbiterSelect s
  | .freeze => Sys2Proof.Machine.execFreeze s
  | .frozenReached => Sys2Proof.Machine.execFrozenReached s
  | .unfreeze => Sys2Proof.Machine.execUnfreeze s
  | .step => Sys2Proof.Machine.execStep s
  | .pairerrClear => Sys2Proof.Machine.execPairerrClear s
  | .boot => Sys2Proof.Machine.execBoot s
  | .unallocatedEncoding => Sys2Proof.Machine.execUnallocatedEncoding s
  | .badCommand => Sys2Proof.Machine.execBadCommand s
  | .badMessage => Sys2Proof.Machine.execBadMessage s

end Sys2Proof.Machine
end

