-- ==== Sys2Proof/Machine/Time.lean ====
section
/-! DEFINITION. One core cycle of a stack pair and one front-end cycle: the counts that advance with time (00 R4, 02 R53,
R54, 01 R33, R34, R37, 05 R106, 09 R250, 15 R325, 17 R384). The events the counts make due are words of their own. -/

set_option linter.unusedVariables false

namespace Sys2Proof.Machine

/-- Whether the device is stopped by FREEZE (17 R384). -/
def frozen (s : State) : Bool := s.supervisor.freeze

/-- Whether a core belongs to a stack pair (00 R1). -/
def inPair (p core : Nat) : Bool := pairOf (clusterOf core) == p

/-- A unit's counts after a core cycle: waits of resident teams, the cycles in which its word or its operation was denied its fares
(16 R349), and the denials of a word that waits for fares or for its turn (01 R33, R34). -/
def tickUnit (waits fares opFares ready : Bool) (g : Grp) : Grp :=
  let g1 := { g with
    issued := false
    stallSet := false
    farestall := if (fares || opFares) && !g.stallSet && g.farestall != 0xFFFFFFFF then g.farestall + 1 else g.farestall
    blocked := if waits then g.blocked.map (fun (b : BlockedRun) => if b.ended then b else { b with elapsed := b.elapsed + 1 }) else g.blocked }
  if fares then
    { g1 with denied := if g.deniedFares then g.denied + 1 else 1, deniedFares := true }
  else if ready && !g.issued then { g1 with denied := if g.deniedFares then 1 else g.denied + 1, deniedFares := false }
  else { g1 with denied := 0 }

/-- The units of a stack pair whose word was denied its fares (16 R349). -/
def faresDenied (s : State) (p : Nat) (u : UnitId) : Bool :=
  (clusterAt s (2 * p)).requests.any (fun r => r.unit == some u) || (clusterAt s (2 * p + 1)).requests.any (fun r => r.unit == some u)

/-- Whether the core purse did not grant a unit's word in this cycle (15 R341). -/
def wordRefused (s : State) (u : UnitId) : Bool := (coreAt s (coreOf s u)).refused.any (· == u)

/-- Whether an engine operation is one of a group: its futures and flags tell that group (09 R251). -/
def ownedBy (u : UnitId) : JobOwner → Bool
  | .future v _ => v == u
  | .command _ _ _ => false
  | .node _ _ => false

/-- Whether an operation of a cluster was issued by a unit. -/
def opOf (s : State) (c : Nat) (u : UnitId) (op : Nat) : Bool :=
  (clusterCores c).any (fun k =>
    (coreOps (coreAt s k)).any (fun o => o.id == op && o.unit == u) || (coreAt s k).copies.any (fun j => j.id == op && ownedBy u j.owner)) ||
  (clusterAt s c).geo.any (fun j => j.id == op && ownedBy u j.owner) || (clusterAt s c).art.any (fun j => j.id == op && ownedBy u j.owner)

/-- The operations of a unit whose fares were denied (16 R349, R350). -/
def opDenied (s : State) (p : Nat) (u : UnitId) : Bool :=
  let ask (c : Nat) : Bool := (clusterAt s c).requests.any (fun r =>
    match r.op with
    | some op => opOf s c u op
    | none => false)
  ask (2 * p) || ask (2 * p + 1)

/-- A team's counts after a core cycle of its pair; ready says which units had a word to issue (15 R340). -/
def tickTeam (ready : UnitId → Bool) (s : State) (p : Nat) (t : Team) : Team :=
  if !inPair p t.core || t.phase == .placed || t.phase == .saved then t
  else
    { t with
      preemptElapsed := if t.phase = .saving then t.preemptElapsed + 1 else t.preemptElapsed
      units := tmap (fun i g => tickUnit (t.phase == .running || t.phase == .saving) (faresDenied s p ⟨t.uid, i⟩ || wordRefused s ⟨t.uid, i⟩) (opDenied s p ⟨t.uid, i⟩) (ready ⟨t.uid, i⟩) g) t.units }

/-- The first copy of a core's queue, while it runs and waits for no page, moves 32 bytes a cycle, which a revised promise counts (09 R241). -/
def moveBytes : List CopyJob → List CopyJob
  | [] => []
  | j :: r => if j.started && j.pages.isEmpty then { j with moved := j.moved + 32 } :: r else j :: r

/-- A core's counts after a cycle: the age of its cut, its unified interval, its matrix operation and its ramp. -/
def tickCore (c : Core) : Core :=
  { c with
    sinceAcquire := c.sinceAcquire + 1
    slotsUsed := []
    tried := []
    refused := []
    interval := if c.l1.isSome then c.interval + 1 else 0
    matrix := c.matrix.map (fun o => if o.running then { o with left := o.left - 1 } else o)
    copies := moveBytes c.copies
    purse := { c.purse with rampPhase := c.purse.rampPhase + 1 } }

/-- The cycle count of a cluster after a cycle; a gated cluster does not count (02 R53). -/
def tickCluster (k : Cluster) : Cluster :=
  if k.gated then { k with judged := false }
  else { k with judged := false, cyc := k.cyc + 1, boundaryDue := k.boundaryDue || ((k.cyc + 1).toNat % 16 == 0) }

/-- Counts of a cluster that a freeze stops: articulation budgets run from acceptance (09 R250), and skims are withdrawn every 4 cycles. -/
def tickEngines (k : Cluster) : Cluster :=
  { k with art := k.art.map (fun j => { j with elapsed := j.elapsed + 1 }), skimPhase := k.skimPhase + 1 }

/-- The reservations of a cluster in a frozen cycle: CYC counts on, the time they have waited does not (17 R384). -/
def tickFrozen (k : Cluster) : Cluster :=
  let later (r : Resv) : Resv := { r with taken := r.taken + 1 }
  { k with fareResv := k.fareResv.map later, issueResv := k.issueResv.map later }

/-- A pair's cycle while the device is frozen: CYC has counted on, and with it the windows (16 R345, 17 R384). -/
def frozenCycle (s : State) (p : Nat) : State :=
  windowBoundary (modCluster (modCluster s (2 * p) tickFrozen) (2 * p + 1) tickFrozen) (2 * p)

/-- A context's deadline budget after a cycle of its root team's cluster (15 R342). -/
def tickCtx (p : Nat) (c : Context) : Context :=
  if c.counting && pairOf c.rootCluster == p then { c with dlrem := c.dlrem - 1 } else c

/-- A grid's grace count after a cycle of its root team's cluster (01 R37). -/
def tickGrid (s : State) (p : Nat) (g : Grid) : Grid :=
  if g.domain && !g.graced && pairOf (ctxAt s g.ctx).rootCluster == p then { g with sinceDomain := g.sinceDomain + 1 } else g

/-- The ages of a wagon queue's rows after a cycle of its home cluster (09 R246, 15 R335). -/
def tickWagon (p : Nat) (q : Nat) (w : WagonQueue) : WagonQueue :=
  if pairOf (q % 24) = p then { w with rows := w.rows.map (fun r => { r with age := r.age + 1 }) } else w

/-- The counts that a freeze stops (17 R384). -/
def tickRest (ready : UnitId → Bool) (s : State) (p : Nat) : State :=
  { s with
    teams := tmap (fun _ t => tickTeam ready s p t) s.teams
    cores := tmap (fun c k => if inPair p c then tickCore k else k) s.cores
    contexts := tmap (fun _ c => tickCtx p c) s.contexts
    grids := tmap (fun _ g => tickGrid s p g) s.grids
    wagons := tmap (tickWagon p) s.wagons
    clusters := tmap (fun c k => if pairOf c = p then tickEngines k else k) s.clusters }

/-- Clusters of a pair after a cycle. -/
def tickPair (s : State) (p : Nat) : State :=
  modCluster (modCluster s (2 * p) tickCluster) (2 * p + 1) tickCluster

/-! ## What a cycle makes due -/

/-- The cores of a stack pair. -/
def pairCores (p : Nat) : List Nat := clusterCores (2 * p) ++ clusterCores (2 * p + 1)

/-- The purses of a pair act once in each cycle, if they have not yet: ring claims are made, and requests judged (16 R349, R357). -/
def purses (s : State) (p : Nat) : State :=
  (drawOrder s (2 * p + 1)).foldl purseStep (ringClaim (ringClaim s (2 * p)) (2 * p + 1))

/-- The units of a pair's teams, by core and group (01 R33). -/
def pairUnits (s : State) (p : Nat) : List UnitId :=
  (pairCores p).flatMap (fun c =>
    sortBy (fun a b => decide (a.idx ≤ b.idx)) ((s.teams.filter (fun t => t.2.core == c && standsOn t.2 c)).flatMap (fun t => unitIds t.2)))

/-- Reservations that the denials of a cycle bring about (01 R33). -/
def reservations (s : State) (p : Nat) : State := (pairUnits s p).foldl (fun s u => takeResv s u (unitAt s u).deniedFares) s

/-- Ramps and windows of a pair after a cycle (16 R345, R351-R353). -/
def currents (s : State) (p : Nat) : State :=
  let s1 := (pairCores p).foldl (fun s c => rampStep (rampDown s c) c) s
  let s2 := windowBoundary s1 (2 * p)
  (pairCores p).foldl burstLapse s2

/-- Deadlines that have run out in this cycle (15 R342). -/
def deadlines (s : State) : State := (tkeys s.contexts).foldl expireDeadline s

/-- One core cycle of a stack pair: what the cycle that ends still owes, the counts, and what they make due in the next. The clock of a
pair that changes its operating point stands at its quiesce point only (16 R358). While the device is frozen FARESTALL stands, and the mark
of a word that has written it in its cycle (log 47). -/
def tick (ready : UnitId → Bool) (s : State) (p : Nat) : State :=
  let s1 := tickPair (purses s p) p
  if frozen s then frozenCycle s1 p else deadlines (currents (reservations (tickRest ready s1 p) p) p)

/-- A queue's ageing count after a front-end cycle spent READY, and the rise of its level with the cycle the interval ends in
(15 R325). -/
def tickQueue (q : Queue) : Queue :=
  if q.phase = .ready then risen { q with aged := q.aged + 1 } else q

/-- Teardowns that waited for engine work complete (14 R305). -/
def endTeardowns (s : State) : State := (s.contexts.filter (fun c => c.2.teardownBy.isSome)).foldl (fun s c => checkTeardown s c.1) s

/-- One front-end cycle: what the dispatcher, its starts and the residency engine have yet to do in the one that ends, then the pair
pointer of the ring, the ageing of queues, and core 6's events and messages (15 R325, R333, 16 R349, 19 R396, R402). -/
def frontTick (s : State) : State :=
  let s1 := retryHolds (askTick (endTeardowns (layerTick (makeStarts (dispatch s)))))
  serveMail { s1 with
    fe := s1.fe + 1
    dispatched := false
    startedIn := []
    portTime := Config.portTime (s1.fe + 1)
    ring := { s1.ring with pairPtr := (s1.ring.pairPtr + 1) % Config.pairs }
    queues := tmap (fun _ q => tickQueue q) s1.queues }

end Sys2Proof.Machine
end

