-- ==== Sys2Proof/Machine/Issue.lean ====
section
/-! DEFINITION. Whose turn it is (log 2) and what a turn does: the issue of one word of a unit with its stalls (01 R20, 06 R128,
15 R340, R341, 16 R346), a fetched command or message, an event, or the passing of a cycle. -/

set_option linter.unusedVariables false

namespace Sys2Proof.Machine

/-! ## What a word waits for (06 R128) -/

/-- The main registers of a wagon push: its row, its result address and its handle (09 R245). -/
def pushRegs (s : State) (x : Ctx) : Instr → List Nat
  | .wpush v u h =>
    let kb := match (wagonAt s ((x.uni u).toNat % 64)).binding with
      | some b => b.kb
      | none => 32
    h.toNat :: regRange v.toNat (kb / 4 + 2)
  | _ => []

/-- The main registers a word names, or the k registers of a conductor's word (06 R131). -/
def wordV (s : State) (x : Ctx) (i : Instr) : List Nat :=
  let f := infoOf i
  match i with
  | .clauseTrailer va oa vb ob n =>
    let cs := commitsOf va oa vb ob n
    cs.map (·.1) ++ (if x.cond then (cs.map (·.2.toNat)).filter (fun o => decide (o ≤ 11)) else [])
  | _ => f.v ++ pushRegs s x i ++ mxRegs x.cl.hints i ++ (if x.cond then (f.o.map (·.toNat)).filter (fun o => decide (o ≤ 11)) else [])

/-- Whether a word reads or writes a register with an outstanding long-latency write (06 R128). -/
def regBusy (s : State) (x : Ctx) (i : Instr) : Bool :=
  let f := infoOf i
  let vs := wordV s x i
  let ps := pendingV s x.u
  let us := pendingS s x.u
  if x.cond then (vs ++ f.s).any (fun r => hasNat ps r || hasNat us r)
  else vs.any (hasNat ps) || f.s.any (hasNat us)

/-- Whether a flag the header waits for is pending (01 R20). -/
def flagsBusy (x : Ctx) : Bool :=
  (List.range 12).any (fun i => x.cl.wait.getLsbD i && tget 0 x.g.flags i != 0)

/-- The accesses of a word that reads or writes memory at its issue: their kind, space and size, and each lane's address. -/
def wordAddrs (x : Ctx) (i : Instr) : AccKind × Space × Nat × List (Nat × W64) :=
  let gen (a : OField) (base : Nat) (g : Guard) : List (Nat × W64) := (x.parts g).map (fun l => (l, x.uni64 base + sext64 (x.src l a)))
  match i with
  | .ld m t => (.read, m.space, loadBytes t, effAddrs x m 1)
  | .ldx m t => (.read, m.space, loadBytes t, effAddrs x m (loadBytes t))
  | .st m t => (.write, m.space, storeBytes t, effAddrs x m 1)
  | .stx m t => (.write, m.space, storeBytes t, effAddrs x m (storeBytes t))
  | .atom _ a u g _ k => (.atomic, .gen, atomBytes k, gen a u.toNat g)
  | .red _ a u g _ k => (.atomic, .gen, atomBytes k, gen a u.toNat g)
  | .best _ a u g _ _ => (.atomic, .gen, 64, gen a u.toNat g)
  | .ldq a _ g _ base => (.read, .gen, 4, (gen a (2 * base.toNat) g).take 1)
  | .waitf _ a _ _ g _ => (.read, .gen, 4, ((x.parts g).take 1).map (fun l => (l, x.src64 l a)))
  | _ => (.read, .gen, 1, [])

/-- The bytes of the record in the scratchpad that a word names, as far as they can be read (09 R226). -/
def recordAt (s : State) (x : Ctx) (q : SIdx) : List Byte :=
  match laneRes s x.u .read .spad 64 64 x.lead ((x.uni q).setWidth 64) with
  | .ok loc _ => locBytes s loc 64
  | _ => []

/-- The stencils that a word of an engine reads at its issue. -/
def stencilsOf (s : State) (x : Ctx) : Instr → List W64
  | .mma m => let b := parseParam 0 (recordAt s x m.s); [b.aSten, b.bSten]
  | .mmas m => let b := parseParam 0 (recordAt s x m.s); [b.aSten, b.bSten]
  | .gmma m => let b := parseParam 0 (recordAt s x m.s); [b.aSten, b.bSten]
  | .acepi q _ => [(parseEpi 0 (recordAt s x q)).dSten]
  | .copy _ q => [(parseCopy 0 (recordAt s x q)).src]
  | .gcopy _ q => [(parseCopy 0 (recordAt s x q)).src]
  | _ => []

/-- Whether a word of a group takes a release step at its issue, which publishes what its core has written (05 R107). -/
def publishesAll (i : Instr) : Bool :=
  match i with
  | .fence f => f == .dev || f == .sys
  | .phase _ => true
  | .atom _ _ _ _ r _ => ordered r
  | .red _ _ _ _ r _ => ordered r
  | .best _ _ _ _ r _ => ordered r
  | .barg _ _ _ => true
  | .bargRed _ _ _ _ _ => true
  | .spawn _ _ _ => true
  | .task _ _ _ => true
  | .mma _ => true
  | .mmas _ => true
  | .gmma _ => true
  | .acz _ => true
  | .acrd _ _ _ => true
  | .acld _ _ _ => true
  | .acst _ _ _ => true
  | .acepi _ _ => true
  | .copy _ _ => true
  | .gcopy _ _ => true
  | .geo _ _ _ => true
  | .art _ _ => true
  | .wpush _ _ _ => true
  | _ => false

/-- The stack pair of a physical address's home slice. -/
def homePair (a : Nat) : Nat := homeSlice a / 16

/-- The table entries a walk reads from a level's table on. -/
def walkReads (s : State) (va : Nat) : Nat → Nat → List Nat
  | 0, table => [table + 8 * levelIndex va 0]
  | l + 1, table =>
    (table + 8 * levelIndex va (l + 1)) :: (match walkEntry s va table (l + 1) with
      | .inl _ => []
      | .inr next => walkReads s va l next)

/-- The stack pairs that a translation reads table entries in; none where a cached leaf serves it (17 R365). -/
def walkPairs (s : State) (core ctx va : Nat) (kind : AccKind) : List Nat :=
  match walkFor s (some core) ctx va kind with
  | none => []
  | some (table, level) => (walkReads s va level table).map homePair

/-- The stack pairs an access reaches: those of its walk, and that of the place it comes to. -/
def accessPairs (s : State) (x : Ctx) (kind : AccKind) (space : Space) (size lane : Nat) (ea : W64) : List Nat :=
  let walks := match resolve s x.u lane space ea size with
    | .ok (.glob va) => walkPairs s x.t.core x.t.ctx va kind
    | _ => []
  match laneRes s x.u kind space size 1 lane ea with
  | .ok (.phys a) _ => homePair a :: walks
  | .ok (.spad t _) _ => pairOf (clusterOf (teamAt s t).core) :: walks
  | _ => walks

/-- Whether a word asks the front end, the residency engine or the depot, which stand outside every pair. -/
def asksOutside (i : Instr) : Bool :=
  match i with
  | .spawn _ _ _ => true
  | .task _ _ _ => true
  | .dfree _ _ => true
  | .dalloc _ _ _ => true
  | .lacq _ _ _ => true
  | .lacqFut _ _ => true
  | .lrel _ => true
  | .ltest _ _ => true
  | _ => false

/-- The stack pairs that the requests of a word reach: those of its accesses and of the records it reads, the homes of what its release
step publishes, and a wagon queue's cluster. The model words of art may lie anywhere. -/
def wordPairs (s : State) (x : Ctx) (i : Instr) : List Nat :=
  let w := wordAddrs x i
  w.2.2.2.flatMap (fun l => accessPairs s x w.1 w.2.1 w.2.2.1 l.1 l.2) ++
  (stencilsOf s x i).flatMap (fun a => accessPairs s x .read .gen 64 x.lead a) ++
  (if publishesAll i then (coreAt s x.t.core).unpub.map (fun e => homePair e.1) else []) ++
  (match i with
   | .wpush _ u _ => [pairOf ((x.uni u.toNat).toNat % 64 % 24)]
   | .art _ _ => allPairs
   | _ => [])

/-- The stack pairs whose boundaries requests cross from a core to the pairs they reach (16 R358). -/
def boundaries (core : Nat) (outside : Bool) (reached : List Nat) : List Nat :=
  let own := pairOf (clusterOf core)
  let far := reached.filter (· != own)
  if outside || far != [] then dedupNat (own :: far) else []

/-- Whether no boundary is closed and nothing is held at one. -/
def allOpen (s : State) : Bool := s.boundary.isEmpty && !pointChanges s

/-- The pairs that hold a word at their boundary. -/
def heldAt (s : State) (x : Ctx) (i : Instr) : List Nat :=
  if allOpen s then [] else heldPairs s (.unit x.u) (boundaries x.t.core (asksOutside i) (wordPairs s x i))

/-- The pairs that hold a fetch at their boundary: that of the word's home, where no instruction is kept at the core (log 46), and those of
its walk. -/
def fetchHeld (s : State) (x : Ctx) (va : Nat) : List Nat :=
  if allOpen s then []
  else
    let home := match peek s (some x.t.core) x.t.ctx va .execute with
      | .ok pa => [homePair pa]
      | _ => []
    heldPairs s (.unit x.u) (boundaries x.t.core false (home ++ walkPairs s x.t.core x.t.ctx va .execute))

/-! ## Fares of an issue (15 R341, 16 R346) -/

/-- Lane words that issue in both groups of a pair at once (log 21). -/
def isLaneWord : Instr → Bool
  | .shfl _ _ _ _ _ => true
  | .vote _ _ _ _ => true
  | .voteBallot _ _ _ => true
  | .laneMatch _ _ _ _ => true
  | .elect _ _ => true
  | .sred _ _ _ _ => true
  | .sscan _ _ _ _ => true
  | .sscanEx _ _ _ _ => true
  | _ => false

/-- The price of an issue, in sixteenths; conductor issues are free (07 R181). -/
def priceOf (s : State) (x : Ctx) (i : Instr) : Nat :=
  if x.cond then 0
  else
    let n := if isLaneWord i then ((laneGroup s x).getD [x]).length else 1
    (infoOf i).price * n

/-- A request of a core purse for the shortfall, rounded up to a multiple of 4 fares (16 R346). -/
def askFares (s : State) (x : Ctx) (p core : Nat) : State :=
  let c := clusterOf core
  let k := clusterAt s c
  if canPay s core p || k.requests.any (fun r => r.unit == some x.u && r.core == core) then s
  else
    modCluster s c (fun k =>
      { k with requests := k.requests ++
          [{ unit := some x.u, core := core, fares := shortfall s core p, ctx := x.t.ctx, since := k.cyc.toNat, price := p, vector := true }] })

/-- A price charged against the window. -/
def chargeCore (p : Nat) (s : State) (core : Nat) : State :=
  modCore s core (fun c => { c with purse := { c.purse with charged := c.purse.charged + p } })

/-! ## The turn of a unit -/

/-- What a turn does: a word or event with the state it acts on, a change without one, or nothing. -/
inductive Turned where
  | word (u : UnitId) (i : Instr) (s : State)
  | event (i : Instr) (s : State)
  | acts (s : State)
  | idle

/-- A decoded word, or the meaning of one no row allocates. -/
def decoded (w : W32) : Instr :=
  match decodeWord w with
  | .ok i => i
  | .error _ => .unallocatedEncoding

/-- The word at an address, fetched once no boundary holds its fetch (06 R121, 16 R358, 17 R365). -/
def fetchTurn (s : State) (x : Ctx) (va : Nat) (k : Instr → State → Turned) : Turned :=
  match fetchHeld s x va with
  | p :: ps => .acts (holdAsk s (.unit x.u) (p :: ps))
  | [] =>
    match fetchAt s x.u va with
    | .word w s1 => k (decoded w) s1
    | .fault v lv h => .acts (fetchFault s x.u v lv h)
    | .bad c sub a => .acts (trapDeliver s x.u (mkRec s x.u va x.cl.head c sub x.cl.mask a))

/-- A word of a clause that has begun: it waits for its registers, its pair's boundary and its fares. -/
def wordTurn (x : Ctx) (i : Instr) (s : State) : Turned :=
  let p := priceOf s x i
  let ps := heldAt s x i
  if regBusy s x i then .idle
  else if ps ≠ [] then .acts (holdAsk s (.unit x.u) ps)
  else if p = 0 ∨ (payers x.t).all (fun c => canPay s c p) then .word x.u i { s with focus := some x.u }
  else .acts ((payers x.t).foldl (fun s c => askFares s x p c) s)

/-- Whether a unit of a team that is being saved stays at its header: its run is at a boundary there (17 R381). -/
def staysAtHeader (x : Ctx) : Bool :=
  x.t.phase == .saving && (!x.cl.decoded || !x.cl.waited) && (if x.cond then groupsIdle x.t else x.g.drain)

/-- Whether a clause at handler level begins at a HENTRY that lies in no code object registered for the context (14 R309, log 46). -/
def strayHandler (s : State) (x : Ctx) : Bool :=
  let c := ctxAt s x.t.ctx
  x.g.handler.isSome && !x.cl.decoded && decide (x.cl.head = c.record.hentry) &&
  !c.objects.any (fun o => decide (o.codeBase ≤ c.record.hentry) && decide (c.record.hentry < o.codeBase + o.codeLen))

/-- The turn of a unit in a clause: its header is evaluated, then its flags are waited for, then its words issue in order. -/
def clauseTurn (s : State) (x : Ctx) : Turned :=
  if staysAtHeader x then .idle
  else if strayHandler s x then .acts (trapDeliver s x.u (mkRec s x.u x.cl.head x.cl.head .accessViolation 3 x.cl.mask (BitVec.ofNat 64 x.cl.head)))
  else if !x.cl.decoded then fetchTurn s x x.cl.head (fun i s1 => .word x.u i { s1 with focus := some x.u })
  else if !x.cl.waited && flagsBusy x then .idle
  else
    let cl := { x.cl with waited := true }
    let g := { x.g with clause := some cl }
    let x1 : Ctx := { x with cl := cl, g := g }
    fetchTurn (setUnit s x.u g) x1 x1.pc (fun i s1 => wordTurn x1 i s1)

/-- A unit that is held goes on when what it waits for has come: feed entries, room in a feed queue (01 R18). A word held for a
page waits for its REPLAY (17 R366). -/
def heldTurn (s : State) (u : UnitId) (h : Hold) : Turned :=
  match h with
  | .feed d g =>
    if (unitAt s u).feed ≠ [] then .word u (.feedDelivery u) s
    else if conductorGone (teamAt s u.team) then .word u (.feed d g) { s with focus := some u }
    else .idle
  | .fpush n _ => if queueFull s u.team n && !(unitAt s u).windDown then .idle else .word u (.fpushResume u.team) s
  | _ => .idle

/-- Whether a unit's deferred trap can be taken now (09 R223). -/
def deferredDue (g : Grp) : Bool :=
  match g.deferred with
  | [] => false
  | (r, _) :: _ => decide (deferredLanes g r ≠ []) && (deferredLanes g r).all (atHeader g)

/-- What a unit would do with its turn. While the device is frozen only the unit of a STEP issues (17 R384, R385). -/
def wantTurn (s : State) (u : UnitId) : Turned :=
  let g := unitAt s u
  let t := teamAt s u.team
  if (frozen s && s.supervisor.stepping != some u) || t.stopped || g.retired || !(t.phase == .running || t.phase == .saving) then .idle
  else
    match g.held with
    | some h => heldTurn s u h
    | none =>
      if deferredDue g then .word u (.deferredTrap u) s
      else
        match issuing { s with focus := some u } with
        | some x => clauseTurn s x
        | none => if maySelect s u then .word u (.selectRun u) s else .idle

/-- Whether a unit's word has met a stall of its own in this cycle (06 R128, 09 R230). -/
def hasTried (s : State) (u : UnitId) : Bool := (coreAt s (coreOf s u)).tried.any (· == u)

/-- Whether a unit has a word to issue, with no stall of its own (15 R340). -/
def readyUnit (s : State) (u : UnitId) : Bool :=
  !hasTried s u &&
  (match wantTurn s u with
   | .word _ _ _ => true
   | _ => false)

/-! ## Which ready group issues (15 R340, R341, 01 R33, 06 R144) -/

/-- Whether a turn takes an issue slot: headers, trailers and events take none. -/
def takesSlot : Instr → Bool
  | .clauseHeader _ _ _ _ => false
  | .clauseTrailer _ _ _ _ _ => false
  | .selectRun _ => false
  | .deferredTrap _ => false
  | .fpushResume _ => false
  | _ => true

/-- The issue slots of a core: its four quadrants, and 4 for its conductors. -/
def laneOf (s : State) (u : UnitId) : Nat := if isCond u then 4 else (unitAt s u).slot / 8

/-- A unit's place in the round robin of its issue slot. -/
def ringPlace (s : State) (u : UnitId) : Nat := if isCond u then (teamAt s u.team).conductorSlot else (unitAt s u).slot % 8

/-- A unit's price for the word it is ready to issue in its slot, or none when it is not ready or has tried in this cycle. -/
def readyPrice (s : State) (u : UnitId) : Option Nat :=
  if hasTried s u then none
  else
    match wantTurn s u with
    | .word _ i s1 =>
      if takesSlot i then
        match issuing { s1 with focus := some u } with
        | some x => some (priceOf s1 x i)
        | none => some 0
      else none
    | _ => none

/-- The units of one issue slot of a core. -/
def slotUnits (s : State) (core q : Nat) : List UnitId :=
  (allUnits s).filter (fun u => coreOf s u == core && laneOf s u == q && !(unitAt s u).retired)

/-- The unit that holds a cluster's active reservation for an issue slot: the first of the queue that still has its instruction to
issue (01 R33). -/
def issueHolder (s : State) (cluster : Nat) : Option UnitId :=
  ((clusterAt s cluster).issueResv.map (·.unit)).find? (fun u => (unitAt s u).clause.isSome)

/-- Whether a unit holds its cluster's active reservation of issue or of fares. -/
def holdsResv (s : State) (u : UnitId) : Bool :=
  let k := clusterOf (coreOf s u)
  issueHolder s k == some u || ((clusterAt s k).fareResv.map (·.unit)).head? == some u

/-- Steps from the unit an issue slot issued last to a place, round the ring. -/
def ringDist (s : State) (core q place : Nat) : Nat :=
  if q = 4 then (place + 4 - (coreAt s core).lastCond % 4 + 3) % 4
  else (place + 8 - tget (8 * q + 7) (coreAt s core).lastQuad q % 8 + 7) % 8

/-- The unit an issue slot chooses in this cycle: a ready one that holds a reservation, else the next in the ring; none once it has
issued. -/
def chosen (s : State) (core q : Nat) : Option UnitId :=
  if hasNat (coreAt s core).slotsUsed q then none
  else
    let rs := (slotUnits s core q).filter (fun u => (readyPrice s u).isSome)
    match rs.find? (holdsResv s) with
    | some u => some u
    | none => argMin (fun u => ringDist s core q (ringPlace s u)) rs

/-- The order in which a core purse grants the words chosen in one cycle: reservations first, then the quadrants from the quadrant
pointer, which advances by one every cycle (15 R341, log 46). -/
def grantOrder (s : State) (core : Nat) : List UnitId :=
  let ptr := clusterCyc s (clusterOf core) % 4
  let cs := (List.range 4).filterMap (fun i => chosen s core ((ptr + i) % 4))
  cs.filter (holdsResv s) ++ cs.filter (fun u => !holdsResv s u)

/-- Whether the purse still grants a word after the chosen words before it in the order. -/
def purseGrants (s : State) (core : Nat) (u : UnitId) : List UnitId → Nat → Bool
  | [], _ => true
  | v :: r, spent =>
    let p := (readyPrice s v).getD 0
    let fits := canPay s core (spent + p)
    if v = u then fits else purseGrants s core u r (if fits then spent + p else spent)

/-- Whether a unit's issue slot chooses it and no other unit of its cluster that is ready holds a reservation of issue (01 R33,
15 R340). -/
def takesTurn (s : State) (u : UnitId) : Bool :=
  let core := coreOf s u
  chosen s core (laneOf s u) == some u &&
  (match issueHolder s (clusterOf core) with
   | some v => v == u || (readyPrice s v).isNone
   | none => true)

/-- Whether a chosen word is granted by its core purse; a conductor's is free (07 R181). -/
def granted (s : State) (u : UnitId) : Bool := isCond u || purseGrants s (coreOf s u) u (grantOrder s (coreOf s u)) 0

/-- Whether a unit that is ready issues now: its turn has come and its purse grants its word. A STEP issues alone (17 R385). -/
def mayIssue (s : State) (u : UnitId) : Bool := s.supervisor.stepping == some u || (takesTurn s u && granted s u)

/-- A word that was chosen and is not granted: its quadrant issues nothing in this cycle, which its FARESTALL counts (15 R341). -/
def refuseWord (s : State) (u : UnitId) : State :=
  modCore s (coreOf s u) (fun k => { k with slotsUsed := laneOf s u :: k.slotsUsed, refused := u :: k.refused })

/-- The other words chosen with one that issues, as far as the purse does not grant them beside it (15 R341). -/
def refuseRest (before : State) (u : UnitId) (s : State) : State :=
  if isCond u || before.supervisor.stepping == some u then s
  else
    let vs := grantOrder before (coreOf before u)
    (vs.filter (fun v => v != u && !purseGrants before (coreOf before u) v vs 0)).foldl refuseWord s

/-- The turn of a unit: of the words that are ready, those that take an issue slot wait until they are chosen. -/
def issueTurn (s : State) (u : UnitId) : Turned :=
  match wantTurn s u with
  | .word v i s1 =>
    if !takesSlot i || mayIssue s u then .word v i s1
    else if takesTurn s u then .acts (refuseWord s u) else .idle
  | t => t

/-! ## After a word -/

/-- Where a unit stands in its clause. -/
def position (g : Grp) : Option (Nat × Nat × Bool) := g.clause.map (fun cl => (cl.head, cl.next, cl.decoded))

/-- A unit whose word has issued: its price is charged, and its denials and reservations end (01 R33). -/
def issuedUnit (p : Nat) (s : State) (u : UnitId) : State :=
  let t := teamAt s u.team
  let c := clusterOf t.core
  let s1 := if p = 0 then s else (payers t).foldl (chargeCore p) s
  let s2 := if thas t.units u.idx then
    modUnit s1 u (fun g => { g with issued := true, denied := 0, deniedFares := false }) else s1
  let s3 := { s2 with ring := { s2.ring with claims := s2.ring.claims.filter (fun r => r.unit != u) } }
  modCluster s3 c (fun k =>
    { k with
      requests := k.requests.filter (fun r => r.unit != some u)
      fareResv := k.fareResv.filter (fun r => r.unit != u)
      issueResv := k.issueResv.filter (fun r => r.unit != u) })

/-- An issue slot used: its quadrant, or the conductor slot, remembers what it issued (15 R340). -/
def useSlot (i : Instr) (s : State) (u : UnitId) : State :=
  if !takesSlot i then s
  else
    let slot := (unitAt s u).slot
    let q := laneOf s u
    modCore s (coreOf s u) (fun k =>
      if isCond u then { k with lastCond := (teamAt s u.team).conductorSlot, slotsUsed := q :: k.slotsUsed }
      else { k with lastQuad := tset k.lastQuad q slot, slotsUsed := q :: k.slotsUsed })

/-- A word that met a stall of its own when it was chosen: its slot goes to another group for the rest of the cycle. -/
def triedUnit (i : Instr) (s : State) (u : UnitId) : State :=
  if takesSlot i && thas s.teams u.team then
    modCore s (coreOf s u) (fun k => if k.tried.any (· == u) then k else { k with tried := u :: k.tried })
  else s

/-- Whether a turn took a trap: every trap is copied into the report ring (17 R383). -/
def trapped (before after : State) : Bool := before.supervisor.repCnt != after.supervisor.repCnt

/-- A step ends with the trap that it takes (17 R385). -/
def endStep (before : State) (u : UnitId) (s : State) : State :=
  if s.supervisor.stepping = some u ∧ trapped before s then { s with supervisor := { s.supervisor with stepping := none } } else s

/-- Whether a step of 17 R385 is over after a word: a header is evaluated with its first body word, and a trailer's commits are
made with its last. -/
def stepOver (i : Instr) (g : Grp) : Bool :=
  match g.clause with
  | none => true
  | some cl =>
    match i with
    | .selectRun _ => false
    | .clauseHeader _ _ _ _ => false
    | _ => cl.next != cl.len + 1

/-- The state after a unit's word or event: nothing is charged for one that has to wait. -/
def settled (before : State) (u : UnitId) (i : Instr) (after : State) : State :=
  let p := match issuing { before with focus := some u } with
    | some _ => if isCond u then 0 else (infoOf i).price
    | none => 0
  let after := if after.boundary.isEmpty then after else askPassed after (.unit u)
  let moved := (selUnits before u).filter (fun v => position (unitAt before v) != position (unitAt after v))
  let s0 := (if moved = [] then triedUnit i { after with focus := none } u else { after with focus := none })
  let s0 := if p ≠ 0 ∧ moved ≠ [] then refuseRest before u s0 else s0
  let s1 := endStep before u (holdBack before u (decide (moved ≠ [])) (moved.foldl (fun s v => issuedUnit p (useSlot i s v) v) s0))
  if s1.supervisor.stepping = some u ∧ moved ≠ [] ∧ stepOver i (unitAt s1 u) then
    { s1 with supervisor := { s1.supervisor with stepping := none } }
  else s1

/-! ## Turns -/

/-- What a turn does. -/
def turned (s : State) : Turn → Turned
  | .issue u => issueTurn s u
  | .divergence u lane addr => .acts (diverge s u lane addr)
  | .event i => .event i { s with focus := none }
  | .command =>
    match s.service with
    | some c => .event (decodeCommand c.bytes) s
    | none => .idle
  | .mailbox =>
    match s.mailbox.inService with
    | some m => .event (decodeMessage m) s
    | none => .idle
  | .cycle p => .acts (tick (readyUnit s) s p)
  | .frontCycle => .acts (frontTick s)

/-- A turn taken. -/
def runTurn (s : State) (t : Turn) : Out :=
  match turned s t with
  | .word u i s1 =>
    match exec i s1 with
    | .next s2 => .next (settled s1 u i s2)
    | o => o
  | .event i s1 => exec i s1
  | .acts s1 => .next (match t with
    | .issue u => endStep s u s1
    | _ => s1)
  | .idle => .next s

/-! ## Turns taken when the agenda is empty (log 2) -/

/-- Turns of a unit: its issue and the events of its operations. -/
def unitTurns (s : State) (u : UnitId) : List Turn :=
  let g := unitAt s u
  [.issue u, .event (.storeDrain u)] ++ g.loads.map (fun p => .event (.loadDataArrival u p.id)) ++
  g.blocked.flatMap (fun b => [.event (.waitTimeout u b.id), .event (.waitfSatisfied u b.id), .event (.sleepWake u b.id)]) ++
  [.event (.deferredTrap u), .event (.starvationReservation u .issue), .event (.starvationReservation u .fares)]

/-- Turns of a core's engines and timers. -/
def coreTurns (s : State) (c : Nat) : List Turn :=
  (coreOps (coreAt s c)).map (fun o => .event (.operandPin c o.id)) ++
  [.event (.gmmaPartArrival c), .event (.matrixOpStart c), .event (.matrixOpEnd c), .event (.copyStart c), .event (.copyComplete c),
   .event (.phaseAgeStep c), .event (.unifiedIntervalEnd c), .event (.rampStep c), .event (.rampDown c), .event (.burstLapse c)]

/-- Turns of a cluster. -/
def clusterTurns (s : State) (c : Nat) : List Turn :=
  (clusterAt s c).fills.map (fun f => .event (.tlbFill f.id)) ++
  [.event (.windowBoundary c), .event (.balanceSkim c), .event (.fareGrant c), .event (.ringClaim c), .event (.geoJobStart c),
   .event (.geoJobComplete c), .event (.artJobStart c), .event (.artBudgetExpiry c), .event (.artJobComplete c)]

/-- Turns of a team: its start, its saving and its resuming on any core, its end. -/
def teamTurns (t : Nat × Team) : List Turn :=
  match t.2.phase with
  | .placed => [.event (.teamStart t.1), .event (.teamRetirement t.1)]
  | .saving => [.event (.preemptTeam t.1), .event (.preemptionAbandon t.1), .event (.regcGrant t.1), .event (.teamRetirement t.1)]
  | .saved => .event (.teamRetirement t.1) :: (List.range Config.cores).map (fun c => .event (.teamResume t.1 c))
  | _ => [.event (.regcGrant t.1), .event (.teamRetirement t.1)]

/-- Turns of a context: its deadline and its layers. -/
def ctxTurns (c : Nat × Context) : List Turn :=
  .event (.deadlineExpiry c.1) ::
  c.2.models.flatMap (fun m => m.2.layers.flatMap (fun l =>
    if l.2.waiting then [.event (.layerPlacement c.1 m.1 l.1)]
    else if l.2.phase = .loading then [.event (.layerLoadComplete c.1 m.1 l.1)] else []))

/-- Every turn that something in the state may take. -/
def allTurns (s : State) : List Turn :=
  (allUnits s).flatMap (unitTurns s) ++
  s.teams.flatMap teamTurns ++
  (tkeys s.grids).flatMap (fun g => [.event (.graceExpiry g), .event (.gridRetirement g), .event (.poolDispatchStarvation g)]) ++
  (tkeys s.cores).flatMap (coreTurns s) ++ (tkeys s.clusters).flatMap (clusterTurns s) ++ s.contexts.flatMap ctxTurns ++
  (tkeys s.wagons).flatMap (fun q => [.event (.wagonAgeLimit q), .event (.wagonTaskCreate q)]) ++
  (tkeys s.queues).flatMap (fun q => [.event (.queueAgeing q), .event (.waitCommandSatisfied q)]) ++
  (tkeys s.stackPairs).map (fun p => .event (.quiescePoint p)) ++
  (List.range s.migrations.length).map (fun i => .event (.migrationLineCopy i)) ++
  s.invalidations.map (fun i => .event (.invalidation i.ctx i.va i.len)) ++
  (if s.faultBuf = [] ∧ s.serviceWait = [] then [] else [.event (.serviceBatch s.faultBuf.length)]) ++
  (s.teams.filter (fun t => t.2.phase == .running && (ctxAt s t.2.ctx).suspendBy.isSome)).map (fun t => .event (.preemptTeam t.1)) ++
  (match s.waysHeld with
   | some n => [.event (.pinnedWayChange n)]
   | none => []) ++
  [.event .frozenReached, .event .arbiterSelect, .command, .mailbox, .event .dispatchCycle] ++
  (List.range Config.pairs).map .cycle ++ [.frontCycle]

/-- A list rotated left. -/
def rotate (n : Nat) (l : List Turn) : List Turn := l.drop (n % (l.length + 1)) ++ l.take (n % (l.length + 1))

/-- The first turn of a list that changes the state. -/
def firstMove (s : State) : List Turn → Out
  | [] => .next s
  | t :: r =>
    match runTurn s t with
    | .next s1 => if s1 = s then firstMove s r else .next s1
    | o => o

/-- One move of the device when the agenda is empty: the turns follow each other round (log 2). -/
def fallback (s : State) : Out :=
  firstMove { s with idleTurn := s.idleTurn + 1 } (rotate s.idleTurn (allTurns s))

end Sys2Proof.Machine
end

