-- ==== Sys2Proof/Machine/Place.lean ====
section
/-! DEFINITION. A small placed machine: one running team of a context whose first gigabyte is mapped, with a clause that holds
one chosen word as the next word to issue. It stands for the load and launch that bring a program to run (log 5). -/

set_option linter.unusedVariables false

namespace Sys2Proof.Machine

/-- Where the placed clause's header lies, in physical and in virtual memory. -/
def placeHead : Nat := 0x4000

/-- The page tables of the placed context: the first gigabyte mapped at itself, writable and executable (17 R362, R363). -/
def placeTables (m : Mem) : Mem :=
  memWriteN (memWriteN m 0x1000 (natToBytes 8 0x2003)) 0x2000 (natToBytes 8 0x3D)

/-- A word that does nothing but write lt. -/
def idleWord : W32 := (encode (.add 15 15 15 ⟨0, false⟩)).getD 0

/-- A word that takes a hint of a kind (06 R137-R139). -/
def hintTaker : Nat → W32
  | 0 => (encode (.add 0 13 15 ⟨0, false⟩)).getD 0
  | 1 => (encode (.ld { v := 0, off := 15, pair := 0, guard := 0, space := .glb, flagB := false } .b32)).getD 0
  | _ => (encode (.fadd 0 15 15 ⟨0, false⟩)).getD 0

/-- The trailer without commits. -/
def idleTrailer : W32 := (encode (.clauseTrailer 0 0 0 0 0)).getD 0

/-- The words of the placed clause from its header on, and the index of the word that issues next. -/
def placeWords (w : W32) : List W32 × Nat × Nat :=
  let head (n : Nat) : W32 := (encode (.clauseHeader 0 0 1 (BitVec.ofNat 5 (n - 1)))).getD 0
  match majorNat w with
  | 0x3F => (w :: (List.replicate (Nat.min 24 (bitsAt w.toNat 5 1 + 1)) idleWord ++ [idleTrailer]), 0, 1)
  | 0x3D => ([head 1, idleWord, w], 2, 1)
  | 0x3C => ([head 2, w, hintTaker (bitsAt w.toNat 25 24), idleTrailer], 1, 2)
  | _ => ([head 1, w, idleTrailer], 1, 1)

/-- Memory with words at an address. -/
def placeMem (m : Mem) (a : Nat) : List W32 → Mem
  | [] => m
  | w :: ws => placeMem (memWriteN m a (natToBytes 4 w.toNat)) (a + 4) ws

/-- The unit that runs a word: the conductor for the words of conductor clauses alone, else group 0. -/
def placeUnit (w : W32) : Nat :=
  match decodeWord w with
  | .ok (.fpushU _ _ _) => 32
  | .ok (.fpushV _ _ _ _) => 32
  | .ok (.agen _ _ _ _ _) => 32
  | _ => 0

/-- The kernel of the placed team: every declaration at its greatest. -/
def placeKernel : KernelDesc :=
  { entry := placeHead, regBlocks := 32, barriers := 16, acc := 8, cls := 0, scratch := 65536, spill := 1024, codeBase := 0,
    dataBase := 0x8000, dataLen := 4096 }

/-- The placed clause. -/
def placeClause (w : W32) (u : Nat) : Clause :=
  let p := placeWords w
  { mask := if u = 32 then 1 else 0xFFFFFFFF, head := placeHead, decoded := p.2.1 != 0, len := p.2.2, next := p.2.1,
    setA := some 0, setB := some 1, waited := p.2.1 != 0 }

/-- The placed unit with its threads; handler level for the words of major 0x3B. -/
def placeGrp (w : W32) (u : Nat) : Grp :=
  { live := true, idx := u, slot := 0, share := 32,
    threads := (if u = 32 then [0] else List.range 32).map (fun l => (l, { live := true, pc := BitVec.ofNat 48 placeHead })),
    clause := some (placeClause w u),
    handler := if majorNat w = 0x3B then some { hmask := 0xFFFFFFFF, stopped := 0xFFFFFFFF } else none }

/-- The placed team: group 0, and its conductor where the word needs one. -/
def placeTeam (t g : Nat) (w : W32) : Team :=
  let u := placeUnit w
  let units : TMap Grp := if u = 32 then [(0, { placeGrp 0 0 with clause := none }), (32, placeGrp w 32)] else [(0, placeGrp w 0)]
  { uid := t, grid := g, ctx := 1, core := 0, phase := .running, kernel := placeKernel, groups := 1, privBytes := 1024, units := units }

/-- The placed context: ACTIVE, every cluster, its trap records and tables in the mapped gigabyte. -/
def placeCtx : Context :=
  { phase := .active, record := { ptroot := 0x1000, fareshare := 0xFFFF, clmask := 0xFFFFFF, trapbase := 0x10000 } }

/-- A state with one word as the next to issue. -/
def place (s : State) (w : W32) : State :=
  let g := s.nextUid
  let t := s.nextUid + 1
  let m := placeMem (placeTables s.mem) placeHead (placeWords w).1
  { s with
    nextUid := s.nextUid + 2
    agenda := [.issue ⟨t, placeUnit w⟩]
    mem := m
    contexts := tset s.contexts 1 placeCtx
    grids := tset s.grids g { uid := g, ctx := 1, gridid := 1, cls := 0, kernel := placeKernel, priv := 1024, nextTeam := 1 }
    teams := tset s.teams t (placeTeam t g w)
    cores := tset s.cores 0 { coreAt s 0 with cut := m, tlb := [], purse := { (coreAt s 0).purse with vector := 64, charged := 0 } }
    clusters := tset s.clusters 0 { clusterAt s 0 with tlb := [], walks := [] }
    stackPairs := tset s.stackPairs 0 { pairAt s 0 with pending := none }
    supervisor := { s.supervisor with freeze := false }
    badLines := []
    freshFrame := 16384 }

end Sys2Proof.Machine
end

