-- ==== Sys2Proof/Machine/Step.lean ====
section
/-! DEFINITION. One step: the head of the agenda, or the next turn of the round when the agenda is empty (log 2). -/

namespace Sys2Proof.Machine

/-- One step of the device. -/
def step (s : State) : Host.Outcome State Fault Refusal :=
  match s.agenda with
  | t :: r => runTurn { s with agenda := r } t
  | [] => fallback s

/-- The state in which one instruction word stands where the next step fetches and runs it (log 5). -/
def State.withFetchWord (s : State) (nbits w : Nat) : State := place s (BitVec.ofNat 32 (w % 2 ^ nbits))

end Sys2Proof.Machine
end

