-- ==== Sys2Proof/Laws/Encoding.lean ====
section
/-! SUPPORT. Forms and words: a word read in a form gives back the fields it was made of, and a form made of a word's fields gives
back the word (06 R132). -/

set_option linter.unusedVariables false
set_option linter.unusedSimpArgs false
set_option linter.unusedTactic false
set_option linter.unreachableTactic false

namespace Sys2Proof

theorem formA_word (x : FormA) : formA x.word = x := by
  cases x
  simp only [formA, FormA.word, FormA.mk.injEq]
  refine ⟨?_, ?_, ?_, ?_, ?_, ?_, ?_, ?_⟩ <;>
  · apply BitVec.eq_of_getLsbD_eq
    intro i hi
    simp only [BitVec.getLsbD_extractLsb', BitVec.getLsbD_append, hi, decide_true, Bool.true_and, Nat.add_sub_cancel_left]
    repeat' split
    all_goals first | omega | (congr 1; omega) | rfl | (exfalso; simp_all)

theorem word_formA (w : W32) : (formA w).word = w := by
  simp only [formA, FormA.word]
  apply BitVec.eq_of_getLsbD_eq
  intro i hi
  simp only [BitVec.getLsbD_extractLsb', BitVec.getLsbD_append]
  repeat' split
  all_goals (rw [decide_eq_true (by omega), Bool.true_and]; congr 1; omega)

theorem formS_word (x : FormS) : formS x.word = x := by
  cases x
  simp only [formS, FormS.word, FormS.mk.injEq]
  refine ⟨?_, ?_, ?_, ?_, ?_, ?_, ?_⟩ <;>
  · apply BitVec.eq_of_getLsbD_eq
    intro i hi
    simp only [BitVec.getLsbD_extractLsb', BitVec.getLsbD_append, hi, decide_true, Bool.true_and, Nat.add_sub_cancel_left]
    repeat' split
    all_goals first | omega | (congr 1; omega) | rfl | (exfalso; simp_all)

theorem word_formS (w : W32) : (formS w).word = w := by
  simp only [formS, FormS.word]
  apply BitVec.eq_of_getLsbD_eq
  intro i hi
  simp only [BitVec.getLsbD_extractLsb', BitVec.getLsbD_append]
  repeat' split
  all_goals (rw [decide_eq_true (by omega), Bool.true_and]; congr 1; omega)

theorem formI_word (x : FormI) : formI x.word = x := by
  cases x
  simp only [formI, FormI.word, FormI.mk.injEq]
  refine ⟨?_, ?_, ?_, ?_⟩ <;>
  · apply BitVec.eq_of_getLsbD_eq
    intro i hi
    simp only [BitVec.getLsbD_extractLsb', BitVec.getLsbD_append, hi, decide_true, Bool.true_and, Nat.add_sub_cancel_left]
    repeat' split
    all_goals first | omega | (congr 1; omega) | rfl | (exfalso; simp_all)

theorem word_formI (w : W32) : (formI w).word = w := by
  simp only [formI, FormI.word]
  apply BitVec.eq_of_getLsbD_eq
  intro i hi
  simp only [BitVec.getLsbD_extractLsb', BitVec.getLsbD_append]
  repeat' split
  all_goals (rw [decide_eq_true (by omega), Bool.true_and]; congr 1; omega)

theorem formV_word (x : FormV) : formV x.word = x := by
  cases x
  simp only [formV, FormV.word, FormV.mk.injEq]
  refine ⟨?_, ?_, ?_, ?_, ?_, ?_, ?_⟩ <;>
  · apply BitVec.eq_of_getLsbD_eq
    intro i hi
    simp only [BitVec.getLsbD_extractLsb', BitVec.getLsbD_append, hi, decide_true, Bool.true_and, Nat.add_sub_cancel_left]
    repeat' split
    all_goals first | omega | (congr 1; omega) | rfl | (exfalso; simp_all)

theorem word_formV (w : W32) : (formV w).word = w := by
  simp only [formV, FormV.word]
  apply BitVec.eq_of_getLsbD_eq
  intro i hi
  simp only [BitVec.getLsbD_extractLsb', BitVec.getLsbD_append]
  repeat' split
  all_goals (rw [decide_eq_true (by omega), Bool.true_and]; congr 1; omega)

theorem formM_word (x : FormM) : formM x.word = x := by
  cases x
  simp only [formM, FormM.word, FormM.mk.injEq]
  refine ⟨?_, ?_, ?_, ?_, ?_, ?_, ?_, ?_⟩ <;>
  · apply BitVec.eq_of_getLsbD_eq
    intro i hi
    simp only [BitVec.getLsbD_extractLsb', BitVec.getLsbD_append, hi, decide_true, Bool.true_and, Nat.add_sub_cancel_left]
    repeat' split
    all_goals first | omega | (congr 1; omega) | rfl | (exfalso; simp_all)

theorem word_formM (w : W32) : (formM w).word = w := by
  simp only [formM, FormM.word]
  apply BitVec.eq_of_getLsbD_eq
  intro i hi
  simp only [BitVec.getLsbD_extractLsb', BitVec.getLsbD_append]
  repeat' split
  all_goals (rw [decide_eq_true (by omega), Bool.true_and]; congr 1; omega)

theorem FormMX_word_major (x : FormMX) : x.word.extractLsb' 26 6 = x.major := by
  cases x
  simp only [FormMX.word]
  apply BitVec.eq_of_getLsbD_eq
  intro i hi
  simp only [BitVec.getLsbD_extractLsb', BitVec.getLsbD_append, hi, decide_true, Bool.true_and]
  repeat' split
  all_goals first | omega | (congr 1; omega) | rfl | (exfalso; simp_all)

theorem FormMX_word_fa (x : FormMX) : x.word.extractLsb' 21 5 = x.fa := by
  cases x
  simp only [FormMX.word]
  apply BitVec.eq_of_getLsbD_eq
  intro i hi
  simp only [BitVec.getLsbD_extractLsb', BitVec.getLsbD_append, hi, decide_true, Bool.true_and]
  repeat' split
  all_goals first | omega | (congr 1; omega) | rfl | (exfalso; simp_all)

theorem FormMX_word_fb (x : FormMX) : x.word.extractLsb' 16 5 = x.fb := by
  cases x
  simp only [FormMX.word]
  apply BitVec.eq_of_getLsbD_eq
  intro i hi
  simp only [BitVec.getLsbD_extractLsb', BitVec.getLsbD_append, hi, decide_true, Bool.true_and]
  repeat' split
  all_goals first | omega | (congr 1; omega) | rfl | (exfalso; simp_all)

theorem FormMX_word_acc (x : FormMX) : x.word.extractLsb' 13 3 = x.acc := by
  cases x
  simp only [FormMX.word]
  apply BitVec.eq_of_getLsbD_eq
  intro i hi
  simp only [BitVec.getLsbD_extractLsb', BitVec.getLsbD_append, hi, decide_true, Bool.true_and]
  repeat' split
  all_goals first | omega | (congr 1; omega) | rfl | (exfalso; simp_all)

theorem FormMX_word_m (x : FormMX) : x.word.extractLsb' 11 2 = x.m := by
  cases x
  simp only [FormMX.word]
  apply BitVec.eq_of_getLsbD_eq
  intro i hi
  simp only [BitVec.getLsbD_extractLsb', BitVec.getLsbD_append, hi, decide_true, Bool.true_and]
  repeat' split
  all_goals first | omega | (congr 1; omega) | rfl | (exfalso; simp_all)

theorem FormMX_word_n (x : FormMX) : x.word.extractLsb' 9 2 = x.n := by
  cases x
  simp only [FormMX.word]
  apply BitVec.eq_of_getLsbD_eq
  intro i hi
  simp only [BitVec.getLsbD_extractLsb', BitVec.getLsbD_append, hi, decide_true, Bool.true_and]
  repeat' split
  all_goals first | omega | (congr 1; omega) | rfl | (exfalso; simp_all)

theorem FormMX_word_k (x : FormMX) : x.word.extractLsb' 7 2 = x.k := by
  cases x
  simp only [FormMX.word]
  apply BitVec.eq_of_getLsbD_eq
  intro i hi
  simp only [BitVec.getLsbD_extractLsb', BitVec.getLsbD_append, hi, decide_true, Bool.true_and]
  repeat' split
  all_goals first | omega | (congr 1; omega) | rfl | (exfalso; simp_all)

theorem FormMX_word_s (x : FormMX) : x.word.extractLsb' 1 6 = x.s := by
  cases x
  simp only [FormMX.word]
  apply BitVec.eq_of_getLsbD_eq
  intro i hi
  simp only [BitVec.getLsbD_extractLsb', BitVec.getLsbD_append, hi, decide_true, Bool.true_and]
  repeat' split
  all_goals first | omega | (congr 1; omega) | rfl | (exfalso; simp_all)

theorem FormMX_word_flag (x : FormMX) : x.word.extractLsb' 0 1 = x.flag := by
  cases x
  simp only [FormMX.word]
  apply BitVec.eq_of_getLsbD_eq
  intro i hi
  simp only [BitVec.getLsbD_extractLsb', BitVec.getLsbD_append, hi, decide_true, Bool.true_and]
  repeat' split
  all_goals first | omega | (congr 1; omega) | rfl | (exfalso; simp_all)

theorem formMX_word (x : FormMX) : formMX x.word = x := by
  simp only [formMX, FormMX_word_major, FormMX_word_fa, FormMX_word_fb, FormMX_word_acc, FormMX_word_m, FormMX_word_n, FormMX_word_k, FormMX_word_s, FormMX_word_flag]

theorem word_formMX (w : W32) : (formMX w).word = w := by
  simp only [formMX, FormMX.word]
  apply BitVec.eq_of_getLsbD_eq
  intro i hi
  simp only [BitVec.getLsbD_extractLsb', BitVec.getLsbD_append]
  repeat' split
  all_goals (rw [decide_eq_true (by omega), Bool.true_and]; congr 1; omega)

theorem formB_word (x : FormB) : formB x.word = x := by
  cases x
  simp only [formB, FormB.word, FormB.mk.injEq]
  refine ⟨?_, ?_, ?_, ?_⟩ <;>
  · apply BitVec.eq_of_getLsbD_eq
    intro i hi
    simp only [BitVec.getLsbD_extractLsb', BitVec.getLsbD_append, hi, decide_true, Bool.true_and, Nat.add_sub_cancel_left]
    repeat' split
    all_goals first | omega | (congr 1; omega) | rfl | (exfalso; simp_all)

theorem word_formB (w : W32) : (formB w).word = w := by
  simp only [formB, FormB.word]
  apply BitVec.eq_of_getLsbD_eq
  intro i hi
  simp only [BitVec.getLsbD_extractLsb', BitVec.getLsbD_append]
  repeat' split
  all_goals (rw [decide_eq_true (by omega), Bool.true_and]; congr 1; omega)

theorem formL_word (x : FormL) : formL x.word = x := by
  cases x
  simp only [formL, FormL.word, FormL.mk.injEq]
  refine ⟨?_, ?_, ?_⟩ <;>
  · apply BitVec.eq_of_getLsbD_eq
    intro i hi
    simp only [BitVec.getLsbD_extractLsb', BitVec.getLsbD_append, hi, decide_true, Bool.true_and, Nat.add_sub_cancel_left]
    repeat' split
    all_goals first | omega | (congr 1; omega) | rfl | (exfalso; simp_all)

theorem word_formL (w : W32) : (formL w).word = w := by
  simp only [formL, FormL.word]
  apply BitVec.eq_of_getLsbD_eq
  intro i hi
  simp only [BitVec.getLsbD_extractLsb', BitVec.getLsbD_append]
  repeat' split
  all_goals (rw [decide_eq_true (by omega), Bool.true_and]; congr 1; omega)

theorem formE_word (x : FormE) : formE x.word = x := by
  cases x
  simp only [formE, FormE.word, FormE.mk.injEq]
  refine ⟨?_, ?_, ?_, ?_, ?_⟩ <;>
  · apply BitVec.eq_of_getLsbD_eq
    intro i hi
    simp only [BitVec.getLsbD_extractLsb', BitVec.getLsbD_append, hi, decide_true, Bool.true_and, Nat.add_sub_cancel_left]
    repeat' split
    all_goals first | omega | (congr 1; omega) | rfl | (exfalso; simp_all)

theorem word_formE (w : W32) : (formE w).word = w := by
  simp only [formE, FormE.word]
  apply BitVec.eq_of_getLsbD_eq
  intro i hi
  simp only [BitVec.getLsbD_extractLsb', BitVec.getLsbD_append]
  repeat' split
  all_goals (rw [decide_eq_true (by omega), Bool.true_and]; congr 1; omega)

theorem formH_word (x : FormH) : formH x.word = x := by
  cases x
  simp only [formH, FormH.word, FormH.mk.injEq]
  refine ⟨?_, ?_, ?_, ?_, ?_, ?_⟩ <;>
  · apply BitVec.eq_of_getLsbD_eq
    intro i hi
    simp only [BitVec.getLsbD_extractLsb', BitVec.getLsbD_append, hi, decide_true, Bool.true_and, Nat.add_sub_cancel_left]
    repeat' split
    all_goals first | omega | (congr 1; omega) | rfl | (exfalso; simp_all)

theorem word_formH (w : W32) : (formH w).word = w := by
  simp only [formH, FormH.word]
  apply BitVec.eq_of_getLsbD_eq
  intro i hi
  simp only [BitVec.getLsbD_extractLsb', BitVec.getLsbD_append]
  repeat' split
  all_goals (rw [decide_eq_true (by omega), Bool.true_and]; congr 1; omega)

theorem formT_word (x : FormT) : formT x.word = x := by
  cases x
  simp only [formT, FormT.word, FormT.mk.injEq]
  refine ⟨?_, ?_, ?_, ?_, ?_, ?_⟩ <;>
  · apply BitVec.eq_of_getLsbD_eq
    intro i hi
    simp only [BitVec.getLsbD_extractLsb', BitVec.getLsbD_append, hi, decide_true, Bool.true_and, Nat.add_sub_cancel_left]
    repeat' split
    all_goals first | omega | (congr 1; omega) | rfl | (exfalso; simp_all)

theorem word_formT (w : W32) : (formT w).word = w := by
  simp only [formT, FormT.word]
  apply BitVec.eq_of_getLsbD_eq
  intro i hi
  simp only [BitVec.getLsbD_extractLsb', BitVec.getLsbD_append]
  repeat' split
  all_goals (rw [decide_eq_true (by omega), Bool.true_and]; congr 1; omega)

theorem formX_word (x : FormX) : formX x.word = x := by
  cases x
  simp only [formX, FormX.word, FormX.mk.injEq]
  refine ⟨?_, ?_, ?_⟩ <;>
  · apply BitVec.eq_of_getLsbD_eq
    intro i hi
    simp only [BitVec.getLsbD_extractLsb', BitVec.getLsbD_append, hi, decide_true, Bool.true_and, Nat.add_sub_cancel_left]
    repeat' split
    all_goals first | omega | (congr 1; omega) | rfl | (exfalso; simp_all)

theorem word_formX (w : W32) : (formX w).word = w := by
  simp only [formX, FormX.word]
  apply BitVec.eq_of_getLsbD_eq
  intro i hi
  simp only [BitVec.getLsbD_extractLsb', BitVec.getLsbD_append]
  repeat' split
  all_goals (rw [decide_eq_true (by omega), Bool.true_and]; congr 1; omega)

theorem majorOf_formA (x : FormA) : majorOf x.word = x.major := congrArg FormA.major (formA_word x)

theorem majorOf_formS (x : FormS) : majorOf x.word = x.major := congrArg FormS.major (formS_word x)

theorem majorOf_formI (x : FormI) : majorOf x.word = x.major := congrArg FormI.major (formI_word x)

theorem majorOf_formV (x : FormV) : majorOf x.word = x.major := congrArg FormV.major (formV_word x)

theorem majorOf_formM (x : FormM) : majorOf x.word = x.major := congrArg FormM.major (formM_word x)

theorem majorOf_formMX (x : FormMX) : majorOf x.word = x.major := congrArg FormMX.major (formMX_word x)

theorem majorOf_formB (x : FormB) : majorOf x.word = x.major := congrArg FormB.major (formB_word x)

theorem majorOf_formL (x : FormL) : majorOf x.word = x.major := congrArg FormL.major (formL_word x)

theorem majorOf_formE (x : FormE) : majorOf x.word = x.major := congrArg FormE.major (formE_word x)

theorem majorOf_formH (x : FormH) : majorOf x.word = x.major := congrArg FormH.major (formH_word x)

theorem majorOf_formT (x : FormT) : majorOf x.word = x.major := congrArg FormT.major (formT_word x)

theorem majorOf_formX (x : FormX) : majorOf x.word = x.major := congrArg FormX.major (formX_word x)

theorem guardOf_bits (g : Guard) : guardOf g.pred g.negBit = g := by
  cases g with
  | mk p n => cases n <;> rfl

@[simp] theorem Cond.ofCode_code (k : Cond) : Cond.ofCode k.code = some k := by cases k <;> rfl

@[simp] theorem FCond.ofCode_code (k : FCond) : FCond.ofCode k.code = some k := by cases k <;> rfl

@[simp] theorem LeaScale.ofCode_code (k : LeaScale) : LeaScale.ofCode k.code = some k := by cases k <;> rfl

@[simp] theorem CvtKind.ofCode_code (k : CvtKind) : CvtKind.ofCode k.code = some k := by cases k <;> rfl

@[simp] theorem ShflMode.ofCode_code (k : ShflMode) : ShflMode.ofCode k.code = some k := by cases k <;> rfl

@[simp] theorem VoteKind.ofCode_code (k : VoteKind) : VoteKind.ofCode k.code = some k := by cases k <;> rfl

@[simp] theorem SectWidth.ofCode_code (k : SectWidth) : SectWidth.ofCode k.code = some k := by cases k <;> rfl

@[simp] theorem RedOp.ofCode_code (k : RedOp) : RedOp.ofCode k.code = some k := by cases k <;> rfl

@[simp] theorem BarOp.ofCode_code (k : BarOp) : BarOp.ofCode k.code = some k := by cases k <;> rfl

@[simp] theorem PlopOp.ofCode_code (k : PlopOp) : PlopOp.ofCode k.code = some k := by cases k <;> rfl

@[simp] theorem Space.ofCode_code (k : Space) : Space.ofCode k.code = some k := by cases k <;> rfl

@[simp] theorem LoadType.ofCode_code (k : LoadType) : LoadType.ofCode k.code = some k := by cases k <;> rfl

@[simp] theorem StoreType.ofCode_code (k : StoreType) : StoreType.ofCode k.code = some k := by cases k <;> rfl

@[simp] theorem AtomOp.ofCode_code (k : AtomOp) : AtomOp.ofCode k.code = some k := by cases k <;> rfl

@[simp] theorem AtomOrd.ofCode_code (k : AtomOrd) : AtomOrd.ofCode k.code = some k := by cases k <;> rfl

@[simp] theorem Scope.ofCode_code (k : Scope) : Scope.ofCode k.code = some k := by cases k <;> rfl

@[simp] theorem PhaseKind.ofCode_code (k : PhaseKind) : PhaseKind.ofCode k.code = some k := by cases k <;> rfl

end Sys2Proof
end

