-- ==== Sys2Proof/Laws/Maps.lean ====
section
/-! SUPPORT. Sparse maps: a read after a write, what a write leaves alone, and the order of keys. They hold of every list, in key
order or not. -/

namespace Sys2Proof.Machine

variable {α : Type}

@[simp] theorem tget?_nil (k : Nat) : tget? ([] : TMap α) k = none := rfl

theorem tget?_cons (e : Nat × α) (m : TMap α) (k : Nat) : tget? (e :: m) k = if e.1 = k then some e.2 else tget? m k := rfl

theorem tget?_terase_same (m : TMap α) (k : Nat) : tget? (terase m k) k = none := by
  induction m with
  | nil => rfl
  | cons e m ih =>
    by_cases h : e.1 = k
    · simpa [terase, h] using ih
    · simpa [terase, h, tget?_cons] using ih

theorem tget?_terase_ne (m : TMap α) {k j : Nat} (h : j ≠ k) : tget? (terase m k) j = tget? m j := by
  induction m with
  | nil => rfl
  | cons e m ih =>
    by_cases hk : e.1 = k
    · have hj : e.1 ≠ j := fun hj => h (hj.symm.trans hk)
      have hn : terase (e :: m) k = terase m k := by simp [terase, hk]
      rw [hn, ih, tget?_cons, if_neg hj]
    · have hc : terase (e :: m) k = e :: terase m k := by simp [terase, hk]
      rw [hc, tget?_cons, tget?_cons, ih]

theorem tget?_tinsert_ne (m : TMap α) {k j : Nat} (v : α) (h : j ≠ k) : tget? (tinsert m k v) j = tget? m j := by
  induction m with
  | nil => simp [tinsert, tget?_cons, Ne.symm h]
  | cons e m ih =>
    unfold tinsert
    split
    · simp [tget?_cons, Ne.symm h]
    · simp [tget?_cons, ih]

theorem tget?_tinsert_same (m : TMap α) (k : Nat) (v : α) (h : tget? m k = none) : tget? (tinsert m k v) k = some v := by
  induction m with
  | nil => simp [tinsert, tget?_cons]
  | cons e m ih =>
    rw [tget?_cons] at h
    split at h
    · exact absurd h (by simp)
    · rename_i hk
      unfold tinsert
      split
      · simp [tget?_cons]
      · rw [tget?_cons, if_neg hk]; exact ih h

@[simp] theorem tget?_tset_same (m : TMap α) (k : Nat) (v : α) : tget? (tset m k v) k = some v :=
  tget?_tinsert_same _ k v (tget?_terase_same m k)

theorem tget?_tset_ne (m : TMap α) {k j : Nat} (v : α) (h : j ≠ k) : tget? (tset m k v) j = tget? m j := by
  rw [tset, tget?_tinsert_ne _ v h, tget?_terase_ne m h]

theorem tget?_tset (m : TMap α) (k j : Nat) (v : α) : tget? (tset m k v) j = if j = k then some v else tget? m j := by
  split
  · rename_i h; subst h; exact tget?_tset_same m j v
  · rename_i h; exact tget?_tset_ne m v h

@[simp] theorem tget_tset_same (d : α) (m : TMap α) (k : Nat) (v : α) : tget d (tset m k v) k = v := by simp [tget]

theorem tget_tset_ne (d : α) (m : TMap α) {k j : Nat} (v : α) (h : j ≠ k) : tget d (tset m k v) j = tget d m j := by
  simp [tget, tget?_tset_ne m v h]

theorem tget_tset (d : α) (m : TMap α) (k j : Nat) (v : α) : tget d (tset m k v) j = if j = k then v else tget d m j := by
  simp only [tget, tget?_tset]; split <;> simp

@[simp] theorem thas_tset_same (m : TMap α) (k : Nat) (v : α) : thas (tset m k v) k = true := by simp [thas]

theorem tget?_tmap (f : Nat → α → α) (m : TMap α) (k : Nat) : tget? (tmap f m) k = (tget? m k).map (f k) := by
  induction m with
  | nil => rfl
  | cons e m ih =>
    have hc : tmap f (e :: m) = (e.1, f e.1 e.2) :: tmap f m := rfl
    rw [hc, tget?_cons, tget?_cons]
    split
    · rename_i h; simp only at h; subst h; rfl
    · exact ih

/-! ## Keys that rise -/

theorem keysRise_weaken (m : TMap α) {lo lo' : Nat} (h : lo' ≤ lo) (hm : keysRise lo m = true) : keysRise lo' m = true := by
  cases m with
  | nil => rfl
  | cons e m =>
    simp only [keysRise, Bool.and_eq_true, decide_eq_true_eq] at hm ⊢
    exact ⟨Nat.le_trans h hm.1, hm.2⟩

theorem keysRise_terase (m : TMap α) (k : Nat) {lo : Nat} (hm : keysRise lo m = true) : keysRise lo (terase m k) = true := by
  induction m generalizing lo with
  | nil => rfl
  | cons e m ih =>
    simp only [keysRise, Bool.and_eq_true, decide_eq_true_eq] at hm
    by_cases hk : e.1 = k
    · have hn : terase (e :: m) k = terase m k := by simp [terase, hk]
      rw [hn]; exact ih (keysRise_weaken m (by omega) hm.2)
    · have hc : terase (e :: m) k = e :: terase m k := by simp [terase, hk]
      rw [hc]
      simp only [keysRise, Bool.and_eq_true, decide_eq_true_eq]
      exact ⟨hm.1, ih hm.2⟩

theorem keysRise_tinsert (m : TMap α) (k : Nat) (v : α) {lo : Nat} (hk : lo ≤ k) (hn : tget? m k = none) (hm : keysRise lo m = true) :
    keysRise lo (tinsert m k v) = true := by
  induction m generalizing lo with
  | nil => simp [tinsert, keysRise, hk]
  | cons e m ih =>
    simp only [keysRise, Bool.and_eq_true, decide_eq_true_eq] at hm
    rw [tget?_cons] at hn
    split at hn
    · exact absurd hn (by simp)
    · rename_i he
      unfold tinsert
      split
      · rename_i hlt
        simp only [keysRise, Bool.and_eq_true, decide_eq_true_eq]
        exact ⟨hk, by omega, hm.2⟩
      · rename_i hlt
        simp only [keysRise, Bool.and_eq_true, decide_eq_true_eq]
        exact ⟨hm.1, ih (by omega) hn hm.2⟩

theorem keysRise_tset (m : TMap α) (k : Nat) (v : α) (hm : keysRise 0 m = true) : keysRise 0 (tset m k v) = true :=
  keysRise_tinsert _ k v (Nat.zero_le k) (tget?_terase_same m k) (keysRise_terase m k hm)

end Sys2Proof.Machine
end

