-- ==== Sys2Proof/Laws/Memory.lean ====
section
/-! SUPPORT. Memories: a read after a write, what a write leaves alone, and the canonical form, which every memory operation
keeps. -/

namespace Sys2Proof.Machine

theorem memRead_memWrite (m : Mem) (a b : Nat) (v : Byte) : memRead (memWrite m a v) b = if b = a then v else memRead m b := by
  unfold memWrite memRead
  split
  · rename_i hv
    by_cases h : b = a
    · subst h; simp [tget, tget?_terase_same, hv]
    · simp [tget, tget?_terase_ne m h, h]
  · exact tget_tset 0 m a b v

@[simp] theorem memRead_memWrite_same (m : Mem) (a : Nat) (v : Byte) : memRead (memWrite m a v) a = v := by
  simp [memRead_memWrite]

theorem memRead_memWrite_ne (m : Mem) {a b : Nat} (v : Byte) (h : b ≠ a) : memRead (memWrite m a v) b = memRead m b := by
  simp [memRead_memWrite, h]

/-! ## The canonical form -/

theorem all_terase (m : Mem) (k : Nat) (p : Host.Cell → Bool) (h : m.all p = true) : List.all (terase m k) p = true := by
  simp only [List.all_eq_true] at h ⊢
  intro e he
  exact h e (List.mem_of_mem_filter he)

theorem all_tinsert (m : Mem) (k : Nat) (v : Byte) (p : Host.Cell → Bool) (hv : p (k, v) = true) (h : m.all p = true) :
    List.all (tinsert m k v) p = true := by
  induction m with
  | nil => simp [tinsert, hv]
  | cons e m ih =>
    simp only [List.all_cons, Bool.and_eq_true] at h
    unfold tinsert
    split
    · simp [hv, h.1, h.2]
    · simp [h.1, ih h.2]

/-- One byte written keeps the canonical form. -/
theorem memWrite_wf (m : Mem) (a : Nat) (v : Byte) (h : Memory.wf m = true) : Memory.wf (memWrite m a v) = true := by
  simp only [Memory.wf, Bool.and_eq_true] at h ⊢
  unfold memWrite
  split
  · exact ⟨keysRise_terase m a h.1, all_terase m a _ h.2⟩
  · rename_i hv
    exact ⟨keysRise_tset m a v h.1, all_tinsert _ a v _ (by simpa using hv) (all_terase m a _ h.2)⟩

/-- Consecutive bytes written keep the canonical form. -/
theorem memWriteN_wf (bs : List Byte) (m : Mem) (a : Nat) (h : Memory.wf m = true) : Memory.wf (memWriteN m a bs) = true := by
  induction bs generalizing m a with
  | nil => exact h
  | cons b bs ih => exact ih (memWrite m a b) (a + 1) (memWrite_wf m a b h)

/-- Writes made in order keep the canonical form. -/
theorem memApply_wf (ws : Writes) (m : Mem) (h : Memory.wf m = true) : Memory.wf (memApply m ws) = true := by
  induction ws generalizing m with
  | nil => exact h
  | cons w ws ih => exact ih (memWrite m w.1 w.2) (memWrite_wf m w.1 w.2 h)

/-- The empty memory has the canonical form. -/
theorem mem_nil_wf : Memory.wf [] = true := rfl

/-- Reset's memory has the canonical form. -/
theorem reset_mem_wf : Memory.wf State.reset.mem = true := rfl

/-! ## Reads after writes -/

/-- Writes leave every other byte alone. -/
theorem memRead_memApply_other (ws : Writes) (m : Mem) (b : Nat) (h : ∀ w ∈ ws, w.1 ≠ b) : memRead (memApply m ws) b = memRead m b := by
  induction ws generalizing m with
  | nil => rfl
  | cons w ws ih =>
    have hw : b ≠ w.1 := fun e => h w (by simp) e.symm
    have hr : memApply m (w :: ws) = memApply (memWrite m w.1 w.2) ws := rfl
    rw [hr, ih (memWrite m w.1 w.2) (fun x hx => h x (by simp [hx])), memRead_memWrite_ne m w.2 hw]

theorem writesOf_bounds (bs : List Byte) (a : Nat) : ∀ w ∈ writesOf a bs, a ≤ w.1 ∧ w.1 < a + bs.length := by
  induction bs generalizing a with
  | nil => intro w hw; simp [writesOf] at hw
  | cons b bs ih =>
    intro w hw
    simp only [writesOf, List.mem_cons] at hw
    rcases hw with rfl | hw
    · simp
    · have := ih (a + 1) w hw
      simp only [List.length_cons]
      omega

/-- Bytes written are read back. -/
theorem memReadN_memApply_writesOf (bs : List Byte) (m : Mem) (a : Nat) : memReadN (memApply m (writesOf a bs)) a bs.length = bs := by
  induction bs generalizing m a with
  | nil => rfl
  | cons b bs ih =>
    have hr : memApply m (writesOf a (b :: bs)) = memApply (memWrite m a b) (writesOf (a + 1) bs) := rfl
    simp only [List.length_cons, memReadN]
    rw [hr, ih (memWrite m a b) (a + 1), memRead_memApply_other]
    · simp
    · intro w hw
      have := writesOf_bounds bs (a + 1) w hw
      omega

end Sys2Proof.Machine
end

