-- ==== Sys2Proof/Laws/State.lean ====
section
/-! SUPPORT. What each named update of State leaves alone, field by field, and what it reads back. -/

namespace Sys2Proof.Machine

/-! ## modCore -/

@[simp] theorem modCore_agenda (s : State) (c : Nat) (f : Core → Core) : (modCore s c f).agenda = s.agenda := rfl
@[simp] theorem modCore_focus (s : State) (c : Nat) (f : Core → Core) : (modCore s c f).focus = s.focus := rfl
@[simp] theorem modCore_nextUid (s : State) (c : Nat) (f : Core → Core) : (modCore s c f).nextUid = s.nextUid := rfl
@[simp] theorem modCore_freeCtr (s : State) (c : Nat) (f : Core → Core) : (modCore s c f).freeCtr = s.freeCtr := rfl
@[simp] theorem modCore_mem (s : State) (c : Nat) (f : Core → Core) : (modCore s c f).mem = s.mem := rfl
@[simp] theorem modCore_owned (s : State) (c : Nat) (f : Core → Core) : (modCore s c f).owned = s.owned := rfl
@[simp] theorem modCore_badLines (s : State) (c : Nat) (f : Core → Core) : (modCore s c f).badLines = s.badLines := rfl
@[simp] theorem modCore_clusters (s : State) (c : Nat) (f : Core → Core) : (modCore s c f).clusters = s.clusters := rfl
@[simp] theorem modCore_stackPairs (s : State) (c : Nat) (f : Core → Core) : (modCore s c f).stackPairs = s.stackPairs := rfl
@[simp] theorem modCore_boundary (s : State) (c : Nat) (f : Core → Core) : (modCore s c f).boundary = s.boundary := rfl
@[simp] theorem modCore_teams (s : State) (c : Nat) (f : Core → Core) : (modCore s c f).teams = s.teams := rfl
@[simp] theorem modCore_gangs (s : State) (c : Nat) (f : Core → Core) : (modCore s c f).gangs = s.gangs := rfl
@[simp] theorem modCore_grids (s : State) (c : Nat) (f : Core → Core) : (modCore s c f).grids = s.grids := rfl
@[simp] theorem modCore_gangOps (s : State) (c : Nat) (f : Core → Core) : (modCore s c f).gangOps = s.gangOps := rfl
@[simp] theorem modCore_contexts (s : State) (c : Nat) (f : Core → Core) : (modCore s c f).contexts = s.contexts := rfl
@[simp] theorem modCore_queues (s : State) (c : Nat) (f : Core → Core) : (modCore s c f).queues = s.queues := rfl
@[simp] theorem modCore_lastServed (s : State) (c : Nat) (f : Core → Core) : (modCore s c f).lastServed = s.lastServed := rfl
@[simp] theorem modCore_service (s : State) (c : Nat) (f : Core → Core) : (modCore s c f).service = s.service := rfl
@[simp] theorem modCore_readyPool (s : State) (c : Nat) (f : Core → Core) : (modCore s c f).readyPool = s.readyPool := rfl
@[simp] theorem modCore_dispatched (s : State) (c : Nat) (f : Core → Core) : (modCore s c f).dispatched = s.dispatched := rfl
@[simp] theorem modCore_startedIn (s : State) (c : Nat) (f : Core → Core) : (modCore s c f).startedIn = s.startedIn := rfl
@[simp] theorem modCore_gathering (s : State) (c : Nat) (f : Core → Core) : (modCore s c f).gathering = s.gathering := rfl
@[simp] theorem modCore_wagons (s : State) (c : Nat) (f : Core → Core) : (modCore s c f).wagons = s.wagons := rfl
@[simp] theorem modCore_pools (s : State) (c : Nat) (f : Core → Core) : (modCore s c f).pools = s.pools := rfl
@[simp] theorem modCore_pinnedWays (s : State) (c : Nat) (f : Core → Core) : (modCore s c f).pinnedWays = s.pinnedWays := rfl
@[simp] theorem modCore_waysHeld (s : State) (c : Nat) (f : Core → Core) : (modCore s c f).waysHeld = s.waysHeld := rfl
@[simp] theorem modCore_layerHeld (s : State) (c : Nat) (f : Core → Core) : (modCore s c f).layerHeld = s.layerHeld := rfl
@[simp] theorem modCore_layerSeq (s : State) (c : Nat) (f : Core → Core) : (modCore s c f).layerSeq = s.layerSeq := rfl
@[simp] theorem modCore_migrations (s : State) (c : Nat) (f : Core → Core) : (modCore s c f).migrations = s.migrations := rfl
@[simp] theorem modCore_backing (s : State) (c : Nat) (f : Core → Core) : (modCore s c f).backing = s.backing := rfl
@[simp] theorem modCore_faultBuf (s : State) (c : Nat) (f : Core → Core) : (modCore s c f).faultBuf = s.faultBuf := rfl
@[simp] theorem modCore_freeFrames (s : State) (c : Nat) (f : Core → Core) : (modCore s c f).freeFrames = s.freeFrames := rfl
@[simp] theorem modCore_freshFrame (s : State) (c : Nat) (f : Core → Core) : (modCore s c f).freshFrame = s.freshFrame := rfl
@[simp] theorem modCore_serviceWait (s : State) (c : Nat) (f : Core → Core) : (modCore s c f).serviceWait = s.serviceWait := rfl
@[simp] theorem modCore_evicting (s : State) (c : Nat) (f : Core → Core) : (modCore s c f).evicting = s.evicting := rfl
@[simp] theorem modCore_denials (s : State) (c : Nat) (f : Core → Core) : (modCore s c f).denials = s.denials := rfl
@[simp] theorem modCore_evicted (s : State) (c : Nat) (f : Core → Core) : (modCore s c f).evicted = s.evicted := rfl
@[simp] theorem modCore_invalidations (s : State) (c : Nat) (f : Core → Core) : (modCore s c f).invalidations = s.invalidations := rfl
@[simp] theorem modCore_fe (s : State) (c : Nat) (f : Core → Core) : (modCore s c f).fe = s.fe := rfl
@[simp] theorem modCore_ring (s : State) (c : Nat) (f : Core → Core) : (modCore s c f).ring = s.ring := rfl
@[simp] theorem modCore_policy (s : State) (c : Nat) (f : Core → Core) : (modCore s c f).policy = s.policy := rfl
@[simp] theorem modCore_supervisor (s : State) (c : Nat) (f : Core → Core) : (modCore s c f).supervisor = s.supervisor := rfl
@[simp] theorem modCore_mailbox (s : State) (c : Nat) (f : Core → Core) : (modCore s c f).mailbox = s.mailbox := rfl
@[simp] theorem modCore_windows (s : State) (c : Nat) (f : Core → Core) : (modCore s c f).windows = s.windows := rfl
@[simp] theorem modCore_qps (s : State) (c : Nat) (f : Core → Core) : (modCore s c f).qps = s.qps := rfl
@[simp] theorem modCore_qpErrors (s : State) (c : Nat) (f : Core → Core) : (modCore s c f).qpErrors = s.qpErrors := rfl
@[simp] theorem modCore_peerBinding (s : State) (c : Nat) (f : Core → Core) : (modCore s c f).peerBinding = s.peerBinding := rfl
@[simp] theorem modCore_peerPending (s : State) (c : Nat) (f : Core → Core) : (modCore s c f).peerPending = s.peerPending := rfl
@[simp] theorem modCore_peerWrites (s : State) (c : Nat) (f : Core → Core) : (modCore s c f).peerWrites = s.peerWrites := rfl
@[simp] theorem modCore_linkReads (s : State) (c : Nat) (f : Core → Core) : (modCore s c f).linkReads = s.linkReads := rfl
@[simp] theorem modCore_linkHeld (s : State) (c : Nat) (f : Core → Core) : (modCore s c f).linkHeld = s.linkHeld := rfl
@[simp] theorem modCore_boot (s : State) (c : Nat) (f : Core → Core) : (modCore s c f).boot = s.boot := rfl
@[simp] theorem modCore_images (s : State) (c : Nat) (f : Core → Core) : (modCore s c f).images = s.images := rfl
@[simp] theorem modCore_attestIndex (s : State) (c : Nat) (f : Core → Core) : (modCore s c f).attestIndex = s.attestIndex := rfl
@[simp] theorem modCore_health (s : State) (c : Nat) (f : Core → Core) : (modCore s c f).health = s.health := rfl
@[simp] theorem modCore_portTime (s : State) (c : Nat) (f : Core → Core) : (modCore s c f).portTime = s.portTime := rfl
@[simp] theorem modCore_memBytes (s : State) (c : Nat) (f : Core → Core) : (modCore s c f).memBytes = s.memBytes := rfl
@[simp] theorem modCore_idleTurn (s : State) (c : Nat) (f : Core → Core) : (modCore s c f).idleTurn = s.idleTurn := rfl

/-! ## modCluster -/

@[simp] theorem modCluster_agenda (s : State) (c : Nat) (f : Cluster → Cluster) : (modCluster s c f).agenda = s.agenda := rfl
@[simp] theorem modCluster_focus (s : State) (c : Nat) (f : Cluster → Cluster) : (modCluster s c f).focus = s.focus := rfl
@[simp] theorem modCluster_nextUid (s : State) (c : Nat) (f : Cluster → Cluster) : (modCluster s c f).nextUid = s.nextUid := rfl
@[simp] theorem modCluster_freeCtr (s : State) (c : Nat) (f : Cluster → Cluster) : (modCluster s c f).freeCtr = s.freeCtr := rfl
@[simp] theorem modCluster_mem (s : State) (c : Nat) (f : Cluster → Cluster) : (modCluster s c f).mem = s.mem := rfl
@[simp] theorem modCluster_owned (s : State) (c : Nat) (f : Cluster → Cluster) : (modCluster s c f).owned = s.owned := rfl
@[simp] theorem modCluster_badLines (s : State) (c : Nat) (f : Cluster → Cluster) : (modCluster s c f).badLines = s.badLines := rfl
@[simp] theorem modCluster_cores (s : State) (c : Nat) (f : Cluster → Cluster) : (modCluster s c f).cores = s.cores := rfl
@[simp] theorem modCluster_stackPairs (s : State) (c : Nat) (f : Cluster → Cluster) : (modCluster s c f).stackPairs = s.stackPairs := rfl
@[simp] theorem modCluster_boundary (s : State) (c : Nat) (f : Cluster → Cluster) : (modCluster s c f).boundary = s.boundary := rfl
@[simp] theorem modCluster_teams (s : State) (c : Nat) (f : Cluster → Cluster) : (modCluster s c f).teams = s.teams := rfl
@[simp] theorem modCluster_gangs (s : State) (c : Nat) (f : Cluster → Cluster) : (modCluster s c f).gangs = s.gangs := rfl
@[simp] theorem modCluster_grids (s : State) (c : Nat) (f : Cluster → Cluster) : (modCluster s c f).grids = s.grids := rfl
@[simp] theorem modCluster_gangOps (s : State) (c : Nat) (f : Cluster → Cluster) : (modCluster s c f).gangOps = s.gangOps := rfl
@[simp] theorem modCluster_contexts (s : State) (c : Nat) (f : Cluster → Cluster) : (modCluster s c f).contexts = s.contexts := rfl
@[simp] theorem modCluster_queues (s : State) (c : Nat) (f : Cluster → Cluster) : (modCluster s c f).queues = s.queues := rfl
@[simp] theorem modCluster_lastServed (s : State) (c : Nat) (f : Cluster → Cluster) : (modCluster s c f).lastServed = s.lastServed := rfl
@[simp] theorem modCluster_service (s : State) (c : Nat) (f : Cluster → Cluster) : (modCluster s c f).service = s.service := rfl
@[simp] theorem modCluster_readyPool (s : State) (c : Nat) (f : Cluster → Cluster) : (modCluster s c f).readyPool = s.readyPool := rfl
@[simp] theorem modCluster_dispatched (s : State) (c : Nat) (f : Cluster → Cluster) : (modCluster s c f).dispatched = s.dispatched := rfl
@[simp] theorem modCluster_startedIn (s : State) (c : Nat) (f : Cluster → Cluster) : (modCluster s c f).startedIn = s.startedIn := rfl
@[simp] theorem modCluster_gathering (s : State) (c : Nat) (f : Cluster → Cluster) : (modCluster s c f).gathering = s.gathering := rfl
@[simp] theorem modCluster_wagons (s : State) (c : Nat) (f : Cluster → Cluster) : (modCluster s c f).wagons = s.wagons := rfl
@[simp] theorem modCluster_pools (s : State) (c : Nat) (f : Cluster → Cluster) : (modCluster s c f).pools = s.pools := rfl
@[simp] theorem modCluster_pinnedWays (s : State) (c : Nat) (f : Cluster → Cluster) : (modCluster s c f).pinnedWays = s.pinnedWays := rfl
@[simp] theorem modCluster_waysHeld (s : State) (c : Nat) (f : Cluster → Cluster) : (modCluster s c f).waysHeld = s.waysHeld := rfl
@[simp] theorem modCluster_layerHeld (s : State) (c : Nat) (f : Cluster → Cluster) : (modCluster s c f).layerHeld = s.layerHeld := rfl
@[simp] theorem modCluster_layerSeq (s : State) (c : Nat) (f : Cluster → Cluster) : (modCluster s c f).layerSeq = s.layerSeq := rfl
@[simp] theorem modCluster_migrations (s : State) (c : Nat) (f : Cluster → Cluster) : (modCluster s c f).migrations = s.migrations := rfl
@[simp] theorem modCluster_backing (s : State) (c : Nat) (f : Cluster → Cluster) : (modCluster s c f).backing = s.backing := rfl
@[simp] theorem modCluster_faultBuf (s : State) (c : Nat) (f : Cluster → Cluster) : (modCluster s c f).faultBuf = s.faultBuf := rfl
@[simp] theorem modCluster_freeFrames (s : State) (c : Nat) (f : Cluster → Cluster) : (modCluster s c f).freeFrames = s.freeFrames := rfl
@[simp] theorem modCluster_freshFrame (s : State) (c : Nat) (f : Cluster → Cluster) : (modCluster s c f).freshFrame = s.freshFrame := rfl
@[simp] theorem modCluster_serviceWait (s : State) (c : Nat) (f : Cluster → Cluster) : (modCluster s c f).serviceWait = s.serviceWait := rfl
@[simp] theorem modCluster_evicting (s : State) (c : Nat) (f : Cluster → Cluster) : (modCluster s c f).evicting = s.evicting := rfl
@[simp] theorem modCluster_denials (s : State) (c : Nat) (f : Cluster → Cluster) : (modCluster s c f).denials = s.denials := rfl
@[simp] theorem modCluster_evicted (s : State) (c : Nat) (f : Cluster → Cluster) : (modCluster s c f).evicted = s.evicted := rfl
@[simp] theorem modCluster_invalidations (s : State) (c : Nat) (f : Cluster → Cluster) : (modCluster s c f).invalidations = s.invalidations := rfl
@[simp] theorem modCluster_fe (s : State) (c : Nat) (f : Cluster → Cluster) : (modCluster s c f).fe = s.fe := rfl
@[simp] theorem modCluster_ring (s : State) (c : Nat) (f : Cluster → Cluster) : (modCluster s c f).ring = s.ring := rfl
@[simp] theorem modCluster_policy (s : State) (c : Nat) (f : Cluster → Cluster) : (modCluster s c f).policy = s.policy := rfl
@[simp] theorem modCluster_supervisor (s : State) (c : Nat) (f : Cluster → Cluster) : (modCluster s c f).supervisor = s.supervisor := rfl
@[simp] theorem modCluster_mailbox (s : State) (c : Nat) (f : Cluster → Cluster) : (modCluster s c f).mailbox = s.mailbox := rfl
@[simp] theorem modCluster_windows (s : State) (c : Nat) (f : Cluster → Cluster) : (modCluster s c f).windows = s.windows := rfl
@[simp] theorem modCluster_qps (s : State) (c : Nat) (f : Cluster → Cluster) : (modCluster s c f).qps = s.qps := rfl
@[simp] theorem modCluster_qpErrors (s : State) (c : Nat) (f : Cluster → Cluster) : (modCluster s c f).qpErrors = s.qpErrors := rfl
@[simp] theorem modCluster_peerBinding (s : State) (c : Nat) (f : Cluster → Cluster) : (modCluster s c f).peerBinding = s.peerBinding := rfl
@[simp] theorem modCluster_peerPending (s : State) (c : Nat) (f : Cluster → Cluster) : (modCluster s c f).peerPending = s.peerPending := rfl
@[simp] theorem modCluster_peerWrites (s : State) (c : Nat) (f : Cluster → Cluster) : (modCluster s c f).peerWrites = s.peerWrites := rfl
@[simp] theorem modCluster_linkReads (s : State) (c : Nat) (f : Cluster → Cluster) : (modCluster s c f).linkReads = s.linkReads := rfl
@[simp] theorem modCluster_linkHeld (s : State) (c : Nat) (f : Cluster → Cluster) : (modCluster s c f).linkHeld = s.linkHeld := rfl
@[simp] theorem modCluster_boot (s : State) (c : Nat) (f : Cluster → Cluster) : (modCluster s c f).boot = s.boot := rfl
@[simp] theorem modCluster_images (s : State) (c : Nat) (f : Cluster → Cluster) : (modCluster s c f).images = s.images := rfl
@[simp] theorem modCluster_attestIndex (s : State) (c : Nat) (f : Cluster → Cluster) : (modCluster s c f).attestIndex = s.attestIndex := rfl
@[simp] theorem modCluster_health (s : State) (c : Nat) (f : Cluster → Cluster) : (modCluster s c f).health = s.health := rfl
@[simp] theorem modCluster_portTime (s : State) (c : Nat) (f : Cluster → Cluster) : (modCluster s c f).portTime = s.portTime := rfl
@[simp] theorem modCluster_memBytes (s : State) (c : Nat) (f : Cluster → Cluster) : (modCluster s c f).memBytes = s.memBytes := rfl
@[simp] theorem modCluster_idleTurn (s : State) (c : Nat) (f : Cluster → Cluster) : (modCluster s c f).idleTurn = s.idleTurn := rfl

/-! ## modPair -/

@[simp] theorem modPair_agenda (s : State) (p : Nat) (f : Pair → Pair) : (modPair s p f).agenda = s.agenda := rfl
@[simp] theorem modPair_focus (s : State) (p : Nat) (f : Pair → Pair) : (modPair s p f).focus = s.focus := rfl
@[simp] theorem modPair_nextUid (s : State) (p : Nat) (f : Pair → Pair) : (modPair s p f).nextUid = s.nextUid := rfl
@[simp] theorem modPair_freeCtr (s : State) (p : Nat) (f : Pair → Pair) : (modPair s p f).freeCtr = s.freeCtr := rfl
@[simp] theorem modPair_mem (s : State) (p : Nat) (f : Pair → Pair) : (modPair s p f).mem = s.mem := rfl
@[simp] theorem modPair_owned (s : State) (p : Nat) (f : Pair → Pair) : (modPair s p f).owned = s.owned := rfl
@[simp] theorem modPair_badLines (s : State) (p : Nat) (f : Pair → Pair) : (modPair s p f).badLines = s.badLines := rfl
@[simp] theorem modPair_cores (s : State) (p : Nat) (f : Pair → Pair) : (modPair s p f).cores = s.cores := rfl
@[simp] theorem modPair_clusters (s : State) (p : Nat) (f : Pair → Pair) : (modPair s p f).clusters = s.clusters := rfl
@[simp] theorem modPair_boundary (s : State) (p : Nat) (f : Pair → Pair) : (modPair s p f).boundary = s.boundary := rfl
@[simp] theorem modPair_teams (s : State) (p : Nat) (f : Pair → Pair) : (modPair s p f).teams = s.teams := rfl
@[simp] theorem modPair_gangs (s : State) (p : Nat) (f : Pair → Pair) : (modPair s p f).gangs = s.gangs := rfl
@[simp] theorem modPair_grids (s : State) (p : Nat) (f : Pair → Pair) : (modPair s p f).grids = s.grids := rfl
@[simp] theorem modPair_gangOps (s : State) (p : Nat) (f : Pair → Pair) : (modPair s p f).gangOps = s.gangOps := rfl
@[simp] theorem modPair_contexts (s : State) (p : Nat) (f : Pair → Pair) : (modPair s p f).contexts = s.contexts := rfl
@[simp] theorem modPair_queues (s : State) (p : Nat) (f : Pair → Pair) : (modPair s p f).queues = s.queues := rfl
@[simp] theorem modPair_lastServed (s : State) (p : Nat) (f : Pair → Pair) : (modPair s p f).lastServed = s.lastServed := rfl
@[simp] theorem modPair_service (s : State) (p : Nat) (f : Pair → Pair) : (modPair s p f).service = s.service := rfl
@[simp] theorem modPair_readyPool (s : State) (p : Nat) (f : Pair → Pair) : (modPair s p f).readyPool = s.readyPool := rfl
@[simp] theorem modPair_dispatched (s : State) (p : Nat) (f : Pair → Pair) : (modPair s p f).dispatched = s.dispatched := rfl
@[simp] theorem modPair_startedIn (s : State) (p : Nat) (f : Pair → Pair) : (modPair s p f).startedIn = s.startedIn := rfl
@[simp] theorem modPair_gathering (s : State) (p : Nat) (f : Pair → Pair) : (modPair s p f).gathering = s.gathering := rfl
@[simp] theorem modPair_wagons (s : State) (p : Nat) (f : Pair → Pair) : (modPair s p f).wagons = s.wagons := rfl
@[simp] theorem modPair_pools (s : State) (p : Nat) (f : Pair → Pair) : (modPair s p f).pools = s.pools := rfl
@[simp] theorem modPair_pinnedWays (s : State) (p : Nat) (f : Pair → Pair) : (modPair s p f).pinnedWays = s.pinnedWays := rfl
@[simp] theorem modPair_waysHeld (s : State) (p : Nat) (f : Pair → Pair) : (modPair s p f).waysHeld = s.waysHeld := rfl
@[simp] theorem modPair_layerHeld (s : State) (p : Nat) (f : Pair → Pair) : (modPair s p f).layerHeld = s.layerHeld := rfl
@[simp] theorem modPair_layerSeq (s : State) (p : Nat) (f : Pair → Pair) : (modPair s p f).layerSeq = s.layerSeq := rfl
@[simp] theorem modPair_migrations (s : State) (p : Nat) (f : Pair → Pair) : (modPair s p f).migrations = s.migrations := rfl
@[simp] theorem modPair_backing (s : State) (p : Nat) (f : Pair → Pair) : (modPair s p f).backing = s.backing := rfl
@[simp] theorem modPair_faultBuf (s : State) (p : Nat) (f : Pair → Pair) : (modPair s p f).faultBuf = s.faultBuf := rfl
@[simp] theorem modPair_freeFrames (s : State) (p : Nat) (f : Pair → Pair) : (modPair s p f).freeFrames = s.freeFrames := rfl
@[simp] theorem modPair_freshFrame (s : State) (p : Nat) (f : Pair → Pair) : (modPair s p f).freshFrame = s.freshFrame := rfl
@[simp] theorem modPair_serviceWait (s : State) (p : Nat) (f : Pair → Pair) : (modPair s p f).serviceWait = s.serviceWait := rfl
@[simp] theorem modPair_evicting (s : State) (p : Nat) (f : Pair → Pair) : (modPair s p f).evicting = s.evicting := rfl
@[simp] theorem modPair_denials (s : State) (p : Nat) (f : Pair → Pair) : (modPair s p f).denials = s.denials := rfl
@[simp] theorem modPair_evicted (s : State) (p : Nat) (f : Pair → Pair) : (modPair s p f).evicted = s.evicted := rfl
@[simp] theorem modPair_invalidations (s : State) (p : Nat) (f : Pair → Pair) : (modPair s p f).invalidations = s.invalidations := rfl
@[simp] theorem modPair_fe (s : State) (p : Nat) (f : Pair → Pair) : (modPair s p f).fe = s.fe := rfl
@[simp] theorem modPair_ring (s : State) (p : Nat) (f : Pair → Pair) : (modPair s p f).ring = s.ring := rfl
@[simp] theorem modPair_policy (s : State) (p : Nat) (f : Pair → Pair) : (modPair s p f).policy = s.policy := rfl
@[simp] theorem modPair_supervisor (s : State) (p : Nat) (f : Pair → Pair) : (modPair s p f).supervisor = s.supervisor := rfl
@[simp] theorem modPair_mailbox (s : State) (p : Nat) (f : Pair → Pair) : (modPair s p f).mailbox = s.mailbox := rfl
@[simp] theorem modPair_windows (s : State) (p : Nat) (f : Pair → Pair) : (modPair s p f).windows = s.windows := rfl
@[simp] theorem modPair_qps (s : State) (p : Nat) (f : Pair → Pair) : (modPair s p f).qps = s.qps := rfl
@[simp] theorem modPair_qpErrors (s : State) (p : Nat) (f : Pair → Pair) : (modPair s p f).qpErrors = s.qpErrors := rfl
@[simp] theorem modPair_peerBinding (s : State) (p : Nat) (f : Pair → Pair) : (modPair s p f).peerBinding = s.peerBinding := rfl
@[simp] theorem modPair_peerPending (s : State) (p : Nat) (f : Pair → Pair) : (modPair s p f).peerPending = s.peerPending := rfl
@[simp] theorem modPair_peerWrites (s : State) (p : Nat) (f : Pair → Pair) : (modPair s p f).peerWrites = s.peerWrites := rfl
@[simp] theorem modPair_linkReads (s : State) (p : Nat) (f : Pair → Pair) : (modPair s p f).linkReads = s.linkReads := rfl
@[simp] theorem modPair_linkHeld (s : State) (p : Nat) (f : Pair → Pair) : (modPair s p f).linkHeld = s.linkHeld := rfl
@[simp] theorem modPair_boot (s : State) (p : Nat) (f : Pair → Pair) : (modPair s p f).boot = s.boot := rfl
@[simp] theorem modPair_images (s : State) (p : Nat) (f : Pair → Pair) : (modPair s p f).images = s.images := rfl
@[simp] theorem modPair_attestIndex (s : State) (p : Nat) (f : Pair → Pair) : (modPair s p f).attestIndex = s.attestIndex := rfl
@[simp] theorem modPair_health (s : State) (p : Nat) (f : Pair → Pair) : (modPair s p f).health = s.health := rfl
@[simp] theorem modPair_portTime (s : State) (p : Nat) (f : Pair → Pair) : (modPair s p f).portTime = s.portTime := rfl
@[simp] theorem modPair_memBytes (s : State) (p : Nat) (f : Pair → Pair) : (modPair s p f).memBytes = s.memBytes := rfl
@[simp] theorem modPair_idleTurn (s : State) (p : Nat) (f : Pair → Pair) : (modPair s p f).idleTurn = s.idleTurn := rfl

/-! ## modTeam -/

@[simp] theorem modTeam_agenda (s : State) (t : Nat) (f : Team → Team) : (modTeam s t f).agenda = s.agenda := rfl
@[simp] theorem modTeam_focus (s : State) (t : Nat) (f : Team → Team) : (modTeam s t f).focus = s.focus := rfl
@[simp] theorem modTeam_nextUid (s : State) (t : Nat) (f : Team → Team) : (modTeam s t f).nextUid = s.nextUid := rfl
@[simp] theorem modTeam_freeCtr (s : State) (t : Nat) (f : Team → Team) : (modTeam s t f).freeCtr = s.freeCtr := rfl
@[simp] theorem modTeam_mem (s : State) (t : Nat) (f : Team → Team) : (modTeam s t f).mem = s.mem := rfl
@[simp] theorem modTeam_owned (s : State) (t : Nat) (f : Team → Team) : (modTeam s t f).owned = s.owned := rfl
@[simp] theorem modTeam_badLines (s : State) (t : Nat) (f : Team → Team) : (modTeam s t f).badLines = s.badLines := rfl
@[simp] theorem modTeam_cores (s : State) (t : Nat) (f : Team → Team) : (modTeam s t f).cores = s.cores := rfl
@[simp] theorem modTeam_clusters (s : State) (t : Nat) (f : Team → Team) : (modTeam s t f).clusters = s.clusters := rfl
@[simp] theorem modTeam_stackPairs (s : State) (t : Nat) (f : Team → Team) : (modTeam s t f).stackPairs = s.stackPairs := rfl
@[simp] theorem modTeam_boundary (s : State) (t : Nat) (f : Team → Team) : (modTeam s t f).boundary = s.boundary := rfl
@[simp] theorem modTeam_gangs (s : State) (t : Nat) (f : Team → Team) : (modTeam s t f).gangs = s.gangs := rfl
@[simp] theorem modTeam_grids (s : State) (t : Nat) (f : Team → Team) : (modTeam s t f).grids = s.grids := rfl
@[simp] theorem modTeam_gangOps (s : State) (t : Nat) (f : Team → Team) : (modTeam s t f).gangOps = s.gangOps := rfl
@[simp] theorem modTeam_contexts (s : State) (t : Nat) (f : Team → Team) : (modTeam s t f).contexts = s.contexts := rfl
@[simp] theorem modTeam_queues (s : State) (t : Nat) (f : Team → Team) : (modTeam s t f).queues = s.queues := rfl
@[simp] theorem modTeam_lastServed (s : State) (t : Nat) (f : Team → Team) : (modTeam s t f).lastServed = s.lastServed := rfl
@[simp] theorem modTeam_service (s : State) (t : Nat) (f : Team → Team) : (modTeam s t f).service = s.service := rfl
@[simp] theorem modTeam_readyPool (s : State) (t : Nat) (f : Team → Team) : (modTeam s t f).readyPool = s.readyPool := rfl
@[simp] theorem modTeam_dispatched (s : State) (t : Nat) (f : Team → Team) : (modTeam s t f).dispatched = s.dispatched := rfl
@[simp] theorem modTeam_startedIn (s : State) (t : Nat) (f : Team → Team) : (modTeam s t f).startedIn = s.startedIn := rfl
@[simp] theorem modTeam_gathering (s : State) (t : Nat) (f : Team → Team) : (modTeam s t f).gathering = s.gathering := rfl
@[simp] theorem modTeam_wagons (s : State) (t : Nat) (f : Team → Team) : (modTeam s t f).wagons = s.wagons := rfl
@[simp] theorem modTeam_pools (s : State) (t : Nat) (f : Team → Team) : (modTeam s t f).pools = s.pools := rfl
@[simp] theorem modTeam_pinnedWays (s : State) (t : Nat) (f : Team → Team) : (modTeam s t f).pinnedWays = s.pinnedWays := rfl
@[simp] theorem modTeam_waysHeld (s : State) (t : Nat) (f : Team → Team) : (modTeam s t f).waysHeld = s.waysHeld := rfl
@[simp] theorem modTeam_layerHeld (s : State) (t : Nat) (f : Team → Team) : (modTeam s t f).layerHeld = s.layerHeld := rfl
@[simp] theorem modTeam_layerSeq (s : State) (t : Nat) (f : Team → Team) : (modTeam s t f).layerSeq = s.layerSeq := rfl
@[simp] theorem modTeam_migrations (s : State) (t : Nat) (f : Team → Team) : (modTeam s t f).migrations = s.migrations := rfl
@[simp] theorem modTeam_backing (s : State) (t : Nat) (f : Team → Team) : (modTeam s t f).backing = s.backing := rfl
@[simp] theorem modTeam_faultBuf (s : State) (t : Nat) (f : Team → Team) : (modTeam s t f).faultBuf = s.faultBuf := rfl
@[simp] theorem modTeam_freeFrames (s : State) (t : Nat) (f : Team → Team) : (modTeam s t f).freeFrames = s.freeFrames := rfl
@[simp] theorem modTeam_freshFrame (s : State) (t : Nat) (f : Team → Team) : (modTeam s t f).freshFrame = s.freshFrame := rfl
@[simp] theorem modTeam_serviceWait (s : State) (t : Nat) (f : Team → Team) : (modTeam s t f).serviceWait = s.serviceWait := rfl
@[simp] theorem modTeam_evicting (s : State) (t : Nat) (f : Team → Team) : (modTeam s t f).evicting = s.evicting := rfl
@[simp] theorem modTeam_denials (s : State) (t : Nat) (f : Team → Team) : (modTeam s t f).denials = s.denials := rfl
@[simp] theorem modTeam_evicted (s : State) (t : Nat) (f : Team → Team) : (modTeam s t f).evicted = s.evicted := rfl
@[simp] theorem modTeam_invalidations (s : State) (t : Nat) (f : Team → Team) : (modTeam s t f).invalidations = s.invalidations := rfl
@[simp] theorem modTeam_fe (s : State) (t : Nat) (f : Team → Team) : (modTeam s t f).fe = s.fe := rfl
@[simp] theorem modTeam_ring (s : State) (t : Nat) (f : Team → Team) : (modTeam s t f).ring = s.ring := rfl
@[simp] theorem modTeam_policy (s : State) (t : Nat) (f : Team → Team) : (modTeam s t f).policy = s.policy := rfl
@[simp] theorem modTeam_supervisor (s : State) (t : Nat) (f : Team → Team) : (modTeam s t f).supervisor = s.supervisor := rfl
@[simp] theorem modTeam_mailbox (s : State) (t : Nat) (f : Team → Team) : (modTeam s t f).mailbox = s.mailbox := rfl
@[simp] theorem modTeam_windows (s : State) (t : Nat) (f : Team → Team) : (modTeam s t f).windows = s.windows := rfl
@[simp] theorem modTeam_qps (s : State) (t : Nat) (f : Team → Team) : (modTeam s t f).qps = s.qps := rfl
@[simp] theorem modTeam_qpErrors (s : State) (t : Nat) (f : Team → Team) : (modTeam s t f).qpErrors = s.qpErrors := rfl
@[simp] theorem modTeam_peerBinding (s : State) (t : Nat) (f : Team → Team) : (modTeam s t f).peerBinding = s.peerBinding := rfl
@[simp] theorem modTeam_peerPending (s : State) (t : Nat) (f : Team → Team) : (modTeam s t f).peerPending = s.peerPending := rfl
@[simp] theorem modTeam_peerWrites (s : State) (t : Nat) (f : Team → Team) : (modTeam s t f).peerWrites = s.peerWrites := rfl
@[simp] theorem modTeam_linkReads (s : State) (t : Nat) (f : Team → Team) : (modTeam s t f).linkReads = s.linkReads := rfl
@[simp] theorem modTeam_linkHeld (s : State) (t : Nat) (f : Team → Team) : (modTeam s t f).linkHeld = s.linkHeld := rfl
@[simp] theorem modTeam_boot (s : State) (t : Nat) (f : Team → Team) : (modTeam s t f).boot = s.boot := rfl
@[simp] theorem modTeam_images (s : State) (t : Nat) (f : Team → Team) : (modTeam s t f).images = s.images := rfl
@[simp] theorem modTeam_attestIndex (s : State) (t : Nat) (f : Team → Team) : (modTeam s t f).attestIndex = s.attestIndex := rfl
@[simp] theorem modTeam_health (s : State) (t : Nat) (f : Team → Team) : (modTeam s t f).health = s.health := rfl
@[simp] theorem modTeam_portTime (s : State) (t : Nat) (f : Team → Team) : (modTeam s t f).portTime = s.portTime := rfl
@[simp] theorem modTeam_memBytes (s : State) (t : Nat) (f : Team → Team) : (modTeam s t f).memBytes = s.memBytes := rfl
@[simp] theorem modTeam_idleTurn (s : State) (t : Nat) (f : Team → Team) : (modTeam s t f).idleTurn = s.idleTurn := rfl

/-! ## modGang -/

@[simp] theorem modGang_agenda (s : State) (g : Nat) (f : Gang → Gang) : (modGang s g f).agenda = s.agenda := rfl
@[simp] theorem modGang_focus (s : State) (g : Nat) (f : Gang → Gang) : (modGang s g f).focus = s.focus := rfl
@[simp] theorem modGang_nextUid (s : State) (g : Nat) (f : Gang → Gang) : (modGang s g f).nextUid = s.nextUid := rfl
@[simp] theorem modGang_freeCtr (s : State) (g : Nat) (f : Gang → Gang) : (modGang s g f).freeCtr = s.freeCtr := rfl
@[simp] theorem modGang_mem (s : State) (g : Nat) (f : Gang → Gang) : (modGang s g f).mem = s.mem := rfl
@[simp] theorem modGang_owned (s : State) (g : Nat) (f : Gang → Gang) : (modGang s g f).owned = s.owned := rfl
@[simp] theorem modGang_badLines (s : State) (g : Nat) (f : Gang → Gang) : (modGang s g f).badLines = s.badLines := rfl
@[simp] theorem modGang_cores (s : State) (g : Nat) (f : Gang → Gang) : (modGang s g f).cores = s.cores := rfl
@[simp] theorem modGang_clusters (s : State) (g : Nat) (f : Gang → Gang) : (modGang s g f).clusters = s.clusters := rfl
@[simp] theorem modGang_stackPairs (s : State) (g : Nat) (f : Gang → Gang) : (modGang s g f).stackPairs = s.stackPairs := rfl
@[simp] theorem modGang_boundary (s : State) (g : Nat) (f : Gang → Gang) : (modGang s g f).boundary = s.boundary := rfl
@[simp] theorem modGang_teams (s : State) (g : Nat) (f : Gang → Gang) : (modGang s g f).teams = s.teams := rfl
@[simp] theorem modGang_grids (s : State) (g : Nat) (f : Gang → Gang) : (modGang s g f).grids = s.grids := rfl
@[simp] theorem modGang_gangOps (s : State) (g : Nat) (f : Gang → Gang) : (modGang s g f).gangOps = s.gangOps := rfl
@[simp] theorem modGang_contexts (s : State) (g : Nat) (f : Gang → Gang) : (modGang s g f).contexts = s.contexts := rfl
@[simp] theorem modGang_queues (s : State) (g : Nat) (f : Gang → Gang) : (modGang s g f).queues = s.queues := rfl
@[simp] theorem modGang_lastServed (s : State) (g : Nat) (f : Gang → Gang) : (modGang s g f).lastServed = s.lastServed := rfl
@[simp] theorem modGang_service (s : State) (g : Nat) (f : Gang → Gang) : (modGang s g f).service = s.service := rfl
@[simp] theorem modGang_readyPool (s : State) (g : Nat) (f : Gang → Gang) : (modGang s g f).readyPool = s.readyPool := rfl
@[simp] theorem modGang_dispatched (s : State) (g : Nat) (f : Gang → Gang) : (modGang s g f).dispatched = s.dispatched := rfl
@[simp] theorem modGang_startedIn (s : State) (g : Nat) (f : Gang → Gang) : (modGang s g f).startedIn = s.startedIn := rfl
@[simp] theorem modGang_gathering (s : State) (g : Nat) (f : Gang → Gang) : (modGang s g f).gathering = s.gathering := rfl
@[simp] theorem modGang_wagons (s : State) (g : Nat) (f : Gang → Gang) : (modGang s g f).wagons = s.wagons := rfl
@[simp] theorem modGang_pools (s : State) (g : Nat) (f : Gang → Gang) : (modGang s g f).pools = s.pools := rfl
@[simp] theorem modGang_pinnedWays (s : State) (g : Nat) (f : Gang → Gang) : (modGang s g f).pinnedWays = s.pinnedWays := rfl
@[simp] theorem modGang_waysHeld (s : State) (g : Nat) (f : Gang → Gang) : (modGang s g f).waysHeld = s.waysHeld := rfl
@[simp] theorem modGang_layerHeld (s : State) (g : Nat) (f : Gang → Gang) : (modGang s g f).layerHeld = s.layerHeld := rfl
@[simp] theorem modGang_layerSeq (s : State) (g : Nat) (f : Gang → Gang) : (modGang s g f).layerSeq = s.layerSeq := rfl
@[simp] theorem modGang_migrations (s : State) (g : Nat) (f : Gang → Gang) : (modGang s g f).migrations = s.migrations := rfl
@[simp] theorem modGang_backing (s : State) (g : Nat) (f : Gang → Gang) : (modGang s g f).backing = s.backing := rfl
@[simp] theorem modGang_faultBuf (s : State) (g : Nat) (f : Gang → Gang) : (modGang s g f).faultBuf = s.faultBuf := rfl
@[simp] theorem modGang_freeFrames (s : State) (g : Nat) (f : Gang → Gang) : (modGang s g f).freeFrames = s.freeFrames := rfl
@[simp] theorem modGang_freshFrame (s : State) (g : Nat) (f : Gang → Gang) : (modGang s g f).freshFrame = s.freshFrame := rfl
@[simp] theorem modGang_serviceWait (s : State) (g : Nat) (f : Gang → Gang) : (modGang s g f).serviceWait = s.serviceWait := rfl
@[simp] theorem modGang_evicting (s : State) (g : Nat) (f : Gang → Gang) : (modGang s g f).evicting = s.evicting := rfl
@[simp] theorem modGang_denials (s : State) (g : Nat) (f : Gang → Gang) : (modGang s g f).denials = s.denials := rfl
@[simp] theorem modGang_evicted (s : State) (g : Nat) (f : Gang → Gang) : (modGang s g f).evicted = s.evicted := rfl
@[simp] theorem modGang_invalidations (s : State) (g : Nat) (f : Gang → Gang) : (modGang s g f).invalidations = s.invalidations := rfl
@[simp] theorem modGang_fe (s : State) (g : Nat) (f : Gang → Gang) : (modGang s g f).fe = s.fe := rfl
@[simp] theorem modGang_ring (s : State) (g : Nat) (f : Gang → Gang) : (modGang s g f).ring = s.ring := rfl
@[simp] theorem modGang_policy (s : State) (g : Nat) (f : Gang → Gang) : (modGang s g f).policy = s.policy := rfl
@[simp] theorem modGang_supervisor (s : State) (g : Nat) (f : Gang → Gang) : (modGang s g f).supervisor = s.supervisor := rfl
@[simp] theorem modGang_mailbox (s : State) (g : Nat) (f : Gang → Gang) : (modGang s g f).mailbox = s.mailbox := rfl
@[simp] theorem modGang_windows (s : State) (g : Nat) (f : Gang → Gang) : (modGang s g f).windows = s.windows := rfl
@[simp] theorem modGang_qps (s : State) (g : Nat) (f : Gang → Gang) : (modGang s g f).qps = s.qps := rfl
@[simp] theorem modGang_qpErrors (s : State) (g : Nat) (f : Gang → Gang) : (modGang s g f).qpErrors = s.qpErrors := rfl
@[simp] theorem modGang_peerBinding (s : State) (g : Nat) (f : Gang → Gang) : (modGang s g f).peerBinding = s.peerBinding := rfl
@[simp] theorem modGang_peerPending (s : State) (g : Nat) (f : Gang → Gang) : (modGang s g f).peerPending = s.peerPending := rfl
@[simp] theorem modGang_peerWrites (s : State) (g : Nat) (f : Gang → Gang) : (modGang s g f).peerWrites = s.peerWrites := rfl
@[simp] theorem modGang_linkReads (s : State) (g : Nat) (f : Gang → Gang) : (modGang s g f).linkReads = s.linkReads := rfl
@[simp] theorem modGang_linkHeld (s : State) (g : Nat) (f : Gang → Gang) : (modGang s g f).linkHeld = s.linkHeld := rfl
@[simp] theorem modGang_boot (s : State) (g : Nat) (f : Gang → Gang) : (modGang s g f).boot = s.boot := rfl
@[simp] theorem modGang_images (s : State) (g : Nat) (f : Gang → Gang) : (modGang s g f).images = s.images := rfl
@[simp] theorem modGang_attestIndex (s : State) (g : Nat) (f : Gang → Gang) : (modGang s g f).attestIndex = s.attestIndex := rfl
@[simp] theorem modGang_health (s : State) (g : Nat) (f : Gang → Gang) : (modGang s g f).health = s.health := rfl
@[simp] theorem modGang_portTime (s : State) (g : Nat) (f : Gang → Gang) : (modGang s g f).portTime = s.portTime := rfl
@[simp] theorem modGang_memBytes (s : State) (g : Nat) (f : Gang → Gang) : (modGang s g f).memBytes = s.memBytes := rfl
@[simp] theorem modGang_idleTurn (s : State) (g : Nat) (f : Gang → Gang) : (modGang s g f).idleTurn = s.idleTurn := rfl

/-! ## modGrid -/

@[simp] theorem modGrid_agenda (s : State) (g : Nat) (f : Grid → Grid) : (modGrid s g f).agenda = s.agenda := rfl
@[simp] theorem modGrid_focus (s : State) (g : Nat) (f : Grid → Grid) : (modGrid s g f).focus = s.focus := rfl
@[simp] theorem modGrid_nextUid (s : State) (g : Nat) (f : Grid → Grid) : (modGrid s g f).nextUid = s.nextUid := rfl
@[simp] theorem modGrid_freeCtr (s : State) (g : Nat) (f : Grid → Grid) : (modGrid s g f).freeCtr = s.freeCtr := rfl
@[simp] theorem modGrid_mem (s : State) (g : Nat) (f : Grid → Grid) : (modGrid s g f).mem = s.mem := rfl
@[simp] theorem modGrid_owned (s : State) (g : Nat) (f : Grid → Grid) : (modGrid s g f).owned = s.owned := rfl
@[simp] theorem modGrid_badLines (s : State) (g : Nat) (f : Grid → Grid) : (modGrid s g f).badLines = s.badLines := rfl
@[simp] theorem modGrid_cores (s : State) (g : Nat) (f : Grid → Grid) : (modGrid s g f).cores = s.cores := rfl
@[simp] theorem modGrid_clusters (s : State) (g : Nat) (f : Grid → Grid) : (modGrid s g f).clusters = s.clusters := rfl
@[simp] theorem modGrid_stackPairs (s : State) (g : Nat) (f : Grid → Grid) : (modGrid s g f).stackPairs = s.stackPairs := rfl
@[simp] theorem modGrid_boundary (s : State) (g : Nat) (f : Grid → Grid) : (modGrid s g f).boundary = s.boundary := rfl
@[simp] theorem modGrid_teams (s : State) (g : Nat) (f : Grid → Grid) : (modGrid s g f).teams = s.teams := rfl
@[simp] theorem modGrid_gangs (s : State) (g : Nat) (f : Grid → Grid) : (modGrid s g f).gangs = s.gangs := rfl
@[simp] theorem modGrid_gangOps (s : State) (g : Nat) (f : Grid → Grid) : (modGrid s g f).gangOps = s.gangOps := rfl
@[simp] theorem modGrid_contexts (s : State) (g : Nat) (f : Grid → Grid) : (modGrid s g f).contexts = s.contexts := rfl
@[simp] theorem modGrid_queues (s : State) (g : Nat) (f : Grid → Grid) : (modGrid s g f).queues = s.queues := rfl
@[simp] theorem modGrid_lastServed (s : State) (g : Nat) (f : Grid → Grid) : (modGrid s g f).lastServed = s.lastServed := rfl
@[simp] theorem modGrid_service (s : State) (g : Nat) (f : Grid → Grid) : (modGrid s g f).service = s.service := rfl
@[simp] theorem modGrid_readyPool (s : State) (g : Nat) (f : Grid → Grid) : (modGrid s g f).readyPool = s.readyPool := rfl
@[simp] theorem modGrid_dispatched (s : State) (g : Nat) (f : Grid → Grid) : (modGrid s g f).dispatched = s.dispatched := rfl
@[simp] theorem modGrid_startedIn (s : State) (g : Nat) (f : Grid → Grid) : (modGrid s g f).startedIn = s.startedIn := rfl
@[simp] theorem modGrid_gathering (s : State) (g : Nat) (f : Grid → Grid) : (modGrid s g f).gathering = s.gathering := rfl
@[simp] theorem modGrid_wagons (s : State) (g : Nat) (f : Grid → Grid) : (modGrid s g f).wagons = s.wagons := rfl
@[simp] theorem modGrid_pools (s : State) (g : Nat) (f : Grid → Grid) : (modGrid s g f).pools = s.pools := rfl
@[simp] theorem modGrid_pinnedWays (s : State) (g : Nat) (f : Grid → Grid) : (modGrid s g f).pinnedWays = s.pinnedWays := rfl
@[simp] theorem modGrid_waysHeld (s : State) (g : Nat) (f : Grid → Grid) : (modGrid s g f).waysHeld = s.waysHeld := rfl
@[simp] theorem modGrid_layerHeld (s : State) (g : Nat) (f : Grid → Grid) : (modGrid s g f).layerHeld = s.layerHeld := rfl
@[simp] theorem modGrid_layerSeq (s : State) (g : Nat) (f : Grid → Grid) : (modGrid s g f).layerSeq = s.layerSeq := rfl
@[simp] theorem modGrid_migrations (s : State) (g : Nat) (f : Grid → Grid) : (modGrid s g f).migrations = s.migrations := rfl
@[simp] theorem modGrid_backing (s : State) (g : Nat) (f : Grid → Grid) : (modGrid s g f).backing = s.backing := rfl
@[simp] theorem modGrid_faultBuf (s : State) (g : Nat) (f : Grid → Grid) : (modGrid s g f).faultBuf = s.faultBuf := rfl
@[simp] theorem modGrid_freeFrames (s : State) (g : Nat) (f : Grid → Grid) : (modGrid s g f).freeFrames = s.freeFrames := rfl
@[simp] theorem modGrid_freshFrame (s : State) (g : Nat) (f : Grid → Grid) : (modGrid s g f).freshFrame = s.freshFrame := rfl
@[simp] theorem modGrid_serviceWait (s : State) (g : Nat) (f : Grid → Grid) : (modGrid s g f).serviceWait = s.serviceWait := rfl
@[simp] theorem modGrid_evicting (s : State) (g : Nat) (f : Grid → Grid) : (modGrid s g f).evicting = s.evicting := rfl
@[simp] theorem modGrid_denials (s : State) (g : Nat) (f : Grid → Grid) : (modGrid s g f).denials = s.denials := rfl
@[simp] theorem modGrid_evicted (s : State) (g : Nat) (f : Grid → Grid) : (modGrid s g f).evicted = s.evicted := rfl
@[simp] theorem modGrid_invalidations (s : State) (g : Nat) (f : Grid → Grid) : (modGrid s g f).invalidations = s.invalidations := rfl
@[simp] theorem modGrid_fe (s : State) (g : Nat) (f : Grid → Grid) : (modGrid s g f).fe = s.fe := rfl
@[simp] theorem modGrid_ring (s : State) (g : Nat) (f : Grid → Grid) : (modGrid s g f).ring = s.ring := rfl
@[simp] theorem modGrid_policy (s : State) (g : Nat) (f : Grid → Grid) : (modGrid s g f).policy = s.policy := rfl
@[simp] theorem modGrid_supervisor (s : State) (g : Nat) (f : Grid → Grid) : (modGrid s g f).supervisor = s.supervisor := rfl
@[simp] theorem modGrid_mailbox (s : State) (g : Nat) (f : Grid → Grid) : (modGrid s g f).mailbox = s.mailbox := rfl
@[simp] theorem modGrid_windows (s : State) (g : Nat) (f : Grid → Grid) : (modGrid s g f).windows = s.windows := rfl
@[simp] theorem modGrid_qps (s : State) (g : Nat) (f : Grid → Grid) : (modGrid s g f).qps = s.qps := rfl
@[simp] theorem modGrid_qpErrors (s : State) (g : Nat) (f : Grid → Grid) : (modGrid s g f).qpErrors = s.qpErrors := rfl
@[simp] theorem modGrid_peerBinding (s : State) (g : Nat) (f : Grid → Grid) : (modGrid s g f).peerBinding = s.peerBinding := rfl
@[simp] theorem modGrid_peerPending (s : State) (g : Nat) (f : Grid → Grid) : (modGrid s g f).peerPending = s.peerPending := rfl
@[simp] theorem modGrid_peerWrites (s : State) (g : Nat) (f : Grid → Grid) : (modGrid s g f).peerWrites = s.peerWrites := rfl
@[simp] theorem modGrid_linkReads (s : State) (g : Nat) (f : Grid → Grid) : (modGrid s g f).linkReads = s.linkReads := rfl
@[simp] theorem modGrid_linkHeld (s : State) (g : Nat) (f : Grid → Grid) : (modGrid s g f).linkHeld = s.linkHeld := rfl
@[simp] theorem modGrid_boot (s : State) (g : Nat) (f : Grid → Grid) : (modGrid s g f).boot = s.boot := rfl
@[simp] theorem modGrid_images (s : State) (g : Nat) (f : Grid → Grid) : (modGrid s g f).images = s.images := rfl
@[simp] theorem modGrid_attestIndex (s : State) (g : Nat) (f : Grid → Grid) : (modGrid s g f).attestIndex = s.attestIndex := rfl
@[simp] theorem modGrid_health (s : State) (g : Nat) (f : Grid → Grid) : (modGrid s g f).health = s.health := rfl
@[simp] theorem modGrid_portTime (s : State) (g : Nat) (f : Grid → Grid) : (modGrid s g f).portTime = s.portTime := rfl
@[simp] theorem modGrid_memBytes (s : State) (g : Nat) (f : Grid → Grid) : (modGrid s g f).memBytes = s.memBytes := rfl
@[simp] theorem modGrid_idleTurn (s : State) (g : Nat) (f : Grid → Grid) : (modGrid s g f).idleTurn = s.idleTurn := rfl

/-! ## modCtx -/

@[simp] theorem modCtx_agenda (s : State) (c : Nat) (f : Context → Context) : (modCtx s c f).agenda = s.agenda := rfl
@[simp] theorem modCtx_focus (s : State) (c : Nat) (f : Context → Context) : (modCtx s c f).focus = s.focus := rfl
@[simp] theorem modCtx_nextUid (s : State) (c : Nat) (f : Context → Context) : (modCtx s c f).nextUid = s.nextUid := rfl
@[simp] theorem modCtx_freeCtr (s : State) (c : Nat) (f : Context → Context) : (modCtx s c f).freeCtr = s.freeCtr := rfl
@[simp] theorem modCtx_mem (s : State) (c : Nat) (f : Context → Context) : (modCtx s c f).mem = s.mem := rfl
@[simp] theorem modCtx_owned (s : State) (c : Nat) (f : Context → Context) : (modCtx s c f).owned = s.owned := rfl
@[simp] theorem modCtx_badLines (s : State) (c : Nat) (f : Context → Context) : (modCtx s c f).badLines = s.badLines := rfl
@[simp] theorem modCtx_cores (s : State) (c : Nat) (f : Context → Context) : (modCtx s c f).cores = s.cores := rfl
@[simp] theorem modCtx_clusters (s : State) (c : Nat) (f : Context → Context) : (modCtx s c f).clusters = s.clusters := rfl
@[simp] theorem modCtx_stackPairs (s : State) (c : Nat) (f : Context → Context) : (modCtx s c f).stackPairs = s.stackPairs := rfl
@[simp] theorem modCtx_boundary (s : State) (c : Nat) (f : Context → Context) : (modCtx s c f).boundary = s.boundary := rfl
@[simp] theorem modCtx_teams (s : State) (c : Nat) (f : Context → Context) : (modCtx s c f).teams = s.teams := rfl
@[simp] theorem modCtx_gangs (s : State) (c : Nat) (f : Context → Context) : (modCtx s c f).gangs = s.gangs := rfl
@[simp] theorem modCtx_grids (s : State) (c : Nat) (f : Context → Context) : (modCtx s c f).grids = s.grids := rfl
@[simp] theorem modCtx_gangOps (s : State) (c : Nat) (f : Context → Context) : (modCtx s c f).gangOps = s.gangOps := rfl
@[simp] theorem modCtx_queues (s : State) (c : Nat) (f : Context → Context) : (modCtx s c f).queues = s.queues := rfl
@[simp] theorem modCtx_lastServed (s : State) (c : Nat) (f : Context → Context) : (modCtx s c f).lastServed = s.lastServed := rfl
@[simp] theorem modCtx_service (s : State) (c : Nat) (f : Context → Context) : (modCtx s c f).service = s.service := rfl
@[simp] theorem modCtx_readyPool (s : State) (c : Nat) (f : Context → Context) : (modCtx s c f).readyPool = s.readyPool := rfl
@[simp] theorem modCtx_dispatched (s : State) (c : Nat) (f : Context → Context) : (modCtx s c f).dispatched = s.dispatched := rfl
@[simp] theorem modCtx_startedIn (s : State) (c : Nat) (f : Context → Context) : (modCtx s c f).startedIn = s.startedIn := rfl
@[simp] theorem modCtx_gathering (s : State) (c : Nat) (f : Context → Context) : (modCtx s c f).gathering = s.gathering := rfl
@[simp] theorem modCtx_wagons (s : State) (c : Nat) (f : Context → Context) : (modCtx s c f).wagons = s.wagons := rfl
@[simp] theorem modCtx_pools (s : State) (c : Nat) (f : Context → Context) : (modCtx s c f).pools = s.pools := rfl
@[simp] theorem modCtx_pinnedWays (s : State) (c : Nat) (f : Context → Context) : (modCtx s c f).pinnedWays = s.pinnedWays := rfl
@[simp] theorem modCtx_waysHeld (s : State) (c : Nat) (f : Context → Context) : (modCtx s c f).waysHeld = s.waysHeld := rfl
@[simp] theorem modCtx_layerHeld (s : State) (c : Nat) (f : Context → Context) : (modCtx s c f).layerHeld = s.layerHeld := rfl
@[simp] theorem modCtx_layerSeq (s : State) (c : Nat) (f : Context → Context) : (modCtx s c f).layerSeq = s.layerSeq := rfl
@[simp] theorem modCtx_migrations (s : State) (c : Nat) (f : Context → Context) : (modCtx s c f).migrations = s.migrations := rfl
@[simp] theorem modCtx_backing (s : State) (c : Nat) (f : Context → Context) : (modCtx s c f).backing = s.backing := rfl
@[simp] theorem modCtx_faultBuf (s : State) (c : Nat) (f : Context → Context) : (modCtx s c f).faultBuf = s.faultBuf := rfl
@[simp] theorem modCtx_freeFrames (s : State) (c : Nat) (f : Context → Context) : (modCtx s c f).freeFrames = s.freeFrames := rfl
@[simp] theorem modCtx_freshFrame (s : State) (c : Nat) (f : Context → Context) : (modCtx s c f).freshFrame = s.freshFrame := rfl
@[simp] theorem modCtx_serviceWait (s : State) (c : Nat) (f : Context → Context) : (modCtx s c f).serviceWait = s.serviceWait := rfl
@[simp] theorem modCtx_evicting (s : State) (c : Nat) (f : Context → Context) : (modCtx s c f).evicting = s.evicting := rfl
@[simp] theorem modCtx_denials (s : State) (c : Nat) (f : Context → Context) : (modCtx s c f).denials = s.denials := rfl
@[simp] theorem modCtx_evicted (s : State) (c : Nat) (f : Context → Context) : (modCtx s c f).evicted = s.evicted := rfl
@[simp] theorem modCtx_invalidations (s : State) (c : Nat) (f : Context → Context) : (modCtx s c f).invalidations = s.invalidations := rfl
@[simp] theorem modCtx_fe (s : State) (c : Nat) (f : Context → Context) : (modCtx s c f).fe = s.fe := rfl
@[simp] theorem modCtx_ring (s : State) (c : Nat) (f : Context → Context) : (modCtx s c f).ring = s.ring := rfl
@[simp] theorem modCtx_policy (s : State) (c : Nat) (f : Context → Context) : (modCtx s c f).policy = s.policy := rfl
@[simp] theorem modCtx_supervisor (s : State) (c : Nat) (f : Context → Context) : (modCtx s c f).supervisor = s.supervisor := rfl
@[simp] theorem modCtx_mailbox (s : State) (c : Nat) (f : Context → Context) : (modCtx s c f).mailbox = s.mailbox := rfl
@[simp] theorem modCtx_windows (s : State) (c : Nat) (f : Context → Context) : (modCtx s c f).windows = s.windows := rfl
@[simp] theorem modCtx_qps (s : State) (c : Nat) (f : Context → Context) : (modCtx s c f).qps = s.qps := rfl
@[simp] theorem modCtx_qpErrors (s : State) (c : Nat) (f : Context → Context) : (modCtx s c f).qpErrors = s.qpErrors := rfl
@[simp] theorem modCtx_peerBinding (s : State) (c : Nat) (f : Context → Context) : (modCtx s c f).peerBinding = s.peerBinding := rfl
@[simp] theorem modCtx_peerPending (s : State) (c : Nat) (f : Context → Context) : (modCtx s c f).peerPending = s.peerPending := rfl
@[simp] theorem modCtx_peerWrites (s : State) (c : Nat) (f : Context → Context) : (modCtx s c f).peerWrites = s.peerWrites := rfl
@[simp] theorem modCtx_linkReads (s : State) (c : Nat) (f : Context → Context) : (modCtx s c f).linkReads = s.linkReads := rfl
@[simp] theorem modCtx_linkHeld (s : State) (c : Nat) (f : Context → Context) : (modCtx s c f).linkHeld = s.linkHeld := rfl
@[simp] theorem modCtx_boot (s : State) (c : Nat) (f : Context → Context) : (modCtx s c f).boot = s.boot := rfl
@[simp] theorem modCtx_images (s : State) (c : Nat) (f : Context → Context) : (modCtx s c f).images = s.images := rfl
@[simp] theorem modCtx_attestIndex (s : State) (c : Nat) (f : Context → Context) : (modCtx s c f).attestIndex = s.attestIndex := rfl
@[simp] theorem modCtx_health (s : State) (c : Nat) (f : Context → Context) : (modCtx s c f).health = s.health := rfl
@[simp] theorem modCtx_portTime (s : State) (c : Nat) (f : Context → Context) : (modCtx s c f).portTime = s.portTime := rfl
@[simp] theorem modCtx_memBytes (s : State) (c : Nat) (f : Context → Context) : (modCtx s c f).memBytes = s.memBytes := rfl
@[simp] theorem modCtx_idleTurn (s : State) (c : Nat) (f : Context → Context) : (modCtx s c f).idleTurn = s.idleTurn := rfl

/-! ## modQueue -/

@[simp] theorem modQueue_agenda (s : State) (q : Nat) (f : Queue → Queue) : (modQueue s q f).agenda = s.agenda := rfl
@[simp] theorem modQueue_focus (s : State) (q : Nat) (f : Queue → Queue) : (modQueue s q f).focus = s.focus := rfl
@[simp] theorem modQueue_nextUid (s : State) (q : Nat) (f : Queue → Queue) : (modQueue s q f).nextUid = s.nextUid := rfl
@[simp] theorem modQueue_freeCtr (s : State) (q : Nat) (f : Queue → Queue) : (modQueue s q f).freeCtr = s.freeCtr := rfl
@[simp] theorem modQueue_mem (s : State) (q : Nat) (f : Queue → Queue) : (modQueue s q f).mem = s.mem := rfl
@[simp] theorem modQueue_owned (s : State) (q : Nat) (f : Queue → Queue) : (modQueue s q f).owned = s.owned := rfl
@[simp] theorem modQueue_badLines (s : State) (q : Nat) (f : Queue → Queue) : (modQueue s q f).badLines = s.badLines := rfl
@[simp] theorem modQueue_cores (s : State) (q : Nat) (f : Queue → Queue) : (modQueue s q f).cores = s.cores := rfl
@[simp] theorem modQueue_clusters (s : State) (q : Nat) (f : Queue → Queue) : (modQueue s q f).clusters = s.clusters := rfl
@[simp] theorem modQueue_stackPairs (s : State) (q : Nat) (f : Queue → Queue) : (modQueue s q f).stackPairs = s.stackPairs := rfl
@[simp] theorem modQueue_boundary (s : State) (q : Nat) (f : Queue → Queue) : (modQueue s q f).boundary = s.boundary := rfl
@[simp] theorem modQueue_teams (s : State) (q : Nat) (f : Queue → Queue) : (modQueue s q f).teams = s.teams := rfl
@[simp] theorem modQueue_gangs (s : State) (q : Nat) (f : Queue → Queue) : (modQueue s q f).gangs = s.gangs := rfl
@[simp] theorem modQueue_grids (s : State) (q : Nat) (f : Queue → Queue) : (modQueue s q f).grids = s.grids := rfl
@[simp] theorem modQueue_gangOps (s : State) (q : Nat) (f : Queue → Queue) : (modQueue s q f).gangOps = s.gangOps := rfl
@[simp] theorem modQueue_contexts (s : State) (q : Nat) (f : Queue → Queue) : (modQueue s q f).contexts = s.contexts := rfl
@[simp] theorem modQueue_lastServed (s : State) (q : Nat) (f : Queue → Queue) : (modQueue s q f).lastServed = s.lastServed := rfl
@[simp] theorem modQueue_service (s : State) (q : Nat) (f : Queue → Queue) : (modQueue s q f).service = s.service := rfl
@[simp] theorem modQueue_readyPool (s : State) (q : Nat) (f : Queue → Queue) : (modQueue s q f).readyPool = s.readyPool := rfl
@[simp] theorem modQueue_dispatched (s : State) (q : Nat) (f : Queue → Queue) : (modQueue s q f).dispatched = s.dispatched := rfl
@[simp] theorem modQueue_startedIn (s : State) (q : Nat) (f : Queue → Queue) : (modQueue s q f).startedIn = s.startedIn := rfl
@[simp] theorem modQueue_gathering (s : State) (q : Nat) (f : Queue → Queue) : (modQueue s q f).gathering = s.gathering := rfl
@[simp] theorem modQueue_wagons (s : State) (q : Nat) (f : Queue → Queue) : (modQueue s q f).wagons = s.wagons := rfl
@[simp] theorem modQueue_pools (s : State) (q : Nat) (f : Queue → Queue) : (modQueue s q f).pools = s.pools := rfl
@[simp] theorem modQueue_pinnedWays (s : State) (q : Nat) (f : Queue → Queue) : (modQueue s q f).pinnedWays = s.pinnedWays := rfl
@[simp] theorem modQueue_waysHeld (s : State) (q : Nat) (f : Queue → Queue) : (modQueue s q f).waysHeld = s.waysHeld := rfl
@[simp] theorem modQueue_layerHeld (s : State) (q : Nat) (f : Queue → Queue) : (modQueue s q f).layerHeld = s.layerHeld := rfl
@[simp] theorem modQueue_layerSeq (s : State) (q : Nat) (f : Queue → Queue) : (modQueue s q f).layerSeq = s.layerSeq := rfl
@[simp] theorem modQueue_migrations (s : State) (q : Nat) (f : Queue → Queue) : (modQueue s q f).migrations = s.migrations := rfl
@[simp] theorem modQueue_backing (s : State) (q : Nat) (f : Queue → Queue) : (modQueue s q f).backing = s.backing := rfl
@[simp] theorem modQueue_faultBuf (s : State) (q : Nat) (f : Queue → Queue) : (modQueue s q f).faultBuf = s.faultBuf := rfl
@[simp] theorem modQueue_freeFrames (s : State) (q : Nat) (f : Queue → Queue) : (modQueue s q f).freeFrames = s.freeFrames := rfl
@[simp] theorem modQueue_freshFrame (s : State) (q : Nat) (f : Queue → Queue) : (modQueue s q f).freshFrame = s.freshFrame := rfl
@[simp] theorem modQueue_serviceWait (s : State) (q : Nat) (f : Queue → Queue) : (modQueue s q f).serviceWait = s.serviceWait := rfl
@[simp] theorem modQueue_evicting (s : State) (q : Nat) (f : Queue → Queue) : (modQueue s q f).evicting = s.evicting := rfl
@[simp] theorem modQueue_denials (s : State) (q : Nat) (f : Queue → Queue) : (modQueue s q f).denials = s.denials := rfl
@[simp] theorem modQueue_evicted (s : State) (q : Nat) (f : Queue → Queue) : (modQueue s q f).evicted = s.evicted := rfl
@[simp] theorem modQueue_invalidations (s : State) (q : Nat) (f : Queue → Queue) : (modQueue s q f).invalidations = s.invalidations := rfl
@[simp] theorem modQueue_fe (s : State) (q : Nat) (f : Queue → Queue) : (modQueue s q f).fe = s.fe := rfl
@[simp] theorem modQueue_ring (s : State) (q : Nat) (f : Queue → Queue) : (modQueue s q f).ring = s.ring := rfl
@[simp] theorem modQueue_policy (s : State) (q : Nat) (f : Queue → Queue) : (modQueue s q f).policy = s.policy := rfl
@[simp] theorem modQueue_supervisor (s : State) (q : Nat) (f : Queue → Queue) : (modQueue s q f).supervisor = s.supervisor := rfl
@[simp] theorem modQueue_mailbox (s : State) (q : Nat) (f : Queue → Queue) : (modQueue s q f).mailbox = s.mailbox := rfl
@[simp] theorem modQueue_windows (s : State) (q : Nat) (f : Queue → Queue) : (modQueue s q f).windows = s.windows := rfl
@[simp] theorem modQueue_qps (s : State) (q : Nat) (f : Queue → Queue) : (modQueue s q f).qps = s.qps := rfl
@[simp] theorem modQueue_qpErrors (s : State) (q : Nat) (f : Queue → Queue) : (modQueue s q f).qpErrors = s.qpErrors := rfl
@[simp] theorem modQueue_peerBinding (s : State) (q : Nat) (f : Queue → Queue) : (modQueue s q f).peerBinding = s.peerBinding := rfl
@[simp] theorem modQueue_peerPending (s : State) (q : Nat) (f : Queue → Queue) : (modQueue s q f).peerPending = s.peerPending := rfl
@[simp] theorem modQueue_peerWrites (s : State) (q : Nat) (f : Queue → Queue) : (modQueue s q f).peerWrites = s.peerWrites := rfl
@[simp] theorem modQueue_linkReads (s : State) (q : Nat) (f : Queue → Queue) : (modQueue s q f).linkReads = s.linkReads := rfl
@[simp] theorem modQueue_linkHeld (s : State) (q : Nat) (f : Queue → Queue) : (modQueue s q f).linkHeld = s.linkHeld := rfl
@[simp] theorem modQueue_boot (s : State) (q : Nat) (f : Queue → Queue) : (modQueue s q f).boot = s.boot := rfl
@[simp] theorem modQueue_images (s : State) (q : Nat) (f : Queue → Queue) : (modQueue s q f).images = s.images := rfl
@[simp] theorem modQueue_attestIndex (s : State) (q : Nat) (f : Queue → Queue) : (modQueue s q f).attestIndex = s.attestIndex := rfl
@[simp] theorem modQueue_health (s : State) (q : Nat) (f : Queue → Queue) : (modQueue s q f).health = s.health := rfl
@[simp] theorem modQueue_portTime (s : State) (q : Nat) (f : Queue → Queue) : (modQueue s q f).portTime = s.portTime := rfl
@[simp] theorem modQueue_memBytes (s : State) (q : Nat) (f : Queue → Queue) : (modQueue s q f).memBytes = s.memBytes := rfl
@[simp] theorem modQueue_idleTurn (s : State) (q : Nat) (f : Queue → Queue) : (modQueue s q f).idleTurn = s.idleTurn := rfl

/-! ## modWagon -/

@[simp] theorem modWagon_agenda (s : State) (q : Nat) (f : WagonQueue → WagonQueue) : (modWagon s q f).agenda = s.agenda := rfl
@[simp] theorem modWagon_focus (s : State) (q : Nat) (f : WagonQueue → WagonQueue) : (modWagon s q f).focus = s.focus := rfl
@[simp] theorem modWagon_nextUid (s : State) (q : Nat) (f : WagonQueue → WagonQueue) : (modWagon s q f).nextUid = s.nextUid := rfl
@[simp] theorem modWagon_freeCtr (s : State) (q : Nat) (f : WagonQueue → WagonQueue) : (modWagon s q f).freeCtr = s.freeCtr := rfl
@[simp] theorem modWagon_mem (s : State) (q : Nat) (f : WagonQueue → WagonQueue) : (modWagon s q f).mem = s.mem := rfl
@[simp] theorem modWagon_owned (s : State) (q : Nat) (f : WagonQueue → WagonQueue) : (modWagon s q f).owned = s.owned := rfl
@[simp] theorem modWagon_badLines (s : State) (q : Nat) (f : WagonQueue → WagonQueue) : (modWagon s q f).badLines = s.badLines := rfl
@[simp] theorem modWagon_cores (s : State) (q : Nat) (f : WagonQueue → WagonQueue) : (modWagon s q f).cores = s.cores := rfl
@[simp] theorem modWagon_clusters (s : State) (q : Nat) (f : WagonQueue → WagonQueue) : (modWagon s q f).clusters = s.clusters := rfl
@[simp] theorem modWagon_stackPairs (s : State) (q : Nat) (f : WagonQueue → WagonQueue) : (modWagon s q f).stackPairs = s.stackPairs := rfl
@[simp] theorem modWagon_boundary (s : State) (q : Nat) (f : WagonQueue → WagonQueue) : (modWagon s q f).boundary = s.boundary := rfl
@[simp] theorem modWagon_teams (s : State) (q : Nat) (f : WagonQueue → WagonQueue) : (modWagon s q f).teams = s.teams := rfl
@[simp] theorem modWagon_gangs (s : State) (q : Nat) (f : WagonQueue → WagonQueue) : (modWagon s q f).gangs = s.gangs := rfl
@[simp] theorem modWagon_grids (s : State) (q : Nat) (f : WagonQueue → WagonQueue) : (modWagon s q f).grids = s.grids := rfl
@[simp] theorem modWagon_gangOps (s : State) (q : Nat) (f : WagonQueue → WagonQueue) : (modWagon s q f).gangOps = s.gangOps := rfl
@[simp] theorem modWagon_contexts (s : State) (q : Nat) (f : WagonQueue → WagonQueue) : (modWagon s q f).contexts = s.contexts := rfl
@[simp] theorem modWagon_queues (s : State) (q : Nat) (f : WagonQueue → WagonQueue) : (modWagon s q f).queues = s.queues := rfl
@[simp] theorem modWagon_lastServed (s : State) (q : Nat) (f : WagonQueue → WagonQueue) : (modWagon s q f).lastServed = s.lastServed := rfl
@[simp] theorem modWagon_service (s : State) (q : Nat) (f : WagonQueue → WagonQueue) : (modWagon s q f).service = s.service := rfl
@[simp] theorem modWagon_readyPool (s : State) (q : Nat) (f : WagonQueue → WagonQueue) : (modWagon s q f).readyPool = s.readyPool := rfl
@[simp] theorem modWagon_dispatched (s : State) (q : Nat) (f : WagonQueue → WagonQueue) : (modWagon s q f).dispatched = s.dispatched := rfl
@[simp] theorem modWagon_startedIn (s : State) (q : Nat) (f : WagonQueue → WagonQueue) : (modWagon s q f).startedIn = s.startedIn := rfl
@[simp] theorem modWagon_gathering (s : State) (q : Nat) (f : WagonQueue → WagonQueue) : (modWagon s q f).gathering = s.gathering := rfl
@[simp] theorem modWagon_pools (s : State) (q : Nat) (f : WagonQueue → WagonQueue) : (modWagon s q f).pools = s.pools := rfl
@[simp] theorem modWagon_pinnedWays (s : State) (q : Nat) (f : WagonQueue → WagonQueue) : (modWagon s q f).pinnedWays = s.pinnedWays := rfl
@[simp] theorem modWagon_waysHeld (s : State) (q : Nat) (f : WagonQueue → WagonQueue) : (modWagon s q f).waysHeld = s.waysHeld := rfl
@[simp] theorem modWagon_layerHeld (s : State) (q : Nat) (f : WagonQueue → WagonQueue) : (modWagon s q f).layerHeld = s.layerHeld := rfl
@[simp] theorem modWagon_layerSeq (s : State) (q : Nat) (f : WagonQueue → WagonQueue) : (modWagon s q f).layerSeq = s.layerSeq := rfl
@[simp] theorem modWagon_migrations (s : State) (q : Nat) (f : WagonQueue → WagonQueue) : (modWagon s q f).migrations = s.migrations := rfl
@[simp] theorem modWagon_backing (s : State) (q : Nat) (f : WagonQueue → WagonQueue) : (modWagon s q f).backing = s.backing := rfl
@[simp] theorem modWagon_faultBuf (s : State) (q : Nat) (f : WagonQueue → WagonQueue) : (modWagon s q f).faultBuf = s.faultBuf := rfl
@[simp] theorem modWagon_freeFrames (s : State) (q : Nat) (f : WagonQueue → WagonQueue) : (modWagon s q f).freeFrames = s.freeFrames := rfl
@[simp] theorem modWagon_freshFrame (s : State) (q : Nat) (f : WagonQueue → WagonQueue) : (modWagon s q f).freshFrame = s.freshFrame := rfl
@[simp] theorem modWagon_serviceWait (s : State) (q : Nat) (f : WagonQueue → WagonQueue) : (modWagon s q f).serviceWait = s.serviceWait := rfl
@[simp] theorem modWagon_evicting (s : State) (q : Nat) (f : WagonQueue → WagonQueue) : (modWagon s q f).evicting = s.evicting := rfl
@[simp] theorem modWagon_denials (s : State) (q : Nat) (f : WagonQueue → WagonQueue) : (modWagon s q f).denials = s.denials := rfl
@[simp] theorem modWagon_evicted (s : State) (q : Nat) (f : WagonQueue → WagonQueue) : (modWagon s q f).evicted = s.evicted := rfl
@[simp] theorem modWagon_invalidations (s : State) (q : Nat) (f : WagonQueue → WagonQueue) : (modWagon s q f).invalidations = s.invalidations := rfl
@[simp] theorem modWagon_fe (s : State) (q : Nat) (f : WagonQueue → WagonQueue) : (modWagon s q f).fe = s.fe := rfl
@[simp] theorem modWagon_ring (s : State) (q : Nat) (f : WagonQueue → WagonQueue) : (modWagon s q f).ring = s.ring := rfl
@[simp] theorem modWagon_policy (s : State) (q : Nat) (f : WagonQueue → WagonQueue) : (modWagon s q f).policy = s.policy := rfl
@[simp] theorem modWagon_supervisor (s : State) (q : Nat) (f : WagonQueue → WagonQueue) : (modWagon s q f).supervisor = s.supervisor := rfl
@[simp] theorem modWagon_mailbox (s : State) (q : Nat) (f : WagonQueue → WagonQueue) : (modWagon s q f).mailbox = s.mailbox := rfl
@[simp] theorem modWagon_windows (s : State) (q : Nat) (f : WagonQueue → WagonQueue) : (modWagon s q f).windows = s.windows := rfl
@[simp] theorem modWagon_qps (s : State) (q : Nat) (f : WagonQueue → WagonQueue) : (modWagon s q f).qps = s.qps := rfl
@[simp] theorem modWagon_qpErrors (s : State) (q : Nat) (f : WagonQueue → WagonQueue) : (modWagon s q f).qpErrors = s.qpErrors := rfl
@[simp] theorem modWagon_peerBinding (s : State) (q : Nat) (f : WagonQueue → WagonQueue) : (modWagon s q f).peerBinding = s.peerBinding := rfl
@[simp] theorem modWagon_peerPending (s : State) (q : Nat) (f : WagonQueue → WagonQueue) : (modWagon s q f).peerPending = s.peerPending := rfl
@[simp] theorem modWagon_peerWrites (s : State) (q : Nat) (f : WagonQueue → WagonQueue) : (modWagon s q f).peerWrites = s.peerWrites := rfl
@[simp] theorem modWagon_linkReads (s : State) (q : Nat) (f : WagonQueue → WagonQueue) : (modWagon s q f).linkReads = s.linkReads := rfl
@[simp] theorem modWagon_linkHeld (s : State) (q : Nat) (f : WagonQueue → WagonQueue) : (modWagon s q f).linkHeld = s.linkHeld := rfl
@[simp] theorem modWagon_boot (s : State) (q : Nat) (f : WagonQueue → WagonQueue) : (modWagon s q f).boot = s.boot := rfl
@[simp] theorem modWagon_images (s : State) (q : Nat) (f : WagonQueue → WagonQueue) : (modWagon s q f).images = s.images := rfl
@[simp] theorem modWagon_attestIndex (s : State) (q : Nat) (f : WagonQueue → WagonQueue) : (modWagon s q f).attestIndex = s.attestIndex := rfl
@[simp] theorem modWagon_health (s : State) (q : Nat) (f : WagonQueue → WagonQueue) : (modWagon s q f).health = s.health := rfl
@[simp] theorem modWagon_portTime (s : State) (q : Nat) (f : WagonQueue → WagonQueue) : (modWagon s q f).portTime = s.portTime := rfl
@[simp] theorem modWagon_memBytes (s : State) (q : Nat) (f : WagonQueue → WagonQueue) : (modWagon s q f).memBytes = s.memBytes := rfl
@[simp] theorem modWagon_idleTurn (s : State) (q : Nat) (f : WagonQueue → WagonQueue) : (modWagon s q f).idleTurn = s.idleTurn := rfl

/-! ## modPool -/

@[simp] theorem modPool_agenda (s : State) (p : Nat) (f : Pool → Pool) : (modPool s p f).agenda = s.agenda := rfl
@[simp] theorem modPool_focus (s : State) (p : Nat) (f : Pool → Pool) : (modPool s p f).focus = s.focus := rfl
@[simp] theorem modPool_nextUid (s : State) (p : Nat) (f : Pool → Pool) : (modPool s p f).nextUid = s.nextUid := rfl
@[simp] theorem modPool_freeCtr (s : State) (p : Nat) (f : Pool → Pool) : (modPool s p f).freeCtr = s.freeCtr := rfl
@[simp] theorem modPool_mem (s : State) (p : Nat) (f : Pool → Pool) : (modPool s p f).mem = s.mem := rfl
@[simp] theorem modPool_owned (s : State) (p : Nat) (f : Pool → Pool) : (modPool s p f).owned = s.owned := rfl
@[simp] theorem modPool_badLines (s : State) (p : Nat) (f : Pool → Pool) : (modPool s p f).badLines = s.badLines := rfl
@[simp] theorem modPool_cores (s : State) (p : Nat) (f : Pool → Pool) : (modPool s p f).cores = s.cores := rfl
@[simp] theorem modPool_clusters (s : State) (p : Nat) (f : Pool → Pool) : (modPool s p f).clusters = s.clusters := rfl
@[simp] theorem modPool_stackPairs (s : State) (p : Nat) (f : Pool → Pool) : (modPool s p f).stackPairs = s.stackPairs := rfl
@[simp] theorem modPool_boundary (s : State) (p : Nat) (f : Pool → Pool) : (modPool s p f).boundary = s.boundary := rfl
@[simp] theorem modPool_teams (s : State) (p : Nat) (f : Pool → Pool) : (modPool s p f).teams = s.teams := rfl
@[simp] theorem modPool_gangs (s : State) (p : Nat) (f : Pool → Pool) : (modPool s p f).gangs = s.gangs := rfl
@[simp] theorem modPool_grids (s : State) (p : Nat) (f : Pool → Pool) : (modPool s p f).grids = s.grids := rfl
@[simp] theorem modPool_gangOps (s : State) (p : Nat) (f : Pool → Pool) : (modPool s p f).gangOps = s.gangOps := rfl
@[simp] theorem modPool_contexts (s : State) (p : Nat) (f : Pool → Pool) : (modPool s p f).contexts = s.contexts := rfl
@[simp] theorem modPool_queues (s : State) (p : Nat) (f : Pool → Pool) : (modPool s p f).queues = s.queues := rfl
@[simp] theorem modPool_lastServed (s : State) (p : Nat) (f : Pool → Pool) : (modPool s p f).lastServed = s.lastServed := rfl
@[simp] theorem modPool_service (s : State) (p : Nat) (f : Pool → Pool) : (modPool s p f).service = s.service := rfl
@[simp] theorem modPool_readyPool (s : State) (p : Nat) (f : Pool → Pool) : (modPool s p f).readyPool = s.readyPool := rfl
@[simp] theorem modPool_dispatched (s : State) (p : Nat) (f : Pool → Pool) : (modPool s p f).dispatched = s.dispatched := rfl
@[simp] theorem modPool_startedIn (s : State) (p : Nat) (f : Pool → Pool) : (modPool s p f).startedIn = s.startedIn := rfl
@[simp] theorem modPool_gathering (s : State) (p : Nat) (f : Pool → Pool) : (modPool s p f).gathering = s.gathering := rfl
@[simp] theorem modPool_wagons (s : State) (p : Nat) (f : Pool → Pool) : (modPool s p f).wagons = s.wagons := rfl
@[simp] theorem modPool_pinnedWays (s : State) (p : Nat) (f : Pool → Pool) : (modPool s p f).pinnedWays = s.pinnedWays := rfl
@[simp] theorem modPool_waysHeld (s : State) (p : Nat) (f : Pool → Pool) : (modPool s p f).waysHeld = s.waysHeld := rfl
@[simp] theorem modPool_layerHeld (s : State) (p : Nat) (f : Pool → Pool) : (modPool s p f).layerHeld = s.layerHeld := rfl
@[simp] theorem modPool_layerSeq (s : State) (p : Nat) (f : Pool → Pool) : (modPool s p f).layerSeq = s.layerSeq := rfl
@[simp] theorem modPool_migrations (s : State) (p : Nat) (f : Pool → Pool) : (modPool s p f).migrations = s.migrations := rfl
@[simp] theorem modPool_backing (s : State) (p : Nat) (f : Pool → Pool) : (modPool s p f).backing = s.backing := rfl
@[simp] theorem modPool_faultBuf (s : State) (p : Nat) (f : Pool → Pool) : (modPool s p f).faultBuf = s.faultBuf := rfl
@[simp] theorem modPool_freeFrames (s : State) (p : Nat) (f : Pool → Pool) : (modPool s p f).freeFrames = s.freeFrames := rfl
@[simp] theorem modPool_freshFrame (s : State) (p : Nat) (f : Pool → Pool) : (modPool s p f).freshFrame = s.freshFrame := rfl
@[simp] theorem modPool_serviceWait (s : State) (p : Nat) (f : Pool → Pool) : (modPool s p f).serviceWait = s.serviceWait := rfl
@[simp] theorem modPool_evicting (s : State) (p : Nat) (f : Pool → Pool) : (modPool s p f).evicting = s.evicting := rfl
@[simp] theorem modPool_denials (s : State) (p : Nat) (f : Pool → Pool) : (modPool s p f).denials = s.denials := rfl
@[simp] theorem modPool_evicted (s : State) (p : Nat) (f : Pool → Pool) : (modPool s p f).evicted = s.evicted := rfl
@[simp] theorem modPool_invalidations (s : State) (p : Nat) (f : Pool → Pool) : (modPool s p f).invalidations = s.invalidations := rfl
@[simp] theorem modPool_fe (s : State) (p : Nat) (f : Pool → Pool) : (modPool s p f).fe = s.fe := rfl
@[simp] theorem modPool_ring (s : State) (p : Nat) (f : Pool → Pool) : (modPool s p f).ring = s.ring := rfl
@[simp] theorem modPool_policy (s : State) (p : Nat) (f : Pool → Pool) : (modPool s p f).policy = s.policy := rfl
@[simp] theorem modPool_supervisor (s : State) (p : Nat) (f : Pool → Pool) : (modPool s p f).supervisor = s.supervisor := rfl
@[simp] theorem modPool_mailbox (s : State) (p : Nat) (f : Pool → Pool) : (modPool s p f).mailbox = s.mailbox := rfl
@[simp] theorem modPool_windows (s : State) (p : Nat) (f : Pool → Pool) : (modPool s p f).windows = s.windows := rfl
@[simp] theorem modPool_qps (s : State) (p : Nat) (f : Pool → Pool) : (modPool s p f).qps = s.qps := rfl
@[simp] theorem modPool_qpErrors (s : State) (p : Nat) (f : Pool → Pool) : (modPool s p f).qpErrors = s.qpErrors := rfl
@[simp] theorem modPool_peerBinding (s : State) (p : Nat) (f : Pool → Pool) : (modPool s p f).peerBinding = s.peerBinding := rfl
@[simp] theorem modPool_peerPending (s : State) (p : Nat) (f : Pool → Pool) : (modPool s p f).peerPending = s.peerPending := rfl
@[simp] theorem modPool_peerWrites (s : State) (p : Nat) (f : Pool → Pool) : (modPool s p f).peerWrites = s.peerWrites := rfl
@[simp] theorem modPool_linkReads (s : State) (p : Nat) (f : Pool → Pool) : (modPool s p f).linkReads = s.linkReads := rfl
@[simp] theorem modPool_linkHeld (s : State) (p : Nat) (f : Pool → Pool) : (modPool s p f).linkHeld = s.linkHeld := rfl
@[simp] theorem modPool_boot (s : State) (p : Nat) (f : Pool → Pool) : (modPool s p f).boot = s.boot := rfl
@[simp] theorem modPool_images (s : State) (p : Nat) (f : Pool → Pool) : (modPool s p f).images = s.images := rfl
@[simp] theorem modPool_attestIndex (s : State) (p : Nat) (f : Pool → Pool) : (modPool s p f).attestIndex = s.attestIndex := rfl
@[simp] theorem modPool_health (s : State) (p : Nat) (f : Pool → Pool) : (modPool s p f).health = s.health := rfl
@[simp] theorem modPool_portTime (s : State) (p : Nat) (f : Pool → Pool) : (modPool s p f).portTime = s.portTime := rfl
@[simp] theorem modPool_memBytes (s : State) (p : Nat) (f : Pool → Pool) : (modPool s p f).memBytes = s.memBytes := rfl
@[simp] theorem modPool_idleTurn (s : State) (p : Nat) (f : Pool → Pool) : (modPool s p f).idleTurn = s.idleTurn := rfl

/-! ## setUnit -/

@[simp] theorem setUnit_agenda (s : State) (u : UnitId) (g : Grp) : (setUnit s u g).agenda = s.agenda := rfl
@[simp] theorem setUnit_focus (s : State) (u : UnitId) (g : Grp) : (setUnit s u g).focus = s.focus := rfl
@[simp] theorem setUnit_nextUid (s : State) (u : UnitId) (g : Grp) : (setUnit s u g).nextUid = s.nextUid := rfl
@[simp] theorem setUnit_freeCtr (s : State) (u : UnitId) (g : Grp) : (setUnit s u g).freeCtr = s.freeCtr := rfl
@[simp] theorem setUnit_mem (s : State) (u : UnitId) (g : Grp) : (setUnit s u g).mem = s.mem := rfl
@[simp] theorem setUnit_owned (s : State) (u : UnitId) (g : Grp) : (setUnit s u g).owned = s.owned := rfl
@[simp] theorem setUnit_badLines (s : State) (u : UnitId) (g : Grp) : (setUnit s u g).badLines = s.badLines := rfl
@[simp] theorem setUnit_cores (s : State) (u : UnitId) (g : Grp) : (setUnit s u g).cores = s.cores := rfl
@[simp] theorem setUnit_clusters (s : State) (u : UnitId) (g : Grp) : (setUnit s u g).clusters = s.clusters := rfl
@[simp] theorem setUnit_stackPairs (s : State) (u : UnitId) (g : Grp) : (setUnit s u g).stackPairs = s.stackPairs := rfl
@[simp] theorem setUnit_boundary (s : State) (u : UnitId) (g : Grp) : (setUnit s u g).boundary = s.boundary := rfl
@[simp] theorem setUnit_gangs (s : State) (u : UnitId) (g : Grp) : (setUnit s u g).gangs = s.gangs := rfl
@[simp] theorem setUnit_grids (s : State) (u : UnitId) (g : Grp) : (setUnit s u g).grids = s.grids := rfl
@[simp] theorem setUnit_gangOps (s : State) (u : UnitId) (g : Grp) : (setUnit s u g).gangOps = s.gangOps := rfl
@[simp] theorem setUnit_contexts (s : State) (u : UnitId) (g : Grp) : (setUnit s u g).contexts = s.contexts := rfl
@[simp] theorem setUnit_queues (s : State) (u : UnitId) (g : Grp) : (setUnit s u g).queues = s.queues := rfl
@[simp] theorem setUnit_lastServed (s : State) (u : UnitId) (g : Grp) : (setUnit s u g).lastServed = s.lastServed := rfl
@[simp] theorem setUnit_service (s : State) (u : UnitId) (g : Grp) : (setUnit s u g).service = s.service := rfl
@[simp] theorem setUnit_readyPool (s : State) (u : UnitId) (g : Grp) : (setUnit s u g).readyPool = s.readyPool := rfl
@[simp] theorem setUnit_dispatched (s : State) (u : UnitId) (g : Grp) : (setUnit s u g).dispatched = s.dispatched := rfl
@[simp] theorem setUnit_startedIn (s : State) (u : UnitId) (g : Grp) : (setUnit s u g).startedIn = s.startedIn := rfl
@[simp] theorem setUnit_gathering (s : State) (u : UnitId) (g : Grp) : (setUnit s u g).gathering = s.gathering := rfl
@[simp] theorem setUnit_wagons (s : State) (u : UnitId) (g : Grp) : (setUnit s u g).wagons = s.wagons := rfl
@[simp] theorem setUnit_pools (s : State) (u : UnitId) (g : Grp) : (setUnit s u g).pools = s.pools := rfl
@[simp] theorem setUnit_pinnedWays (s : State) (u : UnitId) (g : Grp) : (setUnit s u g).pinnedWays = s.pinnedWays := rfl
@[simp] theorem setUnit_waysHeld (s : State) (u : UnitId) (g : Grp) : (setUnit s u g).waysHeld = s.waysHeld := rfl
@[simp] theorem setUnit_layerHeld (s : State) (u : UnitId) (g : Grp) : (setUnit s u g).layerHeld = s.layerHeld := rfl
@[simp] theorem setUnit_layerSeq (s : State) (u : UnitId) (g : Grp) : (setUnit s u g).layerSeq = s.layerSeq := rfl
@[simp] theorem setUnit_migrations (s : State) (u : UnitId) (g : Grp) : (setUnit s u g).migrations = s.migrations := rfl
@[simp] theorem setUnit_backing (s : State) (u : UnitId) (g : Grp) : (setUnit s u g).backing = s.backing := rfl
@[simp] theorem setUnit_faultBuf (s : State) (u : UnitId) (g : Grp) : (setUnit s u g).faultBuf = s.faultBuf := rfl
@[simp] theorem setUnit_freeFrames (s : State) (u : UnitId) (g : Grp) : (setUnit s u g).freeFrames = s.freeFrames := rfl
@[simp] theorem setUnit_freshFrame (s : State) (u : UnitId) (g : Grp) : (setUnit s u g).freshFrame = s.freshFrame := rfl
@[simp] theorem setUnit_serviceWait (s : State) (u : UnitId) (g : Grp) : (setUnit s u g).serviceWait = s.serviceWait := rfl
@[simp] theorem setUnit_evicting (s : State) (u : UnitId) (g : Grp) : (setUnit s u g).evicting = s.evicting := rfl
@[simp] theorem setUnit_denials (s : State) (u : UnitId) (g : Grp) : (setUnit s u g).denials = s.denials := rfl
@[simp] theorem setUnit_evicted (s : State) (u : UnitId) (g : Grp) : (setUnit s u g).evicted = s.evicted := rfl
@[simp] theorem setUnit_invalidations (s : State) (u : UnitId) (g : Grp) : (setUnit s u g).invalidations = s.invalidations := rfl
@[simp] theorem setUnit_fe (s : State) (u : UnitId) (g : Grp) : (setUnit s u g).fe = s.fe := rfl
@[simp] theorem setUnit_ring (s : State) (u : UnitId) (g : Grp) : (setUnit s u g).ring = s.ring := rfl
@[simp] theorem setUnit_policy (s : State) (u : UnitId) (g : Grp) : (setUnit s u g).policy = s.policy := rfl
@[simp] theorem setUnit_supervisor (s : State) (u : UnitId) (g : Grp) : (setUnit s u g).supervisor = s.supervisor := rfl
@[simp] theorem setUnit_mailbox (s : State) (u : UnitId) (g : Grp) : (setUnit s u g).mailbox = s.mailbox := rfl
@[simp] theorem setUnit_windows (s : State) (u : UnitId) (g : Grp) : (setUnit s u g).windows = s.windows := rfl
@[simp] theorem setUnit_qps (s : State) (u : UnitId) (g : Grp) : (setUnit s u g).qps = s.qps := rfl
@[simp] theorem setUnit_qpErrors (s : State) (u : UnitId) (g : Grp) : (setUnit s u g).qpErrors = s.qpErrors := rfl
@[simp] theorem setUnit_peerBinding (s : State) (u : UnitId) (g : Grp) : (setUnit s u g).peerBinding = s.peerBinding := rfl
@[simp] theorem setUnit_peerPending (s : State) (u : UnitId) (g : Grp) : (setUnit s u g).peerPending = s.peerPending := rfl
@[simp] theorem setUnit_peerWrites (s : State) (u : UnitId) (g : Grp) : (setUnit s u g).peerWrites = s.peerWrites := rfl
@[simp] theorem setUnit_linkReads (s : State) (u : UnitId) (g : Grp) : (setUnit s u g).linkReads = s.linkReads := rfl
@[simp] theorem setUnit_linkHeld (s : State) (u : UnitId) (g : Grp) : (setUnit s u g).linkHeld = s.linkHeld := rfl
@[simp] theorem setUnit_boot (s : State) (u : UnitId) (g : Grp) : (setUnit s u g).boot = s.boot := rfl
@[simp] theorem setUnit_images (s : State) (u : UnitId) (g : Grp) : (setUnit s u g).images = s.images := rfl
@[simp] theorem setUnit_attestIndex (s : State) (u : UnitId) (g : Grp) : (setUnit s u g).attestIndex = s.attestIndex := rfl
@[simp] theorem setUnit_health (s : State) (u : UnitId) (g : Grp) : (setUnit s u g).health = s.health := rfl
@[simp] theorem setUnit_portTime (s : State) (u : UnitId) (g : Grp) : (setUnit s u g).portTime = s.portTime := rfl
@[simp] theorem setUnit_memBytes (s : State) (u : UnitId) (g : Grp) : (setUnit s u g).memBytes = s.memBytes := rfl
@[simp] theorem setUnit_idleTurn (s : State) (u : UnitId) (g : Grp) : (setUnit s u g).idleTurn = s.idleTurn := rfl

/-! ## modUnit -/

@[simp] theorem modUnit_agenda (s : State) (u : UnitId) (f : Grp → Grp) : (modUnit s u f).agenda = s.agenda := rfl
@[simp] theorem modUnit_focus (s : State) (u : UnitId) (f : Grp → Grp) : (modUnit s u f).focus = s.focus := rfl
@[simp] theorem modUnit_nextUid (s : State) (u : UnitId) (f : Grp → Grp) : (modUnit s u f).nextUid = s.nextUid := rfl
@[simp] theorem modUnit_freeCtr (s : State) (u : UnitId) (f : Grp → Grp) : (modUnit s u f).freeCtr = s.freeCtr := rfl
@[simp] theorem modUnit_mem (s : State) (u : UnitId) (f : Grp → Grp) : (modUnit s u f).mem = s.mem := rfl
@[simp] theorem modUnit_owned (s : State) (u : UnitId) (f : Grp → Grp) : (modUnit s u f).owned = s.owned := rfl
@[simp] theorem modUnit_badLines (s : State) (u : UnitId) (f : Grp → Grp) : (modUnit s u f).badLines = s.badLines := rfl
@[simp] theorem modUnit_cores (s : State) (u : UnitId) (f : Grp → Grp) : (modUnit s u f).cores = s.cores := rfl
@[simp] theorem modUnit_clusters (s : State) (u : UnitId) (f : Grp → Grp) : (modUnit s u f).clusters = s.clusters := rfl
@[simp] theorem modUnit_stackPairs (s : State) (u : UnitId) (f : Grp → Grp) : (modUnit s u f).stackPairs = s.stackPairs := rfl
@[simp] theorem modUnit_boundary (s : State) (u : UnitId) (f : Grp → Grp) : (modUnit s u f).boundary = s.boundary := rfl
@[simp] theorem modUnit_gangs (s : State) (u : UnitId) (f : Grp → Grp) : (modUnit s u f).gangs = s.gangs := rfl
@[simp] theorem modUnit_grids (s : State) (u : UnitId) (f : Grp → Grp) : (modUnit s u f).grids = s.grids := rfl
@[simp] theorem modUnit_gangOps (s : State) (u : UnitId) (f : Grp → Grp) : (modUnit s u f).gangOps = s.gangOps := rfl
@[simp] theorem modUnit_contexts (s : State) (u : UnitId) (f : Grp → Grp) : (modUnit s u f).contexts = s.contexts := rfl
@[simp] theorem modUnit_queues (s : State) (u : UnitId) (f : Grp → Grp) : (modUnit s u f).queues = s.queues := rfl
@[simp] theorem modUnit_lastServed (s : State) (u : UnitId) (f : Grp → Grp) : (modUnit s u f).lastServed = s.lastServed := rfl
@[simp] theorem modUnit_service (s : State) (u : UnitId) (f : Grp → Grp) : (modUnit s u f).service = s.service := rfl
@[simp] theorem modUnit_readyPool (s : State) (u : UnitId) (f : Grp → Grp) : (modUnit s u f).readyPool = s.readyPool := rfl
@[simp] theorem modUnit_dispatched (s : State) (u : UnitId) (f : Grp → Grp) : (modUnit s u f).dispatched = s.dispatched := rfl
@[simp] theorem modUnit_startedIn (s : State) (u : UnitId) (f : Grp → Grp) : (modUnit s u f).startedIn = s.startedIn := rfl
@[simp] theorem modUnit_gathering (s : State) (u : UnitId) (f : Grp → Grp) : (modUnit s u f).gathering = s.gathering := rfl
@[simp] theorem modUnit_wagons (s : State) (u : UnitId) (f : Grp → Grp) : (modUnit s u f).wagons = s.wagons := rfl
@[simp] theorem modUnit_pools (s : State) (u : UnitId) (f : Grp → Grp) : (modUnit s u f).pools = s.pools := rfl
@[simp] theorem modUnit_pinnedWays (s : State) (u : UnitId) (f : Grp → Grp) : (modUnit s u f).pinnedWays = s.pinnedWays := rfl
@[simp] theorem modUnit_waysHeld (s : State) (u : UnitId) (f : Grp → Grp) : (modUnit s u f).waysHeld = s.waysHeld := rfl
@[simp] theorem modUnit_layerHeld (s : State) (u : UnitId) (f : Grp → Grp) : (modUnit s u f).layerHeld = s.layerHeld := rfl
@[simp] theorem modUnit_layerSeq (s : State) (u : UnitId) (f : Grp → Grp) : (modUnit s u f).layerSeq = s.layerSeq := rfl
@[simp] theorem modUnit_migrations (s : State) (u : UnitId) (f : Grp → Grp) : (modUnit s u f).migrations = s.migrations := rfl
@[simp] theorem modUnit_backing (s : State) (u : UnitId) (f : Grp → Grp) : (modUnit s u f).backing = s.backing := rfl
@[simp] theorem modUnit_faultBuf (s : State) (u : UnitId) (f : Grp → Grp) : (modUnit s u f).faultBuf = s.faultBuf := rfl
@[simp] theorem modUnit_freeFrames (s : State) (u : UnitId) (f : Grp → Grp) : (modUnit s u f).freeFrames = s.freeFrames := rfl
@[simp] theorem modUnit_freshFrame (s : State) (u : UnitId) (f : Grp → Grp) : (modUnit s u f).freshFrame = s.freshFrame := rfl
@[simp] theorem modUnit_serviceWait (s : State) (u : UnitId) (f : Grp → Grp) : (modUnit s u f).serviceWait = s.serviceWait := rfl
@[simp] theorem modUnit_evicting (s : State) (u : UnitId) (f : Grp → Grp) : (modUnit s u f).evicting = s.evicting := rfl
@[simp] theorem modUnit_denials (s : State) (u : UnitId) (f : Grp → Grp) : (modUnit s u f).denials = s.denials := rfl
@[simp] theorem modUnit_evicted (s : State) (u : UnitId) (f : Grp → Grp) : (modUnit s u f).evicted = s.evicted := rfl
@[simp] theorem modUnit_invalidations (s : State) (u : UnitId) (f : Grp → Grp) : (modUnit s u f).invalidations = s.invalidations := rfl
@[simp] theorem modUnit_fe (s : State) (u : UnitId) (f : Grp → Grp) : (modUnit s u f).fe = s.fe := rfl
@[simp] theorem modUnit_ring (s : State) (u : UnitId) (f : Grp → Grp) : (modUnit s u f).ring = s.ring := rfl
@[simp] theorem modUnit_policy (s : State) (u : UnitId) (f : Grp → Grp) : (modUnit s u f).policy = s.policy := rfl
@[simp] theorem modUnit_supervisor (s : State) (u : UnitId) (f : Grp → Grp) : (modUnit s u f).supervisor = s.supervisor := rfl
@[simp] theorem modUnit_mailbox (s : State) (u : UnitId) (f : Grp → Grp) : (modUnit s u f).mailbox = s.mailbox := rfl
@[simp] theorem modUnit_windows (s : State) (u : UnitId) (f : Grp → Grp) : (modUnit s u f).windows = s.windows := rfl
@[simp] theorem modUnit_qps (s : State) (u : UnitId) (f : Grp → Grp) : (modUnit s u f).qps = s.qps := rfl
@[simp] theorem modUnit_qpErrors (s : State) (u : UnitId) (f : Grp → Grp) : (modUnit s u f).qpErrors = s.qpErrors := rfl
@[simp] theorem modUnit_peerBinding (s : State) (u : UnitId) (f : Grp → Grp) : (modUnit s u f).peerBinding = s.peerBinding := rfl
@[simp] theorem modUnit_peerPending (s : State) (u : UnitId) (f : Grp → Grp) : (modUnit s u f).peerPending = s.peerPending := rfl
@[simp] theorem modUnit_peerWrites (s : State) (u : UnitId) (f : Grp → Grp) : (modUnit s u f).peerWrites = s.peerWrites := rfl
@[simp] theorem modUnit_linkReads (s : State) (u : UnitId) (f : Grp → Grp) : (modUnit s u f).linkReads = s.linkReads := rfl
@[simp] theorem modUnit_linkHeld (s : State) (u : UnitId) (f : Grp → Grp) : (modUnit s u f).linkHeld = s.linkHeld := rfl
@[simp] theorem modUnit_boot (s : State) (u : UnitId) (f : Grp → Grp) : (modUnit s u f).boot = s.boot := rfl
@[simp] theorem modUnit_images (s : State) (u : UnitId) (f : Grp → Grp) : (modUnit s u f).images = s.images := rfl
@[simp] theorem modUnit_attestIndex (s : State) (u : UnitId) (f : Grp → Grp) : (modUnit s u f).attestIndex = s.attestIndex := rfl
@[simp] theorem modUnit_health (s : State) (u : UnitId) (f : Grp → Grp) : (modUnit s u f).health = s.health := rfl
@[simp] theorem modUnit_portTime (s : State) (u : UnitId) (f : Grp → Grp) : (modUnit s u f).portTime = s.portTime := rfl
@[simp] theorem modUnit_memBytes (s : State) (u : UnitId) (f : Grp → Grp) : (modUnit s u f).memBytes = s.memBytes := rfl
@[simp] theorem modUnit_idleTurn (s : State) (u : UnitId) (f : Grp → Grp) : (modUnit s u f).idleTurn = s.idleTurn := rfl

/-! ## writeFault -/

@[simp] theorem writeFault_agenda (s : State) (r : FaultRec) : (writeFault s r).agenda = s.agenda := rfl
@[simp] theorem writeFault_focus (s : State) (r : FaultRec) : (writeFault s r).focus = s.focus := rfl
@[simp] theorem writeFault_nextUid (s : State) (r : FaultRec) : (writeFault s r).nextUid = s.nextUid := rfl
@[simp] theorem writeFault_freeCtr (s : State) (r : FaultRec) : (writeFault s r).freeCtr = s.freeCtr := rfl
@[simp] theorem writeFault_mem (s : State) (r : FaultRec) : (writeFault s r).mem = s.mem := rfl
@[simp] theorem writeFault_owned (s : State) (r : FaultRec) : (writeFault s r).owned = s.owned := rfl
@[simp] theorem writeFault_badLines (s : State) (r : FaultRec) : (writeFault s r).badLines = s.badLines := rfl
@[simp] theorem writeFault_cores (s : State) (r : FaultRec) : (writeFault s r).cores = s.cores := rfl
@[simp] theorem writeFault_clusters (s : State) (r : FaultRec) : (writeFault s r).clusters = s.clusters := rfl
@[simp] theorem writeFault_stackPairs (s : State) (r : FaultRec) : (writeFault s r).stackPairs = s.stackPairs := rfl
@[simp] theorem writeFault_boundary (s : State) (r : FaultRec) : (writeFault s r).boundary = s.boundary := rfl
@[simp] theorem writeFault_teams (s : State) (r : FaultRec) : (writeFault s r).teams = s.teams := rfl
@[simp] theorem writeFault_gangs (s : State) (r : FaultRec) : (writeFault s r).gangs = s.gangs := rfl
@[simp] theorem writeFault_grids (s : State) (r : FaultRec) : (writeFault s r).grids = s.grids := rfl
@[simp] theorem writeFault_gangOps (s : State) (r : FaultRec) : (writeFault s r).gangOps = s.gangOps := rfl
@[simp] theorem writeFault_contexts (s : State) (r : FaultRec) : (writeFault s r).contexts = s.contexts := rfl
@[simp] theorem writeFault_queues (s : State) (r : FaultRec) : (writeFault s r).queues = s.queues := rfl
@[simp] theorem writeFault_lastServed (s : State) (r : FaultRec) : (writeFault s r).lastServed = s.lastServed := rfl
@[simp] theorem writeFault_service (s : State) (r : FaultRec) : (writeFault s r).service = s.service := rfl
@[simp] theorem writeFault_readyPool (s : State) (r : FaultRec) : (writeFault s r).readyPool = s.readyPool := rfl
@[simp] theorem writeFault_dispatched (s : State) (r : FaultRec) : (writeFault s r).dispatched = s.dispatched := rfl
@[simp] theorem writeFault_startedIn (s : State) (r : FaultRec) : (writeFault s r).startedIn = s.startedIn := rfl
@[simp] theorem writeFault_gathering (s : State) (r : FaultRec) : (writeFault s r).gathering = s.gathering := rfl
@[simp] theorem writeFault_wagons (s : State) (r : FaultRec) : (writeFault s r).wagons = s.wagons := rfl
@[simp] theorem writeFault_pools (s : State) (r : FaultRec) : (writeFault s r).pools = s.pools := rfl
@[simp] theorem writeFault_pinnedWays (s : State) (r : FaultRec) : (writeFault s r).pinnedWays = s.pinnedWays := rfl
@[simp] theorem writeFault_waysHeld (s : State) (r : FaultRec) : (writeFault s r).waysHeld = s.waysHeld := rfl
@[simp] theorem writeFault_layerHeld (s : State) (r : FaultRec) : (writeFault s r).layerHeld = s.layerHeld := rfl
@[simp] theorem writeFault_layerSeq (s : State) (r : FaultRec) : (writeFault s r).layerSeq = s.layerSeq := rfl
@[simp] theorem writeFault_migrations (s : State) (r : FaultRec) : (writeFault s r).migrations = s.migrations := rfl
@[simp] theorem writeFault_backing (s : State) (r : FaultRec) : (writeFault s r).backing = s.backing := rfl
@[simp] theorem writeFault_freeFrames (s : State) (r : FaultRec) : (writeFault s r).freeFrames = s.freeFrames := rfl
@[simp] theorem writeFault_freshFrame (s : State) (r : FaultRec) : (writeFault s r).freshFrame = s.freshFrame := rfl
@[simp] theorem writeFault_serviceWait (s : State) (r : FaultRec) : (writeFault s r).serviceWait = s.serviceWait := rfl
@[simp] theorem writeFault_evicting (s : State) (r : FaultRec) : (writeFault s r).evicting = s.evicting := rfl
@[simp] theorem writeFault_denials (s : State) (r : FaultRec) : (writeFault s r).denials = s.denials := rfl
@[simp] theorem writeFault_evicted (s : State) (r : FaultRec) : (writeFault s r).evicted = s.evicted := rfl
@[simp] theorem writeFault_invalidations (s : State) (r : FaultRec) : (writeFault s r).invalidations = s.invalidations := rfl
@[simp] theorem writeFault_fe (s : State) (r : FaultRec) : (writeFault s r).fe = s.fe := rfl
@[simp] theorem writeFault_ring (s : State) (r : FaultRec) : (writeFault s r).ring = s.ring := rfl
@[simp] theorem writeFault_policy (s : State) (r : FaultRec) : (writeFault s r).policy = s.policy := rfl
@[simp] theorem writeFault_supervisor (s : State) (r : FaultRec) : (writeFault s r).supervisor = s.supervisor := rfl
@[simp] theorem writeFault_mailbox (s : State) (r : FaultRec) : (writeFault s r).mailbox = s.mailbox := rfl
@[simp] theorem writeFault_windows (s : State) (r : FaultRec) : (writeFault s r).windows = s.windows := rfl
@[simp] theorem writeFault_qps (s : State) (r : FaultRec) : (writeFault s r).qps = s.qps := rfl
@[simp] theorem writeFault_qpErrors (s : State) (r : FaultRec) : (writeFault s r).qpErrors = s.qpErrors := rfl
@[simp] theorem writeFault_peerBinding (s : State) (r : FaultRec) : (writeFault s r).peerBinding = s.peerBinding := rfl
@[simp] theorem writeFault_peerPending (s : State) (r : FaultRec) : (writeFault s r).peerPending = s.peerPending := rfl
@[simp] theorem writeFault_peerWrites (s : State) (r : FaultRec) : (writeFault s r).peerWrites = s.peerWrites := rfl
@[simp] theorem writeFault_linkReads (s : State) (r : FaultRec) : (writeFault s r).linkReads = s.linkReads := rfl
@[simp] theorem writeFault_linkHeld (s : State) (r : FaultRec) : (writeFault s r).linkHeld = s.linkHeld := rfl
@[simp] theorem writeFault_boot (s : State) (r : FaultRec) : (writeFault s r).boot = s.boot := rfl
@[simp] theorem writeFault_images (s : State) (r : FaultRec) : (writeFault s r).images = s.images := rfl
@[simp] theorem writeFault_attestIndex (s : State) (r : FaultRec) : (writeFault s r).attestIndex = s.attestIndex := rfl
@[simp] theorem writeFault_health (s : State) (r : FaultRec) : (writeFault s r).health = s.health := rfl
@[simp] theorem writeFault_portTime (s : State) (r : FaultRec) : (writeFault s r).portTime = s.portTime := rfl
@[simp] theorem writeFault_memBytes (s : State) (r : FaultRec) : (writeFault s r).memBytes = s.memBytes := rfl
@[simp] theorem writeFault_idleTurn (s : State) (r : FaultRec) : (writeFault s r).idleTurn = s.idleTurn := rfl

/-! ## report -/

@[simp] theorem report_agenda (s : State) (r : TrapRec) : (report s r).agenda = s.agenda := rfl
@[simp] theorem report_focus (s : State) (r : TrapRec) : (report s r).focus = s.focus := rfl
@[simp] theorem report_nextUid (s : State) (r : TrapRec) : (report s r).nextUid = s.nextUid := rfl
@[simp] theorem report_freeCtr (s : State) (r : TrapRec) : (report s r).freeCtr = s.freeCtr := rfl
@[simp] theorem report_mem (s : State) (r : TrapRec) : (report s r).mem = s.mem := rfl
@[simp] theorem report_owned (s : State) (r : TrapRec) : (report s r).owned = s.owned := rfl
@[simp] theorem report_badLines (s : State) (r : TrapRec) : (report s r).badLines = s.badLines := rfl
@[simp] theorem report_cores (s : State) (r : TrapRec) : (report s r).cores = s.cores := rfl
@[simp] theorem report_clusters (s : State) (r : TrapRec) : (report s r).clusters = s.clusters := rfl
@[simp] theorem report_stackPairs (s : State) (r : TrapRec) : (report s r).stackPairs = s.stackPairs := rfl
@[simp] theorem report_boundary (s : State) (r : TrapRec) : (report s r).boundary = s.boundary := rfl
@[simp] theorem report_teams (s : State) (r : TrapRec) : (report s r).teams = s.teams := rfl
@[simp] theorem report_gangs (s : State) (r : TrapRec) : (report s r).gangs = s.gangs := rfl
@[simp] theorem report_grids (s : State) (r : TrapRec) : (report s r).grids = s.grids := rfl
@[simp] theorem report_gangOps (s : State) (r : TrapRec) : (report s r).gangOps = s.gangOps := rfl
@[simp] theorem report_contexts (s : State) (r : TrapRec) : (report s r).contexts = s.contexts := rfl
@[simp] theorem report_queues (s : State) (r : TrapRec) : (report s r).queues = s.queues := rfl
@[simp] theorem report_lastServed (s : State) (r : TrapRec) : (report s r).lastServed = s.lastServed := rfl
@[simp] theorem report_service (s : State) (r : TrapRec) : (report s r).service = s.service := rfl
@[simp] theorem report_readyPool (s : State) (r : TrapRec) : (report s r).readyPool = s.readyPool := rfl
@[simp] theorem report_dispatched (s : State) (r : TrapRec) : (report s r).dispatched = s.dispatched := rfl
@[simp] theorem report_startedIn (s : State) (r : TrapRec) : (report s r).startedIn = s.startedIn := rfl
@[simp] theorem report_gathering (s : State) (r : TrapRec) : (report s r).gathering = s.gathering := rfl
@[simp] theorem report_wagons (s : State) (r : TrapRec) : (report s r).wagons = s.wagons := rfl
@[simp] theorem report_pools (s : State) (r : TrapRec) : (report s r).pools = s.pools := rfl
@[simp] theorem report_pinnedWays (s : State) (r : TrapRec) : (report s r).pinnedWays = s.pinnedWays := rfl
@[simp] theorem report_waysHeld (s : State) (r : TrapRec) : (report s r).waysHeld = s.waysHeld := rfl
@[simp] theorem report_layerHeld (s : State) (r : TrapRec) : (report s r).layerHeld = s.layerHeld := rfl
@[simp] theorem report_layerSeq (s : State) (r : TrapRec) : (report s r).layerSeq = s.layerSeq := rfl
@[simp] theorem report_migrations (s : State) (r : TrapRec) : (report s r).migrations = s.migrations := rfl
@[simp] theorem report_backing (s : State) (r : TrapRec) : (report s r).backing = s.backing := rfl
@[simp] theorem report_faultBuf (s : State) (r : TrapRec) : (report s r).faultBuf = s.faultBuf := rfl
@[simp] theorem report_freeFrames (s : State) (r : TrapRec) : (report s r).freeFrames = s.freeFrames := rfl
@[simp] theorem report_freshFrame (s : State) (r : TrapRec) : (report s r).freshFrame = s.freshFrame := rfl
@[simp] theorem report_serviceWait (s : State) (r : TrapRec) : (report s r).serviceWait = s.serviceWait := rfl
@[simp] theorem report_evicting (s : State) (r : TrapRec) : (report s r).evicting = s.evicting := rfl
@[simp] theorem report_denials (s : State) (r : TrapRec) : (report s r).denials = s.denials := rfl
@[simp] theorem report_evicted (s : State) (r : TrapRec) : (report s r).evicted = s.evicted := rfl
@[simp] theorem report_invalidations (s : State) (r : TrapRec) : (report s r).invalidations = s.invalidations := rfl
@[simp] theorem report_fe (s : State) (r : TrapRec) : (report s r).fe = s.fe := rfl
@[simp] theorem report_ring (s : State) (r : TrapRec) : (report s r).ring = s.ring := rfl
@[simp] theorem report_policy (s : State) (r : TrapRec) : (report s r).policy = s.policy := rfl
@[simp] theorem report_mailbox (s : State) (r : TrapRec) : (report s r).mailbox = s.mailbox := rfl
@[simp] theorem report_windows (s : State) (r : TrapRec) : (report s r).windows = s.windows := rfl
@[simp] theorem report_qps (s : State) (r : TrapRec) : (report s r).qps = s.qps := rfl
@[simp] theorem report_qpErrors (s : State) (r : TrapRec) : (report s r).qpErrors = s.qpErrors := rfl
@[simp] theorem report_peerBinding (s : State) (r : TrapRec) : (report s r).peerBinding = s.peerBinding := rfl
@[simp] theorem report_peerPending (s : State) (r : TrapRec) : (report s r).peerPending = s.peerPending := rfl
@[simp] theorem report_peerWrites (s : State) (r : TrapRec) : (report s r).peerWrites = s.peerWrites := rfl
@[simp] theorem report_linkReads (s : State) (r : TrapRec) : (report s r).linkReads = s.linkReads := rfl
@[simp] theorem report_linkHeld (s : State) (r : TrapRec) : (report s r).linkHeld = s.linkHeld := rfl
@[simp] theorem report_boot (s : State) (r : TrapRec) : (report s r).boot = s.boot := rfl
@[simp] theorem report_images (s : State) (r : TrapRec) : (report s r).images = s.images := rfl
@[simp] theorem report_attestIndex (s : State) (r : TrapRec) : (report s r).attestIndex = s.attestIndex := rfl
@[simp] theorem report_health (s : State) (r : TrapRec) : (report s r).health = s.health := rfl
@[simp] theorem report_portTime (s : State) (r : TrapRec) : (report s r).portTime = s.portTime := rfl
@[simp] theorem report_memBytes (s : State) (r : TrapRec) : (report s r).memBytes = s.memBytes := rfl
@[simp] theorem report_idleTurn (s : State) (r : TrapRec) : (report s r).idleTurn = s.idleTurn := rfl

/-! ## hostEvent -/

@[simp] theorem hostEvent_agenda (s : State) (e : HostEvent) : (hostEvent s e).agenda = s.agenda := rfl
@[simp] theorem hostEvent_focus (s : State) (e : HostEvent) : (hostEvent s e).focus = s.focus := rfl
@[simp] theorem hostEvent_nextUid (s : State) (e : HostEvent) : (hostEvent s e).nextUid = s.nextUid := rfl
@[simp] theorem hostEvent_freeCtr (s : State) (e : HostEvent) : (hostEvent s e).freeCtr = s.freeCtr := rfl
@[simp] theorem hostEvent_mem (s : State) (e : HostEvent) : (hostEvent s e).mem = s.mem := rfl
@[simp] theorem hostEvent_owned (s : State) (e : HostEvent) : (hostEvent s e).owned = s.owned := rfl
@[simp] theorem hostEvent_badLines (s : State) (e : HostEvent) : (hostEvent s e).badLines = s.badLines := rfl
@[simp] theorem hostEvent_cores (s : State) (e : HostEvent) : (hostEvent s e).cores = s.cores := rfl
@[simp] theorem hostEvent_clusters (s : State) (e : HostEvent) : (hostEvent s e).clusters = s.clusters := rfl
@[simp] theorem hostEvent_stackPairs (s : State) (e : HostEvent) : (hostEvent s e).stackPairs = s.stackPairs := rfl
@[simp] theorem hostEvent_boundary (s : State) (e : HostEvent) : (hostEvent s e).boundary = s.boundary := rfl
@[simp] theorem hostEvent_teams (s : State) (e : HostEvent) : (hostEvent s e).teams = s.teams := rfl
@[simp] theorem hostEvent_gangs (s : State) (e : HostEvent) : (hostEvent s e).gangs = s.gangs := rfl
@[simp] theorem hostEvent_grids (s : State) (e : HostEvent) : (hostEvent s e).grids = s.grids := rfl
@[simp] theorem hostEvent_gangOps (s : State) (e : HostEvent) : (hostEvent s e).gangOps = s.gangOps := rfl
@[simp] theorem hostEvent_contexts (s : State) (e : HostEvent) : (hostEvent s e).contexts = s.contexts := rfl
@[simp] theorem hostEvent_queues (s : State) (e : HostEvent) : (hostEvent s e).queues = s.queues := rfl
@[simp] theorem hostEvent_lastServed (s : State) (e : HostEvent) : (hostEvent s e).lastServed = s.lastServed := rfl
@[simp] theorem hostEvent_service (s : State) (e : HostEvent) : (hostEvent s e).service = s.service := rfl
@[simp] theorem hostEvent_readyPool (s : State) (e : HostEvent) : (hostEvent s e).readyPool = s.readyPool := rfl
@[simp] theorem hostEvent_dispatched (s : State) (e : HostEvent) : (hostEvent s e).dispatched = s.dispatched := rfl
@[simp] theorem hostEvent_startedIn (s : State) (e : HostEvent) : (hostEvent s e).startedIn = s.startedIn := rfl
@[simp] theorem hostEvent_gathering (s : State) (e : HostEvent) : (hostEvent s e).gathering = s.gathering := rfl
@[simp] theorem hostEvent_wagons (s : State) (e : HostEvent) : (hostEvent s e).wagons = s.wagons := rfl
@[simp] theorem hostEvent_pools (s : State) (e : HostEvent) : (hostEvent s e).pools = s.pools := rfl
@[simp] theorem hostEvent_pinnedWays (s : State) (e : HostEvent) : (hostEvent s e).pinnedWays = s.pinnedWays := rfl
@[simp] theorem hostEvent_waysHeld (s : State) (e : HostEvent) : (hostEvent s e).waysHeld = s.waysHeld := rfl
@[simp] theorem hostEvent_layerHeld (s : State) (e : HostEvent) : (hostEvent s e).layerHeld = s.layerHeld := rfl
@[simp] theorem hostEvent_layerSeq (s : State) (e : HostEvent) : (hostEvent s e).layerSeq = s.layerSeq := rfl
@[simp] theorem hostEvent_migrations (s : State) (e : HostEvent) : (hostEvent s e).migrations = s.migrations := rfl
@[simp] theorem hostEvent_backing (s : State) (e : HostEvent) : (hostEvent s e).backing = s.backing := rfl
@[simp] theorem hostEvent_faultBuf (s : State) (e : HostEvent) : (hostEvent s e).faultBuf = s.faultBuf := rfl
@[simp] theorem hostEvent_freeFrames (s : State) (e : HostEvent) : (hostEvent s e).freeFrames = s.freeFrames := rfl
@[simp] theorem hostEvent_freshFrame (s : State) (e : HostEvent) : (hostEvent s e).freshFrame = s.freshFrame := rfl
@[simp] theorem hostEvent_serviceWait (s : State) (e : HostEvent) : (hostEvent s e).serviceWait = s.serviceWait := rfl
@[simp] theorem hostEvent_evicting (s : State) (e : HostEvent) : (hostEvent s e).evicting = s.evicting := rfl
@[simp] theorem hostEvent_denials (s : State) (e : HostEvent) : (hostEvent s e).denials = s.denials := rfl
@[simp] theorem hostEvent_evicted (s : State) (e : HostEvent) : (hostEvent s e).evicted = s.evicted := rfl
@[simp] theorem hostEvent_invalidations (s : State) (e : HostEvent) : (hostEvent s e).invalidations = s.invalidations := rfl
@[simp] theorem hostEvent_fe (s : State) (e : HostEvent) : (hostEvent s e).fe = s.fe := rfl
@[simp] theorem hostEvent_ring (s : State) (e : HostEvent) : (hostEvent s e).ring = s.ring := rfl
@[simp] theorem hostEvent_policy (s : State) (e : HostEvent) : (hostEvent s e).policy = s.policy := rfl
@[simp] theorem hostEvent_supervisor (s : State) (e : HostEvent) : (hostEvent s e).supervisor = s.supervisor := rfl
@[simp] theorem hostEvent_windows (s : State) (e : HostEvent) : (hostEvent s e).windows = s.windows := rfl
@[simp] theorem hostEvent_qps (s : State) (e : HostEvent) : (hostEvent s e).qps = s.qps := rfl
@[simp] theorem hostEvent_qpErrors (s : State) (e : HostEvent) : (hostEvent s e).qpErrors = s.qpErrors := rfl
@[simp] theorem hostEvent_peerBinding (s : State) (e : HostEvent) : (hostEvent s e).peerBinding = s.peerBinding := rfl
@[simp] theorem hostEvent_peerPending (s : State) (e : HostEvent) : (hostEvent s e).peerPending = s.peerPending := rfl
@[simp] theorem hostEvent_peerWrites (s : State) (e : HostEvent) : (hostEvent s e).peerWrites = s.peerWrites := rfl
@[simp] theorem hostEvent_linkReads (s : State) (e : HostEvent) : (hostEvent s e).linkReads = s.linkReads := rfl
@[simp] theorem hostEvent_linkHeld (s : State) (e : HostEvent) : (hostEvent s e).linkHeld = s.linkHeld := rfl
@[simp] theorem hostEvent_boot (s : State) (e : HostEvent) : (hostEvent s e).boot = s.boot := rfl
@[simp] theorem hostEvent_images (s : State) (e : HostEvent) : (hostEvent s e).images = s.images := rfl
@[simp] theorem hostEvent_attestIndex (s : State) (e : HostEvent) : (hostEvent s e).attestIndex = s.attestIndex := rfl
@[simp] theorem hostEvent_health (s : State) (e : HostEvent) : (hostEvent s e).health = s.health := rfl
@[simp] theorem hostEvent_portTime (s : State) (e : HostEvent) : (hostEvent s e).portTime = s.portTime := rfl
@[simp] theorem hostEvent_memBytes (s : State) (e : HostEvent) : (hostEvent s e).memBytes = s.memBytes := rfl
@[simp] theorem hostEvent_idleTurn (s : State) (e : HostEvent) : (hostEvent s e).idleTurn = s.idleTurn := rfl

/-! ## releaseLines -/

@[simp] theorem releaseLines_agenda (s : State) (op : Nat) : (releaseLines op s).agenda = s.agenda := rfl
@[simp] theorem releaseLines_focus (s : State) (op : Nat) : (releaseLines op s).focus = s.focus := rfl
@[simp] theorem releaseLines_nextUid (s : State) (op : Nat) : (releaseLines op s).nextUid = s.nextUid := rfl
@[simp] theorem releaseLines_freeCtr (s : State) (op : Nat) : (releaseLines op s).freeCtr = s.freeCtr := rfl
@[simp] theorem releaseLines_mem (s : State) (op : Nat) : (releaseLines op s).mem = s.mem := rfl
@[simp] theorem releaseLines_badLines (s : State) (op : Nat) : (releaseLines op s).badLines = s.badLines := rfl
@[simp] theorem releaseLines_cores (s : State) (op : Nat) : (releaseLines op s).cores = s.cores := rfl
@[simp] theorem releaseLines_clusters (s : State) (op : Nat) : (releaseLines op s).clusters = s.clusters := rfl
@[simp] theorem releaseLines_stackPairs (s : State) (op : Nat) : (releaseLines op s).stackPairs = s.stackPairs := rfl
@[simp] theorem releaseLines_boundary (s : State) (op : Nat) : (releaseLines op s).boundary = s.boundary := rfl
@[simp] theorem releaseLines_teams (s : State) (op : Nat) : (releaseLines op s).teams = s.teams := rfl
@[simp] theorem releaseLines_gangs (s : State) (op : Nat) : (releaseLines op s).gangs = s.gangs := rfl
@[simp] theorem releaseLines_grids (s : State) (op : Nat) : (releaseLines op s).grids = s.grids := rfl
@[simp] theorem releaseLines_gangOps (s : State) (op : Nat) : (releaseLines op s).gangOps = s.gangOps := rfl
@[simp] theorem releaseLines_contexts (s : State) (op : Nat) : (releaseLines op s).contexts = s.contexts := rfl
@[simp] theorem releaseLines_queues (s : State) (op : Nat) : (releaseLines op s).queues = s.queues := rfl
@[simp] theorem releaseLines_lastServed (s : State) (op : Nat) : (releaseLines op s).lastServed = s.lastServed := rfl
@[simp] theorem releaseLines_service (s : State) (op : Nat) : (releaseLines op s).service = s.service := rfl
@[simp] theorem releaseLines_readyPool (s : State) (op : Nat) : (releaseLines op s).readyPool = s.readyPool := rfl
@[simp] theorem releaseLines_dispatched (s : State) (op : Nat) : (releaseLines op s).dispatched = s.dispatched := rfl
@[simp] theorem releaseLines_startedIn (s : State) (op : Nat) : (releaseLines op s).startedIn = s.startedIn := rfl
@[simp] theorem releaseLines_gathering (s : State) (op : Nat) : (releaseLines op s).gathering = s.gathering := rfl
@[simp] theorem releaseLines_wagons (s : State) (op : Nat) : (releaseLines op s).wagons = s.wagons := rfl
@[simp] theorem releaseLines_pools (s : State) (op : Nat) : (releaseLines op s).pools = s.pools := rfl
@[simp] theorem releaseLines_pinnedWays (s : State) (op : Nat) : (releaseLines op s).pinnedWays = s.pinnedWays := rfl
@[simp] theorem releaseLines_waysHeld (s : State) (op : Nat) : (releaseLines op s).waysHeld = s.waysHeld := rfl
@[simp] theorem releaseLines_layerHeld (s : State) (op : Nat) : (releaseLines op s).layerHeld = s.layerHeld := rfl
@[simp] theorem releaseLines_layerSeq (s : State) (op : Nat) : (releaseLines op s).layerSeq = s.layerSeq := rfl
@[simp] theorem releaseLines_migrations (s : State) (op : Nat) : (releaseLines op s).migrations = s.migrations := rfl
@[simp] theorem releaseLines_backing (s : State) (op : Nat) : (releaseLines op s).backing = s.backing := rfl
@[simp] theorem releaseLines_faultBuf (s : State) (op : Nat) : (releaseLines op s).faultBuf = s.faultBuf := rfl
@[simp] theorem releaseLines_freeFrames (s : State) (op : Nat) : (releaseLines op s).freeFrames = s.freeFrames := rfl
@[simp] theorem releaseLines_freshFrame (s : State) (op : Nat) : (releaseLines op s).freshFrame = s.freshFrame := rfl
@[simp] theorem releaseLines_serviceWait (s : State) (op : Nat) : (releaseLines op s).serviceWait = s.serviceWait := rfl
@[simp] theorem releaseLines_evicting (s : State) (op : Nat) : (releaseLines op s).evicting = s.evicting := rfl
@[simp] theorem releaseLines_denials (s : State) (op : Nat) : (releaseLines op s).denials = s.denials := rfl
@[simp] theorem releaseLines_evicted (s : State) (op : Nat) : (releaseLines op s).evicted = s.evicted := rfl
@[simp] theorem releaseLines_invalidations (s : State) (op : Nat) : (releaseLines op s).invalidations = s.invalidations := rfl
@[simp] theorem releaseLines_fe (s : State) (op : Nat) : (releaseLines op s).fe = s.fe := rfl
@[simp] theorem releaseLines_ring (s : State) (op : Nat) : (releaseLines op s).ring = s.ring := rfl
@[simp] theorem releaseLines_policy (s : State) (op : Nat) : (releaseLines op s).policy = s.policy := rfl
@[simp] theorem releaseLines_supervisor (s : State) (op : Nat) : (releaseLines op s).supervisor = s.supervisor := rfl
@[simp] theorem releaseLines_mailbox (s : State) (op : Nat) : (releaseLines op s).mailbox = s.mailbox := rfl
@[simp] theorem releaseLines_windows (s : State) (op : Nat) : (releaseLines op s).windows = s.windows := rfl
@[simp] theorem releaseLines_qps (s : State) (op : Nat) : (releaseLines op s).qps = s.qps := rfl
@[simp] theorem releaseLines_qpErrors (s : State) (op : Nat) : (releaseLines op s).qpErrors = s.qpErrors := rfl
@[simp] theorem releaseLines_peerBinding (s : State) (op : Nat) : (releaseLines op s).peerBinding = s.peerBinding := rfl
@[simp] theorem releaseLines_peerPending (s : State) (op : Nat) : (releaseLines op s).peerPending = s.peerPending := rfl
@[simp] theorem releaseLines_peerWrites (s : State) (op : Nat) : (releaseLines op s).peerWrites = s.peerWrites := rfl
@[simp] theorem releaseLines_linkReads (s : State) (op : Nat) : (releaseLines op s).linkReads = s.linkReads := rfl
@[simp] theorem releaseLines_linkHeld (s : State) (op : Nat) : (releaseLines op s).linkHeld = s.linkHeld := rfl
@[simp] theorem releaseLines_boot (s : State) (op : Nat) : (releaseLines op s).boot = s.boot := rfl
@[simp] theorem releaseLines_images (s : State) (op : Nat) : (releaseLines op s).images = s.images := rfl
@[simp] theorem releaseLines_attestIndex (s : State) (op : Nat) : (releaseLines op s).attestIndex = s.attestIndex := rfl
@[simp] theorem releaseLines_health (s : State) (op : Nat) : (releaseLines op s).health = s.health := rfl
@[simp] theorem releaseLines_portTime (s : State) (op : Nat) : (releaseLines op s).portTime = s.portTime := rfl
@[simp] theorem releaseLines_memBytes (s : State) (op : Nat) : (releaseLines op s).memBytes = s.memBytes := rfl
@[simp] theorem releaseLines_idleTurn (s : State) (op : Nat) : (releaseLines op s).idleTurn = s.idleTurn := rfl

/-! ## Reading back -/

@[simp] theorem coreAt_modCore_same (s : State) (c : Nat) (f : Core → Core) : coreAt (modCore s c f) c = f (coreAt s c) := by
  simp [coreAt, modCore]

theorem coreAt_modCore_ne (s : State) {c j : Nat} (f : Core → Core) (h : j ≠ c) : coreAt (modCore s c f) j = coreAt s j := by
  simp [coreAt, modCore, tget_tset_ne _ _ _ h]

@[simp] theorem clusterAt_modCluster_same (s : State) (c : Nat) (f : Cluster → Cluster) : clusterAt (modCluster s c f) c = f (clusterAt s c) := by
  simp [clusterAt, modCluster]

theorem clusterAt_modCluster_ne (s : State) {c j : Nat} (f : Cluster → Cluster) (h : j ≠ c) : clusterAt (modCluster s c f) j = clusterAt s j := by
  simp [clusterAt, modCluster, tget_tset_ne _ _ _ h]

@[simp] theorem pairAt_modPair_same (s : State) (p : Nat) (f : Pair → Pair) : pairAt (modPair s p f) p = f (pairAt s p) := by
  simp [pairAt, modPair]

theorem pairAt_modPair_ne (s : State) {p j : Nat} (f : Pair → Pair) (h : j ≠ p) : pairAt (modPair s p f) j = pairAt s j := by
  simp [pairAt, modPair, tget_tset_ne _ _ _ h]

@[simp] theorem teamAt_modTeam_same (s : State) (t : Nat) (f : Team → Team) : teamAt (modTeam s t f) t = f (teamAt s t) := by
  simp [teamAt, modTeam]

theorem teamAt_modTeam_ne (s : State) {t j : Nat} (f : Team → Team) (h : j ≠ t) : teamAt (modTeam s t f) j = teamAt s j := by
  simp [teamAt, modTeam, tget_tset_ne _ _ _ h]

@[simp] theorem gangAt_modGang_same (s : State) (g : Nat) (f : Gang → Gang) : gangAt (modGang s g f) g = f (gangAt s g) := by
  simp [gangAt, modGang]

theorem gangAt_modGang_ne (s : State) {g j : Nat} (f : Gang → Gang) (h : j ≠ g) : gangAt (modGang s g f) j = gangAt s j := by
  simp [gangAt, modGang, tget_tset_ne _ _ _ h]

@[simp] theorem gridAt_modGrid_same (s : State) (g : Nat) (f : Grid → Grid) : gridAt (modGrid s g f) g = f (gridAt s g) := by
  simp [gridAt, modGrid]

theorem gridAt_modGrid_ne (s : State) {g j : Nat} (f : Grid → Grid) (h : j ≠ g) : gridAt (modGrid s g f) j = gridAt s j := by
  simp [gridAt, modGrid, tget_tset_ne _ _ _ h]

@[simp] theorem ctxAt_modCtx_same (s : State) (c : Nat) (f : Context → Context) : ctxAt (modCtx s c f) c = f (ctxAt s c) := by
  simp [ctxAt, modCtx]

theorem ctxAt_modCtx_ne (s : State) {c j : Nat} (f : Context → Context) (h : j ≠ c) : ctxAt (modCtx s c f) j = ctxAt s j := by
  simp [ctxAt, modCtx, tget_tset_ne _ _ _ h]

@[simp] theorem queueAt_modQueue_same (s : State) (q : Nat) (f : Queue → Queue) : queueAt (modQueue s q f) q = f (queueAt s q) := by
  simp [queueAt, modQueue]

theorem queueAt_modQueue_ne (s : State) {q j : Nat} (f : Queue → Queue) (h : j ≠ q) : queueAt (modQueue s q f) j = queueAt s j := by
  simp [queueAt, modQueue, tget_tset_ne _ _ _ h]

@[simp] theorem wagonAt_modWagon_same (s : State) (q : Nat) (f : WagonQueue → WagonQueue) : wagonAt (modWagon s q f) q = f (wagonAt s q) := by
  simp [wagonAt, modWagon]

theorem wagonAt_modWagon_ne (s : State) {q j : Nat} (f : WagonQueue → WagonQueue) (h : j ≠ q) : wagonAt (modWagon s q f) j = wagonAt s j := by
  simp [wagonAt, modWagon, tget_tset_ne _ _ _ h]

@[simp] theorem poolAt_modPool_same (s : State) (p : Nat) (f : Pool → Pool) : poolAt (modPool s p f) p = f (poolAt s p) := by
  simp [poolAt, modPool]

theorem poolAt_modPool_ne (s : State) {p j : Nat} (f : Pool → Pool) (h : j ≠ p) : poolAt (modPool s p f) j = poolAt s j := by
  simp [poolAt, modPool, tget_tset_ne _ _ _ h]

end Sys2Proof.Machine
end

