-- ==== Sys2Proof/Laws/Units.lean ====
section
/-! SUPPORT. Units and threads: reads after writes, what a lane's write leaves alone, and what the short words do to their unit. -/

namespace Sys2Proof.Machine

/-! ## Units -/

@[simp] theorem unitAt_setUnit_same (s : State) (u : UnitId) (g : Grp) : unitAt (setUnit s u g) u = g := by
  simp [unitAt, setUnit]

theorem unitAt_setUnit_ne (s : State) {u v : UnitId} (g : Grp) (h : v ≠ u) : unitAt (setUnit s u g) v = unitAt s v := by
  unfold unitAt setUnit
  by_cases ht : v.team = u.team
  · have hi : v.idx ≠ u.idx := fun e => h (by cases u; cases v; simp_all)
    rw [ht]
    simp [tget_tset_ne _ _ _ hi]
  · rw [teamAt_modTeam_ne _ _ ht]

@[simp] theorem setUnit_setUnit (s : State) (u : UnitId) (g h : Grp) : unitAt (setUnit (setUnit s u g) u h) u = h := by simp

/-! ## Threads -/

@[simp] theorem thrAt_modThr_same (g : Grp) (l : Nat) (f : Thread → Thread) : thrAt (modThr g l f) l = f (thrAt g l) := by
  simp [thrAt, modThr]

theorem thrAt_modThr_ne (g : Grp) {l j : Nat} (f : Thread → Thread) (h : j ≠ l) : thrAt (modThr g l f) j = thrAt g j := by
  simp [thrAt, modThr, tget_tset_ne _ _ _ h]

theorem thrAt_modThr (g : Grp) (l j : Nat) (f : Thread → Thread) : thrAt (modThr g l f) j = if j = l then f (thrAt g l) else thrAt g j := by
  split
  · rename_i h; subst h; simp
  · rename_i h; exact thrAt_modThr_ne g f h

@[simp] theorem advance_threads (g : Grp) : (advance g).threads = g.threads := by
  unfold advance; split <;> rfl

@[simp] theorem advance_k (g : Grp) : (advance g).k = g.k := by
  unfold advance; split <;> rfl

@[simp] theorem advance_s (g : Grp) : (advance g).s = g.s := by
  unfold advance; split <;> rfl

@[simp] theorem thrAt_advance (g : Grp) (l : Nat) : thrAt (advance g) l = thrAt g l := by simp [thrAt]

@[simp] theorem kAt_advance (g : Grp) (i : Nat) : kAt (advance g) i = kAt g i := by simp [kAt]

@[simp] theorem sAt_advance (g : Grp) (i : Nat) : sAt (advance g) i = sAt g i := by simp [sAt]

/-! ## A word that issues -/

/-- A word without a cause has its effect. -/
theorem word_effect {i : Instr} {s : State} {x : Ctx} (f : Ctx → State) (hx : issuing s = some x) (hc : wordCheck x i = none) :
    word i s f = .next (f x) := by simp [word, hx, hc]

/-- A word with a cause traps. -/
theorem word_trap {i : Instr} {s : State} {x : Ctx} {c : Cause} {n : Nat} (f : Ctx → State) (hx : issuing s = some x)
    (hc : wordCheck x i = some (c, n)) : word i s f = .next (trapWord s x c n x.cl.mask (causeAddr i c)) := by simp [word, hx, hc]

/-- The issuing unit is the unit of the state. -/
theorem issuing_unit {s : State} {x : Ctx} (hx : issuing s = some x) : x.g = unitAt s x.u ∧ x.g.clause = some x.cl := by
  unfold issuing at hx
  split at hx
  · exact absurd hx (by simp)
  · split at hx
    · exact absurd hx (by simp)
    · rename_i hcl
      simp only [Option.some.injEq] at hx
      subst hx
      exact ⟨rfl, hcl⟩

end Sys2Proof.Machine
end

