-- ==== Sys2Proof/Certificates/Slice0/Obligations.lean ====
section
/-! DEFINITION. The statements for the provers. Each names the rules it rests on; where a clause is the model's own choice the
docstring names the log entry. The vocabulary stands first: what it is for a word to issue, and what its effect leaves alone. -/

set_option linter.unusedVariables false

namespace Sys2Proof.Claims

open Sys2Proof.Machine

/-- exec answers a next state, and the next state meets a condition. -/
def goesTo (i : Instr) (s : State) (post : State → Prop) : Prop := ∃ t, exec i s = .next t ∧ post t

/-- A word issues: a unit is in a clause at it, and no cause of 06 R143 or 02 R57 stands against it. -/
def issues (i : Instr) (s : State) (x : Ctx) : Prop := issuing s = some x ∧ wordCheck x i = none

/-- Nothing of the machine changes outside one unit: no memory, no other unit, no core, context or queue. -/
def onlyUnit (s t : State) (u : UnitId) : Prop := t = setUnit s u (unitAt t u)

/-- Of a unit, only threads and conductor registers change, and the clause goes on by one word. -/
def onlyThreads (g h : Grp) : Prop := ∃ ths k, h = { advance g with threads := ths, k := k }

/-- A lane after a word that writes a 32-bit result to lt and d, and sets flags: every other register of the thread stays. -/
def wrote32 (cond : Bool) (d : OField) (val : W32) (flags : BitVec 5) (old new : Thread) : Prop :=
  new = { old with lt := val, t := new.t, fpstat := old.fpstat ||| flags } ∧
  ∀ n, tAt new n = if cond = false ∧ n = d.toNat ∧ n ≤ 11 then val else tAt old n

/-- A lane after a word that writes a predicate, and lt in step: p0 discards the write (02 R43, 07 R154). -/
def wroteP (p : PIdx) (b : Bool) (flags : BitVec 5) (old new : Thread) : Prop :=
  new = { old with lt := if b then 1 else 0, p := new.p, fpstat := old.fpstat ||| flags } ∧
  ∀ n, n < 8 → new.p.getLsbD n = if n = p.toNat ∧ n ≠ 0 then b else old.p.getLsbD n

/-- A lane after a word that writes 64 bits: the pair d, d + 1 and lt, or lt alone (07 R157). -/
def wrote64 (cond : Bool) (d : OField) (val : W64) (old new : Thread) : Prop :=
  new = { old with lt := val.extractLsb' 0 32, t := new.t } ∧
  ∀ n, tAt new n =
    if cond = false ∧ d.toNat ≤ 11 ∧ n = d.toNat then val.extractLsb' 0 32
    else if cond = false ∧ d.toNat ≤ 11 ∧ n = d.toNat + 1 then val.extractLsb' 32 32
    else tAt old n

/-- The conductor registers after a word whose participants ps write 64-bit values to d: the last participant's stands. -/
def kAfter (cond : Bool) (d : OField) (ps : List Nat) (val : Nat → W64) (g h : Grp) : Prop :=
  ∀ n, kAt h n =
    match ps.getLast? with
    | some l => if cond = true ∧ n = d.toNat ∧ n ≤ 11 then val l else kAt g n
    | none => kAt g n

/-- A register word: each participant's thread meets post, every other lane stays, the clause goes on, and nothing else of the machine
changes. -/
def laneEffect (i : Instr) (g : Guard) (post : Ctx → Nat → Thread → Thread → Prop) (kpost : Ctx → Grp → Prop) : Prop :=
  ∀ s x, issues i s x → goesTo i s (fun t =>
    onlyUnit s t x.u ∧ onlyThreads x.g (unitAt t x.u) ∧
    (∀ l, l ∉ x.parts g → thrAt (unitAt t x.u) l = x.thr l) ∧
    (∀ l ∈ x.parts g, post x l (x.thr l) (thrAt (unitAt t x.u) l)) ∧
    kpost x (unitAt t x.u))

/-- A word with a 32-bit result and flags. -/
def writes32 (i : Instr) (g : Guard) (d : OField) (f : Ctx → Nat → W32 × BitVec 5) : Prop :=
  laneEffect i g (fun x l => wrote32 x.cond d (f x l).1 (f x l).2)
    (fun x => kAfter x.cond d (x.parts g) (fun l => (f x l).1.setWidth 64) x.g)

/-- A word with a 32-bit result of one, two or three 32-bit sources, and no flags. -/
def result1 (i : Instr) (g : Guard) (d a : OField) (f : W32 → W32) : Prop := writes32 i g d (fun x l => (f (x.src l a), 0))
/-- Two sources. -/
def result2 (i : Instr) (g : Guard) (d a b : OField) (f : W32 → W32 → W32) : Prop :=
  writes32 i g d (fun x l => (f (x.src l a) (x.src l b), 0))
/-- Three sources. -/
def result3 (i : Instr) (g : Guard) (d a b c : OField) (f : W32 → W32 → W32 → W32) : Prop :=
  writes32 i g d (fun x l => (f (x.src l a) (x.src l b) (x.src l c), 0))

/-- A word with a 64-bit result. -/
def writes64 (i : Instr) (g : Guard) (d : OField) (f : Ctx → Nat → W64) : Prop :=
  laneEffect i g (fun x l => wrote64 x.cond d (f x l)) (fun x => kAfter x.cond d (x.parts g) (f x) x.g)

/-- A word with a predicate result. -/
def writesPred (i : Instr) (g : Guard) (p : PIdx) (f : Ctx → Nat → Bool × BitVec 5) : Prop :=
  laneEffect i g (fun x l => wroteP p (f x l).1 (f x l).2) (fun x h => h.k = x.g.k)

/-- Conditions of 07 R155 over two's-complement and unsigned readings. -/
def holds (k : Cond) {n : Nat} (a b : BitVec n) : Prop :=
  match k with
  | .eq => a = b
  | .ne => a ≠ b
  | .ltI => a.toInt < b.toInt
  | .leI => a.toInt ≤ b.toInt
  | .gtI => b.toInt < a.toInt
  | .geI => b.toInt ≤ a.toInt
  | .ltN => a.toNat < b.toNat
  | .leN => a.toNat ≤ b.toNat
  | .gtN => b.toNat < a.toNat
  | .geN => b.toNat ≤ a.toNat

/-- A comparison's predicate word: the predicate is 1 exactly where the condition holds. -/
def compares (i : Instr) (g : Guard) (p : PIdx) (c : Ctx → Nat → Prop) : Prop :=
  ∀ f : Ctx → Nat → Bool, (∀ x l, f x l = true ↔ c x l) → writesPred i g p (fun x l => (f x l, 0))

end Sys2Proof.Claims

open Sys2Proof Sys2Proof.Machine Sys2Proof.Claims

/-- The state after reset (16 R347, R348, R357, 17 R383, 19 R403, R405). -/
def Obligations.ResetHolds : Prop :=
  let s := State.reset
  s.teams = [] ∧ s.grids = [] ∧ s.gangs = [] ∧ s.contexts = [] ∧ s.queues = [] ∧ s.windows = [] ∧ s.wagons = [] ∧ s.pools = [] ∧
  (∀ c, (ctxAt s c).phase = .free) ∧ s.boot = .inReset ∧
  (∀ c, let k := clusterAt s c
    k.cyc = 0 ∧ k.ramp = true ∧ k.stepLimit = 128 ∧ k.bdb = 32 ∧ k.burstMax = 8 ∧ k.clim = 64 ∧ k.ebud = 4096 ∧ k.prev = 0 ∧ k.cur = 0 ∧
    k.gated = false ∧ k.balSkimming = false ∧ k.govStall = false ∧ k.govCnt = 0 ∧ k.balCnt = 0 ∧ k.tlb = [] ∧ k.ahead = [] ∧ k.walks = [] ∧ k.fills = []) ∧
  (∀ c, let k := coreAt s c
    k.tlb = [] ∧ k.log = [] ∧ k.matrix = [] ∧ k.copies = [] ∧ k.retired = false) ∧
  s.ring.ringTot = 0 ∧ s.ring.fcap = 0xFFFF ∧ s.ring.shunt = 128 ∧
  s.supervisor.freeze = false ∧ s.supervisor.frozen = false ∧ s.supervisor.pairErr = false ∧ s.supervisor.repCnt = 0 ∧ s.supervisor.reports = [] ∧
  s.health.cores = 192 ∧ s.health.coreSpares = 8 ∧ s.health.retired = [] ∧ s.health.replace = 0 ∧
  s.faultBuf = [] ∧ s.migrations = [] ∧ s.invalidations = [] ∧
  Memory.wf s.mem = true ∧ ∀ a, memRead s.mem a = 0

/-- An invariant of every step, of reachable and unreachable states alike. The canonical form, with no entry for a zero byte, is the model's
choice (log 1). -/
def Obligations.MemoryStaysCanonical : Prop :=
  ∀ s t, Memory.wf s.mem = true → step s = .next t → Memory.wf t.mem = true

/-- Decoder and encoder are inverse to each other on instruction words (06 R132, R133, R141). -/
def Obligations.DecodeAndEncodeAgree : Prop :=
  ∀ (w : W32) (i : Instr), decodeWord w = .ok i ↔ (wellFormed i = true ∧ encode i = some w)

/-- Words from the tables of 06 R123, R124 and R132, and the worked encoding of 08 R195. -/
def Obligations.DecodedWords : Prop :=
  let g (p : PIdx) (n : Bool) : Guard := ⟨p, n⟩
  decodeTableWord 32 (0x3F * 2 ^ 26 + 0x801 * 2 ^ 14 + 2 * 2 ^ 10 + 15 * 2 ^ 6 + 23 * 2) = some (.clauseHeader 0x801 2 15 23) ∧
  decodeTableWord 32 (0x3D * 2 ^ 26 + 200 * 2 ^ 18 + 12 * 2 ^ 14 + 7 * 2 ^ 6 + 3 * 2 ^ 2 + 2) = some (.clauseTrailer 200 12 7 3 2) ∧
  decodeTableWord 32 (0x3C * 2 ^ 26 + 0x812345) = some (.hintImmediate 0x812345) ∧
  decodeTableWord 32 (0x01 * 2 ^ 26 + 5 * 2 ^ 22 + 6 * 2 ^ 18 + 7 * 2 ^ 14 + 15 * 2 ^ 10 + 3 * 2 ^ 7 + 1 * 2 ^ 6 + 0x00) =
    some (.add 5 6 7 (g 3 true)) ∧
  decodeTableWord 32 (0x05 * 2 ^ 26 + 1 * 2 ^ 22 + 2 * 2 ^ 18 + 0x3FFFF) = some (.addi 1 2 0x3FFFF) ∧
  decodeTableWord 32 (0x0C * 2 ^ 26 + 0 * 2 ^ 22 + 1 * 2 ^ 18 + 2 * 2 ^ 14 + 15 * 2 ^ 10) = some (.fadd 0 1 2 (g 0 false)) ∧
  decodeTableWord 32 (0x18 * 2 ^ 26 + 252 * 2 ^ 18 + 8 * 2 ^ 14 + 1 * 2 ^ 11 + 3 * 2 ^ 8) = some (.movin 252 8 (g 1 false) 3) ∧
  decodeTableWord 32 (0x1C * 2 ^ 26 + 2 * 2 ^ 23 + 1 * 2 ^ 22 + 0x3FFFFF) = some (.bra (g 2 true) 0x3FFFFF) ∧
  decodeTableWord 32 0x88284408 = some (.ld ⟨10, 1, 2, 0, .glb, false⟩ .b32) ∧
  decodeTableWord 32 (0x27 * 2 ^ 26 + 4 * 2 ^ 22 + 3 * 2 ^ 18 + 20 * 2 ^ 12 + 2 * 2 ^ 9 + 3 * 2 ^ 4 + 9) = some (.atom 4 3 20 (g 2 false) .ar .cas) ∧
  decodeTableWord 32 (0x2E * 2 ^ 26 + 1 * 2 ^ 21 + 1 * 2 ^ 16 + 5 * 2 ^ 13 + 3 * 2 ^ 11 + 2 * 2 ^ 9 + 1 * 2 ^ 7 + 40 * 2 + 1) =
    some (.mma ⟨1, 1, 5, ⟨3, 2, 1⟩, 40, true⟩) ∧
  decodeTableWord 32 (0x36 * 2 ^ 26 + 9 * 2 ^ 18 + 33 * 2 ^ 12) = some (.copy 9 33) ∧
  decodeTableWord 32 (0x11 * 2 ^ 26) = none

/-- One step (01 R20, 06 R126). -/
def Obligations.StepRunsDecodedWord : Prop :=
  (∀ (s : State) (u : UnitId) (r : List Turn) (cl : Clause) (w : W32) (i : Instr) (s1 : State),
    s.agenda = .issue u :: r → s.supervisor.freeze = false → (teamAt s u.team).stopped = false → (teamAt s u.team).phase = .running →
    (unitAt s u).retired = false → (unitAt s u).held = none → (unitAt s u).deferred = [] → (unitAt s u).clause = some cl →
    decodeWord w = .ok i → (takesSlot i = false ∨ mayIssue { s with agenda := r } u = true) →
    let x : Ctx := { u := u, g := unitAt s u, cl := cl, t := teamAt s u.team }
    let s0 : State := { s with agenda := r }
    let runs : Prop := step s = match exec i { s1 with focus := some u } with
      | .next t => .next (settled { s1 with focus := some u } u i t)
      | .fault f => .fault f
      | .refused f => .refused f
    (cl.decoded = false → strayHandler s0 x = false → fetchHeld s0 x cl.head = [] → fetchAt s0 u cl.head = .word w s1 → runs) ∧
    (cl.decoded = true → cl.waited = true → fetchHeld (setUnit s0 u (unitAt s u)) x (cl.head + 4 * cl.next) = [] →
      fetchAt (setUnit s0 u (unitAt s u)) u (cl.head + 4 * cl.next) = .word w s1 →
      regBusy s1 x i = false → heldAt s1 x i = [] →
      (priceOf s1 x i = 0 ∨ ∀ c ∈ payers x.t, canPay s1 c (priceOf s1 x i) = true) → runs)) ∧
  (∀ (a b : State) (u : UnitId) (i : Instr),
    (teamAt b u.team).shadowCore = none →
    let t := settled a u i b
    t.mem = b.mem ∧ t.contexts = b.contexts ∧ t.queues = b.queues ∧ t.agenda = b.agenda ∧ t.focus = none ∧
    ∀ v, unitAt t v = { unitAt b v with issued := (unitAt t v).issued, denied := (unitAt t v).denied, deniedFares := (unitAt t v).deniedFares }) ∧
  (∀ (s : State) (i : Instr) r, s.agenda = .event i :: r → step s = exec i { s with agenda := r, focus := none }) ∧
  (∀ (s : State) (c : Service) r, s.agenda = .command :: r → s.service = some c → step s = exec (decodeCommand c.bytes) { s with agenda := r }) ∧
  (∀ (s : State) (bs : List Byte) r, s.agenda = .mailbox :: r → s.mailbox.inService = some bs →
    step s = exec (decodeMessage bs) { s with agenda := r }) ∧
  (∀ (s : State) (u : UnitId) (l : Nat) (a : W64) r, s.agenda = .divergence u l a :: r → step s = .next (diverge { s with agenda := r } u l a))

/-- No stop (14 R308). -/
def Obligations.ExecNeverStops : Prop :=
  (∀ (i : Instr) (s : State), goesTo i s (fun _ => True)) ∧ ∀ s : State, goesOn s

/-- Major 0x01 but for its comparisons (07 R155): sums and differences mod 2^32, exact products, S and U orders, carry and borrow of
bit 0 of c. -/
def Obligations.IntegerArithmeticResults : Prop :=
  (∀ d a b g, result2 (.add d a b g) g d a b (fun a b => BitVec.ofNat 32 (a.toNat + b.toNat))) ∧
  (∀ d a b g, result2 (.sub d a b g) g d a b (fun a b => BitVec.ofInt 32 ((a.toNat : Int) - b.toNat))) ∧
  (∀ d a b g, result2 (.mul d a b g) g d a b (fun a b => BitVec.ofNat 32 (a.toNat * b.toNat))) ∧
  (∀ d a b g, result2 (.mulhiI32 d a b g) g d a b (fun a b => BitVec.ofInt 32 (a.toInt * b.toInt / 2 ^ 32))) ∧
  (∀ d a b g, result2 (.mulhiN32 d a b g) g d a b (fun a b => BitVec.ofNat 32 (a.toNat * b.toNat / 2 ^ 32))) ∧
  (∀ d a b c g, result3 (.mad d a b c g) g d a b c (fun a b c => BitVec.ofNat 32 (a.toNat * b.toNat + c.toNat))) ∧
  (∀ d a b g, result2 (.min d a b g false) g d a b (fun a b => if a.toInt ≤ b.toInt then a else b)) ∧
  (∀ d a b g, result2 (.min d a b g true) g d a b (fun a b => BitVec.ofNat 32 (min a.toNat b.toNat))) ∧
  (∀ d a b g, result2 (.max d a b g false) g d a b (fun a b => if b.toInt ≤ a.toInt then a else b)) ∧
  (∀ d a b g, result2 (.max d a b g true) g d a b (fun a b => BitVec.ofNat 32 (max a.toNat b.toNat))) ∧
  (∀ d a b c g, result3 (.addc d a b c g) g d a b c
    (fun a b c => BitVec.ofNat 32 (a.toNat + b.toNat + (if c.getLsbD 0 then 1 else 0)))) ∧
  (∀ d a b c g, result3 (.addcCo d a b c g) g d a b c
    (fun a b c => if 2 ^ 32 ≤ a.toNat + b.toNat + (if c.getLsbD 0 then 1 else 0) then 1 else 0)) ∧
  (∀ d a b c g, result3 (.subb d a b c g) g d a b c
    (fun a b c => BitVec.ofInt 32 ((a.toNat : Int) - b.toNat - (if c.getLsbD 0 then 1 else 0)))) ∧
  (∀ d a b c g, result3 (.subbBo d a b c g) g d a b c
    (fun a b c => if a.toNat < b.toNat + (if c.getLsbD 0 then 1 else 0) then 1 else 0)) ∧
  (∀ d a b c g, result3 (.sel d a b c g) g d a b c (fun a b c => if c = 0 then b else a))

/-- Major 0x02 (07 R156), bit by bit or over exact integers; pos and len are the two low bytes of the control operand. -/
def Obligations.LogicAndShiftResults : Prop :=
  (∀ d a b g, result2 (.and d a b g) g d a b (fun a b => a &&& b)) ∧
  (∀ d a b g, result2 (.or d a b g) g d a b (fun a b => a ||| b)) ∧
  (∀ d a b g, result2 (.xor d a b g) g d a b (fun a b => a ^^^ b)) ∧
  (∀ d a b g, result2 (.andn d a b g) g d a b (fun a b => a &&& ~~~b)) ∧
  (∀ d a b g, result2 (.shl d a b g) g d a b (fun a b => a <<< b.toNat)) ∧
  (∀ d a b g, result2 (.shrN32 d a b g) g d a b (fun a b => a >>> b.toNat)) ∧
  (∀ d a b g, result2 (.shrI32 d a b g) g d a b (fun a b => BitVec.ofInt 32 (a.toInt / 2 ^ (min b.toNat 31)))) ∧
  (∀ d a b g, result2 (.rot d a b g) g d a b (fun a b => (a <<< (b.toNat % 32)) ||| (a >>> (32 - b.toNat % 32)))) ∧
  (∀ d a b c g, result3 (.fsh d a b c g) g d a b c
    (fun a b c => BitVec.ofNat 32 ((b.toNat * 2 ^ 32 + a.toNat) / 2 ^ (c.toNat % 32)))) ∧
  (∀ d a b g, result2 (.bfeN32 d a b g) g d a b
    (fun a b => BitVec.ofNat 32 (a.toNat / 2 ^ (b.toNat % 256) % 2 ^ (min (b.toNat / 256 % 256) 32)))) ∧
  (∀ d a b g, result2 (.bfeI32 d a b g) g d a b
    (fun a b =>
      let n := min (b.toNat / 256 % 256) 32
      let f := a.toInt / 2 ^ (b.toNat % 256) % 2 ^ n
      if n = 0 then 0 else if 2 ^ (n - 1) ≤ f then BitVec.ofInt 32 (f - 2 ^ n) else BitVec.ofInt 32 f)) ∧
  (∀ d a b c g, result3 (.bfi d a b c g) g d a b c
    (fun a b c =>
      let m : W32 := BitVec.ofNat 32 ((2 ^ (min (c.toNat / 256 % 256) 32) - 1) * 2 ^ (c.toNat % 256))
      (a &&& ~~~m) ||| (BitVec.ofNat 32 (b.toNat * 2 ^ (c.toNat % 256)) &&& m))) ∧
  (∀ d a g, result1 (.popc d a g) g d a (fun a => BitVec.ofNat 32 ((List.range 32).countP (fun i => a.getLsbD i)))) ∧
  (∀ f : W32 → W32, (∀ a, (a = 0 → f a = 32) ∧ (∀ n, n < 32 → a.getLsbD (31 - n) = true → (∀ j, j < n → a.getLsbD (31 - j) = false) → f a = BitVec.ofNat 32 n)) →
    ∀ d a g, result1 (.clz d a g) g d a f) ∧
  (∀ f : W32 → W32, (∀ a i, i < 32 → (f a).getLsbD (31 - i) = a.getLsbD i) → ∀ d a g, result1 (.brev d a g) g d a f)

/-- Address arithmetic, 64-bit sums and comparisons (07 R154, R155, R157, R158). -/
def Obligations.AddressAndWideResults : Prop :=
  (∀ d a b g, result2 (.lea d a b g .x1) g d a b (fun a b => BitVec.ofNat 32 (a.toNat + b.toNat))) ∧
  (∀ d a b g, result2 (.lea d a b g .x2) g d a b (fun a b => BitVec.ofNat 32 (a.toNat + b.toNat * 2))) ∧
  (∀ d a b g, result2 (.lea d a b g .x4) g d a b (fun a b => BitVec.ofNat 32 (a.toNat + b.toNat * 4))) ∧
  (∀ d a b g, result2 (.lea d a b g .x8) g d a b (fun a b => BitVec.ofNat 32 (a.toNat + b.toNat * 8))) ∧
  (∀ d a b g, result2 (.lea d a b g .x16) g d a b (fun a b => BitVec.ofNat 32 (a.toNat + b.toNat * 16))) ∧
  (∀ d a b g, writes64 (.add64 d a b g) g d (fun x l => BitVec.ofNat 64 ((x.src64 l a).toNat + (x.src64 l b).toNat))) ∧
  (∀ p a b g k, compares (.cmp p a b g k) g p (fun x l => holds k (x.src l a) (x.src l b))) ∧
  (∀ p a b g k, compares (.cmp64 p a b g k) g p (fun x l => holds k (x.src64 l a) (x.src64 l b)))

/-- Immediate words (07 R160, 06 R135): the guard is always true. -/
def Obligations.ImmediateWordResults : Prop :=
  (∀ d a imm, result1 (.addi d a imm) ⟨0, false⟩ d a (fun a => BitVec.ofInt 32 ((a.toNat : Int) + imm.toInt))) ∧
  (∀ d a imm, result1 (.andi d a imm) ⟨0, false⟩ d a (fun a => a &&& BitVec.ofNat 32 imm.toNat)) ∧
  (∀ d a imm, result1 (.ori d a imm) ⟨0, false⟩ d a (fun a => a ||| BitVec.ofNat 32 imm.toNat)) ∧
  (∀ d a imm, result1 (.xori d a imm) ⟨0, false⟩ d a (fun a => a ^^^ BitVec.ofNat 32 imm.toNat)) ∧
  (∀ d a k, result1 (.shli d a k) ⟨0, false⟩ d a (fun a => a <<< k.toNat)) ∧
  (∀ d imm, result1 (.movhi d imm) ⟨0, false⟩ d 15 (fun _ => BitVec.ofNat 32 (imm.toNat * 16384))) ∧
  (∀ p a k imm, (k = .eq ∨ k = .ne ∨ k = .ltI ∨ k = .leI ∨ k = .gtI ∨ k = .geI) →
    compares (.cmpi p a k imm) ⟨0, false⟩ p (fun x l => holds k (x.src l a) (BitVec.ofInt 32 imm.toInt))) ∧
  (∀ p a k imm, (k = .ltN ∨ k = .leN ∨ k = .gtN ∨ k = .geN) →
    compares (.cmpi p a k imm) ⟨0, false⟩ p (fun x l => holds k (x.src l a) (BitVec.ofNat 32 imm.toNat)))

/-- Form-S integer functions (07 R159), spread over the table's functions; b is the uniform operand. -/
def Obligations.UniformIntegerResults : Prop :=
  ∀ d a u g,
    (∀ f : IntUFn, ∀ r : W32 → W32 → W32,
      (match f with
       | .add => r = (fun (a b : W32) => BitVec.ofNat 32 (a.toNat + b.toNat))
       | .sub => r = (fun (a b : W32) => BitVec.ofInt 32 ((a.toNat : Int) - b.toNat))
       | .mul => r = (fun (a b : W32) => BitVec.ofNat 32 (a.toNat * b.toNat))
       | .mulhiI => r = (fun (a b : W32) => BitVec.ofInt 32 (a.toInt * b.toInt / 2 ^ 32))
       | .mulhiN => r = (fun (a b : W32) => BitVec.ofNat 32 (a.toNat * b.toNat / 2 ^ 32))
       | .minI => r = (fun (a b : W32) => if a.toInt ≤ b.toInt then a else b)
       | .minN => r = (fun (a b : W32) => if a.toNat ≤ b.toNat then a else b)
       | .maxI => r = (fun (a b : W32) => if b.toInt ≤ a.toInt then a else b)
       | .maxN => r = (fun (a b : W32) => if b.toNat ≤ a.toNat then a else b)
       | .and => r = (fun (a b : W32) => a &&& b)
       | .or => r = (fun (a b : W32) => a ||| b)
       | .xor => r = (fun (a b : W32) => a ^^^ b)
       | .andn => r = (fun (a b : W32) => a &&& ~~~b)
       | .shl => r = (fun (a b : W32) => a <<< b.toNat)
       | .shrN => r = (fun (a b : W32) => a >>> b.toNat)
       | .shrI => r = (fun (a b : W32) => BitVec.ofInt 32 (a.toInt / 2 ^ (min b.toNat 31)))
       | .rot => r = (fun (a b : W32) => (a <<< (b.toNat % 32)) ||| (a >>> (32 - b.toNat % 32)))
       | .bfeN => r = (fun (a b : W32) => BitVec.ofNat 32 (a.toNat / 2 ^ (b.toNat % 256) % 2 ^ (min (b.toNat / 256 % 256) 32)))
       | .bfeI => r = (fun (a b : W32) => bfeS a b)
       | .popc => r = (fun (a _ : W32) => popcR a)
       | .clz => r = (fun (a _ : W32) => clzR a)
       | .brev => r = (fun (a _ : W32) => brevR a)
       | .lea f => r = (fun (a b : W32) => BitVec.ofNat 32 (a.toNat + b.toNat * 2 ^ f.code.toNat))
       | _ => False) →
      writes32 (.intUniformOp d a u g f) g d (fun x l => (r (x.src l a) (x.uni u), 0))) ∧
    writes64 (.intUniformOp d a u g .add64) g d (fun x l => BitVec.ofNat 64 ((x.src64 l a).toNat + (x.uni64 u.toNat).toNat)) ∧
    (∀ k, d.toNat < 8 → compares (.intUniformOp d a u g (.cmp k)) g (d.setWidth 3) (fun x l => holds k (x.src l a) (x.uni u))) ∧
    (∀ k, d.toNat < 8 → compares (.intUniformOp d a u g (.cmp64 k)) g (d.setWidth 3) (fun x l => holds k (x.src64 l a) (x.uni64 u.toNat)))

/-- The floating environment R161 names: the hint's mode where it overrides, else FPCTL.RM; the hint's saturation; FPCTL.FTZ. -/
def Sys2Proof.Claims.envOf (x : Ctx) (l : Nat) : FEnv :=
  let c := (x.thr l).fpctl
  let p := x.cl.hints.modifier.getD 0
  { rm := rmodeOf (if p.getLsbD 23 then p.extractLsb' 21 2 else c.extractLsb' 0 2), sat := p.getLsbD 20, ftz := c.getLsbD 2 }

/-- RoundIEEE in an environment: the code and the flags of an exact result, NV added where the exact operation is invalid. -/
def Sys2Proof.Claims.roundedTo (f : IFmt) (env : FEnv) (v : FVal × Bool) : Nat × BitVec 5 :=
  let r := roundIEEE f env.rm env.sat env.ftz v.1
  (r.1, r.2 ||| (if v.2 then flagNV else 0))

/-- A binary32 word whose exact result rounds. -/
def Sys2Proof.Claims.rounds32 (i : Instr) (g : Guard) (d : OField) (v : Ctx → Nat → RMode → FVal × Bool) : Prop :=
  writes32 i g d (fun x l =>
    let r := roundedTo f32 (envOf x l) (v x l (envOf x l).rm)
    (BitVec.ofNat 32 r.1, r.2))

/-- The exact number m * 2^e. -/
def Sys2Proof.Claims.num (m : Nat) (e : Int) : ℚ := (m : ℚ) * (2 : ℚ) ^ e

/-- The exact number of a sign and a magnitude. -/
def Sys2Proof.Claims.signed (neg : Bool) (m : Nat) (e : Int) : ℚ := if neg then -num m e else num m e

/-- The numeric order of two values that are no NaN: +0 and -0 are equal in it, and the infinities its ends. -/
def Sys2Proof.Claims.below : FVal → FVal → Prop
  | .inf n1, .inf n2 => n1 = true ∧ n2 = false
  | .inf n1, .fin _ _ _ => n1 = true
  | .fin _ _ _, .inf n2 => n2 = false
  | .fin n1 m1 e1, .fin n2 m2 e2 => signed n1 m1 e1 < signed n2 m2 e2
  | _, _ => False

/-- The order fmin and fmax take: numeric, with -0 below +0 (07 R162). -/
def Sys2Proof.Claims.belowZ (x y : FVal) : Prop :=
  below x y ∨ ∃ e f, x = .fin true 0 e ∧ y = .fin false 0 f

/-- A value is a NaN. -/
def Sys2Proof.Claims.aNan (x : FVal) : Prop := ∃ q, x = .nan q

/-- A comparison or selection of two values sets NV where one of them is a signalling NaN, and no other flag (07 R162). -/
def Sys2Proof.Claims.sigFlags (x y : FVal) (fl : BitVec 5) : Prop :=
  ((x = .nan true ∨ y = .nan true) → fl = flagNV) ∧ (¬(x = .nan true ∨ y = .nan true) → fl = 0)

/-- fmin and fmax of 07 R162: a NaN counts as missing, two NaNs give the canonical one, and otherwise the operand that lies on the
wanted side is delivered as it is. -/
def Sys2Proof.Claims.selects (wantMax : Bool) (a b : W32) (r : W32 × BitVec 5) : Prop :=
  sigFlags (fv a) (fv b) r.2 ∧
  (aNan (fv a) → aNan (fv b) → r.1 = 0x7FC00000) ∧
  (aNan (fv a) → ¬aNan (fv b) → r.1 = b) ∧
  (¬aNan (fv a) → aNan (fv b) → r.1 = a) ∧
  (¬aNan (fv a) → ¬aNan (fv b) →
    (belowZ (fv a) (fv b) → r.1 = if wantMax then b else a) ∧ (belowZ (fv b) (fv a) → r.1 = if wantMax then a else b) ∧
    (¬belowZ (fv a) (fv b) → ¬belowZ (fv b) (fv a) → r.1 = a))

/-- The one bit of fclass (07 R162): a subnormal has exponent field 0. -/
def Sys2Proof.Claims.classBit (a : W32) : W32 :=
  match fv a with
  | .inf true => 0x001
  | .fin true m e => if m = 0 then 0x008 else if m < 2 ^ 23 ∧ e = -149 then 0x004 else 0x002
  | .fin false m e => if m = 0 then 0x010 else if m < 2 ^ 23 ∧ e = -149 then 0x020 else 0x040
  | .inf false => 0x080
  | .nan true => 0x100
  | .nan false => 0x200

/-- The table "Floating conditions" of 07 R162: the predicate, and what sets NV. -/
def Sys2Proof.Claims.fcompared (k : FCond) (x y : FVal) (r : Bool × BitVec 5) : Prop :=
  let nan : Prop := aNan x ∨ aNan y
  let anyNv : Prop := (nan → r.2 = flagNV) ∧ (¬nan → r.2 = 0)
  match k with
  | .eq => (r.1 = true ↔ ¬nan ∧ ¬below x y ∧ ¬below y x) ∧ sigFlags x y r.2
  | .ne => (r.1 = true ↔ nan ∨ below x y ∨ below y x) ∧ sigFlags x y r.2
  | .lt => (r.1 = true ↔ ¬nan ∧ below x y) ∧ anyNv
  | .le => (r.1 = true ↔ ¬nan ∧ ¬below y x) ∧ anyNv
  | .gt => (r.1 = true ↔ ¬nan ∧ below y x) ∧ anyNv
  | .ge => (r.1 = true ↔ ¬nan ∧ ¬below x y) ∧ anyNv
  | .un => (r.1 = true ↔ nan) ∧ sigFlags x y r.2
  | .ord => (r.1 = true ↔ ¬nan) ∧ sigFlags x y r.2

/-- Major 0x0C (07 R161, R162). -/
def Obligations.FloatArithmeticResults : Prop :=
  (∀ d a b g, rounds32 (.fadd d a b g) g d (fun x l rm => addExact rm (fv (x.src l a)) (fv (x.src l b)))) ∧
  (∀ d a b g, rounds32 (.fsub d a b g) g d (fun x l rm => addExact rm (fv (x.src l a)) (fneg (fv (x.src l b))))) ∧
  (∀ d a b g, rounds32 (.fmul d a b g) g d (fun x l _ => mulExact (fv (x.src l a)) (fv (x.src l b)))) ∧
  (∀ d a b c g, rounds32 (.ffma d a b c g) g d (fun x l rm => fmaExact rm (fv (x.src l a)) (fv (x.src l b)) (fv (x.src l c)))) ∧
  (∀ f : W32 → W32 → W32 × BitVec 5, (∀ a b, selects false a b (f a b)) →
    ∀ d a b g, writes32 (.fmin d a b g) g d (fun x l => f (x.src l a) (x.src l b))) ∧
  (∀ f : W32 → W32 → W32 × BitVec 5, (∀ a b, selects true a b (f a b)) →
    ∀ d a b g, writes32 (.fmax d a b g) g d (fun x l => f (x.src l a) (x.src l b))) ∧
  (∀ d a g, result1 (.fclass d a g) g d a classBit) ∧
  (∀ d a b c g, result3 (.fsel d a b c g) g d a b c (fun a b c =>
    match fv c with
    | .nan _ => b
    | .inf neg => if neg then b else a
    | .fin neg m _ => if neg && m != 0 then b else a)) ∧
  (∀ k, ∀ f : W32 → W32 → Bool × BitVec 5, (∀ a b, fcompared k (fv a) (fv b) (f a b)) →
    ∀ p a b g, writesPred (.fcmp p a b g k) g p (fun x l => f (x.src l a) (x.src l b)))

/-- A packed pair of a format: each half from the halves of the operands (07 R163). -/
def Sys2Proof.Claims.halves (t : HalfKind) (env : FEnv) (op : FVal → FVal → FVal → FVal × Bool) (a b c : W32) : W32 × BitVec 5 :=
  let f := halfFmt t
  let half (w : W32) (i : Nat) : FVal := ieeeVal f (w.toNat / 2 ^ (16 * i) % 65536)
  let r0 := roundedTo f env (op (half a 0) (half b 0) (half c 0))
  let r1 := roundedTo f env (op (half a 1) (half b 1) (half c 1))
  (BitVec.ofNat 32 (r0.1 + r1.1 * 65536), r0.2 ||| r1.2)

/-- Packed halves and floating words of form S (07 R163, R164). -/
def Obligations.PackedHalfAndUniformFloatResults : Prop :=
  (∀ d a b g t, writes32 (.hadd2 d a b g t) g d (fun x l =>
    halves t (envOf x l) (fun u v _ => addExact (envOf x l).rm u v) (x.src l a) (x.src l b) 0)) ∧
  (∀ d a b g t, writes32 (.hmul2 d a b g t) g d (fun x l => halves t (envOf x l) (fun u v _ => mulExact u v) (x.src l a) (x.src l b) 0)) ∧
  (∀ d a b c g t, writes32 (.hfma2 d a b c g t) g d (fun x l =>
    halves t (envOf x l) (fmaExact (envOf x l).rm) (x.src l a) (x.src l b) (x.src l c))) ∧
  (∀ d a u g, rounds32 (.floatUniformOp d a u g .fadd) g d (fun x l rm => addExact rm (fv (x.src l a)) (fv (x.uni u)))) ∧
  (∀ d a u g, rounds32 (.floatUniformOp d a u g .fsub) g d (fun x l rm => addExact rm (fv (x.src l a)) (fneg (fv (x.uni u))))) ∧
  (∀ d a u g, rounds32 (.floatUniformOp d a u g .fmul) g d (fun x l _ => mulExact (fv (x.src l a)) (fv (x.uni u)))) ∧
  (∀ f : W32 → W32 → W32 × BitVec 5, (∀ a b, selects false a b (f a b)) →
    ∀ d a u g, writes32 (.floatUniformOp d a u g .fmin) g d (fun x l => f (x.src l a) (x.uni u))) ∧
  (∀ f : W32 → W32 → W32 × BitVec 5, (∀ a b, selects true a b (f a b)) →
    ∀ d a u g, writes32 (.floatUniformOp d a u g .fmax) g d (fun x l => f (x.src l a) (x.uni u))) ∧
  (∀ d a u g, result1 (.floatUniformOp d a u g .fclass) g d a classBit) ∧
  (∀ d a u g t, writes32 (.floatUniformOp d a u g (.hadd2 t)) g d (fun x l =>
    halves t (envOf x l) (fun u v _ => addExact (envOf x l).rm u v) (x.src l a) (x.uni u) 0)) ∧
  (∀ d a u g t, writes32 (.floatUniformOp d a u g (.hmul2 t)) g d (fun x l =>
    halves t (envOf x l) (fun u v _ => mulExact u v) (x.src l a) (x.uni u) 0)) ∧
  (∀ k, ∀ f : W32 → W32 → Bool × BitVec 5, (∀ a b, fcompared k (fv a) (fv b) (f a b)) →
    ∀ d a u g, d.toNat < 8 → writesPred (.floatUniformOp d a u g (.fcmp k)) g (d.setWidth 3) (fun x l => f (x.src l a) (x.uni u)))

/-- The exact value of a source part of cvt (07 R166): its half SEL, its byte SEL in the named format, or all of the register. -/
def Sys2Proof.Claims.partValue (src : CvtKind) (fmt : BitVec 5) (sel : BitVec 2) (a : W32) : FVal :=
  let half := a.toNat / 2 ^ (16 * sel.toNat) % 65536
  let byte := a.toNat / 2 ^ (8 * sel.toNat) % 256
  match src with
  | .f32 => ieeeVal f32 a.toNat
  | .f16 => ieeeVal f16 half
  | .bf16 => ieeeVal bf16 half
  | .b8 =>
    if fmt = 0x1F then (if 128 ≤ byte then .fin true (256 - byte) 0 else .fin false byte 0)
    else decodeBinary8 byte (fmt.toNat / 4 + 1) (fmt.toNat / 2 % 2 == 1) (fmt.toNat % 2 == 1)
  | .i32 => if a.toInt < 0 then .fin true a.toInt.natAbs 0 else .fin false a.toNat 0
  | .n32 => .fin false a.toNat 0

/-- n is the integer a number rounds to in a mode. -/
def Sys2Proof.Claims.roundsToInteger (rm : RMode) (v : ℚ) (n : Int) : Prop :=
  match rm with
  | .rne => (n : ℚ) - 1 / 2 ≤ v ∧ v ≤ (n : ℚ) + 1 / 2 ∧ ((v = (n : ℚ) - 1 / 2 ∨ v = (n : ℚ) + 1 / 2) → n % 2 = 0)
  | .rdn => (n : ℚ) ≤ v ∧ v < n + 1
  | .rup => (n : ℚ) - 1 < v ∧ v ≤ n
  | .rtz => if 0 ≤ v then (n : ℚ) ≤ v ∧ v < n + 1 else (n : ℚ) - 1 < v ∧ v ≤ n

/-- ToInt of 07 R167 on the exact value of a source, with its flags. -/
def Sys2Proof.Claims.intOf (lo hi : Int) (rm : RMode) (integer : Bool) (v : FVal) (z : Int) (fl : BitVec 5) : Prop :=
  match v with
  | .nan _ => z = 0 ∧ fl = flagNV
  | .inf neg => z = (if neg then lo else hi) ∧ fl = flagNV
  | .fin neg m e => ∀ n, roundsToInteger rm (signed neg m e) n →
    z = (if n < lo then lo else if hi < n then hi else n) ∧
    ((integer = true → fl = 0) ∧
     (integer = false → ((n < lo ∨ hi < n) → fl = flagNV) ∧ ((lo ≤ n ∧ n ≤ hi) →
      ((n : ℚ) = signed neg m e → fl = 0) ∧ ((n : ℚ) ≠ signed neg m e → fl = flagNX))))

/-- Cvt of 07 R167: what a destination kind makes of a value. From a binary8 source nothing is flushed (03 R67). -/
def Sys2Proof.Claims.converted (src dst : CvtKind) (fmt : BitVec 5) (env : FEnv) (v : FVal) (r : W32 × BitVec 5) : Prop :=
  let ieee (f : IFmt) : Prop :=
    r.1.toNat = (roundIEEE f env.rm env.sat (env.ftz && src != .b8) v).1 ∧ r.2 = (roundIEEE f env.rm env.sat (env.ftz && src != .b8) v).2
  let integer : Bool := src == .i32 || src == .n32
  match dst with
  | .f32 => ieee f32
  | .f16 => ieee f16
  | .bf16 => ieee bf16
  | .b8 =>
    if fmt = 0x1F then ∃ z, intOf (-128) 127 .rne integer v z r.2 ∧ r.1.toNat = (z % 256).toNat
    else r.1.toNat = (roundToBinary8 fmt env.sat v).1 ∧ r.2 = (roundToBinary8 fmt env.sat v).2
  | .i32 => ∃ z, intOf (-(2 ^ 31)) (2 ^ 31 - 1) env.rm integer v z r.2 ∧ r.1 = BitVec.ofInt 32 z
  | .n32 => ∃ z, intOf 0 (2 ^ 32 - 1) env.rm integer v z r.2 ∧ r.1 = BitVec.ofInt 32 z

/-- A code of bfloat16 holds exactly a value: the canonical NaN for a NaN, else the same infinity, or the same sign and number. -/
def Sys2Proof.Claims.holdsExactly (c : Nat) (v : FVal) : Prop :=
  match v with
  | .nan _ => c = 0x7FC0
  | .inf n => ieeeVal bf16 c = .inf n
  | .fin n m e => ∃ m2 e2, ieeeVal bf16 c = .fin n m2 e2 ∧ num m2 e2 = num m e

/-- An exact magnitude rounded once to binary32 in a mode, flushed under FTZ. The magnitude is given by how each number m * 2^e compares
with it: where one of them equals it, that value is rounded, and else the middle of any two neighbours it lies between that are fine enough
for no rounding boundary to lie between them. -/
def Sys2Proof.Claims.roundsOnce (rm : RMode) (ftz neg : Bool) (less equal : ℚ → Prop) (r : Nat × BitVec 5) : Prop :=
  ∀ (n : Nat) (e : Int),
    (equal (num n e) → r = roundIEEE f32 rm false ftz (.fin neg n e)) ∧
    (2 ^ 25 ≤ n → less (num n e) → ¬less (num (n + 1) e) → ¬equal (num (n + 1) e) →
      r = roundIEEE f32 rm false ftz (.fin neg (2 * n + 1) (e - 1)))

/-- A NaN input of a special function: the canonical quiet NaN, NV for a signalling one (03 R63, R73). -/
def Sys2Proof.Claims.nanGives (f : FVal → Nat × BitVec 5) : Prop := f (.nan true) = (0x7FC00000, flagNV) ∧ f (.nan false) = (0x7FC00000, 0)

/-- The zero or the infinity of a sign, as a code of binary32. -/
def Sys2Proof.Claims.zero32 (neg : Bool) : Nat := if neg then 0x80000000 else 0
/-- The infinity. -/
def Sys2Proof.Claims.inf32 (neg : Bool) : Nat := if neg then 0xFF800000 else 0x7F800000

/-- An input returned inexactly: its own code with NX, UF too where it is subnormal; a subnormal is flushed under FTZ (03 R67, R73). -/
def Sys2Proof.Claims.itself (ftz : Bool) (a : W32) (r : Nat × BitVec 5) : Prop :=
  let sub := a.toNat % 2 ^ 31 < 2 ^ 23
  (¬sub → r = (a.toNat, flagNX)) ∧
  (sub → r = (if ftz then zero32 (a.getLsbD 31) else a.toNat, flagNX ||| flagUF))

/-- A word of major 0x0F: the function of the value of a, in a thread's mode and FTZ. -/
def Sys2Proof.Claims.special (i : Instr) (g : Guard) (d a : OField) (f : RMode → Bool → FVal → Nat × BitVec 5) : Prop :=
  writes32 i g d (fun x l =>
    let r := f (envOf x l).rm (envOf x l).ftz (fv (x.src l a))
    (BitVec.ofNat 32 r.1, r.2))

/-- Conversions and special functions (07 R166-R169, 03 R63-R67, R73). The evaluation of exp2, log2, sin, cos and tanh between the table's
rows is the model's (log 7). -/
def Obligations.ConversionAndSpecialResults : Prop :=
  (∀ src dst fmt sel, ∀ f : FEnv → W32 → W32 × BitVec 5,
    (∀ env a, converted src dst fmt env (partValue src fmt sel a) (f env a)) →
    ∀ d a g, wellFormed (.cvt d a fmt sel g src dst) = true →
      writes32 (.cvt d a fmt sel g src dst) g d (fun x l => f (envOf x l) (x.src l a))) ∧
  (∀ fmt (sel : BitVec 2), ∀ f : FEnv → W32 → W32 × BitVec 5, (∀ env a, converted .f32 .b8 fmt env (ieeeVal f32 a.toNat) (f env a)) →
    ∀ d a g, wellFormed (.pack8 d a fmt sel g) = true →
      ∃ r : Ctx → Nat → W32, writes32 (.pack8 d a fmt sel g) g d (fun x l => (r x l, (f (envOf x l) (x.src l a)).2)) ∧
        ∀ x l i, i < 32 → (r x l).getLsbD i =
          if i / 8 = sel.toNat then (f (envOf x l) (x.src l a)).1.getLsbD (i % 8) else (x.src l d).getLsbD i) ∧
  (∀ fmt (half : Bool), ∀ f : W32 → W32,
    (∀ a i, i < 2 → holdsExactly ((f a).toNat / 2 ^ (16 * i) % 65536)
      (partValue .b8 fmt (BitVec.ofNat 2 ((if half then 2 else 0) + i)) a)) →
    ∀ d a g, wellFormed (.unpack8 d a fmt half g) = true → result1 (.unpack8 d a fmt half g) g d a f) ∧
  (
    let rcp : RMode → Bool → FVal → Nat × BitVec 5 := fun _ ftz v => spRcp ftz v
    let rsq : RMode → Bool → FVal → Nat × BitVec 5 := fun _ ftz v => spRsq ftz v
    let sqrt : RMode → Bool → FVal → Nat × BitVec 5 := fun rm ftz v => spSqrt rm ftz v
    let exp2 : RMode → Bool → FVal → Nat × BitVec 5 := fun _ ftz v => spExp2 ftz v
    let log2 : RMode → Bool → FVal → Nat × BitVec 5 := fun _ ftz v => spLog2 ftz v
    let sin : RMode → Bool → FVal → Nat × BitVec 5 := fun _ ftz v => spSin ftz v
    let cos : RMode → Bool → FVal → Nat × BitVec 5 := fun _ ftz v => spCos ftz v
    let tanh : RMode → Bool → FVal → Nat × BitVec 5 := fun _ ftz v => spTanh ftz v
    (∀ d a g, special (.rcp d a g) g d a rcp ∧ special (.rsq d a g) g d a rsq ∧ special (.sqrt d a g) g d a sqrt ∧
      special (.exp2 d a g) g d a exp2 ∧ special (.log2 d a g) g d a log2 ∧ special (.sin d a g) g d a sin ∧
      special (.cos d a g) g d a cos ∧ special (.tanh d a g) g d a tanh) ∧
    ∀ rm ftz,
      (∀ f ∈ [rcp, rsq, sqrt, exp2, log2, sin, cos, tanh], nanGives (f rm ftz)) ∧
      (∀ neg e, rcp rm ftz (.fin neg 0 e) = (inf32 neg, flagDZ) ∧ rsq rm ftz (.fin neg 0 e) = (inf32 neg, flagDZ) ∧
        sqrt rm ftz (.fin neg 0 e) = (zero32 neg, 0) ∧ exp2 rm ftz (.fin neg 0 e) = (0x3F800000, 0) ∧
        log2 rm ftz (.fin neg 0 e) = (inf32 true, flagDZ) ∧ sin rm ftz (.fin neg 0 e) = (zero32 neg, 0) ∧
        cos rm ftz (.fin neg 0 e) = (0x3F800000, 0) ∧ tanh rm ftz (.fin neg 0 e) = (zero32 neg, 0)) ∧
      (∀ neg, rcp rm ftz (.inf neg) = (zero32 neg, 0) ∧ exp2 rm ftz (.inf neg) = (if neg then 0 else inf32 false, 0) ∧
        sin rm ftz (.inf neg) = (0x7FC00000, flagNV) ∧ cos rm ftz (.inf neg) = (0x7FC00000, flagNV) ∧
        tanh rm ftz (.inf neg) = (if neg then 0xBF800000 else 0x3F800000, 0)) ∧
      (rsq rm ftz (.inf false) = (0, 0) ∧ sqrt rm ftz (.inf false) = (inf32 false, 0) ∧ log2 rm ftz (.inf false) = (inf32 false, 0)) ∧
      (∀ f ∈ [rsq, sqrt, log2], f rm ftz (.inf true) = (0x7FC00000, flagNV) ∧ ∀ m e, m ≠ 0 → f rm ftz (.fin true m e) = (0x7FC00000, flagNV)) ∧
      (∀ neg m e, m ≠ 0 → roundsOnce .rne ftz neg (fun q => q * num m e < 1) (fun q => q * num m e = 1) (rcp rm ftz (.fin neg m e))) ∧
      (∀ m e, m ≠ 0 →
        roundsOnce .rne ftz false (fun q => q * q * num m e < 1) (fun q => q * q * num m e = 1) (rsq rm ftz (.fin false m e)) ∧
        roundsOnce rm ftz false (fun q => q * q < num m e) (fun q => q * q = num m e) (sqrt rm ftz (.fin false m e))) ∧
      (∀ a : W32, ∀ neg m e, fv a = .fin neg m e → m ≠ 0 →
        (∀ j : Int, signed neg m e = j → j < 128 → exp2 rm ftz (.fin neg m e) = roundIEEE f32 .rne false ftz (.fin false 1 j)) ∧
        (128 ≤ signed neg m e → exp2 rm ftz (.fin neg m e) = (inf32 false, flagOF ||| flagNX)) ∧
        (∀ j : Int, neg = false →
          (num m e = num 1 j → log2 rm ftz (.fin neg m e) =
            roundIEEE f32 .rne false ftz (.fin (decide (j < 0)) j.natAbs 0)) ∧
          (num 1 j < num m e → num m e < num 1 (j + 1) → ∃ n m2 e2, (j : ℚ) < signed n m2 e2 ∧ signed n m2 e2 < j + 1 ∧
            log2 rm ftz (.fin neg m e) = roundIEEE f32 .rne false ftz (.fin n m2 e2))) ∧
        (num m e < num 1 (-12) → itself ftz a (sin rm ftz (.fin neg m e)) ∧ itself ftz a (tanh rm ftz (.fin neg m e))) ∧
        (10 ≤ num m e → tanh rm ftz (.fin neg m e) = (if neg then 0xBF800000 else 0x3F800000, flagNX))))

/-- Decoding a code and rounding its value gives the code back (03 R62, R63). -/
def Obligations.RoundingIsExactOnCodes : Prop :=
  ∀ f : IFmt, (f = f32 ∨ f = f16 ∨ f = bf16) → ∀ rm x, x < 2 ^ (f.eb + f.tb + 1) →
    match ieeeVal f x with
    | .nan sig => roundIEEE f rm false false (ieeeVal f x) = (f.nanCode, if sig then flagNV else 0)
    | _ => roundIEEE f rm false false (ieeeVal f x) = (x, 0)

/-- prmt (07 R172). -/
def Obligations.BytePermutationResult : Prop :=
  ∀ d a b c g, ∃ f : W32 → W32 → W32 → W32, result3 (.prmt d a b c g) g d a b c f ∧
    ∀ (a b c : W32) (i : Nat), i < 4 →
      let n := c.toNat / 2 ^ (4 * i) % 16
      let v : W64 := b ++ a
      let byte : Byte := v.extractLsb' (8 * (n % 8)) 8
      (f a b c).extractLsb' (8 * i) 8 = if n < 8 then byte else if byte.getLsbD 7 then 0xFF else 0x00

/-- A lane word that issues together in the groups xs: each participant's thread meets post, which may use the word's source participants
with their values, and nothing else changes. -/
def Sys2Proof.Claims.laneWords (i : Instr) (g : Guard) (a : OField)
    (post : List (Nat × W32) → Ctx → Nat → Thread → Thread → Prop) : Prop :=
  ∀ s x xs, issues i s x → laneGroup s x = some xs → goesTo i s (fun t =>
    t = xs.foldl (fun s y => setUnit s y.u (unitAt t y.u)) s ∧
    ∀ y ∈ xs, onlyThreads y.g (unitAt t y.u) ∧
      (∀ l, l ∉ y.parts g → thrAt (unitAt t y.u) l = y.thr l) ∧
      ∀ l ∈ y.parts g, post (sources xs g a) y l (y.thr l) (thrAt (unitAt t y.u) l))

/-- The source participants of a lane's section, in ascending lane (07 R170). -/
def Sys2Proof.Claims.mates (y : Ctx) (l : Nat) (ps : List (Nat × W32)) : List (Nat × W32) :=
  ps.filter (fun p => decide (p.1 / y.width = y.laneNo l / y.width))

/-- A lane word with a 32-bit result. -/
def Sys2Proof.Claims.laneVal (i : Instr) (g : Guard) (d a : OField) (val : List (Nat × W32) → Ctx → Nat → W32) : Prop :=
  laneWords i g a (fun ps y l => wrote32 false d (val ps y l) 0)

/-- A lane word with a predicate result. -/
def Sys2Proof.Claims.lanePred (i : Instr) (g : Guard) (p : PIdx) (a : OField) (c : List (Nat × W32) → Ctx → Nat → Prop) : Prop :=
  ∀ f : List (Nat × W32) → Ctx → Nat → Bool, (∀ ps y l, f ps y l = true ↔ c ps y l) → laneWords i g a (fun ps y l => wroteP p (f ps y l) 0)

/-- The lane a shuffle reads, counted as the section counts (07 R171). -/
def Sys2Proof.Claims.shuffled (m : ShflMode) (y : Ctx) (l k : Nat) : Option Nat :=
  let i := y.laneNo l % y.width
  let base := y.laneNo l - i
  match m with
  | .idx => some (base + k % y.width)
  | .up => if i < k then none else some (base + (i - k))
  | .down => if y.width ≤ i + k then none else some (base + (i + k))
  | .xor => some (base + (i ^^^ k % y.width))

/-- Exchanges and votes (07 R171, R174). A mask marks lanes of the reader's own group (13 R301). Both groups of a pair advance in one step:
the model's reading (log 21). -/
def Obligations.LaneExchangeResults : Prop :=
  (∀ d a b g m, laneVal (.shfl d a b g m) g d a (fun ps y l =>
    match shuffled m y l (y.src l b).toNat with
    | none => y.src l a
    | some j => ((ps.find? (fun p => p.1 == j)).map (·.2)).getD (y.src l a))) ∧
  (∀ p a g, lanePred (.vote p a g .all) g p a (fun ps y l => ∀ q ∈ mates y l ps, q.2 ≠ 0)) ∧
  (∀ p a g, lanePred (.vote p a g .any) g p a (fun ps y l => ∃ q ∈ mates y l ps, q.2 ≠ 0)) ∧
  (∀ p a g, lanePred (.vote p a g .uni) g p a (fun ps y l => ∀ q ∈ mates y l ps, ∀ r ∈ mates y l ps, q.2 = r.2)) ∧
  (∀ d a g, ∀ s x, issues (.voteBallot d a g) s x → x.t.pairMode = false → goesTo (.voteBallot d a g) s (fun t =>
    ∀ l ∈ x.parts g, ∀ j, j < 32 →
      ((thrAt (unitAt t x.u) l).lt.getLsbD j = true ↔ j ∈ x.parts g ∧ j / x.width = l / x.width ∧ x.src j a ≠ 0))) ∧
  (∀ d a g, laneVal (.voteBallot d a g) g d a (fun ps y l => maskFor y (((mates y l ps).filter (fun q => q.2 != 0)).map (·.1)))) ∧
  (∀ d a g, laneVal (.laneMatch d a g .any) g d a (fun ps y l =>
    maskFor y (((mates y l ps).filter (fun q => q.2 == y.src l a)).map (·.1)))) ∧
  (∀ d a g, laneVal (.laneMatch d a g .all) g d a (fun ps y l =>
    if (mates y l ps).all (fun q => q.2 == y.src l a) then maskFor y ((mates y l ps).map (·.1)) else 0)) ∧
  (∀ p g, lanePred (.elect p g) g p 15 (fun ps y l => ((mates y l ps).head?.map (·.1)) = some (y.laneNo l)))

/-- The identity of an operation (07 R176). -/
def Sys2Proof.Claims.unit0 : RedOp → W32
  | .add => 0
  | .minI => 0x7FFFFFFF
  | .maxI => 0x80000000
  | .minN => 0xFFFFFFFF
  | .maxN => 0
  | .and => 0xFFFFFFFF
  | .or => 0
  | .xor => 0
  | .fadd => 0x80000000
  | .fmin => 0x7F800000
  | .fmax => 0xFF800000

/-- One step of an operation, with its flags: floating sums round in FPCTL's mode without saturation. -/
def Sys2Proof.Claims.step1 (o : RedOp) (env : FEnv) (a b : W32) : W32 × BitVec 5 :=
  match o with
  | .add => (a + b, 0)
  | .minI => (if a.toInt ≤ b.toInt then a else b, 0)
  | .maxI => (if b.toInt ≤ a.toInt then a else b, 0)
  | .minN => (if a.toNat ≤ b.toNat then a else b, 0)
  | .maxN => (if b.toNat ≤ a.toNat then a else b, 0)
  | .and => (a &&& b, 0)
  | .or => (a ||| b, 0)
  | .xor => (a ^^^ b, 0)
  | .fadd =>
    let r := roundedTo f32 { env with sat := false } (addExact env.rm (fv a) (fv b))
    (BitVec.ofNat 32 r.1, r.2)
  | .fmin => fminmax false a b
  | .fmax => fminmax true a b

/-- The values combined from the left. -/
def Sys2Proof.Claims.combined (o : RedOp) (env : FEnv) : List W32 → W32 × BitVec 5
  | [] => (unit0 o, 0)
  | v :: vs => vs.foldl (fun r w => ((step1 o env r.1 w).1, r.2 ||| (step1 o env r.1 w).2)) (v, 0)

/-- SECT of a team after a group writes a code: of the writes of one cycle the highest group's stands (07 R175). -/
def Sys2Proof.Claims.sectAfter (s : State) (x : Ctx) (code : Nat) : Nat :=
  match x.t.sectBy with
  | some (n, k) => if n = clusterCyc s (x.t.core / 8) ∧ x.u.idx < k then x.t.sect else code
  | none => code

/-- Nothing changes outside a unit but its team's SECT and the record of who wrote it. -/
def Sys2Proof.Claims.onlySect (s t : State) (u : UnitId) : Prop :=
  t = setUnit (modTeam s u.team (fun m => { m with sect := (teamAt t u.team).sect, sectBy := (teamAt t u.team).sectBy })) u (unitAt t u)

/-- Reductions, scans and sect (07 R174-R176, 13 R301). That both groups of a pair advance in one step (log 21) and that a sum of fadd rounds
in the FPCTL of each thread that receives it (log 46) are the model's readings. -/
def Obligations.ReductionAndScanResults : Prop :=
  (∀ d a g o, laneWords (.sred d a g o) g a (fun ps y l =>
    let r := combined o (envOf y l) ((mates y l ps).map (·.2))
    wrote32 false d r.1 r.2)) ∧
  (∀ d a g o, laneWords (.sscan d a g o) g a (fun ps y l =>
    let r := combined o (envOf y l) (((mates y l ps).filter (fun q => decide (q.1 ≤ y.laneNo l))).map (·.2))
    wrote32 false d r.1 r.2)) ∧
  (∀ d a g o, laneWords (.sscanEx d a g o) g a (fun ps y l =>
    let r := combined o (envOf y l) (((mates y l ps).filter (fun q => decide (q.1 < y.laneNo l))).map (·.2))
    wrote32 false d r.1 r.2)) ∧
  (∀ g w c, (c, w) ∈ [(1, SectWidth.w2), (2, .w4), (3, .w8), (4, .w16), (5, .w32)] → ∀ s x, issues (.sect g w) s x →
    goesTo (.sect g w) s (fun t =>
      (teamAt t x.u.team).sect = (if x.parts g = [] then x.t.sect else sectAfter s x c) ∧ onlySect s t x.u ∧
      onlyThreads x.g (unitAt t x.u) ∧ ∀ l, thrAt (unitAt t x.u) l =
        if l ∈ x.parts g then { x.thr l with lt := BitVec.ofNat 32 c } else x.thr l))

/-- tlu (07 R173). -/
def Obligations.TableLookupCompletes : Prop :=
  ∀ d a b g w s x, issues (.tlu d a b g w) s x →
    let n := match w with
      | .b32 => 4
      | .n8 => 1
    let offs := (x.parts g).map (fun l => (l, (x.src l b).toNat + n * ((x.src l a).toNat % 256)))
    let mis := offs.filter (fun o => (BitVec.ofNat 64 (x.t.kernel.dataBase + o.2)).toNat % n != 0)
    let bad := offs.filter (fun o => decide (x.t.kernel.dataLen < o.2 + n))
    (∀ s1 vs, mis = [] → bad = [] →
      heldRead s x .glb n n (offs.map (fun o => (o.1, BitVec.ofNat 64 (x.t.kernel.dataBase + o.2)))) = .vals s1 vs →
      goesTo (.tlu d a b g w) s (fun t =>
        onlyUnit s1 t x.u ∧ onlyThreads (unitAt s1 x.u) (unitAt t x.u) ∧
        ∀ l, match (vs.filter (fun e => e.1 == l)).getLast? with
          | none => thrAt (unitAt t x.u) l = thrAt (unitAt s1 x.u) l
          | some e => wrote32 false d (bytesToW32 e.2) 0 (thrAt (unitAt s1 x.u) l) (thrAt (unitAt t x.u) l))) ∧
    (mis = [] → bad ≠ [] → exec (.tlu d a b g w) s =
      .next (trapWord s x .accessViolation 1 (laneMask (bad.map (·.1))) (BitVec.ofNat 64 (x.t.kernel.dataBase + (bad.headD (0, 0)).2)))) ∧
    (mis ≠ [] → exec (.tlu d a b g w) s =
      .next (trapWord s x .misaligned 0 (laneMask (mis.map (·.1))) (BitVec.ofNat 64 (x.t.kernel.dataBase + (mis.headD (0, 0)).2))))

/-- k registers (02 R45). -/
def Obligations.ConductorRegistersAreWide : Prop :=
  (∀ (x : Ctx) (l : Nat) (o : OField), x.cond = true → o.toNat ≤ 11 →
    x.src l o = (kAt x.g o.toNat).extractLsb' 0 32 ∧ x.src64 l o = kAt x.g o.toNat) ∧
  (∀ (x : Ctx) (u : SIdx), x.cond = true → x.uni u = (kAt x.g u.toNat).extractLsb' 0 32 ∧ x.uni64 u.toNat = kAt x.g u.toNat) ∧
  (∀ (gr : Grp) (l : Nat) (d : OField) (v w : W32) (n : Nat), d.toNat ≤ 11 →
    kAt (writeO true gr l d v w) n = if n = d.toNat then (0 : W32) ++ v else kAt gr n) ∧
  (∀ (gr : Grp) (l v n : Nat) (w : W32), kAt (writeV true gr l v w) n = if n = v then (0 : W32) ++ w else kAt gr n)

/-- plop, and p0 (07 R180, 02 R43). -/
def Obligations.PredicateWordResults : Prop :=
  let rd (x : Ctx) (l : Nat) (p : PIdx) : Bool := p.toNat == 0 || (x.thr l).p.getLsbD p.toNat
  (∀ d a b g, writesPred (.plop d a b g .and) g d (fun x l => (rd x l a && rd x l b, 0))) ∧
  (∀ d a b g, writesPred (.plop d a b g .or) g d (fun x l => (rd x l a || rd x l b, 0))) ∧
  (∀ d a b g, writesPred (.plop d a b g .xor) g d (fun x l => (xor (rd x l a) (rd x l b), 0))) ∧
  (∀ d a b g, writesPred (.plop d a b g .andn) g d (fun x l => (rd x l a && !rd x l b, 0))) ∧
  (∀ d a g, writesPred (.plopNot d a g) g d (fun x l => (!rd x l a, 0))) ∧
  (∀ d a g, writesPred (.plopSet d a g) g d (fun x l => (decide (x.src l a ≠ 0), 0))) ∧
  (∀ d a g, writes32 (.plopGet d a g) g d (fun x l => (if rd x l a then 1 else 0, 0))) ∧
  (∀ t : Thread, predBit t 0 = true) ∧
  (∀ t : Thread, ∀ p : PIdx, p ≠ 0 → predBit t p = t.p.getLsbD p.toNat) ∧
  (∀ (gr : Grp) (l : Nat) (b : Bool), (thrAt (writeP gr l 0 b) l).p = (thrAt gr l).p) ∧
  (∀ (gr : Grp) (l : Nat) (p q : PIdx) (b : Bool), p ≠ 0 → q ≠ 0 →
    predBit (thrAt (writeP gr l p b) l) q = if q = p then b else predBit (thrAt gr l) q) ∧
  (∀ (x : Ctx) (cs : List (Nat × OField)) (l : Nat), (thrAt (commitAll x cs) l).p = (thrAt x.g l).p) ∧
  (∀ (gr : Grp) (ls : List Nat) (pc l : Nat), (thrAt (setPcs gr ls pc) l).p = (thrAt gr l).p) ∧
  (∀ (base : Nat) (y : Xfer) (t : Thread), (takeXfer base y t).p = t.p)

/-- Register moves (07 R177, R178). The width of movin and movout in a conductor clause is the model's choice (log 46). -/
def Obligations.RegisterMoveResults : Prop :=
  (∀ v o g c s x, issues (.movin v o g c) s x → x.cond = false → goesTo (.movin v o g c) s (fun t =>
    onlyUnit s t x.u ∧ onlyThreads x.g (unitAt t x.u) ∧ (unitAt t x.u).k = x.g.k ∧
    ∀ l, if l ∈ x.parts g then
        thrAt (unitAt t x.u) l = { x.thr l with lt := vAt (x.thr l) (v.toNat + c.toNat), t := (thrAt (unitAt t x.u) l).t } ∧
        ∀ n, tAt (thrAt (unitAt t x.u) l) n =
          if o.toNat ≤ 11 ∧ o.toNat ≤ n ∧ n ≤ o.toNat + c.toNat then vAt (x.thr l) (v.toNat + (n - o.toNat)) else tAt (x.thr l) n
      else thrAt (unitAt t x.u) l = x.thr l)) ∧
  (∀ v o g c s x, issues (.movout v o g c) s x → x.cond = false → goesTo (.movout v o g c) s (fun t =>
    onlyUnit s t x.u ∧ onlyThreads x.g (unitAt t x.u) ∧ (unitAt t x.u).k = x.g.k ∧
    ∀ l, if l ∈ x.parts g then
        thrAt (unitAt t x.u) l =
          { x.thr l with
            lt := x.src l (if o.toNat ≤ 11 then BitVec.ofNat 4 (o.toNat + c.toNat) else o)
            v := (thrAt (unitAt t x.u) l).v } ∧
        ∀ n, vAt (thrAt (unitAt t x.u) l) n =
          if v.toNat ≤ n ∧ n ≤ v.toNat + c.toNat then x.src l (if o.toNat ≤ 11 then BitVec.ofNat 4 (o.toNat + (n - v.toNat)) else o)
          else vAt (x.thr l) n
      else thrAt (unitAt t x.u) l = x.thr l)) ∧
  (∀ v o g c s x l, issues (.movin v o g c) s x → x.cond = true → x.parts g = [l] → goesTo (.movin v o g c) s (fun t =>
    onlyUnit s t x.u ∧ onlyThreads x.g (unitAt t x.u) ∧
    ∀ n, kAt (unitAt t x.u) n =
      if o.toNat ≤ 11 ∧ o.toNat ≤ n ∧ n ≤ o.toNat + c.toNat then (x.main l (v.toNat + (n - o.toNat))).setWidth 64 else kAt x.g n)) ∧
  (∀ v o g c s x l, issues (.movout v o g c) s x → x.cond = true → x.parts g = [l] → goesTo (.movout v o g c) s (fun t =>
    onlyUnit s t x.u ∧ onlyThreads x.g (unitAt t x.u) ∧
    ∀ n, kAt (unitAt t x.u) n =
      if v.toNat ≤ n ∧ n ≤ v.toNat + c.toNat then
        (x.src l (if o.toNat ≤ 11 then BitVec.ofNat 4 (o.toNat + (n - v.toNat)) else o)).setWidth 64
      else kAt x.g n)) ∧
  (∀ d u g s x, issues (.movs d u g) s x → x.cond = false → goesTo (.movs d u g) s (fun t =>
    onlyUnit s t x.u ∧ onlyThreads x.g (unitAt t x.u) ∧ (unitAt t x.u).k = x.g.k ∧
    ∀ l, if l ∈ x.parts g then wrote32 false d (sAt x.g u.toNat) 0 (x.thr l) (thrAt (unitAt t x.u) l)
      else thrAt (unitAt t x.u) l = x.thr l)) ∧
  (∀ d u g s x, issues (.movs d u g) s x → x.cond = true → goesTo (.movs d u g) s (fun t =>
    onlyUnit s t x.u ∧ onlyThreads x.g (unitAt t x.u) ∧
    kAfter true d (x.parts g) (fun _ => kAt x.g u.toNat) x.g (unitAt t x.u))) ∧
  (∀ a u g s x l0 r, issues (.movg a u g) s x → x.parts g = l0 :: r → goesTo (.movg a u g) s (fun t =>
    onlyUnit s t x.u ∧
    (∃ ths k ss, unitAt t x.u = { advance x.g with threads := ths, k := k, s := ss }) ∧
    (∀ n, sAt (unitAt t x.u) n = if x.cond = false ∧ n = u.toNat then x.src l0 a else sAt x.g n) ∧
    (∀ n, kAt (unitAt t x.u) n = if x.cond = true ∧ n = u.toNat then x.src64 l0 a else kAt x.g n) ∧
    ∀ l, thrAt (unitAt t x.u) l = if l ∈ x.parts g then { x.thr l with lt := x.src l a } else x.thr l)) ∧
  (∀ a u g s x, issues (.movg a u g) s x → x.parts g = [] → exec (.movg a u g) s = .next (setUnit s x.u (advance x.g)))

/-- mfs (02 R51-R55, 07 R178). -/
def Obligations.SpecialRegisterReads : Prop :=
  (∀ d n g s x, issues (.mfs d n g) s x → x.cond = false → goesTo (.mfs d n g) s (fun t =>
    onlyUnit s t x.u ∧ onlyThreads x.g (unitAt t x.u) ∧
    ∀ l, if l ∈ x.parts g then
        (thrAt (unitAt t x.u) l).lt = (specialReg s x l n.toNat).setWidth 32 ∧
        (∀ r, tAt (thrAt (unitAt t x.u) l) r = if d.toNat ≤ 11 ∧ r = d.toNat then (specialReg s x l n.toNat).setWidth 32 else tAt (x.thr l) r) ∧
        thrAt (unitAt t x.u) l =
          { x.thr l with
            lt := (thrAt (unitAt t x.u) l).lt
            t := (thrAt (unitAt t x.u) l).t
            cych := if n.toNat = 0x09 then some ((cycOf s x.u).extractLsb' 32 32) else (x.thr l).cych }
      else thrAt (unitAt t x.u) l = x.thr l)) ∧
  (∀ d n g s x, issues (.mfs d n g) s x → x.cond = true → goesTo (.mfs d n g) s (fun t =>
    onlyUnit s t x.u ∧ onlyThreads x.g (unitAt t x.u) ∧
    kAfter true d (x.parts g) (fun l => specialReg s x l n.toNat) x.g (unitAt t x.u))) ∧
  (∀ s x l, x.cond = false →
    specialReg s x l 0x00 = BitVec.ofNat 64 ((x.t.index * 1024 + x.u.idx * 32 + l) % 2 ^ 32) ∧
    specialReg s x l 0x01 = BitVec.ofNat 64 l ∧ specialReg s x l 0x02 = BitVec.ofNat 64 x.u.idx ∧
    specialReg s x l 0x03 = BitVec.ofNat 64 x.t.index ∧
    specialReg s x l 0x04 = BitVec.ofNat 64 (gridAt s x.t.grid).gridid.toNat ∧
    specialReg s x l 0x06 = BitVec.ofNat 64 x.t.core ∧ specialReg s x l 0x07 = BitVec.ofNat 64 (x.t.core / 8) ∧
    specialReg s x l 0x0F = BitVec.ofNat 64 (x.thr l).fpstat.toNat ∧ specialReg s x l 0x10 = BitVec.ofNat 64 (x.thr l).fpctl.toNat ∧
    specialReg s x l 0x08 = BitVec.ofNat 64 x.t.sect ∧ specialReg s x l 0x0D = x.g.farestall.setWidth 64 ∧
    specialReg s x l 0x11 = BitVec.ofNat 64 x.g.role ∧ specialReg s x l 0x12 = BitVec.ofNat 64 x.g.share) ∧
  (∀ s x l,
    specialReg s x l 0x03 = BitVec.ofNat 64 x.t.index ∧ specialReg s x l 0x04 = BitVec.ofNat 64 (gridAt s x.t.grid).gridid.toNat ∧
    specialReg s x l 0x05 = BitVec.ofNat 64 (gridAt s x.t.grid).depth ∧
    specialReg s x l 0x06 = BitVec.ofNat 64 x.t.core ∧ specialReg s x l 0x07 = BitVec.ofNat 64 (x.t.core / 8) ∧
    specialReg s x l 0x09 = BitVec.ofNat 64 ((cycOf s x.u).toNat % 2 ^ 32) ∧
    (∀ h, (x.thr l).cych = some h → specialReg s x l 0x0A = h.setWidth 64) ∧
    ((x.thr l).cych = none → specialReg s x l 0x0A = BitVec.ofNat 64 ((cycOf s x.u).toNat / 2 ^ 32)) ∧
    (∀ i, (specialReg s x l 0x0C).getLsbD i = true ↔ i < 12 ∧ tget 0 x.g.flags i ≠ 0) ∧
    specialReg s x l 0x0E = BitVec.ofNat 64 (purseHeld (coreAt s x.t.core).purse % 65536) ∧
    specialReg s x l 0x0F = BitVec.ofNat 64 (x.thr l).fpstat.toNat ∧ specialReg s x l 0x10 = BitVec.ofNat 64 (x.thr l).fpctl.toNat ∧
    specialReg s x l 0x13 = (if (gridAt s x.t.grid).domain = true then 1 else 0) ∧
    specialReg s x l 0x14 = BitVec.ofNat 64 (gridAt s x.t.grid).cls ∧ specialReg s x l 0x15 = BitVec.ofNat 64 x.t.privBytes) ∧
  (∀ s x l, x.cond = true →
    specialReg s x l 0x00 = BitVec.ofNat 64 (2 ^ 32 + x.t.index * 1024) ∧ specialReg s x l 0x01 = 0 ∧
    specialReg s x l 0x02 = BitVec.ofNat 64 x.u.idx ∧ x.u.idx = 32 ∧
    specialReg s x l 0x08 = 0 ∧ specialReg s x l 0x0D = 0 ∧ specialReg s x l 0x11 = 0 ∧ specialReg s x l 0x12 = 0) ∧
  (∀ s x l, (ctxAt s x.t.ctx).record.deadline = 0 → specialReg s x l 0x0B = 0xFFFFFFFF) ∧
  (∀ s x l, (ctxAt s x.t.ctx).record.deadline ≠ 0 → specialReg s x l 0x0B = BitVec.ofNat 64 (min (ctxAt s x.t.ctx).dlrem 0xFFFFFFFF)) ∧
  (∀ s x l, (ctxAt s x.t.ctx).record.deadline ≠ 0 → (ctxAt s x.t.ctx).dlrem = 0 → specialReg s x l 0x0B = 0)

/-- mts (07 R179). -/
def Obligations.SpecialRegisterWrites : Prop :=
  (∀ a n g s x l0 r, issues (.mts a n g) s x → x.parts g = l0 :: r →
    ¬(n = 0x08 ∧ x.cond = false ∧ ((x.src l0 a).toNat % 8 = 0 ∨ 6 ≤ (x.src l0 a).toNat % 8)) →
    goesTo (.mts a n g) s (fun t =>
      onlySect s t x.u ∧
      (teamAt t x.u.team).sect = (if n = 0x08 ∧ x.cond = false then sectAfter s x ((x.src l0 a).toNat % 8) else x.t.sect) ∧
      (∃ ths, unitAt t x.u = { advance x.g with
        threads := ths, farestall := if n = 0x0D ∧ x.cond = false then x.src l0 a else x.g.farestall
        stallSet := x.g.stallSet || (decide (n = 0x0D) && !x.cond) }) ∧
      ∀ l, thrAt (unitAt t x.u) l =
        if l ∈ x.parts g then
          { x.thr l with
            lt := x.src l a
            fpstat := if n = 0x0F then (x.src l a).setWidth 5 else (x.thr l).fpstat
            fpctl := if n = 0x10 then (x.src l a).setWidth 3 else (x.thr l).fpctl }
        else x.thr l)) ∧
  (∀ a g s x l0 r, issues (.mts a 0x08 g) s x → x.parts g = l0 :: r → x.cond = false →
    ((x.src l0 a).toNat % 8 = 0 ∨ 6 ≤ (x.src l0 a).toNat % 8) →
    exec (.mts a 0x08 g) s = .next (trapWord s x .illegal 0 (laneMask (x.parts g)) 0)) ∧
  (∀ a n g s x, issues (.mts a n g) s x → x.parts g = [] → exec (.mts a n g) s = .next (setUnit s x.u (advance x.g)))

/-- The clause goes on to its trailer with an outcome, and nothing else changes. -/
def Sys2Proof.Claims.withOutcome (s : State) (x : Ctx) (c : Ctl) : State :=
  setUnit s x.u { x.g with clause := some { x.cl with next := x.cl.next + 1, hints := {}, ctl := c } }

/-- The address a branch's signed word offset names. -/
def Sys2Proof.Claims.branchTo (x : Ctx) (off : BitVec 22) : W64 := BitVec.ofInt 64 (((x.cl.head + 4 * (x.cl.len + 2) : Nat) : Int) + 4 * off.toInt)

/-- Whether a thread's push stays within the declared spill bytes (02 R49). -/
def Sys2Proof.Claims.pushFits (x : Ctx) (l : Nat) : Prop :=
  (x.thr l).links.length < 16 ∨ 8 * ((x.thr l).spilled + 1) ≤ x.t.kernel.spill

/-- Whether a thread has a link. -/
def Sys2Proof.Claims.hasLink (x : Ctx) (l : Nat) : Prop := (x.thr l).links ≠ [] ∨ (x.thr l).spilled ≠ 0

/-- Control words and what they leave for the trailer (08 R185-R190, R192). -/
def Obligations.ControlWordsChooseOutcome : Prop :=
  (∀ g off s x, issues (.bra g off) s x →
    exec (.bra g off) s = .next (withOutcome s x (.xfers ((x.parts g).map (fun l => (l, ⟨branchTo x off, none, .none⟩)))))) ∧
  (∀ g off s x, issues (.call g off) s x → (∀ l ∈ x.parts g, pushFits x l) → spillBusy x (x.parts g) = false →
    exec (.call g off) s =
      .next (withOutcome s x (.xfers ((x.parts g).map (fun l => (l, ⟨branchTo x off, none, .push (BitVec.ofNat 48 x.fall)⟩)))))) ∧
  (∀ a b g s x, issues (.callx a b g) s x → (∀ l ∈ x.parts g, pushFits x l) → spillBusy x (x.parts g) = false →
    exec (.callx a b g) s =
      .next (withOutcome s x (.xfers ((x.parts g).map (fun l =>
        (l, ⟨x.src64 l a, some ((x.src l b).extractLsb' 0 16), .push (BitVec.ofNat 48 x.fall)⟩)))))) ∧
  (∀ i g s x bad, ((∃ off, i = .call g off) ∨ ∃ a b, i = .callx a b g) → issues i s x → bad ≠ [] →
    (∀ l, l ∈ bad ↔ l ∈ x.parts g ∧ ¬pushFits x l) → bad.Pairwise (· < ·) →
    exec i s = .next (trapDeliver s x.u (mkRec s x.u x.pc x.cl.head .operandLimit 5 (laneMask bad) 0))) ∧
  (∀ g s x, issues (.ret g) s x → (∀ l ∈ x.parts g, hasLink x l) →
    (∀ l ∈ x.parts g, (x.thr l).links = [] → earlierAt x.g l (spillLoc x l ((x.thr l).spilled - 1)) 8 = false) →
    ∃ top : Nat → W64,
      (∀ l ∈ x.parts g,
        (∀ k r, (x.thr l).links = k :: r → top l = k.setWidth 64) ∧
        ((x.thr l).links = [] →
          top l = BitVec.ofNat 64 (memNat (x.thr l).priv (x.t.privBytes + 8 * ((x.thr l).spilled - 1)) 8))) ∧
      exec (.ret g) s = .next (withOutcome s x (.xfers ((x.parts g).map (fun l => (l, ⟨top l, some 0xFFFF, .pop⟩)))))) ∧
  (∀ g s x bad, issues (.ret g) s x → bad ≠ [] → (∀ l, l ∈ bad ↔ l ∈ x.parts g ∧ ¬hasLink x l) → bad.Pairwise (· < ·) →
    exec (.ret g) s = .next (trapDeliver s x.u (mkRec s x.u x.pc x.cl.head .returnUnderflow 0 (laneMask bad) 0))) ∧
  (∀ a b g s x s1 s2 heads entries, issues (.brx a b g) s x →
    dataRead s x 4 ((x.parts g).map (fun l => (l, (x.src l b).toNat))) = .vals s1 heads →
    (let last (l : Nat) := bytesToNat (tget [] heads l) % 65536
     dataRead s1 x 4 ((x.parts g).map (fun l =>
        (l, (x.src l b).toNat + 4 * (1 + (if (x.src l a).toNat < last l then (x.src l a).toNat else last l))))) = .vals s2 entries) →
    exec (.brx a b g) s = .next (withOutcome s2 x (.xfers ((x.parts g).map (fun l =>
      (l, ⟨BitVec.ofNat 64 (x.t.kernel.codeBase + bytesToNat (tget [] entries l) % 2 ^ 32),
        some (BitVec.ofNat 16 (bytesToNat (tget [] heads l) / 65536)), .none⟩)))))) ∧
  (∀ g s x, issues (.exit g) s x → exec (.exit g) s = .next (withOutcome s x (.exits (laneMask (x.parts g))))) ∧
  (∀ s x, issues .yield s x → exec .yield s = .next (withOutcome s x .yielding))

/-- .clause at a clause's head (06 R123, 02 R41). -/
def Obligations.HeaderBeginsClause : Prop :=
  (∀ (wait : BitVec 12) (setA setB : BitVec 4) (len : BitVec 5) (s : State) (x : Ctx) (w : W32) (ws : List W32) (s1 : State),
    issuing s = some x → x.cl.decoded = false → encode (.clauseHeader wait setA setB len) = some w → len.toNat < 24 →
    fetchMany x.u x.cl.head x.cl.mask (len.toNat + 2) (x.cl.head + 4) s [] = .ok (ws, s1) →
    clauseCause w (ws.take (len.toNat + 1)) (ws.getD (len.toNat + 1) 0) = none →
    cancelEntry x.t.kernel ≠ some x.cl.head →
    goesTo (.clauseHeader wait setA setB len) s (fun t =>
      onlyUnit (modTeam s1 x.u.team (fun m => { m with upsets := (teamAt t x.u.team).upsets })) t x.u ∧
      unitAt t x.u =
        { x.g with
          threads := (unitAt t x.u).threads
          clause := some { x.cl with
            decoded := true, len := len.toNat + 1, next := 1, wait := wait,
            setA := if setA.toNat = 15 then none else some setA.toNat, setB := if setB.toNat = 15 then none else some setB.toNat,
            sect := x.t.sect, hints := {}, ctl := .fall, waited := false } } ∧
      ∀ l, thrAt (unitAt t x.u) l =
        if l ∈ x.lanes then { x.thr l with lt := 0, t := [], cych := none } else x.thr l)) ∧
  (∀ wait setA setB len s x w, issuing s = some x → x.cl.decoded = true → encode (.clauseHeader wait setA setB len) = some w →
    exec (.clauseHeader wait setA setB len) s =
      .next (trapDeliver s x.u (mkRec s x.u x.pc x.cl.head .clauseForm 0 x.cl.mask (w.setWidth 64))))

/-- A unit stands at its trailer, and no check of the trailer's form fails (06 R124, R131, 02 R57). -/
def Sys2Proof.Claims.passesTrailer (va : VIdx) (oa : OField) (vb : VIdx) (ob : OField) (n : BitVec 2) (s : State) (x : Ctx) : Prop :=
  issuing s = some x ∧ x.cl.decoded = true ∧ x.cl.next = x.cl.len + 1 ∧ n.toNat ≤ 2 ∧ wellFormed (.clauseTrailer va oa vb ob n) = true ∧
  (if x.cond then (1 ≤ n.toNat → va.toNat < 64) ∧ (n.toNat = 2 → vb.toNat < 64)
   else (1 ≤ n.toNat → va.toNat < 8 * x.g.share) ∧ (n.toNat = 2 → vb.toNat < 8 * x.g.share))

/-- So, and where the team runs in lockstep the clause compares equal (17 R386). -/
def Sys2Proof.Claims.atTrailer (va : VIdx) (oa : OField) (vb : VIdx) (ob : OField) (n : BitVec 2) (s : State) (x : Ctx) : Prop :=
  passesTrailer va oa vb ob n s x ∧ ∀ a ∈ x.t.upsets, a.unit = x.u.idx → x.cl.mask.getLsbD a.lane = false

/-- A thread after the commits of a group clause. -/
def Sys2Proof.Claims.committed (va : VIdx) (oa : OField) (vb : VIdx) (ob : OField) (n : BitVec 2) (x : Ctx) (l : Nat) (new : Thread) : Prop :=
  ∀ r, vAt new r =
    if n.toNat = 2 ∧ r = vb.toNat then x.src l ob else if 1 ≤ n.toNat ∧ r = va.toNat then x.src l oa else vAt (x.thr l) r

/-- The k registers after the commits of a conductor clause, whose one thread is l. -/
def Sys2Proof.Claims.kCommitted (va : VIdx) (oa : OField) (vb : VIdx) (ob : OField) (n : BitVec 2) (x : Ctx) (l : Nat) (h : Grp) : Prop :=
  ∀ r, kAt h r =
    if n.toNat = 2 ∧ r = vb.toNat then (x.src l ob).setWidth 64
    else if 1 ≤ n.toNat ∧ r = va.toNat then (x.src l oa).setWidth 64 else kAt x.g r

/-- A thread after its transfer: its counter, and its link pushed or popped, with the spill area where the hardware entries run out
(02 R49). -/
def Sys2Proof.Claims.transferred (x : Ctx) (y : Xfer) (old new : Thread) : Prop :=
  new.pc = y.target.extractLsb' 0 48 ∧
  (y.link = .none → new.links = old.links ∧ new.spilled = old.spilled) ∧
  (∀ k, y.link = .push k → old.links.length < 16 → new.links = k :: old.links ∧ new.spilled = old.spilled) ∧
  (∀ k, y.link = .push k → 16 ≤ old.links.length → new.links = k :: old.links.dropLast ∧ new.spilled = old.spilled + 1) ∧
  (∀ k r, y.link = .pop → old.links = k :: r → new.links = r ∧ new.spilled = old.spilled) ∧
  (y.link = .pop → old.links = [] → new.links = [] ∧ new.spilled = old.spilled - 1)

/-- The trailer (06 R124) and the ends of a clause. That both sources of the commits are read before either write is the model's choice
(log 47). -/
def Obligations.TrailerCommitsThenContinues : Prop :=
  (∀ va oa vb ob n s x, atTrailer va oa vb ob n s x → x.cond = false → (x.cl.ctl = .fall ∨ x.cl.ctl = .yielding) →
    goesTo (.clauseTrailer va oa vb ob n) s (fun t =>
      onlyUnit s t x.u ∧
      unitAt t x.u =
        { x.g with
          clause := none, threads := (unitAt t x.u).threads,
          tail := if x.cl.ctl = .fall then x.g.tail
            else x.g.tail ++ [⟨x.cl.mask, x.cl.cand &&& ~~~x.cl.mask, x.cl.candP &&& ~~~x.cl.maskP⟩] } ∧
      ∀ l,
        (l ∈ x.lanes → committed va oa vb ob n x l (thrAt (unitAt t x.u) l) ∧
          thrAt (unitAt t x.u) l =
            { x.thr l with pc := BitVec.ofNat 48 (x.cl.head + 4 * (x.cl.len + 2)), v := (thrAt (unitAt t x.u) l).v }) ∧
        (l ∉ x.lanes → thrAt (unitAt t x.u) l = x.thr l))) ∧
  (∀ va oa vb ob n s x l, atTrailer va oa vb ob n s x → x.cond = true → x.lanes = [l] → (x.cl.ctl = .fall ∨ x.cl.ctl = .yielding) →
    goesTo (.clauseTrailer va oa vb ob n) s (fun t =>
      onlyUnit s t x.u ∧
      unitAt t x.u =
        { x.g with
          clause := none, threads := (unitAt t x.u).threads, k := (unitAt t x.u).k,
          tail := if x.cl.ctl = .fall then x.g.tail
            else x.g.tail ++ [⟨x.cl.mask, x.cl.cand &&& ~~~x.cl.mask, x.cl.candP &&& ~~~x.cl.maskP⟩] } ∧
      kCommitted va oa vb ob n x l (unitAt t x.u) ∧
      thrAt (unitAt t x.u) l = { x.thr l with pc := BitVec.ofNat 48 (x.cl.head + 4 * (x.cl.len + 2)) })) ∧
  (∀ va oa vb ob n s x xs, atTrailer va oa vb ob n s x → x.cl.ctl = .xfers xs → (tkeys xs).Nodup →
    s.faultBuf.length ≤ 4096 → (∀ e ∈ xs, e.1 ∈ x.lanes) → (∀ e ∈ xs, checkTarget s x.u e.2 = .ok) →
    goesTo (.clauseTrailer va oa vb ob n) s (fun t =>
      onlyUnit s t x.u ∧ (unitAt t x.u).clause = none ∧
      (∀ l, l ∉ x.lanes → thrAt (unitAt t x.u) l = x.thr l) ∧
      (x.cond = false → ∀ l ∈ x.lanes, committed va oa vb ob n x l (thrAt (unitAt t x.u) l)) ∧
      (∀ l, x.cond = true → x.lanes = [l] → kCommitted va oa vb ob n x l (unitAt t x.u)) ∧
      (∀ l ∈ x.lanes, l ∉ tkeys xs → (thrAt (unitAt t x.u) l).pc = BitVec.ofNat 48 (x.cl.head + 4 * (x.cl.len + 2)) ∧
        (thrAt (unitAt t x.u) l).links = (x.thr l).links) ∧
      ∀ e ∈ xs, transferred x e.2 (x.thr e.1) (thrAt (unitAt t x.u) e.1))) ∧
  (∀ va oa vb ob n s x m, atTrailer va oa vb ob n s x → x.cl.ctl = .exits m →
    goesTo (.clauseTrailer va oa vb ob n) s (fun t =>
      t.mem = s.mem ∧ (unitAt t x.u).clause = none ∧
      (∀ l, l < 32 → m.getLsbD l = true → (thrAt (unitAt t x.u) l).live = false) ∧
      (x.cond = false → ∀ l ∈ x.lanes, committed va oa vb ob n x l (thrAt (unitAt t x.u) l)) ∧
      (∀ l, x.cond = true → x.lanes = [l] → (x.g.blocked = [] ∨ liveLanes x.g = [l] ∧ m.getLsbD l = true) →
        kCommitted va oa vb ob n x l (unitAt t x.u)) ∧
      (∀ l ∈ x.lanes, m.getLsbD l = false →
        (thrAt (unitAt t x.u) l).pc = BitVec.ofNat 48 (x.cl.head + 4 * (x.cl.len + 2)) ∧
        (thrAt (unitAt t x.u) l).live = (x.thr l).live ∧ (thrAt (unitAt t x.u) l).links = (x.thr l).links))) ∧
  (∀ va oa vb ob n s x (a : Upset), passesTrailer va oa vb ob n s x → a ∈ x.t.upsets → a.unit = x.u.idx → x.cl.mask.getLsbD a.lane = true →
    goesTo (.clauseTrailer va oa vb ob n) s (fun t =>
      (teamAt t x.u.team).stopped = true ∧ t.supervisor.pairErr = true ∧
      (∀ p ∈ (unitAt t x.u).stores, p.id ∉ x.cl.outs) ∧ (∀ g ∈ x.cl.outs, g ∉ t.readyPool) ∧
      ∃ r ∈ (ctxAt t x.t.ctx).faultLog, r.cause = .pairMismatch ∧ r.cstart = x.cl.head ∧ r.core = x.t.core ∧
        (∃ b ∈ x.t.upsets, r.mask = laneMask [b.lane] ∧ b.unit = x.u.idx ∧ b.lane ≤ a.lane) ∧
        (r.addr = 0 ∨ ∃ b ∈ x.t.upsets, b.unit = x.u.idx ∧ x.cl.mask.getLsbD b.lane = true ∧ r.addr = b.addr)))

/-- SELECT_RUN where no run is blocked, yielded or held (01 R21). -/
def Obligations.SelectedRunIsTheLowest : Prop :=
  ∀ (u : UnitId) (s : State) (pc : Nat),
    let g := unitAt s u
    (teamAt s u.team).pairMode = false → maySelect s u = true → g.windDown = false → g.drain = false → g.handler = none →
    g.blocked = [] → g.tail = [] → g.apart = [] → g.xheld = [] → domainSet s u = false →
    (∃ l ∈ liveLanes g, l < 32 ∧ (thrAt g l).pc.toNat = pc) →
    (∀ l ∈ liveLanes g, l < 32 → pc ≤ (thrAt g l).pc.toNat) →
    goesTo (.selectRun u) s (fun t =>
      onlyUnit s t u ∧
      ∃ cl : Clause, unitAt t u = { g with clause := some cl } ∧ cl.head = pc ∧ cl.decoded = false ∧
        ∀ l, l < 32 → (cl.mask.getLsbD l = true ↔ l ∈ liveLanes g ∧ (thrAt g l).pc.toNat = pc))

/-- Hint words and landing pads (06 R136-R140). -/
def Obligations.HintsAndPadsPass : Prop :=
  let goesOn (i : Instr) (keep : Hints → Hints) : Prop := ∀ s x, issues i s x →
    (x.cl.hints ≠ {} ∨
      ∀ kind p, (i = .hintImmediate p ∧ kind = 0 ∨ i = .hintCache p ∧ kind = 1 ∨ i = .hintModifier p ∧ kind = 2) →
        let rest := (bodyRest s x).drop 1
        let more := (rest.takeWhile (fun w => majorNat w == 0x3C)).map hintParts
        hintCause x ((kind, p) :: more) (rest.drop more.length).head? = none) →
    exec i s = .next (setUnit s x.u { x.g with clause := some { x.cl with next := x.cl.next + 1, hints := keep x.cl.hints } })
  (∀ p, goesOn (.hintImmediate p) (fun h => { h with imm := some p })) ∧
  (∀ p, goesOn (.hintCache p) (fun h => { h with cache := some p })) ∧
  (∀ p, goesOn (.hintModifier p) (fun h => { h with modifier := some p })) ∧
  (∀ n s x, issues (.lpad n) s x → exec (.lpad n) s =
    .next (setUnit s x.u { x.g with clause := some { x.cl with next := x.cl.next + 1, hints := {} } }))

/-- The conditions under which a trap enters the handler (14 R308). -/
def Sys2Proof.Claims.entersHandler (s : State) (u : UnitId) (r : TrapRec) : Prop :=
  u.idx ≠ 32 ∧ (unitAt s u).retired = false ∧ (unitAt s u).handler = none ∧ (ctxAt s r.ctx).record.hentry ≠ 0 ∧
  (ctxAt s r.ctx).record.hcmask.getLsbD r.cause.code = true ∧ r.cause ≠ .faultUnserviceable ∧ r.cause ≠ .pairMismatch

/-- TrapDelivery into the handler (14 R308). -/
def Obligations.TrapEntersHandler : Prop :=
  ∀ s u r, entersHandler s u r →
    let t := trapDeliver s u r
    let va := (ctxAt s (teamAt s u.team).ctx).record.trapbase + 64 * ((teamAt s u.team).core * 32 + u.idx)
    let root := (ctxAt s (teamAt s u.team).ctx).record.ptroot
    (∀ lf base pte, walkFrom s va root 3 = .leaf lf base pte →
      memReadN t.mem (lf.pa + (va - base)) 64 = r.bytes ∧
      ∀ a, (a < lf.pa + (va - base) ∨ lf.pa + (va - base) + 64 ≤ a) → memRead t.mem a = memRead s.mem a) ∧
    ((∀ lf base pte, walkFrom s va root 3 ≠ .leaf lf base pte) → t.mem = s.mem) ∧
    (unitAt t u).handler = some ⟨BitVec.ofNat 64 va, r, BitVec.ofNat 48 r.cstart, 0, r.mask, r.mask⟩ ∧
    (unitAt t u).clause = none ∧
    (∀ l, thrAt (unitAt t u) l =
      if l < 32 ∧ r.mask.getLsbD l = true then
        { thrAt (unitAt s u) l with pc := BitVec.ofNat 48 (ctxAt s r.ctx).record.hentry, lt := 0, t := [], cych := none }
      else thrAt (unitAt s u) l) ∧
    t.supervisor.repCnt = s.supervisor.repCnt + 1 ∧ t.supervisor.reports.getLast? = some r

/-- FatalStop (14 R308). -/
def Obligations.FatalTrapStopsTeam : Prop :=
  ∀ s u r, ¬entersHandler s u r →
    let t := trapDeliver s u r
    (teamAt t u.team).stopped = true ∧ (∀ e ∈ (teamAt t u.team).units, liveLanes e.2 = []) ∧
    (gridAt t (teamAt s u.team).grid).faulted = true ∧ r ∈ (ctxAt t r.ctx).faultLog ∧
    t.supervisor.repCnt = s.supervisor.repCnt + 1 ∧ t.supervisor.reports.getLast? = some r ∧
    (∀ lf base pte, walkFrom s (trapAddr s u) (ctxAt s (teamAt s u.team).ctx).record.ptroot 3 = .leaf lf base pte →
      ∀ a, (a < lf.pa + (trapAddr s u - base) ∨ lf.pa + (trapAddr s u - base) + 64 ≤ a) → memRead t.mem a = memRead s.mem a) ∧
    ((∀ lf base pte, walkFrom s (trapAddr s u) (ctxAt s (teamAt s u.team).ctx).record.ptroot 3 ≠ .leaf lf base pte) → t.mem = s.mem)

/-- An instruction that a word of a clause's body encodes: any but headers and trailers. -/
def Sys2Proof.Claims.bodyWord (i : Instr) : Prop := ∃ w, encode i = some w ∧ majorNat w ≠ 0x3F ∧ majorNat w ≠ 0x3D

/-- exec takes a trap at the word, for every thread of the run. -/
def Sys2Proof.Claims.trapsAtWord (i : Instr) (s : State) (x : Ctx) (c : Cause) (n : Nat) (addr : W64) : Prop :=
  exec i s = .next (trapDeliver s x.u (mkRec s x.u x.pc x.cl.head c n x.cl.mask addr))

/-- Causes in order, and where they stand (06 R143, 02 R57); unallocated words. The order of the two limits is a reading (log 46). -/
def Obligations.FirstCauseTrapsAtTheWord : Prop :=
  (∀ (i : Instr) (s : State) (x : Ctx), bodyWord i → issuing s = some x →
    let misplaced : Prop := inBody x.cl = false ∨ placedOk x.cl (infoOf i).place = false ∨ flagChosen x.cl (infoOf i) = false
    let illegal : Prop := legalIn x i (infoOf i) = false ∨ ((infoOf i).handler = true ∧ x.g.handler = none) ∨ valueIllegal x i = true
    let beyond : Prop := x.cond = false ∧ ∃ v ∈ (infoOf i).v ++ mxRegs x.cl.hints i, 8 * x.g.share ≤ v
    let undeclared : Prop := ∃ a, (infoOf i).acc = some a ∧ x.t.kernel.acc ≤ a
    (∀ c n, wordCheck x i = some (c, n) → trapsAtWord i s x c n (causeAddr i c)) ∧
    (misplaced → ∃ w, encode i = some w ∧ trapsAtWord i s x .clauseForm 0 (w.setWidth 64)) ∧
    (¬misplaced → illegal → trapsAtWord i s x .illegal 0 0) ∧
    (¬misplaced → ¬illegal → beyond → trapsAtWord i s x .operandLimit 1 0) ∧
    (¬misplaced → ¬illegal → ¬beyond → undeclared → trapsAtWord i s x .operandLimit 2 0) ∧
    (¬misplaced → ¬illegal → ¬beyond → ¬undeclared → issues i s x)) ∧
  (∀ g s x, issuing s = some x → inBody x.cl = true → x.cl.next = x.cl.len → x.g.handler = none →
    exec (.eret g) s = .next (trapDeliver s x.u (mkRec s x.u x.pc x.cl.head .illegal 0 x.cl.mask 0))) ∧
  (∀ s x, issuing s = some x → x.cl.decoded = true → inBody x.cl = true → isStructure (wordAt s x.u x.pc) = false →
    placedOk x.cl (rawPlace (wordAt s x.u x.pc)) = true →
    flagChosen x.cl { long := rawLong (wordAt s x.u x.pc), writesReg := true } = true →
    exec .unallocatedEncoding s = .next (trapDeliver s x.u (mkRec s x.u x.pc x.cl.head .illegal 0 x.cl.mask 0))) ∧
  (∀ s x, issuing s = some x → x.cl.decoded = true →
    (isStructure (wordAt s x.u x.pc) = true ∨ inBody x.cl = false ∨ placedOk x.cl (rawPlace (wordAt s x.u x.pc)) = false ∨
      flagChosen x.cl { long := rawLong (wordAt s x.u x.pc), writesReg := true } = false) →
    exec .unallocatedEncoding s =
      .next (trapDeliver s x.u (mkRec s x.u x.pc x.cl.head .clauseForm 0 x.cl.mask ((wordAt s x.u x.pc).setWidth 64)))) ∧
  (∀ s x, issuing s = some x → x.cl.decoded = false → majorNat (wordAt s x.u x.pc) ≠ 0x3F →
    exec .unallocatedEncoding s =
      .next (trapDeliver s x.u (mkRec s x.u x.pc x.cl.head .clauseForm 0 x.cl.mask ((wordAt s x.u x.pc).setWidth 64))))

/-- trap and brk (08 R191). -/
def Obligations.TrapAndBrkTakeTheirTrap : Prop :=
  (∀ i g (det : Ctx → Nat → W32) (c : Cause),
    ((∃ a, i = .trap a g ∧ c = .software ∧ det = fun x l => (0 : BitVec 16) ++ (x.src l a).extractLsb' 0 16) ∨
      (i = .brk g ∧ c = .breakpoint ∧ det = fun _ _ => 0)) →
    ∀ s x l r, issues i s x → x.parts g = l :: r → l < 32 →
      ∃ y : TrapRec, exec i s = .next (trapDeliver s x.u y) ∧
        y.cause = c ∧ y.sub = 0 ∧ y.deferred = false ∧ y.lane = l ∧ y.detail = det x l ∧
        y.pc = x.cl.head + 4 * x.cl.next ∧ y.cstart = x.cl.head ∧ y.core = x.t.core ∧ y.group = x.u.idx ∧ y.ctx = x.t.ctx ∧
        y.addr = 0 ∧ (∀ j, j < 32 → (y.mask.getLsbD j = true ↔ j ∈ x.parts g)) ∧
        (entersHandler s x.u y → goesTo i s (fun t =>
          (unitAt t x.u).clause = none ∧ ∀ j, j < 32 →
            thrAt (unitAt t x.u) j =
              if j ∈ x.parts g then
                { thrAt (unitAt s x.u) j with
                  pc := BitVec.ofNat 48 (ctxAt s x.t.ctx).record.hentry, lt := 0, t := [], cych := none }
              else thrAt (unitAt s x.u) j))) ∧
  (∀ a g s x, issues (.trap a g) s x → x.parts g = [] → exec (.trap a g) s = .next (withOutcome s x .fall)) ∧
  (∀ g s x, issues (.brk g) s x → x.parts g = [] → exec (.brk g) s = .next (withOutcome s x .fall))

/-- The value of a handler register (08 R218). -/
def Sys2Proof.Claims.hreg (h : Handler) (n : Nat) : W32 :=
  if n = 0 then h.recAddr.extractLsb' 0 32 else if n = 1 then h.recAddr.extractLsb' 32 32
  else if n = 2 then BitVec.ofNat 32 h.record.cause.code else if n = 3 then h.hres.extractLsb' 0 32
  else if n = 4 then (0 : BitVec 16) ++ h.hres.extractLsb' 32 16 else if n = 5 then (0 : BitVec 30) ++ h.hmode else h.hmask

/-- Major 0x3B (08 R218, R219, 14 R309). That the invalid HMODE code 3 traps ILLEGAL is a reading (log 16). -/
def Obligations.HandlerLevelWords : Prop :=
  (∀ a g s x l0 ls, issues (.hmts a g 5) s x → x.g.handler ≠ none → x.parts g = l0 :: ls → (x.src l0 a).toNat % 4 = 3 →
    exec (.hmts a g 5) s = .next (trapDeliver s x.u (mkRec s x.u x.pc x.cl.head .illegal 0 (laneMask (x.parts g)) 0))) ∧
  (∀ a g (r : BitVec 4) s x, issues (.hmts a g r) s x → x.parts g = [] → exec (.hmts a g r) s = .next (setUnit s x.u (advance x.g))) ∧
  (∀ g s x, issues (.eret g) s x → x.parts g = [] → exec (.eret g) s = .next (withOutcome s x .fall)) ∧
  (∀ d g (r : BitVec 4) s x h, issues (.hmfs d g r) s x → x.g.handler = some h → r.toNat ≤ 6 → goesTo (.hmfs d g r) s (fun t =>
    onlyUnit s t x.u ∧ onlyThreads x.g (unitAt t x.u) ∧
    (∀ l, l ∉ x.parts g → thrAt (unitAt t x.u) l = x.thr l) ∧
    ∀ l ∈ x.parts g, wrote32 x.cond d (hreg h r.toNat) 0 (x.thr l) (thrAt (unitAt t x.u) l))) ∧
  (∀ a g (r : BitVec 4) s x h l0 ls, issues (.hmts a g r) s x → x.g.handler = some h → x.parts g = l0 :: ls → r.toNat ≤ 6 →
    ¬(r.toNat = 5 ∧ (x.src l0 a).toNat % 4 = 3) → goesTo (.hmts a g r) s (fun t =>
      onlyUnit s t x.u ∧
      ∃ h', unitAt t x.u = { advance x.g with threads := (unitAt t x.u).threads, handler := some h' } ∧
        h'.record = h.record ∧ h'.stopped = h.stopped ∧
        (∀ n, n ≤ 6 → hreg h' n =
          if n = r.toNat ∧ n = 3 then x.src l0 a
          else if n = r.toNat ∧ n = 4 then (0 : BitVec 16) ++ (x.src l0 a).extractLsb' 0 16
          else if n = r.toNat ∧ n = 5 then (0 : BitVec 30) ++ (x.src l0 a).extractLsb' 0 2
          else if n = r.toNat ∧ n = 6 then x.src l0 a
          else hreg h n) ∧
        ∀ l, thrAt (unitAt t x.u) l = if l ∈ x.parts g then { x.thr l with lt := x.src l a } else x.thr l)) ∧
  (∀ g s x l ls, issues (.eret g) s x → x.parts g = l :: ls → exec (.eret g) s = .next (withOutcome s x .eret)) ∧
  (∀ va oa vb ob n s x h, atTrailer va oa vb ob n s x → x.cond = false → x.cl.ctl = .eret → x.g.handler = some h →
    h.hmode.toNat ≠ 2 → goesTo (.clauseTrailer va oa vb ob n) s (fun t =>
      onlyUnit s t x.u ∧ (unitAt t x.u).clause = none ∧
      (∀ l ∈ x.lanes, committed va oa vb ob n x l (thrAt (unitAt t x.u) l)) ∧
      (h.stopped &&& ~~~h.hmask = 0 → (unitAt t x.u).handler = none) ∧
      (h.stopped &&& ~~~h.hmask ≠ 0 → (unitAt t x.u).handler =
        some ⟨h.recAddr, h.record, BitVec.ofNat 48 h.record.cstart, 0, h.stopped &&& ~~~h.hmask, h.stopped &&& ~~~h.hmask⟩) ∧
      ∀ l, l < 32 → h.stopped.getLsbD l = true →
        (thrAt (unitAt t x.u) l).lt = 0 ∧ (thrAt (unitAt t x.u) l).t = [] ∧
        (thrAt (unitAt t x.u) l).pc =
          if h.hmask.getLsbD l = true then (if h.hmode.toNat = 1 then h.hres else BitVec.ofNat 48 h.record.cstart)
          else BitVec.ofNat 48 (ctxAt s x.t.ctx).record.hentry)) ∧
  (∀ va oa vb ob n s x h, atTrailer va oa vb ob n s x → x.cond = false → x.cl.ctl = .eret → x.g.handler = some h →
    h.hmode.toNat = 2 → goesTo (.clauseTrailer va oa vb ob n) s (fun t =>
      t.mem = s.mem ∧ (unitAt t x.u).clause = none ∧
      (∀ l ∈ x.lanes, committed va oa vb ob n x l (thrAt (unitAt t x.u) l)) ∧
      (∀ l, l < 32 → h.stopped.getLsbD l = true → h.hmask.getLsbD l = true → (thrAt (unitAt t x.u) l).live = false) ∧
      (h.stopped &&& ~~~h.hmask = 0 → (unitAt t x.u).handler = none) ∧
      ((∃ l, l < 32 ∧ h.stopped.getLsbD l = true ∧ h.hmask.getLsbD l = false ∧ (x.thr l).live = true) →
        (unitAt t x.u).handler =
          some ⟨h.recAddr, h.record, BitVec.ofNat 48 h.record.cstart, 0, h.stopped &&& ~~~h.hmask, h.stopped &&& ~~~h.hmask⟩) ∧
      ∀ l, l < 32 → h.stopped.getLsbD l = true → h.hmask.getLsbD l = false →
        (thrAt (unitAt t x.u) l).live = (x.thr l).live ∧
        (thrAt (unitAt t x.u) l).pc = BitVec.ofNat 48 (ctxAt s x.t.ctx).record.hentry ∧
        ((∀ b ∈ x.g.blocked, b.parts.getLsbD l = false) → (thrAt (unitAt t x.u) l).lt = 0 ∧ (thrAt (unitAt t x.u) l).t = [])))

/-- DEFERRED_TRAP and WAIT_TIMEOUT (09 R223, 01 R34, 08 R183). -/
def Obligations.DeferredTrapAndTimeoutAreTaken : Prop :=
  (∀ u s (r : TrapRec) lane rest,
    let g := unitAt s u
    g.deferred = (r, lane) :: rest → r.mask = laneMask [lane] → lane < 32 → (thrAt g lane).live = true → clauseStarted g = false →
    g.handler = none → g.blocked = [] → s.supervisor.freeze = false →
    let t0 := trapDeliver (setUnit s u { g with deferred := rest, clause := none }) u { r with lane := lane }
    let late := t0.gangOps.filter (fun e => e.2.unit == u && e.2.left == 0)
    ((rest ≠ [] ∨ late = []) → exec (.deferredTrap u) s = .next t0) ∧
    (rest = [] → exec (.deferredTrap u) s =
      .next (late.foldl (fun s e => e.2.members.foldl (fun s m => engineArrive s m.1 m.2 e.2.gbar true) s)
        { t0 with gangOps := t0.gangOps.filter (fun e => !(e.2.unit == u && e.2.left == 0)) }))) ∧
  (∀ u run s b, blockedRun s u run = some b → b.wait.timed = true → waitBudgetOf s (teamAt s u.team) < b.elapsed →
    clauseStarted (unitAt s u) = false → s.supervisor.freeze = false →
    ∃ s1, exec (.waitTimeout u run) s = .next (trapDeliver s1 u
        (mkRec s1 u (b.clause.head + 4 * (b.clause.next - 1)) b.clause.head .waitTimeout 0 b.parts 0)) ∧
      (∀ y ∈ (unitAt s1 u).blocked, y.id ≠ b.id) ∧ s1.mem = s.mem ∧
      ∀ n d red, b.wait = .bar n d red →
        (barAt (teamAt s1 u.team) n).arrivals =
          (barAt (teamAt s u.team) n).arrivals.filter (fun a => !(decide (a.unit = u) && a.run == b.id)))

/-- Resolution and the first causes of an access (04 R81, 02 R58, 17 R380); the home slice (04 R89). -/
def Obligations.AddressesResolve : Prop :=
  (∀ s u k n al l (ea : W64), 0 < al →
    let t := teamAt s u.team
    let ok (p : Loc) : LaneRes := if ea.toNat % al = 0 then .ok p 0 else .bad 1 .misaligned 0 ea
    let viol : LaneRes := if ea.toNat % al = 0 then .bad 2 .accessViolation 1 ea else .bad 1 .misaligned 0 ea
    let spadAt (o : Nat) : LaneRes := if o + n ≤ t.kernel.scratch then ok (.spad t.uid o) else .bad 0 .spadBounds 0 ea
    let privAt (o : Nat) : LaneRes :=
      if o + n ≤ t.privBytes + t.kernel.spill then ok (.priv (u.team * 64 + u.idx) l o) else viol
    laneRes s u k .spad n al l ea = spadAt ea.toNat ∧
    laneRes s u k .priv n al l ea = privAt ea.toNat ∧
    (0xFF0000000000 ≤ ea.toNat → laneRes s u k .glb n al l ea = viol) ∧
    (ea.toNat < 0xFF0000000000 → laneRes s u k .glb n al l ea =
      if ea.toNat % al = 0 then globalLane s t.core t.ctx k ea.toNat ea else .bad 1 .misaligned 0 ea) ∧
    (2 ^ 48 ≤ ea.toNat → laneRes s u k .gen n al l ea = viol) ∧
    (ea.toNat < 0xFF0000000000 → laneRes s u k .gen n al l ea = laneRes s u k .glb n al l ea) ∧
    (0xFF0000000000 ≤ ea.toNat → ea.toNat < 0xFF4000000000 → laneRes s u k .gen n al l ea = spadAt (ea.toNat - 0xFF0000000000)) ∧
    (0xFF8000000000 ≤ ea.toNat → ea.toNat < 2 ^ 48 → laneRes s u k .gen n al l ea = privAt (ea.toNat - 0xFF8000000000)) ∧
    (0xFF4000000000 ≤ ea.toNat → ea.toNat < 0xFF8000000000 →
      let o := ea.toNat - 0xFF4000000000
      let m := o / 2 ^ 20 % 16
      let ms := gangMembers s t
      laneRes s u k .gen n al l ea =
        if o < 2 ^ 24 ∧ m < ms.length ∧ o % 2 ^ 20 + n ≤ t.kernel.scratch then
          (if ms.getD m 0 = u.team ∨ spadGone s (ms.getD m 0) = false then ok (.spad (ms.getD m 0) (o % 2 ^ 20))
           else if ea.toNat % al = 0 then .bad 3 .remoteGone 0 ea else .bad 1 .misaligned 0 ea)
        else .bad 0 .spadBounds 0 ea)) ∧
  (alignOf 1 = 1 ∧ alignOf 2 = 2 ∧ alignOf 4 = 4 ∧ alignOf 8 = 8 ∧ alignOf 12 = 16 ∧ alignOf 16 = 16) ∧
  (∀ a : BitVec 48, homeSlice a.toNat =
    ((a.extractLsb' 6 16) ^^^ (a.extractLsb' 22 16) ^^^ ((0 : BitVec 6) ++ a.extractLsb' 38 10)).toNat % 192)

/-- A participant's effective address (04 R79, 08 R195). -/
def Sys2Proof.Claims.eaOf (x : Ctx) (m : MemFields) (scale l : Nat) : W64 :=
  BitVec.ofInt 64 (((x.uni64 (2 * m.pair.toNat)).toNat : Int) + (x.src l m.off).toInt * scale)

/-- A unit after a memory word: the clause goes on, the flag selected has n more operations, and its loads and stores are as given. -/
def Sys2Proof.Claims.queued (x : Ctx) (f : Option Nat) (n : Nat) (loads : List PendingLoad) (stores : List PendingStore) (h : Grp) : Prop :=
  h = { advance x.g with loads := loads, stores := stores, flags := h.flags } ∧
  ∀ i, tget 0 h.flags i = tget 0 x.g.flags i + (if f = some i then n else 0)

/-- Major 0x22 to 0x26 and 0x28 at issue (08 R194-R198). -/
def Obligations.LoadsAndStoresIssue : Prop :=
  (∀ i m t scale, (i = .ld m t ∧ scale = 1 ∨ i = .ldx m t ∧ scale = loadBytes t) → ∀ s x s1 ok fs, issues i s x →
    let lanes := (x.parts ⟨m.guard, false⟩).map (fun l => (l, eaOf x m scale l))
    let load : PendingLoad := ⟨s1.nextUid, x.pc, x.cl.head, x.flag m.flagB, .lanes m.v.toNat, t, loadBytes t, ok⟩
    touchesLogged s x.u m.space (loadBytes t) lanes = false →
    access s x.u .read m.space (loadBytes t) (alignOf (loadBytes t)) lanes = .go s1 ok fs →
    (fs = [] → goesTo i s (fun t' =>
      onlyUnit { s1 with nextUid := s1.nextUid + 1 } t' x.u ∧
      queued x (x.flag m.flagB) (if ok = [] then 0 else 1) (if ok = [] then x.g.loads else x.g.loads ++ [load]) x.g.stores (unitAt t' x.u))) ∧
    (fs ≠ [] → logRoom s x.t.core = true → faultsFit s fs = true → goesTo i s (fun t' =>
      queued x (x.flag m.flagB) (if ok = [] then 1 else 2) (if ok = [] then x.g.loads else x.g.loads ++ [load]) x.g.stores (unitAt t' x.u) ∧
      t'.mem = s1.mem ∧ t'.faultBuf.length = s1.faultBuf.length + (faultPages fs).length ∧
      ∃ e : LogEntry, (coreAt t' x.t.core).log = (coreAt s1 x.t.core).log ++ [e] ∧ e.unit = x.u ∧ e.pc = x.pc ∧ e.isStore = false ∧
        e.lanes.map (fun a => (a.lane, a.va)) = fs.map (fun f => (f.lane, f.va))))) ∧
  (∀ i m t scale, (i = .st m t ∧ scale = 1 ∨ i = .stx m t ∧ scale = storeBytes t) → ∀ s x s1 ok fs, issues i s x →
    let lanes := (x.parts ⟨m.guard, false⟩).map (fun l => (l, eaOf x m scale l))
    touchesLogged s x.u m.space (storeBytes t) lanes = false →
    access s x.u .write m.space (storeBytes t) (alignOf (storeBytes t)) lanes = .go s1 ok fs →
    let store (as : List LaneAcc) (logged : Option Nat) : PendingStore :=
      ⟨s1.nextUid, x.pc, x.cl.head, x.flag m.flagB, as, logged, none, none, .none, .dev⟩
    ∃ data : Nat → List Byte,
      (∀ l, (data l).length = storeBytes t ∧ ∀ j, j < storeBytes t →
        (data l).getD j 0 = (x.main l (m.v.toNat + j / 4)).extractLsb' (8 * (j % 4)) 8) ∧
      let done : List PendingStore := if ok = [] then [] else [store (ok.map (fun a => { a with data := data a.lane })) none]
      (fs = [] → goesTo i s (fun t' =>
        onlyUnit { s1 with nextUid := s1.nextUid + 1 } t' x.u ∧
        queued x (x.flag m.flagB) (if ok = [] then 0 else 1) x.g.loads (x.g.stores ++ done) (unitAt t' x.u))) ∧
      (fs ≠ [] → logRoom s x.t.core = true → faultsFit s fs = true → goesTo i s (fun t' =>
        queued x (x.flag m.flagB) (if ok = [] then 1 else 2) x.g.loads (x.g.stores ++ done ++ [store [] (some s1.nextUid)]) (unitAt t' x.u) ∧
        t'.mem = s1.mem ∧ t'.faultBuf.length = s1.faultBuf.length + (faultPages fs).length ∧
        ∃ e : LogEntry, (coreAt t' x.t.core).log = (coreAt s1 x.t.core).log ++ [e] ∧ e.id = s1.nextUid ∧ e.unit = x.u ∧ e.pc = x.pc ∧
          e.isStore = true ∧ e.lanes.map (fun a => (a.lane, a.va, a.data)) = fs.map (fun f => (f.lane, f.va, data f.lane))))) ∧
  (∀ i k m n scale, ((∃ t, (i = .ld m t ∧ scale = 1 ∨ i = .ldx m t ∧ scale = n) ∧ n = loadBytes t ∧ k = AccKind.read) ∨
      ∃ t, (i = .st m t ∧ scale = 1 ∨ i = .stx m t ∧ scale = n) ∧ n = storeBytes t ∧ k = AccKind.write) → ∀ s x s1 ok fs, issues i s x →
    let lanes := (x.parts ⟨m.guard, false⟩).map (fun l => (l, eaOf x m scale l))
    touchesLogged s x.u m.space n lanes = false → access s x.u k m.space n (alignOf n) lanes = .go s1 ok fs → fs ≠ [] →
    (logRoom s x.t.core = false ∨ faultsFit s fs = false) → exec i s = .next s1) ∧
  (∀ off pair guard space l2 s x, issues (.pref off pair guard space l2) s x →
    exec (.pref off pair guard space l2) s = .next (setUnit s x.u (advance x.g))) ∧
  (∀ a d g count base s x l r s1 ok, issues (.ldq a d g count base) s x → x.parts g = l :: r →
    let n := (count.toNat + 1) * (if x.cond then 8 else 4)
    let lanes := [(l, BitVec.ofInt 64 (((x.uni64 (2 * base.toNat)).toNat : Int) + (x.src l a).toInt))]
    let found := access s x.u .read .gen n
      (if count.toNat = 0 then (if x.cond then 8 else 4) else if x.cond ∨ 2 ≤ count.toNat then 16 else 8) lanes
    touchesLogged s x.u .gen n lanes = false →
    (found = .go s1 ok [] →
      goesTo (.ldq a d g count base) s (fun t' =>
        onlyUnit { s1 with nextUid := s1.nextUid + 1 } t' x.u ∧
        queued x x.cl.setA 1 (x.g.loads ++ [⟨s1.nextUid, x.pc, x.cl.head, x.cl.setA, .uniform d.toNat, .b32, n, ok⟩]) x.g.stores
          (unitAt t' x.u))) ∧
    (∀ f, found = .go s1 ok [f] → s1.faultBuf.length < 4096 →
      goesTo (.ldq a d g count base) s (fun t' =>
        onlyUnit { s1 with faultBuf := t'.faultBuf } t' x.u ∧ t'.faultBuf.length = s1.faultBuf.length + 1 ∧
        unitAt t' x.u = { unitAt s1 x.u with held := some (.replay [(pageOf f.va, laneMask [f.lane], f.va)]) })) ∧
    (∀ f, found = .go s1 ok [f] → 4096 ≤ s1.faultBuf.length → exec (.ldq a d g count base) s = .next s1)) ∧
  (∀ a d g count base s x, issues (.ldq a d g count base) s x → x.parts g = [] →
    exec (.ldq a d g count base) s = .next (setUnit s x.u (advance x.g)))

/-- LOAD_DATA_ARRIVAL (08 R195). That all lanes of a load bind at one common moment is the model's choice (log 8). -/
def Obligations.LoadArrivalWritesItsRegisters : Prop :=
  (∀ u op s p v, isCond u = false → (unitAt s u).loads.find? (fun q => q.id == op) = some p → p.dest = .lanes v →
    loadReady s u p = true → (∀ a ∈ p.lanes, ∀ y, a.loc = .phys y → lineOf y ∉ s.badLines) → (p.lanes.map (·.lane)).Nodup →
    goesTo (.loadDataArrival u op) s (fun t =>
      onlyUnit s t u ∧
      unitAt t u = { unitAt s u with
        loads := (unitAt s u).loads.filter (fun q => q.id != op), threads := (unitAt t u).threads, flags := (unitAt t u).flags } ∧
      (∀ i, tget 0 (unitAt t u).flags i = tget 0 (unitAt s u).flags i - (if p.flag = some i then 1 else 0)) ∧
      (∀ l, l ∉ p.lanes.map (·.lane) → thrAt (unitAt t u) l = thrAt (unitAt s u) l) ∧
      ∀ a ∈ p.lanes,
        let old := thrAt (unitAt s u) a.lane
        let new := thrAt (unitAt t u) a.lane
        let n := bytesToNat (boundBytes s u p a)
        new = { old with v := new.v } ∧
        ∀ r, vAt new r =
          if old.live = true ∧ v ≤ r ∧ r < v + p.type.regs then
            (if p.type = .i8 then BitVec.ofInt 32 (BitVec.ofNat 8 n).toInt
             else if p.type = .i16 then BitVec.ofInt 32 (BitVec.ofNat 16 n).toInt
             else BitVec.ofNat 32 (n / 2 ^ (32 * (r - v))))
          else vAt old r)) ∧
  (∀ s u p a, (a.data ≠ [] → boundBytes s u p a = a.data) ∧
    (a.data = [] → acquiredAt s (teamAt s u.team) a.va = false → boundBytes s u p a = readLoc s (coreOf s u) a.loc p.bytes) ∧
    (a.data = [] → acquiredAt s (teamAt s u.team) a.va = true → boundBytes s u p a = locBytes s a.loc p.bytes)) ∧
  (∀ u op s p d a, (unitAt s u).loads.find? (fun q => q.id == op) = some p → p.dest = .uniform d → p.lanes = [a] →
    loadReady s u p = true → (∀ y, a.loc = .phys y → lineOf y ∉ s.badLines) →
    goesTo (.loadDataArrival u op) s (fun t =>
      onlyUnit s t u ∧
      unitAt t u = { unitAt s u with
        loads := (unitAt s u).loads.filter (fun q => q.id != op), s := (unitAt t u).s, k := (unitAt t u).k, flags := (unitAt t u).flags } ∧
      let n := bytesToNat (boundBytes s u p a)
      (∀ r, sAt (unitAt t u) r = if isCond u = false ∧ d ≤ r ∧ r < d + p.bytes / 4 then BitVec.ofNat 32 (n / 2 ^ (32 * (r - d))) else sAt (unitAt s u) r) ∧
      ∀ r, kAt (unitAt t u) r = if isCond u = true ∧ d ≤ r ∧ r < d + p.bytes / 8 then BitVec.ofNat 64 (n / 2 ^ (64 * (r - d))) else kAt (unitAt s u) r)) ∧
  (∀ u op s p v a, isCond u = true → (unitAt s u).loads.find? (fun q => q.id == op) = some p → p.dest = .lanes v → p.lanes = [a] →
    loadReady s u p = true → (∀ y, a.loc = .phys y → lineOf y ∉ s.badLines) → p.type ≠ .i8 → p.type ≠ .i16 →
    goesTo (.loadDataArrival u op) s (fun t =>
      onlyUnit s t u ∧ (unitAt t u).threads = (unitAt s u).threads ∧
      ∀ r, kAt (unitAt t u) r =
        if v ≤ r ∧ r < v + p.type.regs then (BitVec.ofNat 32 (bytesToNat (boundBytes s u p a) / 2 ^ (32 * (r - v)))).setWidth 64
        else kAt (unitAt s u) r)) ∧
  (∀ u op s p a, (unitAt s u).loads.find? (fun q => q.id == op) = some p → loadReady s u p = true → a ∈ p.lanes →
    (∃ y, a.loc = .phys y ∧ lineOf y ∈ s.badLines) → (unitAt s u).retired = false →
    goesTo (.loadDataArrival u op) s (fun t =>
      ((unitAt s u).blocked = [] → onlyUnit s t u) ∧ (unitAt t u).threads = (unitAt s u).threads ∧
      ∃ r lane, (unitAt t u).deferred = (unitAt s u).deferred ++ [(r, lane)] ∧ r.cause = .eccUncorrectable ∧ r.deferred = true ∧
        r.pc = p.pc ∧ r.cstart = p.cstart))

/-- The byte of a place as a core reads it. -/
def Sys2Proof.Claims.seenByte (s : State) (core : Nat) (loc : Loc) : Byte :=
  match loc with
  | .phys a => viewByte s core a
  | .spad t o => memRead (teamAt s t).scratch o
  | .priv k l o => memRead (thrAt (unitAt s ⟨k / 64, k % 64⟩) l).priv o

/-- The place j bytes on. -/
def Sys2Proof.Claims.locAdd : Loc → Nat → Loc
  | .phys a, j => .phys (a + j)
  | .spad t o, j => .spad t (o + j)
  | .priv k l o, j => .priv k l (o + j)

/-- A core keeps at most one unpublished value of a byte, as the model's updates of them do. -/
def Sys2Proof.Claims.oneEntry (s : State) (core y : Nat) : Prop := ((coreAt s core).unpub.filter (fun e => e.1 == y)).length ≤ 1

/-- Whether a lane's data cover a byte. -/
def Sys2Proof.Claims.covers (a : LaneAcc) (loc : Loc) : Prop := ∃ j, j < a.data.length ∧ locAdd a.loc j = loc

/-- STORE_DRAIN (05 R98, R99). A word that a run of the core waits for is published (08 R207). That a store drains whole, in one move, is the
model's choice (log 8). -/
def Obligations.StoreDrainIsSeenByItsCore : Prop :=
  ∀ u s p, (unitAt s u).stores.find? (storeReady s u) = some p → p.red = none →
    goesTo (.storeDrain u) s (fun t =>
      let core := coreOf s u
      (∀ y, waitedWords s core y 1 = [] → memRead t.mem y = memRead s.mem y) ∧
      (∀ y, (∀ a ∈ p.lanes, ¬covers a (.phys y)) → oneEntry s core y →
        memRead t.mem y = memRead s.mem y ∨ memRead t.mem y = seenByte s core (.phys y)) ∧
      (∀ c, c ≠ core → coreAt t c = coreAt s c) ∧
      (unitAt t u).stores = (unitAt s u).stores.erase p ∧
      (∀ i, tget 0 (unitAt t u).flags i = tget 0 (unitAt s u).flags i - (if p.flag = some i then 1 else 0)) ∧
      (∀ loc, (∀ a ∈ p.lanes, ¬covers a loc) → (∀ y, loc = .phys y → waitedWords s core y 1 = [] ∨ oneEntry s core y) →
        seenByte t core loc = seenByte s core loc) ∧
      ∀ pre a post j, p.lanes = pre ++ a :: post → j < a.data.length →
        (∀ m o, a.loc = .spad m o → thas s.teams m = true) → (∀ b ∈ post, ¬covers b (locAdd a.loc j)) →
        seenByte t core (locAdd a.loc j) = a.data.getD j 0 ∧
        ∀ y, locAdd a.loc j = .phys y → waitedWords s core y 1 ≠ [] → memRead t.mem y = a.data.getD j 0)

/-- The latest byte of a place: a core's own unpublished byte, else the home value; the one copy of other places. -/
def Sys2Proof.Claims.latestByte (s : State) (core : Nat) (loc : Loc) : Byte :=
  match loc with
  | .phys a => (((coreAt s core).unpub.filter (fun e => e.1 == a)).getLast?.map (·.2)).getD (memRead s.mem a)
  | .spad t o => memRead (teamAt s t).scratch o
  | .priv k l o => memRead (thrAt (unitAt s ⟨k / 64, k % 64⟩) l).priv o

/-- Lanes performed one after another by a step through states st, with their old values: each reads the latest value of its location, the
location then holds the new one, and no other byte of home memory changes. -/
def Sys2Proof.Claims.performed (core size key : Nat) (ok : List LaneAcc) (step : LaneAcc → State → W64 × State)
    (new : LaneAcc → W64 → Nat → Byte → Byte) (st : Nat → State) (old : Nat → W64) : Prop :=
  ∀ j e, ok[j]? = some e →
    (old j, st (j + 1)) = step e (st j) ∧
    old j = BitVec.ofNat 64 (bytesToNat ((List.range key).map (fun b => latestByte (st j) core (locAdd e.loc b)))) ∧
    (∀ b, b < size → latestByte (st (j + 1)) core (locAdd e.loc b) = new e (old j) b (latestByte (st j) core (locAdd e.loc b))) ∧
    ∀ a, (∀ b, b < size → locAdd e.loc b ≠ .phys a) → memRead (st (j + 1)).mem a = memRead (st j).mem a

/-- Every scratchpad a list of places names belongs to a team that is there. -/
def Sys2Proof.Claims.padsThere (s : State) (ok : List LaneAcc) : Prop := ∀ e ∈ ok, ∀ t o, e.loc = .spad t o → thas s.teams t = true

/-- The table "Atomic operations" (08 R199): o the old value, v the operand or compare value, n the new value of the cas forms. -/
def Sys2Proof.Claims.atomicTable (k : AtomOp) (o v n : W64) : W64 :=
  let o32 : W32 := o.extractLsb' 0 32
  let v32 : W32 := v.extractLsb' 0 32
  let wide (w : W32) : W64 := (0 : W32) ++ w
  match k with
  | .add => wide (BitVec.ofNat 32 (o32.toNat + v32.toNat))
  | .minI => wide (if o32.toInt ≤ v32.toInt then o32 else v32)
  | .maxI => wide (if v32.toInt ≤ o32.toInt then o32 else v32)
  | .minN => wide (BitVec.ofNat 32 (Nat.min o32.toNat v32.toNat))
  | .maxN => wide (BitVec.ofNat 32 (Nat.max o32.toNat v32.toNat))
  | .and => wide (o32 &&& v32)
  | .or => wide (o32 ||| v32)
  | .xor => wide (o32 ^^^ v32)
  | .exch => wide v32
  | .cas => wide (if o32 = v32 then n.extractLsb' 0 32 else o32)
  | .add64 => BitVec.ofNat 64 (o.toNat + v.toNat)
  | .exch64 => v
  | .cas64 => if o = v then n else o

/-- The operand of a lane, and the second operand of the cas forms. -/
def Sys2Proof.Claims.atomArg (x : Ctx) (k : AtomOp) (d : OField) (l : Nat) : W64 :=
  if k.wide then x.src64 l d else (0 : W32) ++ x.src l d
/-- The new value of a cas. -/
def Sys2Proof.Claims.atomArg2 (x : Ctx) (k : AtomOp) (d : OField) (l : Nat) : W64 :=
  if k.wide then x.src64 l (d + 2) else (0 : W32) ++ x.src l (d + 1)

/-- A word of major 0x27 can be performed now: it issues, its participants translate to the accesses ok, nothing they must follow is
outstanding, a lockstep team has met no difference in its clause (17 R386), and its ordering's first step leads to s2 (08 R200, R201, 05
R100, R115). -/
def Sys2Proof.Claims.atomReady (i : Instr) (a : OField) (u : SIdx) (g : Guard) (r : AtomOrd) (size : Nat) (s : State) (x : Ctx) (s2 : State)
    (ok : List LaneAcc) : Prop :=
  let lanes := (x.parts g).map (fun l => (l, BitVec.ofInt 64 (((x.uni64 u.toNat).toNat : Int) + (x.src l a).toInt)))
  issues i s x ∧ touchesLogged s x.u .gen size lanes = false ∧ (ordered r = true → quiet s x.u = true) ∧ padsThere s2 ok ∧
  (∀ b ∈ x.t.upsets, b.unit = x.u.idx → x.cl.mask.getLsbD b.lane = false) ∧
  ∃ s1, access s x.u .atomic .gen size size lanes = .go s1 ok [] ∧ recalled s1 x.u ok = false ∧
    (∀ e ∈ ok, earlierAt x.g e.lane e.loc size = false) ∧
    (if hasBefore r then orderBefore s1 x.u (atomScope x) else some s1) = some s2

/-- The state after the lanes have been performed: in the issuing unit the clause has gone on and its threads are as given, and the
ordering's last step has been taken; nothing else changes. -/
def Sys2Proof.Claims.thenGoesOn (r : AtomOrd) (x : Ctx) (sN t : State) (ths : TMap Thread) (k : TMap W64) : Prop :=
  let t1 := setUnit sN x.u { advance (unitAt sN x.u) with threads := ths, k := k }
  t = if hasAfter r = true ∧ (atomScope x = .dev ∨ atomScope x = .sys) then acquireStep t1 x.t.core else t1

/-- A unit's threads and k registers after the old values, n registers of each, are written to d and lt. -/
def Sys2Proof.Claims.gaveOld (x : Ctx) (d : OField) (wide : Bool) (ok : List LaneAcc) (old : Nat → W64) (g h : Grp) : Prop :=
  (∀ l, l ∉ ok.map (·.lane) → thrAt h l = thrAt g l) ∧
  (∀ j e, ok[j]? = some e →
    let new := thrAt h e.lane
    new = { thrAt g e.lane with lt := (old j).extractLsb' 0 32, t := new.t } ∧
    ∀ n, tAt new n =
      if x.cond = false ∧ d.toNat ≤ 11 ∧ n = d.toNat then (old j).extractLsb' 0 32
      else if x.cond = false ∧ d.toNat ≤ 11 ∧ wide = true ∧ n = d.toNat + 1 then (old j).extractLsb' 32 32
      else tAt (thrAt g e.lane) n) ∧
  ∀ n, kAt h n =
    match ok.length with
    | 0 => kAt g n
    | j + 1 => if x.cond = true ∧ n = d.toNat ∧ n ≤ 11 then (if wide then old j else ((old j).extractLsb' 0 32).setWidth 64) else kAt g n

/-- Major 0x27 (08 R199-R202). The drain of an ordered red is the model's form of it (log 46); that a conductor's second operand of cas64 is the
register d + 2 is a reading (log 19). -/
def Obligations.AtomicsReadAndWriteTheLatest : Prop :=
  (∀ d a u g r k s x s2 ok, let n := if k.wide then 8 else 4
    atomReady (.atom d a u g r k) a u g r n s x s2 ok → ∃ t st old ths ks, exec (.atom d a u g r k) s = .next t ∧ st 0 = s2 ∧
      performed x.t.core n n ok (fun e => atomLane k d x e.lane e.loc)
        (fun e o b _ => (atomicTable k o (atomArg x k d e.lane) (atomArg2 x k d e.lane)).extractLsb' (8 * b) 8) st old ∧
      thenGoesOn r x (st ok.length) t ths ks ∧
      gaveOld x d k.wide ok old (unitAt (st ok.length) x.u) { unitAt (st ok.length) x.u with threads := ths, k := ks }) ∧
  (∀ d a u g r k s x s1 ok, issues (.red d a u g r k) s x →
    let n := if k.wide then 8 else 4
    let lanes := (x.parts g).map (fun l => (l, BitVec.ofInt 64 (((x.uni64 u.toNat).toNat : Int) + (x.src l a).toInt)))
    touchesLogged s x.u .gen n lanes = false → access s x.u .atomic .gen n n lanes = .go s1 ok [] →
    (ok = [] → exec (.red d a u g r k) s = .next (setUnit s1 x.u (advance x.g))) ∧
    (ok ≠ [] → ∃ data : Nat → List Byte,
      exec (.red d a u g r k) s = .next (setUnit { s1 with nextUid := s1.nextUid + 1 } x.u (advance { x.g with
        stores := x.g.stores ++
          [⟨s1.nextUid, x.pc, x.cl.head, none, ok.map (fun e => { e with data := data e.lane }), none, none, some k, r, atomScope x⟩] })) ∧
      ∀ l, BitVec.ofNat 64 (bytesToNat ((data l).take 8)) = atomArg x k d l ∧
        ((k = .cas ∨ k = .cas64) → BitVec.ofNat 64 (bytesToNat ((data l).drop 8)) = atomArg2 x k d l))) ∧
  (∀ u s p k, (unitAt s u).stores.find? (storeReady s u) = some p → p.red = some k →
    let n := if k.wide then 8 else 4
    let core := coreOf s u
    let sd := setUnit s u { flagDec (unitAt s u) p.flag with stores := (unitAt s u).stores.erase p }
    let s0 := if hasBefore p.ord = false then sd else match p.scope with
      | .dev => releaseStep sd core
      | .sys => acquireStep (releaseStep sd core) core
      | _ => sd
    let after (t : State) : State := if hasAfter p.ord = true ∧ (p.scope = .dev ∨ p.scope = .sys) then acquireStep t core else t
    let arg (e : LaneAcc) : W64 := BitVec.ofNat 64 (bytesToNat (e.data.take 8))
    let arg2 (e : LaneAcc) : W64 := BitVec.ofNat 64 (bytesToNat (e.data.drop 8))
    padsThere s0 p.lanes → ∃ st old, exec (.storeDrain u) s = .next (after (st p.lanes.length)) ∧ st 0 = s0 ∧
      performed (coreOf s u) n n p.lanes (fun e => atomPerform k (coreOf s u) e.loc (arg e, arg2 e))
        (fun e o b _ => (atomicTable k o (arg e) (arg2 e)).extractLsb' (8 * b) 8) st old) ∧
  (∀ d a u g r w s x s2 ok, atomReady (.best d a u g r w) a u g r 64 s x s2 ok →
    ∃ t st old ths ks, exec (.best d a u g r w) s = .next t ∧ st 0 = s2 ∧
      performed x.t.core 64 4 ok (fun e => bestLane d w x e.lane e.loc)
        (fun e o b was =>
          if o.toNat < (x.src e.lane d).toNat ∧ b < 36 then
            (if b < 4 then (x.src e.lane d).extractLsb' (8 * b) 8
             else if b / 4 - 1 < w.toNat then (x.src e.lane (BitVec.ofNat 4 (d.toNat + b / 4))).extractLsb' (8 * (b % 4)) 8
             else 0)
          else was) st old ∧
      thenGoesOn r x (st ok.length) t ths ks ∧
      gaveOld x d false ok old (unitAt (st ok.length) x.u) { unitAt (st ok.length) x.u with threads := ths, k := ks })

/-- Release and acquire steps, fence and phase (05 R102-R105, R110). -/
def Obligations.PhaseStepsMoveTheView : Prop :=
  (∀ s c, let t := releaseStep s c
    (coreAt t c).unpub = [] ∧
    (∀ a, memRead t.mem a =
      (((coreAt s c).unpub.filter (fun e => e.1 == a)).getLast?.map (·.2)).getD (memRead s.mem a)) ∧
    ∀ a v, (coreAt s c).unpub.filter (fun e => e.1 == a) = [(a, v)] → viewByte t c a = v) ∧
  (∀ s c, let t := acquireStep s c
    t.mem = s.mem ∧ (coreAt t c).unpub = (coreAt s c).unpub ∧ (∀ c', c' ≠ c → coreAt t c' = coreAt s c') ∧
    (∀ a, viewByte t c a = (tget? (coreAt s c).unpub a).getD (memRead s.mem a)) ∧
    ∀ ws a, viewByte (homeWrite t ws) c a = viewByte t c a) ∧
  (∀ k s x, issues (.fence k) s x → quiet s x.u = true → (k = .grp ∨ k = .team ∨ k = .gang) →
    exec (.fence k) s = .next (setUnit s x.u (advance x.g))) ∧
  (∀ k s x, issues (.fence k) s x → quiet s x.u = true → (k = .dev ∨ k = .sys ∧ peerWaits s x.u = false) →
    let s1 := acquireStep (releaseStep s x.t.core) x.t.core
    exec (.fence k) s = .next (setUnit s1 x.u (advance (unitAt s1 x.u)))) ∧
  (∀ k s x, issues (.phase k) s x → quiet s x.u = true →
    let s1 := match k with
      | .rel => releaseStep s x.t.core
      | .acq => acquireStep s x.t.core
      | .ar => acquireStep (releaseStep s x.t.core) x.t.core
    exec (.phase k) s = .next (setUnit s1 x.u (advance (unitAt s1 x.u)))) ∧
  (∀ k s x, issues (.fence k) s x → (quiet s x.u = false ∨ k = .sys ∧ peerWaits s x.u = true) → exec (.fence k) s = .next s) ∧
  (∀ k s x, issues (.phase k) s x → quiet s x.u = false → exec (.phase k) s = .next s)

/-- A word that ends at once or a wait that ended: data to d and a status to lt of each participant, and nothing else but the clause. -/
def Sys2Proof.Claims.endsWith (s : State) (x : Ctx) (d : OField) (ps : List Nat) (data status : W32) (t : State) : Prop :=
  onlyUnit s t x.u ∧ onlyThreads x.g (unitAt t x.u) ∧ (∀ l, l ∉ ps → thrAt (unitAt t x.u) l = x.thr l) ∧
  ∀ l ∈ ps,
    thrAt (unitAt t x.u) l = { x.thr l with lt := status, t := (thrAt (unitAt t x.u) l).t } ∧
    ∀ n, tAt (thrAt (unitAt t x.u) l) n = if x.cond = false ∧ n = d.toNat ∧ n ≤ 11 then data else tAt (x.thr l) n

/-- How a word's state stands when its wait ends at once: one part of a run that both groups of a pair share stands by as a run whose wait
has ended (13 R301); any other run has gone on to its next word. -/
def Sys2Proof.Claims.endsAs (x : Ctx) (t0 t : State) : Prop :=
  (x.joint = false → t = t0) ∧
  (x.joint = true → ∃ y : BlockedRun, y.ended = true ∧ (unitAt t0 x.u).clause = some y.clause ∧
    t = setUnit { t0 with nextUid := t0.nextUid + 1 } x.u
      { unitAt t0 x.u with clause := none, blocked := (unitAt t0 x.u).blocked ++ [y] })

/-- A wait that ends at once with data and a status. -/
def Sys2Proof.Claims.endsAtOnce (s : State) (x : Ctx) (d : OField) (ps : List Nat) (data status : W32) (t : State) : Prop :=
  ∃ t0, endsWith s x d ps data status t0 ∧ endsAs x t0 t

/-- A run that has blocked at its word: it stands among the unit's blocked runs with its clause at the next word. -/
def Sys2Proof.Claims.blocksOn (x : Ctx) (id : Nat) (w : WaitKind) (ps : List Nat) (last : W32) (h : Grp) : Prop :=
  h = { x.g with clause := none, blocked := h.blocked } ∧
  ∃ pre, pre.map (·.id) = x.g.blocked.map (·.id) ∧
    h.blocked = pre ++ [{ id := id, clause := { x.cl with next := x.cl.next + 1, hints := {} }, wait := w, parts := laneMask ps, last := last }]

/-- One combination of a barrier's reduction (08 R204). -/
def Sys2Proof.Claims.combine (o : BarOp) (a b : W32) : W32 :=
  match o with
  | .add => BitVec.ofNat 32 (a.toNat + b.toNat)
  | .minI => if a.toInt ≤ b.toInt then a else b
  | .maxI => if b.toInt ≤ a.toInt then a else b
  | .minN => BitVec.ofNat 32 (Nat.min a.toNat b.toNat)
  | .maxN => BitVec.ofNat 32 (Nat.max a.toNat b.toNat)
  | .and => a &&& b
  | .or => a ||| b

/-- The identity of a barrier's reduction (08 R204, 07 R176). -/
def Sys2Proof.Claims.identity (o : BarOp) : W32 :=
  match o with
  | .minI => 0x7FFFFFFF
  | .maxI => 0x80000000
  | .minN => 0xFFFFFFFF
  | .and => 0xFFFFFFFF
  | _ => 0

/-- The combination of some arrivals' values. -/
def Sys2Proof.Claims.combined2 (o : BarOp) (as : List BarArrival) : W32 := (as.flatMap (fun a => a.vals)).foldl (combine o) (identity o)

/-- What one arrival does, given the barrier before it, how the barrier reads in a state, the live threads a count of 0 asks for, home
memory after the arrival's release step, if it takes one, and what an arrival and a release leave of the cores (05 R105, R111). -/
def Sys2Proof.Claims.arrives (i : Instr) (g : Guard) (d b : OField) (red : Option (OField × BarOp)) (w : WaitKind)
    (read : State → Barrier) (live : State → Nat) (m : Mem) (arrived released : State → Prop) (s : State) (x : Ctx) : Prop :=
  let ps := x.parts g
  let count := (x.src (ps.headD 0) b).toNat
  let br := read s
  let come := br.arrivals.foldl (fun n a => n + a.count) 0 + ps.length
  let vals := match red with
    | none => []
    | some (c, _) => ps.map (fun l => x.src l c)
  let own : BarArrival := ⟨x.u, s.nextUid, ps.length, red.map (·.2), vals⟩
  let full := br.engines = 0 ∧ come = (if count = 0 then live (setUnit s x.u x.g) else count)
  let bad := (∃ n, br.count = some n ∧ n ≠ count) ∨ (count ≠ 0 ∧ count < come)
  ps ≠ [] → domainSet s x.u = false → x.g.windDown = false →
  (bad → exec i s = .next (trapDeliver s x.u (mkRec s x.u x.pc x.cl.head .illegal 0 (laneMask ps) 0))) ∧
  (¬bad → quiet s x.u = false → exec i s = .next s) ∧
  (¬bad → quiet s x.u = true → ¬full →
    goesTo i s (fun t => blocksOn x s.nextUid w ps 0 (unitAt t x.u) ∧ t.mem = m ∧ arrived t ∧
      (∀ v, v ≠ x.u → (unitAt t v).threads = (unitAt s v).threads) ∧
      read t = ⟨br.gen, some count, br.arrivals ++ [own], br.engines, br.engineErr⟩)) ∧
  (¬bad → quiet s x.u = true → full → (∀ y ∈ x.g.blocked, y.id ≠ s.nextUid ∧ y.parts &&& laneMask ps = 0) →
    (∀ a ∈ br.arrivals, a.unit = x.u → a.run ≠ s.nextUid) →
    goesTo i s (fun t => read t = ⟨br.gen + 1, none, [], 0, false⟩ ∧ t.mem = m ∧ released t ∧
      (∀ v, v ≠ x.u → (∀ a ∈ br.arrivals, a.unit ≠ v) → (unitAt t v).threads = (unitAt s v).threads) ∧
      (∀ a ∈ br.arrivals, ∀ y ∈ (unitAt t a.unit).blocked, y.id = a.run → y.ended = true) ∧
      (∃ y ∈ (unitAt t x.u).blocked, y.id = s.nextUid ∧ y.ended = true ∧ y.clause = { x.cl with next := x.cl.next + 1, hints := {} }) ∧
      let status : W32 := if br.engineErr then 2 else 0
      ∀ l ∈ ps,
        thrAt (unitAt t x.u) l = { x.thr l with lt := status, t := (thrAt (unitAt t x.u) l).t } ∧
        (∀ n, n ≠ d.toNat → tAt (thrAt (unitAt t x.u) l) n = tAt (x.thr l) n) ∧
        (d.toNat ≤ 11 → red = none → tAt (thrAt (unitAt t x.u) l) d.toNat = status) ∧
        (d.toNat ≤ 11 → ∀ o, red.map (·.2) = some o → (∀ a ∈ br.arrivals, a.op = some o ∨ a.op = none) →
          tAt (thrAt (unitAt t x.u) l) d.toNat = combined2 o (br.arrivals ++ [own]))))

/-- What a set domain and a run without participants come to at a barrier word: CANCELLED, with the combination of the arrivals made as
the data of a reduction; and nothing. -/
def Sys2Proof.Claims.leavesBarrier (i : Instr) (g : Guard) (d : OField) (red : Option BarOp) (br : Barrier) (s : State) (x : Ctx) : Prop :=
  let ps := x.parts g
  x.g.windDown = false →
  (ps = [] → goesTo i s (endsAs x (setUnit s x.u (advance x.g)))) ∧
  (ps ≠ [] → domainSet s x.u = true → ∃ v, goesTo i s (endsAtOnce s x d ps v 1) ∧ (red = none → v = 1) ∧
    ∀ o, red = some o → (∀ a ∈ br.arrivals, a.op = some o ∨ a.op = none) → v = combined2 o br.arrivals)

/-- Major 0x2A's barriers (08 R205). -/
def Obligations.BarrierArrivalsAndRelease : Prop :=
  (∀ i d a b g red, (i = .bar d a b g ∧ red = none ∨ ∃ c k, i = .barRed d a b c g k ∧ red = some (c, k)) → ∀ s x, issues i s x →
    let n := (x.src ((x.parts g).headD 0) a).toNat
    (n < x.t.kernel.barriers →
      arrives i g d b red (.bar n d red.isSome) (fun t => barAt (teamAt t x.u.team) n) (fun t => liveThreads (teamAt t x.u.team)) s.mem
        (fun t => t.cores = s.cores) (fun t => t.cores = s.cores) s x ∧
      leavesBarrier i g d (red.map (·.2)) (barAt x.t n) s x) ∧
    (x.parts g ≠ [] → x.t.kernel.barriers ≤ n →
      exec i s = .next (trapDeliver s x.u (mkRec s x.u x.pc x.cl.head .operandLimit 3 (laneMask (x.parts g)) 0)))) ∧
  (∀ i d b g red, (i = .barg d b g ∧ red = none ∨ ∃ c k, i = .bargRed d b c g k ∧ red = some (c, k)) → ∀ s x, issues i s x →
    arrives i g d b red (.barg d red.isSome) (fun t => gangBar t (teamAt t x.u.team))
      (fun t => (gangMembers t (teamAt t x.u.team)).foldl (fun n m => n + liveThreads (teamAt t m)) 0) (releaseStep s x.t.core).mem
      (fun t => t.cores = (releaseStep s x.t.core).cores)
      (fun t => ∀ m ∈ gangMembers s x.t,
        let k := coreAt t (teamAt s m).core
        k.cut = t.mem ∧ k.own = [] ∧ k.eng = [] ∧ k.unpub = (coreAt (releaseStep s x.t.core) (teamAt s m).core).unpub) s x ∧
    leavesBarrier i g d (red.map (·.2)) (gangBar s x.t) s x)

/-- The verdict on a producer of a grid or graph (01 R30): engine nodes and teams of concurrent grids may be waited for, those of a
parallel grid when resident or begun before the waiter, those of a batch grid not. -/
def Sys2Proof.Claims.verdictOn (s : State) (grid index : Nat) (earlier : Prop) (v : Verdict) : Prop :=
  let g := gridAt s grid
  let count := if g.kind = .graph then g.nodes.length else g.teams
  let may : Prop := (g.kind = .graph ∧ (tget {} g.nodes index).kind ≠ 0) ∨ g.cls = 0 ∨
    g.cls = 1 ∧ (residentTeam s grid index = true ∨ earlier)
  (count ≤ index → v = .illegal) ∧ (index < count → may → v = .legal) ∧ (index < count → ¬may → v = .illegalWait)

/-- waitf, cancel and chkc (08 R207, R208). The order of the causes of a waitf is a reading (log 15), and so is that a waiter's own team counts
among the teams of its grid (log 46). -/
def Obligations.FlagWaitsAndCancellation : Prop :=
  (∀ d a b c g k s x l r s1 e, issues (.waitf d a b c g k) s x → x.parts g = l :: r → x.g.windDown = false →
    domainSet s x.u = false → producer s x (x.src l c) = .legal → touchesLogged s x.u .gen 4 [(l, x.src64 l a)] = false →
    access s x.u .read .gen 4 4 [(l, x.src64 l a)] = .go s1 [e] [] → earlierAt x.g e.lane e.loc 4 = false →
    ownedAt s1 x.t.ctx e.loc e.va = false →
    let s2 := publishLoc s1 x.t.core e.loc 4
    let y : Ctx := { x with g := unitAt s2 x.u }
    let w := bytesToW32 (locBytes s2 e.loc 4)
    (holds k w (x.src l b) → goesTo (.waitf d a b c g k) s (fun t =>
      ∃ t0, endsWith s2 y d (l :: r) w 0 t0 ∧ endsAs x (acquireStep t0 x.t.core) t)) ∧
    (¬holds k w (x.src l b) → goesTo (.waitf d a b c g k) s (fun t => t.mem = s2.mem ∧ ∃ p,
      blocksOn y s2.nextUid (.waitf e.loc e.va (x.src l b) k d p) (l :: r) w (unitAt t x.u)))) ∧
  (∀ d a b c g k s x l r, issues (.waitf d a b c g k) s x → x.parts g = l :: r → x.g.windDown = false → domainSet s x.u = true →
    ∃ v, goesTo (.waitf d a b c g k) s (endsAtOnce { s with freeCtr := s.freeCtr + 1 } x d (l :: r) v 1)) ∧
  (∀ d a b c g k s x l r, issues (.waitf d a b c g k) s x → x.parts g = l :: r → x.g.windDown = false → domainSet s x.u = false →
    producer s x (x.src l c) = .illegal → exec (.waitf d a b c g k) s =
      .next (trapDeliver s x.u (mkRec s x.u x.pc x.cl.head .illegal 0 (laneMask (l :: r)) 0))) ∧
  (∀ d a b c g k s x l r s1 ok fs, issues (.waitf d a b c g k) s x → x.parts g = l :: r → x.g.windDown = false →
    domainSet s x.u = false → producer s x (x.src l c) = .illegalWait → touchesLogged s x.u .gen 4 [(l, x.src64 l a)] = false →
    access s x.u .read .gen 4 4 [(l, x.src64 l a)] = .go s1 ok fs → exec (.waitf d a b c g k) s =
      .next (trapDeliver s x.u (mkRec s x.u x.pc x.cl.head .illegalWait 0 (laneMask (l :: r)) 0))) ∧
  (∀ s x w, (w.toNat / 2 ^ 30 = 0 ∨ w.toNat / 2 ^ 30 = 3) → w.toNat / 2 ^ 22 % 16 = 0 → producer s x w = .legal) ∧
  (∀ s x w, w.toNat / 2 ^ 22 % 16 ≠ 0 → producer s x w = .illegal) ∧
  (∀ s x w, w.toNat / 2 ^ 30 = 1 → w.toNat / 2 ^ 22 % 16 = 0 →
    verdictOn s x.t.grid (w.toNat % 2 ^ 22) (w.toNat % 2 ^ 22 < x.t.index) (producer s x w)) ∧
  (∀ s x (w : W32), w.toNat / 2 ^ 30 = 2 → w.toNat / 2 ^ 22 % 16 = 0 →
    let f := slotAt x.g (w.toNat / 2 ^ 26 % 16)
    ((f.state = .free ∨ f.dropped = true ∨ (f.kind ≠ .grid ∧ f.kind ≠ .graph)) → producer s x w = .illegal) ∧
    (f.state ≠ .free → f.dropped = false → (f.kind = .grid ∨ f.kind = .graph) →
      verdictOn s f.link (w.toNat % 2 ^ 22) False (producer s x w))) ∧
  (∀ u run s b loc va value k d p v, blockedRun s u run = some b → b.wait = .waitf loc va value k d p → b.hit = some v →
    goesTo (.waitfSatisfied u run) s (fun t =>
      t.mem = s.mem ∧ (∀ y ∈ (unitAt t u).blocked, y.id = b.id → y.ended = true) ∧
      (∀ l, l < 32 → b.parts.getLsbD l = true →
        (thrAt (unitAt t u) l).lt = 0 ∧ (isCond u = false → d.toNat ≤ 11 → tAt (thrAt (unitAt t u) l) d.toNat = v)) ∧
      (coreAt t (coreOf s u)).cut = s.mem)) ∧
  (∀ d a g s x l r, issues (.cancel d a g) s x → x.parts g = l :: r →
    (∀ q, (x.src l a = 0xFFFFFFFF ∧ q = x.t.grid ∨ (x.src l a).toNat < 16 ∧
        (slotAt x.g (x.src l a).toNat).state ≠ .free ∧ (slotAt x.g (x.src l a).toNat).dropped = false ∧
        ((slotAt x.g (x.src l a).toNat).kind = .grid ∨ (slotAt x.g (x.src l a).toNat).kind = .graph) ∧
        q = (slotAt x.g (x.src l a).toNat).link) →
      goesTo (.cancel d a g) s (fun t => ∃ t0, endsWith s x d (l :: r) 0 0 t0 ∧ t = setDomain t0 q ∧
        (thas s.grids q = true → (gridAt s q).live = true → (gridAt t q).domain = true))) ∧
    (16 ≤ (x.src l a).toNat → x.src l a ≠ 0xFFFFFFFF → goesTo (.cancel d a g) s (endsWith s x d (l :: r) 5 5)) ∧
    (let f := slotAt x.g (x.src l a).toNat
     (x.src l a).toNat < 16 → (f.state = .free ∨ f.dropped = true ∨ (f.kind ≠ .grid ∧ f.kind ≠ .graph)) →
       goesTo (.cancel d a g) s (endsWith s x d (l :: r) 5 5))) ∧
  (∀ d g s x, issues (.chkc d g) s x →
    let v : W32 := if (gridAt s x.t.grid).domain then 1 else 0
    goesTo (.chkc d g) s (endsWith s x d (x.parts g) v v))

/-- The value of an entry in a lane (08 R209). -/
def Sys2Proof.Claims.entryValue (e : FeedEntry) (l : Nat) : W32 :=
  match e with
  | .uniform w => w
  | .vector b st => BitVec.ofNat 32 (b.toNat + l * st.toNat)

/-- A feed that takes the oldest entry. -/
def Sys2Proof.Claims.fed (s : State) (x : Ctx) (d : OField) (g : Guard) (e : FeedEntry) (rest : List FeedEntry) (t : State) : Prop :=
  onlyUnit s t x.u ∧
  unitAt t x.u = { advance x.g with feed := rest, held := none, threads := (unitAt t x.u).threads, k := (unitAt t x.u).k } ∧
  (∀ l, l ∉ x.parts g → thrAt (unitAt t x.u) l = x.thr l) ∧
  ∀ l ∈ x.parts g, wrote32 x.cond d (entryValue e l) 0 (x.thr l) (thrAt (unitAt t x.u) l)

/-- Feed queues and agen (01 R18, 08 R209, R210). -/
def Obligations.FeedQueuesAndIterator : Prop :=
  (∀ d g s x e rest, issues (.feed d g) s x → x.g.feed = e :: rest → goesTo (.feed d g) s (fed s x d g e rest)) ∧
  (∀ d g s x, issues (.feed d g) s x → x.g.feed = [] → conductorGone x.t = false →
    exec (.feed d g) s = .next (setUnit s x.u { x.g with held := some (.feed d g) })) ∧
  (∀ d g s x, issues (.feed d g) s x → x.g.feed = [] → conductorGone x.t = true →
    exec (.feed d g) s = .next (trapDeliver s x.u (mkRec s x.u x.pc x.cl.head .illegalWait 0 x.cl.mask 0))) ∧
  (∀ u d g s x e rest, issuing { s with focus := some u } = some x → x.g.held = some (.feed d g) → x.g.feed = e :: rest →
    goesTo (.feedDelivery u) s (fed s x d g e rest)) ∧
  (∀ i g b (entry : Ctx → Nat → FeedEntry),
    ((∃ a, i = .fpushU a b g ∧ entry = fun x l => .uniform (x.src l a)) ∨
      ∃ a c, i = .fpushV a b c g ∧ entry = fun x l => .vector (x.src l a) (x.src l c)) →
    ∀ s x l r, issues i s x → x.parts g = l :: r →
      let n := (x.src l b).toNat
      let tg : UnitId := ⟨x.u.team, n⟩
      (x.t.groups ≤ n → exec i s = .next (trapDeliver s x.u (mkRec s x.u x.pc x.cl.head .illegal 0 x.cl.mask 0))) ∧
      (n < x.t.groups → quiet s x.u = true → tg ≠ x.u → x.g.windDown = false → (unitAt s tg).retired = false →
        (unitAt s tg).feed.length < Config.feedEntries →
        goesTo i s (fun t => unitAt t tg = { unitAt s tg with feed := (unitAt s tg).feed ++ [entry x l] } ∧
          unitAt t x.u = { advance x.g with held := none } ∧ t.mem = s.mem ∧ ∀ v, v ≠ tg → v ≠ x.u → unitAt t v = unitAt s v)) ∧
      (n < x.t.groups → quiet s x.u = true → x.g.windDown = false → (unitAt s tg).retired = false →
        Config.feedEntries ≤ (unitAt s tg).feed.length →
        exec i s = .next (setUnit s x.u { x.g with held := some (.fpush n (entry x l)) })) ∧
      (n < x.t.groups → ((unitAt s tg).retired = true ∨ x.g.windDown = true) →
        exec i s = .next (setUnit s x.u (advance { x.g with held := none }))) ∧
      (n < x.t.groups → (unitAt s tg).retired = false → x.g.windDown = false → quiet s x.u = false → exec i s = .next s)) ∧
  (∀ team s x n e, issuing { s with focus := some ⟨team, 32⟩ } = some x → x.g.held = some (.fpush n e) → n ≠ 32 →
    x.g.windDown = false → (unitAt s ⟨team, n⟩).retired = false → (unitAt s ⟨team, n⟩).feed.length < Config.feedEntries →
    goesTo (.fpushResume team) s (fun t =>
      unitAt t ⟨team, n⟩ = { unitAt s ⟨team, n⟩ with feed := (unitAt s ⟨team, n⟩).feed ++ [e] } ∧
      unitAt t ⟨team, 32⟩ = { advance x.g with held := none } ∧ t.mem = s.mem)) ∧
  (∀ d a b c g s x l r, issues (.agen d a b c g) s x → x.parts g = l :: r → x.cond = true →
    let adr := kAt x.g a.toNat
    let desc := kAt x.g b.toNat
    let nin := desc.toNat / 2 ^ 48
    let i := desc.toNat / 2 ^ 32 % 65536 + 1
    (nin = 0 → exec (.agen d a b c g) s = .next (trapDeliver s x.u (mkRec s x.u x.pc x.cl.head .illegal 0 x.cl.mask 0))) ∧
    (nin ≠ 0 → goesTo (.agen d a b c g) s (fun t =>
      onlyUnit s t x.u ∧ onlyThreads x.g (unitAt t x.u) ∧ thrAt (unitAt t x.u) l = { x.thr l with lt := adr.extractLsb' 0 32 } ∧
      ∀ n, kAt (unitAt t x.u) n =
        let next := adr + (if i < nin then (desc.extractLsb' 0 32).signExtend 64 else ((kAt x.g c.toNat).extractLsb' 0 32).signExtend 64)
        let was : W64 := if b = a then next else if b = d then adr else desc
        if n = b.toNat then BitVec.ofNat 64 (was.toNat / 2 ^ 48 * 2 ^ 48 + (if i < nin then i else 0) * 2 ^ 32 + was.toNat % 2 ^ 32)
        else if n = a.toNat then next else if n = d.toNat then adr else kAt x.g n)))

/-- Majors 0x2D and the sleeps (08 R193, R211, R212). That a claim blocks while a live group has a lower number, and is served only once its
cycle is over, is how the model puts the claims of one cycle in order (log 45). -/
def Obligations.SharesAndSleeps : Prop :=
  (∀ d a g s x l r, issues (.regy d a g) s x → x.parts g = l :: r →
    let n := (x.src l a).toNat
    (x.g.share ≤ n → exec (.regy d a g) s = .next (trapDeliver s x.u (mkRec s x.u x.pc x.cl.head .illegal 0 (laneMask (l :: r)) 0))) ∧
    (n < x.g.share → (∀ v ∈ pendingV s x.u, v < 8 * (x.g.share - n)) → goesTo (.regy d a g) s (fun t =>
      (unitAt t x.u).share = x.g.share - n ∧ (teamAt t x.u.team).freeStore = x.t.freeStore + n ∧ t.mem = s.mem ∧
      (unitAt t x.u).clause = (advance x.g).clause ∧
      (∀ j, j ∉ x.parts g → thrAt (unitAt t x.u) j = x.thr j) ∧
      ∀ j ∈ x.parts g, wrote32 false d (BitVec.ofNat 32 (x.g.share - n)) 0 (x.thr j) (thrAt (unitAt t x.u) j)))) ∧
  (∀ d a g s x l r, issues (.regc d a g) s x → x.parts g = l :: r → x.g.windDown = false → domainSet s x.u = false →
    let n := (x.src l a).toNat
    (32 < x.g.share + n → exec (.regc d a g) s =
      .next (trapDeliver s x.u (mkRec s x.u x.pc x.cl.head .illegal 0 (laneMask (l :: r)) 0))) ∧
    (x.g.share + n ≤ 32 → x.joint = false → x.t.claims = [] → n ≤ x.t.freeStore →
      (∀ e ∈ x.t.units, e.1 < x.u.idx → e.2.retired = true) → goesTo (.regc d a g) s (fun t =>
      (unitAt t x.u).share = x.g.share + n ∧ (teamAt t x.u.team).freeStore = x.t.freeStore - n ∧ t.mem = s.mem ∧
      (unitAt t x.u).clause = (advance x.g).clause ∧
      (∀ j v, vAt (thrAt (unitAt t x.u) j) v = if v < 8 * x.g.share then vAt (x.thr j) v else 0) ∧
      ∀ j ∈ x.parts g, (thrAt (unitAt t x.u) j).lt = 0 ∧
        ∀ q, tAt (thrAt (unitAt t x.u) j) q = if q = d.toNat ∧ q ≤ 11 then BitVec.ofNat 32 (x.g.share + n) else tAt (x.thr j) q)) ∧
    (x.g.share + n ≤ 32 → (x.t.claims ≠ [] ∨ x.t.freeStore < n ∨ ∃ e ∈ x.t.units, e.1 < x.u.idx ∧ e.2.retired = false) →
      goesTo (.regc d a g) s (fun t => t.mem = s.mem ∧
        blocksOn x s.nextUid (.regc d n) (l :: r) 0 (unitAt t x.u) ∧ (teamAt t x.u.team).freeStore = x.t.freeStore ∧
        let own : RegClaim := ⟨x.u.idx, s.nextUid, n, clusterCyc s (x.t.core / 8)⟩
        let before (c : RegClaim) : Prop := ¬(c.cyc = own.cyc ∧ own.unit < c.unit)
        ∃ pre post, x.t.claims = pre ++ post ∧ (teamAt t x.u.team).claims = pre ++ own :: post ∧
          (∀ c ∈ pre, before c) ∧ ∀ c q, post = c :: q → ¬before c))) ∧
  (∀ team s (c : RegClaim) rest b,
    let t := teamAt s team
    let u : UnitId := ⟨team, c.unit⟩
    t.claims = c :: rest → c.cyc ≠ clusterCyc s (t.core / 8) → s.supervisor.freeze = false → blockedRun s u c.run = some b → c.blocks ≤ t.freeStore → (unitAt s u).share + c.blocks ≤ 32 →
    isCond u = false → goesTo (.regcGrant team) s (fun t' =>
      (teamAt t' team).claims = rest ∧ (teamAt t' team).freeStore = t.freeStore - c.blocks ∧
      (unitAt t' u).share = (unitAt s u).share + c.blocks ∧
      (∀ y ∈ (unitAt t' u).blocked, y.id = b.id → y.ended = true) ∧
      ∀ l, l < 32 → b.parts.getLsbD l = true → (thrAt (unitAt t' u) l).lt = 0)) ∧
  (∀ d a s x l r, issues (.sleepCyc d a) s x → x.lanes = l :: r → x.g.windDown = false → domainSet s x.u = false →
    (x.src l a = 0 → goesTo (.sleepCyc d a) s (endsAtOnce s x d (l :: r) 0 0)) ∧
    (x.src l a ≠ 0 → goesTo (.sleepCyc d a) s (fun t => t.mem = s.mem ∧
      blocksOn x s.nextUid (.sleepCyc d (x.t.core / 8) ((clusterAt s (x.t.core / 8)).cyc.toNat + (x.src l a).toNat)) (l :: r) 0
        (unitAt t x.u)))) ∧
  (∀ d a s x l r, issues (.sleepFut d a) s x → x.lanes = l :: r → x.g.windDown = false → domainSet s x.u = false →
    let f := slotAt x.g ((x.src l a).toNat % 16)
    ((16 ≤ (x.src l a).toNat ∨ f.state = .free ∨ f.dropped = true ∨ f.kind ≠ .copy) → exec (.sleepFut d a) s =
      .next (trapDeliver s x.u (mkRec s x.u x.pc x.cl.head .illegal 0 (laneMask (l :: r)) 0))) ∧
    ((x.src l a).toNat < 16 → f.kind = .copy → f.dropped = false → f.state = .complete →
      goesTo (.sleepFut d a) s (endsAtOnce s x d (l :: r) 0 0)) ∧
    ((x.src l a).toNat < 16 → f.kind = .copy → f.dropped = false → f.state = .pending → goesTo (.sleepFut d a) s (fun t =>
      t.mem = s.mem ∧ blocksOn x s.nextUid (.sleepFut d (x.src l a).toNat f.cluster f.promise) (l :: r) 0 (unitAt t x.u)))) ∧
  (∀ u run s b d, s.supervisor.freeze = false → blockedRun s u run = some b →
    ((∃ c due, b.wait = .sleepCyc d c due ∧ due ≤ (clusterAt s c).cyc.toNat) ∨
      ∃ slot c due, b.wait = .sleepFut d slot c due ∧ due ≤ (clusterAt s c).cyc.toNat ∧ (slotAt (unitAt s u) slot).state ≠ .pending) →
    goesTo (.sleepWake u run) s (fun t =>
      onlyUnit s t u ∧ (∀ y ∈ (unitAt t u).blocked, y.id = b.id → y.ended = true) ∧
      ∀ l, l < 32 → b.parts.getLsbD l = true →
        (thrAt (unitAt t u) l).lt = 0 ∧ (isCond u = false → d.toNat ≤ 11 → tAt (thrAt (unitAt t u) l) d.toNat = 0))) ∧
  (∀ u run s b d slot c due, s.supervisor.freeze = false → blockedRun s u run = some b → b.wait = .sleepFut d slot c due → due ≤ (clusterAt s c).cyc.toNat →
    (slotAt (unitAt s u) slot).state = .pending → (slotAt (unitAt s u) slot).cluster = coreOf s u / 8 → clauseStarted (unitAt s u) = false →
    ∃ s1, exec (.sleepWake u run) s = .next (trapDeliver s1 u
      (mkRec s1 u (b.clause.head + 4 * (b.clause.next - 1)) b.clause.head .copyLate 0 b.parts 0)))

/-- A handle stands in vN of a thread, or in kN where a conductor asked (08 R215). -/
def Sys2Proof.Claims.handleIs (x : Ctx) (g : Grp) (v l : Nat) (w : W32) : Prop :=
  (x.cond = false → vAt (thrAt g l) v = w) ∧ (x.cond = true → kAt g v = w.setWidth 64)

/-- A number that a live grid or graph of a context holds as its GRIDID. -/
def Sys2Proof.Claims.idTaken (s : State) (c : Nat) (id : W32) : Prop :=
  ∃ e ∈ s.grids, e.2.live = true ∧ e.2.ctx = c ∧ e.2.gridid = id

/-- The GRIDID of new work of a context (02 R409): the first value from its count on that is neither 0 nor taken; the count is one
more. -/
def Sys2Proof.Claims.numbered (s t : State) (c : Nat) (id : W32) : Prop :=
  id ≠ 0 ∧ ¬ idTaken s c id ∧ (ctxAt t c).gridCount = id + 1 ∧
  ∃ n : Nat, id = (ctxAt s c).gridCount + BitVec.ofNat 32 n ∧
    ∀ m < n, (ctxAt s c).gridCount + BitVec.ofNat 32 m = 0 ∨ idTaken s c ((ctxAt s c).gridCount + BitVec.ofNat 32 m)

/-- What becomes of one requester: a child made and its handle given, or the status of its refusal. That a child is made at the
issue of its word is log 28's reading. -/
def Sys2Proof.Claims.childMade (x : Ctx) (v : Nat) (lanes : List Nat) (kind : FutKind) (y : Except Nat Grid) (s t : State) : Prop :=
  match y with
  | .error n =>
    t.grids = s.grids ∧ t.readyPool = s.readyPool ∧ (unitAt t x.u).futures = (unitAt s x.u).futures ∧
    ∀ l ∈ lanes, handleIs x (unitAt t x.u) v l (BitVec.ofNat 32 (0x80000000 + n))
  | .ok g =>
    ∀ slot r, freeSlots (unitAt s x.u) = slot :: r →
      ∃ uid, t.readyPool = s.readyPool ++ [uid] ∧ slotAt (unitAt t x.u) slot = { state := .pending, kind := kind, link := uid } ∧
        (∀ i, i ≠ slot → slotAt (unitAt t x.u) i = slotAt (unitAt s x.u) i) ∧
        (uid ≠ x.t.grid →
          (gridAt t uid).parentGrid = some x.t.grid ∧ (gridAt t uid).depth = (gridAt s x.t.grid).depth + 1 ∧
          (gridAt t uid).kernel = g.kernel ∧ (gridAt t uid).teams = g.teams ∧ (gridAt t uid).args = g.args ∧
          (s.grids.length + 2 < 2 ^ 32 → numbered s t g.ctx (gridAt t uid).gridid) ∧
          (gridAt t x.t.grid).children = (gridAt s x.t.grid).children + 1) ∧
        ∀ l ∈ lanes, handleIs x (unitAt t x.u) v l (BitVec.ofNat 32 slot)

/-- The records of a word's requesters, read after its release step. -/
def Sys2Proof.Claims.recordsRead (s : State) (x : Ctx) (v : VIdx) (q : SIdx) (req : List Nat) (s2 : State) (vs : TMap (List Byte)) : Prop :=
  let s1 := releaseStep s x.t.core
  heldRead s1 { x with g := unitAt s1 x.u } .gen 64 64
    (req.map (fun l => (l, BitVec.ofInt 64 (((x.uni64 q.toNat).toNat : Int) + (x.main l v.toNat).toInt)))) = .vals s2 vs

/-- spawn and task (08 R213-R215). The order of a record's refusals is log 28's reading. -/
def Obligations.WorkIsCreatedForItsRequesters : Prop :=
  (∀ v q one s x s2 vs, issues (.spawn v q one) s x → domainSet s x.u = false → (gridAt s x.t.grid).depth < 10 →
    (if one then 1 else x.lanes.length) ≤ (freeSlots x.g).length → quiet s x.u = true →
    recordsRead s x v q (if one then [x.lead] else x.lanes) s2 vs →
    (one = true → goesTo (.spawn v q one) s (fun t => ∃ t0, childMade x v.toNat x.lanes .grid (spawnGrid s2 x.t.ctx (tget [] vs x.lead)) s2 t0 ∧
      t = setUnit t0 x.u (advance (unitAt t0 x.u)))) ∧
    (one = false → goesTo (.spawn v q one) s (fun t => ∃ st : Nat → State, st 0 = s2 ∧
      (∀ j l, x.lanes[j]? = some l → childMade x v.toNat [l] .grid (spawnGrid (st j) x.t.ctx (tget [] vs l)) (st j) (st (j + 1))) ∧
      t = setUnit (st x.lanes.length) x.u (advance (unitAt (st x.lanes.length) x.u))))) ∧
  (∀ v q s x s2 vs s3 y, issues (.task v q true) s x → domainSet s x.u = false → (gridAt s x.t.grid).depth < 10 →
    1 ≤ (freeSlots x.g).length → quiet s x.u = true → recordsRead s x v q [x.lead] s2 vs →
    readTasks s2 x.t.ctx [(x.lead, tget [] vs x.lead)] = .ok s3 [(x.lead, y)] →
    goesTo (.task v q true) s (fun t => ∃ t0,
      childMade x v.toNat x.lanes .graph (if poolFull s3 then .error 6 else y) s3 t0 ∧
      t = setUnit t0 x.u (advance (unitAt t0 x.u)))) ∧
  (∀ v q s x s2 vs s3 gs, issues (.task v q false) s x → domainSet s x.u = false → (gridAt s x.t.grid).depth < 10 →
    x.lanes.length ≤ (freeSlots x.g).length → quiet s x.u = true → recordsRead s x v q x.lanes s2 vs →
    readTasks s2 x.t.ctx (x.lanes.map (fun l => (l, tget [] vs l))) = .ok s3 gs →
    goesTo (.task v q false) s (fun t => ∃ st : Nat → State, st 0 = s3 ∧
      (∀ j l y, gs[j]? = some (l, y) →
        childMade x v.toNat [l] .graph (if poolFull (st j) then .error 6 else y) (st j) (st (j + 1))) ∧
      t = setUnit (st gs.length) x.u (advance (unitAt (st gs.length) x.u)))) ∧
  (∀ i v q one s x, (i = .spawn v q one ∨ i = .task v q one) → issues i s x →
    (∀ n : Nat, (n = 1 ∧ domainSet s x.u = true ∨ n = 3 ∧ domainSet s x.u = false ∧ 10 ≤ (gridAt s x.t.grid).depth) →
      goesTo i s (fun t => onlyUnit s t x.u ∧ (unitAt t x.u).futures = x.g.futures ∧
        ∀ l ∈ x.lanes, handleIs x (unitAt t x.u) v.toNat l (BitVec.ofNat 32 (0x80000000 + n)))) ∧
    (domainSet s x.u = false → (gridAt s x.t.grid).depth < 10 →
      (freeSlots x.g).length < (if one then 1 else x.lanes.length) →
      exec i s = .next (trapDeliver s x.u (mkRec s x.u x.pc x.cl.head .operandLimit 4 x.cl.mask 0))))

/-- The nodes a pool has free, in the order it hands them out (08 R216). -/
def Sys2Proof.Claims.nodesFree (p : Pool) : List Nat :=
  p.freed ++ (List.range (p.count - p.fresh)).map (fun i => p.base + (p.fresh + i) * 2 ^ p.log2)

/-- dalloc and dfree (08 R216, R217). -/
def Obligations.DepotNodesAreHandedOutAndReturned : Prop :=
  (∀ v q p s x, issues (.dalloc v q p) s x → x.cond = false →
    let n := (x.uni q).toNat % 256
    let nodes := nodesFree (poolAt s n)
    (poolAt s n).ctx = some x.t.ctx → goesTo (.dalloc v q p) s (fun t =>
      t.mem = s.mem ∧ nodesFree (poolAt t n) = nodes.drop x.lanes.length ∧ (poolAt t n).ctx = some x.t.ctx ∧
      (∀ m, m ≠ n → poolAt t m = poolAt s m) ∧
      (∀ l, l ∉ x.lanes → thrAt (unitAt t x.u) l = x.thr l) ∧
      ∀ j l, x.lanes[j]? = some l →
        let new := thrAt (unitAt t x.u) l
        let empty := decide (nodes.length ≤ j)
        new = { x.thr l with v := new.v, p := new.p, lt := if empty then 1 else 0 } ∧
        (∀ r, vAt new r =
          if r = v.toNat + 1 then BitVec.ofNat 32 (nodes.getD j 0 / 2 ^ 32)
          else if r = v.toNat then BitVec.ofNat 32 (nodes.getD j 0) else vAt (x.thr l) r) ∧
        ∀ b, b < 8 → new.p.getLsbD b = if b = p.toNat ∧ b ≠ 0 then empty else (x.thr l).p.getLsbD b)) ∧
  (∀ v q p s x l, issues (.dalloc v q p) s x → x.cond = true → x.lanes = [l] →
    let n := (x.uni q).toNat % 256
    let node := (nodesFree (poolAt s n)).getD 0 0
    (poolAt s n).ctx = some x.t.ctx → goesTo (.dalloc v q p) s (fun t => t.mem = s.mem ∧
      ∀ r, kAt (unitAt t x.u) r =
        if r = v.toNat + 1 then BitVec.ofNat 64 (node / 2 ^ 32 % 2 ^ 32)
        else if r = v.toNat then BitVec.ofNat 64 (node % 2 ^ 32) else kAt x.g r)) ∧
  (∀ v q s x, issues (.dfree v q) s x →
    let n := (x.uni q).toNat % 256
    let addr (l : Nat) : Nat := (x.main l (v.toNat + 1)).toNat * 2 ^ 32 + (x.main l v.toNat).toNat
    (poolAt s n).ctx = some x.t.ctx → badFrees (poolAt s n) (x.lanes.map (fun l => (l, addr l))) = [] → quiet s x.u = true →
    goesTo (.dfree v q) s (fun t =>
      t.mem = (releaseStep s x.t.core).mem ∧
      (poolAt t n).freed = ((x.lanes.map addr).filter (· ≠ 0)).reverse ++ (poolAt s n).freed ∧
      (poolAt t n).fresh = (poolAt s n).fresh ∧ (unitAt t x.u).threads = x.g.threads ∧
      (unitAt t x.u).clause = (advance x.g).clause)) ∧
  (∀ (p : Pool) l a, badFrees p [(l, a)] = [] ↔
    (a = 0 ∨ p.base ≤ a ∧ (a - p.base) % 2 ^ p.log2 = 0 ∧ (a - p.base) / 2 ^ p.log2 < p.fresh ∧ a ∉ p.freed)) ∧
  (∀ (p : Pool) l m a, a ≠ 0 → badFrees p [(l, a)] = [] → badFrees p [(l, a), (m, a)] = [m]) ∧
  (∀ v q s x l r, issues (.dfree v q) s x →
    let n := (x.uni q).toNat % 256
    let addr (l : Nat) : Nat := (x.main l (v.toNat + 1)).toNat * 2 ^ 32 + (x.main l v.toNat).toNat
    (poolAt s n).ctx = some x.t.ctx → badFrees (poolAt s n) (x.lanes.map (fun l => (l, addr l))) = l :: r →
    exec (.dfree v q) s =
      .next (trapDeliver s x.u (mkRec s x.u x.pc x.cl.head .accessViolation 7 (laneMask (l :: r)) (BitVec.ofNat 64 (addr l))))) ∧
  (∀ i q s x, ((∃ v p, i = .dalloc v q p) ∨ ∃ v, i = .dfree v q) → issues i s x →
    (poolAt s ((x.uni q).toNat % 256)).ctx ≠ some x.t.ctx →
    exec i s = .next (trapDeliver s x.u (mkRec s x.u x.pc x.cl.head .accessViolation 6 x.cl.mask 0)))

/-- A record of the issuing thread that is read with certain bytes (09 R226). -/
def Sys2Proof.Claims.recordIs (s : State) (x : Ctx) (sp : Space) (a : W64) (bs : List Byte) (s1 : State) : Prop :=
  ∀ k, readRec s x sp a k = k bs s1

/-- An operation has entered its core's matrix queue. -/
def Sys2Proof.Claims.enqueued (x : Ctx) (s3 : State) (kind : MatKind) (acc : Nat) (f : Option Nat) (t : State) : Prop :=
  let c := x.t.core
  t.mem = (releaseStep s3 c).mem ∧ (unitAt t x.u).threads = (unitAt s3 x.u).threads ∧
  (unitAt t x.u).clause = (advance (unitAt s3 x.u)).clause ∧
  (∀ i, tget 0 (unitAt t x.u).flags i = tget 0 (unitAt s3 x.u).flags i + (if f = some i then 1 else 0)) ∧
  ∃ op before after, (coreAt s3 c).matrix = before ++ after ∧ (coreAt t c).matrix = before ++ op :: after ∧
    (let later (y : MatOp) : Prop := ∃ n, y.entered = some ((clusterAt s3 (clusterOf c)).cyc.toNat, n) ∧ coreNumber s3 x.u < n
     (∀ y ∈ before, ¬ later y) ∧ ∀ y, after.head? = some y → later y) ∧
    (unitAt t x.u).stores = (unitAt s3 x.u).stores ++
      (match kind with
       | .acst _ | .acepi _ _ => [{ id := op.id, pc := x.pc, cstart := x.cl.head, flag := f, lanes := [], op := some op.id }]
       | _ => []) ∧ op.kind = kind ∧ op.acc = acc ∧ op.unit = x.u ∧ op.team = x.u.team ∧
    op.lane = x.lead ∧ op.pc = x.pc ∧ op.cstart = x.cl.head ∧ op.flag = f ∧ op.running = false

/-- Majors 0x2E, 0x2F, 0x30 and 0x31 at issue (09 R226-R237). -/
def Obligations.MatrixWordsEnterTheQueue : Prop :=
  (∀ (i : Instr) (m : MxFields) (zero : Bool), (i = .mma m ∧ zero = false ∨ i = .mmas m ∧ zero = true) →
    ∀ (s : State) (x : Ctx) (pb ab bb : List Byte) (s1 s2 s3 : State), issues i s x →
    let off : W64 := (x.uni m.s).setWidth 64
    let blk := parseParam off.toNat pb
    let a := parseStencil blk.aSten.toNat ab
    let b := parseStencil blk.bSten.toNat bb
    recordIs s x .spad off pb s1 → recordIs s1 x .gen blk.aSten ab s2 → recordIs s2 x .gen blk.bSten bb s3 →
    paramSub none blk = none → stencilSub s3 x.t.ctx a (operandUse m.fmtA (keOf m) (blk.ac.getD 0 0)) = none →
    stencilSub s3 x.t.ctx b (operandUse m.fmtB (keOf m) (blk.bc.getD 0 0)) = none → a.base.toNat % 64 = 0 → b.base.toNat % 64 = 0 →
    quiet s3 x.u = true → queueRoom s3 x.t.core = true →
    goesTo i s (enqueued x s3
      (.mul m zero blk a b (readScales x true (tileDim m.shape.m)) (readScales x false (tileDim m.shape.n)))
      m.acc.toNat (if m.flagB then x.cl.setB else x.cl.setA))) ∧
  (∀ (acc : BitVec 3) s x, issues (.acz acc) s x → quiet s x.u = true → queueRoom s x.t.core = true →
    goesTo (.acz acc) s (enqueued x s .acz acc.toNat x.cl.setA)) ∧
  (∀ i v q (acc : BitVec 3) (mk : W64 → MatKind), (i = .acld v q acc ∧ mk = .acld ∨ i = .acst v q acc ∧ mk = .acst) → ∀ s x p, issues i s x →
    let a : W64 := BitVec.ofInt 64 (((x.uni64 q.toNat).toNat : Int) + (x.main x.lead v.toNat).toInt)
    resolve s x.u x.lead .gen a 16384 = .ok p → quiet s x.u = true → queueRoom s x.t.core = true →
    (a.toNat % 64 = 0 → goesTo i s (enqueued x s (mk a) acc.toNat x.cl.setA)) ∧
    (a.toNat % 64 ≠ 0 → exec i s = .next (trapDeliver s x.u (mkRec s x.u x.pc x.cl.head .misaligned 0 x.cl.mask a)))) ∧
  (∀ v q (acc : BitVec 3) s x, issues (.acrd v q acc) s x →
    (x.uni q).toNat < 64 ∧ (quiet s x.u = true → queueRoom s x.t.core = true →
      goesTo (.acrd v q acc) s (enqueued x s (.acrd v.toNat (x.uni q).toNat) acc.toNat x.cl.setA))) ∧
  (∀ v q (acc : BitVec 3) s x, issuing s = some x → inBody x.cl = true → placedOk x.cl (infoOf (.acrd v q acc)).place = true →
    flagChosen x.cl (infoOf (.acrd v q acc)) = true → 64 ≤ (x.uni q).toNat →
      exec (.acrd v q acc) s = .next (trapDeliver s x.u (mkRec s x.u x.pc x.cl.head .illegal 0 x.cl.mask 0))) ∧
  (∀ q (acc : BitVec 3) (s : State) (x : Ctx) (eb db : List Byte) (s1 s2 : State), issues (.acepi q acc) s x →
    let off : W64 := (x.uni q).setWidth 64
    let e := parseEpi off.toNat eb
    let d := parseStencil e.dSten.toNat db
    recordIs s x .spad off eb s1 → recordIs s1 x .gen e.dSten db s2 → e.reservedZero = true → e.act < 2 →
    stencilSub s2 x.t.ctx d { plain := true } = none → e.bias.toNat % 4 = 0 → d.base.toNat % 64 = 0 →
    quiet s2 x.u = true → queueRoom s2 x.t.core = true →
    goesTo (.acepi q acc) s (enqueued x s2 (.acepi e d) acc.toNat x.cl.setA)) ∧
  (∀ (m : MxFields) (s : State) (x : Ctx) (pb ab bb : List Byte) (s1 s2 s3 : State), issues (.gmma m) s x →
    let off : W64 := (x.uni m.s).setWidth 64
    let blk := parseParam off.toNat pb
    let a := parseStencil blk.aSten.toNat ab
    let b := parseStencil blk.bSten.toNat bb
    let ms := maskedMembers s3 x.t blk.gmask
    recordIs s x .spad off pb s1 → recordIs s1 x .gen blk.aSten ab s2 → recordIs s2 x .gen blk.bSten bb s3 →
    blk.gbar < x.t.kernel.barriers → paramSub (some (gangMembers s x.t).length) blk = none →
    stencilSub s3 x.t.ctx a (operandUse m.fmtA (keOf m) (blk.ac.getD 0 0)) = none →
    stencilSub s3 x.t.ctx b (operandUse m.fmtB (keOf m) (blk.bc.getD 0 0)) = none → a.base.toNat % 64 = 0 → b.base.toNat % 64 = 0 →
    quiet s3 x.u = true → (∀ e ∈ ms, spadOwned s3 e.2 = false ∧ thas s3.teams e.2 = true) → (ms.map (·.2)).Nodup →
    goesTo (.gmma m) s (fun t =>
      (unitAt t x.u).threads = (unitAt s3 x.u).threads ∧ (unitAt t x.u).clause = (advance (unitAt s3 x.u)).clause ∧
      ∀ r e, ms[r]? = some e →
        (barAt (teamAt t e.2) blk.gbar).engines = (barAt (teamAt s3 e.2) blk.gbar).engines + 1 ∧
        ∃ op ∈ (coreAt t (teamAt s3 e.2).core).flying, op.team = e.2 ∧ op.rank = r ∧ op.acc = m.acc.toNat ∧ op.gangOp.isSome = true ∧
          op.unit = x.u ∧ op.kind =
            .mul m blk.zs blk a b (readScales x true (tileDim m.shape.m)) (readScales x false (tileDim m.shape.n))))

/-- Whether an element of an accumulator lies in an M by N tile. -/
abbrev Sys2Proof.Claims.inTile (m n i : Nat) : Prop := i / 64 < m ∧ i % 64 < n

/-- The exact value of a finite number, 0 for the others. -/
def Sys2Proof.Claims.realOf : FVal → ℚ
  | .fin n m e => signed n m e
  | _ => 0

/-- An element under its scale (03 R70, ScaledA and ScaledB). -/
def Sys2Proof.Claims.scaledTo (x sc v : FVal) : Prop :=
  ((aNan x ∨ aNan sc ∨ ∃ n k e, x = .inf n ∧ sc = .fin k 0 e) → aNan v) ∧
  (∀ n k m e, x = .inf n → sc = .fin k m e → m ≠ 0 → v = .inf n) ∧
  (∀ n m e k m' e', x = .fin n m e → sc = .fin k m' e' → ∃ p q, v = .fin n p q ∧ num p q = num m e * num m' e')

/-- The exact product of two values: an infinity times zero is NaN, and every sign is that of a product. -/
def Sys2Proof.Claims.productOf (x y v : FVal) : Prop :=
  ((aNan x ∨ aNan y ∨ (∃ n k e, x = .inf n ∧ y = .fin k 0 e) ∨ ∃ n k e, x = .fin k 0 e ∧ y = .inf n) → aNan v) ∧
  (∀ n k, x = .inf n → (y = .inf k ∨ ∃ m e, m ≠ 0 ∧ y = .fin k m e) → v = .inf (n != k)) ∧
  (∀ n k m e, x = .fin n m e → m ≠ 0 → y = .inf k → v = .inf (n != k)) ∧
  (∀ n m e k m' e', x = .fin n m e → y = .fin k m' e' → ∃ p q, v = .fin (n != k) p q ∧ num p q = num m e * num m' e')

/-- ExactBlockSum (03 R70): an exact zero sum is -0 only where every product is -0. -/
def Sys2Proof.Claims.blockSum (ps : List FVal) (v : FVal) : Prop :=
  (((∃ p ∈ ps, aNan p) ∨ (.inf true ∈ ps ∧ .inf false ∈ ps)) → aNan v) ∧
  (∀ n, (∀ p ∈ ps, ¬ aNan p) → .inf n ∈ ps → .inf (!n) ∉ ps → v = .inf n) ∧
  ((∀ p ∈ ps, ∃ n m e, p = .fin n m e) → ∃ n m e, v = .fin n m e ∧ signed n m e = (ps.map realOf).sum ∧
    (m = 0 → (n = true ↔ ps ≠ [] ∧ ∀ p ∈ ps, ∃ e, p = .fin true 0 e)))

/-- The exact sum of two values; an exact zero is -0 only as the sum of two that are not above -0. -/
def Sys2Proof.Claims.sumOf (x y v : FVal) : Prop :=
  ((aNan x ∨ aNan y ∨ ∃ n, x = .inf n ∧ y = .inf (!n)) → aNan v) ∧
  (∀ n, (x = .inf n ∧ ¬ aNan y ∧ y ≠ .inf (!n) ∨ y = .inf n ∧ ¬ aNan x ∧ x ≠ .inf (!n)) → v = .inf n) ∧
  (∀ n m e k m' e', x = .fin n m e → y = .fin k m' e' → ∃ b p q, v = .fin b p q ∧ signed b p q = signed n m e + signed k m' e' ∧
    (p = 0 → (b = true ↔ n = true ∧ k = true)))

/-- A value rounded to binary32, to nearest-even, neither flushed nor flagged; a NaN becomes the canonical one. -/
def Sys2Proof.Claims.toF32 (v : FVal) (r : W32) : Prop :=
  (aNan v → r = 0x7FC00000) ∧ (¬ aNan v → r = BitVec.ofNat 32 (roundIEEE f32 .rne false false v).1)

/-- The scale of a row or column for a block of K (03 R69): 1.0 without scales, else byte b + j of its lane's register. -/
def Sys2Proof.Claims.scaleIs (sc : Option Scales) (row j : Nat) (v : FVal) : Prop :=
  match sc with
  | none => ∃ m e, v = .fin false m e ∧ num m e = 1
  | some c =>
    let code := ((if row < 32 then c.lo else c.hi).getD (row % 32) 0).toNat / 2 ^ (8 * (c.byteSel + j)) % 256
    (code = 0 → ∃ e, v = .fin false 0 e) ∧ (code = 255 → aNan v) ∧
    (code ≠ 0 → code ≠ 255 → ∃ m e, v = .fin false m e ∧ num m e = (2 : ℚ) ^ ((code : Int) - 128))

/-- MatrixDot (03 R70): the element of row m and column n, from the element codes of the operands, ends at r from c. -/
def Sys2Proof.Claims.dotIs (mx : MxFields) (as bs : List Nat) (sa sb : Option Scales) (c : W32) (m n : Nat) (r : W32) : Prop :=
  ∃ acc : Nat → W32, acc 0 = c ∧ acc ((keOf mx + 31) / 32) = r ∧ ∀ j < (keOf mx + 31) / 32, ∃ ps sum v,
    ps.length = Nat.min 32 (keOf mx - 32 * j) ∧
    (∀ i p, ps[i]? = some p → ∃ ka kb x y, scaleIs sa m j ka ∧ scaleIs sb n j kb ∧
      scaledTo (elemVal mx.fmtA (as.getD (m * keOf mx + (32 * j + i)) 0)) ka x ∧
      scaledTo (elemVal mx.fmtB (bs.getD (n * keOf mx + (32 * j + i)) 0)) kb y ∧ productOf x y p) ∧
    blockSum ps sum ∧ sumOf (ieeeVal f32 (acc j).toNat) sum v ∧ toF32 v (acc (j + 1))

/-- StencilElement (09 R225) of a stencil that is not packed: no address for ZERO. -/
def Sys2Proof.Claims.elementAddr (st : Stencil) (i : Nat → Nat) : Option W64 :=
  let width : Nat := if st.fmt = 0x1E then 4 else if st.fmt = 0x1C ∨ st.fmt = 0x1D then 2 else 1
  if ∀ d < 5, i d < (if d < st.rank then st.ext.getD d 1 else 1) then
    some (BitVec.ofInt 64 ((st.base.toNat : Int) + i 0 * width +
      ((List.range 4).map (fun d => if d + 1 < st.rank then (i (d + 1) : Int) * st.str.getD (d + 1) 0 else 0)).sum))
  else none

/-- The elements an epilogue writes: row, column and address, row by row (09 R237, R238). -/
def Sys2Proof.Claims.epilogueElems (e : EpiBlock) (d : Stencil) : List (Nat × Nat × W64) :=
  (List.range e.m).flatMap (fun m => (List.range e.n).filterMap (fun n =>
    (elementAddr d (fun k => e.dc.getD k 0 + (if k = 0 then n else if k = 1 then m else 0))).map (fun a => (m, n, a))))

/-- The code an epilogue writes for an accumulator element (09 R238). -/
def Sys2Proof.Claims.epilogueCode (e : EpiBlock) (fmt : Nat) (bias : Option W32) (a : W32) (code : Nat) : Prop :=
  ∃ x y z : W32, ∃ p : FVal,
    (if e.intAcc then toF32 (.fin (decide (a.toInt < 0)) a.toInt.natAbs 0) x else x = a) ∧
    productOf (ieeeVal f32 x.toNat) (ieeeVal f32 e.scale.toNat) p ∧
    (match bias with
     | none => toF32 p y
     | some b => ∃ q, sumOf p (ieeeVal f32 b.toNat) q ∧ toF32 q y) ∧
    z = (if e.act = 1 ∧ y.getLsbD 31 = true ∧ y ≠ 0x7FC00000 then 0 else y) ∧
    (if fmt = 0x1E then code = z.toNat
     else if fmt = 0x1C then code = (roundIEEE f16 .rne e.sat false (ieeeVal f32 z.toNat)).1
     else if fmt = 0x1D then code = (roundIEEE bf16 .rne e.sat false (ieeeVal f32 z.toNat)).1
     else if fmt = 0x1F then ∃ i fl, intOf (-128) 127 .rne false (ieeeVal f32 z.toNat) i fl ∧ code = (i % 256).toNat
     else code = (roundToBinary8 (BitVec.ofNat 5 fmt) e.sat (ieeeVal f32 z.toNat)).1)

/-- MATRIX_OP_START, MATRIX_OP_END, OPERAND_PIN and GMMA_PART_ARRIVAL (09 R229-R236). -/
def Obligations.MatrixOperationsTakeEffect : Prop :=
  (∀ core s o r, s.supervisor.freeze = false → (coreAt s core).matrix = o :: r → o.running = false → o.pin = .pinned →
    (o.gangOp = none ∨ spadGone s o.team = false) → opPaid s core o = true → unreleased s o.unit o.id = false →
    (∀ n, o.entered ≠ some ((clusterAt s (clusterOf core)).cyc.toNat, n)) →
    (∀ e d, o.kind = .acepi e d → ∃ bs, readBias s o (numberedFrom 4096 (biasRanges o.kind)) = .ok bs) →
    goesTo (.matrixOpStart core) s (fun t => ∃ o' r', (coreAt t core).matrix = o' :: r' ∧ o'.id = o.id ∧ o'.running = true ∧
      o'.left = (match o.kind with
        | .mul m _ _ _ _ _ _ => Nat.max 8 (tileDim m.shape.m * tileDim m.shape.n * keOf m / (1024 / fmtBytes m.fmtA))
        | .acz => 8
        | .acrd _ _ => 8
        | .acld _ => 256
        | .acst _ => 256
        | .acepi e _ => Nat.max 8 ((e.m * e.n + 15) / 16)) ∧
      (∀ e d bs, o.kind = .acepi e d → readBias s o (numberedFrom 4096 (biasRanges o.kind)) = .ok bs → o'.bData = bs))) ∧
  (∀ core s o r, s.supervisor.freeze = false → (coreAt s core).matrix = o :: r → o.running = true → o.left = 0 → o.gangOp = none →
    o.layer = [] → thas s.teams o.team = true → o.unit.team = o.team → (∀ y ∈ (coreAt s core).parts, y.id ≠ o.id) →
    let fin (t : State) : Prop := (∀ y ∈ (coreAt t core).matrix, y.id ≠ o.id) ∧
      ∀ i, tget 0 (unitAt t o.unit).flags i = tget 0 (unitAt s o.unit).flags i -
          (match o.kind with
           | .acst _ | .acepi _ _ => 0
           | _ => if o.flag = some i then 1 else 0)
    let sent (t : State) (n : Nat) (va : Nat → W64) (data : Nat → List Byte) : Prop :=
      (unitAt t o.unit).stores = (unitAt s o.unit).stores.map (fun p =>
        if p.op = some o.id then
          { p with
            op := none
            lanes := (List.range (Nat.min n o.dest.length)).map (fun i =>
              { lane := o.lane, loc := (o.dest.getD i (0, .phys 0)).2, va := (va i).toNat, data := data i }) }
        else p)
    let el (t : State) (acc i : Nat) : W32 := accAt (teamAt t o.team) acc i
    (∀ m zero blk a b sa sb, o.kind = .mul m zero blk a b sa sb → goesTo (.matrixOpEnd core) s (fun t => fin t ∧ t.mem = s.mem ∧
      (∀ acc i, el t acc i =
        if acc = o.acc ∧ i < 4096 ∧ inTile (tileDim m.shape.m) (tileDim m.shape.n) i then
          (let c : W32 := if zero then 0 else el s acc i
           if m.fmtA = 0x1F then
             BitVec.ofInt 32 ((c.toNat : Int) + ((List.range (keOf m)).map (fun k =>
               (BitVec.ofNat 8 (o.aData.getD (i / 64 * keOf m + k) 0)).toInt * (BitVec.ofNat 8 (o.bData.getD (i % 64 * keOf m + k) 0)).toInt)).sum)
           else el t acc i)
        else el s acc i) ∧
      (m.fmtA ≠ 0x1F → ∀ r n, r < tileDim m.shape.m → n < tileDim m.shape.n →
        dotIs m o.aData o.bData sa sb (if zero then 0 else el s o.acc (64 * r + n)) r n (el t o.acc (64 * r + n))))) ∧
    (o.kind = .acz → goesTo (.matrixOpEnd core) s (fun t => fin t ∧ t.mem = s.mem ∧ ∀ acc i, el t acc i = if acc = o.acc then 0 else el s acc i)) ∧
    (∀ a, o.kind = .acld a → goesTo (.matrixOpEnd core) s (fun t => fin t ∧ t.mem = s.mem ∧ ∀ acc i, el t acc i =
      if acc = o.acc then (if i < 4096 then BitVec.ofNat 32 (o.bData.getD (i / 16) 0 / 2 ^ (32 * (i % 16))) else 0) else el s acc i)) ∧
    (∀ v row, o.kind = .acrd v row → goesTo (.matrixOpEnd core) s (fun t => fin t ∧ t.mem = s.mem ∧ (∀ acc i, el t acc i = el s acc i) ∧
      ∀ l n, vAt (thrAt (unitAt t o.unit) l) n =
        if l < 32 ∧ o.runMask.getLsbD l = true ∧ (thrAt (unitAt s o.unit) l).live = true ∧ (n = v ∨ n = v + 1) then
          el s o.acc (64 * row + l + (if n = v then 0 else 32))
        else vAt (thrAt (unitAt s o.unit) l) n)) ∧
    (∀ a, o.kind = .acst a →
      goesTo (.matrixOpEnd core) s (fun t => fin t ∧ t.mem = s.mem ∧ (∀ acc i, el t acc i = el s acc i) ∧
        sent t 256 (fun i => a + BitVec.ofNat 64 (64 * i)) (fun i => (List.range 64).map (fun b =>
          BitVec.ofNat 8 ((el s o.acc (16 * i + b / 4)).toNat / 2 ^ (8 * (b % 4))))))) ∧
    (∀ e d, o.kind = .acepi e d → e.m ≤ 64 → e.n ≤ 64 → e.dc.length = 5 → d.pk = false → d.fmt < 32 →
      goesTo (.matrixOpEnd core) s (fun t => fin t ∧ t.mem = s.mem ∧
        (∃ code : Nat → Nat,
          (∀ i m n a, (epilogueElems e d)[i]? = some (m, n, a) →
            epilogueCode e d.fmt (if e.bias = 0 then none else some (bytesToW32 (((o.bData.drop (4 * n)).take 4).map (BitVec.ofNat 8))))
              (el s o.acc (64 * m + n)) (code i)) ∧
          sent t (epilogueElems e d).length (fun i => ((epilogueElems e d).getD i (0, 0, 0)).2.2)
            (fun i => (List.range (if d.fmt = 0x1E then 4 else if d.fmt = 0x1C ∨ d.fmt = 0x1D then 2 else 1)).map (fun b =>
              BitVec.ofNat 8 (code i / 2 ^ (8 * b))))) ∧
        ∀ acc i, el t acc i = if acc = o.acc ∧ e.clr = true ∧ inTile e.m e.n i then 0 else el s acc i))) ∧
  (∀ core op s o a s1 cs, s.supervisor.freeze = false → (coreAt s core).matrix.find? (fun y => y.id == op) = some o → o.pin = .open →
    o.pages = [] → o.walked = true → s.boundary = [] → pointChanges s = false → unreleased s o.unit o.id = false → o.kind = .acld a →
    pinElems (opAgent s o) o (teamAt s o.team).ctx true ((lineChunks a.toNat 16384 257).map (fun c => some ⟨BitVec.ofNat 64 c.1, c.2, none⟩)) 0 s =
      (cs, s1, none) →
    goesTo (.operandPin core op) s (fun t => t.mem = s1.mem ∧
      ∀ y ∈ (coreAt t core).matrix, y.id = o.id → y.pin = .pinned ∧ y.bData = cs)) ∧
  (∀ (a : W64) (n : Nat) (bs : List Byte), elemCode ⟨a, n, none⟩ bs = bytesToNat bs) ∧
  (∀ core s o r, s.supervisor.freeze = false → (coreAt s core).flying = o :: r → spadGone s o.team = false →
    (coreAt s core).parts = [] → (coreAt s core).matrix.length < 4 → unreleased s o.unit o.id = false →
    goesTo (.gmmaPartArrival core) s (fun t => (coreAt t core).flying = r ∧ (coreAt t core).matrix = (coreAt s core).matrix ++ [o] ∧
      (coreAt t core).parts = [] ∧ t.mem = s.mem)) ∧
  (∀ core s o r id, s.supervisor.freeze = false → (coreAt s core).flying = o :: r → o.lane < 32 → spadGone s o.team = true → o.gangOp = some id →
    o.layer = [] → unreleased s o.unit o.id = false → 2 ≤ (tget {} s.gangOps id).left → (tget {} s.gangOps id).failed = none →
    goesTo (.gmmaPartArrival core) s (fun t => (∀ y ∈ (coreAt t core).flying, y.id ≠ o.id) ∧ t.mem = s.mem ∧
      ∃ y, tget {} t.gangOps id = { tget {} s.gangOps id with left := (tget {} s.gangOps id).left - 1, failed := some (o.rank, y) } ∧
        y.cause = .remoteGone ∧ y.team = o.index ∧ y.lane = o.lane ∧ y.group = o.unit.idx))

/-- A handle given to every thread of the run, with every other slot of the unit unchanged. -/
def Sys2Proof.Claims.handed (s t : State) (x : Ctx) (h slot : Nat) : Prop :=
  (unitAt t x.u).clause = (advance (unitAt s x.u)).clause ∧
  (∀ i, i ≠ slot → slotAt (unitAt t x.u) i = slotAt (unitAt s x.u) i) ∧
  ∀ l ∈ x.lanes, (thrAt (unitAt t x.u) l).lt = BitVec.ofNat 32 slot ∧
    (if x.cond then kAt (unitAt t x.u) h = BitVec.ofNat 64 slot else vAt (thrAt (unitAt t x.u) l) h = BitVec.ofNat 32 slot)

/-- An engine operation of the issuing team pending in a slot. -/
def Sys2Proof.Claims.pendingIn (s t : State) (x : Ctx) (h slot : Nat) (kind : FutKind) : Prop :=
  handed s t x h slot ∧
  (slotAt (unitAt t x.u) slot).state = .pending ∧ (slotAt (unitAt t x.u) slot).kind = kind ∧
  (teamAt t x.u.team).engineOps = (teamAt s x.u.team).engineOps + 1

/-- Rows of lanes appended to a wagon queue in their order, each with its lane, its slot, its bytes and its result address (09 R245). -/
def Sys2Proof.Claims.rowsTaken (s t : State) (x : Ctx) (b : WagonBinding) (n v slot : Nat) (lanes : List Nat) : Prop :=
  let reg (l i : Nat) : W32 := x.main l (v + i)
  ∃ rows : List WagonRow, rows.map (·.lane) = lanes ∧
    (wagonAt t n).departed.flatMap (·.rows) ++ (wagonAt t n).rows =
      (wagonAt s n).departed.flatMap (·.rows) ++ (wagonAt s n).rows ++ rows ∧
    ∀ w ∈ rows, w.unit = x.u ∧ w.slot = slot ∧ w.res = (reg w.lane (b.kb / 4 + 1)).toNat * 2 ^ 32 + (reg w.lane (b.kb / 4)).toNat ∧
      w.bytes = (List.range (b.kb / 4)).flatMap (fun i => natToBytes 4 (reg w.lane i).toNat)

/-- Whether a copy's whole destination range resolves (09 R239, R243). -/
def Sys2Proof.Claims.destFits (s : State) (x : Ctx) (gang : Bool) (b : CopyBlock) (n : Nat) : Prop :=
  if gang then ∀ m ∈ maskedMembers s x.t b.gmask, thas s.teams m.2 = true ∧ b.dst.toNat + n ≤ (teamAt s m.2).kernel.scratch
  else ∃ p, resolve s x.u x.lead .gen b.dst n = .ok p ∧ ∀ va, p = .glob va → va + n ≤ Config.globalLimit

/-- The words of the copy, wagon, geometry and articulation engines, and burst (09 R239-R250, R258). -/
def Obligations.EngineWordsAreAccepted : Prop :=
  (∀ i v q gang, (i = .copy v q ∧ gang = false ∨ i = .gcopy v q ∧ gang = true) →
    ∀ (s : State) (x : Ctx) (slot : Nat) (r : List Nat) (bb : List Byte) (s1 : State) (sb : List Byte) (s2 : State), issues i s x →
    freeSlots x.g = slot :: r →
    let off : W64 := (x.uni q).setWidth 64
    let b := parseCopy off.toNat bb
    let st := parseStencil b.src.toNat sb
    recordIs s x .spad off bb s1 → recordIs s1 x .gen b.src sb s2 →
    copySub (if gang then some (gangMembers s2 x.t).length else none) b st = none → stencilSub s2 x.t.ctx st (copyUse b) = none →
    (st.pk = true → b.dst.toNat % 64 = 0) → st.base.toNat % 64 = 0 →
    destFits s2 x gang b ((b.cnt1 - 1) * b.pitch + rowBytes st b.cnt0) → quiet s2 x.u = true → (coreAt s2 x.t.core).copies.length < Config.copyEntries →
    goesTo i s (fun t => pendingIn s2 t x v.toNat slot .copy ∧ ∃ j : CopyJob,
      t.mem = (acceptCopy (fresh (releaseStep s2 x.t.core)).2 x.t.core { j with promise := 0, pages := [] }).1.mem ∧
      (coreAt t x.t.core).copies = (coreAt s2 x.t.core).copies ++ [j] ∧
      j.src = st ∧ j.coords = b.coords ∧ j.cnt0 = b.cnt0 ∧ j.cnt1 = b.cnt1 ∧ j.pitch = b.pitch ∧ j.dst = b.dst ∧ j.owner = .future x.u slot ∧
      j.started = false ∧ j.gang = gang ∧ j.members = (if gang then (maskedMembers s2 x.t b.gmask).map (·.2) else []) ∧
      j.promise = clusterCyc s2 (x.t.core / 8) + ((coreAt s2 x.t.core).copies.map (fun k => k.promise - clusterCyc s2 (x.t.core / 8))).sum +
        (b.cnt1 * rowBytes st b.cnt0 * Nat.max 1 j.members.length + 31) / 32 + s2.policy.copyMargin ∧
      (slotAt (unitAt t x.u) slot).promise = j.promise ∧
      ∀ l ∈ x.lanes, if x.cond then kAt (unitAt t x.u) (v.toNat + 1) = BitVec.ofNat 64 (j.promise % 2 ^ 32)
        else vAt (thrAt (unitAt t x.u) l) (v.toNat + 1) = BitVec.ofNat 32 j.promise)) ∧
  (∀ (v : VIdx) (q : SIdx) (h : VIdx) (s : State) (x : Ctx) (slot : Nat) (r : List Nat) (bs : List Byte) (s1 : State), issues (.geo v q h) s x →
    freeSlots x.g = slot :: r →
    let off : W64 := (x.uni q).setWidth 64
    let b := recBits bs
    let c := x.t.core / 8
    recordIs s x .spad off bs s1 → bitsAt b 511 131 = 0 → bitsAt b 130 128 ≤ 3 → bitsAt b 63 0 < Config.globalLimit → bitsAt b 63 0 % 64 = 0 →
    bitsAt b 127 64 < Config.globalLimit → bitsAt b 127 64 % 64 = 0 → quiet s1 x.u = true → (clusterAt s1 c).geo.length < Config.engineEntries →
    goesTo (.geo v q h) s (fun t => pendingIn s1 t x h.toNat slot .geometry ∧ ∃ j, (clusterAt t c).geo = (clusterAt s1 c).geo ++ [j] ∧
      t.mem = (ownRange (fresh (releaseStep s1 x.t.core)).2 (firstCore c) x.t.ctx j.id agentGeo
        (x.lanes.map (fun l => (bitsAt b 127 64 + 16 * l, 16)))).1.mem ∧ j.owner = .future x.u slot ∧ j.octRoot = BitVec.ofNat 64 (bitsAt b 63 0) ∧ j.res = BitVec.ofNat 64 (bitsAt b 127 64) ∧
      j.qtype = bitsAt b 130 128 ∧ j.started = false ∧ j.queries.map (·.lane) = x.lanes ∧
      ∀ g ∈ j.queries, g.p0 = [x.main g.lane v.toNat, x.main g.lane (v.toNat + 1), x.main g.lane (v.toNat + 2)] ∧
        g.p1 = [x.main g.lane (v.toNat + 3), x.main g.lane (v.toNat + 4), x.main g.lane (v.toNat + 5)] ∧
        g.r = x.main g.lane (v.toNat + 6) ∧ g.tag = x.main g.lane (v.toNat + 7))) ∧
  (∀ (q : SIdx) (h : VIdx) (s : State) (x : Ctx) (slot : Nat) (r : List Nat) (bs : List Byte) (s1 s3 : State) (nv : Nat), issues (.art q h) s x →
    freeSlots x.g = slot :: r →
    let off : W64 := (x.uni q).setWidth 64
    let job := artJobOf (recBits bs)
    let c := x.t.core / 8
    recordIs s x .spad off bs s1 → artBlockOk (recBits bs) = true →
    (∀ a ∈ [job.model, job.input, job.out], a.toNat < Config.globalLimit ∧ a.toNat % 64 = 0) →
    quiet s1 x.u = true → (clusterAt s1 c).art.length < Config.engineEntries →
    artNv (releaseStep s1 x.t.core) (some (engineAgent c)) x.t.ctx job.model.toNat = .ok s3 nv →
    goesTo (.art q h) s (fun t => pendingIn s3 t x h.toNat slot .articulation ∧ ∃ j, (clusterAt t c).art = (clusterAt s3 c).art ++ [j] ∧
      t.mem = (ownRange (fresh s3).2 (firstCore c) x.t.ctx j.id agentArt (pieces job.out.toNat (4 * outCount job.job nv))).1.mem ∧ j.owner = .future x.u slot ∧ j.model = job.model ∧ j.input = job.input ∧ j.out = job.out ∧ j.job = job.job ∧ j.budget = job.budget ∧
      j.pivth = job.pivth ∧ j.reg = job.reg ∧ j.damp = job.damp ∧ j.ownedNv = some nv ∧ j.started = false ∧ j.elapsed = 0)) ∧
  (∀ i q s x, (∃ v, i = .copy v q ∨ i = .gcopy v q ∨ ∃ h, i = .geo v q h ∨ i = .art q h) → issues i s x → freeSlots x.g = [] →
    exec i s = .next (trapDeliver s x.u (mkRec s x.u x.pc x.cl.head .operandLimit 4 x.cl.mask 0))) ∧
  (∀ (v : VIdx) (q : SIdx) (h : VIdx) (s : State) (x : Ctx) (b : WagonBinding) (slot : Nat) (r : List Nat), issues (.wpush v q h) s x →
    let n := (x.uni q).toNat
    let reg (l i : Nat) : W32 := x.main l (v.toNat + i)
    let res (l : Nat) : Nat := (reg l (b.kb / 4 + 1)).toNat * 2 ^ 32 + (reg l (b.kb / 4)).toNat
    x.g.pushing = none → n < 64 → (wagonAt s n).binding = some b → b.pctx = x.t.ctx → Sys2Proof.Machine.pushFits x b.kb v h = true → freeSlots x.g = slot :: r →
    (∀ l ∈ x.lanes, res l % 16 = 0 ∧ res l < Config.globalLimit) →
    (domainSet s x.u = true → goesTo (.wpush v q h) s (fun t => onlyUnit s t x.u ∧ handed s t x h.toNat slot ∧
      (slotAt (unitAt t x.u) slot).state = .complete ∧ (slotAt (unitAt t x.u) slot).kind = .wagon ∧
      ∀ l ∈ x.lanes, slotStatus (slotAt (unitAt t x.u) slot) l = (1, 0))) ∧
    (domainSet s x.u = false → quiet s x.u = true → undeparted (wagonAt s n) + x.lanes.length ≤ Config.wagonRows →
      goesTo (.wpush v q h) s (fun t => handed s t x h.toNat slot ∧
        t.mem = (x.lanes.foldl (pushRow x b n v.toNat slot) (pushSlot (releaseStep s x.t.core) x slot false)).mem ∧
        (slotAt (unitAt t x.u) slot).state = .pending ∧ (slotAt (unitAt t x.u) slot).kind = .wagon ∧
        (teamAt t x.u.team).engineOps = x.t.engineOps + x.lanes.length ∧
        rowsTaken s t x b n v.toNat slot x.lanes))) ∧
  (∀ (v : VIdx) (q : SIdx) (h : VIdx) (s : State) (x : Ctx) (b : WagonBinding) (slot : Nat) (ls : List Nat), issues (.wpush v q h) s x →
    let n := (x.uni q).toNat
    x.g.pushing = some (slot, ls) → (wagonAt s n).binding = some b → b.pctx = x.t.ctx → domainSet s x.u = false →
    (ls ≠ [] → Config.wagonRows ≤ undeparted (wagonAt s n) → goesTo (.wpush v q h) s (fun t => onlyUnit s t x.u ∧ unitAt t x.u = x.g)) ∧
    (undeparted (wagonAt s n) + ls.length ≤ Config.wagonRows → goesTo (.wpush v q h) s (fun t => handed s t x h.toNat slot ∧
      (unitAt t x.u).pushing = none ∧ t.mem = (ls.foldl (pushRow x b n v.toNat slot) s).mem ∧
      (teamAt t x.u.team).engineOps = x.t.engineOps + ls.length ∧ rowsTaken s t x b n v.toNat slot ls))) ∧
  (∀ q s x b, issues (.wflush q) s x →
    let n := (x.uni q).toNat
    n < 64 → (wagonAt s n).binding = some b → b.pctx = x.t.ctx → goesTo (.wflush q) s (fun t =>
      unitAt t x.u = advance x.g ∧ t.mem = s.mem ∧ (wagonAt t n).rows = [] ∧
      (wagonAt t n).departed.map (·.rows) = (wagonAt s n).departed.map (·.rows) ++ (if (wagonAt s n).rows = [] then [] else [(wagonAt s n).rows]))) ∧
  (∀ i q s x, (i = .wflush q ∨ x.g.pushing = none ∧ ∃ v h, i = .wpush v q h) → issues i s x → 64 ≤ (x.uni q).toNat →
    exec i s = .next (trapDeliver s x.u (mkRec s x.u x.pc x.cl.head .illegal 0 x.cl.mask 0))) ∧
  (∀ q s x, issues (.wflush q) s x → (x.uni q).toNat < 64 → (∀ b, (wagonAt s (x.uni q).toNat).binding = some b → b.pctx ≠ x.t.ctx) →
    exec (.wflush q) s = .next (trapDeliver s x.u (mkRec s x.u x.pc x.cl.head .accessViolation 6 x.cl.mask 0))) ∧
  (∀ q s x, issues (.burst q) s x →
    let n := (x.uni q).toNat % 65536
    let c := x.t.core / 8
    (n = 0 → goesTo (.burst q) s (fun t => (unitAt t x.u) = advance x.g ∧ (coreAt t x.t.core).purse.burst = 0 ∧ t.mem = s.mem)) ∧
    (n ≠ 0 → goesTo (.burst q) s (fun t => (unitAt t x.u) = advance x.g ∧ t.mem = s.mem ∧
      (coreAt t x.t.core).purse.burst = Nat.min n 64 ∧ (coreAt t x.t.core).purse.burstTeam = x.u.team ∧
      ∃ f, f ∈ (clusterAt t c).requests ∧ f.core = x.t.core ∧ f.fares = Nat.min n 64 ∧ f.ctx = x.t.ctx ∧ f.burstReq = true ∧
        ∀ y ∈ (clusterAt t c).requests, y.burstReq = true → y.core = x.t.core → y = f)))

/-- The ERR that one lane reads: a wagon slot has one for each lane, 0 for a lane without a row (09 R251). -/
def Sys2Proof.Claims.errOf (f : FutSlot) (l : Nat) : Nat :=
  if f.kind = .wagon then (match tget? f.rows l with
    | some r => r.err
    | none => 0) else f.err

/-- The status word of 09 R251 as one lane reads it. -/
def Sys2Proof.Claims.statusOf (f : FutSlot) (l : Nat) : W32 :=
  let detail : Nat := if f.kind = .wagon then (match tget? f.rows l with
    | some _ => 0
    | none => 0xFFFF) else f.detail.toNat
  BitVec.ofNat 32 (f.state.code * 2 ^ 30 + f.kind.code * 2 ^ 26 + errOf f l % 256 * 2 ^ 16 + detail)

/-- The slot a word names (09 R252). -/
def Sys2Proof.Claims.namesSlot (x : Ctx) (r : SlotRef) (i : Nat) : Prop :=
  (∃ n, r = .imm n ∧ i = n.toNat) ∨ ∃ q m, r = .reg q m ∧ i = (x.uni q).toNat ∧ i < 16

/-- Two values for each thread of the run, one in vN (kN in a conductor clause) and one in lt. -/
def Sys2Proof.Claims.bothWritten (s t : State) (x : Ctx) (v : Nat) (a b : Nat → W32) : Prop :=
  onlyUnit s t x.u ∧ onlyThreads x.g (unitAt t x.u) ∧ (∀ l, l ∉ x.lanes → thrAt (unitAt t x.u) l = x.thr l) ∧
  ∀ l ∈ x.lanes,
    thrAt (unitAt t x.u) l = { x.thr l with lt := b l, v := (thrAt (unitAt t x.u) l).v } ∧
    (x.cond = false → ∀ n, vAt (thrAt (unitAt t x.u) l) n = if n = v then a l else vAt (x.thr l) n) ∧
    (x.cond = true → x.lanes = [l] → ∀ n, kAt (unitAt t x.u) n = if n = v then (a l).setWidth 64 else kAt x.g n)

/-- A layer that a word names (09 R255). -/
def Sys2Proof.Claims.namesLayer (s : State) (x : Ctx) (q : SIdx) (slot layer : Nat) (m : ModelSlot) : Prop :=
  (x.uni q).toNat = slot * 2 ^ 16 + layer ∧ slot < 16 ∧ layer < 1024 ∧ modelAt s x.t.ctx slot = some m ∧ m.closing = false ∧ layer < m.count

/-- A request of a layer is made: it waits with the layer's other requests, for placement where the layer has to be loaded first; while
the pinned-way count changes it is held (14 R314, R320). -/
def Sys2Proof.Claims.asked (s t : State) (k : Nat) (w : LayerWaiter) : Prop :=
  (s.waysHeld = none → (layerAt t k).waiters = (layerAt s k).waiters ++ [w] ∧ (layerAt t k).phase = (layerAt s k).phase ∧
    (pinnable s (layerAt s k) = true → (layerAt s k).phase ≠ .resident → (layerAt s k).phase ≠ .loading → (layerAt t k).waiting = true)) ∧
  (s.waysHeld ≠ none → t.layerHeld = s.layerHeld ++ [(k, w)] ∧ layerAt t k = layerAt s k)

/-- A pending slot no run waits on. -/
def Sys2Proof.Claims.openSlot (s : State) (u : UnitId) (slot : Nat) : Prop :=
  (slotAt (unitAt s u) slot).state = .pending ∧ (slotAt (unitAt s u) slot).dropped = false ∧
  ∀ b ∈ (unitAt s u).blocked, ∀ v n, b.wait ≠ .fwait v slot n

/-- A slot completed with an ERR. -/
def Sys2Proof.Claims.endedWith (t : State) (u : UnitId) (slot err : Nat) : Prop :=
  (slotAt (unitAt t u) slot).state = .complete ∧ (slotAt (unitAt t u) slot).err = err

/-- A word that stands in its place in a clause with the flag it needs, so that its ILLEGAL comes next (06 R143). -/
def Sys2Proof.Claims.reaches (i : Instr) (s : State) (x : Ctx) : Prop :=
  issuing s = some x ∧ inBody x.cl = true ∧ placedOk x.cl (infoOf i).place = true ∧ flagChosen x.cl (infoOf i) = true

/-- The ILLEGAL of a word, for every thread of its run. -/
def Sys2Proof.Claims.trapsIllegal (i : Instr) (s : State) (x : Ctx) : Prop :=
  exec i s = .next (trapDeliver s x.u (mkRec s x.u x.pc x.cl.head .illegal 0 x.cl.mask 0))

/-- Majors 0x39 and 0x3A (09 R251-R257). That the request of a resident layer is answered as the front-end cycle ends is the model's
reading (log 47). -/
def Obligations.FuturesAndLeases : Prop :=
  (∀ v noerr r s x i l m, issues (.fwait v noerr r) s x → namesSlot x r i → x.g.windDown = false → x.lanes = l :: m →
    let f := slotAt x.g i
    let seen (t : State) : State := if f.state = .complete ∧ (f.kind = .grid ∨ f.kind = .graph) then acquireStep t x.t.core else t
    (domainSet s x.u = true → goesTo (.fwait v noerr r) s (fun t =>
      ∃ t0, bothWritten s t0 x v.toNat (statusOf f) (fun _ => 1) ∧ endsAs x (seen t0) t)) ∧
    (domainSet s x.u = false → f.state ≠ .free → f.dropped = false →
      ((gridAt s f.link).cls ≤ 1 ∨ f.kind ≠ .grid ∧ f.kind ≠ .graph) →
      (f.state = .complete → (noerr = true ∨ ∀ y ∈ l :: m, errOf f y < 2 ∨ errOf f y = 6) →
        goesTo (.fwait v noerr r) s (fun t => ∃ t0, bothWritten s t0 x v.toNat (statusOf f) (fun l => BitVec.ofNat 32 (errOf f l)) ∧
          endsAs x (seen t0) t)) ∧
      (f.state = .complete → noerr = false → ∀ a r0 c, (l :: m).filter (fun y => decide (2 ≤ errOf f y ∧ errOf f y ≠ 6)) = a :: r0 →
        (c = .deadlineMiss ∧ errOf f a = 2 ∨ c = .eccUncorrectable ∧ errOf f a = 4 ∨ c = .layerFault ∧ errOf f a = 5 ∨
          c = .remoteGone ∧ errOf f a = 8 ∨ c = .engineError ∧ errOf f a ∉ [2, 4, 5, 8]) →
        exec (.fwait v noerr r) s = .next (trapDeliver (seen s) x.u
          { mkRec s x.u x.pc x.cl.head c 0 (laneMask (a :: r0)) f.failAddr with lane := a, detail := statusOf f a })) ∧
      (f.state = .pending → goesTo (.fwait v noerr r) s (fun t => t.mem = s.mem ∧
        blocksOn x s.nextUid (.fwait v.toNat i noerr) x.lanes 0 (unitAt t x.u)))) ∧
    (domainSet s x.u = false → f.state ≠ .free → f.dropped = false → (f.kind = .grid ∨ f.kind = .graph) → 1 < (gridAt s f.link).cls →
      exec (.fwait v noerr r) s = .next (trapDeliver s x.u (mkRec s x.u x.pc x.cl.head .illegalWait 0 x.cl.mask 0))) ∧
    (domainSet s x.u = false → (f.state = .free ∨ f.dropped = true) → trapsIllegal (.fwait v noerr r) s x)) ∧
  (∀ v noerr q z s x l m, issues (.fwait v noerr (.reg q z)) s x → x.g.windDown = false → x.lanes = l :: m → domainSet s x.u = false →
    16 ≤ (x.uni q).toNat → trapsIllegal (.fwait v noerr (.reg q z)) s x) ∧
  (∀ v r s x i, issues (.ftest v r) s x → namesSlot x r i →
    let f := slotAt x.g i
    goesTo (.ftest v r) s (fun t => ∃ t0, bothWritten s t0 x v.toNat (statusOf f) (fun _ => if f.state = .pending then 1 else 2) ∧
      t = (if f.state = .complete ∧ (f.kind = .grid ∨ f.kind = .graph) then acquireStep t0 x.t.core else t0))) ∧
  (∀ r s x i, issues (.fdrop r) s x → namesSlot x r i → (slotAt x.g i).state ≠ .free → (slotAt x.g i).dropped = false →
    goesTo (.fdrop r) s (fun t => onlyUnit s t x.u ∧ unitAt t x.u = { advance x.g with futures := (unitAt t x.u).futures } ∧
      ∀ j, slotAt (unitAt t x.u) j =
        if j = i then (if (slotAt x.g i).state = .complete then {} else { slotAt x.g i with dropped := true }) else slotAt x.g j)) ∧
  (∀ i r s x, (i = .fdrop r ∧ issues i s x ∨ ∃ v, i = .ftest v r ∧ reaches i s x) →
    ((∃ n, namesSlot x r n ∧ ((slotAt x.g n).state = .free ∨ (slotAt x.g n).dropped = true)) ∨ ∃ q m, r = .reg q m ∧ 16 ≤ (x.uni q).toNat) →
    trapsIllegal i s x) ∧
  (∀ v q noerr s x slot layer m, issues (.lacq v q noerr) s x → namesLayer s x q slot layer m →
    let k := x.t.ctx * 16384 + slot * 1024 + layer
    let w : LayerWaiter := .flag x.u x.cl.mask v.toNat x.cl.setA noerr x.pc x.cl.head
    goesTo (.lacq v q noerr) s (fun t =>
      t.mem = s.mem ∧ (unitAt t x.u).clause = (advance x.g).clause ∧ (unitAt t x.u).threads = x.g.threads ∧ (unitAt t x.u).k = x.g.k ∧
      (∀ j, tget 0 (unitAt t x.u).flags j = tget 0 x.g.flags j + (if x.cl.setA = some j then 1 else 0)) ∧
      (teamAt t x.u.team).layerCounts = x.t.layerCounts ∧ (teamAt t x.u.team).engineOps = x.t.engineOps + 1 ∧ asked s t k w)) ∧
  (∀ v q s x slot layer m i r, issues (.lacqFut v q) s x → namesLayer s x q slot layer m → freeSlots x.g = i :: r →
    let k := x.t.ctx * 16384 + slot * 1024 + layer
    goesTo (.lacqFut v q) s (fun t =>
      t.mem = s.mem ∧ handed s t x v.toNat i ∧ (slotAt (unitAt t x.u) i).state = .pending ∧ (slotAt (unitAt t x.u) i).kind = .layer ∧
      (teamAt t x.u.team).layerCounts = x.t.layerCounts ∧ (teamAt t x.u.team).engineOps = x.t.engineOps + 1 ∧ asked s t k (.future x.u i))) ∧
  (∀ s k l u w, s.supervisor.freeze = false → (∀ e ∈ allLayers s, e.2.due = false) → layerAt s k = l → l.waiters = [w] →
    (allLayers s).filter (fun e => decide (e.2.waiters ≠ []) && !e.2.waiting && (!pinnable s e.2 || e.2.phase == .resident)) = [(k, l)] →
    thas s.teams u.team = true → (teamAt s u.team).stopped = false → thas (teamAt s u.team).units u.idx = true → (unitAt s u).retired = false →
    let t := layerTick s
    let answered : Prop := t.mem = s.mem ∧ (layerAt t k).waiters = [] ∧ (teamAt t u.team).engineOps = (teamAt s u.team).engineOps - 1 ∧
      ∀ j, tget 0 (teamAt t u.team).layerCounts j = tget 0 (teamAt s u.team).layerCounts j + (if j = k then 1 else 0)
    (∀ run v f noerr pc cs, w = .flag u run v f noerr pc cs → answered ∧
      (∀ j, tget 0 (unitAt t u).flags j = tget 0 (unitAt s u).flags j - (if f = some j then 1 else 0)) ∧
      (isCond u = true → ∀ n, n ≠ v → kAt (unitAt t u) n = kAt (unitAt s u) n) ∧
      (isCond u = true → run.getLsbD 0 = true → (thrAt (unitAt s u) 0).live = true → kAt (unitAt t u) v = 0) ∧
      ∀ y n, vAt (thrAt (unitAt t u) y) n =
        if isCond u = false ∧ n = v ∧ y < 32 ∧ run.getLsbD y = true ∧ (thrAt (unitAt s u) y).live = true then 0 else vAt (thrAt (unitAt s u) y) n) ∧
    (∀ i, w = .future u i → openSlot s u i → answered ∧ endedWith t u i 0)) ∧
  (∀ q s x slot layer m, issues (.lrel q) s x → namesLayer s x q slot layer m →
    let k := x.t.ctx * 16384 + slot * 1024 + layer
    let n := tget 0 x.t.layerCounts k
    (n = 0 → exec (.lrel q) s = .next (setUnit s x.u (advance x.g))) ∧
    (n ≠ 0 → goesTo (.lrel q) s (fun t => t.mem = s.mem ∧ unitAt t x.u = advance x.g ∧
      ∀ j, tget 0 (teamAt t x.u.team).layerCounts j = if j = k then n - 1 else tget 0 x.t.layerCounts j))) ∧
  (∀ v q s x slot layer m, issues (.ltest v q) s x → namesLayer s x q slot layer m →
    let k := x.t.ctx * 16384 + slot * 1024 + layer
    let y := layerAt s k
    let n := tget 0 x.t.layerCounts k
    let w : W32 := BitVec.ofNat 32 ((if pinnable s y = false ∨ y.phase = .resident then 1 else 0) + (if n ≠ 0 then 2 else 0) +
      (if pinnable s y = true ∧ y.phase = .loading then 4 else 0) + (if pinnable s y = true ∧ y.phase = .failed then 8 else 0) + Nat.min n 255 * 256)
    goesTo (.ltest v q) s (fun t => bothWritten s t x v.toNat (fun _ => w) (fun _ => w))) ∧
  (∀ i q s x, (i = .lrel q ∧ issues i s x ∨ ∃ v, (i = .ltest v q ∨ i = .lacqFut v q ∨ ∃ n, i = .lacq v q n) ∧ reaches i s x) →
    let w := (x.uni q).toNat
    (w / 2 ^ 10 % 2 ^ 6 ≠ 0 ∨ w / 2 ^ 20 ≠ 0) → trapsIllegal i s x) ∧
  (∀ i q s x, (i = .lrel q ∨ ∃ v, i = .ltest v q ∨ i = .lacqFut v q ∨ ∃ n, i = .lacq v q n) → issues i s x →
    let w := (x.uni q).toNat
    (w / 2 ^ 10 % 2 ^ 6 = 0 → w / 2 ^ 20 = 0 → freeSlots x.g ≠ [] →
      (∀ m, modelAt s x.t.ctx (w / 2 ^ 16 % 16) = some m → m.closing = true ∨ m.count ≤ w % 1024) →
      exec i s = .next (trapDeliver s x.u (mkRec s x.u x.pc x.cl.head .accessViolation 6 x.cl.mask 0))))

/-- The events of the engines and of model residency (09 R242, R246, 10 R267, R278, 14 R315-R320). The model's choices: a copy is read and
written in one move (log 25), a failed translation fails a layer (log 26), a row of an articulation job takes 16 cycles (logs 32, 46), engine
work and layer loads may cross any boundary (log 46), and victims are evicted as the front-end cycle ends (log 47). -/
def Obligations.EngineJobsRunToTheirEnds : Prop :=
  (∀ core s j r s1, s.supervisor.freeze = false → (coreAt s core).copies = j :: r → j.started = false → jobCancelled s j.grid = false →
    j.pages = [] → s.boundary = [] → pointChanges s = false → nodeFresh s j.owner = false → unreleasedJob s j.owner j.id = false →
    paid s (copyPayers s core j) j.id = true → ownDest (copyAgent core) agentCopy core s j = (s1, []) →
    goesTo (.copyStart core) s (fun t => t.mem = s1.mem ∧ ∃ j' r', (coreAt t core).copies = j' :: r' ∧ j'.id = j.id ∧ j'.started = true)) ∧
  (∀ core s j r u slot s1 data s2, s.supervisor.freeze = false → (coreAt s core).copies = j :: r → j.started = true → j.pages = [] →
    j.owner = .future u slot → openSlot s u slot → readCopy (fun _ => false) (settleOwned s) j (copyIndex j) = .ok s1 data none →
    writeCopy (fun _ => false) j data s1 (destPieces j) = .done s2 none → s.linkHeld = [] →
    goesTo (.copyComplete core) s (fun t => t.mem = s2.mem ∧ endedWith t u slot 0 ∧ ∀ y ∈ (coreAt t core).copies, y.id ≠ j.id)) ∧
  (∀ c s j r s1 s2 bs oct, s.supervisor.freeze = false → (clusterAt s c).geo = j :: r → j.started = false → j.root = [] →
    jobCancelled s j.grid = false → j.pages = [] → s.boundary = [] → pointChanges s = false → unreleasedJob s j.owner j.id = false → paid s [8 * c] j.id = true →
    ownRange s (8 * c) j.ctx j.id agentGeo (geoPieces j) = (s1, []) → s.linkHeld = [] →
    engRead (modGeo s1 c j.id (fun y => { y with started := true })) (some (engineAgent c)) j.ctx j.id (pieces j.octRoot.toNat 64) = .ok s2 bs →
    (parseRoot bs = some oct → goesTo (.geoJobStart c) s (fun t => t.mem = s2.mem ∧ ∃ j' r', (clusterAt t c).geo = j' :: r' ∧ j'.id = j.id ∧
      j'.started = true ∧ j'.root = bs)) ∧
    (parseRoot bs = none → ∀ u slot, j.owner = .future u slot → openSlot s u slot →
      goesTo (.geoJobStart c) s (fun t => endedWith t u slot 10 ∧ ∀ y ∈ (clusterAt t c).geo, y.id ≠ j.id))) ∧
  (∀ c s j r oct s1 ws s2 bs u slot, s.supervisor.freeze = false → (clusterAt s c).geo = j :: r → j.started = true → j.pages = [] →
    j.root ≠ [] → s.linkHeld = [] → parseRoot j.root = some oct → runQueries s c j oct j.queries = .inr (some (s1, ws)) → engPlaces s1 (some (engineAgent c)) j.ctx j.id ws = .ok s2 bs →
    j.owner = .future u slot → openSlot s u slot →
    goesTo (.geoJobComplete c) s (fun t => t.mem = (engineWrite s2 bs).mem ∧ endedWith t u slot 0 ∧ ∀ y ∈ (clusterAt t c).geo, y.id ≠ j.id)) ∧
  (∀ c s j r u slot, s.supervisor.freeze = false → (clusterAt s c).art = j :: r → j.started = false →
    (j.judged = true ∨ jobCancelled s j.grid = false) → s.linkHeld = [] → j.owner = .future u slot → openSlot s u slot →
    (j.judged = false → j.budget ≤ j.elapsed → goesTo (.artJobStart c) s (fun t => endedWith t u slot 2 ∧ ∀ y ∈ (clusterAt t c).art, y.id ≠ j.id)) ∧
    ((j.judged = true ∨ j.elapsed < j.budget) → j.pages = [] → s.boundary = [] → pointChanges s = false → unreleased s u j.id = false → paid s [8 * c] j.id = true →
      (∀ e a sub, j.acceptErr = some (e, a, sub) →
        goesTo (.artJobStart c) s (fun t => endedWith t u slot e ∧ ∀ y ∈ (clusterAt t c).art, y.id ≠ j.id)) ∧
      (∀ s1 s2 s3 s4 hd body inp nj m, j.acceptErr = none →
        ownRange (modArt s c j.id (fun y => { y with judged := true })) (8 * c) j.ctx j.id agentArt (artOut j) = (s1, []) →
        engRead s1 (some (engineAgent c)) j.ctx j.id (pieces j.model.toNat 64) = .ok s2 hd → headerOk (recBits hd) = some nj →
        engRead s2 (some (engineAgent c)) j.ctx j.id (pieces (j.model.toNat + 64) (128 * nj)) = .ok s3 body →
        (parseModel (hd ++ body) = none → goesTo (.artJobStart c) s (fun t => endedWith t u slot 10 ∧ ∀ y ∈ (clusterAt t c).art, y.id ≠ j.id)) ∧
        (parseModel (hd ++ body) = some m → j.ownedNv = some (nvOf m.joints) →
          engRead s3 (some (engineAgent c)) j.ctx j.id (pieces j.input.toNat (4 * inCount j.job (nqOf m.joints) (nvOf m.joints))) = .ok s4 inp →
          ((valuesOf inp (inCount j.job (nqOf m.joints) (nvOf m.joints))).all finite32 = true →
            goesTo (.artJobStart c) s (fun t => t.mem = s4.mem ∧ ∃ j' r', (clusterAt t c).art = j' :: r' ∧ j'.id = j.id ∧ j'.started = true ∧
              j'.judged = false ∧ j'.began = j'.elapsed ∧ j'.data = (hd ++ body, inp))) ∧
          ((valuesOf inp (inCount j.job (nqOf m.joints) (nvOf m.joints))).all finite32 = false →
            goesTo (.artJobStart c) s (fun t => endedWith t u slot 10 ∧ ∀ y ∈ (clusterAt t c).art, y.id ≠ j.id)))))) ∧
  (∀ c s j r u slot, s.supervisor.freeze = false → (clusterAt s c).art = j :: r → j.started = true → j.owner = .future u slot →
    openSlot s u slot → s.linkHeld = [] →
    (∀ m, parseModel j.data.1 = some m → artBoundary j m = true → j.judged = false → j.budget ≤ j.elapsed → goesTo (.artBudgetExpiry c) s (fun t => t.mem = s.mem ∧ endedWith t u slot 2 ∧ ∀ y ∈ (clusterAt t c).art, y.id ≠ j.id)) ∧
    (∀ m s1 ws, (j.judged = true ∨ j.elapsed < j.budget) → j.pages = [] → parseModel j.data.1 = some m → j.began + 16 * rowCount j.job m ≤ j.elapsed →
      let o := jobOutcome j m
      engPlaces s (some (engineAgent c)) j.ctx j.id (dataPieces j.out.toNat (o.1.flatMap (fun w => natToBytes 4 w.toNat))) = .ok s1 ws →
      goesTo (.artJobComplete c) s (fun t => t.mem = (engineWrite s1 ws).mem ∧ endedWith t u slot o.2.1 ∧
        (slotAt (unitAt t u) slot).detail = o.2.2 ∧ ∀ y ∈ (clusterAt t c).art, y.id ≠ j.id))) ∧
  (∀ q s b row rest, s.supervisor.freeze = false → (wagonAt s q).binding = some b → (wagonAt s q).rows = row :: rest → b.age ≤ row.age →
    unreleased s row.unit row.op = false →
    goesTo (.wagonAgeLimit q) s (fun t => t.mem = s.mem ∧ (wagonAt t q).rows = [] ∧
      (wagonAt t q).departed.map (·.rows) = (wagonAt s q).departed.map (·.rows) ++ [row :: rest])) ∧
  (∀ q s b d i s1 ws, s.supervisor.freeze = false → (wagonAt s q).binding = some b →
    (wagonAt s q).departed.find? (fun d => d.tile.isSome && d.grid.isNone) = some d → d.tile = some i →
    (ctxAt s b.mctx).phase ≠ .stopped → (ctxAt s b.mctx).phase ≠ .free → (ctxAt s b.mctx).expired = false → poolFull s = false →
    s.boundary = [] → pointChanges s = false → (∀ y ∈ d.rows, unreleased s y.unit y.op = false) →
    engPlaces s none b.mctx 0 (dataPieces (tileAt b i) (tileData b d)) = .ok s1 ws →
    goesTo (.wagonTaskCreate q) s (fun t => t.mem = (engineWrite s1 ws).mem ∧ ∃ uid, t.readyPool = s.readyPool ++ [uid] ∧
      (gridAt t uid).kind = .wagonTask ∧ (gridAt t uid).ctx = b.mctx ∧ (gridAt t uid).kernel = b.entry ∧ (gridAt t uid).origin = .wagon q d.id ∧
      (gridAt t uid).args = [BitVec.ofNat 32 (tileAt b i), BitVec.ofNat 32 (tileAt b i / 2 ^ 32), BitVec.ofNat 32 (tileAt b i + b.nrow * 128),
        BitVec.ofNat 32 ((tileAt b i + b.nrow * 128) / 2 ^ 32), BitVec.ofNat 32 b.nrow, BitVec.ofNat 32 d.rows.length, BitVec.ofNat 32 q, 0] ∧
      ∀ y ∈ (wagonAt t q).departed, y.id = d.id → y.grid = some uid)) ∧
  (∀ ctx slot layer s s1 ls vs, s.supervisor.freeze = false → s.waysHeld = none → slot < 16 → layer < 1024 →
    let k := ctx * 16384 + slot * 1024 + layer
    (layerAt s k).waiting = true → (layerAt s k).page = none → loading s < Config.layerLoads →
    (∀ e ∈ allLayers s, e.2.waiting = true → e.1 ≠ k → loadBefore s e.1 k = true → placeWaits s e.1 = true) → s.boundary = [] →
    pointChanges s = false → placement s k = (.ok s1 ls, .start vs) →
    (vs = [] → goesTo (.layerPlacement ctx slot layer) s (fun t =>
      t.mem = s1.mem ∧ (layerAt t k).phase = .loading ∧ (layerAt t k).waiting = false ∧ (layerAt t k).sets = setsOf ls)) ∧
    (vs ≠ [] → goesTo (.layerPlacement ctx slot layer) s (fun t => layerAt t k = { layerAt s k with due := true } ∧
      ∀ v, v ≠ k → layerAt t v = layerAt s v))) ∧
  (∀ s k l s1 ls vs, s.supervisor.freeze = false → s.waysHeld = none → layerAt s k = l → l.waiting = true → l.page = none →
    loading s < Config.layerLoads → (allLayers s).filter (fun e => e.2.due) = [(k, l)] →
    (∀ e ∈ allLayers s, e.2.waiters = [] ∨ e.2.waiting = true ∨ pinnable s e.2 = true ∧ e.2.phase ≠ .resident) →
    placement (modLayer s k (fun l => { l with due := false })) k = (.ok s1 ls, .start vs) → k ∉ vs →
    (layerTick s).mem = s1.mem ∧ (layerAt (layerTick s) k).phase = .loading ∧ (layerAt (layerTick s) k).waiting = false ∧
      (layerAt (layerTick s) k).sets = setsOf ls ∧ ∀ v ∈ vs, (layerAt (layerTick s) v).phase = .absent) ∧
  (∀ ctx slot layer s, s.supervisor.freeze = false → slot < 16 → layer < 1024 →
    let k := ctx * 16384 + slot * 1024 + layer
    (layerAt s k).phase = .loading → (∀ w ∈ (layerAt s k).waiters, w = .prefetch ∨ w = .ahead ∨ ∃ c o, w = .op c o) →
    (layerPoisoned s k = false → goesTo (.layerLoadComplete ctx slot layer) s (fun t => t.mem = s.mem ∧ (layerAt t k).phase = .resident ∧
      (layerAt t k).waiters = [])) ∧
    goesTo (.layerLoadError ctx slot layer) s (fun t => t.mem = s.mem ∧ (layerAt t k).phase = .failed ∧ (layerAt t k).waiters = [] ∧
      ∀ c o, .op c o ∈ (layerAt s k).waiters → ∀ y ∈ (coreAt t c).matrix, y.id = o → k ∈ y.layerErrs)) ∧
  (∀ ways s, ways ≤ 12 →
    ((∀ e ∈ allLayers s, layerTotal s e.1 = 0 ∧ e.2.phase ≠ .loading ∧ (e.2.waiters = [] ∨ e.2.waiting = true)) →
      goesTo (.pinnedWayChange ways) s (fun t => t.pinnedWays = ways ∧ t.waysHeld = none)) ∧
    ((∃ e ∈ allLayers s, layerTotal s e.1 ≠ 0 ∨ e.2.phase = .loading ∨ e.2.waiters ≠ [] ∧ e.2.waiting = false) →
      exec (.pinnedWayChange ways) s = .next { s with waysHeld := some ways })) ∧
  (∀ ways s, 12 < ways → exec (.pinnedWayChange ways) s = .next s)

/-- The events of the dispatcher and of a team's life (15 R333-R344, 17 R381, R382, 01 R26-R38). That one gang of a stack pair at a time makes
its starts, and when a gathering entry counts as passed over, are the model's readings (log 47). -/
def Obligations.TeamsAndGridsLiveAndEnd : Prop :=
  (∀ s uid i,
    let g := gridAt s uid
    let home := unitHome s g i
    s.supervisor.freeze = false → poolOrder s = [uid] → g.uid = uid → g.kind = .grid → g.gangSize < 2 → g.cls ≠ 0 → g.reservedSlots = [] →
    mayStart s g = true → nextUnit s g = some i → (clusterAt s home).gated = false → s.dispatched = false → startsFull s = false →
    (∀ c, clusterFree s (startClusters s) uid home = true → chooseCore s g.ctx home (teamFits s g.ctx (unitNeed g i) []) = some c →
      goesTo .dispatchCycle s (fun t => ∃ k, t.teams = tset s.teams k (teamAt t k) ∧ (teamAt t k).phase = .placed ∧ (teamAt t k).grid = uid ∧
        (teamAt t k).index = i ∧ (teamAt t k).core = c ∧ (teamAt t k).ctx = g.ctx ∧ (gridAt t uid).nextTeam = i + 1 ∧ (gridAt t uid).passed = 0 ∧
        t.mem = s.mem ∧ t.dispatched = true)) ∧
    (clusterFree s (startClusters s) uid home = false → g.parentGrid = none → goesTo .dispatchCycle s (fun t =>
      t.teams = s.teams ∧ (gridAt t uid).passed = g.passed + 1 ∧ (gridAt t uid).nextTeam = g.nextTeam ∧ t.dispatched = true ∧
      (s.policy.poolStarve < g.passed + 1 → uid ∈ (clusterAt t home).claims)))) ∧
  (∀ s, s.dispatched = true → exec .dispatchCycle s = .next s) ∧
  (∀ team s,
    let k := (teamAt s team).kernel
    let base := k.codeBase
    let args := unitArgs (gridAt s (teamAt s team).grid) (teamAt s team).index
    let roles := groupRoles k (teamAt s team).groups
    thas s.teams team = true → (teamAt s team).phase = .placed → s.supervisor.freeze = false → (gridAt s (teamAt s team).grid).domain = false →
    (ctxAt s (teamAt s team).ctx).phase = .active → roles.length ≤ 32 → (teamAt s team).core / 8 ∉ s.startedIn → s.startedIn.length < 4 →
    startOpen s (teamAt s team) = true →
    goesTo (.teamStart team) s (fun t =>
      (teamAt t team).phase = .running ∧ t.mem = s.mem ∧ (coreAt t (teamAt s team).core).cut = s.mem ∧
      (∀ i e, roles[i]? = some e →
        let g := unitAt t ⟨team, i⟩
        g.live = true ∧ g.retired = false ∧ g.share = e.2.1 ∧ g.role = e.2.2 ∧ g.clause = none ∧
        (∀ l, l < 32 → thrAt g l = { live := true, pc := BitVec.ofNat 48 (base + e.1) }) ∧ ∀ j, sAt g j = args.getD j 0) ∧
      (∀ e, k.conductor = some e → thrAt (unitAt t ⟨team, 32⟩) 0 = { live := true, pc := BitVec.ofNat 48 (base + e) } ∧
        ∀ j, kAt (unitAt t ⟨team, 32⟩) j = (args.getD j 0).setWidth 64))) ∧
  (∀ team s,
    let tm := teamAt s team
    thas s.teams team = true → tm.phase = .running → tm.stopped = false → teamQuiet s tm = true → tm.layerCounts = [] →
    (ctxAt s tm.ctx).suspendBy = none →
    goesTo (.teamRetirement team) s (fun t => thas t.teams team = false ∧ t.mem = (releaseStep s tm.core).mem)) ∧
  (∀ uid s u slot,
    let g := gridAt s uid
    thas s.grids uid = true → gridDone s g = true → g.endErr = none → g.origin = .parent u slot → thas s.teams u.team = true → openSlot s u slot →
    goesTo (.gridRetirement uid) s (fun t => (thas t.grids uid = true → (gridAt t uid).live = false) ∧ uid ∉ t.readyPool ∧
      (g.domain = false → g.neverFit = false → g.faulted = false → g.nodeFailed = false → g.cancelledWork = false →
        (ctxAt s g.ctx).phase ≠ .stopped → endedWith t u slot 0) ∧
      (g.domain = true → g.neverFit = false → g.faulted = false → g.nodeFailed = false → (ctxAt s g.ctx).phase ≠ .stopped →
        endedWith t u slot 1))) ∧
  (∀ uid s q i h,
    let g := gridAt s uid
    thas s.grids uid = true → gridDone s g = true → g.endErr = none → g.origin = .command q i h → g.domain = false → g.neverFit = false → g.faulted = false →
    g.nodeFailed = false → g.cancelledWork = false → (ctxAt s g.ctx).phase ≠ .stopped →
    exec (.gridRetirement uid) s = .next (checkTeardown (endGrid
      (if g.kind = .graph then completeCommand s q i 0x02 h 0 0 0 else completeCommand s q i 0x01 h 0 g.gridid 0) uid) g.ctx)) ∧
  (∀ uid s i, nextUnit s (gridAt s uid) = some i → uid ∈ s.readyPool → s.policy.poolStarve < (gridAt s uid).passed →
    let g := gridAt s uid
    let h := unitHome s g (if g.cls = 0 ∧ g.gathered = false then (unreserved g).getD i else i)
    uid ∉ (clusterAt s h).claims → goesTo (.poolDispatchStarvation uid) s (fun t =>
      (clusterAt t h).claims = (clusterAt s h).claims ++ [uid] ∧ t.teams = s.teams ∧ t.mem = s.mem)) ∧
  (∀ u k s,
    let g := unitAt s u
    let c := (teamAt s u.team).core / 8
    starvOf (ctxAt s (teamAt s u.team).ctx) < g.denied → (k = .fares ↔ g.deniedFares = true) →
    let taken := (clusterAt s c).cyc.toNat
    let place (v : UnitId) : Nat :=
      (teamAt s v.team).core * 64 + (if v.idx = 32 then 32 + (teamAt s v.team).conductorSlot else (unitAt s v).slot)
    let queued (old new : List Resv) : Prop :=
      let after (d : Resv) : Prop := d.taken = taken ∧ place u < place d.unit
      ∃ pre post, old = pre ++ post ∧ new = pre ++ ⟨u, taken⟩ :: post ∧ (∀ d ∈ pre, ¬after d) ∧ ∀ d, post.head? = some d → after d
    (k = .fares → (∀ r ∈ (clusterAt s c).fareResv, r.unit ≠ u) → goesTo (.starvationReservation u k) s (fun t =>
      queued (clusterAt s c).fareResv (clusterAt t c).fareResv ∧ t.teams = s.teams ∧ t.mem = s.mem)) ∧
    (k = .issue → (∀ r ∈ (clusterAt s c).issueResv, r.unit ≠ u) → goesTo (.starvationReservation u k) s (fun t =>
      queued (clusterAt s c).issueResv (clusterAt t c).issueResv ∧ t.teams = s.teams ∧ t.mem = s.mem))) ∧
  (∀ uid s a, (gridAt s uid).domain = true → (gridAt s uid).graced = false →
    graceOf (ctxAt s (gridAt s uid).ctx) ≤ (gridAt s uid).sinceDomain →
    (∀ k ∈ tkeys s.teams, (teamAt s k).grid = uid → cancelEntry (teamAt s k).kernel = some a ∧ (teamAt s k).uid = k) →
    goesTo (.graceExpiry uid) s (fun t => (gridAt t uid).graced = true ∧ t.mem = s.mem ∧
      ∀ u : UnitId, thas s.teams u.team = true → (teamAt s u.team).grid = uid → (teamAt s u.team).phase = .running →
        u ∈ unitIds (teamAt s u.team) → (unitAt s u).handler = none → (unitAt s u).clause = none →
        ∀ l ∈ liveLanes (unitAt s u), mustRedirect (unitAt s u) l = true →
          (thrAt (unitAt t u) l).pc = BitVec.ofNat 48 a ∧ (thrAt (unitAt t u) l).redirected = true)) ∧
  (∀ c s, (ctxAt s c).record.deadline ≠ 0 → (ctxAt s c).counting = true → (ctxAt s c).dlrem = 0 → (ctxAt s c).expired = false →
    goesTo (.deadlineExpiry c) s (fun t => (ctxAt t c).expired = true ∧
      ∀ g, thas s.grids g = true → (gridAt s g).ctx = c → (gridAt s g).live = true → (gridAt t g).domain = true)) ∧
  (∀ team s, thas s.teams team = true → s.supervisor.freeze = false →
    ((teamAt s team).phase = .running → preemptable s team = true → goesTo (.preemptTeam team) s (fun t =>
      t.mem = s.mem ∧ ∀ m ∈ preemptSet s team, (teamAt t m).phase = .saving ∧ (teamAt t m).preemptFor = 0 ∧ (teamAt t m).preemptElapsed = 0)) ∧
    ((teamAt s team).phase = .saving →
      (∀ m ∈ preemptSet s team, (teamAt s m).phase = .saving ∧ teamSaves s m = true ∧ (teamAt s m).preemptElapsed ≤ s.policy.preemptBound) →
      goesTo (.preemptTeam team) s (fun t => ∀ m ∈ preemptSet s team, (teamAt t m).phase = .saved))) ∧
  (∀ team s, (teamAt s team).phase = .saving → s.policy.preemptBound < (teamAt s team).preemptElapsed →
    goesTo (.preemptionAbandon team) s (fun t => t.mem = s.mem ∧
      ∀ m ∈ preemptSet s team, (teamAt s m).phase = .saving → (teamAt t m).phase = .running ∧ (teamAt t m).preemptFor = 0 ∧
        ∀ i g, tget? (teamAt t m).units i = some g → g.drain = false)) ∧
  (∀ team core s, thas s.teams team = true → s.supervisor.freeze = false → resumeSet s team = [team] → setFits s (setCores s [team] core) = true →
    (otherSets s team = [] → mayResume s team = true → neverFits s (gridAt s (teamAt s team).grid) = false → (teamAt s team).savedLog = [] →
      (coreAt s core).log.length ≤ Config.operandLogEntries → goesTo (.teamResume team core) s (fun t =>
        (teamAt t team).phase = .running ∧ (teamAt t team).core = core ∧ (coreAt t core).cut = t.mem)) ∧
    (movable s team = true → moveOk s [team] core = true → (teamAt s team).stopped = false → (teamAt s team).moving ≠ some true →
      ((teamAt s team).kernel.unified = true → (coreAt s core).l1.isSome = true) →
      (ctxAt s (teamAt s team).ctx).phase = .active → (teamAt s team).core ≠ core →
      (teamSaves s team = true → (∀ e ∈ (coreAt s (teamAt s team).core).log, e.unit.team ≠ team) → goesTo (.teamMigration team core) s (fun t =>
        (teamAt t team).phase = .running ∧ (teamAt t team).core = core ∧ (coreAt t core).cut = t.mem)) ∧
      (teamSaves s team = false → (teamAt s team).phase = .running → goesTo (.teamMigration team core) s (fun t =>
        (teamAt t team).phase = .saving ∧ t.mem = s.mem))))

/-- The purses, timers and registers of fares (16 R345-R361), ageing (15 R325) and forced steps (05 R106, 04 R95). That a
rescaled deadline is rounded up is the model's choice (log 47). -/
def Obligations.FaresAndTimersTakeEffect : Prop :=
  (∀ c s r u,
    let k := clusterAt s c
    let d := partnerOf c
    let cur := curOf s c
    let n := shortfall s r.core r.price
    k.gated = false → k.judged = false → s.supervisor.freeze = false → k.requests = [r] → (∀ e, e ≠ c → (clusterAt s e).requests = []) →
    (∀ e, (clusterAt s e).fell = false ∧ (clusterAt s e).balSkimming = false) → r.balance < k.bdb → r.vector = true →
    r.matrix = false → r.op = none → r.burstReq = false → r.unit = some u → thas s.teams u.team = true → (unitAt s u).retired = false →
    k.fareResv = [] → (clusterAt s d).gated = false → s.ring.claims = [] → c < 24 →
    (∀ e, e < 24 → tset s.clusters e (clusterAt s e) = s.clusters) →
    (canPay s r.core r.price = true → goesTo (.fareGrant c) s (fun t => (clusterAt t c).requests = [] ∧ t.cores = s.cores ∧ t.teams = s.teams)) ∧
    (canPay s r.core r.price = false → cur + n ≤ climOf s c → ringSum s + n ≤ s.ring.ringTot → cur + n ≤ k.prev + k.stepLimit → balanced (cur + n) (curOf s d) = true →
      goesTo (.fareGrant c) s (fun t => (clusterAt t c).requests = [] ∧ (clusterAt t c).judged = true ∧ t.teams = s.teams ∧
        (coreAt t r.core).purse.vector = (coreAt s r.core).purse.vector + n ∧ ∀ j, j ≠ r.core → coreAt t j = coreAt s j)) ∧
    (canPay s r.core r.price = false → climOf s c < cur + n → goesTo (.fareGrant c) s (fun t =>
      (clusterAt t c).requests = [{ r with fares := n, balance := 0 }] ∧ t.cores = s.cores ∧
      (clusterAt t c).govCnt = k.govCnt ∧ (clusterAt t c).govStall = k.govStall)) ∧
    (canPay s r.core r.price = false → cur + n ≤ climOf s c → ringSum s + n ≤ s.ring.ringTot → k.prev + k.stepLimit < cur + n → goesTo (.fareGrant c) s (fun t =>
      (clusterAt t c).requests = [{ r with fares := n, balance := 0 }] ∧ t.cores = s.cores ∧ (clusterAt t c).govStall = true ∧
      (clusterAt t c).govCnt = (if k.govCnt = 0xFFFFFFFF then k.govCnt else k.govCnt + 1)))) ∧
  (∀ c s, (clusterAt s c).boundaryDue = true → goesTo (.windowBoundary c) s (fun t => t.mem = s.mem ∧
    (clusterAt t c).boundaryDue = false ∧ (clusterAt t c).prev = curOf s c ∧ (clusterAt t c).peakAdmitted = 0 ∧
    ((clusterAt s (partnerOf c)).boundaryDue = true → (clusterAt t (partnerOf c)).prev = curOf s (partnerOf c)) ∧
    ∀ i, i < 8 → (coreAt t (c * 8 + i)).purse.vector = ((coreAt s (c * 8 + i)).purse.charged + 15) / 16 ∧
      (coreAt t (c * 8 + i)).purse.charged = 0)) ∧
  (∀ core s,
    let p := (coreAt s core).purse
    s.supervisor.freeze = false → 4 ≤ p.rampPhase →
    ((p.mode = .ramping ∨ p.mode = .bursting) → p.unitLevel < p.target → goesTo (.rampStep core) s (fun t => t.mem = s.mem ∧
      (coreAt t core).purse.unitLevel = Nat.min p.target (p.unitLevel + 4) ∧ (coreAt t core).purse.rampPhase = 0 ∧
      (coreAt t core).purse.mode = p.mode)) ∧
    (p.mode = .rampingDown → goesTo (.rampDown core) s (fun t => t.mem = s.mem ∧ (coreAt t core).purse.unitLevel = p.unitLevel - 4 ∧
      (coreAt t core).purse.mode = (if p.unitLevel ≤ 4 then .idle else .rampingDown)))) ∧
  (∀ core s, (coreAt s core).purse.burst ≠ 0 → (clusterAt s (core / 8)).burstMax ≤ (coreAt s core).purse.burstWindows →
    goesTo (.burstLapse core) s (fun t => (coreAt t core).purse.burst = 0 ∧ t.mem = s.mem)) ∧
  (∀ c s r s1 j,
    let k := clusterAt s c
    let r' := reqNow s r
    let a := curOf s c + addOf s r'
    let b := curOf s (partnerOf c)
    let d := if a < b then c else partnerOf c
    let met (y : State) : Prop := balanced (curOf y c + addOf y r') (curOf y (partnerOf c)) = true
    k.gated = false → s.supervisor.freeze = false → k.requests = [r] → k.bdb ≤ r.balance → reqStands s r = true → failedCheck s c r' = some 5 →
    addSkims (clusterCores d) (4 * j) s = some s1 → met s1 →
    (∀ m y, m < j → addSkims (clusterCores d) (4 * m) s = some y → ¬met y) →
    curOf s1 d ≤ climOf s d → ringSum s1 ≤ s.ring.ringTot → ringClosed s d = false →
    ((clusterAt s d).ramp = true ∨ curOf s1 d ≤ (clusterAt s d).prev + (clusterAt s d).stepLimit) →
    goesTo (.balanceSkim c) s (fun t => (clusterAt t d).balSkimming = true ∧ t.mem = s.mem ∧
      sumCores t d (fun p => p.balSkim) = sumCores s d (fun p => p.balSkim) + 4 * j ∧
      ∀ i, unitHeld (coreAt s i).purse ≤ 64 → unitHeld (coreAt t i).purse ≤ 64)) ∧
  (∀ c s,
    let due (r : Resv) : Prop := starvOf (ctxAt s (teamAt s r.unit.team).ctx) < clusterCyc s c - r.taken
    goesTo (.ringClaim c) s (fun t => t = { s with ring := { s.ring with claims := t.ring.claims } } ∧
      (∀ r ∈ (clusterAt s c).fareResv, due r → ∃ k ∈ t.ring.claims, k.cluster = c ∧ k.unit = r.unit) ∧
      ∀ r, (clusterAt s c).fareResv = [r] → due r → (∀ k ∈ s.ring.claims, k.cluster = c → k.unit ≠ r.unit) →
        let after (d : Machine.RingClaim) : Prop := d.made = s.fe ∧ c < d.cluster
        ∃ pre post, s.ring.claims = pre ++ post ∧ t.ring.claims = pre ++ ⟨c, r.unit, s.fe⟩ :: post ∧ (∀ d ∈ pre, ¬after d) ∧
          ∀ d, post.head? = some d → after d)) ∧
  (∀ p mhz s, 2100 < mhz → exec (.operatingPointChange p mhz) s = .next s) ∧
  (∀ p mhz s, mhz ≠ 0 → mhz ≤ 2100 → p < Config.pairs → goesTo (.operatingPointChange p mhz) s (fun t =>
    (pairAt t p).pending = some mhz ∧ (pairAt t p).mhz = (pairAt s p).mhz ∧ ∀ q, q ≠ p → pairAt t q = pairAt s q)) ∧
  (∀ p s mhz, (pairAt s p).pending = some mhz → crossing s p = false → goesTo (.quiescePoint p) s (fun t =>
    (pairAt t p).mhz = mhz ∧ (pairAt t p).pending = none ∧ (clusterAt t (2 * p)).prev = 0 ∧ (clusterAt t (2 * p + 1)).prev = 0 ∧
    ∀ c x, tget? s.contexts c = some x → (x.counting = true → x.rootCluster / 2 = p →
      (ctxAt t c).dlrem = (x.dlrem * mhz + ((pairAt s p).mhz - 1)) / (pairAt s p).mhz) ∧
      (x.counting = false → x.timed = true → p = 0 → (ctxAt t c).dlrem = (x.dlrem * mhz + ((pairAt s p).mhz - 1)) / (pairAt s p).mhz) ∧
      (x.counting = false → (x.timed = false ∨ p ≠ 0) → ctxAt t c = x))) ∧
  (∀ c s, (clusterAt s c).gated = false → c < 24 → gateable s c = true → travelling s c = false → goesTo (.clusterGate c) s (fun t => (clusterAt t c).gated = true ∧
    t = { s with clusters := t.clusters } ∧ ∀ d, d ≠ c → clusterAt t d = clusterAt s d)) ∧
  (∀ v s, exec (.ringtotWrite v) s = .next { s with ring := { s.ring with ringTot := Nat.min v.toNat s.ring.fcap } }) ∧
  (∀ c v s, goesTo (.govstallClear c v) s (fun t => (clusterAt t c).govStall = ((clusterAt s c).govStall && !v.getLsbD 0))) ∧
  (∀ c v s, c < 24 →
    let put (r : FwReg) (f : Cluster → Cluster) : Prop := goesTo (.firmwareRegisterWrite r v) s (fun t => clusterAt t c = f (clusterAt s c) ∧
      ∀ d, d ≠ c → clusterAt t d = clusterAt s d)
    let near (lo hi : Nat) : Nat := if v.toNat < lo then lo else if hi < v.toNat then hi else v.toNat
    put (.mode c) (fun k => { k with ramp := decide (v ≠ 0) }) ∧ put (.stepLimit c) (fun k => { k with stepLimit := near 64 1024 }) ∧
    put (.bdb c) (fun k => { k with bdb := near 1 255 }) ∧ put (.burstMax c) (fun k => { k with burstMax := near 1 255 }) ∧
    put (.clim c) (fun k => { k with clim := near 64 4096 }) ∧ put (.ebud c) (fun k => { k with ebud := v.toNat }) ∧
    put (.govCnt c) (fun k => { k with govCnt := v }) ∧ put (.balCnt c) (fun k => { k with balCnt := v })) ∧
  (∀ q s,
    let y := queueAt s q
    y.en = true → y.phase = .ready → y.age ≠ 0 → y.age ≤ y.aged → goesTo (.queueAgeing q) s (fun t =>
      queueAt t q = { y with aged := 0, level := Nat.min 7 (y.level + 1) } ∧ ∀ r, r ≠ q → queueAt t r = queueAt s r)) ∧
  (∀ i core s, s.supervisor.freeze = false → (i = .phaseAgeStep core ∧ s.policy.phaseAge ≤ (coreAt s core).sinceAcquire ∨ i = .homePressureStep core) →
    goesTo i s (fun t => t.mem = (releaseStep s core).mem ∧ (coreAt t core).cut = t.mem ∧ (coreAt t core).own = [] ∧ (coreAt t core).eng = [] ∧
      (coreAt t core).sinceAcquire = 0)) ∧
  (∀ core s l, (coreAt s core).l1 = some l → s.supervisor.freeze = false → 65536 ≤ (coreAt s core).interval →
    goesTo (.unifiedIntervalEnd core) s (fun t => (coreAt t core).interval = 0 ∧ t.mem = s.mem ∧ ∃ m, (coreAt t core).l1 = some m ∧
      (m = l ∨ m = l + 32768 ∨ m + 32768 = l) ∧ (l1Floor s core ≤ l → l1Floor s core ≤ m) ∧
      (l + residentCarves s core ≤ Config.unifiedBytes → m + residentCarves s core ≤ Config.unifiedBytes)))

/-- A command in service that nothing orders behind another. -/
def Sys2Proof.Claims.inService (s : State) (c : Service) (h : CmdHeader) : Prop :=
  s.service = some c ∧ (h.ord = true → (queueAt s c.queue).outstanding = [])

/-- The same on a queue whose context is ACTIVE. -/
def Sys2Proof.Claims.ownService (s : State) (c : Service) (h : CmdHeader) : Prop :=
  inService s c h ∧ (ctxAt s (queueAt s c.queue).ctx).phase = .active

/-- A command that completes from a state, with a status, a GRIDID and a DETAIL. -/
def Sys2Proof.Claims.completes (s1 : State) (c : Service) (op : Nat) (h : CmdHeader) (st : Nat) (id : W32) (detail : Nat) (t : State) : Prop :=
  t = completeCommand { s1 with service := none } c.queue c.index op h st id detail

/-- A command whose work was accepted: it is outstanding, and service is free. -/
def Sys2Proof.Claims.acceptedAs (s t : State) (c : Service) (op : Nat) : Prop :=
  t.service = none ∧ (queueAt t c.queue).outstanding = (queueAt s c.queue).outstanding ++ [{ index := c.index, op := op }]

/-- Work added to the ready pool for a command. -/
def Sys2Proof.Claims.workAdded (s t : State) (c : Service) (h : CmdHeader) (g : Grid) (tile : Option (W32 × W32 × Nat)) : Prop :=
  ∃ uid, t.readyPool = s.readyPool ++ [uid] ∧ (gridAt t uid).ctx = g.ctx ∧ (gridAt t uid).kind = g.kind ∧ (gridAt t uid).cls = g.cls ∧
    (gridAt t uid).kernel = g.kernel ∧ (gridAt t uid).teams = g.teams ∧ (gridAt t uid).groups = g.groups ∧
    (gridAt t uid).gangSize = g.gangSize ∧ (gridAt t uid).args = g.args ∧ (gridAt t uid).priv = g.priv ∧ (gridAt t uid).nodes = g.nodes ∧
    (gridAt t uid).origin = .command c.queue c.index h ∧ (gridAt t uid).tile = tile

/-- The commands of a queue's own context, and how any command completes (15 R323-R329). The model's choices: the core a COPY goes to
(log 30), the homes and checks of graphs (log 29), and that all of the front end waits while an operating point changes (log 46). -/
def Obligations.CommandsOfAContextAreServed : Prop :=
  (∀ (i : Instr) (op : Nat) (h : CmdHeader) (s : State) (c : Service), s.service = some c →
    ((∃ r x y w, i = .launch h r x y w ∧ op = 0x01) ∨ (∃ a n k, i = .taskgraph h a n k ∧ op = 0x02) ∨ (∃ a n, i = .modelBind h a n ∧ op = 0x03) ∨
      (∃ n a b, i = .prefetch h n a b ∧ op = 0x04) ∨ (∃ n, i = .modelUnbind h n ∧ op = 0x05) ∨ (∃ a v k, i = .wait h a v k ∧ op = 0x07) ∨
      (∃ a, i = .copyCommand h a ∧ op = 0x08) ∨ ∃ g a, i = .cancelCommand h g a ∧ op = 0x09) →
    (h.ord = true → (queueAt s c.queue).outstanding ≠ [] → exec i s = .next (holdHead s c .order)) ∧
    ((h.ord = true → (queueAt s c.queue).outstanding = []) → (ctxAt s (queueAt s c.queue).ctx).phase ≠ .active →
      goesTo i s (completes s c op h 18 0 0))) ∧
  (∀ h r tx ty (w : BitVec 16) s c, ownService s c h →
    (∀ n, launchCheck s (queueAt s c.queue).ctx r = .error n → goesTo (.launch h r tx ty w) s (completes s c 0x01 h n 0 0)) ∧
    (∀ g, launchCheck s (queueAt s c.queue).ctx r = .ok g →
      (poolFull s = true → exec (.launch h r tx ty w) s = .next (holdHead s c .pool)) ∧
      (poolFull s = false → goesTo (.launch h r tx ty w) s (fun t => acceptedAs s t c 0x01 ∧ t.mem = s.mem ∧
        workAdded s t c h g (if w = 0 then none else some (tx, ty, w.toNat)))))) ∧
  (∀ h a n k s c s1 ns, ownService s c h → readGraph s (queueAt s c.queue).ctx a.toNat n.toNat = .ok s1 ns →
    (∀ e, graphGrid s1 (queueAt s c.queue).ctx k.toNat ns = .error e → goesTo (.taskgraph h a n k) s (completes s1 c 0x02 h e 0 0)) ∧
    (∀ g, graphGrid s1 (queueAt s c.queue).ctx k.toNat ns = .ok g → poolFull s1 = false → goesTo (.taskgraph h a n k) s (fun t =>
      acceptedAs s t c 0x02 ∧ t.mem = s1.mem ∧ workAdded s t c h g none))) ∧
  (∀ h a s c s1 b st core, ownService s c h →
    let x := (queueAt s c.queue).ctx
    let home := maskedHome s1 x (nextUntiled s1 x)
    copySpec s x a.toNat = .ok s1 b st → (clusterAt s1 home).gated = false →
    argMin (scoreOf s1) (((List.range (s1.policy.placeDepth + 1)).map (fun i => home * 8 + ((clusterAt s1 home).rho + i) % 8)).filter
      (copyFits s1 x)) = some core →
    goesTo (.copyCommand h a) s (fun t => acceptedAs s t c 0x08 ∧ (clusterAt t home).rho = ((clusterAt s1 home).rho + 1) % 8 ∧
      ∃ j, (coreAt t core).copies = (coreAt s1 core).copies ++ [j] ∧ j.owner = .command c.queue c.index h ∧ j.src = st ∧ j.dst = b.dst ∧
        j.coords = b.coords ∧ j.cnt0 = b.cnt0 ∧ j.cnt1 = b.cnt1 ∧ j.pitch = b.pitch ∧ j.ctx = x ∧ j.started = false)) ∧
  (∀ h a v add s c pa s1, s.service = some c → (queueAt s c.queue).outstanding = [] → (ctxAt s (queueAt s c.queue).ctx).phase = .active →
    fePlace s (queueAt s c.queue).ctx a.toNat .atomic = .ok pa s1 → hasNat s.badLines (lineOf pa) = false →
    ownedLine s (.phys (lineOf pa)) = false →
    let old := bytesToW32 (memReadN s1.mem pa 4)
    goesTo (.signal h a v add) s (completes (homeWrite s1 (writesOf pa (natToBytes 4 (if add then old + v else v).toNat))) c 0x06 h 0 0 0)) ∧
  (∀ h a v k s c pa s1, ownService s c h → fePlace s (queueAt s c.queue).ctx a.toNat .read = .ok pa s1 →
    hasNat s.badLines (lineOf pa) = false → ownedLine s (.phys (lineOf pa)) = false →
    let w := bytesToW32 (memReadN s1.mem pa 4)
    (holds k w v → goesTo (.wait h a v k) s (completes s1 c 0x07 h 0 0 0)) ∧
    (¬holds k w v → goesTo (.wait h a v k) s (fun t => acceptedAs s t c 0x07 ∧ t.mem = s1.mem ∧ ∃ y, (queueAt t c.queue).waiting = some y ∧
      y.pa = pa ∧ y.value = v ∧ y.k = k ∧ y.index = c.index))) ∧
  (∀ q s w, (queueAt s q).waiting = some w → w.hit = true → exec (.waitCommandSatisfied q) s =
    .next (completeCommand (modQueue s q (fun y => { y with waiting := none })) q w.index 0x07 w.h 0 0 0)) ∧
  (∀ h id all s c, ownService s c h →
    let x := (queueAt s c.queue).ctx
    (all = true → goesTo (.cancelCommand h id all) s (fun t => ∃ t0, completes t0 c 0x09 h 0 0 0 t ∧
      ∀ g, thas s.grids g = true → (gridAt s g).ctx = x → (gridAt s g).live = true → (gridAt t0 g).domain = true)) ∧
    (all = false → goesTo (.cancelCommand h id all) s (fun t => ∃ t0, completes t0 c 0x09 h 0 0 0 t ∧
      (∀ g, liveGrid s x id = some g → t0 = setDomain s g) ∧ (liveGrid s x id = none → t0 = s)))) ∧
  (∀ h (a : W64) (n : BitVec 4) s c bs s1 tb s2 ls, ownService s c h →
    let x := (queueAt s c.queue).ctx
    let r := bytesToNat bs
    let cnt := bitsAt r 74 64
    a.toNat % 64 = 0 → feRead s x a.toNat 64 = .ok bs s1 → zeros r [(511, 96), (91, 83), (79, 75)] = true → cnt ≠ 0 → cnt ≤ 1024 →
    bitsAt r 63 0 % 64 = 0 → bitsAt r 63 0 < Config.globalLimit → modelAt s1 x n.toNat = none → feRead s1 x (bitsAt r 63 0) (32 * cnt) = .ok tb s2 →
    parseLayers tb cnt = some ls → goesTo (.modelBind h a n) s (fun t => ∃ t0, completes t0 c 0x03 h 0 0 0 t ∧ t0.mem = s2.mem ∧
      ∃ m, modelAt t0 x n.toNat = some m ∧ m.count = cnt ∧ m.closing = false ∧ m.eprio = bitsAt r 82 80 ∧ m.pref = bitsAt r 95 92 ∧
        ∀ i, i < ls.length → tget {} m.layers i = ls.getD i {})) ∧
  (∀ h (n : BitVec 4) (a : BitVec 10) (k : BitVec 11) s c m, ownService s c h →
    let x := (queueAt s c.queue).ctx
    modelAt s x n.toNat = some m → m.closing = false → a.toNat + k.toNat ≤ m.count → m.count ≤ 1024 → s.waysHeld = none →
    goesTo (.prefetch h n a k) s (fun t => ∃ t0, completes t0 c 0x04 h 0 0 0 t ∧ ∀ i, a.toNat ≤ i → i < a.toNat + k.toNat →
      .prefetch ∈ (layerAt t0 (x * 16384 + n.toNat * 1024 + i)).waiters)) ∧
  (∀ h (n : BitVec 4) s c m, ownService s c h →
    let x := (queueAt s c.queue).ctx
    modelAt s x n.toNat = some m → m.closing = false → s.wagons = [] →
    (∀ e ∈ s.layerHeld, ¬(keyCtx e.1 = x ∧ keySlot e.1 = n.toNat)) →
    (∀ i ∈ tkeys m.layers, i < 1024 ∧ (layerAt s (x * 16384 + n.toNat * 1024 + i)).phase ≠ .loading ∧
      (layerAt s (x * 16384 + n.toNat * 1024 + i)).waiters = [] ∧ (layerAt s (x * 16384 + n.toNat * 1024 + i)).waiting = false) →
    ((∀ i ∈ tkeys m.layers, layerTotal s (x * 16384 + n.toNat * 1024 + i) = 0) → goesTo (.modelUnbind h n) s (fun t =>
      ∃ t0, completes t0 c 0x05 h 0 0 0 t ∧ modelAt t0 x n.toNat = none ∧ t0.mem = s.mem)) ∧
    ((∃ i ∈ tkeys m.layers, layerTotal s (x * 16384 + n.toNat * 1024 + i) ≠ 0) → goesTo (.modelUnbind h n) s (fun t =>
      acceptedAs s t c 0x05 ∧ t.mem = s.mem ∧ ∃ m', modelAt t x n.toNat = some m' ∧ m'.closing = true ∧ m'.unbindBy = some (c.queue, c.index, h)))) ∧
  (∀ s c, s.service = some c → goesTo .badCommand s (completes s c (bitsAt (bytesToNat c.bytes) 135 128) (cmdHeader (bytesToNat c.bytes)) 16 0 0)) ∧
  (∀ s n, s.service = none → arbiterChoice s = some n → s.boundary = [] → pointChanges s = false →
    let q := queueAt s n
    (∀ h, q.head = some h → goesTo .arbiterSelect s (fun t => t.mem = s.mem ∧ (queueAt t n).head = none ∧
      t.service = some { queue := n, index := h.index, bytes := h.bytes })) ∧
    (q.head = none → ∀ bs s1 pa s2, feRead (served s n) q.ctx (q.ring + 64 * (q.rd.toNat % 2 ^ q.logn)) 64 = .ok bs s1 →
      fePlace s1 q.ctx q.ridx .write = .ok pa s2 → goesTo .arbiterSelect s (fun t =>
        t.service = some { queue := n, index := q.rd.toNat, bytes := bs } ∧ (queueAt t n).rd = q.rd + 1 ∧
        t.mem = memApply s2.mem (writesOf pa (natToBytes 4 (q.rd.toNat + 1)))))) ∧
  (∀ s n i op h st id d pa,
    let q := queueAt s n
    let va := q.cring + 32 * (q.done % 2 ^ q.logn)
    let rec32 : List Byte := natToBytes 4 (op % 256 + (1 - q.done / 2 ^ q.logn % 2) * 2 ^ 8 + h.tag.toNat * 2 ^ 16) ++ natToBytes 4 st ++
      natToBytes 4 id.toNat ++ natToBytes 4 d ++ natToBytes 4 i ++ natToBytes 12 0
    q.cplHeld = none → q.cplWait = [] → q.phase ≠ .error → q.roomHeld = false → pointChanges s = false →
    ((h.cpl = true ∨ 2 ≤ st) → (∀ y, fePlace (modQueue s n (fun _ => y)) q.ctx va .write = .ok pa (modQueue s n (fun _ => y))) →
      let t := completeCommand s n i op h st id d
      t.mem = memApply s.mem (writesOf pa rec32) ∧ (queueAt t n).done = q.done + 1 ∧ (∀ c ∈ (queueAt t n).outstanding, c.index ≠ i)) ∧
    (h.cpl = false → st < 2 →
      let t := completeCommand s n i op h st id d
      t.mem = s.mem ∧ (queueAt t n).done = q.done ∧ ∀ c ∈ (queueAt t n).outstanding, c.index ≠ i))

/-- The same on a queue that is ADMIN. -/
def Sys2Proof.Claims.adminService (s : State) (c : Service) (h : CmdHeader) : Prop := inService s c h ∧ (queueAt s c.queue).admin = true

/-- The commands of ADMIN queues (14 R304-R306, R317, 13 R293-R298, 15 R327, 08 R216). The model's choices: the 18 of a pending suspend or
teardown and the order of checks (log 37), code 7 of a registration and CODE_UNREG's 6 (log 38), POOL_ASSIGN's 16 (log 30), and the 16 of a
record that is not aligned (log 43). -/
def Obligations.AdministrativeCommandsAreServed : Prop :=
  (∀ (i : Instr) (op : Nat) (h : CmdHeader) (s : State) (c : Service), inService s c h → (queueAt s c.queue).admin = false →
    ((∃ a n, i = .ctxSetup h a n ∧ op = 0x10) ∨ (∃ a n, i = .ctxRewrite h a n ∧ op = 0x11) ∨ (∃ n, i = .ctxSuspend h n ∧ op = 0x12) ∨
      (∃ n, i = .ctxResume h n ∧ op = 0x13) ∨ (∃ n, i = .ctxTeardown h n ∧ op = 0x14) ∨ (∃ a n, i = .codeReg h a n ∧ op = 0x15) ∨
      (∃ a, i = .wagonBind h a ∧ op = 0x17) ∨ (∃ n, i = .wagonUnbind h n ∧ op = 0x18) ∨ ∃ b p n l k, i = .poolAssign h b p n l k ∧ op = 0x19) →
    goesTo i s (completes s c op h 17 0 0)) ∧
  (∀ h (a : W64) (n : BitVec 6) s c, adminService s c h →
    let x := ctxAt s n.toNat
    (a.toNat % 64 ≠ 0 → goesTo (.ctxSetup h a n) s (completes s c 0x10 h 16 0 0) ∧ goesTo (.ctxRewrite h a n) s (completes s c 0x11 h 16 0 0)) ∧
    (a.toNat % 64 = 0 → x.phase ≠ .free → goesTo (.ctxSetup h a n) s (completes s c 0x10 h 18 0 0)) ∧
    (∀ bs s1, a.toNat % 64 = 0 → x.phase = .free → feRead s (queueAt s c.queue).ctx a.toNat 128 = .ok bs s1 →
      (parseCtx s1 bs = none → goesTo (.ctxSetup h a n) s (completes s1 c 0x10 h 6 0 0)) ∧
      (∀ r, parseCtx s1 bs = some r →
        (trapRegionOk s1 n.toNat r = false → goesTo (.ctxSetup h a n) s (completes s1 c 0x10 h 6 0 0)) ∧
        (trapRegionOk s1 n.toNat r = true → goesTo (.ctxSetup h a n) s (fun t => ∃ t0, completes t0 c 0x10 h 0 0 0 t ∧ t0.mem = s1.mem ∧
          ctxAt t0 n.toNat = { phase := .active, record := r, dlrem := r.deadline } ∧
          ∀ m, m ≠ n.toNat → ctxAt t0 m = ctxAt s1 m))))) ∧
  (∀ h (a : W64) (n : BitVec 6) s c bs s1 r, adminService s c h → a.toNat % 64 = 0 → feRead s (queueAt s c.queue).ctx a.toNat 128 = .ok bs s1 →
    parseCtx s1 bs = some r →
    let x := ctxAt s n.toNat
    (x.phase = .active → fixedWords r = fixedWords x.record → goesTo (.ctxRewrite h a n) s (fun t => ∃ t0, completes t0 c 0x11 h 0 0 0 t ∧
      (ctxAt t0 n.toNat).record = r ∧ (ctxAt t0 n.toNat).phase = .active ∧
      (r.deadline ≠ x.record.deadline → (ctxAt t0 n.toNat).dlrem = r.deadline ∧ (ctxAt t0 n.toNat).expired = false) ∧
      (r.deadline = x.record.deadline → (ctxAt t0 n.toNat).dlrem = x.dlrem ∧ (ctxAt t0 n.toNat).expired = x.expired))) ∧
    (x.phase = .active → fixedWords r ≠ fixedWords x.record → goesTo (.ctxRewrite h a n) s (completes s1 c 0x11 h 6 0 0)) ∧
    (x.phase = .suspended → (r.trapbase = x.record.trapbase ∨ trapRegionOk s1 n.toNat r = true) → goesTo (.ctxRewrite h a n) s (fun t =>
      ∃ t0, completes t0 c 0x11 h 0 0 0 t ∧ (ctxAt t0 n.toNat).nextRecord = some r ∧ (ctxAt t0 n.toNat).record = x.record))) ∧
  (∀ h (n : BitVec 6) s c, adminService s c h →
    let x := ctxAt s n.toNat
    ((x.phase ≠ .active ∨ x.suspendBy.isSome = true) → goesTo (.ctxSuspend h n) s (completes s c 0x12 h 18 0 0)) ∧
    (x.phase = .active → x.suspendBy = none → (∀ t ∈ s.teams, t.2.ctx = n.toNat → t.2.phase = .saved) → goesTo (.ctxSuspend h n) s (fun t =>
      ∃ t0, completes t0 c 0x12 h 0 0 0 t ∧ ctxAt t0 n.toNat = { x with phase := .suspended } ∧ t0.mem = s.mem)) ∧
    (∀ m tm, x.phase = .active → x.suspendBy = none → s.teams = [(m, tm)] → tm.ctx = n.toNat → tm.phase = .running → preemptable s m = true →
      preemptSet s m = [m] → goesTo (.ctxSuspend h n) s (fun t => acceptedAs s t c 0x12 ∧ t.mem = s.mem ∧
        (ctxAt t n.toNat).suspendBy = some (c.queue, c.index, h) ∧ (ctxAt t n.toNat).phase = .active ∧ (teamAt t m).phase = .saving)) ∧
    (x.phase ≠ .suspended → goesTo (.ctxResume h n) s (completes s c 0x13 h 18 0 0)) ∧
    (x.phase = .suspended →
      let s0 := endInvalidations (applyRoot s n.toNat x.nextRecord)
      (ctxInvalidating s0 n.toNat = true → exec (.ctxResume h n) s = .next (holdHead s0 c (.invalidation n.toNat))) ∧
      (ctxInvalidating s0 n.toNat = false → goesTo (.ctxResume h n) s (fun t => ∃ t0, completes t0 c 0x13 h 0 0 0 t ∧
        (ctxAt t0 n.toNat).phase = .active ∧ (ctxAt t0 n.toNat).nextRecord = none ∧ (ctxAt t0 n.toNat).record = x.nextRecord.getD x.record)) ∧
      ((∀ r, x.nextRecord = some r → r.ptroot = x.record.ptroot) → s.invalidations = [] → s0 = s)) ∧
    ((x.phase = .free ∨ x.teardownBy.isSome = true) → goesTo (.ctxTeardown h n) s (completes s c 0x14 h 18 0 0)) ∧
    (x.phase ≠ .free → x.teardownBy = none → goesTo (.ctxTeardown h n) s (fun t => t.service = none ∧ (ctxAt t n.toNat).phase = .stopped ∧
      (ctxAt t n.toNat).teardownBy = some (c.queue, c.index, h) ∧ ∃ o ∈ (queueAt t c.queue).outstanding, o.index = c.index ∧ o.op = 0x14))) ∧
  (∀ h (a : W64) (n : BitVec 6) s c, adminService s c h →
    ((ctxAt s n.toNat).phase ≠ .active → goesTo (.codeReg h a n) s (completes s c 0x15 h 18 0 0)) ∧
    ((ctxAt s n.toNat).phase = .active →
      (∀ s1 k, register s (queueAt s c.queue).ctx a.toNat = .code s1 k → goesTo (.codeReg h a n) s (completes s1 c 0x15 h 6 0 k)) ∧
      (∀ s1 o ps ks, register s (queueAt s c.queue).ctx a.toNat = .ok s1 o ps ks →
        (mapObject s1 n.toNat a.toNat o ps = none → goesTo (.codeReg h a n) s (completes s c 0x15 h 6 0 7)) ∧
        (∀ s2, mapObject s1 n.toNat a.toNat o ps = some s2 →
          let s3 := endInvalidations s2
          (partsInPeer s2 n.toNat ps = true → goesTo (.codeReg h a n) s (completes s c 0x15 h 6 0 8)) ∧
          (partsInPeer s2 n.toNat ps = false → ctxInvalidating s3 n.toNat = true →
            exec (.codeReg h a n) s = .next (holdHead s3 c (.invalidation n.toNat))) ∧
          (partsInPeer s2 n.toNat ps = false → ctxInvalidating s3 n.toNat = false → goesTo (.codeReg h a n) s (fun t => ∃ s4, completes s4 c 0x15 h 0 0 0 t ∧
            s4.mem = (ps.foldl (fun s p => fillPages s n.toNat p.1 p.2) s3).mem ∧
            ∃ y, (ctxAt s4 n.toNat).objects = (ctxAt s3 n.toNat).objects ++ [y] ∧ y.addr = a.toNat ∧ y.kernels = ks ∧ y.unregBy = none ∧
              y.codeBase = a.toNat + o.code.1 ∧ y.codeLen = o.code.2 ∧ y.dataBase = a.toNat + o.data.1 ∧ y.dataLen = o.data.2 ∧
              y.parts = ps.map (fun p => (p.1, p.2.length)))))))) ∧
  (∀ h (a : W64) (n : BitVec 6) s c, adminService s c h → (ctxAt s n.toNat).phase = .active → ∀ o, (ctxAt s n.toNat).objects = [o] → o.unregBy = none →
    (o.addr ≠ a.toNat → goesTo (.codeUnreg h a n) s (completes s c 0x16 h 6 0 0)) ∧
    (o.addr = a.toNat → objectBusy s n.toNat o = true → goesTo (.codeUnreg h a n) s (fun t => acceptedAs s t c 0x16 ∧ t.mem = s.mem ∧
      (ctxAt t n.toNat).objects = [{ o with unregBy := some (c.queue, c.index, h) }])) ∧
    (o.addr = a.toNat → objectBusy s n.toNat o = false → goesTo (.codeUnreg h a n) s (fun t => t.service = none ∧
      (ctxAt t n.toNat).objects = [] ∧ ∀ y ∈ (queueAt t c.queue).outstanding, y.index ≠ c.index))) ∧
  (∀ h (a : W64) s c bs s1, adminService s c h → feRead s (queueAt s c.queue).ctx a.toNat 64 = .ok bs s1 →
    let x := recBits bs
    let q := bitsAt x 5 0
    ((bindable s1 (bitsAt x 13 8) = false ∨ bindable s1 (bitsAt x 21 16) = false) → goesTo (.wagonBind h a) s (completes s1 c 0x17 h 18 0 0)) ∧
    (∀ k b, bindable s1 (bitsAt x 13 8) = true → bindable s1 (bitsAt x 21 16) = true → kernelAt s1 (bitsAt x 21 16) (bitsAt x 191 128) = some k →
      parseBinding x k = some b →
      ((wagonAt s1 q).binding = none → (modelAt s1 b.mctx b.mslot).isSome = true → tilesMapped s1 b = true → goesTo (.wagonBind h a) s (fun t =>
        ∃ t0, completes t0 c 0x17 h 0 0 0 t ∧ t0.mem = s1.mem ∧ wagonAt t0 q = { binding := some b } ∧ ∀ m, m ≠ q → wagonAt t0 m = wagonAt s1 m)) ∧
      (((wagonAt s1 q).binding.isSome = true ∨ modelAt s1 b.mctx b.mslot = none ∨ tilesMapped s1 b = false) →
        goesTo (.wagonBind h a) s (completes s1 c 0x17 h 6 0 0)))) ∧
  (∀ h (q : BitVec 6) s c, adminService s c h →
    let w := wagonAt s q.toNat
    (w.binding = none → goesTo (.wagonUnbind h q) s (completes s c 0x18 h 6 0 0)) ∧
    (∀ b, w.binding = some b → w.unbindBy = none →
      (w.rows = [] → w.departed = [] → goesTo (.wagonUnbind h q) s (fun t => ∃ t0, completes t0 c 0x18 h 0 0 0 t ∧ (wagonAt t0 q.toNat).binding = none)) ∧
      ((w.rows ≠ [] ∨ w.departed ≠ []) → goesTo (.wagonUnbind h q) s (fun t => acceptedAs s t c 0x18 ∧ t.mem = s.mem ∧
        wagonAt t q.toNat = { w with unbindBy := some (c.queue, c.index, h) })))) ∧
  (∀ h (base : W64) (p : Byte) (n : BitVec 6) (l : BitVec 4) (k : BitVec 16) s c, adminService s c h →
    (base.toNat % 2 ^ l.toNat ≠ 0 → goesTo (.poolAssign h base p n l k) s (completes s c 0x19 h 16 0 0)) ∧
    (base.toNat % 2 ^ l.toNat = 0 → (ctxAt s n.toNat).phase ≠ .active → goesTo (.poolAssign h base p n l k) s (completes s c 0x19 h 18 0 0)) ∧
    (base.toNat % 2 ^ l.toNat = 0 → (ctxAt s n.toNat).phase = .active →
      ((poolAt s p.toNat).ctx.isSome = true → goesTo (.poolAssign h base p n l k) s (completes s c 0x19 h 6 0 0)) ∧
      ((poolAt s p.toNat).ctx = none → goesTo (.poolAssign h base p n l k) s (fun t => ∃ t0, completes t0 c 0x19 h 0 0 0 t ∧ t0.mem = s.mem ∧
        poolAt t0 p.toNat = { ctx := some n.toNat, base := base.toNat, log2 := l.toNat, count := k.toNat } ∧
        ∀ m, m ≠ p.toNat → poolAt t0 m = poolAt s m))))

/-- No queue watches a line of the range, no run or queue waits on a word of memory, and no outstanding or logged access waits for a walk that
the invalidation voids, so that nothing is read or walked again. -/
def Sys2Proof.Claims.noMemoryWaits (s : State) (i : Invalidation) : Prop :=
  (∀ e ∈ s.queues, e.2.waiting = none ∧ watchGone i e.2 = false) ∧
  (∀ e ∈ s.teams, ∀ g ∈ e.2.units, ∀ b ∈ g.2.blocked, ∀ l va v k d p, b.wait ≠ .waitf l va v k d p) ∧
  (∀ c ∈ s.cores, ∀ e ∈ c.2.log, ∀ a ∈ e.lanes, a.loc ≠ noPlace) ∧
  ∀ u ∈ allUnits s, (∀ p ∈ (unitAt s u).loads, ∀ a ∈ p.lanes, walkVoided (dropTlb s i.ctx i.va i.len) (coreOf s u) i.ctx p.id a = false) ∧
    ∀ p ∈ (unitAt s u).stores, ∀ a ∈ p.lanes, walkVoided (dropTlb s i.ctx i.va i.len) (coreOf s u) i.ctx p.id a = false

/-- What a fill leaves in a cache of a size: its entry last, nothing new beside it, and while there is room every older entry outside its
range. -/
def Sys2Proof.Claims.filledWith (n : Nat) (e : TlbEntry) (old new : List TlbEntry) : Prop :=
  new.getLast? = some e ∧ new.length ≤ n ∧ (∀ x ∈ new, x = e ∨ x ∈ old) ∧
  (old.length < n → ∀ x ∈ old, (x.ctx ≠ e.ctx ∨ x.va + x.leaf.size ≤ e.va ∨ e.va + e.leaf.size ≤ x.va) → x ∈ new)

/-- The events of the translation caches and of the migration table (17 R365-R371). What a full cache gives up is the model's choice (log
10). -/
def Obligations.TranslationsAreFilledAndInvalidated : Prop :=
  (∀ (fill : Nat) s c f, fillCluster s fill = some (c, f) →
    (f.voided = true → goesTo (.tlbFill fill) s (fun t => t = { s with clusters := t.clusters } ∧
      clusterAt t c = { clusterAt s c with fills := (clusterAt t c).fills } ∧ (∀ x, x ∈ (clusterAt t c).fills ↔ x ∈ (clusterAt s c).fills ∧ x.id ≠ fill) ∧
      ∀ d, d ≠ c → clusterAt t d = clusterAt s d)) ∧
    (f.voided = false → 0 < f.entry.leaf.size → goesTo (.tlbFill fill) s (fun t => t = { s with clusters := t.clusters, cores := t.cores } ∧
      (∀ x, x ∈ (clusterAt t c).fills ↔ x ∈ (clusterAt s c).fills ∧ x.id ≠ fill) ∧ (∀ d, d ≠ c → clusterAt t d = clusterAt s d) ∧
      clusterAt t c = { clusterAt s c with fills := (clusterAt t c).fills, tlb := (clusterAt t c).tlb, ahead := (clusterAt t c).ahead } ∧
      (∀ d, coreAt t d = { coreAt s d with tlb := (coreAt t d).tlb }) ∧ (∀ d, (d ∉ f.agents ∨ 192 ≤ d) → coreAt t d = coreAt s d) ∧
      (∀ a ∈ f.agents, a < 192 → filledWith 128 f.entry (coreAt s a).tlb (coreAt t a).tlb) ∧
      ((∃ a ∈ f.agents, a < 192 ∨ 216 ≤ a) → (clusterAt t c).tlb.getLast? = some f.entry ∧ (clusterAt t c).tlb.length ≤ 2048 ∧
        ∀ x ∈ (clusterAt t c).tlb, x = f.entry ∨ x ∈ (clusterAt s c).tlb) ∧
      ((∀ a ∈ f.agents, 192 ≤ a ∧ a < 216) → (clusterAt t c).tlb = (clusterAt s c).tlb) ∧
      (∀ a ∈ f.agents, 192 ≤ a → a < 216 → filledWith 256 f.entry (clusterAt s c).ahead (clusterAt t c).ahead) ∧
      ((∀ a ∈ f.agents, a < 192 ∨ 216 ≤ a) → (clusterAt t c).ahead = (clusterAt s c).ahead)))) ∧
  (∀ (ctx va len : Nat) s, ∃ t, exec (.invalidation ctx va len) s = .next t) ∧
  (∀ (ctx va len : Nat) s, noMemoryWaits s ⟨ctx, va, len⟩ → goesTo (.invalidation ctx va len) s (fun t =>
    let i : Invalidation := ⟨ctx, va, len⟩
    let out (e : TlbEntry) : Prop := e.ctx = ctx ∧ e.va < va + len ∧ va < e.va + e.leaf.size
    t = { s with cores := t.cores, clusters := t.clusters, teams := t.teams, queues := t.queues, invalidations := t.invalidations,
                 evicting := t.evicting, evicted := t.evicted, freeFrames := t.freeFrames } ∧
    (∀ m, ((teamAt s m).phase ≠ .saved ∨ (teamAt s m).ctx ≠ ctx) → teamAt t m = teamAt s m) ∧ (∀ n, queueAt t n = queueAt s n) ∧
    (∀ c, coreAt t c = { coreAt s c with tlb := (coreAt t c).tlb, matrix := (coreAt t c).matrix }) ∧
    (∀ c e, e ∈ (coreAt t c).tlb ↔ e ∈ (coreAt s c).tlb ∧ ¬ out e) ∧
    (∀ c e, (e ∈ (clusterAt t c).tlb ↔ e ∈ (clusterAt s c).tlb ∧ ¬ out e) ∧ (e ∈ (clusterAt t c).ahead ↔ e ∈ (clusterAt s c).ahead ∧ ¬ out e)) ∧
    (∀ c e, e ∈ (clusterAt t c).walks ↔ e ∈ (clusterAt s c).walks ∧ ¬ (e.ctx = ctx ∧ e.va < va + len ∧ va < e.va + levelSpan e.level)) ∧
    (∀ c, ∀ f ∈ (clusterAt t c).fills, out f.entry → f.voided = true) ∧
    (∀ c, ∀ o ∈ (coreAt t c).matrix, o.running = false → opCovered t i o = false) ∧
    (i ∈ t.invalidations ↔ (accessLeft t i = true ∨ pinLeft t i = true)) ∧ ∀ j, j ≠ i → (j ∈ t.invalidations ↔ j ∈ s.invalidations))) ∧
  (∀ (n : Nat) s m, s.migrations[n]? = some m → goesTo (.migrationLineCopy n) s (fun t =>
    t = { s with migrations := t.migrations, backing := t.backing } ∧
    (m.progress + 1 < 1024 → t.backing = s.backing ∧ t.migrations.length = s.migrations.length ∧
      t.migrations[n]? = some { m with progress := m.progress + 1 } ∧ ∀ j, j ≠ n → t.migrations[j]? = s.migrations[j]?) ∧
    (1024 ≤ m.progress + 1 → t.migrations.length + 1 = s.migrations.length ∧ backingOf t m.frame = m.newRow ∧
      ∀ f, f ≠ m.frame → backingOf t f = backingOf s f))) ∧
  (∀ (f n : Nat) s, goesTo (.compactLpddrBacking f n) s (fun t =>
    ((64 ≤ s.migrations.length ∨ ∃ m ∈ s.migrations, m.frame = f) → t = s) ∧
    (s.migrations.length < 64 → (∀ m ∈ s.migrations, m.frame ≠ f) →
      t = { s with migrations := s.migrations ++ [⟨f, backingOf s f, n, 0⟩] })))

/-- Nothing but units can wait for a page: no logged word, engine job, layer, graph, wagon row or queue. -/
def Sys2Proof.Claims.onlyUnitsWait (s : State) : Prop :=
  (∀ c ∈ s.cores, c.2.log = [] ∧ c.2.matrix = [] ∧ c.2.copies = []) ∧ (∀ k ∈ s.clusters, k.2.geo = [] ∧ k.2.art = []) ∧
  s.grids = [] ∧ s.wagons = [] ∧ s.queues = [] ∧ allLayers s = [] ∧ s.owned = [] ∧ s.serviceWait = [] ∧
  ∀ e ∈ s.teams, ∀ g ∈ e.2.units, ∀ b ∈ g.2.blocked, b.lost = none

/-- The service and the three kinds of REPLAY (17 R373-R377). The model's choices: the frame handed out (log 12), what a REPLAY does to each
waiter (log 34), and that denials wait for a freeze to end (log 39). -/
def Obligations.FaultsAreServicedAndReplayed : Prop :=
  (∀ s, (∀ n, ∃ t, exec (.serviceBatch n) s = .next t) ∧ ∀ r, (∃ t, exec (.replayRetry r) s = .next t) ∧
    (∃ t, exec (.replayViolation r) s = .next t) ∧ ∃ t, exec (.replayUnserviceable r) s = .next t) ∧
  (∀ (n : Nat) s (r : FaultRec), onlyUnitsWait s → s.faultBuf = [r] → r.h = false → r.va < 2 ^ 48 → (ctxAt s r.ctx).phase ≠ .free →
    (∀ u ∈ ctxUnits s r.ctx, (unitAt s u).xheld = []) →
    let s0 := { s with faultBuf := [] }
    let va := r.va / 65536 * 65536
    let root := (ctxAt s r.ctx).record.ptroot
    ∀ pte pa s2, walkFrom s va root 3 = .fault 0 false → pageEntry s0 r.ctx va = some (pte, s0) → takeFrame s0 = some (pa, s2) → pa < 2 ^ 48 →
      tget? s.evicted (evictKey r.ctx (r.va / 65536)) = none →
      goesTo (.serviceBatch (n + 1)) s (fun t => t.faultBuf = [] ∧
        memNat t.mem pte 8 = pa + (if (faultRights s va 3 root).1 = true then 4 else 0) + (if (faultRights s va 3 root).2 = true then 8 else 0) + 1 ∧
        (∀ a, (a < pte ∨ pte + 8 ≤ a) → memRead t.mem a = memRead s2.mem a) ∧
        t.serviceWait = [] ∧ (∀ c, (coreAt t c).tlb = (coreAt s c).tlb) ∧
        ∀ u ∈ ctxUnits s r.ctx, ∀ ws, (unitAt s u).held = some (.replay ws) → (∃ w ∈ ws, w.1 = r.va / 65536) → (unitAt t u).held = none)) ∧
  (∀ (n : Nat) s (r : FaultRec), onlyUnitsWait s → s.faultBuf = [r] → r.h = true →
    (hostReady s = true → goesTo (.serviceBatch (n + 1)) s (fun t => t.faultBuf = [] ∧ t.mem = s.mem ∧ t.teams = s.teams ∧
      t.mailbox.sent = s.mailbox.sent ++ [(s.mailbox.ringAddr + 64 * (s.mailbox.deviceSeq.toNat % 2 ^ s.mailbox.loge),
        eventBytes s.mailbox.deviceSeq ⟨0x82, 0, 0, r.bytes⟩)] ∧ t.mailbox.deviceSeq = s.mailbox.deviceSeq + 1)) ∧
    (hostReady s = false → goesTo (.serviceBatch (n + 1)) s (fun t => t.faultBuf = [r] ∧ t.mem = s.mem ∧ t.teams = s.teams ∧ t.mailbox = s.mailbox))) ∧
  (∀ (r : ReplayScope) s, onlyUnitsWait s → (s.boot = .recovery → isMessage s (.replayRetry r) = false) →
    (∀ u ∈ ctxUnits s r.ctx, (unitAt s u).xheld = []) → goesTo (.replayRetry r) s (fun t => t.mem = s.mem ∧
      (∀ v, v ∉ ctxUnits s r.ctx → unitAt t v = unitAt s v) ∧
      ∀ u ∈ ctxUnits s r.ctx, unitAt t u = { unitAt s u with held := (unitAt t u).held } ∧
        (∀ ws, (unitAt s u).held = some (.replay ws) → (unitAt t u).held = if (∃ w ∈ ws, hits r w.1 = true) then none else some (.replay ws)) ∧
        (∀ p va, (unitAt s u).held = some (.fetch p va) → (unitAt t u).held = if hits r p = true then none else some (.fetch p va)))) ∧
  (∀ (r : ReplayScope) s, s.supervisor.freeze = true →
    ((s.boot = .recovery → isMessage s (.replayViolation r) = false) → goesTo (.replayViolation r) s (fun t =>
      t = { s with denials := s.denials ++ [(r, false)], mailbox := t.mailbox })) ∧
    ((s.boot = .recovery → isMessage s (.replayUnserviceable r) = false) → goesTo (.replayUnserviceable r) s (fun t =>
      t = { s with denials := s.denials ++ [(r, true)], mailbox := t.mailbox }))) ∧
  (∀ (r : ReplayScope) s u cl ws m va, onlyUnitsWait s → (s.boot = .recovery → isMessage s (.replayViolation r) = false) →
    ctxUnits s r.ctx = [u] → (unitAt s u).xheld = [] → (unitAt s u).clause = some cl → (unitAt s u).held = some (.replay ws) →
    s.supervisor.freeze = false → replayMask r ws = some (m, va) → m ≠ 0 →
    let tr := mkRec s u (cl.head + 4 * cl.next) cl.head .accessViolation 5 (m &&& cl.mask) (BitVec.ofNat 64 va)
    (entersHandler s u tr → goesTo (.replayViolation r) s (fun t => (unitAt t u).held = none ∧ (unitAt t u).clause = none ∧
      (unitAt t u).handler = some ⟨BitVec.ofNat 64 (trapAddr s u), tr, BitVec.ofNat 48 cl.head, 0, m &&& cl.mask, m &&& cl.mask⟩ ∧
      t.supervisor.reports.getLast? = some tr)) ∧
    (trapIsFatal s u tr = true → goesTo (.replayViolation r) s (fun t => (teamAt t u.team).stopped = true ∧ t.supervisor.reports.getLast? = some tr))) ∧
  (∀ (r : ReplayScope) s, (s.boot = .recovery → isMessage s (.replayUnserviceable r) = false) → s.supervisor.freeze = false →
    (waited s r = false → isMessage s (.replayUnserviceable r) = false → goesTo (.replayUnserviceable r) s (· = s)) ∧
    (∀ u us tr, onlyUnitsWait s → waited s r = true → ctxUnits s r.ctx = u :: us → (teamAt s u.team).ctx = r.ctx → (teamAt s u.team).stopped = false →
      unitWaiter s r u = some tr → (∀ v ∈ us, unitWaiter s r v = none) → (ctxAt s r.ctx).suspendBy = none →
      goesTo (.replayUnserviceable r) s (fun t => tr.cause = .faultUnserviceable ∧ (ctxAt t r.ctx).phase = .stopped ∧
        (∀ m, thas s.teams m = true → (teamAt s m).ctx = r.ctx → (teamAt t m).stopped = true) ∧
        t.supervisor.repCnt = s.supervisor.repCnt + 1 ∧ t.supervisor.reports.getLast? = some tr ∧
        (ctxAt t r.ctx).faultLog = (ctxAt s r.ctx).faultLog ++ [tr])))

/-- A message is in service on a booted device whose ring has room. -/
def Sys2Proof.Claims.messageIn (s : State) (i : Instr) (bs : List Byte) : Prop :=
  s.mailbox.inService = some bs ∧ decodeMessage bs = i ∧ s.boot = .booted ∧ hostReady s = true

/-- The next event of the ring is the REPLY to a message, after an effect; what is sent stands at its slot. -/
def Sys2Proof.Claims.answered (bs : List Byte) (st : Nat) (t0 t : State) : Prop :=
  t = { t0 with mailbox := t.mailbox } ∧ t.mailbox.deviceSeq = t0.mailbox.deviceSeq + 1 ∧
  t.mailbox.sent = t0.mailbox.sent ++ [(t0.mailbox.ringAddr + 64 * (t0.mailbox.deviceSeq.toNat % 2 ^ t0.mailbox.loge),
    eventBytes t0.mailbox.deviceSeq ⟨0x81, st, tagOf bs, []⟩)]

/-- Bytes written at an address, and nothing else of memory. -/
def Sys2Proof.Claims.wroteOnly (s t : State) (a : Nat) (bs : List Byte) : Prop :=
  memReadN t.mem a bs.length = bs ∧ ∀ b, (b < a ∨ a + bs.length ≤ b) → memRead t.mem b = memRead s.mem b

/-- Whether a queue pair is one of the 128 of its port that are connected, or may become one. -/
def Sys2Proof.Claims.mayJoin (s : State) (qp : Nat) : Prop := qp ∈ s.qps ∨ (s.qps.filter (fun q => portOf q == portOf qp)).length < 128

/-- An access answered with a NAK: its queue pair is in error, with the ring it carries, and nothing else is done. -/
def Sys2Proof.Claims.nakOn (s : State) (qp : Nat) (t : State) : Prop :=
  t = { s with qps := t.qps, qpErrors := t.qpErrors, mailbox := { s.mailbox with ringDown := t.mailbox.ringDown } } ∧
  (∀ x, x ∈ t.qpErrors ↔ x = qp ∨ x ∈ s.qpErrors) ∧ (∀ x, x ∈ t.qps ↔ x = qp ∨ x ∈ s.qps) ∧
  (s.mailbox.ringQp = qp → t.mailbox.ringDown = s.mailbox.ringPlaced) ∧ (s.mailbox.ringQp ≠ qp → t.mailbox.ringDown = s.mailbox.ringDown)

/-- The mailbox and the windows (19 R396-R405). The model's choices: window 0's RKEY (log 24); physical addresses, BAD_MESSAGE for one outside
memory, QUEUE_SET's kept commands, DEADLINE_AT's refusals, waiting and clock (log 40); the numbers of queue pairs, held writes, the
acknowledgement of the oldest write, and a ring whose queue pair is in error (log 41). -/
def Obligations.MailboxMessagesAreAnswered : Prop :=
  (∀ (n : Byte) (a : W64) s bs, messageIn s (.queueSet n a) bs →
    (s.memBytes < a.toNat + 64 → goesTo (.queueSet n a) s (answered bs 1 s)) ∧
    (a.toNat + 64 ≤ s.memBytes → (badRange s a.toNat 64 = true ∨ parseQueue (memReadN s.mem a.toNat 64) = none) →
      goesTo (.queueSet n a) s (answered bs 2 s)) ∧
    (∀ q, a.toNat + 64 ≤ s.memBytes → badRange s a.toNat 64 = false → parseQueue (memReadN s.mem a.toNat 64) = some q →
      let old := queueAt s n.toNat
      let q0 : Queue := { q with outstanding := old.outstanding.filter (fun c => !old.waiting.any (fun w => w.index == c.index)) }
      q.rd = 0 ∧ q.done = 0 ∧ q.phase = .idle ∧
      (q.en = false → goesTo (.queueSet n a) s (fun t => ∃ t0, answered bs 0 t0 t ∧ t0 = { s with queues := t0.queues } ∧
        queueAt t0 n.toNat = q0 ∧ ∀ m, m ≠ n.toNat → queueAt t0 m = queueAt s m)) ∧
      (∀ pa s1, q.en = true → fePlace { s with queues := tset s.queues n.toNat q0 } q.ctx q.widx .read = .ok pa s1 → lineOf pa ∉ s1.badLines →
        let w := bytesToW32 (memReadN s1.mem pa 4)
        goesTo (.queueSet n a) s (fun t => ∃ t0, answered bs 0 t0 t ∧ t0.mem = s1.mem ∧ t0.mailbox = s.mailbox ∧ (∀ m, m ≠ n.toNat → queueAt t0 m = queueAt s1 m) ∧
          queueAt t0 n.toNat = { q0 with watchLine := some (lineOf pa), w := w,
                                         phase := (if 2 ^ q.logn < w.toNat then .error else if w = 0 then .idle else .ready),
                                         level := (queueAt t0 n.toNat).level, aged := (queueAt t0 n.toNat).aged })))) ∧
  (∀ (n : BitVec 6) (sec : BitVec 48) (ns : W32) s,
    let c := ctxAt s n.toNat
    let p := pairAt s ((if c.counting = true ∨ c.expired = true ∨ liveWork s n.toNat = true then c.rootCluster else 0) / 2)
    let td := sec.toNat * 1000000000 + ns.toNat
    let d := deadlineCycles td s.portTime p.mhz
    (td ≤ s.portTime → d = 1) ∧
    (s.portTime < td → (td - s.portTime) * p.mhz ≤ d * 1000 ∧ d * 1000 < (td - s.portTime) * p.mhz + 1000) ∧
    (p.pending.isSome = true → exec (.deadlineAt n sec ns) s = .next s) ∧
    ∀ bs, messageIn s (.deadlineAt n sec ns) bs → p.pending = none →
      ((0xFFFFFFFF < d ∨ (c.phase ≠ .active ∧ c.phase ≠ .suspended)) → goesTo (.deadlineAt n sec ns) s (answered bs 2 s)) ∧
      (d ≤ 0xFFFFFFFF → c.phase = .active → goesTo (.deadlineAt n sec ns) s (fun t => ∃ t0, answered bs 0 t0 t ∧ t0 = { s with contexts := t0.contexts } ∧
        (ctxAt t0 n.toNat).record = { c.record with deadline := d } ∧ (ctxAt t0 n.toNat).dlrem = d ∧ (ctxAt t0 n.toNat).expired = false ∧
        (ctxAt t0 n.toNat).counting = (liveWork s n.toNat && decide (d ≠ 0)) ∧ ∀ m, m ≠ n.toNat → ctxAt t0 m = ctxAt s m)) ∧
      (d ≤ 0xFFFFFFFF → c.phase = .suspended → goesTo (.deadlineAt n sec ns) s (fun t => ∃ t0, answered bs 0 t0 t ∧ t0 = { s with contexts := t0.contexts } ∧
        ctxAt t0 n.toNat = { c with nextRecord := some { c.nextRecord.getD c.record with deadline := d } }))) ∧
  (∀ (a : W64) s bs, messageIn s (.health a) bs →
    (s.memBytes < a.toNat + 64 → goesTo (.health a) s (answered bs 1 s)) ∧
    (a.toNat + 64 ≤ s.memBytes → goesTo (.health a) s (fun t => ∃ t0, answered bs 0 t0 t ∧ t0.mailbox = s.mailbox ∧ t0.health = s.health ∧
      wroteOnly s t a.toNat (healthBytes s.health)))) ∧
  (∀ (nonce : BitVec 256) (a : W64) s bs, messageIn s (.attest nonce a) bs →
    (s.memBytes < a.toNat + 3392 → goesTo (.attest nonce a) s (answered bs 1 s)) ∧
    (a.toNat + 3392 ≤ s.memBytes → 2 ^ 20 ≤ s.attestIndex → goesTo (.attest nonce a) s (answered bs 3 s)) ∧
    (a.toNat + 3392 ≤ s.memBytes → s.attestIndex < 2 ^ 20 → goesTo (.attest nonce a) s (fun t => ∃ t0, answered bs 0 t0 t ∧ t0.mailbox = s.mailbox ∧
      t.attestIndex = s.attestIndex + 1 ∧ (∀ b, (b < a.toNat ∨ a.toNat + 3392 ≤ b) → memRead t.mem b = memRead s.mem b) ∧
      memReadN t.mem a.toNat 32 = natToBytes 32 nonce.toNat ∧ memReadN t.mem (a.toNat + 356) 4 = natToBytes 4 s.attestIndex ∧
      memReadN t.mem (a.toNat + 384) 64 = healthBytes s.health ∧ memReadN t.mem (a.toNat + 3332) 60 = List.replicate 60 0))) ∧
  (∀ (sl : BitVec 4) (a : W64) (n : W32) s bs, messageIn s (.fwStage sl a n) bs →
    (s.memBytes < a.toNat + n.toNat → goesTo (.fwStage sl a n) s (answered bs 1 s)) ∧
    (a.toNat + n.toNat ≤ s.memBytes → badRange s a.toNat n.toNat = true → goesTo (.fwStage sl a n) s (answered bs 2 s)) ∧
    (a.toNat + n.toNat ≤ s.memBytes → badRange s a.toNat n.toNat = false → goesTo (.fwStage sl a n) s (fun t => ∃ t0, answered bs 0 t0 t ∧
      t0 = { s with images := t0.images } ∧
      tget {} t0.images sl.toNat = { tget {} s.images sl.toNat with staged := some (memReadN s.mem a.toNat n.toNat) } ∧
      ∀ j, j ≠ sl.toNat → tget {} t0.images j = tget {} s.images j))) ∧
  (∀ (wn ctx : BitVec 6) (rt : WindowRights) (rkey : W32) (base : BitVec 48) (n : W32) s bs, messageIn s (.windowSet wn ctx rt rkey base n) bs →
    let ok := (ctxAt s ctx.toNat).phase ≠ .free ∧ base.toNat + n.toNat * 65536 ≤ Config.globalLimit ∧
      rangeMapped s ctx.toNat base.toNat (n.toNat * 65536) rt.write = true
    (rt.read = false → rt.write = false → goesTo (.windowSet wn ctx rt rkey base n) s (fun t => ∃ t0, answered bs 0 t0 t ∧
      t0 = { s with windows := t0.windows } ∧ tget? t0.windows wn.toNat = none)) ∧
    ((rt.read = true ∨ rt.write = true) → ¬ ok → goesTo (.windowSet wn ctx rt rkey base n) s (answered bs 2 s)) ∧
    ((rt.read = true ∨ rt.write = true) → ok →
      let places := linkPlaces s ctx.toNat (if rt.write = true then .write else .read) ((pagesOf base.toNat (n.toNat * 65536)).map (· * 65536))
      (places = none → goesTo (.windowSet wn ctx rt rkey base n) s (answered bs 2 s)) ∧
      ∀ frames s1, places = some (frames, s1) → goesTo (.windowSet wn ctx rt rkey base n) s (fun t => ∃ t0, answered bs 0 t0 t ∧
        t0 = { s1 with windows := t0.windows } ∧
        tget? t0.windows wn.toNat = some ⟨rkey, ctx.toNat, rt, base.toNat, n.toNat * 65536, frames⟩ ∧
        ∀ j, j ≠ wn.toNat → tget? t0.windows j = tget? s1.windows j))) ∧
  (∀ (qp : BitVec 16) (rkey : W32) (a : W64) (lg : BitVec 4) s bs,
    let i := Instr.eventRing qp rkey a lg
    let q := 65536 * s.mailbox.servicePort + qp.toNat
    (messageIn s i bs → (q ∈ s.qpErrors ∨ ¬ mayJoin s q) → goesTo i s (answered bs 2 s)) ∧
    (s.mailbox.inService = some bs → decodeMessage bs = i → s.boot = .booted → s.mailbox.queue = [] → q ∉ s.qpErrors → mayJoin s q →
      s.mailbox.ringPlaced = true → (s.mailbox.deviceSeq - s.mailbox.evack).toNat < 2 ^ (lg.toNat + 6) →
      goesTo i s (fun t => ∃ t0, answered bs 0 t0 t ∧ t0 = { s with qps := t0.qps, mailbox := { s.mailbox with
        ringQp := q, ringRkey := rkey, ringAddr := a.toNat, loge := lg.toNat + 6, ringDown := false } } ∧ ∀ x, x ∈ t0.qps ↔ x = q ∨ x ∈ s.qps)) ∧
    (∀ e, s.mailbox.inService = some bs → decodeMessage bs = i → s.boot = .booted → q ∉ s.qpErrors → mayJoin s q → s.mailbox.ringPlaced = false →
      s.mailbox.queue = [e] → s.mailbox.evack = 0 → goesTo i s (fun t => t = { s with qps := t.qps, mailbox := t.mailbox } ∧ t.mailbox.ringPlaced = true ∧
        t.mailbox.deviceSeq = 2 ∧ t.mailbox.ringAddr = a.toNat ∧ t.mailbox.loge = lg.toNat + 6 ∧
        t.mailbox.sent = s.mailbox.sent ++ [(a.toNat, eventBytes 0 e), (a.toNat + 64, eventBytes 1 ⟨0x81, 0, tagOf bs, []⟩)]))) ∧
  (∀ (v : W32) s, s.mailbox.ringPlaced = true → s.mailbox.ringDown = false → ∀ e, s.mailbox.queue = [e] →
    ((s.mailbox.deviceSeq - v).toNat < 2 ^ s.mailbox.loge → goesTo (.evackWrite v) s (fun t => t = { s with mailbox := t.mailbox } ∧
      t.mailbox.evack = v ∧ t.mailbox.sent = s.mailbox.sent ++
        [(s.mailbox.ringAddr + 64 * (s.mailbox.deviceSeq.toNat % 2 ^ s.mailbox.loge), eventBytes s.mailbox.deviceSeq e)])) ∧
    (2 ^ s.mailbox.loge ≤ (s.mailbox.deviceSeq - v).toNat →
      goesTo (.evackWrite v) s (fun t => t = { s with mailbox := { s.mailbox with evack := v } }))) ∧
  (∀ s bs, messageIn s .badMessage bs → goesTo .badMessage s (answered bs (if 0x80 ≤ typeOf bs then 2 else 1) s)) ∧
  (∀ i s bs, s.mailbox.inService = some bs → decodeMessage bs = i → s.boot = .recovery → hostReady s = true →
    ((∃ n a, i = .queueSet n a) ∨ (∃ w c r k b n, i = .windowSet w c r k b n) ∨ i = .badMessage) → goesTo i s (answered bs 2 s)) ∧
  (∀ (qp : Nat) (rkey : W32) (a : Nat) (bs : List Byte) s, s.boot = .booted →
    ((qp ∈ s.qpErrors ∨ ¬ mayJoin s qp) → exec (.rdmaWrite qp rkey a bs) s = .next s ∧ ∀ n, exec (.rdmaRead qp rkey a n) s = .next s) ∧
    (qp ∉ s.qpErrors → mayJoin s qp → rkey ≠ 0 →
      (∀ kind ps, windowPlaces s rkey a bs.length kind = some ps → ∃ w, windowOf s rkey = some w ∧ w.base ≤ a ∧ a + bs.length ≤ w.base + w.len ∧
        (kind.writes = true → w.rights.write = true) ∧ (kind.writes = false → w.rights.read = true) ∧
        ∀ i, i < bs.length → ps[i]? = some (w.frames.getD ((a + i) / 65536 - w.base / 65536) 0 + (a + i) % 65536)) ∧
      (windowPlaces s rkey a bs.length .write = none → goesTo (.rdmaWrite qp rkey a bs) s (nakOn s qp)) ∧
      (windowPlaces s rkey a bs.length .read = none → goesTo (.rdmaRead qp rkey a bs.length) s (nakOn s qp)) ∧
      (∀ ps, windowPlaces s rkey a bs.length .write = some ps → ((∃ h ∈ s.linkHeld, h.1 = qp) ∨ ∃ p ∈ ps, ownedLine s (.phys (lineOf p)) = true) →
        goesTo (.rdmaWrite qp rkey a bs) s (fun t => t = { s with qps := t.qps, linkHeld := s.linkHeld ++ [(qp, ps.zip bs)] })) ∧
      (∀ ps, windowPlaces s rkey a bs.length .write = some ps → (∀ h ∈ s.linkHeld, h.1 ≠ qp) → (∀ p ∈ ps, ownedLine s (.phys (lineOf p)) = false) →
        goesTo (.rdmaWrite qp rkey a bs) s (fun t => t.mem = memApply s.mem (ps.zip bs) ∧ t.qpErrors = s.qpErrors ∧ qp ∈ t.qps)) ∧
      (∀ ps, windowPlaces s rkey a bs.length .read = some ps →
        ((∃ p ∈ ps, lineOf p ∈ s.badLines) → goesTo (.rdmaRead qp rkey a bs.length) s (nakOn s qp)) ∧
        ((∀ p ∈ ps, lineOf p ∉ s.badLines) → goesTo (.rdmaRead qp rkey a bs.length) s (fun t =>
          t = { s with qps := t.qps, linkReads := s.linkReads ++ [(qp, ps.map (memRead s.mem))] })))) ∧
    (qp ∉ s.qpErrors → mayJoin s qp → rkey = 0 →
      (∀ i, i < 64 → a = 64 * i → bs.length = 64 → (∀ h ∈ s.linkHeld, h.1 ≠ qp) → goesTo (.rdmaWrite qp rkey a bs) s (fun t =>
        t = { s with qps := t.qps, mailbox := t.mailbox } ∧
        tget? t.mailbox.slots i = some bs ∧ tget 0 t.mailbox.ports i = qp / 65536 % 2 ∧ ∀ j, j ≠ i → tget? t.mailbox.slots j = tget? s.mailbox.slots j)) ∧
      (0x1004 < a + bs.length → goesTo (.rdmaWrite qp rkey a bs) s (nakOn s qp)))) ∧
  (∀ (qp : Nat) s, ((∀ e ∈ s.peerPending, e.1 ≠ qp) → exec (.peerAcknowledgement qp) s = .next s) ∧
    ∀ l r x, s.peerPending = l ++ (qp, x) :: r → (∀ e ∈ l, e.1 ≠ qp) →
      goesTo (.peerAcknowledgement qp) s (fun t => t = { s with peerPending := l ++ r }))

/-- A class whose last spare has gone has its REPLACE bit set and sends one REPLACE event; otherwise nothing is sent. -/
def Sys2Proof.Claims.classTold (s t : State) (bit left : Nat) : Prop :=
  t = { s with health := t.health, mailbox := t.mailbox, cores := t.cores, migrations := t.migrations } ∧
  (left = 0 → s.health.replace.getLsbD bit = false → t.health.replace = s.health.replace ||| (1#4 <<< bit) ∧
    t.mailbox = { s.mailbox with queue := s.mailbox.queue ++ [⟨0x86, 0, 0, natToBytes 1 t.health.replace.toNat⟩] }) ∧
  ((left ≠ 0 ∨ s.health.replace.getLsbD bit = true) → t.health.replace = s.health.replace ∧ t.mailbox = s.mailbox)

/-- The supervisor, boot and spares (17 R383-R387, 19 R403, R406, R407). The model's choices: STEP without FROZEN, and denials that wait for
UNFREEZE (log 39); no supervisor write before boot, staged images taken at BOOT, the boot report, what outlasts a reset, and the rows that
back a replaced one (log 42). -/
def Obligations.SupervisionBootAndSpares : Prop :=
  (∀ s, s.boot ≠ .booted → (∀ i, (i = .freeze ∨ i = .unfreeze ∨ i = .step ∨ i = .pairerrClear ∨ ∃ lo hi, i = .pairModeSet lo hi) → exec i s = .next s)) ∧
  (∀ s, s.boot = .booted → goesTo .freeze s (· = { s with supervisor := { s.supervisor with freeze := true } })) ∧
  (∀ s, goesTo .frozenReached s (· = if s.supervisor.freeze = true then { s with supervisor := { s.supervisor with frozen := true } } else s)) ∧
  (∀ s, s.boot = .booted → let s1 := { s with supervisor := { s.supervisor with freeze := false, frozen := false, stepping := none } }
    goesTo .unfreeze s (· = heldDenials s1) ∧ (s.denials = [] → goesTo .unfreeze s (· = s1))) ∧
  (∀ s, s.boot = .booted → goesTo .pairerrClear s (· = { s with supervisor := { s.supervisor with pairErr := false } })) ∧
  (∀ (lo hi : W32) s, s.boot = .booted → goesTo (.pairModeSet lo hi) s (· = { s with supervisor := { s.supervisor with pairLo := lo, pairHi := hi } })) ∧
  (∀ s, (s.supervisor.freeze = false ∨ s.supervisor.frozen = false → exec .step s = .next s) ∧
    ∀ m tm n g, s.boot = .booted → s.supervisor.freeze = true → s.supervisor.frozen = true → s.teams = [(m, tm)] → tm.units = [(n, g)] → tm.phase ≠ .saved →
      tm.phase ≠ .placed → tm.core = s.supervisor.score →
      (n < 32 → g.slot = s.supervisor.sgroup → s.supervisor.sgroup ≠ 32 → g.retired = false →
        goesTo .step s (· = { s with supervisor := { s.supervisor with stepping := some ⟨m, n⟩ } })) ∧
      (n = 32 → s.supervisor.sgroup = 32 → goesTo .step s (· = { s with supervisor := { s.supervisor with stepping := some ⟨m, 32⟩ } })) ∧
      (n < 32 → s.supervisor.sgroup ≠ 32 → (g.slot ≠ s.supervisor.sgroup ∨ g.retired = true) →
        goesTo .step s (· = { s with supervisor := { s.supervisor with stepping := none } }))) ∧
  (∀ s, let s0 := if s.boot = .inReset then s else deviceReset s
    (s.boot ≠ .inReset → s0.images = s.images ∧ s0.attestIndex = s.attestIndex ∧ s0.health = s.health ∧ s0.mem = State.reset.mem ∧
      s0.contexts = State.reset.contexts ∧ s0.queues = State.reset.queues ∧ s0.teams = State.reset.teams ∧ s0.supervisor = State.reset.supervisor) ∧
    goesTo .boot s (fun t =>
      (∀ i, i < 9 → tget {} t.images i = match (tget {} s.images i).staged with
        | some b => { tget {} s.images i with bytes := b, staged := none }
        | none => tget {} s.images i) ∧
      (∀ i, imagePasses t i = true ↔ Config.imageVerifies (i == 8) (tget {} t.images i).bytes = true ∧
        (7 ≤ i ∨ (tget {} t.images i).rollback.toNat ≤ (Config.imageVersion (tget {} t.images i).bytes).toNat)) ∧
      ((∃ i, i < 9 ∧ imagePasses t i = false) → t = { s0 with images := t.images, boot := .recovery }) ∧
      ((∀ i, i < 9 → imagePasses t i = true) →
        t = { s0 with images := t.images, boot := .booted, mailbox := t.mailbox, cores := t.cores, peerBinding := t.peerBinding } ∧
        t.mailbox = { s0.mailbox with queue := s0.mailbox.queue ++ [⟨0x85, 0, 0, (healthBytes s.health).take 40⟩] } ∧
        (∀ c, coreAt t c = { coreAt s0 c with spare := (coreAt t c).spare, retired := (coreAt t c).retired } ∧
          (coreAt t c).retired = ((coreAt s0 c).retired || hasNat s.health.retired c) ∧
          ((∀ k, (k, c) ∉ s.health.standIn) → (coreAt t c).spare = (coreAt s0 c).spare) ∧
          ((∃ k, (k, c) ∈ s.health.standIn) → ∃ k, (k, c) ∈ s.health.standIn ∧ (coreAt t c).spare = some k)) ∧
        ∀ g, tget? t.peerBinding g = if g < (2 ^ 48 - 0xF00000000000) / 2 ^ 30 then some (Config.peerPair g) else none))) ∧
  (∀ (c : Nat) s, s.supervisor.freeze = false → spareFree s c = true →
    (coreInUse s c = false → goesTo (.spareReplacement .core c) s (fun t => classTold s t 0 (s.health.coreSpares - 1) ∧
      t.health = { s.health with coreSpares := s.health.coreSpares - 1, standIn := tset s.health.standIn (clusterOf c / 3) c, replace := t.health.replace } ∧
      coreAt t c = { coreAt s c with spare := some (clusterOf c / 3) } ∧ (∀ d, d ≠ c → coreAt t d = coreAt s d) ∧ t.migrations = s.migrations)) ∧
    (∀ m tm, s.teams = [(m, tm)] → standsOn tm c = true → tm.phase = .running → preemptable s m = true → preemptSet s m = [m] →
      goesTo (.spareReplacement .core c) s (fun t => (teamAt t m).phase = .saving ∧ t.health = s.health ∧ coreAt t c = coreAt s c))) ∧
  (∀ (x : Nat) s,
    (s.health.rowSpares = 0 → goesTo (.spareReplacement .l2Row x) s (fun t => classTold s t 1 0 ∧ t.cores = s.cores ∧ t.migrations = s.migrations ∧
      t.health = { s.health with replace := t.health.replace })) ∧
    (s.health.rowSpares ≠ 0 → goesTo (.spareReplacement .l2Row x) s (fun t => classTold s t 1 (s.health.rowSpares - 1) ∧ t.cores = s.cores ∧
      t.migrations = s.migrations ∧ t.health = { s.health with rowSpares := s.health.rowSpares - 1, replace := t.health.replace })) ∧
    (s.health.ringSpares = 0 → goesTo (.spareReplacement .ringSegment x) s (fun t => classTold s t 2 0 ∧ t.cores = s.cores ∧ t.migrations = s.migrations ∧
      t.health = { s.health with replace := t.health.replace })) ∧
    (s.health.ringSpares ≠ 0 → goesTo (.spareReplacement .ringSegment x) s (fun t => classTold s t 2 (s.health.ringSpares - 1) ∧ t.cores = s.cores ∧
      t.migrations = s.migrations ∧ t.health = { s.health with ringSpares := s.health.ringSpares - 1, replace := t.health.replace })) ∧
    ((64 ≤ s.migrations.length ∨ ∃ m ∈ s.migrations, m.frame = x) → exec (.spareReplacement .dramRow x) s = .next s) ∧
    (s.migrations.length < 64 → (∀ m ∈ s.migrations, m.frame ≠ x) → s.health.dramSpares ≠ 0 →
      goesTo (.spareReplacement .dramRow x) s (fun t => classTold s t 3 (s.health.dramSpares - 1) ∧ t.cores = s.cores ∧
        t.health = { s.health with dramSpares := s.health.dramSpares - 1, replace := t.health.replace } ∧
        t.migrations = s.migrations ++ [⟨x, backingOf s x, s.memBytes / 65536 + s.health.dramSpares, 0⟩])) ∧
    (s.migrations.length < 64 → (∀ m ∈ s.migrations, m.frame ≠ x) → s.health.dramSpares = 0 → ∀ s0 pa s1, classTold s s0 3 0 →
      s0 = { s with mailbox := s0.mailbox, health := { s.health with replace := s0.health.replace } } → takeFrame s0 = some (pa, s1) →
      goesTo (.spareReplacement .dramRow x) s (· = { s1 with
        migrations := s1.migrations ++ [⟨x, backingOf s1 x, backingOf s1 (pa / 65536), 0⟩] }))) ∧
  (∀ (c : Nat) s, s.supervisor.freeze = false → c < 192 → (coreAt s c).retired = false → thas s.health.standIn (clusterOf c / 3) = true →
    (coreInUse s c = false → goesTo (.coreRetirement c) s (fun t => classTold { s with grids := t.grids } t 0 s.health.coreSpares ∧
      coreAt t c = { coreAt s c with retired := true } ∧ (∀ d, d ≠ c → coreAt t d = coreAt s d) ∧ t.migrations = s.migrations ∧
      t.health = { s.health with retired := s.health.retired ++ [c], cores := s.health.cores - 1, replace := t.health.replace } ∧
      (∀ g, gridAt t g = { gridAt s g with reservedSlots := (gridAt t g).reservedSlots }) ∧
      ∀ g x, x ∈ (gridAt t g).reservedSlots ↔ x ∈ (gridAt s g).reservedSlots ∧ x.2 ≠ c ∧ (lockstep s (gridAt s g).ctx = true → x.2 + 1 ≠ c))) ∧
    (∀ m tm, s.teams = [(m, tm)] → standsOn tm c = true → tm.phase = .running → preemptable s m = true → preemptSet s m = [m] →
      goesTo (.coreRetirement c) s (fun t => (teamAt t m).phase = .saving ∧ t.health = s.health ∧ (coreAt t c).retired = false)))
end

