-- ==== Sys2Proof/Laws/Effects.lean ====
section
/-! SUPPORT. What the shared operations on memory and traps do to home memory: homeWrite is the one operation that changes it, and
every operation built on it keeps the canonical form. -/

set_option linter.unusedVariables false

namespace Sys2Proof.Machine

/-! ## Home writes (05 R102) -/

@[simp] theorem testWaits_mem (s : State) : (testWaits s).mem = s.mem := rfl
@[simp] theorem testWaits_contexts (s : State) : (testWaits s).contexts = s.contexts := rfl
@[simp] theorem testWaits_cores (s : State) : (testWaits s).cores = s.cores := rfl

@[simp] theorem queueErrorLog_mem (s : State) (a b : Queue) : (queueErrorLog s a b).mem = s.mem := by
  unfold queueErrorLog; split <;> rfl
@[simp] theorem queueErrorLog_cores (s : State) (a b : Queue) : (queueErrorLog s a b).cores = s.cores := by
  unfold queueErrorLog; split <;> rfl
@[simp] theorem queueErrorLog_teams (s : State) (a b : Queue) : (queueErrorLog s a b).teams = s.teams := by
  unfold queueErrorLog; split <;> rfl
@[simp] theorem queueErrorLog_mailbox (s : State) (a b : Queue) : (queueErrorLog s a b).mailbox = s.mailbox := by
  unfold queueErrorLog; split <;> rfl

/-- A fold keeps a field that each of its steps keeps. -/
theorem foldl_keeps {α β : Type} (f : State → α → State) (p : State → β) (h : ∀ s a, p (f s a) = p s) (l : List α) (s : State) :
    p (l.foldl f s) = p s := by
  induction l generalizing s with
  | nil => rfl
  | cons a r ih => rw [List.foldl_cons, ih, h]

/-- A field that a watched write index leaves alone. -/
theorem wakeQueues_keeps {β : Type} (p : State → β) (h1 : ∀ s (q : TMap Queue), p { s with queues := q } = p s)
    (h2 : ∀ s a b, p (queueErrorLog s a b) = p s) (s : State) (ls : List Nat) : p (wakeQueues s ls) = p s := by
  unfold wakeQueues
  refine foldl_keeps _ p ?_ _ _
  intro s e
  split
  · rfl
  · split
    · simp only [h2, h1]
    · rfl

@[simp] theorem wakeQueues_mem (s : State) (ls : List Nat) : (wakeQueues s ls).mem = s.mem :=
  wakeQueues_keeps (·.mem) (fun _ _ => rfl) queueErrorLog_mem s ls
@[simp] theorem wakeQueues_cores (s : State) (ls : List Nat) : (wakeQueues s ls).cores = s.cores :=
  wakeQueues_keeps (·.cores) (fun _ _ => rfl) queueErrorLog_cores s ls
@[simp] theorem wakeQueues_teams (s : State) (ls : List Nat) : (wakeQueues s ls).teams = s.teams :=
  wakeQueues_keeps (·.teams) (fun _ _ => rfl) queueErrorLog_teams s ls
@[simp] theorem wakeQueues_mailbox (s : State) (ls : List Nat) : (wakeQueues s ls).mailbox = s.mailbox :=
  wakeQueues_keeps (·.mailbox) (fun _ _ => rfl) queueErrorLog_mailbox s ls

/-- Home memory after home writes. -/
theorem homeWrite_mem (s : State) (ws : Writes) : (homeWrite s ws).mem = memApply s.mem ws := by
  unfold homeWrite
  split
  · rename_i h; subst h; rfl
  · simp

@[simp] theorem homeWrite_cores (s : State) (ws : Writes) : (homeWrite s ws).cores = s.cores := by
  unfold homeWrite; split <;> simp

@[simp] theorem homeWrite_mailbox (s : State) (ws : Writes) : (homeWrite s ws).mailbox = s.mailbox := by
  unfold homeWrite
  split
  · rfl
  · simp [testWaits]

theorem homeWrite_wf (s : State) (ws : Writes) (h : Memory.wf s.mem = true) : Memory.wf (homeWrite s ws).mem = true := by
  rw [homeWrite_mem]; exact memApply_wf ws s.mem h

/-- A byte no home write names stays. -/
theorem homeWrite_other (s : State) (ws : Writes) (b : Nat) (h : ∀ w ∈ ws, w.1 ≠ b) :
    memRead (homeWrite s ws).mem b = memRead s.mem b := by
  rw [homeWrite_mem]; exact memRead_memApply_other ws s.mem b h

/-- Consecutive bytes written home read back. -/
theorem homeWrite_read (s : State) (a : Nat) (bs : List Byte) : memReadN (homeWrite s (writesOf a bs)).mem a bs.length = bs := by
  rw [homeWrite_mem]; exact memReadN_memApply_writesOf bs s.mem a

/-! ## Publishing, engine writes, atomics, ownership -/

theorem engineWrite_mem (s : State) (ws : Writes) : (engineWrite s ws).mem = memApply s.mem ws := by
  unfold engineWrite; rw [homeWrite_mem]

theorem engineWrite_wf (s : State) (ws : Writes) (h : Memory.wf s.mem = true) : Memory.wf (engineWrite s ws).mem = true := by
  rw [engineWrite_mem]; exact memApply_wf ws s.mem h

theorem publish_wf (s : State) (c : Nat) (sel : Nat → Bool) (h : Memory.wf s.mem = true) : Memory.wf (publish s c sel).mem = true :=
  homeWrite_wf _ _ (by simpa using h)

theorem releaseStep_wf (s : State) (c : Nat) (h : Memory.wf s.mem = true) : Memory.wf (releaseStep s c).mem = true := publish_wf s c _ h

@[simp] theorem acquireStep_mem (s : State) (c : Nat) : (acquireStep s c).mem = s.mem := rfl

theorem arStep_wf (s : State) (c : Nat) (h : Memory.wf s.mem = true) : Memory.wf (arStep s c).mem = true := releaseStep_wf s c h

theorem atomicWrite_wf (s : State) (c a : Nat) (bs : List Byte) (h : Memory.wf s.mem = true) : Memory.wf (atomicWrite s c a bs).mem = true :=
  homeWrite_wf _ _ (by simpa using publish_wf s c _ h)

theorem drainGlobal_mem (s : State) (c : Nat) (ws : Writes) : (drainGlobal s c ws).mem = s.mem := rfl

/-- A property that every step of a fold keeps holds after it. -/
theorem foldl_inv {α : Type} (f : State → α → State) (p : State → Prop) (h : ∀ s a, p s → p (f s a)) (l : List α) (s : State) (hs : p s) :
    p (l.foldl f s) := by
  induction l generalizing s with
  | nil => exact hs
  | cons a r ih => exact ih _ (h _ _ hs)

theorem takeLine_wf (op : Nat) (s : State) (k : LineKey) (h : Memory.wf s.mem = true) : Memory.wf (takeLine op s k).mem = true := by
  unfold takeLine
  split
  · exact foldl_inv _ (fun s => Memory.wf s.mem = true) (fun s e hs => publish_wf s _ _ hs) _ _ h
  · exact h

theorem takeLines_wf (op : Nat) (s : State) (ks : List LineKey) (h : Memory.wf s.mem = true) : Memory.wf (takeLines op s ks).mem = true := by
  induction ks generalizing s with
  | nil => exact h
  | cons k r ih =>
    unfold takeLines
    split
    · exact ih _ h
    · exact ih _ (takeLine_wf op s k h)

/-! ## Translation (17 R364) -/

theorem fillAgent_mem (cl : Nat) (e : TlbEntry) (s : State) (a : Nat) : (fillAgent cl e s a).mem = s.mem := by
  unfold fillAgent
  split
  · rfl
  · split <;> rfl

theorem endFill_mem (s : State) (cl : Nat) (f : PendingFill) : (endFill s cl f).mem = s.mem := by
  unfold endFill
  dsimp only
  split
  · rfl
  · exact foldl_inv _ (fun t => t.mem = s.mem) (fun t a ht => (fillAgent_mem cl f.entry t a).trans ht) _ _ rfl

theorem addFill_mem (s : State) (c : Nat) (e : TlbEntry) : (addFill s c e).mem = s.mem := by
  unfold addFill
  dsimp only
  split
  · rfl
  · split
    · rfl
    · split
      · exact endFill_mem _ _ _
      · rfl

theorem addWalks_mem (s : State) (c : Nat) (es : List WalkEntry) : (addWalks s c es).mem = s.mem := by
  unfold addWalks; dsimp only; split <;> rfl

/-- A walk changes home memory by the A and D bits of its leaf alone, and keeps the canonical form. -/
theorem markLeaf_wf (s : State) (kind : AccKind) (w : Walk) (h : Memory.wf s.mem = true) : Memory.wf (markLeaf s kind w).2.mem = true := by
  unfold markLeaf
  cases w with
  | leaf l base pte =>
    dsimp only
    generalize rightsOf l kind = r
    cases r with
    | some n => exact h
    | none =>
      dsimp only
      split <;> split <;> first | exact h | exact homeWrite_wf _ _ h
  | fault lv hh => exact h
  | violation n => exact h

/-- A translation keeps the canonical form. -/
theorem translate_wf (s : State) (core : Option Nat) (ctx va : Nat) (kind : AccKind) (h : Memory.wf s.mem = true) :
    Memory.wf (translate s core ctx va kind).2.mem = true := by
  unfold translate
  split
  · split
    · exact h
    · rename_i table level _
      generalize hw : markLeaf s kind (walkFrom s va table level) = m
      have hm := markLeaf_wf s kind (walkFrom s va table level) h
      rw [hw] at hm
      obtain ⟨w, s'⟩ := m
      cases w <;> cases core <;> simpa [addFill_mem, addWalks_mem] using hm
  · exact h

/-! ## Traps (14 R308) -/

theorem writeTrapRec_wf (s : State) (u : UnitId) (r : TrapRec) (h : Memory.wf s.mem = true) : Memory.wf (writeTrapRec s u r).mem = true := by
  unfold writeTrapRec
  dsimp only
  split
  · exact homeWrite_wf _ _ h
  · exact h

theorem barRelease_mem (s : State) (b : Barrier) (st : W32) : (barRelease s b st).mem = s.mem := by
  unfold barRelease
  refine foldl_keeps _ (·.mem) ?_ _ _
  intro s a
  dsimp only
  split <;> rfl

theorem checkBar_mem (s : State) (t n : Nat) : (checkBar s t n).mem = s.mem := by
  unfold checkBar releaseBar setBar
  dsimp only
  split
  · exact barRelease_mem _ _ _
  · rfl

theorem setGangBar_mem (s : State) (t : Nat) (b : Barrier) : (setGangBar s t b).mem = s.mem := by
  unfold setGangBar; split <;> rfl

theorem checkGangBar_mem (s : State) (t : Nat) : (checkGangBar s t).mem = s.mem := by
  unfold checkGangBar releaseGangBar
  dsimp only
  split
  · rw [setGangBar_mem]
    rw [foldl_keeps acquireStep (·.mem) (fun _ _ => rfl)]
    exact barRelease_mem _ _ _
  · rfl

@[simp] theorem checkBars_mem (s : State) (t : Nat) : (checkBars s t).mem = s.mem := by
  unfold checkBars
  rw [checkGangBar_mem]
  exact foldl_keeps _ (·.mem) (fun s n => checkBar_mem s t n) _ _

/-- A team's stop changes no byte of home memory. -/
@[simp] theorem stopTeam_mem (s : State) (t : Nat) (r : Option (UnitId × TrapRec)) : (stopTeam s t r).mem = s.mem := by
  unfold stopTeam
  dsimp only
  rw [checkBars_mem]
  split <;> rfl

/-- Taking a trap keeps the canonical form: the record is the one thing it writes. -/
theorem trapDeliver_wf (s : State) (u : UnitId) (r : TrapRec) (h : Memory.wf s.mem = true) : Memory.wf (trapDeliver s u r).mem = true := by
  unfold trapDeliver
  dsimp only
  split
  · simpa using writeTrapRec_wf s u r h
  · simpa using writeTrapRec_wf s u r h

end Sys2Proof.Machine
end

