-- ==== Sys2Proof/Laws/Shapes.lean ====
section
/-! SUPPORT. What the shapes of short-latency words do: a fold over the participants that writes each lane once, and, per shape, one
lemma that says everything its next state holds. Proofs about register words cite these. -/

set_option linter.unusedVariables false

namespace Sys2Proof.Machine

/-! ## Participants -/

theorem maskLanes_nodup (m : W32) : (maskLanes m).Nodup := (List.nodup_range).filter _

theorem parts_nodup (x : Ctx) (g : Guard) : (x.parts g).Nodup := (maskLanes_nodup _).filter _

/-! ## Folds that touch one lane at a time -/

/-- A fold leaves every lane outside its list. -/
theorem foldl_lanes_ne (step : Grp → Nat → Grp) (hne : ∀ gr l j, j ≠ l → thrAt (step gr l) j = thrAt gr j)
    (ls : List Nat) (gr : Grp) (j : Nat) (h : j ∉ ls) : thrAt (ls.foldl step gr) j = thrAt gr j := by
  induction ls generalizing gr with
  | nil => rfl
  | cons l r ih =>
    simp only [List.mem_cons, not_or] at h
    simp only [List.foldl_cons]
    rw [ih _ h.2, hne _ _ _ h.1]

/-- A fold over distinct lanes writes each once, from its thread at the start. -/
theorem foldl_lanes_mem (step : Grp → Nat → Grp) (F : Nat → Thread → Thread) (hne : ∀ gr l j, j ≠ l → thrAt (step gr l) j = thrAt gr j)
    (hs : ∀ gr l, thrAt (step gr l) l = F l (thrAt gr l)) (ls : List Nat) (gr : Grp) (hn : ls.Nodup) (j : Nat) (h : j ∈ ls) :
    thrAt (ls.foldl step gr) j = F j (thrAt gr j) := by
  induction ls generalizing gr with
  | nil => simp at h
  | cons l r ih =>
    simp only [List.nodup_cons] at hn
    simp only [List.foldl_cons]
    by_cases e : j = l
    · subst e
      rw [foldl_lanes_ne step hne r _ j hn.1, hs]
    · rw [ih _ hn.2 (by simpa [e] using h), hne _ _ _ e]

/-- A fold of steps that change only threads and conductor registers changes only those. -/
theorem foldl_onlyThreads (step : Grp → Nat → Grp) (h : ∀ gr l, ∃ ths k, step gr l = { gr with threads := ths, k := k })
    (ls : List Nat) (gr : Grp) : ∃ ths k, ls.foldl step gr = { gr with threads := ths, k := k } := by
  induction ls generalizing gr with
  | nil => exact ⟨gr.threads, gr.k, rfl⟩
  | cons l r ih =>
    obtain ⟨a, b, e⟩ := h gr l
    obtain ⟨ths, k, e'⟩ := ih (step gr l)
    exact ⟨ths, k, by rw [List.foldl_cons, e', e]⟩

theorem onlyThreads_trans {g h j : Grp} (a : ∃ ths k, h = { g with threads := ths, k := k }) (b : ∃ ths k, j = { h with threads := ths, k := k }) :
    ∃ ths k, j = { g with threads := ths, k := k } := by
  obtain ⟨_, _, rfl⟩ := a
  obtain ⟨_, _, rfl⟩ := b
  exact ⟨_, _, rfl⟩

theorem advance_onlyThreads (g : Grp) (ths : TMap Thread) (k : TMap W64) :
    advance { g with threads := ths, k := k } = { advance g with threads := ths, k := k } := by
  obtain ⟨⟩ := g
  unfold advance
  split <;> simp_all

/-! ## One lane's write -/

/-- The thread a 32-bit result leaves (06 R129, 02 R41). -/
def afterO (cond : Bool) (d : OField) (v lt : W32) (t : Thread) : Thread :=
  { t with lt := lt, t := if d.toNat ≤ 11 && !cond then tset t.t d.toNat v else t.t }

theorem thrAt_writeO (cond : Bool) (g : Grp) (l j : Nat) (d : OField) (v lt : W32) :
    thrAt (writeO cond g l d v lt) j = if j = l then afterO cond d v lt (thrAt g l) else thrAt g j := by
  have h : thrAt (writeO cond g l d v lt) j =
      thrAt (modThr g l (fun t => { t with lt := lt, t := if d.toNat ≤ 11 && !cond then tset t.t d.toNat v else t.t })) j := by
    unfold writeO
    by_cases e : (decide (d.toNat ≤ 11) && cond) = true
    · rw [if_pos e]; rfl
    · rw [if_neg e]
  rw [h, thrAt_modThr]; rfl

theorem writeO_onlyThreads (cond : Bool) (g : Grp) (l : Nat) (d : OField) (v lt : W32) :
    ∃ ths k, writeO cond g l d v lt = { g with threads := ths, k := k } := by
  unfold writeO modThr
  by_cases e : (decide (d.toNat ≤ 11) && cond) = true
  · rw [if_pos e]; exact ⟨_, _, rfl⟩
  · rw [if_neg e]; exact ⟨_, g.k, rfl⟩

/-- The operand-file register a 32-bit result is read back from. -/
theorem afterO_t (cond : Bool) (d : OField) (v lt : W32) (t : Thread) (n : Nat) :
    tAt (afterO cond d v lt t) n = if cond = false ∧ n = d.toNat ∧ n ≤ 11 then v else tAt t n := by
  unfold afterO tAt
  by_cases hd : d.toNat ≤ 11 <;> cases cond <;> simp [hd]
  · rw [tget_tset]
    by_cases e : n = d.toNat
    · subst e; simp [hd]
    · simp [e]
  · intro e; subst e; intro h; omega

/-- The thread a predicate result leaves (07 R154). -/
def afterP (p : PIdx) (b : Bool) (t : Thread) : Thread :=
  { t with
    lt := if b then 1 else 0
    p := if p = 0 then t.p else if b then t.p ||| ((1 : BitVec 8) <<< p.toNat) else t.p &&& ~~~((1 : BitVec 8) <<< p.toNat) }

theorem thrAt_writeP (g : Grp) (l j : Nat) (p : PIdx) (b : Bool) :
    thrAt (writeP g l p b) j = if j = l then afterP p b (thrAt g l) else thrAt g j := by
  unfold writeP; rw [thrAt_modThr]; rfl

theorem writeP_onlyThreads (g : Grp) (l : Nat) (p : PIdx) (b : Bool) : ∃ ths k, writeP g l p b = { g with threads := ths, k := k } :=
  ⟨_, g.k, rfl⟩

theorem thrAt_orFlags (g : Grp) (l j : Nat) (f : BitVec 5) :
    thrAt (orFlags g l f) j = if j = l then { thrAt g l with fpstat := (thrAt g l).fpstat ||| f } else thrAt g j := by
  unfold orFlags; rw [thrAt_modThr]

theorem orFlags_onlyThreads (g : Grp) (l : Nat) (f : BitVec 5) : ∃ ths k, orFlags g l f = { g with threads := ths, k := k } :=
  ⟨_, g.k, rfl⟩

/-- The thread a 64-bit result leaves (07 R157). -/
def after64 (cond : Bool) (d : OField) (r : W64) (t : Thread) : Thread :=
  { t with
    lt := r.setWidth 32
    t := if d.toNat ≤ 11 && !cond then tset (tset t.t d.toNat (r.setWidth 32)) (d.toNat + 1) (r.extractLsb' 32 32) else t.t }

theorem thrAt_write64 (cond : Bool) (g : Grp) (l j : Nat) (d : OField) (r : W64) :
    thrAt (write64 cond g l d r) j = if j = l then after64 cond d r (thrAt g l) else thrAt g j := by
  unfold write64
  by_cases hd : d.toNat ≤ 11
  · cases cond
    · simp only [hd, if_true, Bool.false_eq_true, if_false]
      rw [thrAt_modThr]
      simp [after64, hd]
    · simp only [hd, if_true]
      have h : ∀ (gr : Grp) (k : TMap W64), thrAt { gr with k := k } j = thrAt gr j := fun _ _ => rfl
      rw [h, thrAt_modThr]
      simp [after64]
  · simp only [hd, if_false]
    rw [thrAt_modThr]
    simp [after64, hd]

theorem write64_onlyThreads (cond : Bool) (g : Grp) (l : Nat) (d : OField) (r : W64) :
    ∃ ths k, write64 cond g l d r = { g with threads := ths, k := k } := by
  unfold write64 modThr
  split
  · split
    · exact ⟨_, _, rfl⟩
    · exact ⟨_, g.k, rfl⟩
  · exact ⟨_, g.k, rfl⟩

/-! ## The shapes -/

/-- A word whose participants each write their own lane: the unit's other lanes stay, and so does everything else. -/
theorem word_lanes (i : Instr) (g : Guard) (s : State) (x : Ctx) (step : Ctx → Grp → Nat → Grp) (F : Nat → Thread → Thread)
    (hx : issuing s = some x) (hc : wordCheck x i = none)
    (hne : ∀ gr l j, j ≠ l → thrAt (step x gr l) j = thrAt gr j) (hs : ∀ gr l, thrAt (step x gr l) l = F l (thrAt gr l))
    (ho : ∀ gr l, ∃ ths k, step x gr l = { gr with threads := ths, k := k }) :
    ∃ h : Grp, word i s (fun x => setUnit s x.u (advance ((x.parts g).foldl (step x) x.g))) = .next (setUnit s x.u h) ∧
      (∃ ths, h = { advance x.g with threads := ths, k := ((x.parts g).foldl (step x) x.g).k }) ∧
      (∀ l, l ∉ x.parts g → thrAt h l = x.thr l) ∧ (∀ l ∈ x.parts g, thrAt h l = F l (x.thr l)) := by
  refine ⟨_, word_effect _ hx hc, ?_, ?_, ?_⟩
  · obtain ⟨ths, k, e⟩ := foldl_onlyThreads (step x) ho (x.parts g) x.g
    exact ⟨ths, by rw [e, advance_onlyThreads]⟩
  · intro l hl
    rw [thrAt_advance, foldl_lanes_ne _ hne _ _ _ hl]; rfl
  · intro l hl
    rw [thrAt_advance, foldl_lanes_mem _ F hne hs _ _ (parts_nodup x g) _ hl]; rfl

/-- A 32-bit result with flags (07 R152, 03 R66). -/
theorem aluF_spec (i : Instr) (g : Guard) (d : OField) (f : Ctx → Nat → W32 × BitVec 5) (s : State) (x : Ctx)
    (hx : issuing s = some x) (hc : wordCheck x i = none) :
    ∃ h : Grp, aluF i g d f s = .next (setUnit s x.u h) ∧ (∃ ths k, h = { advance x.g with threads := ths, k := k }) ∧
      (∀ l, l ∉ x.parts g → thrAt h l = x.thr l) ∧
      (∀ l ∈ x.parts g, thrAt h l =
        { afterO x.cond d (f x l).1 (f x l).1 (x.thr l) with fpstat := (x.thr l).fpstat ||| (f x l).2 }) := by
  obtain ⟨h, e, ⟨ths, e1⟩, e2, e3⟩ := word_lanes i g s x (fun x gr l => orFlags (writeO x.cond gr l d (f x l).1 (f x l).1) l (f x l).2)
    (fun l t => { afterO x.cond d (f x l).1 (f x l).1 t with fpstat := t.fpstat ||| (f x l).2 }) hx hc
    (by intro gr l j hj; simp only [thrAt_orFlags, thrAt_writeO, if_neg hj])
    (by intro gr l; simp only [thrAt_orFlags, thrAt_writeO, if_true]; rfl)
    (fun gr l => onlyThreads_trans (writeO_onlyThreads _ _ _ _ _ _) (orFlags_onlyThreads _ _ _))
  exact ⟨h, e, ⟨ths, _, e1⟩, e2, e3⟩

/-- A 32-bit result without flags. -/
theorem alu_spec (i : Instr) (g : Guard) (d : OField) (f : Ctx → Nat → W32) (s : State) (x : Ctx)
    (hx : issuing s = some x) (hc : wordCheck x i = none) :
    ∃ h : Grp, alu i g d f s = .next (setUnit s x.u h) ∧ (∃ ths k, h = { advance x.g with threads := ths, k := k }) ∧
      (∀ l, l ∉ x.parts g → thrAt h l = x.thr l) ∧ (∀ l ∈ x.parts g, thrAt h l = afterO x.cond d (f x l) (f x l) (x.thr l)) := by
  obtain ⟨h, e, ⟨ths, e1⟩, e2, e3⟩ := word_lanes i g s x (fun x gr l => writeO x.cond gr l d (f x l) (f x l))
    (fun l t => afterO x.cond d (f x l) (f x l) t) hx hc
    (by intro gr l j hj; simp only [thrAt_writeO, if_neg hj])
    (by intro gr l; simp only [thrAt_writeO, if_true])
    (by intro gr l; exact writeO_onlyThreads _ _ _ _ _ _)
  exact ⟨h, e, ⟨ths, _, e1⟩, e2, e3⟩

/-- A 64-bit result (07 R157). -/
theorem alu64_spec (i : Instr) (g : Guard) (d : OField) (f : Ctx → Nat → W64) (s : State) (x : Ctx)
    (hx : issuing s = some x) (hc : wordCheck x i = none) :
    ∃ h : Grp, alu64 i g d f s = .next (setUnit s x.u h) ∧ (∃ ths k, h = { advance x.g with threads := ths, k := k }) ∧
      (∀ l, l ∉ x.parts g → thrAt h l = x.thr l) ∧ (∀ l ∈ x.parts g, thrAt h l = after64 x.cond d (f x l) (x.thr l)) := by
  obtain ⟨h, e, ⟨ths, e1⟩, e2, e3⟩ := word_lanes i g s x (fun x gr l => write64 x.cond gr l d (f x l))
    (fun l t => after64 x.cond d (f x l) t) hx hc
    (by intro gr l j hj; simp only [thrAt_write64, if_neg hj])
    (by intro gr l; simp only [thrAt_write64, if_true])
    (by intro gr l; exact write64_onlyThreads _ _ _ _ _)
  exact ⟨h, e, ⟨ths, _, e1⟩, e2, e3⟩

/-- A predicate result with flags (07 R154). -/
theorem aluP_spec (i : Instr) (g : Guard) (p : PIdx) (f : Ctx → Nat → Bool × BitVec 5) (s : State) (x : Ctx)
    (hx : issuing s = some x) (hc : wordCheck x i = none) :
    ∃ h : Grp, aluP i g p f s = .next (setUnit s x.u h) ∧ (∃ ths k, h = { advance x.g with threads := ths, k := k }) ∧
      (∀ l, l ∉ x.parts g → thrAt h l = x.thr l) ∧
      (∀ l ∈ x.parts g, thrAt h l = { afterP p (f x l).1 (x.thr l) with fpstat := (x.thr l).fpstat ||| (f x l).2 }) := by
  obtain ⟨h, e, ⟨ths, e1⟩, e2, e3⟩ := word_lanes i g s x (fun x gr l => orFlags (writeP gr l p (f x l).1) l (f x l).2)
    (fun l t => { afterP p (f x l).1 t with fpstat := t.fpstat ||| (f x l).2 }) hx hc
    (by intro gr l j hj; simp only [thrAt_orFlags, thrAt_writeP, if_neg hj])
    (by intro gr l; simp only [thrAt_orFlags, thrAt_writeP, if_true]; rfl)
    (fun gr l => onlyThreads_trans (writeP_onlyThreads _ _ _ _) (orFlags_onlyThreads _ _ _))
  exact ⟨h, e, ⟨ths, _, e1⟩, e2, e3⟩

end Sys2Proof.Machine
end

