-- ==== Sys2Proof/Tests/Slice0.lean ====
section
/-! SUPPORT. The model's own tests: ill-formed terms that WellFormed refuses, words written out from the spec's encodings, one step on a
small state, and, for each statement with hypotheses, a concrete state and operands that meet them. -/

set_option linter.unusedVariables false
set_option linter.unnecessarySeqFocus false
set_option maxRecDepth 8000
set_option Elab.async false

namespace Sys2Proof.Tests

open Sys2Proof.Machine Sys2Proof.Claims

/-! ## Small states -/

/-- The placed machine with a word about to issue, its unit in focus. -/
def about (i : Instr) : State :=
  let w := (encode i).getD 0
  { State.reset.withFetchWord 32 w.toNat with agenda := [], focus := some ⟨2, placeUnit w⟩ }

/-- Group 0 about to issue the only word of a clause. -/
def base : State := about (.add 0 1 2 ⟨0, false⟩)

/-- A conductor about to issue the only word of a clause. -/
def cbase : State := about (.fpushU 0 1 ⟨0, false⟩)

/-- The same machine with group 0 changed. -/
def withGrp (f : Grp → Grp) : State := modUnit base ⟨2, 0⟩ f

/-- The same with the conductor changed. -/
def withCond (f : Grp → Grp) : State := modUnit cbase ⟨2, 32⟩ f

/-- The context a word issues in. -/
def ctxOf (s : State) : Ctx := (issuing s).getD ⟨⟨0, 0⟩, {}, { mask := 0, head := 0 }, {}⟩

/-- Whether a word issues without a cause. -/
def issuesIn (s : State) (i : Instr) : Bool := decide (issuing s = some (ctxOf s)) && decide (wordCheck (ctxOf s) i = none)

theorem issues_of (i : Instr) (s : State) (h : issuesIn s i = true) : issues i s (ctxOf s) := by
  simpa [issuesIn, issues] using h

/-- The guard that is always true. -/
def g0 : Guard := ⟨0, false⟩

/-- A guard no thread meets. -/
def gNone : Guard := ⟨0, true⟩

/-- What an access comes to: the lanes performed, and the lanes that fault. -/
def accessed (s : State) (k : AccKind) (sp : Space) (n al : Nat) (lanes : List (Nat × W64)) : Option (Nat × Nat) :=
  match access s ⟨2, 0⟩ k sp n al lanes with
  | .go _ ok fs => some (ok.length, fs.length)
  | _ => none

/-- The lanes of a load whose base pair is zero and whose offset is zero. -/
def lanes0 (x : Ctx) : List (Nat × W64) := (x.parts g0).map (fun l => (l, 0))

/-- The same beyond the mapped gigabyte, where no table stands. -/
def lanesFar (x : Ctx) : List (Nat × W64) := (x.parts g0).map (fun l => (l, 0x40000000))


/-! ## Words written out from the form tables (06 R123, R124, R132) and the function tables of 07 to 09 -/

/-- Form A: d, a, b, c, guard, negate, function (06 R132). -/
def fA (major d a b c g n fn : Nat) : Nat := major * 2 ^ 26 + d * 2 ^ 22 + a * 2 ^ 18 + b * 2 ^ 14 + c * 2 ^ 10 + g * 2 ^ 7 + n * 2 ^ 6 + fn
/-- Form S: d, a, s-index, guard, negate, function. -/
def fS (major d a s g n fn : Nat) : Nat := major * 2 ^ 26 + d * 2 ^ 22 + a * 2 ^ 18 + s * 2 ^ 12 + g * 2 ^ 9 + n * 2 ^ 8 + fn
/-- Form I: d, a, imm18. -/
def fI (major d a imm : Nat) : Nat := major * 2 ^ 26 + d * 2 ^ 22 + a * 2 ^ 18 + imm
/-- Form V: v-index, o-field, guard, negate, count - 1, function. -/
def fV (major v o g n k fn : Nat) : Nat := major * 2 ^ 26 + v * 2 ^ 18 + o * 2 ^ 14 + g * 2 ^ 11 + n * 2 ^ 10 + k * 2 ^ 8 + fn
/-- Form M: v-index, offset, s-pair, guard, space, type, flag select. -/
def fM (major v o s g sp ty f : Nat) : Nat := major * 2 ^ 26 + v * 2 ^ 18 + o * 2 ^ 14 + s * 2 ^ 9 + g * 2 ^ 6 + sp * 2 ^ 4 + ty * 2 + f
/-- Form MX: the formats, accumulator, M, N and K codes, s-index, flag select. -/
def fMX (major fa fb acc m n k s f : Nat) : Nat := major * 2 ^ 26 + fa * 2 ^ 21 + fb * 2 ^ 16 + acc * 2 ^ 13 + m * 2 ^ 11 + n * 2 ^ 9 + k * 2 ^ 7 + s * 2 + f
/-- Form E: v-index, s-index, function, immediate. -/
def fE (major v s fn imm : Nat) : Nat := major * 2 ^ 26 + v * 2 ^ 18 + s * 2 ^ 12 + fn * 2 ^ 8 + imm

/-- Each word decodes to the instruction beside it, and the instruction encodes to the word. -/
def reads (l : List (Nat × Instr)) : Bool :=
  l.all (fun e => decide (decodeTableWord 32 e.1 = some e.2) && decide (encode e.2 = some (BitVec.ofNat 32 e.1)))

/-- The guard !p5. -/
def g5 : Guard := ⟨5, true⟩

theorem test_decode_structure : reads [
    (0x3F * 2 ^ 26 + 0xFFF * 2 ^ 14 + 11 * 2 ^ 10 + 15 * 2 ^ 6 + 23 * 2, .clauseHeader 0xFFF 11 15 23),
    (0x3D * 2 ^ 26 + 254 * 2 ^ 18 + 14 * 2 ^ 14 + 255 * 2 ^ 6 + 12 * 2 ^ 2 + 2, .clauseTrailer 254 14 255 12 2),
    (0xF00003E8, .hintImmediate 0x3E8), (0x3C * 2 ^ 26 + 1 * 2 ^ 24 + 2 * 2 ^ 22, .hintCache 0x800000),
    (0x3C * 2 ^ 26 + 2 * 2 ^ 24 + 0xFFFFFF, .hintModifier 0xFFFFFF)] = true := by decide +kernel

theorem test_decode_arithmetic : reads [
    (fA 0x01 11 12 13 15 5 1 0x00, .add 11 12 13 g5), (fA 0x01 11 12 14 15 5 1 0x01, .sub 11 12 14 g5), (fA 0x01 1 2 3 15 5 1 0x02, .mul 1 2 3 g5),
    (fA 0x01 1 2 3 15 5 1 0x03, .mulhiI32 1 2 3 g5), (fA 0x01 1 2 3 15 5 1 0x04, .mulhiN32 1 2 3 g5), (fA 0x01 1 2 3 4 5 1 0x05, .mad 1 2 3 4 g5),
    (0x04C73C06, .min 3 1 12 g0 false), (0x05807DC7, .min 6 0 1 ⟨3, true⟩ true), (fA 0x01 1 2 3 15 5 1 0x08, .max 1 2 3 g5 false),
    (0x05807D89, .max 6 0 1 ⟨3, false⟩ true), (fA 0x01 1 2 3 4 5 1 0x0A, .addc 1 2 3 4 g5), (fA 0x01 1 2 3 4 5 1 0x0B, .addcCo 1 2 3 4 g5),
    (fA 0x01 1 2 3 4 5 1 0x0C, .subb 1 2 3 4 g5), (fA 0x01 1 2 3 4 5 1 0x0D, .subbBo 1 2 3 4 g5), (0x04437D12, .cmp 1 0 13 ⟨2, false⟩ .ltI),
    (fA 0x01 7 2 3 15 5 1 0x19, .cmp 7 2 3 g5 .geN), (fA 0x01 1 2 3 4 5 1 0x1A, .sel 1 2 3 4 g5)] = true := by decide +kernel

theorem test_decode_logic : reads [
    (fA 0x02 1 2 3 15 5 1 0x00, .and 1 2 3 g5), (fA 0x02 1 2 3 15 5 1 0x01, .or 1 2 3 g5), (fA 0x02 1 2 3 15 5 1 0x02, .xor 1 2 3 g5),
    (fA 0x02 1 2 3 15 5 1 0x03, .andn 1 2 3 g5), (fA 0x02 1 2 3 15 5 1 0x04, .shl 1 2 3 g5), (fA 0x02 1 2 3 15 5 1 0x05, .shrN32 1 2 3 g5),
    (fA 0x02 1 2 3 15 5 1 0x06, .shrI32 1 2 3 g5), (fA 0x02 1 2 3 15 5 1 0x07, .rot 1 2 3 g5), (fA 0x02 1 2 3 4 5 1 0x08, .fsh 1 2 3 4 g5),
    (fA 0x02 1 2 3 15 5 1 0x09, .bfeN32 1 2 3 g5), (fA 0x02 1 2 3 15 5 1 0x0A, .bfeI32 1 2 3 g5), (fA 0x02 1 2 3 4 5 1 0x0B, .bfi 1 2 3 4 g5),
    (fA 0x02 1 2 15 15 5 1 0x0C, .popc 1 2 g5), (fA 0x02 1 2 15 15 5 1 0x0D, .clz 1 2 g5), (fA 0x02 1 2 15 15 5 1 0x0E, .brev 1 2 g5),
    (fA 0x03 1 2 3 15 5 1 0x04, .lea 1 2 3 g5 .x16), (fA 0x03 2 4 6 15 5 1 0x08, .add64 2 4 6 g5), (fA 0x03 7 2 4 15 5 1 0x13, .cmp64 7 2 4 g5 .leI),
    (0x10F8D040, .intUniformOp 3 14 13 g0 .and), (fS 0x04 1 2 63 5 1 0x03, .intUniformOp 1 2 63 g5 .mulhiI),
    (fS 0x04 7 2 63 5 1 0x10, .intUniformOp 7 2 63 g5 (.cmp .eq)), (fS 0x04 2 4 62 5 1 0x88, .intUniformOp 2 4 62 g5 .add64)] = true := by decide +kernel

theorem test_decode_immediates : reads [
    (fI 0x05 1 2 0x20000, .addi 1 2 0x20000), (fI 0x06 1 2 0x3FFFF, .andi 1 2 0x3FFFF), (0x1C001678, .ori 0 0 0x1678), (fI 0x08 1 2 0x3FFFF, .xori 1 2 0x3FFFF),
    (fI 0x09 1 2 31, .shli 1 2 31), (0x283C48D1, .movhi 0 0x48D1), (fI 0x0B 6 2 (9 * 2 ^ 14 + 0x3FFF), .cmpi 6 2 .geN 0x3FFF)] = true := by decide +kernel

theorem test_decode_float : reads [
    (fA 0x0C 1 2 3 15 5 1 0x00, .fadd 1 2 3 g5), (fA 0x0C 1 2 3 15 5 1 0x01, .fsub 1 2 3 g5), (fA 0x0C 1 2 3 15 5 1 0x02, .fmul 1 2 3 g5),
    (fA 0x0C 1 2 3 4 5 1 0x03, .ffma 1 2 3 4 g5), (fA 0x0C 1 2 3 15 5 1 0x04, .fmin 1 2 3 g5), (fA 0x0C 1 2 3 15 5 1 0x05, .fmax 1 2 3 g5),
    (fA 0x0C 1 2 15 15 5 1 0x06, .fclass 1 2 g5), (fA 0x0C 1 2 3 4 5 1 0x07, .fsel 1 2 3 4 g5), (fA 0x0C 7 2 3 15 5 1 0x16, .fcmp 7 2 3 g5 .un),
    (fA 0x0D 1 2 3 15 5 1 0x00, .hadd2 1 2 3 g5 .f16), (fA 0x0D 1 2 3 15 5 1 0x05, .hmul2 1 2 3 g5 .bf16), (fA 0x0D 1 2 3 4 5 1 0x06, .hfma2 1 2 3 4 g5 .bf16),
    (0x0E * 2 ^ 26 + 1 * 2 ^ 22 + 2 * 2 ^ 18 + 0x1F * 2 ^ 13 + 3 * 2 ^ 10 + 5 * 2 ^ 7 + 2 ^ 6 + 3 * 2 ^ 3 + 0, .cvt 1 2 0x1F 3 g5 .b8 .f32),
    (0x0E * 2 ^ 26 + 1 * 2 ^ 22 + 2 * 2 ^ 18 + 0x0C * 2 ^ 13 + 3 * 2 ^ 10 + 5 * 2 ^ 7 + 2 ^ 6 + 0x38, .pack8 1 2 0x0C 3 g5),
    (0x0E * 2 ^ 26 + 1 * 2 ^ 22 + 2 * 2 ^ 18 + 0x0C * 2 ^ 13 + 1 * 2 ^ 10 + 5 * 2 ^ 7 + 2 ^ 6 + 0x39, .unpack8 1 2 0x0C true g5),
    (fA 0x0F 1 2 15 15 5 1 0x00, .rcp 1 2 g5), (fA 0x0F 1 2 15 15 5 1 0x01, .rsq 1 2 g5), (fA 0x0F 1 2 15 15 5 1 0x02, .sqrt 1 2 g5),
    (fA 0x0F 1 2 15 15 5 1 0x03, .exp2 1 2 g5), (fA 0x0F 1 2 15 15 5 1 0x04, .log2 1 2 g5), (fA 0x0F 1 2 15 15 5 1 0x05, .sin 1 2 g5),
    (fA 0x0F 1 2 15 15 5 1 0x06, .cos 1 2 g5), (fA 0x0F 1 2 15 15 5 1 0x07, .tanh 1 2 g5), (fS 0x10 1 2 63 5 1 0x02, .floatUniformOp 1 2 63 g5 .fmul),
    (fS 0x10 7 2 63 5 1 0x12, .floatUniformOp 7 2 63 g5 (.fcmp .lt))] = true := by decide +kernel

theorem test_decode_lanes : reads [
    (0x5040BC03, .shfl 1 0 2 g0 .xor), (fA 0x14 1 2 3 4 5 1 0x08, .prmt 1 2 3 4 g5), (fA 0x14 1 2 3 15 5 1 0x11, .tlu 1 2 3 g5 .n8),
    (0x5497FC00, .vote 2 5 g0 .all), (fA 0x15 1 2 15 15 5 1 0x03, .voteBallot 1 2 g5), (fA 0x15 1 2 15 15 5 1 0x09, .laneMatch 1 2 g5 .all),
    (fA 0x15 7 15 15 15 5 1 0x10, .elect 7 g5), (fA 0x15 15 15 15 15 5 1 0x25, .sect g5 .w32), (fA 0x16 1 2 15 15 5 1 0x08, .sred 1 2 g5 .fadd),
    (fA 0x16 1 2 15 15 5 1 0x13, .sscan 1 2 g5 .minN), (fA 0x16 1 2 15 15 5 1 0x2A, .sscanEx 1 2 g5 .fmax)] = true := by decide +kernel

theorem test_decode_moves : reads [
    (fV 0x18 252 8 5 1 3 0x00, .movin 252 8 g5 3), (fV 0x18 252 8 5 1 3 0x01, .movout 252 8 g5 3), (fS 0x19 1 15 63 5 1 0x00, .movs 1 63 g5),
    (fS 0x19 15 2 63 5 1 0x01, .movg 2 63 g5), (fS 0x19 1 15 0x15 5 1 0x02, .mfs 1 0x15 g5), (fS 0x19 15 2 0x15 5 1 0x03, .mts 2 0x15 g5),
    (fA 0x1A 7 6 5 15 5 1 0x03, .plop 7 6 5 g5 .andn), (fA 0x1A 7 6 15 15 5 1 0x04, .plopNot 7 6 g5), (fA 0x1A 7 11 15 15 5 1 0x08, .plopSet 7 11 g5),
    (fA 0x1A 11 7 15 15 5 1 0x09, .plopGet 11 7 g5)] = true := by decide +kernel

theorem test_decode_control : reads [
    (0x71C00005, .bra ⟨3, true⟩ 5), (0x1C * 2 ^ 26 + 5 * 2 ^ 23 + 2 ^ 22 + 0x200000, .bra g5 0x200000), (0x1D * 2 ^ 26 + 5 * 2 ^ 23 + 2 ^ 22 + 1, .call g5 1), (fA 0x1E 15 2 3 15 5 1 0x00, .brx 2 3 g5),
    (fA 0x1E 15 2 3 15 5 1 0x01, .callx 2 3 g5), (fA 0x1E 15 15 15 15 5 1 0x02, .ret g5), (fA 0x1E 15 15 15 15 5 1 0x03, .exit g5), (fA 0x1E 15 2 15 15 5 1 0x04, .trap 2 g5),
    (fA 0x1E 15 15 15 15 0 0 0x05, .yield), (fA 0x1E 1 2 15 15 0 0 0x06, .sleepCyc 1 2), (fA 0x1E 1 2 15 15 0 0 0x07, .sleepFut 1 2),
    (fA 0x1E 15 15 15 15 5 1 0x08, .brk g5), (0x1F * 2 ^ 26 + 0xABCD * 2 ^ 10, .lpad 0xABCD), (fA 0x3B 15 15 15 15 5 1 0x00, .eret g5),
    (fA 0x3B 1 15 15 15 5 1 0x16, .hmfs 1 g5 6), (fA 0x3B 15 2 15 15 5 1 0x26, .hmts 2 g5 6)] = true := by decide +kernel

theorem test_decode_memory : reads [
    (0x8820808E, .ld ⟨8, 2, 0, 2, .glb, false⟩ .b128), (fM 0x23 9 1 31 7 1 7 1, .st ⟨9, 1, 31, 7, .spad, true⟩ .b128), (fM 0x24 9 1 31 7 2 1 1, .ldx ⟨9, 1, 31, 7, .priv, true⟩ .i8),
    (fM 0x25 9 1 31 7 3 4 1, .stx ⟨9, 1, 31, 7, .gen, true⟩ .b32), (fM 0x26 0 1 31 7 3 1 0, .pref 1 31 7 .gen true), (0x9D040009, .atom 4 1 0 g0 .none .cas),
    (fS 0x27 2 3 20 5 1 0x7A, .red 2 3 20 g5 .ar .add64), (fS 0x27 2 3 20 5 1 0x98, .best 2 3 20 g5 .acq 8), (fS 0x28 15 2 60 5 1 (3 * 2 ^ 6 + 31), .ldq 2 60 g5 3 31),
    (fA 0x29 15 15 15 15 0 0 0x04, .fence .sys), (fA 0x29 15 15 15 15 0 0 0x0A, .phase .ar)] = true := by decide +kernel

theorem test_decode_sync : reads [
    (fA 0x2A 1 2 3 15 5 1 0x00, .bar 1 2 3 g5), (fA 0x2A 1 2 3 4 5 1 0x02, .barRed 1 2 3 4 g5 .minI), (fA 0x2A 1 15 3 15 5 1 0x08, .barg 1 3 g5),
    (fA 0x2A 1 15 3 4 5 1 0x0F, .bargRed 1 3 4 g5 .or), (fA 0x2A 1 2 3 4 5 1 0x19, .waitf 1 2 3 4 g5 .geN), (fA 0x2A 1 2 15 15 5 1 0x20, .cancel 1 2 g5),
    (fA 0x2A 1 15 15 15 5 1 0x21, .chkc 1 g5), (fA 0x2B 1 15 15 15 5 1 0x00, .feed 1 g5), (fA 0x2B 15 2 3 15 5 1 0x01, .fpushU 2 3 g5),
    (fA 0x2B 15 2 3 4 5 1 0x02, .fpushV 2 3 4 g5), (fA 0x2B 1 2 3 4 5 1 0x08, .agen 1 2 3 4 g5), (fE 0x2C 9 62 0 0, .spawn 9 62 false), (fE 0x2C 9 62 1 0, .spawn 9 62 true),
    (fE 0x2C 9 62 2 0, .task 9 62 false), (fE 0x2C 9 62 3 0, .task 9 62 true), (fE 0x2C 9 63 4 7, .dalloc 9 63 7), (fE 0x2C 9 63 5 0, .dfree 9 63),
    (fA 0x2D 1 2 15 15 5 1 0x00, .regy 1 2 g5), (fA 0x2D 1 2 15 15 5 1 0x01, .regc 1 2 g5)] = true := by decide +kernel

theorem test_decode_engines : reads [
    (0xBBBD3B8C, .mma ⟨0x1D, 0x1D, 1, ⟨3, 1, 3⟩, 6, false⟩), (fMX 0x2E 1 2 7 3 2 1 63 1, .mma ⟨1, 2, 7, ⟨3, 2, 1⟩, 63, true⟩), (0xBF9C1A10, .mmas ⟨0x1C, 0x1C, 0, ⟨3, 1, 0⟩, 8, false⟩), (fMX 0x30 0x1F 0x1F 7 0 1 3 63 0, .gmma ⟨0x1F, 0x1F, 7, ⟨0, 1, 3⟩, 63, false⟩),
    (fE 0x31 0 0 0 7, .acz 7), (fE 0x31 9 62 1 7, .acld 9 62 7), (0xC418C200, .acst 6 12 0), (fE 0x31 9 63 3 7, .acrd 9 63 7), (fE 0x31 0 63 4 7, .acepi 63 7),
    (fE 0x36 9 63 0 0, .copy 9 63), (fE 0x36 9 63 1 0, .gcopy 9 63), (fE 0x37 9 63 0 200, .wpush 9 63 200), (fE 0x37 0 63 1 0, .wflush 63), (fE 0x38 9 63 0 200, .geo 9 63 200),
    (fE 0x38 0 63 1 200, .art 63 200), (fE 0x39 9 0 0 0x2F, .fwait 9 true (.imm 15)), (fE 0x39 9 63 0 0x10, .fwait 9 false (.reg 63 0)), (fE 0x39 9 0 1 15, .ftest 9 (.imm 15)),
    (fE 0x39 0 63 2 0x15, .fdrop (.reg 63 5)), (fE 0x3A 9 63 0 2, .lacq 9 63 true), (fE 0x3A 9 63 0 1, .lacqFut 9 63), (fE 0x3A 0 63 1 0, .lrel 63), (fE 0x3A 9 63 2 0, .ltest 9 63),
    (fE 0x3A 0 63 3 0, .burst 63)] = true := by decide +kernel

/-! ## Witnesses: one step, and the memory's form -/

theorem witness_MemoryStaysCanonical : Memory.wf State.reset.mem = true ∧ Memory.wf base.mem = true ∧ base.mem ≠ [] := by decide +kernel

/-- The placed machine, its word the next turn of the agenda. -/
def placed (i : Instr) : State := State.reset.withFetchWord 32 ((encode i).getD 0).toNat

/-- What the statement about one step asks of the head of the agenda. -/
def stepReady (s : State) (u : UnitId) (i : Instr) (decoded : Bool) (at_ : Nat) : Bool :=
  decide (s.agenda = [.issue u]) && !s.supervisor.freeze && !(teamAt s u.team).stopped && decide ((teamAt s u.team).phase = .running) &&
  !(unitAt s u).retired && decide ((unitAt s u).held = none) && decide ((unitAt s u).deferred = []) &&
  (match (unitAt s u).clause with
   | none => false
   | some cl =>
     let x : Ctx := { u := u, g := unitAt s u, cl := cl, t := teamAt s u.team }
     decide (cl.decoded = decoded) && decide (cl.head + 4 * cl.next = at_) &&
     let s0 : State := { s with agenda := [] }
     decide (fetchHeld (if decoded then setUnit s0 u (unitAt s u) else s0) x (cl.head + 4 * cl.next) = []) &&
     (match fetchAt (if decoded then setUnit s0 u (unitAt s u) else s0) u (cl.head + 4 * cl.next) with
      | .word w s1 =>
        decide (decodeWord w = .ok i) && (!takesSlot i || mayIssue s0 u) &&
        (if decoded then cl.waited && !regBusy s1 x i && decide (heldAt s1 x i = []) && decide (priceOf s1 x i = 0) else !strayHandler s0 x)
      | _ => false))

theorem witness_StepRunsDecodedWord_body : stepReady (placed (.add 0 1 2 g0)) ⟨2, 0⟩ (.add 0 1 2 g0) true 0x4004 = true := by decide +kernel

theorem witness_StepRunsDecodedWord_header :
    stepReady (placed (.clauseHeader 0x801 2 15 23)) ⟨2, 0⟩ (.clauseHeader 0x801 2 15 23) false 0x4000 = true := by decide +kernel

/-- A word with a price, on a core whose purse pays it. -/
theorem witness_StepRunsDecodedWord_priced :
    (let s := placed (.mma ⟨0, 0, 0, ⟨0, 0, 0⟩, 0, false⟩)
     (payers (teamAt s 2)).all (fun c => canPay s c 1) && decide (s.agenda = [.issue ⟨2, 0⟩])) = true := by decide +kernel

/-- The step itself runs the placed word to a next state. -/
theorem test_step_runs_word : (match step (placed (.addi 0 15 7)) with
    | .next t => decide (((unitAt t ⟨2, 0⟩).issued = 1) ∧ t.focus = none)
    | _ => false) = true := by decide +kernel

/-! ## Ill-formed terms (06 R125, R129, R143 and the rules of the words named) -/

/-- Well-formed instructions. -/
def accepts (l : List Instr) : Bool := l.all wellFormed

/-- Ill-formed ones. -/
def refuses (l : List Instr) : Bool := l.all (fun i => !wellFormed i)

theorem test_illformed_structure : refuses [.clauseHeader 0 12 15 0, .clauseHeader 0 15 14 0, .clauseHeader 0 0 1 24, .clauseTrailer 0 13 0 0 1,
    .clauseTrailer 0 0 0 13 2, .clauseTrailer 1 0 0 0 0, .clauseTrailer 0 0 1 0 1, .clauseTrailer 0 0 0 0 3, .unallocatedEncoding] = true ∧
    accepts [.clauseHeader 0 11 15 23, .clauseTrailer 0 12 0 0 1, .clauseTrailer 0 0 0 0 0, .hintCache 0x880000] = true := by decide +kernel

theorem test_illformed_destinations : refuses [.add 13 0 0 g0, .mad 14 0 0 0 g0, .addi 13 0 0, .movhi 14 0, .fadd 13 0 0 g0, .hadd2 14 0 0 g0 .f16,
    .shfl 13 0 0 g0 .idx, .sred 14 0 g0 .add, .intUniformOp 13 0 0 g0 .add, .intUniformOp 8 0 0 g0 (.cmp .eq), .floatUniformOp 13 0 0 g0 .fadd,
    .floatUniformOp 8 0 0 g0 (.fcmp .eq), .waitf 13 0 0 0 g0 .eq, .rcp 14 0 g0] = true ∧
    accepts [.add 12 13 14 g0, .add 15 0 0 g0, .intUniformOp 7 0 0 g0 (.cmp .eq), .floatUniformOp 7 0 0 g0 (.fcmp .eq)] = true := by decide +kernel

theorem test_illformed_conversions : refuses [.cvt 0 0 0 0 g0 .f32 .f32, .cvt 0 0 0 0 g0 .b8 .f16, .cvt 0 0 1 0 g0 .f32 .f16, .cvt 0 0 0 2 g0 .f16 .f32,
    .cvt 0 0 0 1 g0 .f32 .f16, .cvt 0 0 0x1C 0 g0 .f32 .b8, .pack8 0 0 0x1D 0 g0, .unpack8 0 0 0x1E false g0] = true ∧
    accepts [.cvt 0 0 0 1 g0 .f16 .f32, .cvt 0 0 0x1B 0 g0 .f32 .b8, .cvt 0 0 0x1F 3 g0 .b8 .f32] = true := by decide +kernel

theorem test_illformed_moves : refuses [.movin 253 0 g0 3, .movin 0 9 g0 3, .movin 0 12 g0 1, .movin 0 13 g0 0, .movout 255 0 g0 1, .mfs 0 0x16 g0,
    .mts 0 0x16 g0] = true ∧ accepts [.movin 252 8 g0 3, .movout 0 13 g0 0, .mfs 0 0x15 g0] = true := by decide +kernel

theorem test_illformed_memory : refuses [.ld ⟨255, 0, 0, 0, .glb, false⟩ .b64, .st ⟨253, 0, 0, 0, .glb, false⟩ .b128, .atom 9 0 0 g0 .ar .cas,
    .atom 2 0 0 g0 .ar .cas64, .atom 13 0 0 g0 .ar .add, .red 0 0 0 g0 .ar .exch, .red 0 0 0 g0 .ar .cas, .best 0 0 0 g0 .ar 9, .best 8 0 0 g0 .ar 4,
    .ldq 0 61 g0 3 0] = true ∧
    accepts [.ld ⟨254, 0, 0, 0, .glb, false⟩ .b64, .st ⟨252, 0, 0, 0, .glb, false⟩ .b128, .atom 8 0 0 g0 .ar .cas64, .best 3 0 0 g0 .ar 8] = true := by
  decide +kernel

theorem test_illformed_engines : refuses [.agen 12 0 0 0 g0, .spawn 0 3 false, .task 0 3 true, .acld 0 1 0, .acst 0 1 0, .mma ⟨0x1C, 0, 0, ⟨0, 0, 0⟩, 0, false⟩,
    .mma ⟨0x1F, 0, 0, ⟨0, 0, 0⟩, 0, false⟩, .hmfs 0 g0 7, .hmfs 13 g0 0, .hmts 0 g0 7] = true ∧
    accepts [.spawn 0 2 false, .mma ⟨0x1F, 0x1F, 0, ⟨0, 0, 0⟩, 0, false⟩, .hmts 0 g0 6] = true := by decide +kernel

/-- A single team without a second core, and a turn of each other kind. -/
theorem witness_StepRunsDecodedWord_turns : (teamAt base 2).shadowCore = none ∧
    (let s := { base with agenda := [.event .freeze] }
     s.agenda.head? = some (.event .freeze)) ∧
    (let s := { base with agenda := [.command], service := some { queue := 0, index := 0, bytes := List.replicate 64 0 } }
     s.agenda.head? = some .command ∧ s.service.isSome = true) ∧
    (let s := { base with agenda := [.mailbox], mailbox := { base.mailbox with inService := some (List.replicate 64 0) } }
     s.agenda.head? = some .mailbox ∧ s.mailbox.inService.isSome = true) := by decide +kernel
/-! ## Witnesses: register words -/

theorem witness_IntegerArithmeticResults : (List.all [.add 0 1 2 g0, .sub 0 1 2 g0, .mul 0 1 2 g0, .mulhiI32 0 1 2 g0, .mulhiN32 0 1 2 g0,
    .mad 0 1 2 3 g0, .min 0 1 2 g0 true, .min 15 1 2 g0 false, .max 12 1 2 g0 false, .max 0 1 2 g0 true, .addc 0 1 2 3 g0, .addcCo 0 1 2 3 g0,
    .subb 0 1 2 3 g0, .subbBo 0 1 2 3 g0, .sel 0 1 2 3 g0] (issuesIn base)) = true := by decide +kernel

theorem witness_IntegerArithmeticResults_conductor : issuesIn cbase (.add 11 10 15 g0) = true := by decide +kernel

theorem witness_LogicAndShiftResults : (List.all [.and 0 1 2 g0, .or 0 1 2 g0, .xor 0 1 2 g0, .andn 0 1 2 g0, .shl 0 1 2 g0, .shrN32 0 1 2 g0,
    .shrI32 0 1 2 g0, .rot 0 1 2 g0, .fsh 0 1 2 3 g0, .bfeN32 0 1 2 g0, .bfeI32 0 1 2 g0, .bfi 0 1 2 3 g0, .popc 0 1 g0, .clz 0 1 g0,
    .brev 0 1 g0] (issuesIn base)) = true := by decide +kernel

/-- The functions the clz and brev clauses ask for exist: the model's own meet them on the corners. -/
theorem witness_LogicAndShiftResults_clz : clzR 0 = 32 ∧ clzR 1 = 31 ∧ clzR 0x80000000 = 0 ∧ brevR 0x80000001 = 0x80000001 ∧ brevR 2 = 0x40000000 := by
  decide +kernel

theorem witness_AddressAndWideResults : (List.all [.lea 0 1 2 g0 .x1, .lea 0 1 2 g0 .x2, .lea 0 1 2 g0 .x4, .lea 0 1 2 g0 .x8, .lea 0 1 2 g0 .x16,
    .add64 10 2 4 g0, .add64 12 2 15 g0, .cmp 1 2 3 g0 .ltI, .cmp64 7 2 4 g0 .geN] (issuesIn base)) = true := by decide +kernel

theorem witness_ImmediateWordResults : (List.all [.addi 0 1 0x3FFFF, .andi 0 1 0x3FFFF, .ori 0 1 0, .xori 0 1 1, .shli 0 1 31, .movhi 0 0x3FFFF,
    .cmpi 1 2 .eq 0x3FFF, .cmpi 1 2 .ne 0, .cmpi 1 2 .ltI 0, .cmpi 1 2 .geI 0, .cmpi 1 2 .ltN 0x3FFF, .cmpi 7 2 .geN 0]
    (issuesIn base)) = true := by decide +kernel

theorem witness_UniformIntegerResults : (List.all [.add, .sub, .mul, .mulhiI, .mulhiN, .minI, .minN, .maxI, .maxN, .and, .or, .xor, .andn, .shl,
    .shrN, .shrI, .rot, .bfeN, .bfeI, .popc, .clz, .brev, .lea .x16] (fun f => issuesIn base (.intUniformOp 11 2 63 g0 f))) = true ∧
    issuesIn base (.intUniformOp 10 2 62 g0 .add64) = true ∧ issuesIn base (.intUniformOp 7 2 63 g0 (.cmp .leI)) = true ∧
    issuesIn base (.intUniformOp 7 2 62 g0 (.cmp64 .leN)) = true := by decide +kernel

theorem witness_FloatArithmeticResults : (List.all [.fadd 0 1 2 g0, .fsub 0 1 2 g0, .fmul 0 1 2 g0, .ffma 0 1 2 3 g0, .fmin 0 1 2 g0, .fmax 0 1 2 g0,
    .fclass 0 1 g0, .fsel 0 1 2 3 g0, .fcmp 1 2 3 g0 .un] (issuesIn base)) = true := by decide +kernel

theorem witness_PackedHalfAndUniformFloatResults : (List.all [.hadd2 0 1 2 g0 .f16, .hmul2 0 1 2 g0 .bf16, .hfma2 0 1 2 3 g0 .f16,
    .floatUniformOp 0 1 63 g0 .fadd, .floatUniformOp 0 1 63 g0 .fsub, .floatUniformOp 0 1 63 g0 .fmul, .floatUniformOp 0 1 63 g0 .fmin,
    .floatUniformOp 0 1 63 g0 .fmax, .floatUniformOp 0 1 63 g0 .fclass, .floatUniformOp 0 1 63 g0 (.hadd2 .f16),
    .floatUniformOp 0 1 63 g0 (.hmul2 .bf16), .floatUniformOp 7 1 63 g0 (.fcmp .ord)] (issuesIn base)) = true := by decide +kernel

/-- The order of fmin and fmax never holds both ways. -/
theorem belowZ_asymm {x y : FVal} (h : belowZ x y) : ¬belowZ y x := by
  rintro (h2 | ⟨e, f, rfl, rfl⟩)
  · rcases h with h | ⟨e, f, rfl, rfl⟩
    · cases x <;> cases y <;> simp_all [below]
      exact absurd h2 (not_lt.mpr h.le)
    · simp [below, signed, num] at h2
  · rcases h with h | ⟨_, _, h, _⟩
    · simp [below, signed, num] at h
    · cases h

/-- There is a selection of every two operands as the statements ask it. -/
theorem witness_FloatArithmeticResults_selects (w : Bool) (a b : W32) : ∃ r, selects w a b r := by
  classical
  refine ⟨(if aNan (fv a) then (if aNan (fv b) then 0x7FC00000 else b) else if aNan (fv b) then a
    else if belowZ (fv a) (fv b) then (if w then b else a) else if belowZ (fv b) (fv a) then (if w then a else b) else a,
    if fv a = .nan true ∨ fv b = .nan true then flagNV else 0), ⟨fun h => if_pos h, fun h => if_neg h⟩, ?_, ?_, ?_, ?_⟩
  · intro h1 h2; simp only [if_pos h1, if_pos h2]
  · intro h1 h2; simp only [if_pos h1, if_neg h2]
  · intro h1 h2; simp only [if_neg h1, if_pos h2]
  · intro h1 h2
    simp only [if_neg h1, if_neg h2]
    exact ⟨fun h => by simp only [if_pos h], fun h => by simp only [if_neg (belowZ_asymm h), if_pos h], fun h h' => by simp only [if_neg h, if_neg h']⟩

/-- There is a comparison of every two values as the statements ask it. -/
theorem witness_FloatArithmeticResults_fcompared (k : FCond) (x y : FVal) : ∃ r, fcompared k x y r := by
  classical
  cases k <;>
    exact ⟨(decide _, if _ then flagNV else 0), ⟨decide_eq_true_iff, fun h => if_pos h, fun h => if_neg h⟩⟩

/-- The values the conversions are asked of, and what the model's own functions give there. -/
theorem witness_ConversionAndSpecialResults_f16 : converted .f32 .f16 0 ⟨.rne, false, false⟩ (fv 0x3F800000) (0x3C00, 0) := by
  refine ⟨?_, ?_⟩ <;> decide +kernel

/-- 1.5 converts to the even 2, inexactly. -/
theorem witness_ConversionAndSpecialResults_i32 : converted .f32 .i32 0 ⟨.rne, false, false⟩ (.fin false 3 (-1)) (2, flagNX) := by
  refine ⟨2, ?_, rfl⟩
  intro n h
  have h2 : n = 2 := by
    obtain ⟨h1, h2, h3⟩ := h
    norm_num [signed, num] at h1 h2 h3
    have a1 : (n : ℚ) ≤ 2 := by linarith
    have a2 : (1 : ℚ) ≤ n := by linarith
    have b1 : n ≤ 2 := by exact_mod_cast a1
    have b2 : 1 ≤ n := by exact_mod_cast a2
    by_contra hn
    have e1 : n = 1 := by omega
    subst e1
    norm_num at h3
  subst h2
  norm_num [signed, num]
  decide

/-- The integer byte 3 of 8-bit integers, and a NaN, have bfloat16 codes that hold them. -/
theorem witness_ConversionAndSpecialResults_unpacked : holdsExactly 0x4040 (partValue .b8 0x1F 0 3) ∧ holdsExactly 0x7FC0 (.nan true) := by
  refine ⟨?_, rfl⟩
  rw [show partValue .b8 0x1F 0 3 = .fin false 3 0 by decide +kernel]
  refine ⟨0xC0, -6, by decide +kernel, ?_⟩
  norm_num [num]

/-- A quotient that is a number, and one that lies between two neighbours of 25 bits and more. -/
theorem witness_ConversionAndSpecialResults_quotients : num 1 (-1) * num 2 0 = 1 ∧
    num 44739242 (-27) * num 3 0 < 1 ∧ ¬num (44739242 + 1) (-27) * num 3 0 < 1 ∧ num (44739242 + 1) (-27) * num 3 0 ≠ 1 ∧ 2 ^ 25 ≤ 44739242 := by
  norm_num [num]

/-- Values in each range of the table: 3 and 129 for exp2, 4 and 5 for log2, 2^-13 and 16 for sin and tanh. -/
theorem witness_ConversionAndSpecialResults_ranges : fv 0x40400000 = .fin false 0xC00000 (-22) ∧ signed false 0xC00000 (-22) = (3 : Int) ∧
    fv 0x43010000 = .fin false 0x810000 (-16) ∧ 128 ≤ signed false 0x810000 (-16) ∧
    fv 0x40800000 = .fin false 0x800000 (-21) ∧ num 0x800000 (-21) = num 1 2 ∧
    fv 0x40A00000 = .fin false 0xA00000 (-21) ∧ num 1 2 < num 0xA00000 (-21) ∧ num 0xA00000 (-21) < num 1 (2 + 1) ∧
    fv 0x39000000 = .fin false 0x800000 (-36) ∧ num 0x800000 (-36) < num 1 (-12) ∧
    fv 0x41800000 = .fin false 0x800000 (-19) ∧ 10 ≤ num 0x800000 (-19) := by
  refine ⟨by decide +kernel, ?_, by decide +kernel, ?_, by decide +kernel, ?_, by decide +kernel, ?_, ?_, by decide +kernel, ?_, by decide +kernel, ?_⟩ <;>
    norm_num [signed, num]

theorem witness_ConversionAndSpecialResults : (List.all [.cvt 0 1 0 0 g0 .f32 .f16, .cvt 0 1 0 0 g0 .i32 .f32, .pack8 0 1 0 3 g0, .unpack8 0 1 0 true g0,
    .rcp 0 1 g0, .rsq 0 1 g0, .sqrt 0 1 g0, .exp2 0 1 g0, .log2 0 1 g0, .sin 0 1 g0, .cos 0 1 g0, .tanh 0 1 g0] (issuesIn base)) = true := by
  decide +kernel

theorem witness_RoundingIsExactOnCodes : (0xFFFFFFFF : Nat) < 2 ^ (f32.eb + f32.tb + 1) ∧ 0x7F80 < 2 ^ (bf16.eb + bf16.tb + 1) ∧
    0xFFFF < 2 ^ (f16.eb + f16.tb + 1) := by decide +kernel

/-! ## Witnesses: lanes and moves -/

theorem witness_BytePermutationResult : issuesIn base (.prmt 0 1 2 3 g0) = true ∧ issuesIn cbase (.prmt 0 1 2 3 g0) = false := by decide +kernel

theorem witness_LaneExchangeResults : (List.all [.shfl 0 1 2 g0 .idx, .shfl 0 1 2 g0 .up, .shfl 0 1 2 g0 .down, .shfl 0 1 2 g0 .xor, .vote 1 2 g0 .all,
    .vote 1 2 g0 .any, .vote 1 2 g0 .uni, .voteBallot 0 1 g0, .laneMatch 0 1 g0 .any, .laneMatch 0 1 g0 .all, .elect 1 g0] (issuesIn base)) = true ∧
    (laneGroup base (ctxOf base)).isSome = true ∧ (ctxOf base).t.pairMode = false := by decide +kernel

theorem witness_ReductionAndScanResults : (List.all [.add, .minI, .maxI, .minN, .maxN, .and, .or, .xor, .fadd, .fmin, .fmax]
    (fun o => issuesIn base (.sred 0 1 g0 o) && issuesIn base (.sscan 0 1 g0 o) && issuesIn base (.sscanEx 0 1 g0 o))) = true ∧
    (laneGroup base (ctxOf base)).isSome = true ∧
    (List.all [(1, SectWidth.w2), (2, .w4), (3, .w8), (4, .w16), (5, .w32)] (fun e => issuesIn base (.sect g0 e.2))) = true := by decide +kernel

/-- tlu: lanes within the data image, one beyond it, and a misaligned one. -/
theorem witness_TableLookupCompletes :
    let i : Instr := .tlu 0 1 2 ⟨0, false⟩ .b32
    let j : Instr := .tlu 0 1 2 ⟨1, false⟩ .b32
    let x := ctxOf base
    issuesIn base i = true ∧ issuesIn base j = true ∧
    (match heldRead base x .glb 4 4 ((x.parts g0).map (fun l => (l, BitVec.ofNat 64 x.t.kernel.dataBase))) with
     | .vals _ vs => vs.length
     | _ => 0) = 32 ∧
    (let s := withGrp (fun g => modThr g 0 (fun t => { t with t := [(2, 4096)] }))
     let s' := withGrp (fun g => modThr g 0 (fun t => { t with t := [(2, 2)] }))
     issuesIn s i = true ∧ issuesIn s' i = true ∧ (ctxOf s).t.kernel.dataLen < ((ctxOf s).src 0 2).toNat + 4 ∧
     (x.t.kernel.dataBase + ((ctxOf s').src 0 2).toNat) % 4 ≠ 0) := by decide +kernel

theorem witness_ConductorRegistersAreWide : (ctxOf cbase).cond = true ∧ ((11 : OField).toNat ≤ 11) := by decide +kernel

theorem witness_PredicateWordResults : (List.all [.plop 1 2 3 g0 .and, .plop 1 2 3 g0 .or, .plop 1 2 3 g0 .xor, .plop 0 2 3 g0 .andn, .plopNot 1 7 g0,
    .plopSet 1 2 g0, .plopGet 0 1 g0] (issuesIn base)) = true := by decide +kernel

theorem witness_RegisterMoveResults : (List.all [.movin 252 8 g0 3, .movin 255 12 g0 0, .movout 252 8 g0 3, .movout 255 15 g0 0, .movs 0 63 g0,
    .movg 0 63 g0] (issuesIn base)) = true ∧ (List.all [.movs 0 63 g0, .movg 0 63 g0] (issuesIn cbase)) = true ∧
    (List.all [.movin 0 8 g0 1, .movin 2 10 g0 1, .movout 2 8 g0 1, .movout 0 15 g0 0] (issuesIn cbase)) = true ∧ (ctxOf cbase).parts g0 = [0] ∧
    (ctxOf cbase).cond = true ∧ (ctxOf base).cond = false ∧ (ctxOf base).parts g0 ≠ [] ∧ (ctxOf base).parts gNone = [] := by decide +kernel

theorem witness_SpecialRegisterReads : issuesIn base (.mfs 0 0x09 g0) = true ∧ issuesIn cbase (.mfs 0 0x09 g0) = true ∧ (ctxOf base).cond = false ∧
    (ctxOf cbase).cond = true ∧ (ctxAt base (ctxOf base).t.ctx).record.deadline = 0 ∧
    (let s := modCtx base 1 (fun c => { c with record := { c.record with deadline := 5 }, dlrem := 0 })
     (ctxAt s (ctxOf s).t.ctx).record.deadline ≠ 0 ∧ (ctxAt s (ctxOf s).t.ctx).dlrem = 0) ∧
    (let s := modCtx base 1 (fun c => { c with record := { c.record with deadline := 5 }, dlrem := 3 })
     issuesIn s (.mfs 0 0x0B g0) = true ∧ (ctxAt s (ctxOf s).t.ctx).record.deadline ≠ 0 ∧ (ctxAt s (ctxOf s).t.ctx).dlrem = 3) ∧
    ((ctxOf base).thr 0).cych = none ∧
    (let s := withGrp (fun g => modThr g 0 (fun t => { t with cych := some 7 }))
     issuesIn s (.mfs 0 0x0A g0) = true ∧ ((ctxOf s).thr 0).cych = some 7) := by decide +kernel

theorem witness_SpecialRegisterWrites : issuesIn base (.mts 0 0x08 g0) = true ∧ issuesIn base (.mts 0 0x10 g0) = true ∧ issuesIn base (.mts 0 0x0D g0) = true ∧
    issuesIn base (.mts 0 0x0F gNone) = true ∧ (ctxOf base).parts gNone = [] ∧ (ctxOf base).parts g0 ≠ [] ∧
    ((ctxOf base).src 0 0).toNat % 8 = 0 ∧
    (let s := withGrp (fun g => modThr g 0 (fun t => { t with t := [(0, 5)] }))
     issuesIn s (.mts 0 0x08 g0) = true ∧ ((ctxOf s).src 0 0).toNat % 8 = 5) := by decide +kernel

/-! ## Witnesses: control, clauses, traps -/

/-- Group 0 with every thread's links and spill count set. -/
def linked (ks : List (BitVec 48)) (n : Nat) : State :=
  withGrp (fun g => { g with threads := g.threads.map (fun e => (e.1, { e.2 with links := ks, spilled := n })) })

/-- Links that leave no room: 16 entries and the spill area full. -/
def fullLinks : State := linked (List.replicate 16 0) 128

/-- The lanes whose push does not fit. -/
def unfit (x : Ctx) : List Nat := (x.parts g0).filter (fun l => decide (16 ≤ (x.thr l).links.length ∧ x.t.kernel.spill < 8 * ((x.thr l).spilled + 1)))

theorem witness_ControlWordsChooseOutcome : (List.all [.bra g0 0x3FFFFF, .call g0 0, .callx 0 2 g0, .ret g0, .exit g0, .yield] (issuesIn base)) = true ∧
    (∀ l ∈ (ctxOf base).parts g0, Claims.pushFits (ctxOf base) l) ∧ spillBusy (ctxOf base) ((ctxOf base).parts g0) = false ∧
    (∀ l ∈ (ctxOf base).parts g0, ¬ hasLink (ctxOf base) l) ∧ (ctxOf base).parts g0 ≠ [] ∧ ((ctxOf base).parts g0).Pairwise (· < ·) := by
  unfold Claims.pushFits hasLink
  decide +kernel

/-- The push that overflows, in every thread. -/
theorem witness_ControlWordsChooseOutcome_overflow : issuesIn fullLinks (.call g0 0) = true ∧ unfit (ctxOf fullLinks) ≠ [] ∧
    (unfit (ctxOf fullLinks)).Pairwise (· < ·) ∧ (∀ l ∈ unfit (ctxOf fullLinks), l ∈ (ctxOf fullLinks).parts g0 ∧ ¬ Claims.pushFits (ctxOf fullLinks) l) ∧
    (∀ l ∈ (ctxOf fullLinks).parts g0, l ∉ unfit (ctxOf fullLinks) → Claims.pushFits (ctxOf fullLinks) l) := by
  unfold Claims.pushFits
  decide +kernel

/-- A return with a link in the stack, and one with its link spilled. -/
theorem witness_ControlWordsChooseOutcome_ret : issuesIn (linked [0x4000] 0) (.ret g0) = true ∧ issuesIn (linked [] 1) (.ret g0) = true ∧
    (∀ l ∈ (ctxOf (linked [0x4000] 0)).parts g0, hasLink (ctxOf (linked [0x4000] 0)) l) ∧
    (∀ l ∈ (ctxOf (linked [] 1)).parts g0, hasLink (ctxOf (linked [] 1)) l ∧ ((ctxOf (linked [] 1)).thr l).links = [] ∧
      earlierAt (ctxOf (linked [] 1)).g l (spillLoc (ctxOf (linked [] 1)) l (((ctxOf (linked [] 1)).thr l).spilled - 1)) 8 = false) := by
  unfold hasLink
  decide +kernel

/-- What a brx reads: a head whose last index is 0, and an entry that is a multiple of 4. -/
def brxReads : Option (TMap (List Byte) × TMap (List Byte)) :=
  let x := ctxOf base
  match dataRead base x 4 ((x.parts g0).map (fun l => (l, (x.src l 1).toNat))) with
  | .vals s1 heads =>
    (match dataRead s1 x 4 ((x.parts g0).map (fun l => (l, (x.src l 1).toNat + 4 * (1 + (if (x.src l 0).toNat < bytesToNat (tget [] heads l) % 65536 then
        (x.src l 0).toNat else bytesToNat (tget [] heads l) % 65536))))) with
     | .vals _ es => some (heads, es)
     | _ => none)
  | _ => none

theorem witness_ControlWordsChooseOutcome_brx : issuesIn base (.brx 0 1 g0) = true ∧ brxReads.isSome = true ∧
    (∀ l ∈ (ctxOf base).parts g0, bytesToNat (tget [] (brxReads.getD ([], [])).2 l) % 4 = 0) := by decide +kernel

/-- A clause at its header. -/
def hbase : State := about (.clauseHeader 0x801 2 15 0)

theorem witness_HeaderBeginsClause :
    let x := ctxOf hbase
    let w := (encode (.clauseHeader 0x801 2 15 0)).getD 0
    issuing hbase = some x ∧ x.cl.decoded = false ∧ encode (.clauseHeader 0x801 2 15 0) = some w ∧ cancelEntry x.t.kernel ≠ some x.cl.head ∧
    (match fetchMany x.u x.cl.head x.cl.mask 2 (x.cl.head + 4) hbase [] with
     | .ok r => clauseCause w (r.1.take 1) (r.1.getD 1 0)
     | .error _ => some (.illegal, 0, 0)) = none ∧
    issuing base = some (ctxOf base) ∧ (ctxOf base).cl.decoded = true := by decide +kernel

/-- Whether a unit stands at a trailer that commits. -/
def trailerOk (va : VIdx) (oa : OField) (vb : VIdx) (ob : OField) (n : BitVec 2) (s : State) : Bool :=
  @decide (atTrailer va oa vb ob n s (ctxOf s)) (by unfold atTrailer passesTrailer; infer_instance)

/-- Group 0 at its trailer, with an outcome. -/
def tbase (c : Ctl) : State :=
  withGrp (fun g => { g with clause := g.clause.map (fun cl => { cl with next := 2, ctl := c }) })

/-- The conductor at its trailer, with an outcome. -/
def ctcond (c : Ctl) : State := withCond (fun g => { g with clause := g.clause.map (fun cl => { cl with next := 2, ctl := c }) })

/-- The conductor at its trailer. -/
def ctbase : State := ctcond .fall

/-- A transfer of thread 0 to the placed clause. -/
def toPlace (lk : LinkOp) : TMap Xfer := [(0, ⟨0x4000, none, lk⟩)]

theorem witness_TrailerCommitsThenContinues :
    trailerOk 255 0 255 12 2 (tbase .fall) = true ∧ trailerOk 0 0 0 0 0 (tbase .yielding) = true ∧
    trailerOk 63 0 63 1 2 ctbase = true ∧ (ctxOf ctbase).cond = true ∧ (ctxOf ctbase).lanes = [0] ∧ (ctxOf ctbase).cl.ctl = .fall ∧
    (ctxOf (tbase .fall)).cond = false ∧ trailerOk 0 0 0 0 0 (tbase (.exits 3)) = true := by
  decide +kernel

/-- The other outcomes of a conductor's clause: a yield, a transfer and an exit, none of its runs blocked. -/
theorem witness_TrailerCommitsThenContinues_conductor : (List.all [.yielding, .xfers (toPlace .none), .exits 1] (fun c =>
      trailerOk 63 0 63 1 2 (ctcond c) && decide ((ctxOf (ctcond c)).lanes = [0]) && decide ((ctxOf (ctcond c)).g.blocked = []) &&
      (ctxOf (ctcond c)).cond)) = true ∧
    (match checkTarget (ctcond (.xfers (toPlace .none))) ⟨2, 32⟩ ⟨0x4000, none, .none⟩ with
     | .ok => true
     | _ => false) = true := by decide +kernel

/-- A lockstep team whose second core differs in lane 5 of the clause. -/
def upsetBase : State := modTeam (tbase .fall) 2 (fun tm => { tm with upsets := [{ unit := 0, lane := 5, addr := 64 }] })

theorem witness_TrailerCommitsThenContinues_upset : passesTrailer 255 0 255 12 2 upsetBase (ctxOf upsetBase) ∧
    (ctxOf upsetBase).t.upsets.any (fun a => a.unit == (ctxOf upsetBase).u.idx && (ctxOf upsetBase).cl.mask.getLsbD a.lane) = true := by
  unfold passesTrailer
  decide +kernel

/-- Whether the target of that transfer passes its checks. -/
def targetOk (s : State) (lk : LinkOp) : Bool :=
  match checkTarget s ⟨2, 0⟩ ⟨0x4000, none, lk⟩ with
  | .ok => true
  | _ => false

theorem witness_TrailerCommitsThenContinues_xfers :
    trailerOk 9 4 0 0 1 (tbase (.xfers (toPlace .none))) = true ∧ (tkeys (toPlace .none)).Nodup ∧
    (∀ e ∈ toPlace .none, e.1 ∈ (ctxOf base).lanes) ∧ targetOk (tbase (.xfers (toPlace .none))) .none = true ∧
    targetOk (tbase (.xfers (toPlace (.push 8)))) (.push 8) = true ∧ base.faultBuf.length ≤ 256 ∧
    ((ctxOf base).thr 0).links.length < 16 ∧ ((ctxOf (linked [0x4000] 0)).thr 0).links = 0x4000 :: [] := by
  decide +kernel

/-- Group 0 between clauses. -/
def sbase : State := withGrp (fun g => { g with clause := none })

theorem witness_SelectedRunIsTheLowest :
    let g := unitAt sbase ⟨2, 0⟩
    (teamAt sbase 2).pairMode = false ∧ maySelect sbase ⟨2, 0⟩ = true ∧ g.windDown = false ∧ g.drain = false ∧ g.handler = none ∧ g.blocked = [] ∧
    g.tail = [] ∧ g.apart = [] ∧ g.xheld = [] ∧ domainSet sbase ⟨2, 0⟩ = false ∧ (∃ l ∈ liveLanes g, l < 32 ∧ (thrAt g l).pc.toNat = 0x4000) ∧
    (∀ l ∈ liveLanes g, l < 32 → 0x4000 ≤ (thrAt g l).pc.toNat) := by decide +kernel

/-- The cause of the hint that stands at a state's word, with the words after it. -/
def hintAt (s : State) (kind : Nat) (p : BitVec 24) : Option Nat :=
  let rest := (bodyRest s (ctxOf s)).drop 1
  let more := (rest.takeWhile (fun w => majorNat w == 0x3C)).map hintParts
  hintCause (ctxOf s) ((kind, p) :: more) (rest.drop more.length).head?

theorem witness_HintsAndPadsPass : (List.all [(Instr.hintImmediate 0xFFFFFF, 0, 0xFFFFFF), (.hintCache 0, 1, 0), (.hintModifier 0x800000, 2, 0x800000)]
      (fun e => issuesIn (about e.1) e.1 && decide (hintAt (about e.1) e.2.1 e.2.2 = none))) = true ∧ issuesIn base (.lpad 0xFFFF) = true := by decide +kernel

/-- A context with a handler for every cause. -/
def handled (s : State) : State := modCtx s 1 (fun c => { c with record := { c.record with hentry := 0x4000, hcmask := 0xFFFFFFFF } })

theorem witness_TrapEntersHandler : entersHandler (handled base) ⟨2, 0⟩ (mkRec (handled base) ⟨2, 0⟩ 0x4004 0x4000 .software 0 0xF 0) ∧
    (match walkFrom (handled base) (0x10000 + 64 * 0) 0x1000 3 with
     | .leaf _ _ _ => true
     | _ => false) = true ∧ (ctxAt (handled base) 1).record.trapbase = 0x10000 := by
  unfold entersHandler
  decide +kernel

theorem witness_FatalTrapStopsTeam : ¬ entersHandler base ⟨2, 0⟩ (mkRec base ⟨2, 0⟩ 0x4004 0x4000 .illegal 0 0xF 0) ∧
    ¬ entersHandler (handled cbase) ⟨2, 32⟩ (mkRec cbase ⟨2, 32⟩ 0x4004 0x4000 .illegal 0 1 0) ∧
    (match walkFrom base (trapAddr base ⟨2, 0⟩) (ctxAt base 1).record.ptroot 3 with
     | .leaf _ _ _ => true
     | _ => false) = true ∧
    (let s := modCtx base 1 (fun c => { c with record := { c.record with trapbase := 0x40000000 } })
     match walkFrom s (trapAddr s ⟨2, 0⟩) (ctxAt s 1).record.ptroot 3 with
     | .leaf _ _ _ => false
     | _ => true) = true := by
  unfold entersHandler
  decide +kernel

theorem witness_FirstCauseTrapsAtTheWord_words : (List.all [Instr.add 0 1 2 g0, .movin 8 0 g0 0, .acz 0, .acrd 0 0 0, .eret g0] (fun i =>
      match encode i with
      | some w => decide (majorNat w ≠ 0x3F) && decide (majorNat w ≠ 0x3D)
      | none => false)) = true ∧
    (let small := withGrp (fun g => { g with share := 1 })
     (ctxOf small).cond = false ∧ ((infoOf (.movin 8 0 g0 0)).v.any (fun v => decide (8 * (ctxOf small).g.share ≤ v)))) = true := by decide +kernel

theorem witness_FirstCauseTrapsAtTheWord :
    let x := ctxOf base
    let small := withGrp (fun g => { g with share := 1 })
    let bare := { base with teams := tset base.teams 2 { teamAt base 2 with kernel := { (teamAt base 2).kernel with acc := 0 } } }
    issuing base = some x ∧ wordCheck x (.eret g0) = some (.illegal, 0) ∧ inBody x.cl = true ∧ placedOk x.cl (infoOf (.add 0 1 2 g0)).place = true ∧
    flagChosen x.cl (infoOf (.add 0 1 2 g0)) = true ∧ legalIn x (.add 13 1 2 g0) (infoOf (.add 13 1 2 g0)) = false ∧
    legalIn x (.add 0 1 2 g0) (infoOf (.add 0 1 2 g0)) = true ∧ wordCheck (ctxOf small) (.movin 8 0 g0 0) = some (.operandLimit, 1) ∧
    wordCheck (ctxOf bare) (.acz 0) = some (.operandLimit, 2) ∧ x.cl.next = x.cl.len ∧ x.g.handler = none ∧
    isStructure (wordAt base x.u x.pc) = false ∧ isStructure (wordAt (tbase .fall) x.u (ctxOf (tbase .fall)).pc) = true ∧
    inBody (ctxOf (tbase .fall)).cl = false ∧ (ctxOf hbase).cl.decoded = false ∧
    majorNat (wordAt (about (.add 0 1 2 g0)) x.u 0x4004) ≠ 0x3F ∧ placedOk x.cl (rawPlace (wordAt base x.u x.pc)) = true ∧
    flagChosen x.cl { long := rawLong (wordAt base x.u x.pc), writesReg := true } = true ∧
    (let s := withGrp (fun g => { g with s := tset g.s 0 64 })
     valueIllegal (ctxOf s) (.acrd 0 0 0) = true ∧ wordCheck (ctxOf s) (.acrd 0 0 0) = some (.illegal, 0)) := by decide +kernel

theorem witness_TrapAndBrkTakeTheirTrap : issuesIn base (.trap 0 g0) = true ∧ issuesIn base (.brk g0) = true ∧ issuesIn base (.trap 0 gNone) = true ∧
    issuesIn base (.brk gNone) = true ∧ (ctxOf base).parts gNone = [] ∧ ((ctxOf base).parts g0).head? = some 0 ∧ 0 < 32 ∧
    entersHandler (handled base) ⟨2, 0⟩ (mkRec (handled base) ⟨2, 0⟩ 0x4004 0x4000 .breakpoint 0 0xFFFFFFFF 0) := by
  unfold entersHandler
  decide +kernel

/-- Group 0 at handler level. -/
def atHandler (m : BitVec 2) (hm : W32) : State := withGrp (fun g => { g with handler := some { hmode := m, hmask := hm, stopped := 0xFF } })

/-- The same at a trailer whose clause returns. -/
def atReturn (m : BitVec 2) (hm : W32) : State :=
  withGrp (fun g => { g with handler := some { hmode := m, hmask := hm, stopped := 0xFF },
                             clause := g.clause.map (fun cl => { cl with next := 2, ctl := .eret }) })

theorem witness_HandlerLevelWords :
    (List.all [.hmfs 0 g0 0, .hmfs 0 g0 6, .hmts 0 g0 3, .hmts 0 g0 6, .eret g0] (issuesIn (atHandler 0 0xFF))) = true ∧
    (ctxOf (atHandler 0 0xFF)).g.handler.isSome = true ∧ ((ctxOf (atHandler 0 0xFF)).parts g0).head? = some 0 ∧
    ((ctxOf (atHandler 0 0xFF)).src 0 0).toNat % 4 ≠ 3 ∧
    (List.all [(0, 0xFF), (1, 0x0F), (2, 0xFF)] (fun e => (ctxOf (atReturn e.1 e.2)).cl.ctl == .eret)) = true ∧
    trailerOk 0 0 0 0 0 (atReturn 1 0x0F) = true ∧ (0xFF &&& ~~~(0x0F : W32)) ≠ 0 ∧
    trailerOk 0 0 0 0 0 (atReturn 2 0xFF) = true := by
  decide +kernel

/-- The mode's fourth code, no participant, and a return of mode 2 that leaves lane 4 stopped. -/
theorem witness_HandlerLevelWords_rest :
    (let s := withGrp (fun g => { (modThr g 0 (fun t => { t with t := [(0, 3)] })) with handler := some { hmode := 0, hmask := 0xFF, stopped := 0xFF } })
     issuesIn s (.hmts 0 g0 5) = true ∧ ((ctxOf s).src 0 0).toNat % 4 = 3 ∧ ((ctxOf s).parts g0).head? = some 0) ∧
    issuesIn (atHandler 0 0xFF) (.hmts 0 gNone 3) = true ∧ issuesIn (atHandler 0 0xFF) (.eret gNone) = true ∧ (ctxOf (atHandler 0 0xFF)).parts gNone = [] ∧
    (let x := ctxOf (atReturn 2 0x0F)
     trailerOk 0 0 0 0 0 (atReturn 2 0x0F) = true ∧ (0xFF : W32).getLsbD 4 = true ∧ (0x0F : W32).getLsbD 4 = false ∧ (x.thr 4).live = true ∧
     x.g.blocked = []) := by
  decide +kernel

/-- Group 0 between clauses with a deferred trap of lane 31. -/
def deferredBase : State :=
  withGrp (fun g => { g with clause := none, deferred := [({ cause := .accessViolation, ctx := 1, mask := laneMask [31], pc := 0x4004, cstart := 0x4000 }, 31)] })

/-- A run that waits at a barrier past its budget. -/
def lateBase : State :=
  modCtx (withGrp (fun g => { g with clause := none, blocked := [{ id := 7, clause := { mask := 1, head := 0x4000, next := 2 }, wait := .bar 3 0 false, parts := 1, elapsed := 11 }] }))
    1 (fun c => { c with record := { c.record with waitdef := 10 } })

theorem witness_DeferredTrapAndTimeoutAreTaken :
    (let g := unitAt deferredBase ⟨2, 0⟩
     g.deferred.length = 1 ∧ (g.deferred.map (·.1.mask)) = [laneMask [31]] ∧ (thrAt g 31).live = true ∧ clauseStarted g = false ∧ g.handler = none ∧
     g.blocked = []) ∧ deferredBase.gangOps = [] ∧ deferredBase.supervisor.freeze = false ∧ lateBase.supervisor.freeze = false ∧
    (blockedRun lateBase ⟨2, 0⟩ 7).isSome = true ∧ waitBudgetOf lateBase (teamAt lateBase 2) < 11 ∧
    clauseStarted (unitAt lateBase ⟨2, 0⟩) = false ∧ (WaitKind.bar 3 0 false).timed = true := by decide +kernel

/-! ## Witnesses: memory -/

theorem witness_AddressesResolve :
    let t := teamAt base 2
    t.kernel.scratch = 65536 ∧ gangMembers base t = [2] ∧ (0xFEFFFFFFFFFF : Nat) < 0xFF0000000000 ∧ (0xFF3FFFFFFFFF : Nat) < 0xFF4000000000 ∧
    (0xFF7FFFFFFFFF : Nat) < 0xFF8000000000 ∧ (0xFFFFFFFFFFFF : Nat) < 2 ^ 48 := by decide +kernel

theorem witness_LoadsAndStoresIssue :
    let x := ctxOf base
    (List.all [.ld ⟨8, 15, 4, 0, .glb, false⟩ .b32, .ldx ⟨8, 15, 4, 0, .spad, true⟩ .b128, .st ⟨8, 15, 4, 0, .glb, false⟩ .b32,
      .stx ⟨8, 15, 4, 0, .priv, false⟩ .b64, .pref 15 4 0 .glb true, .ldq 15 8 g0 3 4, .ldq 15 8 gNone 0 4] (issuesIn base)) = true ∧
    touchesLogged base ⟨2, 0⟩ .glb 4 (lanes0 x) = false ∧ accessed base .read .glb 4 4 (lanes0 x) = some (32, 0) ∧
    accessed base .write .glb 4 4 (lanes0 x) = some (32, 0) ∧ accessed base .read .glb 4 4 (lanesFar x) = some (0, 32) ∧
    logRoom base 0 = true ∧ accessed base .read .gen 16 16 [(0, 0)] = some (1, 0) ∧ x.parts gNone = [] ∧ (x.parts g0).head? = some 0 ∧
    faultsFit base [{ lane := 0, va := 0x40000000, level := 2, h := false }] = true := by decide +kernel

/-- The machine with a full buffer of fault records. -/
def faultsFull : State := { base with faultBuf := List.replicate 4096 {} }

/-- The forms that fault, with room for the records and without. -/
theorem witness_LoadsAndStoresIssue_faults :
    let x := ctxOf base
    accessed base .write .glb 4 4 (lanesFar x) = some (0, 32) ∧ accessed base .read .gen 16 16 [(0, 0x40000000)] = some (0, 1) ∧
    base.faultBuf.length < 4096 ∧ accessed faultsFull .read .gen 16 16 [(0, 0x40000000)] = some (0, 1) ∧ 4096 ≤ faultsFull.faultBuf.length ∧
    accessed faultsFull .read .glb 4 4 (lanesFar x) = some (0, 32) ∧
    faultsFit faultsFull [{ lane := 0, va := 0x40000000, level := 2, h := false }] = false ∧
    issuesIn faultsFull (.ld ⟨8, 15, 4, 0, .glb, false⟩ .b32) = true ∧ touchesLogged faultsFull ⟨2, 0⟩ .glb 4 (lanesFar x) = false := by decide +kernel

/-- A load of lanes 0 and 31 that may bind. -/
def loadOf (ty : LoadType) (loc : Nat → Loc) (ls : List Nat) (d : LoadDest) : PendingLoad :=
  { id := 9, pc := 0x4004, cstart := 0x4000, flag := some 0, dest := d, type := ty, bytes := loadBytes ty,
    lanes := ls.map (fun l => { lane := l, loc := loc l, va := 0x8000 + 4 * l }) }

/-- Group 0 with one load outstanding. -/
def loading (p : PendingLoad) : State := withGrp (fun g => { g with loads := [p] })

theorem witness_LoadArrivalWritesItsRegisters :
    let p := loadOf .i16 (fun l => .phys (0x8000 + 4 * l)) [0, 31] (.lanes 8)
    let q := loadOf .b32 (fun _ => .phys 0x8000) [0] (.uniform 8)
    let r := loadOf .b64 (fun _ => .phys 0x8000) [0] (.lanes 8)
    let s := loading p
    (unitAt s ⟨2, 0⟩).loads.find? (fun y => y.id == 9) = some p ∧ loadReady s ⟨2, 0⟩ p = true ∧ s.badLines = [] ∧ (p.lanes.map (·.lane)).Nodup ∧
    isCond ⟨2, 0⟩ = false ∧ (unitAt s ⟨2, 0⟩).stores = [] ∧ loadReady (loading q) ⟨2, 0⟩ q = true ∧
    (let c := withCond (fun g => { g with loads := [r] })
     isCond ⟨2, 32⟩ = true ∧ (unitAt c ⟨2, 32⟩).loads.find? (fun y => y.id == 9) = some r ∧ loadReady c ⟨2, 32⟩ r = true ∧ c.badLines = [] ∧ r.lanes.length = 1) ∧
    (let b := { loading p with badLines := [0x8000 / 64] }
     (unitAt b ⟨2, 0⟩).retired = false ∧ loadReady b ⟨2, 0⟩ p = true ∧ lineOf 0x8000 ∈ b.badLines) := by decide +kernel

theorem witness_StoreDrainIsSeenByItsCore :
    let p : PendingStore := { id := 9, pc := 0x4004, cstart := 0x4000, flag := some 0, lanes := [{ lane := 0, loc := .phys 0x8000, va := 0x8000, data := [1, 2, 3, 4] }], logged := none }
    let s := withGrp (fun g => { g with stores := [p] })
    (unitAt s ⟨2, 0⟩).stores = [p] ∧ storeReady s ⟨2, 0⟩ p = true ∧ waitedWords s 0 0x8000 1 = [] ∧ coreOf s ⟨2, 0⟩ = 0 ∧
    ((coreAt s 0).unpub.filter (fun e => e.1 == 0x8000)).length ≤ 1 ∧
    (let w := modUnit s ⟨2, 1⟩ (fun g => { g with blocked := [{ id := 7, clause := { mask := 1, head := 0x4000, next := 2 }, wait := .waitf (.phys 0x8000) 0x8000 5 .geN 0 none, parts := 1 }] })
     waitedWords w 0 0x8000 1 ≠ [] ∧ (unitAt w ⟨2, 0⟩).stores.find? (storeReady w ⟨2, 0⟩) = some p) := by decide +kernel

theorem witness_AtomicsReadAndWriteTheLatest :
    (List.all [.atom 0 15 8 g0 .none .add, .atom 4 15 8 g0 .none .cas, .atom 8 15 8 g0 .ar .cas64, .red 0 15 8 g0 .rel .add64, .best 0 15 8 g0 .acq 8]
      (issuesIn base)) = true ∧ issuesIn cbase (.atom 0 15 8 g0 .none .add) = true ∧
    touchesLogged base ⟨2, 0⟩ .gen 64 (lanes0 (ctxOf base)) = false ∧ accessed base .atomic .gen 4 4 (lanes0 (ctxOf base)) = some (32, 0) ∧
    accessed base .atomic .gen 64 64 (lanes0 (ctxOf base)) = some (32, 0) ∧ (ctxOf base).g.loads = [] ∧ (ctxOf base).g.stores = [] ∧
    quiet base ⟨2, 0⟩ = true ∧ (orderBefore base ⟨2, 0⟩ .dev).isSome = true ∧ base.owned = [] ∧ (ctxOf base).t.upsets = [] ∧
    accessed base .atomic .gen 4 4 [] = some (0, 0) := by decide +kernel

theorem witness_PhaseStepsMoveTheView :
    let waits := withGrp (fun g => { g with stores := [{ id := 9, pc := 0x4004, cstart := 0x4000, flag := none, lanes := [], logged := none }] })
    (List.all [.fence .grp, .fence .team, .fence .gang, .fence .dev, .fence .sys, .phase .rel, .phase .acq, .phase .ar] (issuesIn base)) = true ∧
    quiet base ⟨2, 0⟩ = true ∧ peerWaits base ⟨2, 0⟩ = false ∧ issuesIn waits (.fence .grp) = true ∧ issuesIn waits (.phase .ar) = true ∧
    quiet waits ⟨2, 0⟩ = false ∧ ((coreAt base 0).unpub.filter (fun e => e.1 == 5)) = [] ∧
    (let d := modCore base 0 (fun k => { k with unpub := [(5, 7)] })
     (coreAt d 0).unpub.filter (fun e => e.1 == 5) = [(5, 7)]) := by decide +kernel


/-- Whether the access of a word of major 0x27 can be performed now. -/
def atomGoes (s : State) (n : Nat) : Bool :=
  match access s ⟨2, 0⟩ .atomic .gen n n (lanes0 (ctxOf s)) with
  | .go s1 ok fs => fs.isEmpty && !ok.isEmpty && !recalled s1 ⟨2, 0⟩ ok &&
      ok.all (fun e => !earlierAt (ctxOf s).g e.lane e.loc n && (match e.loc with
        | .phys _ => true
        | _ => false)) && (orderBefore s1 ⟨2, 0⟩ (atomScope (ctxOf s))).isSome
  | _ => false

/-- Group 0 with a red of lane 0 that may be performed. -/
def reduces : PendingStore :=
  { id := 9, pc := 0x4004, cstart := 0x4000, flag := none, lanes := [{ lane := 0, loc := .phys 0x8000, va := 0x8000, data := List.replicate 16 1 }],
    logged := none, red := some .add }

theorem witness_AtomicsReadAndWriteTheLatest_ready : atomGoes base 4 = true ∧ atomGoes base 64 = true ∧ ordered .none = false ∧ ordered .ar = true ∧
    hasBefore .rel = true ∧ hasAfter .acq = true ∧ issuesIn base (.red 0 15 8 g0 .none .add) = true ∧ issuesIn base (.red 0 15 8 gNone .none .add) = true ∧
    (let s := withGrp (fun g => { g with stores := [reduces] })
     (unitAt s ⟨2, 0⟩).stores.find? (storeReady s ⟨2, 0⟩) = some reduces) := by decide +kernel
/-! ## Witnesses: synchronisation -/

/-- Group 0 with an operand-file register of every thread set. -/
def withT (i : Nat) (v : W32) : State := withGrp (fun g => { g with threads := g.threads.map (fun e => (e.1, { e.2 with t := [(i, v)] })) })

/-- A machine whose grid's cancellation domain is set. -/
def cancelled : State := modGrid base 1 (fun g => { g with domain := true })

/-- Group 0 with a first barrier as given. -/
def atBarrier (b : Barrier) : State := { base with teams := tset base.teams 2 { teamAt base 2 with barriers := [(0, b)] } }

theorem witness_BarrierArrivalsAndRelease :
    let x := ctxOf base
    let b : Barrier := { gen := 3, count := some 64, arrivals := [⟨⟨2, 9⟩, 7, 32, none, []⟩] }
    (List.all [.bar 0 1 2 g0, .barRed 0 1 2 3 g0 .maxI, .barg 0 2 g0, .bargRed 0 2 3 g0 .and, .bar 0 1 2 gNone, .barg 0 2 gNone] (issuesIn base)) = true ∧
    x.parts g0 ≠ [] ∧ x.parts gNone = [] ∧ domainSet base x.u = false ∧ x.g.windDown = false ∧ quiet base x.u = true ∧ gangBar base x.t = {} ∧
    (x.src 0 1).toNat < x.t.kernel.barriers ∧ (barAt x.t 0).count = none ∧ (barAt x.t 0).engines = 0 ∧
    (x.parts g0).length = liveThreads (teamAt (setUnit base x.u x.g) 2) ∧ x.g.blocked = [] ∧
    (let s := withT 2 64
     ((ctxOf s).src 0 2).toNat = 64 ∧ ¬ (32 = 64)) ∧
    (barAt (teamAt (atBarrier b) 2) 0).count = some 64 ∧ (barAt (teamAt (atBarrier b) 2) 0).arrivals.foldl (fun n a => n + a.count) 0 + 32 = 64 ∧
    (let s := withT 1 16
     issuesIn s (.bar 0 1 2 g0) = true ∧ (ctxOf s).t.kernel.barriers ≤ ((ctxOf s).src 0 1).toNat) ∧
    (let s := withT 1 15
     ((ctxOf s).src 0 1).toNat < (ctxOf s).t.kernel.barriers) ∧
    domainSet cancelled x.u = true ∧ issuesIn cancelled (.bar 0 1 2 g0) = true ∧ issuesIn cancelled (.barg 0 2 g0) = true := by decide +kernel

/-- A future slot in group 0. -/
def withSlot (n : Nat) (f : FutSlot) : State := withGrp (fun g => { g with futures := [(n, f)], threads := g.threads.map (fun e => (e.1, { e.2 with t := [(0, BitVec.ofNat 32 n)] })) })

/-- A run of group 0 in a wait, between clauses. -/
def inWait (w : WaitKind) (hit : Option W32) : State :=
  withGrp (fun g => { g with clause := none, blocked := [{ id := 7, clause := { mask := 0x80000001, head := 0x4000, next := 2 }, wait := w, parts := 0x80000001, hit := hit }] })

/-- Producer words of each KIND, and the slots a KIND 2 word and a cancel may name: of a grid, dropped, free, and of an engine. -/
theorem witness_FlagWaitsAndCancellation_producers :
    (0x40000000 : W32).toNat / 2 ^ 30 = 1 ∧ (0xBC000000 : W32).toNat / 2 ^ 30 = 2 ∧ (0xBC000000 : W32).toNat / 2 ^ 26 % 16 = 15 ∧
    (0xBC000000 : W32).toNat / 2 ^ 22 % 16 = 0 ∧ (0x40000000 : W32).toNat / 2 ^ 22 % 16 = 0 ∧
    (List.all [(({} : FutSlot), false), ({ state := .pending, kind := .copy }, false), ({ state := .pending, kind := .grid, link := 1, dropped := true }, false),
      ({ state := .pending, kind := .grid, link := 1 }, true)] (fun e =>
        let s := withSlot 15 e.1
        let f := slotAt (ctxOf s).g 15
        issuesIn s (.cancel 1 0 g0) && decide (((ctxOf s).src 0 0).toNat = 15) &&
        decide ((f.state ≠ .free ∧ f.dropped = false ∧ (f.kind = .grid ∨ f.kind = .graph)) ↔ e.2 = true) &&
        decide ((f.state = .free ∨ f.dropped = true ∨ (f.kind ≠ .grid ∧ f.kind ≠ .graph)) ↔ e.2 = false))) = true := by decide +kernel

theorem witness_FlagWaitsAndCancellation :
    let x := ctxOf base
    let i : Instr := .waitf 0 2 1 15 g0 .eq
    let j : Instr := .waitf 0 2 1 15 g0 .ltN
    issuesIn base i = true ∧ issuesIn base j = true ∧ (x.parts g0).head? = some 0 ∧ x.g.windDown = false ∧ domainSet base x.u = false ∧
    producer base x (x.src 0 15) = .legal ∧ touchesLogged base x.u .gen 4 [(0, x.src64 0 2)] = false ∧
    accessed base .read .gen 4 4 [(0, x.src64 0 2)] = some (1, 0) ∧ ownedAt base x.t.ctx (.phys 0) 0 = false ∧ earlierAt x.g 0 (.phys 0) 4 = false ∧ x.joint = false ∧ x.g.loads = [] ∧ x.g.stores = [] ∧
    holds .eq (bytesToW32 (locBytes base (.phys 0) 4)) (x.src 0 1) ∧ ¬ holds .ltN (bytesToW32 (locBytes base (.phys 0) 4)) (x.src 0 1) ∧
    issuesIn cancelled i = true ∧ domainSet cancelled x.u = true ∧
    (let s := withT 3 0x400000
     issuesIn s (.waitf 0 4 1 3 g0 .eq) = true ∧ producer s (ctxOf s) ((ctxOf s).src 0 3) = .illegal) ∧
    (let s := modGrid (withT 3 0x40000000) 1 (fun g => { g with cls := 2, teams := 1 })
     issuesIn s (.waitf 0 4 1 3 g0 .eq) = true ∧ producer s (ctxOf s) ((ctxOf s).src 0 3) = .illegalWait ∧
     accessed s .read .gen 4 4 [(0, (ctxOf s).src64 0 4)] = some (1, 0)) ∧
    (blockedRun (inWait (.waitf (.phys 0x8000) 0x8000 5 .geN 11 none) (some 6)) ⟨2, 0⟩ 7).isSome = true ∧
    issuesIn (withT 0 0xFFFFFFFF) (.cancel 1 0 g0) = true ∧ (ctxOf (withT 0 0xFFFFFFFF)).src 0 0 = 0xFFFFFFFF ∧
    issuesIn (withT 0 16) (.cancel 1 0 g0) = true ∧ ((ctxOf (withT 0 16)).src 0 0).toNat = 16 ∧
    (let s := withSlot 15 { state := .pending, kind := .grid, link := 1 }
     issuesIn s (.cancel 1 0 g0) = true ∧ ((ctxOf s).src 0 0).toNat = 15 ∧ (slotAt (ctxOf s).g 15).state ≠ .free ∧
     (slotAt (ctxOf s).g 15).dropped = false ∧ (slotAt (ctxOf s).g 15).kind = .grid) ∧
    thas base.grids 1 = true ∧ (gridAt base 1).live = true ∧ issuesIn base (.chkc 0 g0) = true := by
  unfold holds
  decide +kernel

/-- Group 0 of a team with a conductor, about to issue. -/
def both (f : Grp → Grp) : State := { modUnit cbase ⟨2, 0⟩ (fun _ => f (unitAt base ⟨2, 0⟩)) with focus := some ⟨2, 0⟩ }

theorem witness_FeedQueuesAndIterator :
    let full : State := modUnit cbase ⟨2, 0⟩ (fun g => { g with feed := List.replicate 16 (.uniform 1) })
    issuesIn (both (fun g => { g with feed := [.vector 1 2, .uniform 3] })) (.feed 0 g0) = true ∧ issuesIn (both id) (.feed 0 g0) = true ∧
    conductorGone (ctxOf (both id)).t = false ∧ (ctxOf (both id)).g.feed = [] ∧ issuesIn base (.feed 0 g0) = true ∧
    conductorGone (ctxOf base).t = true ∧ (ctxOf base).g.feed = [] ∧
    (let s := both (fun g => { g with feed := [.uniform 3], held := some (.feed 0 g0) })
     (issuing { s with focus := some ⟨2, 0⟩ }).isSome = true ∧ (ctxOf s).g.held = some (.feed 0 g0)) ∧
    issuesIn cbase (.fpushU 0 1 g0) = true ∧ issuesIn cbase (.fpushV 0 1 2 g0) = true ∧ ((ctxOf cbase).parts g0) = [0] ∧
    ((ctxOf cbase).src 0 1).toNat < (ctxOf cbase).t.groups ∧ quiet cbase ⟨2, 32⟩ = true ∧ (ctxOf cbase).g.windDown = false ∧
    (unitAt cbase ⟨2, 0⟩).retired = false ∧ (unitAt cbase ⟨2, 0⟩).feed.length < Config.feedEntries ∧
    (let s := withCond (fun g => { g with k := [(1, 1)] })
     issuesIn s (.fpushU 0 1 g0) = true ∧ (ctxOf s).t.groups ≤ ((ctxOf s).src 0 1).toNat) ∧
    Config.feedEntries ≤ (unitAt full ⟨2, 0⟩).feed.length ∧ issuesIn full (.fpushU 0 1 g0) = true ∧
    (unitAt (modUnit cbase ⟨2, 0⟩ (fun g => { g with retired := true })) ⟨2, 0⟩).retired = true ∧
    (let s := withCond (fun g => { g with stores := [{ id := 9, pc := 0x4004, cstart := 0x4000, flag := none, lanes := [], logged := none }] })
     issuesIn s (.fpushU 0 1 g0) = true ∧ quiet s ⟨2, 32⟩ = false ∧ (unitAt s ⟨2, 0⟩).retired = false ∧ (ctxOf s).g.windDown = false) ∧
    (let s := withCond (fun g => { g with held := some (.fpush 0 (.uniform 7)) })
     (issuing { s with focus := some ⟨2, 32⟩ }).isSome = true ∧ (ctxOf s).g.held = some (.fpush 0 (.uniform 7))) ∧
    issuesIn cbase (.agen 3 0 1 2 g0) = true ∧ (kAt (ctxOf cbase).g 1).toNat / 2 ^ 48 = 0 ∧
    (let s := withCond (fun g => { g with k := [(1, 0x0001000000000008)] })
     issuesIn s (.agen 3 0 1 2 g0) = true ∧ (kAt (ctxOf s).g 1).toNat / 2 ^ 48 = 1) := by decide +kernel

/-- Group 0 with a share and its team with a free store. -/
def shares (n f : Nat) (t : State) : State :=
  let s := modUnit t ⟨2, 0⟩ (fun g => { g with share := n })
  { s with teams := tset s.teams 2 { teamAt s 2 with freeStore := f } }

theorem witness_SharesAndSleeps :
    issuesIn (withT 0 32) (.regy 1 0 g0) = true ∧ (ctxOf (withT 0 32)).g.share ≤ ((ctxOf (withT 0 32)).src 0 0).toNat ∧
    issuesIn (withT 0 31) (.regy 1 0 g0) = true ∧ ((ctxOf (withT 0 31)).src 0 0).toNat < (ctxOf (withT 0 31)).g.share ∧ pendingV (withT 0 31) ⟨2, 0⟩ = [] ∧
    (let s := shares 1 31 (withT 0 31)
     issuesIn s (.regc 1 0 g0) = true ∧ (ctxOf s).g.share + 31 ≤ 32 ∧ (ctxOf s).joint = false ∧ (∀ e ∈ (ctxOf s).t.units, e.1 < (ctxOf s).u.idx → e.2.retired = true) ∧ (ctxOf s).t.claims = [] ∧ 31 ≤ (ctxOf s).t.freeStore ∧ domainSet s ⟨2, 0⟩ = false) ∧
    (let s := shares 1 30 (withT 0 31)
     issuesIn s (.regc 1 0 g0) = true ∧ (ctxOf s).t.freeStore < ((ctxOf s).src 0 0).toNat) ∧
    32 < (ctxOf (withT 0 1)).g.share + ((ctxOf (withT 0 1)).src 0 0).toNat ∧
    (let s := shares 1 31 (inWait (.regc 1 31) none)
     let s' := { s with teams := tset s.teams 2 { teamAt s 2 with claims := [⟨0, 7, 31, 1⟩] } }
     (blockedRun s' ⟨2, 0⟩ 7).isSome = true ∧ 31 ≤ (teamAt s' 2).freeStore ∧ (unitAt s' ⟨2, 0⟩).share + 31 ≤ 32 ∧ clusterCyc s' 0 = 0 ∧ s'.supervisor.freeze = false ∧ isCond ⟨2, 0⟩ = false) ∧
    issuesIn base (.sleepCyc 1 0) = true ∧ (ctxOf base).src 0 0 = 0 ∧ issuesIn (withT 0 9) (.sleepCyc 1 0) = true ∧ (ctxOf (withT 0 9)).src 0 0 ≠ 0 ∧
    issuesIn (withT 0 16) (.sleepFut 1 0) = true ∧ (slotAt (ctxOf base).g 0).state = .free ∧
    (let s := withSlot 15 { state := .complete, kind := .copy }
     let p := withSlot 15 { state := .pending, kind := .copy, promise := 50 }
     issuesIn s (.sleepFut 1 0) = true ∧ (slotAt (ctxOf s).g 15).kind = .copy ∧ (slotAt (ctxOf s).g 15).dropped = false ∧
     issuesIn p (.sleepFut 1 0) = true ∧ (slotAt (ctxOf p).g 15).state = .pending) ∧
    (blockedRun (inWait (.sleepCyc 11 0 0) none) ⟨2, 0⟩ 7).isSome = true ∧ 0 ≤ (clusterAt base 0).cyc.toNat ∧
    (let s := modUnit (inWait (.sleepFut 11 15 0 0) none) ⟨2, 0⟩ (fun g => { g with futures := [(15, { state := .pending, kind := .copy })] })
     (slotAt (unitAt s ⟨2, 0⟩) 15).state = .pending ∧ (slotAt (unitAt s ⟨2, 0⟩) 15).cluster = coreOf s ⟨2, 0⟩ / 8 ∧
     clauseStarted (unitAt s ⟨2, 0⟩) = false ∧ (blockedRun s ⟨2, 0⟩ 7).isSome = true) ∧
    (slotAt (unitAt (inWait (.sleepFut 11 15 0 0) none) ⟨2, 0⟩) 15).state ≠ .pending := by decide +kernel


/-! ## Witnesses: work and the depot -/

/-- Memory given 64-byte records at multiples of 64 from 0x8100, seen by core 0. -/
def withRecs (s : State) (rs : List Nat) : State :=
  let m := ((List.range rs.length).zip rs).foldl (fun m e => memWriteN m (0x8100 + 64 * e.1) (natToBytes 64 e.2)) s.mem
  { s with mem := m, cores := tset s.cores 0 { coreAt s 0 with cut := m } }

/-- Group 0 with registers of its threads as given. -/
def withV (s : State) (f : Nat → TMap W32) : State :=
  modUnit s ⟨2, 0⟩ (fun g => { g with threads := g.threads.map (fun e => (e.1, { e.2 with v := f e.1 })) })

/-- The context with a kernel registered at 0x9000 of code. -/
def registered (s : State) : State :=
  modCtx s 1 (fun c => { c with objects := [{ addr := 0x9000, kernels := [{ placeKernel with addr := 0x9000 }] }] })

/-- A spawn record of that kernel: one team of one group. -/
def spawnRec : Nat := 0x9000 + 1 * 2 ^ 64 + 1 * 2 ^ 96

/-- A task record of a graph of one engine node at 0x8140, and that node. -/
def taskRec : Nat := 0x8140 + 1 * 2 ^ 64 + 2 * 2 ^ 96

/-- A node of kind 1. -/
def taskNode : Nat := 1 * 2 ^ 32

/-- The run of the unit cut to one lane. -/
def oneLane (s : State) : State := modUnit s ⟨2, 0⟩ (fun g => { g with clause := g.clause.map (fun c => { c with mask := 0x80000000 }) })

/-- The state and bytes after the records of some requesters are read. -/
def readBack (s : State) (x : Ctx) (v : VIdx) (q : SIdx) (req : List Nat) : Option (State × TMap (List Byte)) :=
  let s1 := releaseStep s x.t.core
  match heldRead s1 { x with g := unitAt s1 x.u } .gen 64 64
    (req.map (fun l => (l, BitVec.ofInt 64 (((x.uni64 q.toNat).toNat : Int) + (x.main l v.toNat).toInt)))) with
  | .vals s2 vs => some (s2, vs)
  | _ => none

/-- What a record of a requester makes: a grid, or the status of its refusal. -/
def made (y : Except Nat Grid) : Nat := match y with | .ok _ => 0 | .error n => n

theorem witness_WorkIsCreatedForItsRequesters_spawn :
    let s := registered (withRecs (withV base (fun _ => [(0, 0x8100)])) [spawnRec])
    let x := ctxOf s
    let b := oneLane (registered (withRecs (withV base (fun l => [(0, if l = 31 then 0x8100 else 0)])) [spawnRec]))
    issuesIn s (.spawn 0 14 true) = true ∧ domainSet s x.u = false ∧ (gridAt s x.t.grid).depth < 10 ∧ 1 ≤ (freeSlots x.g).length ∧ quiet s x.u = true ∧
    ((readBack s x 0 14 [x.lead]).map (fun r => made (spawnGrid r.1 x.t.ctx (tget [] r.2 x.lead)))) = some 0 ∧
    ((readBack base (ctxOf base) 0 14 [0]).map (fun r => made (spawnGrid r.1 1 (tget [] r.2 0)))) = some 6 ∧
    issuesIn b (.spawn 0 14 false) = true ∧ (ctxOf b).lanes = [31] ∧
    ((readBack b (ctxOf b) 0 14 (ctxOf b).lanes).map (fun r => made (spawnGrid r.1 1 (tget [] r.2 31)))) = some 0 := by decide +kernel

theorem witness_WorkIsCreatedForItsRequesters_task :
    let s := oneLane (withRecs (withV base (fun _ => [(0, 0x8100)])) [taskRec, taskNode])
    let x := ctxOf s
    issuesIn s (.task 0 14 true) = true ∧ issuesIn s (.task 0 14 false) = true ∧ x.lanes = [31] ∧ x.lead = 31 ∧ quiet s x.u = true ∧
    ((readBack s x 0 14 [31]).map (fun r =>
      match readTasks r.1 x.t.ctx [(31, tget [] r.2 31)] with
      | .ok _ [(31, y)] => some (made y)
      | _ => none)) = some (some 0) := by decide +kernel

theorem witness_WorkIsCreatedForItsRequesters_refused :
    issuesIn base (.spawn 0 14 false) = true ∧ (freeSlots (ctxOf base).g).length < 32 ∧ (ctxOf base).lanes.length = 32 ∧
    domainSet cancelled ⟨2, 0⟩ = true ∧ issuesIn cancelled (.task 0 14 true) = true ∧
    (let s := modGrid base 1 (fun g => { g with depth := 10 })
     issuesIn s (.spawn 0 14 true) = true ∧ domainSet s ⟨2, 0⟩ = false ∧ 10 ≤ (gridAt s (ctxOf s).t.grid).depth) := by decide +kernel

/-- A state with pool 0 assigned to a context. -/
def withPool (s : State) (c : Nat) (p : Pool) : State := { s with pools := tset s.pools 0 { p with ctx := some c } }

/-- Two nodes of 64 bytes at 1 MiB. -/
def twoNodes : Pool := { base := 0x100000, log2 := 6, count := 2 }

theorem witness_DepotNodesAreHandedOutAndReturned :
    (let s := withPool base 1 { twoNodes with fresh := 1, freed := [0x100000] }
     issuesIn s (.dalloc 14 15 7) = true ∧ (ctxOf s).cond = false ∧ (poolAt s (((ctxOf s).uni 15).toNat % 256)).ctx = some (ctxOf s).t.ctx ∧
     nodesFree (poolAt s 0) = [0x100000, 0x100040] ∧ (ctxOf s).lanes.length = 32) ∧
    (let s := withPool cbase 1 twoNodes
     issuesIn s (.dalloc 14 15 7) = true ∧ (ctxOf s).cond = true ∧ (ctxOf s).lanes = [0] ∧ (poolAt s (((ctxOf s).uni 15).toNat % 256)).ctx = some (ctxOf s).t.ctx) ∧
    (let s := withV (withPool base 1 { twoNodes with fresh := 2 }) (fun l => if l = 3 then [(0, 0x100000)] else if l = 31 then [(0, 0x100040)] else [])
     let x := ctxOf s
     issuesIn s (.dfree 0 15) = true ∧ (poolAt s ((x.uni 15).toNat % 256)).ctx = some x.t.ctx ∧ quiet s x.u = true ∧
     badFrees (poolAt s 0) (x.lanes.map (fun l => (l, (x.main l 1).toNat * 2 ^ 32 + (x.main l 0).toNat))) = []) ∧
    badFrees { twoNodes with fresh := 2 } [(0, 0x100040)] = [] ∧
    (let s := withV (withPool base 1 twoNodes) (fun l => if 30 ≤ l then [(0, 0x100000)] else [])
     let x := ctxOf s
     issuesIn s (.dfree 0 15) = true ∧ badFrees (poolAt s 0) (x.lanes.map (fun l => (l, (x.main l 1).toNat * 2 ^ 32 + (x.main l 0).toNat))) = [30, 31]) ∧
    (let s := withPool base 2 twoNodes
     issuesIn s (.dfree 0 15) = true ∧ issuesIn s (.dalloc 0 15 1) = true ∧ (poolAt s (((ctxOf s).uni 15).toNat % 256)).ctx ≠ some (ctxOf s).t.ctx) := by decide +kernel

/-! ## Witnesses: the matrix unit -/

/-- What reading a record comes to, where it is read. -/
def recOf (s : State) (x : Ctx) (sp : Space) (a : W64) : Option (List Byte × State) :=
  match heldRead s x sp 64 64 [(x.lead, a)] with
  | .vals s1 vs => some (tget [] vs x.lead, s1)
  | .stop _ => none

theorem recordIs_of (s : State) (x : Ctx) (sp : Space) (a : W64) (bs : List Byte) (s1 : State) (h : recOf s x sp a = some (bs, s1)) :
    recordIs s x sp a bs s1 := by
  intro k
  unfold recOf at h
  unfold readRec
  split at h <;> simp_all

/-- The placed team's scratchpad given a record at 0, and memory given records from 0x8100. -/
def withBlock (s : State) (blk : Nat) (rs : List Nat) : State :=
  let s1 := withRecs s rs
  { s1 with teams := tset s1.teams 2 { teamAt s1 2 with scratch := memWriteN [] 0 (natToBytes 64 blk) } }

/-- A stencil of one dimension of 64 elements at 0xA000. -/
def sten (fmt : Nat) : Nat := 0xA000 + 64 * 2 ^ 64 + fmt * 2 ^ 352 + 1 * 2 ^ 358

/-- A block that names two stencils. -/
def twoStens : Nat := 0x8100 + 0x8140 * 2 ^ 64

/-- An INT8 product of the smallest tile. -/
def smallMx : MxFields := { fmtA := 0x1F, fmtB := 0x1F, acc := 7, shape := { m := 0, n := 0, k := 0 }, s := 14, flagB := true }

/-- Whether the records of a matrix word are read and pass. -/
def matPasses (s : State) (gang : Bool) : Bool :=
  let x := ctxOf s
  match recOf s x .spad 0 with
  | none => false
  | some (pb, s1) =>
    let blk := parseParam 0 pb
    match recOf s1 x .gen blk.aSten with
    | none => false
    | some (ab, s2) =>
      match recOf s2 x .gen blk.bSten with
      | none => false
      | some (bb, s3) =>
        let a := parseStencil blk.aSten.toNat ab
        let b := parseStencil blk.bSten.toNat bb
        paramSub (if gang then some (gangMembers s x.t).length else none) blk == none &&
        stencilSub s3 x.t.ctx a (operandUse smallMx.fmtA (keOf smallMx) (blk.ac.getD 0 0)) == none &&
        stencilSub s3 x.t.ctx b (operandUse smallMx.fmtB (keOf smallMx) (blk.bc.getD 0 0)) == none &&
        a.base.toNat % 64 == 0 && b.base.toNat % 64 == 0 && quiet s3 x.u && queueRoom s3 x.t.core &&
        decide (blk.gbar < x.t.kernel.barriers) &&
        (maskedMembers s3 x.t blk.gmask).all (fun e => spadOwned s3 e.2 == false && thas s3.teams e.2) &&
        decide ((maskedMembers s3 x.t blk.gmask).map (·.2)).Nodup

theorem witness_MatrixWordsEnterTheQueue_products :
    let s := withBlock base twoStens [sten 0x1F, sten 0x1F]
    let g := withBlock base (twoStens + 1 * 2 ^ 448 + 15 * 2 ^ 460) [sten 0x1F, sten 0x1F]
    issuesIn s (.mma smallMx) = true ∧ issuesIn s (.mmas smallMx) = true ∧ ((ctxOf s).uni smallMx.s).setWidth 64 = (0 : W64) ∧ matPasses s false = true ∧
    issuesIn g (.gmma smallMx) = true ∧ matPasses g true = true := by decide +kernel

theorem witness_MatrixWordsEnterTheQueue_accumulators :
    let x := ctxOf base
    issuesIn base (.acz 7) = true ∧ quiet base x.u = true ∧ queueRoom base x.t.core = true ∧
    issuesIn base (.acld 0 14 7) = true ∧ issuesIn base (.acst 0 14 7) = true ∧ (x.uni64 14, x.main 0 0) = (0, 0) ∧
    (match resolve base x.u x.lead .gen 0 16384 with | .ok p => decide (p = .glob 0) | _ => false) = true ∧
    (let s := withV base (fun _ => [(0, 32)])
     issuesIn s (.acld 0 14 7) = true ∧ (match resolve s ⟨2, 0⟩ 0 .gen 32 16384 with | .ok p => decide (p = .glob 32) | _ => false) = true) ∧
    issuesIn base (.acrd 14 14 7) = true ∧ (x.uni 14).toNat < 64 ∧
    (let s := withGrp (fun g => { g with s := [(14, 64)] })
     let i : Instr := .acrd 14 14 7
     issuing s = some (ctxOf s) ∧ inBody (ctxOf s).cl = true ∧ placedOk (ctxOf s).cl (infoOf i).place = true ∧
     flagChosen (ctxOf s).cl (infoOf i) = true ∧ 64 ≤ ((ctxOf s).uni 14).toNat) := by decide +kernel

/-- An epilogue block of one element with its stencil at 0x8100. -/
def epiBlk : Nat := 0x8100 + 0x3F800000 * 2 ^ 224

theorem witness_MatrixWordsEnterTheQueue_epilogue :
    let s := withBlock base epiBlk [sten 0]
    let x := ctxOf s
    issuesIn s (.acepi 14 7) = true ∧
    ((recOf s x .spad 0).bind (fun r =>
      let e := parseEpi 0 r.1
      (recOf r.2 x .gen e.dSten).map (fun d =>
        let st := parseStencil e.dSten.toNat d.1
        e.reservedZero && decide (e.act < 2) && (stencilSub d.2 x.t.ctx st { plain := true } == none) && decide (e.bias.toNat % 4 = 0) &&
        decide (st.base.toNat % 64 = 0) && quiet d.2 x.u && queueRoom d.2 x.t.core))) = some true := by decide +kernel

/-- A queue of one pinned operation of group 0. -/
def matOp (k : MatKind) : MatOp :=
  { id := 9, unit := ⟨2, 0⟩, team := 2, runMask := 0x80000001, pc := 0x4004, cstart := 0x4000, acc := 7, kind := k, flag := some 1, pin := .pinned }

/-- Core 0 with one matrix operation. -/
def inQueue (o : MatOp) : State := modCore base 0 (fun c => { c with matrix := [o] })

/-- A product of the smallest tile. -/
def smallMul (zero : Bool) : MatKind := .mul smallMx zero (parseParam 0 []) (parseStencil 0 []) (parseStencil 0 []) none none

theorem witness_MatrixOperationsTakeEffect_start :
    (let s := inQueue (matOp .acz)
     s.supervisor.freeze = false ∧ (coreAt s 0).matrix = [matOp .acz] ∧ opPaid s 0 (matOp .acz) = true ∧ (matOp .acz).entered = none ∧
     (matOp .acz).gangOp = none ∧ unreleased s ⟨2, 0⟩ 9 = false) ∧
    (let o := { matOp (smallMul true) with granted := 32 }
     let s := modPurse (inQueue o) 0 (fun p => { p with unitLevel := 32 })
     (coreAt s 0).matrix = [o] ∧ opPaid s 0 o = true) := by decide +kernel

/-- A running operation that has run its cycles. -/
def atEnd (k : MatKind) : MatOp := { matOp k with running := true, left := 0, aData := List.replicate 256 2, bData := List.replicate 256 255 }

theorem witness_MatrixOperationsTakeEffect_end :
    (List.all [smallMul true, smallMul false, .acz, .acld 0x8000, .acrd 14 63, .acst 0x8000] (fun k =>
      let o := atEnd k
      let s := inQueue o
      decide (s.supervisor.freeze = false) && decide ((coreAt s 0).matrix = [o]) && thas s.teams o.team && decide (o.unit.team = o.team) &&
      decide ((coreAt s 0).parts = []) && decide (o.gangOp = none) && decide (o.layer = []))) = true := by decide +kernel

theorem witness_MatrixOperationsTakeEffect_epilogue :
    let e := parseEpi 0 (natToBytes 64 epiBlk)
    let o := matOp (.acepi e (parseStencil 0x8100 (natToBytes 64 (sten 0))))
    let s := modPurse (inQueue o) 0 (fun p => { p with holdings := [⟨9, 8, 1⟩] })
    let d := parseStencil 0x8100 (natToBytes 64 (sten 0))
    let y := atEnd (.acepi e d)
    e.dc.length = 5 ∧ d.pk = false ∧ d.fmt < 32 ∧ y.running = true ∧ y.left = 0 ∧ (coreAt (inQueue y) 0).matrix = [y] ∧
    (coreAt (inQueue y) 0).parts = [] ∧ thas (inQueue y).teams y.team = true ∧ o.entered = none ∧
    e.m ≤ 64 ∧ e.n ≤ 64 ∧ opPaid s 0 o = true ∧ unreleased s o.unit o.id = false ∧
    (match readBias s o (numberedFrom 4096 (biasRanges o.kind)) with
     | .ok _ => true
     | _ => false) = true := by decide +kernel

theorem witness_MatrixOperationsTakeEffect_pinning :
    let o := { matOp (.acld 0x8000) with pin := .open, walked := true }
    let s := inQueue o
    s.supervisor.freeze = false ∧ (coreAt s 0).matrix.find? (fun y => y.id == 9) = some o ∧ o.pages = [] ∧ s.boundary = [] ∧ pointChanges s = false ∧
    unreleased s o.unit o.id = false ∧
    (pinElems (opAgent s o) o (teamAt s o.team).ctx true ((lineChunks 0x8000 16384 257).map (fun c => some ⟨BitVec.ofNat 64 c.1, c.2, none⟩)) 0 s).2.2.isNone =
      true := by decide +kernel

theorem witness_MatrixOperationsTakeEffect_parts :
    (let s := modCore base 0 (fun c => { c with flying := [matOp (smallMul true)] })
     (coreAt s 0).flying = [matOp (smallMul true)] ∧ unreleased s ⟨2, 0⟩ 9 = false ∧ spadGone s 2 = false ∧ (coreAt s 0).parts = [] ∧ (coreAt s 0).matrix.length < 4) ∧
    (let o := { matOp (smallMul true) with team := 5, gangOp := some 3 }
     let s := modCore { base with gangOps := [(3, { left := 2 })] } 0 (fun c => { c with flying := [o] })
     spadGone s o.team = true ∧ o.lane < 32 ∧ o.layer = [] ∧ unreleased s o.unit o.id = false ∧ 2 ≤ (tget {} s.gangOps 3).left ∧
     (tget {} s.gangOps 3).failed = none) := by decide +kernel

/-! ## Witnesses: the engines' words -/

/-- A copy block of one row of 64 bytes from the stencil at 0x8100. -/
def copyRec (dst mask : Nat) : Nat := 0x8100 + dst * 2 ^ 64 + 64 * 2 ^ 288 + 1 * 2 ^ 320 + 64 * 2 ^ 352 + mask * 2 ^ 384

/-- Whether a copy word's records are read and pass. -/
def copyPasses (s : State) (gang : Bool) : Bool :=
  let x := ctxOf s
  match recOf s x .spad 0 with
  | none => false
  | some (bb, s1) =>
    let b := parseCopy 0 bb
    match recOf s1 x .gen b.src with
    | none => false
    | some (sb, s2) =>
      let st := parseStencil b.src.toNat sb
      let n := (b.cnt1 - 1) * b.pitch + rowBytes st b.cnt0
      copySub (if gang then some (gangMembers s2 x.t).length else none) b st == none && stencilSub s2 x.t.ctx st (copyUse b) == none &&
      !st.pk && decide (st.base.toNat % 64 = 0) && quiet s2 x.u && decide ((coreAt s2 x.t.core).copies.length < Config.copyEntries) &&
      (if gang then (maskedMembers s2 x.t b.gmask).all (fun m => thas s.teams m.2 && decide (b.dst.toNat + n ≤ (teamAt s m.2).kernel.scratch))
       else match resolve s2 x.u x.lead .gen b.dst n with
         | .ok (.glob va) => decide (va + n ≤ Config.globalLimit)
         | _ => false)

theorem witness_EngineWordsAreAccepted_copy :
    let s := withBlock base (copyRec 0xB000 0) [sten 0x1F]
    let g := withBlock base (copyRec 0x100 1) [sten 0x1F]
    issuesIn s (.copy 14 14) = true ∧ (freeSlots (ctxOf s).g).head? = some 0 ∧ ((ctxOf s).uni 14).setWidth 64 = (0 : W64) ∧ copyPasses s false = true ∧
    issuesIn g (.gcopy 14 14) = true ∧ copyPasses g true = true := by decide +kernel

theorem witness_EngineWordsAreAccepted_geo :
    let s := withBlock base (0xB000 + 0xC000 * 2 ^ 64 + 3 * 2 ^ 128) []
    let x := ctxOf s
    issuesIn s (.geo 0 14 14) = true ∧ (freeSlots x.g).head? = some 0 ∧
    ((recOf s x .spad 0).map (fun r =>
      let b := recBits r.1
      decide (bitsAt b 511 131 = 0) && decide (bitsAt b 130 128 = 3) && decide (bitsAt b 63 0 < Config.globalLimit) && decide (bitsAt b 63 0 % 64 = 0) &&
      decide (bitsAt b 127 64 < Config.globalLimit) && decide (bitsAt b 127 64 % 64 = 0) && quiet r.2 x.u &&
      decide ((clusterAt r.2 0).geo.length < Config.engineEntries))) = some true := by decide +kernel

theorem witness_EngineWordsAreAccepted_art :
    let s := withBlock base (0x8100 + 0xB000 * 2 ^ 64 + 0xC000 * 2 ^ 128 + 4 * 2 ^ 192 + 1 * 2 ^ 224) [1, 0xFF]
    let x := ctxOf s
    issuesIn s (.art 14 14) = true ∧
    ((recOf s x .spad 0).map (fun r =>
      let job := artJobOf (recBits r.1)
      artBlockOk (recBits r.1) && [job.model, job.input, job.out].all (fun a => decide (a.toNat < Config.globalLimit) && decide (a.toNat % 64 = 0)) &&
      quiet r.2 x.u && decide ((clusterAt r.2 0).art.length < Config.engineEntries) &&
      (match artNv (releaseStep r.2 x.t.core) (some (engineAgent (x.t.core / 8))) x.t.ctx job.model.toNat with
       | .ok _ _ => true
       | _ => false))) = some true := by decide +kernel

/-- Group 0 with every future slot taken. -/
def noSlots (t : State) : State :=
  modUnit t ⟨2, 0⟩ (fun g => { g with futures := (List.range 16).map (fun i => (i, { state := .pending, kind := .copy })) })

theorem witness_EngineWordsAreAccepted_noSlot :
    freeSlots (ctxOf (noSlots base)).g = [] ∧
    (List.all [.copy 14 14, .gcopy 14 14, .geo 0 14 14, .art 14 14] (issuesIn (noSlots base))) = true := by decide +kernel

/-- Wagon queue 63 bound by a context. -/
def bound (t : State) (c : Nat) : State := { t with wagons := tset t.wagons 63 { wagonAt t 63 with binding := some { pctx := c, mctx := c } } }

/-- Group 0 with a uniform register set. -/
def withS (t : State) (i : Nat) (v : W32) : State := modUnit t ⟨2, 0⟩ (fun g => { g with s := [(i, v)] })

theorem witness_EngineWordsAreAccepted_wagons :
    (let s := bound (withS base 14 63) 1
     let x := ctxOf s
     let c := ctxOf (bound (withS cancelled 14 63) 1)
     issuesIn s (.wpush 0 14 14) = true ∧ issuesIn s (.wflush 14) = true ∧ (x.uni 14).toNat = 63 ∧
     ((wagonAt s 63).binding.map (fun b => decide (b.pctx = x.t.ctx) && Sys2Proof.Machine.pushFits x b.kb 0 14)) = some true ∧
     (freeSlots x.g).head? = some 0 ∧ x.g.pushing = none ∧ domainSet s x.u = false ∧ quiet s x.u = true ∧ undeparted (wagonAt s 63) + 32 ≤ Config.wagonRows ∧
     issuesIn (bound (withS cancelled 14 63) 1) (.wpush 0 14 14) = true ∧ domainSet (bound (withS cancelled 14 63) 1) c.u = true) ∧
    (let s := withS base 14 64
     issuesIn s (.wpush 0 14 14) = true ∧ issuesIn s (.wflush 14) = true ∧ 64 ≤ ((ctxOf s).uni 14).toNat) ∧
    (let s := bound (withS base 14 63) 2
     issuesIn s (.wflush 14) = true ∧ ((ctxOf s).uni 14).toNat < 64 ∧ (wagonAt s 63).binding.map (·.pctx) = some 2 ∧ (ctxOf s).t.ctx = 1) := by decide +kernel

/-- A push held by queue 63 with two rows left. -/
def pushHeld (rows : List WagonRow) : State :=
  let s := bound (modUnit (withS base 14 63) ⟨2, 0⟩ (fun g => { g with pushing := some (0, [3, 31]) })) 1
  modWagon s 63 (fun w => { w with rows := rows })

theorem witness_EngineWordsAreAccepted_held_push :
    (let s := pushHeld (List.replicate 256 { op := 9, unit := ⟨2, 0⟩, lane := 0, slot := 0, grid := 1, bytes := [], res := 0 })
     issuesIn s (.wpush 0 14 14) = true ∧ (ctxOf s).g.pushing = some (0, [3, 31]) ∧ (wagonAt s 63).binding.map (·.pctx) = some 1 ∧
     domainSet s (ctxOf s).u = false ∧ Config.wagonRows ≤ undeparted (wagonAt s 63)) ∧
    (let s := pushHeld []
     issuesIn s (.wpush 0 14 14) = true ∧ undeparted (wagonAt s 63) + 2 ≤ Config.wagonRows) := by decide +kernel

theorem witness_EngineWordsAreAccepted_burst :
    issuesIn base (.burst 14) = true ∧ ((ctxOf base).uni 14).toNat % 65536 = 0 ∧
    (let s := withS base 14 65535
     issuesIn s (.burst 14) = true ∧ ((ctxOf s).uni 14).toNat % 65536 ≠ 0) := by decide +kernel

/-! ## Witnesses: futures and layer leases -/

/-- A slot of a kind that is complete with an ERR. -/
def ended (k : FutKind) (e : Nat) : FutSlot := { state := .complete, kind := k, err := e }

/-- Whether a word stands in its place with the flag it needs. -/
def reachesIn (s : State) (i : Instr) : Bool :=
  let x := ctxOf s
  decide (issuing s = some x) && inBody x.cl && placedOk x.cl (infoOf i).place && flagChosen x.cl (infoOf i)

/-- Whether a group with slot 15 as given issues the three words on it. -/
def slotWords (s : State) : Bool := issuesIn s (.fwait 14 true (.imm 15)) && issuesIn s (.fwait 14 false (.reg 14 0)) && issuesIn s (.ftest 14 (.imm 15)) && issuesIn s (.fdrop (.reg 14 0))

/-- Group 0 with slot 15 and a uniform register that names it. -/
def slot15 (f : FutSlot) : State := withS (withGrp (fun g => { g with futures := [(15, f)] })) 14 15

theorem witness_FuturesAndLeases_slots :
    (List.all [ended .copy 0, ended .copy 1, ended .copy 6, ended .copy 2, ended .copy 255, { state := .pending, kind := .copy }, ended .wagon 0]
      (fun f => slotWords (slot15 f) && (slotAt (ctxOf (slot15 f)).g 15 == f) && fwaitLegal (slot15 f) f &&
        domainSet (slot15 f) ⟨2, 0⟩ == false && (ctxOf (slot15 f)).lanes.head? == some 0)) = true ∧
    ((ctxOf (slot15 (ended .copy 0))).uni 14).toNat = 15 ∧ (ctxOf (slot15 (ended .copy 0))).g.windDown = false ∧
    issuesIn cancelled (.fwait 14 true (.imm 15)) = true ∧ domainSet cancelled (ctxOf cancelled).u = true ∧ (ctxOf cancelled).g.windDown = false ∧
    (let s := slot15 {}
     (List.all [.fwait 14 true (.imm 15), .fwait 14 false (.reg 14 0), .fdrop (.reg 14 0)] (issuesIn s)) = true ∧
     reachesIn s (.ftest 14 (.imm 15)) = true ∧ (slotAt (ctxOf s).g 15).state = .free ∧ (ctxOf s).lanes ≠ []) ∧
    (let s := withS base 14 16
     issuesIn s (.fdrop (.reg 14 0)) = true ∧ issuesIn s (.fwait 14 true (.reg 14 3)) = true ∧ reachesIn s (.ftest 14 (.reg 14 0)) = true ∧ 16 ≤ ((ctxOf s).uni 14).toNat) := by decide +kernel

/-- Context 1 with model slot 15, whose layer 1023 is as given, and a register that names the layer. -/
def withLayer (l : Layer) (t : State) : State :=
  withS (modCtx { t with pinnedWays := 12 } 1 (fun c => { c with models := [(15, { count := 1024, layers := [(1023, l)] })] })) 14 (15 * 65536 + 1023)

/-- Whether a layer of the placed context has the name that group 0 holds. -/
def layerNameOk (s : State) : Bool :=
  let x := ctxOf s
  decide ((x.uni 14).toNat = 15 * 2 ^ 16 + 1023) && ((modelAt s x.t.ctx 15).map (fun m => !m.closing && decide (1023 < m.count)) == some true)

/-- The words on layers. -/
def layerWords (s : State) : Bool := List.all [.lacq 14 14 false, .lacq 14 14 true, .lacqFut 14 14, .lrel 14, .ltest 14 14] (issuesIn s)

theorem witness_FuturesAndLeases_layers :
    let k := 1 * 16384 + 15 * 1024 + 1023
    (let s := withLayer { phase := .resident } base
     let x := ctxOf s
     layerWords s = true ∧ layerNameOk s = true ∧ s.waysHeld = none ∧ (layerAt s k).phase = .resident ∧ x.t.stopped = false ∧ x.g.retired = false ∧
     thas s.teams x.u.team = true ∧ isCond x.u = false ∧ (freeSlots x.g).head? = some 0 ∧ x.g.blocked = [] ∧ tget 0 x.t.layerCounts k = 0) ∧
    (let s := withLayer { pinnable := false } base
     layerNameOk s = true ∧ pinnable s (layerAt s k) = false) ∧
    (let s := withLayer {} base
     layerWords s = true ∧ layerNameOk s = true ∧ pinnable s (layerAt s k) = true ∧ (layerAt s k).phase ≠ .resident) ∧
    (let s := withLayer {} { base with teams := tset base.teams 2 { teamAt base 2 with layerCounts := [(k, 3)] } }
     layerWords s = true ∧ layerNameOk s = true ∧ tget 0 (ctxOf s).t.layerCounts k = 3) := by decide +kernel

/-- Layer 1023 of slot 15, resident, with one request that waits for the cycle's answer. -/
def layerAsked (w : LayerWaiter) : State :=
  let s := withLayer { phase := .resident, waiters := [w] } base
  modUnit { s with teams := tset s.teams 2 { teamAt s 2 with engineOps := 1 } } ⟨2, 0⟩ (fun g => { g with futures := [(15, { state := .pending, kind := .layer })] })

/-- Requests of a register and of a slot that the end of the cycle answers. -/
theorem witness_FuturesAndLeases_answered : (List.all [LayerWaiter.flag ⟨2, 0⟩ 0x80000001 8 (some 1) false 0x4004 0x4000, .future ⟨2, 0⟩ 15] (fun w =>
      let s := layerAsked w
      let k := 1 * 16384 + 15 * 1024 + 1023
      let l := layerAt s k
      decide (s.supervisor.freeze = false) && (allLayers s).all (fun e => e.2.due == false) && decide (l.waiters = [w]) &&
      decide ((allLayers s).filter (fun e => decide (e.2.waiters ≠ []) && !e.2.waiting && (!pinnable s e.2 || e.2.phase == .resident)) = [(k, l)]) &&
      thas s.teams 2 && decide ((teamAt s 2).stopped = false) && thas (teamAt s 2).units 0 && decide ((unitAt s ⟨2, 0⟩).retired = false) &&
      decide ((slotAt (unitAt s ⟨2, 0⟩) 15).state = .pending ∧ (slotAt (unitAt s ⟨2, 0⟩) 15).dropped = false ∧ (unitAt s ⟨2, 0⟩).blocked = []))) = true ∧
    (let s := modGrid (slot15 { state := .pending, kind := .grid, link := 1 }) 1 (fun g => { g with cls := 2 })
     issuesIn s (.fwait 14 true (.imm 15)) = true ∧ 1 < (gridAt s 1).cls ∧ domainSet s ⟨2, 0⟩ = false ∧ (slotAt (ctxOf s).g 15).kind = .grid) ∧
    (List.all [4, 5, 8] (fun e => let s := slot15 (ended .copy e); issuesIn s (.fwait 14 false (.imm 15)) && decide ((slotAt (ctxOf s).g 15).err = e))) = true := by
  decide +kernel

theorem witness_FuturesAndLeases_names :
    (let s := withS base 14 0x400
     issuesIn s (.lrel 14) = true ∧ (List.all [.lacq 14 14 false, .lacqFut 14 14, .ltest 14 14] (reachesIn s)) = true ∧ ((ctxOf s).uni 14).toNat / 2 ^ 10 % 2 ^ 6 ≠ 0) ∧
    (let s := withS base 14 0x100000
     issuesIn s (.lrel 14) = true ∧ (List.all [.lacq 14 14 true, .lacqFut 14 14, .ltest 14 14] (reachesIn s)) = true ∧ ((ctxOf s).uni 14).toNat / 2 ^ 20 ≠ 0) ∧
    (let s := withS base 14 0xF03FF
     layerWords s = true ∧ modelAt s 1 15 = none ∧ freeSlots (ctxOf s).g ≠ []) := by decide +kernel

/-! ## Witnesses: engine events and layer residency -/

/-- Whether an engine's read goes on. -/
def readsOk (r : EngRead) : Bool := match r with | .ok _ _ => true | _ => false

/-- Group 0 with slot 0 pending. -/
def pending0 (k : FutKind) (t : State) : State := modUnit t ⟨2, 0⟩ (fun g => { g with futures := [(0, { state := .pending, kind := k })] })

/-- Core 0 holding the fares of operation 9. -/
def paid9 (s : State) : State := modPurse s 0 (fun p => { p with holdings := [{ op := 9, fares := 1, ctx := 1 }] })

/-- A copy of one row of four bytes. -/
def copyJob9 : CopyJob :=
  { id := 9, owner := .future ⟨2, 0⟩ 0, ctx := 1, grid := some 1, user := ⟨2, 0⟩, src := parseStencil 0x8100 (natToBytes 64 (sten 0x1F)), coords := [0, 0, 0, 0, 0],
    cnt0 := 4, cnt1 := 1, pitch := 64, dst := 0xB000 }

/-- The open slot of a future. -/
def openOk (s : State) : Bool := decide ((slotAt (unitAt s ⟨2, 0⟩) 0).state = .pending) && (slotAt (unitAt s ⟨2, 0⟩) 0).dropped == false && decide ((unitAt s ⟨2, 0⟩).blocked = [])

theorem witness_EngineJobsRunToTheirEnds_copies :
    (let s := paid9 (modCore base 0 (fun c => { c with copies := [copyJob9] }))
     s.supervisor.freeze = false ∧ (coreAt s 0).copies = [copyJob9] ∧ jobCancelled s copyJob9.grid = false ∧ copyJob9.pages = [] ∧ s.boundary = [] ∧
     pointChanges s = false ∧ nodeFresh s copyJob9.owner = false ∧ unreleasedJob s copyJob9.owner 9 = false ∧
     paid s (copyPayers s 0 copyJob9) 9 = true ∧ (ownDest (copyAgent 0) agentCopy 0 s copyJob9).2 = []) ∧
    (let j := { copyJob9 with started := true }
     let s := pending0 .copy (modCore base 0 (fun c => { c with copies := [j] }))
     openOk s = true ∧ s.linkHeld = [] ∧
     (match readCopy (fun _ => false) (settleOwned s) j (copyIndex j) with
      | .ok s1 data none => (match writeCopy (fun _ => false) j data s1 (destPieces j) with
        | .done _ none => true
        | _ => false)
      | _ => false) = true) := by decide +kernel

/-- An octree of one free node at 0xB040, its root record at 0xB000. -/
def octRoot : Nat := 0xB040 + 1 * 2 ^ 48 + 0x3F800000 * 2 ^ 160 + 1 * 2 ^ 192

/-- A geometry job of one query at the tree's corner. -/
def geoJob9 : GeoJob :=
  { id := 9, owner := .future ⟨2, 0⟩ 0, ctx := 1, grid := some 1, octRoot := 0xB000, res := 0xC000, qtype := 0,
    queries := [{ lane := 3, p0 := [0, 0, 0], p1 := [0, 0, 0], r := 0, tag := 7 }] }

/-- Memory with a record at 0xB000. -/
def atB (x : Nat) (t : State) : State := { t with mem := memWriteN t.mem 0xB000 (natToBytes 64 x) }

theorem witness_EngineJobsRunToTheirEnds_geometry :
    (List.all [octRoot, 0] (fun x =>
      let s := atB x (pending0 .geometry (paid9 (modCluster base 0 (fun c => { c with geo := [geoJob9] }))))
      decide ((clusterAt s 0).geo = [geoJob9]) && jobCancelled s geoJob9.grid == false && paid s [8 * 0] 9 && openOk s &&
      decide (s.linkHeld = []) && decide (s.boundary = []) && pointChanges s == false && unreleasedJob s geoJob9.owner 9 == false &&
      decide ((ownRange s (8 * 0) 1 9 agentGeo (geoPieces geoJob9)).2 = []) &&
      (match engRead (modGeo (ownRange s (8 * 0) 1 9 agentGeo (geoPieces geoJob9)).1 0 9 (fun y => { y with started := true })) (some (engineAgent 0)) 1 9 (pieces 0xB000 64) with
       | .ok _ bs => (parseRoot bs).isSome == (x != 0)
       | _ => false))) = true ∧
    (let j := { geoJob9 with started := true, root := natToBytes 64 octRoot }
     let s := atB octRoot (pending0 .geometry (modCluster base 0 (fun c => { c with geo := [j] })))
     openOk s = true ∧ (clusterAt s 0).geo = [j] ∧
     ((parseRoot j.root).map (fun o => match runQueries s 0 j o j.queries with
       | .inr (some (s1, ws)) => (match engPlaces s1 (some (engineAgent 0)) j.ctx j.id ws with
         | .ok _ _ => true
         | _ => false)
       | _ => false)) = some true) := by decide +kernel

/-- An articulation job: the Jacobian of one prismatic joint. -/
def artJob9 : ArtJob :=
  { id := 9, owner := .future ⟨2, 0⟩ 0, ctx := 1, grid := some 1, model := 0xB000, input := 0xB100, out := 0xC000, job := 3, budget := 40, ownedNv := some 1 }

/-- The words of a model of one prismatic joint along x. -/
def artModel : List Nat := [1, 0x1FF + 0x3F800000 * 2 ^ 32 + 0x3F800000 * 2 ^ 128 + 0x3F800000 * 2 ^ 256 + 0x3F800000 * 2 ^ 384]

/-- Memory with that model, or with one whose joint is refused, and inputs. -/
def withModel (bad : Bool) (x : W32) (t : State) : State :=
  let joint := if bad then 0 else artModel.getD 1 0
  let m := memWriteN (memWriteN (memWriteN t.mem 0xB000 (natToBytes 64 1)) 0xB040 (natToBytes 64 joint)) 0xB100 (natToBytes 4 x.toNat)
  { t with mem := m }

/-- What reading a job's model comes to: the joint count, whether the model is accepted, whether every input is finite. -/
def modelRead (s : State) (j : ArtJob) : Option (Nat × Bool × Bool) :=
  match ownRange (modArt s 0 j.id (fun y => { y with judged := true })) (8 * 0) j.ctx j.id agentArt (artOut j) with
  | (s1, []) =>
    match engRead s1 (some (engineAgent 0)) j.ctx j.id (pieces j.model.toNat 64) with
    | .ok s2 hd =>
      (headerOk (recBits hd)).bind (fun nj =>
        match engRead s2 (some (engineAgent 0)) j.ctx j.id (pieces (j.model.toNat + 64) (128 * nj)) with
        | .ok s3 body =>
          match parseModel (hd ++ body) with
          | none => some (nj, false, false)
          | some m =>
            let n := inCount j.job (nqOf m.joints) (nvOf m.joints)
            if j.ownedNv ≠ some (nvOf m.joints) then none
            else match engRead s3 (some (engineAgent 0)) j.ctx j.id (pieces j.input.toNat (4 * n)) with
              | .ok _ inp => some (nj, true, (valuesOf inp n).all finite32)
              | _ => none
        | _ => none)
    | _ => none
  | _ => none

/-- Cluster 0 with one articulation job. -/
def withArt (j : ArtJob) : State := pending0 .articulation (paid9 (modCluster base 0 (fun c => { c with art := [j] })))

theorem witness_EngineJobsRunToTheirEnds_articulation_start :
    let s := withArt artJob9
    openOk s = true ∧ (clusterAt s 0).art = [artJob9] ∧ jobCancelled s artJob9.grid = false ∧ s.linkHeld = [] ∧ s.boundary = [] ∧ pointChanges s = false ∧
    unreleased s ⟨2, 0⟩ 9 = false ∧ artJob9.judged = false ∧ paid s [8 * 0] 9 = true ∧ artJob9.elapsed < artJob9.budget ∧
    (let l := { artJob9 with elapsed := 40 }
     (clusterAt (withArt l) 0).art = [l] ∧ l.budget ≤ l.elapsed ∧ openOk (withArt l) = true) ∧
    (let e := { artJob9 with acceptErr := some (3, 0, 5) }
     openOk (withArt e) = true ∧ e.acceptErr = some (3, 0, 5)) ∧
    modelRead (withModel true 0 s) artJob9 = some (1, false, false) ∧ modelRead (withModel false 0x3F800000 s) artJob9 = some (1, true, true) ∧
    modelRead (withModel false 0x7F800000 s) artJob9 = some (1, true, false) := by decide +kernel

theorem witness_EngineJobsRunToTheirEnds_articulation_end :
    let d := (natToBytes 64 1 ++ natToBytes 64 (artModel.getD 1 0) ++ natToBytes 64 0, natToBytes 8 0)
    let j := { artJob9 with started := true, data := d, began := 0, elapsed := 39 }
    let s := withArt j
    openOk s = true ∧ (clusterAt s 0).art = [j] ∧ j.elapsed < j.budget ∧
    ((parseModel j.data.1).map (fun m => decide (j.began + 16 * rowCount j.job m ≤ j.elapsed) &&
      (match engPlaces s (some (engineAgent 0)) j.ctx j.id (dataPieces j.out.toNat ((jobOutcome j m).1.flatMap (fun w => natToBytes 4 w.toNat))) with
       | .ok _ _ => true
       | _ => false))) = some true ∧
    (let l := { j with elapsed := 40 }
     openOk (withArt l) = true ∧ l.budget ≤ l.elapsed ∧ (parseModel l.data.1).map (artBoundary l) = some true) := by decide +kernel

/-- A row of a wagon. -/
def row9 : WagonRow := { op := 9, unit := ⟨2, 0⟩, lane := 0, slot := 0, grid := 1, bytes := List.replicate 32 1, res := 0xC000, age := 1 }

theorem witness_EngineJobsRunToTheirEnds_wagons :
    (let s := { base with wagons := [(63, { binding := some { pctx := 1, mctx := 1 }, rows := [row9] })] }
     s.supervisor.freeze = false ∧ (wagonAt s 63).rows = [row9] ∧ (wagonAt s 63).binding = some { pctx := 1, mctx := 1 } ∧ (1 : Nat) ≤ row9.age ∧
     unreleased s row9.unit row9.op = false) ∧
    (let d : Wagon := { id := 4, rows := [row9], tile := some 0 }
     let b : WagonBinding := { pctx := 1, mctx := 1, tiles := 0xB000, entry := placeKernel }
     let s := { base with wagons := [(63, { binding := some b, departed := [d] })] }
     (wagonAt s 63).departed.find? (fun d => d.tile.isSome && d.grid.isNone) = some d ∧ (ctxAt s 1).phase = .active ∧ (ctxAt s 1).expired = false ∧
     poolFull s = false ∧ s.boundary = [] ∧ pointChanges s = false ∧ unreleased s row9.unit row9.op = false ∧
     (match engPlaces s none b.mctx 0 (dataPieces (tileAt b 0) (tileData b d)) with
      | .ok _ _ => true
      | _ => false) = true) := by decide +kernel

/-- A layer of one line that stands alone can be placed wherever its line's set lies. -/
theorem placement_alone (s : State) (k x : Nat)
    (h : (match layerLines s k with
      | .ok s1 ls => decide (ls = [x]) && decide (1 ≤ s1.pinnedWays) && (allLayers s1).all (fun e => e.2.sets == [])
      | _ => false) = true) : ∃ s1, placement s k = (.ok s1 [x], .start []) := by
  unfold placement
  generalize layerLines s k = r at h ⊢
  cases r with
  | fault va lv hb => simp at h
  | bad => simp at h
  | ok s1 ls =>
    simp only [Bool.and_eq_true, decide_eq_true_eq, List.all_eq_true, beq_iff_eq] at h
    obtain ⟨⟨rfl, hw⟩, hs⟩ := h
    refine ⟨s1, ?_⟩
    have hz : ∀ (l : List (Nat × Layer)) (y n : Nat), (∀ e ∈ l, e.2.sets = []) → l.foldl (fun n e => n + countNat e.2.sets y) n = n := by
      intro l y
      induction l with
      | nil => simp
      | cons a r ih => intro n ha; simp_all [countNat]
    have hh : ∀ y, heldIn (allLayers s1) y = 0 := fun y => hz _ y 0 hs
    simp [placeEnd, setsOf, dedupNat, hh, countNat, hw]

/-- A layer of one line at 0x8000. -/
def layer9 (p : LayerPhase) : Layer := { addr := 0x8000, bytes := 64, phase := p, waiting := p == .absent, waiters := [.op 0 5] }

theorem witness_EngineJobsRunToTheirEnds_layers :
    let k := 1 * 16384 + 15 * 1024 + 1023
    (let s := withLayer (layer9 .absent) base
     s.supervisor.freeze = false ∧ s.waysHeld = none ∧ (layerAt s k).waiting = true ∧ (layerAt s k).page = none ∧ Sys2Proof.Machine.loading s < Config.layerLoads ∧
     (allLayers s).map (·.1) = [k] ∧ s.boundary = [] ∧ pointChanges s = false ∧ ∃ s1, placement s k = (.ok s1 [512], .start [])) ∧
    (let s := withLayer (layer9 .loading) base
     (layerAt s k).phase = .loading ∧ (layerAt s k).waiters = [.op 0 5] ∧ layerPoisoned s k = false) ∧
    (∀ e ∈ allLayers (withLayer { layer9 .resident with waiters := [] } base),
      layerTotal (withLayer { layer9 .resident with waiters := [] } base) e.1 = 0 ∧ e.2.phase ≠ .loading ∧ e.2.waiters = []) ∧
    (∃ e ∈ allLayers (withLayer (layer9 .resident) base), e.2.waiters ≠ [] ∧ e.2.waiting = false) ∧
    (∃ e ∈ allLayers (withLayer (layer9 .loading) base), layerTotal (withLayer (layer9 .loading) base) e.1 ≠ 0 ∨ e.2.phase = .loading) := by
  refine ⟨⟨by decide +kernel, by decide +kernel, by decide +kernel, by decide +kernel, by decide +kernel, by decide +kernel, by decide +kernel, by decide +kernel,
    placement_alone _ _ _ (by decide +kernel)⟩, by decide +kernel, by decide +kernel, by decide +kernel, by decide +kernel⟩

/-- A resident layer of one line that nobody holds. -/
def idle9 : Layer := { addr := 0x8000, bytes := 64, phase := .resident, sets := setsOf [512] }

/-- A layer of the same line that waits to be placed. -/
def waiting9 (due : Bool) : Layer := { addr := 0x8000, bytes := 64, waiting := true, waiters := [.prefetch], due := due }

/-- The two in a cache with one pinned way; their line has been translated before. -/
def crowded (due : Bool) : State :=
  { base with
    pinnedWays := 1, mem := (translate base none 1 0x8000 .read).2.mem
    contexts := [(1, { ctxAt base 1 with models := [(15, { count := 1024, layers := [(1022, idle9), (1023, waiting9 due)] })] })] }

theorem crowded_layers (due : Bool) : allLayers (crowded due) = [(32766, idle9), (32767, waiting9 due)] := by
  simp [allLayers, crowded, layerKey]

/-- A layer of one line is placed by the eviction of the one that holds its set's only pinned way. -/
theorem placement_evicts (s : State) (k v x : Nat) (l e : Layer) (hl : layerLines s k = .ok s [x]) (hw : s.pinnedWays = 1)
    (ha : allLayers s = [(v, e), (k, l)]) (h : e.sets = setsOf [x]) (hs : l.sets = []) (h1 : evictable s k (v, e) = true)
    (h2 : evictable s k (k, l) = false) : placement s k = (.ok s [x], .start [v]) := by
  obtain ⟨y, hy⟩ : ∃ y, setsOf [x] = [y] := ⟨_, rfl⟩
  have he : e.sets = [y] := h.trans hy
  unfold placement
  rw [hl]
  simp only [hy]
  clear h hy
  simp [placeEnd, ha, h1, h2, hw, he, hs, dedupNat, heldIn, countNat, sortBy, insertBy, victimsOf, hasNat]

/-- A translation by no agent whose leaf has A set already leaves the state. -/
theorem translate_seen (s : State) (ctx va pa : Nat)
    (h : (match walkFor s none ctx va .read with
      | some (table, level) =>
        (match walkFrom s va table level with
         | .leaf l _ pte => decide (peek s none ctx va .read = .ok pa ∧ rightsOf l .read = none ∧ memNat s.mem pte 8 ||| 0x10 = memNat s.mem pte 8)
         | _ => false)
      | none => false) = true) : translate s none ctx va .read = (.ok pa, s) := by
  unfold Machine.translate
  generalize walkFor s none ctx va .read = w at h ⊢
  cases w with
  | none => simp at h
  | some w =>
    simp only at h ⊢
    generalize walkFrom s va w.1 w.2 = x at h ⊢
    cases x with
    | fault _ _ => simp at h
    | violation _ => simp at h
    | leaf l b p =>
      simp only [decide_eq_true_eq] at h
      obtain ⟨h1, h2, h3⟩ := h
      have h4 : (AccKind.read).writes = false := rfl
      simp [h1, markLeaf, h2, h3, h4]

theorem crowded_lines (due : Bool) (h : translate (crowded due) none 1 0x8000 .read = (.ok 0x8000, crowded due))
    (hl : layerAt (crowded due) 32767 = waiting9 due) : layerLines (crowded due) 32767 = .ok (crowded due) [512] := by
  unfold layerLines layerAgent
  rw [hl]
  simp [waiting9, linesFrom, keyCtx, h, lineOf]

theorem crowded_layer (due : Bool) : layerAt (crowded due) 32767 = waiting9 due := by
  simp [layerAt, modelAt, ctxAt, crowded, keyCtx, keySlot, keyLayer, tget, tget?]

/-- The layer takes the place of the idle one, at once or as the cycle ends. -/
theorem witness_EngineJobsRunToTheirEnds_evicts : placement (crowded false) 32767 = (.ok (crowded false) [512], .start [32766]) ∧
    (crowded false).boundary = [] ∧ pointChanges (crowded false) = false ∧ (waiting9 false).waiting = true ∧ (waiting9 false).page = none ∧
    modLayer (crowded true) 32767 (fun l => { l with due := false }) = crowded false ∧ layerAt (crowded true) 32767 = waiting9 true ∧
    (allLayers (crowded true)).filter (fun e => e.2.due) = [(32767, waiting9 true)] ∧ Sys2Proof.Machine.loading (crowded true) < Config.layerLoads ∧
    (∀ e ∈ allLayers (crowded true), e.2.waiters = [] ∨ e.2.waiting = true) ∧ (crowded true).supervisor.freeze = false := by
  refine ⟨placement_evicts (crowded false) 32767 32766 512 (waiting9 false) idle9 (crowded_lines false (translate_seen _ _ _ _ (by decide +kernel))
      (crowded_layer false)) (by simp [crowded]) (crowded_layers false) rfl rfl (by decide +kernel) (by decide +kernel),
    by decide +kernel, by decide +kernel, rfl, rfl, ?_, crowded_layer true, ?_, by decide +kernel, ?_, by decide +kernel⟩
  · simp [modLayer, modModel, modCtx, ctxAt, crowded, keyCtx, keySlot, keyLayer, tget, tget?, tset, tinsert, terase, waiting9]
  · rw [crowded_layers]; simp [idle9, waiting9]
  · rw [crowded_layers]; simp [idle9, waiting9]

/-! ## Witnesses: teams and grids -/

/-- A ready grid of one team of one group. -/
def grid5 : Grid := { uid := 5, ctx := 1, cls := 1, kernel := { placeKernel with cls := 1 }, teams := 1, groups := 1 }

/-- The placed machine with that grid in its pool. -/
def ready (g : Grid) : State := { base with grids := tset base.grids 5 g, readyPool := [5], nextUid := 9 }

theorem witness_TeamsAndGridsLiveAndEnd_dispatch :
    let s := ready grid5
    let home := unitHome s grid5 0
    s.supervisor.freeze = false ∧ poolOrder s = [5] ∧ gridAt s 5 = grid5 ∧ mayStart s grid5 = true ∧ nextUnit s grid5 = some 0 ∧
    (clusterAt s home).gated = false ∧ s.dispatched = false ∧ startsFull s = false ∧ clusterFree s (startClusters s) 5 home = true ∧
    (chooseCore s 1 home (teamFits s 1 (unitNeed grid5 0) [])).isSome = true ∧
    (let t := modCluster s home (fun k => { k with claims := [7] })
     unitHome t grid5 0 = home ∧ t.policy.poolStarve < ({ grid5 with passed := t.policy.poolStarve } : Grid).passed + 1 ∧ clusterFree t (startClusters t) 5 home = false ∧ (let d := { s with dispatched := true }
      d.dispatched = true) ∧ grid5.parentGrid = none ∧ (clusterAt t home).gated = false) := by decide +kernel

/-- The placed team with its grid made its own, as given. -/
def teamIs (f : Team → Team) : State := { base with teams := tset base.teams 2 (f (teamAt base 2)) }

theorem witness_TeamsAndGridsLiveAndEnd_start :
    let s := teamIs (fun t => { t with phase := .placed, kernel := { t.kernel with conductor := some 64 }, units := [] })
    thas s.teams 2 = true ∧ (teamAt s 2).phase = .placed ∧ s.supervisor.freeze = false ∧ (gridAt s (teamAt s 2).grid).domain = false ∧
    (ctxAt s (teamAt s 2).ctx).phase = .active ∧ (groupRoles (teamAt s 2).kernel (teamAt s 2).groups).length ≤ 32 ∧
    (teamAt s 2).core / 8 ∉ s.startedIn ∧ s.startedIn.length < 4 ∧ startOpen s (teamAt s 2) = true := by decide +kernel

/-- The placed team with every group retired. -/
def doneTeam : State := teamIs (fun t => { t with units := [(0, { (unitAt base ⟨2, 0⟩) with retired := true, clause := none, threads := [] })] })

theorem witness_TeamsAndGridsLiveAndEnd_retirement :
    let s := doneTeam
    thas s.teams 2 = true ∧ (teamAt s 2).phase = .running ∧ (teamAt s 2).stopped = false ∧ teamQuiet s (teamAt s 2) = true ∧
    (teamAt s 2).layerCounts = [] ∧ (ctxAt s (teamAt s 2).ctx).suspendBy = none := by decide +kernel

/-- A finished grid that came as given. -/
def finished (o : Origin) (d : Bool) : State := pending0 .grid (ready { grid5 with nextTeam := 1, origin := o, domain := d })

theorem witness_TeamsAndGridsLiveAndEnd_grids :
    (List.all [true, false] (fun d => let s := finished (.parent ⟨2, 0⟩ 0) d
      thas s.grids 5 && gridDone s (gridAt s 5) && decide ((gridAt s 5).origin = .parent ⟨2, 0⟩ 0) && thas s.teams 2 && openOk s &&
      decide ((gridAt s 5).domain = d) && decide ((gridAt s 5).endErr = none))) = true ∧
    (let s := finished (.command 3 4 ⟨9, false, false⟩) false
     gridDone s (gridAt s 5) = true ∧ (gridAt s 5).origin = .command 3 4 ⟨9, false, false⟩ ∧ (gridAt s 5).cancelledWork = false) := by decide +kernel

theorem witness_TeamsAndGridsLiveAndEnd_starvation :
    (let s := ready { grid5 with passed := base.policy.poolStarve + 1 }
     nextUnit s (gridAt s 5) = some 0 ∧ 5 ∈ s.readyPool ∧ s.policy.poolStarve < (gridAt s 5).passed ∧ 5 ∉ (clusterAt s (unitHome s (gridAt s 5) 0)).claims) ∧
    (List.all [true, false] (fun f => let s := withGrp (fun g => { g with denied := 4097, deniedFares := f })
      decide (starvOf (ctxAt s 1) < (unitAt s ⟨2, 0⟩).denied) && decide ((unitAt s ⟨2, 0⟩).deniedFares = f) &&
      decide ((clusterAt s 0).fareResv = []) && decide ((clusterAt s 0).issueResv = []))) = true := by decide +kernel

theorem witness_TeamsAndGridsLiveAndEnd_grace :
    let s := modGrid (teamIs (fun t => { t with kernel := { t.kernel with cancel := some 64 }, units := [(0, { unitAt base ⟨2, 0⟩ with clause := none })] })) 1
      (fun g => { g with domain := true, sinceDomain := 16384 })
    (gridAt s 1).domain = true ∧ (gridAt s 1).graced = false ∧ graceOf (ctxAt s (gridAt s 1).ctx) ≤ (gridAt s 1).sinceDomain ∧ tkeys s.teams = [2] ∧
    (cancelEntry (teamAt s 2).kernel).isSome = true ∧ (teamAt s 2).uid = 2 ∧ (unitAt s ⟨2, 0⟩).handler = none ∧
    ((liveLanes (unitAt s ⟨2, 0⟩)).all (mustRedirect (unitAt s ⟨2, 0⟩))) = true := by decide +kernel

theorem witness_TeamsAndGridsLiveAndEnd_deadline :
    let s := modCtx base 1 (fun c => { c with record := { c.record with deadline := 100 }, counting := true, dlrem := 0 })
    (ctxAt s 1).record.deadline ≠ 0 ∧ (ctxAt s 1).counting = true ∧ (ctxAt s 1).dlrem = 0 ∧ (ctxAt s 1).expired = false ∧
    thas s.grids 1 = true ∧ (gridAt s 1).live = true := by decide +kernel

/-- The placed team between clauses, in a phase. -/
def idleTeam (p : TeamPhase) (t : Team → Team) : State := teamIs (fun x => t { x with phase := p, units := [(0, { unitAt base ⟨2, 0⟩ with clause := none })] })

theorem witness_TeamsAndGridsLiveAndEnd_preemption :
    (let s := idleTeam .running id
     thas s.teams 2 = true ∧ (teamAt s 2).phase = .running ∧ preemptable s 2 = true) ∧
    (let s := idleTeam .saving id
     preemptSet s 2 = [2] ∧ (teamAt s 2).phase = .saving ∧ teamSaves s 2 = true ∧ (teamAt s 2).preemptElapsed ≤ s.policy.preemptBound) ∧
    (let s := idleTeam .saving (fun t => { t with preemptElapsed := base.policy.preemptBound + 1 })
     s.policy.preemptBound < (teamAt s 2).preemptElapsed) := by decide +kernel

theorem witness_TeamsAndGridsLiveAndEnd_moves :
    (let s := idleTeam .saved id
     resumeSet s 2 = [2] ∧ setFits s (setCores s [2] 5) = true ∧ otherSets s 2 = [] ∧ mayResume s 2 = true ∧ neverFits s (gridAt s 1) = false ∧
     (teamAt s 2).savedLog = [] ∧ (coreAt s 5).log.length ≤ Config.operandLogEntries) ∧
    (let s := idleTeam .saving id
     resumeSet s 2 = [2] ∧ setFits s (setCores s [2] 5) = true ∧ movable s 2 = true ∧ Sys2Proof.Machine.moveOk s [2] 5 = true ∧ (teamAt s 2).stopped = false ∧ (teamAt s 2).moving ≠ some true ∧
     (teamAt s 2).kernel.unified = false ∧ (teamAt s 2).core ≠ 5 ∧
     teamSaves s 2 = true ∧ (coreAt s 0).log = []) ∧
    (let s := base
     resumeSet s 2 = [2] ∧ setFits s (setCores s [2] 5) = true ∧ movable s 2 = true ∧ Sys2Proof.Machine.moveOk s [2] 5 = true ∧ (teamAt s 2).core ≠ 5 ∧ teamSaves s 2 = false ∧ (teamAt s 2).phase = .running) := by decide +kernel

/-! ## Witnesses: fares and timers -/

/-- The placed machine with room in its ring and limits, whose core 0 holds no vector fares, with a request in cluster 0 and settings as given. -/
def asking (n : Nat) (f : Cluster → Cluster) : State :=
  let s := modCluster { modPurse base 0 (fun p => { p with vector := 0 }) with ring := { base.ring with ringTot := 4096 } } 1 (fun k => { k with clim := 4096 })
  let s1 := modCluster s 0 (fun k => f { k with clim := 4096, requests := [{ unit := some ⟨2, 0⟩, core := 0, fares := n, ctx := 1, vector := true, price := 16 * n }] })
  { s1 with clusters := (List.range 24).map (fun e => (e, clusterAt s1 e)) }

theorem witness_FaresAndTimersTakeEffect_grant :
    (List.all [(asking 16 id, true), (asking 129 id, false), (asking 65 (fun k => { k with clim := 64 }), false)] (fun e =>
      let s := e.1
      let k := clusterAt s 0
      let p := ((k.requests.head?).map (·.price)).getD 0
      let n := shortfall s 0 p
      k.gated == false && k.judged == false && s.supervisor.freeze == false && decide (k.requests.length = 1) &&
      ((List.range 24).all (fun e => e == 0 || decide ((clusterAt s e).requests = []))) && decide (k.holdings = []) &&
      ((clusterCores 0).all (fun i => decide ((coreAt s i).purse.holdings = []))) &&
      ((List.range 24).all (fun e => (clusterAt s e).fell == false && (clusterAt s e).balSkimming == false && decide (tset s.clusters e (clusterAt s e) = s.clusters))) &&
      k.requests.all (fun r => decide (r.balance < k.bdb) && r.vector && !r.matrix && decide (r.op = none) && !r.burstReq && decide (r.unit = some ⟨2, 0⟩)) &&
      thas s.teams 2 && (unitAt s ⟨2, 0⟩).retired == false && decide (k.fareResv = []) && (clusterAt s 1).gated == false && decide (s.ring.claims = []) &&
      decide (ringSum s + n ≤ s.ring.ringTot) && canPay s 0 p == false &&
      (decide (curOf s 0 + n ≤ climOf s 0 ∧ curOf s 0 + n ≤ k.prev + k.stepLimit) == e.2) && (balanced (curOf s 0 + n) (curOf s 1) || !e.2))) = true ∧
    canPay (asking 0 id) 0 0 = true := by decide +kernel

theorem witness_FaresAndTimersTakeEffect_windows :
    (clusterAt (modCluster base 0 (fun k => { k with boundaryDue := true })) 0).boundaryDue = true ∧
    (List.all [(SkimMode.ramping, 60), (.bursting, 0), (.rampingDown, 4), (.rampingDown, 64)] (fun e =>
      let s := modPurse base 0 (fun p => { p with mode := e.1, unitLevel := e.2, target := 62, rampPhase := 4 })
      decide ((coreAt s 0).purse.mode = e.1) && decide (4 ≤ (coreAt s 0).purse.rampPhase) &&
      (e.1 == .rampingDown || decide ((coreAt s 0).purse.unitLevel < (coreAt s 0).purse.target)))) = true ∧
    (let s := modPurse base 0 (fun p => { p with burst := 64, burstWindows := 255 })
     (coreAt s 0).purse.burst ≠ 0 ∧ (clusterAt s 0).burstMax ≤ (coreAt s 0).purse.burstWindows) := by decide +kernel

/-- The fewest skims, in fours, with which the request is within the balance bound, and the state with them. -/
def fewestSkims (s : State) (y : FareReq) (d : Nat) : Option (Nat × State) :=
  (List.range 64).findSome? (fun j =>
    match addSkims (clusterCores d) (4 * j) s with
    | some s1 => if balanced (curOf s1 0 + addOf s1 y) (curOf s1 (partnerOf 0)) then some (j, s1) else none
    | none => none)

theorem witness_FaresAndTimersTakeEffect_balance :
    let s := modCluster (asking 40 id) 0 (fun k => { k with requests := k.requests.map (fun r => { r with balance := 255 }) })
    let k := clusterAt s 0
    let y := reqNow s (k.requests.headD {})
    k.gated = false ∧ s.supervisor.freeze = false ∧ k.requests.length = 1 ∧ (k.requests.all (fun r => decide (k.bdb ≤ r.balance) && reqStands s r)) = true ∧
    failedCheck s 0 y = some 5 ∧ ¬ curOf s 0 + addOf s y < curOf s (partnerOf 0) ∧ ringClosed s 1 = false ∧ (clusterAt s 1).ramp = true ∧ partnerOf 0 = 1 ∧
    (match fewestSkims s y 1 with
     | some (j, s1) => decide (0 < j) && decide (curOf s1 1 ≤ climOf s 1) && decide (ringSum s1 ≤ s.ring.ringTot)
     | none => false) = true := by decide +kernel

theorem witness_FaresAndTimersTakeEffect_ring :
    (let s := modCluster base 0 (fun k => { k with cyc := 4097, fareResv := [⟨⟨2, 0⟩, 0⟩] })
     (clusterAt s 0).fareResv = [⟨⟨2, 0⟩, 0⟩] ∧ starvOf (ctxAt s (teamAt s 2).ctx) < clusterCyc s 0 - 0 ∧ s.ring.claims = []) ∧
    (2100 : Nat) ≠ 0 ∧ 11 < Config.pairs ∧
    (let s := { base with stackPairs := tset base.stackPairs 0 { pairAt base 0 with pending := some 2100 } }
     (pairAt s 0).pending = some 2100 ∧ crossing s 0 = false ∧ tkeys s.contexts = [1]) ∧
    (let s := modCtx base 1 (fun c => { c with counting := true, dlrem := 7 })
     (ctxAt s 1).counting = true ∧ (ctxAt s 1).rootCluster / 2 = 0) ∧
    (let s := modCtx { base with stackPairs := tset base.stackPairs 0 { pairAt base 0 with pending := some 2100 } } 1 (fun c => { c with timed := true, dlrem := 7 })
     (pairAt s 0).pending = some 2100 ∧ crossing s 0 = false ∧ (ctxAt s 1).counting = false ∧ (ctxAt s 1).timed = true) ∧
    (ctxAt base 1).timed = false ∧
    (clusterAt base 23).gated = false ∧ gateable base 23 = true ∧ travelling base 23 = false := by decide +kernel

theorem witness_FaresAndTimersTakeEffect_steps :
    (let s := { base with queues := tset base.queues 63 { queueAt base 63 with en := true, phase := .ready, age := 5, aged := 5, level := 7 } }
     (queueAt s 63).en = true ∧ (queueAt s 63).phase = .ready ∧ (queueAt s 63).age ≠ 0 ∧ (queueAt s 63).age ≤ (queueAt s 63).aged) ∧
    (let s := modCore base 0 (fun c => { c with sinceAcquire := base.policy.phaseAge })
     s.supervisor.freeze = false ∧ s.policy.phaseAge ≤ (coreAt s 0).sinceAcquire) ∧
    (let s := modCore base 191 (fun c => { c with l1 := some 65536, interval := 65536 })
     (coreAt s 191).l1 = some 65536 ∧ 65536 ≤ (coreAt s 191).interval ∧ l1Floor s 191 ≤ 65536 ∧ 65536 + residentCarves s 191 ≤ Config.unifiedBytes) := by decide +kernel

/-! ## Witnesses: commands -/

/-- Queue 63 of context 1. -/
def queue9 : Queue := { en := true, ctx := 1, logn := 3, cring := 0x9000, ridx := 0x9200, widx := 0x9240, ring := 0x9400, w := 8, rd := 7, phase := .ready }

/-- A machine with that queue. -/
def queued (t : State) : State := { t with queues := tset t.queues 63 queue9 }

/-- A command of that queue in service. -/
def serve (t : State) : State := { queued t with service := some { queue := 63, index := 5, bytes := natToBytes 64 (0x300007 + 0x55 * 2 ^ 128) } }

/-- A header that asks for a record and orders the command. -/
def header : CmdHeader := ⟨9, true, true⟩

/-- The service of that command. -/
def service9 : Service := { queue := 63, index := 5, bytes := natToBytes 64 (0x300007 + 0x55 * 2 ^ 128) }

/-- Whether the command is in service, ordered behind nothing, on a queue of an ACTIVE context. -/
def serves (s : State) : Bool :=
  decide (s.service = some service9) && decide ((queueAt s 63).outstanding = []) && decide ((ctxAt s (queueAt s 63).ctx).phase = .active) &&
  decide ((queueAt s 63).ctx = 1)

theorem witness_CommandsOfAContextAreServed_order :
    serves (serve base) = true ∧ (let s := { serve base with queues := tset base.queues 63 { queue9 with outstanding := [{ index := 4, op := 1 }] } }
     s.service = some service9 ∧ (queueAt s 63).outstanding ≠ []) ∧
    (let s := serve (modCtx base 1 (fun c => { c with phase := .suspended }))
     s.service = some service9 ∧ (queueAt s 63).outstanding = [] ∧ (ctxAt s 1).phase ≠ .active) := by decide +kernel

/-- A launch record of the registered kernel. -/
def launch9 : SpawnRec := { kdesc := 0x9000, teams := 1, groups := 1, gang := 0, priv := 0, args := [] }

/-- A ready pool with no room. -/
def full (t : State) : State := { t with readyPool := List.range 8192 }

theorem witness_CommandsOfAContextAreServed_work :
    serves (serve (registered base)) = true ∧ made (launchCheck (serve (registered base)) 1 launch9) = 0 ∧ poolFull (serve (registered base)) = false ∧
    made (launchCheck (serve base) 1 launch9) = 6 ∧ poolFull (full (serve (registered base))) = true ∧
    made (launchCheck (full (serve (registered base))) 1 launch9) = 0 ∧
    (List.all [(false, (0 : Nat)), (true, 1)] (fun e =>
      let s := serve (withRecs (modCtx base 1 (fun c => { c with expired := e.1 })) [taskNode])
      serves s && (match readGraph s 1 0x8100 1 with
        | .ok s1 ns => made (graphGrid s1 1 2 ns) == e.2 && !poolFull s1
        | _ => false))) = true := by decide +kernel

theorem witness_CommandsOfAContextAreServed_copy :
    let s := serve (withRecs base [copyRec 0xB000 0 - 0x8100 + 0x8140, sten 0x1F])
    serves s = true ∧
    (match copySpec s 1 0x8100 with
     | .ok s1 b st =>
       let home := maskedHome s1 1 (nextUntiled s1 1)
       (clusterAt s1 home).gated == false &&
       (argMin (scoreOf s1) (((List.range (s1.policy.placeDepth + 1)).map (fun i => home * 8 + ((clusterAt s1 home).rho + i) % 8)).filter (copyFits s1 1))).isSome
     | _ => false) = true := by decide +kernel

/-- The physical address of a front-end access that changes nothing. -/
def landsAt (s : State) (ctx va : Nat) (kind : AccKind) : Option Nat :=
  match walkFrom s va (ctxAt s ctx).record.ptroot 3 with
  | .leaf l base pte =>
    let e := memNat s.mem pte 8
    if va < Config.globalLimit ∧ (kind.writes && inLayer s ctx va) = false ∧ rightsOf l kind = none ∧
        (e ||| 0x10) ||| (if kind.writes then 0x20 else 0) = e ∧ inPeer (l.pa + (va - base)) = false then some (l.pa + (va - base))
    else none
  | _ => none

theorem fePlace_of_landsAt (s : State) (ctx va pa : Nat) (kind : AccKind) (h : landsAt s ctx va kind = some pa) :
    fePlace s ctx va kind = .ok pa s := by
  unfold landsAt at h
  unfold fePlace Sys2Proof.Machine.translate peek walkFor walkAt walkStart walked markLeaf
  dsimp only [tlbOf]
  generalize kind.writes = w at h ⊢
  split at h
  · rename_i l b pte e
    cases w <;> (dsimp only at h; split at h <;> simp_all <;> obtain ⟨⟨c, _⟩, rfl⟩ := h <;> simp_all [Nat.not_le.mpr c])
  · simp at h

theorem landsAt_queue (s : State) (n ctx va : Nat) (f : Queue → Queue) (kind : AccKind) : landsAt (modQueue s n f) ctx va kind = landsAt s ctx va kind := by
  have hw : ∀ l t, walkFrom (modQueue s n f) va t l = walkFrom s va t l := by
    intro l
    induction l with
    | zero => intro t; rfl
    | succ k ih => intro t; simp only [walkFrom]; rw [show walkEntry (modQueue s n f) va t (k + 1) = walkEntry s va t (k + 1) from rfl]; simp only [ih]
  unfold landsAt
  rw [hw]
  rfl

theorem witness_CommandsOfAContextAreServed_signal_wait :
    let s := serve base
    serves s = true ∧ landsAt s 1 0x8000 .atomic = some 0x8000 ∧ landsAt s 1 0x8000 .read = some 0x8000 ∧ s.badLines = [] ∧ s.owned = [] ∧
    holds .eq (bytesToW32 (memReadN s.mem 0x8000 4)) 0 ∧ ¬ holds .ltN (bytesToW32 (memReadN s.mem 0x8000 4)) 0 ∧
    (let w : WaitCmd := { index := 5, h := header, pa := 0x8000, value := 0, k := .eq, hit := true }
     (queueAt { base with queues := [(63, { queue9 with waiting := some w })] } 63).waiting = some w ∧ w.hit = true) ∧
    liveGrid s 1 1 = some 1 ∧ liveGrid s 1 7 = none ∧ thas s.grids 1 = true ∧ (gridAt s 1).ctx = 1 := by
  unfold holds
  decide +kernel

/-- A model record of one layer, and the layer's entry at 0x8140. -/
def modelRecs : List Nat := [0x8140 + 1 * 2 ^ 64, 0x8000 + 64 * 2 ^ 64]

theorem witness_CommandsOfAContextAreServed_models :
    let s := serve (withRecs base modelRecs)
    serves s = true ∧ (match feRead s 1 0x8100 64 with
     | .ok bs s1 =>
       let r := bytesToNat bs
       zeros r [(511, 96), (91, 83), (79, 75)] && bitsAt r 74 64 == 1 && bitsAt r 63 0 % 64 == 0 && decide (bitsAt r 63 0 < Config.globalLimit) &&
       decide (modelAt s1 1 15 = none) && (match feRead s1 1 (bitsAt r 63 0) 32 with
         | .ok tb _ => (parseLayers tb 1).isSome
         | _ => false)
     | _ => false) = true ∧
    (let s := serve (withLayer {} base)
     serves s = true ∧ s.waysHeld = none ∧ (modelAt s 1 15).isSome = true ∧ pinnable s (layerAt s (1 * 16384 + 15 * 1024 + 1023)) = true ∧
     (layerAt s (1 * 16384 + 15 * 1024 + 1023)).phase ≠ .resident ∧ s.wagons = [] ∧ ((modelAt s 1 15).map (fun m => tkeys m.layers)) = some [1023] ∧
     s.layerHeld = [] ∧ (layerAt s (1 * 16384 + 15 * 1024 + 1023)).waiting = false ∧
     (layerAt s (1 * 16384 + 15 * 1024 + 1023)).waiters = [] ∧ layerTotal s (1 * 16384 + 15 * 1024 + 1023) = 0) ∧
    (let s := serve (withLayer {} { base with teams := tset base.teams 2 { teamAt base 2 with layerCounts := [(1 * 16384 + 15 * 1024 + 1023, 3)] } })
     serves s = true ∧ layerTotal s (1 * 16384 + 15 * 1024 + 1023) = 3) := by decide +kernel

/-- The same with the command already taken once. -/
def heldHead : State := { base with queues := tset base.queues 63 { queue9 with head := some { index := 4, bytes := natToBytes 64 7, why := .ended } } }

theorem witness_CommandsOfAContextAreServed_arbiter :
    (queued base).service = none ∧ arbiterChoice (queued base) = some 63 ∧ (queued base).boundary = [] ∧ pointChanges (queued base) = false ∧
    heldHead.boundary = [] ∧ pointChanges heldHead = false ∧ (queueAt (queued base) 63).head = none ∧
    (match feRead (served (queued base) 63) 1 (0x9400 + 64 * 7) 64 with
     | .ok bs s1 => decide (landsAt s1 1 0x9200 .write = some 0x9200) && decide (bs.length = 64)
     | _ => false) = true ∧
    heldHead.service = none ∧ arbiterChoice heldHead = some 63 ∧ (queueAt heldHead 63).head.isSome = true := by decide +kernel

theorem witness_CommandsOfAContextAreServed_records :
    let s := queued base
    let q := queueAt s 63
    q.cplHeld = none ∧ q.cplWait = [] ∧ q.phase ≠ .error ∧ q.roomHeld = false ∧ pointChanges s = false ∧
    ∀ y, fePlace (modQueue s 63 (fun _ => y)) q.ctx (q.cring + 32 * (q.done % 2 ^ q.logn)) .write = .ok 0x9000 (modQueue s 63 (fun _ => y)) := by
  refine ⟨by decide +kernel, by decide +kernel, by decide +kernel, by decide +kernel, by decide +kernel, fun y => fePlace_of_landsAt _ _ _ _ _ ?_⟩
  rw [landsAt_queue]
  decide +kernel

/-! ## Witnesses: administrative commands -/

/-- A command of an ADMIN queue in service. -/
def adminServe (t : State) : State :=
  { t with queues := tset t.queues 63 { queue9 with admin := true }, service := some service9 }

/-- Whether it is in service on an ADMIN queue, ordered behind nothing. -/
def adminServes (s : State) : Bool :=
  decide (s.service = some service9) && decide ((queueAt s 63).outstanding = []) && (queueAt s 63).admin && decide ((queueAt s 63).ctx = 1)

/-- The words of a context record whose tables and trap records lie as the placed context's. -/
def ctxRec (deadline : Nat) : Nat := 0x1000 + 0xFFFF * 2 ^ 96 + deadline * 2 ^ 128 + 0xFFFFFF * 2 ^ 256 + 0x10000 * 2 ^ 384

/-- What the checks of a context record come to. -/
def recordChecks (s : State) (n : Nat) : Option (Option (CtxRecord × Bool)) :=
  match feRead s (queueAt s 63).ctx 0x8100 128 with
  | .ok bs s1 => some ((parseCtx s1 bs).map (fun r => (r, trapRegionOk s1 n r)))
  | _ => none

theorem witness_AdministrativeCommandsAreServed_setup :
    adminServes (adminServe base) = true ∧ serves (serve base) = true ∧ (queueAt (serve base) 63).admin = false ∧
    (ctxAt base 63).phase = .free ∧ (0x8101 : Nat) % 64 ≠ 0 ∧ (0x8100 : Nat) % 64 = 0 ∧ (ctxAt base 1).phase ≠ .free ∧
    (let s := adminServe (withRecs base [0, 0])
     adminServes s = true ∧ recordChecks s 63 = some none) := by decide +kernel

theorem witness_AdministrativeCommandsAreServed_setup_done :
    (let s := adminServe (withRecs base [ctxRec 7, 0])
     adminServes s = true ∧ ((recordChecks s 63).map (fun o => o.map (fun r => (r.2, r.1.deadline)))) = some (some (true, 7))) := by decide +kernel

theorem witness_AdministrativeCommandsAreServed_setup_region :
    (let s := adminServe (withRecs base [ctxRec 7 - 0x1000 + 0x3000, 0])
     adminServes s = true ∧ ((recordChecks s 63).map (fun o => o.map (fun r => r.2))) = some (some false)) := by decide +kernel

/-- Whether the words a rewrite may not change stand in a record as in context 1. -/
def keepsFixed (s : State) : Option (Option Bool) :=
  (recordChecks s 1).map (fun o => o.map (fun r => decide (fixedWords r.1 = fixedWords (ctxAt s 1).record)))

theorem witness_AdministrativeCommandsAreServed_rewrite_done :
    (let s := adminServe (withRecs base [ctxRec 7, 0])
     adminServes s = true ∧ keepsFixed s = some (some true)) := by decide +kernel

theorem witness_AdministrativeCommandsAreServed_rewrite_no_deadline :
    keepsFixed (adminServe (withRecs base [ctxRec 0, 0])) = some (some true) := by decide +kernel

theorem witness_AdministrativeCommandsAreServed_rewrite_refused :
    keepsFixed (adminServe (withRecs base [ctxRec (0x20000 * 2 ^ 256), 0])) = some (some false) := by decide +kernel

theorem witness_AdministrativeCommandsAreServed_rewrite_suspended :
    (let s := adminServe (withRecs (modCtx base 1 (fun c => { c with phase := .suspended })) [ctxRec 7, 0])
     adminServes s = true ∧ (ctxAt s 1).phase = .suspended ∧
     ((recordChecks s 1).map (fun o => o.map (fun r => decide (r.1.trapbase = (ctxAt s 1).record.trapbase)))) = some (some true)) := by decide +kernel

theorem witness_AdministrativeCommandsAreServed_phases :
    (let s := adminServe (modCtx base 1 (fun c => { c with suspendBy := some (63, 4, header) }))
     adminServes s = true ∧ (ctxAt s 1).suspendBy.isSome = true ∧ (ctxAt s 63).phase = .free) ∧
    (let s := adminServe { base with teams := [] }
     adminServes s = true ∧ (ctxAt s 1).phase = .active ∧ (ctxAt s 1).suspendBy = none ∧ s.teams = []) ∧
    (let s := adminServe base
     tkeys s.teams = [2] ∧ (teamAt s 2).ctx = 1 ∧ (teamAt s 2).phase = .running ∧ preemptable s 2 = true ∧ preemptSet s 2 = [2] ∧
     (ctxAt s 1).teardownBy = none) ∧
    (let s := adminServe (modCtx base 1 (fun c => { c with phase := .suspended, teardownBy := some (63, 4, header) }))
     adminServes s = true ∧ (ctxAt s 1).phase = .suspended ∧ (ctxAt s 1).teardownBy.isSome = true) := by decide +kernel

/-- A code object at 0x8100 of one kernel whose code is one clause. -/
def objRecs : List Nat :=
  [0x4F435843 + 1 * 2 ^ 32 + 1 * 2 ^ 64 + 1 * 2 ^ 96 + 64 * 2 ^ 128 + 192 * 2 ^ 160 + 12 * 2 ^ 192, 1 * 2 ^ 32, 0,
   ((List.range 3).zip (placeWords idleWord).1).foldl (fun n e => n + e.2.toNat * 2 ^ (32 * e.1)) 0]

/-- A second context with a table of pages for its first 2 MiB, the first page present, in a frame. -/
def secondAt (frame : Nat) (t : State) : State :=
  let put := fun m (e : Nat × Nat) => memWriteN m e.1 (natToBytes 8 e.2)
  { t with contexts := tset t.contexts 2 { placeCtx with record := { placeCtx.record with ptroot := 0x3000 } },
           mem := [(0x3000, 0x5003), (0x5000, 0x6003), (0x6000, 0x7003), (0x7000, frame + 1)].foldl put t.mem }

/-- The same in an ordinary frame. -/
def second (t : State) : State := secondAt 0x20000 t

/-- Group 0 of a context with a load that took another place than the tables give its page, and an invalidation of that page in progress. -/
def strayLoad (ctx : Nat) (t : State) : State :=
  let s := modUnit t ⟨2, 0⟩ (fun g => { g with loads := [loadOf .b32 (fun _ => .phys 0x123440) [0] (.lanes 8)] })
  { s with teams := tset s.teams 2 { teamAt s 2 with ctx := ctx }, invalidations := [⟨ctx, 0, 65536⟩] }

/-- What a registration in context 2 of the object at 0x8100 comes to: whether a part lies in the peer aperture, and whether an invalidation
of the context is in progress. -/
def mapsTo (s : State) : Option (Bool × Bool) :=
  match register s 1 0x8100 with
  | .ok s1 o ps _ => (mapObject s1 2 0x8100 o ps).map (fun s2 => (partsInPeer s2 2 ps, ctxInvalidating (endInvalidations s2) 2))
  | _ => none

theorem witness_AdministrativeCommandsAreServed_code_refused :
    (let s := adminServe base
     (ctxAt s 63).phase ≠ .active ∧ (match register s 1 0x8100 with
      | .code _ n => n == 1
      | _ => false) = true) := by decide +kernel

/-- Mapped in a context that has it not, with no invalidation to wait for; refused in one that has. -/
theorem witness_AdministrativeCommandsAreServed_code :
    (let s := adminServe (second (withRecs (modCtx base 1 (fun c => { c with objects := [{ addr := 0x8100, parts := [(0x8100, 64)] }] })) objRecs))
     adminServes s = true ∧ (ctxAt s 2).phase = .active ∧ (match register s 1 0x8100 with
      | .ok s1 o ps ks => (match mapObject s1 2 0x8100 o ps with
          | some s2 => !ctxInvalidating (endInvalidations s2) 2
          | none => false) && decide (ks.length = 1) && (mapObject s1 1 0x8100 o ps).isNone
      | _ => false) = true) := by decide +kernel

/-- Free to be placed, held for an invalidation, and refused in the aperture. -/
theorem witness_AdministrativeCommandsAreServed_code_places :
    mapsTo (adminServe (second (withRecs base objRecs))) = some (false, false) := by decide +kernel

theorem witness_AdministrativeCommandsAreServed_code_held :
    mapsTo (strayLoad 2 (adminServe (second (withRecs base objRecs)))) = some (false, true) := by decide +kernel

theorem witness_AdministrativeCommandsAreServed_code_peer :
    mapsTo (adminServe (secondAt 0xF00000000000 (withRecs base objRecs))) = some (true, false) := by decide +kernel

/-- A resumption that waits for an invalidation. -/
theorem witness_AdministrativeCommandsAreServed_resume_held :
    let s := strayLoad 1 (adminServe (modCtx base 1 (fun c => { c with phase := .suspended })))
    adminServes s = true ∧ (ctxAt s 1).phase = .suspended ∧ (ctxAt s 1).nextRecord = none ∧
    ctxInvalidating (endInvalidations (applyRoot s 1 none)) 1 = true := by decide +kernel

/-- A suspended context resumes with its tables as they are. -/
theorem witness_AdministrativeCommandsAreServed_resume :
    let s := adminServe (modCtx { base with teams := [] } 1 (fun c => { c with phase := .suspended }))
    adminServes s = true ∧ (ctxAt s 1).phase = .suspended ∧ (ctxAt s 1).nextRecord = none ∧ s.invalidations = [] ∧
    ctxInvalidating (endInvalidations (applyRoot s 1 none)) 1 = false := by decide +kernel

theorem witness_AdministrativeCommandsAreServed_unreg :
    (let o : CodeObject := { addr := 0x9000, codeBase := 0, codeLen := 0x8000, kernels := [placeKernel] }
     let s := adminServe (modCtx base 1 (fun c => { c with objects := [o] }))
     adminServes s = true ∧ (ctxAt s 1).objects = [o] ∧ o.unregBy = none ∧ objectBusy s 1 o = true) ∧
    (let o : CodeObject := { addr := 0x9000 }
     let s := adminServe (modCtx base 1 (fun c => { c with objects := [o] }))
     (ctxAt s 1).objects = [o] ∧ objectBusy s 1 o = false) := by decide +kernel

/-- A binding record of queue 63 of context 1 to the kernel at 0x9000 and model slot 15. -/
def bindRec (m : Nat) : Nat := 63 + 1 * 2 ^ 8 + m * 2 ^ 16 + 15 * 2 ^ 24 + 1 * 2 ^ 64 + 0x9000 * 2 ^ 128 + 0xB000 * 2 ^ 192 + 1 * 2 ^ 264

/-- What the checks of a binding record come to. -/
def bindChecks (s : State) : Option (Bool × Bool × Bool × Bool) :=
  match feRead s (queueAt s 63).ctx 0x8100 64 with
  | .ok bs s1 =>
    let x := recBits bs
    let ok := bindable s1 (bitsAt x 13 8) && bindable s1 (bitsAt x 21 16)
    match (kernelAt s1 (bitsAt x 21 16) (bitsAt x 191 128)).bind (parseBinding x) with
    | some b => some (ok, (wagonAt s1 (bitsAt x 5 0)).binding.isNone, (modelAt s1 b.mctx b.mslot).isSome, tilesMapped s1 b)
    | none => some (ok, false, false, false)
  | _ => none

theorem witness_AdministrativeCommandsAreServed_wagons :
    bindChecks (adminServe (withRecs (withLayer {} (registered base)) [bindRec 1])) = some (true, true, true, true) := by decide +kernel

theorem witness_AdministrativeCommandsAreServed_wagons_bound :
    bindChecks (adminServe (withRecs (withLayer {} (bound (registered base) 1)) [bindRec 1])) = some (true, false, true, true) := by decide +kernel

theorem witness_AdministrativeCommandsAreServed_wagons_no_model :
    bindChecks (adminServe (withRecs (registered base) [bindRec 1])) = some (true, true, false, true) := by decide +kernel

theorem witness_AdministrativeCommandsAreServed_wagons_no_context :
    bindChecks (adminServe (withRecs base [bindRec 63])) = some (false, false, false, false) := by decide +kernel

theorem witness_AdministrativeCommandsAreServed_wagons_unbind :
    (let s := adminServe (bound base 1)
     adminServes s = true ∧ (wagonAt s 63).binding.isSome = true ∧ (wagonAt s 63).unbindBy = none ∧ (wagonAt s 63).rows = [] ∧ (wagonAt s 63).departed = [] ∧
     (wagonAt s 0).binding = none) ∧
    (wagonAt { base with wagons := [(63, { binding := some {}, rows := [row9] })] } 63).rows ≠ [] := by decide +kernel

theorem witness_AdministrativeCommandsAreServed_pools :
    (0x40 : Nat) % 2 ^ 12 ≠ 0 ∧ (0x1000 : Nat) % 2 ^ 12 = 0 ∧ (ctxAt (adminServe base) 63).phase ≠ .active ∧ (ctxAt (adminServe base) 1).phase = .active ∧
    (poolAt (adminServe (withPool base 1 twoNodes)) 0).ctx.isSome = true ∧ (poolAt (adminServe base) 255).ctx = none := by decide +kernel

/-! ## Witnesses: translation and faults -/

/-- No queue or run of a state watches a word of memory for an invalidation. -/
def nothingRead (s : State) (i : Invalidation) : Bool :=
  s.queues.all (fun e => decide (e.2.waiting = none) && !watchGone i e.2) &&
  s.teams.all (fun e => e.2.units.all (fun g => g.2.blocked.all (fun b => match b.wait with | .waitf .. => false | _ => true))) &&
  s.cores.all (fun c => c.2.log.all (fun e => e.lanes.all (fun a => decide (a.loc ≠ noPlace)))) &&
  (allUnits s).all (fun u => (unitAt s u).loads.all (fun p => p.lanes.all (fun a => !walkVoided (dropTlb s i.ctx i.va i.len) (coreOf s u) i.ctx p.id a)) &&
    (unitAt s u).stores.all (fun p => p.lanes.all (fun a => !walkVoided (dropTlb s i.ctx i.va i.len) (coreOf s u) i.ctx p.id a)))

theorem noMemoryWaits_of (s : State) (i : Invalidation) (h : nothingRead s i = true) : noMemoryWaits s i := by
  simp only [nothingRead, Bool.and_eq_true, List.all_eq_true, decide_eq_true_eq, Bool.not_eq_true'] at h
  refine ⟨h.1.1.1, fun e he g hg b hb l va v k d p hw => ?_, h.1.2, h.2⟩
  have := h.1.1.2 e he g hg b hb
  rw [hw] at this
  exact absurd this (by simp)

/-- A cached translation of the first page of the second gigabyte. -/
def entry9 : TlbEntry := { ctx := 1, va := 0x40000000, leaf := { pa := 0x40000000, w := true } }

/-- Cluster 0 with a walk's result for the agents that missed on the page. -/
def filling (as : List Nat) (v : Bool) : State := modCluster base 0 (fun k => { k with fills := [{ id := 9, agents := as, entry := entry9, voided := v }] })

theorem witness_TranslationsAreFilledAndInvalidated :
    (List.all [([0], false), ([0, 7], false), ([192], false), ([239], false), ([0, 192, 216], false), ([0], true)] (fun e =>
      (fillCluster (filling e.1 e.2) 9).map (fun r => decide (r.1 = 0) && decide (r.2.agents = e.1) && r.2.voided == e.2) == some true)) = true ∧
    0 < entry9.leaf.size ∧
    Config.cores ≤ 192 ∧ 192 < Config.cores + Config.clusters ∧ Config.cores + Config.clusters ≤ 239 ∧ (⟨1, 0x40000000, 65536⟩ : Invalidation) ∉ base.invalidations ∧
    nothingRead base ⟨1, 0x40000000, 65536⟩ = true ∧ nothingRead (loading (loadOf .b32 (fun _ => .phys 0x8000) [0] (.lanes 8))) ⟨1, 0, 65536⟩ = true ∧
    (let i : Invalidation := ⟨1, 0x40000000, 65536⟩
     i ∈ { base with invalidations := [i] }.invalidations) ∧
    (let s := { base with migrations := [⟨3, 3, 5, 0⟩, ⟨4, 4, 6, 1023⟩] }
     s.migrations[0]? = some ⟨3, 3, 5, 0⟩ ∧ s.migrations[1]? = some ⟨4, 4, 6, 1023⟩ ∧ (1024 : Nat) ≤ 1023 + 1 ∧ s.migrations.length < 64) ∧
    64 ≤ (List.replicate 64 (⟨3, 3, 5, 0⟩ : Migration)).length := by decide +kernel

/-- Group 0 held for a page of the second gigabyte, whose level-0 entry is not present but names W and X; nothing else waits. -/
def faulting : State :=
  let s := withGrp (fun g => { g with held := some (.replay [(0x4000, 0x80000001, 0x40000008)]) })
  { s with grids := [], queues := [], mem := memWriteN (memWriteN (memWriteN s.mem 0x2008 (natToBytes 8 0x3003)) 0x3000 (natToBytes 8 0xE003)) 0xE000 [0x0C] }

/-- Nothing but units can wait in a state. -/
def unitsOnly (s : State) : Bool :=
  s.cores.all (fun c => decide (c.2.log = []) && decide (c.2.matrix = []) && decide (c.2.copies = [])) && s.clusters.all (fun k => decide (k.2.geo = []) && decide (k.2.art = [])) &&
  decide (s.grids = []) && decide (s.wagons = []) && decide (s.queues = []) && decide (allLayers s = []) && decide (s.owned = []) && decide (s.serviceWait = []) &&
  s.teams.all (fun e => e.2.units.all (fun g => g.2.blocked.all (fun b => decide (b.lost = none))))

theorem onlyUnitsWait_of (s : State) (h : unitsOnly s = true) : onlyUnitsWait s := by
  simpa [unitsOnly, onlyUnitsWait, and_assoc] using h

/-- The record of that fault, serviced here or by the host. -/
def fault9 (h : Bool) : FaultRec := { ctx := 1, va := 0x40000008, h := h }

theorem witness_FaultsAreServicedAndReplayed_service :
    let s := { faulting with faultBuf := [fault9 false] }
    let s0 := { s with faultBuf := [] }
    unitsOnly s = true ∧ s.faultBuf = [fault9 false] ∧ (ctxAt s 1).phase ≠ .free ∧ (ctxUnits s 1) = [⟨2, 0⟩] ∧ (unitAt s ⟨2, 0⟩).xheld = [] ∧
    (match walkFrom s 0x40000000 0x1000 3 with
     | .fault l h => l == 0 && !h
     | _ => false) = true ∧
    ((pageEntry s0 1 0x40000000).map (fun r => decide (r.1 = 0xE000) && decide (r.2 = s0))) = some true ∧
    ((takeFrame s0).map (fun r => decide (r.1 < 2 ^ 48))) = some true ∧ tget? s.evicted (evictKey 1 0x4000) = none ∧
    (unitAt s ⟨2, 0⟩).held = some (.replay [(0x4000, 0x80000001, 0x40000008)]) := by decide +kernel

/-- A booted device whose ring stands at 0xF0000, with a message in service. -/
def mail (x : Nat) (t : State) : State :=
  { t with boot := .booted, mailbox := { t.mailbox with ringPlaced := true, ringAddr := 0xF0000, inService := some (natToBytes 64 x) } }

theorem witness_FaultsAreServicedAndReplayed_host :
    (let s := mail 0 { faulting with faultBuf := [fault9 true] }
     unitsOnly s = true ∧ s.faultBuf = [fault9 true] ∧ hostReady s = true) ∧
    (let s := { faulting with faultBuf := [fault9 true] }
     unitsOnly s = true ∧ hostReady s = false) := by decide +kernel

/-- The scope of one page that group 0 waits for. -/
def scope9 : ReplayScope := ⟨1, 0x40000000, 0⟩

/-- The same state with a handler for violations. -/
def handled9 : State := modCtx faulting 1 (fun c => { c with record := { c.record with hentry := 0x5000, hcmask := 0xFFFFFFFF } })

/-- The record of the waiting word's violation. -/
def tr9 (s : State) : TrapRec := mkRec s ⟨2, 0⟩ (0x4000 + 4 * 1) 0x4000 .accessViolation 5 0x80000001 0x40000008

theorem witness_FaultsAreServicedAndReplayed_replay :
    unitsOnly faulting = true ∧ faulting.boot ≠ .recovery ∧ isMessage faulting (.replayUnserviceable scope9) = false ∧ ctxUnits faulting 1 = [⟨2, 0⟩] ∧
    (unitAt faulting ⟨2, 0⟩).xheld = [] ∧ ((unitAt faulting ⟨2, 0⟩).clause.map (fun c => (c.head, c.next, c.mask))) = some (0x4000, 1, 0xFFFFFFFF) ∧
    hits scope9 0x4000 = true ∧ entersHandler handled9 ⟨2, 0⟩ (tr9 handled9) ∧ unitsOnly handled9 = true ∧
    faulting.supervisor.freeze = false ∧ { faulting.supervisor with freeze := true }.freeze = true ∧
    replayMask scope9 [(0x4000, 0x80000001, 0x40000008)] = some (0x80000001, 0x40000008) ∧
    trapIsFatal faulting ⟨2, 0⟩ (tr9 faulting) = true ∧ waited faulting scope9 = true ∧ waited base scope9 = false ∧
    (teamAt faulting 2).ctx = 1 ∧ (teamAt faulting 2).stopped = false ∧ (unitWaiter faulting scope9 ⟨2, 0⟩).isSome = true ∧ (ctxAt faulting 1).suspendBy = none ∧
    (let s := withGrp (fun g => { g with held := some (.fetch 0x4000 0x40000008) })
     (unitAt s ⟨2, 0⟩).held = some (.fetch 0x4000 0x40000008)) := by
  unfold entersHandler
  decide +kernel

/-- A walk's table entry is cached for its cluster and used until an invalidation drops it (17 R365, R368): the first gigabyte's entry of
the root table lies at level 3. -/
theorem test_walk_cache :
    (let s := (translate { base with clusters := [] } (some 0) 1 0x8100 .read).2
     decide ((clusterAt s 0).walks = [⟨1, 3, 0, 0x2000⟩] ∧ walkStart s (some 7) 1 0x3FFFFFFF = (0x2000, 2) ∧
       walkStart s (some 8) 1 0x8100 = (0x1000, 3) ∧ walkStart s none 1 0x8100 = (0x1000, 3) ∧ (clusterAt (dropTlb s 1 0x100000 1) 0).walks = [])) = true := by
  decide +kernel

/-! ## Witnesses: the mailbox and the windows -/

/-- Whether a message is in service and is what it stands for. -/
def mailOk (s : State) (i : Instr) (x : Nat) : Bool :=
  decide (s.mailbox.inService = some (natToBytes 64 x)) && decide (decodeMessage (natToBytes 64 x) = i) && decide (s.boot = .booted) && hostReady s

theorem messageIn_of (s : State) (i : Instr) (x : Nat) (h : mailOk s i x = true) : messageIn s i (natToBytes 64 x) := by
  simpa [mailOk, messageIn, and_assoc] using h

/-- A QUEUE_SET message for queue 63 whose descriptor lies at an address. -/
def setMsg (a : Nat) : Nat := 0x01 + 7 * 2 ^ 16 + 63 * 2 ^ 64 + a * 2 ^ 128

/-- A descriptor of a queue of context 1, enabled or not. -/
def queueDesc (en : Nat) : Nat := 0x9400 + 0x9240 * 2 ^ 64 + 0x9200 * 2 ^ 128 + 0x9000 * 2 ^ 192 + 4 * 2 ^ 272 + 1 * 2 ^ 280 + en * 2 ^ 287

theorem witness_MailboxMessagesAreAnswered_queues :
    mailOk (mail (setMsg 0xFFFFFFFFFFFFFFC0) base) (.queueSet 63 0xFFFFFFFFFFFFFFC0) (setMsg 0xFFFFFFFFFFFFFFC0) = true ∧ base.memBytes < 0xFFFFFFFFFFFFFFC0 + 64 ∧
    (List.all [(0, none), (queueDesc 0, some false), (queueDesc 1, some true)] (fun e =>
      let s := mail (setMsg 0x8100) (withRecs base [e.1])
      mailOk s (.queueSet 63 0x8100) (setMsg 0x8100) && decide (0x8100 + 64 ≤ s.memBytes) && badRange s 0x8100 64 == false &&
      decide ((parseQueue (memReadN s.mem 0x8100 64)).map (·.en) = e.2))) = true ∧
    (let s := mail (setMsg 0x8100) (withRecs base [queueDesc 1])
     (parseQueue (memReadN s.mem 0x8100 64)).map (fun q => decide (landsAt { s with queues := tset s.queues 63 q } q.ctx q.widx .read = some 0x9240))) = some true ∧
    lineOf 0x9240 ∉ base.badLines := by decide +kernel

/-- A DEADLINE_AT message for a context at some seconds. -/
def dlMsg (c sec : Nat) : Nat := 0x03 + 7 * 2 ^ 16 + c * 2 ^ 64 + sec * 2 ^ 128 + 999999999 * 2 ^ 192

theorem witness_MailboxMessagesAreAnswered_deadlines :
    mailOk (mail (dlMsg 1 1) base) (.deadlineAt 1 1 999999999) (dlMsg 1 1) = true ∧ (pairAt base 0).pending = none ∧
    deadlineCycles 1999999999 base.portTime (pairAt base 0).mhz ≤ 0xFFFFFFFF ∧ (ctxAt base 1).phase = .active ∧
    mailOk (mail (dlMsg 1 281474976710655) base) (.deadlineAt 1 281474976710655 999999999) (dlMsg 1 281474976710655) = true ∧
    0xFFFFFFFF < deadlineCycles (281474976710655 * 1000000000 + 999999999) base.portTime (pairAt base 0).mhz ∧
    (ctxAt (modCtx base 1 (fun c => { c with phase := .suspended })) 1).phase = .suspended ∧ (ctxAt base 63).phase ≠ .active ∧
    (pairAt { base with stackPairs := tset base.stackPairs 0 { pairAt base 0 with pending := some 2400 } } 0).pending.isSome = true := by decide +kernel

/-- A HEALTH message, an ATTEST message and a FW_STAGE message that name an address. -/
def healthMsg (a : Nat) : Nat := 0x05 + a * 2 ^ 128
def attestMsg (a : Nat) : Nat := 0x04 + (2 ^ 256 - 1) * 2 ^ 64 + a * 2 ^ 320
def stageMsg (a : Nat) : Nat := 0x06 + 8 * 2 ^ 64 + a * 2 ^ 128 + 4096 * 2 ^ 192

theorem witness_MailboxMessagesAreAnswered_reports :
    (List.all [0xC000, 0xFFFFFFFFFFFFFFC0] (fun a =>
      mailOk (mail (healthMsg a) base) (.health (BitVec.ofNat 64 a)) (healthMsg a) &&
      mailOk (mail (attestMsg a) base) (.attest (BitVec.ofNat 256 (2 ^ 256 - 1)) (BitVec.ofNat 64 a)) (attestMsg a) &&
      mailOk (mail (stageMsg a) base) (.fwStage 8 (BitVec.ofNat 64 a) 4096) (stageMsg a))) = true ∧
    0xC000 + 4096 ≤ base.memBytes ∧ base.attestIndex < 2 ^ 20 ∧ 2 ^ 20 ≤ { base with attestIndex := 2 ^ 20 }.attestIndex ∧
    badRange base 0xC000 4096 = false ∧ badRange { base with badLines := [lineOf 0xC000] } 0xC000 4096 = true := by decide +kernel

/-- A WINDOW_SET message for window 63 of context 1 with rights, a base of 0 and a length in pages. -/
def windowMsg (rights len : Nat) : Nat := 0x07 + 63 * 2 ^ 64 + 1 * 2 ^ 72 + rights * 2 ^ 78 + 0xABCD * 2 ^ 96 + len * 2 ^ 192

theorem witness_MailboxMessagesAreAnswered_windows :
    mailOk (mail (windowMsg 0 1) base) (.windowSet 63 1 ⟨false, false⟩ 0xABCD 0 1) (windowMsg 0 1) = true ∧
    mailOk (mail (windowMsg 3 1) base) (.windowSet 63 1 ⟨true, true⟩ 0xABCD 0 1) (windowMsg 3 1) = true ∧
    mailOk (mail (windowMsg 3 0xFFFFFFFF) base) (.windowSet 63 1 ⟨true, true⟩ 0xABCD 0 0xFFFFFFFF) (windowMsg 3 0xFFFFFFFF) = true ∧
    (ctxAt base 1).phase ≠ .free ∧ 0 + 1 * 65536 ≤ Config.globalLimit ∧ rangeMapped base 1 0 65536 true = true ∧
    (linkPlaces base 1 .write ((pagesOf 0 65536).map (· * 65536))).map (·.1) = some [0] ∧ ¬ 0 + 0xFFFFFFFF * 65536 ≤ Config.globalLimit := by
  decide +kernel

/-- An EVENT_RING message of queue pair 65535. -/
def ringMsg : Nat := 0x08 + 65535 * 2 ^ 64 + 0xABCD * 2 ^ 96 + 0xF0000 * 2 ^ 128 + 9 * 2 ^ 192

/-- The boot report. -/
def report9 : HostEvent := { type := 0x85 }

/-- A booted device whose ring has no place yet. -/
def noRing (x : Nat) : State := { base with boot := .booted, mailbox := { inService := some (natToBytes 64 x), queue := [report9] } }

theorem witness_MailboxMessagesAreAnswered_ring :
    (let i := Instr.eventRing 65535 0xABCD 0xF0000 9
     mailOk (mail ringMsg base) i ringMsg = true ∧ base.qpErrors = [] ∧ (mail ringMsg base).mailbox.servicePort = 0 ∧
     (65535 ∈ base.qps ∨ (base.qps.filter (fun q => portOf q == portOf 65535)).length < 128) ∧
     (65535 ∉ (List.range 128) ∧ ¬ ((List.range 128).filter (fun q => portOf q == portOf 65535)).length < 128) ∧
     (mail ringMsg base).mailbox.queue = [] ∧ (mail ringMsg base).mailbox.ringPlaced = true ∧
     ((mail ringMsg base).mailbox.deviceSeq - (mail ringMsg base).mailbox.evack).toNat < 2 ^ (9 + 6) ∧
     65535 ∈ { mail ringMsg base with qpErrors := [65535] }.qpErrors ∧
     (noRing ringMsg).mailbox.inService = some (natToBytes 64 ringMsg) ∧ decodeMessage (natToBytes 64 ringMsg) = i ∧ (noRing ringMsg).boot = .booted ∧
     (noRing ringMsg).mailbox.ringPlaced = false ∧ (noRing ringMsg).mailbox.queue = [report9] ∧ (noRing ringMsg).mailbox.evack = 0) ∧
    (let m : Mailbox := { ringPlaced := true, ringAddr := 0xF0000, deviceSeq := 64, queue := [report9] }
     m.ringPlaced = true ∧ m.ringDown = false ∧ m.queue = [report9] ∧ (m.deviceSeq - 1).toNat < 2 ^ m.loge ∧ 2 ^ m.loge ≤ (m.deviceSeq - 0).toNat) ∧
    mailOk (mail 0x7F base) .badMessage 0x7F = true ∧ mailOk (mail 0xFF base) .badMessage 0xFF = true ∧ typeOf (natToBytes 64 0x7F) = 0x7F ∧
    typeOf (natToBytes 64 0xFF) = 0xFF ∧
    (let s := { mail (setMsg 0x8100) base with boot := .recovery }
     s.mailbox.inService = some (natToBytes 64 (setMsg 0x8100)) ∧ s.boot = .recovery ∧ hostReady s = true) := by decide +kernel

/-- An EVENT_RING message names a queue pair of the port that carried it (19 R396): here pair 65535 of the second port, in error. -/
theorem test_message_port :
    (match execRdmaWrite 65543 0 0 (natToBytes 64 ringMsg) { base with boot := .booted, qpErrors := [131071] } with
     | .next t => decide (t.mailbox.inService = some (natToBytes 64 ringMsg)) && decide (t.mailbox.servicePort = 1) && hasNat t.qpErrors (messageQp t 65535)
     | _ => false) = true := by decide +kernel

/-- A booted device with window 63 over the first page of context 1. -/
def windowed : State := { base with boot := .booted, windows := [(63, ⟨0xABCD, 1, ⟨true, true⟩, 0, 65536, [0]⟩)] }

theorem witness_MailboxMessagesAreAnswered_rdma :
    windowed.boot = .booted ∧ windowed.qps = [] ∧ 7 ∉ windowed.qpErrors ∧ 7 ∈ { windowed with qpErrors := [7] }.qpErrors ∧ (0xABCD : W32) ≠ 0 ∧
    (List.all [AccKind.read, .write] (fun k =>
      ((windowPlaces windowed 0xABCD 65532 4 k).map (fun r => r.all (fun p => ownedLine windowed (.phys (lineOf p)) == false && !hasNat windowed.badLines (lineOf p)))) == some true &&
      (windowPlaces windowed 0xABCD 65533 4 k).isNone)) = true ∧
    windowed.linkHeld = [] ∧ (∃ h ∈ { windowed with linkHeld := [(7, [])] }.linkHeld, h.1 = 7) ∧
    (let s := { windowed with owned := [(5, .phys (lineOf 0x9000))] }
     ownedLine s (.phys (lineOf 0x9000)) = true) ∧
    (0x1004 : Nat) < 0x1001 + 4 ∧ (64 * 63 : Nat) = 4032 ∧
    { base with peerPending := [(7, 1), (8, 2)] }.peerPending = [] ++ (7, 1) :: [(8, 2)] ∧ (∀ e ∈ base.peerPending, e.1 ≠ 7) := by decide +kernel

/-! ## Witnesses: supervision, boot and spares -/

/-- A frozen placed machine whose registers name a core and a group. -/
def frozen9 (core group : Nat) (t : State) : State :=
  { t with boot := .booted, supervisor := { t.supervisor with freeze := true, frozen := true, score := core, sgroup := group } }

theorem witness_SupervisionBootAndSpares_step :
    (List.all [(base, 0, 0), (base, 31, 0)] (fun e =>
      let s := frozen9 0 e.2.1 e.1
      decide (s.boot = .booted) && s.supervisor.freeze && s.supervisor.frozen && decide (tkeys s.teams = [2]) && decide (tkeys (teamAt s 2).units = [0]) && decide ((teamAt s 2).phase = .running) &&
      decide ((teamAt s 2).core = s.supervisor.score) && (unitAt s ⟨2, 0⟩).retired == false && decide (s.supervisor.sgroup ≠ 32) &&
      (decide ((unitAt s ⟨2, 0⟩).slot = s.supervisor.sgroup) == decide (e.2.1 = 0)))) = true ∧
    (let s := frozen9 0 32 { cbase with teams := tset cbase.teams 2 { teamAt cbase 2 with units := [(32, unitAt cbase ⟨2, 32⟩)] } }
     tkeys (teamAt s 2).units = [32] ∧ s.supervisor.sgroup = 32 ∧ (teamAt s 2).core = s.supervisor.score) ∧
    base.supervisor.freeze = false ∧ base.denials = [] ∧ base.boot ≠ .booted := by decide +kernel

theorem witness_SupervisionBootAndSpares_boot : State.reset.boot = .inReset ∧ windowed.boot ≠ .inReset := by decide +kernel

theorem witness_SupervisionBootAndSpares_spares :
    base.supervisor.freeze = false ∧ spareFree base 191 = true ∧ coreInUse base 191 = false ∧ spareFree base 0 = true ∧ tkeys base.teams = [2] ∧
    standsOn (teamAt base 2) 0 = true ∧ (teamAt base 2).phase = .running ∧ preemptable base 2 = true ∧ preemptSet base 2 = [2] ∧
    base.health.rowSpares = 0 ∧ { base.health with rowSpares := 1 }.rowSpares ≠ 0 ∧ base.health.ringSpares = 0 ∧
    { base.health with ringSpares := 1 }.ringSpares ≠ 0 ∧ { base.health with dramSpares := 1 }.dramSpares ≠ 0 ∧ base.migrations = [] ∧
    (let s := { base with health := { base.health with standIn := [(7, 185)] } }
     (coreAt s 191).retired = false ∧ thas s.health.standIn (191 / 8 / 3) = true ∧ coreInUse s 191 = false) ∧
    (let s := { base with health := { base.health with standIn := [(0, 1)] } }
     (coreAt s 0).retired = false ∧ thas s.health.standIn (0 / 8 / 3) = true ∧ coreInUse s 0 = true) := by decide +kernel

/-- A row that fails with no spare left: its class is told, and a frame takes its place. -/
theorem witness_SupervisionBootAndSpares_lastRow :
    let s0 : State := { base with
      health := { base.health with replace := base.health.replace ||| (1#4 <<< 3) }
      mailbox := { base.mailbox with queue := base.mailbox.queue ++ [⟨0x86, 0, 0, natToBytes 1 (base.health.replace ||| (1#4 <<< 3)).toNat⟩] } }
    classTold base s0 3 0 ∧ base.health.dramSpares = 0 ∧ base.health.replace.getLsbD 3 = false ∧ (takeFrame s0).isSome = true := by
  refine ⟨⟨rfl, fun _ _ => ⟨rfl, rfl⟩, fun h => ?_⟩, by decide +kernel, by decide +kernel, by decide +kernel⟩
  exact absurd h (by decide +kernel)

end Sys2Proof.Tests
end

section
/-! SUPPORT. Purses, clusters and levels: reads after the changes that the fare rules make, and what the levels of a state depend on
(16 R345, R346). -/

namespace Sys2Proof.Machine

/-! ## Reads after changes -/

@[simp] theorem coreAt_modPurse_same (s : State) (c : Nat) (f : Purse → Purse) :
    coreAt (modPurse s c f) c = { coreAt s c with purse := f (coreAt s c).purse } := coreAt_modCore_same ..

theorem coreAt_modPurse_ne (s : State) {c i : Nat} (f : Purse → Purse) (h : i ≠ c) : coreAt (modPurse s c f) i = coreAt s i :=
  coreAt_modCore_ne s _ h

theorem coreAt_modPurse (s : State) (c i : Nat) (f : Purse → Purse) :
    coreAt (modPurse s c f) i = if i = c then { coreAt s c with purse := f (coreAt s c).purse } else coreAt s i := by
  split
  · next h => subst h; exact coreAt_modPurse_same ..
  · next h => exact coreAt_modPurse_ne s f h

@[simp] theorem modPurse_mem (s : State) (c : Nat) (f : Purse → Purse) : (modPurse s c f).mem = s.mem := rfl
@[simp] theorem modPurse_teams (s : State) (c : Nat) (f : Purse → Purse) : (modPurse s c f).teams = s.teams := rfl
@[simp] theorem modPurse_clusters (s : State) (c : Nat) (f : Purse → Purse) : (modPurse s c f).clusters = s.clusters := rfl
@[simp] theorem clusterAt_modPurse (s : State) (c e : Nat) (f : Purse → Purse) : clusterAt (modPurse s c f) e = clusterAt s e := rfl

theorem clusterAt_modCluster (s : State) (c e : Nat) (f : Cluster → Cluster) :
    clusterAt (modCluster s c f) e = if e = c then f (clusterAt s c) else clusterAt s e := by
  split
  · next h => subst h; exact clusterAt_modCluster_same ..
  · next h => exact clusterAt_modCluster_ne s f h

@[simp] theorem coreAt_modCluster (s : State) (c i : Nat) (f : Cluster → Cluster) : coreAt (modCluster s c f) i = coreAt s i := rfl

/-- A figure that a cluster's change leaves alone is that of before, of every cluster. -/
theorem modCluster_keeps {β : Type} (p : Cluster → β) (s : State) (c e : Nat) (f : Cluster → Cluster) (h : ∀ k, p (f k) = p k) :
    p (clusterAt (modCluster s c f) e) = p (clusterAt s e) := by
  rw [clusterAt_modCluster]
  split
  · next he => rw [he, h]
  · rfl

@[simp] theorem noteCur_mem (s : State) (c : Nat) : (noteCur s c).mem = s.mem := rfl
@[simp] theorem noteCur_teams (s : State) (c : Nat) : (noteCur s c).teams = s.teams := rfl
@[simp] theorem coreAt_noteCur (s : State) (c i : Nat) : coreAt (noteCur s c) i = coreAt s i := rfl
@[simp] theorem clusterAt_noteCur_same (s : State) (c : Nat) : clusterAt (noteCur s c) c = { clusterAt s c with cur := curOf s c } :=
  clusterAt_modCluster_same ..
theorem clusterAt_noteCur_ne (s : State) {c e : Nat} (h : e ≠ c) : clusterAt (noteCur s c) e = clusterAt s e := clusterAt_modCluster_ne s _ h

@[simp] theorem noteFall_mem (s : State) (c : Nat) (core : Option Nat) : (noteFall s c core).mem = s.mem := by cases core <;> rfl

/-- A map's keys after a write depend on its keys alone. -/
theorem tkeys_tset_congr {α : Type} {m m' : TMap α} (h : tkeys m = tkeys m') (k : Nat) (v v' : α) : tkeys (tset m k v) = tkeys (tset m' k v') := by
  have insert_keys : ∀ {m m' : TMap α}, tkeys m = tkeys m' → tkeys (tinsert m k v) = tkeys (tinsert m' k v') := by
    intro m
    induction m with
    | nil => intro m' h; cases m' with
      | nil => rfl
      | cons e r => simp [tkeys] at h
    | cons e r ih => intro m' h; cases m' with
      | nil => simp [tkeys] at h
      | cons e' r' =>
        simp only [tkeys, List.map_cons, List.cons.injEq] at h
        unfold tinsert
        rw [h.1]
        split
        · simp [tkeys, h]
        · simpa [tkeys, h] using ih h.2
  have erase_keys : ∀ m : TMap α, tkeys (terase m k) = (tkeys m).filter (· != k) := by
    intro m
    simp [tkeys, terase, List.filter_map, Function.comp_def]
  exact insert_keys (by rw [erase_keys, erase_keys, h])

/-! ## The cores of a cluster -/

theorem mem_clusterCores {c i : Nat} : i ∈ clusterCores c ↔ i / 8 = c := by
  simp only [clusterCores, Config.coresPerCluster, List.mem_map, List.mem_range]
  constructor
  · rintro ⟨k, hk, rfl⟩; omega
  · intro h; exact ⟨i % 8, by omega, by omega⟩

theorem clusterCores_nodup (c : Nat) : (clusterCores c).Nodup :=
  List.nodup_range.map (fun _ _ h => Nat.add_left_cancel h)

theorem clusterCores_length (c : Nat) : (clusterCores c).length = 8 := by simp [clusterCores, Config.coresPerCluster]

theorem partnerOf_ne (c : Nat) : partnerOf c ≠ c := by unfold partnerOf; split <;> omega

/-- One change made to the purses of distinct cores: each is changed once, from what it was. -/
theorem coreAt_foldl_modPurse (f : Purse → Purse) (l : List Nat) (hl : l.Nodup) (s : State) (i : Nat) :
    coreAt (l.foldl (fun s c => modPurse s c f) s) i = if i ∈ l then { coreAt s i with purse := f (coreAt s i).purse } else coreAt s i := by
  induction l generalizing s with
  | nil => simp
  | cons c r ih =>
    obtain ⟨hc, hr⟩ := List.nodup_cons.1 hl
    rw [List.foldl_cons, ih hr]
    by_cases h : i = c
    · subst h; simp [hc]
    · simp [h, coreAt_modPurse_ne]

theorem clusterAt_foldl_modPurse (f : Purse → Purse) (l : List Nat) (s : State) (c : Nat) :
    clusterAt (l.foldl (fun s c => modPurse s c f) s) c = clusterAt s c :=
  foldl_keeps (fun s c => modPurse s c f) (clusterAt · c) (fun _ _ => rfl) l s

theorem mem_foldl_modPurse (f : Purse → Purse) (l : List Nat) (s : State) : (l.foldl (fun s c => modPurse s c f) s).mem = s.mem :=
  foldl_keeps (fun s c => modPurse s c f) (·.mem) (fun _ _ => rfl) l s

/-! ## What levels depend on -/

theorem sumCores_congr {s t : State} {c : Nat} (f : Purse → Nat) (h : ∀ i ∈ clusterCores c, coreAt t i = coreAt s i) :
    sumCores t c f = sumCores s c f :=
  List.foldl_ext _ _ _ (fun _ i hi => by rw [h i hi])

theorem curOf_congr {s t : State} {c : Nat} (hcore : ∀ i ∈ clusterCores c, coreAt t i = coreAt s i)
    (hcur : (clusterAt t c).cur = (clusterAt s c).cur) (hhold : (clusterAt t c).holdings = (clusterAt s c).holdings)
    (hpast : (clusterAt t c).past = (clusterAt s c).past) : curOf t c = curOf s c := by
  unfold curOf
  rw [sumCores_congr coreWindow hcore, hcur, hhold, hpast]

theorem ringSum_congr {s t : State} (hk : tkeys t.clusters = tkeys s.clusters) (h : ∀ c, curOf t c = curOf s c) : ringSum t = ringSum s := by
  unfold ringSum
  rw [hk]
  exact List.foldl_ext _ _ _ (fun _ c _ => by rw [h c])

end Sys2Proof.Machine
end

section
/-! SUPPORT. Windows, ramps, bursts, ring claims, operating points, registers and timed steps: what each event does to the state that
meets its condition (16 R345, R348, R351-R353, R357-R359, 05 R106, 04 R95). -/

namespace Sys2Proof.Machine

/-! ## Windows (16 R345, R346) -/

/-- A window that rolls sets every allowance of its cluster anew, and no other core's. -/
theorem coreAt_rollWindow {s : State} {c : Nat} (hd : (clusterAt s c).boundaryDue = true) (i : Nat) :
    coreAt (rollWindow s c) i =
      if i ∈ clusterCores c then { coreAt s i with purse := rollPurse (coreAt s i).purse } else coreAt s i := by
  unfold rollWindow
  simp only [hd, Bool.not_true, Bool.false_eq_true, if_false, coreAt_noteCur, coreAt_modCluster]
  exact coreAt_foldl_modPurse rollPurse _ (clusterCores_nodup c) s i

theorem clusterAt_rollWindow_ne (s : State) {c e : Nat} (h : e ≠ c) : clusterAt (rollWindow s c) e = clusterAt s e := by
  unfold rollWindow
  dsimp only
  split
  · rfl
  · rw [clusterAt_noteCur_ne _ h, clusterAt_modCluster_ne _ _ h, clusterAt_foldl_modPurse]

theorem rollWindow_mem (s : State) (c : Nat) : (rollWindow s c).mem = s.mem := by
  unfold rollWindow
  dsimp only
  split
  · rfl
  · exact mem_foldl_modPurse rollPurse (clusterCores c) s

theorem clusterAt_rollWindow_same {s : State} {c : Nat} (hd : (clusterAt s c).boundaryDue = true) :
    (clusterAt (rollWindow s c) c).boundaryDue = false ∧ (clusterAt (rollWindow s c) c).prev = curOf s c ∧
      (clusterAt (rollWindow s c) c).peakAdmitted = 0 := by
  unfold rollWindow
  simp [hd]

/-- The window of a cluster that rolls leaves its partner's level as it stands. -/
theorem curOf_partner_rollWindow {s : State} {c : Nat} (hd : (clusterAt s c).boundaryDue = true) :
    curOf (rollWindow s c) (partnerOf c) = curOf s (partnerOf c) := by
  have hk := clusterAt_rollWindow_ne s (partnerOf_ne c)
  refine curOf_congr (fun i hi => ?_) (by rw [hk]) (by rw [hk]) (by rw [hk])
  rw [coreAt_rollWindow hd, if_neg]
  intro hc
  exact partnerOf_ne c ((mem_clusterCores.1 hi).symm.trans (mem_clusterCores.1 hc))

theorem windowBoundary_of_due {s : State} {c : Nat} (hd : (clusterAt s c).boundaryDue = true) :
    windowBoundary s c = rollWindow (rollWindow s c) (partnerOf c) := by simp [windowBoundary, hd]

theorem windowBoundary_cluster {s : State} {c : Nat} (hd : (clusterAt s c).boundaryDue = true) :
    (clusterAt (windowBoundary s c) c).boundaryDue = false ∧ (clusterAt (windowBoundary s c) c).prev = curOf s c ∧
      (clusterAt (windowBoundary s c) c).peakAdmitted = 0 := by
  rw [windowBoundary_of_due hd, clusterAt_rollWindow_ne _ (partnerOf_ne c).symm]
  exact clusterAt_rollWindow_same hd

theorem windowBoundary_partner {s : State} {c : Nat} (hd : (clusterAt s c).boundaryDue = true)
    (hp : (clusterAt s (partnerOf c)).boundaryDue = true) :
    (clusterAt (windowBoundary s c) (partnerOf c)).prev = curOf s (partnerOf c) := by
  have hp' : (clusterAt (rollWindow s c) (partnerOf c)).boundaryDue = true := by rw [clusterAt_rollWindow_ne s (partnerOf_ne c), hp]
  rw [windowBoundary_of_due hd, (clusterAt_rollWindow_same hp').2.1, curOf_partner_rollWindow hd]

theorem rollWindow_core_other (s : State) {c i : Nat} (h : i ∉ clusterCores c) : coreAt (rollWindow s c) i = coreAt s i := by
  cases hd : (clusterAt s c).boundaryDue with
  | true => rw [coreAt_rollWindow hd, if_neg h]
  | false => simp [rollWindow, hd]

theorem windowBoundary_purse {s : State} {c i : Nat} (hd : (clusterAt s c).boundaryDue = true) (hi : i < 8) :
    (coreAt (windowBoundary s c) (c * 8 + i)).purse = rollPurse (coreAt s (c * 8 + i)).purse := by
  have hc : c * 8 + i ∈ clusterCores c := mem_clusterCores.2 (by omega)
  have hp : c * 8 + i ∉ clusterCores (partnerOf c) := fun h =>
    partnerOf_ne c ((mem_clusterCores.1 h).symm.trans (mem_clusterCores.1 hc))
  rw [windowBoundary_of_due hd, rollWindow_core_other _ hp, coreAt_rollWindow hd, if_pos hc]

theorem windowBoundary_mem (s : State) (c : Nat) : (windowBoundary s c).mem = s.mem := by
  unfold windowBoundary
  split
  · rfl
  · rw [rollWindow_mem, rollWindow_mem]

/-! ## Ramps and bursts (16 R351-R353) -/

theorem rampStep_climbs {s : State} {core : Nat} (hf : s.supervisor.freeze = false) (hp : 4 ≤ (coreAt s core).purse.rampPhase)
    (hm : (coreAt s core).purse.mode = .ramping ∨ (coreAt s core).purse.mode = .bursting)
    (ht : (coreAt s core).purse.unitLevel < (coreAt s core).purse.target) :
    rampStep s core = noteCur (modPurse s core
      (fun p => noteUnit { p with unitLevel := Nat.min p.target (p.unitLevel + 4), rampPhase := 0 })) (clusterOf core) := by
  have hc : climbing (coreAt s core).purse = true := by rcases hm with hm | hm <;> simp [climbing, hm, ht]
  simp [rampStep, hf, hc, Nat.not_lt.2 hp]

@[simp] theorem startRampDown_mem (s : State) (core : Nat) : (startRampDown s core).mem = s.mem := by simp [startRampDown]

/-- The purse of a unit that ramps down: 4 fares less, and idle at 0. -/
theorem startRampDown_purse (s : State) (core : Nat) :
    (coreAt (startRampDown s core) core).purse =
      { (coreAt s core).purse with
        mode := if (coreAt s core).purse.unitLevel - 4 = 0 then .idle else .rampingDown
        target := 0
        unitLevel := (coreAt s core).purse.unitLevel - 4
        rampPhase := 0
        fell := true } := by
  simp [startRampDown, noteFall]

theorem rampDown_falls {s : State} {core : Nat} (hf : s.supervisor.freeze = false) (hp : 4 ≤ (coreAt s core).purse.rampPhase)
    (hm : (coreAt s core).purse.mode = .rampingDown) : rampDown s core = startRampDown s core := by
  simp [rampDown, hf, hm, Nat.not_lt.2 hp]

theorem burstLapse_ends {s : State} {core : Nat} (hb : (coreAt s core).purse.burst ≠ 0)
    (hw : (clusterAt s (core / 8)).burstMax ≤ (coreAt s core).purse.burstWindows) : burstLapse s core = endBurst s core := by
  unfold burstLapse
  rw [if_neg]
  rintro (h | h)
  · exact hb h
  · exact absurd (Nat.lt_of_lt_of_le h hw) (Nat.lt_irrefl _)

theorem endBurst_effect (s : State) (core : Nat) : (coreAt (endBurst s core) core).purse.burst = 0 ∧ (endBurst s core).mem = s.mem := by
  unfold endBurst
  dsimp only
  split
  · next h => exact ⟨h, rfl⟩
  · split
    · simp [startRampDown_purse]
    · simp

/-! ## Ring claims (16 R357) -/

/-- A claim takes the place before the first that its cycle and cluster precede. -/
theorem addRingClaim_split (k : RingClaim) (l : List RingClaim) :
    ∃ pre post, l = pre ++ post ∧ addRingClaim k l = pre ++ k :: post ∧ (∀ d ∈ pre, ¬(d.made = k.made ∧ k.cluster < d.cluster)) ∧
      ∀ d, post.head? = some d → d.made = k.made ∧ k.cluster < d.cluster := by
  induction l with
  | nil => exact ⟨[], [], rfl, rfl, by simp, by simp⟩
  | cons e r ih =>
    unfold addRingClaim
    split
    · next h => exact ⟨[], e :: r, rfl, rfl, by simp, by simpa using h⟩
    · next h =>
      obtain ⟨pre, post, hr, ha, hpre, hpost⟩ := ih
      exact ⟨e :: pre, post, by rw [hr]; rfl, by rw [ha]; rfl, List.forall_mem_cons.2 ⟨h, hpre⟩, hpost⟩

theorem mem_addRingClaim {k x : RingClaim} {l : List RingClaim} : x ∈ addRingClaim k l ↔ x = k ∨ x ∈ l := by
  obtain ⟨pre, post, hl, ha, -⟩ := addRingClaim_split k l
  rw [ha, hl]
  simp only [List.mem_append, List.mem_cons]
  tauto

/-- The claim of a reservation of a cluster, made now. -/
def claimOf (s : State) (c : Nat) (r : Resv) : RingClaim := { cluster := c, unit := r.unit, made := s.fe }

/-- RING_CLAIM changes the claims alone: those due are added one by one. -/
theorem ringClaim_eq (s : State) (c : Nat) :
    ringClaim s c = { s with ring := { s.ring with
      claims := ((clusterAt s c).fareResv.filter (claimDue s c)).foldl (fun l r => addRingClaim (claimOf s c r) l) s.ring.claims } } := by
  have fold_claims : ∀ (l : List Resv) (cs : List RingClaim),
      l.foldl (fun (t : State) r =>
          { t with ring := { t.ring with claims := addRingClaim { cluster := c, unit := r.unit, made := t.fe } t.ring.claims } })
        { s with ring := { s.ring with claims := cs } } =
      { s with ring := { s.ring with claims := l.foldl (fun l r => addRingClaim (claimOf s c r) l) cs } } := by
    intro l
    induction l with
    | nil => intro cs; rfl
    | cons r l ih => intro cs; exact ih _
  exact fold_claims _ s.ring.claims

theorem mem_foldl_addRingClaim {s : State} {c : Nat} {x : RingClaim} (l : List Resv) (cs : List RingClaim) :
    x ∈ l.foldl (fun l r => addRingClaim (claimOf s c r) l) cs ↔ (∃ r ∈ l, x = claimOf s c r) ∨ x ∈ cs := by
  induction l generalizing cs with
  | nil => simp
  | cons r l ih =>
    rw [List.foldl_cons, ih, mem_addRingClaim]
    simp only [List.mem_cons, exists_eq_or_imp]
    rw [or_left_comm, or_assoc]

/-- A reservation whose bound has passed has its claim afterwards: one made before, or the one made now. -/
theorem ringClaim_of_due {s : State} {c : Nat} {r : Resv} (hr : r ∈ (clusterAt s c).fareResv)
    (hd : starvOf (ctxAt s (teamAt s r.unit.team).ctx) < clusterCyc s c - r.taken) :
    ∃ k ∈ (ringClaim s c).ring.claims, k.cluster = c ∧ k.unit = r.unit := by
  rw [ringClaim_eq]
  by_cases hm : ∃ k ∈ s.ring.claims, k.cluster = c ∧ k.unit = r.unit
  · obtain ⟨k, hk, h⟩ := hm
    exact ⟨k, (mem_foldl_addRingClaim _ _).2 (.inr hk), h⟩
  · have hdue : claimDue s c r = true := by simpa [claimDue, hd] using hm
    exact ⟨claimOf s c r, (mem_foldl_addRingClaim _ _).2 (.inl ⟨r, List.mem_filter.2 ⟨hr, hdue⟩, rfl⟩), rfl, rfl⟩

/-- A cluster's one reservation makes its claim in its place. -/
theorem ringClaim_single {s : State} {c : Nat} {r : Resv} (hr : (clusterAt s c).fareResv = [r])
    (hd : starvOf (ctxAt s (teamAt s r.unit.team).ctx) < clusterCyc s c - r.taken)
    (hn : ∀ k ∈ s.ring.claims, k.cluster = c → k.unit ≠ r.unit) :
    (ringClaim s c).ring.claims = addRingClaim (claimOf s c r) s.ring.claims := by
  have hdue : claimDue s c r = true := by simpa [claimDue, hd] using hn
  rw [ringClaim_eq, hr]
  simp [hdue]

/-! ## Operating points and gating (16 R358, R359) -/

/-- Clusters of a pair whose levels of the last window count no more. -/
def prevCleared (s : State) (p : Nat) : State :=
  modCluster (modCluster s (2 * p) (fun k => { k with prev := 0 })) (2 * p + 1) (fun k => { k with prev := 0 })

theorem prevCleared_prev (s : State) (p : Nat) :
    (clusterAt (prevCleared s p) (2 * p)).prev = 0 ∧ (clusterAt (prevCleared s p) (2 * p + 1)).prev = 0 := by
  unfold prevCleared
  rw [clusterAt_modCluster_ne _ _ (by omega), clusterAt_modCluster_same, clusterAt_modCluster_same]
  exact ⟨rfl, rfl⟩

/-- A state with a pair's operating point applied. -/
def pointApplied (s : State) (p mhz : Nat) : State :=
  { prevCleared (modPair s p (fun x => { x with mhz := mhz, pending := none })) p with
    contexts := tmap (fun _ x => rescale p (pairAt s p).mhz mhz x) s.contexts }

theorem exec_quiescePoint {s : State} {p mhz : Nat} (hm : (pairAt s p).pending = some mhz) (hc : crossing s p = false) :
    exec (.quiescePoint p) s = .next (pointApplied s p mhz) := by
  change execQuiescePoint p s = _
  simp [execQuiescePoint, pointApplied, prevCleared, hm, hc]

theorem pairAt_pointApplied (s : State) (p mhz : Nat) : pairAt (pointApplied s p mhz) p = { mhz := mhz, pending := none } :=
  pairAt_modPair_same s p (fun x => { x with mhz := mhz, pending := none })

theorem pointApplied_prev (s : State) (p mhz : Nat) :
    (clusterAt (pointApplied s p mhz) (2 * p)).prev = 0 ∧ (clusterAt (pointApplied s p mhz) (2 * p + 1)).prev = 0 :=
  prevCleared_prev (modPair s p (fun x => { x with mhz := mhz, pending := none })) p

theorem ctxAt_pointApplied {s : State} {c : Nat} {x : Context} (p mhz : Nat) (hx : tget? s.contexts c = some x) :
    ctxAt (pointApplied s p mhz) c = rescale p (pairAt s p).mhz mhz x := by
  simp [ctxAt, tget, pointApplied, tget?_tmap, hx]

/-- The ceiling of a quotient by its own bound less one, of a bound 0 as well. -/
theorem ceilDiv_eq (a b : Nat) : ceilDiv a b = (a + (b - 1)) / b := by
  unfold ceilDiv
  cases b with
  | zero => simp
  | succ n => rfl

theorem rescale_counting {p old new : Nat} {x : Context} (hc : x.counting = true) (hp : x.rootCluster / 2 = p) :
    (rescale p old new x).dlrem = (x.dlrem * new + (old - 1)) / old := by
  simp [rescale, hc, pairOf, hp, ceilDiv_eq]

theorem rescale_timed {old new : Nat} {x : Context} (hc : x.counting = false) (ht : x.timed = true) :
    (rescale 0 old new x).dlrem = (x.dlrem * new + (old - 1)) / old := by
  simp [rescale, hc, ht, ceilDiv_eq]

theorem rescale_other {p old new : Nat} {x : Context} (hc : x.counting = false) (h : x.timed = false ∨ p ≠ 0) : rescale p old new x = x := by
  rcases h with h | h <;> simp [rescale, hc, h]

/-! ## Registers (16 R348) -/

theorem nearest_eq {lo hi : Nat} (h : lo ≤ hi) (n : Nat) : nearest lo hi n = if n < lo then lo else if hi < n then hi else n := by
  unfold nearest
  have e : ∀ a b : Nat, Nat.max a b = max a b ∧ Nat.min a b = min a b := fun _ _ => ⟨rfl, rfl⟩
  simp only [e]
  split
  · omega
  · split <;> omega

/-- A field of the fare block written: that cluster's, and no other's. -/
theorem fareBlock_put {s : State} {c : Nat} (hc : c < 24) (f : Cluster → Cluster) :
    clusterAt (fareBlock s c f) c = f (clusterAt s c) ∧ ∀ d, d ≠ c → clusterAt (fareBlock s c f) d = clusterAt s d := by
  unfold fareBlock
  rw [if_pos (show c < Config.clusters from hc)]
  exact ⟨clusterAt_modCluster_same .., fun d hd => clusterAt_modCluster_ne s f hd⟩

/-! ## Ageing and forced steps (15 R325, 05 R106, 04 R95) -/

theorem queueAgeing_effect (s : State) (q : Nat) :
    ∃ t, exec (.queueAgeing q) s = .next t ∧ queueAt t q = risen (queueAt s q) ∧ ∀ r, r ≠ q → queueAt t r = queueAt s r := by
  refine ⟨_, rfl, ?_⟩
  split
  · next h => exact ⟨h.symm, fun _ _ => rfl⟩
  · exact ⟨queueAt_modQueue_same .., fun r hr => queueAt_modQueue_ne s risen hr⟩

/-- A release step, then an acquire step: the new cut is home memory, and nothing of the core's own stands over it. -/
theorem arStep_effect (s : State) (core : Nat) :
    (arStep s core).mem = (releaseStep s core).mem ∧ (coreAt (arStep s core) core).cut = (arStep s core).mem ∧
      (coreAt (arStep s core) core).own = [] ∧ (coreAt (arStep s core) core).eng = [] ∧
      (coreAt (arStep s core) core).sinceAcquire = 0 := by
  simp [arStep, acquireStep]

/-- The L1 part moves by at most one step of 32 KiB, never below its floor nor beyond what the carves leave of the array. -/
theorem shiftL1_bounds (l carves floor n g k : Nat) :
    (shiftL1 l carves floor n g k = l ∨ shiftL1 l carves floor n g k = l + 32768 ∨ shiftL1 l carves floor n g k + 32768 = l) ∧
      (floor ≤ l → floor ≤ shiftL1 l carves floor n g k) ∧
      (l + carves ≤ Config.unifiedBytes → shiftL1 l carves floor n g k + carves ≤ Config.unifiedBytes) := by
  unfold shiftL1
  split
  · omega
  · split <;> omega

end Sys2Proof.Machine
end

section
/-! SUPPORT. FARE_GRANT: the clusters that draw before change nothing that a request is judged by, and what judging the one request of a
word comes to (16 R346, R349). -/

namespace Sys2Proof.Machine

open Sys2Proof.Claims

/-! ## States that differ in requests and their judging alone -/

/-- A state that differs from another in its clusters' requests and judged marks alone: every level and limit is the same. -/
def SameFares (s t : State) : Prop :=
  t = { s with clusters := t.clusters } ∧ tkeys t.clusters = tkeys s.clusters ∧
  ∀ e, clusterAt t e = { clusterAt s e with judged := (clusterAt t e).judged, requests := (clusterAt t e).requests }

namespace SameFares

theorem refl (s : State) : SameFares s s := ⟨rfl, rfl, fun _ => rfl⟩

/-- Requests and marks of a listed cluster changed. -/
theorem modCluster {s t : State} (h : SameFares s t) {c : Nat} (hk : ∀ v, tkeys (tset s.clusters c v) = tkeys s.clusters)
    (f : Cluster → Cluster) (hf : ∀ k, f k = { k with judged := (f k).judged, requests := (f k).requests }) :
    SameFares s (modCluster t c f) := by
  obtain ⟨hs, hkeys, hcl⟩ := h
  refine ⟨by rw [Machine.modCluster, hs], (tkeys_tset_congr hkeys c _ _).trans (hk (clusterAt s c)), fun e => ?_⟩
  rw [clusterAt_modCluster]
  split
  · next he => rw [hf, hcl c, he]
  · exact hcl e

variable {s t : State} (h : SameFares s t)
include h

theorem cores_eq : t.cores = s.cores := by rw [h.1]
theorem teams_eq : t.teams = s.teams := by rw [h.1]
theorem ring_eq : t.ring = s.ring := by rw [h.1]
theorem supervisor_eq : t.supervisor = s.supervisor := by rw [h.1]
theorem coreAt_eq (i : Nat) : coreAt t i = coreAt s i := by rw [coreAt, h.cores_eq, coreAt]

/-- A figure of a cluster that neither its requests nor its mark tell. -/
theorem cluster_eq {β : Type} (p : Cluster → β) (hp : ∀ k j rs, p { k with judged := j, requests := rs } = p k) (e : Nat) :
    p (clusterAt t e) = p (clusterAt s e) := by rw [h.2.2 e, hp]

theorem curOf_eq (e : Nat) : curOf t e = curOf s e :=
  curOf_congr (fun i _ => h.coreAt_eq i) (h.cluster_eq (·.cur) (fun _ _ _ => rfl) e) (h.cluster_eq (·.holdings) (fun _ _ _ => rfl) e)
    (h.cluster_eq (·.past) (fun _ _ _ => rfl) e)

theorem climOf_eq (e : Nat) : climOf t e = climOf s e := by
  unfold climOf
  rw [h.cluster_eq (·.clim) (fun _ _ _ => rfl) e, h.cluster_eq (·.clim) (fun _ _ _ => rfl) (partnerOf e)]

theorem ringSum_eq : ringSum t = ringSum s := ringSum_congr h.2.1 h.curOf_eq

theorem canPay_eq (core p : Nat) : canPay t core p = canPay s core p := by rw [canPay, h.coreAt_eq, canPay]

theorem shortfall_eq (core p : Nat) : shortfall t core p = shortfall s core p := by rw [shortfall, h.coreAt_eq, shortfall]

theorem unitAt_eq (u : UnitId) : unitAt t u = unitAt s u := by rw [unitAt, teamAt, h.teams_eq, unitAt, teamAt]

end SameFares

/-! ## Clusters that draw before -/

/-- The clusters that draw before a cluster are others of the device. -/
theorem drawOrder_split (s : State) {c : Nat} (hc : c < 24) : ∃ before, drawOrder s c = before ++ [c] ∧ ∀ e ∈ before, e < 24 ∧ e ≠ c := by
  have hpairs : ∀ i, i < (pairOf c + Config.pairs - s.ring.pairPtr) % Config.pairs →
      (s.ring.pairPtr + i) % Config.pairs < 12 ∧ (s.ring.pairPtr + i) % Config.pairs ≠ c / 2 := by
    simp only [Config.pairs, pairOf]
    intro i hi
    omega
  have hbefore : ∀ e ∈ (List.range ((pairOf c + Config.pairs - s.ring.pairPtr) % Config.pairs)).flatMap (fun i =>
      [2 * ((s.ring.pairPtr + i) % Config.pairs), 2 * ((s.ring.pairPtr + i) % Config.pairs) + 1]), e < 24 ∧ e ≠ c := by
    intro e he
    obtain ⟨i, hi, he⟩ := List.mem_flatMap.1 he
    have hp := hpairs i (List.mem_range.1 hi)
    simp only [List.mem_cons, List.not_mem_nil, or_false] at he
    omega
  unfold drawOrder
  dsimp only
  split
  · exact ⟨_, rfl, hbefore⟩
  · next hodd =>
    refine ⟨_ ++ [c - 1], by rw [List.append_assoc]; rfl, fun e he => ?_⟩
    rcases List.mem_append.1 he with he | he
    · exact hbefore e he
    · have he := List.mem_singleton.1 he
      omega

/-- A pair without falls has none to judge. -/
theorem holdFalls_of_no_fall {s : State} (h : ∀ e, (clusterAt s e).fell = false) (p : Nat) : holdFalls s p = s := by
  simp [holdFalls, h]

/-- A cluster that neither asks nor skims draws nothing. -/
theorem purseStep_idle {s : State} {c : Nat} (hr : (clusterAt s c).requests = []) (hb : (clusterAt s c).balSkimming = false)
    (hf : ∀ e, (clusterAt s e).fell = false) :
    purseStep s c = if (clusterAt s c).judged then s else modCluster s c (fun k => { k with judged := true }) := by
  unfold purseStep
  split
  · rfl
  · simp [holdFalls_of_no_fall hf, hr, hb, judges]

/-- While clusters that do not ask draw, levels stay, and so does the cluster that asks. -/
theorem foldl_purseStep_idle {s : State} {c : Nat} (hf : ∀ e, (clusterAt s e).fell = false) (hb : ∀ e, (clusterAt s e).balSkimming = false)
    (hr : ∀ e, e ≠ c → (clusterAt s e).requests = []) (hk : ∀ e, e < 24 → ∀ v, tkeys (tset s.clusters e v) = tkeys s.clusters)
    (l : List Nat) (hl : ∀ e ∈ l, e < 24 ∧ e ≠ c) :
    ∀ t, SameFares s t → clusterAt t c = clusterAt s c → (∀ e, (clusterAt t e).requests = (clusterAt s e).requests) →
      SameFares s (l.foldl purseStep t) ∧ clusterAt (l.foldl purseStep t) c = clusterAt s c := by
  induction l with
  | nil => exact fun t ht hc _ => ⟨ht, hc⟩
  | cons e l ih =>
    intro t ht hc hreq
    obtain ⟨⟨he, hec⟩, hl'⟩ := List.forall_mem_cons.1 hl
    have hstep : purseStep t e = _ := purseStep_idle ((hreq e).trans (hr e hec))
      ((ht.cluster_eq (·.balSkimming) (fun _ _ _ => rfl) e).trans (hb e)) (fun x => (ht.cluster_eq (·.fell) (fun _ _ _ => rfl) x).trans (hf x))
    rw [List.foldl_cons, hstep]
    split
    · exact ih hl' t ht hc hreq
    · refine ih hl' _ (ht.modCluster (hk e he) _ (fun _ => rfl)) ?_ (fun x => ?_)
      · rw [clusterAt_modCluster_ne _ _ (Ne.symm hec), hc]
      · exact (modCluster_keeps (·.requests) t e x _ (by intro; rfl)).trans (hreq x)

/-! ## A word's request -/

/-- The checks of a word's request where no ring claim stands and the partner is not gated. -/
theorem failedCheck_word {s : State} {c : Nat} {r : FareReq} (hv : r.vector = true) (hm : r.matrix = false) (hcl : s.ring.claims = [])
    (hg : (clusterAt s (partnerOf c)).gated = false) :
    failedCheck s c r =
      if climOf s c < curOf s c + r.fares then some 1
      else if s.ring.ringTot < ringSum s + r.fares then some 3
      else if Nat.min (climOf s c) ((clusterAt s c).prev + (clusterAt s c).stepLimit) < curOf s c + r.fares then some 4
      else if balanced (curOf s c + r.fares) (curOf s (partnerOf c)) then none else some 5 := by
  simp [failedCheck, addOf, ringClosed, hv, hm, hcl, hg]

/-- A word's request stands while its purse cannot pay. -/
theorem reqStands_word {s : State} {r : FareReq} {u : UnitId} (hu : r.unit = some u) (ht : thas s.teams u.team = true)
    (hl : (unitAt s u).retired = false) (hb : r.burstReq = false) : reqStands s r = !canPay s r.core r.price := by
  simp [reqStands, hu, ht, hl, hb]

/-- The state that judging has come to, with its denials counted (16 R349). -/
def counted (j : Judged) (c : Nat) : State :=
  modCluster j.s c (fun k =>
    { k with govCnt := if j.gov then satInc k.govCnt else k.govCnt, balCnt := if j.bal then satInc k.balCnt else k.balCnt })

/-- A cluster whose requests are one judges that one. -/
theorem judgeCluster_single {s : State} {c : Nat} {r : FareReq} (hr : (clusterAt s c).requests = [r]) :
    judgeCluster s c = counted (judgeReq c { s := modCluster s c (fun k => { k with requests := [] }) } r) c := by
  simp [judgeCluster, counted, hr, sortBy, insertBy]

/-- A cluster's step where nothing falls and nothing is to be skimmed: its requests are judged. -/
theorem purseStep_judges {s : State} {c : Nat} {r : FareReq} (hj : (clusterAt s c).judged = false) (hg : (clusterAt s c).gated = false)
    (hz : s.supervisor.freeze = false) (hr : (clusterAt s c).requests = [r]) (hbal : r.balance < (clusterAt s c).bdb)
    (hb : (clusterAt s c).balSkimming = false) (hf : ∀ e, (clusterAt s e).fell = false) :
    purseStep s c = holdFalls (judgeCluster (modCluster s c (fun k => { k with judged := true })) c) (pairOf c) := by
  have hskim : skimStep (modCluster s c (fun k => { k with judged := true })) c = modCluster s c (fun k => { k with judged := true }) := by
    simp [skimStep, hg, hz, hr, hb, Nat.not_le.2 hbal]
  have hjudges : judges (modCluster s c (fun k => { k with judged := true })) c = true := by simp [judges, hg, hz, hr]
  unfold purseStep
  simp [hj, holdFalls_of_no_fall hf, hr, hskim, hjudges]

/-- What a word's one request meets in its cluster: the request of a live unit, and nothing that keeps it back (16 R349). -/
structure WordAsks (s : State) (c : Nat) (r : FareReq) (u : UnitId) : Prop where
  vector : r.vector = true
  matrix : r.matrix = false
  burst : r.burstReq = false
  unit : r.unit = some u
  team : thas s.teams u.team = true
  live : (unitAt s u).retired = false
  unreserved : (clusterAt s c).fareResv = []
  partner : (clusterAt s (partnerOf c)).gated = false
  unclaimed : s.ring.claims = []

namespace WordAsks

theorem of_sameFares {s t : State} {c : Nat} {r : FareReq} {u : UnitId} (hw : WordAsks s c r u) (h : SameFares s t) : WordAsks t c r u where
  vector := hw.vector
  matrix := hw.matrix
  burst := hw.burst
  unit := hw.unit
  team := by rw [h.teams_eq]; exact hw.team
  live := by rw [h.unitAt_eq]; exact hw.live
  unreserved := (h.cluster_eq (·.fareResv) (fun _ _ _ => rfl) c).trans hw.unreserved
  partner := (h.cluster_eq (·.gated) (fun _ _ _ => rfl) (partnerOf c)).trans hw.partner
  unclaimed := by rw [h.ring_eq]; exact hw.unclaimed

variable {s : State} {c : Nat} {r : FareReq} {u : UnitId} (hw : WordAsks s c r u)
include hw

/-- The request as it is judged asks for what the purse lacks. -/
theorem reqNow_eq : reqNow s r = { r with fares := shortfall s r.core r.price } := by simp [reqNow, hw.vector]

theorem stands : reqStands s (reqNow s r) = !canPay s r.core r.price := by
  rw [hw.reqNow_eq]
  exact reqStands_word hw.unit hw.team hw.live hw.burst

/-- The checks of the request as it is judged. -/
theorem failedCheck_eq :
    failedCheck s c (reqNow s r) =
      let n := shortfall s r.core r.price
      if climOf s c < curOf s c + n then some 1
      else if s.ring.ringTot < ringSum s + n then some 3
      else if Nat.min (climOf s c) ((clusterAt s c).prev + (clusterAt s c).stepLimit) < curOf s c + n then some 4
      else if balanced (curOf s c + n) (curOf s (partnerOf c)) then none else some 5 := by
  rw [hw.reqNow_eq]
  exact failedCheck_word hw.vector hw.matrix hw.unclaimed hw.partner

/-- A purse that can pay ends the request. -/
theorem judgeReq_paid (hp : canPay s r.core r.price = true) : judgeReq c { s := s } r = { s := s } := by
  simp [judgeReq, hw.stands, hp]

/-- Nothing but its checks keeps a request back that its purse cannot pay for. -/
theorem not_kept_back : ((clusterAt s c).fareResv ≠ [] && !reqReserved s (clusterAt s c) (reqNow s r) ||
    (reqNow s r).burstReq && (coreAt s (reqNow s r).core).matrix.any (fun o => o.granted != 0)) = false := by
  simp [hw.unreserved, hw.reqNow_eq, hw.burst]

/-- A request that meets every check is granted: the fares are the core purse's. -/
theorem judgeReq_granted (hp : canPay s r.core r.price = false) (hc : failedCheck s c (reqNow s r) = none) :
    judgeReq c { s := s } r =
      { s := noteCur (modPurse s r.core (fun p => { p with vector := p.vector + shortfall s r.core r.price })) c } := by
  have hg : grantReq s c (reqNow s r) =
      noteCur (modPurse s r.core (fun p => { p with vector := p.vector + shortfall s r.core r.price })) c := by
    simp [hw.reqNow_eq, grantReq, hw.vector]
  have hl : lowersUnit s (reqNow s r) = false := by simp [hw.reqNow_eq, lowersUnit, hw.matrix]
  simp only [judgeReq, hw.stands, hp, hw.not_kept_back, hc, hg, hl, Bool.not_false, Bool.not_true, Bool.false_eq_true, if_false]

/-- A request that the governor alone refuses is kept, and the refusal shows in GOVSTALL (16 R350). -/
theorem judgeReq_stalled (hp : canPay s r.core r.price = false) (hc : failedCheck s c (reqNow s r) = some 4) :
    judgeReq c { s := s } r =
      { s := modCluster (modCluster s c (fun k => { k with requests := k.requests ++ [{ reqNow s r with balance := 0 }] })) c
          (fun k => { k with govStall := true })
        gov := true } := by
  simp only [judgeReq, hw.stands, hp, hw.not_kept_back, hc, Bool.not_false, Bool.not_true, Bool.false_eq_true, if_false]

/-- A request above its cluster's limit is kept. -/
theorem judgeReq_overLimit (hp : canPay s r.core r.price = false) (hc : failedCheck s c (reqNow s r) = some 1) :
    judgeReq c { s := s } r =
      { s := modCluster s c (fun k => { k with requests := k.requests ++ [{ reqNow s r with balance := 0 }] }) } := by
  simp only [judgeReq, hw.stands, hp, hw.not_kept_back, hc, Bool.not_false, Bool.not_true, Bool.false_eq_true, if_false]

end WordAsks

/-! ## FARE_GRANT of a cluster that alone asks -/

/-- A device with one request, that of a word, and no falls or skims to settle. -/
structure AsksAlone (s : State) (c : Nat) (r : FareReq) (u : UnitId) : Prop where
  word : WordAsks s c r u
  gated : (clusterAt s c).gated = false
  judged : (clusterAt s c).judged = false
  freeze : s.supervisor.freeze = false
  request : (clusterAt s c).requests = [r]
  others : ∀ e, e ≠ c → (clusterAt s e).requests = []
  fell : ∀ e, (clusterAt s e).fell = false
  skims : ∀ e, (clusterAt s e).balSkimming = false
  balance : r.balance < (clusterAt s c).bdb
  bound : c < 24
  keys : ∀ e, e < 24 → ∀ v, tkeys (tset s.clusters e v) = tkeys s.clusters

namespace AsksAlone

variable {s : State} {c : Nat} {r : FareReq} {u : UnitId} (ha : AsksAlone s c r u)
include ha

/-- The request is judged in a state with the same levels and limits. -/
theorem exec_fareGrant : ∃ t, SameFares s t ∧ clusterAt t c = { clusterAt s c with judged := true, requests := [] } ∧
    exec (.fareGrant c) s = .next (holdFalls (counted (judgeReq c { s := t } r) c) (pairOf c)) := by
  obtain ⟨before, hdraw, hbefore⟩ := drawOrder_split s ha.bound
  obtain ⟨hsame, hown⟩ := foldl_purseStep_idle ha.fell ha.skims ha.others ha.keys before hbefore s (.refl s) rfl (fun _ => rfl)
  generalize hd : before.foldl purseStep s = d at hsame hown
  have hasked : (clusterAt d c).requests = [r] := by rw [hown]; exact ha.request
  have hstep : purseStep d c = _ := purseStep_judges (by rw [hown]; exact ha.judged) (by rw [hown]; exact ha.gated)
    (by rw [hsame.supervisor_eq]; exact ha.freeze) hasked (by rw [hown]; exact ha.balance) (by rw [hown]; exact ha.skims c)
    (fun e => (hsame.cluster_eq (·.fell) (fun _ _ _ => rfl) e).trans (ha.fell e))
  have hreq : (clusterAt (modCluster d c (fun k => { k with judged := true })) c).requests = [r] := by
    rw [clusterAt_modCluster_same]; exact hasked
  refine ⟨modCluster (modCluster d c (fun k => { k with judged := true })) c (fun k => { k with requests := [] }),
    (hsame.modCluster (ha.keys c ha.bound) _ (fun _ => rfl)).modCluster (ha.keys c ha.bound) _ (fun _ => rfl), ?_, ?_⟩
  · rw [clusterAt_modCluster_same, clusterAt_modCluster_same, hown]
  · have hj : judges s c = true := by simp [judges, ha.gated, ha.freeze, ha.request]
    change execFareGrant c s = _
    rw [execFareGrant, ha.judged, hj, if_pos (show (!false && true) = true from rfl), hdraw, List.foldl_append, hd,
      List.foldl_cons, List.foldl_nil, hstep, judgeCluster_single hreq]

/-- What judging leaves where it causes no fall. -/
theorem goesTo_counted {post : State → Prop}
    (h : ∀ t, SameFares s t → clusterAt t c = { clusterAt s c with judged := true, requests := [] } → WordAsks t c r u →
      (∀ e, (clusterAt (judgeReq c { s := t } r).s e).fell = (clusterAt t e).fell) ∧ post (counted (judgeReq c { s := t } r) c)) :
    goesTo (.fareGrant c) s post := by
  obtain ⟨t, hsame, hown, he⟩ := ha.exec_fareGrant
  obtain ⟨hfell, hpost⟩ := h t hsame hown (ha.word.of_sameFares hsame)
  refine ⟨_, he, ?_⟩
  rw [holdFalls_of_no_fall]
  · exact hpost
  · intro e
    rw [counted, modCluster_keeps (·.fell) _ _ _ _ (by intro; rfl), hfell]
    exact (hsame.cluster_eq (·.fell) (fun _ _ _ => rfl) e).trans (ha.fell e)

theorem fareGrant_paid (hp : canPay s r.core r.price = true) :
    goesTo (.fareGrant c) s (fun t => (clusterAt t c).requests = [] ∧ t.cores = s.cores ∧ t.teams = s.teams) := by
  refine ha.goesTo_counted (fun t hsame hown hw => ?_)
  rw [hw.judgeReq_paid ((hsame.canPay_eq _ _).trans hp)]
  exact ⟨fun _ => rfl, by simp [counted, hown], hsame.cores_eq, hsame.teams_eq⟩

theorem fareGrant_granted (hp : canPay s r.core r.price = false)
    (hclim : curOf s c + shortfall s r.core r.price ≤ climOf s c) (hring : ringSum s + shortfall s r.core r.price ≤ s.ring.ringTot)
    (hgov : curOf s c + shortfall s r.core r.price ≤ (clusterAt s c).prev + (clusterAt s c).stepLimit)
    (hbal : balanced (curOf s c + shortfall s r.core r.price) (curOf s (partnerOf c)) = true) :
    goesTo (.fareGrant c) s (fun t => (clusterAt t c).requests = [] ∧ (clusterAt t c).judged = true ∧ t.teams = s.teams ∧
      (coreAt t r.core).purse.vector = (coreAt s r.core).purse.vector + shortfall s r.core r.price ∧
      ∀ j, j ≠ r.core → coreAt t j = coreAt s j) := by
  refine ha.goesTo_counted (fun t hsame hown hw => ?_)
  have hn := hsame.shortfall_eq r.core r.price
  have hc : failedCheck t c (reqNow t r) = none := by
    rw [hw.failedCheck_eq]
    simp only [hn, hsame.climOf_eq, hsame.curOf_eq, hsame.ringSum_eq, hsame.ring_eq, hown, Nat.not_lt.2 hclim, Nat.not_lt.2 hring,
      Nat.not_lt.2 (Nat.le_min.2 ⟨hclim, hgov⟩), hbal, if_false, if_true]
  rw [hw.judgeReq_granted ((hsame.canPay_eq _ _).trans hp) hc]
  refine ⟨fun e => modCluster_keeps (·.fell) _ _ e _ (by intro; rfl), by simp [counted, hown], by simp [counted, hown], ?_, ?_, fun j hj => ?_⟩
  · exact hsame.teams_eq
  · simp [counted, hn, hsame.coreAt_eq]
  · simp [counted, coreAt_modPurse_ne _ _ hj, hsame.coreAt_eq]

theorem fareGrant_overLimit (hp : canPay s r.core r.price = false)
    (hclim : climOf s c < curOf s c + shortfall s r.core r.price) :
    goesTo (.fareGrant c) s (fun t => (clusterAt t c).requests = [{ r with fares := shortfall s r.core r.price, balance := 0 }] ∧
      t.cores = s.cores ∧ (clusterAt t c).govCnt = (clusterAt s c).govCnt ∧ (clusterAt t c).govStall = (clusterAt s c).govStall) := by
  refine ha.goesTo_counted (fun t hsame hown hw => ?_)
  have hn := hsame.shortfall_eq r.core r.price
  have hc : failedCheck t c (reqNow t r) = some 1 := by
    rw [hw.failedCheck_eq]
    simp only [hn, hsame.climOf_eq, hsame.curOf_eq, hclim, if_true]
  rw [hw.judgeReq_overLimit ((hsame.canPay_eq _ _).trans hp) hc, hw.reqNow_eq, hn]
  exact ⟨fun e => modCluster_keeps (·.fell) _ _ e _ (by intro; rfl), by simp [counted, hown], hsame.cores_eq, by simp [counted, hown],
    by simp [counted, hown]⟩

theorem fareGrant_stalled (hp : canPay s r.core r.price = false)
    (hclim : curOf s c + shortfall s r.core r.price ≤ climOf s c) (hring : ringSum s + shortfall s r.core r.price ≤ s.ring.ringTot)
    (hgov : (clusterAt s c).prev + (clusterAt s c).stepLimit < curOf s c + shortfall s r.core r.price) :
    goesTo (.fareGrant c) s (fun t => (clusterAt t c).requests = [{ r with fares := shortfall s r.core r.price, balance := 0 }] ∧
      t.cores = s.cores ∧ (clusterAt t c).govStall = true ∧ (clusterAt t c).govCnt = satInc (clusterAt s c).govCnt) := by
  refine ha.goesTo_counted (fun t hsame hown hw => ?_)
  have hn := hsame.shortfall_eq r.core r.price
  have hc : failedCheck t c (reqNow t r) = some 4 := by
    rw [hw.failedCheck_eq]
    simp only [hn, hsame.climOf_eq, hsame.curOf_eq, hsame.ringSum_eq, hsame.ring_eq, hown, Nat.not_lt.2 hclim, Nat.not_lt.2 hring,
      Nat.lt_of_le_of_lt (Nat.min_le_right _ _) hgov, if_false, if_true]
  rw [hw.judgeReq_stalled ((hsame.canPay_eq _ _).trans hp) hc, hw.reqNow_eq, hn]
  refine ⟨fun e => ?_, by simp [counted, hown], hsame.cores_eq, by simp [counted, hown], by simp [counted, hown]⟩
  exact (modCluster_keeps (·.fell) _ _ e _ (by intro; rfl)).trans (modCluster_keeps (·.fell) _ _ e _ (by intro; rfl))

end AsksAlone

end Sys2Proof.Machine
end

section
/-! SUPPORT. BALANCE_SKIM: skims added in steps of 4 come to the skims added at once, so the steps end at the fewest with which the request
meets the rule (16 R354). -/

namespace Sys2Proof.Machine

/-! ## States with the same cores -/

/-- States that differ in how their cores are listed alone: every core reads the same. -/
def CoresAgree (s t : State) : Prop := t = { s with cores := t.cores } ∧ ∀ i, coreAt t i = coreAt s i

namespace CoresAgree

theorem refl (s : State) : CoresAgree s s := ⟨rfl, fun _ => rfl⟩

theorem symm {s t : State} (h : CoresAgree s t) : CoresAgree t s := ⟨by rw [h.1], fun i => (h.2 i).symm⟩

theorem trans {s t u : State} (h : CoresAgree s t) (k : CoresAgree t u) : CoresAgree s u :=
  ⟨by rw [k.1, h.1], fun i => (k.2 i).trans (h.2 i)⟩

variable {s t : State} (h : CoresAgree s t)
include h

theorem clusters_eq : t.clusters = s.clusters := by rw [h.1]

theorem clusterAt_eq (c : Nat) : clusterAt t c = clusterAt s c := by rw [clusterAt, h.clusters_eq, clusterAt]

theorem curOf_eq (c : Nat) : curOf t c = curOf s c :=
  curOf_congr (fun i _ => h.2 i) (by rw [h.clusterAt_eq]) (by rw [h.clusterAt_eq]) (by rw [h.clusterAt_eq])

theorem ringSum_eq : ringSum t = ringSum s := ringSum_congr (by rw [h.clusters_eq]) h.curOf_eq

theorem addOf_eq (r : FareReq) : addOf t r = addOf s r := by rw [addOf, h.2, addOf]

theorem modPurse (c : Nat) (f : Purse → Purse) : CoresAgree (modPurse s c f) (modPurse t c f) := by
  refine ⟨by rw [Machine.modPurse, modCore, h.1]; rfl, fun i => ?_⟩
  rw [coreAt_modPurse, coreAt_modPurse, h.2, h.2]

end CoresAgree

/-! ## Skims on one unit -/

/-- A purse with skims added to its unit. -/
def skimmed (k : Nat) (p : Purse) : Purse := noteUnit { p with balSkim := p.balSkim + k }

@[simp] theorem skimmed_balSkim (k : Nat) (p : Purse) : (skimmed k p).balSkim = p.balSkim + k := rfl

@[simp] theorem unitHeld_skimmed (k : Nat) (p : Purse) : unitHeld (skimmed k p) = unitHeld p + k :=
  (Nat.add_assoc _ _ _).symm

theorem skimmed_skimmed (a b : Nat) (p : Purse) : skimmed b (skimmed a p) = skimmed (a + b) p := by
  have hheld : ∀ k, unitHeld { p with balSkim := p.balSkim + k } = unitHeld p + k := fun k => unitHeld_skimmed k p
  have hnoted : unitHeld { skimmed a p with balSkim := p.balSkim + a + b } = unitHeld p + (a + b) := by
    rw [← hheld, ← Nat.add_assoc]; rfl
  have hmax : Nat.max (Nat.max p.windowLevel (unitHeld p + a)) (unitHeld p + (a + b)) = Nat.max p.windowLevel (unitHeld p + (a + b)) := by
    change max (max _ _) _ = max _ _
    omega
  simp only [skimmed, noteUnit] at hnoted ⊢
  rw [hheld] at hnoted ⊢
  rw [hnoted, hheld, hmax, Nat.add_assoc]

/-- Skims added to one unit twice are those added at once. -/
theorem modPurse_skimmed_twice (s : State) (c a b : Nat) :
    CoresAgree (modPurse s c (skimmed (a + b))) (modPurse (modPurse s c (skimmed a)) c (skimmed b)) := by
  refine ⟨rfl, fun i => ?_⟩
  by_cases h : i = c
  · subst h; simp [skimmed_skimmed]
  · simp [coreAt_modPurse_ne _ _ h]

/-- No skims added to a unit whose window level covers them change nothing. -/
theorem modPurse_skimmed_zero {s : State} {c k : Nat} {p : Purse} (h : (coreAt s c).purse = skimmed k p) :
    CoresAgree s (modPurse s c (skimmed 0)) := by
  refine ⟨rfl, fun i => ?_⟩
  rw [coreAt_modPurse]
  split
  · next hi => rw [hi, h, skimmed_skimmed, Nat.add_zero, ← h]
  · rfl

/-! ## Skims on the units of a list -/

/-- The skims a unit takes of a number: as many as it has room for. -/
def skimRoom (s : State) (c n : Nat) : Nat := Nat.min (64 - unitHeld (coreAt s c).purse) n

@[simp] theorem addSkims_zero (cs : List Nat) (s : State) : addSkims cs 0 s = some s := by cases cs <;> rfl

theorem addSkims_nil {n : Nat} (hn : n ≠ 0) (s : State) : addSkims [] n s = none := by
  cases n with
  | zero => exact absurd rfl hn
  | succ n => rfl

theorem addSkims_cons {n : Nat} (hn : n ≠ 0) (c : Nat) (cs : List Nat) (s : State) :
    addSkims (c :: cs) n s = addSkims cs (n - skimRoom s c n) (modPurse s c (skimmed (skimRoom s c n))) := by
  cases n with
  | zero => exact absurd rfl hn
  | succ n => rfl

theorem skimRoom_le (s : State) (c n : Nat) : skimRoom s c n ≤ n ∧ skimRoom s c n ≤ 64 - unitHeld (coreAt s c).purse :=
  ⟨Nat.min_le_right _ _, Nat.min_le_left _ _⟩

/-- The induction over the units that take skims: a relation that holds where none are left to add and that each unit's skims keep. -/
theorem addSkims_induction {motive : List Nat → Nat → State → State → Prop} (zero : ∀ cs s, motive cs 0 s s)
    (cons : ∀ c cs n s t, n ≠ 0 → addSkims cs (n - skimRoom s c n) (modPurse s c (skimmed (skimRoom s c n))) = some t →
      motive cs (n - skimRoom s c n) (modPurse s c (skimmed (skimRoom s c n))) t → motive (c :: cs) n s t)
    {cs : List Nat} {n : Nat} {s t : State} (h : addSkims cs n s = some t) : motive cs n s t := by
  induction cs generalizing n s with
  | nil =>
    by_cases hn : n = 0
    · subst hn
      rw [addSkims_zero, Option.some.injEq] at h
      exact h ▸ zero [] s
    · rw [addSkims_nil hn] at h
      exact absurd h (by simp)
  | cons c cs ih =>
    by_cases hn : n = 0
    · subst hn
      rw [addSkims_zero, Option.some.injEq] at h
      exact h ▸ zero _ s
    · rw [addSkims_cons hn] at h
      exact cons c cs n s t hn h (ih h)

/-- Skims change the purses of the listed units alone. -/
theorem addSkims_frame {cs : List Nat} {n : Nat} {s t : State} (h : addSkims cs n s = some t) :
    t = { s with cores := t.cores } ∧ ∀ i, i ∉ cs → coreAt t i = coreAt s i := by
  refine addSkims_induction (motive := fun cs _ s t => t = { s with cores := t.cores } ∧ ∀ i, i ∉ cs → coreAt t i = coreAt s i)
    (fun _ _ => ⟨rfl, fun _ _ => rfl⟩) (fun c cs n s t _ _ ih => ⟨ih.1, fun i hi => ?_⟩) h
  rw [List.mem_cons, not_or] at hi
  rw [ih.2 i hi.2, coreAt_modPurse_ne _ _ hi.1]

/-- No unit is raised above 64. -/
theorem addSkims_held {cs : List Nat} {n : Nat} {s t : State} (h : addSkims cs n s = some t) (i : Nat) :
    unitHeld (coreAt s i).purse ≤ 64 → unitHeld (coreAt t i).purse ≤ 64 := by
  refine addSkims_induction (motive := fun _ _ s t => unitHeld (coreAt s i).purse ≤ 64 → unitHeld (coreAt t i).purse ≤ 64)
    (fun _ _ => id) (fun c cs n s t _ _ ih hs => ih ?_) h
  rw [coreAt_modPurse]
  split
  · next hi =>
    have := (skimRoom_le s c n).2
    simp only [unitHeld_skimmed]
    subst hi
    omega
  · exact hs

/-- Skims fit where the units have room: at most 64 on each. -/
theorem addSkims_le {cs : List Nat} {n : Nat} {s t : State} (h : addSkims cs n s = some t) : n ≤ 64 * cs.length := by
  refine addSkims_induction (motive := fun cs n _ _ => n ≤ 64 * cs.length) (fun _ _ => Nat.zero_le _) (fun c cs n s t _ _ ih => ?_) h
  have := (skimRoom_le s c n).2
  rw [List.length_cons]
  omega

/-- The skims of distinct units rise by the number added. -/
theorem addSkims_sum {cs : List Nat} {n : Nat} {s t : State} (hcs : cs.Nodup) (h : addSkims cs n s = some t) :
    (cs.map (fun i => (coreAt t i).purse.balSkim)).sum = (cs.map (fun i => (coreAt s i).purse.balSkim)).sum + n := by
  refine addSkims_induction (motive := fun cs n s t => cs.Nodup →
    (cs.map (fun i => (coreAt t i).purse.balSkim)).sum = (cs.map (fun i => (coreAt s i).purse.balSkim)).sum + n)
    (fun _ _ _ => rfl) (fun c cs n s t _ ht ih hcs => ?_) h hcs
  obtain ⟨hc, hcs⟩ := List.nodup_cons.1 hcs
  have hother : cs.map (fun i => (coreAt (modPurse s c (skimmed (skimRoom s c n))) i).purse.balSkim) =
      cs.map (fun i => (coreAt s i).purse.balSkim) :=
    List.map_congr_left (fun i hi => by rw [coreAt_modPurse_ne _ _ (ne_of_mem_of_not_mem hi hc)])
  have hle := (skimRoom_le s c n).1
  have hown : (coreAt t c).purse.balSkim = (coreAt s c).purse.balSkim + skimRoom s c n := by rw [(addSkims_frame ht).2 c hc]; simp
  rw [List.map_cons, List.map_cons, List.sum_cons, List.sum_cons, ih hcs, hother, hown]
  omega

/-- Skims depend on what the cores read alone. -/
theorem addSkims_agree {cs : List Nat} {n : Nat} {s s' t : State} (hs : CoresAgree s s') (h : addSkims cs n s = some t) :
    ∃ t', addSkims cs n s' = some t' ∧ CoresAgree t t' := by
  refine addSkims_induction (motive := fun cs n s t => ∀ s', CoresAgree s s' → ∃ t', addSkims cs n s' = some t' ∧ CoresAgree t t')
    (fun cs _ s' hs => ⟨s', addSkims_zero cs s', hs⟩) (fun c cs n s t hn _ ih s' hs => ?_) h s' hs
  have hroom : skimRoom s' c n = skimRoom s c n := by rw [skimRoom, hs.2, skimRoom]
  rw [addSkims_cons hn, hroom]
  exact ih _ (hs.modPurse c _)

/-- Skims added at once are those added in two parts. -/
theorem addSkims_add {cs : List Nat} (hcs : cs.Nodup) (a b : Nat) {s t : State} (h : addSkims cs (a + b) s = some t) :
    ∃ u, addSkims cs a s = some u ∧ ∃ t', addSkims cs b u = some t' ∧ CoresAgree t t' := by
  induction cs generalizing a s with
  | nil =>
    have hn : a + b = 0 := by
      by_contra hn
      rw [addSkims_nil hn] at h
      exact absurd h (by simp)
    obtain ⟨rfl, rfl⟩ : a = 0 ∧ b = 0 := by omega
    exact ⟨s, rfl, t, h, .refl t⟩
  | cons c cs ih =>
    obtain ⟨hc, hcs⟩ := List.nodup_cons.1 hcs
    by_cases ha : a = 0
    · subst ha
      rw [Nat.zero_add] at h
      exact ⟨s, addSkims_zero _ s, t, h, .refl t⟩
    by_cases hb : b = 0
    · subst hb
      exact ⟨t, h, t, addSkims_zero _ t, .refl t⟩
    have room : ∀ n, skimRoom s c n = min (64 - unitHeld (coreAt s c).purse) n := fun _ => rfl
    rw [addSkims_cons (by omega)] at h
    rw [addSkims_cons ha]
    by_cases hfit : a ≤ 64 - unitHeld (coreAt s c).purse
    · -- The first part ends on this unit, which takes what it still can of the second.
      rw [room, Nat.min_eq_right hfit, Nat.sub_self, addSkims_zero]
      refine ⟨_, rfl, ?_⟩
      have hroom : skimRoom s c (a + b) = a + skimRoom (modPurse s c (skimmed a)) c b := by
        have : skimRoom (modPurse s c (skimmed a)) c b = min (64 - (unitHeld (coreAt s c).purse + a)) b := by simp [skimRoom]
        rw [room, this]
        omega
      rw [addSkims_cons hb]
      rw [hroom, Nat.add_sub_add_left] at h
      exact addSkims_agree (modPurse_skimmed_twice s c a _) h
    · -- The unit is full after the first part, and takes nothing of the second.
      have hr : skimRoom s c a = skimRoom s c (a + b) := by rw [room, room]; omega
      have hle : skimRoom s c (a + b) ≤ a := hr ▸ (skimRoom_le s c a).1
      rw [Nat.sub_add_comm hle] at h
      rw [hr]
      obtain ⟨u, hu, t1, ht1, hagree⟩ := ih hcs _ h
      have hown : (coreAt u c).purse = skimmed (skimRoom s c (a + b)) (coreAt s c).purse := by rw [(addSkims_frame hu).2 c hc]; simp
      have hfull : skimRoom u c b = 0 := by
        rw [skimRoom, hown, unitHeld_skimmed, room]
        change min _ _ = 0
        omega
      obtain ⟨t', ht', hagree'⟩ := addSkims_agree (modPurse_skimmed_zero hown) ht1
      exact ⟨u, hu, t', by rw [addSkims_cons hb, hfull, Nat.sub_zero]; exact ht', hagree.trans hagree'⟩

/-- Steps of 4 skims end at the fewest with which a condition holds. -/
theorem skimUntil_fewest {holds : State → Bool} (hcongr : ∀ a b, CoresAgree a b → holds b = holds a) {cs : List Nat} (hcs : cs.Nodup)
    {s s1 : State} {j : Nat} (hj : addSkims cs (4 * j) s = some s1) (hmet : holds s1 = true)
    (hfew : ∀ m y, m < j → addSkims cs (4 * m) s = some y → holds y = false) :
    ∀ k m fuel x y, m + k = j → k < fuel → addSkims cs (4 * m) s = some y → CoresAgree y x →
      ∃ t, skimUntil holds cs fuel x = some t ∧ CoresAgree s1 t := by
  intro k
  induction k with
  | zero =>
    intro m fuel x y hm hf hy hx
    obtain ⟨fuel, rfl⟩ : ∃ f, fuel = f + 1 := ⟨fuel - 1, by omega⟩
    obtain rfl : y = s1 := by
      rw [Nat.add_zero] at hm
      rw [hm, hj, Option.some.injEq] at hy
      exact hy.symm
    exact ⟨x, by rw [skimUntil, hcongr y x hx, hmet, if_pos rfl], hx⟩
  | succ k ih =>
    intro m fuel x y hm hf hy hx
    obtain ⟨fuel, rfl⟩ : ∃ f, fuel = f + 1 := ⟨fuel - 1, by omega⟩
    have hsplit : 4 * j = 4 * (m + 1) + 4 * k := by omega
    obtain ⟨y', hy', -⟩ := addSkims_add hcs (4 * (m + 1)) (4 * k) (hsplit ▸ hj)
    obtain ⟨u, hu, t', ht', hagree⟩ := addSkims_add hcs (4 * m) 4 hy'
    obtain rfl : y = u := by rw [hy, Option.some.injEq] at hu; exact hu
    obtain ⟨x', hx', hagree'⟩ := addSkims_agree hx ht'
    obtain ⟨t, ht, hst⟩ := ih (m + 1) fuel x' y' (by omega) (by omega) hy' (hagree.trans hagree')
    refine ⟨t, ?_, hst⟩
    rw [skimUntil, hcongr y x hx, hfew m y (by omega) hy, hx']
    exact ht

theorem sumCores_eq_sum (s : State) (c : Nat) (f : Purse → Nat) :
    sumCores s c f = ((clusterCores c).map (fun i => f (coreAt s i).purse)).sum := by
  rw [List.sum_eq_foldl, List.foldl_map]
  rfl

/-! ## BALANCE_SKIM -/

/-- The cluster that would be the lighter with a request granted (16 R354). -/
def lighter (s : State) (c : Nat) (r : FareReq) : Nat := if curOf s c + addOf s r < curOf s (partnerOf c) then c else partnerOf c

/-- Whether a request meets the balance rule. -/
def inBalance (c : Nat) (r : FareReq) (s : State) : Bool := balanced (curOf s c + addOf s r) (curOf s (partnerOf c))

theorem inBalance_congr (c : Nat) (r : FareReq) (a b : State) (h : CoresAgree a b) : inBalance c r b = inBalance c r a := by
  rw [inBalance, h.curOf_eq, h.curOf_eq, h.addOf_eq, inBalance]

/-- The skims of a delayed request where every other check allows them. -/
theorem requestSkims_effect {s s1 : State} {c j : Nat} {r : FareReq}
    (hj : addSkims (clusterCores (lighter s c r)) (4 * j) s = some s1) (hmet : inBalance c r s1 = true)
    (hfew : ∀ m y, m < j → addSkims (clusterCores (lighter s c r)) (4 * m) s = some y → inBalance c r y = false)
    (hclim : curOf s1 (lighter s c r) ≤ climOf s (lighter s c r)) (hring : ringSum s1 ≤ s.ring.ringTot)
    (hopen : ringClosed s (lighter s c r) = false)
    (hgov : (clusterAt s (lighter s c r)).ramp = true ∨
      curOf s1 (lighter s c r) ≤ (clusterAt s (lighter s c r)).prev + (clusterAt s (lighter s c r)).stepLimit) :
    ∃ t, CoresAgree s1 t ∧ requestSkims s c r =
      noteCur (modCluster t (lighter s c r) (fun k => { k with balSkimming := true })) (lighter s c r) := by
  have hfuel : j < skimSteps := by
    have := addSkims_le hj
    rw [clusterCores_length] at this
    unfold skimSteps
    omega
  obtain ⟨t, ht, hagree⟩ := skimUntil_fewest (inBalance_congr c r) (clusterCores_nodup _) hj hmet hfew j 0 skimSteps s s (Nat.zero_add j)
    hfuel (addSkims_zero _ s) (.refl s)
  refine ⟨t, hagree, ?_⟩
  have hskims : skimUntil (fun s => balanced (curOf s c + addOf s r) (curOf s (partnerOf c))) (clusterCores (lighter s c r)) skimSteps s =
      some t := ht
  have hgov' : (!(clusterAt s (lighter s c r)).ramp && decide (Nat.min (climOf s (lighter s c r))
      ((clusterAt s (lighter s c r)).prev + (clusterAt s (lighter s c r)).stepLimit) < curOf t (lighter s c r))) = false := by
    rcases hgov with hramp | hlim
    · simp [hramp]
    · simp [hagree.curOf_eq, hclim, hlim]
  unfold requestSkims
  dsimp only
  rw [← lighter, hskims]
  dsimp only
  rw [hgov', hopen, hagree.curOf_eq, hagree.ringSum_eq, decide_eq_false (Nat.not_lt.2 hclim), decide_eq_false (Nat.not_lt.2 hring)]
  rfl

/-- A request that balance alone has delayed for its bound is the one that skims are for. -/
theorem skimStep_delayed {s : State} {c : Nat} {r : FareReq} (hg : (clusterAt s c).gated = false) (hz : s.supervisor.freeze = false)
    (hr : (clusterAt s c).requests = [r]) (hb : (clusterAt s c).bdb ≤ r.balance) (hst : reqStands s r = true)
    (hf : failedCheck s c (reqNow s r) = some 5) : skimStep s c = requestSkims s c (reqNow s r) := by
  simp [skimStep, hg, hz, hr, hb, hst, hf]

end Sys2Proof.Machine
end

section
/-! SUPPORT. What fares and timers do, event by event, and the statement made of them. -/

namespace Sys2Proof.Claims

open Sys2Proof.Machine

/-- A request delayed by balance has its skims, each unit at 64 at most (16 R354). -/
theorem balanceSkim_goesTo {s s1 : State} {c j : Nat} {r : FareReq} (hg : (clusterAt s c).gated = false) (hz : s.supervisor.freeze = false)
    (hr : (clusterAt s c).requests = [r]) (hb : (clusterAt s c).bdb ≤ r.balance) (hst : reqStands s r = true)
    (hf : failedCheck s c (reqNow s r) = some 5)
    (hj : addSkims (clusterCores (lighter s c (reqNow s r))) (4 * j) s = some s1) (hmet : inBalance c (reqNow s r) s1 = true)
    (hfew : ∀ m y, m < j → addSkims (clusterCores (lighter s c (reqNow s r))) (4 * m) s = some y → inBalance c (reqNow s r) y = false)
    (hclim : curOf s1 (lighter s c (reqNow s r)) ≤ climOf s (lighter s c (reqNow s r))) (hring : ringSum s1 ≤ s.ring.ringTot)
    (hopen : ringClosed s (lighter s c (reqNow s r)) = false)
    (hgov : (clusterAt s (lighter s c (reqNow s r))).ramp = true ∨ curOf s1 (lighter s c (reqNow s r)) ≤
      (clusterAt s (lighter s c (reqNow s r))).prev + (clusterAt s (lighter s c (reqNow s r))).stepLimit) :
    goesTo (.balanceSkim c) s (fun t => (clusterAt t (lighter s c (reqNow s r))).balSkimming = true ∧ t.mem = s.mem ∧
      sumCores t (lighter s c (reqNow s r)) (fun p => p.balSkim) = sumCores s (lighter s c (reqNow s r)) (fun p => p.balSkim) + 4 * j ∧
      ∀ i, unitHeld (coreAt s i).purse ≤ 64 → unitHeld (coreAt t i).purse ≤ 64) := by
  obtain ⟨t, hagree, ht⟩ := requestSkims_effect hj hmet hfew hclim hring hopen hgov
  refine ⟨_, congrArg Host.Outcome.next ((skimStep_delayed hg hz hr hb hst hf).trans ht), by simp, ?_, ?_, fun i hi => ?_⟩
  · change t.mem = s.mem
    rw [hagree.1, (addSkims_frame hj).1]
  · have hsum := addSkims_sum (clusterCores_nodup _) hj
    rw [sumCores_eq_sum, sumCores_eq_sum, ← hsum]
    exact congrArg List.sum (List.map_congr_left (fun i _ => by rw [coreAt_noteCur, coreAt_modCluster, hagree.2]))
  · rw [coreAt_noteCur, coreAt_modCluster, hagree.2]
    exact addSkims_held hj i hi

theorem windowBoundary_goesTo {s : State} {c : Nat} (hd : (clusterAt s c).boundaryDue = true) :
    goesTo (.windowBoundary c) s (fun t => t.mem = s.mem ∧ (clusterAt t c).boundaryDue = false ∧ (clusterAt t c).prev = curOf s c ∧
      (clusterAt t c).peakAdmitted = 0 ∧
      ((clusterAt s (partnerOf c)).boundaryDue = true → (clusterAt t (partnerOf c)).prev = curOf s (partnerOf c)) ∧
      ∀ i, i < 8 → (coreAt t (c * 8 + i)).purse.vector = ((coreAt s (c * 8 + i)).purse.charged + 15) / 16 ∧
        (coreAt t (c * 8 + i)).purse.charged = 0) := by
  obtain ⟨hdue, hprev, hpeak⟩ := windowBoundary_cluster hd
  refine ⟨_, rfl, windowBoundary_mem s c, hdue, hprev, hpeak, windowBoundary_partner hd, fun i hi => ?_⟩
  rw [windowBoundary_purse hd hi]
  exact ⟨rfl, rfl⟩

theorem rampStep_goesTo {s : State} {core : Nat} (hf : s.supervisor.freeze = false) (hp : 4 ≤ (coreAt s core).purse.rampPhase)
    (hm : (coreAt s core).purse.mode = .ramping ∨ (coreAt s core).purse.mode = .bursting)
    (ht : (coreAt s core).purse.unitLevel < (coreAt s core).purse.target) :
    goesTo (.rampStep core) s (fun t => t.mem = s.mem ∧
      (coreAt t core).purse.unitLevel = Nat.min (coreAt s core).purse.target ((coreAt s core).purse.unitLevel + 4) ∧
      (coreAt t core).purse.rampPhase = 0 ∧ (coreAt t core).purse.mode = (coreAt s core).purse.mode) := by
  refine ⟨_, congrArg Host.Outcome.next (rampStep_climbs hf hp hm ht), ?_⟩
  simp [noteUnit]

theorem rampDown_goesTo {s : State} {core : Nat} (hf : s.supervisor.freeze = false) (hp : 4 ≤ (coreAt s core).purse.rampPhase)
    (hm : (coreAt s core).purse.mode = .rampingDown) :
    goesTo (.rampDown core) s (fun t => t.mem = s.mem ∧ (coreAt t core).purse.unitLevel = (coreAt s core).purse.unitLevel - 4 ∧
      (coreAt t core).purse.mode = (if (coreAt s core).purse.unitLevel ≤ 4 then .idle else .rampingDown)) := by
  refine ⟨_, congrArg Host.Outcome.next (rampDown_falls hf hp hm), startRampDown_mem s core, ?_⟩
  rw [startRampDown_purse]
  simp [Nat.sub_eq_zero_iff_le]

theorem burstLapse_goesTo {s : State} {core : Nat} (hb : (coreAt s core).purse.burst ≠ 0)
    (hw : (clusterAt s (core / 8)).burstMax ≤ (coreAt s core).purse.burstWindows) :
    goesTo (.burstLapse core) s (fun t => (coreAt t core).purse.burst = 0 ∧ t.mem = s.mem) :=
  ⟨_, congrArg Host.Outcome.next (burstLapse_ends hb hw), endBurst_effect s core⟩

theorem ringClaim_goesTo (c : Nat) (s : State) :
    goesTo (.ringClaim c) s (fun t => t = { s with ring := { s.ring with claims := t.ring.claims } } ∧
      (∀ r ∈ (clusterAt s c).fareResv, starvOf (ctxAt s (teamAt s r.unit.team).ctx) < clusterCyc s c - r.taken →
        ∃ k ∈ t.ring.claims, k.cluster = c ∧ k.unit = r.unit) ∧
      ∀ r, (clusterAt s c).fareResv = [r] → starvOf (ctxAt s (teamAt s r.unit.team).ctx) < clusterCyc s c - r.taken →
        (∀ k ∈ s.ring.claims, k.cluster = c → k.unit ≠ r.unit) →
        ∃ pre post, s.ring.claims = pre ++ post ∧ t.ring.claims = pre ++ ⟨c, r.unit, s.fe⟩ :: post ∧
          (∀ d ∈ pre, ¬(d.made = s.fe ∧ c < d.cluster)) ∧ ∀ d, post.head? = some d → d.made = s.fe ∧ c < d.cluster) := by
  refine ⟨ringClaim s c, rfl, by rw [ringClaim_eq], fun r hr hd => ringClaim_of_due hr hd, fun r hr hd hn => ?_⟩
  rw [ringClaim_single hr hd hn]
  exact addRingClaim_split (claimOf s c r) s.ring.claims

theorem operatingPointChange_refused {mhz : Nat} (h : 2100 < mhz) (p : Nat) (s : State) : exec (.operatingPointChange p mhz) s = .next s :=
  if_pos (.inr (.inl h))

theorem operatingPointChange_goesTo {p mhz : Nat} (h0 : mhz ≠ 0) (hmax : mhz ≤ 2100) (hp : p < Config.pairs) (s : State) :
    goesTo (.operatingPointChange p mhz) s (fun t => (pairAt t p).pending = some mhz ∧ (pairAt t p).mhz = (pairAt s p).mhz ∧
      ∀ q, q ≠ p → pairAt t q = pairAt s q) := by
  have hrange : ¬(mhz = 0 ∨ Config.maxMhz < mhz ∨ Config.pairs ≤ p) := by
    rw [not_or, not_or]
    exact ⟨h0, Nat.not_lt.2 hmax, Nat.not_le.2 hp⟩
  refine ⟨_, if_neg hrange, by simp, by simp, fun q hq => pairAt_modPair_ne s _ hq⟩

theorem clusterGate_goesTo {c : Nat} {s : State} (hg : (clusterAt s c).gated = false) (hc : c < 24) (hi : gateable s c = true)
    (ht : travelling s c = false) :
    goesTo (.clusterGate c) s (fun t => (clusterAt t c).gated = true ∧ t = { s with clusters := t.clusters } ∧
      ∀ d, d ≠ c → clusterAt t d = clusterAt s d) := by
  have hstays : ¬((clusterAt s c).gated || decide (Config.clusters ≤ c) || !gateable s c || travelling s c) = true := by
    simp [hg, hi, ht, Config.clusters, Nat.not_le.2 hc]
  refine ⟨_, if_neg hstays, by simp, rfl, fun d hd => clusterAt_modCluster_ne s _ hd⟩

theorem govstallClear_goesTo (c : Nat) (v : W32) (s : State) :
    goesTo (.govstallClear c v) s (fun t => (clusterAt t c).govStall = ((clusterAt s c).govStall && !v.getLsbD 0)) := by
  refine ⟨_, rfl, ?_⟩
  split
  · next h => rw [h]; simp
  · next h => rw [Bool.eq_false_iff.2 h]; simp

/-- A write of a register of the fare block. -/
theorem fareRegister_goesTo {r : FwReg} {v : W32} {c : Nat} (hc : c < 24) {s : State} {f : Cluster → Cluster} {k : Cluster}
    (he : exec (.firmwareRegisterWrite r v) s = .next (fareBlock s c f)) (hk : f (clusterAt s c) = k) :
    goesTo (.firmwareRegisterWrite r v) s (fun t => clusterAt t c = k ∧ ∀ d, d ≠ c → clusterAt t d = clusterAt s d) :=
  ⟨_, he, (fareBlock_put hc f).1.trans hk, (fareBlock_put hc f).2⟩

theorem queueAgeing_goesTo {q : Nat} {s : State} (hen : (queueAt s q).en = true) (hp : (queueAt s q).phase = .ready)
    (ha : (queueAt s q).age ≠ 0) (hle : (queueAt s q).age ≤ (queueAt s q).aged) :
    goesTo (.queueAgeing q) s (fun t =>
      queueAt t q = { queueAt s q with aged := 0, level := Nat.min 7 ((queueAt s q).level + 1) } ∧
      ∀ r, r ≠ q → queueAt t r = queueAt s r) := by
  obtain ⟨t, he, ht, hother⟩ := queueAgeing_effect s q
  refine ⟨t, he, ht.trans ?_, hother⟩
  simp [risen, hen, hp, ha, Nat.not_lt.2 hle]

/-- A core's forced step: of its phase age, or of home pressure (05 R106). -/
theorem forcedStep_eq {i : Instr} {core : Nat} {s : State} (hf : s.supervisor.freeze = false)
    (hi : i = .phaseAgeStep core ∧ s.policy.phaseAge ≤ (coreAt s core).sinceAcquire ∨ i = .homePressureStep core) :
    exec i s = .next (arStep s core) := by
  rcases hi with ⟨rfl, hage⟩ | rfl
  · change execPhaseAgeStep core s = _
    simp [execPhaseAgeStep, hf, Nat.not_lt.2 hage]
  · change execHomePressureStep core s = _
    simp [execHomePressureStep, hf]

theorem unifiedIntervalEnd_goesTo {core l : Nat} {s : State} (hl : (coreAt s core).l1 = some l) (hf : s.supervisor.freeze = false)
    (hi : 65536 ≤ (coreAt s core).interval) :
    goesTo (.unifiedIntervalEnd core) s (fun t => (coreAt t core).interval = 0 ∧ t.mem = s.mem ∧ ∃ m, (coreAt t core).l1 = some m ∧
      (m = l ∨ m = l + 32768 ∨ m + 32768 = l) ∧ (l1Floor s core ≤ l → l1Floor s core ≤ m) ∧
      (l + residentCarves s core ≤ Config.unifiedBytes → m + residentCarves s core ≤ Config.unifiedBytes)) := by
  have he : ∃ n g k, exec (.unifiedIntervalEnd core) s = .next (modCore { s with freeCtr := s.freeCtr + 3 } core (fun x =>
      { x with l1 := some (shiftL1 l (residentCarves s core) (l1Floor s core) n g k), interval := 0 })) := by
    refine ⟨(Config.freeWord (s.freeCtr + 0)).toNat, (Config.freeWord (s.freeCtr + 1)).toNat, (Config.freeWord (s.freeCtr + 2)).toNat, ?_⟩
    change execUnifiedIntervalEnd core s = _
    simp [execUnifiedIntervalEnd, hl, hf, unifiedInterval, Nat.not_lt.2 hi]
  obtain ⟨n, g, k, he⟩ := he
  exact ⟨_, he, by simp, rfl, shiftL1 l (residentCarves s core) (l1Floor s core) n g k, by simp, shiftL1_bounds l _ _ n g k⟩

/-- Settles O54, event by event. The two long clauses are FARE_GRANT, whose earlier clusters change no level, and BALANCE_SKIM, whose steps
of 4 come to the skims added at once. -/
theorem faresAndTimersTakeEffect : Obligations.FaresAndTimersTakeEffect := by
  unfold Obligations.FaresAndTimersTakeEffect
  refine ⟨?grant, fun c s hd => windowBoundary_goesTo hd,
    fun core s hf hp => ⟨fun hm ht => rampStep_goesTo hf hp hm ht, fun hm => rampDown_goesTo hf hp hm⟩,
    fun core s hb hw => burstLapse_goesTo hb hw, ?skim, ringClaim_goesTo, fun p mhz s h => operatingPointChange_refused h p s,
    fun p mhz s h0 hmax hp => operatingPointChange_goesTo h0 hmax hp s, ?quiesce, fun c s hg hc hi ht => clusterGate_goesTo hg hc hi ht,
    fun v s => rfl, govstallClear_goesTo, ?registers, fun q s hen hp ha hle => queueAgeing_goesTo hen hp ha hle,
    fun i core s hf hi => ⟨_, forcedStep_eq hf hi, arStep_effect s core⟩,
    fun core s l hl hf hi => unifiedIntervalEnd_goesTo hl hf hi⟩
  case grant =>
    intro c s r u k d cur n hg hj hz hr hothers hquiet hbal hv hm hop hburst hu ht hlive hresv hpartner hclaims hc hkeys
    have ha : AsksAlone s c r u := {
      word := ⟨hv, hm, hburst, hu, ht, hlive, hresv, hpartner, hclaims⟩
      gated := hg, judged := hj, freeze := hz, request := hr, others := hothers, balance := hbal, bound := hc
      fell := fun e => (hquiet e).1
      skims := fun e => (hquiet e).2
      keys := fun e he v => (tkeys_tset_congr rfl e v _).trans (congrArg tkeys (hkeys e he)) }
    exact ⟨ha.fareGrant_paid, ha.fareGrant_granted, ha.fareGrant_overLimit, ha.fareGrant_stalled⟩
  case skim =>
    intro c s r s1 j k r' a b d met hg hz hr hb hst hf hj hmet hfew hclim hring hopen hgov
    exact balanceSkim_goesTo hg hz hr hb hst hf hj hmet (fun m y hm hy => Bool.eq_false_iff.2 (hfew m y hm hy)) hclim hring hopen hgov
  case quiesce =>
    intro p s mhz hm hc
    have hpair := pairAt_pointApplied s p mhz
    obtain ⟨heven, hodd⟩ := pointApplied_prev s p mhz
    refine ⟨_, exec_quiescePoint hm hc, by rw [hpair], by rw [hpair], heven, hodd, fun c x hx => ?_⟩
    rw [ctxAt_pointApplied p mhz hx]
    exact ⟨rescale_counting, fun hn ht hp => by subst hp; exact rescale_timed hn ht, rescale_other⟩
  case registers =>
    intro c v s hc
    have hmode : decide (v.toNat ≠ 0) = decide (v ≠ 0) := by simp [← BitVec.toNat_inj]
    exact ⟨fareRegister_goesTo hc rfl (congrArg (fun b => { clusterAt s c with ramp := b }) hmode),
      fareRegister_goesTo hc rfl (congrArg (fun n => { clusterAt s c with stepLimit := n }) (nearest_eq (by decide) _)),
      fareRegister_goesTo hc rfl (congrArg (fun n => { clusterAt s c with bdb := n }) (nearest_eq (by decide) _)),
      fareRegister_goesTo hc rfl (congrArg (fun n => { clusterAt s c with burstMax := n }) (nearest_eq (by decide) _)),
      fareRegister_goesTo hc rfl (congrArg (fun n => { clusterAt s c with clim := n }) (nearest_eq (by decide) _)),
      fareRegister_goesTo hc rfl rfl, fareRegister_goesTo hc rfl rfl, fareRegister_goesTo hc rfl rfl⟩

end Sys2Proof.Claims
end

section
/-! SUPPORT. A unit written twice, a unit whose field is written with what it holds, and the unit in focus. -/

namespace Sys2Proof.Machine

/-! ## Writes over writes -/

theorem terase_terase_same {α : Type} (m : TMap α) (k : Nat) : terase (terase m k) k = terase m k := by
  simp [terase, List.filter_filter]

theorem terase_tinsert_same {α : Type} (m : TMap α) (k : Nat) (v : α) : terase (tinsert m k v) k = terase m k := by
  induction m with
  | nil => simp [tinsert, terase]
  | cons e m ih =>
    unfold tinsert
    split
    · simp [terase]
    · simp only [terase, List.filter_cons] at ih ⊢
      rw [ih]

@[simp] theorem tset_tset_same {α : Type} (m : TMap α) (k : Nat) (a b : α) : tset (tset m k a) k b = tset m k b := by
  simp only [tset, terase_tinsert_same, terase_terase_same]

/-- Of two writes of one unit the second stands. -/
theorem setUnit_overwrite (s : State) (u : UnitId) (g h : Grp) : setUnit (setUnit s u g) u h = setUnit s u h := by
  simp [setUnit, modTeam, teamAt]

/-! ## The unit in focus -/

theorem issuing_focus {s : State} {u : UnitId} {x : Ctx} (hx : issuing { s with focus := some u } = some x) :
    x.u = u ∧ x.g = unitAt s u := by
  have hu := (issuing_unit hx).1
  have he : x.u = u := by
    unfold issuing at hx
    dsimp only at hx
    split at hx
    · cases hx
    · cases hx; rfl
  exact ⟨he, by rw [hu, he]; rfl⟩

end Sys2Proof.Machine
end

section
/-! SUPPORT. SELECT_RUN of a unit that selects alone, with no run that waits, has yielded or stands apart (01 R19, R21). -/

namespace Sys2Proof.Machine

/-! ## Masks and lanes -/

theorem getLsbD_laneMask (ls : List Nat) {l : Nat} (hl : l < 32) : (laneMask ls).getLsbD l = decide (l ∈ ls) := by
  induction ls with
  | nil => simp [laneMask]
  | cons a r ih =>
    simp only [laneMask, BitVec.getLsbD_or, ih, List.mem_cons, Bool.decide_or, BitVec.getLsbD_shiftLeft]
    rw [Bool.or_comm]
    congr 1
    by_cases h : l = a <;> simp [h] <;> omega

theorem mem_maskLanes {m : W32} {l : Nat} : l ∈ maskLanes m ↔ l < 32 ∧ m.getLsbD l = true := by
  simp [maskLanes]

theorem mem_maskLanes_laneMask {ls : List Nat} {l : Nat} : l ∈ maskLanes (laneMask ls) ↔ l < 32 ∧ l ∈ ls := by
  rw [mem_maskLanes]
  exact and_congr_right (fun hl => by simp [getLsbD_laneMask ls hl])

/-! ## Steps of the selection that find nothing to do -/

theorem wakeFwaits_of_none {s : State} {u : UnitId} (h : (unitAt s u).blocked = []) (slot : Nat) : wakeFwaits s u slot = s := by
  simp [wakeFwaits, h]

theorem wakeReady_of_none {s : State} {u : UnitId} (h : (unitAt s u).blocked = []) : wakeReady s u = s :=
  List.foldl_fixed' (fun i => by simp [wakeFwaits_of_none h]) _

theorem settleXfers_of_none {s : State} {u : UnitId} (h : (unitAt s u).xheld = []) : settleXfers s u = s := by
  simp [settleXfers, h]

theorem redirect_of_unset {s : State} {u : UnitId} (h : domainSet s u = false) : redirect s u = s := by
  have hd : (gridOf s u).domain = false := h
  simp [redirect, hd]

theorem markEnded_of_none {g : Grp} (h : g.blocked = []) (ids : List Nat) (v : Bool) : markEnded ids v g = g :=
  congrArg (fun b => { g with blocked := b }) (by rw [h]; rfl : _ = g.blocked)

theorem modUnit_markEnded_of_none {s : State} {u : UnitId} (h : (unitAt s u).blocked = []) (ids : List Nat) (v : Bool) :
    modUnit s u (markEnded ids v) = setUnit s u (unitAt s u) :=
  congrArg (setUnit s u) (markEnded_of_none h ids v)

theorem moveOwed_of_none {s : State} {u : UnitId} (h : (unitAt s u).tail = []) : moveOwed s [u] = setUnit s u (unitAt s u) :=
  congrArg (fun y => setUnit s u { unitAt s u with tail := y }) (by rw [h]; rfl : _ = (unitAt s u).tail)

theorem moveAll_of_none {s : State} {u : UnitId} (h : (unitAt s u).tail = []) : moveAll s [u] = setUnit s u (unitAt s u) :=
  congrArg (fun y => setUnit s u { unitAt s u with tail := y }) (by rw [h]; rfl : _ = (unitAt s u).tail)

/-! ## A unit that selects alone -/

/-- A group or conductor outside pair mode that may select, none of whose runs is blocked, yielded, held or apart. -/
structure SelectsAlone (s : State) (u : UnitId) : Prop where
  single : (teamAt s u.team).pairMode = false
  may : maySelect s u = true
  stays : (unitAt s u).windDown = false
  drain : (unitAt s u).drain = false
  handler : (unitAt s u).handler = none
  blocked : (unitAt s u).blocked = []
  tail : (unitAt s u).tail = []
  apart : (unitAt s u).apart = []
  xheld : (unitAt s u).xheld = []
  domain : domainSet s u = false

/-- The clause of the run at the lowest counter. -/
def lowestClause (g : Grp) (pc : Nat) : Clause := { mask := tableAt g pc, head := pc, cand := candMask g }

/-- Some thread stands at a counter, and none at a lower one. -/
structure LowestAt (g : Grp) (pc : Nat) : Prop where
  at_pc : ∃ l ∈ liveLanes g, l < 32 ∧ (thrAt g l).pc.toNat = pc
  least : ∀ l ∈ liveLanes g, l < 32 → pc ≤ (thrAt g l).pc.toNat

namespace SelectsAlone

variable {s : State} {u : UnitId} (h : SelectsAlone s u)
include h

theorem clause_eq : (unitAt s u).clause = none := by
  have hmay := h.may
  simp only [maySelect, Bool.and_eq_true, Option.isNone_iff_eq_none] at hmay
  tauto

/-- Nothing is woken, transferred or redirected first. -/
theorem exec_selectRun : exec (.selectRun u) s = .next (selectJoint s [u]) := by
  have hunits : selUnits s u = [u] := by simp [selUnits, h.single]
  have hidle : ([u].filter (fun v => !(unitAt s v).retired)).all (fun v => (unitAt s v).clause.isNone) = true := by
    simp [h.clause_eq]
  change execSelectRun u s = _
  simp [execSelectRun, hunits, hidle, h.may, h.stays, wakeReady_of_none h.blocked, settleXfers_of_none h.xheld,
    redirect_of_unset h.domain]

theorem tableMask_eq : tableMask (unitAt s u) = liveMask (unitAt s u) := by
  have hones : ∀ m : W32, m &&& 0xFFFFFFFF#32 = m := fun _ => BitVec.and_allOnes
  simp [tableMask, h.drain, h.blocked, h.xheld, h.tail, blockedMask, heldMask, tailMask, levelMask, h.handler, hones]

theorem candMask_eq : candMask (unitAt s u) = liveMask (unitAt s u) := by
  simp [candMask, h.tableMask_eq, endedMask, h.blocked]

theorem mem_maskLanes_candMask {l : Nat} : l ∈ maskLanes (candMask (unitAt s u)) ↔ l < 32 ∧ l ∈ liveLanes (unitAt s u) := by
  rw [h.candMask_eq, liveMask, mem_maskLanes_laneMask]

theorem getLsbD_tableAt (pc : Nat) {l : Nat} (hl : l < 32) :
    (tableAt (unitAt s u) pc).getLsbD l = true ↔ l ∈ liveLanes (unitAt s u) ∧ (thrAt (unitAt s u) l).pc.toNat = pc := by
  rw [tableAt, h.tableMask_eq, liveMask, getLsbD_laneMask _ hl]
  simp [mem_maskLanes_laneMask, hl]

theorem lowestPc_eq {pc : Nat} (hpc : LowestAt (unitAt s u) pc) : lowestPc (unitAt s u) = some pc := by
  obtain ⟨⟨l, hl, hlt, hat⟩, hmin⟩ := hpc
  rw [lowestPc, List.min?_eq_some_iff]
  constructor
  · exact List.mem_map.2 ⟨l, h.mem_maskLanes_candMask.2 ⟨hlt, hl⟩, hat⟩
  · intro n hn
    obtain ⟨j, hj, rfl⟩ := List.mem_map.1 hn
    obtain ⟨hjlt, hjlive⟩ := h.mem_maskLanes_candMask.1 hj
    exact hmin j hjlive hjlt

theorem tableAt_ne_zero {pc : Nat} (hpc : LowestAt (unitAt s u) pc) : tableAt (unitAt s u) pc ≠ 0 := by
  obtain ⟨l, hl, hlt, hat⟩ := hpc.at_pc
  intro hz
  have hbit := (h.getLsbD_tableAt pc hlt).2 ⟨hl, hat⟩
  simp [hz] at hbit

/-- The run at the lowest counter is entered: it is the table's, for no wait has ended and none stands apart. -/
theorem enterLowest_eq {pc : Nat} (hpc : LowestAt (unitAt s u) pc) :
    enterLowest (setUnit s u (unitAt s u)) [u] = setUnit s u { unitAt s u with clause := some (lowestClause (unitAt s u) pc) } := by
  have hended : endedHead (setUnit s u (unitAt s u)) [u] pc = none := by simp [endedHead, endedAt, h.blocked]
  have hpart : endedPart (setUnit s u (unitAt s u)) [u] pc u = none := by rw [endedPart, hended]
  have hapart : apartHead (setUnit s u (unitAt s u)) [u] pc = none := by simp [apartHead, apartAt, h.apart]
  have hpick : pick (setUnit s u (unitAt s u)) [u] pc u = tableAt (unitAt s u) pc := by
    simp [pick, hended, tablePart, hapart]
  have henter : enterLowest (setUnit s u (unitAt s u)) [u] =
      enterClause (setUnit s u (unitAt s u)) u pc none (candMask (unitAt s u)) 0 (tableAt (unitAt s u) pc) 0 := by
    simp [enterLowest, h.lowestPc_eq hpc, hpart, hpick, otherMask, pickOther]
  rw [henter, enterClause]
  simp only [h.tableAt_ne_zero hpc, if_false, unitAt_setUnit_same, setUnit_overwrite, h.tail, h.apart, List.map_nil, List.filter_nil,
    lowestClause]

/-- Nothing is owed and nothing waits, so the whole selection is the entry of the lowest run. -/
theorem selectJoint_eq {pc : Nat} (hpc : LowestAt (unitAt s u) pc) :
    selectJoint s [u] = setUnit s u { unitAt s u with clause := some (lowestClause (unitAt s u) pc) } := by
  have hmarked : modUnit s u (markEnded [] false) = setUnit s u (unitAt s u) := modUnit_markEnded_of_none h.blocked [] false
  have howed : moveOwed (setUnit s u (unitAt s u)) [u] = setUnit s u (unitAt s u) := by
    rw [moveOwed_of_none (by simp [h.tail]), unitAt_setUnit_same, setUnit_overwrite]
  have hall : moveAll (setUnit s u (unitAt s u)) [u] = setUnit s u (unitAt s u) := by
    rw [moveAll_of_none (by simp [h.tail]), unitAt_setUnit_same, setUnit_overwrite]
  have hended : ∀ c, modUnit (setUnit s u { unitAt s u with clause := c }) u (markEnded [] true) =
      setUnit s u { unitAt s u with clause := c } := fun c => by
    rw [modUnit_markEnded_of_none (by simp [h.blocked]), unitAt_setUnit_same, setUnit_overwrite]
  simp only [selectJoint, h.blocked, List.map_cons, List.map_nil, List.filter_nil, List.foldl_cons, List.foldl_nil, hmarked, howed, hall,
    ite_self, h.enterLowest_eq hpc]
  simpa only [h.blocked] using hended _

end SelectsAlone

end Sys2Proof.Machine

namespace Sys2Proof.Claims

open Sys2Proof.Machine

/-- Settles O28: between the steps that find nothing to do, the entry of the lowest run is the only change. -/
theorem selectedRunIsTheLowest : Obligations.SelectedRunIsTheLowest := by
  unfold Obligations.SelectedRunIsTheLowest
  intro u s pc g hsingle hmay hstays hdrain hhandler hblocked htail hapart hxheld hdomain hat hmin
  have hu : SelectsAlone s u := ⟨hsingle, hmay, hstays, hdrain, hhandler, hblocked, htail, hapart, hxheld, hdomain⟩
  refine ⟨setUnit s u { g with clause := some (lowestClause g pc) }, ?_, ?_, lowestClause g pc, ?_, rfl, rfl,
    fun l hl => hu.getLsbD_tableAt pc hl⟩
  · rw [hu.exec_selectRun, hu.selectJoint_eq ⟨hat, hmin⟩]
  · simp [onlyUnit]
  · simp

end Sys2Proof.Claims
end

section
/-! SUPPORT. Feed queues and the affine iterator: what feed, fpush and agen do to their units (01 R18, 08 R209, R210). -/

namespace Sys2Proof.Machine

open Sys2Proof.Claims

/-! ## A clause that goes on -/

/-- Of a unit whose clause goes on only the clause changes. -/
theorem advance_eq (g : Grp) : advance g = { g with clause := g.clause.map (fun cl => { cl with next := cl.next + 1, hints := {} }) } := by
  cases h : g.clause with
  | none => rw [advance, h]; exact congrArg (fun c => { g with clause := c }) h
  | some cl => rw [advance, h]; rfl

theorem advance_feed_held (g : Grp) (feed : List FeedEntry) (held : Option Hold) (ths : TMap Thread) (k : TMap W64) :
    advance { g with feed := feed, held := held, threads := ths, k := k } =
      { advance g with feed := feed, held := held, threads := ths, k := k } := by
  simp only [advance_eq]

theorem advance_unheld (g : Grp) : advance { g with held := none } = { advance g with held := none } := by
  simp only [advance_eq]

/-! ## feed -/

theorem feedValue_eq (e : FeedEntry) (l : Nat) : feedValue e l = entryValue e l := by
  cases e with
  | uniform w => rfl
  | vector b st =>
    refine BitVec.eq_of_toNat_eq ?_
    simp [feedValue, entryValue, BitVec.toNat_mul]

theorem wrote32_afterO (cond : Bool) (d : OField) (w : W32) (t : Thread) : wrote32 cond d w 0 t (afterO cond d w w t) :=
  ⟨by simp [afterO], afterO_t cond d w w t⟩

/-- What a participant of a feed does to its unit. -/
def takeEntry (x : Ctx) (d : OField) (e : FeedEntry) (gr : Grp) (l : Nat) : Grp :=
  writeO x.cond gr l d (feedValue e l) (feedValue e l)

theorem popFeed_eq {s : State} {x : Ctx} {e : FeedEntry} {rest : List FeedEntry} (hfeed : x.g.feed = e :: rest) (d : OField) (g : Guard) :
    popFeed s x d g = setUnit s x.u (advance ((x.parts g).foldl (takeEntry x d e) { x.g with feed := rest, held := none })) := by
  rw [popFeed, hfeed]
  rfl

theorem thrAt_takeEntry_ne (x : Ctx) (d : OField) (e : FeedEntry) (gr : Grp) (l j : Nat) (h : j ≠ l) :
    thrAt (takeEntry x d e gr l) j = thrAt gr j := by
  rw [takeEntry, thrAt_writeO, if_neg h]

theorem thrAt_takeEntry_same (x : Ctx) (d : OField) (e : FeedEntry) (gr : Grp) (l : Nat) :
    thrAt (takeEntry x d e gr l) l = afterO x.cond d (entryValue e l) (entryValue e l) (thrAt gr l) := by
  rw [takeEntry, thrAt_writeO, if_pos rfl, feedValue_eq]

/-- The oldest entry taken: each participant writes its own lane, and the queue loses its head. -/
theorem popFeed_fed {s : State} {x : Ctx} {e : FeedEntry} {rest : List FeedEntry} (hfeed : x.g.feed = e :: rest) (d : OField) (g : Guard) :
    fed s x d g e rest (popFeed s x d g) := by
  obtain ⟨ths, k, hfold⟩ : ∃ ths k, (x.parts g).foldl (takeEntry x d e) { x.g with feed := rest, held := none } =
      { x.g with feed := rest, held := none, threads := ths, k := k } :=
    foldl_onlyThreads _ (fun gr l => writeO_onlyThreads _ gr l d _ _) (x.parts g) _
  rw [popFeed_eq hfeed]
  refine ⟨by simp [onlyUnit], ?_, fun l hl => ?_, fun l hl => ?_⟩
  · rw [unitAt_setUnit_same, hfold, advance_feed_held]
  · rw [unitAt_setUnit_same, thrAt_advance, foldl_lanes_ne _ (thrAt_takeEntry_ne x d e) _ _ _ hl]
    rfl
  · rw [unitAt_setUnit_same, thrAt_advance,
      foldl_lanes_mem _ _ (thrAt_takeEntry_ne x d e) (thrAt_takeEntry_same x d e) _ _ (parts_nodup x g) _ hl]
    exact wrote32_afterO ..

theorem exec_feed_taken {s : State} {x : Ctx} {d : OField} {g : Guard} (hi : issues (.feed d g) s x) (hfeed : x.g.feed ≠ []) :
    exec (.feed d g) s = .next (popFeed s x d g) :=
  (word_effect _ hi.1 hi.2).trans (congrArg _ (if_pos hfeed))

theorem exec_feed_held {s : State} {x : Ctx} {d : OField} {g : Guard} (hi : issues (.feed d g) s x) (hfeed : x.g.feed = [])
    (hc : conductorGone x.t = false) : exec (.feed d g) s = .next (setUnit s x.u { x.g with held := some (.feed d g) }) :=
  (word_effect _ hi.1 hi.2).trans (by simp [hfeed, hc])

theorem exec_feed_traps {s : State} {x : Ctx} {d : OField} {g : Guard} (hi : issues (.feed d g) s x) (hfeed : x.g.feed = [])
    (hc : conductorGone x.t = true) : exec (.feed d g) s = .next (trapWord s x .illegalWait 0 x.cl.mask 0) :=
  (word_effect _ hi.1 hi.2).trans (by simp [hfeed, hc])

theorem exec_feedDelivery {s : State} {u : UnitId} {x : Ctx} {d : OField} {g : Guard} (hx : issuing { s with focus := some u } = some x)
    (hheld : x.g.held = some (.feed d g)) : exec (.feedDelivery u) s = .next (popFeed s x d g) := by
  change execFeedDelivery u s = _
  simp [execFeedDelivery, hx, hheld]

/-! ## fpush -/

/-- What the fpush of an entry to group n comes to (01 R18, 08 R209). -/
def pushed (s : State) (x : Ctx) (n : Nat) (e : FeedEntry) : State :=
  if x.t.groups ≤ n then trapWord s x .illegal 0 x.cl.mask 0
  else if feedGone s x n then appendFeed s x n e
  else if !quiet s x.u then s
  else if feedFull s x n then setUnit s x.u { x.g with held := some (.fpush n e) }
  else appendFeed s x n e

/-- Both forms of fpush push their entry to the group that b names. -/
theorem exec_fpush {i : Instr} {g : Guard} {b : OField} {entry : Ctx → Nat → FeedEntry}
    (hform : (∃ a, i = .fpushU a b g ∧ entry = fun x l => .uniform (x.src l a)) ∨
      ∃ a c, i = .fpushV a b c g ∧ entry = fun x l => .vector (x.src l a) (x.src l c))
    {s : State} {x : Ctx} {l : Nat} {r : List Nat} (hi : issues i s x) (hparts : x.parts g = l :: r) :
    exec i s = .next (pushed s x (x.src l b).toNat (entry x l)) := by
  have hword : exec i s = fpushWord i b g entry s := by
    rcases hform with ⟨a, rfl, rfl⟩ | ⟨a, c, rfl, rfl⟩ <;> rfl
  rw [hword, fpushWord, word_effect _ hi.1 hi.2, hparts]
  rfl

theorem feedGone_eq (s : State) (x : Ctx) (n : Nat) : feedGone s x n = ((unitAt s ⟨x.u.team, n⟩).retired || x.g.windDown) := rfl

theorem feedGone_of_live {s : State} {x : Ctx} {n : Nat} (hstays : x.g.windDown = false) (hlive : (unitAt s ⟨x.u.team, n⟩).retired = false) :
    feedGone s x n = false := by
  rw [feedGone_eq, hlive, hstays]
  rfl

theorem feedFull_eq {s : State} {x : Ctx} {n : Nat} (hstays : x.g.windDown = false) (hlive : (unitAt s ⟨x.u.team, n⟩).retired = false) :
    feedFull s x n = decide (Config.feedEntries ≤ (unitAt s ⟨x.u.team, n⟩).feed.length) := by
  simp [feedFull, queueFull, hstays, hlive]

/-- An entry for a group that takes it. -/
theorem appendFeed_takes {s : State} {x : Ctx} {n : Nat} (e : FeedEntry) (hstays : x.g.windDown = false)
    (hlive : (unitAt s ⟨x.u.team, n⟩).retired = false) (hne : (⟨x.u.team, n⟩ : UnitId) ≠ x.u) :
    let tg : UnitId := ⟨x.u.team, n⟩
    let t := appendFeed s x n e
    unitAt t tg = { unitAt s tg with feed := (unitAt s tg).feed ++ [e] } ∧ unitAt t x.u = { advance x.g with held := none } ∧
      t.mem = s.mem ∧ ∀ v, v ≠ tg → v ≠ x.u → unitAt t v = unitAt s v := by
  intro tg t
  have ht : t = setUnit (setUnit s tg { unitAt s tg with feed := (unitAt s tg).feed ++ [e] }) x.u (advance { x.g with held := none }) := by
    simp [t, appendFeed, hlive, hstays, tg]
  rw [ht]
  refine ⟨?_, ?_, rfl, fun v hv hvx => ?_⟩
  · rw [unitAt_setUnit_ne _ _ hne, unitAt_setUnit_same]
  · rw [unitAt_setUnit_same, advance_unheld]
  · rw [unitAt_setUnit_ne _ _ hvx, unitAt_setUnit_ne _ _ hv]

/-- An entry that is discarded. -/
theorem appendFeed_discards {s : State} {x : Ctx} {n : Nat} (e : FeedEntry) (hgone : feedGone s x n = true) :
    appendFeed s x n e = setUnit s x.u (advance { x.g with held := none }) := by
  rw [feedGone_eq] at hgone
  simp [appendFeed, hgone]

section
variable {s : State} {x : Ctx} {n : Nat} (e : FeedEntry)

theorem pushed_undeclared (hn : x.t.groups ≤ n) : pushed s x n e = trapWord s x .illegal 0 x.cl.mask 0 := if_pos hn

theorem pushed_gone (hn : n < x.t.groups) (hgone : feedGone s x n = true) : pushed s x n e = appendFeed s x n e := by
  simp [pushed, Nat.not_le.2 hn, hgone]

theorem pushed_unquiet (hn : n < x.t.groups) (hgone : feedGone s x n = false) (hq : quiet s x.u = false) : pushed s x n e = s := by
  simp [pushed, Nat.not_le.2 hn, hgone, hq]

theorem pushed_full (hn : n < x.t.groups) (hgone : feedGone s x n = false) (hq : quiet s x.u = true) (hfull : feedFull s x n = true) :
    pushed s x n e = setUnit s x.u { x.g with held := some (.fpush n e) } := by
  simp [pushed, Nat.not_le.2 hn, hgone, hq, hfull]

theorem pushed_room (hn : n < x.t.groups) (hgone : feedGone s x n = false) (hq : quiet s x.u = true) (hfull : feedFull s x n = false) :
    pushed s x n e = appendFeed s x n e := by
  simp [pushed, Nat.not_le.2 hn, hgone, hq, hfull]

end

theorem exec_fpushResume {s : State} {team n : Nat} {x : Ctx} {e : FeedEntry}
    (hx : issuing { s with focus := some ⟨team, 32⟩ } = some x) (hheld : x.g.held = some (.fpush n e)) (hroom : feedFull s x n = false) :
    exec (.fpushResume team) s = .next (appendFeed s x n e) := by
  change execFpushResume team s = _
  simp [execFpushResume, hx, hheld, hroom]

/-! ## agen -/

/-- The conductor registers after a step of the iterator: address, stepped address and index, written in this order (08 R210). -/
def agenRegs (k : TMap W64) (a b d : Nat) (adr next index : W64) : TMap W64 :=
  let ks := tset (tset k d adr) a next
  tset ks b (setIndex (tget 0 ks b) index)

theorem tget_agenRegs (k : TMap W64) (a b d n : Nat) (adr next index : W64) :
    tget 0 (agenRegs k a b d adr next index) n =
      if n = b then setIndex (if b = a then next else if b = d then adr else tget 0 k b) index
      else if n = a then next else if n = d then adr else tget 0 k n := by
  simp only [agenRegs, tget_tset]

/-- Bits [47:32] of a word written with a number below 2^16, by place value. -/
theorem setIndex_eq (w : W64) {n : Nat} (hn : n < 65536) :
    setIndex w (BitVec.ofNat 64 n) = BitVec.ofNat 64 (w.toNat / 2 ^ 48 * 2 ^ 48 + n * 2 ^ 32 + w.toNat % 2 ^ 32) := by
  refine BitVec.eq_of_toNat_eq ?_
  have hw := w.isLt
  rw [setIndex, BitVec.toNat_append, BitVec.toNat_append, ← Nat.shiftLeft_add_eq_or_of_lt (BitVec.isLt _),
    ← Nat.shiftLeft_add_eq_or_of_lt (BitVec.isLt _)]
  simp only [BitVec.extractLsb'_toNat, BitVec.toNat_setWidth, BitVec.toNat_ofNat, Nat.shiftLeft_eq, Nat.shiftRight_eq_div_pow]
  omega

/-- A word without a cause is well formed. -/
theorem wellFormed_of_issues {i : Instr} {s : State} {x : Ctx} (hi : issues i s x) : wellFormed i = true := by
  by_contra hw
  have hlegal : legalIn x i (infoOf i) = false := by simp [legalIn, hw]
  have hcheck := hi.2
  rw [wordCheck, hlegal] at hcheck
  split at hcheck <;> cases hcheck

/-- The destination of an agen is a k register. -/
theorem agen_destination {d a b c : OField} {g : Guard} (h : wellFormed (.agen d a b c g) = true) : d.toNat ≤ 11 := by
  have hfields : (decide (d.toNat ≤ 11) && decide (a.toNat ≤ 11) && decide (b.toNat ≤ 11) && decide (c.toNat ≤ 11)) = true := h
  simp only [Bool.and_eq_true, decide_eq_true_eq] at hfields
  omega

/-- The inner count of a descriptor (08 R210). -/
theorem bitsAt_count (w : W64) : bitsAt w.toNat 63 48 = w.toNat / 2 ^ 48 := by
  have := w.isLt
  simp only [bitsAt]
  omega

theorem agenStep_eq (adr desc c : W64) :
    let nin := desc.toNat / 2 ^ 48
    let i := desc.toNat / 2 ^ 32 % 65536 + 1
    agenStep adr desc c =
      (adr + (if i < nin then (desc.extractLsb' 0 32).signExtend 64 else (c.extractLsb' 0 32).signExtend 64),
        BitVec.ofNat 64 (if i < nin then i else 0)) := by
  intro nin i
  have hlow : ∀ w : W64, w.setWidth 32 = w.extractLsb' 0 32 := fun w => BitVec.setWidth_eq_extractLsb' (by decide)
  simp only [agenStep, bitsAt_count, sext64, hlow]
  rfl

/-- What agen leaves in its conductor. -/
def agenStepped (x : Ctx) (l : Nat) (d a b c : OField) : Grp :=
  let adr := kAt x.g a.toNat
  let r := agenStep adr (kAt x.g b.toNat) (kAt x.g c.toNat)
  { write64 true x.g l d adr with k := agenRegs x.g.k a.toNat b.toNat d.toNat adr r.1 r.2 }

section
variable {s : State} {x : Ctx} {d a b c : OField} {g : Guard} {l : Nat} {r : List Nat}

theorem exec_agen_traps (hi : issues (.agen d a b c g) s x) (hparts : x.parts g = l :: r) (hcount : (kAt x.g b.toNat).toNat / 2 ^ 48 = 0) :
    exec (.agen d a b c g) s = .next (trapWord s x .illegal 0 x.cl.mask 0) := by
  refine (word_effect _ hi.1 hi.2).trans ?_
  simp only [hparts, bitsAt_count, hcount, if_true]

theorem exec_agen_steps (hi : issues (.agen d a b c g) s x) (hparts : x.parts g = l :: r) (hcount : (kAt x.g b.toNat).toNat / 2 ^ 48 ≠ 0) :
    exec (.agen d a b c g) s = .next (setUnit s x.u (advance (agenStepped x l d a b c))) := by
  have hk : (write64 true x.g l d (kAt x.g a.toNat)).k = tset x.g.k d.toNat (kAt x.g a.toNat) := by
    simp [write64, agen_destination (wellFormed_of_issues hi)]
  refine (word_effect _ hi.1 hi.2).trans ?_
  simp only [hparts, bitsAt_count, hcount, if_false, hk]
  rfl

theorem agenStepped_onlyThreads : onlyThreads x.g (advance (agenStepped x l d a b c)) := by
  obtain ⟨ths, k, he⟩ : ∃ ths k, agenStepped x l d a b c = { x.g with threads := ths, k := k } :=
    onlyThreads_trans (write64_onlyThreads true x.g l d (kAt x.g a.toNat)) ⟨_, _, rfl⟩
  exact ⟨ths, k, by rw [he, advance_onlyThreads]⟩

theorem thrAt_agenStepped :
    thrAt (advance (agenStepped x l d a b c)) l = { x.thr l with lt := (kAt x.g a.toNat).extractLsb' 0 32 } := by
  have hthr : thrAt (agenStepped x l d a b c) l = thrAt (write64 true x.g l d (kAt x.g a.toNat)) l := rfl
  rw [thrAt_advance, hthr, thrAt_write64, if_pos rfl]
  simp [after64, Ctx.thr, BitVec.setWidth_eq_extractLsb']

theorem kAt_agenStepped (n : Nat) :
    let adr := kAt x.g a.toNat
    let desc := kAt x.g b.toNat
    let nin := desc.toNat / 2 ^ 48
    let i := desc.toNat / 2 ^ 32 % 65536 + 1
    let next := adr + (if i < nin then (desc.extractLsb' 0 32).signExtend 64 else ((kAt x.g c.toNat).extractLsb' 0 32).signExtend 64)
    let was : W64 := if b = a then next else if b = d then adr else desc
    kAt (advance (agenStepped x l d a b c)) n =
      if n = b.toNat then BitVec.ofNat 64 (was.toNat / 2 ^ 48 * 2 ^ 48 + (if i < nin then i else 0) * 2 ^ 32 + was.toNat % 2 ^ 32)
      else if n = a.toNat then next else if n = d.toNat then adr else kAt x.g n := by
  intro adr desc nin i next was
  have hindex : (if i < nin then i else 0) < 65536 := by
    have := desc.isLt
    split <;> omega
  rw [kAt_advance, ← setIndex_eq was hindex]
  simp only [kAt, agenStepped, tget_agenRegs, agenStep_eq, BitVec.toNat_inj]
  rfl

end

end Sys2Proof.Machine

namespace Sys2Proof.Claims

open Sys2Proof.Machine

/-- Settles O44: a feed is a fold over its participants, an fpush falls into the cases of its entry, and agen writes its registers in order. -/
theorem feedQueuesAndIterator : Obligations.FeedQueuesAndIterator := by
  unfold Obligations.FeedQueuesAndIterator
  refine ⟨?taken, fun d g s x hi hfeed hc => exec_feed_held hi hfeed hc, fun d g s x hi hfeed hc => exec_feed_traps hi hfeed hc, ?delivered,
    ?push, ?resume, ?agen⟩
  case taken =>
    intro d g s x e rest hi hfeed
    exact ⟨_, exec_feed_taken hi (by simp [hfeed]), popFeed_fed hfeed d g⟩
  case delivered =>
    intro u d g s x e rest hx hheld hfeed
    exact ⟨_, exec_feedDelivery hx hheld, popFeed_fed hfeed d g⟩
  case push =>
    intro i g b entry hform s x l r hi hparts n tg
    rw [goesTo, exec_fpush hform hi hparts]
    refine ⟨fun hn => ?_, fun hn hq hne hstays hlive hroom => ?_, fun hn hq hstays hlive hfull => ?_, fun hn hgone => ?_,
      fun hn hlive hstays hq => ?_⟩
    · rw [pushed_undeclared _ hn]
      rfl
    · have hopen : feedFull s x n = false := by rw [feedFull_eq hstays hlive]; exact decide_eq_false (Nat.not_le.2 hroom)
      exact ⟨_, by rw [pushed_room _ hn (feedGone_of_live hstays hlive) hq hopen], appendFeed_takes _ hstays hlive hne⟩
    · rw [pushed_full _ hn (feedGone_of_live hstays hlive) hq (by rw [feedFull_eq hstays hlive]; exact decide_eq_true hfull)]
    · have hdiscard : feedGone s x n = true := Bool.or_eq_true_iff.2 hgone
      rw [pushed_gone _ hn hdiscard, appendFeed_discards _ hdiscard]
    · rw [pushed_unquiet _ hn (feedGone_of_live hstays hlive) hq]
  case resume =>
    intro team s x n e hx hheld hn hstays hlive hroom
    have hu : x.u = ⟨team, 32⟩ := (issuing_focus hx).1
    have hlive' : (unitAt s ⟨x.u.team, n⟩).retired = false := by rw [hu]; exact hlive
    have hopen : feedFull s x n = false := by rw [feedFull_eq hstays hlive', hu]; exact decide_eq_false (Nat.not_le.2 hroom)
    have hne : (⟨x.u.team, n⟩ : UnitId) ≠ x.u := fun he => hn (by rw [hu] at he; exact congrArg UnitId.idx he)
    obtain ⟨hgroup, hcond, hmem, -⟩ := appendFeed_takes e hstays hlive' hne
    rw [hu] at hgroup hcond
    exact ⟨_, exec_fpushResume hx hheld hopen, hgroup, hcond, hmem⟩
  case agen =>
    intro d a b c g s x l r hi hparts hcond
    exact ⟨fun hn => exec_agen_traps hi hparts hn, fun hn =>
      ⟨_, exec_agen_steps hi hparts hn, by simp [onlyUnit], by rw [unitAt_setUnit_same]; exact agenStepped_onlyThreads,
        by rw [unitAt_setUnit_same]; exact thrAt_agenStepped, fun n => by rw [unitAt_setUnit_same]; exact kAt_agenStepped n⟩⟩

end Sys2Proof.Claims
end

section
/-! SUPPORT. The turn of a unit in a clause: a word that is fetched, stalls on nothing and is chosen runs (06 R126, R128, 15 R340, 16 R346). -/

namespace Sys2Proof.Machine

/-! ## A turn that runs its word -/

theorem fetchTurn_word {s s1 : State} {x : Ctx} {va : Nat} {w : W32} {i : Instr} (k : Instr → State → Turned) (hi : decodeWord w = .ok i)
    (hheld : fetchHeld s x va = []) (hfetch : fetchAt s x.u va = .word w s1) : fetchTurn s x va k = k i s1 := by
  simp [fetchTurn, hheld, hfetch, decoded, hi]

theorem wordTurn_word {s : State} {x : Ctx} {i : Instr} (hbusy : regBusy s x i = false) (hheld : heldAt s x i = [])
    (hpays : priceOf s x i = 0 ∨ ∀ c ∈ payers x.t, canPay s c (priceOf s x i) = true) :
    wordTurn x i s = .word x.u i { s with focus := some x.u } := by
  simp [wordTurn, hbusy, hheld, hpays]

theorem staysAtHeader_of_running {x : Ctx} (h : x.t.phase = .running) : staysAtHeader x = false := by
  simp [staysAtHeader, h]

theorem clauseTurn_header {s s1 : State} {x : Ctx} {w : W32} {i : Instr} (hrun : x.t.phase = .running) (hdec : x.cl.decoded = false)
    (hstray : strayHandler s x = false) (hi : decodeWord w = .ok i) (hheld : fetchHeld s x x.cl.head = [])
    (hfetch : fetchAt s x.u x.cl.head = .word w s1) : clauseTurn s x = .word x.u i { s1 with focus := some x.u } := by
  simp [clauseTurn, staysAtHeader_of_running hrun, hstray, hdec, fetchTurn_word _ hi hheld hfetch]

theorem strayHandler_of_decoded {s : State} {x : Ctx} (h : x.cl.decoded = true) : strayHandler s x = false := by
  simp [strayHandler, h]

/-- A word whose clause has waited for its flags. -/
def waitedCtx (x : Ctx) : Ctx :=
  { x with cl := { x.cl with waited := true }, g := { x.g with clause := some { x.cl with waited := true } } }

theorem waitedCtx_of_waited {x : Ctx} (hwaited : x.cl.waited = true) (hclause : x.g.clause = some x.cl) : waitedCtx x = x :=
  calc waitedCtx x = { x with g := { x.g with clause := some x.cl } } :=
        congrArg (fun b => { x with cl := { x.cl with waited := b }, g := { x.g with clause := some { x.cl with waited := b } } }) hwaited.symm
    _ = x := congrArg (fun c => { x with g := { x.g with clause := c } }) hclause.symm

theorem clauseTurn_waited {s : State} {x : Ctx} (hrun : x.t.phase = .running) (hdec : x.cl.decoded = true) (hwaited : x.cl.waited = true) :
    clauseTurn s x =
      fetchTurn (setUnit s x.u (waitedCtx x).g) (waitedCtx x) (waitedCtx x).pc (fun i s1 => wordTurn (waitedCtx x) i s1) := by
  rw [clauseTurn, if_neg (by simp [staysAtHeader_of_running hrun]), if_neg (by simp [strayHandler_of_decoded hdec]), if_neg (by simp [hdec]),
    if_neg (by simp [hwaited])]
  rfl

/-- A clause whose flags have been waited for goes on with its next word. -/
theorem clauseTurn_body {s s1 : State} {x : Ctx} {w : W32} {i : Instr} (hrun : x.t.phase = .running) (hdec : x.cl.decoded = true)
    (hwaited : x.cl.waited = true) (hclause : x.g.clause = some x.cl) (hi : decodeWord w = .ok i)
    (hfheld : fetchHeld (setUnit s x.u x.g) x x.pc = []) (hfetch : fetchAt (setUnit s x.u x.g) x.u x.pc = .word w s1)
    (hbusy : regBusy s1 x i = false) (hheld : heldAt s1 x i = [])
    (hpays : priceOf s1 x i = 0 ∨ ∀ c ∈ payers x.t, canPay s1 c (priceOf s1 x i) = true) :
    clauseTurn s x = .word x.u i { s1 with focus := some x.u } := by
  rw [clauseTurn_waited hrun hdec hwaited, waitedCtx_of_waited hwaited hclause, fetchTurn_word _ hi hfheld hfetch,
    wordTurn_word hbusy hheld hpays]

/-- A unit in a clause, neither held nor with a trap that is due, takes the turn of its clause. -/
theorem wantTurn_clause {s : State} {u : UnitId} {cl : Clause} (hfree : s.supervisor.freeze = false) (hstop : (teamAt s u.team).stopped = false)
    (hrun : (teamAt s u.team).phase = .running) (hlive : (unitAt s u).retired = false) (hheld : (unitAt s u).held = none)
    (hdef : (unitAt s u).deferred = []) (hcl : (unitAt s u).clause = some cl) :
    wantTurn s u = clauseTurn s { u := u, g := unitAt s u, cl := cl, t := teamAt s u.team } := by
  have hx : issuing { s with focus := some u } = some { u := u, g := unitAt s u, cl := cl, t := teamAt s u.team } := by
    have hcl' : (unitAt { s with focus := some u } u).clause = some cl := hcl
    simp only [issuing, hcl']
    rfl
  simp [wantTurn, frozen, hfree, hstop, hrun, hlive, hheld, deferredDue, hdef, hx]

theorem issueTurn_word {s s1 : State} {u v : UnitId} {i : Instr} (hwant : wantTurn s u = .word v i s1)
    (hslot : takesSlot i = false ∨ mayIssue s u = true) : issueTurn s u = .word v i s1 := by
  simp only [issueTurn, hwant]
  rw [if_pos (by simpa using hslot)]

/-- What follows exec in a unit's turn: the accounts of a word that has issued. -/
def accounted (s : State) (u : UnitId) (i : Instr) : Out → Out
  | .next t => .next (settled s u i t)
  | .fault f => .fault f
  | .refused f => .refused f

theorem step_word {s s1 : State} {u v : UnitId} {i : Instr} {r : List Turn} (ha : s.agenda = .issue u :: r)
    (hturn : issueTurn { s with agenda := r } u = .word v i s1) : step s = accounted s1 v i (exec i s1) := by
  have hturned : turned { s with agenda := r } (.issue u) = .word v i s1 := hturn
  simp only [step, ha, runTurn, hturned]
  cases exec i s1 <;> rfl

end Sys2Proof.Machine
end

section
/-! SUPPORT. The accounts of an issue: the purse, the slots, the reservations and the step they change, and what they leave as exec left it
(15 R340, R341, 16 R346, 17 R385). -/

namespace Sys2Proof.Machine

/-- What the accounts of an issue leave alone: memory, contexts, queues, the agenda, the focus, which teams run in lockstep, and every unit
but for what it notes of its own issue and denials. -/
structure OnlyAccounts (s t : State) : Prop where
  mem : t.mem = s.mem
  contexts : t.contexts = s.contexts
  queues : t.queues = s.queues
  agenda : t.agenda = s.agenda
  focus : t.focus = s.focus
  shadow : ∀ n, (teamAt t n).shadowCore = (teamAt s n).shadowCore
  units : ∀ v, unitAt t v =
    { unitAt s v with issued := (unitAt t v).issued, denied := (unitAt t v).denied, deniedFares := (unitAt t v).deniedFares }

namespace OnlyAccounts

theorem of_teams_eq {s t : State} (mem : t.mem = s.mem) (contexts : t.contexts = s.contexts) (queues : t.queues = s.queues)
    (agenda : t.agenda = s.agenda) (focus : t.focus = s.focus) (teams : t.teams = s.teams) : OnlyAccounts s t where
  mem := mem
  contexts := contexts
  queues := queues
  agenda := agenda
  focus := focus
  shadow n := by rw [teamAt, teams, teamAt]
  units v := by
    have hv : unitAt t v = unitAt s v := by rw [unitAt, teamAt, teams, unitAt, teamAt]
    rw [hv]

theorem refl (s : State) : OnlyAccounts s s := of_teams_eq rfl rfl rfl rfl rfl rfl

theorem trans {s t r : State} (h : OnlyAccounts s t) (k : OnlyAccounts t r) : OnlyAccounts s r where
  mem := k.mem.trans h.mem
  contexts := k.contexts.trans h.contexts
  queues := k.queues.trans h.queues
  agenda := k.agenda.trans h.agenda
  focus := k.focus.trans h.focus
  shadow n := (k.shadow n).trans (h.shadow n)
  units v := by
    have hk := k.units v
    rw [h.units v] at hk
    exact hk

theorem foldl {α : Type} {f : State → α → State} (h : ∀ s a, OnlyAccounts s (f s a)) (l : List α) (s : State) :
    OnlyAccounts s (l.foldl f s) := by
  induction l generalizing s with
  | nil => exact refl s
  | cons a r ih => exact (h s a).trans (ih (f s a))

theorem ite {c : Prop} [Decidable c] {s t r : State} (h : OnlyAccounts s t) (k : OnlyAccounts s r) : OnlyAccounts s (if c then t else r) := by
  split
  · exact h
  · exact k

theorem modCore (s : State) (c : Nat) (f : Core → Core) : OnlyAccounts s (modCore s c f) := of_teams_eq rfl rfl rfl rfl rfl rfl

theorem modCluster (s : State) (c : Nat) (f : Cluster → Cluster) : OnlyAccounts s (modCluster s c f) := of_teams_eq rfl rfl rfl rfl rfl rfl

theorem supervised (s : State) (x : Supervisor) : OnlyAccounts s { s with supervisor := x } := of_teams_eq rfl rfl rfl rfl rfl rfl

theorem modUnit (s : State) (u : UnitId) (f : Grp → Grp)
    (hf : ∀ g, f g = { g with issued := (f g).issued, denied := (f g).denied, deniedFares := (f g).deniedFares }) :
    OnlyAccounts s (modUnit s u f) where
  mem := rfl
  contexts := rfl
  queues := rfl
  agenda := rfl
  focus := rfl
  shadow n := by
    by_cases h : n = u.team
    · subst h
      simp [Machine.modUnit, setUnit]
    · rw [Machine.modUnit, setUnit, teamAt_modTeam_ne _ _ h]
  units v := by
    by_cases h : v = u
    · subst h
      rw [Machine.modUnit, unitAt_setUnit_same]
      exact hf _
    · rw [Machine.modUnit, unitAt_setUnit_ne _ _ h]

theorem askPassed (s : State) (a : Asker) : OnlyAccounts s (askPassed s a) := of_teams_eq rfl rfl rfl rfl rfl rfl

theorem triedUnit (i : Instr) (s : State) (u : UnitId) : OnlyAccounts s (triedUnit i s u) := ite (modCore ..) (refl s)

theorem refuseRest (before : State) (u : UnitId) (s : State) : OnlyAccounts s (refuseRest before u s) :=
  ite (refl s) (foldl (fun _ _ => modCore ..) _ s)

theorem useSlot (i : Instr) (s : State) (u : UnitId) : OnlyAccounts s (useSlot i s u) := ite (refl s) (modCore ..)

theorem issuedUnit (p : Nat) (s : State) (u : UnitId) : OnlyAccounts s (issuedUnit p s u) := by
  unfold Machine.issuedUnit
  extract_lets t c s1 s2 ring s3
  have hcharged : OnlyAccounts s s1 := ite (refl s) (foldl (fun _ _ => modCore ..) _ s)
  have hnoted : OnlyAccounts s1 s2 := ite (modUnit _ u _ (fun _ => rfl)) (refl s1)
  have hclaims : OnlyAccounts s2 s3 := of_teams_eq rfl rfl rfl rfl rfl rfl
  exact ((hcharged.trans hnoted).trans hclaims).trans (modCluster ..)

theorem endStep (before : State) (u : UnitId) (s : State) : OnlyAccounts s (endStep before u s) := ite (supervised ..) (refl s)

theorem holdBack_of_single {before after : State} {u : UnitId} (h : (teamAt after u.team).shadowCore = none) (moved : Bool) :
    holdBack before u moved after = after := if_pos (by rw [h]; rfl)

/-- Outside a lockstep pair nothing is held back, and what remains are accounts. -/
theorem settled {b : State} {u : UnitId} (hsingle : (teamAt b u.team).shadowCore = none) (a : State) (i : Instr) :
    OnlyAccounts { b with focus := none } (settled a u i b) := by
  unfold Machine.settled
  extract_lets p after moved idle s0 s1
  have hpassed : OnlyAccounts b after := ite (refl b) (askPassed ..)
  have hunfocused : OnlyAccounts { b with focus := none } { after with focus := none } :=
    { hpassed with focus := rfl }
  have hidle : OnlyAccounts { after with focus := none } idle := ite (triedUnit ..) (refl _)
  have hrefused : OnlyAccounts idle s0 := ite (refuseRest ..) (refl _)
  have hissued : OnlyAccounts s0 (moved.foldl (fun s v => Machine.issuedUnit p (Machine.useSlot i s v) v) s0) :=
    foldl (fun s v => (useSlot i s v).trans (issuedUnit p _ v)) moved s0
  have hall := (((hunfocused.trans hidle).trans hrefused).trans hissued)
  have hended : OnlyAccounts { b with focus := none } s1 := by
    have hshadow := hall.shadow u.team
    simp only [s1]
    rw [holdBack_of_single (hshadow.trans hsingle)]
    exact hall.trans (endStep ..)
  exact ite (hended.trans (supervised ..)) hended

end OnlyAccounts

end Sys2Proof.Machine

namespace Sys2Proof.Claims

open Sys2Proof.Machine

/-- Settles O5: the head of the agenda is the one turn taken, a unit's turn in its clause runs the word fetched, and what follows exec are
accounts. -/
theorem stepRunsDecodedWord : Obligations.StepRunsDecodedWord := by
  unfold Obligations.StepRunsDecodedWord
  refine ⟨?issue, ?accounts, ?event, ?command, ?mailbox, ?divergence⟩
  case issue =>
    intro s u r cl w i s1 ha hfree hstop hrun hlive hheld hdef hcl hi hslot x s0 runs
    have hwant : wantTurn s0 u = clauseTurn s0 x := wantTurn_clause hfree hstop hrun hlive hheld hdef hcl
    have hruns (hturn : clauseTurn s0 x = .word u i { s1 with focus := some u }) : runs :=
      step_word ha (issueTurn_word (hwant.trans hturn) hslot)
    constructor
    · intro hdec hstray hfheld hfetch
      exact hruns (clauseTurn_header hrun hdec hstray hi hfheld hfetch)
    · intro hdec hwaited hfheld hfetch hbusy hbound hpays
      exact hruns (clauseTurn_body hrun hdec hwaited hcl hi hfheld hfetch hbusy hbound hpays)
  case accounts =>
    intro a b u i hsingle t
    obtain ⟨hmem, hctx, hqueues, hagenda, hfocus, -, hunits⟩ := OnlyAccounts.settled hsingle a i
    exact ⟨hmem, hctx, hqueues, hagenda, hfocus, hunits⟩
  case event =>
    intro s i r ha
    simp only [step, ha, runTurn, turned]
  case command =>
    intro s c r ha hc
    simp only [step, ha, runTurn, turned, hc]
  case mailbox =>
    intro s bs r ha hm
    simp only [step, ha, runTurn, turned, hm]
  case divergence =>
    intro s u l a r ha
    simp only [step, ha, runTurn, turned]

end Sys2Proof.Claims
end

section
/-! SUPPORT. Registers of a conductor clause: 64 bits wide, of which a 32-bit source takes the low half and to which a 32-bit result goes
zero-extended (02 R45). -/

namespace Sys2Proof.Machine

/-! ## Sources -/

theorem Ctx.src_of_cond {x : Ctx} (hc : x.cond = true) (l : Nat) {o : OField} (ho : o.toNat ≤ 11) :
    x.src l o = (kAt x.g o.toNat).extractLsb' 0 32 := by
  rw [Ctx.src, if_pos ho, if_pos hc, BitVec.setWidth_eq_extractLsb' (by decide)]

theorem Ctx.src64_of_cond {x : Ctx} (hc : x.cond = true) (l : Nat) {o : OField} (ho : o.toNat ≤ 11) : x.src64 l o = kAt x.g o.toNat := by
  rw [Ctx.src64, if_pos ho, if_pos hc]

theorem Ctx.uni_of_cond {x : Ctx} (hc : x.cond = true) (u : SIdx) : x.uni u = (kAt x.g u.toNat).extractLsb' 0 32 := by
  rw [Ctx.uni, if_pos hc, BitVec.setWidth_eq_extractLsb' (by decide)]

theorem Ctx.uni64_of_cond {x : Ctx} (hc : x.cond = true) (i : Nat) : x.uni64 i = kAt x.g i := if_pos hc

/-! ## Results -/

/-- A participant's write to a k register leaves the others. -/
theorem kAt_of_tset {gr h : Grp} {i : Nat} {w : W64} (hk : h.k = tset gr.k i w) (n : Nat) : kAt h n = if n = i then w else kAt gr n := by
  rw [kAt, hk, tget_tset]
  rfl

theorem kAt_modThr (gr : Grp) (l n : Nat) (f : Thread → Thread) : kAt (modThr gr l f) n = kAt gr n := rfl

theorem kAt_writeO_cond (gr : Grp) (l : Nat) {d : OField} (hd : d.toNat ≤ 11) (v lt : W32) (n : Nat) :
    kAt (writeO true gr l d v lt) n = if n = d.toNat then v.setWidth 64 else kAt gr n :=
  kAt_of_tset (by simp [writeO, hd, modThr]) n

theorem kAt_writeV_cond (gr : Grp) (l v : Nat) (w : W32) (n : Nat) :
    kAt (writeV true gr l v w) n = if n = v then w.setWidth 64 else kAt gr n := kAt_of_tset (by simp [writeV]) n

theorem kAt_write64_cond (gr : Grp) (l : Nat) (d : OField) (w : W64) (n : Nat) :
    kAt (write64 true gr l d w) n = if n = d.toNat ∧ n ≤ 11 then w else kAt gr n := by
  by_cases hd : d.toNat ≤ 11
  · rw [kAt_of_tset (gr := gr) (i := d.toNat) (w := w) (by simp [write64, hd, modThr])]
    exact if_congr ⟨fun hn => ⟨hn, hn ▸ hd⟩, And.left⟩ rfl rfl
  · rw [if_neg (by omega), write64, if_neg hd, kAt_modThr]

/-- Zero-extension to a k register. -/
theorem setWidth64_eq_append (v : W32) : v.setWidth 64 = (0 : W32) ++ v := BitVec.setWidth_eq_append (by decide)

end Sys2Proof.Machine

namespace Sys2Proof.Claims

open Sys2Proof.Machine

/-- Settles O20: a source names the k register whole or its low half, and a result replaces one k register, zero-extended. -/
theorem conductorRegistersAreWide : Obligations.ConductorRegistersAreWide := by
  unfold Obligations.ConductorRegistersAreWide
  refine ⟨?fields, ?uniforms, ?results, ?mains⟩
  case fields => exact fun x l o hc ho => ⟨Ctx.src_of_cond hc l ho, Ctx.src64_of_cond hc l ho⟩
  case uniforms => exact fun x u hc => ⟨Ctx.uni_of_cond hc u, Ctx.uni64_of_cond hc u.toNat⟩
  case results => exact fun gr l d v w n hd => by rw [kAt_writeO_cond gr l hd, setWidth64_eq_append]
  case mains => exact fun gr l v n w => by rw [kAt_writeV_cond, setWidth64_eq_append]

end Sys2Proof.Claims
end

section
/-! SUPPORT. mfs: what its fold over the participants leaves in lanes and in k registers, and what each special register holds
(02 R51-R55, 07 R178). -/

namespace Sys2Proof.Machine

open Sys2Proof.Claims

/-! ## Writes to k registers, participant by participant -/

/-- A fold whose steps each write one k register: the last participant's value stands. -/
theorem foldl_kAfter {cond : Bool} {d : OField} {val : Nat → W64} {step : Grp → Nat → Grp}
    (hstep : ∀ gr l n, kAt (step gr l) n = if cond = true ∧ n = d.toNat ∧ n ≤ 11 then val l else kAt gr n) (ls : List Nat) (gr : Grp) :
    kAfter cond d ls val gr (ls.foldl step gr) := by
  intro n
  induction ls using List.reverseRecOn with
  | nil => rfl
  | append_singleton r l ih =>
    rw [List.foldl_concat, hstep, List.getLast?_concat]
    by_cases hw : cond = true ∧ n = d.toNat ∧ n ≤ 11
    · simp only [if_pos hw]
    · simp only [if_neg hw] at ih ⊢
      rw [ih]
      cases r.getLast? <;> rfl

/-! ## The word -/

/-- One participant's write: 64 bits to a k register, 32 bits to a thread's. -/
def specialWrite (cond : Bool) (gr : Grp) (l : Nat) (d : OField) (v : W64) : Grp :=
  if cond then write64 true gr l d v else writeO false gr l d (v.setWidth 32) (v.setWidth 32)

/-- One participant's read: its write, and the high half that a read of CYC captures (02 R53). -/
def specialRead (s : State) (d : OField) (n : SIdx) (x : Ctx) (gr : Grp) (l : Nat) : Grp :=
  let written := specialWrite x.cond gr l d (specialReg s x l n.toNat)
  if n = 0x09 then modThr written l (fun t => { t with cych := some ((cycOf s x.u).extractLsb' 32 32) }) else written

/-- The thread that read leaves. -/
def afterSpecial (s : State) (d : OField) (n : SIdx) (x : Ctx) (l : Nat) (t : Thread) : Thread :=
  let v := (specialReg s x l n.toNat).setWidth 32
  { afterO x.cond d v v t with cych := if n.toNat = 0x09 then some ((cycOf s x.u).extractLsb' 32 32) else t.cych }

/-- A thread's part of the write is the same in both kinds of clause: lt takes the low half, and t is written in a group's alone. -/
theorem thrAt_specialWrite (cond : Bool) (gr : Grp) (l j : Nat) (d : OField) (v : W64) :
    thrAt (specialWrite cond gr l d v) j = if j = l then afterO cond d (v.setWidth 32) (v.setWidth 32) (thrAt gr l) else thrAt gr j := by
  cases cond with
  | false => exact thrAt_writeO ..
  | true =>
    rw [specialWrite, if_pos rfl, thrAt_write64]
    simp [after64, afterO]

theorem specialWrite_onlyThreads (cond : Bool) (gr : Grp) (l : Nat) (d : OField) (v : W64) :
    ∃ ths k, specialWrite cond gr l d v = { gr with threads := ths, k := k } := by
  cases cond with
  | false => exact writeO_onlyThreads ..
  | true => exact write64_onlyThreads ..

section
variable (s : State) (d : OField) (n : SIdx) (x : Ctx) (gr : Grp) (l : Nat)

theorem thrAt_specialRead (j : Nat) :
    thrAt (specialRead s d n x gr l) j = if j = l then afterSpecial s d n x l (thrAt gr l) else thrAt gr j := by
  have hcode : n = 0x09 ↔ n.toNat = 0x09 := BitVec.toNat_eq
  by_cases hn : n = 0x09
  · simp only [specialRead, if_pos hn, thrAt_modThr, thrAt_specialWrite, if_true, afterSpecial, if_pos (hcode.1 hn)]
    split <;> rfl
  · simp only [specialRead, if_neg hn, thrAt_specialWrite, afterSpecial, if_neg (mt hcode.2 hn)]
    rfl

theorem specialRead_onlyThreads : ∃ ths k, specialRead s d n x gr l = { gr with threads := ths, k := k } := by
  have hwritten := specialWrite_onlyThreads x.cond gr l d (specialReg s x l n.toNat)
  by_cases hn : n = 0x09
  · rw [specialRead, if_pos hn]
    exact onlyThreads_trans hwritten ⟨_, _, rfl⟩
  · rw [specialRead, if_neg hn]
    exact hwritten

theorem kAt_specialRead (hc : x.cond = true) (i : Nat) :
    kAt (specialRead s d n x gr l) i = if i = d.toNat ∧ i ≤ 11 then specialReg s x l n.toNat else kAt gr i := by
  have hwritten : kAt (specialRead s d n x gr l) i = kAt (write64 true gr l d (specialReg s x l n.toNat)) i := by
    rw [specialRead, specialWrite, if_pos hc]
    split <;> rfl
  rw [hwritten, kAt_write64_cond]

theorem tAt_afterSpecial (hc : x.cond = false) (t : Thread) (r : Nat) :
    tAt (afterSpecial s d n x l t) r = if d.toNat ≤ 11 ∧ r = d.toNat then (specialReg s x l n.toNat).setWidth 32 else tAt t r := by
  have ht : (afterSpecial s d n x l t).t =
      (afterO x.cond d ((specialReg s x l n.toNat).setWidth 32) ((specialReg s x l n.toNat).setWidth 32) t).t := rfl
  rw [tAt, ht]
  refine (afterO_t ..).trans (if_congr ?_ rfl rfl)
  simp only [hc, true_and]
  omega

end

theorem exec_mfs_eq (d : OField) (n : SIdx) (g : Guard) (s : State) :
    exec (.mfs d n g) s = word (.mfs d n g) s (fun x => setUnit s x.u (advance ((x.parts g).foldl (specialRead s d n x) x.g))) := rfl

/-- All that mfs does: the participants' threads, and the fold's k registers. -/
theorem exec_mfs {s : State} {x : Ctx} {d : OField} {n : SIdx} {g : Guard} (hi : issues (.mfs d n g) s x) :
    ∃ h : Grp, exec (.mfs d n g) s = .next (setUnit s x.u h) ∧
      (∃ ths, h = { advance x.g with threads := ths, k := ((x.parts g).foldl (specialRead s d n x) x.g).k }) ∧
      (∀ l, l ∉ x.parts g → thrAt h l = x.thr l) ∧ (∀ l ∈ x.parts g, thrAt h l = afterSpecial s d n x l (x.thr l)) := by
  rw [exec_mfs_eq]
  exact word_lanes (.mfs d n g) g s x (specialRead s d n) (afterSpecial s d n x) hi.1 hi.2
    (fun gr l j hj => by rw [thrAt_specialRead, if_neg hj])
    (fun gr l => by rw [thrAt_specialRead, if_pos rfl])
    (specialRead_onlyThreads s d n x)

/-! ## FLAGS (02 R47) -/

/-- The word whose bits below n are those where a condition fails. -/
def bitsWhereNot (p : Nat → Prop) [DecidablePred p] (n : Nat) : Nat := (List.range n).foldl (fun m i => m + if p i then 0 else 2 ^ i) 0

section
variable (p : Nat → Prop) [DecidablePred p]

theorem bitsWhereNot_succ (n : Nat) : bitsWhereNot p (n + 1) = (if p n then 0 else 2 ^ n) + bitsWhereNot p n := by
  simp [bitsWhereNot, List.range_succ, Nat.add_comm]

theorem bitsWhereNot_lt (n : Nat) : bitsWhereNot p n < 2 ^ n := by
  induction n with
  | zero => exact Nat.one_pos
  | succ n ih =>
    rw [bitsWhereNot_succ]
    split <;> omega

theorem testBit_bitsWhereNot (n i : Nat) : (bitsWhereNot p n).testBit i = decide (i < n ∧ ¬p i) := by
  induction n with
  | zero => simp [bitsWhereNot]
  | succ n ih =>
    rw [bitsWhereNot_succ]
    obtain hlt | rfl | hgt := Nat.lt_trichotomy i n
    · have hkeeps : ((if p n then 0 else 2 ^ n) + bitsWhereNot p n).testBit i = (bitsWhereNot p n).testBit i := by
        split
        · rw [Nat.zero_add]
        · exact Nat.testBit_two_pow_add_gt hlt _
      rw [hkeeps, ih]
      simp [hlt, Nat.lt_succ_of_lt hlt]
    · have hclear : (bitsWhereNot p i).testBit i = false := Nat.testBit_lt_two_pow (bitsWhereNot_lt p i)
      by_cases hp : p i
      · simp [hp, hclear]
      · simp [hp, Nat.testBit_two_pow_add_eq, hclear]
    · have hsmall := bitsWhereNot_lt p (n + 1)
      rw [bitsWhereNot_succ] at hsmall
      rw [Nat.testBit_lt_two_pow (hsmall.trans_le (Nat.pow_le_pow_right Nat.two_pos hgt))]
      simp [Nat.not_lt.2 hgt]

end

theorem getLsbD_flagsWord (gr : Grp) (i : Nat) : (flagsWord gr).getLsbD i = true ↔ i < 12 ∧ tget 0 gr.flags i ≠ 0 := by
  have hbits : flagsWord gr = BitVec.ofNat 32 (bitsWhereNot (fun i => tget 0 gr.flags i = 0) 12) := rfl
  rw [hbits, BitVec.getLsbD_ofNat, testBit_bitsWhereNot]
  simp only [Bool.and_eq_true, decide_eq_true_eq]
  exact ⟨And.right, fun h => ⟨by omega, h⟩⟩

/-! ## Counts -/

/-- The low half of a count. -/
theorem setWidth_lowHalf (w : W64) : (w.extractLsb' 0 32).setWidth 64 = BitVec.ofNat 64 (w.toNat % 2 ^ 32) := by
  apply BitVec.eq_of_toNat_eq
  simp

/-- The high half of a count. -/
theorem setWidth_highHalf (w : W64) : (w.extractLsb' 32 32).setWidth 64 = BitVec.ofNat 64 (w.toNat / 2 ^ 32) := by
  apply BitVec.eq_of_toNat_eq
  have := w.isLt
  simp [Nat.shiftRight_eq_div_pow]
  omega

section
variable (s : State) (x : Ctx) (l : Nat)

theorem specialReg_cyc : specialReg s x l 0x09 = BitVec.ofNat 64 ((cycOf s x.u).toNat % 2 ^ 32) := setWidth_lowHalf _

theorem specialReg_cych_captured {h : W32} (hcap : (x.thr l).cych = some h) : specialReg s x l 0x0A = h.setWidth 64 := by
  simp only [specialReg, hcap]

theorem specialReg_cych_free (hfree : (x.thr l).cych = none) : specialReg s x l 0x0A = BitVec.ofNat 64 ((cycOf s x.u).toNat / 2 ^ 32) := by
  simp only [specialReg, hfree, setWidth_highHalf]

theorem getLsbD_specialReg_flags (i : Nat) : (specialReg s x l 0x0C).getLsbD i = true ↔ i < 12 ∧ tget 0 x.g.flags i ≠ 0 := by
  rw [← getLsbD_flagsWord]
  show ((flagsWord x.g).setWidth 64).getLsbD i = true ↔ _
  simp only [BitVec.getLsbD_setWidth, Bool.and_eq_true, decide_eq_true_eq, and_iff_right_iff_imp]
  exact fun h => by have := BitVec.lt_of_getLsbD h; omega

theorem specialReg_dlrem_unlimited (hd : (ctxAt s x.t.ctx).record.deadline = 0) : specialReg s x l 0x0B = 0xFFFFFFFF := by
  simp only [specialReg, dlremWord, hd, if_true]
  rfl

theorem specialReg_dlrem_capped (hd : (ctxAt s x.t.ctx).record.deadline ≠ 0) :
    specialReg s x l 0x0B = BitVec.ofNat 64 (min (ctxAt s x.t.ctx).dlrem 0xFFFFFFFF) := by
  simp only [specialReg, dlremWord, hd, if_false]
  apply BitVec.eq_of_toNat_eq
  simp

end

end Sys2Proof.Machine

namespace Sys2Proof.Claims

open Sys2Proof.Machine

/-- Settles O23: mfs is a fold over its participants, each of which writes the special register to its own lane, or to the k register of a
conductor clause. -/
theorem specialRegisterReads : Obligations.SpecialRegisterReads := by
  unfold Obligations.SpecialRegisterReads
  refine ⟨?group, ?conductor, ?threads, ?shared, ?exceptions, specialReg_dlrem_unlimited, specialReg_dlrem_capped, ?spent⟩
  case group =>
    intro d n g s x hi hc
    obtain ⟨h, he, ⟨ths, hk⟩, hout, hin⟩ := exec_mfs hi
    refine ⟨_, he, by simp [onlyUnit], ?_⟩
    rw [unitAt_setUnit_same]
    refine ⟨⟨ths, _, hk⟩, fun l => ?_⟩
    split
    · next hl =>
      rw [hin l hl]
      exact ⟨rfl, tAt_afterSpecial s d n x l hc (x.thr l), rfl⟩
    · next hl => exact hout l hl
  case conductor =>
    intro d n g s x hi hc
    obtain ⟨h, he, ⟨ths, hk⟩, -, -⟩ := exec_mfs hi
    refine ⟨_, he, by simp [onlyUnit], ?_⟩
    rw [unitAt_setUnit_same]
    have hfold : kAfter true d (x.parts g) (specialReg s x · n.toNat) x.g ((x.parts g).foldl (specialRead s d n x) x.g) :=
      foldl_kAfter (fun gr l i => by simp only [kAt_specialRead s d n x gr l hc, true_and]) (x.parts g) x.g
    refine ⟨⟨ths, _, hk⟩, fun i => ?_⟩
    rw [hk]
    exact hfold i
  case threads =>
    intro s x l hc
    simp [specialReg, hc, clusterOf, Config.coresPerCluster]
  case shared =>
    intro s x l
    have hwiden {k : Nat} (w : BitVec k) : w.setWidth 64 = BitVec.ofNat 64 w.toNat := (BitVec.ofNat_toNat 64 w).symm
    exact ⟨rfl, hwiden _, rfl, rfl, rfl, specialReg_cyc s x l, fun h => specialReg_cych_captured s x l, specialReg_cych_free s x l,
      getLsbD_specialReg_flags s x l, rfl, hwiden _, hwiden _, rfl, rfl, rfl⟩
  case exceptions =>
    intro s x l hc
    have hidx : x.u.idx = 32 := beq_iff_eq.1 hc
    simp [specialReg, hc, hidx]
  case spent =>
    intro s x l hd h0
    rw [specialReg_dlrem_capped s x l hd, h0]
    rfl

end Sys2Proof.Claims
end

section
/-! SUPPORT. Rounding a value that a code of an IEEE format holds: its last place is the one it is rounded at, so nothing is discarded and
its fields come back (03 R62-R64, R66, 07 R161). -/

namespace Sys2Proof.Machine

/-! ## The fields of a code -/

/-- The weight of a sign in a code. -/
def IFmt.signCode (f : IFmt) (neg : Bool) : Nat := if neg then 2 ^ (f.eb + f.tb) else 0

/-- The sign of a code, as ieeeVal reads it. -/
def IFmt.signOf (f : IFmt) (x : Nat) : Bool := x / 2 ^ (f.eb + f.tb) % 2 == 1

/-- The exponent field of a code. -/
def IFmt.exponentOf (f : IFmt) (x : Nat) : Nat := x / 2 ^ f.tb % 2 ^ f.eb

/-- The trailing field of a code. -/
def IFmt.trailingOf (f : IFmt) (x : Nat) : Nat := x % 2 ^ f.tb

theorem IFmt.trailingOf_lt (f : IFmt) (x : Nat) : f.trailingOf x < 2 ^ f.tb := Nat.mod_lt _ (Nat.two_pow_pos _)

theorem IFmt.exponentOf_lt (f : IFmt) (x : Nat) : f.exponentOf x < 2 ^ f.eb := Nat.mod_lt _ (Nat.two_pow_pos _)

/-- A code is its fields at their weights. -/
theorem IFmt.fields_eq (f : IFmt) {x : Nat} (hx : x < 2 ^ (f.eb + f.tb + 1)) :
    f.signCode (f.signOf x) + (f.exponentOf x * 2 ^ f.tb + f.trailingOf x) = x := by
  have hmag : f.exponentOf x * 2 ^ f.tb + f.trailingOf x = x % 2 ^ (f.eb + f.tb) := by
    rw [IFmt.exponentOf, IFmt.trailingOf, Nat.add_comm f.eb, Nat.pow_add, Nat.mod_mul, Nat.mul_comm, Nat.add_comm]
  have htop : x / 2 ^ (f.eb + f.tb) < 2 := Nat.div_lt_of_lt_mul (by rwa [← Nat.pow_succ])
  have hsign : f.signCode (f.signOf x) = 2 ^ (f.eb + f.tb) * (x / 2 ^ (f.eb + f.tb)) := by
    obtain h | h := Nat.le_one_iff_eq_zero_or_eq_one.1 (Nat.lt_succ_iff.1 htop) <;> simp [IFmt.signCode, IFmt.signOf, h]
  rw [hmag, hsign, Nat.div_add_mod]

/-! ## Exact rounding -/

theorem bitLen_le {m n : Nat} (h : m < 2 ^ n) : bitLen m ≤ n := by
  unfold bitLen
  split
  · exact Nat.zero_le n
  · next h0 => exact (Nat.log2_lt h0).2 h

theorem bitLen_eq {m n : Nat} (hlo : 2 ^ n ≤ m) (hhi : m < 2 ^ (n + 1)) : bitLen m = n + 1 := by
  have h0 : m ≠ 0 := (Nat.lt_of_lt_of_le (Nat.two_pow_pos n) hlo).ne'
  rw [bitLen, if_neg h0, (Nat.log2_eq_iff h0).2 ⟨hlo, hhi⟩]

theorem roundAt_self (rm : RMode) (neg : Bool) (m : Nat) (e : Int) : roundAt rm neg m e e = (m, false) := by
  simp [roundAt]

/-- A finite value whose last place is the one it is rounded at keeps it, with no flag, unless it overflows. -/
theorem ieeeRound_fin_of_lastPlace {f : IFmt} {m : Nat} {e : Int} (rm : RMode) (neg : Bool) (h0 : m ≠ 0)
    (hq : max (e + bitLen m - (f.tb + 1)) f.minE = e) (hlt : (e - f.minE).toNat * 2 ^ f.tb + m < (2 ^ f.eb - 1) * 2 ^ f.tb) :
    ieeeRound f rm (.fin neg m e) = (f.signCode neg + ((e - f.minE).toNat * 2 ^ f.tb + m), 0) := by
  simp [ieeeRound, IFmt.signCode, h0, hq, roundAt_self, Nat.not_le.2 hlt]

/-- Of a subnormal's magnitude the last place is the least one. -/
theorem lastPlace_subnormal {f : IFmt} {m : Nat} (h : m < 2 ^ f.tb) : max (f.minE + bitLen m - (f.tb + 1)) f.minE = f.minE := by
  have := bitLen_le h
  omega

/-- A normal's magnitude fills the precision, so its last place is its own. -/
theorem lastPlace_normal {f : IFmt} {m : Nat} {e : Int} (hlo : 2 ^ f.tb ≤ m) (hhi : m < 2 ^ (f.tb + 1)) (he : f.minE ≤ e) :
    max (e + bitLen m - (f.tb + 1)) f.minE = e := by
  rw [bitLen_eq hlo hhi]
  omega

/-- Fields below the exponent of the infinities are below the codes of the infinities. -/
theorem fields_lt_inf {ex tr p q : Nat} (hex : ex < q) (htr : tr < p) : ex * p + tr < q * p :=
  calc ex * p + tr < (ex + 1) * p := by rw [Nat.succ_mul]; omega
    _ ≤ q * p := Nat.mul_le_mul_right p hex

theorem ieeeRound_subnormal {f : IFmt} {tr : Nat} (rm : RMode) (neg : Bool) (htr : tr < 2 ^ f.tb) (heb : 0 < 2 ^ f.eb - 1) :
    ieeeRound f rm (.fin neg tr f.minE) = (f.signCode neg + tr, 0) := by
  obtain rfl | h0 := Nat.eq_zero_or_pos tr
  · rfl
  · have hlt := fields_lt_inf heb htr
    rw [ieeeRound_fin_of_lastPlace rm neg h0.ne' (lastPlace_subnormal htr) (by simpa using hlt)]
    simp

theorem ieeeRound_normal {f : IFmt} {ex tr : Nat} (rm : RMode) (neg : Bool) (hex : 0 < ex) (hfin : ex < 2 ^ f.eb - 1)
    (htr : tr < 2 ^ f.tb) :
    ieeeRound f rm (.fin neg (2 ^ f.tb + tr) (f.minE + (ex : Int) - 1)) = (f.signCode neg + (ex * 2 ^ f.tb + tr), 0) := by
  have hcode : (f.minE + (ex : Int) - 1 - f.minE).toNat * 2 ^ f.tb + (2 ^ f.tb + tr) = ex * 2 ^ f.tb + tr := by
    obtain ⟨k, rfl⟩ := Nat.exists_eq_succ_of_ne_zero hex.ne'
    have hk : (f.minE + (k.succ : Int) - 1 - f.minE).toNat = k := by omega
    rw [hk, Nat.succ_mul, Nat.add_assoc]
  have hq := lastPlace_normal (f := f) (m := 2 ^ f.tb + tr) (e := f.minE + (ex : Int) - 1) (by omega) (by omega) (by omega)
  rw [ieeeRound_fin_of_lastPlace rm neg (by omega) hq (by rw [hcode]; exact fields_lt_inf hfin htr), hcode]

/-! ## Codes -/

/-- A code's value, by its fields. -/
theorem ieeeVal_eq (f : IFmt) (x : Nat) :
    ieeeVal f x =
      if f.exponentOf x = 2 ^ f.eb - 1 then
        if f.trailingOf x = 0 then .inf (f.signOf x) else .nan (f.trailingOf x / 2 ^ (f.tb - 1) == 0)
      else if f.exponentOf x = 0 then .fin (f.signOf x) (f.trailingOf x) f.minE
      else .fin (f.signOf x) (2 ^ f.tb + f.trailingOf x) (f.minE + (f.exponentOf x : Int) - 1) := rfl

/-- The value of a code that is no NaN rounds to that code, with no flag. -/
theorem ieeeRound_ieeeVal {f : IFmt} {x : Nat} (rm : RMode) (hx : x < 2 ^ (f.eb + f.tb + 1)) (hn : ∀ sig, ieeeVal f x ≠ .nan sig) :
    ieeeRound f rm (ieeeVal f x) = (x, 0) := by
  have hfields := f.fields_eq hx
  have htr := f.trailingOf_lt x
  have hex := f.exponentOf_lt x
  rw [ieeeVal_eq] at hn ⊢
  split_ifs at hn ⊢ with hinf h0 hsub
  · rw [hinf, h0] at hfields
    exact congrArg (·, 0) hfields
  · exact absurd rfl (hn _)
  · rw [ieeeRound_subnormal rm _ htr (by omega)]
    rw [hsub, Nat.zero_mul, Nat.zero_add] at hfields
    rw [hfields]
  · rw [ieeeRound_normal rm _ (by omega) (by omega) htr, hfields]

/-- Without saturation and flushing RoundIEEE is the rounding alone (07 R161). -/
theorem roundIEEE_plain (f : IFmt) (rm : RMode) (v : FVal) : roundIEEE f rm false false v = ieeeRound f rm v := by
  cases v <;> simp [roundIEEE]

end Sys2Proof.Machine

namespace Sys2Proof.Claims

open Sys2Proof.Machine

/-- Settles O15: a NaN rounds to the canonical one by the rounding's first case; any other code's value is rounded at its own last place. -/
theorem roundingIsExactOnCodes : Obligations.RoundingIsExactOnCodes := by
  unfold Obligations.RoundingIsExactOnCodes
  intro f _ rm x hx
  rw [roundIEEE_plain]
  split
  · next sig hnan => rw [hnan, ieeeRound]
  · next hnot => exact ieeeRound_ieeeVal rm hx hnot

end Sys2Proof.Claims
end

section
/-! SUPPORT. Resolution by space and window (04 R80, R81): which place or cause each address names, and what a lane's checks make of it
(02 R58, 17 R380); the home slice as slices of bits (04 R89). -/

namespace Sys2Proof.Machine

variable {s : State} {u : UnitId} {k : AccKind} {sp : Space} {n al l o : Nat} {ea : W64}

/-! ## What each window names -/

/-- A private offset of a thread checked against its private and spill bytes (04 R81). -/
def privPlace (s : State) (u : UnitId) (l o n : Nat) : Except Bad Place :=
  if (teamAt s u.team).privBytes + (teamAt s u.team).kernel.spill < o + n then .error (.violation 1) else .ok (.priv (unitKey u) l o)

/-- The member that an offset of the gang window names (04 R81). -/
def gangMember (s : State) (u : UnitId) (o : Nat) : Nat := (gangMembers s (teamAt s u.team)).getD (o / 2 ^ 20 % 16) 0

/-- An offset of the gang window: checked against the members and the declared bytes, and then for a member that is gone (04 R81, 17 R380). -/
def gangPlace (s : State) (u : UnitId) (o n : Nat) : Except Bad Place :=
  if o < 2 ^ 24 ∧ o / 2 ^ 20 % 16 < (gangMembers s (teamAt s u.team)).length ∧ o % 2 ^ 20 + n ≤ (teamAt s u.team).kernel.scratch then
    if gangMember s u o = u.team ∨ spadGone s (gangMember s u o) = false then .ok (.spad (gangMember s u o) (o % 2 ^ 20))
    else .error .gone
  else .error .spadBounds

theorem resolve_spad : resolve s u l .spad ea n = spadPlace (teamAt s u.team) ea.toNat n := rfl

theorem resolve_priv : resolve s u l .priv ea n = privPlace s u l ea.toNat n := rfl

theorem resolve_glb_of_lt (h : ea.toNat < 0xFF0000000000) : resolve s u l .glb ea n = .ok (.glob ea.toNat) :=
  if_neg (by omega)

theorem resolve_glb_of_le (h : 0xFF0000000000 ≤ ea.toNat) : resolve s u l .glb ea n = .error (.violation 1) :=
  if_pos (.inr h)

/-- Past 48 bits no window lies (04 R80). -/
theorem resolve_gen_beyond (h : 2 ^ 48 ≤ ea.toNat) : resolve s u l .gen ea n = .error (.violation 1) :=
  if_pos h

theorem resolve_gen_global (h : ea.toNat < 0xFF0000000000) : resolve s u l .gen ea n = resolve s u l .glb ea n :=
  (if_neg (by omega)).trans (if_pos h)

theorem resolve_gen_spad (hlo : 0xFF0000000000 ≤ ea.toNat) (hhi : ea.toNat < 0xFF4000000000) :
    resolve s u l .gen ea n = spadPlace (teamAt s u.team) (ea.toNat - 0xFF0000000000) n :=
  (if_neg (by omega)).trans ((if_neg (by omega)).trans (if_pos hhi))

theorem resolve_gen_priv (hlo : 0xFF8000000000 ≤ ea.toNat) (hhi : ea.toNat < 2 ^ 48) :
    resolve s u l .gen ea n = privPlace s u l (ea.toNat - 0xFF8000000000) n :=
  (if_neg (by omega)).trans ((if_neg (by omega)).trans ((if_neg (by omega)).trans (if_neg (by omega))))

theorem resolve_gen_gang (hlo : 0xFF4000000000 ≤ ea.toNat) (hhi : ea.toNat < 0xFF8000000000) :
    resolve s u l .gen ea n = gangPlace s u (ea.toNat - 0xFF4000000000) n := by
  refine (if_neg (by omega)).trans ((if_neg (by omega)).trans ((if_neg (by omega)).trans ((if_pos hhi).trans ?_)))
  generalize ea.toNat - 0xFF4000000000 = o
  rw [gangPlace]
  dsimp only
  split
  · next hnone => exact (if_neg (by omega)).symm
  · next hmember =>
    split
    · next hbeyond => exact (if_neg (by omega)).symm
    · next hwithin =>
      refine Eq.trans ?_ (if_pos ⟨by omega, by omega, by omega⟩).symm
      split
      · next hgone => exact (if_neg (by simpa [gangMember] using hgone)).symm
      · next hhere => exact (if_pos (by simpa [gangMember, or_iff_not_imp_left] using hhere)).symm

/-! ## What a lane meets at its place or cause (02 R58, 17 R380) -/

theorem laneRes_of_spadBounds (h : resolve s u l sp ea n = .error .spadBounds) :
    laneRes s u k sp n al l ea = .bad 0 .spadBounds 0 ea := by
  simp only [laneRes, h]

theorem laneRes_of_violation {v : Nat} (h : resolve s u l sp ea n = .error (.violation v)) :
    laneRes s u k sp n al l ea = if ea.toNat % al = 0 then .bad 2 .accessViolation v ea else .bad 1 .misaligned 0 ea := by
  simp [laneRes, h]

theorem laneRes_of_gone (h : resolve s u l sp ea n = .error .gone) :
    laneRes s u k sp n al l ea = if ea.toNat % al = 0 then .bad 3 .remoteGone 0 ea else .bad 1 .misaligned 0 ea := by
  simp [laneRes, h]

theorem laneRes_of_spad {tm : Nat} (h : resolve s u l sp ea n = .ok (.spad tm o)) :
    laneRes s u k sp n al l ea = if ea.toNat % al = 0 then .ok (.spad tm o) 0 else .bad 1 .misaligned 0 ea := by
  simp [laneRes, h]

theorem laneRes_of_priv {key : Nat} (h : resolve s u l sp ea n = .ok (.priv key l o)) :
    laneRes s u k sp n al l ea = if ea.toNat % al = 0 then .ok (.priv key l o) 0 else .bad 1 .misaligned 0 ea := by
  simp [laneRes, h]

theorem laneRes_of_glob {va : Nat} (h : resolve s u l sp ea n = .ok (.glob va)) :
    laneRes s u k sp n al l ea =
      if ea.toNat % al = 0 then globalLane s (teamAt s u.team).core (teamAt s u.team).ctx k va ea else .bad 1 .misaligned 0 ea := by
  simp [laneRes, h]

/-- An address that names an offset of the team's own scratchpad, whatever window it came through. -/
theorem laneRes_of_spadPlace (h : resolve s u l sp ea n = spadPlace (teamAt s u.team) o n) :
    laneRes s u k sp n al l ea =
      if o + n ≤ (teamAt s u.team).kernel.scratch then
        if ea.toNat % al = 0 then .ok (.spad (teamAt s u.team).uid o) 0 else .bad 1 .misaligned 0 ea
      else .bad 0 .spadBounds 0 ea := by
  split
  · next hin => exact laneRes_of_spad (h.trans (if_neg (Nat.not_lt.mpr hin)))
  · next hout => exact laneRes_of_spadBounds (h.trans (if_pos (Nat.not_le.mp hout)))

/-- An address that names an offset of the thread's own memory, whatever window it came through. -/
theorem laneRes_of_privPlace (h : resolve s u l sp ea n = privPlace s u l o n) :
    laneRes s u k sp n al l ea =
      if o + n ≤ (teamAt s u.team).privBytes + (teamAt s u.team).kernel.spill then
        if ea.toNat % al = 0 then .ok (.priv (u.team * 64 + u.idx) l o) 0 else .bad 1 .misaligned 0 ea
      else if ea.toNat % al = 0 then .bad 2 .accessViolation 1 ea else .bad 1 .misaligned 0 ea := by
  split
  · next hin => exact laneRes_of_priv (h.trans (if_neg (Nat.not_lt.mpr hin)))
  · next hout => exact laneRes_of_violation (h.trans (if_pos (Nat.not_le.mp hout)))

/-- An address that names an offset of the gang window. -/
theorem laneRes_of_gangPlace (h : resolve s u l sp ea n = gangPlace s u o n) :
    laneRes s u k sp n al l ea =
      if o < 2 ^ 24 ∧ o / 2 ^ 20 % 16 < (gangMembers s (teamAt s u.team)).length ∧ o % 2 ^ 20 + n ≤ (teamAt s u.team).kernel.scratch then
        if gangMember s u o = u.team ∨ spadGone s (gangMember s u o) = false then
          if ea.toNat % al = 0 then .ok (.spad (gangMember s u o) (o % 2 ^ 20)) 0 else .bad 1 .misaligned 0 ea
        else if ea.toNat % al = 0 then .bad 3 .remoteGone 0 ea else .bad 1 .misaligned 0 ea
      else .bad 0 .spadBounds 0 ea := by
  split
  · next hin =>
    split
    · next hhere => exact laneRes_of_spad (h.trans ((if_pos hin).trans (if_pos hhere)))
    · next hgone => exact laneRes_of_gone (h.trans ((if_pos hin).trans (if_neg hgone)))
  · next hout => exact laneRes_of_spadBounds (h.trans (if_neg hout))

theorem laneRes_congr {sp' : Space} (h : resolve s u l sp ea n = resolve s u l sp' ea n) :
    laneRes s u k sp n al l ea = laneRes s u k sp' n al l ea := by
  rw [laneRes, laneRes, h]

/-! ## The home slice -/

/-- The highest ten bits of an address, extended by zeros. -/
theorem toNat_zeroExtend_high (a : BitVec 48) : ((0 : BitVec 6) ++ a.extractLsb' 38 10).toNat = a.toNat / 2 ^ 38 % 1024 := by
  rw [BitVec.toNat_append]
  simp [Nat.shiftRight_eq_div_pow]

theorem homeSlice_toNat (a : BitVec 48) :
    homeSlice a.toNat =
      ((a.extractLsb' 6 16) ^^^ (a.extractLsb' 22 16) ^^^ ((0 : BitVec 6) ++ a.extractLsb' 38 10)).toNat % 192 := by
  rw [BitVec.toNat_xor, BitVec.toNat_xor, toNat_zeroExtend_high]
  simp [homeSlice, Nat.shiftRight_eq_div_pow]

end Sys2Proof.Machine

namespace Sys2Proof.Claims

open Sys2Proof.Machine

/-- Settles O36: each space and window names a place or a cause, of which the lane's checks make what the statement says. -/
theorem addressesResolve : Obligations.AddressesResolve := by
  unfold Obligations.AddressesResolve
  refine ⟨fun s u k n al l ea _ => ?_, by decide, homeSlice_toNat⟩
  exact ⟨laneRes_of_spadPlace resolve_spad,
    laneRes_of_privPlace resolve_priv,
    fun h => laneRes_of_violation (resolve_glb_of_le h),
    fun h => laneRes_of_glob (resolve_glb_of_lt h),
    fun h => laneRes_of_violation (resolve_gen_beyond h),
    fun h => laneRes_congr (resolve_gen_global h),
    fun hlo hhi => laneRes_of_spadPlace (resolve_gen_spad hlo hhi),
    fun hlo hhi => laneRes_of_privPlace (resolve_gen_priv hlo hhi),
    fun hlo hhi => laneRes_of_gangPlace (resolve_gen_gang hlo hhi)⟩

end Sys2Proof.Claims
end

section
/-! SUPPORT. Release and acquire steps: what a core's bytes come to at their homes and in its view (05 R102-R105). -/

namespace Sys2Proof.Machine

/-! ## The last of several writes -/

/-- A memory's byte after writes in order: the last write of the byte, else what it was. -/
theorem memRead_memApply (ws : Writes) (m : Mem) (a : Nat) :
    memRead (memApply m ws) a = ((ws.filter (fun e => e.1 == a)).getLast?.map (·.2)).getD (memRead m a) := by
  induction ws generalizing m with
  | nil => rfl
  | cons w ws ih =>
    have hr : memApply m (w :: ws) = memApply (memWrite m w.1 w.2) ws := rfl
    rw [hr, ih, memRead_memWrite]
    by_cases h : w.1 = a
    · cases hl : (ws.filter (fun e => e.1 == a)).getLast? <;> simp [h, List.getLast?_cons, hl]
    · simp [h, Ne.symm h]

/-- A map's value after entries in order: the last entry of the key, else what it was. -/
theorem tget?_foldl_tset {α : Type} (ws : List (Nat × α)) (m : TMap α) (a : Nat) :
    tget? (ws.foldl (fun m w => tset m w.1 w.2) m) a =
      match (ws.filter (fun e => e.1 == a)).getLast? with
      | some e => some e.2
      | none => tget? m a := by
  induction ws generalizing m with
  | nil => rfl
  | cons w ws ih =>
    rw [List.foldl_cons, ih, tget?_tset]
    by_cases h : w.1 = a
    · cases hl : (ws.filter (fun e => e.1 == a)).getLast? <;> simp [h, List.getLast?_cons, hl]
    · simp [h, Ne.symm h]

/-! ## Cores that stay, cores that change -/

@[simp] theorem coreAt_homeWrite (s : State) (ws : Writes) (c : Nat) : coreAt (homeWrite s ws) c = coreAt s c := by simp [coreAt]

theorem coreAt_publish_same (s : State) (c : Nat) (sel : Nat → Bool) :
    coreAt (publish s c sel) c =
      { coreAt s c with
        unpub := (coreAt s c).unpub.filter (fun e => !sel e.1)
        own := ((coreAt s c).unpub.filter (fun e => sel e.1)).foldl (fun m w => tset m w.1 w.2) (coreAt s c).own } := by
  simp [publish]

theorem publish_mem (s : State) (c : Nat) (sel : Nat → Bool) :
    (publish s c sel).mem = memApply s.mem ((coreAt s c).unpub.filter (fun e => sel e.1)) := homeWrite_mem _ _

theorem coreAt_releaseStep_same (s : State) (c : Nat) :
    coreAt (releaseStep s c) c =
      { coreAt s c with unpub := [], own := (coreAt s c).unpub.foldl (fun m w => tset m w.1 w.2) (coreAt s c).own } := by
  simp [releaseStep, coreAt_publish_same]

theorem releaseStep_mem (s : State) (c : Nat) : (releaseStep s c).mem = memApply s.mem (coreAt s c).unpub := by
  simp [releaseStep, publish_mem]

theorem coreAt_acquireStep_same (s : State) (c : Nat) :
    coreAt (acquireStep s c) c = { coreAt s c with cut := s.mem, own := [], eng := [], sinceAcquire := 0 } := coreAt_modCore_same ..

/-! ## What a core sees -/

/-- After a release step a core sees the last of a byte's unpublished values. -/
theorem viewByte_releaseStep {s : State} {c a : Nat} {v : Byte} (h : (coreAt s c).unpub.filter (fun e => e.1 == a) = [(a, v)]) :
    viewByte (releaseStep s c) c a = v := by
  have hown : tget? ((coreAt s c).unpub.foldl (fun m w => tset m w.1 w.2) (coreAt s c).own) a = some v := by
    rw [tget?_foldl_tset, h]; rfl
  simp [viewByte, coreAt_releaseStep_same, hown]

/-- After an acquire step a core sees its unpublished bytes over the new cut, whatever is then written at the homes. -/
theorem viewByte_homeWrite_acquireStep (s : State) (c a : Nat) (ws : Writes) :
    viewByte (homeWrite (acquireStep s c) ws) c a = (tget? (coreAt s c).unpub a).getD (memRead s.mem a) := by
  have hview : coreAt (homeWrite (acquireStep s c) ws) c = { coreAt s c with cut := s.mem, own := [], eng := [], sinceAcquire := 0 } := by
    rw [coreAt_homeWrite, coreAt_acquireStep_same]
  simp only [viewByte, hview, tget?_nil]
  cases tget? (coreAt s c).unpub a <;> rfl

theorem viewByte_acquireStep (s : State) (c a : Nat) :
    viewByte (acquireStep s c) c a = (tget? (coreAt s c).unpub a).getD (memRead s.mem a) :=
  viewByte_homeWrite_acquireStep s c a []

/-! ## fence and phase -/

/-- The issuing unit's team is that of the state. -/
theorem issuing_team {s : State} {x : Ctx} (hx : issuing s = some x) : x.t = teamAt s x.u.team := by
  unfold issuing at hx
  split at hx
  · cases hx
  · split at hx
    · cases hx
    · cases hx; rfl

section
variable {s : State} {x : Ctx}

/-- A fence whose step is there takes it and goes on. -/
theorem exec_fence_taken {k : Scope} {s1 : State} (hi : Claims.issues (.fence k) s x) (hk : fenceStep s x.u k = some s1) :
    exec (.fence k) s = .next (modUnit s1 x.u advance) := by
  change execFence k s = _
  rw [execFence, word_effect _ hi.1 hi.2, hk]

/-- A fence whose step is not there yet waits. -/
theorem exec_fence_waits {k : Scope} (hi : Claims.issues (.fence k) s x) (hk : fenceStep s x.u k = none) :
    exec (.fence k) s = .next s := by
  change execFence k s = _
  rw [execFence, word_effect _ hi.1 hi.2, hk]

theorem fenceStep_narrow {k : Scope} (hq : quiet s x.u = true) (hk : k = .grp ∨ k = .team ∨ k = .gang) :
    fenceStep s x.u k = some s := by
  rcases hk with rfl | rfl | rfl <;> simp [fenceStep, hq]

theorem fenceStep_wide {k : Scope} (hq : quiet s x.u = true) (hk : k = .dev ∨ k = .sys ∧ peerWaits s x.u = false) :
    fenceStep s x.u k = some (arStep s (coreOf s x.u)) := by
  rcases hk with rfl | ⟨rfl, hp⟩
  · simp [fenceStep, hq]
  · simp [fenceStep, hq, hp]

theorem fenceStep_waits {k : Scope} (h : quiet s x.u = false ∨ k = .sys ∧ peerWaits s x.u = true) : fenceStep s x.u k = none := by
  rcases h with hq | ⟨rfl, hp⟩
  · simp [fenceStep, hq]
  · simp [fenceStep, hp]

theorem exec_phase_taken {k : PhaseKind} (hi : Claims.issues (.phase k) s x) (hq : quiet s x.u = true) :
    exec (.phase k) s = .next (modUnit (match k with
      | .rel => releaseStep s x.t.core
      | .acq => acquireStep s x.t.core
      | .ar => arStep s x.t.core) x.u advance) := by
  change execPhase k s = _
  rw [execPhase, word_effect _ hi.1 hi.2]
  simp only [hq, Bool.not_true, Bool.false_eq_true, if_false]
  cases k <;> rfl

theorem exec_phase_waits {k : PhaseKind} (hi : Claims.issues (.phase k) s x) (hq : quiet s x.u = false) :
    exec (.phase k) s = .next s := by
  change execPhase k s = _
  rw [execPhase, word_effect _ hi.1 hi.2]
  simp [hq]

end

end Sys2Proof.Machine

namespace Sys2Proof.Claims

open Sys2Proof.Machine

theorem releaseStep_publishes (s : State) (c : Nat) :
    (coreAt (releaseStep s c) c).unpub = [] ∧
    (∀ a, memRead (releaseStep s c).mem a =
      (((coreAt s c).unpub.filter (fun e => e.1 == a)).getLast?.map (·.2)).getD (memRead s.mem a)) ∧
    ∀ a v, (coreAt s c).unpub.filter (fun e => e.1 == a) = [(a, v)] → viewByte (releaseStep s c) c a = v :=
  ⟨by rw [coreAt_releaseStep_same], fun a => by rw [releaseStep_mem, memRead_memApply], fun _ _ h => viewByte_releaseStep h⟩

theorem acquireStep_cuts (s : State) (c : Nat) :
    (acquireStep s c).mem = s.mem ∧ (coreAt (acquireStep s c) c).unpub = (coreAt s c).unpub ∧
    (∀ c', c' ≠ c → coreAt (acquireStep s c) c' = coreAt s c') ∧
    (∀ a, viewByte (acquireStep s c) c a = (tget? (coreAt s c).unpub a).getD (memRead s.mem a)) ∧
    ∀ ws a, viewByte (homeWrite (acquireStep s c) ws) c a = viewByte (acquireStep s c) c a :=
  ⟨rfl, by rw [coreAt_acquireStep_same], fun _ h => coreAt_modCore_ne _ _ h, viewByte_acquireStep s c,
    fun ws a => by rw [viewByte_homeWrite_acquireStep, viewByte_acquireStep]⟩

/-- Settles O41: the two steps by what they make of the core, fence and phase by the step that each takes or waits for. -/
theorem phaseStepsMoveTheView : Obligations.PhaseStepsMoveTheView := by
  unfold Obligations.PhaseStepsMoveTheView
  refine ⟨releaseStep_publishes, acquireStep_cuts, fun k s x hi hq hk => ?_, fun k s x hi hq hk => ?_, fun k s x hi hq => ?_,
    fun k s x hi h => exec_fence_waits hi (fenceStep_waits h), fun k s x hi hq => exec_phase_waits hi hq⟩
  · rw [exec_fence_taken hi (fenceStep_narrow hq hk), modUnit, (issuing_unit hi.1).1]
  · rw [exec_fence_taken hi (fenceStep_wide hq hk), coreOf, ← issuing_team hi.1]; rfl
  · rw [exec_phase_taken hi hq]; cases k <;> rfl

end Sys2Proof.Claims
end

section
/-! SUPPORT. The counterexample to O39: a state whose teams list one key twice. A read finds the first entry; waitedWords looks through every
entry, so the second one's run is seen to wait. The drain writes the unit back, which leaves the first entry alone, and then no run waits
for the word that it stores: the word is not published (05 R108, 08 R207). -/

namespace Sys2Proof.Machine

/-- A store of one byte, not 0, to the first byte of memory. -/
def loneStore : PendingStore :=
  { id := 0, pc := 0, cstart := 0, flag := none, lanes := [{ lane := 0, loc := .phys 0, data := [1] }] }

/-- A run that waits for the word at the first byte of memory. -/
def loneWait : BlockedRun :=
  { id := 1, clause := { mask := 1, head := 0 }, wait := .waitf (.phys 0) 0 1 .eq 0 none, parts := 1 }

/-- Reset with two entries for team 0: the store stands in the first, the wait in the second. -/
def teamListedTwice : State :=
  { State.reset with teams := [(0, { units := [(0, { stores := [loneStore] })] }), (0, { units := [(0, { blocked := [loneWait] })] })] }

/-- The first byte of memory after the store has drained. -/
def drainedByte : Out → Byte
  | .next t => memRead t.mem 0
  | _ => 1

theorem loneStore_drains : (unitAt teamListedTwice ⟨0, 0⟩).stores.find? (storeReady teamListedTwice ⟨0, 0⟩) = some loneStore := by
  decide +kernel

theorem loneWait_waits : waitedWords teamListedTwice (coreOf teamListedTwice ⟨0, 0⟩) 0 1 ≠ [] := by decide +kernel

/-- The drain leaves the word at its home as it was. -/
theorem loneStore_unpublished : drainedByte (exec (.storeDrain ⟨0, 0⟩) teamListedTwice) = 0 := by decide +kernel

end Sys2Proof.Machine

namespace Sys2Proof.Claims

open Sys2Proof.Machine

/-- Refutes O39: where a team's key is listed twice, a run of the entry that no read finds counts as waiting before the drain and is gone
after it, so the word it waits for is not published with the stored data. -/
theorem not_storeDrainIsSeenByItsCore : ¬ Obligations.StoreDrainIsSeenByItsCore := by
  unfold Obligations.StoreDrainIsSeenByItsCore
  intro h
  obtain ⟨t, hexec, -, -, -, -, -, -, hlast⟩ := h ⟨0, 0⟩ teamListedTwice loneStore loneStore_drains rfl
  have hstored := (hlast [] _ [] 0 rfl (by decide) (fun _ _ hloc => nomatch hloc) (fun _ hb => nomatch hb)).2 0 rfl loneWait_waits
  have hdrained := loneStore_unpublished
  rw [hexec] at hdrained
  exact absurd (hstored.symm.trans hdrained) (by decide)

end Sys2Proof.Claims
end

section
/-! SUPPORT. Every step keeps the canonical form of memory (O2): the form as a predicate on what an operation answers,
and the operations on registers, traps, accesses and clauses. `f_mem` says that `f` leaves home memory as it is, `f_wf`
that it answers canonical memory when given it, and `T.Wf` says of an answer of type `T` that a state it carries on has
canonical memory. Only `homeWrite` and the reset of BOOT write home memory: every other lemma follows its operation's
calls down to these. These sections' theorems are elaborated one after another (`Elab.async`): side by side, the stacks of
their threads come near the memory the check allows. -/

set_option Elab.async false

namespace Sys2Proof.Machine

/-- What a step answers, with a next state of canonical memory. -/
def OutWf : Out → Prop
  | .next s => Memory.wf s.mem = true
  | _ => True

/-- A fold of an operation that keeps memory canonical keeps it so. -/
theorem foldl_wf {α : Type} (f : State → α → State) (l : List α) (s : State)
    (hf : ∀ s a, Memory.wf s.mem = true → Memory.wf (f s a).mem = true) (hs : Memory.wf s.mem = true) : Memory.wf (l.foldl f s).mem = true :=
  foldl_inv f (fun s => Memory.wf s.mem = true) hf l s hs

theorem foldl_mem {α : Type} (f : State → α → State) (l : List α) (s : State) (hf : ∀ s a, (f s a).mem = s.mem) :
    (l.foldl f s).mem = s.mem :=
  foldl_keeps f (·.mem) hf l s

/-- A word, whatever its effect: it waits, traps, or takes the effect. -/
theorem word_wf (i : Instr) (s : State) (effect : Ctx → State) (hs : Memory.wf s.mem = true) (he : ∀ x, Memory.wf (effect x).mem = true) :
    OutWf (word i s effect) := by
  unfold word
  split
  · exact hs
  · split
    · exact trapDeliver_wf _ _ _ hs
    · exact he _

@[simp] theorem writeSect_mem (s : State) (u : UnitId) (code : Nat) : (writeSect s u code).mem = s.mem := rfl

@[simp] theorem clearMode_mem (s : State) (c : Nat) : (clearMode s c).mem = s.mem := by
  unfold clearMode
  split <;> rfl

@[simp] theorem clearModes_mem (s : State) (t : Team) : (clearModes s t).mem = s.mem := by
  unfold clearModes
  split <;> simp

@[simp] theorem fresh_mem (s : State) : (fresh s).2.mem = s.mem := rfl

theorem publishLoc_wf (s : State) (c : Nat) (loc : Loc) (n : Nat) (hs : Memory.wf s.mem = true) : Memory.wf (publishLoc s c loc n).mem = true := by
  unfold publishLoc
  split
  · exact publish_wf _ _ _ hs
  · exact hs

theorem recallLine_wf (s : State) (l : Nat) (hs : Memory.wf s.mem = true) : Memory.wf (recallLine s l).mem = true := by
  unfold recallLine
  refine foldl_wf _ _ _ (fun t _ ht => ?_) hs
  exact publish_wf _ _ _ ht

theorem settleOwned_wf (s : State) (hs : Memory.wf s.mem = true) : Memory.wf (settleOwned s).mem = true := by
  unfold settleOwned
  grind [recallLine_wf, foldl_wf]

@[simp] theorem faultLogAdd_mem (s : State) (u : UnitId) (r : TrapRec) : (faultLogAdd s u r).mem = s.mem := rfl

@[simp] theorem setBar_mem (s : State) (t n : Nat) (b : Barrier) : (setBar s t n b).mem = s.mem := rfl

@[simp] theorem releaseBar_mem (s : State) (t n : Nat) (status : W32) : (releaseBar s t n status).mem = s.mem := by
  unfold releaseBar
  grind [barRelease_mem, setBar_mem]

@[simp] theorem releaseGangBar_mem (s : State) (t : Nat) (status : W32) : (releaseGangBar s t status).mem = s.mem := by
  unfold releaseGangBar
  grind [acquireStep_mem, barRelease_mem, setGangBar_mem, foldl_mem]

@[simp] theorem withdrawWait_mem (s : State) (u : UnitId) (b : BlockedRun) : (withdrawWait s u b).mem = s.mem := by
  unfold withdrawWait
  grind [modTeam_mem, setBar_mem, setGangBar_mem]

@[simp] theorem windDown_mem (s : State) (t : Nat) : (windDown s t).mem = s.mem := by
  unfold windDown
  grind [setUnit_mem]

@[simp] theorem exitLanes_mem (s : State) (u : UnitId) (lanes : List Nat) : (exitLanes s u lanes).mem = s.mem := by
  unfold exitLanes
  grind [modTeam_mem, setUnit_mem, checkBars_mem, windDown_mem]

@[simp] theorem handlerReturn_mem (s : State) (u : UnitId) : (handlerReturn s u).mem = s.mem := by
  unfold handlerReturn
  grind [setUnit_mem, exitLanes_mem]

@[simp] theorem seenGrid_mem (s : State) (u : UnitId) (f : FutSlot) : (seenGrid s u f).mem = s.mem := by
  unfold seenGrid
  split <;> rfl

theorem endFwait_wf (s : State) (u : UnitId) (b : BlockedRun) (v slot : Nat) (noerr : Bool) (hs : Memory.wf s.mem = true) :
    Memory.wf (endFwait s u b v slot noerr).mem = true := by
  unfold endFwait
  grind [setUnit_mem, trapDeliver_wf, seenGrid_mem]

theorem wakeFwaits_wf (s : State) (u : UnitId) (slot : Nat) (hs : Memory.wf s.mem = true) : Memory.wf (wakeFwaits s u slot).mem = true := by
  unfold wakeFwaits
  refine foldl_wf _ _ _ (fun t _ ht => ?_) hs
  grind [endFwait_wf]

theorem wakeReady_wf (s : State) (u : UnitId) (hs : Memory.wf s.mem = true) : Memory.wf (wakeReady s u).mem = true := by
  unfold wakeReady
  refine foldl_wf _ _ _ (fun t _ ht => ?_) hs
  grind [wakeFwaits_wf]

theorem completeSlot_wf (s : State) (u : UnitId) (slot : Nat) (err : Nat) (detail : BitVec 16) (failAddr : W64) (hs : Memory.wf s.mem = true) :
    Memory.wf (completeSlot s u slot err detail failAddr).mem = true := by
  unfold completeSlot
  grind [setUnit_mem, wakeFwaits_wf]

@[simp] theorem withdrawLane_mem (s : State) (u : UnitId) (l : Nat) : (withdrawLane s u l).mem = s.mem := by
  unfold withdrawLane
  split <;> simp

theorem deferTrap_wf (s : State) (u : UnitId) (r : TrapRec) (lane : Nat) (hs : Memory.wf s.mem = true) :
    Memory.wf (deferTrap s u r lane).mem = true := by
  unfold deferTrap
  grind [modUnit_mem, writeTrapRec_wf, report_mem, stopTeam_mem, withdrawLane_mem, foldl_wf]

@[simp] theorem engineAdd_mem (s : State) (t : Nat) : (engineAdd s t).mem = s.mem := rfl

@[simp] theorem engineEnd_mem (s : State) (t : Nat) : (engineEnd s t).mem = s.mem := by
  unfold engineEnd
  split <;> rfl

theorem trapWord_wf (s : State) (x : Ctx) (c : Cause) (sub : Nat) (lanes : W32) (addr : W64) (hs : Memory.wf s.mem = true) :
    Memory.wf (trapWord s x c sub lanes addr).mem = true := trapDeliver_wf _ _ _ hs

theorem aluF_wf (i : Instr) (g : Guard) (d : OField) (f : Ctx → Nat → W32 × BitVec 5) (s : State) (hs : Memory.wf s.mem = true) :
    OutWf (aluF i g d f s) := by
  unfold aluF
  refine word_wf _ _ _ hs fun x => ?_
  grind [setUnit_mem]

theorem alu_wf (i : Instr) (g : Guard) (d : OField) (f : Ctx → Nat → W32) (s : State) (hs : Memory.wf s.mem = true) : OutWf (alu i g d f s) := by
  unfold alu
  refine word_wf _ _ _ hs fun x => ?_
  grind [setUnit_mem]

theorem alu64_wf (i : Instr) (g : Guard) (d : OField) (f : Ctx → Nat → W64) (s : State) (hs : Memory.wf s.mem = true) :
    OutWf (alu64 i g d f s) := by
  unfold alu64
  refine word_wf _ _ _ hs fun x => ?_
  grind [setUnit_mem]

theorem aluP_wf (i : Instr) (g : Guard) (p : PIdx) (f : Ctx → Nat → Bool × BitVec 5) (s : State) (hs : Memory.wf s.mem = true) :
    OutWf (aluP i g p f s) := by
  unfold aluP
  refine word_wf _ _ _ hs fun x => ?_
  grind [setUnit_mem]

/-- The state an access answers, checked or trapped, has canonical memory. -/
def Access.Wf : Access → Prop
  | .trap s _ _ _ _ => Memory.wf s.mem = true
  | .go s _ _ => Memory.wf s.mem = true

theorem rankTrap_wf (s : State) (rs : List (Nat × LaneRes)) (hs : Memory.wf s.mem = true) : (rankTrap s rs).Wf := by
  unfold rankTrap
  split <;> exact hs

theorem passLanes_wf (core ctx : Nat) (kind : AccKind) (s : State) (rs : List (Nat × LaneRes)) (hs : Memory.wf s.mem = true) :
    Memory.wf (passLanes core ctx kind s rs).mem = true := by
  unfold passLanes
  refine foldl_wf _ _ _ (fun t _ ht => ?_) hs
  grind [translate_wf]

theorem access_wf (s : State) (u : UnitId) (kind : AccKind) (space : Space) (size align : Nat) (lanes : List (Nat × W64))
    (hs : Memory.wf s.mem = true) : (access s u kind space size align lanes).Wf := by
  unfold access
  grind [rankTrap_wf, passLanes_wf, Access.Wf]

@[simp] theorem writeFaults_mem (s : State) (u : UnitId) (kind : AccKind) (log : Nat) (fs : List Faulted) :
    (writeFaults s u kind log fs).mem = s.mem := by
  unfold writeFaults
  grind [writeFault_mem, foldl_mem]

@[simp] theorem holdReplay_mem (s : State) (u : UnitId) (kind : AccKind) (fs : List Faulted) : (holdReplay s u kind fs).mem = s.mem := by
  unfold holdReplay
  split <;> simp

theorem drainHome_wf (s : State) (core a : Nat) (bs : List Byte) (hs : Memory.wf s.mem = true) : Memory.wf (drainHome s core a bs).mem = true := by
  unfold drainHome
  refine foldl_wf _ _ _ (fun t _ ht => ?_) hs
  exact publishLoc_wf _ _ _ _ ht

theorem drainTo_wf (s : State) (core : Nat) (loc : Loc) (bs : List Byte) (hs : Memory.wf s.mem = true) :
    Memory.wf (drainTo s core loc bs).mem = true := by
  unfold drainTo
  grind [modTeam_mem, modUnit_mem, testWaits_mem, drainHome_wf]

/-- The state a read of records answers, stopped or done, has canonical memory. -/
def HeldRead.Wf : HeldRead → Prop
  | .stop s => Memory.wf s.mem = true
  | .vals s _ => Memory.wf s.mem = true

theorem heldRead_wf (s : State) (x : Ctx) (space : Space) (size align : Nat) (lanes : List (Nat × W64)) (hs : Memory.wf s.mem = true) :
    (heldRead s x space size align lanes).Wf := by
  unfold heldRead
  grind [trapWord_wf, access_wf, holdReplay_mem, Access.Wf, HeldRead.Wf]

/-- The state a fetch goes on from has canonical memory. -/
def Fetch.Wf : Fetch → Prop
  | .word _ s => Memory.wf s.mem = true
  | _ => True

theorem fetchAt_wf (s : State) (u : UnitId) (va : Nat) (hs : Memory.wf s.mem = true) : (fetchAt s u va).Wf := by
  unfold fetchAt
  grind [translate_wf, Fetch.Wf]

@[simp] theorem fetchFault_mem (s : State) (u : UnitId) (va level : Nat) (h : Bool) : (fetchFault s u va level h).mem = s.mem := by
  unfold fetchFault
  split <;> rfl

theorem fetchMany_wf (u : UnitId) (head : Nat) (mask : W32) (n va : Nat) (s : State) (ws : List W32) (hs : Memory.wf s.mem = true) :
    (∀ r, fetchMany u head mask n va s ws = .ok r → Memory.wf r.2.mem = true) ∧
      ∀ t, fetchMany u head mask n va s ws = .error t → Memory.wf t.mem = true := by
  induction n generalizing va s ws with
  | zero => simpa [fetchMany] using hs
  | succ n ih =>
    unfold fetchMany
    grind [fetchAt_wf, fetchFault_mem, trapDeliver_wf, Fetch.Wf]

theorem beginClause_wf (s : State) (x : Ctx) (header : W32) (hs : Memory.wf s.mem = true) : Memory.wf (beginClause s x header).mem = true := by
  have hf := fetchMany_wf x.u x.cl.head x.cl.mask (Nat.min (bitsAt header.toNat 5 1 + 1) 24 + 1) (x.cl.head + 4) s [] hs
  unfold beginClause
  grind [trapDeliver_wf, setUnit_mem, modTeam_mem]

theorem misplaced_wf (s : State) (x : Ctx) (w : W32) (hs : Memory.wf s.mem = true) : Memory.wf (misplaced s x w).mem = true :=
  trapWord_wf _ _ _ _ _ _ hs

theorem execClauseHeader_wf (wait : BitVec 12) (setA setB : BitVec 4) (len : BitVec 5) (s : State) (hs : Memory.wf s.mem = true) :
    OutWf (execClauseHeader wait setA setB len s) := by
  unfold execClauseHeader
  grind [beginClause_wf, misplaced_wf, OutWf]

theorem hintWord_wf (i : Instr) (kind : Nat) (p : BitVec 24) (s : State) (hs : Memory.wf s.mem = true) : OutWf (hintWord i kind p s) := by
  unfold hintWord
  refine word_wf _ _ _ hs fun x => ?_
  grind [setUnit_mem, trapDeliver_wf]

theorem execHintImmediate_wf (p : BitVec 24) (s : State) (hs : Memory.wf s.mem = true) : OutWf (execHintImmediate p s) := hintWord_wf _ _ _ _ hs

theorem execHintCache_wf (p : BitVec 24) (s : State) (hs : Memory.wf s.mem = true) : OutWf (execHintCache p s) := hintWord_wf _ _ _ _ hs

theorem execHintModifier_wf (p : BitVec 24) (s : State) (hs : Memory.wf s.mem = true) : OutWf (execHintModifier p s) := hintWord_wf _ _ _ _ hs

theorem execLpad_wf (label : BitVec 16) (s : State) (hs : Memory.wf s.mem = true) : OutWf (execLpad label s) := by
  unfold execLpad
  refine word_wf _ _ _ hs fun x => ?_
  grind [setUnit_mem]

theorem execUnallocatedEncoding_wf (s : State) (hs : Memory.wf s.mem = true) : OutWf (execUnallocatedEncoding s) := by
  unfold execUnallocatedEncoding
  grind [trapWord_wf, beginClause_wf, misplaced_wf, OutWf]

theorem doXfers_wf (s : State) (u : UnitId) (pc cstart : Nat) (xs : TMap Xfer) (hs : Memory.wf s.mem = true) :
    Memory.wf (doXfers s u pc cstart xs).mem = true := by
  unfold doXfers
  grind [modUnit_mem, writeFault_mem, trapDeliver_wf, foldl_wf]

theorem endClause_wf (s : State) (x : Ctx) (g0 : Grp) (hs : Memory.wf s.mem = true) : Memory.wf (endClause s x g0).mem = true := by
  unfold endClause
  grind [setUnit_mem, exitLanes_mem, handlerReturn_mem, doXfers_wf]

@[simp] theorem discard_mem (s : State) (u : UnitId) (ids : List Nat) : (discard s u ids).mem = s.mem := by
  unfold discard
  grind [modGrid_mem, modUnit_mem, foldl_mem]

theorem pairMismatch_wf (s : State) (u : UnitId) (pc : Nat) (cl : Clause) (a : Upset) (hs : Memory.wf s.mem = true) :
    Memory.wf (pairMismatch s u pc cl a).mem = true := by
  unfold pairMismatch
  grind [trapDeliver_wf, discard_mem]

theorem compareEarly_wf (s : State) (u : UnitId) (hs : Memory.wf s.mem = true) : Memory.wf (compareEarly s u).mem = true := by
  unfold compareEarly
  grind [setUnit_mem, pairMismatch_wf]

theorem compareNow_wf (s : State) (x : Ctx) (hs : Memory.wf s.mem = true) : Memory.wf (compareNow s x).mem = true := by
  unfold compareNow
  split
  · exact pairMismatch_wf _ _ _ _ _ hs
  · exact hs

theorem holdBack_wf (before : State) (u : UnitId) (moved : Bool) (after : State) (ha : Memory.wf after.mem = true) :
    Memory.wf (holdBack before u moved after).mem = true := by
  unfold holdBack
  grind [modUnit_mem, compareEarly_wf]

@[simp] theorem diverge_mem (s : State) (u : UnitId) (lane : Nat) (addr : W64) : (diverge s u lane addr).mem = s.mem := by
  unfold diverge
  split <;> rfl

theorem execClauseTrailer_wf (va : VIdx) (oa : OField) (vb : VIdx) (ob : OField) (count : BitVec 2) (s : State) (hs : Memory.wf s.mem = true) :
    OutWf (execClauseTrailer va oa vb ob count s) := by
  unfold execClauseTrailer
  grind [trapWord_wf, misplaced_wf, endClause_wf, pairMismatch_wf, OutWf]

theorem alu1_wf (i : Instr) (g : Guard) (d a : OField) (f : W32 → W32) (s : State) (hs : Memory.wf s.mem = true) : OutWf (alu1 i g d a f s) :=
  alu_wf _ _ _ _ _ hs

theorem alu2_wf (i : Instr) (g : Guard) (d a b : OField) (f : W32 → W32 → W32) (s : State) (hs : Memory.wf s.mem = true) :
    OutWf (alu2 i g d a b f s) := alu_wf _ _ _ _ _ hs

theorem alu3_wf (i : Instr) (g : Guard) (d a b c : OField) (f : W32 → W32 → W32 → W32) (s : State) (hs : Memory.wf s.mem = true) :
    OutWf (alu3 i g d a b c f s) := alu_wf _ _ _ _ _ hs

theorem aluImm_wf (i : Instr) (d a : OField) (f : W32 → W32) (s : State) (hs : Memory.wf s.mem = true) : OutWf (aluImm i d a f s) :=
  alu1_wf _ _ _ _ _ _ hs

theorem execMad_wf (d a b c : OField) (g : Guard) (s : State) (hs : Memory.wf s.mem = true) : OutWf (execMad d a b c g s) :=
  alu3_wf _ _ _ _ _ _ _ _ hs

theorem execSel_wf (d a b c : OField) (g : Guard) (s : State) (hs : Memory.wf s.mem = true) : OutWf (execSel d a b c g s) :=
  alu3_wf _ _ _ _ _ _ _ _ hs

theorem execAndn_wf (d a b : OField) (g : Guard) (s : State) (hs : Memory.wf s.mem = true) : OutWf (execAndn d a b g s) :=
  alu2_wf _ _ _ _ _ _ _ hs

theorem execIntUniformOp_wf (d a : OField) (u : SIdx) (g : Guard) (f : IntUFn) (s : State) (hs : Memory.wf s.mem = true) :
    OutWf (execIntUniformOp d a u g f s) := by
  unfold execIntUniformOp
  grind [alu_wf, alu64_wf, aluP_wf]

theorem execAddi_wf (d a : OField) (imm : BitVec 18) (s : State) (hs : Memory.wf s.mem = true) : OutWf (execAddi d a imm s) :=
  aluImm_wf _ _ _ _ _ hs

theorem execAndi_wf (d a : OField) (imm : BitVec 18) (s : State) (hs : Memory.wf s.mem = true) : OutWf (execAndi d a imm s) :=
  aluImm_wf _ _ _ _ _ hs

theorem execOri_wf (d a : OField) (imm : BitVec 18) (s : State) (hs : Memory.wf s.mem = true) : OutWf (execOri d a imm s) :=
  aluImm_wf _ _ _ _ _ hs

theorem execXori_wf (d a : OField) (imm : BitVec 18) (s : State) (hs : Memory.wf s.mem = true) : OutWf (execXori d a imm s) :=
  aluImm_wf _ _ _ _ _ hs

theorem execShli_wf (d a : OField) (k : BitVec 5) (s : State) (hs : Memory.wf s.mem = true) : OutWf (execShli d a k s) :=
  aluImm_wf _ _ _ _ _ hs

theorem execMovhi_wf (d : OField) (imm : BitVec 18) (s : State) (hs : Memory.wf s.mem = true) : OutWf (execMovhi d imm s) :=
  aluImm_wf _ _ _ _ _ hs

end Sys2Proof.Machine

end

section
/-! SUPPORT. Loads, stores, atomics, shuffles and control transfer keep memory canonical. -/

set_option Elab.async false

namespace Sys2Proof.Machine

@[simp] theorem logFaults_mem (s : State) (u : UnitId) (kind : AccKind) (e : LogEntry) (fs : List Faulted) :
    (logFaults s u kind e fs).mem = s.mem := by
  unfold logFaults
  simp

@[simp] theorem issueLoad_mem (s : State) (x : Ctx) (v : Nat) (t : LoadType) (flag : Option Nat) (ok : List LaneAcc) (fs : List Faulted) :
    (issueLoad s x v t flag ok fs).mem = s.mem := by
  unfold issueLoad
  grind [setUnit_mem, fresh_mem, logFaults_mem]

theorem loadWord_wf (i : Instr) (m : MemFields) (t : LoadType) (scale : Nat) (s : State) (hs : Memory.wf s.mem = true) :
    OutWf (loadWord i m t scale s) := by
  unfold loadWord
  refine word_wf _ _ _ hs fun x => ?_
  grind [trapWord_wf, access_wf, issueLoad_mem, Access.Wf]

theorem execLd_wf (m : MemFields) (t : LoadType) (s : State) (hs : Memory.wf s.mem = true) : OutWf (execLd m t s) := loadWord_wf _ _ _ _ _ hs

theorem execLdx_wf (m : MemFields) (t : LoadType) (s : State) (hs : Memory.wf s.mem = true) : OutWf (execLdx m t s) := loadWord_wf _ _ _ _ _ hs

@[simp] theorem issueStore_mem (s : State) (x : Ctx) (v : VIdx) (t : StoreType) (flag : Option Nat) (ok : List LaneAcc) (fs : List Faulted) :
    (issueStore s x v t flag ok fs).mem = s.mem := by
  unfold issueStore
  grind [setUnit_mem, fresh_mem, logFaults_mem]

theorem storeWord_wf (i : Instr) (m : MemFields) (t : StoreType) (scale : Nat) (s : State) (hs : Memory.wf s.mem = true) :
    OutWf (storeWord i m t scale s) := by
  unfold storeWord
  refine word_wf _ _ _ hs fun x => ?_
  grind [trapWord_wf, access_wf, issueStore_mem, Access.Wf]

theorem execSt_wf (m : MemFields) (t : StoreType) (s : State) (hs : Memory.wf s.mem = true) : OutWf (execSt m t s) := storeWord_wf _ _ _ _ _ hs

theorem execStx_wf (m : MemFields) (t : StoreType) (s : State) (hs : Memory.wf s.mem = true) : OutWf (execStx m t s) := storeWord_wf _ _ _ _ _ hs

theorem execPref_wf (off : OField) (pair : BitVec 5) (guard : PIdx) (space : Space) (l2 : Bool) (s : State) (hs : Memory.wf s.mem = true) :
    OutWf (execPref off pair guard space l2 s) := by
  unfold execPref
  refine word_wf _ _ _ hs fun x => ?_
  grind [setUnit_mem]

theorem execLdq_wf (a : OField) (d : SIdx) (g : Guard) (count : BitVec 2) (base : BitVec 5) (s : State) (hs : Memory.wf s.mem = true) :
    OutWf (execLdq a d g count base s) := by
  unfold execLdq
  refine word_wf _ _ _ hs fun x => ?_
  grind [setUnit_mem, fresh_mem, trapWord_wf, access_wf, holdReplay_mem, Access.Wf]

theorem execLoadDataArrival_wf (u : UnitId) (op : Nat) (s : State) (hs : Memory.wf s.mem = true) : OutWf (execLoadDataArrival u op s) := by
  unfold execLoadDataArrival
  grind [setUnit_mem, deferTrap_wf, OutWf]

theorem fenceStep_wf (s : State) (u : UnitId) (k : Scope) {t : State} (ht : fenceStep s u k = some t) (hs : Memory.wf s.mem = true) :
    Memory.wf t.mem = true := by
  unfold fenceStep at ht
  grind [arStep_wf]

theorem execFence_wf (k : Scope) (s : State) (hs : Memory.wf s.mem = true) : OutWf (execFence k s) := by
  unfold execFence
  refine word_wf _ _ _ hs fun x => ?_
  grind [modUnit_mem, fenceStep_wf]

theorem execPhase_wf (k : PhaseKind) (s : State) (hs : Memory.wf s.mem = true) : OutWf (execPhase k s) := by
  unfold execPhase
  refine word_wf _ _ _ hs fun x => ?_
  grind [modUnit_mem, releaseStep_wf, acquireStep_mem, arStep_wf]

theorem atomPut_wf (s : State) (core : Nat) (loc : Loc) (bs : List Byte) (hs : Memory.wf s.mem = true) :
    Memory.wf (atomPut s core loc bs).mem = true := by
  unfold atomPut
  grind [atomicWrite_wf, drainTo_wf]

theorem orderBefore_wf (s : State) (u : UnitId) (k : Scope) {t : State} (ht : orderBefore s u k = some t) (hs : Memory.wf s.mem = true) :
    Memory.wf t.mem = true := by
  unfold orderBefore at ht
  grind [releaseStep_wf, fenceStep_wf]

@[simp] theorem orderAfter_mem (s : State) (u : UnitId) (k : Scope) : (orderAfter s u k).mem = s.mem := by
  unfold orderAfter
  split <;> rfl

theorem atomIssue_wf (i : Instr) (a : OField) (u : SIdx) (g : Guard) (r : AtomOrd) (size : Nat)
    (perform : Ctx → Nat → Loc → State → W64 × State) (finish : Ctx → Grp → Nat → W64 → Grp) (s : State) (hs : Memory.wf s.mem = true)
    (hp : ∀ x l loc t, Memory.wf t.mem = true → Memory.wf (perform x l loc t).2.mem = true) :
    OutWf (atomIssue i a u g r size perform finish s) := by
  unfold atomIssue
  refine word_wf _ _ _ hs fun x => ?_
  have hlanes : ∀ (ok : List LaneAcc) (acc : List (Nat × W64) × State), Memory.wf acc.2.mem = true →
      Memory.wf (ok.foldl (fun (acc : List (Nat × W64) × State) e =>
        let p := perform x e.lane e.loc acc.2
        (acc.1 ++ [(e.lane, p.1)], p.2)) acc).2.mem = true :=
    fun ok acc ha => List.foldlRecOn ok _ (motive := fun acc : List (Nat × W64) × State => Memory.wf acc.2.mem = true) ha
      (fun _ hb _ _ => hp _ _ _ _ hb)
  grind [access_wf, Access.Wf, trapWord_wf, compareNow_wf, orderBefore_wf, orderAfter_mem, holdReplay_mem, modUnit_mem]

theorem atomPerform_wf (k : AtomOp) (core : Nat) (loc : Loc) (o : W64 × W64) (s : State) (hs : Memory.wf s.mem = true) :
    Memory.wf (atomPerform k core loc o s).2.mem = true := atomPut_wf _ _ _ _ (publishLoc_wf _ _ _ _ hs)

theorem atomLane_wf (k : AtomOp) (d : OField) (x : Ctx) (l : Nat) (loc : Loc) (s : State) (hs : Memory.wf s.mem = true) :
    Memory.wf (atomLane k d x l loc s).2.mem = true := atomPerform_wf _ _ _ _ _ hs

theorem execAtom_wf (d a : OField) (u : SIdx) (g : Guard) (r : AtomOrd) (k : AtomOp) (s : State) (hs : Memory.wf s.mem = true) :
    OutWf (execAtom d a u g r k s) := by
  unfold execAtom
  grind [atomIssue_wf, atomLane_wf]

@[simp] theorem issueRed_mem (s : State) (x : Ctx) (k : AtomOp) (d : OField) (r : AtomOrd) (ok : List LaneAcc) :
    (issueRed s x k d r ok).mem = s.mem := by
  unfold issueRed
  split <;> rfl

theorem execRed_wf (d a : OField) (u : SIdx) (g : Guard) (r : AtomOrd) (k : AtomOp) (s : State) (hs : Memory.wf s.mem = true) :
    OutWf (execRed d a u g r k s) := by
  unfold execRed
  refine word_wf _ _ _ hs fun x => ?_
  grind [trapWord_wf, access_wf, holdReplay_mem, issueRed_mem, Access.Wf]

theorem bestLane_wf (d : OField) (w : BitVec 4) (x : Ctx) (l : Nat) (loc : Loc) (s : State) (hs : Memory.wf s.mem = true) :
    Memory.wf (bestLane d w x l loc s).2.mem = true := by
  unfold bestLane
  grind [publishLoc_wf, atomPut_wf]

theorem execBest_wf (d a : OField) (u : SIdx) (g : Guard) (r : AtomOrd) (w : BitVec 4) (s : State) (hs : Memory.wf s.mem = true) :
    OutWf (execBest d a u g r w s) := by
  unfold execBest
  grind [atomIssue_wf, bestLane_wf]

theorem drainLane_wf (p : PendingStore) (core : Nat) (s : State) (a : LaneAcc) (hs : Memory.wf s.mem = true) :
    Memory.wf (drainLane p core s a).mem = true := by
  unfold drainLane
  grind [drainTo_wf, atomPerform_wf]

theorem redBefore_wf (s : State) (c : Nat) (p : PendingStore) (hs : Memory.wf s.mem = true) : Memory.wf (redBefore s c p).mem = true := by
  unfold redBefore
  grind [releaseStep_wf, arStep_wf]

@[simp] theorem redAfter_mem (s : State) (u : UnitId) (p : PendingStore) : (redAfter s u p).mem = s.mem := by
  unfold redAfter
  split <;> simp

theorem execStoreDrain_wf (u : UnitId) (s : State) (hs : Memory.wf s.mem = true) : OutWf (execStoreDrain u s) := by
  unfold execStoreDrain
  grind [setUnit_mem, drainLane_wf, redBefore_wf, redAfter_mem, OutWf, foldl_wf]

theorem laneWord_wf (i : Instr) (g : Guard) (a : OField) (f : List (Nat × W32) → Ctx → Nat → Grp → Grp) (s : State) (hs : Memory.wf s.mem = true) :
    OutWf (laneWord i g a f s) := by
  unfold laneWord
  refine word_wf _ _ _ hs fun x => ?_
  grind [setUnit_mem, foldl_wf]

theorem laneAlu_wf (i : Instr) (g : Guard) (d a : OField) (f : List (Nat × W32) → Ctx → Nat → W32 × BitVec 5) (s : State)
    (hs : Memory.wf s.mem = true) : OutWf (laneAlu i g d a f s) := laneWord_wf _ _ _ _ _ hs

theorem laneP_wf (i : Instr) (g : Guard) (p : PIdx) (a : OField) (f : List (Nat × W32) → Ctx → Nat → Bool) (s : State)
    (hs : Memory.wf s.mem = true) : OutWf (laneP i g p a f s) := laneWord_wf _ _ _ _ _ hs

theorem execShfl_wf (d a b : OField) (g : Guard) (m : ShflMode) (s : State) (hs : Memory.wf s.mem = true) : OutWf (execShfl d a b g m s) :=
  laneAlu_wf _ _ _ _ _ _ hs

theorem execPrmt_wf (d a b c : OField) (g : Guard) (s : State) (hs : Memory.wf s.mem = true) : OutWf (execPrmt d a b c g s) :=
  alu3_wf _ _ _ _ _ _ _ _ hs

theorem dataRead_wf (s : State) (x : Ctx) (size : Nat) (offs : List (Nat × Nat)) (hs : Memory.wf s.mem = true) : (dataRead s x size offs).Wf := by
  unfold dataRead
  grind [trapWord_wf, heldRead_wf, HeldRead.Wf]

theorem execTlu_wf (d a b : OField) (g : Guard) (w : TluKind) (s : State) (hs : Memory.wf s.mem = true) : OutWf (execTlu d a b g w s) := by
  unfold execTlu
  refine word_wf _ _ _ hs fun x => ?_
  grind [setUnit_mem, dataRead_wf, HeldRead.Wf]

theorem execVote_wf (p : PIdx) (a : OField) (g : Guard) (k : VoteKind) (s : State) (hs : Memory.wf s.mem = true) : OutWf (execVote p a g k s) :=
  laneP_wf _ _ _ _ _ _ hs

theorem execVoteBallot_wf (d a : OField) (g : Guard) (s : State) (hs : Memory.wf s.mem = true) : OutWf (execVoteBallot d a g s) :=
  laneAlu_wf _ _ _ _ _ _ hs

theorem execLaneMatch_wf (d a : OField) (g : Guard) (m : MatchKind) (s : State) (hs : Memory.wf s.mem = true) :
    OutWf (execLaneMatch d a g m s) :=
  laneAlu_wf _ _ _ _ _ _ hs

theorem execElect_wf (p : PIdx) (g : Guard) (s : State) (hs : Memory.wf s.mem = true) : OutWf (execElect p g s) :=
  laneP_wf _ _ _ _ _ _ hs

theorem execSect_wf (g : Guard) (w : SectWidth) (s : State) (hs : Memory.wf s.mem = true) : OutWf (execSect g w s) := by
  unfold execSect
  refine word_wf _ _ _ hs fun x => ?_
  grind [setUnit_mem, writeSect_mem]

theorem execSred_wf (d a : OField) (g : Guard) (o : RedOp) (s : State) (hs : Memory.wf s.mem = true) : OutWf (execSred d a g o s) :=
  laneAlu_wf _ _ _ _ _ _ hs

theorem execSscan_wf (d a : OField) (g : Guard) (o : RedOp) (s : State) (hs : Memory.wf s.mem = true) : OutWf (execSscan d a g o s) :=
  laneAlu_wf _ _ _ _ _ _ hs

theorem execSscanEx_wf (d a : OField) (g : Guard) (o : RedOp) (s : State) (hs : Memory.wf s.mem = true) : OutWf (execSscanEx d a g o s) :=
  laneAlu_wf _ _ _ _ _ _ hs

@[simp] theorem setCtl_mem (s : State) (x : Ctx) (c : Ctl) : (setCtl s x c).mem = s.mem := rfl

theorem execBra_wf (g : Guard) (off : BitVec 22) (s : State) (hs : Memory.wf s.mem = true) : OutWf (execBra g off s) := by
  unfold execBra
  refine word_wf _ _ _ hs fun x => ?_
  grind [setCtl_mem]

theorem pushing_wf (s : State) (x : Ctx) (ps : List Nat) (xs : TMap Xfer) (hs : Memory.wf s.mem = true) :
    Memory.wf (pushing s x ps xs).mem = true := by
  unfold pushing
  grind [trapWord_wf, setCtl_mem]

theorem execCall_wf (g : Guard) (off : BitVec 22) (s : State) (hs : Memory.wf s.mem = true) : OutWf (execCall g off s) := by
  unfold execCall
  refine word_wf _ _ _ hs fun x => ?_
  grind [pushing_wf]

theorem execBrx_wf (a b : OField) (g : Guard) (s : State) (hs : Memory.wf s.mem = true) : OutWf (execBrx a b g s) := by
  unfold execBrx
  refine word_wf _ _ _ hs fun x => ?_
  grind [dataRead_wf, setCtl_mem, HeldRead.Wf]

theorem execCallx_wf (a b : OField) (g : Guard) (s : State) (hs : Memory.wf s.mem = true) : OutWf (execCallx a b g s) := by
  unfold execCallx
  refine word_wf _ _ _ hs fun x => ?_
  grind [pushing_wf]

theorem execRet_wf (g : Guard) (s : State) (hs : Memory.wf s.mem = true) : OutWf (execRet g s) := by
  unfold execRet
  refine word_wf _ _ _ hs fun x => ?_
  grind [trapWord_wf, setCtl_mem]

theorem execExit_wf (g : Guard) (s : State) (hs : Memory.wf s.mem = true) : OutWf (execExit g s) := by
  unfold execExit
  refine word_wf _ _ _ hs fun x => ?_
  grind [setCtl_mem]

theorem execTrap_wf (a : OField) (g : Guard) (s : State) (hs : Memory.wf s.mem = true) : OutWf (execTrap a g s) := by
  unfold execTrap
  refine word_wf _ _ _ hs fun x => ?_
  grind [trapDeliver_wf, setCtl_mem]

theorem execBrk_wf (g : Guard) (s : State) (hs : Memory.wf s.mem = true) : OutWf (execBrk g s) := by
  unfold execBrk
  refine word_wf _ _ _ hs fun x => ?_
  grind [trapWord_wf, setCtl_mem]

theorem execYield_wf (s : State) (hs : Memory.wf s.mem = true) : OutWf (execYield s) := by
  unfold execYield
  refine word_wf _ _ _ hs fun x => ?_
  grind [setCtl_mem]

@[simp] theorem dropHolding_mem (s : State) (core op : Nat) : (dropHolding s core op).mem = s.mem := rfl

@[simp] theorem dropOp_mem (s : State) (op : Nat) : (dropOp s op).mem = s.mem := by
  unfold dropOp
  exact foldl_keeps _ (·.mem) (fun _ _ => dropHolding_mem _ _ _) _ _

end Sys2Proof.Machine

end

section
/-! SUPPORT. The link, page tables, completion records and domains keep memory canonical. -/

set_option Elab.async false

namespace Sys2Proof.Machine

@[simp] theorem modMail_mem (s : State) (f : Mailbox → Mailbox) : (modMail s f).mem = s.mem := rfl

@[simp] theorem serveMail_mem (s : State) : (serveMail s).mem = s.mem := rfl

@[simp] theorem replyMail_mem (s : State) (status : Nat) : (replyMail s status).mem = s.mem := by
  unfold replyMail
  split <;> rfl

theorem mailReply_wf (s : State) (i : Instr) (r : State × Nat) (hr : Memory.wf r.1.mem = true) : Memory.wf (mailReply s i r).mem = true := by
  unfold mailReply
  grind [replyMail_mem]

theorem mailServed_wf (s : State) (i : Instr) (r : State × Nat) (hs : Memory.wf s.mem = true) (hr : Memory.wf r.1.mem = true) :
    Memory.wf (mailServed s i r).mem = true := by
  unfold mailServed
  grind [mailReply_wf]

theorem linkPut_wf (qp : Nat) (s : State) (ws : Writes) (hs : Memory.wf s.mem = true) : Memory.wf (linkPut qp s ws).mem = true := by
  unfold linkPut
  grind [homeWrite_wf, modMail_mem, serveMail_mem]

theorem deliverHeld_wf (s : State) (hs : Memory.wf s.mem = true) : Memory.wf (deliverHeld s).mem = true := by
  unfold deliverHeld
  split
  · exact hs
  · refine List.foldlRecOn s.linkHeld _ (motive := fun acc : State × List (Nat × Writes) => Memory.wf acc.1.mem = true) hs fun acc ha e _ => ?_
    grind [linkPut_wf]

theorem clearFrame_wf (s : State) (pa : Nat) (hs : Memory.wf s.mem = true) : Memory.wf (clearFrame s pa).mem = true := engineWrite_wf _ _ hs

theorem takeFrame_wf (s : State) {n : Nat} {t : State} (ht : takeFrame s = some (n, t)) (hs : Memory.wf s.mem = true) : Memory.wf t.mem = true := by
  unfold takeFrame at ht
  grind [clearFrame_wf]

theorem writeEntry_wf (s : State) (pte e : Nat) (hs : Memory.wf s.mem = true) : Memory.wf (writeEntry s pte e).mem = true := engineWrite_wf _ _ hs

theorem tableBelow_wf (s : State) (pte level : Nat) {n : Nat} {t : State} (ht : tableBelow s pte level = some (n, t))
    (hs : Memory.wf s.mem = true) : Memory.wf t.mem = true := by
  unfold tableBelow at ht
  grind [engineWrite_wf, takeFrame_wf, writeEntry_wf]

theorem entryBelow_wf (va l table : Nat) (s : State) {n : Nat} {t : State} (ht : entryBelow va l table s = some (n, t))
    (hs : Memory.wf s.mem = true) : Memory.wf t.mem = true := by
  induction l generalizing table s with
  | zero => unfold entryBelow at ht; grind
  | succ l ih =>
    unfold entryBelow at ht
    grind [tableBelow_wf]

theorem pageEntry_wf (s : State) (ctx va : Nat) {n : Nat} {t : State} (ht : pageEntry s ctx va = some (n, t)) (hs : Memory.wf s.mem = true) :
    Memory.wf t.mem = true := by
  unfold pageEntry at ht
  grind [entryBelow_wf]

@[simp] theorem dropTlb_mem (s : State) (ctx va len : Nat) : (dropTlb s ctx va len).mem = s.mem := rfl

@[simp] theorem loadAgain_mem (s : State) (u : UnitId) (s1 : State) (p : PendingLoad) : (loadAgain s u s1 p).mem = s1.mem := by
  unfold loadAgain
  dsimp only
  split
  · rfl
  · split <;> rfl

theorem unitAgain_wf (s : State) (u : UnitId) (hs : Memory.wf s.mem = true) : Memory.wf (unitAgain s u).mem = true := by
  unfold unitAgain
  grind [modCore_mem, modUnit_mem, translate_wf, loadAgain_mem, foldl_wf]

theorem voidWalks_wf (s : State) (ctx : Nat) (hs : Memory.wf s.mem = true) : Memory.wf (voidWalks s ctx).mem = true := by
  unfold voidWalks
  refine foldl_wf _ _ _ (fun t _ ht => ?_) hs
  exact unitAgain_wf _ _ ht

theorem beginInvalidation_wf (s : State) (ctx va len : Nat) (hs : Memory.wf s.mem = true) :
    Memory.wf (beginInvalidation s ctx va len).mem = true := by
  unfold beginInvalidation
  grind [dropTlb_mem, voidWalks_wf]

theorem mapPage_wf (s : State) (ctx va : Nat) (w x : Bool) {n : Nat} {t : State} (ht : mapPage s ctx va w x = some (n, t))
    (hs : Memory.wf s.mem = true) : Memory.wf t.mem = true := by
  unfold mapPage at ht
  grind [takeFrame_wf, writeEntry_wf, pageEntry_wf, beginInvalidation_wf]

theorem unmapPages_wf (s : State) (ctx : Nat) (pages : List Nat) (hs : Memory.wf s.mem = true) : Memory.wf (unmapPages s ctx pages).mem = true := by
  unfold unmapPages
  refine foldl_wf _ _ _ (fun t _ ht => ?_) hs
  grind [writeEntry_wf, pageEntry_wf, beginInvalidation_wf]

/-- The state the front end's read goes on from has canonical memory. -/
def FeRead.Wf : FeRead → Prop
  | .ok _ s => Memory.wf s.mem = true
  | _ => True

theorem feByte_wf (s : State) (ctx va : Nat) (hs : Memory.wf s.mem = true) : (feByte s ctx va).Wf := by
  unfold feByte
  grind [translate_wf, FeRead.Wf]

theorem feRead_wf (s : State) (ctx va n : Nat) (hs : Memory.wf s.mem = true) : (feRead s ctx va n).Wf := by
  induction n generalizing s va with
  | zero => exact hs
  | succ n ih =>
    unfold feRead
    grind [feByte_wf, FeRead.Wf]

/-- The state the front end's translation goes on from has canonical memory. -/
def FePlace.Wf : FePlace → Prop
  | .ok _ s => Memory.wf s.mem = true
  | _ => True

theorem fePlace_wf (s : State) (ctx va : Nat) (kind : AccKind) (hs : Memory.wf s.mem = true) : (fePlace s ctx va kind).Wf := by
  unfold fePlace
  grind [translate_wf, FePlace.Wf]

@[simp] theorem feFault_mem (s : State) (ctx : Nat) (kind : AccKind) (va level : Nat) (h : Bool) : (feFault s ctx kind va level h).mem = s.mem := rfl

@[simp] theorem settleQueue_mem (s : State) (n : Nat) : (settleQueue s n).mem = s.mem := rfl

@[simp] theorem queueError_mem (s : State) (n : Nat) : (queueError s n).mem = s.mem := by
  unfold queueError
  simp

theorem flushRecs_wf (n : Nat) (rs : List CplRec) (s : State) (hs : Memory.wf s.mem = true) : Memory.wf (flushRecs n rs s).mem = true := by
  induction rs generalizing s with
  | nil => simpa [flushRecs] using hs
  | cons r rs ih =>
    unfold flushRecs
    grind [settleQueue_mem, modQueue_mem, fePlace_wf, FePlace.Wf, homeWrite_wf, feFault_mem, queueError_mem]

theorem flushCpl_wf (s : State) (n : Nat) (hs : Memory.wf s.mem = true) : Memory.wf (flushCpl s n).mem = true := by
  unfold flushCpl
  split
  · exact hs
  · exact flushRecs_wf _ _ _ hs

theorem completeCommand_wf (s : State) (n index op : Nat) (h : CmdHeader) (status : Nat) (gridid : W32) (detail : Nat)
    (hs : Memory.wf s.mem = true) : Memory.wf (completeCommand s n index op h status gridid detail).mem = true := flushCpl_wf _ _ hs

@[simp] theorem poolEnds_mem (s : State) : (poolEnds s).mem = s.mem := by
  unfold poolEnds
  grind [modQueue_mem, settleQueue_mem, foldl_mem]

@[simp] theorem poolFree_mem (s : State) (grid : Nat) : (poolFree s grid).mem = s.mem := by
  unfold poolFree
  simp

@[simp] theorem nodeEnd_mem (s : State) (graph index err : Nat) : (nodeEnd s graph index err).mem = s.mem := rfl

theorem ownerDone_wf (s : State) (o : JobOwner) (err : Nat) (detail : BitVec 16) (failAddr : W64) (sub : Nat) (hs : Memory.wf s.mem = true) :
    Memory.wf (ownerDone s o err detail failAddr sub).mem = true := by
  unfold ownerDone
  grind [completeSlot_wf, completeCommand_wf, nodeEnd_mem]

@[simp] theorem ownerEnd_mem (s : State) (o : JobOwner) : (ownerEnd s o).mem = s.mem := by
  unfold ownerEnd
  split <;> simp

theorem dropLines_wf (op : Nat) (s : State) (hs : Memory.wf s.mem = true) : Memory.wf (dropLines op s).mem = true := deliverHeld_wf _ hs

theorem rowStatus_wf (s : State) (u : UnitId) (slot lane err : Nat) (hs : Memory.wf s.mem = true) :
    Memory.wf (rowStatus s u slot lane err).mem = true := by
  unfold rowStatus
  grind [setUnit_mem, completeSlot_wf]

theorem rowDone_wf (s : State) (r : WagonRow) (err : Nat) (hs : Memory.wf s.mem = true) : Memory.wf (rowDone s r err).mem = true := by
  unfold rowDone
  grind [engineEnd_mem, dropLines_wf, rowStatus_wf]

theorem checkUnreg_wf (s : State) (ctx : Nat) (hs : Memory.wf s.mem = true) : Memory.wf (checkUnreg s ctx).mem = true := by
  unfold checkUnreg
  grind [modCtx_mem, unmapPages_wf, completeCommand_wf, foldl_wf]

theorem checkWagonUnbind_wf (s : State) (q : Nat) (hs : Memory.wf s.mem = true) : Memory.wf (checkWagonUnbind s q).mem = true := by
  unfold checkWagonUnbind
  grind [modWagon_mem, completeCommand_wf, checkUnreg_wf]

theorem dropRows_wf (s : State) (q : Nat) (sel : WagonRow → Bool) (err : Nat) (hs : Memory.wf s.mem = true) :
    Memory.wf (dropRows s q sel err).mem = true := by
  unfold dropRows
  grind [modWagon_mem, rowDone_wf, checkWagonUnbind_wf, foldl_wf]

@[simp] theorem modModel_mem (s : State) (ctx slot : Nat) (f : ModelSlot → ModelSlot) : (modModel s ctx slot f).mem = s.mem := rfl

@[simp] theorem modLayer_mem (s : State) (k : Nat) (f : Layer → Layer) : (modLayer s k f).mem = s.mem := rfl

@[simp] theorem freeModel_mem (s : State) (ctx slot : Nat) : (freeModel s ctx slot).mem = s.mem := rfl

theorem checkUnbind_wf (s : State) (ctx slot : Nat) (hs : Memory.wf s.mem = true) : Memory.wf (checkUnbind s ctx slot).mem = true := by
  unfold checkUnbind
  grind [completeCommand_wf, freeModel_mem]

theorem layerReleased_wf (s : State) (k : Nat) (hs : Memory.wf s.mem = true) : Memory.wf (layerReleased s k).mem = true := by
  unfold layerReleased
  grind [modLayer_mem, checkUnbind_wf]

theorem opReleases_wf (s : State) (ks : List Nat) (hs : Memory.wf s.mem = true) : Memory.wf (opReleases s ks).mem = true := by
  unfold opReleases
  refine foldl_wf _ _ _ (fun t _ ht => ?_) hs
  exact layerReleased_wf _ _ ht

@[simp] theorem removeOp_mem (s : State) (core op : Nat) : (removeOp s core op).mem = s.mem := by
  unfold removeOp
  simp

@[simp] theorem engineArrive_mem (s : State) (team gen bar : Nat) (err : Bool) : (engineArrive s team gen bar err).mem = s.mem := by
  unfold engineArrive
  grind [setBar_mem, checkBar_mem]

theorem partEnds_wf (s : State) (o : MatOp) (id : Nat) (failed : Option TrapRec) (hs : Memory.wf s.mem = true) :
    Memory.wf (partEnds s o id failed).mem = true := by
  unfold partEnds
  grind [modUnit_mem, deferTrap_wf, engineEnd_mem, engineArrive_mem, foldl_wf]

theorem matOpEnds_wf (s : State) (core : Nat) (o : MatOp) (failed : Option TrapRec) (hs : Memory.wf s.mem = true) :
    Memory.wf (matOpEnds s core o failed).mem = true := by
  unfold matOpEnds
  grind [modUnit_mem, deferTrap_wf, engineEnd_mem, opReleases_wf, removeOp_mem, partEnds_wf]

@[simp] theorem cancelWait_mem (s : State) (u : UnitId) (b : BlockedRun) : (cancelWait s u b).mem = s.mem := by
  unfold cancelWait
  grind [setUnit_mem, releaseBar_mem, releaseGangBar_mem, withdrawWait_mem, seenGrid_mem]

@[simp] theorem cancelWaits_mem (s : State) (u : UnitId) : (cancelWaits s u).mem = s.mem := by
  unfold cancelWaits
  grind [cancelWait_mem, foldl_mem]

theorem checkSuspended_wf (s : State) (ctx : Nat) (hs : Memory.wf s.mem = true) : Memory.wf (checkSuspended s ctx).mem = true := by
  unfold checkSuspended
  grind [modCtx_mem, completeCommand_wf]

theorem dropTeam_wf (s : State) (t : Nat) (hs : Memory.wf s.mem = true) : Memory.wf (dropTeam s t).mem = true := by
  unfold dropTeam
  grind [clearModes_mem, nodeEnd_mem, layerReleased_wf, checkSuspended_wf, foldl_wf]

@[simp] theorem cancelSaved_mem (s0 : State) (t : Nat) : (cancelSaved s0 t).mem = s0.mem := by
  unfold cancelSaved
  grind [modTeam_mem, cancelWaits_mem, foldl_mem]

theorem cancelTeam_wf (s : State) (t : Nat) (hs : Memory.wf s.mem = true) : Memory.wf (cancelTeam s t).mem = true := by
  unfold cancelTeam
  grind [modTeam_mem, cancelWaits_mem, dropTeam_wf, cancelSaved_mem, foldl_wf]

theorem cancelRows_wf (gs : List Nat) (s : State) (q : Nat) (hs : Memory.wf s.mem = true) : Memory.wf (cancelRows gs s q).mem = true :=
  dropRows_wf _ _ _ _ hs

theorem cancelJob_wf (s : State) (id : Nat) (o : JobOwner) (hs : Memory.wf s.mem = true) : Memory.wf (cancelJob s id o).mem = true := by
  unfold cancelJob
  grind [dropOp_mem, ownerDone_wf, ownerEnd_mem, dropLines_wf]

theorem cancelCopies_wf (gs : List Nat) (s : State) (c : Nat) (hs : Memory.wf s.mem = true) : Memory.wf (cancelCopies gs s c).mem = true := by
  unfold cancelCopies
  refine foldl_wf _ _ _ (fun t _ ht => ?_) hs
  exact cancelJob_wf _ _ _ ht

theorem cancelEngines_wf (gs : List Nat) (s : State) (c : Nat) (hs : Memory.wf s.mem = true) : Memory.wf (cancelEngines gs s c).mem = true := by
  unfold cancelEngines
  grind [modCluster_mem, cancelJob_wf, foldl_wf]

theorem cancelMatrix_wf (gs : List Nat) (s : State) (c : Nat) (hs : Memory.wf s.mem = true) : Memory.wf (cancelMatrix gs s c).mem = true := by
  unfold cancelMatrix
  refine foldl_wf _ _ _ (fun t _ ht => ?_) hs
  exact matOpEnds_wf _ _ _ _ ht

theorem setDomain_wf (s : State) (root : Nat) (hs : Memory.wf s.mem = true) : Memory.wf (setDomain s root).mem = true := by
  unfold setDomain
  grind [modGrid_mem, cancelTeam_wf, cancelRows_wf, cancelCopies_wf, cancelEngines_wf, cancelMatrix_wf, foldl_wf]

theorem setDomains_wf (s : State) (ctx : Nat) (hs : Memory.wf s.mem = true) : Memory.wf (setDomains s ctx).mem = true := by
  unfold setDomains
  refine foldl_wf _ _ _ (fun t _ ht => ?_) hs
  exact setDomain_wf _ _ ht

end Sys2Proof.Machine

end

section
/-! SUPPORT. Barriers, waits, feeds, fares and the front end's reads keep memory canonical. -/

set_option Elab.async false

namespace Sys2Proof.Machine

@[simp] theorem beginWait_mem (s : State) (x : Ctx) (w : WaitKind) (parts : List Nat) (last : W32) :
    (beginWait s x w parts last).2.mem = s.mem := rfl

@[simp] theorem endNow_mem (s : State) (x : Ctx) (d : OField) (parts : List Nat) (data status : W32) :
    (endNow s x d parts data status).mem = s.mem := rfl

@[simp] theorem leaveCond_mem (s : State) (x : Ctx) : (leaveCond s x).mem = s.mem := by
  unfold leaveCond
  simp

@[simp] theorem standBy_mem (x : Ctx) (s : State) : (standBy x s).mem = s.mem := by
  unfold standBy
  grind [modUnit_mem, fresh_mem]

theorem waitWord_wf (s : State) (x : Ctx) (parts : List Nat) (cancelled begins : Nat → State) (hs : Memory.wf s.mem = true)
    (hc : ∀ l, Memory.wf (cancelled l).mem = true) (hb : ∀ l, Memory.wf (begins l).mem = true) :
    Memory.wf (waitWord s x parts cancelled begins).mem = true := by
  unfold waitWord
  grind [leaveCond_mem, standBy_mem, setUnit_mem]

theorem trapWait_wf (s : State) (u : UnitId) (b : BlockedRun) (c : Cause) (hs : Memory.wf s.mem = true) :
    Memory.wf (trapWait s u b c).mem = true := by
  unfold trapWait
  grind [modUnit_mem, withdrawWait_mem, trapDeliver_wf]

theorem execWaitTimeout_wf (u : UnitId) (run : Nat) (s : State) (hs : Memory.wf s.mem = true) : OutWf (execWaitTimeout u run s) := by
  unfold execWaitTimeout
  grind [trapWait_wf, OutWf]

theorem barWord_wf (i : Instr) (d a b : OField) (c : Option (OField × BarOp)) (g : Guard) (s : State) (hs : Memory.wf s.mem = true) :
    OutWf (barWord i d a b c g s) := by
  unfold barWord
  refine word_wf _ _ _ hs fun x => ?_
  grind +splitImp [setBar_mem, checkBar_mem, trapWord_wf, beginWait_mem, endNow_mem, waitWord_wf]

theorem execBar_wf (d a b : OField) (g : Guard) (s : State) (hs : Memory.wf s.mem = true) : OutWf (execBar d a b g s) := barWord_wf _ _ _ _ _ _ _ hs

theorem execBarRed_wf (d a b c : OField) (g : Guard) (k : BarOp) (s : State) (hs : Memory.wf s.mem = true) : OutWf (execBarRed d a b c g k s) :=
  barWord_wf _ _ _ _ _ _ _ hs

theorem bargWord_wf (i : Instr) (d b : OField) (c : Option (OField × BarOp)) (g : Guard) (s : State) (hs : Memory.wf s.mem = true) :
    OutWf (bargWord i d b c g s) := by
  unfold bargWord
  refine word_wf _ _ _ hs fun x => ?_
  grind +splitImp [releaseStep_wf, setGangBar_mem, checkGangBar_mem, trapWord_wf, beginWait_mem, endNow_mem, waitWord_wf]

theorem execBarg_wf (d b : OField) (g : Guard) (s : State) (hs : Memory.wf s.mem = true) : OutWf (execBarg d b g s) := bargWord_wf _ _ _ _ _ _ hs

theorem execBargRed_wf (d b c : OField) (g : Guard) (k : BarOp) (s : State) (hs : Memory.wf s.mem = true) : OutWf (execBargRed d b c g k s) :=
  bargWord_wf _ _ _ _ _ _ hs

@[simp] theorem markUnread_mem (r : Nat × State) (u : UnitId) : (markUnread r u).mem = r.2.mem := rfl

theorem execWaitf_wf (d a b c : OField) (g : Guard) (k : Cond) (s : State) (hs : Memory.wf s.mem = true) : OutWf (execWaitf d a b c g k s) := by
  unfold execWaitf
  refine word_wf _ _ _ hs fun x => ?_
  grind [acquireStep_mem, publishLoc_wf, trapWord_wf, access_wf, holdReplay_mem, beginWait_mem, endNow_mem, waitWord_wf, markUnread_mem,
    Access.Wf]

theorem execWaitfSatisfied_wf (u : UnitId) (run : Nat) (s : State) (hs : Memory.wf s.mem = true) : OutWf (execWaitfSatisfied u run s) := by
  unfold execWaitfSatisfied
  grind [setUnit_mem, acquireStep_mem, OutWf]

theorem execCancel_wf (d a : OField) (g : Guard) (s : State) (hs : Memory.wf s.mem = true) : OutWf (execCancel d a g s) := by
  unfold execCancel
  refine word_wf _ _ _ hs fun x => ?_
  grind [setUnit_mem, setDomain_wf, endNow_mem]

theorem execChkc_wf (d : OField) (g : Guard) (s : State) (hs : Memory.wf s.mem = true) : OutWf (execChkc d g s) := by
  unfold execChkc
  refine word_wf _ _ _ hs fun x => ?_
  grind [endNow_mem]

@[simp] theorem popFeed_mem (s : State) (x : Ctx) (d : OField) (g : Guard) : (popFeed s x d g).mem = s.mem := by
  unfold popFeed
  split <;> rfl

theorem execFeed_wf (d : OField) (g : Guard) (s : State) (hs : Memory.wf s.mem = true) : OutWf (execFeed d g s) := by
  unfold execFeed
  refine word_wf _ _ _ hs fun x => ?_
  grind [setUnit_mem, trapWord_wf, popFeed_mem]

theorem execFeedDelivery_wf (u : UnitId) (s : State) (hs : Memory.wf s.mem = true) : OutWf (execFeedDelivery u s) := by
  unfold execFeedDelivery
  grind [popFeed_mem, OutWf]

@[simp] theorem appendFeed_mem (s : State) (x : Ctx) (n : Nat) (e : FeedEntry) : (appendFeed s x n e).mem = s.mem := by
  unfold appendFeed
  grind [setUnit_mem]

theorem fpushWord_wf (i : Instr) (b : OField) (g : Guard) (f : Ctx → Nat → FeedEntry) (s : State) (hs : Memory.wf s.mem = true) :
    OutWf (fpushWord i b g f s) := by
  unfold fpushWord
  refine word_wf _ _ _ hs fun x => ?_
  grind [setUnit_mem, trapWord_wf, appendFeed_mem]

theorem execFpushU_wf (a b : OField) (g : Guard) (s : State) (hs : Memory.wf s.mem = true) : OutWf (execFpushU a b g s) := fpushWord_wf _ _ _ _ _ hs

theorem execFpushV_wf (a b c : OField) (g : Guard) (s : State) (hs : Memory.wf s.mem = true) : OutWf (execFpushV a b c g s) :=
  fpushWord_wf _ _ _ _ _ hs

theorem execFpushResume_wf (team : Nat) (s : State) (hs : Memory.wf s.mem = true) : OutWf (execFpushResume team s) := by
  unfold execFpushResume
  grind [appendFeed_mem, OutWf]

theorem execAgen_wf (d a b c : OField) (g : Guard) (s : State) (hs : Memory.wf s.mem = true) : OutWf (execAgen d a b c g s) := by
  unfold execAgen
  refine word_wf _ _ _ hs fun x => ?_
  grind [setUnit_mem, trapWord_wf]

theorem execRegy_wf (d a : OField) (g : Guard) (s : State) (hs : Memory.wf s.mem = true) : OutWf (execRegy d a g s) := by
  unfold execRegy
  refine word_wf _ _ _ hs fun x => ?_
  grind [modTeam_mem, setUnit_mem, trapWord_wf, endNow_mem]

theorem execRegc_wf (d a : OField) (g : Guard) (s : State) (hs : Memory.wf s.mem = true) : OutWf (execRegc d a g s) := by
  unfold execRegc
  refine word_wf _ _ _ hs fun x => ?_
  grind +splitImp [modTeam_mem, trapWord_wf, beginWait_mem, endNow_mem, waitWord_wf]

theorem execRegcGrant_wf (team : Nat) (s : State) (hs : Memory.wf s.mem = true) : OutWf (execRegcGrant team s) := by
  unfold execRegcGrant
  grind [modTeam_mem, setUnit_mem, trapWait_wf, OutWf]

theorem execSleepCyc_wf (d a : OField) (s : State) (hs : Memory.wf s.mem = true) : OutWf (execSleepCyc d a s) := by
  unfold execSleepCyc
  refine word_wf _ _ _ hs fun x => ?_
  grind +splitImp [beginWait_mem, endNow_mem, waitWord_wf]

theorem execSleepFut_wf (d a : OField) (s : State) (hs : Memory.wf s.mem = true) : OutWf (execSleepFut d a s) := by
  unfold execSleepFut
  refine word_wf _ _ _ hs fun x => ?_
  grind +splitImp [trapWord_wf, beginWait_mem, endNow_mem, waitWord_wf]

@[simp] theorem revisePromise_mem (s : State) (u : UnitId) (slot : Nat) : (revisePromise s u slot).mem = s.mem := by
  unfold revisePromise
  grind [modCore_mem, modUnit_mem]

theorem execSleepWake_wf (u : UnitId) (run : Nat) (s : State) (hs : Memory.wf s.mem = true) : OutWf (execSleepWake u run s) := by
  unfold execSleepWake
  grind [setUnit_mem, trapWait_wf, revisePromise_mem, OutWf]

@[simp] theorem lateArrivals_mem (s : State) (u : UnitId) : (lateArrivals s u).mem = s.mem := by
  unfold lateArrivals
  grind [engineArrive_mem, foldl_mem]

theorem execDeferredTrap_wf (u : UnitId) (s : State) (hs : Memory.wf s.mem = true) : OutWf (execDeferredTrap u s) := by
  unfold execDeferredTrap
  grind [modUnit_mem, trapDeliver_wf, withdrawLane_mem, deferTrap_wf, lateArrivals_mem, OutWf, foldl_wf]

theorem readRec_wf (s : State) (x : Ctx) (space : Space) (addr : W64) (k : List Byte → State → State) (hs : Memory.wf s.mem = true)
    (hk : ∀ bs t, Memory.wf t.mem = true → Memory.wf (k bs t).mem = true) : Memory.wf (readRec s x space addr k).mem = true := by
  unfold readRec
  grind [heldRead_wf, HeldRead.Wf]

theorem trapAll_wf (s : State) (x : Ctx) (c : Cause) (sub : Nat) (addr : W64) (hs : Memory.wf s.mem = true) :
    Memory.wf (trapAll s x c sub addr).mem = true := trapWord_wf _ _ _ _ _ _ hs

theorem checkRecs_wf (s : State) (x : Ctx) (subs : List (Option Nat × Nat)) (addrs : List (W64 × AddrUse)) (k : State)
    (hs : Memory.wf s.mem = true) (hk : Memory.wf k.mem = true) : Memory.wf (checkRecs s x subs addrs k).mem = true := by
  unfold checkRecs
  grind [trapAll_wf]

theorem withSlot_wf (s : State) (x : Ctx) (k : Nat → State) (hs : Memory.wf s.mem = true) (hk : ∀ i, Memory.wf (k i).mem = true) :
    Memory.wf (withSlot s x k).mem = true := by
  unfold withSlot
  grind [trapAll_wf]

/-- The state an engine's translation goes on from has canonical memory. -/
def EngRes.Wf : EngRes → Prop
  | .ok s _ => Memory.wf s.mem = true
  | _ => True

theorem engPlace_wf (s : State) (ag : Option Nat) (u : UnitId) (lane : Nat) (ctx op : Nat) (kind : AccKind) (addr : W64) (n : Nat)
    (hs : Memory.wf s.mem = true) : (engPlace s ag u lane ctx op kind addr n).Wf := by
  unfold engPlace
  grind [translate_wf, EngRes.Wf]

@[simp] theorem engFault_mem (s : State) (ctx core agent : Nat) (kind : AccKind) (va level : Nat) (h : Bool) :
    (engFault s ctx core agent kind va level h).mem = s.mem := rfl

@[simp] theorem requestFares_mem (s : State) (r : FareReq) : (requestFares s r).mem = s.mem := by
  unfold requestFares
  grind [modCluster_mem]

@[simp] theorem askPaid_mem (s : State) (cores : List Nat) (op fares ctx : Nat) (cluster : Bool) :
    (askPaid s cores op fares ctx cluster).mem = s.mem := by
  unfold askPaid
  grind [requestFares_mem, foldl_mem]

theorem grantReq_wf (s : State) (c : Nat) (r : FareReq) (hs : Memory.wf s.mem = true) : Memory.wf (grantReq s c r).mem = true := by
  unfold grantReq
  grind [modCore_mem, modCluster_mem, modPurse_mem, noteCur_mem]

theorem addSkims_wf (cores : List Nat) (n : Nat) (s : State) {t : State} (ht : addSkims cores n s = some t) (hs : Memory.wf s.mem = true) :
    Memory.wf t.mem = true := by
  induction cores generalizing n s with
  | nil => cases n <;> simp_all [addSkims]
  | cons c cs ih =>
    cases n with
    | zero => simp_all
    | succ n => exact ih _ _ (by simpa [addSkims] using ht) (by simpa using hs)

theorem skimUntil_wf (holds : State → Bool) (cores : List Nat) (n : Nat) (s : State) {t : State} (ht : skimUntil holds cores n s = some t)
    (hs : Memory.wf s.mem = true) : Memory.wf t.mem = true := by
  induction n generalizing s with
  | zero => simp [skimUntil] at ht
  | succ n ih =>
    unfold skimUntil at ht
    grind [addSkims_wf]

theorem holdFalls_wf (s : State) (p : Nat) (hs : Memory.wf s.mem = true) : Memory.wf (holdFalls s p).mem = true := by
  unfold holdFalls
  grind [modCluster_mem, modPurse_mem, noteCur_mem, skimUntil_wf, foldl_wf]

theorem judgeReq_wf (c : Nat) (j : Judged) (r0 : FareReq) (hj : Memory.wf j.s.mem = true) : Memory.wf (judgeReq c j r0).s.mem = true := by
  unfold judgeReq
  grind [modCluster_mem, grantReq_wf, noteFall_mem]

theorem judgeCluster_wf (s : State) (c : Nat) (hs : Memory.wf s.mem = true) : Memory.wf (judgeCluster s c).mem = true := by
  unfold judgeCluster
  exact List.foldlRecOn _ _ (motive := fun j : Judged => Memory.wf j.s.mem = true) hs fun j hj r _ => judgeReq_wf c j r hj

theorem requestSkims_wf (s : State) (c : Nat) (r : FareReq) (hs : Memory.wf s.mem = true) : Memory.wf (requestSkims s c r).mem = true := by
  unfold requestSkims
  grind [modCluster_mem, noteCur_mem, skimUntil_wf]

@[simp] theorem dropSkims_mem (cs : List Nat) (n : Nat) (s : State) : (dropSkims cs n s).mem = s.mem := by
  induction cs generalizing n s with
  | nil => cases n <;> rfl
  | cons c cs ih =>
    cases n with
    | zero => rfl
    | succ n => exact (ih _ _).trans (by split <;> rfl)

@[simp] theorem withdrawSkims_mem (s : State) (c : Nat) : (withdrawSkims s c).mem = s.mem := by
  unfold withdrawSkims
  grind [modCluster_mem, noteCur_mem, dropSkims_mem]

theorem skimStep_wf (s : State) (c : Nat) (hs : Memory.wf s.mem = true) : Memory.wf (skimStep s c).mem = true := by
  unfold skimStep
  grind [requestSkims_wf, withdrawSkims_mem]

theorem execBalanceSkim_wf (cluster : Nat) (s : State) (hs : Memory.wf s.mem = true) : OutWf (execBalanceSkim cluster s) := skimStep_wf _ _ hs

theorem purseStep_wf (s : State) (c : Nat) (hs : Memory.wf s.mem = true) : Memory.wf (purseStep s c).mem = true := by
  unfold purseStep
  grind [modCluster_mem, holdFalls_wf, judgeCluster_wf, skimStep_wf]

theorem execFareGrant_wf (cluster : Nat) (s : State) (hs : Memory.wf s.mem = true) : OutWf (execFareGrant cluster s) := by
  unfold execFareGrant
  grind [purseStep_wf, OutWf, foldl_wf]

theorem execWindowBoundary_wf (cluster : Nat) (s : State) (hs : Memory.wf s.mem = true) : OutWf (execWindowBoundary cluster s) := by
  unfold execWindowBoundary
  grind [windowBoundary_mem, OutWf]

@[simp] theorem rampStep_mem (s : State) (core : Nat) : (rampStep s core).mem = s.mem := by
  unfold rampStep
  grind [modPurse_mem, noteCur_mem]

theorem execRampStep_wf (core : Nat) (s : State) (hs : Memory.wf s.mem = true) : OutWf (execRampStep core s) := by
  unfold execRampStep
  grind [rampStep_mem, OutWf]

@[simp] theorem unitIdle_mem (s : State) (core : Nat) : (unitIdle s core).mem = s.mem := by
  unfold unitIdle
  grind [modPurse_mem, noteCur_mem, noteFall_mem, startRampDown_mem]

@[simp] theorem rampDown_mem (s : State) (core : Nat) : (rampDown s core).mem = s.mem := by
  unfold rampDown
  grind [startRampDown_mem, unitIdle_mem]

theorem execRampDown_wf (core : Nat) (s : State) (hs : Memory.wf s.mem = true) : OutWf (execRampDown core s) := by
  unfold execRampDown
  grind [rampDown_mem, OutWf]

@[simp] theorem endBurst_mem (s : State) (core : Nat) : (endBurst s core).mem = s.mem := by
  unfold endBurst
  grind [modPurse_mem, startRampDown_mem]

@[simp] theorem burstLapse_mem (s : State) (core : Nat) : (burstLapse s core).mem = s.mem := by
  unfold burstLapse
  grind [endBurst_mem]

theorem execBurstLapse_wf (core : Nat) (s : State) (hs : Memory.wf s.mem = true) : OutWf (execBurstLapse core s) := by
  unfold execBurstLapse
  grind [burstLapse_mem, OutWf]

@[simp] theorem endBursts_mem (s : State) (t : Nat) : (endBursts s t).mem = s.mem := by
  unfold endBursts
  exact foldl_keeps _ (·.mem) (fun _ _ => endBurst_mem _ _) _ _

theorem execBurst_wf (q : SIdx) (s : State) (hs : Memory.wf s.mem = true) : OutWf (execBurst q s) := by
  unfold execBurst
  refine word_wf _ _ _ hs fun x => ?_
  grind [modCluster_mem, setUnit_mem, modPurse_mem, requestFares_mem, endBurst_mem]

@[simp] theorem ringClaim_mem (s : State) (c : Nat) : (ringClaim s c).mem = s.mem := by
  unfold ringClaim
  grind [foldl_mem]

theorem execRingClaim_wf (cluster : Nat) (s : State) (hs : Memory.wf s.mem = true) : OutWf (execRingClaim cluster s) := by
  unfold execRingClaim
  grind [ringClaim_mem, OutWf]

theorem execClusterGate_wf (cluster : Nat) (s : State) (hs : Memory.wf s.mem = true) : OutWf (execClusterGate cluster s) := by
  unfold execClusterGate
  split <;> exact hs

@[simp] theorem ungate_mem (s : State) (c : Nat) : (ungate s c).mem = s.mem := by
  unfold ungate
  split <;> rfl

theorem execRingtotWrite_wf (value : W32) (s : State) (hs : Memory.wf s.mem = true) : OutWf (execRingtotWrite value s) := hs

theorem execGovstallClear_wf (cluster : Nat) (value : W32) (s : State) (hs : Memory.wf s.mem = true) :
    OutWf (execGovstallClear cluster value s) := by
  unfold execGovstallClear
  split <;> exact hs

@[simp] theorem fareBlock_mem (s : State) (c : Nat) (f : Cluster → Cluster) : (fareBlock s c f).mem = s.mem := by
  unfold fareBlock
  split <;> rfl

theorem execFirmwareRegisterWrite_wf (r : FwReg) (value : W32) (s : State) (hs : Memory.wf s.mem = true) :
    OutWf (execFirmwareRegisterWrite r value s) := by
  unfold execFirmwareRegisterWrite
  grind [modCore_mem, fareBlock_mem, OutWf]

@[simp] theorem holdAsk_mem (s : State) (a : Asker) (ps : List Nat) : (holdAsk s a ps).mem = s.mem := by
  unfold holdAsk
  split <;> rfl

@[simp] theorem askPassed_mem (s : State) (a : Asker) : (askPassed s a).mem = s.mem := rfl

@[simp] theorem askTick_mem (s : State) : (askTick s).mem = s.mem := by
  unfold askTick
  split <;> rfl

theorem crossOr_wf (s : State) (a : Asker) (go : State) (hs : Memory.wf s.mem = true) (hg : Memory.wf go.mem = true) :
    Memory.wf (crossOr s a go).mem = true := by
  unfold crossOr
  grind [holdAsk_mem]

/-- The state a command leaves, done, accepted or held, has canonical memory. -/
def CmdEnd.Wf : CmdEnd → Prop
  | .done s _ _ _ => Memory.wf s.mem = true
  | .accepted s => Memory.wf s.mem = true
  | .hold s _ => Memory.wf s.mem = true
  | _ => True

theorem CmdEnd.status_wf (s : State) (n : Nat) (hs : Memory.wf s.mem = true) : (CmdEnd.status s n).Wf := hs

@[simp] theorem holdHead_mem (s : State) (c : Service) (why : HeldWhy) : (holdHead s c why).mem = s.mem := rfl

theorem leaveService_wf (s : State) (c : Service) (op : Nat) (h : CmdHeader) (e : CmdEnd) (hs : Memory.wf s.mem = true) (he : e.Wf) :
    Memory.wf (leaveService s c op h e).mem = true := by
  unfold leaveService
  grind [CmdEnd.Wf, completeCommand_wf, settleQueue_mem, modQueue_mem, holdHead_mem, feFault_mem]

theorem inOrder_wf (op : Nat) (ord : Bool) (h : CmdHeader) (s : State) (run : Service → Queue → CmdEnd) (hs : Memory.wf s.mem = true)
    (hr : ∀ c q, (run c q).Wf) : OutWf (inOrder op ord h s run) := by
  unfold inOrder
  grind [OutWf, holdHead_mem, leaveService_wf]

theorem ownCommand_wf (op : Nat) (h : CmdHeader) (s : State) (run : Service → Queue → CmdEnd) (hs : Memory.wf s.mem = true)
    (hr : ∀ c q, (run c q).Wf) : OutWf (ownCommand op h s run) := by
  refine inOrder_wf _ _ _ _ _ hs fun c q => ?_
  split
  · exact hs
  · exact hr c q

theorem adminCommand_wf (op : Nat) (h : CmdHeader) (s : State) (run : Service → Queue → CmdEnd) (hs : Memory.wf s.mem = true)
    (hr : ∀ c q, (run c q).Wf) : OutWf (adminCommand op h s run) := by
  refine inOrder_wf _ _ _ _ _ hs fun c q => ?_
  split
  · exact hs
  · exact hr c q

theorem cmdRead_wf (s : State) (q : Queue) (addr : W64) (n : Nat) (k : List Byte → State → CmdEnd) (hs : Memory.wf s.mem = true)
    (hk : ∀ bs t, Memory.wf t.mem = true → (k bs t).Wf) : (cmdRead s q addr n k).Wf := by
  unfold cmdRead
  grind [feRead_wf, FeRead.Wf, CmdEnd.Wf]

theorem execBadCommand_wf (s : State) (hs : Memory.wf s.mem = true) : OutWf (execBadCommand s) := by
  unfold execBadCommand
  split
  · exact hs
  · exact leaveService_wf _ _ _ _ _ hs (CmdEnd.status_wf s 16 hs)

@[simp] theorem queuePageHold_mem (s : State) (n : Nat) (kind : AccKind) (va lv : Nat) (h : Bool) :
    (queuePageHold s n kind va lv h).mem = s.mem := by
  unfold queuePageHold
  split <;> rfl

theorem armQueue_wf (s : State) (n : Nat) (hs : Memory.wf s.mem = true) : Memory.wf (armQueue s n).mem = true := by
  unfold armQueue
  grind [modQueue_mem, queueErrorLog_mem, fePlace_wf, queueError_mem, queuePageHold_mem, FePlace.Wf]

theorem retryHold_wf (s : State) (n : Nat) (hs : Memory.wf s.mem = true) : Memory.wf (retryHold s n).mem = true := by
  unfold retryHold
  grind [modQueue_mem, settleQueue_mem, flushCpl_wf, armQueue_wf]

theorem retryHolds_wf (s : State) (hs : Memory.wf s.mem = true) : Memory.wf (retryHolds s).mem = true := by
  unfold retryHolds
  refine foldl_wf _ _ _ (fun t _ ht => ?_) hs
  exact retryHold_wf _ _ ht

theorem takeCommand_wf (s : State) (n : Nat) (hs : Memory.wf s.mem = true) : Memory.wf (takeCommand s n).mem = true := by
  unfold takeCommand
  grind [modQueue_mem, homeWrite_wf, feRead_wf, fePlace_wf, settleQueue_mem, queueError_mem, queuePageHold_mem, FePlace.Wf, FeRead.Wf]

@[simp] theorem served_mem (s : State) (n : Nat) : (served s n).mem = s.mem := rfl

theorem execArbiterSelect_wf (s : State) (hs : Memory.wf s.mem = true) : OutWf (execArbiterSelect s) := by
  unfold execArbiterSelect
  grind [modQueue_mem, settleQueue_mem, holdAsk_mem, takeCommand_wf, served_mem, OutWf]

theorem execQueueAgeing_wf (queue : Nat) (s : State) (hs : Memory.wf s.mem = true) : OutWf (execQueueAgeing queue s) := by
  unfold execQueueAgeing
  split <;> exact hs

theorem cmdWord_wf (s : State) (q : Queue) (addr : W64) (kind : AccKind) (k : Nat → State → CmdEnd) (hs : Memory.wf s.mem = true)
    (hk : ∀ pa t, Memory.wf t.mem = true → (k pa t).Wf) : (cmdWord s q addr kind k).Wf := by
  unfold cmdWord
  grind [fePlace_wf, FePlace.Wf, CmdEnd.Wf]

theorem execSignal_wf (h : CmdHeader) (addr : W64) (value : W32) (isAdd : Bool) (s : State) (hs : Memory.wf s.mem = true) :
    OutWf (execSignal h addr value isAdd s) := by
  unfold execSignal
  refine inOrder_wf _ _ _ _ _ hs fun c q => ?_
  grind [homeWrite_wf, cmdWord_wf, CmdEnd.status_wf]

theorem execWait_wf (h : CmdHeader) (addr : W64) (value : W32) (k : Cond) (s : State) (hs : Memory.wf s.mem = true) :
    OutWf (execWait h addr value k s) := by
  unfold execWait
  refine ownCommand_wf _ _ _ _ hs fun c q => ?_
  grind [modQueue_mem, cmdWord_wf, CmdEnd.Wf, CmdEnd.status_wf]

theorem endWaitCommand_wf (s : State) (n status : Nat) (hs : Memory.wf s.mem = true) : Memory.wf (endWaitCommand s n status).mem = true := by
  unfold endWaitCommand
  split
  · exact hs
  · exact completeCommand_wf _ _ _ _ _ _ _ _ hs

theorem execWaitCommandSatisfied_wf (queue : Nat) (s : State) (hs : Memory.wf s.mem = true) : OutWf (execWaitCommandSatisfied queue s) := by
  unfold execWaitCommandSatisfied
  grind [endWaitCommand_wf, OutWf]

theorem cancelQueueWaits_wf (s : State) (ctx : Nat) (hs : Memory.wf s.mem = true) : Memory.wf (cancelQueueWaits s ctx).mem = true := by
  unfold cancelQueueWaits
  refine foldl_wf _ _ _ (fun t _ ht => ?_) hs
  exact endWaitCommand_wf _ _ _ ht

theorem execCancelCommand_wf (h : CmdHeader) (gridid : W32) (all : Bool) (s : State) (hs : Memory.wf s.mem = true) :
    OutWf (execCancelCommand h gridid all s) := by
  unfold execCancelCommand
  refine ownCommand_wf _ _ _ _ hs fun c q => ?_
  grind [setDomain_wf, setDomains_wf, cancelQueueWaits_wf, CmdEnd.status_wf]

end Sys2Proof.Machine

end

section
/-! SUPPORT. Layers, matrix operations and copies keep memory canonical. -/

set_option Elab.async false

namespace Sys2Proof.Machine

@[simp] theorem teamAcquires_mem (s : State) (t k : Nat) : (teamAcquires s t k).mem = s.mem := rfl

@[simp] theorem modOp_mem (s : State) (core op : Nat) (f : MatOp → MatOp) : (modOp s core op f).mem = s.mem := rfl

@[simp] theorem opAcquires_mem (s : State) (core op k : Nat) : (opAcquires s core op k).mem = s.mem := by
  unfold opAcquires
  grind [modTeam_mem]

theorem lacqEnds_wf (s : State) (k : Nat) (u : UnitId) (run : W32) (v : Nat) (f : Option Nat) (noerr : Bool) (pc cstart : Nat) (ok : Bool)
    (hs : Memory.wf s.mem = true) : Memory.wf (lacqEnds s k u run v f noerr pc cstart ok).mem = true := by
  unfold lacqEnds
  grind [setUnit_mem, deferTrap_wf, teamAcquires_mem]

theorem layerAnswer_wf (s : State) (k : Nat) (ok : Bool) (w : LayerWaiter) (hs : Memory.wf s.mem = true) :
    Memory.wf (layerAnswer s k ok w).mem = true := by
  unfold layerAnswer
  grind [completeSlot_wf, engineEnd_mem, modLayer_mem, teamAcquires_mem, modOp_mem, opAcquires_mem, lacqEnds_wf]

theorem answerAll_wf (s : State) (k : Nat) (ok : Bool) (hs : Memory.wf s.mem = true) : Memory.wf (answerAll s k ok).mem = true := by
  unfold answerAll
  refine foldl_wf _ _ _ (fun t _ ht => ?_) hs
  exact layerAnswer_wf _ _ _ _ ht

theorem layerFails_wf (s : State) (k : Nat) (hs : Memory.wf s.mem = true) : Memory.wf (layerFails s k).mem = true := answerAll_wf _ _ _ hs

/-- The state that has translated a layer's lines has canonical memory. -/
def LayerLines.Wf : LayerLines → Prop
  | .ok s _ => Memory.wf s.mem = true
  | _ => True

theorem linesFrom_wf (s : State) (ag : Option Nat) (ctx va n : Nat) (hs : Memory.wf s.mem = true) : (linesFrom s ag ctx va n).Wf := by
  induction n generalizing s va with
  | zero => exact hs
  | succ n ih =>
    unfold linesFrom
    grind [translate_wf, LayerLines.Wf]

theorem layerLines_wf (s : State) (k : Nat) (hs : Memory.wf s.mem = true) : (layerLines s k).Wf := linesFrom_wf _ _ _ _ _ hs

@[simp] theorem waitLayer_mem (s : State) (k seq : Nat) (w : LayerWaiter) : (waitLayer s k seq w).mem = s.mem := rfl

theorem requestAhead_wf (s : State) (k seq : Nat) (hs : Memory.wf s.mem = true) : Memory.wf (requestAhead s k seq).mem = true := by
  unfold requestAhead
  grind [waitLayer_mem, foldl_wf]

@[simp] theorem requestLayer_mem (s : State) (k : Nat) (w : LayerWaiter) : (requestLayer s k w).mem = s.mem := by
  unfold requestLayer
  grind [modLayer_mem, waitLayer_mem]

theorem placement_wf (s : State) (k : Nat) (hs : Memory.wf s.mem = true) : (placement s k).1.Wf := by
  unfold placement
  grind [layerLines_wf, LayerLines.Wf]

@[simp] theorem startLoad_mem (s : State) (k : Nat) (lines : List Nat) (victims : List Nat) : (startLoad s k lines victims).mem = s.mem := by
  unfold startLoad
  exact foldl_keeps _ (·.mem) (fun _ _ => modLayer_mem _ _ _) _ _

@[simp] theorem dropAhead_mem (s : State) (k : Nat) : (dropAhead s k).mem = s.mem := rfl

theorem leadOn_wf (before s : State) (k : Nat) (hs : Memory.wf s.mem = true) : Memory.wf (leadOn before s k).mem = true := by
  unfold leadOn
  grind [requestAhead_wf, modLayer_mem]

theorem placeLayer_wf (evicts : Bool) (s : State) (k : Nat) (hs : Memory.wf s.mem = true) : Memory.wf (placeLayer evicts s k).mem = true := by
  have hp := placement_wf s k hs
  unfold placeLayer
  grind [LayerLines.Wf, leadOn_wf, modLayer_mem, writeFault_mem, dropAhead_mem, layerFails_wf, startLoad_mem]

theorem execLayerPlacement_wf (ctx slot layer : Nat) (s : State) (hs : Memory.wf s.mem = true) : OutWf (execLayerPlacement ctx slot layer s) := by
  unfold execLayerPlacement
  grind [crossOr_wf, placeLayer_wf, OutWf]

theorem answerResident_wf (s : State) (hs : Memory.wf s.mem = true) : Memory.wf (answerResident s).mem = true := by
  unfold answerResident
  refine foldl_wf _ _ _ (fun t _ ht => ?_) hs
  exact answerAll_wf _ _ _ ht

theorem evictDue_wf (s : State) (hs : Memory.wf s.mem = true) : Memory.wf (evictDue s).mem = true := by
  unfold evictDue
  refine foldl_wf _ _ _ (fun t _ ht => ?_) hs
  grind [modLayer_mem, placeLayer_wf]

theorem layerTick_wf (s : State) (hs : Memory.wf s.mem = true) : Memory.wf (layerTick s).mem = true := by
  unfold layerTick
  grind [answerResident_wf, evictDue_wf]

theorem execLayerLoadComplete_wf (ctx slot layer : Nat) (s : State) (hs : Memory.wf s.mem = true) :
    OutWf (execLayerLoadComplete ctx slot layer s) := by
  unfold execLayerLoadComplete
  grind [modLayer_mem, answerAll_wf, layerFails_wf, OutWf]

theorem execLayerLoadError_wf (ctx slot layer : Nat) (s : State) (hs : Memory.wf s.mem = true) : OutWf (execLayerLoadError ctx slot layer s) := by
  unfold execLayerLoadError
  grind [layerFails_wf, OutWf]

theorem withLayer_wf (s : State) (x : Ctx) (q : SIdx) (own : (Nat → State) → State) (k : Nat → Nat → State) (hs : Memory.wf s.mem = true)
    (ho : ∀ f, (∀ i, Memory.wf (f i).mem = true) → Memory.wf (own f).mem = true) (hk : ∀ i n, Memory.wf (k i n).mem = true) :
    Memory.wf (withLayer s x q own k).mem = true := by
  unfold withLayer
  split
  · exact trapAll_wf _ _ _ _ _ hs
  · refine ho _ fun i => ?_
    split
    · exact hk _ _
    · exact trapAll_wf _ _ _ _ _ hs

theorem execLacq_wf (v : VIdx) (q : SIdx) (noerr : Bool) (s : State) (hs : Memory.wf s.mem = true) : OutWf (execLacq v q noerr s) := by
  unfold execLacq
  refine word_wf _ _ _ hs fun x => ?_
  grind +splitImp [setUnit_mem, engineAdd_mem, requestLayer_mem, withLayer_wf]

theorem execLacqFut_wf (v : VIdx) (q : SIdx) (s : State) (hs : Memory.wf s.mem = true) : OutWf (execLacqFut v q s) := by
  unfold execLacqFut
  refine word_wf _ _ _ hs fun x => ?_
  grind [setUnit_mem, engineAdd_mem, withSlot_wf, requestLayer_mem, withLayer_wf]

theorem execLrel_wf (q : SIdx) (s : State) (hs : Memory.wf s.mem = true) : OutWf (execLrel q s) := by
  unfold execLrel
  refine word_wf _ _ _ hs fun x => ?_
  grind +splitImp [modTeam_mem, setUnit_mem, layerReleased_wf, withLayer_wf]

theorem execLtest_wf (v : VIdx) (q : SIdx) (s : State) (hs : Memory.wf s.mem = true) : OutWf (execLtest v q s) := by
  unfold execLtest
  refine word_wf _ _ _ hs fun x => ?_
  grind +splitImp [setUnit_mem, withLayer_wf]

theorem execModelBind_wf (h : CmdHeader) (addr : W64) (slot : BitVec 4) (s : State) (hs : Memory.wf s.mem = true) :
    OutWf (execModelBind h addr slot s) := by
  unfold execModelBind
  refine ownCommand_wf _ _ _ _ hs fun c q => ?_
  grind [modCtx_mem, feRead_wf, cmdRead_wf, CmdEnd.Wf, FeRead.Wf, CmdEnd.status_wf]

theorem execPrefetch_wf (h : CmdHeader) (slot : BitVec 4) (first : BitVec 10) (count : BitVec 11) (s : State) (hs : Memory.wf s.mem = true) :
    OutWf (execPrefetch h slot first count s) := by
  unfold execPrefetch
  refine ownCommand_wf _ _ _ _ hs fun c q => ?_
  grind [requestLayer_mem, foldl_wf, CmdEnd.status_wf]

theorem closeRequests_wf (s : State) (ctx slot : Nat) (hs : Memory.wf s.mem = true) : Memory.wf (closeRequests s ctx slot).mem = true := by
  unfold closeRequests
  grind [layerAnswer_wf, answerAll_wf, layerFails_wf, foldl_wf]

theorem closeRows_wf (s : State) (ctx slot : Nat) (hs : Memory.wf s.mem = true) : Memory.wf (closeRows s ctx slot).mem = true := by
  unfold closeRows
  refine foldl_wf _ _ _ (fun t _ ht => ?_) hs
  grind [dropRows_wf]

@[simp] theorem unpinFree_mem (s : State) (ctx slot : Nat) : (unpinFree s ctx slot).mem = s.mem := rfl

theorem closeSlot_wf (s : State) (ctx slot : Nat) (hs : Memory.wf s.mem = true) : Memory.wf (closeSlot s ctx slot).mem = true :=
  closeRows_wf _ _ _ (closeRequests_wf _ _ _ hs)

theorem execModelUnbind_wf (h : CmdHeader) (slot : BitVec 4) (s : State) (hs : Memory.wf s.mem = true) : OutWf (execModelUnbind h slot s) := by
  unfold execModelUnbind
  refine ownCommand_wf _ _ _ _ hs fun c q => ?_
  grind [modModel_mem, freeModel_mem, closeSlot_wf, CmdEnd.status_wf, CmdEnd.Wf]

theorem resumeRequests_wf (s : State) (hs : Memory.wf s.mem = true) : Memory.wf (resumeRequests s).mem = true := by
  unfold resumeRequests
  grind [answerAll_wf, requestLayer_mem, foldl_wf]

theorem changeWays_wf (s : State) (ways : Nat) (hs : Memory.wf s.mem = true) : Memory.wf (changeWays s ways).mem = true := resumeRequests_wf _ hs

theorem execPinnedWayChange_wf (ways : Nat) (s : State) (hs : Memory.wf s.mem = true) : OutWf (execPinnedWayChange ways s) := by
  unfold execPinnedWayChange
  grind [changeWays_wf, OutWf]

@[simp] theorem requestLayers_mem (s : State) (core op : Nat) (ks : List Nat) : (requestLayers s core op ks).mem = s.mem := by
  unfold requestLayers
  exact foldl_keeps _ (·.mem) (fun _ _ => requestLayer_mem _ _ _) _ _

theorem enqueueOp_wf (s : State) (x : Ctx) (kind : MatKind) (acc : Nat) (flag : Option Nat) (hs : Memory.wf s.mem = true) :
    Memory.wf (enqueueOp s x kind acc flag).mem = true := by
  unfold enqueueOp
  grind [modCore_mem, setUnit_mem, fresh_mem, releaseStep_wf, engineAdd_mem, requestLayers_mem]

theorem matIssue_wf (i : Instr) (m : MxFields) (gang : Bool) (zero : ParamBlock → Bool) (s : State)
    (enqueue : Ctx → State → MatKind → ParamBlock → State) (hs : Memory.wf s.mem = true)
    (he : ∀ x t k b, Memory.wf t.mem = true → Memory.wf (enqueue x t k b).mem = true) : OutWf (matIssue i m gang zero s enqueue) := by
  unfold matIssue
  refine word_wf _ _ _ hs fun x => readRec_wf _ _ _ _ _ hs fun pb s1 h1 => ?_
  dsimp only
  split
  · exact trapAll_wf _ _ _ _ _ h1
  · exact readRec_wf _ _ _ _ _ h1 fun _ _ h2 => readRec_wf _ _ _ _ _ h2 fun _ _ h3 => checkRecs_wf _ _ _ _ _ h3 (he _ _ _ _ h3)

theorem execMma_wf (m : MxFields) (s : State) (hs : Memory.wf s.mem = true) : OutWf (execMma m s) := by
  unfold execMma
  grind [enqueueOp_wf, matIssue_wf]

theorem execMmas_wf (m : MxFields) (s : State) (hs : Memory.wf s.mem = true) : OutWf (execMmas m s) := by
  unfold execMmas
  grind [enqueueOp_wf, matIssue_wf]

theorem sendParts_wf (s : State) (x : Ctx) (kind : MatKind) (blk : ParamBlock) (acc : Nat) (flag : Option Nat) (hs : Memory.wf s.mem = true) :
    Memory.wf (sendParts s x kind blk acc flag).mem = true := by
  unfold sendParts
  grind [modCore_mem, setUnit_mem, fresh_mem, releaseStep_wf, setBar_mem, engineAdd_mem, requestLayers_mem, foldl_wf]

theorem execGmma_wf (m : MxFields) (s : State) (hs : Memory.wf s.mem = true) : OutWf (execGmma m s) := by
  unfold execGmma
  grind [matIssue_wf, sendParts_wf]

@[simp] theorem admitParts_mem (s : State) (core : Nat) : (admitParts s core).mem = s.mem := rfl

theorem execGmmaPartArrival_wf (core : Nat) (s : State) (hs : Memory.wf s.mem = true) : OutWf (execGmmaPartArrival core s) := by
  unfold execGmmaPartArrival
  grind [modCore_mem, matOpEnds_wf, admitParts_mem, OutWf]

theorem execAcz_wf (acc : BitVec 3) (s : State) (hs : Memory.wf s.mem = true) : OutWf (execAcz acc s) := by
  unfold execAcz
  refine word_wf _ _ _ hs fun x => ?_
  grind [enqueueOp_wf]

theorem accAddr_wf (s : State) (x : Ctx) (v : VIdx) (q : SIdx) (k : W64 → State) (hs : Memory.wf s.mem = true)
    (hk : ∀ a, Memory.wf (k a).mem = true) : Memory.wf (accAddr s x v q k).mem = true := by
  unfold accAddr
  grind [trapAll_wf]

theorem execAcld_wf (v : VIdx) (q : SIdx) (acc : BitVec 3) (s : State) (hs : Memory.wf s.mem = true) : OutWf (execAcld v q acc s) := by
  unfold execAcld
  refine word_wf _ _ _ hs fun x => ?_
  grind [enqueueOp_wf, accAddr_wf]

theorem execAcst_wf (v : VIdx) (q : SIdx) (acc : BitVec 3) (s : State) (hs : Memory.wf s.mem = true) : OutWf (execAcst v q acc s) := by
  unfold execAcst
  refine word_wf _ _ _ hs fun x => ?_
  grind [enqueueOp_wf, accAddr_wf]

theorem execAcrd_wf (v : VIdx) (q : SIdx) (acc : BitVec 3) (s : State) (hs : Memory.wf s.mem = true) : OutWf (execAcrd v q acc s) := by
  unfold execAcrd
  refine word_wf _ _ _ hs fun x => ?_
  grind [trapAll_wf, enqueueOp_wf]

theorem execAcepi_wf (q : SIdx) (acc : BitVec 3) (s : State) (hs : Memory.wf s.mem = true) : OutWf (execAcepi q acc s) := by
  unfold execAcepi
  refine word_wf _ _ _ hs fun x => ?_
  grind [readRec_wf, checkRecs_wf, enqueueOp_wf]

/-- The state that pins an operand has canonical memory. -/
def PinRes.Wf : PinRes → Prop
  | .ok s _ => Memory.wf s.mem = true
  | _ => True

theorem pinChunks_wf (s : State) (ag : Option Nat) (u : UnitId) (lane ctx op : Nat) (kind : AccKind) (snap : TMap Mem) (cs : List (Nat × Nat))
    (hs : Memory.wf s.mem = true) : (pinChunks s ag u lane ctx op kind snap cs).Wf := by
  induction cs generalizing s with
  | nil => exact hs
  | cons c cs ih =>
    unfold pinChunks
    grind [engPlace_wf, EngRes.Wf, PinRes.Wf]

theorem pinElem_wf (s : State) (ag : Option Nat) (u : UnitId) (lane ctx op : Nat) (kind : AccKind) (snap : TMap Mem) (e : ElemAt)
    (hs : Memory.wf s.mem = true) : (pinElem s ag u lane ctx op kind snap e).Wf := pinChunks_wf _ _ _ _ _ _ _ _ _ hs

theorem pinElems_wf (ag : Option Nat) (o : MatOp) (ctx : Nat) (isA : Bool) (es : List (Option ElemAt)) (i : Nat) (s : State)
    (hs : Memory.wf s.mem = true) : Memory.wf (pinElems ag o ctx isA es i s).2.1.mem = true := by
  induction es generalizing i s with
  | nil => exact hs
  | cons e es ih =>
    unfold pinElems
    grind [pinElem_wf, PinRes.Wf]

@[simp] theorem pinFails_mem (s : State) (core : Nat) (o : MatOp) (r : TrapRec) : (pinFails s core o r).mem = s.mem := rfl

@[simp] theorem pinFault_mem (s : State) (core : Nat) (o : MatOp) (kind : AccKind) (va lv : Nat) (h : Bool) :
    (pinFault s core o kind va lv h).mem = s.mem := by
  unfold pinFault
  split <;> rfl

@[simp] theorem pinStops_mem (deny : Nat → Bool) (s : State) (core : Nat) (o : MatOp) (kind : AccKind) (rec : TrapRec → TrapRec) (x1 : PinStop) :
    (pinStops deny s core o kind rec x1).mem = s.mem := by
  unfold pinStops
  grind [pinFails_mem, pinFault_mem]

theorem pinOperand_wf (deny : Nat → Bool) (s : State) (core : Nat) (o : MatOp) (isA : Bool) (st : Stencil) (c : List Nat) (rows rowsA ke : Nat)
    (k : State → List Nat → State) (hs : Memory.wf s.mem = true)
    (hk : ∀ t cs, Memory.wf t.mem = true → Memory.wf (k t cs).mem = true) :
    Memory.wf (pinOperand deny s core o isA st c rows rowsA ke k).mem = true := by
  have hgo : ∀ es ctx, Memory.wf (pinOperand.go deny s core o isA st rowsA ke k es ctx).mem = true := by
    intro es ctx
    unfold pinOperand.go
    grind [pinElems_wf, pinStops_mem, modOp_mem]
  unfold pinOperand
  grind [pinFails_mem, modOp_mem]

theorem pinMul_wf (deny : Nat → Bool) (s : State) (core : Nat) (o : MatOp) (mx : MxFields) (blk : ParamBlock) (a b : Stencil)
    (hs : Memory.wf s.mem = true) : Memory.wf (pinMul deny s core o mx blk a b).mem = true := by
  unfold pinMul
  grind [modOp_mem, pinOperand_wf]

theorem pinPlaces_wf (ag : Option Nat) (o : MatOp) (ctx : Nat) (kind : AccKind) (ps : List (Nat × Nat × Nat)) (s : State)
    (hs : Memory.wf s.mem = true) : Memory.wf (pinPlaces ag o ctx kind ps s).2.1.mem = true := by
  induction ps generalizing s with
  | nil => exact hs
  | cons p ps ih =>
    unfold pinPlaces
    grind [engPlace_wf, EngRes.Wf]

@[simp] theorem keepPlaces_mem (s : State) (core : Nat) (o : MatOp) (ls : TMap Loc) : (keepPlaces s core o ls).mem = s.mem := rfl

theorem pinRanges_wf (deny : Nat → Bool) (s : State) (core : Nat) (o : MatOp) (kind : AccKind) (rs : List (Nat × Nat × Nat))
    (k : State → TMap Loc → State) (hs : Memory.wf s.mem = true)
    (hk : ∀ t ls, Memory.wf t.mem = true → Memory.wf (k t ls).mem = true) : Memory.wf (pinRanges deny s core o kind rs k).mem = true := by
  unfold pinRanges
  grind [pinPlaces_wf, pinStops_mem, keepPlaces_mem]

theorem pinOp_wf (deny : Nat → Bool) (s : State) (core : Nat) (o : MatOp) (hs : Memory.wf s.mem = true) :
    Memory.wf (pinOp deny s core o).mem = true := by
  unfold pinOp
  grind [modOp_mem, pinElems_wf, pinStops_mem, pinMul_wf, keepPlaces_mem, pinRanges_wf]

theorem walkPages_wf (ag : Option Nat) (ctx core : Nat) (s : State) (ps : List (AccKind × Nat)) (hs : Memory.wf s.mem = true) :
    Memory.wf (walkPages ag ctx core s ps).1.mem = true := by
  unfold walkPages
  refine List.foldlRecOn ps _ (motive := fun acc : State × List Nat => Memory.wf acc.1.mem = true) hs fun acc ha p _ => ?_
  grind [translate_wf, engFault_mem]

theorem walkAhead_wf (s : State) (core : Nat) (o : MatOp) (hs : Memory.wf s.mem = true) : Memory.wf (walkAhead s core o).mem = true := by
  unfold walkAhead
  split
  · exact hs
  · exact walkPages_wf _ _ _ _ _ hs

theorem execOperandPin_wf (core : Nat) (op : Nat) (s : State) (hs : Memory.wf s.mem = true) : OutWf (execOperandPin core op s) := by
  unfold execOperandPin
  grind [holdAsk_mem, pinOp_wf, walkAhead_wf, OutWf]

@[simp] theorem askOp_mem (s : State) (core : Nat) (o : MatOp) : (askOp s core o).mem = s.mem := by
  unfold askOp
  grind [requestFares_mem, foldl_mem]

@[simp] theorem beginOp_mem (s : State) (core : Nat) (o : MatOp) : (beginOp s core o).mem = s.mem := by
  unfold beginOp
  split <;> rfl

theorem finishOp_wf (s : State) (core : Nat) (o : MatOp) (failed : Option TrapRec) (hs : Memory.wf s.mem = true) :
    Memory.wf (finishOp s core o failed).mem = true := by
  unfold finishOp
  grind [noteCur_mem, matOpEnds_wf, unitIdle_mem, admitParts_mem]

theorem startOp_wf (s : State) (core : Nat) (o : MatOp) (hs : Memory.wf s.mem = true) : Memory.wf (startOp s core o).mem = true := by
  unfold startOp
  grind [modOp_mem, beginOp_mem, finishOp_wf]

theorem execMatrixOpStart_wf (core : Nat) (s : State) (hs : Memory.wf s.mem = true) : OutWf (execMatrixOpStart core s) := by
  unfold execMatrixOpStart
  grind [askOp_mem, finishOp_wf, startOp_wf, OutWf]

@[simp] theorem setAcc_mem (s : State) (t acc : Nat) (a : TMap W32) : (setAcc s t acc a).mem = s.mem := rfl

@[simp] theorem sendStores_mem (s : State) (o : MatOp) : (sendStores s o).mem = s.mem := by
  unfold sendStores
  split <;> rfl

@[simp] theorem accAfter_mem (s : State) (o : MatOp) : (accAfter s o).mem = s.mem := by
  unfold accAfter
  grind [modTeam_mem, setAcc_mem]

@[simp] theorem regsAfter_mem (s : State) (o : MatOp) : (regsAfter s o).mem = s.mem := by
  unfold regsAfter
  split <;> rfl

theorem execMatrixOpEnd_wf (core : Nat) (s : State) (hs : Memory.wf s.mem = true) : OutWf (execMatrixOpEnd core s) := by
  unfold execMatrixOpEnd
  grind [finishOp_wf, sendStores_mem, accAfter_mem, regsAfter_mem, OutWf]

/-- The state that finds a copy's destination has canonical memory. -/
def DestRes.Wf : DestRes → Prop
  | .ok s _ => Memory.wf s.mem = true
  | _ => True

theorem destPlace_wf (s : State) (ag : Option Nat) (j : CopyJob) (member : Option Nat) (a n : Nat) (hs : Memory.wf s.mem = true) :
    (destPlace s ag j member a n).Wf := by
  unfold destPlace
  grind [translate_wf, DestRes.Wf]

theorem ownDest_wf (ag : Option Nat) (agent core : Nat) (s : State) (j : CopyJob) (hs : Memory.wf s.mem = true) :
    Memory.wf (ownDest ag agent core s j).1.mem = true := by
  unfold ownDest
  refine List.foldlRecOn _ _ (motive := fun acc : State × List Nat => Memory.wf acc.1.mem = true) (settleOwned_wf s hs) fun acc ha p _ => ?_
  grind [destPlace_wf, DestRes.Wf, takeLines_wf, engFault_mem]

theorem acceptCopy_wf (s : State) (core : Nat) (j : CopyJob) (hs : Memory.wf s.mem = true) : Memory.wf (acceptCopy s core j).1.mem = true := by
  exact ownDest_wf _ _ _ _ _ (walkPages_wf _ _ _ _ _ hs)

theorem copyDst_wf (s : State) (x : Ctx) (gang : Bool) (b : CopyBlock) (st : Stencil) (k : State) (hs : Memory.wf s.mem = true)
    (hk : Memory.wf k.mem = true) : Memory.wf (copyDst s x gang b st k).mem = true := by
  unfold copyDst
  grind [trapAll_wf]

theorem copyWord_wf (i : Instr) (v : VIdx) (q : SIdx) (gang : Bool) (s : State) (hs : Memory.wf s.mem = true) : OutWf (copyWord i v q gang s) := by
  unfold copyWord
  refine word_wf _ _ _ hs fun x => ?_
  grind [setUnit_mem, fresh_mem, releaseStep_wf, engineAdd_mem, readRec_wf, checkRecs_wf, withSlot_wf, acceptCopy_wf, copyDst_wf]

theorem execCopy_wf (v : VIdx) (q : SIdx) (s : State) (hs : Memory.wf s.mem = true) : OutWf (execCopy v q s) := copyWord_wf _ _ _ _ _ hs

theorem execGcopy_wf (v : VIdx) (q : SIdx) (s : State) (hs : Memory.wf s.mem = true) : OutWf (execGcopy v q s) := copyWord_wf _ _ _ _ _ hs

theorem execCopyStart_wf (core : Nat) (s : State) (hs : Memory.wf s.mem = true) : OutWf (execCopyStart core s) := by
  unfold execCopyStart
  grind [modCore_mem, cancelJob_wf, askPaid_mem, crossOr_wf, ownDest_wf, OutWf]

/-- The state that has read a copy's source has canonical memory. -/
def CopyRead.Wf : CopyRead → Prop
  | .ok s _ _ => Memory.wf s.mem = true
  | _ => True

theorem readCopy_wf (deny : Nat → Bool) (s : State) (j : CopyJob) (ixs : List (List Nat)) (hs : Memory.wf s.mem = true) :
    (readCopy deny s j ixs).Wf := by
  induction ixs generalizing s with
  | nil => exact hs
  | cons ix ixs ih =>
    unfold readCopy
    grind [pinElem_wf, PinRes.Wf, CopyRead.Wf]

@[simp] theorem peerWrite_mem (s : State) (u : UnitId) (pa : Nat) (bs : List Byte) : (peerWrite s u pa bs).mem = s.mem := rfl

theorem copyWrite_wf (s : State) (j : CopyJob) (loc : Loc) (bs : List Byte) (hs : Memory.wf s.mem = true) :
    Memory.wf (copyWrite s j loc bs).mem = true := by
  unfold copyWrite
  grind [engineWrite_wf, drainTo_wf, peerWrite_mem]

/-- The state that has written a copy's destination has canonical memory. -/
def CopyEnd.Wf : CopyEnd → Prop
  | .done s _ => Memory.wf s.mem = true
  | _ => True

theorem writeCopy_wf (deny : Nat → Bool) (j : CopyJob) (data : List Byte) (s : State) (ps : List (Option Nat × Nat × Nat × Nat))
    (hs : Memory.wf s.mem = true) : (writeCopy deny j data s ps).Wf := by
  induction ps generalizing s with
  | nil => exact hs
  | cons p ps ih =>
    unfold writeCopy
    grind [destPlace_wf, DestRes.Wf, CopyEnd.Wf, copyWrite_wf]

@[simp] theorem engineEnds_mem (s : State) : (engineEnds s).mem = s.mem := by
  unfold engineEnds
  grind [modQueue_mem, settleQueue_mem, foldl_mem]

theorem copyEnds_wf (s : State) (core : Nat) (j : CopyJob) (err : Option (Cause × Nat × W64)) (hs : Memory.wf s.mem = true) :
    Memory.wf (copyEnds s core j err).mem = true := by
  unfold copyEnds
  grind [modCore_mem, dropOp_mem, ownerDone_wf, ownerEnd_mem, dropLines_wf, engineEnds_mem]

@[simp] theorem copyFault_mem (s : State) (core : Nat) (j : CopyJob) (kind : AccKind) (va lv : Nat) (h : Bool) :
    (copyFault s core j kind va lv h).mem = s.mem := by
  unfold copyFault
  split <;> rfl

theorem copyRuns_wf (deny : Nat → Bool) (s : State) (core : Nat) (j : CopyJob) (hs : Memory.wf s.mem = true) :
    Memory.wf (copyRuns deny s core j).mem = true := by
  unfold copyRuns
  grind [settleOwned_wf, readCopy_wf, writeCopy_wf, copyEnds_wf, copyFault_mem, CopyEnd.Wf, CopyRead.Wf]

theorem execCopyComplete_wf (core : Nat) (s : State) (hs : Memory.wf s.mem = true) : OutWf (execCopyComplete core s) := by
  unfold execCopyComplete
  grind [copyRuns_wf, OutWf]

theorem execPeerAcknowledgement_wf (qp : Nat) (s : State) (hs : Memory.wf s.mem = true) : OutWf (execPeerAcknowledgement qp s) := by
  unfold execPeerAcknowledgement
  split <;> exact hs

/-- The state that has read a copy's description has canonical memory. -/
def CopySpec.Wf : CopySpec → Prop
  | .ok s _ _ => Memory.wf s.mem = true
  | _ => True

theorem copySpec_wf (s : State) (ctx addr : Nat) (hs : Memory.wf s.mem = true) : (copySpec s ctx addr).Wf := by
  unfold copySpec
  grind [feRead_wf, CopySpec.Wf, FeRead.Wf]

end Sys2Proof.Machine

end

section
/-! SUPPORT. Spawned work, the geometry and articulation engines, futures and wagons keep memory canonical. -/

set_option Elab.async false

namespace Sys2Proof.Machine

@[simp] theorem addWork_mem (s : State) (g : Grid) : (addWork s g).2.mem = s.mem := by
  unfold addWork
  grind [modGrid_mem, modCtx_mem, fresh_mem]

@[simp] theorem nameRoot_mem (s : State) (uid : Nat) : (nameRoot s uid).mem = s.mem := by
  unfold nameRoot
  grind [modGrid_mem, modCtx_mem]

@[simp] theorem startDeadline_mem (s : State) (uid : Nat) : (startDeadline s uid).mem = s.mem := by
  unfold startDeadline
  grind [modCtx_mem, nameRoot_mem]

theorem execLaunch_wf (h : CmdHeader) (r : SpawnRec) (tx0 ty0 : W32) (tw : BitVec 16) (s : State) (hs : Memory.wf s.mem = true) :
    OutWf (execLaunch h r tx0 ty0 tw s) := by
  unfold execLaunch
  refine ownCommand_wf _ _ _ _ hs fun c q => ?_
  grind [addWork_mem, startDeadline_mem, CmdEnd.status_wf, CmdEnd.Wf]

@[simp] theorem giveHandle_mem (s : State) (x : Ctx) (v : Nat) (lanes : List Nat) (h : W32) : (giveHandle s x v lanes h).mem = s.mem := rfl

@[simp] theorem child_mem (s : State) (x : Ctx) (v : Nat) (lanes : List Nat) (kind : FutKind) (g : Except Nat Grid) :
    (child s x v lanes kind g).mem = s.mem := by
  unfold child
  split <;> rfl

theorem spawnWord_wf (i : Instr) (v : VIdx) (q : SIdx) (one : Bool) (s : State) (make : Ctx → List (Nat × List Byte) → State → State)
    (hs : Memory.wf s.mem = true) (hm : ∀ x rs t, Memory.wf t.mem = true → Memory.wf (make x rs t).mem = true) :
    OutWf (spawnWord i v q one s make) := by
  unfold spawnWord
  refine word_wf _ _ _ hs fun x => ?_
  grind [modUnit_mem, giveHandle_mem, trapAll_wf, releaseStep_wf, heldRead_wf, HeldRead.Wf]

theorem execSpawn_wf (v : VIdx) (q : SIdx) (one : Bool) (s : State) (hs : Memory.wf s.mem = true) : OutWf (execSpawn v q one s) := by
  unfold execSpawn
  grind [modUnit_mem, child_mem, spawnWord_wf, foldl_wf]

/-- The state that has read a graph's nodes has canonical memory. -/
def GraphRead.Wf : GraphRead → Prop
  | .ok s _ => Memory.wf s.mem = true
  | _ => True

theorem readNode_wf (s : State) (ctx addr : Nat) (hs : Memory.wf s.mem = true) : (readNode s ctx addr).Wf := by
  unfold readNode
  grind [feRead_wf, FeRead.Wf, GraphRead.Wf]

theorem readNodes_wf (s : State) (ctx addr n : Nat) (hs : Memory.wf s.mem = true) : (readNodes s ctx addr n).Wf := by
  induction n generalizing s addr with
  | zero => exact hs
  | succ n ih =>
    unfold readNodes
    grind [readNode_wf, GraphRead.Wf]

theorem readGraph_wf (s : State) (ctx addr n : Nat) (hs : Memory.wf s.mem = true) : (readGraph s ctx addr n).Wf := by
  unfold readGraph
  grind [readNodes_wf, GraphRead.Wf]

theorem execTaskgraph_wf (h : CmdHeader) (nodes : W64) (nnode : W32) (cls : BitVec 2) (s : State) (hs : Memory.wf s.mem = true) :
    OutWf (execTaskgraph h nodes nnode cls s) := by
  unfold execTaskgraph
  refine ownCommand_wf _ _ _ _ hs fun c q => ?_
  grind [addWork_mem, startDeadline_mem, readGraph_wf, GraphRead.Wf, CmdEnd.status_wf, CmdEnd.Wf]

/-- The state that has read task records has canonical memory. -/
def TaskRead.Wf : TaskRead → Prop
  | .ok s _ => Memory.wf s.mem = true
  | _ => True

theorem readTasks_wf (s : State) (ctx : Nat) (rs : List (Nat × List Byte)) (hs : Memory.wf s.mem = true) : (readTasks s ctx rs).Wf := by
  induction rs generalizing s with
  | nil => exact hs
  | cons r rs ih =>
    unfold readTasks
    grind [readGraph_wf, GraphRead.Wf, TaskRead.Wf]

theorem execTask_wf (v : VIdx) (q : SIdx) (one : Bool) (s : State) (hs : Memory.wf s.mem = true) : OutWf (execTask v q one s) := by
  unfold execTask
  grind [modUnit_mem, feFault_mem, child_mem, spawnWord_wf, readTasks_wf, TaskRead.Wf, foldl_wf]

theorem withPool_wf (s : State) (x : Ctx) (q : SIdx) (k : Nat → State) (hs : Memory.wf s.mem = true)
    (hk : ∀ n, Memory.wf (k n).mem = true) : Memory.wf (withPool s x q k).mem = true := by
  unfold withPool
  grind [trapAll_wf]

@[simp] theorem allocLane_mem (x : Ctx) (v : Nat) (p : PIdx) (n : Nat) (s : State) (l : Nat) : (allocLane x v p n s l).mem = s.mem := by
  unfold allocLane
  split <;> rfl

theorem execDalloc_wf (v : VIdx) (q : SIdx) (p : PIdx) (s : State) (hs : Memory.wf s.mem = true) : OutWf (execDalloc v q p s) := by
  unfold execDalloc
  refine word_wf _ _ _ hs fun x => ?_
  grind [modUnit_mem, withPool_wf, allocLane_mem, foldl_wf]

theorem execDfree_wf (v : VIdx) (q : SIdx) (s : State) (hs : Memory.wf s.mem = true) : OutWf (execDfree v q s) := by
  unfold execDfree
  refine word_wf _ _ _ hs fun x => ?_
  grind [modPool_mem, modUnit_mem, releaseStep_wf, trapWord_wf, withPool_wf]

theorem execPoolAssign_wf (h : CmdHeader) (base : W64) (pool : Byte) (ctx : BitVec 6) (log2 : BitVec 4) (count : BitVec 16) (s : State)
    (hs : Memory.wf s.mem = true) : OutWf (execPoolAssign h base pool ctx log2 count s) := by
  unfold execPoolAssign
  refine adminCommand_wf _ _ _ _ hs fun c q => ?_
  grind [modPool_mem, CmdEnd.status_wf]

@[simp] theorem advanceRho_mem (s : State) (cluster : Nat) : (advanceRho s cluster).mem = s.mem := rfl

theorem execCopyCommand_wf (h : CmdHeader) (addr : W64) (s : State) (hs : Memory.wf s.mem = true) : OutWf (execCopyCommand h addr s) := by
  unfold execCopyCommand
  refine ownCommand_wf _ _ _ _ hs fun c q => ?_
  grind [modCtx_mem, fresh_mem, ungate_mem, acceptCopy_wf, copySpec_wf, advanceRho_mem, CopySpec.Wf, CmdEnd.status_wf, CmdEnd.Wf]

/-- The state that an engine's read goes on from has canonical memory. -/
def EngRead.Wf : EngRead → Prop
  | .ok s _ => Memory.wf s.mem = true
  | _ => True

theorem engRead_wf (s : State) (ag : Option Nat) (ctx op : Nat) (ps : List (Nat × Nat)) (hs : Memory.wf s.mem = true) :
    (engRead s ag ctx op ps).Wf := by
  induction ps generalizing s with
  | nil => exact hs
  | cons p ps ih =>
    unfold engRead
    grind [translate_wf, EngRead.Wf]

theorem ownRange_wf (s : State) (core ctx op agent : Nat) (ps : List (Nat × Nat)) (hs : Memory.wf s.mem = true) :
    Memory.wf (ownRange s core ctx op agent ps).1.mem = true := by
  unfold ownRange
  refine List.foldlRecOn ps _ (motive := fun acc : State × List Nat => Memory.wf acc.1.mem = true) (settleOwned_wf s hs) fun acc ha p _ => ?_
  grind [translate_wf, takeLines_wf, engFault_mem]

/-- The state that an engine's write goes on from has canonical memory. -/
def EngWrite.Wf : EngWrite → Prop
  | .ok s _ => Memory.wf s.mem = true
  | _ => True

theorem engPlaces_wf (s : State) (ag : Option Nat) (ctx op : Nat) (ps : List (Nat × List Byte)) (hs : Memory.wf s.mem = true) :
    (engPlaces s ag ctx op ps).Wf := by
  induction ps generalizing s with
  | nil => exact hs
  | cons p ps ih =>
    unfold engPlaces
    grind [translate_wf, EngWrite.Wf]

theorem readOctNode_wf (s : State) (ag : Option Nat) (ctx op : Nat) (t : OctRoot) (i : Nat) (hs : Memory.wf s.mem = true) :
    (readOctNode s ag ctx op t i).Wf := engRead_wf _ _ _ _ _ hs

/-- The state that a visit of a tree goes on from has canonical memory. -/
def Visit.Wf : Visit → Prop
  | .ok s _ => Memory.wf s.mem = true
  | _ => True

theorem visitNode_wf (ag : Option Nat) (ctx op : Nat) (t : OctRoot) (q : Query) (fuel i level : Nat) (lo : List Int) (edge : Int) (v : Visit)
    (hv : v.Wf) : (visitNode ag ctx op t q fuel i level lo edge v).Wf := by
  induction fuel generalizing i level lo edge v with
  | zero => exact hv
  | succ fuel ih =>
    cases v with
    | ok s best =>
      have hr := readOctNode_wf s ag ctx op t i hv
      unfold visitNode
      split
      · next s1 bs he =>
        rw [he] at hr
        dsimp only
        split
        · trivial
        · refine List.foldlRecOn _ _ (motive := Visit.Wf) hr fun v hv c _ => ?_
          grind [Visit.Wf]
      · trivial
    | stop r => exact hv
    | refused => exact hv

theorem visitPoint_wf (ag : Option Nat) (ctx op : Nat) (t : OctRoot) (q : Query) (fuel i level : Nat) (lo : List Int) (edge : Int) (s : State)
    (hs : Memory.wf s.mem = true) : (visitPoint ag ctx op t q fuel i level lo edge s).Wf := by
  induction fuel generalizing i level lo edge s with
  | zero => exact hs
  | succ fuel ih =>
    unfold visitPoint
    grind [readOctNode_wf, EngRead.Wf, Visit.Wf]

theorem runQuery_wf (s : State) (ag : Option Nat) (ctx op : Nat) (t : OctRoot) (qtype : Nat) (g : GeoQuery) (hs : Memory.wf s.mem = true)
    {s1 : State} {bs : List Byte} (hq : runQuery s ag ctx op t qtype g = .inr (some (s1, bs))) : Memory.wf s1.mem = true := by
  unfold runQuery at hq
  grind [visitPoint_wf, visitNode_wf, Visit.Wf]

theorem runQueries_wf (s : State) (cluster : Nat) (j : GeoJob) (t : OctRoot) (gs : List GeoQuery) (hs : Memory.wf s.mem = true)
    {s1 : State} {ws : List (Nat × List Byte)} (hq : runQueries s cluster j t gs = .inr (some (s1, ws))) : Memory.wf s1.mem = true := by
  induction gs generalizing s s1 ws with
  | nil => unfold runQueries at hq; grind
  | cons g gs ih =>
    unfold runQueries at hq
    grind [runQuery_wf]

theorem execGeo_wf (v : VIdx) (q : SIdx) (h : VIdx) (s : State) (hs : Memory.wf s.mem = true) : OutWf (execGeo v q h s) := by
  unfold execGeo
  refine word_wf _ _ _ hs fun x => ?_
  grind [modCluster_mem, setUnit_mem, fresh_mem, releaseStep_wf, engineAdd_mem, readRec_wf, checkRecs_wf, withSlot_wf, ownRange_wf]

theorem geoEnds_wf (s : State) (cluster : Nat) (j : GeoJob) (err : Nat) (addr : W64) (sub : Nat) (hs : Memory.wf s.mem = true) :
    Memory.wf (geoEnds s cluster j err addr sub).mem = true := by
  unfold geoEnds
  grind [modCluster_mem, dropOp_mem, ownerDone_wf, ownerEnd_mem, dropLines_wf]

@[simp] theorem modGeo_mem (s : State) (cluster id : Nat) (f : GeoJob → GeoJob) : (modGeo s cluster id f).mem = s.mem := rfl

theorem geoStops_wf (s : State) (cluster : Nat) (j : GeoJob) (kind : AccKind) (x1 : EngRead) (hs : Memory.wf s.mem = true) :
    Memory.wf (geoStops s cluster j kind x1).mem = true := by
  unfold geoStops
  grind [engFault_mem, geoEnds_wf, modGeo_mem]

theorem geoReads_wf (s : State) (cluster : Nat) (j : GeoJob) (hs : Memory.wf s.mem = true) : Memory.wf (geoReads s cluster j).mem = true := by
  unfold geoReads
  grind [engRead_wf, geoEnds_wf, modGeo_mem, geoStops_wf, EngRead.Wf]

theorem geoBegins_wf (s : State) (cluster : Nat) (j : GeoJob) (hs : Memory.wf s.mem = true) : Memory.wf (geoBegins s cluster j).mem = true := by
  unfold geoBegins
  grind [ownRange_wf, modGeo_mem, geoReads_wf]

theorem execGeoJobStart_wf (cluster : Nat) (s : State) (hs : Memory.wf s.mem = true) : OutWf (execGeoJobStart cluster s) := by
  unfold execGeoJobStart
  grind [askPaid_mem, crossOr_wf, geoEnds_wf, geoReads_wf, geoBegins_wf, OutWf]

theorem execGeoJobComplete_wf (cluster : Nat) (s : State) (hs : Memory.wf s.mem = true) : OutWf (execGeoJobComplete cluster s) := by
  unfold execGeoJobComplete
  split
  · exact hs
  · next j _ _ =>
    split
    · exact hs
    · split
      · exact geoEnds_wf _ _ _ _ _ _ hs
      · next t _ =>
        split
        · exact geoStops_wf _ _ _ _ _ hs
        · exact geoEnds_wf _ _ _ _ _ _ hs
        · next s1 ws he =>
          have h1 : Memory.wf s1.mem = true := runQueries_wf _ _ _ _ _ hs he
          have hp := engPlaces_wf s1 (some (engineAgent cluster)) j.ctx j.id ws h1
          split
          · next s2 bs he => rw [he] at hp; exact geoEnds_wf _ _ _ _ _ _ (engineWrite_wf _ _ hp)
          · exact hs
          · exact geoStops_wf _ _ _ _ _ h1
          · exact geoEnds_wf _ _ _ _ _ _ h1

/-- The state that has read a model's joint words has canonical memory. -/
def ArtNv.Wf : ArtNv → Prop
  | .ok s _ => Memory.wf s.mem = true
  | _ => True

theorem artWords_wf (s : State) (ag : Option Nat) (ctx model j nv n : Nat) (hs : Memory.wf s.mem = true) :
    (artWords s ag ctx model j nv n).Wf := by
  induction n generalizing s j nv with
  | zero => exact hs
  | succ n ih =>
    unfold artWords
    grind [engRead_wf, EngRead.Wf, ArtNv.Wf]

theorem artNv_wf (s : State) (ag : Option Nat) (ctx model : Nat) (hs : Memory.wf s.mem = true) : (artNv s ag ctx model).Wf := by
  unfold artNv
  grind [engRead_wf, artWords_wf, ArtNv.Wf, EngRead.Wf]

theorem acceptArt_wf (s : State) (cluster : Nat) (j : ArtJob) (hs : Memory.wf s.mem = true) : Memory.wf (acceptArt s cluster j).mem = true :=
  ownRange_wf _ _ _ _ _ _ hs

theorem artAccepted_wf (s : State) (x : Ctx) (slot : Nat) (h : VIdx) (j : ArtJob) (hs : Memory.wf s.mem = true) :
    Memory.wf (artAccepted s x slot h j).mem = true := acceptArt_wf _ _ _ hs

theorem artWord_wf (forced : Option (Nat × W64 × Nat)) (q : SIdx) (h : VIdx) (s : State) (hs : Memory.wf s.mem = true) :
    OutWf (artWord forced q h s) := by
  unfold artWord
  refine word_wf _ _ _ hs fun x => ?_
  grind [modUnit_mem, releaseStep_wf, readRec_wf, checkRecs_wf, withSlot_wf, engFault_mem, artNv_wf, artAccepted_wf, ArtNv.Wf]

theorem execArt_wf (q : SIdx) (h : VIdx) (s : State) (hs : Memory.wf s.mem = true) : OutWf (execArt q h s) := artWord_wf _ _ _ _ hs

theorem artEnds_wf (s : State) (cluster : Nat) (j : ArtJob) (err : Nat) (detail : BitVec 16) (addr : W64) (sub : Nat)
    (hs : Memory.wf s.mem = true) : Memory.wf (artEnds s cluster j err detail addr sub).mem = true := by
  unfold artEnds
  grind [modCluster_mem, dropOp_mem, ownerDone_wf, ownerEnd_mem, dropLines_wf]

@[simp] theorem modArt_mem (s : State) (cluster id : Nat) (f : ArtJob → ArtJob) : (modArt s cluster id f).mem = s.mem := rfl

@[simp] theorem artPage_mem (s : State) (cluster : Nat) (j : ArtJob) (kind : AccKind) (va level : Nat) (h : Bool) :
    (artPage s cluster j kind va level h).mem = s.mem := by
  unfold artPage
  split <;> rfl

theorem artStops_wf (s : State) (cluster : Nat) (j : ArtJob) (kind : AccKind) (x1 : EngRead) (hs : Memory.wf s.mem = true) :
    Memory.wf (artStops s cluster j kind x1).mem = true := by
  unfold artStops
  grind [artEnds_wf, artPage_mem]

theorem artReads_wf (s : State) (cluster : Nat) (j : ArtJob) (hs : Memory.wf s.mem = true) : Memory.wf (artReads s cluster j).mem = true := by
  have hread : ∀ t ps, Memory.wf t.mem = true → (engRead t (some (engineAgent cluster)) j.ctx j.id ps).Wf := fun t ps ht => engRead_wf t _ _ _ ps ht
  have hends : ∀ t, Memory.wf t.mem = true → Memory.wf (artEnds t cluster j 10 0 0 0).mem = true := fun t ht => artEnds_wf _ _ _ _ _ _ _ ht
  unfold artReads
  dsimp only
  have h1 := hread s (pieces j.model.toNat 64) hs
  split
  · next s1 hd he =>
    rw [he] at h1
    split
    · exact hends s1 h1
    · next nj _ =>
      have h2 := hread s1 (pieces (j.model.toNat + 64) (128 * nj)) h1
      split
      · next s2 body he =>
        rw [he] at h2
        split
        · exact hends s2 h2
        · split
          · exact hends s2 h2
          · next m _ _ =>
            have h3 := hread s2 (pieces j.input.toNat (4 * inCount j.job (nqOf m.joints) (nvOf m.joints))) h2
            split
            · next s3 inp he =>
              rw [he] at h3
              split
              · exact h3
              · exact hends s3 h3
            · exact artStops_wf _ _ _ _ _ h2
      · exact artStops_wf _ _ _ _ _ h1
  · exact artStops_wf _ _ _ _ _ hs

theorem artBegins_wf (s : State) (cluster : Nat) (j : ArtJob) (hs : Memory.wf s.mem = true) : Memory.wf (artBegins s cluster j).mem = true := by
  unfold artBegins
  grind [ownRange_wf, artEnds_wf, modArt_mem, artReads_wf]

theorem execArtJobStart_wf (cluster : Nat) (s : State) (hs : Memory.wf s.mem = true) : OutWf (execArtJobStart cluster s) := by
  unfold execArtJobStart
  grind [askPaid_mem, crossOr_wf, artEnds_wf, artBegins_wf, OutWf]

theorem execArtBudgetExpiry_wf (cluster : Nat) (s : State) (hs : Memory.wf s.mem = true) : OutWf (execArtBudgetExpiry cluster s) := by
  unfold execArtBudgetExpiry
  grind [artEnds_wf, OutWf]

theorem execArtJobComplete_wf (cluster : Nat) (s : State) (hs : Memory.wf s.mem = true) : OutWf (execArtJobComplete cluster s) := by
  unfold execArtJobComplete
  grind [engineWrite_wf, engPlaces_wf, artEnds_wf, modArt_mem, artPage_mem, EngWrite.Wf, OutWf]

@[simp] theorem observed_mem (s : State) (x : Ctx) (f : FutSlot) : (observed s x f).mem = s.mem := by
  unfold observed
  split <;> rfl

theorem fwaitDone_wf (s : State) (x : Ctx) (v : VIdx) (f : FutSlot) (noerr : Bool) (hs : Memory.wf s.mem = true) :
    Memory.wf (fwaitDone s x v f noerr).mem = true := by
  unfold fwaitDone
  grind [setUnit_mem, trapDeliver_wf, observed_mem]

theorem execFwait_wf (v : VIdx) (noerr : Bool) (slot : SlotRef) (s : State) (hs : Memory.wf s.mem = true) : OutWf (execFwait v noerr slot s) := by
  unfold execFwait
  refine word_wf _ _ _ hs fun x => ?_
  grind +splitImp [setUnit_mem, trapWord_wf, beginWait_mem, waitWord_wf, observed_mem, fwaitDone_wf]

theorem execFtest_wf (v : VIdx) (slot : SlotRef) (s : State) (hs : Memory.wf s.mem = true) : OutWf (execFtest v slot s) := by
  unfold execFtest
  refine word_wf _ _ _ hs fun x => ?_
  grind [setUnit_mem, trapWord_wf, observed_mem]

theorem execFdrop_wf (slot : SlotRef) (s : State) (hs : Memory.wf s.mem = true) : OutWf (execFdrop slot s) := by
  unfold execFdrop
  refine word_wf _ _ _ hs fun x => ?_
  grind [setUnit_mem, trapWord_wf]

theorem execEret_wf (g : Guard) (s : State) (hs : Memory.wf s.mem = true) : OutWf (execEret g s) := by
  unfold execEret
  refine word_wf _ _ _ hs fun x => ?_
  grind [setCtl_mem]

theorem execHmfs_wf (d : OField) (g : Guard) (r : BitVec 4) (s : State) (hs : Memory.wf s.mem = true) : OutWf (execHmfs d g r s) := by
  unfold execHmfs
  refine word_wf _ _ _ hs fun x => ?_
  grind [setUnit_mem]

theorem execHmts_wf (a : OField) (g : Guard) (r : BitVec 4) (s : State) (hs : Memory.wf s.mem = true) : OutWf (execHmts a g r s) := by
  unfold execHmts
  refine word_wf _ _ _ hs fun x => ?_
  grind [setUnit_mem, trapWord_wf]

@[simp] theorem redirect_mem (s : State) (u : UnitId) : (redirect s u).mem = s.mem := by
  unfold redirect
  grind [setUnit_mem, exitLanes_mem]

theorem settleXfer_wf (s : State) (u : UnitId) (hs : Memory.wf s.mem = true) : Memory.wf (settleXfer s u).mem = true := by
  unfold settleXfer
  grind [setUnit_mem, trapDeliver_wf, doXfers_wf]

theorem settleXfers_wf (s : State) (u : UnitId) (hs : Memory.wf s.mem = true) : Memory.wf (settleXfers s u).mem = true := by
  unfold settleXfers
  refine foldl_wf _ _ _ (fun t _ ht => ?_) hs
  exact settleXfer_wf _ _ ht

@[simp] theorem moveOwed_mem (s : State) (us : List UnitId) : (moveOwed s us).mem = s.mem := by
  unfold moveOwed
  exact foldl_keeps _ (·.mem) (fun _ _ => setUnit_mem _ _ _) _ _

@[simp] theorem moveAll_mem (s : State) (us : List UnitId) : (moveAll s us).mem = s.mem := by
  unfold moveAll
  exact foldl_keeps _ (·.mem) (fun _ _ => modUnit_mem _ _ _) _ _

@[simp] theorem enterClause_mem (s : State) (u : UnitId) (pc : Nat) (b? : Option BlockedRun) (cand candP mask maskP : W32) :
    (enterClause s u pc b? cand candP mask maskP).mem = s.mem := by
  unfold enterClause
  grind [setUnit_mem]

@[simp] theorem enterLowest_mem (s : State) (us : List UnitId) : (enterLowest s us).mem = s.mem := by
  unfold enterLowest
  grind [enterClause_mem, foldl_mem]

@[simp] theorem selectJoint_mem (s : State) (us : List UnitId) : (selectJoint s us).mem = s.mem := by
  unfold selectJoint
  grind [modUnit_mem, moveOwed_mem, moveAll_mem, enterLowest_mem, foldl_mem]

theorem execSelectRun_wf (u : UnitId) (s : State) (hs : Memory.wf s.mem = true) : OutWf (execSelectRun u s) := by
  unfold execSelectRun
  grind [exitLanes_mem, wakeReady_wf, redirect_mem, settleXfers_wf, selectJoint_mem, OutWf, foldl_wf]

@[simp] theorem takeResv_mem (s : State) (u : UnitId) (fares : Bool) : (takeResv s u fares).mem = s.mem := by
  unfold takeResv
  grind [modCluster_mem]

theorem execStarvationReservation_wf (u : UnitId) (k : DenyKind) (s : State) (hs : Memory.wf s.mem = true) :
    OutWf (execStarvationReservation u k s) := by
  unfold execStarvationReservation
  grind [takeResv_mem, OutWf]

theorem execGraceExpiry_wf (grid : Nat) (s : State) (hs : Memory.wf s.mem = true) : OutWf (execGraceExpiry grid s) := by
  unfold execGraceExpiry
  grind [modGrid_mem, redirect_mem, OutWf, foldl_wf]

theorem expireDeadline_wf (s : State) (ctx : Nat) (hs : Memory.wf s.mem = true) : Memory.wf (expireDeadline s ctx).mem = true := by
  unfold expireDeadline
  grind [modCtx_mem, setDomains_wf]

theorem execDeadlineExpiry_wf (ctx : Nat) (s : State) (hs : Memory.wf s.mem = true) : OutWf (execDeadlineExpiry ctx s) := expireDeadline_wf _ _ hs

@[simp] theorem giveTiles_mem (s : State) (q : Nat) : (giveTiles s q).mem = s.mem := by
  unfold giveTiles
  split <;> rfl

@[simp] theorem depart_mem (s : State) (q : Nat) : (depart s q).mem = s.mem := by
  unfold depart
  split <;> simp

theorem withQueue_wf (s : State) (x : Ctx) (q : SIdx) (k : Nat → WagonBinding → State) (hs : Memory.wf s.mem = true)
    (hk : ∀ n b, Memory.wf (k n b).mem = true) : Memory.wf (withQueue s x q k).mem = true := by
  unfold withQueue
  grind [trapAll_wf]

theorem execWflush_wf (q : SIdx) (s : State) (hs : Memory.wf s.mem = true) : OutWf (execWflush q s) := by
  unfold execWflush
  refine word_wf _ _ _ hs fun x => ?_
  grind [modUnit_mem, depart_mem, withQueue_wf]

theorem ownLines_wf (s : State) (ctx op : Nat) (ps : List (Nat × Nat)) (hs : Memory.wf s.mem = true) :
    Memory.wf (ownLines s ctx op ps).mem = true := by
  unfold ownLines
  grind [takeLines_wf, translate_wf, settleOwned_wf, foldl_wf]

theorem pushRow_wf (x : Ctx) (b : WagonBinding) (q v slot : Nat) (s : State) (l : Nat) (hs : Memory.wf s.mem = true) :
    Memory.wf (pushRow x b q v slot s l).mem = true := by
  unfold pushRow
  grind [modWagon_mem, fresh_mem, engineAdd_mem, depart_mem, ownLines_wf]

@[simp] theorem pushSlot_mem (s : State) (x : Ctx) (slot : Nat) (done : Bool) : (pushSlot s x slot done).mem = s.mem := rfl

theorem pushRows_wf (x : Ctx) (b : WagonBinding) (q v slot : Nat) (ls : List Nat) (s : State) (hs : Memory.wf s.mem = true) :
    Memory.wf (pushRows x b q v slot ls s).1.mem = true := by
  induction ls generalizing s with
  | nil => exact hs
  | cons l ls ih =>
    unfold pushRows
    grind [pushRow_wf]

theorem pushOn_wf (s : State) (x : Ctx) (n v h slot : Nat) (lanes : List Nat) (hs : Memory.wf s.mem = true) :
    Memory.wf (pushOn s x n v h slot lanes).mem = true := by
  unfold pushOn
  grind [modUnit_mem, rowStatus_wf, pushRows_wf, foldl_wf]

theorem execWpush_wf (v : VIdx) (q : SIdx) (h : VIdx) (s : State) (hs : Memory.wf s.mem = true) : OutWf (execWpush v q h s) := by
  unfold execWpush
  refine word_wf _ _ _ hs fun x => ?_
  split
  · exact pushOn_wf _ _ _ _ _ _ _ hs
  · split
    · exact trapAll_wf _ _ _ _ _ hs
    · extract_lets bound kb
      split
      · exact trapAll_wf _ _ _ _ _ hs
      · refine withSlot_wf _ _ _ hs fun slot => withQueue_wf _ _ _ _ hs fun n b => ?_
        grind [trapWord_wf, modUnit_mem, pushSlot_mem, pushOn_wf, releaseStep_wf]

theorem execWagonAgeLimit_wf (queue : Nat) (s : State) (hs : Memory.wf s.mem = true) : OutWf (execWagonAgeLimit queue s) := by
  unfold execWagonAgeLimit
  grind [depart_mem, OutWf]

@[simp] theorem modDeparted_mem (s : State) (q id : Nat) (f : Wagon → Wagon) : (modDeparted s q id f).mem = s.mem := rfl

theorem wagonEnds_wf (s : State) (q id : Nat) (hs : Memory.wf s.mem = true) : Memory.wf (wagonEnds s q id).mem = true := by
  unfold wagonEnds
  grind [modWagon_mem, checkWagonUnbind_wf, checkUnbind_wf, giveTiles_mem]

theorem wagonFails_wf (s : State) (q : Nat) (d : Wagon) (err : Nat) (hs : Memory.wf s.mem = true) :
    Memory.wf (wagonFails s q d err).mem = true := by
  unfold wagonFails
  grind [rowDone_wf, wagonEnds_wf, foldl_wf]

theorem execWagonTaskCreate_wf (queue : Nat) (s : State) (hs : Memory.wf s.mem = true) : OutWf (execWagonTaskCreate queue s) := by
  unfold execWagonTaskCreate
  grind [engineWrite_wf, holdAsk_mem, addWork_mem, startDeadline_mem, engPlaces_wf, modDeparted_mem, wagonFails_wf, EngWrite.Wf, OutWf]

/-- The state that has copied rows, all or up to a page that is not there, has canonical memory. -/
def RowsCopied.Wf : RowsCopied → Prop
  | .all s => Memory.wf s.mem = true
  | .waits s => Memory.wf s.mem = true

theorem copyResults_wf (q : Nat) (b : WagonBinding) (id i r : Nat) (rows : List WagonRow) (s : State) (hs : Memory.wf s.mem = true) :
    (copyResults q b id i r rows s).Wf := by
  induction rows generalizing r s with
  | nil => exact hs
  | cons row rows ih =>
    unfold copyResults
    grind [RowsCopied.Wf, engRead_wf, EngRead.Wf, engPlaces_wf, EngWrite.Wf, engineWrite_wf, modDeparted_mem, rowDone_wf, feFault_mem]

theorem taskEnds_wf (s : State) (q id : Nat) (e : TaskEnd) (hs : Memory.wf s.mem = true) : (taskEnds s q id e).Wf := by
  unfold taskEnds
  grind [wagonEnds_wf, wagonFails_wf, copyResults_wf, RowsCopied.Wf]

theorem execWagonBind_wf (h : CmdHeader) (addr : W64) (s : State) (hs : Memory.wf s.mem = true) : OutWf (execWagonBind h addr s) := by
  unfold execWagonBind
  refine adminCommand_wf _ _ _ _ hs fun c q => ?_
  grind [cmdRead_wf, CmdEnd.status_wf]

theorem execWagonUnbind_wf (h : CmdHeader) (queue : BitVec 6) (s : State) (hs : Memory.wf s.mem = true) : OutWf (execWagonUnbind h queue s) := by
  unfold execWagonUnbind
  refine adminCommand_wf _ _ _ _ hs fun c q => ?_
  grind [modWagon_mem, checkUnreg_wf, CmdEnd.status_wf, CmdEnd.Wf]

@[simp] theorem leaveCore_mem (s : State) (t : Nat) : (leaveCore s t).mem = s.mem := rfl

@[simp] theorem drainTeam_mem (forGrid : Nat) (s : State) (m : Nat) : (drainTeam forGrid s m).mem = s.mem := rfl

@[simp] theorem beginPreempt_mem (s : State) (t forGrid : Nat) : (beginPreempt s t forGrid).mem = s.mem := by
  unfold beginPreempt
  exact foldl_keeps _ (·.mem) (fun _ _ => drainTeam_mem _ _ _) _ _

@[simp] theorem saveUnit_mem (s : State) (u : UnitId) : (saveUnit s u).mem = s.mem := by
  unfold saveUnit
  exact foldl_keeps _ (·.mem) (fun _ _ => withdrawWait_mem _ _ _) _ _

theorem saveTeam_wf (s : State) (t : Nat) (hs : Memory.wf s.mem = true) : Memory.wf (saveTeam s t).mem = true := by
  unfold saveTeam
  grind [modCore_mem, modTeam_mem, clearModes_mem, releaseStep_wf, leaveCore_mem, saveUnit_mem, foldl_wf]

theorem execPreemptTeam_wf (team : Nat) (s : State) (hs : Memory.wf s.mem = true) : OutWf (execPreemptTeam team s) := by
  unfold execPreemptTeam
  grind [checkSuspended_wf, beginPreempt_mem, saveTeam_wf, OutWf, foldl_wf]

theorem execPreemptionAbandon_wf (team : Nat) (s : State) (hs : Memory.wf s.mem = true) : OutWf (execPreemptionAbandon team s) := by
  unfold execPreemptionAbandon
  grind [modTeam_mem, hostEvent_mem, OutWf, foldl_wf]

end Sys2Proof.Machine

end

section
/-! SUPPORT. Page service, dispatch and retirement keep memory canonical. -/

set_option Elab.async false

namespace Sys2Proof.Machine

theorem execTlbFill_wf (fill : Nat) (s : State) (hs : Memory.wf s.mem = true) : OutWf (execTlbFill fill s) := by
  unfold execTlbFill
  grind [endFill_mem, OutWf]

theorem placeAgain_wf (s : State) (agent : Option Nat) (ctx va : Nat) (hs : Memory.wf s.mem = true) :
    Memory.wf (placeAgain s agent ctx va).2.mem = true := by
  unfold placeAgain
  grind [translate_wf]

@[simp] theorem modRun_mem (s : State) (u : UnitId) (id : Nat) (f : BlockedRun → BlockedRun) : (modRun s u id f).mem = s.mem := rfl

theorem rebindRun_wf (sel : BlockedRun → Nat → Bool) (u : UnitId) (s : State) (b : BlockedRun) (hs : Memory.wf s.mem = true) :
    Memory.wf (rebindRun sel u s b).mem = true := by
  unfold rebindRun
  grind [deferTrap_wf, placeAgain_wf, modRun_mem]

theorem rebindRuns_wf (sel : BlockedRun → Nat → Bool) (s : State) (u : UnitId) (hs : Memory.wf s.mem = true) :
    Memory.wf (rebindRuns sel s u).mem = true := by
  unfold rebindRuns
  refine foldl_wf _ _ _ (fun t _ ht => ?_) hs
  exact rebindRun_wf _ _ _ _ ht

theorem rebindCmd_wf (sel : WaitCmd → Bool) (s : State) (n : Nat) (hs : Memory.wf s.mem = true) : Memory.wf (rebindCmd sel s n).mem = true := by
  unfold rebindCmd
  grind [modQueue_mem, completeCommand_wf, placeAgain_wf]

@[simp] theorem recordLostRuns_mem (s : State) (u : UnitId) : (recordLostRuns s u).mem = s.mem := by
  unfold recordLostRuns
  grind [modUnit_mem, writeFault_mem, foldl_mem]

@[simp] theorem recordLostCmd_mem (s : State) (n : Nat) : (recordLostCmd s n).mem = s.mem := by
  unfold recordLostCmd
  grind [modQueue_mem, feFault_mem]

@[simp] theorem recordLost_mem (s : State) : (recordLost s).mem = s.mem := by
  unfold recordLost
  grind [recordLostRuns_mem, recordLostCmd_mem, foldl_mem]

@[simp] theorem setEntry_mem (s : State) (core : Nat) (id : Nat) (e : Option LogEntry) : (setEntry s core id e).mem = s.mem := rfl

@[simp] theorem feedLoad_mem (s : State) (e : LogEntry) (lanes : List LaneAcc) (last : Bool) : (feedLoad s e lanes last).mem = s.mem := by
  unfold feedLoad
  grind [modUnit_mem, fresh_mem]

@[simp] theorem settleEntry_mem (s : State) (core : Nat) (e : LogEntry) (done left : List LaneAcc) (again : Bool) :
    (settleEntry s core e done left again).mem = s.mem := by
  unfold settleEntry
  grind [modUnit_mem, setEntry_mem, feedLoad_mem]

theorem denyLanes_wf (s : State) (e : LogEntry) (c : Cause) (sub : Nat) (lanes : List LaneAcc) (addr : W64) (hs : Memory.wf s.mem = true) :
    Memory.wf (denyLanes s e c sub lanes addr).mem = true := by
  unfold denyLanes
  split
  · exact hs
  · exact deferTrap_wf _ _ _ _ hs

theorem retryLanes_wf (s : State) (core : Nat) (e : LogEntry) (sel : LaneAcc → Bool) (hs : Memory.wf s.mem = true) :
    Memory.wf (retryLanes s core e sel).mem = true := by
  unfold retryLanes
  extract_lets now rs ok flt s1 bads s2 room s3
  have h1 : Memory.wf s1.mem = true := passLanes_wf _ _ _ _ _ hs
  have h2 : Memory.wf s2.mem = true := by
    grind [rankTrap_wf, Access.Wf, deferTrap_wf]
  have h3 : Memory.wf s3.mem = true := by
    grind [writeFaults_mem]
  rwa [settleEntry_mem]

theorem retryLogs_wf (s : State) (sel : LogEntry → LaneAcc → Bool) (hs : Memory.wf s.mem = true) : Memory.wf (retryLogs s sel).mem = true := by
  unfold retryLogs
  grind [setEntry_mem, retryLanes_wf, foldl_wf]

theorem walkAgain_wf (s : State) (ctx : Nat) (hs : Memory.wf s.mem = true) : Memory.wf (walkAgain s ctx).mem = true := retryLogs_wf _ _ hs

theorem dropOld_wf (s : State) (i : Invalidation) (hs : Memory.wf s.mem = true) : Memory.wf (dropOld s i).mem = true := by
  unfold dropOld
  grind [testWaits_mem, dropTlb_mem, armQueue_wf, rebindRuns_wf, rebindCmd_wf, recordLost_mem, foldl_wf]

@[simp] theorem freeEvicted_mem (s : State) : (freeEvicted s).mem = s.mem := by
  unfold freeEvicted
  grind [foldl_mem]

theorem endInvalidation_wf (s : State) (i : Invalidation) (hs : Memory.wf s.mem = true) : Memory.wf (endInvalidation s i).mem = true := by
  unfold endInvalidation
  grind [walkAgain_wf, dropOld_wf, freeEvicted_mem]

theorem endInvalidations_wf (s : State) (hs : Memory.wf s.mem = true) : Memory.wf (endInvalidations s).mem = true := by
  unfold endInvalidations
  refine foldl_wf _ _ _ (fun t _ ht => ?_) hs
  exact endInvalidation_wf _ _ ht

theorem execInvalidation_wf (ctx va len : Nat) (s : State) (hs : Memory.wf s.mem = true) : OutWf (execInvalidation ctx va len s) :=
  endInvalidation_wf _ _ (beginInvalidation_wf _ _ _ _ hs)

theorem denyLogs_wf (s : State) (r : ReplayScope) (hs : Memory.wf s.mem = true) : Memory.wf (denyLogs s r).mem = true := by
  unfold denyLogs
  grind [settleEntry_mem, denyLanes_wf, foldl_wf]

theorem retryUnit_wf (r : ReplayScope) (s : State) (u : UnitId) (hs : Memory.wf s.mem = true) : Memory.wf (retryUnit r s u).mem = true := by
  unfold retryUnit
  grind [modUnit_mem, settleXfers_wf, rebindRuns_wf]

@[simp] theorem retryEngines_mem (s : State) (r : ReplayScope) : (retryEngines s r).mem = s.mem := rfl

theorem retryQueue_wf (r : ReplayScope) (s : State) (n : Nat) (hs : Memory.wf s.mem = true) : Memory.wf (retryQueue r s n).mem = true := by
  unfold retryQueue
  grind [modQueue_mem, settleQueue_mem, flushCpl_wf, armQueue_wf, rebindCmd_wf]

theorem retryAll_wf (s : State) (r : ReplayScope) (hs : Memory.wf s.mem = true) : Memory.wf (retryAll s r).mem = true := by
  unfold retryAll
  grind [testWaits_mem, settleOwned_wf, recordLost_mem, retryLogs_wf, retryUnit_wf, retryEngines_mem, retryQueue_wf, foldl_wf]

theorem denyHeld_wf (s : State) (u : UnitId) (mask : W32) (va : Nat) (hs : Memory.wf s.mem = true) :
    Memory.wf (denyHeld s u mask va).mem = true := by
  unfold denyHeld
  grind [modUnit_mem, trapWord_wf, artWord_wf, OutWf]

theorem denyRuns_wf (r : ReplayScope) (s : State) (u : UnitId) (hs : Memory.wf s.mem = true) : Memory.wf (denyRuns r s u).mem = true := by
  unfold denyRuns
  refine foldl_wf _ _ _ (fun t _ ht => ?_) hs
  exact deferTrap_wf _ _ _ _ ht

theorem denyUnit_wf (r : ReplayScope) (s : State) (u : UnitId) (hs : Memory.wf s.mem = true) : Memory.wf (denyUnit r s u).mem = true := by
  unfold denyUnit
  grind [modUnit_mem, trapDeliver_wf, settleXfers_wf, denyHeld_wf, denyRuns_wf]

theorem denyCore_wf (r : ReplayScope) (s : State) (c : Nat) (hs : Memory.wf s.mem = true) : Memory.wf (denyCore r s c).mem = true := by
  unfold denyCore
  grind [modCore_mem, modOp_mem, pinOp_wf, copyEnds_wf, copyRuns_wf, foldl_wf]

theorem denyCluster_wf (r : ReplayScope) (s : State) (c : Nat) (hs : Memory.wf s.mem = true) : Memory.wf (denyCluster r s c).mem = true := by
  unfold denyCluster
  grind [geoEnds_wf, artEnds_wf, foldl_wf]

@[simp] theorem denyNodes_mem (r : ReplayScope) (s : State) (g : Nat) : (denyNodes r s g).mem = s.mem := by
  unfold denyNodes
  grind [modGrid_mem, nodeEnd_mem, foldl_mem]

theorem denyLayers_wf (r : ReplayScope) (s : State) (hs : Memory.wf s.mem = true) : Memory.wf (denyLayers r s).mem = true := by
  unfold denyLayers
  refine foldl_wf _ _ _ (fun t _ ht => ?_) hs
  exact layerFails_wf _ _ ht

theorem denyWagons_wf (r : ReplayScope) (s : State) (q : Nat) (hs : Memory.wf s.mem = true) : Memory.wf (denyWagons r s q).mem = true := by
  unfold denyWagons
  grind [rowDone_wf, modDeparted_mem, foldl_wf]

theorem denyQueue_wf (r : ReplayScope) (s : State) (n : Nat) (hs : Memory.wf s.mem = true) : Memory.wf (denyQueue r s n).mem = true := by
  unfold denyQueue
  grind [modQueue_mem, queueError_mem, completeCommand_wf]

theorem denyRest_wf (s : State) (r : ReplayScope) (hs : Memory.wf s.mem = true) : Memory.wf (denyRest s r).mem = true := by
  unfold denyRest
  grind [denyCore_wf, denyCluster_wf, denyNodes_mem, denyLayers_wf, denyWagons_wf, denyQueue_wf, foldl_wf]

theorem denyAll_wf (s : State) (r : ReplayScope) (hs : Memory.wf s.mem = true) : Memory.wf (denyAll s r).mem = true := by
  unfold denyAll
  grind [settleOwned_wf, denyLogs_wf, denyUnit_wf, denyRest_wf, foldl_wf]

@[simp] theorem stopTeams_mem (s : State) (ctx : Nat) : (stopTeams s ctx).mem = s.mem := by
  unfold stopTeams
  exact foldl_keeps _ (·.mem) (fun _ _ => stopTeam_mem _ _ _) _ _

theorem stopContext_wf (s : State) (ctx : Nat) (hs : Memory.wf s.mem = true) : Memory.wf (stopContext s ctx).mem = true := by
  unfold stopContext
  grind [modCtx_mem, completeCommand_wf, stopTeams_mem]

theorem unserviceable_wf (s : State) (r : ReplayScope) (hs : Memory.wf s.mem = true) : Memory.wf (unserviceable s r).mem = true := by
  unfold unserviceable
  grind [trapDeliver_wf, denyRest_wf, stopContext_wf, foldl_wf]

theorem replayDenies_wf (s : State) (r : ReplayScope) (stop : Bool) (hs : Memory.wf s.mem = true) :
    Memory.wf (replayDenies s r stop).mem = true := by
  unfold replayDenies
  grind [denyAll_wf, unserviceable_wf]

theorem heldDenials_wf (s : State) (hs : Memory.wf s.mem = true) : Memory.wf (heldDenials s).mem = true := by
  unfold heldDenials
  refine foldl_wf _ _ _ (fun t _ ht => ?_) hs
  exact replayDenies_wf _ _ _ ht

theorem execReplayRetry_wf (r : ReplayScope) (s : State) (hs : Memory.wf s.mem = true) : OutWf (execReplayRetry r s) := by
  unfold execReplayRetry
  grind [mailServed_wf, retryAll_wf, OutWf]

theorem execReplayViolation_wf (r : ReplayScope) (s : State) (hs : Memory.wf s.mem = true) : OutWf (execReplayViolation r s) := by
  unfold execReplayViolation
  grind [mailServed_wf, replayDenies_wf, OutWf]

theorem execReplayUnserviceable_wf (r : ReplayScope) (s : State) (hs : Memory.wf s.mem = true) : OutWf (execReplayUnserviceable r s) := by
  unfold execReplayUnserviceable
  grind [mailServed_wf, replayDenies_wf, OutWf]

theorem evict_wf (s : State) (m : MappedPage) (hs : Memory.wf s.mem = true) : Memory.wf (evict s m).mem = true := by
  unfold evict
  grind [writeEntry_wf, beginInvalidation_wf, endInvalidation_wf]

theorem mapFault_wf (s : State) (ctx page : Nat) {t : State} (ht : mapFault s ctx page = some t) (hs : Memory.wf s.mem = true) :
    Memory.wf t.mem = true := by
  unfold mapFault at ht
  grind [engineWrite_wf, mapPage_wf]

/-- The state that populating a page answers has canonical memory. -/
def Populated.Wf : Populated → Prop
  | .done s => Memory.wf s.mem = true
  | .wait s => Memory.wf s.mem = true
  | .none s => Memory.wf s.mem = true

theorem populate_wf (ctx page n : Nat) (s : State) (hs : Memory.wf s.mem = true) : (populate ctx page n s).Wf := by
  induction n generalizing s with
  | zero => exact hs
  | succ n ih =>
    unfold populate
    grind [Populated.Wf, mapFault_wf, evict_wf, beginPreempt_mem]

theorem servicePage_wf (s : State) (k : Nat × Nat) (hs : Memory.wf s.mem = true) : Memory.wf (servicePage s k).mem = true := by
  unfold servicePage
  grind [retryAll_wf, replayDenies_wf, populate_wf, Populated.Wf]

theorem forwardHost_wf (rs : List FaultRec) (s : State) (hs : Memory.wf s.mem = true) : Memory.wf (forwardHost rs s).1.mem = true := by
  induction rs generalizing s with
  | nil => exact hs
  | cons r rs ih =>
    unfold forwardHost
    grind [serveMail_mem, hostEvent_mem]

theorem execServiceBatch_wf (count : Nat) (s : State) (hs : Memory.wf s.mem = true) : OutWf (execServiceBatch count s) := by
  unfold execServiceBatch
  grind [recordLost_mem, retryLogs_wf, servicePage_wf, forwardHost_wf, OutWf, foldl_wf]

@[simp] theorem startMove_mem (s : State) (frame new : Nat) : (startMove s frame new).mem = s.mem := by
  unfold startMove
  split <;> rfl

theorem execCompactLpddrBacking_wf (frame newFrame : Nat) (s : State) (hs : Memory.wf s.mem = true) :
    OutWf (execCompactLpddrBacking frame newFrame s) := by
  unfold execCompactLpddrBacking
  grind [startMove_mem, OutWf]

theorem execMigrationLineCopy_wf (entry : Nat) (s : State) (hs : Memory.wf s.mem = true) : OutWf (execMigrationLineCopy entry s) := by
  unfold execMigrationLineCopy
  grind [OutWf]

@[simp] theorem noteStart_mem (s : State) (c : Nat) : (noteStart s c).mem = s.mem := rfl

@[simp] theorem admitTask_mem (s : State) (k : KernelDesc) (c : Nat) : (admitTask s k c).mem = s.mem := rfl

@[simp] theorem putTeam_mem (s : State) (g : Grid) (index core : Nat) (gang : Option Nat) (member : Nat) :
    (putTeam s g index core gang member).2.mem = s.mem := by
  unfold putTeam
  grind [modCore_mem, fresh_mem]

@[simp] theorem endClaim_mem (s : State) (uid : Nat) : (endClaim s uid).mem = s.mem := rfl

@[simp] theorem afterPlace_mem (s : State) (uid i home : Nat) : (afterPlace s uid i home).mem = s.mem := by
  unfold afterPlace
  grind [modGrid_mem, modCtx_mem, endClaim_mem]

@[simp] theorem markPlaced_mem (s : State) (uid i n : Nat) : (markPlaced s uid i n).mem = s.mem := rfl

theorem placeTeamAt_wf (s : State) (used : List Nat) (g : Grid) (i : Nat) {t : State} (ht : placeTeamAt s used g i = some t)
    (hs : Memory.wf s.mem = true) : Memory.wf t.mem = true := by
  unfold placeTeamAt at ht
  grind [modGrid_mem, advanceRho_mem, admitTask_mem, putTeam_mem, endClaim_mem, afterPlace_mem, markPlaced_mem]

@[simp] theorem putGang_mem (s : State) (g : Grid) (i : Nat) (cores : List Nat) : (putGang s g i cores).mem = s.mem := by
  unfold putGang
  refine List.foldlRecOn _ _ (motive := fun acc : List Nat × State => acc.2.mem = s.mem) rfl fun acc ha m _ => ?_
  exact (putTeam_mem _ _ _ _ _ _).trans ha

@[simp] theorem advanceAll_mem (s : State) (cores : List Nat) : (advanceAll s cores).mem = s.mem := by
  unfold advanceAll
  exact foldl_keeps _ (·.mem) (fun _ _ => advanceRho_mem _ _) _ _

theorem placeGangAt_wf (s : State) (used : List Nat) (g : Grid) (i : Nat) {t : State} (ht : placeGangAt s used g i = some t)
    (hs : Memory.wf s.mem = true) : Memory.wf t.mem = true := by
  unfold placeGangAt at ht
  grind [afterPlace_mem, markPlaced_mem, putGang_mem, advanceAll_mem]

@[simp] theorem nodeFault_mem (s : State) (g : Grid) (i va level : Nat) (h : Bool) : (nodeFault s g i va level h).mem = s.mem := by
  unfold nodeFault
  split <;> rfl

@[simp] theorem nodeFails_mem (s : State) (g : Grid) (i err : Nat) : (nodeFails s g i err).mem = s.mem := rfl

@[simp] theorem nodeAccepted_mem (s : State) (g : Grid) (i home : Nat) : (nodeAccepted s g i home).mem = s.mem := by
  unfold nodeAccepted
  simp

theorem placeArt_wf (s : State) (used : List Nat) (g : Grid) (i home : Nat) {t : State} (ht : placeArt s used g i home = some t)
    (hs : Memory.wf s.mem = true) : Memory.wf t.mem = true := by
  unfold placeArt at ht
  grind [fresh_mem, feRead_wf, artNv_wf, acceptArt_wf, nodeFault_mem, nodeFails_mem, nodeAccepted_mem, ArtNv.Wf, FeRead.Wf]

theorem placeCopy_wf (s : State) (used : List Nat) (g : Grid) (i home : Nat) {t : State} (ht : placeCopy s used g i home = some t)
    (hs : Memory.wf s.mem = true) : Memory.wf t.mem = true := by
  unfold placeCopy at ht
  grind [fresh_mem, acceptCopy_wf, copySpec_wf, nodeFault_mem, nodeFails_mem, nodeAccepted_mem, CopySpec.Wf]

@[simp] theorem keepSlots_mem (s : State) (uid i home : Nat) (cores : List Nat) : (keepSlots s uid i home cores).mem = s.mem := by
  unfold keepSlots
  simp

@[simp] theorem gather_mem (uid n : Nat) (s : State) : (gather uid n s).mem = s.mem := by
  induction n generalizing s with
  | zero => rfl
  | succ n ih =>
    unfold gather
    grind [ungate_mem, keepSlots_mem]

@[simp] theorem startAll_mem (s : State) (uid : Nat) : (startAll s uid).mem = s.mem := by
  unfold startAll
  grind [modGrid_mem, putTeam_mem, putGang_mem, foldl_mem]

@[simp] theorem gatherTurn_mem (s : State) (uid : Nat) : (gatherTurn s uid).mem = s.mem := by
  have hgo : ∀ t, (gatherTurn.go uid t).mem = t.mem := by
    intro t
    unfold gatherTurn.go
    grind [gather_mem, modGrid_mem, startAll_mem]
  unfold gatherTurn
  grind

@[simp] theorem relieve_mem (s : State) (g : Grid) (i : Nat) : (relieve s g i).mem = s.mem := by
  unfold relieve
  grind [beginPreempt_mem]

@[simp] theorem claimHome_mem (s : State) (uid i : Nat) : (claimHome s uid i).mem = s.mem := by
  unfold claimHome
  grind [modCluster_mem]

@[simp] theorem countPass_mem (s : State) (uid i : Nat) : (countPass s uid i).mem = s.mem := by
  unfold countPass
  simp

@[simp] theorem passOver_mem (s : State) (g : Grid) (i : Nat) : (passOver s g i).mem = s.mem := by
  unfold passOver
  simp

@[simp] theorem ungateHome_mem (s : State) (g : Grid) (i : Nat) : (ungateHome s g i).mem = s.mem := by
  unfold ungateHome
  split <;> simp

theorem placeUnitAt_wf (s : State) (used : List Nat) (g : Grid) (i : Nat) {t : State} (ht : placeUnitAt s used g i = some t)
    (hs : Memory.wf s.mem = true) : Memory.wf t.mem = true := by
  unfold placeUnitAt at ht
  grind [placeTeamAt_wf, placeGangAt_wf, placeArt_wf, placeCopy_wf]

theorem visitEntry_wf (s : State) (uid : Nat) (hs : Memory.wf s.mem = true) : Memory.wf (visitEntry s uid).mem = true := by
  unfold visitEntry
  grind [gatherTurn_mem, relieve_mem, countPass_mem, passOver_mem, ungateHome_mem, placeUnitAt_wf]

theorem dispatch_wf (s : State) (hs : Memory.wf s.mem = true) : Memory.wf (dispatch s).mem = true := by
  unfold dispatch
  grind [visitEntry_wf, foldl_wf]

theorem execDispatchCycle_wf (s : State) (hs : Memory.wf s.mem = true) : OutWf (execDispatchCycle s) := dispatch_wf _ hs

theorem execPoolDispatchStarvation_wf (grid : Nat) (s : State) (hs : Memory.wf s.mem = true) : OutWf (execPoolDispatchStarvation grid s) := by
  unfold execPoolDispatchStarvation
  grind [claimHome_mem, OutWf]

@[simp] theorem noteBegun_mem (s : State) (t : Team) : (noteBegun s t).mem = s.mem := by
  unfold noteBegun
  split <;> rfl

@[simp] theorem startTeam_mem (s : State) (team : Nat) : (startTeam s team).mem = s.mem := by
  unfold startTeam
  grind [modTeam_mem, acquireStep_mem, noteStart_mem, noteBegun_mem]

theorem execTeamStart_wf (team : Nat) (s : State) (hs : Memory.wf s.mem = true) : OutWf (execTeamStart team s) := by
  unfold execTeamStart
  grind [startTeam_mem, OutWf]

@[simp] theorem makeStarts_mem (s : State) : (makeStarts s).mem = s.mem := by
  unfold makeStarts
  exact foldl_keeps _ (·.mem) (fun _ _ => startTeam_mem _ _) _ _

@[simp] theorem dropAccesses_mem (s : State) (t : Nat) : (dropAccesses s t).mem = s.mem := rfl

@[simp] theorem bindLoads_mem (s : State) (team : Nat) : (bindLoads s team).mem = s.mem := by
  unfold bindLoads
  split <;> rfl

@[simp] theorem taskEnd_mem (s : State) (uid : Nat) : (taskEnd s uid).mem = s.mem := by
  unfold taskEnd
  grind [modGrid_mem]

theorem removeTeam_wf (s : State) (team err : Nat) (hs : Memory.wf s.mem = true) : Memory.wf (removeTeam s team err).mem = true := by
  unfold removeTeam
  grind [clearModes_mem, releaseStep_wf, nodeEnd_mem, layerReleased_wf, checkSuspended_wf, endBursts_mem, leaveCore_mem, bindLoads_mem,
    taskEnd_mem, foldl_wf]

theorem execTeamRetirement_wf (team : Nat) (s : State) (hs : Memory.wf s.mem = true) : OutWf (execTeamRetirement team s) := by
  unfold execTeamRetirement
  grind [dropAccesses_mem, removeTeam_wf, OutWf]

@[simp] theorem dropGrids_mem (s : State) : (dropGrids s).mem = s.mem := rfl

theorem endGrid_wf (s : State) (uid : Nat) (hs : Memory.wf s.mem = true) : Memory.wf (endGrid s uid).mem = true := by
  unfold endGrid
  grind [modGrid_mem, poolFree_mem, checkUnreg_wf, dropGrids_mem]

theorem tellOrigin_wf (s : State) (g : Grid) (err : Nat) (hs : Memory.wf s.mem = true) : Memory.wf (tellOrigin s g err).mem = true := by
  unfold tellOrigin
  grind [completeSlot_wf, completeCommand_wf]

theorem checkTeardown_wf (s : State) (ctx : Nat) (hs : Memory.wf s.mem = true) : Memory.wf (checkTeardown s ctx).mem = true := by
  unfold checkTeardown
  grind [dropTlb_mem, completeCommand_wf]

theorem execGridRetirement_wf (grid : Nat) (s : State) (hs : Memory.wf s.mem = true) : OutWf (execGridRetirement grid s) := by
  unfold execGridRetirement
  grind [taskEnds_wf, endGrid_wf, tellOrigin_wf, checkTeardown_wf, OutWf, RowsCopied.Wf]

theorem settleTeam_wf (s : State) (team core : Nat) (hs : Memory.wf s.mem = true) : Memory.wf (settleTeam s team core).mem = true := by
  unfold settleTeam
  grind [modCore_mem, modTeam_mem, modUnit_mem, acquireStep_mem, writeTrapRec_wf, foldl_wf]

theorem resumeLog_wf (s : State) (team core : Nat) (hs : Memory.wf s.mem = true) : Memory.wf (resumeLog s team core).mem = true := by
  unfold resumeLog
  grind [modCore_mem, modTeam_mem, retryLogs_wf]

@[simp] theorem takePlaces_mem (s : State) (ps : List (Nat × Nat)) : (takePlaces s ps).mem = s.mem := by
  unfold takePlaces
  exact foldl_keeps _ (·.mem) (fun _ _ => modTeam_mem _ _ _) _ _

theorem settleSet_wf (s : State) (ps : List (Nat × Nat)) (hs : Memory.wf s.mem = true) : Memory.wf (settleSet s ps).mem = true := by
  unfold settleSet
  grind [modTeam_mem, settleTeam_wf, resumeLog_wf, takePlaces_mem, foldl_wf]

@[simp] theorem tooLarge_mem (s : State) (uid : Nat) : (tooLarge s uid).mem = s.mem := by
  unfold tooLarge
  exact foldl_keeps _ (·.mem) (fun _ _ => modTeam_mem _ _ _) _ _

theorem execTeamResume_wf (team core : Nat) (s : State) (hs : Memory.wf s.mem = true) : OutWf (execTeamResume team core s) := by
  unfold execTeamResume
  grind [settleSet_wf, tooLarge_mem, OutWf]

@[simp] theorem cancelMoved_mem (s : State) (set : List Nat) : (cancelMoved s set).mem = s.mem := by
  unfold cancelMoved
  exact foldl_keeps _ (·.mem) (fun _ _ => cancelSaved_mem _ _) _ _

theorem execTeamMigration_wf (team core : Nat) (s : State) (hs : Memory.wf s.mem = true) : OutWf (execTeamMigration team core s) := by
  unfold execTeamMigration
  grind [modTeam_mem, drainTeam_mem, saveTeam_wf, settleSet_wf, cancelMoved_mem, OutWf, foldl_wf]

end Sys2Proof.Machine

end

section
/-! SUPPORT. Commands, the mailbox and bring-up keep memory canonical. -/

set_option Elab.async false

namespace Sys2Proof.Machine

@[simp] theorem newDeadline_mem (s : State) (ctx d : Nat) : (newDeadline s ctx d).mem = s.mem := rfl

@[simp] theorem applyRecord_mem (s : State) (ctx : Nat) (r : CtxRecord) : (applyRecord s ctx r).mem = s.mem := by
  unfold applyRecord
  grind [modCtx_mem, newDeadline_mem]

theorem applyRoot_wf (s : State) (ctx : Nat) (r : Option CtxRecord) (hs : Memory.wf s.mem = true) : Memory.wf (applyRoot s ctx r).mem = true := by
  unfold applyRoot
  grind [modCtx_mem, beginInvalidation_wf]

theorem execCtxSetup_wf (h : CmdHeader) (addr : W64) (ctx : BitVec 6) (s : State) (hs : Memory.wf s.mem = true) :
    OutWf (execCtxSetup h addr ctx s) := by
  unfold execCtxSetup
  refine adminCommand_wf _ _ _ _ hs fun c q => ?_
  split
  · exact hs
  · split
    · exact hs
    · refine cmdRead_wf _ _ _ _ _ hs fun bs t ht => ?_
      split
      · exact ht
      · split <;> exact ht

theorem execCtxRewrite_wf (h : CmdHeader) (addr : W64) (ctx : BitVec 6) (s : State) (hs : Memory.wf s.mem = true) :
    OutWf (execCtxRewrite h addr ctx s) := by
  unfold execCtxRewrite
  refine adminCommand_wf _ _ _ _ hs fun c q => ?_
  grind [modCtx_mem, cmdRead_wf, applyRecord_mem, CmdEnd.status_wf]

theorem execCtxSuspend_wf (h : CmdHeader) (ctx : BitVec 6) (s : State) (hs : Memory.wf s.mem = true) : OutWf (execCtxSuspend h ctx s) := by
  unfold execCtxSuspend
  refine adminCommand_wf _ _ _ _ hs fun c q => ?_
  dsimp only
  split
  · exact hs
  · split
    · exact hs
    · refine foldl_wf _ _ _ (fun t n ht => ?_) hs
      split
      · rwa [beginPreempt_mem]
      · exact ht

theorem execCtxResume_wf (h : CmdHeader) (ctx : BitVec 6) (s : State) (hs : Memory.wf s.mem = true) : OutWf (execCtxResume h ctx s) := by
  unfold execCtxResume
  refine adminCommand_wf _ _ _ _ hs fun c q => ?_
  grind [modCtx_mem, endInvalidations_wf, applyRecord_mem, applyRoot_wf, CmdEnd.status_wf, CmdEnd.Wf]

theorem dropCommandCopies_wf (s : State) (ctx core : Nat) (hs : Memory.wf s.mem = true) : Memory.wf (dropCommandCopies s ctx core).mem = true := by
  unfold dropCommandCopies
  refine foldl_wf _ _ _ (fun t _ ht => ?_) hs
  exact cancelJob_wf _ _ _ ht

theorem failLoads_wf (s : State) (ctx : Nat) (hs : Memory.wf s.mem = true) : Memory.wf (failLoads s ctx).mem = true := by
  unfold failLoads
  refine foldl_wf _ _ _ (fun t _ ht => ?_) hs
  exact layerFails_wf _ _ ht

theorem execCtxTeardown_wf (h : CmdHeader) (ctx : BitVec 6) (s : State) (hs : Memory.wf s.mem = true) : OutWf (execCtxTeardown h ctx s) := by
  unfold execCtxTeardown
  refine adminCommand_wf _ _ _ _ hs fun c q => ?_
  dsimp only
  split
  · exact hs
  · change Memory.wf (modCtx _ _ _).mem = true
    rw [modCtx_mem]
    exact foldl_wf _ _ _ (fun t c ht => dropCommandCopies_wf t _ c ht)
      (failLoads_wf _ _ (cancelQueueWaits_wf _ _ (stopContext_wf _ _ hs)))

/-- The state that a registration leaves has canonical memory. -/
def RegEnd.Wf : RegEnd → Prop
  | .code s _ => Memory.wf s.mem = true
  | .ok s _ _ _ => Memory.wf s.mem = true
  | _ => True

/-- A reader of an object's sections that goes on from canonical memory. -/
def ReadsWf (rd : ObjReader) : Prop :=
  ∀ s p k, Memory.wf s.mem = true → (∀ t bs, Memory.wf t.mem = true → (k t bs).Wf) → (rd s p k).Wf

theorem memReader_wf (qctx addr : Nat) : ReadsWf (memReader qctx addr) := by
  intro s p k hs hk
  unfold memReader
  grind [feRead_wf, FeRead.Wf, RegEnd.Wf]

theorem bytesReader_wf (bs : List Byte) : ReadsWf (bytesReader bs) := by
  exact fun _ _ _ hs hk => hk _ _ hs

theorem checkNative_wf (addr : Nat) (o : ObjHead) (headBytes : List Byte) (rd : ObjReader) (s : State) (hrd : ReadsWf rd)
    (hs : Memory.wf s.mem = true) : (checkNative addr o headBytes rd s).Wf := by
  unfold checkNative
  refine hrd _ _ _ hs fun s1 ds h1 => ?_
  dsimp only
  split
  · exact h1
  · refine hrd _ _ _ h1 fun s2 cs h2 => ?_
    split
    · exact h2
    · split
      · exact h2
      · split
        · exact h2
        · exact hrd _ _ _ h2 fun _ _ h3 => h3

theorem register_wf (s : State) (qctx addr : Nat) (hs : Memory.wf s.mem = true) : (register s qctx addr).Wf := by
  unfold register
  refine memReader_wf _ _ _ _ _ hs fun s1 hb h1 => ?_
  split
  · exact h1
  · split
    · exact checkNative_wf _ _ _ _ _ (memReader_wf _ _) h1
    · refine memReader_wf _ _ _ _ _ h1 fun s2 mb h2 => ?_
      grind [checkNative_wf, bytesReader_wf, RegEnd.Wf]

theorem mapPages_wf (ctx : Nat) (codePages dataPages ps : List Nat) (s : State) {t : State} (ht : mapPages ctx codePages dataPages ps s = some t)
    (hs : Memory.wf s.mem = true) : Memory.wf t.mem = true := by
  induction ps generalizing s with
  | nil => unfold mapPages at ht; grind
  | cons p ps ih =>
    unfold mapPages at ht
    grind [mapPage_wf]

theorem fillPages_wf (s : State) (ctx va : Nat) (bs : List Byte) (hs : Memory.wf s.mem = true) : Memory.wf (fillPages s ctx va bs).mem = true := by
  unfold fillPages
  grind [engineWrite_wf]

theorem mapObject_wf (s : State) (ctx addr : Nat) (o : ObjHead) (parts : List (Nat × List Byte)) {t : State}
    (ht : mapObject s ctx addr o parts = some t) (hs : Memory.wf s.mem = true) : Memory.wf t.mem = true := by
  unfold mapObject at ht
  grind [mapPages_wf]

theorem placeObject_wf (s : State) (ctx addr : Nat) (o : ObjHead) (parts : List (Nat × List Byte)) (ks : List KernelDesc)
    (hs : Memory.wf s.mem = true) : Memory.wf (placeObject s ctx addr o parts ks).mem = true := by
  unfold placeObject
  refine foldl_wf _ _ _ (fun t _ ht => ?_) hs
  exact fillPages_wf _ _ _ _ ht

theorem execCodeReg_wf (h : CmdHeader) (addr : W64) (ctx : BitVec 6) (s : State) (hs : Memory.wf s.mem = true) :
    OutWf (execCodeReg h addr ctx s) := by
  unfold execCodeReg
  refine adminCommand_wf _ _ _ _ hs fun c q => ?_
  grind [endInvalidations_wf, register_wf, mapObject_wf, placeObject_wf, RegEnd.Wf, CmdEnd.status_wf, CmdEnd.Wf]

theorem execCodeUnreg_wf (h : CmdHeader) (addr : W64) (ctx : BitVec 6) (s : State) (hs : Memory.wf s.mem = true) :
    OutWf (execCodeUnreg h addr ctx s) := by
  unfold execCodeUnreg
  dsimp only
  generalize ha : adminCommand _ _ _ _ = o
  have ho : OutWf o := by
    rw [← ha]
    refine adminCommand_wf _ _ _ _ hs fun c q => ?_
    grind [CmdEnd.Wf, CmdEnd.status_wf, modCtx_mem]
  cases o with
  | next s1 => exact checkUnreg_wf _ _ ho
  | fault => trivial
  | refused => trivial

theorem setQueue_wf (s : State) (n : Nat) (q : Queue) (hs : Memory.wf s.mem = true) : Memory.wf (setQueue s n q).mem = true := by
  unfold setQueue
  grind [armQueue_wf]

theorem execQueueSet_wf (queue : Byte) (addr : W64) (s : State) (hs : Memory.wf s.mem = true) : OutWf (execQueueSet queue addr s) := by
  unfold execQueueSet
  grind [mailServed_wf, setQueue_wf, OutWf]

theorem execDeadlineAt_wf (ctx : BitVec 6) (seconds : BitVec 48) (nanoseconds : W32) (s : State) (hs : Memory.wf s.mem = true) :
    OutWf (execDeadlineAt ctx seconds nanoseconds s) := by
  unfold execDeadlineAt
  grind [modCtx_mem, mailServed_wf, newDeadline_mem, OutWf]

theorem execHealth_wf (addr : W64) (s : State) (hs : Memory.wf s.mem = true) : OutWf (execHealth addr s) := by
  unfold execHealth
  grind [engineWrite_wf, mailReply_wf, OutWf]

theorem execAttest_wf (nonce : BitVec 256) (addr : W64) (s : State) (hs : Memory.wf s.mem = true) : OutWf (execAttest nonce addr s) := by
  unfold execAttest
  grind [engineWrite_wf, mailReply_wf, OutWf]

theorem execFwStage_wf (slot : BitVec 4) (addr : W64) (len : W32) (s : State) (hs : Memory.wf s.mem = true) :
    OutWf (execFwStage slot addr len s) := by
  unfold execFwStage
  grind [mailReply_wf, OutWf]

theorem linkPlaces_wf (s : State) (ctx : Nat) (kind : AccKind) (vas : List Nat) {p : List Nat × State}
    (hp : linkPlaces s ctx kind vas = some p) (hs : Memory.wf s.mem = true) : Memory.wf p.2.mem = true := by
  induction vas generalizing s p with
  | nil => cases hp; exact hs
  | cons va vas ih =>
    have hf := fePlace_wf s ctx va kind hs
    unfold linkPlaces at hp
    split at hp
    · next pa s1 he =>
      rw [he] at hf
      obtain ⟨q, hq, rfl⟩ := Option.map_eq_some_iff.1 hp
      exact ih s1 (p := q) hq hf
    · cases hp

theorem execWindowSet_wf (window ctx : BitVec 6) (rights : WindowRights) (rkey : W32) (base : BitVec 48) (len : W32) (s : State)
    (hs : Memory.wf s.mem = true) : OutWf (execWindowSet window ctx rights rkey base len s) := by
  refine mailServed_wf _ _ _ hs ?_
  split
  · exact hs
  · split
    · exact hs
    · split
      · exact hs
      · split
        · exact hs
        · next he => exact linkPlaces_wf _ _ _ _ he hs

theorem joinQp_wf (s : State) (qp : Nat) {t : State} (ht : joinQp s qp = some t) (hs : Memory.wf s.mem = true) : Memory.wf t.mem = true := by
  unfold joinQp at ht
  grind

theorem execEventRing_wf (qp : BitVec 16) (rkey : W32) (addr : W64) (loge : BitVec 4) (s : State) (hs : Memory.wf s.mem = true) :
    OutWf (execEventRing qp rkey addr loge s) := by
  unfold execEventRing
  grind [modMail_mem, serveMail_mem, mailReply_wf, joinQp_wf, OutWf]

theorem execEvackWrite_wf (value : W32) (s : State) (hs : Memory.wf s.mem = true) : OutWf (execEvackWrite value s) := hs

theorem execBadMessage_wf (s : State) (hs : Memory.wf s.mem = true) : OutWf (execBadMessage s) := by
  unfold execBadMessage
  grind [mailServed_wf, OutWf]

@[simp] theorem linkError_mem (s : State) (qp : Nat) : (linkError s qp).mem = s.mem := by
  unfold linkError
  split <;> simp

theorem execRdmaWrite_wf (qp : Nat) (rkey : W32) (addr : Nat) (bytes : List Byte) (s : State) (hs : Memory.wf s.mem = true) :
    OutWf (execRdmaWrite qp rkey addr bytes s) := by
  unfold execRdmaWrite
  grind [homeWrite_wf, modMail_mem, serveMail_mem, joinQp_wf, linkError_mem, OutWf]

theorem execRdmaRead_wf (qp : Nat) (rkey : W32) (addr len : Nat) (s : State) (hs : Memory.wf s.mem = true) :
    OutWf (execRdmaRead qp rkey addr len s) := by
  unfold execRdmaRead
  grind [joinQp_wf, linkError_mem, OutWf]

@[simp] theorem modHealth_mem (s : State) (f : Health → Health) : (modHealth s f).mem = s.mem := rfl

theorem deviceReset_wf (s : State) : Memory.wf (deviceReset s).mem = true := rfl

@[simp] theorem applySpares_mem (s : State) : (applySpares s).mem = s.mem := by
  unfold applySpares
  grind [modCore_mem, foldl_mem]

theorem execBoot_wf (s : State) (hs : Memory.wf s.mem = true) : OutWf (execBoot s) := by
  unfold execBoot
  grind [hostEvent_mem, deviceReset_wf, applySpares_mem, OutWf]

@[simp] theorem classGone_mem (s : State) (bit left : Nat) : (classGone s bit left).mem = s.mem := by
  unfold classGone
  split <;> simp

@[simp] theorem emptyCore_mem (s : State) (core : Nat) : (emptyCore s core).mem = s.mem := by
  unfold emptyCore
  grind [beginPreempt_mem, foldl_mem]

@[simp] theorem replaceCore_mem (s : State) (core : Nat) : (replaceCore s core).mem = s.mem := by
  unfold replaceCore
  simp

theorem replaceRow_wf (s : State) (frame : Nat) (hs : Memory.wf s.mem = true) : Memory.wf (replaceRow s frame).mem = true := by
  unfold replaceRow
  grind [takeFrame_wf, startMove_mem, modHealth_mem, classGone_mem]

theorem execSpareReplacement_wf (k : SpareKind) (item : Nat) (s : State) (hs : Memory.wf s.mem = true) : OutWf (execSpareReplacement k item s) := by
  unfold execSpareReplacement
  grind [modHealth_mem, classGone_mem, emptyCore_mem, replaceCore_mem, replaceRow_wf, OutWf]

@[simp] theorem releaseSlots_mem (s : State) (core : Nat) : (releaseSlots s core).mem = s.mem := rfl

theorem execCoreRetirement_wf (core : Nat) (s : State) (hs : Memory.wf s.mem = true) : OutWf (execCoreRetirement core s) := by
  unfold execCoreRetirement
  grind [modCore_mem, modHealth_mem, classGone_mem, emptyCore_mem, releaseSlots_mem, OutWf]

end Sys2Proof.Machine

end

section
/-! SUPPORT. Every word, event, command and message, and every turn of time, keeps memory canonical. -/

set_option Elab.async false

namespace Sys2Proof.Machine

theorem special_wf (i : Instr) (g : Guard) (d a : OField) (f : Bool → FVal → Nat × BitVec 5) (s : State) (hs : Memory.wf s.mem = true) :
    OutWf (special i g d a f s) := aluF_wf _ _ _ _ _ hs

theorem execFloatUniformOp_wf (d a : OField) (u : SIdx) (g : Guard) (f : FloatUFn) (s : State) (hs : Memory.wf s.mem = true) :
    OutWf (execFloatUniformOp d a u g f s) := by
  unfold execFloatUniformOp
  grind [aluF_wf, aluP_wf]

theorem moveWord_wf (i : Instr) (g : Guard) (f : Ctx → List Nat → Grp → Grp) (s : State) (hs : Memory.wf s.mem = true) :
    OutWf (moveWord i g f s) := by
  unfold moveWord
  refine word_wf _ _ _ hs fun x => ?_
  grind [setUnit_mem]

theorem execMovin_wf (v : VIdx) (o : OField) (g : Guard) (count : BitVec 2) (s : State) (hs : Memory.wf s.mem = true) :
    OutWf (execMovin v o g count s) :=
  moveWord_wf _ _ _ _ hs

theorem execMovout_wf (v : VIdx) (o : OField) (g : Guard) (count : BitVec 2) (s : State) (hs : Memory.wf s.mem = true) :
    OutWf (execMovout v o g count s) :=
  moveWord_wf _ _ _ _ hs

theorem execMovs_wf (d : OField) (u : SIdx) (g : Guard) (s : State) (hs : Memory.wf s.mem = true) : OutWf (execMovs d u g s) :=
  moveWord_wf _ _ _ _ hs

theorem execMovg_wf (a : OField) (u : SIdx) (g : Guard) (s : State) (hs : Memory.wf s.mem = true) : OutWf (execMovg a u g s) :=
  moveWord_wf _ _ _ _ hs

theorem execMfs_wf (d : OField) (n : SIdx) (g : Guard) (s : State) (hs : Memory.wf s.mem = true) : OutWf (execMfs d n g s) :=
  moveWord_wf _ _ _ _ hs

theorem execMts_wf (a : OField) (n : SIdx) (g : Guard) (s : State) (hs : Memory.wf s.mem = true) : OutWf (execMts a n g s) := by
  unfold execMts
  refine word_wf _ _ _ hs fun x => ?_
  grind [setUnit_mem, writeSect_mem, trapWord_wf]

theorem execOperatingPointChange_wf (pair mhz : Nat) (s : State) (hs : Memory.wf s.mem = true) : OutWf (execOperatingPointChange pair mhz s) := by
  unfold execOperatingPointChange
  split <;> exact hs

theorem execQuiescePoint_wf (pair : Nat) (s : State) (hs : Memory.wf s.mem = true) : OutWf (execQuiescePoint pair s) := by
  unfold execQuiescePoint
  grind [modCluster_mem, modPair_mem, OutWf]

@[simp] theorem modSup_mem (s : State) (f : Supervisor → Supervisor) : (modSup s f).mem = s.mem := rfl

theorem execFreeze_wf (s : State) (hs : Memory.wf s.mem = true) : OutWf (execFreeze s) := by
  unfold execFreeze
  split <;> exact hs

theorem execFrozenReached_wf (s : State) (hs : Memory.wf s.mem = true) : OutWf (execFrozenReached s) := by
  unfold execFrozenReached
  split <;> exact hs

theorem execUnfreeze_wf (s : State) (hs : Memory.wf s.mem = true) : OutWf (execUnfreeze s) := by
  unfold execUnfreeze
  split
  · exact heldDenials_wf _ hs
  · exact hs

theorem execStep_wf (s : State) (hs : Memory.wf s.mem = true) : OutWf (execStep s) := by
  unfold execStep
  split <;> exact hs

theorem execPairerrClear_wf (s : State) (hs : Memory.wf s.mem = true) : OutWf (execPairerrClear s) := by
  unfold execPairerrClear
  split <;> exact hs

theorem execPairModeSet_wf (lo hi : W32) (s : State) (hs : Memory.wf s.mem = true) : OutWf (execPairModeSet lo hi s) := by
  unfold execPairModeSet
  split <;> exact hs

theorem execPhaseAgeStep_wf (core : Nat) (s : State) (hs : Memory.wf s.mem = true) : OutWf (execPhaseAgeStep core s) := by
  unfold execPhaseAgeStep
  split
  · exact hs
  · exact arStep_wf _ _ hs

theorem execHomePressureStep_wf (core : Nat) (s : State) (hs : Memory.wf s.mem = true) : OutWf (execHomePressureStep core s) := by
  unfold execHomePressureStep
  split
  · exact hs
  · exact arStep_wf _ _ hs

theorem execUnifiedIntervalEnd_wf (core : Nat) (s : State) (hs : Memory.wf s.mem = true) : OutWf (execUnifiedIntervalEnd core s) := by
  unfold execUnifiedIntervalEnd
  grind [modCore_mem, OutWf]

/-- Every word, event, command and message answers canonical memory: register words by their shape, every other by its own lemma. -/
theorem exec_wf (i : Instr) (s : State) (hs : Memory.wf s.mem = true) : OutWf (exec i s) := by
  cases i with
  | clauseHeader => exact execClauseHeader_wf _ _ _ _ _ hs
  | clauseTrailer => exact execClauseTrailer_wf _ _ _ _ _ _ hs
  | hintImmediate => exact execHintImmediate_wf _ _ hs
  | hintCache => exact execHintCache_wf _ _ hs
  | hintModifier => exact execHintModifier_wf _ _ hs
  | add | sub | mul | mulhiI32 | mulhiN32 | min | max | and | or | xor | shl | shrN32 | shrI32 | rot | bfeN32 | bfeI32 | lea =>
    exact alu2_wf _ _ _ _ _ _ _ hs
  | mad => exact execMad_wf _ _ _ _ _ _ hs
  | addc | addcCo | subb | subbBo | fsh | bfi => exact alu3_wf _ _ _ _ _ _ _ _ hs
  | cmp | cmp64 | cmpi | fcmp | plop | plopNot | plopSet => exact aluP_wf _ _ _ _ _ hs
  | sel => exact execSel_wf _ _ _ _ _ _ hs
  | andn => exact execAndn_wf _ _ _ _ _ hs
  | popc | clz | brev => exact alu1_wf _ _ _ _ _ _ hs
  | add64 => exact alu64_wf _ _ _ _ _ hs
  | intUniformOp => exact execIntUniformOp_wf _ _ _ _ _ _ hs
  | addi => exact execAddi_wf _ _ _ _ hs
  | andi => exact execAndi_wf _ _ _ _ hs
  | ori => exact execOri_wf _ _ _ _ hs
  | xori => exact execXori_wf _ _ _ _ hs
  | shli => exact execShli_wf _ _ _ _ hs
  | movhi => exact execMovhi_wf _ _ _ hs
  | fadd | fsub | fmul | ffma | fmin | fmax | fclass | fsel | hadd2 | hmul2 | hfma2 | cvt | pack8 | sqrt => exact aluF_wf _ _ _ _ _ hs
  | unpack8 | plopGet => exact alu_wf _ _ _ _ _ hs
  | rcp | rsq | exp2 | log2 | sin | cos | tanh => exact special_wf _ _ _ _ _ _ hs
  | floatUniformOp => exact execFloatUniformOp_wf _ _ _ _ _ _ hs
  | shfl => exact execShfl_wf _ _ _ _ _ _ hs
  | prmt => exact execPrmt_wf _ _ _ _ _ _ hs
  | tlu => exact execTlu_wf _ _ _ _ _ _ hs
  | vote => exact execVote_wf _ _ _ _ _ hs
  | voteBallot => exact execVoteBallot_wf _ _ _ _ hs
  | laneMatch => exact execLaneMatch_wf _ _ _ _ _ hs
  | elect => exact execElect_wf _ _ _ hs
  | sect => exact execSect_wf _ _ _ hs
  | sred => exact execSred_wf _ _ _ _ _ hs
  | sscan => exact execSscan_wf _ _ _ _ _ hs
  | sscanEx => exact execSscanEx_wf _ _ _ _ _ hs
  | movin => exact execMovin_wf _ _ _ _ _ hs
  | movout => exact execMovout_wf _ _ _ _ _ hs
  | movs => exact execMovs_wf _ _ _ _ hs
  | movg => exact execMovg_wf _ _ _ _ hs
  | mfs => exact execMfs_wf _ _ _ _ hs
  | mts => exact execMts_wf _ _ _ _ hs
  | bra => exact execBra_wf _ _ _ hs
  | call => exact execCall_wf _ _ _ hs
  | brx => exact execBrx_wf _ _ _ _ hs
  | callx => exact execCallx_wf _ _ _ _ hs
  | ret => exact execRet_wf _ _ hs
  | exit => exact execExit_wf _ _ hs
  | trap => exact execTrap_wf _ _ _ hs
  | sleepCyc => exact execSleepCyc_wf _ _ _ hs
  | sleepFut => exact execSleepFut_wf _ _ _ hs
  | brk => exact execBrk_wf _ _ hs
  | lpad => exact execLpad_wf _ _ hs
  | ld => exact execLd_wf _ _ _ hs
  | st => exact execSt_wf _ _ _ hs
  | ldx => exact execLdx_wf _ _ _ hs
  | stx => exact execStx_wf _ _ _ hs
  | pref => exact execPref_wf _ _ _ _ _ _ hs
  | atom => exact execAtom_wf _ _ _ _ _ _ _ hs
  | red => exact execRed_wf _ _ _ _ _ _ _ hs
  | best => exact execBest_wf _ _ _ _ _ _ _ hs
  | ldq => exact execLdq_wf _ _ _ _ _ _ hs
  | fence => exact execFence_wf _ _ hs
  | phase => exact execPhase_wf _ _ hs
  | bar => exact execBar_wf _ _ _ _ _ hs
  | barRed => exact execBarRed_wf _ _ _ _ _ _ _ hs
  | barg => exact execBarg_wf _ _ _ _ hs
  | bargRed => exact execBargRed_wf _ _ _ _ _ _ hs
  | waitf => exact execWaitf_wf _ _ _ _ _ _ _ hs
  | cancel => exact execCancel_wf _ _ _ _ hs
  | chkc => exact execChkc_wf _ _ _ hs
  | feed => exact execFeed_wf _ _ _ hs
  | fpushU => exact execFpushU_wf _ _ _ _ hs
  | fpushV => exact execFpushV_wf _ _ _ _ _ hs
  | agen => exact execAgen_wf _ _ _ _ _ _ hs
  | spawn => exact execSpawn_wf _ _ _ _ hs
  | task => exact execTask_wf _ _ _ _ hs
  | dalloc => exact execDalloc_wf _ _ _ _ hs
  | dfree => exact execDfree_wf _ _ _ hs
  | regy => exact execRegy_wf _ _ _ _ hs
  | regc => exact execRegc_wf _ _ _ _ hs
  | mma => exact execMma_wf _ _ hs
  | mmas => exact execMmas_wf _ _ hs
  | gmma => exact execGmma_wf _ _ hs
  | acz => exact execAcz_wf _ _ hs
  | acld => exact execAcld_wf _ _ _ _ hs
  | acst => exact execAcst_wf _ _ _ _ hs
  | acrd => exact execAcrd_wf _ _ _ _ hs
  | acepi => exact execAcepi_wf _ _ _ hs
  | copy => exact execCopy_wf _ _ _ hs
  | gcopy => exact execGcopy_wf _ _ _ hs
  | wpush => exact execWpush_wf _ _ _ _ hs
  | wflush => exact execWflush_wf _ _ hs
  | geo => exact execGeo_wf _ _ _ _ hs
  | art => exact execArt_wf _ _ _ hs
  | fwait => exact execFwait_wf _ _ _ _ hs
  | ftest => exact execFtest_wf _ _ _ hs
  | fdrop => exact execFdrop_wf _ _ hs
  | lacq => exact execLacq_wf _ _ _ _ hs
  | lacqFut => exact execLacqFut_wf _ _ _ hs
  | lrel => exact execLrel_wf _ _ hs
  | ltest => exact execLtest_wf _ _ _ hs
  | burst => exact execBurst_wf _ _ hs
  | eret => exact execEret_wf _ _ hs
  | hmfs => exact execHmfs_wf _ _ _ _ hs
  | hmts => exact execHmts_wf _ _ _ _ hs
  | selectRun => exact execSelectRun_wf _ _ hs
  | loadDataArrival => exact execLoadDataArrival_wf _ _ _ hs
  | storeDrain => exact execStoreDrain_wf _ _ hs
  | feedDelivery => exact execFeedDelivery_wf _ _ hs
  | fpushResume => exact execFpushResume_wf _ _ hs
  | deferredTrap => exact execDeferredTrap_wf _ _ hs
  | teamStart => exact execTeamStart_wf _ _ hs
  | poolDispatchStarvation => exact execPoolDispatchStarvation_wf _ _ hs
  | teamRetirement => exact execTeamRetirement_wf _ _ hs
  | gridRetirement => exact execGridRetirement_wf _ _ hs
  | starvationReservation => exact execStarvationReservation_wf _ _ _ hs
  | waitTimeout => exact execWaitTimeout_wf _ _ _ hs
  | graceExpiry => exact execGraceExpiry_wf _ _ hs
  | deadlineExpiry => exact execDeadlineExpiry_wf _ _ hs
  | waitfSatisfied => exact execWaitfSatisfied_wf _ _ _ hs
  | regcGrant => exact execRegcGrant_wf _ _ hs
  | sleepWake => exact execSleepWake_wf _ _ _ hs
  | operandPin => exact execOperandPin_wf _ _ _ hs
  | matrixOpStart => exact execMatrixOpStart_wf _ _ hs
  | matrixOpEnd => exact execMatrixOpEnd_wf _ _ hs
  | gmmaPartArrival => exact execGmmaPartArrival_wf _ _ hs
  | copyStart => exact execCopyStart_wf _ _ hs
  | copyComplete => exact execCopyComplete_wf _ _ hs
  | wagonAgeLimit => exact execWagonAgeLimit_wf _ _ hs
  | wagonTaskCreate => exact execWagonTaskCreate_wf _ _ hs
  | geoJobStart => exact execGeoJobStart_wf _ _ hs
  | geoJobComplete => exact execGeoJobComplete_wf _ _ hs
  | artJobStart => exact execArtJobStart_wf _ _ hs
  | artBudgetExpiry => exact execArtBudgetExpiry_wf _ _ hs
  | artJobComplete => exact execArtJobComplete_wf _ _ hs
  | layerPlacement => exact execLayerPlacement_wf _ _ _ _ hs
  | layerLoadComplete => exact execLayerLoadComplete_wf _ _ _ _ hs
  | layerLoadError => exact execLayerLoadError_wf _ _ _ _ hs
  | phaseAgeStep => exact execPhaseAgeStep_wf _ _ hs
  | homePressureStep => exact execHomePressureStep_wf _ _ hs
  | unifiedIntervalEnd => exact execUnifiedIntervalEnd_wf _ _ hs
  | queueAgeing => exact execQueueAgeing_wf _ _ hs
  | launch => exact execLaunch_wf _ _ _ _ _ _ hs
  | taskgraph => exact execTaskgraph_wf _ _ _ _ _ hs
  | modelBind => exact execModelBind_wf _ _ _ _ hs
  | prefetch => exact execPrefetch_wf _ _ _ _ _ hs
  | modelUnbind => exact execModelUnbind_wf _ _ _ hs
  | signal => exact execSignal_wf _ _ _ _ _ hs
  | wait => exact execWait_wf _ _ _ _ _ hs
  | waitCommandSatisfied => exact execWaitCommandSatisfied_wf _ _ hs
  | copyCommand => exact execCopyCommand_wf _ _ _ hs
  | cancelCommand => exact execCancelCommand_wf _ _ _ _ hs
  | ctxSetup => exact execCtxSetup_wf _ _ _ _ hs
  | ctxRewrite => exact execCtxRewrite_wf _ _ _ _ hs
  | ctxSuspend => exact execCtxSuspend_wf _ _ _ hs
  | ctxResume => exact execCtxResume_wf _ _ _ hs
  | ctxTeardown => exact execCtxTeardown_wf _ _ _ hs
  | codeReg => exact execCodeReg_wf _ _ _ _ hs
  | codeUnreg => exact execCodeUnreg_wf _ _ _ _ hs
  | wagonBind => exact execWagonBind_wf _ _ _ hs
  | wagonUnbind => exact execWagonUnbind_wf _ _ _ hs
  | poolAssign => exact execPoolAssign_wf _ _ _ _ _ _ _ hs
  | teamMigration => exact execTeamMigration_wf _ _ _ hs
  | preemptTeam => exact execPreemptTeam_wf _ _ hs
  | preemptionAbandon => exact execPreemptionAbandon_wf _ _ hs
  | teamResume => exact execTeamResume_wf _ _ _ hs
  | fareGrant => exact execFareGrant_wf _ _ hs
  | windowBoundary => exact execWindowBoundary_wf _ _ hs
  | balanceSkim => exact execBalanceSkim_wf _ _ hs
  | rampStep => exact execRampStep_wf _ _ hs
  | rampDown => exact execRampDown_wf _ _ hs
  | burstLapse => exact execBurstLapse_wf _ _ hs
  | ringClaim => exact execRingClaim_wf _ _ hs
  | operatingPointChange => exact execOperatingPointChange_wf _ _ _ hs
  | quiescePoint => exact execQuiescePoint_wf _ _ hs
  | clusterGate => exact execClusterGate_wf _ _ hs
  | ringtotWrite => exact execRingtotWrite_wf _ _ hs
  | govstallClear => exact execGovstallClear_wf _ _ _ hs
  | firmwareRegisterWrite => exact execFirmwareRegisterWrite_wf _ _ _ hs
  | tlbFill => exact execTlbFill_wf _ _ hs
  | invalidation => exact execInvalidation_wf _ _ _ _ hs
  | serviceBatch => exact execServiceBatch_wf _ _ hs
  | replayRetry => exact execReplayRetry_wf _ _ hs
  | replayViolation => exact execReplayViolation_wf _ _ hs
  | replayUnserviceable => exact execReplayUnserviceable_wf _ _ hs
  | migrationLineCopy => exact execMigrationLineCopy_wf _ _ hs
  | pinnedWayChange => exact execPinnedWayChange_wf _ _ hs
  | pairModeSet => exact execPairModeSet_wf _ _ _ hs
  | queueSet => exact execQueueSet_wf _ _ _ hs
  | deadlineAt => exact execDeadlineAt_wf _ _ _ _ hs
  | attest => exact execAttest_wf _ _ _ hs
  | health => exact execHealth_wf _ _ hs
  | fwStage => exact execFwStage_wf _ _ _ _ hs
  | windowSet => exact execWindowSet_wf _ _ _ _ _ _ _ hs
  | eventRing => exact execEventRing_wf _ _ _ _ _ hs
  | evackWrite => exact execEvackWrite_wf _ _ hs
  | rdmaWrite => exact execRdmaWrite_wf _ _ _ _ _ hs
  | rdmaRead => exact execRdmaRead_wf _ _ _ _ _ hs
  | spareReplacement => exact execSpareReplacement_wf _ _ _ hs
  | coreRetirement => exact execCoreRetirement_wf _ _ hs
  | peerAcknowledgement => exact execPeerAcknowledgement_wf _ _ hs
  | compactLpddrBacking => exact execCompactLpddrBacking_wf _ _ _ hs
  | yield => exact execYield_wf _ hs
  | dispatchCycle => exact execDispatchCycle_wf _ hs
  | arbiterSelect => exact execArbiterSelect_wf _ hs
  | freeze => exact execFreeze_wf _ hs
  | frozenReached => exact execFrozenReached_wf _ hs
  | unfreeze => exact execUnfreeze_wf _ hs
  | step => exact execStep_wf _ hs
  | pairerrClear => exact execPairerrClear_wf _ hs
  | boot => exact execBoot_wf _ hs
  | unallocatedEncoding => exact execUnallocatedEncoding_wf _ hs
  | badCommand => exact execBadCommand_wf _ hs
  | badMessage => exact execBadMessage_wf _ hs

@[simp] theorem frozenCycle_mem (s : State) (p : Nat) : (frozenCycle s p).mem = s.mem := by
  unfold frozenCycle
  grind [modCluster_mem, windowBoundary_mem]

@[simp] theorem tickRest_mem (ready : UnitId → Bool) (s : State) (p : Nat) : (tickRest ready s p).mem = s.mem := rfl

@[simp] theorem tickPair_mem (s : State) (p : Nat) : (tickPair s p).mem = s.mem := rfl

theorem purses_wf (s : State) (p : Nat) (hs : Memory.wf s.mem = true) : Memory.wf (purses s p).mem = true := by
  unfold purses
  grind [purseStep_wf, ringClaim_mem, foldl_wf]

@[simp] theorem reservations_mem (s : State) (p : Nat) : (reservations s p).mem = s.mem := by
  unfold reservations
  exact foldl_keeps _ (·.mem) (fun _ _ => takeResv_mem _ _ _) _ _

@[simp] theorem currents_mem (s : State) (p : Nat) : (currents s p).mem = s.mem := by
  unfold currents
  grind [windowBoundary_mem, rampStep_mem, rampDown_mem, burstLapse_mem, foldl_mem]

theorem deadlines_wf (s : State) (hs : Memory.wf s.mem = true) : Memory.wf (deadlines s).mem = true := by
  unfold deadlines
  refine foldl_wf _ _ _ (fun t _ ht => ?_) hs
  exact expireDeadline_wf _ _ ht

theorem tick_wf (ready : UnitId → Bool) (s : State) (p : Nat) (hs : Memory.wf s.mem = true) : Memory.wf (tick ready s p).mem = true := by
  unfold tick
  grind [frozenCycle_mem, tickRest_mem, tickPair_mem, purses_wf, reservations_mem, currents_mem, deadlines_wf]

theorem endTeardowns_wf (s : State) (hs : Memory.wf s.mem = true) : Memory.wf (endTeardowns s).mem = true := by
  unfold endTeardowns
  refine foldl_wf _ _ _ (fun t _ ht => ?_) hs
  exact checkTeardown_wf _ _ ht

theorem frontTick_wf (s : State) (hs : Memory.wf s.mem = true) : Memory.wf (frontTick s).mem = true := by
  unfold frontTick
  grind [serveMail_mem, askTick_mem, retryHolds_wf, layerTick_wf, dispatch_wf, makeStarts_mem, endTeardowns_wf]

@[simp] theorem askFares_mem (s : State) (x : Ctx) (p core : Nat) : (askFares s x p core).mem = s.mem := by
  unfold askFares
  grind [modCluster_mem]

@[simp] theorem chargeCore_mem (p : Nat) (s : State) (core : Nat) : (chargeCore p s core).mem = s.mem := rfl

/-- The state that a turn of a run leaves has canonical memory. -/
def Turned.Wf : Turned → Prop
  | .word _ _ s => Memory.wf s.mem = true
  | .event _ s => Memory.wf s.mem = true
  | .acts s => Memory.wf s.mem = true
  | _ => True

theorem fetchTurn_wf (s : State) (x : Ctx) (va : Nat) (k : Instr → State → Turned) (hs : Memory.wf s.mem = true)
    (hk : ∀ i t, Memory.wf t.mem = true → (k i t).Wf) : (fetchTurn s x va k).Wf := by
  unfold fetchTurn
  grind [holdAsk_mem, fetchAt_wf, Fetch.Wf, fetchFault_mem, trapDeliver_wf, Turned.Wf]

theorem wordTurn_wf (x : Ctx) (i : Instr) (s : State) (hs : Memory.wf s.mem = true) : (wordTurn x i s).Wf := by
  unfold wordTurn
  grind [holdAsk_mem, askFares_mem, Turned.Wf, foldl_wf]

theorem clauseTurn_wf (s : State) (x : Ctx) (hs : Memory.wf s.mem = true) : (clauseTurn s x).Wf := by
  unfold clauseTurn
  grind [setUnit_mem, trapDeliver_wf, fetchTurn_wf, wordTurn_wf, Turned.Wf]

theorem heldTurn_wf (s : State) (u : UnitId) (h : Hold) (hs : Memory.wf s.mem = true) : (heldTurn s u h).Wf := by
  unfold heldTurn
  grind [Turned.Wf]

theorem wantTurn_wf (s : State) (u : UnitId) (hs : Memory.wf s.mem = true) : (wantTurn s u).Wf := by
  unfold wantTurn
  grind [clauseTurn_wf, heldTurn_wf, Turned.Wf]

@[simp] theorem refuseWord_mem (s : State) (u : UnitId) : (refuseWord s u).mem = s.mem := rfl

@[simp] theorem refuseRest_mem (before : State) (u : UnitId) (s : State) : (refuseRest before u s).mem = s.mem := by
  unfold refuseRest
  split
  · rfl
  · exact foldl_keeps refuseWord (·.mem) refuseWord_mem _ _

theorem issueTurn_wf (s : State) (u : UnitId) (hs : Memory.wf s.mem = true) : (issueTurn s u).Wf := by
  unfold issueTurn
  grind [wantTurn_wf, refuseWord_mem, Turned.Wf]

@[simp] theorem issuedUnit_mem (p : Nat) (s : State) (u : UnitId) : (issuedUnit p s u).mem = s.mem := by
  unfold issuedUnit
  grind [modCluster_mem, modUnit_mem, chargeCore_mem, foldl_mem]

@[simp] theorem useSlot_mem (i : Instr) (s : State) (u : UnitId) : (useSlot i s u).mem = s.mem := by
  unfold useSlot
  split <;> simp

@[simp] theorem triedUnit_mem (i : Instr) (s : State) (u : UnitId) : (triedUnit i s u).mem = s.mem := by
  unfold triedUnit
  split <;> simp

@[simp] theorem endStep_mem (before : State) (u : UnitId) (s : State) : (endStep before u s).mem = s.mem := by
  unfold endStep
  split <;> rfl

theorem settled_wf (before : State) (u : UnitId) (i : Instr) (after : State) (ha : Memory.wf after.mem = true) :
    Memory.wf (settled before u i after).mem = true := by
  unfold settled
  grind +splitImp [askPassed_mem, triedUnit_mem, refuseRest_mem, endStep_mem, holdBack_wf, issuedUnit_mem, useSlot_mem, foldl_wf]

theorem turned_wf (s : State) (x1 : Turn) (hs : Memory.wf s.mem = true) : (turned s x1).Wf := by
  unfold turned
  grind [diverge_mem, tick_wf, frontTick_wf, issueTurn_wf, Turned.Wf]

theorem runTurn_wf (s : State) (t : Turn) (hs : Memory.wf s.mem = true) : OutWf (runTurn s t) := by
  have ht := turned_wf s t hs
  unfold runTurn
  split
  · next u i s1 he =>
    rw [he] at ht
    have hx := exec_wf i s1 ht
    split
    · next s2 hn => rw [hn] at hx; exact settled_wf _ _ _ _ hx
    · exact hx
  · next i s1 he => rw [he] at ht; exact exec_wf i s1 ht
  · next s1 he =>
    rw [he] at ht
    change Memory.wf (State.mem _) = true
    split
    · rwa [endStep_mem]
    · exact ht
  · exact hs

theorem firstMove_wf (s : State) (ts : List Turn) (hs : Memory.wf s.mem = true) : OutWf (firstMove s ts) := by
  induction ts with
  | nil => exact hs
  | cons t ts ih =>
    have hrun := runTurn_wf s t hs
    unfold firstMove
    split
    · next s1 he =>
      rw [he] at hrun
      split
      · exact ih
      · exact hrun
    · exact hrun

theorem fallback_wf (s : State) (hs : Memory.wf s.mem = true) : OutWf (fallback s) := firstMove_wf _ _ hs

/-- A step is a turn of the agenda, or the moves of a step in which nothing was chosen. -/
theorem step_wf (s : State) (hs : Memory.wf s.mem = true) : OutWf (step s) := by
  unfold step
  split
  · exact runTurn_wf _ _ hs
  · exact fallback_wf s hs

end Sys2Proof.Machine

namespace Sys2Proof.Claims

open Sys2Proof.Machine

/-- Settles O2: a step is a turn of the agenda or a fallback move, each ends in `exec` or a passing of time, and every
operation these call keeps the form (`step_wf`). -/
theorem memoryStaysCanonical : Obligations.MemoryStaysCanonical := by
  unfold Obligations.MemoryStaysCanonical
  intro s t hs ht
  have h := step_wf s hs
  rw [ht] at h
  exact h

end Sys2Proof.Claims
end

section
/-! The encoding of words (06 R132-R136). -/

namespace Sys2Proof.Claims

open Sys2Proof.Machine

/-- Settles O4: each word is closed, and the decoder evaluates it. -/
theorem decodedWords : Obligations.DecodedWords := by
  unfold Obligations.DecodedWords
  decide +kernel

/-- Refutes O3: the decoder reads the fields of a word and leaves their values to `wellFormed`, so that an `add` whose d field
holds 13, a code no destination has (06 R129), decodes to an instruction that is not well formed. -/
theorem not_decodeAndEncodeAgree : ¬ Obligations.DecodeAndEncodeAgree := by
  unfold Obligations.DecodeAndEncodeAgree
  intro h
  have hdecoded : decodeWord (encA 0x01 0x00 13 0 0 15 always) = .ok (.add 13 0 0 always) := by decide +kernel
  obtain ⟨hwf, -⟩ := (h _ _).mp hdecoded
  exact absurd hwf (by decide)

end Sys2Proof.Claims
end

section
/-! SUPPORT. Hints and landing pads (06 R136-R140). -/

namespace Sys2Proof.Machine

/-- The hint words right after the one that issues, with the payloads of their kinds. -/
def laterHints (s : State) (x : Ctx) : List (Nat × BitVec 24) :=
  (((bodyRest s x).drop 1).takeWhile (fun w => majorNat w == 0x3C)).map hintParts

/-- The word that the hints from this one on stand before, if the body has one. -/
def hintedWord (s : State) (x : Ctx) : Option W32 := (((bodyRest s x).drop 1).drop (laterHints s x).length).head?

/-- A hint goes on where it is not the first of its unit, or where the unit meets no cause. -/
theorem hintWord_passes {i : Instr} {kind : Nat} {p : BitVec 24} {s : State} {x : Ctx} (hi : Claims.issues i s x)
    (hpass : x.cl.hints ≠ {} ∨ hintCause x ((kind, p) :: laterHints s x) (hintedWord s x) = none) :
    hintWord i kind p s = .next (setUnit s x.u { x.g with
      clause := some { x.cl with next := x.cl.next + 1, hints := addHint x.cl.hints kind p } }) := by
  obtain ⟨hx, hc⟩ := hi
  rw [hintWord, word_effect _ hx hc]
  rcases hpass with hlater | hnone
  · have hfirst : (x.cl.hints.imm.isNone && x.cl.hints.cache.isNone && x.cl.hints.modifier.isNone) = false := by
      cases h : x.cl.hints with
      | mk a b c => rw [h] at hlater; cases a <;> cases b <;> cases c <;> simp at hlater ⊢
    simp only [hfirst, Bool.false_eq_true, if_false]
  · simp only [hintedWord, laterHints] at hnone
    simp only [hnone, ite_self]

theorem exec_lpad {n : BitVec 16} {s : State} {x : Ctx} (hi : Claims.issues (.lpad n) s x) :
    exec (.lpad n) s = .next (setUnit s x.u { x.g with clause := some { x.cl with next := x.cl.next + 1, hints := {} } }) := by
  have hexec : exec (.lpad n) s = word (.lpad n) s (fun x => setUnit s x.u (advance x.g)) := rfl
  rw [hexec, word_effect _ hi.1 hi.2, advance_eq, (issuing_unit hi.1).2]
  rfl

end Sys2Proof.Machine

namespace Sys2Proof.Claims

open Sys2Proof.Machine

/-- Settles O29: each kind's hint is the one lemma `hintWord_passes`, whose premise holds the causes of R136 for that kind alone. -/
theorem hintsAndPadsPass : Obligations.HintsAndPadsPass := by
  unfold Obligations.HintsAndPadsPass
  refine ⟨fun p s x hi hpass => ?_, fun p s x hi hpass => ?_, fun p s x hi hpass => ?_, fun n s x => exec_lpad⟩
  · exact hintWord_passes hi (hpass.imp_right fun h => h 0 p (.inl ⟨rfl, rfl⟩))
  · exact hintWord_passes hi (hpass.imp_right fun h => h 1 p (.inr (.inl ⟨rfl, rfl⟩)))
  · exact hintWord_passes hi (hpass.imp_right fun h => h 2 p (.inr (.inr ⟨rfl, rfl⟩)))

end Sys2Proof.Claims
end

section
/-! SUPPORT. Threads of several lanes, the fields of a header's word, and the clause that a header begins (06 R122-R125). -/

namespace Sys2Proof.Machine

/-! ## Threads of several lanes -/

theorem modThrs_onlyThreads (g : Grp) (ls : List Nat) (f : Nat → Thread → Thread) :
    modThrs g ls f = { g with threads := (modThrs g ls f).threads } := by
  unfold modThrs
  induction ls generalizing g with
  | nil => rfl
  | cons l ls ih => rw [List.foldl_cons, ih]; rfl

/-- Distinct lanes are each changed once. -/
theorem thrAt_modThrs {ls : List Nat} (hls : ls.Nodup) (g : Grp) (f : Nat → Thread → Thread) (l : Nat) :
    thrAt (modThrs g ls f) l = if l ∈ ls then f l (thrAt g l) else thrAt g l := by
  split
  · next h =>
    exact foldl_lanes_mem _ f (fun gr l j hj => thrAt_modThr_ne gr (f l) hj) (fun gr l => thrAt_modThr_same gr l (f l)) ls g hls l h
  · next h => exact foldl_lanes_ne _ (fun gr l j hj => thrAt_modThr_ne gr (f l) hj) ls g l h

theorem lanes_nodup (x : Ctx) : x.lanes.Nodup := maskLanes_nodup x.cl.mask

/-! ## The fields of a header's word (06 R123) -/

theorem bitsAt_toNat {n : Nat} (w : BitVec n) (hi lo : Nat) : bitsAt w.toNat hi lo = (w.extractLsb' lo (hi + 1 - lo)).toNat := by
  simp [bitsAt, BitVec.extractLsb'_toNat, Nat.shiftRight_eq_div_pow]

/-- The word of a header. -/
def headerWord (wait : BitVec 12) (setA setB : BitVec 4) (len : BitVec 5) : W32 :=
  FormH.word { major := 0x3F, wait := wait, setA := setA, setB := setB, len := len, zero := 0 }

section
variable (wait : BitVec 12) (setA setB : BitVec 4) (len : BitVec 5)

theorem encode_clauseHeader : encode (.clauseHeader wait setA setB len) = some (headerWord wait setA setB len) := rfl

theorem headerWord_wait : bitsAt (headerWord wait setA setB len).toNat 25 14 = wait.toNat :=
  (bitsAt_toNat _ 25 14).trans (congrArg (fun f : FormH => f.wait.toNat) (formH_word _))

theorem headerWord_setA : bitsAt (headerWord wait setA setB len).toNat 13 10 = setA.toNat :=
  (bitsAt_toNat _ 13 10).trans (congrArg (fun f : FormH => f.setA.toNat) (formH_word _))

theorem headerWord_setB : bitsAt (headerWord wait setA setB len).toNat 9 6 = setB.toNat :=
  (bitsAt_toNat _ 9 6).trans (congrArg (fun f : FormH => f.setB.toNat) (formH_word _))

theorem headerWord_len : bitsAt (headerWord wait setA setB len).toNat 5 1 = len.toNat :=
  (bitsAt_toNat _ 5 1).trans (congrArg (fun f : FormH => f.len.toNat) (formH_word _))

end

theorem flagOfCode_eq (c : BitVec 4) : flagOfCode c = if c.toNat = 15 then none else some c.toNat := by
  have h : c = 15 ↔ c.toNat = 15 := BitVec.toNat_inj.symm
  simp only [flagOfCode, h]

/-! ## A header evaluated -/

/-- The clause that a header begins for the run that stands at it. -/
def begunClause (x : Ctx) (wait : BitVec 12) (setA setB : BitVec 4) (len : BitVec 5) : Clause :=
  { x.cl with
    decoded := true, len := len.toNat + 1, next := 1, wait := wait,
    setA := if setA.toNat = 15 then none else some setA.toNat, setB := if setB.toNat = 15 then none else some setB.toNat,
    sect := x.t.sect, hints := {}, ctl := .fall, waited := false }

/-- The unit with that clause, its run's operand files and latches zero. -/
def begunUnit (x : Ctx) (wait : BitVec 12) (setA setB : BitVec 4) (len : BitVec 5) : Grp :=
  { modThrs x.g x.lanes (fun _ t => { t with lt := 0, t := [], cych := none }) with clause := some (begunClause x wait setA setB len) }

/-- The state after a header's fetches with the divergences that its clause's comparison drops. -/
def divergencesDropped (s : State) (x : Ctx) : State :=
  if x.t.upsets = [] then s else modTeam s x.u.team (fun t =>
    { t with upsets := t.upsets.filter (fun a => a.unit != x.u.idx || !x.cl.mask.getLsbD a.lane) })

theorem beginClause_begins {wait : BitVec 12} {setA setB : BitVec 4} {len : BitVec 5} {s s1 : State} {x : Ctx} {ws : List W32}
    (hlen : len.toNat < 24)
    (hfetch : fetchMany x.u x.cl.head x.cl.mask (len.toNat + 2) (x.cl.head + 4) s [] = .ok (ws, s1))
    (hcause : clauseCause (headerWord wait setA setB len) (ws.take (len.toNat + 1)) (ws.getD (len.toNat + 1) 0) = none)
    (hcancel : cancelEntry x.t.kernel ≠ some x.cl.head) :
    beginClause s x (headerWord wait setA setB len) = setUnit (divergencesDropped s1 x) x.u (begunUnit x wait setA setB len) := by
  have hmin : Nat.min (len.toNat + 1) 24 + 1 = len.toNat + 2 := by rw [show Nat.min (len.toNat + 1) 24 = len.toNat + 1 from Nat.min_eq_left hlen]
  have hentry : (cancelEntry x.t.kernel == some x.cl.head) = false := by simpa using hcancel
  simp only [beginClause, headerWord_len, headerWord_wait, headerWord_setA, headerWord_setB, hmin, hfetch, hcause, hentry, Bool.false_and,
    Bool.or_false, BitVec.ofNat_toNat, BitVec.setWidth_eq, flagOfCode_eq]
  rfl

theorem divergencesDropped_onlyUpsets (s : State) (x : Ctx) (g : Grp) :
    Claims.onlyUnit (modTeam s x.u.team (fun m =>
      { m with upsets := (teamAt (setUnit (divergencesDropped s x) x.u g) x.u.team).upsets })) (setUnit (divergencesDropped s x) x.u g) x.u := by
  unfold Claims.onlyUnit divergencesDropped
  split <;> simp [setUnit, modTeam, teamAt, unitAt]

theorem thrAt_begunUnit (x : Ctx) (wait : BitVec 12) (setA setB : BitVec 4) (len : BitVec 5) (l : Nat) :
    thrAt (begunUnit x wait setA setB len) l = if l ∈ x.lanes then { x.thr l with lt := 0, t := [], cych := none } else x.thr l :=
  thrAt_modThrs (lanes_nodup x) ..

theorem exec_clauseHeader_atHead {wait : BitVec 12} {setA setB : BitVec 4} {len : BitVec 5} {s : State} {x : Ctx} (hx : issuing s = some x)
    (hdec : x.cl.decoded = false) :
    exec (.clauseHeader wait setA setB len) s = .next (beginClause s x (headerWord wait setA setB len)) := by
  change execClauseHeader wait setA setB len s = _
  simp [execClauseHeader, hx, hdec, encode_clauseHeader]

theorem exec_clauseHeader_inside {wait : BitVec 12} {setA setB : BitVec 4} {len : BitVec 5} {s : State} {x : Ctx} (hx : issuing s = some x)
    (hdec : x.cl.decoded = true) :
    exec (.clauseHeader wait setA setB len) s = .next (misplaced s x (headerWord wait setA setB len)) := by
  change execClauseHeader wait setA setB len s = _
  simp [execClauseHeader, hx, hdec, encode_clauseHeader]

end Sys2Proof.Machine

namespace Sys2Proof.Claims

open Sys2Proof.Machine

/-- Settles O26: a header whose body is fetched and sound writes the begun unit and drops the divergences of its threads; inside a
clause it is misplaced. -/
theorem headerBeginsClause : Obligations.HeaderBeginsClause := by
  unfold Obligations.HeaderBeginsClause
  constructor
  · intro wait setA setB len s x w ws s1 hx hdec hw hlen hfetch hcause hcancel
    obtain rfl : headerWord wait setA setB len = w := Option.some.inj hw
    refine ⟨_, by rw [exec_clauseHeader_atHead hx hdec, beginClause_begins hlen hfetch hcause hcancel], divergencesDropped_onlyUpsets .., ?_, ?_⟩
    · rw [unitAt_setUnit_same, begunUnit, modThrs_onlyThreads]
      rfl
    · intro l
      rw [unitAt_setUnit_same]
      exact thrAt_begunUnit ..
  · intro wait setA setB len s x w hx hdec hw
    obtain rfl : headerWord wait setA setB len = w := Option.some.inj hw
    exact exec_clauseHeader_inside hx hdec

end Sys2Proof.Claims
end

section
/-! SUPPORT. The causes of 06 R143 and 02 R57, one named condition for each, in their order. -/

namespace Sys2Proof.Machine

open Claims

/-- Every word of a body is checked and then has its effect. -/
theorem exec_bodyWord {i : Instr} (hi : bodyWord i) (s : State) : ∃ effect, exec i s = word i s effect := by
  obtain ⟨w, hw, hheader, htrailer⟩ := hi
  cases i
  case clauseHeader =>
    obtain rfl := Option.some.inj hw
    exact absurd (congrArg BitVec.toNat (majorOf_formH _)) hheader
  case clauseTrailer =>
    obtain rfl := Option.some.inj hw
    exact absurd (congrArg BitVec.toNat (majorOf_formT _)) htrailer
  case intUniformOp f => cases f <;> exact ⟨_, rfl⟩
  case floatUniformOp f => cases f <;> exact ⟨_, rfl⟩
  -- the events of the machine are no words: they have no encoding
  all_goals try (cases hw; done)
  all_goals exact ⟨_, rfl⟩

/-- The first of the causes of 06 R143: the word stands where it may not, or lacks the flag it needs. -/
def Misplaced (x : Ctx) (i : Instr) : Prop :=
  inBody x.cl = false ∨ placedOk x.cl (infoOf i).place = false ∨ flagChosen x.cl (infoOf i) = false

/-- The second: its form, code, privilege or an operand value. -/
def IllegalWord (x : Ctx) (i : Instr) : Prop :=
  legalIn x i (infoOf i) = false ∨ ((infoOf i).handler = true ∧ x.g.handler = none) ∨ valueIllegal x i = true

/-- The third: a main register beyond the share. -/
def BeyondShare (x : Ctx) (i : Instr) : Prop := x.cond = false ∧ ∃ v ∈ (infoOf i).v ++ mxRegs x.cl.hints i, 8 * x.g.share ≤ v

/-- The last: an undeclared accumulator. -/
def UndeclaredAcc (x : Ctx) (i : Instr) : Prop := ∃ a, (infoOf i).acc = some a ∧ x.t.kernel.acc ≤ a

section
variable {x : Ctx} {i : Instr}

theorem misplaced_iff : Misplaced x i ↔
    (!inBody x.cl || !placedOk x.cl (infoOf i).place || !flagChosen x.cl (infoOf i)) = true := by
  simp [Misplaced, or_assoc]

theorem illegalWord_iff : IllegalWord x i ↔ (!legalIn x i (infoOf i) || !privOk x (infoOf i) || valueIllegal x i) = true := by
  simp [IllegalWord, privOk, or_assoc]

theorem beyondShare_iff : BeyondShare x i ↔ (!shareOk x ((infoOf i).v ++ mxRegs x.cl.hints i)) = true := by
  simp only [BeyondShare, shareOk, Bool.not_eq_true', Bool.or_eq_false_iff, List.all_eq_false, decide_eq_true_eq, Nat.not_lt]

theorem undeclaredAcc_iff : UndeclaredAcc x i ↔ (!accOk x (infoOf i)) = true := by
  unfold UndeclaredAcc accOk
  cases (infoOf i).acc <;> simp

theorem wordCheck_of_misplaced (h : Misplaced x i) : wordCheck x i = some (.clauseForm, 0) := if_pos (misplaced_iff.mp h)

theorem wordCheck_of_illegal (hm : ¬Misplaced x i) (h : IllegalWord x i) : wordCheck x i = some (.illegal, 0) := by
  rw [misplaced_iff] at hm
  rw [illegalWord_iff] at h
  exact (if_neg hm).trans (if_pos h)

theorem wordCheck_of_beyond (hm : ¬Misplaced x i) (hi : ¬IllegalWord x i) (h : BeyondShare x i) :
    wordCheck x i = some (.operandLimit, 1) := by
  rw [misplaced_iff] at hm
  rw [illegalWord_iff] at hi
  rw [beyondShare_iff] at h
  exact (if_neg hm).trans ((if_neg hi).trans (if_pos h))

theorem wordCheck_of_legal (hm : ¬Misplaced x i) (hi : ¬IllegalWord x i) (hb : ¬BeyondShare x i) :
    wordCheck x i = if !accOk x (infoOf i) then some (.operandLimit, 2) else none := by
  rw [misplaced_iff] at hm
  rw [illegalWord_iff] at hi
  rw [beyondShare_iff] at hb
  exact (if_neg hm).trans ((if_neg hi).trans (if_neg hb))

end

/-- A body word's cause is taken at the word, for every thread of the run. -/
theorem bodyWord_traps {i : Instr} {s : State} {x : Ctx} {c : Cause} {n : Nat} (hi : bodyWord i) (hx : issuing s = some x)
    (hc : wordCheck x i = some (c, n)) : trapsAtWord i s x c n (causeAddr i c) := by
  obtain ⟨f, hf⟩ := exec_bodyWord hi s
  exact hf.trans (word_trap f hx hc)

theorem majorNat_encA (major fn : BitVec 6) (d a b c : OField) (g : Guard) : majorNat (encA major fn d a b c g) = major.toNat :=
  congrArg BitVec.toNat (majorOf_formA _)

theorem infoOf_eret (g : Guard) : infoOf (.eret g) = { place := .last, conductor := false, handler := true } := rfl

theorem bodyWord_eret (g : Guard) : bodyWord (.eret g) :=
  ⟨_, rfl, by rw [majorNat_encA]; decide, by rw [majorNat_encA]; decide⟩

section
variable {s : State} {x : Ctx}

theorem exec_unallocatedEncoding_illegal (hx : issuing s = some x) (hdec : x.cl.decoded = true)
    (hform : formBad x.cl (wordAt s x.u x.pc) = false) : exec .unallocatedEncoding s = .next (trapWord s x .illegal 0 x.cl.mask 0) := by
  change execUnallocatedEncoding s = _
  simp [execUnallocatedEncoding, hx, hdec, hform]

theorem exec_unallocatedEncoding_misplaced (hx : issuing s = some x)
    (h : x.cl.decoded = false ∧ majorNat (wordAt s x.u x.pc) ≠ 0x3F ∨ x.cl.decoded = true ∧ formBad x.cl (wordAt s x.u x.pc) = true) :
    exec .unallocatedEncoding s = .next (misplaced s x (wordAt s x.u x.pc)) := by
  change execUnallocatedEncoding s = _
  rcases h with ⟨hdec, hmajor⟩ | ⟨hdec, hform⟩
  · simp [execUnallocatedEncoding, hx, hdec, hmajor]
  · simp [execUnallocatedEncoding, hx, hdec, hform]

end
end Sys2Proof.Machine

namespace Sys2Proof.Claims

open Sys2Proof.Machine

/-- Settles O32: of the four conditions in R143's order the first that holds is `wordCheck`'s answer, and each body word's `exec` takes it
(`bodyWord_traps`); a word without a row traps on its own. -/
theorem firstCauseTrapsAtTheWord : Obligations.FirstCauseTrapsAtTheWord := by
  unfold Obligations.FirstCauseTrapsAtTheWord
  refine ⟨fun i s x hi hx => ⟨fun c n => bodyWord_traps hi hx, fun hm => ?_, fun hm hl => ?_, fun hm hl hb => ?_, fun hm hl hb ha => ?_,
    fun hm hl hb ha => ?_⟩, fun g s x hx hbody hlast hlevel => ?_, fun s x hx hdec hbody hs hp hf => ?_, fun s x hx hdec h => ?_,
    fun s x hx hdec hmajor => exec_unallocatedEncoding_misplaced hx (.inl ⟨hdec, hmajor⟩)⟩
  · have htraps := bodyWord_traps hi hx (wordCheck_of_misplaced hm)
    obtain ⟨w, hw, -⟩ := hi
    exact ⟨w, hw, by rwa [causeAddr, if_pos rfl, hw] at htraps⟩
  · exact bodyWord_traps hi hx (wordCheck_of_illegal hm hl)
  · exact bodyWord_traps hi hx (wordCheck_of_beyond hm hl hb)
  · exact bodyWord_traps hi hx ((wordCheck_of_legal hm hl hb).trans (if_pos (undeclaredAcc_iff.mp ha)))
  · exact ⟨hx, (wordCheck_of_legal hm hl hb).trans (if_neg (mt undeclaredAcc_iff.mpr ha))⟩
  · have hplaced : ¬Misplaced x (.eret g) := by simp [Misplaced, infoOf_eret, placedOk, flagChosen, hbody, hlast]
    exact bodyWord_traps (bodyWord_eret g) hx (wordCheck_of_illegal hplaced (.inr (.inl ⟨rfl, hlevel⟩)))
  · exact exec_unallocatedEncoding_illegal hx hdec (by simp [formBad, hs, hbody, hp, hf])
  · exact exec_unallocatedEncoding_misplaced hx (.inr ⟨hdec, by simpa [formBad, or_assoc] using h⟩)

end Sys2Proof.Claims
end

section
/-! SUPPORT. What a test of a team's barriers can change (08 R205, R206): runs that a barrier releases have their status written, and every other
unit, with every unit that holds no blocked run, stays. -/

namespace Sys2Proof.Machine

/-! ## Teams and units after writes -/

theorem teamAt_setUnit (s : State) (u : UnitId) (g : Grp) (n : Nat) :
    teamAt (setUnit s u g) n = { teamAt s n with units := (teamAt (setUnit s u g) n).units } := by
  by_cases h : n = u.team
  · subst h; simp [setUnit]
  · rw [setUnit, teamAt_modTeam_ne _ _ h]

theorem unitAt_modTeam (s : State) (n : Nat) {f : Team → Team} (hf : ∀ t, (f t).units = t.units) (u : UnitId) :
    unitAt (modTeam s n f) u = unitAt s u := by
  unfold unitAt
  by_cases h : u.team = n
  · rw [h, teamAt_modTeam_same, hf]
  · rw [teamAt_modTeam_ne _ _ h]

theorem stopped_modTeam (s : State) (n : Nat) {f : Team → Team} (hf : ∀ t, (f t).stopped = t.stopped) (m : Nat) :
    (teamAt (modTeam s n f) m).stopped = (teamAt s m).stopped := by
  by_cases h : m = n
  · rw [h, teamAt_modTeam_same, hf]
  · rw [teamAt_modTeam_ne _ _ h]

/-! ## A unit whose waits end -/

/-- A unit before and after waits of its runs end: threads change in lt and the operand file alone, and a unit with no blocked run stays. -/
structure WaitsEnd (g h : Grp) : Prop where
  frame : ∃ ths k b, h = { g with threads := ths, k := k, blocked := b }
  thread : ∀ l, ∃ lt o, thrAt h l = { thrAt g l with lt := lt, t := o }
  idle : g.blocked = [] → h = g

namespace WaitsEnd

theorem refl (g : Grp) : WaitsEnd g g := ⟨⟨_, _, _, rfl⟩, fun _ => ⟨_, _, rfl⟩, fun _ => rfl⟩

theorem trans {g h j : Grp} (a : WaitsEnd g h) (b : WaitsEnd h j) : WaitsEnd g j where
  frame := by
    obtain ⟨_, _, _, hg⟩ := a.frame
    obtain ⟨ths, k, bs, hj⟩ := b.frame
    exact ⟨ths, k, bs, by rw [hj, hg]⟩
  thread l := by
    obtain ⟨_, _, hg⟩ := a.thread l
    obtain ⟨lt, o, hj⟩ := b.thread l
    exact ⟨lt, o, by rw [hj, hg]⟩
  idle hb := by
    have hg := a.idle hb
    rw [b.idle (by rw [hg]; exact hb), hg]

theorem clause_eq {g h : Grp} (w : WaitsEnd g h) : h.clause = g.clause := by
  obtain ⟨_, _, _, rfl⟩ := w.frame
  rfl

theorem stores_eq {g h : Grp} (w : WaitsEnd g h) : h.stores = g.stores := by
  obtain ⟨_, _, _, rfl⟩ := w.frame
  rfl

end WaitsEnd

theorem foldl_writeO_thread (cond : Bool) (d : OField) (v lt : W32) (ls : List Nat) (g : Grp) (l : Nat) :
    ∃ n o, thrAt (ls.foldl (fun g l => writeO cond g l d v lt) g) l = { thrAt g l with lt := n, t := o } := by
  induction ls generalizing g with
  | nil => exact ⟨_, _, rfl⟩
  | cons a ls ih =>
    obtain ⟨n, o, h⟩ := ih (writeO cond g a d v lt)
    refine ⟨n, o, ?_⟩
    rw [List.foldl_cons, h, thrAt_writeO]
    split
    · next e => subst e; rfl
    · rfl

theorem endWait_waitsEnd (u : UnitId) {g : Grp} (hg : g.blocked ≠ []) (b : BlockedRun) (d : OField) (data status : W32) :
    WaitsEnd g (endWait u g b d data status) where
  frame := by
    obtain ⟨ths, k, h⟩ := foldl_onlyThreads (fun g l => writeO (isCond u) g l d data status)
      (fun g l => writeO_onlyThreads (isCond u) g l d data status) (maskLanes b.parts) g
    exact ⟨ths, k, _, by rw [endWait, h]⟩
  thread := foldl_writeO_thread (isCond u) d data status (maskLanes b.parts) g
  idle h := absurd h hg

/-! ## Barriers tested and released -/

/-- A state before and after barriers are tested: waits of units end, and beside barriers the acquire steps of a gang barrier's cores are
all that happens. -/
structure BarsTested (s t : State) : Prop where
  frame : ∃ cores teams gangs n, t = { s with cores := cores, teams := teams, gangs := gangs, freeCtr := n }
  stopped : ∀ n, (teamAt t n).stopped = (teamAt s n).stopped
  units : ∀ u, WaitsEnd (unitAt s u) (unitAt t u)

namespace BarsTested

theorem refl (s : State) : BarsTested s s := ⟨⟨_, _, _, _, rfl⟩, fun _ => rfl, fun _ => .refl _⟩

theorem trans {s t r : State} (a : BarsTested s t) (b : BarsTested t r) : BarsTested s r where
  frame := by
    obtain ⟨_, _, _, _, ht⟩ := a.frame
    obtain ⟨c, ts, gs, n, hr⟩ := b.frame
    exact ⟨c, ts, gs, n, by rw [hr, ht]⟩
  stopped n := (b.stopped n).trans (a.stopped n)
  units u := (a.units u).trans (b.units u)

theorem ite {c : Prop} [Decidable c] {s t : State} (h : BarsTested s t) : BarsTested s (if c then t else s) := by
  split
  · exact h
  · exact refl s

theorem foldl {α : Type} {f : State → α → State} (h : ∀ s a, BarsTested s (f s a)) (l : List α) (s : State) : BarsTested s (l.foldl f s) := by
  induction l generalizing s with
  | nil => exact refl s
  | cons a l ih => exact (h s a).trans (ih _)

theorem setUnit {s : State} {u : UnitId} {g : Grp} (h : WaitsEnd (unitAt s u) g) : BarsTested s (setUnit s u g) where
  frame := ⟨_, _, _, _, rfl⟩
  stopped n := by rw [teamAt_setUnit]
  units v := by
    by_cases e : v = u
    · subst e; rw [unitAt_setUnit_same]; exact h
    · rw [unitAt_setUnit_ne _ _ e]; exact .refl _

theorem modTeam (s : State) (n : Nat) {f : Team → Team} (hu : ∀ t, (f t).units = t.units) (hs : ∀ t, (f t).stopped = t.stopped) :
    BarsTested s (modTeam s n f) where
  frame := ⟨_, _, _, _, rfl⟩
  stopped := stopped_modTeam s n hs
  units u := by rw [unitAt_modTeam s n hu]; exact .refl _

theorem of_teams_eq {s t : State} (hframe : ∃ cores gangs n, t = { s with cores := cores, gangs := gangs, freeCtr := n }) : BarsTested s t := by
  obtain ⟨_, _, _, rfl⟩ := hframe
  exact ⟨⟨_, _, _, _, rfl⟩, fun _ => rfl, fun _ => .refl _⟩

theorem barRelease (s : State) (b : Barrier) (status : W32) : BarsTested s (barRelease s b status) := by
  unfold Machine.barRelease
  refine trans (foldl (fun s a => ?_) b.arrivals s) (of_teams_eq ⟨_, _, _, rfl⟩)
  dsimp only
  split
  · exact refl s
  · next r hr =>
    have hblocked : (unitAt s a.unit).blocked ≠ [] := fun h => by simp [h] at hr
    exact setUnit (endWait_waitsEnd a.unit hblocked ..)

theorem setGangBar (s : State) (n : Nat) (b : Barrier) : BarsTested s (setGangBar s n b) := by
  unfold Machine.setGangBar
  split
  · exact of_teams_eq ⟨_, _, _, rfl⟩
  · exact modTeam s n (fun _ => rfl) (fun _ => rfl)

theorem setBar (s : State) (n i : Nat) (b : Barrier) : BarsTested s (setBar s n i b) := modTeam s n (fun _ => rfl) (fun _ => rfl)

theorem checkBar (s : State) (n i : Nat) : BarsTested s (checkBar s n i) := ite ((barRelease ..).trans (setBar ..))

theorem checkGangBar (s : State) (n : Nat) : BarsTested s (checkGangBar s n) :=
  ite (((barRelease ..).trans (foldl (fun _ _ => of_teams_eq ⟨_, _, _, rfl⟩) _ _)).trans (setGangBar ..))

theorem checkBars (s : State) (n : Nat) : BarsTested s (checkBars s n) := (foldl (fun s b => checkBar s n b) _ s).trans (checkGangBar _ n)

end BarsTested

end Sys2Proof.Machine
end

section
/-! SUPPORT. What an exit of lanes leaves of its unit (01 R26, 08 R212). -/

namespace Sys2Proof.Machine

theorem foldl_exitedThread (ls : List Nat) (g : Grp) :
    ls.foldl (fun ts l => tset ts l (exitedThread (tget {} ts l))) g.threads = (modThrs g ls (fun _ => exitedThread)).threads := by
  unfold modThrs
  induction ls generalizing g with
  | nil => rfl
  | cons l ls ih => exact ih (modThr g l exitedThread)

theorem mem_tinsert {α : Type} {m : TMap α} {k : Nat} {v : α} {e : Nat × α} (h : e ∈ tinsert m k v) : e = (k, v) ∨ e ∈ m := by
  induction m with
  | nil => exact .inl (List.mem_singleton.mp h)
  | cons a m ih =>
    unfold tinsert at h
    split at h
    · exact List.mem_cons.mp h
    · rcases List.mem_cons.mp h with rfl | h
      · exact .inr List.mem_cons_self
      · exact (ih h).imp_right (List.mem_cons_of_mem _)

theorem mem_tset {α : Type} {m : TMap α} {k : Nat} {v : α} {e : Nat × α} (h : e ∈ tset m k v) : e = (k, v) ∨ e ∈ m ∧ e.1 ≠ k :=
  (mem_tinsert h).imp_right fun h => by simpa [terase] using h

/-- Of the threads after several are changed, each is a changed lane's or one from before. -/
theorem mem_modThrs_threads {g : Grp} {ls : List Nat} {f : Nat → Thread → Thread} {e : Nat × Thread} (h : e ∈ (modThrs g ls f).threads) :
    (∃ l ∈ ls, ∃ t, e = (l, f l t)) ∨ e ∈ g.threads ∧ e.1 ∉ ls := by
  unfold modThrs at h
  induction ls generalizing g with
  | nil => exact .inr ⟨h, List.not_mem_nil⟩
  | cons l ls ih =>
    rcases ih h with ⟨j, hj, t, rfl⟩ | ⟨hg, hne⟩
    · exact .inl ⟨j, List.mem_cons_of_mem _ hj, t, rfl⟩
    · rcases mem_tset hg with rfl | ⟨hg, hl⟩
      · exact .inl ⟨l, List.mem_cons_self, _, rfl⟩
      · exact .inr ⟨hg, fun hmem => (List.mem_cons.mp hmem).elim hl hne⟩

/-- A unit whose live threads all exit has none left. -/
theorem liveLanes_exited {g : Grp} {ls : List Nat} (h : ∀ l ∈ liveLanes g, l ∈ ls) : liveLanes (modThrs g ls (fun _ => exitedThread)) = [] := by
  simp only [liveLanes, List.map_eq_nil_iff, List.filter_eq_nil_iff]
  intro e he hlive
  rcases mem_modThrs_threads he with ⟨l, -, t, rfl⟩ | ⟨hg, hne⟩
  · exact absurd hlive Bool.false_ne_true
  · exact hne (h e.1 (List.mem_map_of_mem (List.mem_filter.mpr ⟨hg, hlive⟩)))

/-- A team's wind-down changes no unit but its conductor, and a conductor that has retired not either. -/
theorem unitAt_windDown {s : State} {u : UnitId} {n : Nat} (h : u = ⟨n, 32⟩ → (unitAt s u).retired = true) :
    unitAt (windDown s n) u = unitAt s u := by
  unfold windDown
  dsimp only
  split
  · next hc =>
    have hlive : (unitAt s ⟨n, 32⟩).retired = false := by
      simp only [Bool.and_eq_true, Bool.not_eq_true'] at hc
      exact hc.2
    have hne : u ≠ ⟨n, 32⟩ := by
      rintro rfl
      simp [hlive] at h
    split <;> exact unitAt_setUnit_ne s _ hne
  · rfl

theorem waitsEnd_checkBars (s : State) (u : UnitId) (g : Grp) (n : Nat) : WaitsEnd g (unitAt (checkBars (setUnit s u g) n) u) := by
  have h := (BarsTested.checkBars (setUnit s u g) n).units u
  rwa [unitAt_setUnit_same] at h

theorem waitsEnd_checkBars_windDown (s : State) (u : UnitId) {g : Grp} (hg : g.retired = true) {f : Team → Team}
    (hf : ∀ t, (f t).units = t.units) : WaitsEnd g (unitAt (checkBars (windDown (modTeam (setUnit s u g) u.team f) u.team) u.team) u) := by
  have hunit : unitAt (modTeam (setUnit s u g) u.team f) u = g := by rw [unitAt_modTeam _ _ hf, unitAt_setUnit_same]
  have h := (BarsTested.checkBars (windDown (modTeam (setUnit s u g) u.team f) u.team) u.team).units u
  rwa [unitAt_windDown (fun _ => by rw [hunit]; exact hg), hunit] at h

/-- What an exit of lanes leaves of its unit, but for the waits that the barriers it tests then end: the lanes' threads exit, and a unit without
a blocked run or without a live thread holds no blocked run. -/
theorem exitLanes_unit (s : State) (u : UnitId) (ls : List Nat) :
    ∃ g1 : Grp, WaitsEnd g1 (unitAt (exitLanes s u ls) u) ∧ g1.clause = (unitAt s u).clause ∧ g1.k = (unitAt s u).k ∧
      g1.threads = (modThrs (unitAt s u) ls (fun _ => exitedThread)).threads ∧
      ((unitAt s u).blocked = [] ∨ liveLanes (modThrs (unitAt s u) ls (fun _ => exitedThread)) = [] → g1.blocked = []) := by
  unfold exitLanes
  dsimp only
  split
  · exact ⟨_, waitsEnd_checkBars_windDown s u rfl (fun t => by split <;> rfl), rfl, rfl, foldl_exitedThread .., fun _ => rfl⟩
  · next hlive =>
    refine ⟨_, waitsEnd_checkBars s u _ _, rfl, rfl, foldl_exitedThread .., fun h => ?_⟩
    rcases h with h | h
    · simp only [h, List.filter_nil]
    · exact absurd (by rw [liveLanes, foldl_exitedThread]; exact h) hlive

end Sys2Proof.Machine
end

section
/-! SUPPORT. The commits of a trailer (06 R124): both sources are read before either write. -/

namespace Sys2Proof.Machine

variable {va : VIdx} {oa : OField} {vb : VIdx} {ob : OField} {n : BitVec 2}

theorem commitsOf_eq (va : VIdx) (oa : OField) (vb : VIdx) (ob : OField) {n : BitVec 2} (hn : n.toNat ≤ 2) :
    commitsOf va oa vb ob n =
      if n.toNat = 2 then [(va.toNat, oa), (vb.toNat, ob)] else if 1 ≤ n.toNat then [(va.toNat, oa)] else [] := by
  unfold commitsOf
  interval_cases n.toNat <;> rfl

/-- What a map of registers holds after a trailer's commits: commit B's source, else A's, else what it held. -/
theorem tget_foldl_commits {α : Type} (d : α) (m : TMap α) (val : OField → α) (r : Nat) (hn : n.toNat ≤ 2) :
    tget d ((commitsOf va oa vb ob n).foldl (fun m c => tset m c.1 (val c.2)) m) r =
      if n.toNat = 2 ∧ r = vb.toNat then val ob else if 1 ≤ n.toNat ∧ r = va.toNat then val oa else tget d m r := by
  rw [commitsOf_eq va oa vb ob hn]
  by_cases h2 : n.toNat = 2
  · simp [h2, tget_tset]
  · by_cases h1 : 1 ≤ n.toNat
    · simp [h2, h1, tget_tset]
    · simp [h2, h1]

/-- A thread after the commits of its lane: in a conductor clause they write the k registers. -/
def committedThread (x : Ctx) (cs : List (Nat × OField)) (l : Nat) (t : Thread) : Thread :=
  { t with v := if x.cond then t.v else cs.foldl (fun v c => tset v c.1 (x.src l c.2)) t.v }

/-- The commits of one lane. -/
def commitLane (x : Ctx) (cs : List (Nat × OField)) (g : Grp) (l : Nat) : Grp :=
  cs.foldl (fun g c => writeV x.cond g l c.1 (x.src l c.2)) g

theorem commitAll_eq (x : Ctx) (cs : List (Nat × OField)) : commitAll x cs = x.lanes.foldl (commitLane x cs) x.g := rfl

theorem commitLane_group {x : Ctx} (hc : x.cond = false) (cs : List (Nat × OField)) (g : Grp) (l : Nat) :
    ∃ ths, commitLane x cs g l = { g with threads := ths } := by
  unfold commitLane
  induction cs generalizing g with
  | nil => exact ⟨_, rfl⟩
  | cons c cs ih =>
    obtain ⟨ths, h⟩ := ih (writeV x.cond g l c.1 (x.src l c.2))
    exact ⟨ths, by rw [List.foldl_cons, h, hc]; rfl⟩

theorem commitLane_conductor {x : Ctx} (hc : x.cond = true) (cs : List (Nat × OField)) (g : Grp) (l : Nat) :
    commitLane x cs g l = { g with k := cs.foldl (fun k c => tset k c.1 ((x.src l c.2).setWidth 64)) g.k } := by
  unfold commitLane
  induction cs generalizing g with
  | nil => rfl
  | cons c cs ih => rw [List.foldl_cons, ih, hc]; rfl

theorem thrAt_writeV_group (g : Grp) (l j v : Nat) (w : W32) :
    thrAt (writeV false g l v w) j = if j = l then { thrAt g l with v := tset (thrAt g l).v v w } else thrAt g j :=
  thrAt_modThr g l j (fun t => { t with v := tset t.v v w })

theorem thrAt_commitLane (x : Ctx) (cs : List (Nat × OField)) (g : Grp) (l j : Nat) :
    thrAt (commitLane x cs g l) j = if j = l then committedThread x cs l (thrAt g l) else thrAt g j := by
  cases hc : x.cond with
  | true =>
    rw [commitLane_conductor hc]
    split
    · next h => subst h; simp only [committedThread, hc]; rfl
    · rfl
  | false =>
    unfold commitLane
    induction cs generalizing g with
    | nil =>
      split
      · next h => subst h; simp only [committedThread, hc]; rfl
      · rfl
    | cons c cs ih =>
      rw [List.foldl_cons, ih, hc, thrAt_writeV_group, thrAt_writeV_group, if_pos rfl]
      split
      · simp only [committedThread, hc, List.foldl_cons]; rfl
      · rfl

theorem thrAt_commitAll (x : Ctx) (cs : List (Nat × OField)) (l : Nat) :
    thrAt (commitAll x cs) l = if l ∈ x.lanes then committedThread x cs l (x.thr l) else x.thr l := by
  have hne (g : Grp) (l j : Nat) (h : j ≠ l) : thrAt (commitLane x cs g l) j = thrAt g j := by rw [thrAt_commitLane, if_neg h]
  rw [commitAll_eq]
  split
  · next h =>
    exact foldl_lanes_mem _ (committedThread x cs) hne (fun g l => by rw [thrAt_commitLane, if_pos rfl]) _ _ (lanes_nodup x) _ h
  · next h => exact foldl_lanes_ne _ hne _ _ _ h

theorem commitAll_group {x : Ctx} (hc : x.cond = false) (cs : List (Nat × OField)) : ∃ ths, commitAll x cs = { x.g with threads := ths } := by
  rw [commitAll_eq]
  generalize x.g = g, x.lanes = ls
  induction ls generalizing g with
  | nil => exact ⟨_, rfl⟩
  | cons l ls ih =>
    obtain ⟨ths, h⟩ := commitLane_group hc cs g l
    obtain ⟨ths', h'⟩ := ih (commitLane x cs g l)
    exact ⟨ths', by rw [List.foldl_cons, h', h]⟩

theorem commitAll_conductor {x : Ctx} {l : Nat} (hc : x.cond = true) (hl : x.lanes = [l]) (cs : List (Nat × OField)) :
    commitAll x cs = { x.g with k := cs.foldl (fun k c => tset k c.1 ((x.src l c.2).setWidth 64)) x.g.k } := by
  rw [commitAll_eq, hl]
  exact commitLane_conductor hc cs x.g l

theorem committed_of_v {x : Ctx} (hc : x.cond = false) (hn : n.toNat ≤ 2) {l : Nat} {t : Thread}
    (hv : t.v = (committedThread x (commitsOf va oa vb ob n) l (x.thr l)).v) : Claims.committed va oa vb ob n x l t := by
  intro r
  rw [vAt, hv, committedThread, if_neg (by simp [hc]), tget_foldl_commits 0 _ (x.src l) r hn]
  rfl

theorem kCommitted_of_k {x : Ctx} {l : Nat} (hc : x.cond = true) (hl : x.lanes = [l]) (hn : n.toNat ≤ 2) {h : Grp}
    (hk : h.k = (commitAll x (commitsOf va oa vb ob n)).k) : Claims.kCommitted va oa vb ob n x l h := by
  intro r
  rw [kAt, hk, commitAll_conductor hc hl, tget_foldl_commits 0 _ (fun o => (x.src l o).setWidth 64) r hn]
  rfl

end Sys2Proof.Machine
end

section
/-! SUPPORT. The unit at the end of its clause (06 R122, R127): the run's threads at the fall-through address. -/

namespace Sys2Proof.Machine

theorem thrAt_setPcs {ls : List Nat} (hls : ls.Nodup) (g : Grp) (pc l : Nat) :
    thrAt (setPcs g ls pc) l = if l ∈ ls then { thrAt g l with pc := BitVec.ofNat 48 pc } else thrAt g l := thrAt_modThrs hls ..

theorem setPcs_onlyThreads (g : Grp) (ls : List Nat) (pc : Nat) : setPcs g ls pc = { g with threads := (setPcs g ls pc).threads } :=
  modThrs_onlyThreads ..

/-- The unit after its commits, its clause over and some of its run's threads at the fall-through address. -/
def pastClause (x : Ctx) (cs : List (Nat × OField)) (ls : List Nat) : Grp := setPcs { commitAll x cs with clause := none } ls x.fall

section
variable (x : Ctx) (cs : List (Nat × OField))

theorem thrAt_pastClause {ls : List Nat} (hls : ls.Nodup) (l : Nat) :
    thrAt (pastClause x cs ls) l =
      if l ∈ ls then { thrAt (commitAll x cs) l with pc := BitVec.ofNat 48 x.fall } else thrAt (commitAll x cs) l := thrAt_setPcs hls ..

/-- A thread of the run where all of its run goes to the fall-through address. -/
theorem thrAt_pastClause_lanes {l : Nat} (hl : l ∈ x.lanes) :
    thrAt (pastClause x cs x.lanes) l = { committedThread x cs l (x.thr l) with pc := BitVec.ofNat 48 x.fall } := by
  rw [thrAt_pastClause x cs (lanes_nodup x), if_pos hl, thrAt_commitAll, if_pos hl]

theorem pastClause_v {ls : List Nat} (hls : ls.Nodup) {l : Nat} (hl : l ∈ x.lanes) :
    (thrAt (pastClause x cs ls) l).v = (committedThread x cs l (x.thr l)).v := by
  rw [thrAt_pastClause x cs hls, thrAt_commitAll, if_pos hl]
  split <;> rfl

theorem thrAt_pastClause_other {ls : List Nat} (hls : ls.Nodup) (hsub : ∀ l ∈ ls, l ∈ x.lanes) {l : Nat} (hl : l ∉ x.lanes) :
    thrAt (pastClause x cs ls) l = x.thr l := by
  rw [thrAt_pastClause x cs hls, if_neg (fun h => hl (hsub l h)), thrAt_commitAll, if_neg hl]

theorem pastClause_eq (ls : List Nat) :
    pastClause x cs ls = { commitAll x cs with clause := none, threads := (pastClause x cs ls).threads } := setPcs_onlyThreads ..

theorem pastClause_clause (ls : List Nat) : (pastClause x cs ls).clause = none := by rw [pastClause_eq]

theorem pastClause_k (ls : List Nat) : (pastClause x cs ls).k = (commitAll x cs).k := by rw [pastClause_eq]

end

theorem pastClause_group {x : Ctx} (hc : x.cond = false) (cs : List (Nat × OField)) (ls : List Nat) :
    pastClause x cs ls = { x.g with clause := none, threads := (pastClause x cs ls).threads } := by
  obtain ⟨ths, h⟩ := commitAll_group hc cs
  rw [pastClause_eq, h]

theorem pastClause_conductor {x : Ctx} {l : Nat} (hc : x.cond = true) (hl : x.lanes = [l]) (cs : List (Nat × OField)) (ls : List Nat) :
    pastClause x cs ls = { x.g with clause := none, threads := (pastClause x cs ls).threads, k := (pastClause x cs ls).k } := by
  rw [pastClause_eq, commitAll_conductor hc hl]

/-! ## The outcomes (08 R187, R190, R192) -/

/-- The entry of the tail that a yielded run leaves: it owes the other candidates (01 R21). -/
def yieldedRun (x : Ctx) : TailRun := ⟨x.cl.mask, x.cl.cand &&& ~~~x.cl.mask, x.cl.candP &&& ~~~x.cl.maskP⟩

/-- The unit after a clause that falls through or yields. -/
def stayedUnit (x : Ctx) (cs : List (Nat × OField)) : Grp :=
  { pastClause x cs x.lanes with
    tail := if x.cl.ctl = .fall then (commitAll x cs).tail else (commitAll x cs).tail ++ [yieldedRun x] }

theorem thrAt_stayedUnit (x : Ctx) (cs : List (Nat × OField)) {l : Nat} (hl : l ∈ x.lanes) :
    thrAt (stayedUnit x cs) l = { committedThread x cs l (x.thr l) with pc := BitVec.ofNat 48 x.fall } := thrAt_pastClause_lanes x cs hl

section
variable {s : State} {x : Ctx} (cs : List (Nat × OField))

theorem endClause_of_stay (h : x.cl.ctl = .fall ∨ x.cl.ctl = .yielding) :
    endClause s x (commitAll x cs) = setUnit s x.u (stayedUnit x cs) := by
  unfold stayedUnit
  rcases h with h | h
  · simp only [endClause, h, if_true]
    rw [← pastClause, pastClause_eq]
  · simp only [endClause, h, reduceCtorEq, if_false]
    rw [← pastClause, pastClause_eq]
    rfl

theorem endClause_exits {m : W32} (h : x.cl.ctl = .exits m) :
    endClause s x (commitAll x cs) = exitLanes (setUnit s x.u (pastClause x cs x.lanes)) x.u (maskLanes m) := by
  simp only [endClause, h]
  rfl

theorem endClause_xfers {xs : TMap Xfer} (h : x.cl.ctl = .xfers xs) :
    endClause s x (commitAll x cs) =
      doXfers (setUnit s x.u (pastClause x cs (x.lanes.filter (fun l => !thas xs l)))) x.u (x.cl.head + 4 * x.cl.len) x.cl.head xs := by
  simp only [endClause, h]
  rfl

end

end Sys2Proof.Machine
end

section
/-! SUPPORT. The transfers of a clause (08 R187-R189): no check of a target reads a thread, and a transfer whose targets all pass moves its
threads alone. -/

namespace Sys2Proof.Machine

/-! ## Targets -/

/-- A fetch with another state left by its translation. -/
def Fetch.withState : Fetch → State → Fetch
  | .word w _, s => .word w s
  | f, _ => f

section
variable (s : State) (v : UnitId) (g : Grp)

theorem walkFrom_setUnit (va table l : Nat) : walkFrom (setUnit s v g) va table l = walkFrom s va table l := by
  induction l generalizing table with
  | zero => rfl
  | succ l ih => simp only [walkFrom, ih]; rfl

theorem peek_setUnit (core : Option Nat) (ctx va : Nat) (kind : AccKind) :
    peek (setUnit s v g) core ctx va kind = peek s core ctx va kind := by
  have hroot : rootWalk (setUnit s v g) ctx va = rootWalk s ctx va := walkFrom_setUnit ..
  have hwalk : walkAt (setUnit s v g) core ctx va = walkAt s core ctx va := walkFrom_setUnit ..
  simp only [peek, hroot, hwalk]
  rfl

theorem fetchAt_setUnit (u : UnitId) (va : Nat) : ∃ s', fetchAt (setUnit s v g) u va = (fetchAt s u va).withState s' := by
  refine ⟨(translate (setUnit s v g) (some (teamAt s u.team).core) (teamAt s u.team).ctx va .execute).2, ?_⟩
  unfold fetchAt
  rw [teamAt_setUnit s v g u.team]
  simp only [peek_setUnit]
  split
  · rfl
  · split
    · rfl
    · rfl
    · split
      · rfl
      · split
        · next hbad => rw [if_pos (show hasNat s.badLines _ = true from hbad)]; rfl
        · next hgood => rw [if_neg (show ¬hasNat s.badLines _ = true from hgood)]; rfl

theorem wordAt_setUnit (u : UnitId) (va : Nat) : wordAt (setUnit s v g) u va = wordAt s u va := by
  obtain ⟨s', h⟩ := fetchAt_setUnit s v g u va
  unfold wordAt
  rw [h]
  cases fetchAt s u va <;> rfl

theorem fetchWords_setUnit (u : UnitId) (target : W64) (as : List Nat) :
    fetchWords (setUnit s v g) u target as = fetchWords s u target as := by
  induction as with
  | nil => rfl
  | cons a as ih =>
    obtain ⟨s', h⟩ := fetchAt_setUnit s v g u a
    unfold fetchWords
    rw [h]
    cases fetchAt s u a with
    | word w _ => exact ih
    | fault => rfl
    | bad => rfl

theorem checkTarget_setUnit (u : UnitId) (y : Xfer) : checkTarget (setUnit s v g) u y = checkTarget s u y := by
  simp only [checkTarget, targetWords, fetchWords_setUnit, wordAt_setUnit]

end

/-! ## Threads that transfer -/

/-- A unit whose threads have made their transfers. -/
def afterXfers (base : Nat) (g : Grp) (xs : TMap Xfer) : Grp := xs.foldl (fun g e => modThr g e.1 (takeXfer base e.2)) g

theorem afterXfers_cons (base : Nat) (g : Grp) (e : Nat × Xfer) (xs : TMap Xfer) :
    afterXfers base g (e :: xs) = afterXfers base (modThr g e.1 (takeXfer base e.2)) xs := rfl

theorem afterXfers_onlyThreads (base : Nat) (g : Grp) (xs : TMap Xfer) :
    afterXfers base g xs = { g with threads := (afterXfers base g xs).threads } := by
  induction xs generalizing g with
  | nil => rfl
  | cons e xs ih => rw [afterXfers_cons, ih]; rfl

theorem thrAt_afterXfers_other (base : Nat) (g : Grp) {xs : TMap Xfer} {l : Nat} (hl : l ∉ tkeys xs) :
    thrAt (afterXfers base g xs) l = thrAt g l := by
  induction xs generalizing g with
  | nil => rfl
  | cons e xs ih =>
    obtain ⟨hne, hl⟩ := not_or.mp (mt List.mem_cons.mpr hl)
    rw [afterXfers_cons, ih _ hl, thrAt_modThr_ne _ _ hne]

theorem thrAt_afterXfers_mem (base : Nat) (g : Grp) {xs : TMap Xfer} (hxs : (tkeys xs).Nodup) {e : Nat × Xfer} (he : e ∈ xs) :
    thrAt (afterXfers base g xs) e.1 = takeXfer base e.2 (thrAt g e.1) := by
  induction xs generalizing g with
  | nil => exact absurd he List.not_mem_nil
  | cons a xs ih =>
    obtain ⟨ha, hxs⟩ := List.nodup_cons.mp hxs
    rw [afterXfers_cons]
    rcases List.mem_cons.mp he with rfl | he
    · rw [thrAt_afterXfers_other _ _ ha, thrAt_modThr_same]
    · have hne : e.1 ≠ a.1 := fun h => ha (List.mem_map.mpr ⟨e, he, h⟩)
      rw [ih _ hxs he, thrAt_modThr_ne _ _ hne]

theorem takeXfer_v (base : Nat) (y : Xfer) (t : Thread) : (takeXfer base y t).v = t.v := by
  cases hy : y.link with
  | none => simp [takeXfer, hy]
  | push k => simp only [takeXfer, hy, pushLink]; split <;> rfl
  | pop => simp only [takeXfer, hy, popLink]; split <;> rfl

theorem afterXfers_v (base : Nat) (g : Grp) (xs : TMap Xfer) (l : Nat) : (thrAt (afterXfers base g xs) l).v = (thrAt g l).v := by
  induction xs generalizing g with
  | nil => rfl
  | cons e xs ih =>
    rw [afterXfers_cons, ih, thrAt_modThr]
    split
    · next h => rw [h, takeXfer_v]
    · rfl

/-- A thread's transfer as 02 R49 states it, from a thread with the old one's return stack. -/
theorem transferred_takeXfer (x : Ctx) (base : Nat) (y : Xfer) {old t : Thread} (hl : t.links = old.links) (hs : t.spilled = old.spilled) :
    Claims.transferred x y old (takeXfer base y t) := by
  refine ⟨?_, ?_, ?_, ?_, ?_, ?_⟩
  · rw [← BitVec.setWidth_eq_extractLsb' (by decide)]; rfl
  · intro hy; simp [takeXfer, hy, hl, hs]
  · intro k hy hlen; simp [takeXfer, hy, pushLink, hl, hs, Config.returnEntries, hlen]
  · intro k hy hlen; simp [takeXfer, hy, pushLink, hl, hs, Config.returnEntries, Nat.not_lt.mpr hlen]
  · intro k r hy hlinks; simp [takeXfer, hy, popLink, hl, hlinks, hs]
  · intro hy hlinks; simp [takeXfer, hy, popLink, hl, hlinks, hs]

/-- Transfers whose targets all pass: each thread makes its own, and no more happens. -/
theorem doXfers_of_ok {s : State} {u : UnitId} {xs : TMap Xfer} (hok : ∀ e ∈ xs, checkTarget s u e.2 = .ok) (pc cstart : Nat) :
    doXfers s u pc cstart xs = setUnit s u (afterXfers (teamAt s u.team).privBytes (unitAt s u) xs) := by
  have hrs : xs.map (fun e => (e.1, e.2, checkTarget s u e.2)) = xs.map (fun e => (e.1, e.2, Target.ok)) :=
    List.map_congr_left (fun e he => by rw [hok e he])
  unfold doXfers
  simp only [hrs]
  simp [List.filter_map, List.filterMap_map, Function.comp_def, argMin, dedupNat, modUnit, List.foldl_map, afterXfers]

theorem xfersFit_of_ok {s : State} {u : UnitId} {xs : TMap Xfer} (hok : ∀ e ∈ xs, checkTarget s u e.2 = .ok) (hroom : s.faultBuf.length ≤ 4096) :
    xfersFit s u (.xfers xs) = true := by
  unfold xfersFit
  dsimp only
  rw [List.filterMap_congr (g := fun _ => none) (fun e he => ?_)]
  · simpa [dedupNat, Config.faultRecords] using hroom
  · rw [hok e he]

end Sys2Proof.Machine
end

section
/-! SUPPORT. The comparison of a lockstep team that differs (17 R387): nothing of the clause leaves, and the team stops with a record. -/

namespace Sys2Proof.Machine

/-! ## The least of a list -/

theorem argMin_mem {α : Type} {f : α → Nat} {l : List α} {b : α} (h : argMin f l = some b) : b ∈ l := by
  induction l with
  | nil => cases h
  | cons a l ih =>
    unfold argMin at h
    split at h
    · exact List.mem_cons.mpr (.inl (Option.some.inj h).symm)
    · next y hy =>
      split at h
      · exact List.mem_cons_of_mem _ (ih (hy.trans h))
      · exact List.mem_cons.mpr (.inl (Option.some.inj h).symm)

theorem argMin_least {α : Type} (f : α → Nat) {l : List α} {a : α} (ha : a ∈ l) : ∃ b ∈ l, argMin f l = some b ∧ f b ≤ f a := by
  induction l with
  | nil => exact absurd ha List.not_mem_nil
  | cons c l ih =>
    suffices h : ∃ b, argMin f (c :: l) = some b ∧ f b ≤ f a from
      h.elim fun b hb => ⟨b, argMin_mem hb.1, hb⟩
    unfold argMin
    rcases List.mem_cons.mp ha with rfl | ha
    · cases argMin f l with
      | none => exact ⟨a, rfl, le_rfl⟩
      | some y =>
        by_cases hlt : f y < f a
        · exact ⟨y, if_pos hlt, hlt.le⟩
        · exact ⟨a, if_neg hlt, le_rfl⟩
    · obtain ⟨y, -, hy, hle⟩ := ih ha
      rw [hy]
      by_cases hlt : f y < f c
      · exact ⟨y, if_pos hlt, hle⟩
      · exact ⟨c, if_neg hlt, (not_lt.mp hlt).trans hle⟩

/-! ## The thread that differs -/

section
variable {s : State} {u : UnitId} {cl : Clause}

theorem firstUpset_none (h : ∀ a ∈ (teamAt s u.team).upsets, a.unit = u.idx → cl.mask.getLsbD a.lane = false) : firstUpset s u cl = none := by
  have hnone : (teamAt s u.team).upsets.filter (fun a => a.unit == u.idx && cl.mask.getLsbD a.lane) = [] :=
    List.filter_eq_nil_iff.mpr (fun a ha => by simpa using h a ha)
  simp [firstUpset, hnone, argMin]

/-- Where a thread of the clause differs, the lowest one is found, with an outbound address of the clause that differs, or 0. -/
theorem firstUpset_some {a : Upset} (ha : a ∈ (teamAt s u.team).upsets) (hu : a.unit = u.idx) (hl : cl.mask.getLsbD a.lane = true) :
    ∃ b ∈ (teamAt s u.team).upsets, b.unit = u.idx ∧ b.lane ≤ a.lane ∧ ∃ addr, firstUpset s u cl = some { b with addr := addr } ∧
      (addr = 0 ∨ ∃ c ∈ (teamAt s u.team).upsets, c.unit = u.idx ∧ cl.mask.getLsbD c.lane = true ∧ addr = c.addr) := by
  obtain ⟨b, hb, hmin, hle⟩ := argMin_least (fun a : Upset => a.lane)
    (List.mem_filter.mpr ⟨ha, by simp [hu, hl]⟩ : a ∈ (teamAt s u.team).upsets.filter (fun a => a.unit == u.idx && cl.mask.getLsbD a.lane))
  obtain ⟨hb, hbu⟩ := List.mem_filter.mp hb
  simp only [Bool.and_eq_true, beq_iff_eq] at hbu
  refine ⟨b, hb, hbu.1, hle, _, by rw [firstUpset, hmin]; rfl, ?_⟩
  cases hc : ((teamAt s u.team).upsets.filter (fun a => a.unit == u.idx && cl.mask.getLsbD a.lane)).find? (fun b => b.addr != 0) with
  | none => exact .inl rfl
  | some c =>
    obtain ⟨hc, hcu⟩ := List.mem_filter.mp (List.mem_of_find?_eq_some hc)
    simp only [Bool.and_eq_true, beq_iff_eq] at hcu
    exact .inr ⟨c, hc, hcu.1, hcu.2, rfl⟩

end

/-! ## What a trap record's write keeps -/

theorem stores_testWaits (s : State) (u : UnitId) : (unitAt (testWaits s) u).stores = (unitAt s u).stores := by
  unfold unitAt teamAt testWaits tget
  simp only [tget?_tmap]
  cases tget? s.teams u.team with
  | none => rfl
  | some t =>
    simp only [Option.map_some, Option.getD_some, tget?_tmap]
    cases tget? t.units u.idx <;> rfl

theorem stores_homeWrite (s : State) (ws : Writes) (u : UnitId) : (unitAt (homeWrite s ws) u).stores = (unitAt s u).stores := by
  unfold homeWrite
  split
  · rfl
  · rw [stores_testWaits, unitAt, teamAt, wakeQueues_teams]; rfl

theorem homeWrite_readyPool (s : State) (ws : Writes) : (homeWrite s ws).readyPool = s.readyPool := by
  unfold homeWrite
  split
  · rfl
  · exact wakeQueues_keeps (·.readyPool) (fun _ _ => rfl) (fun s a b => by unfold queueErrorLog; split <;> rfl) _ _

theorem stores_writeTrapRec (s : State) (v : UnitId) (r : TrapRec) (u : UnitId) :
    (unitAt (writeTrapRec s v r) u).stores = (unitAt s u).stores := by
  unfold writeTrapRec
  dsimp only
  split
  · exact stores_homeWrite ..
  · rfl

theorem writeTrapRec_readyPool (s : State) (v : UnitId) (r : TrapRec) : (writeTrapRec s v r).readyPool = s.readyPool := by
  unfold writeTrapRec
  dsimp only
  split
  · exact homeWrite_readyPool ..
  · rfl

/-! ## A team that stops with a record -/

/-- A team's stop: its units keep their stores, then the record enters the fault log and barriers are tested. -/
theorem stopTeam_eq (s : State) (u : UnitId) (r : TrapRec) :
    ∃ s2, stopTeam s u.team (some (u, r)) = checkBars (faultLogAdd s2 u r) u.team ∧ (teamAt s2 u.team).stopped = true ∧
      s2.readyPool = s.readyPool ∧ ∀ v, (unitAt s2 v).stores = (unitAt s v).stores := by
  refine ⟨_, rfl, by simp [teamAt, modGrid, modTeam], rfl, fun v => ?_⟩
  unfold unitAt
  by_cases h : v.team = u.team
  · rw [h]
    simp only [teamAt, modGrid_teams, modTeam, tget_tset_same]
    unfold tget
    rw [tget?_tmap]
    cases tget? ((tget? s.teams u.team).getD {}).units v.idx <;> rfl
  · simp only [teamAt, modGrid_teams, modTeam, tget_tset_ne _ _ _ h]

theorem faultLogAdd_faultLog (s : State) (u : UnitId) (r : TrapRec) :
    (ctxAt (faultLogAdd s u r) r.ctx).faultLog = (ctxAt s r.ctx).faultLog ++ [r] :=
  congrArg Context.faultLog (ctxAt_modCtx_same s r.ctx (fun c => { c with faultLog := c.faultLog ++ [r] }))

/-- A fatal trap: the team is stopped, the record is in its context's fault log, and no unit's stores and no entry of the ready pool have
changed. -/
theorem trapDeliver_fatal {s : State} {u : UnitId} {r : TrapRec} (hr : trapIsFatal s u r = true) :
    (teamAt (trapDeliver s u r) u.team).stopped = true ∧ r ∈ (ctxAt (trapDeliver s u r) r.ctx).faultLog ∧
      (trapDeliver s u r).readyPool = s.readyPool ∧ ∀ v, (unitAt (trapDeliver s u r) v).stores = (unitAt s v).stores := by
  obtain ⟨s2, heq, hstop, hpool, hstores⟩ := stopTeam_eq (report (writeTrapRec s u r) r) u r
  have hdeliver : trapDeliver s u r = checkBars (faultLogAdd s2 u r) u.team := by rw [← heq, trapDeliver, if_pos hr]
  have hbars := BarsTested.checkBars (faultLogAdd s2 u r) u.team
  obtain ⟨_, _, _, _, hframe⟩ := hbars.frame
  rw [hdeliver]
  refine ⟨(hbars.stopped _).trans hstop, ?_, ?_, fun v => ?_⟩
  · have hctx : ctxAt (checkBars (faultLogAdd s2 u r) u.team) r.ctx = ctxAt (faultLogAdd s2 u r) r.ctx := by rw [hframe]; rfl
    rw [hctx, faultLogAdd_faultLog]
    exact List.mem_append_right _ (List.mem_singleton.mpr rfl)
  · have hbefore : (checkBars (faultLogAdd s2 u r) u.team).readyPool = s2.readyPool := by rw [hframe]; rfl
    rw [hbefore, hpool, report_readyPool, writeTrapRec_readyPool]
  · exact (hbars.units v).stores_eq.trans ((hstores v).trans (stores_writeTrapRec s u r v))

/-! ## What the clause sent out, taken back -/

theorem not_hasNat_iff {l : List Nat} {i : Nat} : (!hasNat l i) = true ↔ i ∉ l := by
  rw [Bool.not_eq_true', hasNat, List.any_beq', List.contains_eq_mem, decide_eq_false_iff_not]

section
variable (s : State) (u : UnitId) (ids : List Nat)

theorem discard_teams : (discard s u ids).teams =
    (setUnit s u { unitAt s u with stores := (unitAt s u).stores.filter (fun p => !hasNat ids p.id) }).teams := by
  unfold discard
  exact foldl_keeps _ (·.teams) (fun s g => by split <;> rfl) _ _

theorem discard_readyPool : (discard s u ids).readyPool = s.readyPool.filter (fun id => !hasNat ids id) := by
  unfold discard
  exact congrArg (List.filter _) (foldl_keeps _ (·.readyPool) (fun s g => by split <;> rfl) _ _)

theorem teamAt_discard : teamAt (discard s u ids) u.team = { teamAt s u.team with units := (teamAt (discard s u ids) u.team).units } := by
  rw [teamAt, discard_teams]
  exact teamAt_setUnit ..

theorem stores_discard : (unitAt (discard s u ids) u).stores = (unitAt s u).stores.filter (fun p => !hasNat ids p.id) := by
  rw [unitAt, teamAt, discard_teams]
  exact congrArg Grp.stores (unitAt_setUnit_same ..)

end

/-- The record of a comparison that differs in a thread of a clause. -/
def mismatchRec (s : State) (u : UnitId) (pc : Nat) (cl : Clause) (a : Upset) : TrapRec :=
  mkRec (discard s u cl.outs) u pc cl.head .pairMismatch 0 (laneMask [a.lane]) a.addr

theorem mismatchRec_place (s : State) (u : UnitId) (pc : Nat) (cl : Clause) (a : Upset) :
    (mismatchRec s u pc cl a).ctx = (teamAt s u.team).ctx ∧ (mismatchRec s u pc cl a).core = (teamAt s u.team).core := by
  unfold mismatchRec mkRec
  rw [teamAt_discard]
  exact ⟨rfl, rfl⟩

theorem pairMismatch_stops (s : State) (u : UnitId) (pc : Nat) (cl : Clause) (a : Upset) :
    (teamAt (pairMismatch s u pc cl a) u.team).stopped = true ∧ (pairMismatch s u pc cl a).supervisor.pairErr = true ∧
      (∀ p ∈ (unitAt (pairMismatch s u pc cl a) u).stores, p.id ∉ cl.outs) ∧ (∀ g ∈ cl.outs, g ∉ (pairMismatch s u pc cl a).readyPool) ∧
      mismatchRec s u pc cl a ∈ (ctxAt (pairMismatch s u pc cl a) (teamAt s u.team).ctx).faultLog := by
  have hfatal : trapIsFatal (discard s u cl.outs) u (mismatchRec s u pc cl a) = true := by simp [trapIsFatal, mismatchRec, mkRec]
  obtain ⟨hstop, hlog, hpool, hstores⟩ := trapDeliver_fatal hfatal
  rw [(mismatchRec_place s u pc cl a).1] at hlog
  refine ⟨hstop, rfl, fun p hp => ?_, fun g hg hmem => ?_, hlog⟩
  · have hp : p ∈ (unitAt (discard s u cl.outs) u).stores := by rw [← hstores u]; exact hp
    rw [stores_discard] at hp
    exact not_hasNat_iff.mp (List.mem_filter.mp hp).2
  · have hmem : g ∈ (discard s u cl.outs).readyPool := by rw [← hpool]; exact hmem
    rw [discard_readyPool] at hmem
    exact not_hasNat_iff.mp (List.mem_filter.mp hmem).2 hg

end Sys2Proof.Machine
end

section
/-! SUPPORT. The trailer that passes its checks (06 R124, R131, 02 R57): the clause ends, or its comparison differs. -/

namespace Sys2Proof.Machine

open Claims

section
variable {va : VIdx} {oa : OField} {vb : VIdx} {ob : OField} {n : BitVec 2} {s : State} {x : Ctx}

/-- The registers that commits write lie below a bound that the trailer's indices lie below. -/
theorem commitsOf_lt (hn : n.toNat ≤ 2) {bound : Nat} (hfit : (1 ≤ n.toNat → va.toNat < bound) ∧ (n.toNat = 2 → vb.toNat < bound)) :
    ∀ c ∈ commitsOf va oa vb ob n, c.1 < bound := by
  obtain ⟨hva, hvb⟩ := hfit
  rw [commitsOf_eq va oa vb ob hn]
  split
  · next h => simpa using ⟨hva (by omega), hvb h⟩
  · split
    · next h => simpa using hva h
    · simp

theorem exec_clauseTrailer (hp : passesTrailer va oa vb ob n s x) :
    exec (.clauseTrailer va oa vb ob n) s =
      (firstUpset s x.u x.cl).elim
        (if !xfersFit s x.u x.cl.ctl then .next s else .next (endClause s x (commitAll x (commitsOf va oa vb ob n))))
        (fun a => .next (pairMismatch s x.u x.pc x.cl a)) := by
  obtain ⟨hx, hdec, hnext, hn, hwf, hfit⟩ := hp
  have hcount : n ≠ 3#2 := fun h => by subst h; exact absurd hn (by decide)
  have hk : (x.cond && (commitsOf va oa vb ob n).any (fun c => decide (64 ≤ c.1))) = false := by
    cases hc : x.cond with
    | false => rfl
    | true =>
      rw [if_pos hc] at hfit
      simpa using fun r o h => commitsOf_lt hn hfit (r, o) h
  have hshare : shareOk x ((commitsOf va oa vb ob n).map (·.1)) = true := by
    unfold shareOk
    cases hc : x.cond with
    | true => rfl
    | false =>
      rw [if_neg (by simp [hc])] at hfit
      simpa using fun r o h => commitsOf_lt hn hfit (r, o) h
  change execClauseTrailer va oa vb ob n s = _
  cases hdiffers : firstUpset s x.u x.cl with
  | some a => simp [execClauseTrailer, hx, hdec, hnext, hcount, hwf, hk, hshare, hdiffers]
  | none => cases hroom : xfersFit s x.u x.cl.ctl <;> simp [execClauseTrailer, hx, hdec, hnext, hcount, hwf, hk, hshare, hdiffers, hroom]

theorem exec_clauseTrailer_ends (ht : atTrailer va oa vb ob n s x) (hfit : xfersFit s x.u x.cl.ctl = true) :
    exec (.clauseTrailer va oa vb ob n) s = .next (endClause s x (commitAll x (commitsOf va oa vb ob n))) := by
  obtain ⟨hp, hequal⟩ := ht
  have hteam := issuing_team hp.1
  rw [exec_clauseTrailer hp, firstUpset_none (by rw [← hteam]; exact hequal), hfit, Option.elim_none]
  rfl

theorem exec_clauseTrailer_differs (hp : passesTrailer va oa vb ob n s x) {a : Upset} (h : firstUpset s x.u x.cl = some a) :
    exec (.clauseTrailer va oa vb ob n) s = .next (pairMismatch s x.u x.pc x.cl a) := by
  rw [exec_clauseTrailer hp, h, Option.elim_some]

end

/-! ## The outcomes of a clause that ends -/

section
variable {va : VIdx} {oa : OField} {vb : VIdx} {ob : OField} {n : BitVec 2} {s : State} {x : Ctx}

theorem exec_clauseTrailer_stays (ht : atTrailer va oa vb ob n s x) (hctl : x.cl.ctl = .fall ∨ x.cl.ctl = .yielding) :
    exec (.clauseTrailer va oa vb ob n) s = .next (setUnit s x.u (stayedUnit x (commitsOf va oa vb ob n))) := by
  have hfit : xfersFit s x.u x.cl.ctl = true := by rcases hctl with h | h <;> rw [h] <;> rfl
  rw [exec_clauseTrailer_ends ht hfit, endClause_of_stay _ hctl]

/-- The lanes of a run that make no transfer of their own. -/
def staying (x : Ctx) (xs : TMap Xfer) : List Nat := x.lanes.filter (fun l => !thas xs l)

theorem thas_iff {α : Type} {m : TMap α} {k : Nat} : thas m k = true ↔ k ∈ tkeys m := by
  induction m with
  | nil => simp [thas, tget?, tkeys]
  | cons e m ih =>
    by_cases h : e.1 = k
    · simp [thas, tget?, tkeys, h]
    · rw [thas, tget?, if_neg h, ← thas, ih]
      simp [tkeys, Ne.symm h]

theorem mem_staying {x : Ctx} {xs : TMap Xfer} {l : Nat} : l ∈ staying x xs ↔ l ∈ x.lanes ∧ l ∉ tkeys xs := by
  rw [staying, List.mem_filter, Bool.not_eq_true', Bool.eq_false_iff, ne_eq, thas_iff]

theorem staying_nodup (x : Ctx) (xs : TMap Xfer) : (staying x xs).Nodup := (lanes_nodup x).filter _

/-- The unit after a clause whose transfers all pass. -/
def transferredUnit (x : Ctx) (cs : List (Nat × OField)) (xs : TMap Xfer) : Grp :=
  afterXfers x.t.privBytes (pastClause x cs (staying x xs)) xs

section
variable (x : Ctx) (cs : List (Nat × OField)) (xs : TMap Xfer)

theorem transferredUnit_eq :
    transferredUnit x cs xs = { pastClause x cs (staying x xs) with threads := (transferredUnit x cs xs).threads } := afterXfers_onlyThreads ..

theorem transferredUnit_clause : (transferredUnit x cs xs).clause = none := by rw [transferredUnit_eq, pastClause_eq]

theorem transferredUnit_k : (transferredUnit x cs xs).k = (commitAll x cs).k := by rw [transferredUnit_eq, pastClause_eq]

theorem thrAt_transferredUnit_v {l : Nat} (hl : l ∈ x.lanes) :
    (thrAt (transferredUnit x cs xs) l).v = (committedThread x cs l (x.thr l)).v :=
  (afterXfers_v ..).trans (pastClause_v x cs (staying_nodup x xs) hl)

theorem thrAt_transferredUnit_staying {l : Nat} (hl : l ∈ x.lanes) (hxs : l ∉ tkeys xs) :
    thrAt (transferredUnit x cs xs) l = { committedThread x cs l (x.thr l) with pc := BitVec.ofNat 48 x.fall } := by
  rw [transferredUnit, thrAt_afterXfers_other _ _ hxs, thrAt_pastClause x cs (staying_nodup x xs), if_pos (mem_staying.mpr ⟨hl, hxs⟩),
    thrAt_commitAll, if_pos hl]

theorem thrAt_transferredUnit_other (hin : ∀ e ∈ xs, e.1 ∈ x.lanes) {l : Nat} (hl : l ∉ x.lanes) :
    thrAt (transferredUnit x cs xs) l = x.thr l := by
  have hxs : l ∉ tkeys xs := fun h => by
    obtain ⟨e, he, rfl⟩ := List.mem_map.mp h
    exact hl (hin e he)
  rw [transferredUnit, thrAt_afterXfers_other _ _ hxs]
  exact thrAt_pastClause_other x cs (staying_nodup x xs) (fun j h => (mem_staying.mp h).1) hl

theorem thrAt_transferredUnit_mem (hkeys : (tkeys xs).Nodup) {e : Nat × Xfer} (he : e ∈ xs) (hl : e.1 ∈ x.lanes) :
    thrAt (transferredUnit x cs xs) e.1 = takeXfer x.t.privBytes e.2 (committedThread x cs e.1 (x.thr e.1)) := by
  have hgone : e.1 ∉ staying x xs := fun h => (mem_staying.mp h).2 (List.mem_map_of_mem he)
  rw [transferredUnit, thrAt_afterXfers_mem _ _ hkeys he, thrAt_pastClause x cs (staying_nodup x xs), if_neg hgone, thrAt_commitAll, if_pos hl]

end

theorem exec_clauseTrailer_transfers {xs : TMap Xfer} (ht : atTrailer va oa vb ob n s x) (hctl : x.cl.ctl = .xfers xs)
    (hroom : s.faultBuf.length ≤ 4096) (hok : ∀ e ∈ xs, checkTarget s x.u e.2 = .ok) :
    exec (.clauseTrailer va oa vb ob n) s = .next (setUnit s x.u (transferredUnit x (commitsOf va oa vb ob n) xs)) := by
  have hteam : (teamAt (setUnit s x.u (pastClause x (commitsOf va oa vb ob n) (staying x xs))) x.u.team).privBytes = x.t.privBytes := by
    rw [teamAt_setUnit, issuing_team ht.1.1]
  rw [exec_clauseTrailer_ends ht (by rw [hctl]; exact xfersFit_of_ok hok hroom), endClause_xfers _ hctl, ← staying,
    doXfers_of_ok (fun e he => (checkTarget_setUnit ..).trans (hok e he)), hteam, unitAt_setUnit_same, setUnit_overwrite]
  rfl

theorem exec_clauseTrailer_exits {m : W32} (ht : atTrailer va oa vb ob n s x) (hctl : x.cl.ctl = .exits m) :
    exec (.clauseTrailer va oa vb ob n) s =
      .next (exitLanes (setUnit s x.u (pastClause x (commitsOf va oa vb ob n) x.lanes)) x.u (maskLanes m)) := by
  rw [exec_clauseTrailer_ends ht (by rw [hctl]; rfl), endClause_exits _ hctl]

end

/-! ## The unit after an exit -/

section
variable (s : State) (u : UnitId) {ls : List Nat}

theorem exitLanes_clause : (unitAt (exitLanes s u ls) u).clause = (unitAt s u).clause := by
  obtain ⟨g, hwaits, hclause, -⟩ := exitLanes_unit s u ls
  rw [hwaits.clause_eq, hclause]

/-- A thread after an exit, but for a status that the end of its wait writes. -/
theorem thrAt_exitLanes (hls : ls.Nodup) (l : Nat) :
    ∃ lt o, thrAt (unitAt (exitLanes s u ls) u) l =
      { (if l ∈ ls then exitedThread (thrAt (unitAt s u) l) else thrAt (unitAt s u) l) with lt := lt, t := o } := by
  obtain ⟨g, hwaits, -, -, hthreads, -⟩ := exitLanes_unit s u ls
  obtain ⟨lt, o, h⟩ := hwaits.thread l
  have hl : thrAt g l = thrAt (modThrs (unitAt s u) ls (fun _ => exitedThread)) l := by rw [thrAt, hthreads, thrAt]
  exact ⟨lt, o, by rw [h, hl, thrAt_modThrs hls]⟩

theorem exitLanes_k (h : (unitAt s u).blocked = [] ∨ ∀ l ∈ liveLanes (unitAt s u), l ∈ ls) :
    (unitAt (exitLanes s u ls) u).k = (unitAt s u).k := by
  obtain ⟨g, hwaits, -, hk, -, hidle⟩ := exitLanes_unit s u ls
  rw [hwaits.idle (hidle (h.imp_right liveLanes_exited)), hk]

end

theorem pastClause_blocked (x : Ctx) (cs : List (Nat × OField)) (ls : List Nat) {l : Nat} (hc : x.cond = true) (hl : x.lanes = [l]) :
    (pastClause x cs ls).blocked = x.g.blocked := by rw [pastClause_conductor hc hl]

/-- A conductor whose one live thread is its run's has no other live thread after its commits. -/
theorem mem_liveLanes_pastClause {x : Ctx} {cs : List (Nat × OField)} {l j : Nat} (hc : x.cond = true) (hl : x.lanes = [l])
    (hlive : liveLanes x.g = [l]) (hj : j ∈ liveLanes (pastClause x cs x.lanes)) : j = l := by
  obtain ⟨e, he, rfl⟩ := List.mem_map.mp hj
  obtain ⟨he, helive⟩ := List.mem_filter.mp he
  rw [pastClause, commitAll_conductor hc hl, hl] at he
  rcases mem_modThrs_threads he with ⟨i, hi, t, rfl⟩ | ⟨he, -⟩
  · exact List.mem_singleton.mp hi
  · have hmem : e.1 ∈ liveLanes x.g := List.mem_map_of_mem (List.mem_filter.mpr ⟨he, helive⟩)
    rw [hlive] at hmem
    exact List.mem_singleton.mp hmem

end Sys2Proof.Machine
end

section
/-! The trailer (06 R124): one case for each outcome of the clause. -/

namespace Sys2Proof.Claims

open Sys2Proof.Machine

theorem passesTrailer_count {va : VIdx} {oa : OField} {vb : VIdx} {ob : OField} {n : BitVec 2} {s : State} {x : Ctx}
    (hp : passesTrailer va oa vb ob n s x) : n.toNat ≤ 2 := by
  obtain ⟨-, -, -, hn, -⟩ := hp
  exact hn

theorem onlyUnit_setUnit (s : State) (u : UnitId) (g : Grp) : onlyUnit s (setUnit s u g) u := by simp [onlyUnit]

/-- Settles O27: a clause that ends writes its commits and its run's next addresses in one unit (`stayedUnit`, `transferredUnit`, or
`pastClause` before the exit of lanes), and a clause whose comparison differs is discarded before its team stops. -/
theorem trailerCommitsThenContinues : Obligations.TrailerCommitsThenContinues := by
  unfold Obligations.TrailerCommitsThenContinues
  refine ⟨?group, ?conductor, ?transfers, ?exits, ?differs⟩
  case group =>
    intro va oa vb ob n s x ht hc hctl
    have hn := passesTrailer_count ht.1
    obtain ⟨ths, htail⟩ := commitAll_group hc (commitsOf va oa vb ob n)
    refine ⟨_, exec_clauseTrailer_stays ht hctl, onlyUnit_setUnit .., ?_, fun l => ⟨fun hl => ?_, fun hl => ?_⟩⟩ <;> rw [unitAt_setUnit_same]
    · rw [stayedUnit, pastClause_group hc, htail]
      rfl
    · rw [thrAt_stayedUnit x _ hl]
      exact ⟨committed_of_v hc hn rfl, rfl⟩
    · exact thrAt_pastClause_other x _ (lanes_nodup x) (fun _ h => h) hl
  case conductor =>
    intro va oa vb ob n s x l ht hc hl hctl
    have hn := passesTrailer_count ht.1
    refine ⟨_, exec_clauseTrailer_stays ht hctl, onlyUnit_setUnit .., ?_, ?_, ?_⟩ <;> rw [unitAt_setUnit_same]
    · rw [stayedUnit, pastClause_conductor hc hl, commitAll_conductor hc hl]
      rfl
    · exact kCommitted_of_k hc hl hn (pastClause_k ..)
    · rw [thrAt_stayedUnit x _ (by simp [hl]), committedThread, if_pos hc]
      rfl
  case transfers =>
    intro va oa vb ob n s x xs ht hctl hkeys hroom hin hok
    have hn := passesTrailer_count ht.1
    refine ⟨_, exec_clauseTrailer_transfers ht hctl hroom hok, onlyUnit_setUnit .., ?_⟩
    rw [unitAt_setUnit_same]
    refine ⟨transferredUnit_clause .., fun l => thrAt_transferredUnit_other x _ xs hin,
      fun hc l hl => committed_of_v hc hn (thrAt_transferredUnit_v x _ xs hl),
      fun l hc hl => kCommitted_of_k hc hl hn (transferredUnit_k ..), fun l hl hxs => ?_, fun e he => ?_⟩
    · rw [thrAt_transferredUnit_staying x _ xs hl hxs]
      exact ⟨rfl, rfl⟩
    · rw [thrAt_transferredUnit_mem x _ xs hkeys he (hin e he)]
      exact transferred_takeXfer x _ e.2 rfl rfl
  case exits =>
    intro va oa vb ob n s x m ht hctl
    have hn := passesTrailer_count ht.1
    have hthread (l : Nat) := thrAt_exitLanes (setUnit s x.u (pastClause x (commitsOf va oa vb ob n) x.lanes)) x.u (maskLanes_nodup m) l
    simp only [unitAt_setUnit_same, mem_maskLanes] at hthread
    refine ⟨_, exec_clauseTrailer_exits ht hctl, by simp, ?_, fun l hlt hm => ?_, fun hc l hl => ?_, fun l hc hl hidle => ?_, fun l hl hm => ?_⟩
    · rw [exitLanes_clause, unitAt_setUnit_same, pastClause_clause]
    · obtain ⟨lt, o, h⟩ := hthread l
      rw [h, if_pos ⟨hlt, hm⟩]
      rfl
    · obtain ⟨lt, o, h⟩ := hthread l
      refine committed_of_v hc hn ?_
      rw [h, thrAt_pastClause_lanes x _ hl]
      split <;> rfl
    · refine kCommitted_of_k hc hl hn ?_
      rw [exitLanes_k, unitAt_setUnit_same, pastClause_k]
      rw [unitAt_setUnit_same, pastClause_blocked x _ _ hc hl]
      refine hidle.imp_right fun ⟨hlive, hm⟩ j hj => ?_
      obtain rfl := mem_liveLanes_pastClause hc hl hlive hj
      exact mem_maskLanes.mpr ⟨(mem_maskLanes.mp (show j ∈ maskLanes x.cl.mask by rw [← Ctx.lanes, hl]; simp)).1, hm⟩
    · obtain ⟨lt, o, h⟩ := hthread l
      rw [h, if_neg (by simp [hm]), thrAt_pastClause_lanes x _ hl]
      exact ⟨rfl, rfl, rfl⟩
  case differs =>
    intro va oa vb ob n s x a hp ha hu hl
    have hteam := issuing_team hp.1
    obtain ⟨b, hb, hbu, hle, addr, hfirst, haddr⟩ := firstUpset_some (s := s) (u := x.u) (by rw [← hteam]; exact ha) hu hl
    obtain ⟨hstop, hpair, hstores, hpool, hlog⟩ := pairMismatch_stops s x.u x.pc x.cl { b with addr := addr }
    rw [← hteam] at hb haddr hlog
    refine ⟨_, exec_clauseTrailer_differs hp hfirst, hstop, hpair, hstores, hpool, _, hlog, rfl, rfl, ?_, ⟨b, hb, rfl, hbu, hle⟩, haddr⟩
    rw [hteam]
    exact (mismatchRec_place ..).2

end Sys2Proof.Claims
end

section
/-! SUPPORT. From the shapes of short-latency words to the statements about them: a word that is a fold over its participants meets
laneEffect, and the shapes with one, two and three sources say which result each participant writes (07 R152-R157). -/

namespace Sys2Proof.Claims

open Sys2Proof.Machine

/-! ## k registers of the three shapes -/

theorem kAt_writeO (cond : Bool) (gr : Grp) (l : Nat) (d : OField) (v lt : W32) (n : Nat) :
    kAt (writeO cond gr l d v lt) n = if cond = true ∧ n = d.toNat ∧ n ≤ 11 then v.setWidth 64 else kAt gr n := by
  by_cases hw : cond = true ∧ d.toNat ≤ 11
  · obtain ⟨rfl, hd⟩ := hw
    rw [kAt_writeO_cond gr l hd]
    exact if_congr ⟨fun hn => ⟨rfl, hn, hn ▸ hd⟩, fun h => h.2.1⟩ rfl rfl
  · have hkeeps : (decide (d.toNat ≤ 11) && cond) = false := by grind
    rw [if_neg (by grind), writeO, hkeeps]
    rfl

theorem kAt_write64 (cond : Bool) (gr : Grp) (l : Nat) (d : OField) (w : W64) (n : Nat) :
    kAt (write64 cond gr l d w) n = if cond = true ∧ n = d.toNat ∧ n ≤ 11 then w else kAt gr n := by
  cases cond with
  | true => rw [kAt_write64_cond]; simp
  | false =>
    rw [if_neg (by simp), write64]
    split <;> rfl

/-- A fold whose steps leave the k registers leaves them. -/
theorem foldl_keeps_k {step : Grp → Nat → Grp} (hstep : ∀ gr l, (step gr l).k = gr.k) (ls : List Nat) (gr : Grp) :
    (ls.foldl step gr).k = gr.k := by
  induction ls generalizing gr with
  | nil => rfl
  | cons l ls ih => rw [List.foldl_cons, ih, hstep]

/-! ## Threads of the three shapes -/

theorem wrote32_afterO_flags (cond : Bool) (d : OField) (w : W32) (fl : BitVec 5) (t : Thread) :
    wrote32 cond d w fl t { afterO cond d w w t with fpstat := t.fpstat ||| fl } := ⟨rfl, afterO_t cond d w w t⟩

theorem wrote64_after64 (cond : Bool) (d : OField) (w : W64) (t : Thread) : wrote64 cond d w t (after64 cond d w t) := by
  refine ⟨?_, fun n => ?_⟩
  · rw [← BitVec.setWidth_eq_extractLsb' (by decide)]
    rfl
  · by_cases hw : cond = false ∧ d.toNat ≤ 11
    · obtain ⟨rfl, hd⟩ := hw
      simp only [after64, tAt, hd, decide_true, Bool.not_false, Bool.and_self, if_true, tget_tset, true_and]
      rw [BitVec.setWidth_eq_extractLsb' (by decide)]
      split <;> split <;> first | rfl | omega
    · have hkeeps : (decide (d.toNat ≤ 11) && !cond) = false := by grind
      simp only [after64, tAt, hkeeps, Bool.false_eq_true, if_false]
      grind

/-- The bits of a predicate file after a write: p0 discards it (02 R43). -/
theorem getLsbD_afterP (p : PIdx) (b : Bool) (t : Thread) {n : Nat} (hn : n < 8) :
    (afterP p b t).p.getLsbD n = if n = p.toNat ∧ n ≠ 0 then b else t.p.getLsbD n := by
  have hp : p = 0 ↔ p.toNat = 0 := BitVec.toNat_eq
  by_cases h0 : p = 0
  · have hz := hp.1 h0
    simp only [afterP, if_pos h0]
    rw [if_neg (by omega)]
  · have hz := mt hp.2 h0
    simp only [afterP, if_neg h0]
    cases b <;> by_cases hnp : n = p.toNat <;> simp [hnp, hn, hz] <;> omega

theorem wroteP_afterP (p : PIdx) (b : Bool) (fl : BitVec 5) (t : Thread) :
    wroteP p b fl t { afterP p b t with fpstat := t.fpstat ||| fl } := ⟨rfl, fun _ hn => getLsbD_afterP p b t hn⟩

/-! ## A fold over the participants -/

/-- All that a fold over the participants does: each participant's thread, and what the fold leaves in the k registers. -/
theorem exec_lanes {i : Instr} {g : Guard} {s : State} {x : Ctx} (hi : issues i s x) (step : Ctx → Grp → Nat → Grp) (F : Nat → Thread → Thread)
    (hexec : exec i s = word i s (fun x => setUnit s x.u (advance ((x.parts g).foldl (step x) x.g))))
    (hthr : ∀ gr l j, thrAt (step x gr l) j = if j = l then F l (thrAt gr l) else thrAt gr j)
    (honly : ∀ gr l, ∃ ths k, step x gr l = { gr with threads := ths, k := k }) :
    ∃ h : Grp, exec i s = .next (setUnit s x.u h) ∧ onlyThreads x.g h ∧ h.k = ((x.parts g).foldl (step x) x.g).k ∧
      ∀ l, thrAt h l = if l ∈ x.parts g then F l (x.thr l) else x.thr l := by
  obtain ⟨h, he, ⟨ths, hh⟩, hout, hin⟩ := word_lanes i g s x step F hi.1 hi.2
    (fun gr l j hj => by rw [hthr, if_neg hj]) (fun gr l => by rw [hthr, if_pos rfl]) honly
  refine ⟨h, hexec.trans he, ⟨ths, _, hh⟩, by rw [hh], fun l => ?_⟩
  split
  · next hl => exact hin l hl
  · next hl => exact hout l hl

/-- A word whose participants each write their own lane has its effect on them alone. -/
theorem laneEffect_of_step {i : Instr} {g : Guard} {post : Ctx → Nat → Thread → Thread → Prop} {kpost : Ctx → Grp → Prop}
    (step : Ctx → Grp → Nat → Grp) (F : Ctx → Nat → Thread → Thread)
    (hexec : ∀ s, exec i s = word i s (fun x => setUnit s x.u (advance ((x.parts g).foldl (step x) x.g))))
    (hthr : ∀ x gr l j, thrAt (step x gr l) j = if j = l then F x l (thrAt gr l) else thrAt gr j)
    (honly : ∀ x gr l, ∃ ths k, step x gr l = { gr with threads := ths, k := k })
    (hpost : ∀ x l t, post x l t (F x l t))
    (hk : ∀ x h, h.k = ((x.parts g).foldl (step x) x.g).k → kpost x h) : laneEffect i g post kpost := by
  intro s x hi
  obtain ⟨h, he, hframe, hhk, hlanes⟩ := exec_lanes hi step (F x) (hexec s) (hthr x) (honly x)
  refine ⟨_, he, onlyUnit_setUnit .., ?_⟩
  rw [unitAt_setUnit_same]
  refine ⟨hframe, fun l hl => ?_, fun l hl => ?_, hk x h hhk⟩
  · rw [hlanes, if_neg hl]
  · rw [hlanes, if_pos hl]
    exact hpost x l _

/-- k registers of a fold by its last participant, for any unit that holds them. -/
theorem kAfter_of_fold {cond : Bool} {d : OField} {val : Nat → W64} {step : Grp → Nat → Grp} {ls : List Nat} {gr h : Grp}
    (hstep : ∀ gr l n, kAt (step gr l) n = if cond = true ∧ n = d.toNat ∧ n ≤ 11 then val l else kAt gr n)
    (hk : h.k = (ls.foldl step gr).k) : kAfter cond d ls val gr h := by
  intro n
  rw [kAt, hk]
  exact foldl_kAfter hstep ls gr n

variable {i : Instr} {g : Guard} {d : OField}

theorem writes32_of_aluF {f : Ctx → Nat → W32 × BitVec 5} (hexec : ∀ s, exec i s = aluF i g d f s) : writes32 i g d f :=
  laneEffect_of_step (fun x gr l => orFlags (writeO x.cond gr l d (f x l).1 (f x l).1) l (f x l).2)
    (fun x l t => { afterO x.cond d (f x l).1 (f x l).1 t with fpstat := t.fpstat ||| (f x l).2 }) hexec
    (fun x gr l j => by
      simp only [thrAt_orFlags, thrAt_writeO, if_true]
      split <;> rfl)
    (fun _ _ _ => onlyThreads_trans (writeO_onlyThreads ..) (orFlags_onlyThreads ..))
    (fun _ _ _ => wrote32_afterO_flags ..)
    (fun _ _ hk => kAfter_of_fold (fun _ _ _ => by exact kAt_writeO ..) hk)

theorem writes32_of_alu {f : Ctx → Nat → W32} (hexec : ∀ s, exec i s = alu i g d f s) : writes32 i g d (fun x l => (f x l, 0)) :=
  laneEffect_of_step (fun x gr l => writeO x.cond gr l d (f x l) (f x l)) (fun x l t => afterO x.cond d (f x l) (f x l) t) hexec
    (fun _ _ _ _ => thrAt_writeO ..) (fun _ _ _ => writeO_onlyThreads ..) (fun _ _ _ => wrote32_afterO ..)
    (fun _ _ hk => kAfter_of_fold (fun _ _ _ => by exact kAt_writeO ..) hk)

theorem writes64_of_alu64 {f : Ctx → Nat → W64} (hexec : ∀ s, exec i s = alu64 i g d f s) : writes64 i g d f :=
  laneEffect_of_step (fun x gr l => write64 x.cond gr l d (f x l)) (fun x l t => after64 x.cond d (f x l) t) hexec
    (fun _ _ _ _ => thrAt_write64 ..) (fun _ _ _ => write64_onlyThreads ..) (fun _ _ _ => wrote64_after64 ..)
    (fun _ _ hk => kAfter_of_fold (fun _ _ _ => by exact kAt_write64 ..) hk)

theorem writesPred_of_aluP {p : PIdx} {f : Ctx → Nat → Bool × BitVec 5} (hexec : ∀ s, exec i s = aluP i g p f s) :
    writesPred i g p f :=
  laneEffect_of_step (fun x gr l => orFlags (writeP gr l p (f x l).1) l (f x l).2)
    (fun x l t => { afterP p (f x l).1 t with fpstat := t.fpstat ||| (f x l).2 }) hexec
    (fun x gr l j => by
      simp only [thrAt_orFlags, thrAt_writeP, if_true]
      split <;> rfl)
    (fun _ _ _ => onlyThreads_trans (writeP_onlyThreads ..) (orFlags_onlyThreads ..))
    (fun _ _ _ => wroteP_afterP ..)
    (fun _ _ hk => hk.trans (foldl_keeps_k (fun _ _ => by rfl) _ _))

/-! ## Words by their sources -/

variable {a b c : OField}

theorem result1_of_alu1 {r f : W32 → W32} (hexec : ∀ s, exec i s = alu1 i g d a r s) (hr : ∀ u, r u = f u) : result1 i g d a f := by
  obtain rfl : r = f := funext hr
  exact writes32_of_alu hexec

theorem result2_of_alu2 {r f : W32 → W32 → W32} (hexec : ∀ s, exec i s = alu2 i g d a b r s) (hr : ∀ u v, r u v = f u v) :
    result2 i g d a b f := by
  obtain rfl : r = f := funext₂ hr
  exact writes32_of_alu hexec

theorem result3_of_alu3 {r f : W32 → W32 → W32 → W32} (hexec : ∀ s, exec i s = alu3 i g d a b c r s)
    (hr : ∀ u v w, r u v w = f u v w) : result3 i g d a b c f := by
  obtain rfl : r = f := funext fun u => funext₂ (hr u)
  exact writes32_of_alu hexec

/-! ## Conditions (07 R155) -/

/-- The condition of a comparison is the order it names. -/
theorem condEval_iff (k : Cond) {n : Nat} (u v : BitVec n) : condEval k u v = true ↔ holds k u v := by
  cases k <;> simp [condEval, holds]

/-- A comparison word sets its predicate where the condition holds. -/
theorem compares_of_aluP {p : PIdx} {f : Ctx → Nat → Bool} {c : Ctx → Nat → Prop}
    (hexec : ∀ s, exec i s = aluP i g p (fun x l => (f x l, 0)) s) (hf : ∀ x l, f x l = true ↔ c x l) : compares i g p c := by
  intro f' hf'
  obtain rfl : f' = f := funext₂ fun x l => Bool.eq_iff_iff.2 ((hf' x l).trans (hf x l).symm)
  exact writesPred_of_aluP hexec

end Sys2Proof.Claims
end

section
/-! SUPPORT. The results of integer words as 07 R155-R160 give them: the model's function of each word and the rule's are one. -/

namespace Sys2Proof.Machine

variable (a b c : W32)

/-! ## Arithmetic (07 R155) -/

theorem add_eq_ofNat : a + b = BitVec.ofNat 32 (a.toNat + b.toNat) := by
  rw [BitVec.ofNat_add, BitVec.ofNat_toNat, BitVec.ofNat_toNat, BitVec.setWidth_eq, BitVec.setWidth_eq]

theorem mul_eq_ofNat : a * b = BitVec.ofNat 32 (a.toNat * b.toNat) := by
  apply BitVec.eq_of_toNat_eq
  rw [BitVec.toNat_mul, BitVec.toNat_ofNat]

theorem mulAdd_eq_ofNat : a * b + c = BitVec.ofNat 32 (a.toNat * b.toNat + c.toNat) := by
  rw [mul_eq_ofNat, BitVec.ofNat_add, BitVec.ofNat_toNat, BitVec.setWidth_eq]

theorem ofInt_sub_ofNat (z : Int) (n : Nat) : BitVec.ofInt 32 z - BitVec.ofNat 32 n = BitVec.ofInt 32 (z - n) := by
  rw [BitVec.sub_eq_add_neg, Int.sub_eq_add_neg, BitVec.ofInt_add, BitVec.ofInt_neg, BitVec.ofInt_natCast]

theorem sub_eq_ofInt : a - b = BitVec.ofInt 32 ((a.toNat : Int) - b.toNat) := by
  rw [← ofInt_sub_ofNat, BitVec.ofInt_natCast, BitVec.ofNat_toNat, BitVec.ofNat_toNat, BitVec.setWidth_eq, BitVec.setWidth_eq]

theorem minS_eq : minS a b = if a.toInt ≤ b.toInt then a else b := by
  unfold minS
  split <;> split <;> first | rfl | omega

theorem maxS_eq : maxS a b = if b.toInt ≤ a.toInt then a else b := by
  unfold maxS
  split <;> split <;> first | rfl | omega

theorem minU_eq : minU a b = if a.toNat ≤ b.toNat then a else b := by
  unfold minU
  split <;> split <;> first | rfl | omega

theorem maxU_eq : maxU a b = if b.toNat ≤ a.toNat then a else b := by
  unfold maxU
  split <;> split <;> first | rfl | omega

theorem minU_eq_ofNat : minU a b = BitVec.ofNat 32 (min a.toNat b.toNat) := by
  rw [minU_eq, Nat.min_def]
  split <;> simp

theorem maxU_eq_ofNat : maxU a b = BitVec.ofNat 32 (max a.toNat b.toNat) := by
  rw [maxU_eq, Nat.max_def]
  split <;> split <;> simp <;> bv_omega

/-- The carry in is bit 0 of c. -/
theorem carryIn_eq : carryIn c = if c.getLsbD 0 then 1 else 0 := by
  have hbit : c.getLsbD 0 = decide (c.toNat % 2 = 1) := by rw [← BitVec.testBit_toNat, Nat.testBit_zero]
  rw [hbit, carryIn]
  obtain h | h := Nat.mod_two_eq_zero_or_one c.toNat <;> simp [h]

/-- A sum of two words and a carry passes 2^32 at most once. -/
theorem addcCoR_eq : addcCoR a b c = if 2 ^ 32 ≤ a.toNat + b.toNat + (if c.getLsbD 0 then 1 else 0) then 1 else 0 := by
  rw [addcCoR, ← carryIn_eq]
  have ha := a.isLt
  have hb := b.isLt
  have hc : carryIn c < 2 := Nat.mod_lt _ (by decide)
  split
  · have hq : (a.toNat + b.toNat + carryIn c) / 2 ^ 32 = 1 := by omega
    rw [hq]
    rfl
  · have hq : (a.toNat + b.toNat + carryIn c) / 2 ^ 32 = 0 := by omega
    rw [hq]
    rfl

theorem subbR_eq : subbR a b c = BitVec.ofInt 32 ((a.toNat : Int) - b.toNat - (if c.getLsbD 0 then 1 else 0)) := by
  have hcarry : (if c.getLsbD 0 then 1 else 0 : Int) = (carryIn c : Nat) := by
    rw [carryIn_eq]
    split <;> rfl
  rw [hcarry, ← ofInt_sub_ofNat, ← sub_eq_ofInt]
  rfl

theorem sel_eq : (if c ≠ 0 then a else b) = if c = 0 then b else a := by simp

/-! ## Shifts (07 R156) -/

theorem shlR_eq : shlR a b = a <<< b.toNat := by
  unfold shlR
  split
  · next h => exact (BitVec.shiftLeft_eq_zero h).symm
  · rw [BitVec.shiftLeft_eq_mul_twoPow, mul_eq_ofNat]
    apply BitVec.eq_of_toNat_eq
    simp

theorem shrU_eq : shrU a b = a >>> b.toNat := by
  unfold shrU
  split
  · next h => exact (BitVec.ushiftRight_eq_zero h).symm
  · rw [← Nat.shiftRight_eq_div_pow]
    apply BitVec.eq_of_toNat_eq
    rw [BitVec.toNat_ofNat, BitVec.toNat_ushiftRight]
    exact Nat.mod_eq_of_lt ((Nat.shiftRight_le _ _).trans_lt a.isLt)

theorem rotR_eq : rotR a b = (a <<< (b.toNat % 32)) ||| (a >>> (32 - b.toNat % 32)) := by
  rw [rotR, BitVec.rotateLeft_def, Nat.mod_mod]

theorem shli_eq (k : BitVec 5) : BitVec.ofNat 32 (a.toNat * 2 ^ k.toNat) = a <<< k.toNat := by
  apply BitVec.eq_of_toNat_eq
  simp [Nat.shiftLeft_eq]

/-! ## Fields (07 R156) -/

/-- A field of no bits is 0 of itself. -/
theorem bfeU_eq : bfeU a b = BitVec.ofNat 32 (a.toNat / 2 ^ (b.toNat % 256) % 2 ^ (min (b.toNat / 256 % 256) 32)) := by
  have hlen : fieldLen b = min (b.toNat / 256 % 256) 32 := rfl
  rw [bfeU, hlen]
  split
  · next h => rw [h, pow_zero, Nat.mod_one]; rfl
  · rfl

theorem bfeS_eq : bfeS a b =
    (let n := min (b.toNat / 256 % 256) 32
     let f := a.toInt / 2 ^ (b.toNat % 256) % 2 ^ n
     if n = 0 then 0 else if 2 ^ (n - 1) ≤ f then BitVec.ofInt 32 (f - 2 ^ n) else BitVec.ofInt 32 f) := by
  have hlen : fieldLen b = min (b.toNat / 256 % 256) 32 := rfl
  simp only [bfeS, hlen, fieldPos]
  split
  · rfl
  · split <;> split <;> first | rfl | omega

/-! ## Counts and orders of bits (07 R156) -/

theorem popcR_eq : popcR a = BitVec.ofNat 32 ((List.range 32).countP (fun i => a.getLsbD i)) := by
  rw [popcR, maskLanes, List.countP_eq_length_filter]

/-- The place of the highest bit set. -/
theorem log2_toNat_eq {n : Nat} (hn : n < 32) (hset : a.getLsbD (31 - n) = true) (hclear : ∀ j < n, a.getLsbD (31 - j) = false) :
    a.toNat.log2 = 31 - n := by
  have hlo : 2 ^ (31 - n) ≤ a.toNat := Nat.ge_two_pow_of_testBit (by rw [BitVec.testBit_toNat]; exact hset)
  have hhi : a.toNat < 2 ^ (31 - n + 1) := by
    refine Nat.lt_pow_two_of_testBit _ fun i hi => ?_
    rw [BitVec.testBit_toNat]
    by_cases h32 : i < 32
    · have hj := hclear (31 - i) (by omega)
      rwa [show 31 - (31 - i) = i by omega] at hj
    · exact BitVec.getLsbD_of_ge _ _ (by omega)
  exact (Nat.log2_eq_iff (Nat.ne_zero_of_lt (Nat.lt_of_lt_of_le (Nat.two_pow_pos _) hlo))).2 ⟨hlo, hhi⟩

/-- The number of clear bits above the highest one set determines a function of the word. -/
theorem clzR_eq {f : W32 → W32}
    (hf : ∀ a, (a = 0 → f a = 32) ∧
      (∀ n, n < 32 → a.getLsbD (31 - n) = true → (∀ j, j < n → a.getLsbD (31 - j) = false) → f a = BitVec.ofNat 32 n)) :
    clzR a = f a := by
  obtain ⟨hzero, hbits⟩ := hf a
  by_cases h0 : a = 0
  · rw [hzero h0, clzR, if_pos h0]
    rfl
  · obtain ⟨i, hi⟩ : ∃ i, a.getLsbD i = true := by
      by_contra hnone
      exact h0 (BitVec.eq_of_getLsbD_eq fun i _ => by simpa using fun h => hnone ⟨i, h⟩)
    have hlt := BitVec.lt_of_getLsbD hi
    have hex : ∃ n, n < 32 ∧ a.getLsbD (31 - n) = true := ⟨31 - i, by omega, by rwa [show 31 - (31 - i) = i by omega]⟩
    obtain ⟨hn, hset⟩ := Nat.find_spec hex
    have hclear (j : Nat) (hj : j < Nat.find hex) : a.getLsbD (31 - j) = false := by
      simpa using fun h => Nat.find_min hex hj ⟨by omega, h⟩
    rw [hbits _ hn hset hclear, clzR, if_neg h0, log2_toNat_eq a hn hset hclear]
    congr 1
    omega

theorem brevR_eq {f : W32 → W32} (hf : ∀ a i, i < 32 → (f a).getLsbD (31 - i) = a.getLsbD i) : brevR a = f a := by
  refine BitVec.eq_of_getLsbD_eq fun i hi => ?_
  have h := hf a (31 - i) (by omega)
  rw [show 31 - (31 - i) = i by omega] at h
  rw [h, brevR, BitVec.getLsbD_reverse, BitVec.getMsbD_eq_getLsbD]
  simp [hi]

/-! ## Addresses, wide sums and immediates (07 R157-R160) -/

theorem leaShift_eq_code (f : LeaScale) : leaShift f = f.code.toNat := by cases f <;> rfl

theorem add64_eq_ofNat (u v : W64) : u + v = BitVec.ofNat 64 (u.toNat + v.toNat) := by
  rw [BitVec.ofNat_add, BitVec.ofNat_toNat, BitVec.ofNat_toNat, BitVec.setWidth_eq, BitVec.setWidth_eq]

theorem signExtend_eq_ofInt {n : Nat} (imm : BitVec n) : imm.signExtend 32 = BitVec.ofInt 32 imm.toInt := rfl

theorem addImm_eq (imm : BitVec 18) : a + imm.signExtend 32 = BitVec.ofInt 32 ((a.toNat : Int) + imm.toInt) := by
  rw [BitVec.ofInt_add, BitVec.ofInt_natCast, BitVec.ofNat_toNat, BitVec.setWidth_eq, signExtend_eq_ofInt]

end Sys2Proof.Machine

namespace Sys2Proof.Claims

open Sys2Proof.Machine

/-- Settles O7, word by word: each is a word of two or three sources whose result is the rule's. -/
theorem integerArithmeticResults : Obligations.IntegerArithmeticResults := by
  unfold Obligations.IntegerArithmeticResults
  refine ⟨?add, ?sub, ?mul, ?mulhiS, ?mulhiU, ?mad, ?minS, ?minU, ?maxS, ?maxU, ?addc, ?addcCo, ?subb, ?subbBo, ?sel⟩
  case add => exact fun _ _ _ _ => result2_of_alu2 (fun _ => rfl) add_eq_ofNat
  case sub => exact fun _ _ _ _ => result2_of_alu2 (fun _ => rfl) sub_eq_ofInt
  case mul => exact fun _ _ _ _ => result2_of_alu2 (fun _ => rfl) mul_eq_ofNat
  case mulhiS => exact fun _ _ _ _ => result2_of_alu2 (fun _ => rfl) fun _ _ => rfl
  case mulhiU => exact fun _ _ _ _ => result2_of_alu2 (fun _ => rfl) fun _ _ => rfl
  case mad => exact fun _ _ _ _ _ => result3_of_alu3 (r := fun a b c => a * b + c) (fun _ => rfl) mulAdd_eq_ofNat
  case minS => exact fun _ _ _ _ => result2_of_alu2 (fun _ => rfl) minS_eq
  case minU => exact fun _ _ _ _ => result2_of_alu2 (fun _ => rfl) minU_eq_ofNat
  case maxS => exact fun _ _ _ _ => result2_of_alu2 (fun _ => rfl) maxS_eq
  case maxU => exact fun _ _ _ _ => result2_of_alu2 (fun _ => rfl) maxU_eq_ofNat
  case addc => exact fun _ _ _ _ _ => result3_of_alu3 (fun _ => rfl) fun a b c => by rw [addcR, carryIn_eq]
  case addcCo => exact fun _ _ _ _ _ => result3_of_alu3 (fun _ => rfl) addcCoR_eq
  case subb => exact fun _ _ _ _ _ => result3_of_alu3 (fun _ => rfl) subbR_eq
  case subbBo => exact fun _ _ _ _ _ => result3_of_alu3 (fun _ => rfl) fun a b c => by rw [subbBoR, carryIn_eq]
  case sel => exact fun _ _ _ _ _ => result3_of_alu3 (r := fun a b c => if c ≠ 0 then a else b) (fun _ => rfl) sel_eq

/-- Settles O8, word by word. -/
theorem logicAndShiftResults : Obligations.LogicAndShiftResults := by
  unfold Obligations.LogicAndShiftResults
  refine ⟨?and, ?or, ?xor, ?andn, ?shl, ?shrU, ?shrS, ?rot, ?fsh, ?bfeU, ?bfeS, ?bfi, ?popc, ?clz, ?brev⟩
  case and => exact fun _ _ _ _ => result2_of_alu2 (fun _ => rfl) fun _ _ => rfl
  case or => exact fun _ _ _ _ => result2_of_alu2 (fun _ => rfl) fun _ _ => rfl
  case xor => exact fun _ _ _ _ => result2_of_alu2 (fun _ => rfl) fun _ _ => rfl
  case andn => exact fun _ _ _ _ => result2_of_alu2 (r := fun a b => a &&& ~~~b) (fun _ => rfl) fun _ _ => rfl
  case shl => exact fun _ _ _ _ => result2_of_alu2 (fun _ => rfl) shlR_eq
  case shrU => exact fun _ _ _ _ => result2_of_alu2 (fun _ => rfl) shrU_eq
  case shrS => exact fun _ _ _ _ => result2_of_alu2 (fun _ => rfl) fun _ _ => rfl
  case rot => exact fun _ _ _ _ => result2_of_alu2 (fun _ => rfl) rotR_eq
  case fsh => exact fun _ _ _ _ _ => result3_of_alu3 (fun _ => rfl) fun _ _ _ => rfl
  case bfeU => exact fun _ _ _ _ => result2_of_alu2 (fun _ => rfl) bfeU_eq
  case bfeS => exact fun _ _ _ _ => result2_of_alu2 (fun _ => rfl) bfeS_eq
  case bfi => exact fun _ _ _ _ _ => result3_of_alu3 (fun _ => rfl) fun _ _ _ => rfl
  case popc => exact fun _ _ _ => result1_of_alu1 (fun _ => rfl) popcR_eq
  case clz => exact fun f hf _ _ _ => result1_of_alu1 (fun _ => rfl) fun a => clzR_eq a hf
  case brev => exact fun f hf _ _ _ => result1_of_alu1 (fun _ => rfl) fun a => brevR_eq a hf

/-- Settles O9: lea has two 32-bit sources, add64 two 64-bit ones, and the comparisons write a predicate. -/
theorem addressAndWideResults : Obligations.AddressAndWideResults := by
  unfold Obligations.AddressAndWideResults
  have hlea (f : LeaScale) (r : W32 → W32 → W32) (hr : ∀ u v, leaR f u v = r u v) (d a b : OField) (g : Guard) :
      result2 (.lea d a b g f) g d a b r := result2_of_alu2 (fun _ => rfl) hr
  refine ⟨hlea .x1 _ fun u v => by rw [leaR, leaShift, pow_zero, Nat.mul_one], hlea .x2 _ fun _ _ => rfl, hlea .x4 _ fun _ _ => rfl,
    hlea .x8 _ fun _ _ => rfl, hlea .x16 _ fun _ _ => rfl, fun d a b g => ?add64, fun p a b g k => ?cmp, fun p a b g k => ?cmp64⟩
  case add64 =>
    simp only [← add64_eq_ofNat]
    exact writes64_of_alu64 fun _ => rfl
  case cmp => exact compares_of_aluP (fun _ => rfl) fun _ _ => condEval_iff k ..
  case cmp64 => exact compares_of_aluP (fun _ => rfl) fun _ _ => condEval_iff k ..

/-- Settles O10: an I-form word has one source and the guard that always holds. -/
theorem immediateWordResults : Obligations.ImmediateWordResults := by
  unfold Obligations.ImmediateWordResults
  have hwiden (imm : BitVec 18) : imm.setWidth 32 = BitVec.ofNat 32 imm.toNat := (BitVec.ofNat_toNat 32 imm).symm
  refine ⟨?addi, ?andi, ?ori, ?xori, ?shli, ?movhi, ?signed, ?unsigned⟩
  case addi => exact fun _ _ imm => result1_of_alu1 (r := (· + imm.signExtend 32)) (fun _ => rfl) fun a => addImm_eq a imm
  case andi => exact fun _ _ imm => result1_of_alu1 (r := (· &&& imm.setWidth 32)) (fun _ => rfl) fun a => congrArg (a &&& ·) (hwiden imm)
  case ori => exact fun _ _ imm => result1_of_alu1 (r := (· ||| imm.setWidth 32)) (fun _ => rfl) fun a => congrArg (a ||| ·) (hwiden imm)
  case xori => exact fun _ _ imm => result1_of_alu1 (r := (· ^^^ imm.setWidth 32)) (fun _ => rfl) fun a => congrArg (a ^^^ ·) (hwiden imm)
  case shli => exact fun _ _ k => result1_of_alu1 (r := fun a => BitVec.ofNat 32 (a.toNat * 2 ^ k.toNat)) (fun _ => rfl) fun a => shli_eq a k
  case movhi => exact fun _ imm => result1_of_alu1 (r := fun _ => BitVec.ofNat 32 (imm.toNat * 2 ^ 14)) (fun _ => rfl) fun _ => rfl
  case signed =>
    intro p a k imm hk
    have himm : cmpiImm k imm = BitVec.ofInt 32 imm.toInt := by obtain rfl | rfl | rfl | rfl | rfl | rfl := hk <;> rfl
    exact compares_of_aluP (fun _ => rfl) fun _ _ => himm ▸ condEval_iff k ..
  case unsigned =>
    intro p a k imm hk
    have himm : cmpiImm k imm = BitVec.ofNat 32 imm.toNat := by
      obtain rfl | rfl | rfl | rfl := hk <;> exact (BitVec.ofNat_toNat 32 imm).symm
    exact compares_of_aluP (fun _ => rfl) fun _ _ => himm ▸ condEval_iff k ..

/-- Settles O11: a 32-bit function of form S is its form-A function of a and the uniform register, by cases on the function. -/
theorem uniformIntegerResults : Obligations.UniformIntegerResults := by
  unfold Obligations.UniformIntegerResults
  intro d a u g
  refine ⟨fun f r hr => ?narrow, ?add64, fun k _ => ?cmp, fun k _ => ?cmp64⟩
  case narrow =>
    have hval : ∀ v w, intUR f v w = r v w := by
      cases f <;> simp only at hr <;> subst hr <;> intro v w
      case add => exact add_eq_ofNat v w
      case sub => exact sub_eq_ofInt v w
      case mul => exact mul_eq_ofNat v w
      case minI => exact minS_eq v w
      case minN => exact minU_eq v w
      case maxI => exact maxS_eq v w
      case maxN => exact maxU_eq v w
      case shl => exact shlR_eq v w
      case shrN => exact shrU_eq v w
      case rot => exact rotR_eq v w
      case bfeN => exact bfeU_eq v w
      case lea s => rw [← leaShift_eq_code]; rfl
      all_goals rfl
    simp only [← hval]
    refine writes32_of_alu (f := fun x l => intUR f (x.src l a) (x.uni u)) fun s => ?_
    cases f <;> first | rfl | exact hr.elim
  case add64 =>
    simp only [← add64_eq_ofNat]
    exact writes64_of_alu64 fun _ => rfl
  case cmp => exact compares_of_aluP (fun _ => rfl) fun _ _ => condEval_iff k ..
  case cmp64 => exact compares_of_aluP (fun _ => rfl) fun _ _ => condEval_iff k ..

end Sys2Proof.Claims
end

section
/-! SUPPORT. Predicate words and p0 (07 R180, 02 R43). -/

namespace Sys2Proof.Machine

open Sys2Proof.Claims

theorem predBit_eq (t : Thread) (p : PIdx) : predBit t p = (p.toNat == 0 || t.p.getLsbD p.toNat) := by
  have hp : (p == 0) = (p.toNat == 0) := by
    rw [Bool.eq_iff_iff, beq_iff_eq, beq_iff_eq]
    exact BitVec.toNat_eq
  rw [predBit, hp]

theorem predBit_of_ne (t : Thread) {p : PIdx} (hp : p ≠ 0) : predBit t p = t.p.getLsbD p.toNat := by
  rw [predBit, beq_eq_false_iff_ne.2 hp, Bool.false_or]

theorem p_writeP_zero (gr : Grp) (l : Nat) (b : Bool) : (thrAt (writeP gr l 0 b) l).p = (thrAt gr l).p := by
  rw [thrAt_writeP, if_pos rfl]
  rfl

theorem predBit_writeP (gr : Grp) (l : Nat) {p q : PIdx} (b : Bool) (hq : q ≠ 0) :
    predBit (thrAt (writeP gr l p b) l) q = if q = p then b else predBit (thrAt gr l) q := by
  rw [predBit_of_ne _ hq, predBit_of_ne _ hq, thrAt_writeP, if_pos rfl, getLsbD_afterP p b _ q.isLt]
  have hz : q.toNat ≠ 0 := fun h => hq (BitVec.eq_of_toNat_eq h)
  exact if_congr ⟨fun h => BitVec.toNat_eq.2 h.1, fun h => ⟨BitVec.toNat_eq.1 h, hz⟩⟩ rfl rfl

theorem p_setPcs (gr : Grp) (ls : List Nat) (pc l : Nat) : (thrAt (setPcs gr ls pc) l).p = (thrAt gr l).p := by
  unfold setPcs modThrs
  induction ls generalizing gr with
  | nil => rfl
  | cons j ls ih =>
    rw [List.foldl_cons, ih, thrAt_modThr]
    split
    · next h => rw [h]
    · rfl

theorem p_commitAll (x : Ctx) (cs : List (Nat × OField)) (l : Nat) : (thrAt (commitAll x cs) l).p = (thrAt x.g l).p := by
  rw [thrAt_commitAll]
  split <;> rfl

theorem p_takeXfer (base : Nat) (y : Xfer) (t : Thread) : (takeXfer base y t).p = t.p := by
  unfold takeXfer pushLink popLink
  cases y.link with
  | none => rfl
  | push l => dsimp only; split <;> rfl
  | pop => dsimp only; split <;> rfl

end Sys2Proof.Machine

namespace Sys2Proof.Claims

open Sys2Proof.Machine

/-- Settles O21: the words are predicate words of the values that `predBit` reads, and nothing that moves a thread on writes p. -/
theorem predicateWordResults : Obligations.PredicateWordResults := by
  unfold Obligations.PredicateWordResults
  intro rd
  have hrd (x : Ctx) (l : Nat) (p : PIdx) : rd x l p = predBit (x.thr l) p := (predBit_eq ..).symm
  simp only [hrd]
  refine ⟨?and, ?or, ?xor, ?andn, ?not, ?set, ?get, fun _ => rfl, fun t p hp => predBit_of_ne t hp, p_writeP_zero,
    fun gr l p q b _ hq => predBit_writeP gr l b hq, p_commitAll, p_setPcs, p_takeXfer⟩
  case and => exact fun _ _ _ _ => writesPred_of_aluP fun _ => rfl
  case or => exact fun _ _ _ _ => writesPred_of_aluP fun _ => rfl
  case xor => exact fun _ _ _ _ => writesPred_of_aluP fun _ => rfl
  case andn => exact fun _ _ _ _ => writesPred_of_aluP fun _ => rfl
  case not => exact fun _ _ _ => writesPred_of_aluP fun _ => rfl
  case set =>
    intro d a g
    have hset (x : Ctx) (l : Nat) : decide (x.src l a ≠ 0) = (x.src l a != 0) := by
      rw [Bool.eq_iff_iff, decide_eq_true_eq, bne_iff_ne]
    simp only [hset]
    exact writesPred_of_aluP fun _ => rfl
  case get => exact fun _ _ _ => writes32_of_alu fun _ => rfl

end Sys2Proof.Claims
end

section
/-! SUPPORT. Register moves: a run of registers written one by one, and what each move leaves in a lane and in the k registers
(07 R177, R178). -/

namespace Sys2Proof.Machine

open Sys2Proof.Claims

/-! ## Runs of registers -/

/-- A map after a run of consecutive keys is written, in ascending order. -/
def tsetRun {α : Type} (m : TMap α) (a n : Nat) (w : Nat → α) : TMap α := (List.range n).foldl (fun m i => tset m (a + i) (w i)) m

theorem tsetRun_succ {α : Type} (m : TMap α) (a n : Nat) (w : Nat → α) : tsetRun m a (n + 1) w = tset (tsetRun m a n w) (a + n) (w n) := by
  simp [tsetRun, List.range_succ]

theorem tget_tsetRun {α : Type} (d : α) (m : TMap α) (a n : Nat) (w : Nat → α) (r : Nat) :
    tget d (tsetRun m a n w) r = if a ≤ r ∧ r < a + n then w (r - a) else tget d m r := by
  induction n with
  | zero => rw [if_neg (by omega)]; rfl
  | succ n ih =>
    rw [tsetRun_succ, tget_tset, ih]
    by_cases h : r = a + n
    · subst h
      rw [if_pos rfl, if_pos (by omega), Nat.add_sub_cancel_left]
    · rw [if_neg h]
      exact if_congr (by omega) rfl rfl

/-- Writes of one lane, one after another, come to one change of its thread. -/
theorem thrAt_foldl_lane {ι : Type} {write : Grp → ι → Grp} {F : ι → Thread → Thread} {l : Nat}
    (hthr : ∀ gr i j, thrAt (write gr i) j = if j = l then F i (thrAt gr l) else thrAt gr j) (is : List ι) (gr : Grp) (j : Nat) :
    thrAt (is.foldl write gr) j = if j = l then is.foldl (fun t i => F i t) (thrAt gr l) else thrAt gr j := by
  induction is generalizing gr with
  | nil => split <;> simp_all
  | cons i is ih =>
    simp only [List.foldl_cons]
    rw [ih, hthr, hthr, if_pos rfl]
    split <;> rfl

theorem foldl_lane_onlyThreads {ι : Type} {write : Grp → ι → Grp} (h : ∀ gr i, ∃ ths k, write gr i = { gr with threads := ths, k := k })
    (is : List ι) (gr : Grp) : ∃ ths k, is.foldl write gr = { gr with threads := ths, k := k } := by
  induction is generalizing gr with
  | nil => exact ⟨_, _, rfl⟩
  | cons i is ih => exact onlyThreads_trans (h gr i) (ih _)

theorem writeV_onlyThreads (cond : Bool) (gr : Grp) (l v : Nat) (w : W32) :
    ∃ ths k, writeV cond gr l v w = { gr with threads := ths, k := k } := by
  cases cond <;> exact ⟨_, _, rfl⟩

theorem thrAt_writeV (cond : Bool) (gr : Grp) (l j v : Nat) (w : W32) :
    thrAt (writeV cond gr l v w) j =
      if j = l then (if cond then thrAt gr l else { thrAt gr l with v := tset (thrAt gr l).v v w }) else thrAt gr j := by
  cases cond with
  | false => exact thrAt_writeV_group ..
  | true =>
    split
    · next h => subst h; rfl
    · rfl

theorem writeO_group_k (gr : Grp) (l : Nat) (d : OField) (v lt : W32) : (writeO false gr l d v lt).k = gr.k := by
  rw [writeO, Bool.and_false]
  rfl

/-- A write to lt alone. -/
theorem writeO_lt_k (cond : Bool) (gr : Grp) (l : Nat) (w : W32) : (writeO cond gr l 15 w w).k = gr.k := by
  simp [writeO, modThr]

/-! ## movin -/

section
variable (x : Ctx) (v : VIdx) (o : OField)

/-- What movin moves to its i-th register. -/
def movinWrite (l : Nat) (gr : Grp) (i : Nat) : Grp :=
  writeO x.cond gr l (oNext o i) (x.main l (v.toNat + i)) (x.main l (v.toNat + i))

/-- One participant's part of movin, n registers. -/
def movinStep (n : Nat) (gr : Grp) (l : Nat) : Grp := (List.range n).foldl (movinWrite x v o l) gr

/-- The thread that part leaves. -/
def movedIn (n l : Nat) (t : Thread) : Thread :=
  (List.range n).foldl (fun t i => afterO x.cond (oNext o i) (x.main l (v.toNat + i)) (x.main l (v.toNat + i)) t) t

theorem thrAt_movinStep (n : Nat) (gr : Grp) (l j : Nat) :
    thrAt (movinStep x v o n gr l) j = if j = l then movedIn x v o n l (thrAt gr l) else thrAt gr j :=
  thrAt_foldl_lane (fun _ _ _ => by exact thrAt_writeO ..) _ gr j

theorem movinStep_onlyThreads (n : Nat) (gr : Grp) (l : Nat) : ∃ ths k, movinStep x v o n gr l = { gr with threads := ths, k := k } :=
  foldl_lane_onlyThreads (fun _ _ => writeO_onlyThreads ..) _ gr

theorem toNat_oNext {o : OField} (ho : o.toNat ≤ 11) {i : Nat} (hi : o.toNat + i ≤ 11) : (oNext o i).toNat = o.toNat + i := by
  rw [oNext, if_pos ho, BitVec.toNat_ofNat]
  omega

/-- In a group clause the run goes to the operand file, and lt holds the last value. -/
theorem movedIn_group (hc : x.cond = false) {n : Nat} (hfit : o.toNat ≤ 11 → o.toNat + n ≤ 11) (l : Nat) (t : Thread) :
    movedIn x v o (n + 1) l t =
      { t with
        lt := x.main l (v.toNat + n)
        t := if o.toNat ≤ 11 then tsetRun t.t o.toNat (n + 1) (fun i => x.main l (v.toNat + i)) else t.t } := by
  have hstep (n : Nat) (hfit : o.toNat ≤ 11 → o.toNat + n ≤ 11) (t : Thread) (w : W32) :
      (afterO x.cond (oNext o n) w w t) = { t with lt := w, t := if o.toNat ≤ 11 then tset t.t (o.toNat + n) w else t.t } := by
    by_cases ho : o.toNat ≤ 11
    · simp [afterO, hc, ho, toNat_oNext ho (hfit ho), hfit ho]
    · simp [afterO, oNext, ho]
  induction n with
  | zero =>
    rw [movedIn, List.range_one, List.foldl_cons, List.foldl_nil, hstep 0 hfit]
    rfl
  | succ n ih =>
    have hprev : movedIn x v o (n + 2) l t =
        afterO x.cond (oNext o (n + 1)) (x.main l (v.toNat + (n + 1))) (x.main l (v.toNat + (n + 1))) (movedIn x v o (n + 1) l t) := by
      rw [movedIn, List.range_succ, List.foldl_concat]
      rfl
    rw [hprev, hstep (n + 1) hfit, ih fun ho => by have := hfit ho; omega, tsetRun_succ _ _ (n + 1)]
    split <;> rfl

/-- In a conductor clause the run goes to the k registers. -/
theorem kAt_movinStep (hc : x.cond = true) {n : Nat} (hfit : o.toNat ≤ 11 → o.toNat + n ≤ 11) (gr : Grp) (l r : Nat) :
    kAt (movinStep x v o (n + 1) gr l) r =
      if o.toNat ≤ 11 ∧ o.toNat ≤ r ∧ r ≤ o.toNat + n then (x.main l (v.toNat + (r - o.toNat))).setWidth 64 else kAt gr r := by
  have hwrite (n : Nat) (hfit : o.toNat ≤ 11 → o.toNat + n ≤ 11) (gr : Grp) : kAt (movinWrite x v o l gr n) r =
      if o.toNat ≤ 11 ∧ r = o.toNat + n then (x.main l (v.toNat + n)).setWidth 64 else kAt gr r := by
    rw [movinWrite, kAt_writeO]
    by_cases ho : o.toNat ≤ 11
    · have := hfit ho
      rw [toNat_oNext ho (hfit ho)]
      exact if_congr ⟨fun h => ⟨ho, h.2.1⟩, fun h => ⟨hc, h.2, by omega⟩⟩ rfl rfl
    · have hsame : oNext o n = o := if_neg ho
      rw [hsame, if_neg (by omega), if_neg (by omega)]
  induction n with
  | zero =>
    rw [movinStep, List.range_one, List.foldl_cons, List.foldl_nil, hwrite 0 hfit]
    by_cases h : o.toNat ≤ 11 ∧ r = o.toNat + 0
    · rw [if_pos h, if_pos (by omega), h.2, Nat.add_sub_cancel_left]
    · rw [if_neg h, if_neg (by omega)]
  | succ n ih =>
    have hprev : movinStep x v o (n + 2) gr l = movinWrite x v o l (movinStep x v o (n + 1) gr l) (n + 1) := by
      rw [movinStep, List.range_succ, List.foldl_concat]
      rfl
    rw [hprev, hwrite (n + 1) hfit, ih fun ho => by have := hfit ho; omega]
    by_cases h : o.toNat ≤ 11 ∧ r = o.toNat + (n + 1)
    · rw [if_pos h, if_pos (by omega), h.2, Nat.add_sub_cancel_left]
    · rw [if_neg h]
      exact if_congr (by omega) rfl rfl

end

/-- The fields of a V-form move that names operand-file registers: they all lie in the file. -/
theorem moveOk_fits {v : VIdx} {o : OField} {c : BitVec 2} (h : Sys2Proof.moveOk v o c = true) (ho : o.toNat ≤ 11) :
    o.toNat + c.toNat ≤ 11 := by
  obtain ⟨-, h⟩ := (Bool.and_eq_true ..).mp h
  rw [if_pos ho] at h
  exact of_decide_eq_true h

section
variable {v : VIdx} {o : OField} {g : Guard} {c : BitVec 2} {s : State} {x : Ctx}

theorem movin_fits (hi : issues (.movin v o g c) s x) (ho : o.toNat ≤ 11) : o.toNat + c.toNat ≤ 11 := by
  have h : (Sys2Proof.moveOk v o c && dstOk o) = true := wellFormed_of_issues hi
  exact moveOk_fits ((Bool.and_eq_true ..).mp h).1 ho

theorem exec_movin (hi : issues (.movin v o g c) s x) :
    ∃ h : Grp, exec (.movin v o g c) s = .next (setUnit s x.u h) ∧ onlyThreads x.g h ∧
      h.k = ((x.parts g).foldl (movinStep x v o (c.toNat + 1)) x.g).k ∧
      ∀ l, thrAt h l = if l ∈ x.parts g then movedIn x v o (c.toNat + 1) l (x.thr l) else x.thr l :=
  exec_lanes hi (fun x => movinStep x v o (c.toNat + 1)) _ rfl (thrAt_movinStep x v o _) (movinStep_onlyThreads x v o _)

end

/-! ## movout -/

section
variable (x : Ctx) (v : VIdx) (o : OField)

/-- What movout moves to its i-th register. -/
def movoutWrite (l : Nat) (gr : Grp) (i : Nat) : Grp :=
  writeO x.cond (writeV x.cond gr l (v.toNat + i) (x.src l (oNext o i))) l 15 (x.src l (oNext o i)) (x.src l (oNext o i))

/-- One participant's part of movout, n registers. -/
def movoutStep (n : Nat) (gr : Grp) (l : Nat) : Grp := (List.range n).foldl (movoutWrite x v o l) gr

/-- The thread after one register. -/
def movedOut1 (l i : Nat) (t : Thread) : Thread :=
  { t with lt := x.src l (oNext o i), v := if x.cond then t.v else tset t.v (v.toNat + i) (x.src l (oNext o i)) }

/-- The thread after all of them. -/
def movedOut (n l : Nat) (t : Thread) : Thread := (List.range n).foldl (fun t i => movedOut1 x v o l i t) t

theorem thrAt_movoutWrite (gr : Grp) (l i j : Nat) :
    thrAt (movoutWrite x v o l gr i) j = if j = l then movedOut1 x v o l i (thrAt gr l) else thrAt gr j := by
  rw [movoutWrite, thrAt_writeO, thrAt_writeV, thrAt_writeV, if_pos rfl]
  split
  · cases hc : x.cond <;> simp [afterO, movedOut1, hc]
  · rfl

theorem thrAt_movoutStep (n : Nat) (gr : Grp) (l j : Nat) :
    thrAt (movoutStep x v o n gr l) j = if j = l then movedOut x v o n l (thrAt gr l) else thrAt gr j :=
  thrAt_foldl_lane (fun gr i j => thrAt_movoutWrite x v o gr l i j) _ gr j

theorem movoutStep_onlyThreads (n : Nat) (gr : Grp) (l : Nat) : ∃ ths k, movoutStep x v o n gr l = { gr with threads := ths, k := k } :=
  foldl_lane_onlyThreads (fun _ _ => onlyThreads_trans (writeV_onlyThreads ..) (writeO_onlyThreads ..)) _ gr

/-- In a group clause the run goes to the main registers, and lt holds the last value. -/
theorem movedOut_group (hc : x.cond = false) (n l : Nat) (t : Thread) :
    movedOut x v o (n + 1) l t =
      { t with lt := x.src l (oNext o n), v := tsetRun t.v v.toNat (n + 1) (fun i => x.src l (oNext o i)) } := by
  induction n with
  | zero => simp only [movedOut, movedOut1, hc]; rfl
  | succ n ih =>
    have hprev : movedOut x v o (n + 2) l t = movedOut1 x v o l (n + 1) (movedOut x v o (n + 1) l t) := by
      rw [movedOut, List.range_succ, List.foldl_concat]
      rfl
    rw [hprev, ih, tsetRun_succ _ _ (n + 1)]
    simp only [movedOut1, hc]
    rfl

/-- In a conductor clause the run goes to the k registers. -/
theorem kAt_movoutStep (hc : x.cond = true) (n : Nat) (gr : Grp) (l r : Nat) :
    kAt (movoutStep x v o (n + 1) gr l) r =
      if v.toNat ≤ r ∧ r ≤ v.toNat + n then (x.src l (oNext o (r - v.toNat))).setWidth 64 else kAt gr r := by
  have hwrite (n : Nat) (gr : Grp) : kAt (movoutWrite x v o l gr n) r =
      if r = v.toNat + n then (x.src l (oNext o n)).setWidth 64 else kAt gr r := by
    rw [movoutWrite, kAt, writeO_lt_k, hc]
    exact kAt_writeV_cond ..
  induction n with
  | zero =>
    rw [movoutStep, List.range_one, List.foldl_cons, List.foldl_nil, hwrite 0]
    by_cases h : r = v.toNat + 0
    · rw [if_pos h, if_pos (by omega), h, Nat.add_sub_cancel_left]
    · rw [if_neg h, if_neg (by omega)]
  | succ n ih =>
    have hprev : movoutStep x v o (n + 2) gr l = movoutWrite x v o l (movoutStep x v o (n + 1) gr l) (n + 1) := by
      rw [movoutStep, List.range_succ, List.foldl_concat]
      rfl
    rw [hprev, hwrite (n + 1), ih]
    by_cases h : r = v.toNat + (n + 1)
    · rw [if_pos h, if_pos (by omega), h, Nat.add_sub_cancel_left]
    · rw [if_neg h]
      exact if_congr (by omega) rfl rfl

end

theorem exec_movout {v : VIdx} {o : OField} {g : Guard} {c : BitVec 2} {s : State} {x : Ctx} (hi : issues (.movout v o g c) s x) :
    ∃ h : Grp, exec (.movout v o g c) s = .next (setUnit s x.u h) ∧ onlyThreads x.g h ∧
      h.k = ((x.parts g).foldl (movoutStep x v o (c.toNat + 1)) x.g).k ∧
      ∀ l, thrAt h l = if l ∈ x.parts g then movedOut x v o (c.toNat + 1) l (x.thr l) else x.thr l :=
  exec_lanes hi (fun x => movoutStep x v o (c.toNat + 1)) _ rfl (thrAt_movoutStep x v o _) (movoutStep_onlyThreads x v o _)

/-! ## k registers of group clauses -/

theorem movinStep_group_k {x : Ctx} (hc : x.cond = false) (v : VIdx) (o : OField) (n : Nat) (gr : Grp) (l : Nat) :
    (movinStep x v o n gr l).k = gr.k :=
  foldl_keeps_k (fun gr i => by rw [movinWrite, hc, writeO_group_k]) _ gr

theorem movoutStep_group_k {x : Ctx} (hc : x.cond = false) (v : VIdx) (o : OField) (n : Nat) (gr : Grp) (l : Nat) :
    (movoutStep x v o n gr l).k = gr.k :=
  foldl_keeps_k (fun gr i => by rw [movoutWrite, hc, writeO_group_k]; rfl) _ gr

/-! ## movs -/

/-- One participant's part of movs. -/
def movsStep (d : OField) (u : SIdx) (x : Ctx) (gr : Grp) (l : Nat) : Grp :=
  if x.cond then write64 true gr l d (kAt x.g u.toNat) else writeO false gr l d (x.uni u) (x.uni u)

theorem thrAt_movsStep (d : OField) (u : SIdx) (x : Ctx) (gr : Grp) (l j : Nat) :
    thrAt (movsStep d u x gr l) j = if j = l then afterO x.cond d (x.uni u) (x.uni u) (thrAt gr l) else thrAt gr j := by
  unfold movsStep
  cases hc : x.cond with
  | false => exact thrAt_writeO ..
  | true =>
    rw [if_pos rfl, thrAt_write64]
    simp [after64, afterO, Ctx.uni, hc]

theorem movsStep_onlyThreads (d : OField) (u : SIdx) (x : Ctx) (gr : Grp) (l : Nat) :
    ∃ ths k, movsStep d u x gr l = { gr with threads := ths, k := k } := by
  unfold movsStep
  split
  · exact write64_onlyThreads ..
  · exact writeO_onlyThreads ..

theorem exec_movs {d : OField} {u : SIdx} {g : Guard} {s : State} {x : Ctx} (hi : issues (.movs d u g) s x) :
    ∃ h : Grp, exec (.movs d u g) s = .next (setUnit s x.u h) ∧ onlyThreads x.g h ∧
      h.k = ((x.parts g).foldl (movsStep d u x) x.g).k ∧
      ∀ l, thrAt h l = if l ∈ x.parts g then afterO x.cond d (x.uni u) (x.uni u) (x.thr l) else x.thr l :=
  exec_lanes hi (movsStep d u) _ rfl (thrAt_movsStep d u x) (movsStep_onlyThreads d u x)

/-! ## Words that leave each participant's a in its lt (07 R178, R179) -/

/-- The unit once each participant's lt holds its own a. -/
def ltWritten (x : Ctx) (a : OField) (g : Guard) : Grp :=
  (x.parts g).foldl (fun gr l => writeO x.cond gr l 15 (x.src l a) (x.src l a)) x.g

theorem afterO_lt (cond : Bool) (w : W32) (t : Thread) : afterO cond 15 w w t = { t with lt := w } := by simp [afterO]

theorem thrAt_writeO_lt (cond : Bool) (gr : Grp) (l j : Nat) (w : W32) :
    thrAt (writeO cond gr l 15 w w) j = if j = l then { thrAt gr l with lt := w } else thrAt gr j := by
  rw [thrAt_writeO, afterO_lt]

/-- A fold over distinct lanes whose steps each write their own lane, lane by lane. -/
theorem thrAt_foldl_lanes {step : Grp → Nat → Grp} {F : Nat → Thread → Thread}
    (hthr : ∀ gr l j, thrAt (step gr l) j = if j = l then F l (thrAt gr l) else thrAt gr j) {ls : List Nat} (hls : ls.Nodup) (gr : Grp)
    (l : Nat) : thrAt (ls.foldl step gr) l = if l ∈ ls then F l (thrAt gr l) else thrAt gr l := by
  have hne (gr : Grp) (l j : Nat) (hj : j ≠ l) : thrAt (step gr l) j = thrAt gr j := by rw [hthr, if_neg hj]
  split
  · next h => exact foldl_lanes_mem _ F hne (fun gr l => by rw [hthr, if_pos rfl]) _ _ hls _ h
  · next h => exact foldl_lanes_ne _ hne _ _ _ h

/-- A fold whose steps change only threads changes only threads. -/
theorem foldl_threads {step : Grp → Nat → Grp} (h : ∀ gr l, ∃ ths k, step gr l = { gr with threads := ths, k := k })
    (hk : ∀ gr l, (step gr l).k = gr.k) (ls : List Nat) (gr : Grp) : ∃ ths, ls.foldl step gr = { gr with threads := ths } := by
  obtain ⟨ths, k, hfold⟩ := foldl_onlyThreads step h ls gr
  have hkeeps := foldl_keeps_k hk ls gr
  rw [hfold] at hkeeps
  exact ⟨ths, by rw [hfold, ← hkeeps]⟩

theorem thrAt_ltWritten (x : Ctx) (a : OField) (g : Guard) (l : Nat) :
    thrAt (ltWritten x a g) l = if l ∈ x.parts g then { x.thr l with lt := x.src l a } else x.thr l :=
  thrAt_foldl_lanes (F := fun l t => { t with lt := x.src l a }) (fun _ _ _ => thrAt_writeO_lt ..) (parts_nodup x g) x.g l

theorem ltWritten_threads (x : Ctx) (a : OField) (g : Guard) : ∃ ths, ltWritten x a g = { x.g with threads := ths } :=
  foldl_threads (fun _ _ => writeO_onlyThreads ..) (fun _ _ => writeO_lt_k ..) _ _

/-- The unit after movg with some participant, its clause not yet gone on. -/
def movgUnit (x : Ctx) (a : OField) (u : SIdx) (g : Guard) (l0 : Nat) : Grp :=
  if x.cond then { ltWritten x a g with k := tset (ltWritten x a g).k u.toNat (x.src64 l0 a) }
  else { ltWritten x a g with s := tset (ltWritten x a g).s u.toNat (x.src l0 a) }

section
variable {a : OField} {u : SIdx} {g : Guard} {s : State} {x : Ctx}

theorem exec_movg (hi : issues (.movg a u g) s x) {l0 : Nat} {r : List Nat} (hp : x.parts g = l0 :: r) :
    exec (.movg a u g) s = .next (setUnit s x.u (advance (movgUnit x a u g l0))) := by
  refine (word_effect _ hi.1 hi.2).trans ?_
  simp only [hp]
  rw [movgUnit, ltWritten, hp]

theorem exec_movg_idle (hi : issues (.movg a u g) s x) (hp : x.parts g = []) :
    exec (.movg a u g) s = .next (setUnit s x.u (advance x.g)) := by
  refine (word_effect _ hi.1 hi.2).trans ?_
  simp only [hp]

end

theorem advance_threads_s_k (gr : Grp) (ths : TMap Thread) (ss : TMap W32) (k : TMap W64) :
    advance { gr with threads := ths, k := k, s := ss } = { advance gr with threads := ths, k := k, s := ss } := by
  simp only [advance_eq]

theorem movgUnit_frame (x : Ctx) (a : OField) (u : SIdx) (g : Guard) (l0 : Nat) :
    ∃ ths, movgUnit x a u g l0 =
      { x.g with
        threads := ths
        k := if x.cond then tset x.g.k u.toNat (x.src64 l0 a) else x.g.k
        s := if x.cond then x.g.s else tset x.g.s u.toNat (x.src l0 a) } := by
  obtain ⟨ths, hlt⟩ := ltWritten_threads x a g
  rw [movgUnit, hlt]
  split <;> exact ⟨ths, rfl⟩

theorem thrAt_movgUnit (x : Ctx) (a : OField) (u : SIdx) (g : Guard) (l0 l : Nat) :
    thrAt (movgUnit x a u g l0) l = if l ∈ x.parts g then { x.thr l with lt := x.src l a } else x.thr l := by
  rw [← thrAt_ltWritten x a g l, movgUnit]
  split <;> rfl

end Sys2Proof.Machine

namespace Sys2Proof.Claims

open Sys2Proof.Machine

/-- Settles O22: each move is a fold over its participants whose step is a run of register writes, or one write. -/
theorem registerMoveResults : Obligations.RegisterMoveResults := by
  unfold Obligations.RegisterMoveResults
  refine ⟨?movin, ?movout, ?movinK, ?movoutK, ?movs, ?movsK, ?movg, fun a u g s x hi hp => exec_movg_idle hi hp⟩
  case movin =>
    intro v o g c s x hi hc
    obtain ⟨h, he, honly, hk, hthr⟩ := exec_movin hi
    refine ⟨_, he, onlyUnit_setUnit .., ?_⟩
    rw [unitAt_setUnit_same]
    refine ⟨honly, hk.trans (foldl_keeps_k (movinStep_group_k hc v o _) _ _), fun l => ?_⟩
    have hmain (r : Nat) : x.main l r = vAt (x.thr l) r := by rw [Ctx.main, hc]; rfl
    split
    · next hl =>
      rw [hthr, if_pos hl, movedIn_group x v o hc (movin_fits hi), hmain]
      refine ⟨rfl, fun n => ?_⟩
      simp only [tAt, hmain]
      by_cases ho : o.toNat ≤ 11
      · rw [if_pos ho, tget_tsetRun]
        exact if_congr (by omega) rfl rfl
      · rw [if_neg ho, if_neg (by omega)]
    · next hl => rw [hthr, if_neg hl]
  case movout =>
    intro v o g c s x hi hc
    obtain ⟨h, he, honly, hk, hthr⟩ := exec_movout hi
    refine ⟨_, he, onlyUnit_setUnit .., ?_⟩
    rw [unitAt_setUnit_same]
    refine ⟨honly, hk.trans (foldl_keeps_k (movoutStep_group_k hc v o _) _ _), fun l => ?_⟩
    split
    · next hl =>
      rw [hthr, if_pos hl, movedOut_group x v o hc]
      refine ⟨rfl, fun n => ?_⟩
      rw [vAt, tget_tsetRun]
      exact if_congr (by omega) rfl rfl
    · next hl => rw [hthr, if_neg hl]
  case movinK =>
    intro v o g c s x l hi hc hp
    obtain ⟨h, he, honly, hk, -⟩ := exec_movin hi
    refine ⟨_, he, onlyUnit_setUnit .., ?_⟩
    rw [unitAt_setUnit_same]
    refine ⟨honly, fun n => ?_⟩
    rw [kAt, hk, hp]
    exact kAt_movinStep x v o hc (movin_fits hi) x.g l n
  case movoutK =>
    intro v o g c s x l hi hc hp
    obtain ⟨h, he, honly, hk, -⟩ := exec_movout hi
    refine ⟨_, he, onlyUnit_setUnit .., ?_⟩
    rw [unitAt_setUnit_same]
    refine ⟨honly, fun n => ?_⟩
    rw [kAt, hk, hp]
    exact kAt_movoutStep x v o hc c.toNat x.g l n
  case movs =>
    intro d u g s x hi hc
    obtain ⟨h, he, honly, hk, hthr⟩ := exec_movs hi
    refine ⟨_, he, onlyUnit_setUnit .., ?_⟩
    rw [unitAt_setUnit_same]
    have hstep (gr : Grp) (l : Nat) : (movsStep d u x gr l).k = gr.k := by rw [movsStep, hc]; exact writeO_group_k ..
    have huni : x.uni u = sAt x.g u.toNat := by rw [Ctx.uni, hc]; rfl
    refine ⟨honly, hk.trans (foldl_keeps_k hstep _ _), fun l => ?_⟩
    split
    · next hl =>
      rw [hthr, if_pos hl, hc, huni]
      exact wrote32_afterO ..
    · next hl => rw [hthr, if_neg hl]
  case movsK =>
    intro d u g s x hi hc
    obtain ⟨h, he, honly, hk, -⟩ := exec_movs hi
    refine ⟨_, he, onlyUnit_setUnit .., ?_⟩
    rw [unitAt_setUnit_same]
    refine ⟨honly, kAfter_of_fold (fun gr l n => ?_) hk⟩
    rw [movsStep, if_pos hc, kAt_write64]
  case movg =>
    intro a u g s x l0 r hi hp
    refine ⟨_, exec_movg hi hp, onlyUnit_setUnit .., ?_⟩
    rw [unitAt_setUnit_same]
    obtain ⟨ths, hframe⟩ := movgUnit_frame x a u g l0
    refine ⟨⟨ths, _, _, by rw [hframe, advance_threads_s_k]⟩, fun n => ?_, fun n => ?_, fun l => ?_⟩
    · rw [sAt_advance, hframe]
      cases hc : x.cond <;> simp [sAt, tget_tset]
    · rw [kAt_advance, hframe]
      cases hc : x.cond <;> simp [kAt, tget_tset]
    · rw [thrAt_advance, thrAt_movgUnit]

end Sys2Proof.Claims
end

section
/-! SUPPORT. Special registers that a word writes (07 R175, R179): SECT of the team, whose last writer of a cycle is its highest group, and
the registers of mts. -/

namespace Sys2Proof.Machine

open Sys2Proof.Claims

/-! ## SECT of a team (07 R175) -/

/-- A team after a group writes a code to SECT in a cycle. -/
def sectWritten (now idx code : Nat) (t : Team) : Team :=
  match t.sectBy with
  | some (c, g) => if c = now ∧ idx < g then t else { t with sect := code, sectBy := some (now, idx) }
  | none => { t with sect := code, sectBy := some (now, idx) }

theorem writeSect_eq (s : State) (u : UnitId) (code : Nat) :
    writeSect s u code = modTeam s u.team (sectWritten (clusterCyc s (clusterOf (coreOf s u))) u.idx code) := rfl

theorem sectWritten_frame (now idx code : Nat) (t : Team) :
    sectWritten now idx code t = { t with sect := (sectWritten now idx code t).sect, sectBy := (sectWritten now idx code t).sectBy } := by
  unfold sectWritten
  split
  · split <;> rfl
  · rfl

/-- A unit's write and a change of its team's SECT leave the rest of the machine. -/
theorem onlySect_modTeam (s : State) (u : UnitId) (g : Grp) {f : Team → Team}
    (hf : ∀ t, f t = { t with sect := (f t).sect, sectBy := (f t).sectBy }) :
    onlySect s (modTeam (setUnit s u g) u.team f) u ∧ unitAt (modTeam (setUnit s u g) u.team f) u = g := by
  have hunit : unitAt (modTeam (setUnit s u g) u.team f) u = g := by
    rw [unitAt, teamAt_modTeam_same, hf]
    exact unitAt_setUnit_same s u g
  refine ⟨?_, hunit⟩
  rw [onlySect, hunit, teamAt_modTeam_same]
  simp only [setUnit, modTeam, teamAt, tset_tset_same, tget_tset_same]
  rw [hf]

theorem onlySect_setUnit (s : State) (u : UnitId) (g : Grp) : onlySect s (setUnit s u g) u := by
  simp [onlySect, setUnit, modTeam, teamAt, unitAt]

theorem teamAt_setUnit_sect (s : State) (u : UnitId) (g : Grp) : (teamAt (setUnit s u g) u.team).sect = (teamAt s u.team).sect := by
  simp [setUnit]

theorem sect_sectWritten (s : State) (x : Ctx) (t : Team) (code : Nat) (hsect : t.sect = x.t.sect) (hby : t.sectBy = x.t.sectBy) :
    (sectWritten (clusterCyc s (x.t.core / 8)) x.u.idx code t).sect = sectAfter s x code := by
  unfold sectWritten sectAfter
  rw [hby]
  cases x.t.sectBy with
  | none => rfl
  | some e =>
    dsimp only
    split
    · exact hsect
    · rfl

/-- What a group's write of SECT beside its own unit's comes to. -/
theorem writeSect_setUnit {s : State} {x : Ctx} (hx : issuing s = some x) (g : Grp) (code : Nat) :
    onlySect s (writeSect (setUnit s x.u g) x.u code) x.u ∧ unitAt (writeSect (setUnit s x.u g) x.u code) x.u = g ∧
      (teamAt (writeSect (setUnit s x.u g) x.u code) x.u.team).sect = sectAfter s x code := by
  have hteam := issuing_team hx
  obtain ⟨honly, hunit⟩ := onlySect_modTeam s x.u g (sectWritten_frame (clusterCyc s (x.t.core / 8)) x.u.idx code)
  have hcyc : clusterCyc (setUnit s x.u g) (clusterOf (coreOf (setUnit s x.u g) x.u)) = clusterCyc s (x.t.core / 8) := by
    rw [hteam]
    simp [clusterCyc, coreOf, clusterOf, setUnit, clusterAt, modTeam, teamAt, Config.coresPerCluster]
  rw [writeSect_eq, hcyc]
  refine ⟨honly, hunit, ?_⟩
  rw [teamAt_modTeam_same]
  exact sect_sectWritten s x _ code (by simp [hteam, setUnit]) (by simp [hteam, setUnit])

/-! ## mts -/

/-- One participant's part of mts: its lt, and the register of its own thread that the word names. -/
def mtsStep (a : OField) (n : SIdx) (x : Ctx) (gr : Grp) (l : Nat) : Grp :=
  let v := x.src l a
  let gr := writeO x.cond gr l 15 v v
  if n = 0x0F then modThr gr l (fun t => { t with fpstat := v.setWidth 5 })
  else if n = 0x10 then modThr gr l (fun t => { t with fpctl := v.setWidth 3 })
  else gr

/-- The thread that part leaves. -/
def afterMts (a : OField) (n : SIdx) (x : Ctx) (l : Nat) (t : Thread) : Thread :=
  { t with
    lt := x.src l a
    fpstat := if n = 0x0F then (x.src l a).setWidth 5 else t.fpstat
    fpctl := if n = 0x10 then (x.src l a).setWidth 3 else t.fpctl }

section
variable (a : OField) (n : SIdx) (x : Ctx) (gr : Grp) (l : Nat)

theorem thrAt_mtsStep (j : Nat) :
    thrAt (mtsStep a n x gr l) j = if j = l then afterMts a n x l (thrAt gr l) else thrAt gr j := by
  by_cases hstat : n = 0x0F
  · simp only [mtsStep, if_pos hstat, thrAt_modThr, thrAt_writeO_lt, if_true, afterMts]
    simp only [hstat]
    split <;> rfl
  · by_cases hctl : n = 0x10
    · simp only [mtsStep, if_neg hstat, if_pos hctl, thrAt_modThr, thrAt_writeO_lt, if_true, afterMts]
      split <;> rfl
    · simp only [mtsStep, if_neg hstat, if_neg hctl, thrAt_writeO_lt, afterMts]

theorem mtsStep_onlyThreads : ∃ ths k, mtsStep a n x gr l = { gr with threads := ths, k := k } := by
  have hlt := writeO_onlyThreads x.cond gr l 15 (x.src l a) (x.src l a)
  unfold mtsStep
  split
  · exact onlyThreads_trans hlt ⟨_, _, rfl⟩
  · split
    · exact onlyThreads_trans hlt ⟨_, _, rfl⟩
    · exact hlt

theorem mtsStep_k : (mtsStep a n x gr l).k = gr.k := by
  rw [← writeO_lt_k x.cond gr l (x.src l a), mtsStep]
  split
  · rfl
  · split <;> rfl

end

/-- The unit after mts with some participant, its clause not yet gone on. -/
def mtsUnit (a : OField) (n : SIdx) (x : Ctx) (g : Guard) (l0 : Nat) : Grp :=
  if n = 0x0D ∧ x.cond = false then { (x.parts g).foldl (mtsStep a n x) x.g with farestall := x.src l0 a, stallSet := true }
  else (x.parts g).foldl (mtsStep a n x) x.g

section
variable (a : OField) (n : SIdx) (x : Ctx) (g : Guard) (l0 : Nat)

theorem mtsUnit_frame : ∃ ths, mtsUnit a n x g l0 =
    { x.g with
      threads := ths
      farestall := if n = 0x0D ∧ x.cond = false then x.src l0 a else x.g.farestall
      stallSet := x.g.stallSet || (decide (n = 0x0D) && !x.cond) } := by
  obtain ⟨ths, hfold⟩ := foldl_threads (mtsStep_onlyThreads a n x) (mtsStep_k a n x) (x.parts g) x.g
  rw [mtsUnit, hfold]
  split
  · next h => exact ⟨ths, by simp [h.1, h.2]⟩
  · next h =>
    have hkeeps : (decide (n = 0x0D) && !x.cond) = false := by simpa using h
    exact ⟨ths, by rw [hkeeps, Bool.or_false]⟩

theorem thrAt_mtsUnit (l : Nat) : thrAt (mtsUnit a n x g l0) l = if l ∈ x.parts g then afterMts a n x l (x.thr l) else x.thr l := by
  have hfold : thrAt (mtsUnit a n x g l0) l = thrAt ((x.parts g).foldl (mtsStep a n x) x.g) l := by
    rw [mtsUnit]
    split <;> rfl
  rw [hfold]
  exact thrAt_foldl_lanes (thrAt_mtsStep a n x) (parts_nodup x g) x.g l

end

theorem advance_threads_farestall (gr : Grp) (ths : TMap Thread) (w : W32) (b : Bool) :
    advance { gr with threads := ths, farestall := w, stallSet := b } = { advance gr with threads := ths, farestall := w, stallSet := b } := by
  simp only [advance_eq]

section
variable {a : OField} {n : SIdx} {g : Guard} {s : State} {x : Ctx}

theorem exec_mts (hi : issues (.mts a n g) s x) {l0 : Nat} {r : List Nat} (hp : x.parts g = l0 :: r)
    (hok : ¬(n = 0x08 ∧ x.cond = false ∧ ((x.src l0 a).toNat % 8 = 0 ∨ 6 ≤ (x.src l0 a).toNat % 8))) :
    exec (.mts a n g) s = .next
      (if n = 0x08 ∧ x.cond = false then writeSect (setUnit s x.u (advance (mtsUnit a n x g l0))) x.u ((x.src l0 a).toNat % 8)
       else setUnit s x.u (advance (mtsUnit a n x g l0))) := by
  refine (word_effect _ hi.1 hi.2).trans ?_
  simp only [hp]
  rw [if_neg hok, mtsUnit, hp]
  rfl

theorem exec_mts_undefined {l0 : Nat} {r : List Nat} (hi : issues (.mts a 0x08 g) s x) (hp : x.parts g = l0 :: r) (hc : x.cond = false)
    (hcode : (x.src l0 a).toNat % 8 = 0 ∨ 6 ≤ (x.src l0 a).toNat % 8) :
    exec (.mts a 0x08 g) s = .next (trapWord s x .illegal 0 (laneMask (x.parts g)) 0) := by
  refine (word_effect _ hi.1 hi.2).trans ?_
  simp only [hp]
  exact congrArg _ (if_pos ⟨trivial, hc, hcode⟩)

theorem exec_mts_idle (hi : issues (.mts a n g) s x) (hp : x.parts g = []) : exec (.mts a n g) s = .next (setUnit s x.u (advance x.g)) := by
  refine (word_effect _ hi.1 hi.2).trans ?_
  simp only [hp]

end

end Sys2Proof.Machine

namespace Sys2Proof.Claims

open Sys2Proof.Machine

/-- Settles O24: the unit that mts leaves is `mtsUnit`, and SECT alone lies outside it. -/
theorem specialRegisterWrites : Obligations.SpecialRegisterWrites := by
  unfold Obligations.SpecialRegisterWrites
  refine ⟨fun a n g s x l0 r hi hp hok => ?_, fun a g s x l0 r hi hp hc hcode => exec_mts_undefined hi hp hc hcode,
    fun a n g s x hi hp => exec_mts_idle hi hp⟩
  have hunit : ∃ ths, advance (mtsUnit a n x g l0) = { advance x.g with
      threads := ths, farestall := if n = 0x0D ∧ x.cond = false then x.src l0 a else x.g.farestall
      stallSet := x.g.stallSet || (decide (n = 0x0D) && !x.cond) } := by
    obtain ⟨ths, hframe⟩ := mtsUnit_frame a n x g l0
    exact ⟨ths, by rw [hframe, advance_threads_farestall]⟩
  have hlanes (l : Nat) := (thrAt_advance (mtsUnit a n x g l0) l).trans (thrAt_mtsUnit a n x g l0 l)
  refine ⟨_, exec_mts hi hp hok, ?_⟩
  by_cases hn : n = 0x08 ∧ x.cond = false
  · obtain ⟨honly, hg, hsect⟩ := writeSect_setUnit hi.1 (advance (mtsUnit a n x g l0)) ((x.src l0 a).toNat % 8)
    rw [if_pos hn, if_pos hn, hg]
    exact ⟨honly, hsect, hunit, hlanes⟩
  · beta_reduce
    rw [if_neg hn, if_neg hn, unitAt_setUnit_same, teamAt_setUnit_sect, issuing_team hi.1]
    exact ⟨onlySect_setUnit .., rfl, hunit, hlanes⟩

end Sys2Proof.Claims
end

section
/-! SUPPORT. Lane words (07 R170-R176): what a word that issues together in several groups leaves of them, and the sections its values
come from. -/

namespace Sys2Proof.Machine

open Sys2Proof.Claims

/-! ## The groups of a lane word (07 R170, 13 R301) -/

theorem partner_ne (u : UnitId) : partner u ≠ u := by
  intro h
  have hidx := congrArg UnitId.idx h
  simp only [partner] at hidx
  split at hidx <;> omega

/-- The groups in which a lane word issues together are different units. -/
theorem laneGroup_nodup {s : State} {x : Ctx} {xs : List Ctx} (h : laneGroup s x = some xs) : (xs.map (·.u)).Nodup := by
  have hne := partner_ne x.u
  unfold laneGroup at h
  split at h
  · obtain rfl := Option.some.inj h
    simp
  · dsimp only at h
    split at h
    · obtain rfl := Option.some.inj h
      simp
    · split_ifs at h
      all_goals obtain rfl := Option.some.inj h
      all_goals simp [hne, hne.symm]

theorem laneGroup_alone (s : State) {x : Ctx} (hp : x.t.pairMode = false) : laneGroup s x = some [x] := by
  rw [laneGroup, hp]
  rfl

/-- Units written one after another: each holds what was written to it. -/
theorem unitAt_foldl_setUnit_ne (ys : List Ctx) (G : Ctx → Grp) (s : State) {u : UnitId} (hu : u ∉ ys.map (·.u)) :
    unitAt (ys.foldl (fun s y => setUnit s y.u (G y)) s) u = unitAt s u := by
  induction ys generalizing s with
  | nil => rfl
  | cons y ys ih =>
    simp only [List.map_cons, List.mem_cons, not_or] at hu
    rw [List.foldl_cons, ih _ hu.2, unitAt_setUnit_ne _ _ hu.1]

theorem unitAt_foldl_setUnit {ys : List Ctx} (hys : (ys.map (·.u)).Nodup) (G : Ctx → Grp) (s : State) {y : Ctx} (hy : y ∈ ys) :
    unitAt (ys.foldl (fun s y => setUnit s y.u (G y)) s) y.u = G y := by
  induction ys generalizing s with
  | nil => simp at hy
  | cons z ys ih =>
    simp only [List.map_cons, List.nodup_cons] at hys
    rw [List.foldl_cons]
    obtain rfl | hy := List.mem_cons.1 hy
    · rw [unitAt_foldl_setUnit_ne _ _ _ hys.1, unitAt_setUnit_same]
    · exact ih hys.2 _ hy

/-! ## The shapes of lane words -/

/-- A lane word whose participants each write their own lane, in every group in which it issues. -/
theorem laneWords_of_step {i : Instr} {g : Guard} {a : OField} {post : List (Nat × W32) → Ctx → Nat → Thread → Thread → Prop}
    (f : List (Nat × W32) → Ctx → Nat → Grp → Grp) (F : List (Nat × W32) → Ctx → Nat → Thread → Thread)
    (hexec : ∀ s, exec i s = laneWord i g a f s)
    (hthr : ∀ ps y l gr j, thrAt (f ps y l gr) j = if j = l then F ps y l (thrAt gr l) else thrAt gr j)
    (honly : ∀ ps y l gr, ∃ ths k, f ps y l gr = { gr with threads := ths, k := k })
    (hpost : ∀ ps y l t, post ps y l t (F ps y l t)) : laneWords i g a post := by
  intro s x xs hi hxs
  let G (y : Ctx) : Grp := advance ((y.parts g).foldl (fun gr l => f (sources xs g a) y l gr) y.g)
  have heffect : exec i s = .next (xs.foldl (fun s y => setUnit s y.u (G y)) s) := by
    rw [hexec, laneWord, word_effect _ hi.1 hi.2, hxs]
  have hunit (y : Ctx) (hy : y ∈ xs) : unitAt (xs.foldl (fun s y => setUnit s y.u (G y)) s) y.u = G y :=
    unitAt_foldl_setUnit (laneGroup_nodup hxs) G s hy
  refine ⟨_, heffect, ?_, fun y hy => ?_⟩
  · exact (List.foldl_ext _ _ _ fun s y hy => by rw [hunit y hy]).symm
  · rw [hunit y hy]
    have hlanes (l : Nat) := (thrAt_advance _ l).trans
      (thrAt_foldl_lanes (fun gr l j => hthr (sources xs g a) y l gr j) (parts_nodup y g) y.g l)
    obtain ⟨ths, k, hfold⟩ := foldl_onlyThreads _ (fun gr l => honly (sources xs g a) y l gr) (y.parts g) y.g
    refine ⟨⟨ths, k, ?_⟩, fun l hl => ?_, fun l hl => ?_⟩
    · rw [← advance_onlyThreads, ← hfold]
    · exact (hlanes l).trans (if_neg hl)
    · exact ((hlanes l).trans (if_pos hl)).symm ▸ hpost _ y l _

theorem wroteP_afterP_quiet (p : PIdx) (b : Bool) (t : Thread) : wroteP p b 0 t (afterP p b t) :=
  ⟨by simp [afterP], fun _ hn => getLsbD_afterP p b t hn⟩

section
variable {i : Instr} {g : Guard} {d a : OField}

theorem laneWords_of_laneAlu {f : List (Nat × W32) → Ctx → Nat → W32 × BitVec 5} (hexec : ∀ s, exec i s = laneAlu i g d a f s) :
    laneWords i g a (fun ps y l => wrote32 false d (f ps y l).1 (f ps y l).2) :=
  laneWords_of_step (fun ps y l gr => orFlags (writeO false gr l d (f ps y l).1 (f ps y l).1) l (f ps y l).2)
    (fun ps y l t => { afterO false d (f ps y l).1 (f ps y l).1 t with fpstat := t.fpstat ||| (f ps y l).2 }) hexec
    (fun ps y l gr j => by
      simp only [thrAt_orFlags, thrAt_writeO, if_true]
      split <;> rfl)
    (fun _ _ _ _ => onlyThreads_trans (writeO_onlyThreads ..) (orFlags_onlyThreads ..))
    (fun _ _ _ _ => wrote32_afterO_flags ..)

theorem laneVal_of_laneAlu {val : List (Nat × W32) → Ctx → Nat → W32}
    (hexec : ∀ s, exec i s = laneAlu i g d a (fun ps y l => (val ps y l, 0)) s) : laneVal i g d a val := laneWords_of_laneAlu hexec

theorem lanePred_of_laneP {p : PIdx} {r : List (Nat × W32) → Ctx → Nat → Bool} {c : List (Nat × W32) → Ctx → Nat → Prop}
    (hexec : ∀ s, exec i s = laneP i g p a r s) (hr : ∀ ps y l, r ps y l = true ↔ c ps y l) : lanePred i g p a c := by
  intro f hf
  obtain rfl : f = r := funext fun ps => funext₂ fun y l => Bool.eq_iff_iff.2 ((hf ps y l).trans (hr ps y l).symm)
  exact laneWords_of_step (fun ps y l gr => writeP gr l p (f ps y l)) (fun ps y l => afterP p (f ps y l)) hexec
    (fun _ _ _ _ _ => thrAt_writeP ..) (fun _ _ _ _ => writeP_onlyThreads ..) (fun _ _ _ _ => wroteP_afterP_quiet ..)

end

/-! ## Exchanges and votes (07 R171, R174) -/

theorem tget_eq_find {α : Type} (d : α) (m : TMap α) (k : Nat) : tget d m k = ((m.find? (fun e => e.1 == k)).map (·.2)).getD d := by
  have hfind : tget? m k = (m.find? (fun e => e.1 == k)).map (·.2) := by
    induction m with
    | nil => rfl
    | cons e m ih =>
      rw [tget?_cons, List.find?_cons]
      by_cases h : e.1 = k
      · rw [if_pos h, beq_iff_eq.2 h]
        rfl
      · rw [if_neg h, beq_eq_false_iff_ne.2 h, ih]
  rw [tget, hfind]

theorem sectionOf_eq_mates (y : Ctx) (l : Nat) (ps : List (Nat × W32)) : sectionOf y.width (y.laneNo l) ps = mates y l ps := rfl

/-- The lane a shuffle reads is counted from the section's first lane. -/
theorem shflFrom_eq_shuffled (m : ShflMode) (y : Ctx) (l k : Nat) : shflFrom m y.width (y.laneNo l) k = shuffled m y l k := by
  cases m with
  | idx => rfl
  | xor => rfl
  | up =>
    unfold shflFrom shuffled
    dsimp only
    split <;> split <;> first | rfl | omega
  | down =>
    unfold shflFrom shuffled
    dsimp only
    split <;> split <;> first | rfl | omega

/-- What a participant of a shuffle receives. -/
def shflValue (m : ShflMode) (a b : OField) (ps : List (Nat × W32)) (y : Ctx) (l : Nat) : W32 × BitVec 5 :=
  match shflFrom m y.width (y.laneNo l) (y.src l b).toNat with
  | none => (y.src l a, 0)
  | some j => (tget (y.src l a) ps j, 0)

/-- The outcome of a vote of a lane's section. -/
def voteHolds (k : VoteKind) (ps : List (Nat × W32)) (y : Ctx) (l : Nat) : Bool :=
  let vs := (sectionOf y.width (y.laneNo l) ps).map (·.2)
  match k with
  | .all => vs.all (· != 0)
  | .any => vs.any (· != 0)
  | .uni => vs.all (fun v => v == vs.headD 0)

/-- A vote is uniform when the values are one. -/
theorem all_eq_headD_iff (vs : List W32) : vs.all (fun v => v == vs.headD 0) = true ↔ ∀ v ∈ vs, ∀ w ∈ vs, v = w := by
  simp only [List.all_eq_true, beq_iff_eq]
  constructor
  · exact fun h v hv w hw => (h v hv).trans (h w hw).symm
  · intro h v hv
    cases vs with
    | nil => simp at hv
    | cons u vs => exact h v hv u List.mem_cons_self

/-- The lanes of a ballot taken by a group alone. -/
theorem getLsbD_ballot {x : Ctx} (hp : x.t.pairMode = false) (g : Guard) (a : OField) (l : Nat) {j : Nat} (hj : j < 32) :
    (maskFor x (((mates x l (sources [x] g a)).filter (fun q => q.2 != 0)).map (·.1))).getLsbD j = true ↔
      j ∈ x.parts g ∧ j / x.width = l / x.width ∧ x.src j a ≠ 0 := by
  have hlane (l : Nat) : x.laneNo l = l := by rw [Ctx.laneNo, hp]; rfl
  have hmask (ls : List Nat) : maskFor x ls = laneMask ls := by rw [maskFor, hp]; rfl
  rw [hmask, getLsbD_laneMask _ hj]
  simp [mates, sources, hlane]
  grind

end Sys2Proof.Machine

namespace Sys2Proof.Claims

open Sys2Proof.Machine

/-- Settles O17: each word is a lane word with a value or a predicate taken from the reader's section. -/
theorem laneExchangeResults : Obligations.LaneExchangeResults := by
  unfold Obligations.LaneExchangeResults
  have hballot (d a : OField) (g : Guard) : laneVal (.voteBallot d a g) g d a
      (fun ps y l => maskFor y (((mates y l ps).filter (fun q => q.2 != 0)).map (·.1))) := laneVal_of_laneAlu fun _ => rfl
  refine ⟨?shfl, ?all, ?any, ?uni, ?ballotAlone, hballot, ?matchAny, ?matchAll, ?elect⟩
  case shfl =>
    intro d a b g m
    have hexec (s : State) : exec (.shfl d a b g m) s = laneAlu (.shfl d a b g m) g d a (shflValue m a b) s := rfl
    refine laneVal_of_laneAlu fun s => (hexec s).trans ?_
    congr 1
    funext ps y l
    rw [shflValue, shflFrom_eq_shuffled]
    cases shuffled m y l (y.src l b).toNat with
    | none => rfl
    | some j => dsimp only; rw [tget_eq_find]
  case all =>
    refine fun p a g => lanePred_of_laneP (r := voteHolds .all) (fun _ => rfl) fun ps y l => ?_
    simp [voteHolds, sectionOf_eq_mates]
  case any =>
    refine fun p a g => lanePred_of_laneP (r := voteHolds .any) (fun _ => rfl) fun ps y l => ?_
    simp [voteHolds, sectionOf_eq_mates]
  case uni =>
    refine fun p a g => lanePred_of_laneP (r := voteHolds .uni) (fun _ => rfl) fun ps y l => ?_
    simp only [voteHolds, sectionOf_eq_mates, all_eq_headD_iff, List.forall_mem_map]
  case ballotAlone =>
    intro d a g s x hi hp
    obtain ⟨t, he, -, hlanes⟩ := hballot d a g s x [x] hi (laneGroup_alone s hp)
    obtain ⟨-, -, hpost⟩ := hlanes x (List.mem_singleton_self x)
    refine ⟨t, he, fun l hl j hj => ?_⟩
    have hlt : (thrAt (unitAt t x.u) l).lt = _ := congrArg Thread.lt (hpost l hl).1
    rw [hlt]
    exact getLsbD_ballot hp g a l hj
  case matchAny => exact fun _ _ _ => laneVal_of_laneAlu fun _ => rfl
  case matchAll => exact fun _ _ _ => laneVal_of_laneAlu fun _ => rfl
  case elect =>
    exact fun _ _ => lanePred_of_laneP (r := fun ps y l => ((mates y l ps).head?.map (·.1)) == some (y.laneNo l)) (fun _ => rfl)
      fun _ _ _ => beq_iff_eq

end Sys2Proof.Claims
end

section
/-! SUPPORT. prmt (07 R172): four bytes, each chosen from the eight of two words. -/

namespace Sys2Proof.Machine

/-- The word of four bytes. -/
def wordOfBytes (p : Nat → Nat) : W32 := BitVec.ofNat 32 (p 0 + p 1 * 2 ^ 8 + p 2 * 2 ^ 16 + p 3 * 2 ^ 24)

theorem toNat_wordOfBytes {p : Nat → Nat} (hp : ∀ i, p i < 256) :
    (wordOfBytes p).toNat = p 0 + p 1 * 2 ^ 8 + p 2 * 2 ^ 16 + p 3 * 2 ^ 24 := by
  have h0 := hp 0
  have h1 := hp 1
  have h2 := hp 2
  have h3 := hp 3
  rw [wordOfBytes, BitVec.toNat_ofNat, Nat.mod_eq_of_lt (by omega)]

theorem extractLsb'_wordOfBytes {p : Nat → Nat} (hp : ∀ i, p i < 256) {i : Nat} (hi : i < 4) :
    (wordOfBytes p).extractLsb' (8 * i) 8 = BitVec.ofNat 8 (p i) := by
  have h0 := hp 0
  have h1 := hp 1
  have h2 := hp 2
  have h3 := hp 3
  have hbyte : (p 0 + p 1 * 2 ^ 8 + p 2 * 2 ^ 16 + p 3 * 2 ^ 24) / 2 ^ (8 * i) % 2 ^ 8 = p i := by
    obtain rfl | rfl | rfl | rfl : i = 0 ∨ i = 1 ∨ i = 2 ∨ i = 3 := by omega
    all_goals omega
  apply BitVec.eq_of_toNat_eq
  rw [BitVec.extractLsb'_toNat, toNat_wordOfBytes hp, BitVec.toNat_ofNat, Nat.shiftRight_eq_div_pow, hbyte]
  exact (Nat.mod_eq_of_lt (hp i)).symm

theorem prmtByte_lt (a b c : W32) (i : Nat) : prmtByte a b c i < 256 := by
  unfold prmtByte
  dsimp only
  split
  · exact Nat.mod_lt _ (by decide)
  · split <;> decide

/-- A nibble's byte of b : a, or that byte's sign in all its bits. -/
theorem prmtByte_eq (a b c : W32) (i : Nat) :
    BitVec.ofNat 8 (prmtByte a b c i) =
      (let n := c.toNat / 2 ^ (4 * i) % 16
       let v : W64 := b ++ a
       let byte : Byte := v.extractLsb' (8 * (n % 8)) 8
       if n < 8 then byte else if byte.getLsbD 7 then 0xFF else 0x00) := by
  have hval : (b ++ a : W64).toNat = b.toNat * 2 ^ 32 + a.toNat := by
    rw [BitVec.toNat_append, Nat.shiftLeft_eq, ← Nat.shiftLeft_eq, Nat.shiftLeft_add_eq_or_of_lt a.isLt]
  have hbyte (k : Nat) : ((b ++ a : W64).extractLsb' k 8).toNat = (b.toNat * 2 ^ 32 + a.toNat) / 2 ^ k % 256 := by
    rw [BitVec.extractLsb'_toNat, hval, Nat.shiftRight_eq_div_pow]
  rw [prmtByte]
  dsimp only
  rw [← hbyte]
  generalize (b ++ a : W64).extractLsb' (8 * (c.toNat / 2 ^ (4 * i) % 16 % 8)) 8 = byte
  have hsign : byte.getLsbD 7 = decide (128 ≤ byte.toNat) := by
    have hlt := byte.isLt
    rw [← BitVec.testBit_toNat, Nat.testBit_eq_decide_div_mod_eq]
    exact decide_eq_decide.2 (by omega)
  rw [hsign]
  split
  · simp
  · by_cases h : 128 ≤ byte.toNat <;> simp [h]

end Sys2Proof.Machine

namespace Sys2Proof.Claims

open Sys2Proof.Machine

/-- Settles O16, byte by byte. -/
theorem bytePermutationResult : Obligations.BytePermutationResult := by
  unfold Obligations.BytePermutationResult
  refine fun d a b c g => ⟨fun u v w => wordOfBytes (prmtByte u v w),
    result3_of_alu3 (r := fun u v w => wordOfBytes (prmtByte u v w)) (fun _ => rfl) fun _ _ _ => rfl,
    fun u v w i hi => ?_⟩
  exact (extractLsb'_wordOfBytes (prmtByte_lt u v w) hi).trans (prmtByte_eq u v w i)

end Sys2Proof.Claims
end

section
/-! SUPPORT. Reductions, scans and sect (07 R174-R176). -/

namespace Sys2Proof.Machine

open Sys2Proof.Claims

/-- The mode, saturation and flushing of a word in a thread: the hint's and FPCTL's (07 R161). -/
theorem fenv_eq_envOf (x : Ctx) (l : Nat) : x.fenv l = envOf x l := by
  have hbit {n : Nat} (w : BitVec n) (k : Nat) : (w.extractLsb' k 1 == 1) = w.getLsbD k := by
    rw [Bool.eq_iff_iff, beq_iff_eq]
    constructor
    · intro h
      have := congrArg (fun v => v.getLsbD 0) h
      simpa using this
    · intro h
      refine BitVec.eq_of_getLsbD_eq fun i hi => ?_
      obtain rfl : i = 0 := by omega
      simpa using h
  unfold Ctx.fenv envOf
  cases x.cl.hints.modifier with
  | none =>
    dsimp only
    rw [hbit]
    rfl
  | some p =>
    have hro : p.extractLsb' 23 1 = 1 ↔ p.getLsbD 23 = true := by rw [← hbit, beq_iff_eq]
    dsimp only
    rw [hbit, hbit, apply_ite rmodeOf, Option.getD_some]
    simp only [hro]

theorem redStep_eq (o : RedOp) (env : FEnv) (a b : W32) : redStep o env a b = step1 o env a b := by
  cases o with
  | minI => rw [redStep, minS_eq]; rfl
  | maxI => rw [redStep, maxS_eq]; rfl
  | minN => rw [redStep, minU_eq]; rfl
  | maxN => rw [redStep, maxU_eq]; rfl
  | _ => rfl

theorem redFold_eq (o : RedOp) (env : FEnv) (vs : List W32) : redFold o env vs = combined o env vs := by
  cases vs with
  | nil => cases o <;> rfl
  | cons v vs => simp only [redFold, combined, redStep_eq]

/-- The unit after sect, its clause not yet gone on. -/
def sectUnit (x : Ctx) (g : Guard) (w : SectWidth) : Grp :=
  (x.parts g).foldl (fun gr l => writeO false gr l 15 (BitVec.ofNat 32 (sectCode w)) (BitVec.ofNat 32 (sectCode w))) x.g

theorem exec_sect {g : Guard} {w : SectWidth} {s : State} {x : Ctx} (hi : issues (.sect g w) s x) :
    exec (.sect g w) s = .next
      (if x.parts g = [] then setUnit s x.u (advance (sectUnit x g w))
       else writeSect (setUnit s x.u (advance (sectUnit x g w))) x.u (sectCode w)) := word_effect _ hi.1 hi.2

theorem thrAt_sectUnit (x : Ctx) (g : Guard) (w : SectWidth) (l : Nat) :
    thrAt (sectUnit x g w) l = if l ∈ x.parts g then { x.thr l with lt := BitVec.ofNat 32 (sectCode w) } else x.thr l :=
  thrAt_foldl_lanes (F := fun _ t => { t with lt := BitVec.ofNat 32 (sectCode w) }) (fun _ _ _ => thrAt_writeO_lt ..) (parts_nodup x g) x.g l

theorem sectUnit_onlyThreads (x : Ctx) (g : Guard) (w : SectWidth) : onlyThreads x.g (advance (sectUnit x g w)) := by
  obtain ⟨ths, k, hfold⟩ := foldl_onlyThreads _ (fun _ _ => writeO_onlyThreads ..) (x.parts g) x.g
  exact ⟨ths, k, by rw [← advance_onlyThreads, ← hfold]; rfl⟩

end Sys2Proof.Machine

namespace Sys2Proof.Claims

open Sys2Proof.Machine

/-- Settles O18: a reduction and a scan combine values of the section, and sect writes its unit and its team's SECT. -/
theorem reductionAndScanResults : Obligations.ReductionAndScanResults := by
  unfold Obligations.ReductionAndScanResults
  have hcombined (o : RedOp) (y : Ctx) (l : Nat) (vs : List W32) : combined o (envOf y l) vs = redFold o (y.fenv l) vs := by
    rw [redFold_eq, fenv_eq_envOf]
  simp only [hcombined]
  refine ⟨fun _ _ _ _ => laneWords_of_laneAlu fun _ => rfl, fun _ _ _ _ => laneWords_of_laneAlu fun _ => rfl,
    fun _ _ _ _ => laneWords_of_laneAlu fun _ => rfl, fun g w c hc s x hi => ?_⟩
  obtain rfl : c = sectCode w := by
    simp only [List.mem_cons, Prod.mk.injEq, List.not_mem_nil, or_false] at hc
    obtain ⟨rfl, rfl⟩ | ⟨rfl, rfl⟩ | ⟨rfl, rfl⟩ | ⟨rfl, rfl⟩ | ⟨rfl, rfl⟩ := hc <;> rfl
  have hlanes (l : Nat) := (thrAt_advance (sectUnit x g w) l).trans (thrAt_sectUnit x g w l)
  refine ⟨_, exec_sect hi, ?_⟩
  by_cases hp : x.parts g = []
  · beta_reduce
    rw [if_pos hp, if_pos hp, unitAt_setUnit_same, teamAt_setUnit_sect, issuing_team hi.1]
    exact ⟨rfl, onlySect_setUnit .., sectUnit_onlyThreads x g w, hlanes⟩
  · obtain ⟨honly, hunit, hsect⟩ := writeSect_setUnit hi.1 (advance (sectUnit x g w)) (sectCode w)
    rw [if_neg hp, if_neg hp, hunit]
    exact ⟨hsect, honly, sectUnit_onlyThreads x g w, hlanes⟩

end Sys2Proof.Claims
end

section
/-! SUPPORT. tlu (07 R173): the outcomes of a read of read-only data, and the lanes whose values it answers. -/

namespace Sys2Proof.Machine

open Sys2Proof.Claims

/-! ## Reads of read-only data -/

/-- The address of an offset in a kernel's read-only data. -/
def dataAddr (x : Ctx) (o : Nat) : W64 := BitVec.ofNat 64 (x.t.kernel.dataBase + o)

section
variable {s : State} {x : Ctx} {size : Nat} {offs : List (Nat × Nat)}

theorem dataRead_misaligned (hmis : offs.filter (fun o => (dataAddr x o.2).toNat % size != 0) ≠ []) :
    dataRead s x size offs =
      .stop (trapWord s x .misaligned 0 (laneMask ((offs.filter (fun o => (dataAddr x o.2).toNat % size != 0)).map (·.1)))
        (dataAddr x ((offs.filter (fun o => (dataAddr x o.2).toNat % size != 0)).headD (0, 0)).2)) := by
  obtain ⟨m, ms, hcons⟩ := List.exists_cons_of_ne_nil hmis
  unfold dataRead
  simp only [dataAddr] at hcons ⊢
  rw [hcons]
  rfl

theorem dataRead_beyond (hmis : offs.filter (fun o => (dataAddr x o.2).toNat % size != 0) = []) (hbad : dataBad x size offs ≠ []) :
    dataRead s x size offs =
      .stop (trapWord s x .accessViolation 1 (laneMask ((dataBad x size offs).map (·.1)))
        (dataAddr x ((dataBad x size offs).headD (0, 0)).2)) := by
  obtain ⟨b, bs, hcons⟩ := List.exists_cons_of_ne_nil hbad
  unfold dataRead
  simp only [dataAddr] at hmis ⊢
  rw [hmis, hcons]
  rfl

theorem dataRead_held (hmis : offs.filter (fun o => (dataAddr x o.2).toNat % size != 0) = []) (hbad : dataBad x size offs = []) :
    dataRead s x size offs = heldRead s x .glb size size (offs.map (fun o => (o.1, dataAddr x o.2))) := by
  unfold dataRead
  simp only [dataAddr] at hmis ⊢
  rw [hmis, hbad]

end

/-! ## The lanes that take values -/

/-- One lane's value. -/
def tluStep (d : OField) (gr : Grp) (e : Nat × List Byte) : Grp := writeO false gr e.1 d (bytesToW32 e.2) (bytesToW32 e.2)

/-- Of two values written to one lane the second stands. -/
theorem wrote32_afterO_again {d : OField} {v w : W32} {old t : Thread} (h : wrote32 false d v 0 old t) :
    wrote32 false d w 0 old (afterO false d w w t) := by
  obtain ⟨hframe, ht⟩ := h
  refine ⟨by rw [hframe]; rfl, fun n => ?_⟩
  rw [afterO_t, ht]
  split <;> rfl

/-- The last of a lane's values stands. -/
theorem thrAt_foldl_tluStep (d : OField) (vs : TMap (List Byte)) (gr : Grp) (l : Nat) :
    match (vs.filter (fun e => e.1 == l)).getLast? with
    | none => thrAt (vs.foldl (tluStep d) gr) l = thrAt gr l
    | some e => wrote32 false d (bytesToW32 e.2) 0 (thrAt gr l) (thrAt (vs.foldl (tluStep d) gr) l) := by
  induction vs using List.reverseRecOn with
  | nil => rfl
  | append_singleton vs e ih =>
    rw [List.foldl_concat, List.filter_append, tluStep, thrAt_writeO]
    by_cases h : l = e.1
    · subst h
      simp only [List.filter_cons, beq_self_eq_true, if_true, List.filter_nil, List.getLast?_concat]
      cases hlast : (vs.filter (fun f => f.1 == e.1)).getLast? with
      | none =>
        rw [hlast] at ih
        exact ih ▸ wrote32_afterO ..
      | some f =>
        rw [hlast] at ih
        exact wrote32_afterO_again ih
    · have hne : (e.1 == l) = false := beq_eq_false_iff_ne.2 (Ne.symm h)
      simpa only [List.filter_cons, hne, Bool.false_eq_true, if_false, List.filter_nil, List.append_nil, if_neg h] using ih

theorem foldl_tluStep_onlyThreads (d : OField) (vs : TMap (List Byte)) (gr : Grp) :
    ∃ ths k, vs.foldl (tluStep d) gr = { gr with threads := ths, k := k } :=
  foldl_lane_onlyThreads (fun _ _ => writeO_onlyThreads ..) vs gr

/-! ## The word -/

/-- The offsets of a look-up's participants. -/
def tluOffsets (x : Ctx) (g : Guard) (a b : OField) (n : Nat) : List (Nat × Nat) :=
  (x.parts g).map (fun l => (l, (x.src l b).toNat + n * ((x.src l a).toNat % 256)))

section
variable {d a b : OField} {g : Guard} {w : TluKind} {s : State} {x : Ctx}

theorem exec_tlu_stops (hi : issues (.tlu d a b g w) s x) {t : State}
    (hread : dataRead s x (tluBytes w) (tluOffsets x g a b (tluBytes w)) = .stop t) : exec (.tlu d a b g w) s = .next t := by
  refine (word_effect _ hi.1 hi.2).trans ?_
  simp only [tluOffsets] at hread
  simp only [hread]

theorem exec_tlu_values (hi : issues (.tlu d a b g w) s x) {t : State} {vs : TMap (List Byte)}
    (hread : dataRead s x (tluBytes w) (tluOffsets x g a b (tluBytes w)) = .vals t vs) :
    exec (.tlu d a b g w) s = .next (setUnit t x.u (advance (vs.foldl (tluStep d) (unitAt t x.u)))) := by
  refine (word_effect _ hi.1 hi.2).trans ?_
  simp only [tluOffsets] at hread
  simp only [hread]
  rfl

end

end Sys2Proof.Machine

namespace Sys2Proof.Claims

open Sys2Proof.Machine

/-- Settles O19: the look-up's read stops at its first cause, or answers the values that its lanes take. -/
theorem tableLookupCompletes : Obligations.TableLookupCompletes := by
  unfold Obligations.TableLookupCompletes
  intro d a b g w s x hi n offs mis bad
  obtain hn : n = tluBytes w := by cases w <;> rfl
  clear_value n
  subst hn
  refine ⟨fun s1 vs hmis hbad hread => ?_, fun hmis hbad => exec_tlu_stops hi (dataRead_beyond hmis hbad),
    fun hmis => exec_tlu_stops hi (dataRead_misaligned hmis)⟩
  refine ⟨_, exec_tlu_values hi ((dataRead_held hmis hbad).trans hread), onlyUnit_setUnit .., ?_⟩
  rw [unitAt_setUnit_same]
  obtain ⟨ths, k, hfold⟩ := foldl_tluStep_onlyThreads d vs (unitAt s1 x.u)
  refine ⟨⟨ths, k, by rw [hfold, advance_onlyThreads]⟩, fun l => ?_⟩
  rw [thrAt_advance]
  exact thrAt_foldl_tluStep d vs (unitAt s1 x.u) l

end Sys2Proof.Claims
end

section
/-! SUPPORT. Comparisons, selections and classes of binary32 values (07 R162), and arithmetic that rounds once (07 R161, R163). -/

namespace Sys2Proof.Machine

open Sys2Proof.Claims

/-! ## Kinds of values -/

theorem isNan_iff (x : FVal) : isNan x = true ↔ aNan x := by
  cases x <;> simp [isNan, aNan]

theorem isNan_eq_false_iff (x : FVal) : isNan x = false ↔ ¬aNan x := by
  rw [← isNan_iff, Bool.not_eq_true]

theorem isSig_iff (x : FVal) : isSig x = true ↔ x = .nan true := by
  cases x <;> simp [isSig]

/-- The flags of a comparison or selection. -/
theorem sigFlags_iff (x y : FVal) (fl : BitVec 5) : sigFlags x y fl ↔ fl = nvIf (isSig x || isSig y) := by
  have hsig : (isSig x || isSig y) = true ↔ (x = .nan true ∨ y = .nan true) := by rw [Bool.or_eq_true, isSig_iff, isSig_iff]
  unfold sigFlags nvIf
  by_cases h : x = .nan true ∨ y = .nan true
  · rw [if_pos (hsig.2 h)]
    exact ⟨fun hf => hf.1 h, fun hf => ⟨fun _ => hf, fun hn => absurd h hn⟩⟩
  · rw [if_neg (mt hsig.1 h)]
    exact ⟨fun hf => hf.2 h, fun hf => ⟨fun hn => absurd hn h, fun _ => hf⟩⟩

/-! ## The numeric order -/

theorem num_nonneg (m : Nat) (e : Int) : 0 ≤ num m e := by unfold num; positivity

theorem num_pos {m : Nat} (hm : m ≠ 0) (e : Int) : 0 < num m e := by
  have : 0 < m := Nat.pos_of_ne_zero hm
  unfold num
  positivity

/-- A magnitude over a finer last place. -/
theorem num_mul_two_pow (m k : Nat) (e : Int) : num (m * 2 ^ k) e = num m (e + k) := by
  rw [num, num, Nat.cast_mul, Nat.cast_pow, Nat.cast_ofNat, zpow_add₀ two_ne_zero, zpow_natCast]
  ring

/-- A signed number over a finer last place, as an integer of its last places. -/
theorem signed_eq_signedM (n : Bool) (m : Nat) {e e1 : Int} (he : e ≤ e1) :
    signed n m e1 = (signedM n (m * 2 ^ (e1 - e).toNat) : ℚ) * 2 ^ e := by
  have hnum : num m e1 = ((m * 2 ^ (e1 - e).toNat : Nat) : ℚ) * 2 ^ e := by
    have h := num_mul_two_pow m (e1 - e).toNat e
    rw [show e + ((e1 - e).toNat : Int) = e1 by omega] at h
    exact h.symm
  cases n with
  | false => simp [signed, signedM, hnum]
  | true => simp [signed, signedM, hnum]

/-- Finite values are compared as the numbers they are. -/
theorem fcompare_fin (n1 n2 : Bool) (m1 m2 : Nat) (e1 e2 : Int) :
    fcompare (.fin n1 m1 e1) (.fin n2 m2 e2) = compare (signed n1 m1 e1) (signed n2 m2 e2) := by
  have hpos : (0 : ℚ) < 2 ^ min e1 e2 := by positivity
  rw [signed_eq_signedM n1 m1 (min_le_left e1 e2), signed_eq_signedM n2 m2 (min_le_right e1 e2)]
  simp only [fcompare]
  generalize signedM n1 (m1 * 2 ^ (e1 - min e1 e2).toNat) = u
  generalize signedM n2 (m2 * 2 ^ (e2 - min e1 e2).toNat) = v
  obtain h | h | h := lt_trichotomy u v
  · rw [compare_lt_iff_lt.2 h, compare_lt_iff_lt.2]
    exact mul_lt_mul_of_pos_right (Int.cast_lt.2 h) hpos
  · rw [h, compare_eq_iff_eq.2 rfl, compare_eq_iff_eq.2 rfl]
  · rw [compare_gt_iff_gt.2 h, compare_gt_iff_gt.2]
    exact mul_lt_mul_of_pos_right (Int.cast_lt.2 h) hpos

/-- Of values that are no NaN the lesser in fcompare is the one below. -/
theorem fcompare_lt_iff {x y : FVal} (hx : ¬aNan x) (hy : ¬aNan y) : fcompare x y = .lt ↔ below x y := by
  match x, y with
  | .nan s, _ => exact absurd ⟨s, rfl⟩ hx
  | .inf _, .nan s => exact absurd ⟨s, rfl⟩ hy
  | .fin _ _ _, .nan s => exact absurd ⟨s, rfl⟩ hy
  | .inf a, .inf b => cases a <;> cases b <;> simp [fcompare, below]
  | .inf a, .fin _ _ _ => cases a <;> simp [fcompare, below]
  | .fin _ _ _, .inf b => cases b <;> simp [fcompare, below]
  | .fin n1 m1 e1, .fin n2 m2 e2 => rw [fcompare_fin, compare_lt_iff_lt]; rfl

/-- The order of two values seen from the other. -/
theorem fcompare_swap {x y : FVal} (hx : ¬aNan x) (hy : ¬aNan y) : fcompare x y = (fcompare y x).swap := by
  match x, y with
  | .nan s, _ => exact absurd ⟨s, rfl⟩ hx
  | .inf _, .nan s => exact absurd ⟨s, rfl⟩ hy
  | .fin _ _ _, .nan s => exact absurd ⟨s, rfl⟩ hy
  | .inf a, .inf b => cases a <;> cases b <;> rfl
  | .inf a, .fin _ _ _ => cases a <;> rfl
  | .fin _ _ _, .inf b => cases b <;> rfl
  | .fin n1 m1 e1, .fin n2 m2 e2 => rw [fcompare_fin, fcompare_fin, Std.OrientedOrd.eq_swap]

theorem fcompare_gt_iff {x y : FVal} (hx : ¬aNan x) (hy : ¬aNan y) : fcompare x y = .gt ↔ below y x := by
  rw [← fcompare_lt_iff hy hx, fcompare_swap hx hy]
  cases fcompare y x <;> decide

theorem fcompare_eq_iff {x y : FVal} (hx : ¬aNan x) (hy : ¬aNan y) : fcompare x y = .eq ↔ ¬below x y ∧ ¬below y x := by
  rw [← fcompare_lt_iff hx hy, ← fcompare_gt_iff hx hy]
  cases fcompare x y <;> decide

/-! ## fmin and fmax -/

/-- The order that fminmax takes, as it computes it: that of the numbers, and -0 before +0. -/
def lessZ (x y : FVal) : Bool :=
  match fcompare x y with
  | .lt => true
  | .gt => false
  | .eq => isNegZero x && !isNegZero y

theorem isNegZero_iff (x : FVal) : isNegZero x = true ↔ ∃ e, x = .fin true 0 e := by
  cases x <;> simp [isNegZero, and_comm]

theorem signed_eq_zero_iff (n : Bool) (m : Nat) (e : Int) : signed n m e = 0 ↔ m = 0 := by
  have hpow : (2 : ℚ) ^ e ≠ 0 := by positivity
  cases n <;> simp [signed, num, hpow]

/-- A value that compares equal to minus zero is a zero. -/
theorem fcompare_negZero_eq {e : Int} {y : FVal} (hy : ¬aNan y) (h : fcompare (.fin true 0 e) y = .eq) : ∃ n f, y = .fin n 0 f := by
  match y with
  | .nan s => exact absurd ⟨s, rfl⟩ hy
  | .inf b => cases b <;> simp [fcompare] at h
  | .fin n m f =>
    rw [fcompare_fin, compare_eq_iff_eq, (signed_eq_zero_iff true 0 e).2 rfl] at h
    exact ⟨n, f, by rw [(signed_eq_zero_iff n m f).1 h.symm]⟩

theorem lessZ_iff {x y : FVal} (hx : ¬aNan x) (hy : ¬aNan y) : lessZ x y = true ↔ belowZ x y := by
  have hzeros (e f : Int) : fcompare (.fin true 0 e) (.fin false 0 f) = .eq := by
    rw [fcompare_fin, compare_eq_iff_eq, (signed_eq_zero_iff true 0 e).2 rfl, (signed_eq_zero_iff false 0 f).2 rfl]
  unfold lessZ belowZ
  rw [← fcompare_lt_iff hx hy]
  cases h : fcompare x y with
  | lt => simp
  | gt =>
    refine iff_of_false (by simp) ?_
    rintro (h' | ⟨e, f, rfl, rfl⟩)
    · cases h'
    · rw [hzeros] at h
      cases h
  | eq =>
    simp only [Bool.and_eq_true, isNegZero_iff, Bool.not_eq_true', reduceCtorEq, false_or]
    constructor
    · rintro ⟨⟨e, rfl⟩, hpos⟩
      obtain ⟨n, f, rfl⟩ := fcompare_negZero_eq hy h
      cases n
      · exact ⟨e, f, rfl, rfl⟩
      · cases hpos
    · rintro ⟨e, f, rfl, rfl⟩
      exact ⟨⟨e, rfl⟩, rfl⟩

theorem belowZ_asymm {x y : FVal} (hx : ¬aNan x) (hy : ¬aNan y) (h : belowZ x y) : ¬belowZ y x := by
  rw [← lessZ_iff hx hy] at h
  rw [← lessZ_iff hy hx, Bool.not_eq_true]
  unfold lessZ at h ⊢
  rw [fcompare_swap hy hx]
  cases hc : fcompare x y <;> rw [hc] at h <;> simp_all

theorem fminmax_eq (wantMax : Bool) (a b : W32) : fminmax wantMax a b =
    (if isNan (fv a) && isNan (fv b) then 0x7FC00000
     else if isNan (fv a) then b
     else if isNan (fv b) then a
     else if wantMax then (if lessZ (fv b) (fv a) then a else if lessZ (fv a) (fv b) then b else a)
     else (if lessZ (fv a) (fv b) then a else if lessZ (fv b) (fv a) then b else a), nvIf (isSig (fv a) || isSig (fv b))) := by
  by_cases hx : aNan (fv a)
  · simp only [fminmax, (isNan_iff _).2 hx]
    split <;> simp_all
  · by_cases hy : aNan (fv b)
    · simp [fminmax, (isNan_iff _).2 hy, (isNan_eq_false_iff _).2 hx]
    · have hless : lessZ (fv b) (fv a) = (match fcompare (fv a) (fv b) with
          | .gt => true
          | .lt => false
          | .eq => isNegZero (fv b) && !isNegZero (fv a)) := by
        rw [lessZ, fcompare_swap hy hx]
        cases fcompare (fv a) (fv b) <;> rfl
      simp only [fminmax, (isNan_eq_false_iff _).2 hx, (isNan_eq_false_iff _).2 hy, Bool.false_and, Bool.false_eq_true, if_false, hless]
      rfl

/-- R162 determines a selection. -/
theorem fminmax_eq_of_selects {wantMax : Bool} {a b : W32} {r : W32 × BitVec 5} (h : selects wantMax a b r) : fminmax wantMax a b = r := by
  obtain ⟨hfl, hboth, hleft, hright, hnone⟩ := h
  rw [fminmax_eq]
  refine Prod.ext ?_ ((sigFlags_iff ..).1 hfl).symm
  dsimp only
  by_cases hx : aNan (fv a)
  · rw [(isNan_iff _).2 hx]
    by_cases hy : aNan (fv b)
    · rw [(isNan_iff _).2 hy, hboth hx hy]; rfl
    · rw [(isNan_eq_false_iff _).2 hy, hleft hx hy]; rfl
  · rw [(isNan_eq_false_iff _).2 hx]
    by_cases hy : aNan (fv b)
    · rw [(isNan_iff _).2 hy, hright hx hy]; rfl
    · obtain ⟨hab, hba, heq⟩ := hnone hx hy
      rw [(isNan_eq_false_iff _).2 hy]
      by_cases h1 : belowZ (fv a) (fv b)
      · have h2 := belowZ_asymm hx hy h1
        rw [← lessZ_iff hy hx, Bool.not_eq_true] at h2
        rw [hab h1, (lessZ_iff hx hy).2 h1, h2]; rfl
      · by_cases h2 : belowZ (fv b) (fv a)
        · rw [hba h2, (lessZ_iff hy hx).2 h2]
          rw [← lessZ_iff hx hy, Bool.not_eq_true] at h1
          rw [h1]; rfl
        · rw [heq h1 h2]
          rw [← lessZ_iff hx hy, Bool.not_eq_true] at h1
          rw [← lessZ_iff hy hx, Bool.not_eq_true] at h2
          rw [h1, h2]
          exact ite_self a

/-! ## fclass, fsel and fcmp -/

/-- A finite value of binary32 without its leading bit is a subnormal or a zero. -/
theorem fv_fin_exponent {a : W32} {n : Bool} {m : Nat} {e : Int} (h : fv a = .fin n m e) (hm : m < 2 ^ 23) : e = -149 := by
  rw [fv, ieeeVal_eq] at h
  split_ifs at h
  · cases h; rfl
  · cases h
    exact absurd hm (by simp [f32])

theorem fclassMask_eq (a : W32) : fclassMask a = classBit a := by
  unfold fclassMask classBit
  cases h : fv a with
  | nan s => cases s <;> rfl
  | inf n => cases n <;> rfl
  | fin n m e =>
    have hsub : (m < 2 ^ 23 ∧ e = -149) ↔ m < 2 ^ 23 := and_iff_left_of_imp (fv_fin_exponent h)
    cases n <;> simp only [hsub, decide_eq_true_eq]

theorem fsel_eq (a b c : W32) : (if fselTest c then a else b) =
    (match fv c with
     | .nan _ => b
     | .inf neg => if neg then b else a
     | .fin neg m _ => if neg && m != 0 then b else a) := by
  unfold fselTest
  cases fv c with
  | nan s => rfl
  | inf n => cases n <;> rfl
  | fin n m e => cases n <;> by_cases hm : m = 0 <;> simp [hm]

/-- The flag of an order that no NaN has. -/
theorem anyNv_iff {p : Prop} {b : Bool} (hb : b = true ↔ p) (fl : BitVec 5) : ((p → fl = flagNV) ∧ (¬p → fl = 0)) ↔ fl = nvIf b := by
  cases b <;> simp_all [nvIf]

/-- A condition that holds only of values that have an order. -/
theorem ordered_and_iff {n q : Bool} {N Q : Prop} (hn : n = true ↔ N) (hq : ¬N → (q = true ↔ Q)) : (!n && q) = true ↔ ¬N ∧ Q := by
  rw [Bool.and_eq_true, Bool.not_eq_true', ← Bool.not_eq_true, hn]
  exact and_congr_right hq

/-- A condition that holds of values that have no order, too. -/
theorem unordered_or_iff {n q : Bool} {N Q : Prop} (hn : n = true ↔ N) (hq : ¬N → (q = true ↔ Q)) : (n || q) = true ↔ N ∨ Q := by
  rw [Bool.or_eq_true, hn]
  by_cases h : N
  · simp [h]
  · rw [hq h]

/-- fcmp goes by R162's table. -/
theorem fcompared_fcmpEval (k : FCond) (a b : W32) : fcompared k (fv a) (fv b) (fcmpEval k a b) := by
  have hnan : (isNan (fv a) || isNan (fv b)) = true ↔ (aNan (fv a) ∨ aNan (fv b)) := by
    rw [Bool.or_eq_true, isNan_iff, isNan_iff]
  have hord : ¬(aNan (fv a) ∨ aNan (fv b)) → ¬aNan (fv a) ∧ ¬aNan (fv b) := not_or.1
  have hsig := (sigFlags_iff (fv a) (fv b) _).2 rfl
  have hany := (anyNv_iff hnan _).2 rfl
  cases k with
  | eq => exact ⟨ordered_and_iff hnan fun h => by rw [beq_iff_eq, fcompare_eq_iff (hord h).1 (hord h).2], hsig⟩
  | ne =>
    refine ⟨unordered_or_iff hnan fun h => ?_, hsig⟩
    rw [bne_iff_ne, ne_eq, fcompare_eq_iff (hord h).1 (hord h).2]
    tauto
  | lt => exact ⟨ordered_and_iff hnan fun h => by rw [beq_iff_eq, fcompare_lt_iff (hord h).1 (hord h).2], hany⟩
  | le => exact ⟨ordered_and_iff hnan fun h => by rw [bne_iff_ne, ne_eq, fcompare_gt_iff (hord h).1 (hord h).2], hany⟩
  | gt => exact ⟨ordered_and_iff hnan fun h => by rw [beq_iff_eq, fcompare_gt_iff (hord h).1 (hord h).2], hany⟩
  | ge => exact ⟨ordered_and_iff hnan fun h => by rw [bne_iff_ne, ne_eq, fcompare_lt_iff (hord h).1 (hord h).2], hany⟩
  | un => exact ⟨hnan, hsig⟩
  | ord => exact ⟨by rw [← hnan, Bool.not_eq_true]; exact Bool.not_eq_true' _ ▸ Iff.rfl, hsig⟩

/-- The table's flags and predicate of two values are one answer. -/
theorem fcompared_unique {k : FCond} {x y : FVal} {r r' : Bool × BitVec 5} (h : fcompared k x y r) (h' : fcompared k x y r') : r = r' := by
  have hsig (h1 : sigFlags x y r.2) (h2 : sigFlags x y r'.2) : r.2 = r'.2 := ((sigFlags_iff ..).1 h1).trans ((sigFlags_iff ..).1 h2).symm
  have hany {p : Prop} (h1 : (p → r.2 = flagNV) ∧ (¬p → r.2 = 0)) (h2 : (p → r'.2 = flagNV) ∧ (¬p → r'.2 = 0)) : r.2 = r'.2 := by
    by_cases hp : p
    · rw [h1.1 hp, h2.1 hp]
    · rw [h1.2 hp, h2.2 hp]
  cases k
  case eq | ne | un | ord => exact Prod.ext (Bool.eq_iff_iff.2 (h.1.trans h'.1.symm)) (hsig h.2 h'.2)
  case lt | le | gt | ge => exact Prod.ext (Bool.eq_iff_iff.2 (h.1.trans h'.1.symm)) (hany h.2 h'.2)

/-- R162's table determines a comparison. -/
theorem fcmpEval_eq_of_fcompared {k : FCond} {a b : W32} {r : Bool × BitVec 5} (h : fcompared k (fv a) (fv b) r) : fcmpEval k a b = r :=
  fcompared_unique (fcompared_fcmpEval k a b) h

/-! ## Arithmetic that rounds once -/

/-- The halves of a packed pair. -/
theorem packed2_eq_halves (t : HalfKind) (env : FEnv) (op : FVal → FVal → FVal → FVal × Bool) (r : Nat → Nat → Nat → Nat × BitVec 5)
    (hr : ∀ u v w, r u v w = roundedTo (halfFmt t) env (op (ieeeVal (halfFmt t) u) (ieeeVal (halfFmt t) v) (ieeeVal (halfFmt t) w)))
    (a b c : W32) : packed2 r a b c = halves t env op a b c := by
  have hhigh (w : W32) : w.toNat / 2 ^ (16 * 1) % 65536 = w.toNat / 65536 := by have := w.isLt; omega
  simp only [packed2, halves, hr, hhigh, Nat.mul_zero, pow_zero, Nat.div_one]
  rw [Nat.add_comm]

end Sys2Proof.Machine

namespace Sys2Proof.Claims

open Sys2Proof.Machine

/-- Settles O12: sums and products round once in the thread's environment; selections, classes and comparisons go by the kinds of values
and their order. -/
theorem floatArithmeticResults : Obligations.FloatArithmeticResults := by
  unfold Obligations.FloatArithmeticResults
  simp only [rounds32, ← fenv_eq_envOf]
  refine ⟨fun _ _ _ _ => writes32_of_aluF fun _ => rfl, fun _ _ _ _ => writes32_of_aluF fun _ => rfl,
    fun _ _ _ _ => writes32_of_aluF fun _ => rfl, fun _ _ _ _ _ => writes32_of_aluF fun _ => rfl, ?fmin, ?fmax, ?fclass, ?fsel, ?fcmp⟩
  case fmin =>
    intro f hf d a b g
    simp only [← fminmax_eq_of_selects (hf _ _)]
    exact writes32_of_aluF fun _ => rfl
  case fmax =>
    intro f hf d a b g
    simp only [← fminmax_eq_of_selects (hf _ _)]
    exact writes32_of_aluF fun _ => rfl
  case fclass =>
    intro d a g
    simp only [result1, ← fclassMask_eq]
    exact writes32_of_aluF fun _ => rfl
  case fsel =>
    intro d a b c g
    have hsel := writes32_of_aluF (i := .fsel d a b c g) (g := g) (d := d) fun _ => rfl
    simp only [fsel_eq] at hsel
    exact hsel
  case fcmp =>
    intro k f hf p a b g
    simp only [← fcmpEval_eq_of_fcompared (hf _ _)]
    exact writesPred_of_aluP fun _ => rfl

/-- Settles O13: a packed pair rounds each half, and form S takes the uniform register for b. -/
theorem packedHalfAndUniformFloatResults : Obligations.PackedHalfAndUniformFloatResults := by
  unfold Obligations.PackedHalfAndUniformFloatResults
  have hadd (t : HalfKind) (env : FEnv) (a b : W32) : halves t env (fun u v _ => addExact env.rm u v) a b 0 = hadd2R t env a b :=
    (packed2_eq_halves t env _ _ (fun _ _ _ => rfl) a b 0).symm
  have hmul (t : HalfKind) (env : FEnv) (a b : W32) : halves t env (fun u v _ => mulExact u v) a b 0 = hmul2R t env a b :=
    (packed2_eq_halves t env _ _ (fun _ _ _ => rfl) a b 0).symm
  have hfma (t : HalfKind) (env : FEnv) (a b c : W32) : halves t env (fmaExact env.rm) a b c = hfma2R t env a b c :=
    (packed2_eq_halves t env _ _ (fun _ _ _ => rfl) a b c).symm
  simp only [rounds32, ← fenv_eq_envOf, hadd, hmul, hfma]
  refine ⟨fun _ _ _ _ _ => writes32_of_aluF fun _ => rfl, fun _ _ _ _ _ => writes32_of_aluF fun _ => rfl,
    fun _ _ _ _ _ _ => writes32_of_aluF fun _ => rfl, fun _ _ _ _ => writes32_of_aluF fun _ => rfl,
    fun _ _ _ _ => writes32_of_aluF fun _ => rfl, fun _ _ _ _ => writes32_of_aluF fun _ => rfl, ?fmin, ?fmax, ?fclass,
    fun _ _ _ _ _ => writes32_of_aluF fun _ => rfl, fun _ _ _ _ _ => writes32_of_aluF fun _ => rfl, ?fcmp⟩
  case fmin =>
    intro f hf d a u g
    simp only [← fminmax_eq_of_selects (hf _ _)]
    exact writes32_of_aluF fun _ => rfl
  case fmax =>
    intro f hf d a u g
    simp only [← fminmax_eq_of_selects (hf _ _)]
    exact writes32_of_aluF fun _ => rfl
  case fclass =>
    intro d a u g
    simp only [result1, ← fclassMask_eq]
    exact writes32_of_aluF fun _ => rfl
  case fcmp =>
    intro k f hf d a u g _
    simp only [← fcmpEval_eq_of_fcompared (hf _ _)]
    exact writesPred_of_aluP fun _ => rfl

end Sys2Proof.Claims
end

section
/-! SUPPORT. A rounding depends on the number alone, and on no more of it than the last places that stand below its precision: equal
numbers round alike, and so do two numbers between the same neighbours that are fine enough (03 R64, R73). -/

namespace Sys2Proof.Machine

open Sys2Proof.Claims

/-! ## Magnitudes -/

theorem num_lt_num_iff {m n : Nat} {e : Int} : num m e < num n e ↔ m < n := by
  have hpos : (0 : ℚ) < 2 ^ e := by positivity
  rw [num, num, mul_lt_mul_iff_left₀ hpos, Nat.cast_lt]

theorem num_le_num_iff {m n : Nat} {e : Int} : num m e ≤ num n e ↔ m ≤ n := by
  rw [← not_lt, num_lt_num_iff, Nat.not_lt]

theorem num_inj {m n : Nat} {e : Int} : num m e = num n e ↔ m = n := by
  simp only [le_antisymm_iff, num_le_num_iff]

theorem num_mul_num (a b : Nat) (e1 e2 : Int) : num a e1 * num b e2 = num (a * b) (e1 + e2) := by
  rw [num, num, num, Nat.cast_mul, zpow_add₀ two_ne_zero]
  ring

theorem num_sub (m : Nat) (e q : Int) : num m (e - q) = num m e / 2 ^ q := by
  rw [num, num, zpow_sub₀ two_ne_zero, mul_div_assoc]

theorem num_two_pow (k : Nat) (e : Int) : num (2 ^ k) e = 2 ^ (k + e) := by
  rw [num, zpow_add₀ two_ne_zero, zpow_natCast, Nat.cast_pow, Nat.cast_ofNat]

theorem num_one (e : Int) : num 1 e = 2 ^ e := by rw [num, Nat.cast_one, one_mul]

theorem one_eq_num (k : Nat) : (1 : ℚ) = num (2 ^ k) (-k) := by rw [num_two_pow, add_neg_cancel, zpow_zero]

/-- A magnitude counted in last places of a common finer size. -/
theorem num_eq_num_of_le (m : Nat) {e e1 : Int} (h : e ≤ e1) : num m e1 = num (m * 2 ^ (e1 - e).toNat) e := by
  rw [num_mul_two_pow, Int.toNat_of_nonneg (by omega)]
  congr 1
  omega

theorem lt_two_pow_bitLen (m : Nat) : m < 2 ^ bitLen m := by
  unfold bitLen
  split
  · next h => rw [h]; decide
  · exact Nat.lt_log2_self

theorem two_pow_le_of_bitLen {m : Nat} (hm : m ≠ 0) : 2 ^ (bitLen m - 1) ≤ m := by
  rw [bitLen, if_neg hm, Nat.add_sub_cancel]
  exact Nat.log2_self_le hm

theorem bitLen_pos {m : Nat} (hm : m ≠ 0) : 0 < bitLen m := by
  rw [bitLen, if_neg hm]
  omega

theorem lt_bitLen_of_le {m k : Nat} (h : 2 ^ k ≤ m) : k < bitLen m :=
  (Nat.pow_lt_pow_iff_right (by decide : 1 < 2)).1 (h.trans_lt (lt_two_pow_bitLen m))

/-- A magnitude lies below the power of two of its length. -/
theorem num_lt_two_zpow (m : Nat) (e : Int) : num m e < 2 ^ (e + bitLen m) := by
  rw [add_comm, ← num_two_pow, num_lt_num_iff]
  exact lt_two_pow_bitLen m

/-- And not below the one before it. -/
theorem two_zpow_le_num {m : Nat} (hm : m ≠ 0) (e : Int) : (2 : ℚ) ^ (e + bitLen m - 1) ≤ num m e := by
  have hlen := bitLen_pos hm
  have h : (2 : ℚ) ^ (e + bitLen m - 1) = num (2 ^ (bitLen m - 1)) e := by
    rw [num_two_pow]
    congr 1
    omega
  rw [h, num_le_num_iff]
  exact two_pow_le_of_bitLen hm

theorem two_zpow_lt_iff {a b : Int} : (2 : ℚ) ^ a < 2 ^ b ↔ a < b := zpow_lt_zpow_iff_right₀ one_lt_two

theorem two_zpow_le_iff {a b : Int} : (2 : ℚ) ^ a ≤ 2 ^ b ↔ a ≤ b := zpow_le_zpow_iff_right₀ one_lt_two

/-- The binade of a magnitude from bounds of its number. -/
theorem binade_eq {m : Nat} (hm : m ≠ 0) {e L : Int} (hlo : (2 : ℚ) ^ (L - 1) ≤ num m e) (hhi : num m e < 2 ^ L) : e + bitLen m = L := by
  have h1 := two_zpow_lt_iff.1 ((two_zpow_le_num hm e).trans_lt hhi)
  have h2 := two_zpow_lt_iff.1 (hlo.trans_lt (num_lt_two_zpow m e))
  omega

/-! ## The rounding of a number -/

/-- Whether a number between n and n + 1 is rounded to n + 1. -/
def raises (rm : RMode) (neg : Bool) (n : Nat) (v : ℚ) : Bool :=
  match rm with
  | .rne => decide (((2 * n + 1 : Nat) : ℚ) < 2 * v) || (decide (((2 * n + 1 : Nat) : ℚ) = 2 * v) && n % 2 == 1)
  | .rtz => false
  | .rdn => neg && decide ((n : ℚ) ≠ v)
  | .rup => !neg && decide ((n : ℚ) ≠ v)

/-- A number rounded to an integer, with whether it is inexact. -/
def roundNum (rm : RMode) (neg : Bool) (v : ℚ) : Nat × Bool :=
  (if raises rm neg ⌊v⌋₊ v then ⌊v⌋₊ + 1 else ⌊v⌋₊, decide ((⌊v⌋₊ : ℚ) ≠ v))

theorem roundNum_natCast (rm : RMode) (neg : Bool) (n : Nat) : roundNum rm neg n = (n, false) := by
  cases rm <;> simp [roundNum, raises, Nat.floor_natCast]

/-- A division's remainder tells how its quotient rounds. -/
theorem roundNum_div (rm : RMode) (neg : Bool) (m : Nat) {d : Nat} (hd : 0 < d) :
    roundNum rm neg ((m : ℚ) / d) = (if roundsUp rm neg (m / d % 2 == 1) (m % d) d then m / d + 1 else m / d, m % d != 0) := by
  have hd0 : (0 : ℚ) < d := Nat.cast_pos.2 hd
  have hm := Nat.div_add_mod m d
  have hfloor : ⌊(m : ℚ) / d⌋₊ = m / d := Nat.floor_div_eq_div m d
  have hvalue : (m : ℚ) / d * d = m := div_mul_cancel₀ _ hd0.ne'
  have hhalf : ((2 * (m / d) + 1 : Nat) : ℚ) < 2 * (m / d) ↔ d < 2 * (m % d) := by
    rw [← mul_lt_mul_iff_left₀ hd0, mul_assoc, hvalue]
    norm_cast
    constructor <;> intro h <;> nlinarith
  have htie : ((2 * (m / d) + 1 : Nat) : ℚ) = 2 * (m / d) ↔ d = 2 * (m % d) := by
    rw [← mul_left_inj' hd0.ne', mul_assoc, hvalue]
    norm_cast
    constructor <;> intro h <;> nlinarith
  have hexact : ((m / d : Nat) : ℚ) = m / d ↔ m % d = 0 := by
    rw [← mul_left_inj' hd0.ne', hvalue]
    norm_cast
    constructor <;> intro h <;> nlinarith
  cases rm <;> simp only [roundNum, raises, roundsUp, hfloor, hhalf, htie, hexact, ne_eq, bne, decide_not] <;> rfl

/-- The rounding of a magnitude at a place is that of its number in that place's units. -/
theorem roundAt_eq_roundNum (rm : RMode) (neg : Bool) (m : Nat) (e q : Int) : roundAt rm neg m e q = roundNum rm neg (num m (e - q)) := by
  unfold roundAt
  split
  · next h =>
    have hint : num m (e - q) = ((m * 2 ^ (e - q).toNat : Nat) : ℚ) := by
      rw [num_eq_num_of_le m (show (0 : Int) ≤ e - q by omega), sub_zero, num, zpow_zero, mul_one]
    rw [hint, roundNum_natCast]
  · next h =>
    have hdiv : num m (e - q) = (m : ℚ) / ((2 ^ (q - e).toNat : Nat) : ℚ) := by
      rw [num, show e - q = -((q - e).toNat : Int) by omega, zpow_neg, zpow_natCast, Nat.cast_pow, Nat.cast_ofNat, div_eq_mul_inv]
    rw [hdiv, roundNum_div _ _ _ (Nat.two_pow_pos _)]

/-- Numbers that compare alike with every half round alike. -/
theorem roundNum_congr (rm : RMode) (neg : Bool) {v w : ℚ} (hv : 0 ≤ v) (hw : 0 ≤ w) (hle : ∀ k : Nat, (k : ℚ) ≤ 2 * v ↔ (k : ℚ) ≤ 2 * w)
    (heq : ∀ k : Nat, (k : ℚ) = 2 * v ↔ (k : ℚ) = 2 * w) : roundNum rm neg v = roundNum rm neg w := by
  have hdouble (n : Nat) (u : ℚ) : ((n : ℚ) ≤ u ↔ ((2 * n : Nat) : ℚ) ≤ 2 * u) ∧ ((n : ℚ) = u ↔ ((2 * n : Nat) : ℚ) = 2 * u) := by
    push_cast
    constructor
    · constructor <;> intro h <;> linarith
    · constructor <;> intro h <;> linarith
  have hfloor : ⌊v⌋₊ = ⌊w⌋₊ := eq_of_forall_le_iff fun n => by
    rw [Nat.le_floor_iff hv, Nat.le_floor_iff hw, (hdouble n v).1, (hdouble n w).1, hle]
  have hexact (n : Nat) : (n : ℚ) = v ↔ (n : ℚ) = w := by rw [(hdouble n v).2, (hdouble n w).2, heq]
  have hlt (k : Nat) : (k : ℚ) < 2 * v ↔ (k : ℚ) < 2 * w := by rw [lt_iff_le_and_ne, lt_iff_le_and_ne, hle, ne_eq, ne_eq, heq]
  have hinexact (n : Nat) : decide ((n : ℚ) ≠ v) = decide ((n : ℚ) ≠ w) := decide_eq_decide.2 (not_congr (hexact n))
  have hraises (n : Nat) : raises rm neg n v = raises rm neg n w := by
    cases rm with
    | rne => exact congrArg₂ (· || ·) (decide_eq_decide.2 (hlt _)) (congrArg (· && n % 2 == 1) (decide_eq_decide.2 (heq _)))
    | rtz => rfl
    | rdn => exact congrArg (neg && ·) (hinexact n)
    | rup => exact congrArg (!neg && ·) (hinexact n)
  rw [roundNum, roundNum, hfloor, hraises, hinexact]

/-- Numbers between the same multiples of a half's fraction round alike. -/
theorem roundNum_congr_of_cell (rm : RMode) (neg : Bool) {N j : Nat} {v w : ℚ} (hvlo : (N : ℚ) < v * 2 ^ (j + 1))
    (hvhi : v * 2 ^ (j + 1) < N + 1) (hwlo : (N : ℚ) < w * 2 ^ (j + 1)) (hwhi : w * 2 ^ (j + 1) < N + 1) :
    roundNum rm neg v = roundNum rm neg w := by
  have hpow : (0 : ℚ) < 2 ^ j := by positivity
  have hscale (u : ℚ) : 2 * u * 2 ^ j = u * 2 ^ (j + 1) := by ring
  have hle {u : ℚ} (hlo : (N : ℚ) < u * 2 ^ (j + 1)) (hhi : u * 2 ^ (j + 1) < N + 1) (k : Nat) :
      ((k : ℚ) ≤ 2 * u ↔ k * 2 ^ j ≤ N) ∧ (k : ℚ) ≠ 2 * u := by
    have hcast : (k : ℚ) * 2 ^ j = ((k * 2 ^ j : Nat) : ℚ) := by push_cast; ring
    constructor
    · rw [← mul_le_mul_iff_left₀ hpow, hscale, hcast]
      constructor
      · intro h
        have : ((k * 2 ^ j : Nat) : ℚ) < (N + 1 : Nat) := by push_cast at h hhi ⊢; linarith
        exact Nat.lt_succ_iff.1 (Nat.cast_lt.1 this)
      · exact fun h => (Nat.cast_le.2 h).trans hlo.le
    · intro h
      have hat : ((k * 2 ^ j : Nat) : ℚ) = u * 2 ^ (j + 1) := by rw [← hcast, h, hscale]
      rw [← hat] at hlo hhi
      have h1 : N < k * 2 ^ j := Nat.cast_lt.1 hlo
      have h2 : k * 2 ^ j < N + 1 := by exact_mod_cast hhi
      omega
  have hnonneg {u : ℚ} (hlo : (N : ℚ) < u * 2 ^ (j + 1)) : 0 ≤ u := by
    by_contra hneg
    have : u * 2 ^ (j + 1) ≤ 0 := mul_nonpos_of_nonpos_of_nonneg (not_le.1 hneg).le (by positivity)
    have := Nat.cast_nonneg (α := ℚ) N
    linarith
  exact roundNum_congr rm neg (hnonneg hvlo) (hnonneg hwlo) (fun k => (hle hvlo hvhi k).1.trans (hle hwlo hwhi k).1.symm)
    fun k => iff_of_false (hle hvlo hvhi k).2 (hle hwlo hwhi k).2

/-! ## Codes of equal and of neighbouring numbers -/

/-- A rounding to a format goes by the binade and the rounding at each place. -/
theorem ieeeRound_fin_congr (f : IFmt) (rm : RMode) (neg : Bool) {m1 m2 : Nat} {e1 e2 : Int} (h1 : m1 ≠ 0) (h2 : m2 ≠ 0)
    (hlen : e1 + bitLen m1 = e2 + bitLen m2)
    (hat : ∀ q, e1 + bitLen m1 - (f.tb + 1) ≤ q → roundAt rm neg m1 e1 q = roundAt rm neg m2 e2 q) :
    ieeeRound f rm (.fin neg m1 e1) = ieeeRound f rm (.fin neg m2 e2) := by
  have hqn := hat _ le_rfl
  have hq := hat _ (le_max_left _ f.minE)
  rw [hlen] at hqn hq
  simp only [ieeeRound, h1, h2, if_false, hlen, hqn, hq]

theorem ieeeRound_congr_num (f : IFmt) (rm : RMode) (neg : Bool) {m1 m2 : Nat} {e1 e2 : Int} (h : num m1 e1 = num m2 e2) :
    ieeeRound f rm (.fin neg m1 e1) = ieeeRound f rm (.fin neg m2 e2) := by
  have hzero {m : Nat} (e : Int) : num m e = 0 ↔ m = 0 := by
    rw [← signed_eq_zero_iff false m e]
    rfl
  by_cases h1 : m1 = 0
  · have h2 : m2 = 0 := (hzero e2).1 (h.symm.trans ((hzero e1).2 h1))
    rw [h1, h2]
    rfl
  · have h2 : m2 ≠ 0 := fun h2 => h1 ((hzero e1).1 (h.trans ((hzero e2).2 h2)))
    have hlen : e1 + bitLen m1 = e2 + bitLen m2 := binade_eq h1 (h ▸ two_zpow_le_num h2 e2) (h ▸ num_lt_two_zpow m2 e2)
    exact ieeeRound_fin_congr f rm neg h1 h2 hlen fun q _ => by
      rw [roundAt_eq_roundNum, roundAt_eq_roundNum, num_sub, num_sub, h]

/-- A number strictly between neighbours. -/
def inCell (n : Nat) (e : Int) (v : ℚ) : Prop := num n e < v ∧ v < num (n + 1) e

theorem inCell_binade {n m : Nat} (hn : n ≠ 0) {e0 e : Int} (h : inCell n e0 (num m e)) : m ≠ 0 ∧ e + bitLen m = e0 + bitLen n := by
  obtain ⟨hlo, hhi⟩ := h
  have hm : m ≠ 0 := by
    rintro rfl
    have := num_nonneg n e0
    rw [num, num, Nat.cast_zero, zero_mul] at hlo
    exact absurd hlo (not_lt.2 this)
  refine ⟨hm, binade_eq hm ((two_zpow_le_num hn e0).trans hlo.le) (hhi.trans_le ?_)⟩
  rw [add_comm e0, ← num_two_pow, num_le_num_iff]
  exact lt_two_pow_bitLen n

theorem inCell_scaled {n : Nat} {e0 q : Int} {v : ℚ} (h : inCell n e0 v) {j : Nat} (hj : q = e0 + (j + 1)) :
    (n : ℚ) < v / 2 ^ q * 2 ^ (j + 1) ∧ v / 2 ^ q * 2 ^ (j + 1) < n + 1 := by
  obtain ⟨hlo, hhi⟩ := h
  have hpos : (0 : ℚ) < 2 ^ e0 := by positivity
  have hv : v / 2 ^ q * 2 ^ (j + 1) = v / 2 ^ e0 := by
    have hpow : (2 : ℚ) ^ q = 2 ^ e0 * 2 ^ (j + 1) := by
      rw [hj, zpow_add₀ two_ne_zero]
      norm_cast
    rw [hpow]
    field_simp
  rw [hv, lt_div_iff₀ hpos, div_lt_iff₀ hpos]
  refine ⟨hlo, ?_⟩
  have : num (n + 1) e0 = ((n : ℚ) + 1) * 2 ^ e0 := by rw [num, Nat.cast_succ]
  rwa [← this]

/-- Two numbers between the same neighbours round alike, where those have two places more than the format. -/
theorem ieeeRound_congr_cell (f : IFmt) (rm : RMode) (neg : Bool) {n m1 m2 : Nat} {e0 e1 e2 : Int} (hn : 2 ^ (f.tb + 2) ≤ n)
    (h1 : inCell n e0 (num m1 e1)) (h2 : inCell n e0 (num m2 e2)) :
    ieeeRound f rm (.fin neg m1 e1) = ieeeRound f rm (.fin neg m2 e2) := by
  have hn0 : n ≠ 0 := (Nat.lt_of_lt_of_le (Nat.two_pow_pos _) hn).ne'
  obtain ⟨hm1, hlen1⟩ := inCell_binade hn0 h1
  obtain ⟨hm2, hlen2⟩ := inCell_binade hn0 h2
  refine ieeeRound_fin_congr f rm neg hm1 hm2 (hlen1.trans hlen2.symm) fun q hq => ?_
  have hlen := lt_bitLen_of_le hn
  obtain ⟨j, hj⟩ : ∃ j : Nat, q = e0 + (j + 1) := ⟨(q - e0 - 1).toNat, by omega⟩
  obtain ⟨hlo1, hhi1⟩ := inCell_scaled h1 hj
  obtain ⟨hlo2, hhi2⟩ := inCell_scaled h2 hj
  rw [roundAt_eq_roundNum, roundAt_eq_roundNum, num_sub, num_sub]
  exact roundNum_congr_of_cell rm neg hlo1 hhi1 hlo2 hhi2

/-- RoundIEEE of finite values goes by their rounding. -/
theorem roundIEEE_fin_congr {f : IFmt} {rm : RMode} (sat ftz : Bool) {n1 n2 : Bool} {m1 m2 : Nat} {e1 e2 : Int}
    (h : ieeeRound f rm (.fin n1 m1 e1) = ieeeRound f rm (.fin n2 m2 e2)) :
    roundIEEE f rm sat ftz (.fin n1 m1 e1) = roundIEEE f rm sat ftz (.fin n2 m2 e2) := by
  simp only [roundIEEE, h]

/-! ## A magnitude rounded once -/

/-- The middle of two neighbours lies between them. -/
theorem inCell_middle (n : Nat) (e : Int) : inCell n e (num (2 * n + 1) (e - 1)) := by
  have hdouble (k : Nat) : num k e = num (2 * k) (e - 1) := by
    rw [num_eq_num_of_le k (show e - 1 ≤ e by omega), show (e - (e - 1)).toNat = 1 by omega, pow_one, Nat.mul_comm]
  rw [inCell, hdouble n, hdouble (n + 1), num_lt_num_iff, num_lt_num_iff]
  omega

/-- Of two dyadic intervals that share a number the coarser holds the finer. -/
theorem inCell_of_finer {n N : Nat} {e E : Int} (he : e ≤ E) {v : ℚ} (hlo : num N E < num (n + 1) e) (hhi : num n e < num (N + 1) E)
    (h : inCell n e v) : inCell N E v := by
  rw [num_eq_num_of_le N he, num_lt_num_iff] at hlo
  rw [num_eq_num_of_le (N + 1) he, num_lt_num_iff] at hhi
  obtain ⟨h1, h2⟩ := h
  refine ⟨lt_of_le_of_lt ?_ h1, lt_of_lt_of_le h2 ?_⟩
  · rw [num_eq_num_of_le N he, num_le_num_iff]
    omega
  · rw [num_eq_num_of_le (N + 1) he, num_le_num_iff]
    omega

section
variable {φ : ℚ → ℚ} (hφ : StrictMonoOn φ (Set.Ici 0)) {c : ℚ} (rm : RMode) (ftz neg : Bool)
include hφ

/-- A function that rises tells how its arguments compare. -/
theorem num_lt_of_rises {m n : Nat} {e1 e2 : Int} (h : φ (num m e1) < φ (num n e2)) : num m e1 < num n e2 :=
  (hφ.lt_iff_lt (Set.mem_Ici.2 (num_nonneg ..)) (Set.mem_Ici.2 (num_nonneg ..))).1 h

/-- A magnitude found exactly is rounded once. -/
theorem roundsOnce_exact {N : Nat} {E : Int} (hN : φ (num N E) = c) :
    roundsOnce rm ftz neg (fun q => φ q < c) (fun q => φ q = c) (roundIEEE f32 rm false ftz (.fin neg N E)) := by
  intro n e
  refine ⟨fun heq => ?_, fun hn hless hnot hne => ?_⟩
  · have hsame : num N E = num n e := hφ.injOn (Set.mem_Ici.2 (num_nonneg ..)) (Set.mem_Ici.2 (num_nonneg ..)) (hN.trans heq.symm)
    exact roundIEEE_fin_congr false ftz (ieeeRound_congr_num f32 rm neg hsame)
  · have hcell : inCell n e (num N E) :=
      ⟨num_lt_of_rises hφ (hN ▸ hless), num_lt_of_rises hφ (hN ▸ lt_of_le_of_ne (not_lt.1 hnot) (Ne.symm hne))⟩
    exact roundIEEE_fin_congr false ftz (ieeeRound_congr_cell f32 rm neg hn hcell (inCell_middle n e))

/-- A magnitude known to lie between neighbours is rounded once by their middle. -/
theorem roundsOnce_sticky {N : Nat} {E : Int} (hN : 2 ^ 25 ≤ N) (hlo : φ (num N E) < c) (hhi : c < φ (num (N + 1) E)) :
    roundsOnce rm ftz neg (fun q => φ q < c) (fun q => φ q = c) (roundIEEE f32 rm false ftz (sticky neg N E)) := by
  intro n e
  refine ⟨fun heq => ?_, fun hn hless hnot hne => ?_⟩
  · have hcell : inCell N E (num n e) := ⟨num_lt_of_rises hφ (heq ▸ hlo), num_lt_of_rises hφ (heq ▸ hhi)⟩
    exact roundIEEE_fin_congr false ftz (ieeeRound_congr_cell f32 rm neg hN (inCell_middle N E) hcell)
  · have hlow : num N E < num (n + 1) e := num_lt_of_rises hφ (hlo.trans_le (not_lt.1 hnot))
    have hhigh : num n e < num (N + 1) E := num_lt_of_rises hφ (hless.trans hhi)
    obtain he | he := le_total e E
    · exact roundIEEE_fin_congr false ftz (ieeeRound_congr_cell f32 rm neg hN (inCell_middle N E)
        (inCell_of_finer he hlow hhigh (inCell_middle n e)))
    · exact roundIEEE_fin_congr false ftz (ieeeRound_congr_cell f32 rm neg hn
        (inCell_of_finer he hhigh hlow (inCell_middle N E)) (inCell_middle n e))

end

end Sys2Proof.Machine
end

section
/-! SUPPORT. Special functions (03 R73): quotients and roots by their exact remainders, and the rows of R73's table. -/

namespace Sys2Proof.Machine

open Sys2Proof.Claims

/-! ## Quotients and roots -/

/-- The bits of an integer square root, found from the highest down. -/
theorem isqrtBits_spec (i n r : Nat) (hlo : r * r ≤ n) (hhi : n < (r + 2 ^ i) * (r + 2 ^ i)) :
    isqrtBits i n r * isqrtBits i n r ≤ n ∧ n < (isqrtBits i n r + 1) * (isqrtBits i n r + 1) := by
  induction i generalizing r with
  | zero => exact ⟨hlo, hhi⟩
  | succ i ih =>
    rw [isqrtBits]
    split
    · next h =>
      refine ih _ h ?_
      rwa [Nat.add_assoc, ← Nat.two_mul, ← Nat.pow_succ']
    · next h => exact ih _ hlo (Nat.not_le.1 h)

/-- The model's integer square root of n. -/
def intSqrt (n : Nat) : Nat := isqrtBits (bitLen n / 2 + 1) n 0

theorem intSqrt_spec (n : Nat) : intSqrt n * intSqrt n ≤ n ∧ n < (intSqrt n + 1) * (intSqrt n + 1) := by
  refine isqrtBits_spec _ n 0 (Nat.zero_le n) ?_
  rw [Nat.zero_add, ← Nat.pow_add]
  exact (lt_two_pow_bitLen n).trans_le (Nat.pow_le_pow_right (by decide) (by omega))

theorem le_intSqrt {k n : Nat} (h : k * k ≤ n) : k ≤ intSqrt n := by
  by_contra hlt
  have hle : intSqrt n + 1 ≤ k := by omega
  have := (intSqrt_spec n).2
  have := Nat.mul_le_mul hle hle
  omega

/-- The three magnitudes that are rounded once rise with their arguments. -/
theorem strictMonoOn_mul {c : ℚ} (hc : 0 < c) : StrictMonoOn (fun q : ℚ => q * c) (Set.Ici 0) := fun _ _ _ _ h => mul_lt_mul_of_pos_right h hc

theorem strictMonoOn_mul_self : StrictMonoOn (fun q : ℚ => q * q) (Set.Ici 0) := fun _ ha _ _ h => mul_self_lt_mul_self ha h

theorem strictMonoOn_mul_self_mul {c : ℚ} (hc : 0 < c) : StrictMonoOn (fun q : ℚ => q * q * c) (Set.Ici 0) :=
  fun _ ha _ hb h => mul_lt_mul_of_pos_right (strictMonoOn_mul_self ha hb h) hc

/-- rcp rounds the reciprocal once. -/
theorem spRcp_roundsOnce (ftz neg : Bool) {m : Nat} (hm : m ≠ 0) (e : Int) :
    roundsOnce .rne ftz neg (fun q => q * num m e < 1) (fun q => q * num m e = 1) (spRcp ftz (.fin neg m e)) := by
  have hφ := strictMonoOn_mul (num_pos hm e)
  have hm0 : 0 < m := Nat.pos_of_ne_zero hm
  let sh := 80 + bitLen m
  let N := 2 ^ sh / m
  have hE (k : Nat) : num k (-e - sh) * num m e = num (k * m) (-sh) := by
    rw [num_mul_num]
    congr 1
    ring
  have hdiv : m * N + 2 ^ sh % m = 2 ^ sh := Nat.div_add_mod ..
  have hlen : 2 ^ 25 * m ≤ 2 ^ sh := by
    have hlt := lt_two_pow_bitLen m
    calc 2 ^ 25 * m ≤ 2 ^ 80 * 2 ^ bitLen m := Nat.mul_le_mul (by decide) hlt.le
      _ = 2 ^ sh := (Nat.pow_add ..).symm
  have hrcp : spRcp ftz (.fin neg m e) =
      if 2 ^ sh % m = 0 then spRound ftz (.fin neg N (-e - sh)) else spRound ftz (sticky neg N (-e - sh)) := by
    simp only [spRcp, if_neg hm, divExact, Nat.one_mul, zero_sub]
    split <;> rfl
  rw [hrcp]
  split
  · next hrem =>
    refine roundsOnce_exact hφ .rne ftz neg ?_
    rw [hE, one_eq_num sh, num_inj]
    exact Nat.div_mul_cancel (Nat.dvd_of_mod_eq_zero hrem)
  · next hrem =>
    refine roundsOnce_sticky hφ .rne ftz neg ((Nat.le_div_iff_mul_le hm0).2 hlen) ?_ ?_
    · rw [hE, one_eq_num sh, num_lt_num_iff, Nat.mul_comm]
      omega
    · rw [hE, one_eq_num sh, num_lt_num_iff, Nat.mul_comm]
      exact Nat.lt_mul_div_succ _ hm0

/-- sqrt rounds the root once. -/
theorem spSqrt_roundsOnce (rm : RMode) (ftz : Bool) {m : Nat} (hm : m ≠ 0) (e : Int) :
    roundsOnce rm ftz false (fun q => q * q < num m e) (fun q => q * q = num m e) (spSqrt rm ftz (.fin false m e)) := by
  obtain ⟨sh, hsh, hlen, hE⟩ : ∃ sh : Nat, (if e % 2 = 0 then 160 else 161) = sh ∧ 160 ≤ sh ∧ (e - sh) / 2 + (e - sh) / 2 = e - sh := by
    refine ⟨_, rfl, ?_, ?_⟩ <;> split <;> omega
  have hm0 : 0 < m := Nat.pos_of_ne_zero hm
  have hsquare (k : Nat) : num k ((e - sh) / 2) * num k ((e - sh) / 2) = num (k * k) (e - sh) := by rw [num_mul_num, hE]
  have hvalue : num m e = num (m * 2 ^ sh) (e - sh) := by rw [num_mul_two_pow, sub_add_cancel]
  obtain ⟨hlo, hhi⟩ := intSqrt_spec (m * 2 ^ sh)
  have hfine : 2 ^ 25 ≤ intSqrt (m * 2 ^ sh) := by
    refine le_intSqrt ?_
    calc 2 ^ 25 * 2 ^ 25 ≤ 2 ^ sh := by rw [← Nat.pow_add]; exact Nat.pow_le_pow_right (by decide) (by omega)
      _ ≤ m * 2 ^ sh := Nat.le_mul_of_pos_left _ hm0
  have hsqrt : spSqrt rm ftz (.fin false m e) =
      if intSqrt (m * 2 ^ sh) * intSqrt (m * 2 ^ sh) = m * 2 ^ sh
      then roundIEEE f32 rm false ftz (.fin false (intSqrt (m * 2 ^ sh)) ((e - sh) / 2))
      else roundIEEE f32 rm false ftz (sticky false (intSqrt (m * 2 ^ sh)) ((e - sh) / 2)) := by
    simp only [spSqrt, if_neg hm, Bool.false_eq_true, if_false, sqrtExact, hsh]
    rw [← apply_ite]
    rfl
  rw [hsqrt]
  split
  · next hsq =>
    refine roundsOnce_exact strictMonoOn_mul_self rm ftz false ?_
    rw [hsquare, hvalue, hsq]
  · next hsq =>
    refine roundsOnce_sticky strictMonoOn_mul_self rm ftz false hfine ?_ ?_
    · rw [hsquare, hvalue, num_lt_num_iff]
      omega
    · rw [hsquare, hvalue, num_lt_num_iff]
      exact hhi

/-- rsq rounds the reciprocal root once. -/
theorem spRsq_roundsOnce (ftz : Bool) {m : Nat} (hm : m ≠ 0) (e : Int) :
    roundsOnce .rne ftz false (fun q => q * q * num m e < 1) (fun q => q * q * num m e = 1) (spRsq ftz (.fin false m e)) := by
  have hm0 : 0 < m := Nat.pos_of_ne_zero hm
  have hφ := strictMonoOn_mul_self_mul (num_pos hm e)
  obtain ⟨sh, hsh, hlen, hE⟩ : ∃ sh : Nat,
      (let sh : Nat := (if e % 2 = 0 then 200 else 201) + bitLen m
       if (sh + e) % 2 = 0 then sh else sh + 1) = sh ∧ 200 + bitLen m ≤ sh ∧
      -((sh : Int) + e) / 2 + -((sh : Int) + e) / 2 + e = -sh := by
    refine ⟨_, rfl, ?_, ?_⟩
    · dsimp only
      split <;> split <;> omega
    · dsimp only
      split <;> push_cast <;> omega
  let q := 2 ^ sh / m
  let E : Int := -((sh : Int) + e) / 2
  have hvalue (k : Nat) : num k E * num k E * num m e = num (k * k * m) (-sh) := by rw [num_mul_num, num_mul_num, hE]
  obtain ⟨hlo, hhi⟩ := intSqrt_spec q
  have hfine : 2 ^ 25 ≤ intSqrt q := by
    refine le_intSqrt ((Nat.le_div_iff_mul_le hm0).2 ?_)
    have hlt := lt_two_pow_bitLen m
    calc 2 ^ 25 * 2 ^ 25 * m ≤ 2 ^ 200 * 2 ^ bitLen m := Nat.mul_le_mul (by decide) hlt.le
      _ ≤ 2 ^ sh := by rw [← Nat.pow_add]; exact Nat.pow_le_pow_right (by decide) hlen
  have hrsq : spRsq ftz (.fin false m e) =
      if intSqrt q * intSqrt q = q ∧ 2 ^ sh % m = 0 then spRound ftz (.fin false (intSqrt q) E) else spRound ftz (sticky false (intSqrt q) E) := by
    simp only [spRsq, if_neg hm, Bool.false_eq_true, if_false, hsh]
    rfl
  have hdiv := Nat.div_add_mod (2 ^ sh) m
  rw [hrsq]
  split
  · next hsq =>
    refine roundsOnce_exact hφ .rne ftz false ?_
    rw [hvalue, one_eq_num sh, num_inj, hsq.1]
    exact Nat.div_mul_cancel (Nat.dvd_of_mod_eq_zero hsq.2)
  · next hsq =>
    refine roundsOnce_sticky hφ .rne ftz false hfine ?_ ?_
    · rw [hvalue, one_eq_num sh, num_lt_num_iff]
      have hle : intSqrt q * intSqrt q * m ≤ q * m := Nat.mul_le_mul_right m hlo
      have hqm : q * m + 2 ^ sh % m = 2 ^ sh := by rw [Nat.mul_comm]; exact hdiv
      by_contra hge
      refine hsq ⟨?_, by omega⟩
      exact Nat.eq_of_mul_eq_mul_right hm0 (by omega)
    · rw [hvalue, one_eq_num sh, num_lt_num_iff]
      calc 2 ^ sh < m * (q + 1) := Nat.lt_mul_div_succ _ hm0
        _ ≤ m * ((intSqrt q + 1) * (intSqrt q + 1)) := Nat.mul_le_mul_left m hhi
        _ = (intSqrt q + 1) * (intSqrt q + 1) * m := Nat.mul_comm ..

/-! ## Results beyond the range -/

/-- A rounding does not fall below an integer that its number does not. -/
theorem le_roundAt {rm : RMode} {neg : Bool} {m k : Nat} {e q : Int} (h : (k : ℚ) ≤ num m (e - q)) : k ≤ (roundAt rm neg m e q).1 := by
  rw [roundAt_eq_roundNum, roundNum]
  have hfloor := Nat.le_floor h
  dsimp only
  split <;> omega

/-- From 2^128 on a nearest rounding to binary32 overflows. -/
theorem ieeeRound_overflow (neg : Bool) {m : Nat} (hm : m ≠ 0) {e : Int} (h : 129 ≤ e + bitLen m) :
    ieeeRound f32 .rne (.fin neg m e) = (f32.infCode neg, flagOF ||| flagNX) := by
  have hq : max (e + bitLen m - (f32.tb + 1)) f32.minE = e + bitLen m - 24 := by
    show max (e + bitLen m - 24) (-149) = _
    omega
  have hn : 2 ^ 23 ≤ (roundAt .rne neg m e (e + bitLen m - 24)).1 := by
    refine le_roundAt ?_
    have h := two_zpow_le_num hm (e - (e + bitLen m - 24))
    rwa [show e - (e + bitLen m - 24) + bitLen m - 1 = ((23 : Nat) : Int) by push_cast; ring, zpow_natCast, ← Nat.cast_ofNat (n := 2),
      ← Nat.cast_pow] at h
  have hcode : (2 ^ f32.eb - 1) * 2 ^ f32.tb ≤
      (e + bitLen m - 24 - f32.minE).toNat * 2 ^ f32.tb + (roundAt .rne neg m e (e + bitLen m - 24)).1 := by
    show 255 * 2 ^ 23 ≤ (e + bitLen m - 24 - -149).toNat * 2 ^ 23 + _
    have : 254 ≤ (e + bitLen m - 24 - -149).toNat := by omega
    omega
  simp only [ieeeRound, if_neg hm, hq, if_pos hcode]
  rfl

/-- A power of two far below every subnormal rounds to zero. -/
theorem ieeeRound_underflow {j : Int} (h : j ≤ -151) : ieeeRound f32 .rne (.fin false 1 j) = (0, flagNX ||| flagUF) := by
  have hlen : bitLen 1 = 1 := by decide
  have hqn : j + bitLen 1 - (f32.tb + 1) = j - 23 := by
    rw [hlen]
    show j + 1 - 24 = j - 23
    ring
  have hq : max (j - 23) f32.minE = -149 := by
    show max (j - 23) (-149) = -149
    omega
  obtain ⟨k, hk⟩ : ∃ k : Nat, (-149 - j).toNat = k + 2 := ⟨(-149 - j).toNat - 2, by omega⟩
  have hden : 4 ≤ 2 ^ (k + 2) := by
    have := Nat.two_pow_pos k
    rw [Nat.pow_add]
    omega
  have hat : roundAt .rne false 1 j (-149) = (0, true) := by
    have hdiv : 1 / 2 ^ (k + 2) = 0 := Nat.div_eq_of_lt (by omega)
    have hmod : 1 % 2 ^ (k + 2) = 1 := Nat.mod_eq_of_lt (by omega)
    have hdown : roundsUp .rne false (0 % 2 == 1) 1 (2 ^ (k + 2)) = false := by
      rw [roundsUp, decide_eq_false (by omega)]
      simp
    simp only [roundAt, if_neg (show ¬(-149 : Int) ≤ j by omega), hk, hmod, hdiv, hdown]
    rfl
  have hnu : (roundAt .rne false 1 j (j - 23)).1 = 2 ^ 23 := by
    rw [roundAt, if_pos (by omega), Nat.one_mul, show (j - (j - 23)).toNat = 23 by omega]
  have htiny : decide (j - 23 + bitLen (2 ^ 23) < f32.minE + (f32.tb + 1)) = true := by
    rw [bitLen_eq (n := 23) le_rfl (by decide), decide_eq_true_eq]
    show j - 23 + ((23 + 1 : Nat) : Int) < -149 + 24
    push_cast
    omega
  simp only [ieeeRound, if_neg Nat.one_ne_zero, hqn, hq, hat, hnu, htiny]
  rfl

theorem roundIEEE_overflow (ftz : Bool) {m : Nat} (hm : m ≠ 0) {e : Int} (h : 129 ≤ e + bitLen m) :
    spRound ftz (.fin false m e) = (inf32 false, flagOF ||| flagNX) := by
  simp only [spRound, roundIEEE, ieeeRound_overflow false hm h]
  cases ftz <;> rfl

/-! ## exp2 -/

theorem bitLen_one : bitLen 1 = 1 := by decide

theorem two_pow_le_expFx (x : Nat) : 2 ^ fxBits ≤ expFx x := Nat.le_add_right ..

theorem signed_false (m : Nat) (e : Int) : signed false m e = num m e := rfl
theorem signed_true (m : Nat) (e : Int) : signed true m e = -num m e := rfl

/-- A signed number in units of 2^-200. -/
theorem signed_fixed (n : Bool) (m : Nat) {e : Int} (he : -200 ≤ e) :
    signed n m e = (signedM n (m * 2 ^ (e + 200).toNat) : ℚ) / 2 ^ (200 : Nat) := by
  rw [signed_eq_signedM n m he, sub_neg_eq_add, zpow_neg, div_eq_mul_inv]
  norm_cast

theorem spExp2_huge (ftz n : Bool) {m : Nat} (hm : m ≠ 0) {e : Int} (h : 9 ≤ e + bitLen m) :
    spExp2 ftz (.fin n m e) = if n then spRound ftz (sticky false 0 (-200)) else spRound ftz (.fin false 1 300) := by
  rw [spExp2, if_neg hm, if_pos h]

/-- exp2 of a number below 256 in size: the integer part gives the binade. -/
theorem spExp2_moderate (ftz n : Bool) {m : Nat} (hm : m ≠ 0) {e : Int} (h : ¬9 ≤ e + bitLen m) :
    ∃ y, 2 ^ fxBits ≤ y ∧ spExp2 ftz (.fin n m e) =
      (let X := signedM n (m * 2 ^ (e + 200).toNat)
       if (X - X / 2 ^ 200 * 2 ^ 200).toNat = 0 then spRound ftz (.fin false 1 (X / 2 ^ 200))
       else spRound ftz (sticky false y (X / 2 ^ 200 - fxBits))) := by
  refine ⟨expFx ((signedM n (m * 2 ^ (e + 200).toNat) - signedM n (m * 2 ^ (e + 200).toNat) / 2 ^ 200 * 2 ^ 200).toNat * 2 ^ (fxBits - 200) *
    ln2Scaled / 2 ^ 512), two_pow_le_expFx _, ?_⟩
  rw [spExp2, if_neg hm, if_neg h]

theorem spExp2_integer (ftz n : Bool) {m : Nat} (hm : m ≠ 0) {e j : Int} (he : -149 ≤ e) (hj : signed n m e = j) (hlt : j < 128) :
    spExp2 ftz (.fin n m e) = roundIEEE f32 .rne false ftz (.fin false 1 j) := by
  by_cases h : 9 ≤ e + bitLen m
  · have hbig : (256 : ℚ) ≤ num m e := by
      refine le_trans ?_ (two_zpow_le_num hm e)
      have : (256 : ℚ) = 2 ^ (8 : Int) := by norm_num
      rw [this, two_zpow_le_iff]
      omega
    cases n with
    | false =>
      rw [signed_false] at hj
      rw [hj] at hbig
      have : (256 : Int) ≤ j := by exact_mod_cast hbig
      omega
    | true =>
      rw [signed_true, neg_eq_iff_eq_neg] at hj
      rw [hj] at hbig
      have : (256 : Int) ≤ -j := by exact_mod_cast hbig
      rw [spExp2_huge ftz true hm h, if_pos rfl, spRound, sticky]
      refine roundIEEE_fin_congr false ftz ?_
      rw [ieeeRound_underflow (by omega), ieeeRound_underflow (by omega)]
  · obtain ⟨y, -, hy⟩ := spExp2_moderate ftz n hm h
    rw [hy]
    rw [signed_fixed n m (by omega), div_eq_iff (by positivity)] at hj
    have hX : signedM n (m * 2 ^ (e + 200).toNat) = j * 2 ^ 200 := by exact_mod_cast hj
    dsimp only
    rw [hX, Int.mul_ediv_cancel _ (by norm_num), sub_self, if_pos (by rfl)]
    rfl

theorem spExp2_overflow (ftz n : Bool) {m : Nat} (hm : m ≠ 0) {e : Int} (he : -149 ≤ e) (hge : 128 ≤ signed n m e) :
    spExp2 ftz (.fin n m e) = (inf32 false, flagOF ||| flagNX) := by
  by_cases h : 9 ≤ e + bitLen m
  · cases n with
    | false =>
      rw [spExp2_huge ftz false hm h, if_neg Bool.false_ne_true]
      exact roundIEEE_overflow ftz one_ne_zero (by rw [bitLen_one]; norm_num)
    | true =>
      have := num_nonneg m e
      rw [signed_true] at hge
      linarith
  · obtain ⟨y, hfine, hy⟩ := spExp2_moderate ftz n hm h
    rw [hy]
    rw [signed_fixed n m (by omega), le_div_iff₀ (by positivity)] at hge
    have hX : 128 * 2 ^ 200 ≤ signedM n (m * 2 ^ (e + 200).toNat) := by exact_mod_cast hge
    have hk : 128 ≤ signedM n (m * 2 ^ (e + 200).toNat) / 2 ^ 200 := (Int.le_ediv_iff_mul_le (by norm_num)).2 hX
    dsimp only
    split
    · exact roundIEEE_overflow ftz one_ne_zero (by rw [bitLen_one]; push_cast; omega)
    · have hlen : fxBits + 1 < bitLen (2 * y + 1) := lt_bitLen_of_le (by rw [Nat.pow_succ]; omega)
      exact roundIEEE_overflow ftz (by omega) (by omega)

/-! ## log2 -/

theorem log2Bits_lt (n y acc : Nat) : log2Bits n y acc < (acc + 1) * 2 ^ n := by
  induction n generalizing y acc with
  | zero => simp [log2Bits]
  | succ n ih =>
    rw [log2Bits]
    split
    · refine (ih _ _).trans_le ?_
      rw [Nat.pow_succ, Nat.mul_comm (2 ^ n) 2, ← Nat.mul_assoc]
      exact Nat.mul_le_mul_right _ (by omega)
    · refine (ih _ _).trans_le ?_
      rw [Nat.pow_succ, Nat.mul_comm (2 ^ n) 2, ← Nat.mul_assoc]
      exact Nat.mul_le_mul_right _ (by omega)

/-- log2 of a power of two. -/
theorem spLog2_power (ftz : Bool) {m : Nat} (hm : m ≠ 0) {e j : Int} (h : num m e = num 1 j) :
    spLog2 ftz (.fin false m e) = roundIEEE f32 .rne false ftz (.fin (decide (j < 0)) j.natAbs 0) := by
  have hlen := bitLen_pos hm
  have hbinade : e + bitLen m = j + 1 := by
    rw [num_one] at h
    refine binade_eq hm ?_ ?_
    · rw [h, two_zpow_le_iff]; omega
    · rw [h, two_zpow_lt_iff]; omega
  have hpow : m = 2 ^ (bitLen m - 1) := by
    have hnum : num m e = num (2 ^ (bitLen m - 1)) e := by
      rw [h, num_one, num_two_pow]
      congr 1
      omega
    exact num_inj.1 hnum
  rw [spLog2, if_neg hm, if_neg (by simp)]
  dsimp only
  rw [if_pos hpow, show e + bitLen m - 1 = j by omega, spRound, ofSigned]
  split
  · next h0 => subst h0; rfl
  · rfl

/-- The middle between two neighbours in units of 2^-160 lies between the integers they lie between. -/
theorem middle_between {j z : Int} (h1 : j * 2 ^ 160 ≤ z) (h2 : z + 1 ≤ (j + 1) * 2 ^ 160) :
    (j : ℚ) < (2 * z + 1 : Int) * (2 : ℚ) ^ (-160 - 1 : Int) ∧ (2 * z + 1 : Int) * (2 : ℚ) ^ (-160 - 1 : Int) < j + 1 := by
  have hpos : (0 : ℚ) < 2 ^ (161 : Nat) := by positivity
  have hunit : (2 : ℚ) ^ (-160 - 1 : Int) = (2 ^ (161 : Nat))⁻¹ := by norm_num
  rw [hunit, ← div_eq_mul_inv, lt_div_iff₀ hpos, div_lt_iff₀ hpos]
  constructor
  · have : j * 2 ^ 161 < 2 * z + 1 := by omega
    exact_mod_cast this
  · have : 2 * z + 1 < (j + 1) * 2 ^ 161 := by omega
    exact_mod_cast this

/-- log2 between two powers of two rounds a number between their exponents. -/
theorem spLog2_between (ftz : Bool) {m : Nat} (hm : m ≠ 0) {e j : Int} (hlo : num 1 j < num m e) (hhi : num m e < num 1 (j + 1)) :
    ∃ n m2 e2, (j : ℚ) < signed n m2 e2 ∧ signed n m2 e2 < j + 1 ∧
      spLog2 ftz (.fin false m e) = roundIEEE f32 .rne false ftz (.fin n m2 e2) := by
  have hlen := bitLen_pos hm
  have hbinade : e + bitLen m = j + 1 := by
    rw [num_one] at hlo hhi
    refine binade_eq hm ?_ hhi
    rw [add_sub_cancel_right]
    exact hlo.le
  have hpow : m ≠ 2 ^ (bitLen m - 1) := by
    intro hpow
    have hnum : num m e = num 1 j := by
      conv_lhs => rw [hpow]
      rw [num_two_pow, num_one]
      congr 1
      omega
    exact hlo.ne hnum.symm
  have hfrac := log2Bits_lt 160 (m * 2 ^ (fxBits + 1 - bitLen m)) 0
  rw [spLog2, if_neg hm, if_neg (by simp)]
  dsimp only
  rw [if_neg hpow, show e + bitLen m - 1 = j by omega]
  generalize log2Bits 160 (m * 2 ^ (fxBits + 1 - bitLen m)) 0 = frac at hfrac
  have hbounds := middle_between (j := j) (z := j * 2 ^ 160 + frac) (by omega) (by omega)
  generalize j * 2 ^ 160 + (frac : Int) = z at hbounds
  split
  · next h0 =>
    refine ⟨false, 2 * z.natAbs + 1, -160 - 1, ?_⟩
    have hsigned : signed false (2 * z.natAbs + 1) (-160 - 1) = (2 * z + 1 : Int) * (2 : ℚ) ^ (-160 - 1 : Int) := by
      have hcast : ((2 * z.natAbs + 1 : Nat) : Int) = 2 * z + 1 := by omega
      rw [signed_false, num, ← hcast, Int.cast_natCast]
    rw [hsigned]
    exact ⟨hbounds.1, hbounds.2, rfl⟩
  · next h0 =>
    refine ⟨true, 2 * (z.natAbs - 1) + 1, -160 - 1, ?_⟩
    have hsigned : signed true (2 * (z.natAbs - 1) + 1) (-160 - 1) = (2 * z + 1 : Int) * (2 : ℚ) ^ (-160 - 1 : Int) := by
      have hcast : ((2 * (z.natAbs - 1) + 1 : Nat) : Int) = -(2 * z + 1) := by omega
      have hcastQ : ((2 * (z.natAbs - 1) + 1 : Nat) : ℚ) = -((2 * z + 1 : Int) : ℚ) := by exact_mod_cast congrArg (Int.cast (R := ℚ)) hcast
      rw [signed_true, num, hcastQ, neg_mul, neg_neg]
    rw [hsigned]
    exact ⟨hbounds.1, hbounds.2, rfl⟩

/-! ## Inputs returned as they are, and tanh of large ones -/

/-- The parts of a finite value's code. -/
theorem fv_fin {a : W32} {n : Bool} {m : Nat} {e : Int} (h : fv a = .fin n m e) :
    n = a.getLsbD 31 ∧ -149 ≤ e ∧ (e + bitLen m < -125 ↔ a.toNat % 2 ^ 31 < 2 ^ 23) := by
  have hlt := a.isLt
  have hsign : f32.signOf a.toNat = a.getLsbD 31 := by
    rw [← BitVec.testBit_toNat, Nat.testBit_eq_decide_div_mod_eq, IFmt.signOf]
    rfl
  have hexp : f32.exponentOf a.toNat = a.toNat / 2 ^ 23 % 256 := rfl
  have htr : f32.trailingOf a.toNat = a.toNat % 2 ^ 23 := rfl
  have hmin : f32.minE = -149 := rfl
  rw [fv, ieeeVal_eq] at h
  split_ifs at h with hinf h0 hsub
  · cases h
    rw [hexp] at hsub
    have hlen := bitLen_le (f32.trailingOf_lt a.toNat)
    have htb : f32.tb = 23 := rfl
    refine ⟨hsign, le_rfl, ?_⟩
    rw [hmin]
    refine iff_of_true ?_ ?_ <;> omega
  · cases h
    have hlen : bitLen (2 ^ f32.tb + f32.trailingOf a.toNat) = 24 := bitLen_eq (n := 23) (Nat.le_add_right ..) (by
      have := f32.trailingOf_lt a.toNat
      have htb : f32.tb = 23 := rfl
      rw [htb] at this ⊢
      omega)
    rw [hlen, hmin]
    rw [hexp] at hsub hinf
    refine ⟨hsign, by omega, ?_⟩
    refine iff_of_false ?_ ?_ <;> push_cast <;> omega

/-- spSame returns the code of its input, flushed where it is subnormal. -/
theorem itself_spSame (ftz : Bool) {a : W32} {n : Bool} {m : Nat} {e : Int} (h : fv a = .fin n m e) (hm : m ≠ 0) :
    itself ftz a (spSame ftz n m e) := by
  obtain ⟨hn, -, hsub⟩ := fv_fin h
  have hlt := a.isLt
  have hround : ieeeRound f32 .rne (.fin n m e) = (a.toNat, 0) := by
    have hval : ieeeVal f32 a.toNat = .fin n m e := h
    rw [← hval]
    exact ieeeRound_ieeeVal .rne hlt fun sig hnan => by rw [hval] at hnan; cases hnan
  have hmag : a.toNat % 2 ^ 31 ≠ 0 := by
    intro h0
    have hz : f32.exponentOf a.toNat = 0 := by
      show a.toNat / 2 ^ 23 % 256 = 0
      omega
    have ht : f32.trailingOf a.toNat = 0 := by
      show a.toNat % 2 ^ 23 = 0
      omega
    rw [fv, ieeeVal_eq, hz, ht] at h
    cases h
    exact hm rfl
  have hzero : a.toNat - a.toNat % 2 ^ 31 = zero32 (a.getLsbD 31) := by
    rw [← BitVec.testBit_toNat, Nat.testBit_eq_decide_div_mod_eq, zero32]
    split
    · next hd => rw [decide_eq_true_eq] at hd; omega
    · next hd => rw [decide_eq_true_eq] at hd; omega
  have hrounded : roundIEEE f32 .rne false ftz (.fin n m e) =
      if ftz = true ∧ a.toNat % 2 ^ 31 < 2 ^ 23 then (zero32 (a.getLsbD 31), flagUF ||| flagNX) else (a.toNat, 0) := by
    have hne : (a.toNat % 2 ^ 31 != 0) = true := bne_iff_ne.2 hmag
    simp only [roundIEEE, hround, show f32.eb + f32.tb = 31 from rfl, Bool.false_and, Bool.false_eq_true, if_false, hne, Bool.and_true, hzero,
      Bool.and_eq_true, decide_eq_true_eq]
    rfl
  have hsame : spSame ftz n m e =
      (if ftz = true ∧ a.toNat % 2 ^ 31 < 2 ^ 23 then (zero32 (a.getLsbD 31), flagNX ||| flagUF)
       else (a.toNat, flagNX ||| (if a.toNat % 2 ^ 31 < 2 ^ 23 then flagUF else 0))) := by
    have hmin : f32.minE + 24 = -125 := rfl
    simp only [spSame, hrounded, hmin, hsub, decide_eq_true_eq]
    split
    · next hs =>
      rw [if_pos hs.2]
      have hflags : (flagUF ||| flagNX) ||| flagNX ||| flagUF = flagNX ||| flagUF := by decide
      exact Prod.ext rfl hflags
    · exact Prod.ext rfl (congrArg (· ||| _) BitVec.zero_or)
  rw [hsame]
  refine ⟨fun hs => ?_, fun hs => ?_⟩
  · rw [if_neg (fun h => hs h.2), if_neg hs]
    rfl
  · by_cases hf : ftz = true
    · rw [if_pos ⟨hf, hs⟩, if_pos hf]
    · rw [if_neg (fun h => hf h.1), if_pos hs, if_neg hf]

/-- A magnitude below 2^-12, by its length. -/
theorem bitLen_of_small {m : Nat} {e : Int} (hm : m ≠ 0) (h : num m e < num 1 (-12)) : e + bitLen m ≤ -12 := by
  rw [num_one] at h
  have := two_zpow_lt_iff.1 ((two_zpow_le_num hm e).trans_lt h)
  omega

theorem spTanh_large (ftz n : Bool) {m : Nat} (hm : m ≠ 0) {e : Int} (h : 10 ≤ num m e) :
    spTanh ftz (.fin n m e) = (if n then 0xBF800000 else 0x3F800000, flagNX) := by
  have hnot : ¬e + bitLen m ≤ -12 := by
    intro hle
    have hlt := (h.trans_lt (num_lt_two_zpow m e)).trans_le (two_zpow_le_iff.2 hle)
    norm_num at hlt
  have hten : (fcompare (.fin false m e) (.fin false 10 0) != .lt) = true := by
    have hval : signed false 10 0 = 10 := by simp [signed, num]
    rw [bne_iff_ne, ne_eq, fcompare_fin, compare_lt_iff_lt, hval, signed_false]
    exact not_lt.2 h
  rw [spTanh, if_neg hm, if_neg hnot, if_pos hten]

end Sys2Proof.Machine
end

section
/-! SUPPORT. Conversions (07 R166-R168): the integer a value rounds to, the codes that hold a value exactly, one byte of a register replaced;
and the rows of the table of special functions (03 R73). -/

namespace Sys2Proof.Machine

open Sys2Proof.Claims

/-! ## Rounding to an integer -/

/-- The mode that rounds the opposite numbers to the opposite integers. -/
def mirrored : RMode → RMode
  | .rdn => .rup
  | .rup => .rdn
  | .rne => .rne
  | .rtz => .rtz

theorem roundNum_true (rm : RMode) (v : ℚ) : roundNum rm true v = roundNum (mirrored rm) false v := by cases rm <;> rfl

theorem roundsToInteger_neg {rm : RMode} {v : ℚ} (hv : 0 ≤ v) {n : Int} (h : roundsToInteger (mirrored rm) v n) :
    roundsToInteger rm (-v) (-n) := by
  cases rm with
  | rne =>
    obtain ⟨hlo, hhi, htie⟩ := h
    refine ⟨by push_cast; linarith, by push_cast; linarith, fun ht => ?_⟩
    have heven : n % 2 = 0 := htie (ht.symm.imp (fun h => by push_cast at h; linarith) (fun h => by push_cast at h; linarith))
    omega
  | rtz =>
    obtain ⟨hlo, hhi⟩ := (if_pos hv).mp h
    by_cases h0 : 0 ≤ -v
    · have hv0 : v = 0 := by linarith
      rw [hv0] at hlo hhi
      have h1 : n ≤ 0 := by exact_mod_cast hlo
      have h2 : (0 : Int) < n + 1 := by exact_mod_cast hhi
      have hn : n = 0 := by omega
      rw [roundsToInteger, if_pos h0, hn, hv0]
      norm_num
    · rw [roundsToInteger, if_neg h0]
      exact ⟨by push_cast; linarith, by push_cast; linarith⟩
  | rdn =>
    obtain ⟨hlo, hhi⟩ := h
    exact ⟨by push_cast; linarith, by push_cast; linarith⟩
  | rup =>
    obtain ⟨hlo, hhi⟩ := h
    exact ⟨by push_cast; linarith, by push_cast; linarith⟩

/-- The nearest integer, the even one where two are as near. -/
theorem roundsToInteger_nearest {v : ℚ} (hv : 0 ≤ v) : roundsToInteger .rne v ((roundNum .rne false v).1 : Int) := by
  have hlo := Nat.floor_le hv
  have hhi := Nat.lt_floor_add_one v
  have hdown : raises .rne false ⌊v⌋₊ v = false ↔ 2 * v ≤ 2 * ⌊v⌋₊ + 1 ∧ (2 * (⌊v⌋₊ : ℚ) + 1 = 2 * v → ⌊v⌋₊ % 2 = 0) := by
    simp [raises]
  unfold roundNum
  split
  · next hr =>
    have hup : ¬(2 * v ≤ 2 * ⌊v⌋₊ + 1 ∧ (2 * (⌊v⌋₊ : ℚ) + 1 = 2 * v → ⌊v⌋₊ % 2 = 0)) := by rw [← hdown, hr]; decide
    refine ⟨?_, by push_cast; linarith, fun ht => ?_⟩
    · push_cast
      by_contra hlt
      exact hup ⟨by linarith, fun h => by linarith⟩
    · push_cast at ht
      have htie : 2 * (⌊v⌋₊ : ℚ) + 1 = 2 * v := by
        obtain ht | ht := ht <;> linarith
      have hodd : ¬⌊v⌋₊ % 2 = 0 := fun h0 => hup ⟨htie.ge, fun _ => h0⟩
      push_cast
      omega
  · next hr =>
    obtain ⟨hle, heven⟩ := hdown.1 (Bool.eq_false_iff.2 hr)
    refine ⟨by push_cast; linarith, by push_cast; linarith, fun ht => ?_⟩
    push_cast at ht
    have htie : 2 * (⌊v⌋₊ : ℚ) + 1 = 2 * v := by
      obtain ht | ht := ht <;> linarith
    exact_mod_cast heven htie

/-- A number that is no less than 0 rounds to the integer R167 names. -/
theorem roundsToInteger_roundNum (rm : RMode) {v : ℚ} (hv : 0 ≤ v) : roundsToInteger rm v ((roundNum rm false v).1 : Int) := by
  have hlo := Nat.floor_le hv
  have hhi := Nat.lt_floor_add_one v
  cases rm with
  | rne => exact roundsToInteger_nearest hv
  | rtz =>
    rw [roundsToInteger, if_pos hv]
    exact ⟨by exact_mod_cast hlo, by exact_mod_cast hhi⟩
  | rdn => exact ⟨by exact_mod_cast hlo, by exact_mod_cast hhi⟩
  | rup =>
    unfold roundNum
    split
    · next hr =>
      have hne : (⌊v⌋₊ : ℚ) ≠ v := by simpa [raises] using hr
      have hlt := lt_of_le_of_ne hlo hne
      exact ⟨by push_cast; linarith, by push_cast; linarith⟩
    · next hr =>
      have heq : (⌊v⌋₊ : ℚ) = v := by simpa [raises] using hr
      exact ⟨by push_cast; linarith, by push_cast; linarith⟩

/-- A rounding is inexact where it changes the number. -/
theorem roundNum_inexact (rm : RMode) (neg : Bool) {v : ℚ} (hv : 0 ≤ v) :
    (roundNum rm neg v).2 = true ↔ ((roundNum rm neg v).1 : ℚ) ≠ v := by
  by_cases h : ∃ k : Nat, v = k
  · obtain ⟨k, rfl⟩ := h
    rw [roundNum_natCast]
    simp
  · have hne (k : Nat) : (k : ℚ) ≠ v := fun hk => h ⟨k, hk.symm⟩
    exact iff_of_true (decide_eq_true (hne _)) (hne _)

theorem roundToInt_eq (rm : RMode) (neg : Bool) (m : Nat) (e : Int) :
    roundToInt rm neg m e = (signedM neg (roundNum rm neg (num m e)).1, (roundNum rm neg (num m e)).2) := by
  rw [roundToInt, roundAt_eq_roundNum, sub_zero]

theorem roundsToInteger_roundToInt (rm : RMode) (neg : Bool) (m : Nat) (e : Int) :
    roundsToInteger rm (signed neg m e) (roundToInt rm neg m e).1 := by
  rw [roundToInt_eq]
  have hv := num_nonneg m e
  cases neg with
  | false => exact roundsToInteger_roundNum rm hv
  | true =>
    rw [roundNum_true]
    exact roundsToInteger_neg hv (roundsToInteger_roundNum (mirrored rm) hv)

theorem roundToInt_inexact (rm : RMode) (neg : Bool) (m : Nat) (e : Int) :
    (roundToInt rm neg m e).2 = true ↔ ((roundToInt rm neg m e).1 : ℚ) ≠ signed neg m e := by
  rw [roundToInt_eq, roundNum_inexact rm neg (num_nonneg m e)]
  cases neg <;> simp [signedM, signed]

/-- An integer rounds to itself. -/
theorem roundsToInteger_self (rm : RMode) (n : Int) : roundsToInteger rm (n : ℚ) n := by
  cases rm with
  | rne => exact ⟨by linarith, by linarith, fun h => by obtain h | h := h <;> linarith⟩
  | rtz => rw [roundsToInteger]; split <;> exact ⟨by linarith, by linarith⟩
  | rdn => exact ⟨by linarith, by linarith⟩
  | rup => exact ⟨by linarith, by linarith⟩

/-- R167 determines the integer of a value and its flags. -/
theorem toIntVal_eq_of_intOf {lo hi : Int} {rm : RMode} {v : FVal} {z : Int} {fl : BitVec 5} (h : intOf lo hi rm false v z fl) :
    toIntVal lo hi rm v = (z, fl) := by
  cases v with
  | nan s => exact Prod.ext h.1.symm h.2.symm
  | inf n => exact Prod.ext h.1.symm h.2.symm
  | fin neg m e =>
    obtain ⟨hz, -, hfl⟩ := h _ (roundsToInteger_roundToInt rm neg m e)
    obtain ⟨hout, hin⟩ := hfl rfl
    have hx := roundToInt_inexact rm neg m e
    unfold toIntVal
    dsimp only
    by_cases h1 : (roundToInt rm neg m e).1 < lo
    · rw [if_pos h1] at hz ⊢
      rw [hz, hout (.inl h1)]
    · by_cases h2 : hi < (roundToInt rm neg m e).1
      · rw [if_neg h1, if_pos h2] at hz ⊢
        rw [hz, hout (.inr h2)]
      · rw [if_neg h1, if_neg h2] at hz ⊢
        obtain ⟨hexact, hinexact⟩ := hin ⟨not_lt.1 h1, not_lt.1 h2⟩
        by_cases hr : ((roundToInt rm neg m e).1 : ℚ) = signed neg m e
        · rw [hz, hexact hr, if_neg (fun ht => hx.1 ht hr)]
        · rw [hz, hinexact hr, if_pos (hx.2 hr)]

/-- An integer source is clamped without a flag. -/
theorem clampInt_eq_of_intOf {lo hi : Int} {rm : RMode} {neg : Bool} {m : Nat} {e y z : Int} {fl : BitVec 5} (hy : signed neg m e = y)
    (h : intOf lo hi rm true (.fin neg m e) z fl) : (clampInt lo hi y, (0 : BitVec 5)) = (z, fl) := by
  obtain ⟨hz, hfl, -⟩ := h y (hy ▸ roundsToInteger_self rm y)
  rw [hz, hfl rfl, clampInt]

/-! ## Conversions -/

theorem roundIEEE_flags (f : IFmt) (rm : RMode) (sat ftz : Bool) (v : FVal) :
    (roundIEEE f rm sat ftz v).2 ||| nvIf (isSig v) = (roundIEEE f rm sat ftz v).2 := by
  cases v with
  | nan s =>
    have hnan : (roundIEEE f rm sat ftz (.nan s)).2 = nvIf s := by simp [roundIEEE, ieeeRound, nvIf]
    rw [hnan, isSig, BitVec.or_self]
  | inf n => exact BitVec.or_zero
  | fin n m e => exact BitVec.or_zero

/-- A word whose number and flags are known. -/
theorem eq_of_toNat {r : W32 × BitVec 5} {c : Nat} {fl : BitVec 5} (h : r.1.toNat = c ∧ r.2 = fl) : (BitVec.ofNat 32 c, fl) = r :=
  Prod.ext (by rw [← h.1, BitVec.ofNat_toNat, BitVec.setWidth_eq]) h.2.symm

/-- The element of an 8-bit format is the byte's value of R166. -/
theorem elemVal_byte {fmt : BitVec 5} (h : fmt8Ok fmt = true) (b : Nat) :
    elemVal fmt b = if fmt = 0x1F then (if 128 ≤ b then .fin true (256 - b) 0 else .fin false b 0)
      else decodeBinary8 b (fmt.toNat / 4 + 1) (fmt.toNat / 2 % 2 == 1) (fmt.toNat % 2 == 1) := by
  have hne : fmt ≠ 0x1C ∧ fmt ≠ 0x1D ∧ fmt ≠ 0x1E := by
    refine ⟨?_, ?_, ?_⟩ <;> rintro rfl <;> exact absurd h (by decide)
  rw [elemVal, if_neg hne.1, if_neg hne.2.1, if_neg hne.2.2]
  by_cases hf : fmt = 0x1F
  · rw [if_pos hf, if_pos hf]
    by_cases hb : 128 ≤ b <;> simp [hb]
  · rw [if_neg hf, if_neg hf]
    rfl

theorem ofSigned_toInt (a : W32) : ofSigned a.toInt 0 false = if a.toInt < 0 then .fin true a.toInt.natAbs 0 else .fin false a.toNat 0 := by
  have hcond := BitVec.toInt_eq_toNat_cond a
  have hlt := a.isLt
  unfold ofSigned
  by_cases hneg : a.toInt < 0
  · rw [if_neg hneg.ne, if_pos hneg, decide_eq_true hneg]
  · have hnat : a.toInt.natAbs = a.toNat := by split at hcond <;> omega
    rw [if_neg hneg, decide_eq_false hneg, hnat]
    split
    · next h0 => rw [← hnat, h0]; rfl
    · rfl

/-- A legal cvt reads the part of its source that R166 names. -/
theorem cvtSource_eq_partValue {src dst : CvtKind} {fmt : BitVec 5} {sel : BitVec 2} (h : cvtDescOk fmt sel src dst = true) (a : W32) :
    cvtSource src fmt sel a = partValue src fmt sel a := by
  obtain ⟨hfmt, hsel⟩ := Bool.and_eq_true_iff.1 h
  cases src with
  | f32 => rfl
  | f16 => rw [cvtSource, partValue, Nat.mod_eq_of_lt (of_decide_eq_true hsel)]
  | bf16 => rw [cvtSource, partValue, Nat.mod_eq_of_lt (of_decide_eq_true hsel)]
  | b8 => exact elemVal_byte hfmt _
  | i32 => exact ofSigned_toInt a
  | n32 => rfl

/-- R167 determines the integer of a source part. -/
theorem toIntR_eq_of_intOf {src : CvtKind} {fmt : BitVec 5} {sel : BitVec 2} {a : W32} {lo hi : Int} {rm : RMode} {z : Int} {fl : BitVec 5}
    (h : intOf lo hi rm (src == .i32 || src == .n32) (partValue src fmt sel a) z fl) :
    toIntR src a (partValue src fmt sel a) lo hi rm = (z, fl) := by
  cases src
  case f32 | f16 | bf16 | b8 => exact toIntVal_eq_of_intOf h
  case i32 =>
    have hcond := BitVec.toInt_eq_toNat_cond a
    have hlt := a.isLt
    by_cases hneg : a.toInt < 0
    · rw [show partValue .i32 fmt sel a = _ from if_pos hneg] at h
      refine clampInt_eq_of_intOf (y := a.toInt) ?_ h
      rw [signed_true, num, zpow_zero, mul_one, ← Int.cast_natCast, ← Int.cast_neg]
      congr 1
      omega
    · rw [show partValue .i32 fmt sel a = _ from if_neg hneg] at h
      refine clampInt_eq_of_intOf (y := a.toInt) ?_ h
      rw [signed_false, num, zpow_zero, mul_one, ← Int.cast_natCast]
      congr 1
      split at hcond <;> omega
  case n32 => exact clampInt_eq_of_intOf (y := a.toNat) (by rw [signed_false, num, zpow_zero, mul_one, Int.cast_natCast]) h

/-- R167 determines a conversion from a source part. -/
theorem cvtR_eq_of_converted {src dst : CvtKind} {fmt : BitVec 5} {sel : BitVec 2} {env : FEnv} {a : W32} {r : W32 × BitVec 5}
    (hsrc : cvtSource src fmt sel a = partValue src fmt sel a) (h : converted src dst fmt env (partValue src fmt sel a) r) :
    cvtR src dst fmt sel env a = r := by
  have hword (z : Int) : BitVec.ofNat 32 ((BitVec.ofInt 32 z).toNat % 2 ^ 32) = BitVec.ofInt 32 z := by
    rw [Nat.mod_eq_of_lt (BitVec.isLt _), BitVec.ofNat_toNat, BitVec.setWidth_eq]
  have hint {lo hi : Int} {rm : RMode} (h : ∃ z, intOf lo hi rm (src == .i32 || src == .n32) (partValue src fmt sel a) z r.2 ∧
      r.1 = BitVec.ofInt 32 z) : (let (z, fl) := toIntR src a (partValue src fmt sel a) lo hi rm
        (BitVec.ofNat 32 ((BitVec.ofInt 32 z).toNat % 2 ^ 32), fl)) = r := by
    obtain ⟨z, hz, hr⟩ := h
    rw [toIntR_eq_of_intOf hz]
    exact Prod.ext ((hword z).trans hr.symm) rfl
  unfold cvtR
  rw [hsrc]
  cases dst
  case f32 | f16 | bf16 => exact eq_of_toNat ⟨h.1, h.2.trans (roundIEEE_flags ..).symm⟩
  case i32 | n32 => exact hint h
  case b8 =>
    unfold converted at h
    dsimp only at h ⊢
    split
    · next hf =>
      obtain ⟨z, hz, hr⟩ := (if_pos hf).mp h
      rw [toIntR_eq_of_intOf hz]
      refine eq_of_toNat ⟨hr.trans ?_, rfl⟩
      rw [BitVec.toNat_ofInt]
      omega
    · next hf => exact eq_of_toNat ((if_neg hf).mp h)

/-! ## Bytes -/

theorem getLsbD_byteMask (k : Nat) : (0xFF : W32).getLsbD k = decide (k < 8) := by
  rw [show (0xFF : W32) = BitVec.ofNat 32 (2 ^ 8 - 1) from rfl, BitVec.getLsbD_ofNat, Nat.testBit_two_pow_sub_one, ← Bool.decide_and]
  exact decide_eq_decide.2 (by omega)

/-- One byte of a register replaced. -/
theorem getLsbD_setByte (old b : W32) (j : Nat) {i : Nat} (hi : i < 32) :
    (setByte old j b).getLsbD i = if i / 8 = j then b.getLsbD (i % 8) else old.getLsbD i := by
  simp only [setByte, BitVec.getLsbD_or, BitVec.getLsbD_and, BitVec.getLsbD_not, BitVec.getLsbD_shiftLeft, getLsbD_byteMask, hi, decide_true,
    Bool.true_and]
  by_cases hj : i / 8 = j
  · have hoff : i - 8 * j = i % 8 := by omega
    have hin : i % 8 < 8 := Nat.mod_lt _ (by decide)
    simp [hj, hoff, hin, show ¬i < 8 * j by omega]
  · by_cases hlt : i < 8 * j
    · simp [hj, hlt]
    · simp [hj, show ¬i - 8 * j < 8 by omega]

/-- Of the codes of bfloat16 one holds a value exactly, the one its rounding gives. -/
theorem eq_of_holdsExactly {c : Nat} (hc : c < 65536) {v : FVal} (h : holdsExactly c v) : (roundIEEE bf16 .rne false false v).1 = c := by
  rw [roundIEEE_plain]
  have hround (hn : ∀ sig, ieeeVal bf16 c ≠ .nan sig) : (ieeeRound bf16 .rne (ieeeVal bf16 c)).1 = c :=
    congrArg Prod.fst (ieeeRound_ieeeVal .rne hc hn)
  cases v with
  | nan s => exact h.symm
  | inf n =>
    have hval : ieeeVal bf16 c = .inf n := h
    rw [← hval]
    exact hround (by simp [hval])
  | fin n m e =>
    obtain ⟨m2, e2, hval, hnum⟩ := h
    rw [ieeeRound_congr_num bf16 .rne n hnum.symm, ← hval]
    exact hround (by simp [hval])

/-- R168 determines what unpack8 delivers. -/
theorem unpackR_eq_of_holdsExactly {fmt : BitVec 5} (hfmt : fmt8Ok fmt = true) (half : Bool) {a w : W32}
    (h : ∀ i, i < 2 → holdsExactly (w.toNat / 2 ^ (16 * i) % 65536) (partValue .b8 fmt (BitVec.ofNat 2 ((if half then 2 else 0) + i)) a)) :
    unpackR fmt half a = w := by
  have hbyte (i : Nat) (hi : i < 2) : (roundIEEE bf16 .rne false false (elemVal fmt
      (a.toNat / 2 ^ (8 * ((if half then 2 else 0) + i)) % 256))).1 = w.toNat / 2 ^ (16 * i) % 65536 := by
    have hsel : (BitVec.ofNat 2 ((if half then 2 else 0) + i)).toNat = (if half then 2 else 0) + i := by
      rw [BitVec.toNat_ofNat, Nat.mod_eq_of_lt (by cases half <;> simp <;> omega)]
    refine eq_of_holdsExactly (Nat.mod_lt _ (by decide)) ?_
    rw [elemVal_byte hfmt, ← hsel]
    exact h i hi
  have hlow := hbyte 0 (by decide)
  have hhigh := hbyte 1 (by decide)
  have hsplit : (a.toNat / 2 ^ (if half then 16 else 0) % 65536 % 256 = a.toNat / 2 ^ (8 * ((if half then 2 else 0) + 0)) % 256) ∧
      (a.toNat / 2 ^ (if half then 16 else 0) % 65536 / 256 = a.toNat / 2 ^ (8 * ((if half then 2 else 0) + 1)) % 256) := by
    cases half <;> constructor <;> simp <;> omega
  have hw := w.isLt
  simp only [unpackR, hsplit.1, hsplit.2, hlow, hhigh]
  have hwhole : w.toNat / 2 ^ (16 * 0) % 65536 + w.toNat / 2 ^ (16 * 1) % 65536 * 65536 = w.toNat := by omega
  rw [hwhole, BitVec.ofNat_toNat, BitVec.setWidth_eq]

end Sys2Proof.Machine

namespace Sys2Proof.Claims

open Sys2Proof.Machine

/-! ## Majors 0x0E and 0x0F -/

theorem cvt_writes {src dst : CvtKind} {fmt : BitVec 5} {sel : BitVec 2} {f : FEnv → W32 → W32 × BitVec 5}
    (hf : ∀ env a, converted src dst fmt env (partValue src fmt sel a) (f env a)) {d a : OField} {g : Guard}
    (hwf : wellFormed (.cvt d a fmt sel g src dst) = true) :
    writes32 (.cvt d a fmt sel g src dst) g d (fun x l => f (envOf x l) (x.src l a)) := by
  obtain ⟨-, hdesc⟩ := Bool.and_eq_true_iff.1 hwf
  have hcvt (env : FEnv) (w : W32) : f env w = cvtR src dst fmt sel env w :=
    (cvtR_eq_of_converted (cvtSource_eq_partValue hdesc w) (hf env w)).symm
  simp only [hcvt, ← fenv_eq_envOf]
  exact writes32_of_aluF fun _ => rfl

theorem pack8_writes {fmt : BitVec 5} {sel : BitVec 2} {f : FEnv → W32 → W32 × BitVec 5}
    (hf : ∀ env a, converted .f32 .b8 fmt env (ieeeVal f32 a.toNat) (f env a)) (d a : OField) (g : Guard) :
    ∃ r : Ctx → Nat → W32, writes32 (.pack8 d a fmt sel g) g d (fun x l => (r x l, (f (envOf x l) (x.src l a)).2)) ∧
      ∀ x l i, i < 32 → (r x l).getLsbD i =
        if i / 8 = sel.toNat then (f (envOf x l) (x.src l a)).1.getLsbD (i % 8) else (x.src l d).getLsbD i := by
  have hcvt (env : FEnv) (w : W32) : f env w = cvtR .f32 .b8 fmt 0 env w :=
    (cvtR_eq_of_converted (src := .f32) (sel := 0) (a := w) rfl (hf env w)).symm
  refine ⟨fun x l => setByte (x.src l d) sel.toNat (f (envOf x l) (x.src l a)).1, ?_, fun x l i hi => getLsbD_setByte _ _ _ hi⟩
  simp only [hcvt, ← fenv_eq_envOf]
  exact writes32_of_aluF fun _ => rfl

theorem unpack8_result {fmt : BitVec 5} {half : Bool} {f : W32 → W32}
    (hf : ∀ a i, i < 2 → holdsExactly ((f a).toNat / 2 ^ (16 * i) % 65536)
      (partValue .b8 fmt (BitVec.ofNat 2 ((if half then 2 else 0) + i)) a)) {d a : OField} {g : Guard}
    (hwf : wellFormed (.unpack8 d a fmt half g) = true) : result1 (.unpack8 d a fmt half g) g d a f := by
  obtain ⟨-, hfmt⟩ := Bool.and_eq_true_iff.1 hwf
  have hunpack (w : W32) : f w = unpackR fmt half w := (unpackR_eq_of_holdsExactly hfmt half (hf w)).symm
  unfold result1
  simp only [hunpack]
  exact writes32_of_alu fun _ => rfl

theorem special_of_aluF {i : Instr} {g : Guard} {d a : OField} {f : RMode → Bool → FVal → Nat × BitVec 5}
    (hexec : ∀ s, exec i s = aluF i g d (fun x l => asReg (f (x.fenv l).rm (x.fenv l).ftz (fv (x.src l a)))) s) : special i g d a f := by
  unfold special
  simp only [← fenv_eq_envOf]
  exact writes32_of_aluF hexec

theorem spSin_small (ftz : Bool) {a : W32} {n : Bool} {m : Nat} {e : Int} (h : fv a = .fin n m e) (hm : m ≠ 0) (hlt : num m e < num 1 (-12)) :
    itself ftz a (spSin ftz (.fin n m e)) := by
  rw [spSin, if_neg hm, if_pos (bitLen_of_small hm hlt)]
  exact itself_spSame ftz h hm

theorem spTanh_small (ftz : Bool) {a : W32} {n : Bool} {m : Nat} {e : Int} (h : fv a = .fin n m e) (hm : m ≠ 0) (hlt : num m e < num 1 (-12)) :
    itself ftz a (spTanh ftz (.fin n m e)) := by
  rw [spTanh, if_neg hm, if_pos (bitLen_of_small hm hlt)]
  exact itself_spSame ftz h hm

/-- Settles O14: a conversion's value is determined by its source part; quotients and roots are found by their exact remainders, and the
rest are the rows of R73's table. -/
theorem conversionAndSpecialResults : Obligations.ConversionAndSpecialResults := by
  unfold Obligations.ConversionAndSpecialResults
  refine ⟨fun _ _ _ _ _ hf _ _ _ hwf => cvt_writes hf hwf, fun _ _ _ hf d a g _ => pack8_writes hf d a g,
    fun _ _ _ hf _ _ _ hwf => unpack8_result hf hwf, ?_⟩
  dsimp only
  refine ⟨fun d a g => ?words, fun rm ftz => ⟨?nans, ?zeros, ?infs, ?posInfs, ?negs, ?rcps, ?roots, ?finites⟩⟩
  case words =>
    exact ⟨special_of_aluF fun _ => rfl, special_of_aluF fun _ => rfl, special_of_aluF fun _ => rfl, special_of_aluF fun _ => rfl,
      special_of_aluF fun _ => rfl, special_of_aluF fun _ => rfl, special_of_aluF fun _ => rfl, special_of_aluF fun _ => rfl⟩
  case nans =>
    simp only [List.forall_mem_cons, List.not_mem_nil, false_imp_iff, implies_true, and_true]
    exact ⟨⟨rfl, rfl⟩, ⟨rfl, rfl⟩, ⟨rfl, rfl⟩, ⟨rfl, rfl⟩, ⟨rfl, rfl⟩, ⟨rfl, rfl⟩, ⟨rfl, rfl⟩, rfl, rfl⟩
  case zeros =>
    intro neg e
    cases neg <;> cases ftz <;> exact ⟨rfl, rfl, rfl, rfl, rfl, rfl, rfl, rfl⟩
  case infs =>
    intro neg
    cases neg <;> cases ftz <;> exact ⟨rfl, rfl, rfl, rfl, rfl⟩
  case posInfs => exact ⟨rfl, rfl, rfl⟩
  case negs =>
    simp only [List.forall_mem_cons, List.not_mem_nil, false_imp_iff, implies_true, and_true]
    exact ⟨⟨rfl, fun _ _ hm => if_neg hm⟩, ⟨rfl, fun _ _ hm => if_neg hm⟩, rfl, fun _ _ hm => if_neg hm⟩
  case rcps => exact fun neg m e hm => spRcp_roundsOnce ftz neg hm e
  case roots => exact fun m e hm => ⟨spRsq_roundsOnce ftz hm e, spSqrt_roundsOnce rm ftz hm e⟩
  case finites =>
    intro a neg m e hfin hm
    obtain ⟨-, he, -⟩ := fv_fin hfin
    refine ⟨fun j hj hlt => spExp2_integer ftz neg hm he hj hlt, spExp2_overflow ftz neg hm he, ?_,
      fun hlt => ⟨spSin_small ftz hfin hm hlt, spTanh_small ftz hfin hm hlt⟩, spTanh_large ftz neg hm⟩
    rintro j rfl
    exact ⟨spLog2_power ftz hm, spLog2_between ftz hm⟩

end Sys2Proof.Claims
end
